-- ==== Sys2Proof/Word.lean ====
section
/-!
DEFINITION. Word.lean: the word types of the node and their plainest conversions.
Bytes and words are bit vectors because the spec treats them as bits (register contents, payload bytes, stored
elements). Counts, ticks, ids, addresses and sizes are `Nat`.
-/

namespace Sys2Proof

/-- A byte of a payload, a slot image, the flash or a record. -/
abbrev Byte := BitVec 8

/-- A 32-bit register word (R520) or an FP32 value as bits. -/
abbrev Word32 := BitVec 32

/-- A 64-bit quantity: a CRC-64 (R54), a snapshot word (R510). -/
abbrev Word64 := BitVec 64

/-- Low `n` bits of a natural number, as a natural number. -/
def lowBits (n x : Nat) : Nat := x % 2 ^ n

/-- Bits [hi:lo] of a natural number (the spec's field notation). -/
def bitsOf (hi lo x : Nat) : Nat := (x / 2 ^ lo) % 2 ^ (hi + 1 - lo)

/-- Bit `b` of a natural number. -/
def bitOf (b x : Nat) : Bool := (x / 2 ^ b) % 2 == 1

/-- 1 for true, 0 for false. -/
def b2n (b : Bool) : Nat := if b then 1 else 0

/-- Division rounded up. -/
def ceilDiv (a b : Nat) : Nat := (a + b - 1) / b

/-- A count that stops at `cap` (the spec's saturating counters). -/
def satAdd (cap a b : Nat) : Nat := min cap (a + b)

/-- The cap of a 32-bit saturating counter. -/
def cap32 : Nat := 4294967295

end Sys2Proof
end

