-- ==== Sys2Proof/Syntax.lean ====
section
/-!
DEFINITION. Syntax.lean: the commands of the node, one constructor of `Instr` per row of the opcode table, and the
operand types they carry: endpoints, status codes, sequence and page handles, command descriptors, packets, flits and
what the surroundings report (temperatures, word errors, self-test results).
-/

namespace Sys2Proof

/-- An endpoint id (R278): a node or a host adapter. -/
inductive Endpoint where
  | node (id : Nat)
  | adapter (id : Nat)
  deriving DecidableEq, Repr

/-- The status encoding of R8. -/
inductive Status where
  | ok | partialDone | noPage | busyRetry | refusedFit | staleMap | notOwner | noState | fenced | staleGen | dup
  | keyRetired | authFail | poison | lostUpdate | conflict | tierLate | lifeEnd | internal
  deriving DecidableEq, Repr

/-- Bits [63:20] of a sequence handle, which alone identify a sequence (R48). -/
structure SeqId where
  tenant : Nat
  sequence : Nat
  deriving DecidableEq, Repr

/-- A sequence handle with its flags (R48). -/
structure SeqHandle where
  tenant : Nat := 0
  sequence : Nat := 0
  repl : Nat := 0
  training : Bool := false
  cls : Nat := 0
  noskim : Bool := false
  deriving DecidableEq, Repr

/-- A page handle (R56); GEN 0 marks the null handle. -/
structure PageHandle where
  node : Nat := 0
  lpn : Nat := 0
  gen : Nat := 0
  tier : Nat := 0
  deriving DecidableEq, Repr

/-- The tensor block that APPEND, TRIM, HINT and SKIM_REFRESH carry at 0x1C to 0x1F. -/
structure TensorBlock where
  layerFirst : Nat
  layerLast : Nat
  headFirst : Nat
  headCount : Nat
  deriving DecidableEq, Repr

/-- The fields of ATTN_FWD (R93), shared by ATTN_BWD (R104). -/
structure AttnDesc where
  causal : Bool := false
  bias : Nat := 0
  outBf16 : Bool := false
  viaMerge : Bool := false
  layer : Nat := 0
  headFirst : Nat := 0
  headCount : Nat := 1
  group : Nat := 1
  qtok : Nat := 1
  qfmt : Nat := 0x30
  qPos : Nat := 0
  kvStart : Nat := 0
  kvEnd : Nat := 1
  window : Nat := 0
  skim : Nat := 0
  sinks : Nat := 0
  softcap : Nat := 0
  scale : Nat := 0
  mergeNode : Nat := 0
  tag : Nat := 0
  deriving DecidableEq, Repr

/-- The fields of MERGE (R111). -/
structure MergeDesc where
  outBf16 : Bool := false
  viaMerge : Bool := false
  sum : Bool := false
  layer : Nat := 0
  headFirst : Nat := 0
  headCount : Nat := 1
  group : Nat := 1
  qtok : Nat := 1
  maxInputs : Nat := 1
  timeout : Nat := 1
  kvStart : Nat := 0
  kvEnd : Nat := 1
  headDim : Nat := 64
  mergeNode : Nat := 0
  tag : Nat := 0
  deriving DecidableEq, Repr

/-- What a descriptor asks for, once its opcode-specific bytes are read (R89, R306, R409 and the prefix opcodes). -/
inductive Body where
  | append (tb : TensorBlock) (create : Bool) (ntok format pos : Nat)
  | fork (parent : SeqHandle) (pos : Nat)
  | trim (tb : TensorBlock) (start limit : Nat)
  | park
  | wake
  | evict
  | hint (tb : TensorBlock) (kind start limit : Nat)
  | attnFwd (a : AttnDesc)
  | attnBwd (a : AttnDesc) (dofmt gradStep : Nat)
  | gradDrain (release outBf16 : Bool) (layer headFirst headCount gradStep kvStart kvEnd : Nat)
  | merge (m : MergeDesc)
  | skimRefresh (tb : TensorBlock) (start limit : Nat)
  | prefixSearch (stopAtMiss cascade : Bool) (count maskChain maskScope cseq : Nat)
  | prefixInsert (count : Nat)
  | prefixDelete (bySeq : Bool) (count : Nat)
  | frameRead (handle : PageHandle) (offset length deadline : Nat)
  | frameWrite (layer kvHead : Nat) (handle : PageHandle) (offset length pos : Nat)
  | guestPut (create commit : Bool) (offset objLen : Nat)
  | guestGet (offset length : Nat)
  | guestRelease
  | qwait (waitQueue count timeout : Nat)
  | ledgerRead (grant region count line : Nat)
  | ledgerWrite (keep region count line : Nat)
  | ledgerRelease (region count line : Nat)
  | ledgerPublish (region expect : Nat)
  | ledgerRecall (region line : Nat) (downgrade : Bool) (version : Nat)
  | reserved
  deriving DecidableEq, Repr

/-- A command descriptor (R88) as the node reads it. `v1` marks a translated SZ-410 descriptor (R135); `formed` is
false where R90 refuses the descriptor: a reserved opcode or version, or a field outside its range. -/
structure Desc where
  opcode : Nat := 0
  v1 : Bool := false
  formed : Bool := true
  allowPartial : Bool := false
  replicaOk : Bool := false
  epoch : Nat := 0
  reqId : Nat := 0
  queue : Nat := 0
  seq : SeqHandle := {}
  seqZero : Bool := false
  payloadLen : Nat := 0
  body : Body := .reserved
  deriving DecidableEq, Repr

/-- A command in the node: its descriptor, its payload, and how it came: the source endpoint, the association's tenant
and key generation (R279), SYS and MGMT marks, the arrival sub-port and die (R25, R26), and, for a chained command
(R335), the predecessor that sent it. -/
structure Command where
  src : Endpoint
  tenant : Nat := 0
  keygen : Nat := 0
  sys : Bool := false
  mgmt : Bool := false
  viaLink : Bool := false
  port : Nat := 0
  sub : Nat := 0
  die : Nat := 0
  chainedFrom : Option Nat := none
  chainHop : Nat := 0
  desc : Desc
  payload : List Byte := []
  deriving DecidableEq, Repr

/-- A delivered message as it stands before its content is read: where it came from and its bytes. -/
structure Inbound where
  src : Endpoint
  tenant : Nat := 0
  keygen : Nat := 0
  sys : Bool := false
  mgmt : Bool := false
  viaLink : Bool := false
  port : Nat := 0
  sub : Nat := 0
  die : Nat := 0
  bytes : List Byte := []
  deriving DecidableEq, Repr

/-- The key of a command: source endpoint and REQ_ID (R131). -/
structure CmdKey where
  src : Endpoint
  reqId : Nat
  deriving DecidableEq, Repr

/-- A DRAM row as the stack names it (R188), with the slots of its channel that have bytes in it (which only the stack
knows: an input from the surroundings). -/
structure RowRef where
  sid : Nat := 0
  bank : Nat := 0
  row : Nat := 0
  slots : List Nat := []
  deriving DecidableEq, Repr

/-- A word of a read whose check found an error (R201, R203): the symbols of the 34 that are wrong, and whether on-die ECC
reports an uncorrectable error for it. `plain` names the stack and the plain pseudo-channel of a word of metadata that the
operation reads. -/
structure WordErr where
  symbols : Nat := 1
  severe : Bool := false
  row : RowRef := {}
  plain : Option (Nat × Nat) := none
  deriving DecidableEq, Repr

/-- The code corrects one wrong symbol and detects two (R201); more count as detected (log entry 94). -/
def WordErr.uncorrectable (e : WordErr) : Bool := e.severe || decide (2 ≤ e.symbols)

/-- The fields of a Nasol packet (R279) with its body and what the port saw of its frame (R276). -/
structure Packet where
  port : Nat := 0
  sub : Nat := 0
  frameOk : Bool := true
  ver : Nat := 1
  type : Nat := 0
  first : Bool := false
  last : Bool := false
  ackReq : Bool := false
  ackv : Bool := false
  sys : Bool := false
  dupFlag : Bool := false
  src : Endpoint
  dst : Endpoint
  tenant : Nat := 0
  keygen : Nat := 0
  attempt : Nat := 0
  bodyLen : Nat := 0
  tsn : Nat := 0
  ackTsn : Nat := 0
  sack : BitVec 64 := 0
  credit : Nat := 0
  msgLen : Nat := 0
  roll : Nat := 0
  ackRoll : Nat := 0
  tagOk : Bool := true
  body : List Byte := []
  deriving DecidableEq, Repr

/-- A frame as a sub-port receives it (R274 to R276): whether its FCS is correct, its bytes from DA to the end of the Nasol
header, the sealed body with the tag, whether the tag verifies under the key of its direction, and the body that the tag
opens to. -/
structure RxFrame where
  port : Nat := 0
  sub : Nat := 0
  fcsOk : Bool := true
  head : List Byte
  sealed : List Byte := []
  tagOk : Bool := true
  body : List Byte := []
  deriving DecidableEq, Repr

/-- An association (R282): the peer and the tenant, or the fabric itself. -/
structure AssocKey where
  peer : Endpoint
  tenant : Nat := 0
  sys : Bool := false
  deriving DecidableEq, Repr

/-- A Ranup Link flit as received, after the FEC (R394, R395): its bytes, the implicit number of a data flit, and of a sealed one
whether its tag holds and what its payload opens to. -/
structure Flit where
  bytes : List Byte
  seq : Nat := 0
  tagOk : Bool := true
  opened : List Byte := []
  deriving DecidableEq, Repr

/-- The fields of an identity record (R257), but for its signature. -/
structure IdRecord where
  magic : Nat := 0x4C524543
  version : Nat := 1
  cartridgeId : Nat := 0
  serial : List Byte := []
  model : List Byte := []
  nodeKeyHash : List Byte := []
  enrolBoot : Nat := 0
  enrolCount : Nat := 0
  ratedTb : Nat := 0
  duwBase : Nat := 0
  lbas : Nat := 0
  deriving DecidableEq, Repr

/-- What the surroundings report of a cartridge at insertion (R254): what trained, what Identify says (SN and MN among it),
the identity record with whether its signature verifies under the node's attestation key, and the Data Units Written of its
SMART log. -/
structure CartridgeInfo where
  pcieOk : Bool := true
  width : Nat := 8
  gen5 : Bool := true
  nvmeOk : Bool := true
  namespaceOk : Bool := true
  sizeGib : Nat := 1024
  queuesOk : Bool := true
  serial : List Byte := []
  model : List Byte := []
  record : IdRecord := {}
  sigOk : Bool := true
  dataUnits : Nat := 0
  deriving DecidableEq, Repr

/-- A cartridge's SMART log as read (R265). -/
structure SmartLog where
  percentageUsed : Nat := 0
  dataUnitsWritten : Nat := 0
  readOnly : Bool := false
  deriving DecidableEq, Repr

/-- A failed check of the node's own hardware whose source no other row raises (R476): the source, the unit's number (a cipher
engine, a lane of the port, or the quadrant of a switch) and the DETAIL of its record. -/
structure SelfCheck where
  source : Nat
  num : Nat := 0
  detail : Nat := 0
  deriving DecidableEq, Repr

/-- What calibration finds in one stack (R210). -/
structure StackCal where
  trained : Bool := true
  boundOk : Bool := true
  failStep : Nat := 0
  rowsRepaired : Nat := 0
  failedUnits : List (Nat × Nat) := []
  failedSpares : List Nat := []
  failedReducers : List Nat := []
  deriving DecidableEq, Repr

/-- What the surroundings and the self-tests answer during power-up (R452): the step that fails or exceeds its bound
(if any), the interval counter at the end of each of steps 2 to 10, and the results of calibration, training and
self-tests. -/
structure BootEnv where
  badStep : Option Nat := none
  badStepBound : Bool := true
  stackCals : List StackCal := []
  lpTrained : List Bool := [true, true, true, true, true, true, true, true]
  lpHot : List Bool := [false, false, false, false, false, false, false, false]
  failedTiles : List Nat := []
  failedSpareTiles : List Nat := []
  failedLanes : List (Nat × Nat) := []
  failedFabricLanes : List (Nat × Nat) := []
  subportsUp : List (Nat × Nat) := []
  cartridges : List (Option CartridgeInfo) := [none, none]
  hlRefOk : Bool := true
  bridgeModules : Nat := 16
  stepEnds : List Nat := []
  deriving DecidableEq, Repr

/-- The steps of Ranup Link training (R397). -/
inductive LinkEvent where
  | bitLock (lanes : Nat)
  | widthAgreed (width : Nat) (reversed : Bool)
  | equalised (gen : Nat)
  | flitLock
  | boundExceeded
  deriving DecidableEq, Repr

/-- Why the Ranup Link goes down (R399), apart from what has its own row. -/
inductive DownCause where
  | trainingLost
  | adapterSignal
  deriving DecidableEq, Repr

/-- The reference clocks of OTHER_REFCLK_LOSS (R549). -/
inductive RefClock where
  | serdes (die : Nat)
  | cellar
  | bridge
  | xspi
  deriving DecidableEq, Repr

/-- The memory reference clocks of R550. -/
inductive MemClock where
  | hbm (die : Nat)
  | lp (die : Nat)
  deriving DecidableEq, Repr

/-- The low-word counters of a QUAD entry whose read latches (R536). -/
inductive QuadCounter where
  | mashVis | tileVis | folds | dec | enc
  deriving DecidableEq, Repr

/-- One frame of a COPY FRAMES message (R340): the sender's handle, the tensor and page, and the image unless REF. -/
structure CopyEntry where
  handle : PageHandle
  tensor : Nat
  page : Nat
  isRef : Bool := false
  image : List Byte := []
  deriving DecidableEq, Repr

/-- The commands of the node, one constructor per row of the opcode table, in the table's order. -/
inductive Instr where
  | append (c : Command)
  | fork (c : Command)
  | trim (c : Command) (errs : List (List WordErr))
  | park (c : Command)
  | wake (c : Command)
  | evict (c : Command)
  | hint (c : Command)
  | attnFwd (c : Command)
  | attnBwd (c : Command)
  | gradDrainRead (c : Command)
  | gradDrainRelease (c : Command)
  | merge (c : Command)
  | skimRefresh (c : Command)
  | prefixSearch (c : Command) (parityBad : List Nat)
  | prefixInsert (c : Command) (parityBad : List Nat)
  | prefixDelete (c : Command) (parityBad : List Nat)
  | frameRead (c : Command) (errs : List WordErr) (crcBad : Bool)
  | frameWrite (c : Command)
  | guestPut (c : Command)
  | guestGet (c : Command)
  | guestRelease (c : Command)
  | qwait (c : Command)
  | ledgerRead (c : Command) (badLines : List Nat)
  | ledgerWrite (c : Command)
  | ledgerRelease (c : Command)
  | ledgerPublish (c : Command)
  | recallAnswer (src : Endpoint) (reqId : Nat) (data : List Byte)
  | recallTimeout (reqId : Nat)
  | commandArrival (m : Inbound)
  | outcomeExpiry (key : CmdKey)
  | admission (die : Fin 2)
  | planVisits (die : Fin 2)
  | mashVisit (visit : Nat) (errs : List WordErr)
  | tileVisit (visit : Nat) (errs : List WordErr)
  | fallbackVisit (visit : Nat) (bad : Bool)
  | mashWaitExpiry (visit : Nat)
  | stageWaitExpiry (visit : Nat)
  | fallbackDeadline (visit : Nat)
  | frameReadDeadline (key : CmdKey)
  | appendBoundExpiry (key : CmdKey)
  | appendStart (key : CmdKey) (errs : List (List WordErr))
  | frameCommit (lpn : Nat) (badWord verifyBad : Bool)
  | reserveRefill (seq : SeqId) (tensor : Nat)
  | zeroFill (stack : Fin 12) (pc : Nat)
  | preemptVictim
  | promotion (lpn : Nat)
  | demotion (lpn : Nat)
  | stagingStart (lpn : Nat)
  | stagingComplete (lpn : Nat) (bad : Bool)
  | writeDownComplete (lpn : Nat) (bad : Bool)
  | extentMove (lpn : Nat)
  | ageSweep
  | hregAdd
  | hregRemove
  | regionDrained (region : Nat)
  | codecEncode (job : Nat) (errs : List WordErr := [])
  | codecDecode (job : Nat) (readAs : Option (List Byte)) (linkErrs : Nat := 0)
  | codecLaneFail (cluster : Fin 4) (lane : Nat)
  | burstEntry (stack : Fin 12) (pc : Nat)
  | burstClose (stack : Fin 12) (pc : Nat)
  | tokenGrant (stack : Fin 12)
  | refreshDue (stack : Fin 12) (pc : Nat)
  | gradientAdd (contribution : Nat) (unitFailed : Bool) (errs : List WordErr := [])
  | clone (stack : Fin 12) (srcPc srcSlot dstPc dstSlot : Nat) (errs : List WordErr)
  | hbmTempRead (temps : List Nat)
  | quotaRaise (stack : Fin 12)
  | mashUnitFail (stack : Fin 12) (pc unit : Nat) (reducer spareOk : Bool)
  | frameMove (lpn : Nat) (errs : List WordErr) (crcBad : Bool := false)
  | lpMr4Read (hot : List Bool) (temps : List Nat)
  | tileFail (tile : Fin 64) (phys : Nat) (spareOk : Bool)
  | bwdChainForm (quad : Fin 4)
  | bwdChainIdle (quad : Fin 4)
  | fwdChainReturn (quad : Fin 4)
  | mergeInput (m : Inbound)
  | mergeTimeout (die : Fin 2) (tenant tag : Nat)
  | earlyBufferExpiry (die : Fin 2)
  | dataPacket (f : RxFrame)
  | ackPacket (f : RxFrame)
  | retransmitTimeout (a : AssocKey) (tsn : Nat)
  | ackCoalesceExpiry (a : AssocKey)
  | messageSend (a : AssocKey)
  | egressSelect (port : Fin 12) (sub : Fin 4)
  | pfcFrame (port : Fin 12) (sub : Fin 4) (quanta : List (Nat × Nat))
  | pauseFrame (port : Fin 12)
  | bufferXoff (die : Fin 2)
  | contextFetchDone (a : AssocKey)
  | subportUpDown (port : Fin 12) (sub : Fin 4) (up : Bool)
  | laneSpareMove (port : Fin 12) (lane : Fin 8)
  | map (m : Inbound)
  | graceEnd
  | renew (src : Endpoint) (epoch : Nat)
  | leaseExpiry
  | chain (m : Inbound)
  | chainAck (src : Endpoint) (origin : Endpoint) (originReq epoch : Nat) (status : Status)
  | chainTimeout (key : CmdKey)
  | chainRetry (key : CmdKey)
  | copyBegin (m : Inbound)
  | copyFrames (src : Endpoint) (epoch : Nat) (seq : SeqId) (entries : List CopyEntry)
  | copyEnd (src : Endpoint) (epoch : Nat) (seq : SeqId)
  | copyAck (src : Endpoint) (part epoch : Nat) (seq : SeqId) (status : Status) (handles : List PageHandle)
  | copyNext (seq : SeqId) (cell : Nat) (errs : List WordErr := [])
  | heartbeat (src : Endpoint) (epoch : Nat)
  | detectorFiring
  | transferGuests (src : Endpoint) (epoch stepId arg : Nat)
  | adopt (src : Endpoint) (epoch stepId : Nat) (seq : SeqId) (object : List Byte)
  | releaseGuests (src : Endpoint) (epoch stepId arg : Nat)
  | stepDoneReport (src : Endpoint) (stepId : Nat) (status : Status)
  | barrierArrive (src : Endpoint) (treeEpoch opId arg : Nat)
  | barrierRelease (src : Endpoint) (treeEpoch opId : Nat)
  | broadcast (src : Endpoint) (what treeEpoch opId arg : Nat)
  | haloMark (src : Endpoint) (snapId treeEpoch : Nat)
  | haloDrainDone
  | haloDrainTimeout
  | attestReq (src : Endpoint) (reqTag what : Nat) (nonce userData : List Byte)
  | signatureDone (signature : List Byte)
  | nvmeCompletion (io : Nat) (ok : Bool)
  | parkCopiesDone (seq : SeqId)
  | parkCopyTimeout (seq : SeqId)
  | wakeComplete (seq : SeqId)
  | reProtect (seq : SeqId)
  | cartridgeInsert (port : Fin 2) (info : CartridgeInfo)
  | cartridgeRemoval (port : Fin 2)
  | cpEnrol (port : Fin 2)
  | cpEject (port : Fin 2)
  | smartPoll (port : Fin 2) (log : SmartLog)
  | prefixSweep
  | prefixRateRaise (half : Fin 2)
  | matchInPulse (ticks : Nat)
  | cascadeTimeout
  | cascResync
  | flitReceived (f : Flit)
  | nakReceived (ackSeq : Nat)
  | linkDown (cause : DownCause)
  | linkTraining (e : LinkEvent)
  | hlRetrain
  | regRd (tag addr len : Nat)
  | regWr (addr : Nat) (data : List Word32)
  | memCpl (tag : Nat) (ok : Bool) (data : List Byte)
  | memRdTimeout (tag : Nat)
  | msg (tenant keygen : Nat) (sys mgmt : Bool) (bytes : List Byte)
  | countLoRead (tag : Nat)
  | markGo
  | qccLoRead (tag : Nat) (queue : Fin 1024)
  | qbindWrite (queue : Fin 1024) (value : Word32)
  | pctxSet
  | histClear
  | pendArm (unit : Fin 14)
  | pendDisarm (unit : Fin 14)
  | gateEntryEnd (unit : Fin 14)
  | gateTakeover (unit : Fin 14)
  | ldgDeclareDead
  | lregCreate
  | lregDelete
  | lregVerLoRead (tag : Nat)
  | attReport
  | attEndorse
  | extendGo
  | kemInstall
  | kemLink
  | tenantRemove
  | drainFence (engine : Fin 32) (tenant : Nat)
  | keyDrainExpiry (tenant : Nat)
  | rstSoft
  | stgErase
  | stgWrite
  | stgStage
  | stgConfirm
  | stgCancel
  | ownFuse
  | stickyClr (high : Bool) (bits : Word32)
  | injArm
  | injDisarm
  | caskRead
  | caskHeadLoRead (tag : Nat)
  | caskOldLoRead (tag : Nat)
  | snapGo
  | snapRelease
  | tctrLoRead (tag : Nat) (index : Fin 8)
  | quadCounterRead (tag : Nat) (quad : Fin 4) (counter : QuadCounter)
  | h2kWord (w : Word32)
  | h2kLast (w : Word32)
  | k2hWord (tag : Nat)
  | mapChunk
  | mailboxRenew
  | ping
  | faultEvent (check : Option SelfCheck := none)
  | faultWindowEnd (window : Fin 16)
  | eventLineDrop (source : Fin 64)
  | logPeriodEnd (source : Fin 64)
  | caskRecordWrite
  | bridgeFlitRetry (module : Fin 16)
  | timeBusBroadcast
  | comparatorFire (n : Fin 64)
  | vpolicyStep (die : Fin 2) (power : Nat)
  | logicTempRead (temps : List Nat)
  | thermtrip
  | avsNoAnswer (die : Fin 2)
  | hlRefclkLoss
  | hlRefclkReturn
  | memRefclkLoss (clk : MemClock)
  | memRefclkReturn (clk : MemClock) (withinBound : Bool)
  | otherRefclkLoss (clk : RefClock)
  | coreWPowerLoss
  | coreEPowerLoss
  | perstNAssert
  | perstNDeassert (env : BootEnv)
  | haloIn (ticks : Nat)
  | i3cRead (offset len : Nat)
  | pfcPauseExpiry (port : Fin 12) (sub : Fin 4) (pcp : Fin 8)
  | xoffRepeat (die : Fin 2)
  | flashOperationDone (ok : Bool)
  | regulatorAnswersAgain (die : Fin 2)
  | sensorWindowEnd (powerMean logicMean hbmMean lpMean : Nat)
  deriving DecidableEq, Repr

end Sys2Proof
end

