-- ==== Sys2Proof/Decode.lean ====
section
/-!
DEFINITION. Decode.lean: the command that a word of the opcode table spells. The table gives no row any bits (its rows are
commands and events, not encodings), so no word spells a command. The descriptors and messages that the spec does encode
are read and written in Machine/Messages.lean.
-/

namespace Sys2Proof

/-- The command that a word spells by the table's bits: none, since the table gives no row bits. -/
def decodeTableWord (_nbits _w : Nat) : Option Instr := none

end Sys2Proof
end

