-- ==== Sys2Proof/Config.lean ====
section
/-!
DEFINITION. Config.lean: what the spec leaves to an implementation or leaves open. Each is a constant with no body: nothing
can be proved about its value, so a claim about the model holds for every value. The log entry that declares each is named
in its docstring.
-/

namespace Sys2Proof.Config

/-- Which of the FP32 values within the error of R152 exp takes at an operand (log entry 3). -/
opaque expPick : Word32 → Nat

/-- Which of the FP32 values at or above exp, within the error of R152, the skip test takes (R167, log entry 3). -/
opaque expUpPick : Word32 → Nat

/-- Which of the FP32 values within the error of R152 tanh takes at an operand (log entry 3). -/
opaque tanhPick : Word32 → Nat

/-- Which of the FP32 values at or above tanh, within the error of R152, the skip test takes (R167, log entry 3). -/
opaque tanhUpPick : Word32 → Nat

/-- The SYM of a codec table entry, from the format, the table number, the distribution (0 A, 1 B) and the state's place: the
table contents are published apart from the spec (R242, R247; log entry 4). -/
opaque ansSym : Nat → Nat → Nat → Nat → Nat

/-- The NB of a codec table entry (R247; log entry 4). -/
opaque ansBits : Nat → Nat → Nat → Nat → Nat

/-- The NEXT of a codec table entry (R247; log entry 4). -/
opaque ansNext : Nat → Nat → Nat → Nat → Nat

/-- The bucket of the outcome log that a key falls in (R302 does not give the hash; log entry 5). -/
opaque outcomeBucket : Nat → Nat → Nat

/-- Whether a signature verifies: public key, message, signature (R431, R449, R465; log entry 6). -/
opaque verify : List Byte → List Byte → List Byte → Bool

/-- The unique device secret of the part, in its fuses (R427; log entry 6). -/
opaque uds : List Byte

/-- FIPS 205 key generation: the SLH-DSA public key of a seed of SK.seed, SK.prf and PK.seed (R427; log entry 6). -/
opaque slhPublic : List Byte → List Byte

/-- The shared secret of a key encapsulation to the KEM key: the seed d and z of the key, and the ciphertext (R427, R435, R438;
log entry 6). -/
opaque decaps : List Byte → List Byte → List Byte

/-- FIPS 203 key generation: the encapsulation key of a seed d and z (R427, R431; log entry 6). -/
opaque encapsKey : List Byte → List Byte

/-- The authenticated opening of a sealed key blob: key, nonce and additional data, ciphertext with tag (R438; log entry
6). -/
opaque openBlob : List Byte → List Byte → List Byte → Option (List Byte)

/-- AES-256-GCM sealing: key, nonce, additional data and body; the sealed body with its tag (R283; log entry 6). -/
opaque gcmSeal : List Byte → List Byte → List Byte → List Byte → List Byte

/-- AES-256-XTS of one granule: both keys, the tweak and the plain bytes (R218; log entry 6). -/
opaque xtsSeal : List Byte → List Byte → List Byte → List Byte

/-- The FEC field of a flit: a function of the bytes before it (R394 does not give the codes; log entry 103). -/
opaque flitFec : List Byte → List Byte

/-- The credit that the node first grants, in 64-byte units, by kind: posted, non-posted, completion (R404; log entry 103). -/
opaque linkCredit : Nat → Nat

/-- A peer context as it is laid out in the context region, by its place and the tick (R295; log entry 16). -/
opaque contextImage : Nat → Nat → List Byte

/-- The nonce under which a peer context is sealed, by its place and the tick (R295; log entry 16). -/
opaque contextNonce : Nat → Nat → List Byte

/-- What the node takes where a rule asks the map for an endpoint's incarnation or address and there is no map (R282, R275;
log entry 98). -/
opaque mapless : Nat → Nat

/-- The next-hop MAC of a peer by a sub-port outside its route set (R25, R274; log entry 98). -/
opaque hopMac : Nat → Nat → Nat

/-- The PCP of an ACK's frame, which belongs to no egress class (R274, R360; log entry 98). -/
opaque ackPcp : Nat

/-- The n-th draw of the random source, as a number (log entry 6). -/
opaque random : Nat → Nat



/-- The part's vendor key hash in the fuses (R449; log entry 6). -/
opaque vendorHash : List Byte

/-- The boot ROM version word (R430, R534; log entry 7). -/
opaque romVersion : Nat

/-- The silicon stepping word, [3:0] minor and [7:4] major (R534; log entry 7). -/
opaque stepping : Nat

/-- The measured stage time of a quadrant in ps, from its voltage in mV and temperature in °C (R31, R46; log entry 8). -/
opaque stagePs : Nat → Nat → Nat → Nat

/-- The per-bank refreshes that the JEDEC allowance lets a controller postpone, beyond the two that one burst may need (R187;
log entry 93). -/
opaque refreshExtra : Nat

/-- A value that the spec leaves free, drawn with the state's counter `fresh` (log entry 2). -/
opaque freeNat : Nat → Nat

end Sys2Proof.Config
end

