-- ==== Sys2Proof/Machine/Table.lean ====
section
/-!
DEFINITION. Machine/Table.lean: the containers of the state: sparse tables keyed by a number (sorted, no repeats), the
byte memory in one canonical form, byte strings in little-endian and network order, and list helpers. All of them are
structurally recursive, so that the kernel can run them.
-/

namespace Sys2Proof.Machine

/-- A sparse table: pairs of a key and a value, keys strictly rising. -/
abbrev Tab (β : Type) := List (Nat × β)

/-- The entry of key `k`, if listed. -/
def tabGet {β : Type} : Tab β → Nat → Option β
  | [], _ => none
  | (i, v) :: t, k => if i = k then some v else tabGet t k

/-- The entry of key `k`, or `d` where it is not listed. -/
def tabGetD {β : Type} (t : Tab β) (k : Nat) (d : β) : β := (tabGet t k).getD d

/-- Lists `v` under key `k`, replacing what stood there. -/
def tabSet {β : Type} : Tab β → Nat → β → Tab β
  | [], k, v => [(k, v)]
  | (i, w) :: t, k, v =>
    if k < i then (k, v) :: (i, w) :: t
    else if k = i then (k, v) :: t
    else (i, w) :: tabSet t k v

/-- Takes key `k` out of the table. -/
def tabDel {β : Type} (t : Tab β) (k : Nat) : Tab β := t.filter fun e => e.1 ≠ k

/-- Applies `f` to the entry of key `k`, if listed. -/
def tabMod {β : Type} (t : Tab β) (k : Nat) (f : β → β) : Tab β :=
  match tabGet t k with
  | none => t
  | some v => tabSet t k (f v)

/-- Applies `f` to the entry of key `k`, starting from `d` where it is not listed. -/
def tabModD {β : Type} (t : Tab β) (k : Nat) (d : β) (f : β → β) : Tab β := tabSet t k (f (tabGetD t k d))

/-- The keys of a table whose entries satisfy `p`. -/
def tabKeys {β : Type} (t : Tab β) (p : β → Bool) : List Nat := (t.filter fun e => p e.2).map Prod.fst

/-- The key order of a table: strictly rising. -/
def tabSorted {β : Type} : Tab β → Bool
  | [] => true
  | [_] => true
  | (i, _) :: (j, w) :: t => decide (i < j) && tabSorted ((j, w) :: t)

/-- The value of the first pair whose key equals `k`, in a list of pairs keyed by any comparable type. -/
def assoc {α β : Type} [DecidableEq α] : List (α × β) → α → Option β
  | [], _ => none
  | (a, v) :: t, k => if a = k then some v else assoc t k

/-- Replaces the pair of key `k`, or appends it. -/
def assocSet {α β : Type} [DecidableEq α] : List (α × β) → α → β → List (α × β)
  | [], k, v => [(k, v)]
  | (a, w) :: t, k, v => if a = k then (k, v) :: t else (a, w) :: assocSet t k v

/-- Takes the pairs of key `k` out. -/
def assocDel {α β : Type} [DecidableEq α] (t : List (α × β)) (k : α) : List (α × β) := t.filter fun e => e.1 ≠ k

/-! ### Byte memory -/

/-- Byte memory: (address, byte) pairs, addresses strictly rising, no entry equal to the byte an unlisted address reads. -/
abbrev Mem := List Host.Cell

/-- Whether a memory whose unlisted addresses read `d` is in canonical form. -/
def memWf (d : Byte) : Mem → Bool
  | [] => true
  | [(_, b)] => decide (b ≠ d)
  | (a, b) :: (a', b') :: m => decide (b ≠ d) && decide (a < a') && memWf d ((a', b') :: m)

/-- Reads one byte; an unlisted address reads `d`. -/
def memRead (d : Byte) : Mem → Nat → Byte
  | [], _ => d
  | (i, b) :: m, a => if i = a then b else memRead d m a

/-- Writes one byte, keeping the canonical form. -/
def memWrite (d : Byte) : Mem → Nat → Byte → Mem
  | [], a, b => if b = d then [] else [(a, b)]
  | (i, c) :: m, a, b =>
    if a < i then (if b = d then (i, c) :: m else (a, b) :: (i, c) :: m)
    else if a = i then (if b = d then m else (a, b) :: m)
    else (i, c) :: memWrite d m a b

/-- Reads `n` bytes from address `a`. -/
def memReadN (d : Byte) (m : Mem) (a n : Nat) : List Byte := (List.range n).map fun i => memRead d m (a + i)

/-- Writes a byte string from address `a`. -/
def memWriteN (d : Byte) : Mem → Nat → List Byte → Mem
  | m, _, [] => m
  | m, a, b :: bs => memWriteN d (memWrite d m a b) (a + 1) bs

/-- Makes every address of [a, a + n) read `d`. -/
def memClear (m : Mem) (a n : Nat) : Mem := m.filter fun c => decide (c.1 < a) || decide (a + n ≤ c.1)

/-! ### Byte strings -/

/-- `n` bytes of `x`, least significant first (R3). -/
def le : Nat → Nat → List Byte
  | 0, _ => []
  | n + 1, x => BitVec.ofNat 8 x :: le n (x / 256)

/-- The number that bytes spell, least significant first (R3). -/
def ofLe : List Byte → Nat
  | [] => 0
  | b :: bs => b.toNat + 256 * ofLe bs

/-- `n` bytes of `x`, most significant first (R4). -/
def be (n x : Nat) : List Byte := (le n x).reverse

/-- The number that bytes spell, most significant first (R4). -/
def ofBe (bs : List Byte) : Nat := ofLe bs.reverse

/-- `n` bytes from position `i`; bytes past the end read zero. -/
def slice (bs : List Byte) (i n : Nat) : List Byte := (List.range n).map fun k => bs.getD (i + k) 0

/-- The little-endian field of `n` bytes at position `i`. -/
def fieldLe (bs : List Byte) (i n : Nat) : Nat := ofLe (slice bs i n)

/-- The big-endian field of `n` bytes at position `i`. -/
def fieldBe (bs : List Byte) (i n : Nat) : Nat := ofBe (slice bs i n)

/-- `bs` brought to exactly `n` bytes: cut, or filled with zeros. -/
def padTo (n : Nat) (bs : List Byte) : List Byte := bs.take n ++ List.replicate (n - bs.length) 0

/-- Replaces the bytes from position `i` on by `new`, within the string's length. -/
def splice (bs : List Byte) (i : Nat) (new : List Byte) : List Byte :=
  (bs.take i ++ new ++ bs.drop (i + new.length)).take bs.length

/-- A byte string cut into pieces of `n` bytes (`fuel` pieces at most). -/
def chunks (n : Nat) : Nat → List Byte → List (List Byte)
  | 0, _ => []
  | _, [] => []
  | fuel + 1, bs => bs.take n :: chunks n fuel (bs.drop n)

/-! ### List helpers -/

/-- The numbers lo, lo + 1, …, hi − 1. -/
def rangeFrom (lo hi : Nat) : List Nat := (List.range (hi - lo)).map (lo + ·)

/-- The first element that satisfies `p`, and the list without it. -/
def takeFirst {α : Type} (p : α → Bool) : List α → Option (α × List α)
  | [] => none
  | a :: l => if p a then some (a, l) else
    match takeFirst p l with
    | none => none
    | some (b, r) => some (b, a :: r)

/-- The element with the least key, the earlier one among equals. -/
def minBy {α : Type} (key : α → Nat) : List α → Option α
  | [] => none
  | a :: l =>
    match minBy key l with
    | none => some a
    | some b => if key b < key a then some b else some a

/-- Folds a state over a list. -/
def foldState {α σ : Type} (f : σ → α → σ) : σ → List α → σ
  | s, [] => s
  | s, a :: l => foldState f (f s a) l

/-- Iterates a step `n` times. -/
def iter {σ : Type} (f : σ → σ) : Nat → σ → σ
  | 0, s => s
  | n + 1, s => iter f n (f s)

/-- The sum of a list of numbers. -/
def sumNat : List Nat → Nat
  | [] => 0
  | a :: l => a + sumNat l

end Sys2Proof.Machine
end

