-- ==== Sys2Proof/Machine/Float.lean ====
section
/-!
DEFINITION. Machine/Float.lean: the number formats of chapters 3 to 6 and the arithmetic of R151 to R154 and R558. A finite
value is an exact sign, mantissa and binary exponent, so products and block sums are exact and every rounding is explicit.
-/

namespace Sys2Proof.Machine

/-- A value of any of the formats: NaN, an infinity, or ±mant × 2^exp. -/
inductive FVal where
  | nan
  | inf (neg : Bool)
  | fin (neg : Bool) (mant : Nat) (exp : Int)
  deriving DecidableEq, Repr

/-- 2^k for an integer k ≥ 0, and 1 below. -/
def pow2 (k : Int) : Nat := 2 ^ k.toNat

/-- The number of bits of a natural number (at most `fuel`). -/
def bitLen (n : Nat) : Nat := if n = 0 then 0 else n.log2 + 1

/-- Positive zero. -/
def fzero : FVal := .fin false 0 0

def FVal.neg : FVal → FVal
  | .nan => .nan
  | .inf n => .inf (!n)
  | .fin n m e => .fin (!n) m e

def FVal.abs : FVal → FVal
  | .nan => .nan
  | .inf _ => .inf false
  | .fin _ m e => .fin false m e

def FVal.isFinite : FVal → Bool
  | .fin _ _ _ => true
  | _ => false

def FVal.isZero : FVal → Bool
  | .fin _ m _ => m == 0
  | _ => false

/-- The exact product, with the NaN and infinity rules of IEEE 754. -/
def fmul : FVal → FVal → FVal
  | .nan, _ => .nan
  | _, .nan => .nan
  | .inf a, .inf b => .inf (a != b)
  | .inf a, .fin b m _ => if m = 0 then .nan else .inf (a != b)
  | .fin a m _, .inf b => if m = 0 then .nan else .inf (a != b)
  | .fin a m e, .fin b k f => .fin (a != b) (m * k) (e + f)

/-- The exact sum, with the NaN and infinity rules of IEEE 754. -/
def fadd : FVal → FVal → FVal
  | .nan, _ => .nan
  | _, .nan => .nan
  | .inf a, .inf b => if a = b then .inf a else .nan
  | .inf a, .fin _ _ _ => .inf a
  | .fin _ _ _, .inf b => .inf b
  | .fin a m e, .fin b k f =>
    let g := min e f
    let x := m * pow2 (e - g)
    let y := k * pow2 (f - g)
    if a = b then .fin a (x + y) g
    else if x = y then .fin false 0 g
    else if y < x then .fin a (x - y) g
    else .fin b (y - x) g

/-- Whether a < b, for values that are not NaN. -/
def flt : FVal → FVal → Bool
  | .nan, _ => false
  | _, .nan => false
  | .inf a, .inf b => a && !b
  | .inf a, .fin _ _ _ => a
  | .fin _ _ _, .inf b => !b
  | .fin a m e, .fin b k f =>
    let g := min e f
    let x : Int := (if a then -1 else 1) * (m * pow2 (e - g) : Nat)
    let y : Int := (if b then -1 else 1) * (k * pow2 (f - g) : Nat)
    decide (x < y)

/-- Whether a ≤ b, for values that are not NaN. -/
def fle (a b : FVal) : Bool := a != .nan && b != .nan && !flt b a

/-- The larger value; a NaN spreads. -/
def fmax (a b : FVal) : FVal := if a = .nan then .nan else if b = .nan then .nan else if flt a b then b else a

/-- How a magnitude is rounded. -/
inductive RMode where
  | nearest | up | down
  deriving DecidableEq, Repr

/-- Drops the low `k` bits of a magnitude: to nearest with ties to even, or away from or towards zero. -/
def dropBits (r : RMode) (m k : Nat) : Nat :=
  let q := m / 2 ^ k
  let rem := m % 2 ^ k
  match r with
  | .down => q
  | .up => if rem = 0 then q else q + 1
  | .nearest => if 2 * rem < 2 ^ k then q else if 2 ^ k < 2 * rem then q + 1 else if q % 2 = 0 then q else q + 1

/-- Rounds a magnitude m × 2^e to `p` significant bits, never finer than 2^qmin. -/
def roundMag (r : RMode) (p : Nat) (qmin : Int) (m : Nat) (e : Int) : Nat × Int :=
  let q := max (e + bitLen m - p) qmin
  if q ≤ e then (m, e) else (dropBits r m (q - e).toNat, q)

/-- The magnitude mode that rounds a signed value up (towards +∞) or down. -/
def dirMode (up neg : Bool) : RMode := if up = neg then .down else .up

/-- Whether m × 2^e < 2^k. -/
def magLt (m : Nat) (e k : Int) : Bool := m = 0 || decide (e + bitLen m ≤ k)

/-- Rounds to FP32: 24 bits, overflow to infinity, magnitudes below 2^−126 flushed to zero (R154). -/
def round32With (r : RMode) : FVal → FVal
  | .fin n m e =>
    let (m', e') := roundMag r 24 (-100000) m e
    if magLt m' e' (-126) then .fin n 0 0
    else if magLt m' e' 128 then .fin n m' e' else .inf n
  | v => v

/-- Rounds to FP32 to nearest, ties to even. -/
def round32 (v : FVal) : FVal := round32With .nearest v

/-- Rounds to FP32 towards +∞. A positive magnitude that would flush to zero becomes the least normal value, so that the
result never falls below the exact one (R167). -/
def roundUp32 : FVal → FVal
  | .fin n m e =>
    match n, round32With (dirMode true n) (.fin n m e) with
    | false, .fin false 0 _ => if m = 0 then fzero else .fin false 1 (-126)
    | _, v => v
  | v => v

/-- Rounds to FP32 towards −∞. -/
def roundDown32 (v : FVal) : FVal := (roundUp32 v.neg).neg

/-! ### Encodings -/

/-- Decodes a float of `eb` exponent bits and `mb` mantissa bits; `ieee` says that the top exponent holds infinities and
NaNs, `fn` that only the all-ones code is NaN. -/
def decodeFloat (eb mb : Nat) (bias : Int) (ieee fn : Bool) (x : Nat) : FVal :=
  let man := x % 2 ^ mb
  let ex := x / 2 ^ mb % 2 ^ eb
  let neg := x / 2 ^ (mb + eb) % 2 == 1
  if ieee && ex == 2 ^ eb - 1 then (if man = 0 then .inf neg else .nan)
  else if fn && ex == 2 ^ eb - 1 && man == 2 ^ mb - 1 then .nan
  else if ex = 0 then .fin neg man (1 - bias - mb)
  else .fin neg (2 ^ mb + man) (ex - bias - mb)

def of32 (w : Word32) : FVal := decodeFloat 8 23 127 true false w.toNat
def ofBf16 (x : Nat) : FVal := decodeFloat 8 7 127 true false x
def ofF16 (x : Nat) : FVal := decodeFloat 5 10 15 true false x
def ofE4m3 (x : Nat) : FVal := decodeFloat 4 3 7 false true x
def ofE5m2 (x : Nat) : FVal := decodeFloat 5 2 15 true false x
def ofE3m2 (x : Nat) : FVal := decodeFloat 3 2 3 false false x
def ofE2m3 (x : Nat) : FVal := decodeFloat 2 3 1 false false x
def ofE2m1 (x : Nat) : FVal := decodeFloat 2 1 1 false false x

/-- An 8-bit two's complement integer. -/
def ofInt8 (x : Nat) : FVal := if x < 128 then .fin false x 0 else .fin true (256 - x) 0

/-- An E8M0 scale (R52). -/
def ofE8m0 (x : Nat) : FVal := if x = 255 then .nan else .fin false 1 ((x : Int) - 127)

/-- Encodes a value that the format holds: `eb` exponent bits, `mb` mantissa bits. -/
def encodeFloat (eb mb : Nat) (bias : Int) (nanCode infCode : Nat) : FVal → Nat
  | .nan => nanCode
  | .inf n => (if n then 2 ^ (eb + mb) else 0) + infCode
  | .fin n m e =>
    let s := if n then 2 ^ (eb + mb) else 0
    if m = 0 then s
    else
      let top := e + bitLen m - 1            -- exponent of the leading bit
      let q := max (top - mb) (1 - bias - mb)  -- exponent of the last place
      let mm := if q ≤ e then m * pow2 (e - q) else m / pow2 (q - e)
      if mm < 2 ^ mb then s + mm else s + (q + mb + bias).toNat * 2 ^ mb + (mm - 2 ^ mb)

def to32 (v : FVal) : Word32 := BitVec.ofNat 32 (encodeFloat 8 23 127 0x7FC00000 0x7F800000 v)

/-- Rounds to FP32 and gives the bits. -/
def bits32 (v : FVal) : Word32 := to32 (round32 v)

/-- Rounds to a narrower format of `p` significant bits: finest place 2^qmin, largest finite value `maxM` × 2^`maxE`;
finite values beyond it saturate (R558). Answers the value and whether it saturated. -/
def roundSat (r : RMode) (p : Nat) (qmin : Int) (maxM : Nat) (maxE : Int) : FVal → FVal × Bool
  | .fin n m e =>
    let (m', e') := roundMag r p qmin m e
    if flt (.fin false maxM maxE) (.fin false m e) then (.fin n maxM maxE, true) else (.fin n m' e', false)
  | v => (v, false)

/-- To BF16 (to nearest): bits and whether it saturated. FP32 results flush below 2^−126 first (R154). -/
def toBf16 (v : FVal) : Nat × Bool :=
  let (w, sat) := roundSat .nearest 8 (-133) 255 120 v
  let w' := match w with
    | .fin n m e => if magLt m e (-126) then .fin n 0 0 else .fin n m e
    | x => x
  (encodeFloat 8 7 127 0x7FC0 0x7F80 w', sat)

/-- To FP8 E4M3 (to nearest); an infinity becomes the NaN (R558). -/
def toE4m3 (v : FVal) : Nat × Bool :=
  match v with
  | .inf _ => (0x7F, false)
  | .nan => (0x7F, false)
  | v => let (w, sat) := roundSat .nearest 4 (-9) 14 5 v
         (encodeFloat 4 3 7 0x7F 0x7F w, sat)

/-- A Skim minimum or maximum in E5M2, rounded outward (R162). -/
def toE5m2Out (isMax : Bool) : FVal → Nat
  | .nan => if isMax then 0x7C else 0xFC
  | .inf n => if n then (if isMax then 0xFB else 0xFC) else (if isMax then 0x7C else 0x7B)
  | .fin n m e =>
    let (m', e') := roundMag (dirMode isMax n) 3 (-16) m e
    let big := !magLt m' e' 16
    if big then
      if isMax then (if n then 0xFB else 0x7C) else (if n then 0xFC else 0x7B)
    else encodeFloat 5 2 15 0x7F 0x7C (.fin n m' e')

/-! ### FP32 operations on bits -/

def negInf32 : Word32 := 0xFF800000#32
def zero32 : Word32 := 0#32

def add32 (a b : Word32) : Word32 := bits32 (fadd (of32 a) (of32 b))
def mul32 (a b : Word32) : Word32 := bits32 (fmul (of32 a) (of32 b))
def sub32 (a b : Word32) : Word32 := bits32 (fadd (of32 a) (of32 b).neg)

/-- The larger of two FP32 values; a NaN spreads. -/
def max32 (a b : Word32) : Word32 :=
  if of32 a = .nan then a else if of32 b = .nan then b else if flt (of32 a) (of32 b) then b else a

/-- The true quotient rounded once to FP32 (R151 step 6). -/
def fdiv : FVal → FVal → FVal
  | .nan, _ => .nan
  | _, .nan => .nan
  | .inf _, .inf _ => .nan
  | .inf a, .fin b _ _ => .inf (a != b)
  | .fin a _ _, .inf b => .fin (a != b) 0 0
  | .fin a m e, .fin b k f =>
    if k = 0 then (if m = 0 then .nan else .inf (a != b))
    else
      let sh := 64 + bitLen k
      let q := m * 2 ^ sh / k
      let sticky := if m * 2 ^ sh % k = 0 then 0 else 1
      round32 (.fin (a != b) (2 * q + sticky) (e - f - sh - 1))

/-- Whether FP32 bits are NaN or infinite (R154). -/
def nonFinite32 (w : Word32) : Bool := !(of32 w).isFinite

/-! ### exp and tanh within their error (R152) -/

/-- The places after the binary point of the enclosures below. -/
def fxBits : Nat := 192

def fxOne : Nat := 2 ^ fxBits

/-- ⌈a / b⌉ for the enclosures. -/
def fxCeil (a b : Nat) : Nat := (a + b - 1) / b

/-- exp of y / 2^192 for 0 ≤ y < 2^190, from below (`up` false) or from above: the series by Horner's rule. The first omitted
term stays below one quarter of its predecessor, so the start value 2 bounds the rest from above. -/
def fxSeries (up : Bool) (y : Nat) : Nat :=
  (List.range 40).reverse.foldl (fun t k =>
    let x := y * t
    let d := (k + 1) * fxOne
    fxOne + (if up then fxCeil x d else x / d)) (if up then 2 * fxOne else fxOne)

/-- Squares a fixed-point number n times, from below or from above. -/
def fxSquares (up : Bool) : Nat → Nat → Nat
  | 0, t => t
  | n + 1, t => fxSquares up n (if up then fxCeil (t * t) fxOne else t * t / fxOne)

/-- exp of m × 2^e ≥ 0 in fixed point, from below or from above; an argument of 128 or more counts as 128. -/
def fxExp (up : Bool) (m : Nat) (e : Int) : Nat :=
  let k := e + fxBits - 10
  let y := if 0 ≤ k then min (m * pow2 k) (2 ^ (fxBits - 3))
    else if up then fxCeil m (pow2 (-k)) else m / pow2 (-k)
  fxSquares up 10 (fxSeries up y)

/-- Bounds of exp of ±m × 2^e in fixed point. -/
def expBounds (n : Bool) (m : Nat) (e : Int) : Nat × Nat :=
  let lo := fxExp false m e
  let hi := fxExp true m e
  if n then (fxOne * fxOne / hi, fxCeil (fxOne * fxOne) lo) else (lo, hi)

/-- Bounds of tanh of m × 2^e ≥ 0 in fixed point. -/
def tanhBounds (m : Nat) (e : Int) : Nat × Nat :=
  let lo := fxExp false m (e + 1)
  let hi := fxExp true m (e + 1)
  (fxOne - fxCeil (2 * fxOne * fxOne) (lo + fxOne), fxOne - 2 * fxOne * fxOne / (hi + fxOne))

/-- FP32 values in numeric order as integers. -/
def ordOf (w : Word32) : Int := if w.toNat < 2 ^ 31 then (w.toNat : Int) else -((w.toNat - 2 ^ 31 : Nat) : Int)

def ofOrd (i : Int) : Word32 :=
  if 0 ≤ i then BitVec.ofNat 32 i.toNat else BitVec.ofNat 32 (2 ^ 31 + (-i).toNat)

/-- Magnitudes below 2^−126 flushed to zero (R154). -/
def flush32 (w : Word32) : Word32 := if w.toNat % 2 ^ 31 < 0x800000 then w &&& 0x80000000#32 else w

/-- The FP32 value that a free number picks of those from `lo` to `hi`; the one at or above `lo` where none lies between. -/
def pick32 (free : Nat) (lo hi : FVal) : Word32 :=
  let a := ordOf (to32 (roundUp32 lo))
  let b := ordOf (to32 (roundDown32 hi))
  flush32 (ofOrd (a + (free % ((b - a).toNat + 1) : Nat)))

/-- A fixed-point number as a value, and the same plus or minus an error of 2^−22. -/
def fxVal (n : Nat) : FVal := .fin false n (-(fxBits : Int))
def fxTol : FVal := .fin false 1 (-22)

/-- n × (1 ∓ 2^−22) of a fixed-point number, exactly. -/
def fxLess (n : Nat) : FVal := .fin false (n * (2 ^ 22 - 1)) (-(fxBits + 22 : Int))
def fxMore (n : Nat) : FVal := .fin false (n * (2 ^ 22 + 1)) (-(fxBits + 22 : Int))

/-- exp of an FP32 value: a free value within the relative error of R152, exp(±0) is 1 so that the empty partial is the
fold's identity (R148), and exp(−∞) is 0 (log entry 3). -/
def exp32 (w : Word32) : Word32 :=
  match of32 w with
  | .nan => w
  | .inf true => zero32
  | .inf false => 0x7F800000#32
  | .fin n m e =>
    if m = 0 then 0x3F800000#32
    else
      let b := expBounds n m e
      pick32 (Config.expPick w) (fxLess b.1) (fxMore b.2)

/-- exp rounded so that it never falls below the exact value (R167, log entry 3). -/
def expUp (w : Word32) : Word32 :=
  match of32 w with
  | .nan => w
  | .inf true => zero32
  | .inf false => 0x7F800000#32
  | .fin n m e =>
    if m = 0 then 0x3F800000#32
    else
      let b := expBounds n m e
      pick32 (Config.expUpPick w) (fxVal b.1) (fxMore b.2)

/-- tanh of an FP32 value: a free value within the absolute error of R152 (log entry 3). -/
def tanh32 (w : Word32) : Word32 :=
  match of32 w with
  | .nan => w
  | .inf true => 0xBF800000#32
  | .inf false => 0x3F800000#32
  | .fin n m e =>
    let b := tanhBounds m e
    let lo := fadd (if n then (fxVal b.2).neg else fxVal b.1) fxTol.neg
    let hi := fadd (if n then (fxVal b.1).neg else fxVal b.2) fxTol
    pick32 (Config.tanhPick w) lo hi

/-- tanh rounded so that it never falls below the exact value (R167, log entry 3). -/
def tanhUp (w : Word32) : Word32 :=
  match of32 w with
  | .nan => w
  | .inf true => 0xBF800000#32
  | .inf false => 0x3F800000#32
  | .fin n m e =>
    let b := tanhBounds m e
    pick32 (Config.tanhUpPick w) (if n then (fxVal b.2).neg else fxVal b.1)
      (fadd (if n then (fxVal b.1).neg else fxVal b.2) fxTol)

/-- 1 / sqrt(head_dim) to the nearest FP32 value (R93, R97; log entry 3). -/
def invSqrt (hd : Nat) : Word32 :=
  if hd = 64 then 0x3E000000#32 else if hd = 96 then 0x3DD105EC#32 else if hd = 128 then 0x3DB504F3#32
  else if hd = 192 then 0x3D93CD3A#32 else 0x3D800000#32

/-- 1 / sqrt(head_dim) to the FP32 value at or above it, and at or below it (R167). -/
def invSqrtUp (hd : Nat) : Word32 :=
  if hd = 128 then 0x3DB504F4#32 else if hd = 192 then 0x3D93CD3B#32 else invSqrt hd
def invSqrtDown (hd : Nat) : Word32 := if hd = 96 then 0x3DD105EB#32 else invSqrt hd

/-- ⌊log2⌋ of a positive magnitude. -/
def floorLog2 (m : Nat) (e : Int) : Int := e + bitLen m - 1

/-- The block scale exponent of R153 and R558 for a block: ⌊log2 amax⌋ − 7 over the finite elements, at least −127. -/
def blockExp (vs : List FVal) : Int :=
  let amax := vs.foldl (fun a v => if v.isFinite then fmax a v.abs else a) fzero
  match amax with
  | .fin _ m e => if m = 0 then -127 else max (floorLog2 m e - 7) (-127)
  | _ => -127

/-- A block converted to MXFP8 E4M3 (R153): the elements' values, the scale's exponent, and how many saturated. -/
def toMx (vs : List FVal) : List FVal × Int × Nat :=
  let k := blockExp vs
  let r := vs.map fun v => toE4m3 (fmul v (.fin false 1 (-k)))
  (r.map fun x => ofE4m3 x.1, k, (r.filter fun x => x.2).length)

end Sys2Proof.Machine
end

