-- ==== Sys2Proof/Machine/Crc.lean ====
section
/-!
DEFINITION. Machine/Crc.lean: the three functions over bytes that the spec names by their published definition: CRC-32C
(R117, R302, R322, R494), the page CRC-64 (R54) and SHAKE256 (R385, R430, R465).
-/

namespace Sys2Proof.Machine

/-- One bit of a reflected CRC with polynomial `poly`. -/
def crcBit {w : Nat} (poly : BitVec w) (c : BitVec w) : BitVec w :=
  if c.getLsbD 0 then (c >>> 1) ^^^ poly else c >>> 1

/-- One byte of a reflected CRC. -/
def crcByte {w : Nat} (poly : BitVec w) (c : BitVec w) (b : Byte) : BitVec w :=
  iter (crcBit poly) 8 (c ^^^ b.setWidth w)

/-- A reflected CRC over bytes from the start value `init`. -/
def crcRun {w : Nat} (poly init : BitVec w) (bs : List Byte) : BitVec w := foldState (crcByte poly) init bs

/-- CRC-32C: reflected polynomial 0x82F63B78, start and final complement all ones. -/
def crc32c (bs : List Byte) : Word32 := ~~~ crcRun 0x82F63B78#32 0xFFFFFFFF#32 bs

/-! ### Keccak -/

/-- The state of Keccak-f[1600]: 25 lanes, lane x + 5y. -/
abbrev Lanes := List Word64

/-- A lane of the state. -/
def lane (a : Lanes) (x y : Nat) : Word64 := a.getD (x % 5 + 5 * (y % 5)) 0

/-- The 24 round constants. -/
def keccakRC : List Word64 :=
  [0x0000000000000001#64, 0x0000000000008082#64, 0x800000000000808A#64, 0x8000000080008000#64,
   0x000000000000808B#64, 0x0000000080000001#64, 0x8000000080008081#64, 0x8000000000008009#64,
   0x000000000000008A#64, 0x0000000000000088#64, 0x0000000080008009#64, 0x000000008000000A#64,
   0x000000008000808B#64, 0x800000000000008B#64, 0x8000000000008089#64, 0x8000000000008003#64,
   0x8000000000008002#64, 0x8000000000000080#64, 0x000000000000800A#64, 0x800000008000000A#64,
   0x8000000080008081#64, 0x8000000000008080#64, 0x0000000080000001#64, 0x8000000080008008#64]

/-- The rotation of lane (x, y) at index x + 5y. -/
def keccakRot : List Nat :=
  [0, 1, 62, 28, 27, 36, 44, 6, 55, 20, 3, 10, 43, 25, 39, 41, 45, 15, 21, 8, 18, 2, 61, 56, 14]

/-- One round of Keccak-f[1600]. -/
def keccakRound (a : Lanes) (rc : Word64) : Lanes :=
  let c := (List.range 5).map fun x => lane a x 0 ^^^ lane a x 1 ^^^ lane a x 2 ^^^ lane a x 3 ^^^ lane a x 4
  let d := (List.range 5).map fun x => c.getD ((x + 4) % 5) 0 ^^^ (c.getD ((x + 1) % 5) 0).rotateLeft 1
  let b := (List.range 25).map fun i =>
    let X := i % 5
    let Y := i / 5
    -- lane (x, y) moves to (y, 2x + 3y); the lane that lands on (X, Y) has y = X and 2x = Y − 3X (mod 5)
    let y := X
    let x := (3 * (Y + 10 - 3 * X % 5)) % 5
    (lane a x y ^^^ d.getD x 0).rotateLeft (keccakRot.getD (x + 5 * y) 0)
  (List.range 25).map fun i =>
    let x := i % 5
    let y := i / 5
    let v := lane b x y ^^^ (~~~ lane b (x + 1) y &&& lane b (x + 2) y)
    if i = 0 then v ^^^ rc else v

/-- Keccak-f[1600]. -/
def keccakF (a : Lanes) : Lanes := foldState keccakRound a keccakRC

/-- XORs a block of 136 bytes into the state. -/
def absorbBlock (a : Lanes) (blk : List Byte) : Lanes :=
  keccakF ((List.range 25).map fun i => a.getD i 0 ^^^ (if i < 17 then BitVec.ofNat 64 (fieldLe blk (8 * i) 8) else 0))

/-- The message padded for SHAKE256: domain bits 1111, then pad10*1. -/
def shakePad (m : List Byte) : List Byte :=
  let k := 136 - m.length % 136
  if k = 1 then m ++ [0x9F#8] else m ++ [0x1F#8] ++ List.replicate (k - 2) 0 ++ [0x80#8]

/-- SHAKE256 with an output of `n` ≤ 136 bytes. -/
def shake256 (m : List Byte) (n : Nat) : List Byte :=
  let p := shakePad m
  let a := foldState absorbBlock (List.replicate 25 0) (chunks 136 (p.length / 136) p)
  (a.flatMap fun w => le 8 w.toNat).take n

end Sys2Proof.Machine
end

