-- ==== Sys2Proof/Machine/TypesCache.lean ====
section
/-!
DEFINITION. Machine/TypesCache.lean: the state of the cache: frames, sequences and page maps (chapter 3), plans, visits,
merge groups and gradient pages (chapters 4 to 6), stacks and pseudo-channels (chapter 7), tiers, codec and Cellar
(chapters 8 to 10).
-/

namespace Sys2Proof.Machine

/-! ### Frames and sequences -/

/-- Where a frame's bytes lie: the LOCATION of its table entry (R61, R217). -/
inductive Loc where
  | none
  | hbm (stack pc slot : Nat)
  | lp (channel granule len : Nat)
  | host (region granule len : Nat)
  deriving DecidableEq, Repr

/-- The STATE of a frame table entry (R79). -/
inductive FrameState where
  | free | reserve | live | stub | draining
  deriving DecidableEq, Repr

/-- A frame table entry (R61). `alt` is ALT as a staging slot, `fwd` is ALT as a stub's forwarding handle; `visited` and
`lastVisit` say whether and when the staged copy was last visited (R224, R229), `stagedFor` for which sequence it was
staged. `crcOff` is what the stored CRC was off by when the frame last became IN_FLUX: the incremental update keeps it
(R204). `promo` marks a copy that was staged for its promotion, which STAGE_MAX does not count (R227). -/
structure Frame where
  gen : Nat := 1
  refcount : Nat := 0
  pins : Nat := 0
  state : FrameState := .free
  tier : Nat := 0
  inFlux : Bool := false
  poison : Bool := false
  dirty : Bool := false
  staged : Bool := false
  loc : Loc := .none
  alt : Loc := .none
  fwd : Option PageHandle := none
  sample : Nat := 0
  grad : Bool := false
  visited : Bool := false
  lastVisit : Nat := 0
  stagedFor : Option SeqId := none
  crcOff : Nat := 0
  promo : Bool := false
  deriving DecidableEq, Repr

/-- The STATE of a sequence descriptor (R83). -/
inductive SeqState where
  | active | parking | parked | waking | evicting
  deriving DecidableEq, Repr

/-- A tensor table entry (R63): END, the reserve frame and WANT. -/
structure Tensor where
  endPos : Nat := 0
  reserve : Option PageHandle := none
  want : Bool := false
  deriving DecidableEq, Repr

/-- PARK_REF (R259). -/
structure ParkRef where
  port : Nat
  object : Nat
  partner : Nat
  cart : Nat
  deriving DecidableEq, Repr

/-- One hint of a sequence (R237). -/
structure HintEntry where
  layerFirst : Nat
  layerLast : Nat
  headFirst : Nat
  headCount : Nat
  kind : Nat
  start : Nat
  limit : Nat
  deriving DecidableEq, Repr

/-- A sequence: its descriptor (R62), its directory (R63, tensors by index, leaf pointers by tensor × LEAVES + leaf), its
prefetch depth (R229), its hints (R237) and its gradient summary (R179: its block, step and count by tensor). -/
structure Seq where
  handle : SeqHandle
  state : SeqState := .active
  format : Nat
  headDim : Nat
  layers : Nat
  kvHeads : Nat
  localHeads : List Nat
  tokenBase : Nat
  tokenLimit : Nat
  maxTokens : Nat
  p : Nat
  leaves : Nat
  dirBlock : Nat := 0
  dirBlocks : Nat := 0
  lastAccess : Nat := 0
  parkRef : Option ParkRef := none
  epoch : Nat := 0
  tight : Bool := false
  codec : List Byte := []
  tensors : Tab Tensor := []
  leafPtr : Tab Nat := []
  depth : Nat := 2
  hints : List HintEntry := []
  gradSum : Tab (Nat × Nat) := []
  gradBlock : Option Nat := none
  wasted : Bool := false
  objSize : Nat := 0
  deriving DecidableEq, Repr

/-- A line of a die's translation cache: eight handles of one leaf line (R67). -/
structure XlatLine where
  die : Nat
  seq : SeqId
  tensor : Nat
  line : Nat
  deriving DecidableEq, Repr

/-- The free list of a mash-capable pseudo-channel (R59): slots never used since calibration, taken in ascending order,
then the frames returned, oldest first; and the slots that wait for their zero-fill with their page number. -/
structure FreeList where
  virgin : Nat := 0
  back : List (Nat × Nat) := []
  toZero : List (Nat × Nat) := []
  vacant : List Nat := []
  retired : List Nat := []
  withheld : Bool := false
  deriving DecidableEq, Repr

/-! ### Commands in execution -/

/-- What an admitted APPEND writes and what it took (R74 to R76). -/
structure AppendJob where
  frames : List Nat := []
  deriving DecidableEq, Repr

/-- An admitted command that has not completed (R76, R128, R129): the tick and epoch of its admission, whether its meaning
has begun, whether an APPEND has started and its writes stand in hold queues (R196), whether it has been executed here and
waits for its chain alone (R335), and what an APPEND holds. -/
structure Live where
  cmd : Command
  since : Nat
  epoch : Nat
  begun : Bool := false
  held : Bool := false
  executed : Bool := false
  append : AppendJob := {}
  deriving DecidableEq, Repr

/-- One row's partial (R147, R148): m, l, O, S as FP32 bits and the count C. -/
structure Partial where
  m : Word32
  l : Word32
  o : List Word32
  s : Word32
  c : Nat
  deriving DecidableEq, Repr

/-- A hole of a KV head (R102, R157): REASON and the positions. -/
structure Hole where
  reason : Status
  start : Nat
  limit : Nat
  deriving DecidableEq, Repr

/-- What the plan stage keeps for one row of a Skim row group (R167): m_ref, l_ref, S_acc and the skipped positions. -/
structure SkimRow where
  mRef : Word32
  lRef : Word32
  sAcc : Word32
  skipped : Nat
  deriving DecidableEq, Repr

/-- What reached a home chain (R149): the quadrant, the row block, and by page the partials that the arrival folds: one page
for a mash visit, every page of the block in the quadrant for a tile's running values. -/
structure Arrival where
  quad : Nat
  block : Nat
  parts : List (Nat × List Partial)
  deriving DecidableEq, Repr

/-- One row group of a command (R137): its KV head; what reached the home chains, in order of arrival, and the chains named
as home chains by quadrant (R149); what the tiles hold of blocks that run (keyed by 4 × block + quadrant; R146); the chain
named as root chain and the rows folded there (R26, R149); the visits still to plan (block and page), the seed pages still to
plan, the Skim rows, holes, and what R156 settled. -/
structure Group where
  head : Nat
  tensor : Nat
  rows : Nat
  home : List Arrival := []
  chains : Tab Nat := []
  tile : Tab (List (Nat × List Partial)) := []
  root : Option (Nat × Nat) := none
  final : Option (List Partial) := none
  todo : List (Nat × Nat) := []
  seed : List Nat := []
  skim : List SkimRow := []
  holes : List Hole := []
  poisoned : Bool := false
  lateBlocks : List Nat := []
  waitedFull : Bool := false
  deriving DecidableEq, Repr

/-- A frame that a plan pins, with the TOKENS it recorded (R68); none while the frame was IN_FLUX. -/
structure Pin where
  tensor : Nat
  page : Nat
  lpn : Nat
  tokens : Option Nat
  visits : Nat := 0
  deriving DecidableEq, Repr

/-- A command in the plan stage (R141): its groups, its pins, and the shape of its sequence as it stood at its turn. -/
structure Plan where
  key : CmdKey
  cmd : Command
  die : Nat
  epoch : Nat
  seq : SeqId
  replica : Bool := false
  groups : List Group
  pins : List Pin
  format : Nat
  headDim : Nat
  p : Nat
  base : Nat
  deriving DecidableEq, Repr

/-- How a visit runs (R138, R230). `reroute` marks a visit that left a mash queue or its staging wait. -/
inductive Path where
  | mash | tile | stageWait | fallback
  deriving DecidableEq, Repr

/-- A visit (R137): its command and group, its row block, its page and frame, its path, when it was planned, and whether it
runs in a burst (R139) or became late (R231). -/
structure Visit where
  id : Nat
  key : CmdKey
  group : Nat
  block : Nat
  tensor : Nat
  page : Nat
  lpn : Nat
  path : Path
  planned : Nat
  quad : Nat
  seed : Bool := false
  inBurst : Bool := false
  late : Bool := false
  decoded : Bool := false
  deriving DecidableEq, Repr

/-- A contribution of ATTN_BWD to one gradient frame (R177, R207): the FP32 values to add. -/
structure Contribution where
  id : Nat
  key : CmdKey
  lpn : Nat
  values : List Word32
  inBurst : Bool := false
  deriving DecidableEq, Repr

/-- The running sums of a window's contributions to one page (R177): dK then dV, FP32. -/
structure WindowSum where
  key : CmdKey
  tensor : Nat
  page : Nat
  window : Nat
  left : Nat
  values : List Word32
  pick : Nat := 0
  deriving DecidableEq, Repr

/-- The gradient table entry of a K/V page (R179). -/
structure GradEntry where
  seq : SeqId
  tensor : Nat
  page : Nat
  step : Nat
  frames : List Nat
  deriving DecidableEq, Repr

/-- An input of a merge group for one KV head (R113): its identity and its records' contents in row order; `internal` says
that a record of it carried INTERNAL, a reserved status or one that no record has (R8, R101). -/
structure MergeIn where
  node : Nat
  epoch : Nat
  start : Nat
  limit : Nat
  rows : List Partial
  flags : List Nat := []
  poison : Bool := false
  internal : Bool := false
  holes : List Hole := []
  deriving DecidableEq, Repr

/-- An open merge group (R111 to R115): its command, since when, its buffer bytes, and its inputs by KV head. -/
structure MergeGroup where
  cmd : Command
  desc : MergeDesc
  tenant : Nat
  since : Nat
  bytes : Nat
  inputs : Tab (List MergeIn) := []
  deriving DecidableEq, Repr

/-- A RECORDS message for an unknown key in the early buffer (R116). -/
structure EarlyRecords where
  tenant : Nat
  tag : Nat
  since : Nat
  count : Nat
  body : List Byte
  deriving DecidableEq, Repr

/-- The merge stage of a die (R112, R116): open groups, the early buffer, the closed keys (newest first), the discards. -/
structure MergeDie where
  groups : List MergeGroup := []
  early : List EarlyRecords := []
  closed : List (Nat × Nat) := []
  discards : Nat := 0
  deriving DecidableEq, Repr

/-- A FRAME_READ that waits for the decode of its frame's extent (R233, R307): whether the decode has delivered, and whether
its checks failed. -/
structure ReadWait where
  key : CmdKey
  lpn : Nat
  deadline : Nat
  ready : Bool := false
  bad : Bool := false
  image : Mem := []
  deriving DecidableEq, Repr

/-- A SKIM_REFRESH in progress (R164): the frames still to refresh and the plans whose pins it waits for. -/
structure RefreshJob where
  key : CmdKey
  frames : List Nat
  before : List CmdKey
  deriving DecidableEq, Repr

/-- The command state: admitted commands in order, plans, visits, contributions and their bookkeeping. -/
structure ExecSt where
  live : List Live := []
  plans : List Plan := []
  planTurn : List CmdKey := []
  visits : List Visit := []
  nextVisit : Nat := 1
  contribs : List Contribution := []
  windows : List WindowSum := []
  mergeW : MergeDie := {}
  mergeE : MergeDie := {}
  reads : List ReadWait := []
  refreshes : List RefreshJob := []
  sampled : Tab Nat := []
  deriving DecidableEq, Repr

/-! ### Stacks, channels, tiles -/

/-- What an entry of a hold queue serves (R194): a CLONE with its operands, the fetch of a tile visit, a command's request, a
transfer of a frame, or the zero-fill of a slot. -/
inductive HoldWork where
  | clone (stack srcPc srcSlot dstPc dstSlot : Nat) (errs : List WordErr)
  | visit (id : Nat)
  | command (key : CmdKey)
  | frame (lpn : Nat)
  | zero
  deriving DecidableEq, Repr

/-- An entry of a hold queue (R194): what it serves and its memory words, 0 for a CLONE. -/
structure HoldEntry where
  words : Nat
  work : HoldWork
  deriving DecidableEq, Repr

/-- An item of a channel's queue (R143, R207). -/
inductive Item where
  | visit (id : Nat)
  | add (id : Nat)
  deriving DecidableEq, Repr

/-- A pseudo-channel (R191 to R195, R211, R215): MODE and the tick at which entry or exit ends, token, the hold queue with the
requests that wait at its input behind it, queued items, the item in progress and the time its burst has run, whether the
burst closes, refreshes postponed, the tick before which no entry begins (the memory-mode window or the refresh catch-up),
spare and error counts, corrected words by row, row sets held (R190). -/
structure Chan where
  mode : Nat := 0
  modeEnd : Nat := 0
  windowEnd : Nat := 0
  token : Bool := false
  asked : Bool := false
  hold : List HoldEntry := []
  queue : List Item := []
  burst : List Item := []
  burstPs : Nat := 0
  closing : Bool := false
  postponed : Nat := 0
  disabled : Bool := false
  spareActive : Bool := false
  spareTarget : Nat := 0
  spareFail : Bool := false
  failedUnits : List Nat := []
  corr : Nat := 0
  uncorr : Nat := 0
  rowCorr : List (RowRef × Nat × Nat) := []
  rowSets : List (CmdKey × Nat × Nat) := []
  deriving DecidableEq, Repr

/-- A stack (R186, R197 to R199, R210, R553): quota, hottest die, when the readings last stood too high for a raise, the
tokens in grant order, the last channel granted, and calibration. -/
structure StackSt where
  quota : Nat := 0
  temp : Nat := 0
  coolSince : Option Nat := none
  granted : List Nat := []
  lastGrant : Nat := 31
  calDone : Bool := false
  calFail : Bool := false
  visits : Nat := 0
  bursts : Nat := 0
  adds : Nat := 0
  stopped : Bool := false
  resumeSince : Option Nat := none
  hot : Bool := false
  deriving DecidableEq, Repr

/-- A logical tile (R487 to R489, R538). -/
structure Tile where
  state : Nat := 0
  spared : Bool := false
  visits : Nat := 0
  checks : Nat := 0
  deriving DecidableEq, Repr

/-- A quadrant (R144, R174, R536, R537): whether its self-test is done, its spare tile, the backward chains formed, since
when no backward or forward visit has waited, and its counters with their latched high words. -/
structure Quad where
  tested : Bool := false
  spareFree : Bool := false
  spareActive : Bool := false
  spareTarget : Nat := 0
  spareFailedPhys : Nat := 0
  spareFail : Bool := false
  bwd : List Nat := []
  bwdIdle : Option Nat := none
  returned : List (Nat × Nat) := []
  mashVis : Nat := 0
  tileVis : Nat := 0
  folds : Nat := 0
  dec : Nat := 0
  enc : Nat := 0
  latch : Tab Nat := []
  qswParity : Nat := 0
  deriving DecidableEq, Repr

/-! ### Tiers, codec, Cellar -/

/-- An extent's content (R218): the page number and generation it was written under, the stream (R243), and the granules as
they lie at rest, each sealed under the tenant's keys. -/
structure Extent where
  lpn : Nat
  gen : Nat
  stream : List Byte := []
  sealed : List (List Byte) := []
  deriving DecidableEq, Repr

/-- A registered host region (R220): base in 2 MiB units, length in them, and whether it is draining. -/
structure HostRegion where
  base : Nat
  units : Nat
  draining : Bool := false
  deriving DecidableEq, Repr

/-- Why a frame is being staged (R234): by R225, by R228, or for promotion and PREFETCH. -/
inductive StageWhy where
  | write | prefetch | hint | promote
  deriving DecidableEq, Repr

/-- A staging request or a staging in progress (R224): for a prefetch how many layers ahead it lies and its sequence's class
(R228, R234), the copy whose release it waits for, its slot once taken, whether the decoder has delivered, and the image. -/
structure StageJob where
  lpn : Nat
  why : StageWhy
  seq : Option SeqId := none
  tensor : Nat := 0
  page : Nat := 0
  ahead : Nat := 0
  cls : Nat := 0
  victim : Option Nat := none
  slot : Loc := .none
  job : Option Nat := none
  decoded : Bool := false
  decodeErr : Bool := false
  image : Mem := []
  deriving DecidableEq, Repr

/-- Why a write-down runs (R226, R227, R234). -/
inductive DownWhy where
  | release | demote | preempt
  deriving DecidableEq, Repr

/-- A write-down in progress (R226): the source slot, whether the encoder has delivered its stream, and whether a check of
the slot's words or CRC failed as the encoder read it. -/
structure DownJob where
  lpn : Nat
  why : DownWhy
  source : Loc
  job : Option Nat := none
  encoded : Bool := false
  bad : Bool := false
  stream : List Byte := []
  deriving DecidableEq, Repr

/-- One frame of a parked object (R260): tensor, page, the page number and generation its stream was encoded under, the
stream with its granules as they lie at rest (R218), and whether the frame was poisoned. -/
structure ObjFrame where
  tensor : Nat
  page : Nat
  lpn : Nat
  gen : Nat
  stream : List Byte := []
  sealed : List (List Byte) := []
  poison : Bool := false
  deriving DecidableEq, Repr

/-- A codec transfer (R250): decoder or encoder, its frame, its cluster, the lane it holds, the extent that a decoder reads,
what it serves, and whether a read of its stream from host memory failed (R399, R404). A transfer of a PARK or WAKE names the
object's frame (R250); `guest` marks a stream of the guest object (R263). -/
structure CodecJob where
  id : Nat
  encode : Bool
  lpn : Nat
  cluster : Nat
  lane : Option Nat := none
  src : Loc := .none
  visit : Option Nat := none
  key : Option CmdKey := none
  obj : Option (SeqId × ObjFrame) := none
  guest : Bool := false
  readErr : Bool := false
  deriving DecidableEq, Repr

/-- A codec cluster (R252, R253): lanes out of service and its counters. -/
structure Cluster where
  tested : Bool := false
  decOut : List Nat := []
  encOut : List Nat := []
  decErr : Nat := 0
  raw : Nat := 0
  coded : Nat := 0
  deriving DecidableEq, Repr

/-- An LPDDR5X device (R219): trained, above its operating range, and the refresh multiplier that MR4 last reported. -/
structure LpDev where
  trained : Bool := false
  hot : Bool := false
  refresh : Nat := 0
  deriving DecidableEq, Repr

/-- A parked object on a cartridge of this node (R260). -/
structure Parked where
  number : Nat
  seq : SeqId
  descr : Seq
  frames : List ObjFrame
  flushed : Bool := false
  deriving DecidableEq, Repr

/-- A guest object that this node holds for another (R261, R309), with the CARTRIDGE_ID of the cartridge that holds it. -/
structure Guest where
  origin : Nat
  seq : SeqId
  cart : Nat
  len : Nat
  bytes : List Byte := []
  committed : Bool := false
  deriving DecidableEq, Repr

/-- A cartridge port (R254, R265 to R269). -/
structure CellarPort where
  state : Nat := 0
  reason : Nat := 0
  warn80 : Bool := false
  warn95 : Bool := false
  width : Nat := 0
  gen5 : Bool := false
  life : Nat := 0
  sizeGib : Nat := 0
  serial : List Byte := []
  model : List Byte := []
  identity : IdRecord := {}
  dataUnits : Nat := 0
  enrolling : Bool := false
  objects : List Parked := []
  nextObject : Nat := 1
  deriving DecidableEq, Repr

/-- What the node knows of a cartridge that is not in a port: its LIFE, its directory, and how many objects on it the
directory no longer names (R265, R266). -/
structure CartRec where
  life : Nat := 0
  objects : List Parked := []
  nextObject : Nat := 1
  stale : Nat := 0
  deriving DecidableEq, Repr

/-- What an NVMe command belongs to (R255): the writes, flushes and reads of parked and guest objects, of re-protections and
of adopted objects, deallocations, and the format, write and flush of an enrolment (R258). -/
inductive IoWhy where
  | parkWrite (seq : SeqId)
  | parkFlush (seq : SeqId)
  | wakeRead (seq : SeqId) (tensor page : Nat)
  | guestWrite (key : CmdKey) (commit : Bool)
  | guestFlush (key : CmdKey)
  | guestRead (key : CmdKey)
  | protectWrite (seq : SeqId)
  | protectFlush (seq : SeqId)
  | adoptWrite (seq : SeqId)
  | adoptFlush (seq : SeqId)
  | deallocate
  | format
  | recordWrite
  | recordFlush
  deriving DecidableEq, Repr

/-- An NVMe command in flight (R255). -/
structure Nvme where
  id : Nat
  port : Nat
  why : IoWhy
  retried : Bool := false
  deriving DecidableEq, Repr

/-- A PARK in progress (R261, R262): the frames still to encode, those encoded, whether both copies are on their way, the request
ids of the pieces sent to the partner, and whether a soft reset has stopped it (R471). -/
structure ParkJob where
  seq : SeqId
  keys : List CmdKey
  since : Nat
  port : Nat
  object : Nat
  partner : Option Nat
  localDone : Bool := false
  preempt : Bool := false
  todo : List (Nat × Nat) := []
  frames : List ObjFrame := []
  sent : Bool := false
  reqs : List Nat := []
  halted : Bool := false
  deriving DecidableEq, Repr

/-- A WAKE in progress (R263): whether it has its frames, whether it rebuilds from its predecessor's copy (R334), the frames
still to restore from the local object, those to restore from the guest object, the request ids of the partner's answers and of
the next holder's (R342), whether a soft reset has stopped it (R471), and the guest object's frames once they have come. -/
structure WakeJob where
  seq : SeqId
  keys : List CmdKey
  allocated : Bool := false
  copied : Bool := false
  left : List (Nat × Nat) := []
  guestTry : List (Nat × Nat) := []
  reqs : List Nat := []
  also : Option (Nat × List Nat) := none
  halted : Bool := false
  guest : Option (List ObjFrame) := none
  deriving DecidableEq, Repr

/-- A re-protection that is due (R264): the request ids that it waits on, of the next holder too (R342), and the new local object
while it is written. -/
structure ReProtect where
  seq : SeqId
  lostLocal : Bool
  reqs : List Nat := []
  also : Option (Nat × List Nat) := none
  port : Nat := 0
  object : Nat := 0
  partner : Nat := 0
  deriving DecidableEq, Repr

/-- The memory of the node: frame table, sequences, leaf blocks, slots, stacks, channels, tiers, codec and Cellar. -/
structure MemSt where
  frames : Tab Frame := []
  lpnPool : List Nat := []
  lpnNext : Nat := 25689888
  free : Tab FreeList := []
  seqs : List (SeqId × Seq) := []
  leafs : Tab (Tab PageHandle) := []
  blocks : List (Nat × Nat) := []
  xlat : List XlatLine := []
  refills : List (SeqId × Nat) := []
  slots : Mem := []
  grads : List GradEntry := []
  stks : Tab StackSt := []
  chans : Tab Chan := []
  tiles : Tab Tile := []
  quads : Tab Quad := []
  tempSince : Nat := 0
  mr4Since : Nat := 0
  numNonfin : Nat := 0
  numSat : Nat := 0
  retireRows : List (Nat × Nat × RowRef) := []
  moves : List Nat := []
  lp : Tab LpDev := []
  regions : Tab HostRegion := []
  hregStatus : Tab Nat := []
  exts : Tab Extent := []
  oldExts : List (Nat × Loc) := []
  stages : List StageJob := []
  downs : List DownJob := []
  extMoves : List Nat := []
  codec : List CodecJob := []
  nextJob : Nat := 1
  clusters : Tab Cluster := []
  encIn : Nat := 0
  encOut : Nat := 0
  fallbacks : Nat := 0
  fallDie : Tab Nat := []
  lateHoles : Nat := 0
  ageSince : Nat := 0
  preempting : Bool := false
  preSince : Nat := 0
  preMoved : Nat := 0
  ports : Tab CellarPort := []
  carts : Tab CartRec := []
  guests : List Guest := []
  nvme : List Nvme := []
  nextIo : Nat := 1
  parks : List ParkJob := []
  wakes : List WakeJob := []
  protects : List ReProtect := []
  deriving DecidableEq, Repr

end Sys2Proof.Machine
end

