-- ==== Sys2Proof/Machine/TypesCore.lean ====
section
/-!
DEFINITION. Machine/TypesCore.lean: the state of the node's own clock, rails and bridge (chapters 1, 2, 21), and of the fault
collector and the Cask (chapter 18).
-/

namespace Sys2Proof.Machine

/-! ### Time, rails and the bridge -/

/-- One core rail (R32 to R35, R545): the voltage now commanded, when the last step started, since when the die is idle
(R32 LATENCY), the regulator's consecutive missed answers and whether it answers, and the die's last power estimate. -/
structure Rail where
  mv : Nat := 750
  lastStep : Nat := 0
  idleSince : Option Nat := none
  missed : Nat := 0
  answering : Bool := true
  power : Nat := 0
  deriving DecidableEq, Repr

/-- A module of the die-to-die bridge (R22): retired or not, and the failed retries of its current window. -/
structure BridgeModule where
  retired : Bool := false
  fails : Nat := 0
  since : Nat := 0
  deriving DecidableEq, Repr

/-- The TIME block and the bridge. `bus` is the value of the last time-bus broadcast (R42). -/
structure TimeSt where
  counter : Nat := 0
  bus : Nat := 0
  countHi : Nat := 0
  mark : Nat := 0
  refOk : Bool := false
  backup : Bool := false
  railW : Rail := {}
  railE : Rail := {}
  bridge : Tab BridgeModule := []
  bridgeFenced : Bool := false
  bridgeRetries : Nat := 0
  deriving DecidableEq, Repr

/-! ### Fault collector -/

/-- The node's units as faults name them (R484): the kind's number and the unit's logical number. -/
structure UnitRef where
  kind : Nat := 0
  num : Nat := 0
  deriving DecidableEq, Repr

/-- An event that waits in the fault collector (R477, R482): its source, the unit it names, the code and argument that its
record carries (R496), whether an injection caused it, and whether a fixed response already swapped or isolated the unit. -/
structure FaultEv where
  source : Nat
  unit : UnitRef := {}
  detail : Nat := 0
  arg : Nat := 0
  injected : Bool := false
  unitDone : Bool := false
  deriving DecidableEq, Repr

/-- One fault source (R476 to R481, R505). -/
structure FaultSrc where
  level : Bool := false
  lineSince : Option Nat := none
  total : Nat := 0
  win : Nat := 0
  sticky : Bool := false
  escalated : Bool := false
  logStart : Option Nat := none
  logCount : Nat := 0
  logMissed : Nat := 0
  deriving DecidableEq, Repr

/-- The injection logic (R491, R492): 0 idle, 1 armed, 2 fired, 3 refused; the armed checker, mode and unit; the count. -/
structure Inject where
  status : Nat := 0
  checker : Nat := 0
  mode : Nat := 0
  unit : Nat := 0
  count : Nat := 0
  deriving DecidableEq, Repr

/-- The fault collector. `order` lists the sources whose sticky bit is set, the earliest set first (R478). `cause` is
FENCE.CAUSE; `hard` marks a fence that ends only by reset (R22, R41, R482); `fenceInc` the incarnation under which the node
fenced (R330). `winEnd` says when each running window ends; `ciphers` lists the isolated cipher engines (R485). -/
structure FaultSt where
  srcs : Tab FaultSrc := []
  events : List FaultEv := []
  order : List Nat := []
  fenced : Bool := true
  cause : Nat := 6
  hard : Bool := false
  fenceInc : Nat := 0
  winEnd : Tab Nat := []
  ciphers : List Nat := []
  inj : Inject := {}
  deriving DecidableEq, Repr

/-! ### Cask -/

/-- A Cask record (R494). `badCrc` marks a record whose stored CRC is wrong. -/
structure CaskRec where
  kind : Nat
  pinned : Bool := false
  rom : Bool := false
  injected : Bool := false
  gap : Bool := false
  seq : Nat := 0
  boot : Nat := 0
  counter : Nat := 0
  payload : List Byte := []
  badCrc : Bool := false
  deriving DecidableEq, Repr

/-- A record in the interface's queue, with the place that its write head gave it (R497). -/
structure CaskJob where
  record : CaskRec
  segment : Nat
  place : Nat
  deriving DecidableEq, Repr

/-- A segment of the Cask that has been taken (R493, R498): pinned or not, its generation and its records in order. -/
structure CaskSeg where
  pinned : Bool := false
  gen : Nat := 0
  recs : List CaskRec := []
  deriving DecidableEq, Repr

/-- A write head (R498): its segment and the next record place in it. -/
structure CaskHead where
  segment : Option Nat := none
  next : Nat := 0
  deriving DecidableEq, Repr

/-- The Cask and its interface. The segments survive every reset; the rest is the interface's. -/
structure CaskSt where
  segs : Tab CaskSeg := []
  ready : Bool := false
  nextSeq : Nat := 0
  boot : Nat := 0
  segGen : Nat := 0
  headP : CaskHead := {}
  headO : CaskHead := {}
  queue : List CaskJob := []
  waiting : List CaskRec := []
  dropped : Nat := 0
  gapNext : Bool := false
  bad : Nat := 0
  pinFull : Bool := false
  rstate : Nat := 0
  data : List Byte := []
  headHi : Nat := 0
  oldHi : Nat := 0
  deriving DecidableEq, Repr

end Sys2Proof.Machine
end

