-- ==== Sys2Proof/Machine/TypesFabric.lean ====
section
/-!
DEFINITION. Machine/TypesFabric.lean: the state of the fabric ports and the Nasol transport (chapter 11), of the map,
chains, copies, detector and global operations (chapter 12), and of the two schedulers and the gate lists (chapter 13).
-/

namespace Sys2Proof.Machine

/-! ### Messages and packets -/

/-- What a message that the node sends is, which decides its bridge class, its egress class and whom an abandoned message
is reported to (R290, R294, R360). -/
inductive MsgClass where
  | completion
  | records
  | command
  | chain
  | copy
  | control
  deriving DecidableEq, Repr

/-- A message of the node that waits to be sent or is partly sent (R285). `arrival` is the sub-port on which the answered
command's FIRST packet came (R25). `sent` counts the bytes already cut into packets. -/
structure TxMsg where
  id : Nat
  cls : MsgClass
  egress : Nat
  arrival : Option (Nat × Nat) := none
  keygen : Nat := 0
  bytes : List Byte
  sent : Nat := 0
  deriving DecidableEq, Repr

/-- A DATA packet in flight (R293). `via` is the sub-port that the last transmission used. -/
structure TxPacket where
  tsn : Nat
  msg : Nat
  cls : MsgClass
  egress : Nat
  arrival : Option (Nat × Nat)
  keygen : Nat
  first : Bool
  last : Bool
  ackReq : Bool
  msgLen : Nat
  body : List Byte
  try_ : Nat := 0
  since : Nat
  rto : Nat
  via : Option (Nat × Nat)
  deriving DecidableEq, Repr

/-- A DATA packet that waits in the receive buffer for its FIRST (R292), or a part already placed. -/
structure RxPart where
  tsn : Nat
  body : List Byte
  first : Bool
  last : Bool
  msgLen : Nat
  keygen : Nat
  port : Nat
  sub : Nat
  deriving DecidableEq, Repr

/-- A message buffer (R292): the TSN of FIRST, the length, the sub-port of FIRST, the generation it was sealed under, and
the parts placed so far. -/
structure RxMsg where
  firstTsn : Nat
  len : Nat
  keygen : Nat
  port : Nat
  sub : Nat
  parts : Tab (List Byte) := []
  deriving DecidableEq, Repr

/-- A peer context (R294): one association's two directions, and where the context is held. -/
structure PeerCtx where
  key : AssocKey
  txRoll : Nat := 0
  txNext : Nat := 0
  txUnits : Nat := 0
  txCredit : Nat
  txQueue : List TxMsg := []
  flight : List TxPacket := []
  ackSeqTx : Nat := 0
  rxRoll : Nat := 0
  rxNext : Nat := 0
  rxAbove : List Nat := []
  rxUnits : Nat := 0
  held : List RxPart := []
  msgs : List RxMsg := []
  ackSeqRx : Option Nat := none
  ackOwed : Option Nat := none
  cached : Bool := true
  fetching : Bool := false
  backed : Bool := true
  lost : Bool := false
  used : Nat := 0
  deriving DecidableEq, Repr

/-- A packet that is ready for a sub-port (R361): its egress class (none for an ACK, R362), its frame length, when it
became ready, and the packet. -/
structure EgItem where
  cls : Option Nat
  len : Nat
  ready : Nat
  sampled : Bool := false
  packet : Packet
  deriving DecidableEq, Repr

/-- The egress state of a sub-port (R361): ACKs, the eight class queues, deficits, the active list, the classes still to
visit in this round, and the virtual time. -/
structure SubPort where
  up : Bool := false
  acks : List EgItem := []
  queues : Tab (List EgItem) := []
  deficit : Tab Nat := []
  active : List Nat := []
  turn : List Nat := []
  vtime : Nat := 0
  paused : Tab Nat := []
  pausedAt : Tab Nat := []
  busyAt : Nat := 0
  deriving DecidableEq, Repr

/-- A fabric port (R270 to R272, R314). -/
structure Port where
  subs : Tab SubPort := []
  spareUsed : Bool := false
  spareLane : Nat := 0
  lanesOut : List Nat := []
  downLanes : List Nat := []
  rx : Nat := 0
  tx : Nat := 0
  rxBytes : Nat := 0
  txBytes : Nat := 0
  dropAuth : Nat := 0
  dropWindow : Nat := 0
  dropBuffer : Nat := 0
  dup : Nat := 0
  retx : Nat := 0
  dropOther : Nat := 0
  pauseRx : Nat := 0
  fecUncorr : Nat := 0
  deriving DecidableEq, Repr

/-- A message that the transport or the Ranup Link delivered, its KIND (R299) and the generation it came under (R284). -/
structure Delivery where
  msg : Inbound
  kind : Nat
  retired : Bool := false
  deriving DecidableEq, Repr

/-- A frame that a sub-port has sent: the packet, and its bytes from DA to FCS (R274, R275). -/
structure SentFrame where
  port : Nat
  sub : Nat
  packet : Packet
  bytes : List Byte
  deriving DecidableEq, Repr

/-- The transport of both dies. `wire` is what the ports have sent, newest first: the outside's view of the node. `xoff`
says, per die, since when XOFF is being repeated (R277); `pfcOut` lists the PFC frames sent: 4 × port + sub-port, PCP,
quanta. `recSent` counts the result records that each die has sent. -/
structure NetSt where
  ports : Tab Port := []
  ctxs : List PeerCtx := []
  miss : List (Nat × Packet) := []
  nextMsg : Nat := 0
  inbox : List Delivery := []
  wire : List SentFrame := []
  pfcOut : List (Nat × Nat × Nat) := []
  xoff : Tab Nat := []
  pctx : Nat := 0
  pctxBase : Nat := 0
  pctxSize : Nat := 0
  discarded : Nat := 0
  abandoned : List (Nat × MsgClass) := []
  outcomeBusy : Nat := 0
  recSent : Tab Nat := []
  deriving DecidableEq, Repr

/-! ### Outcome log and command queues -/

/-- An entry of the outcome log (R302): in progress, or an outcome with the tick and the retention it is kept for. -/
structure Outcome where
  key : CmdKey
  status : Option Status := none
  since : Nat := 0
  retain : Nat := 0
  deriving DecidableEq, Repr

/-- A QWAIT that holds its queue (R310). -/
structure Qwait where
  cmd : Command
  waitQueue : Nat
  count : Nat
  timeout : Nat
  since : Nat
  deriving DecidableEq, Repr

/-- A command queue (R304, R315). `bind` is the QBIND word; `bindNext` a QBIND write that waits for the queue to empty. -/
structure CmdQueue where
  bind : Word32 := 0
  bindNext : Option Word32 := none
  waiting : List Command := []
  blocked : Option Qwait := none
  count : Nat := 0
  countHi : Nat := 0
  deriving DecidableEq, Repr

/-- A command that waits in an admission queue with its cost (R355) and the sample taken of it (R369). -/
structure AdmItem where
  cmd : Command
  cost : Nat
  arrived : Nat
  sampled : Bool := false
  deriving DecidableEq, Repr

/-- An admission queue of one die (R351): what it is bound to, its commands and its deficit; the latest delay sample. -/
structure AdmQueue where
  bound : Option (Nat × Nat) := none
  items : List AdmItem := []
  deficit : Nat := 0
  sample : Nat := 0
  deriving DecidableEq, Repr

/-- The admission scheduler of one die (R356): its queues, the active list, the queues still to visit in this round, the
virtual time, the sampling count, and whether the plan stage stood at a limit of R141 (R358). -/
structure AdmDie where
  queues : Tab AdmQueue := []
  active : List Nat := []
  turn : List Nat := []
  vtime : Nat := 0
  entered : Nat := 0
  admitted : Nat := 0
  busyAt : Nat := 0
  held : Bool := false
  deriving DecidableEq, Repr

/-- One entry of a gate list (R364). -/
structure GateEntry where
  opens : Nat := 255
  ticks : Nat := 1
  deriving DecidableEq, Repr

/-- A gate unit (R364, R372). `pend` is the pending list as written; `armed` its takeover point while it is armed. -/
structure GateUnit where
  list : List GateEntry := []
  entry : Nat := 0
  entryEnd : Nat := 0
  pend : Tab GateEntry := []
  armed : Bool := false
  ignored : Nat := 0
  deriving DecidableEq, Repr

/-- The two schedulers and the gate units. A histogram is keyed by 4 × index + 2 × egress + delay, and per die for
admission; its bins are keyed by number. -/
structure SchedSt where
  w : AdmDie := {}
  e : AdmDie := {}
  gates : Tab GateUnit := []
  weights : Tab Nat := []
  hist : Tab (Tab Nat) := []
  egEntered : Nat := 0
  deriving DecidableEq, Repr

/-! ### Map, chains, copies, detector -/

/-- An endpoint entry of the map (R318). -/
structure EpEntry where
  id : Nat
  state : Nat
  partner : Nat := 0
  incarnation : Nat := 0
  addr : Nat := 0
  pfx : Nat := 64
  v1 : Bool := false
  composer : Bool := false
  deriving DecidableEq, Repr

/-- A cell of a layout (R319): NODE0 to NODE2, JOIN and JOIN_FROM where present. -/
structure Cell where
  node0 : Option Nat := none
  node1 : Option Nat := none
  node2 : Option Nat := none
  join : Option Nat := none
  joinFrom : Option Nat := none
  deriving DecidableEq, Repr

/-- A layout (R319). -/
structure Layout where
  g : Nat := 1
  hg : Nat := 1
  t : Nat := 1
  rangeTokens : Nat := 65536
  cells : List Cell := []
  deriving DecidableEq, Repr

/-- A route entry (R321). -/
structure Route where
  port : Nat
  sub : Nat
  mac : Nat
  deriving DecidableEq, Repr

/-- A map: the common part and this node's local part (R316 to R321). -/
structure FMap where
  epoch : Nat := 0
  prev : Nat := 0
  nodes : List EpEntry := []
  adapters : List EpEntry := []
  layouts : List Layout := []
  slots : List Nat := []
  overrides : List (Nat × Nat) := []
  digest : List Byte := []
  node : Nat := 0
  routes : List (List Route) := []
  routeIdx : List Nat := []
  watch : List Nat := []
  deriving DecidableEq, Repr

/-- One successor of a chained command at this node (R335, R337). `sentAt` is none until the CHAIN is first sent, under
`epoch`; `retry` marks a STALE_MAP answer that waits for the next map. -/
structure ChainLeg where
  node : Nat
  cell : Nat
  sentAt : Option Nat := none
  epoch : Nat := 0
  status : Option Status := none
  retry : Bool := false
  deriving DecidableEq, Repr

/-- A command that waits for its chain (R335): what it will complete with, and its successors. -/
structure ChainWait where
  key : CmdKey
  cmd : Command
  status : Status
  legs : List ChainLeg
  stuck : Bool := false
  deriving DecidableEq, Repr

/-- A chained command that a replica holds (R337), and since when. -/
structure HeldChain where
  cmd : Command
  since : Nat
  deriving DecidableEq, Repr

/-- A copy that JOIN_FROM runs for a joiner (R339), or that rebuilds a woken replica (R334, `wake`): the sequences still to copy, and the one being copied with its frames
still to send, the frames pinned, those sent and those of the message in flight, and the frames sent again. -/
structure CopyOut where
  cell : Nat
  layout : Nat
  joiner : Nat
  wake : Bool := false
  todo : List SeqId := []
  done : List SeqId := []
  current : Option SeqId := none
  waitPart : Option Nat := none
  frames : List (Nat × Nat × Nat) := []
  pins : List Nat := []
  sent : List Nat := []
  sentNow : List (Nat × Nat × Nat) := []
  resent : List Nat := []
  deriving DecidableEq, Repr

/-- A copy that this node receives as a joiner (R339) or as a woken replica (R334): the sequence, the sender's local heads,
and the frames already installed by the sender's handle. -/
structure CopyIn where
  seq : SeqId
  source : Nat
  heads : List Nat := []
  installed : List (PageHandle × Nat) := []
  failed : List PageHandle := []
  deriving DecidableEq, Repr

/-- A watched peer (R341). -/
structure Watched where
  node : Nat
  heard : Bool := false
  misses : Nat := 0
  suspected : Bool := false
  good : Nat := 0
  sysSent : Bool := false
  deriving DecidableEq, Repr

/-- A barrier of the global tree (R343, R344): its epoch, id and argument, the children heard, and whether this node has
arrived. -/
structure Barrier where
  treeEpoch : Nat
  opId : Nat
  arg : Nat
  what : Nat
  children : List Nat := []
  arrived : Bool := false
  starter : Option Endpoint := none
  deriving DecidableEq, Repr

/-- The record of an executed STEP (R345). -/
structure StepRec where
  epoch : Nat
  stepId : Nat
  seq : Option SeqId
  action : Nat
  arg : Nat
  status : Option Status := none
  waiting : List SeqId := []
  acc : Status := .ok
  deriving DecidableEq, Repr

/-- A stub target (R339, R332): the joiner's handle of a frame that this node copied. -/
structure StubTarget where
  seq : SeqId
  tensor : Nat
  page : Nat
  handle : PageHandle
  deriving DecidableEq, Repr

/-- Chapter 12's state. `oldEpoch` is the older epoch still accepted while the grace window runs (R327). -/
structure CompSt where
  map : Option FMap := none
  prevMap : Option FMap := none
  lastEpoch : Nat := 0
  oldEpoch : Option Nat := none
  graceSince : Nat := 0
  leaseSince : Option Nat := none
  waits : List ChainWait := []
  heldChains : List HeldChain := []
  chainStore : List Command := []
  copies : List CopyOut := []
  copyIns : List CopyIn := []
  targets : List StubTarget := []
  watch : List Watched := []
  detNext : Nat := 0
  barriers : List Barrier := []
  steps : List StepRec := []
  resetPending : Option Barrier := none
  needIncarnation : Bool := false
  copyFree : Nat := 0
  deriving DecidableEq, Repr

end Sys2Proof.Machine
end

