-- ==== Sys2Proof/Machine/TypesHost.lean ====
section
/-!
DEFINITION. Machine/TypesHost.lean: the state of the prefix index (chapter 14), of the Ranup Link and the Ledger (chapter
15), of the TRUST block and the tenants (chapter 16), of boot, flash and fuses (chapter 17), of the snapshot, trace and
mailbox logic (chapter 19), and of the sensors that the sideband shows (chapter 21).
-/

namespace Sys2Proof.Machine

/-! ### Prefix index -/

/-- A valid entry of the prefix index (R373 to R375): its key and the number of its record. -/
structure PrefEntry where
  tenant : Nat
  scope : Nat
  chain : Nat
  record : Nat
  deriving DecidableEq, Repr

/-- A prefix record (R375). -/
structure PrefRec where
  seq : SeqId
  pos : Nat
  deriving DecidableEq, Repr

/-- A cascade search that waits for upstream pulses (R389): its keys still to do, the results so far, since when it waits,
and whether STOP_AT_MISS has stopped it. -/
structure Cascade where
  cmd : Command
  left : List (Nat × Nat)
  results : List (List Byte) := []
  stopped : Bool := false
  since : Nat
  parityBad : List Nat := []
  deriving DecidableEq, Repr

/-- The prefix index. `entries` is keyed by entry number, `recs` by record number. `matchIn` holds upstream pulses that no
key has used yet, `matchOut` the pulses sent, oldest first (true for a hit pulse). -/
structure PrefixSt where
  entries : Tab PrefEntry := []
  recs : Tab PrefRec := []
  rateW : Nat := 0
  rateE : Nat := 0
  coolW : Option Nat := none
  coolE : Option Nat := none
  cascErr : Bool := false
  lastCseq : Nat := 0
  cascStart : Bool := false
  cascade : Option Cascade := none
  matchIn : List Bool := []
  matchOut : List Bool := []
  bySeq : List (SeqId × CmdKey) := []
  stale : List Nat := []
  searches : Nat := 0
  hits : Nat := 0
  updates : Nat := 0
  parity : Nat := 0
  staleCount : Nat := 0
  deriving DecidableEq, Repr

/-! ### Ranup Link -/

/-- What an outstanding MEM_RD fetches (R404): the stream of a codec job, or a peer context. -/
inductive MemWhy where
  | job (id : Nat)
  | context (a : AssocKey)
  deriving DecidableEq, Repr

/-- An outstanding MEM_RD. -/
structure MemRd where
  tag : Nat
  addr : Nat
  len : Nat
  since : Nat
  why : MemWhy
  deriving DecidableEq, Repr

/-- A transaction that the node sends (R401, R402). -/
inductive LinkTx where
  | regCpl (tag addr status : Nat) (data : List Byte)
  | memRd (tag addr len : Nat)
  | memWr (addr : Nat) (data : List Byte)
  | msg (m : Inbound)
  deriving DecidableEq, Repr

/-- A data flit kept until it is acknowledged (R395): its sequence number, its transmissions and its bytes. -/
structure LinkFlit where
  seq : Nat
  tries : Nat := 1
  bytes : List Byte := []
  deriving DecidableEq, Repr

/-- Where the transaction stream from the host stands (R394, R401): the 64-byte units taken so far by credit kind (R404), the data
bytes still to come of the transaction under way, and the bytes of a header that is not whole. -/
structure RxStream where
  used : Tab Nat := []
  skip : Nat := 0
  head : List Byte := []
  deriving DecidableEq, Repr

/-- The Ranup Link. `state` is 0 DOWN, 1 TRAINING, 2 PLAIN, 3 SECURE; `step` the training step and `fails` the failed
attempts at the current ceilings (R397). Credit limits and uses are counts of 64-byte units by kind: posted, non-posted,
completion (R404). `progress` counts the flits of the transaction at the head of `queue` already sent; `out` lists the transactions
whose last flit has been sent, oldest first, and `wire` the flits as they left. `txCount` holds the sealing counts of the kinds
(R396), `rxAny` whether a data flit has been received, and `rx` the stream from the host. -/
structure LinkSt where
  state : Nat := 0
  gen : Nat := 0
  width : Nat := 0
  reversed : Bool := false
  genCeil : Nat := 3
  widthCeil : Nat := 0
  step : Nat := 0
  fails : Nat := 0
  nak : Nat := 0
  down : Nat := 0
  auth : Nat := 0
  memto : Nat := 0
  plainDrop : Nat := 0
  txSeq : Nat := 0
  rxSeq : Nat := 0
  rxDiscard : Bool := false
  rxFails : Nat := 0
  lastAck : Nat := 4095
  queue : List LinkTx := []
  progress : Nat := 0
  kept : List LinkFlit := []
  out : List LinkTx := []
  wire : List (List Byte) := []
  txCount : Tab Nat := []
  rxAny : Bool := false
  rx : RxStream := {}
  limit : Tab Nat := []
  used : Tab Nat := []
  memRds : List MemRd := []
  memNext : Nat := 0
  epoch : Nat := 0
  kLink : Option (List Byte) := none
  deriving DecidableEq, Repr

/-! ### Ledger -/

/-- A line of a SHARED region (R411 to R416): its committed content, its M holder with the version it was granted, its
sharers, and the flags. -/
structure LedLine where
  version : Nat := 0
  content : List Byte := []
  holder : Option (Endpoint × Nat) := none
  sharers : List Endpoint := []
  lost : Bool := false
  poison : Bool := false
  lastCommit : Option CmdKey := none
  deriving DecidableEq, Repr

/-- A Ledger region (R407). A PUBLISHED region has two copies; `current` names the one that reads return (R418). -/
structure LedRegion where
  published : Bool := false
  tenant : Nat := 0
  size : Nat := 1
  base : Nat := 0
  version : Nat := 0
  lines : Tab LedLine := []
  copies : Tab (List Byte) := []
  current : Nat := 0
  pubPoison : List Nat := []
  lastPub : Option CmdKey := none
  deriving DecidableEq, Repr

/-- A LEDGER_READ with a grant that waits (R412, R413): the lines it still needs, in ascending order. -/
structure LedWait where
  cmd : Command
  region : Nat
  first : Nat
  count : Nat
  grant : Nat
  deriving DecidableEq, Repr

/-- A recall in progress (R415). -/
structure Recall where
  reqId : Nat
  region : Nat
  line : Nat
  holder : Endpoint
  downgrade : Bool
  version : Nat
  since : Nat
  deriving DecidableEq, Repr

/-- The Ledger. `lineBuf` lists the (region, line) pairs of the line buffer, most recently read first. -/
structure LedgerSt where
  regions : Tab LedRegion := []
  refused : List Nat := []
  waits : List LedWait := []
  recalls : List Recall := []
  nextReq : Nat := 0
  lineBuf : List (Nat × Nat) := []
  lbufHits : Nat := 0
  recallsSent : Nat := 0
  reverts : Nat := 0
  conflicts : Nat := 0
  repeats : Nat := 0
  verHi : Nat := 0
  deriving DecidableEq, Repr

/-! ### TRUST -/

/-- The keys of a tenant or of the fabric (R437 to R444): 0 ABSENT, 1 ACTIVE, 2 REMOVING; the current generation, the
previous one with the tick of its retirement and the engines that have reported their drain fence, the retired generation
remembered until the next boot, and the secrets. -/
structure Tenant where
  state : Nat := 0
  keygen : Option Nat := none
  prev : Option (Nat × Nat) := none
  drained : List Nat := []
  retired : Option Nat := none
  transport : List Byte := []
  prevTransport : List Byte := []
  storage : List Byte := []
  xts : List Byte := []
  evicted : Nat := 0
  released : Nat := 0
  deleted : Nat := 0
  deriving DecidableEq, Repr

/-- A request to the attestation engine (R433, R434): report or endorsement, its nonce and user data, and the endpoint and
REQ_TAG to answer (none for the registers). -/
structure AttReq where
  endorse : Bool := false
  nonce : List Byte := []
  userData : List Byte := []
  peer : Option (Endpoint × Nat) := none
  body : List Byte := []
  deriving DecidableEq, Repr

/-- The TRUST block. `fuseOwned` and `fuseHash` are the fuses, `owned` and `ownerHash` what the boot ROM read. Key 4096 of
`tenants` holds the fabric transport key. -/
structure TrustSt where
  fuseOwned : Bool := false
  fuseHash : List Byte := []
  owned : Bool := false
  ownerHash : List Byte := []
  sealKey : List Byte := []
  udsLocked : Bool := false
  slots : Tab (List Byte) := []
  slotsLocked : Bool := false
  endorsed : Bool := false
  endorsement : List Byte := []
  queue : List AttReq := []
  nonces : List (List Byte) := []
  reports : Nat := 0
  attState : Nat := 0
  attWindow : List Byte := []
  plainWr : Nat := 0
  kemState : Nat := 0
  kemReason : Nat := 0
  tenants : Tab Tenant := []
  ignored : Tab Nat := []
  deriving DecidableEq, Repr

/-! ### Boot, flash, configuration -/

/-- A flash operation in progress (R458): what FLASH_OPERATION_DONE completes. -/
inductive FlashOp where
  | erase (base len : Nat)
  | program (base : Nat) (data : List Byte)
  | stageFirmware
  | confirm
  | cancel
  deriving DecidableEq, Repr

/-- Boot, configuration and staging (R449 to R475). -/
structure BootSt where
  flash : Mem := []
  step : Nat := 0
  failed : Bool := false
  romSafe : Bool := false
  bank : Nat := 0
  pending : Bool := false
  tried : Bool := false
  rolledBack : Bool := false
  ready : Bool := false
  lock : Bool := false
  cfgState : Nat := 0
  cfgSlot : Nat := 0
  cfgReason : Nat := 0
  cfgSeq : Nat := 0
  cfgDetail : Nat := 4294967295
  dirSeq : Nat := 0
  dirCopy : Nat := 0
  active : Nat := 0
  kilnRel : Nat := 0
  mashRel : Nat := 0
  tileRel : Nat := 0
  stgState : Nat := 0
  stgReason : Nat := 0
  op : Option FlashOp := none
  staged : Bool := false
  addr6 : Tab (List Byte) := []
  deriving DecidableEq, Repr

/-! ### Snapshots, mailboxes, sensors -/

/-- A fabric snapshot whose markers are still arriving (R513). -/
structure Drain where
  snapId : Nat
  since : Nat
  expect : List AssocKey
  marked : List AssocKey := []
  crossed : List AssocKey := []
  crossing : Nat := 0
  latched : Bool := false
  haloNo : Nat := 0
  counter : Nat := 0
  deriving DecidableEq, Repr

/-- The snapshot and trace logic (R506 to R515). `data` holds the latched words of each SNAPDATA entry; `tctr` the eight
counters of each tenant; `haloOut` counts the pulses on HALO_OUT; `haloAt` is the tick of the last Halo. -/
structure SnapSt where
  state : Nat := 0
  lastSrc : Nat := 0
  haloNo : Nat := 0
  haloAt : Option Nat := none
  snapId : Nat := 0
  missed : Nat := 0
  crossing : Nat := 0
  ids : List Nat := []
  discards : Nat := 0
  data : Tab (List Nat) := []
  drains : List Drain := []
  haloOut : Nat := 0
  trace : Tab (List Byte) := []
  traceHead : Nat := 0
  tctr : Tab (Tab Nat) := []
  tctrHi : Tab Nat := []
  deriving DecidableEq, Repr

/-- The mailbox (R516, R517). `cur` is the message that the Kiln is taking, whole when `done` is set; `fifo` the words
behind it, with their end marks; `skip` marks a message that is being discarded. -/
structure MailSt where
  cur : List Word32 := []
  done : Bool := false
  fifo : List (Word32 × Bool) := []
  skip : Bool := false
  overrun : Nat := 0
  k2h : List (Word32 × Bool) := []
  last : Bool := false
  underrun : Nat := 0
  mapBuf : List Byte := []
  mapTotal : Nat := 0
  deriving DecidableEq, Repr

/-- The sensors and the pins that chapter 21 adds: the values of the last complete window, the state byte and the part number that
the sideband shows from its end on, and when it ended (R447, R556), whether THERMTRIP_N is asserted, and the memory clocks that are
lost. -/
structure PackSt where
  power : Nat := 0
  logic : Nat := 0
  hbm : Nat := 0
  lp : Nat := 0
  state : Nat := 0
  part : Nat := 0
  windowSince : Nat := 0
  thermtrip : Bool := false
  logicTemps : List Nat := []
  logicSince : Nat := 0
  lostMem : List MemClock := []
  pinReset : Bool := true
  i3c : List Byte := []
  deriving DecidableEq, Repr

end Sys2Proof.Machine
end

