-- ==== Sys2Proof/Machine/State.lean ====
section
/-!
DEFINITION. Machine/State.lean: the whole state of the node as plain data, the reasons a step can stop, and the state
while pin reset is asserted (R470, R527), from which PERST_N_DEASSERT runs the power-up sequence.
-/

namespace Sys2Proof.Machine

/-- The reasons a step can stop with a fault. The spec gives every command of the table an effect, so no meaning raises
one; the constructor is kept for the interface. -/
inductive Fault where
  /-- Raised by no meaning. Safe: the node never stops where the spec goes on. -/
  | none
  deriving DecidableEq, Repr

/-- The reasons a step can be refused. -/
inductive Refusal where
  /-- Answered by exec's arm of a command that has no meaning yet. Safe: no claim about the command can be proved. -/
  | notModelled (mnemonic : String)
  deriving DecidableEq, Repr

/-- The state of the node. `running` is false while PERST_N is asserted and after the interior has stopped (R547, R548,
R555). `regs` holds the words written to RW and RWL registers, by control-space offset; an unlisted register reads its
Reset column. `fresh` counts the draws of values that the spec leaves free. -/
structure State where
  pending : List Instr := []
  running : Bool := false
  fresh : Nat := 0
  regs : Tab Nat := []
  accessErr : Nat := 0
  lastErr : Nat := 4294967295
  lockedWr : Nat := 0
  badvalWr : Nat := 0
  time : TimeSt := {}
  fault : FaultSt := {}
  cask : CaskSt := {}
  snap : SnapSt := {}
  mail : MailSt := {}
  mem : MemSt := {}
  exec : ExecSt := {}
  net : NetSt := {}
  outcomes : List Outcome := []
  queues : Tab CmdQueue := []
  sched : SchedSt := {}
  comp : CompSt := {}
  pfx : PrefixSt := {}
  link : LinkSt := {}
  ledger : LedgerSt := {}
  trust : TrustSt := {}
  boot : BootSt := {}
  pack : PackSt := {}
  deriving DecidableEq, Repr

/-- The outcome of a step. -/
abbrev Out := Host.Outcome State Fault Refusal

/-- The state while pin reset is asserted: every field at its Reset column (R527), command queue 0 enabled and open to any
source (R304, R315), and the node's own queue of commands empty. -/
def State.reset : State := { queues := [(0, { bind := 0x30000000 })] }

end Sys2Proof.Machine
end

