-- ==== Sys2Proof/Machine/Params.lean ====
section
/-!
DEFINITION. Machine/Params.lean: the Reset column of the RW and RWL registers (R527), by control-space offset, and the
parameters of the configuration image read through it.
-/

namespace Sys2Proof.Machine

/-- The default severity of a fault source (R476). -/
def defaultSeverity (s : Nat) : Nat :=
  if s ∈ [1, 2, 3, 4, 5, 6, 7, 8, 10, 12, 22, 25, 37, 39, 40] then 3
  else if s ∈ [11, 13, 15, 16, 24, 53, 54, 60] then 2
  else if 18 ≤ s && s ≤ 21 then 2
  else if 26 ≤ s && s ≤ 27 then 2
  else if 29 ≤ s && s ≤ 36 then 2
  else if 41 ≤ s && s ≤ 52 then 2
  else if s = 63 then 0
  else 1

/-- The Reset column of the register at a control-space offset, RW and RWL fields only. -/
def regReset (a : Nat) : Nat :=
  if a < 0x2000 then
    if a = 0x1100 then 4096
    else if a = 0x1104 then 16384
    else if a = 0x1108 then 100000
    else if a = 0x110C then 7 + 1024 * 16
    else if a = 0x1110 then 1000 + 4 * 2097152 + 2 * 268435456
    else if a = 0x1120 then 5000000
    else if a = 0x1124 then 50000000
    else if a = 0x1128 then 100000 + 5 * 16777216
    else if a = 0x112C then 100000
    else if a = 0x1130 then 100
    else 0
  else if a < 0x3000 then
    let o := a - 0x2000
    if o = 0x28 then 1
    else if o = 0x2C then 5
    else if o = 0x30 then 29
    else if 0x80 ≤ o && o < 0x100 then (if o % 8 = 4 then 100000000 else 0)
    else if 0x100 ≤ o && o < 0x500 then (if o % 16 = 0 then defaultSeverity ((o - 0x100) / 16) + 16 * 256 else 0)
    else 0
  else if a < 0x6000 then
    if a = 0x3100 then 4096
    else if a = 0x5020 then 500 * 256
    else if a = 0x5024 then 600 + 850 * 1024 + 340 * 1048576
    else if a = 0x5028 then 750
    else 0
  else if a < 0x20000 then 0
  else if a < 0x30000 then
    let o := a - 0x20000
    if o = 0 then 0x88B5 + 7361 * 65536
    else if o = 4 then 64 + 3 * 256 + 9216 * 65536
    else if o = 8 then 2000
    else if o = 0xC then 1000000
    else if o = 0x10 then 8 + 100 * 65536
    else if o = 0x14 then 512
    else if o = 0x18 then 1000000000
    else if o = 0x20 then 0xFAC688
    else 0
  else if a < 0x40000 then
    let o := a - 0x30000
    if o = 0 then 3
    else if o = 0x100 then 1048576
    else 0
  else if a < 0x50000 then
    let o := a - 0x40000
    if o < 0x20 then 1024 * 2 ^ (o / 4)
    else if o < 0x40 then 4096
    else if o = 0x40 then 2 + 1 * 8 + 4 * 256
    else if o = 0x44 then 131072
    else if 0x100 ≤ o && o < 0x2C0 && (o - 0x100) % 32 = 8 then 256
    else 0
  else if a < 0x60000 then 0
  else if a < 0x70000 then
    let o := a - 0x60000
    if o = 0 then 2 + 2 * 4 + 8 * 64
    else if o = 4 then 2000
    else if o = 8 then 100000
    else if o = 0xC then 32768
    else if o = 0x10 then 32768
    else if o = 0x14 then 4 + 1 * 65536
    else if o = 0x18 then 100000000
    else if o = 0x240 then 0x0BEBC200
    else 0
  else if a = 0x70000 then 16 + 64
  else 0

/-- The stored word of an RW or RWL register. -/
def rd (s : State) (a : Nat) : Nat := tabGetD s.regs a (regReset a)

/-- Bits [hi:lo] of a stored word. -/
def fld (s : State) (a hi lo : Nat) : Nat := bitsOf hi lo (rd s a)

/-- Stores a word. -/
def wrReg (s : State) (a w : Nat) : State := { s with regs := tabSet s.regs a w }

/-! ### Parameters (R78, R140, R171, R175, R200, R240, R269, R312, R350, R370, R503) -/

def pFreeLow (s : State) : Nat := fld s 0x1100 16 0
def pFreeHigh (s : State) : Nat := fld s 0x1104 18 0
def pMinIdle (s : State) : Nat := rd s 0x1108
def pProtect (s : State) : Nat := fld s 0x110C 3 0
def pPreemptRate (s : State) : Nat := fld s 0x110C 16 4
def pMashWait (s : State) : Nat := fld s 0x1110 19 0
def pPvPrec (s : State) : Bool := fld s 0x1110 20 20 == 1
def pSkimSeed (s : State) : Nat := fld s 0x1110 27 21
def pBwdMax (s : State) : Nat := fld s 0x1110 30 28
def pGradEnable (s : State) : Bool := fld s 0x1110 31 31 == 1
def pGrace (s : State) : Nat := rd s 0x1120
def pLease (s : State) : Nat := rd s 0x1124
def pHbPeriod (s : State) : Nat := fld s 0x1128 23 0
def pMisses (s : State) : Nat := fld s 0x1128 30 24
def pChainTimeout (s : State) : Nat := fld s 0x112C 23 0
def pDetCmp (s : State) : Nat := fld s 0x1130 14 10
def pDetEn (s : State) : Bool := fld s 0x1130 15 15 == 1
def pSevAction (s : State) (n : Nat) : Nat := fld s (0x2024 + 4 * n) 4 0
def pInjectEn (s : State) : Bool := fld s 0x2040 0 0 == 1
def pFwinCmp (s : State) (k : Nat) : Nat := fld s (0x2080 + 8 * k) 5 0
def pFwinEn (s : State) (k : Nat) : Bool := fld s (0x2080 + 8 * k) 6 6 == 1
def pFwinLen (s : State) (k : Nat) : Nat := rd s (0x2084 + 8 * k)
def pSeverity (s : State) (n : Nat) : Nat := fld s (0x2100 + 16 * n) 1 0
def pWindow (s : State) (n : Nat) : Nat := fld s (0x2100 + 16 * n) 5 2
def pWinEn (s : State) (n : Nat) : Bool := fld s (0x2100 + 16 * n) 6 6 == 1
def pThreshold (s : State) (n : Nat) : Nat := fld s (0x2100 + 16 * n) 23 8
def pMode (s : State) : Nat := fld s 0x5020 1 0
def pTarget (s : State) : Nat := fld s 0x5020 31 8
def pVmin (s : State) : Nat := fld s 0x5024 9 0
def pVmax (s : State) : Nat := fld s 0x5024 19 10
def pPcap (s : State) : Nat := fld s 0x5024 29 20
def pVfixed (s : State) : Nat := fld s 0x5028 9 0
def pBodyMax (s : State) : Nat := 1024 * 2 ^ fld s 0x20004 9 8
def pRtoInit (s : State) : Nat := rd s 0x20008
def pRtoMax (s : State) : Nat := rd s 0x2000C
def pRetryMax (s : State) : Nat := fld s 0x20010 3 0
def pAckCoalesce (s : State) : Nat := fld s 0x20010 31 16
def pCreditInit (s : State) : Nat := fld s 0x20014 12 0
def pRetain (s : State) : Nat := rd s 0x20018
def pPcp (s : State) (c : Nat) : Nat := bitsOf (3 * c + 2) (3 * c) (rd s 0x20020)
def pPortMode (s : State) (p : Nat) : Nat := fld s (0x20100 + 64 * p) 3 0
def pEncap (s : State) (p : Nat) : Bool := fld s (0x20100 + 64 * p) 4 4 == 1
def pVlan (s : State) (p : Nat) : Bool := fld s (0x20100 + 64 * p) 5 5 == 1
def pAdmQuantum (s : State) (c : Nat) : Nat := fld s (0x40000 + 4 * c) 23 0
def pEgQuantum (s : State) (c : Nat) : Nat := fld s (0x40020 + 4 * c) 23 0
def pSeqzClass (s : State) : Nat := fld s 0x40040 2 0
def pCopyClass (s : State) : Nat := fld s 0x40040 5 3
def pGateRt (s : State) : Bool := fld s 0x40040 6 6 == 1
def pEgTrace (s : State) : Bool := fld s 0x40040 7 7 == 1
def pSampleShift (s : State) : Nat := fld s 0x40040 12 8
def pSysQuantum (s : State) : Nat := fld s 0x40044 23 0
def pGateEn (s : State) (u : Nat) : Bool := fld s (0x40100 + 32 * u) 0 0 == 1
def pGateCmp (s : State) (u : Nat) : Nat := fld s (0x40100 + 32 * u) 6 1
def pClassify (s : State) : Nat := fld s 0x60000 1 0
def pKInit (s : State) : Nat := fld s 0x60000 5 2
def pKMax (s : State) : Nat := fld s 0x60000 9 6
def pStageWait (s : State) : Nat := rd s 0x60004
def pFallback (s : State) : Nat := rd s 0x60008
def pStageMax (s : State) : Nat := fld s 0x6000C 18 0
def pCoolLow (s : State) : Nat := fld s 0x60010 20 0
def pHotMark (s : State) : Nat := fld s 0x60014 15 0
def pColdMark (s : State) : Nat := fld s 0x60014 31 16
def pAge (s : State) : Nat := rd s 0x60018
def pCopyTimeout (s : State) : Nat := rd s 0x60240
def pMashQuota (s : State) : Nat := fld s 0x70000 4 0
def pCommitVerify (s : State) : Bool := fld s 0x70000 5 5 == 1
def pRowRepair (s : State) : Bool := fld s 0x70000 6 6 == 1

end Sys2Proof.Machine
end

