-- ==== Sys2Proof/Machine/Ops.lean ====
section
/-!
DEFINITION. Machine/Ops.lean: the operations that every family shares: the tick, drawing a free value, raising a fault
event, the Cask queue, the descriptor of a status, and small updates of the state's parts.
-/

namespace Sys2Proof

/-! ### Status codes (R8, R11) -/

/-- The value of a status (R8). -/
def Status.code : Status → Nat
  | .ok => 0x00 | .partialDone => 0x01 | .noPage => 0x10 | .busyRetry => 0x11 | .refusedFit => 0x12
  | .staleMap => 0x20 | .notOwner => 0x21 | .noState => 0x22 | .fenced => 0x23 | .staleGen => 0x30 | .dup => 0x31
  | .keyRetired => 0x40 | .authFail => 0x41 | .poison => 0x50 | .lostUpdate => 0x51 | .conflict => 0x52
  | .tierLate => 0x60 | .lifeEnd => 0x61 | .internal => 0x7F

/-- The status that a value names; a reserved value is INTERNAL (R8). -/
def statusOf (n : Nat) : Status :=
  match n with
  | 0x00 => .ok | 0x01 => .partialDone | 0x10 => .noPage | 0x11 => .busyRetry | 0x12 => .refusedFit
  | 0x20 => .staleMap | 0x21 => .notOwner | 0x22 => .noState | 0x23 => .fenced | 0x30 => .staleGen | 0x31 => .dup
  | 0x40 => .keyRetired | 0x41 => .authFail | 0x50 => .poison | 0x51 => .lostUpdate | 0x52 => .conflict
  | 0x60 => .tierLate | 0x61 => .lifeEnd | _ => .internal

/-- The place of a status in the order of R11: the smaller is reported. -/
def Status.rank : Status → Nat
  | .authFail => 0 | .keyRetired => 1 | .fenced => 2 | .dup => 3 | .staleMap => 4 | .notOwner => 5 | .noState => 6
  | .staleGen => 7 | .refusedFit => 8 | .busyRetry => 9 | .noPage => 10 | .internal => 11 | .poison => 12
  | .lostUpdate => 13 | .conflict => 14 | .tierLate => 15 | .lifeEnd => 16 | .partialDone => 17 | .ok => 18

/-- Of two statuses, the one that R11 reports. -/
def Status.worse (a b : Status) : Status := if a.rank ≤ b.rank then a else b

/-- The status of a list of records (R103). -/
def worst : List Status → Status
  | [] => .ok
  | a :: l => a.worse (worst l)

/-! ### Handles -/

/-- Bits [63:20] of a sequence handle as a number (R48). -/
def SeqId.num (q : SeqId) : Nat := 4294967296 * q.tenant + q.sequence

/-- The sequence that a handle names (R48). -/
def SeqHandle.id (h : SeqHandle) : SeqId := ⟨h.tenant, h.sequence⟩

/-- A sequence handle as 64 bits (R48). -/
def SeqHandle.num (h : SeqHandle) : Nat :=
  4503599627370496 * h.tenant + 1048576 * h.sequence + 262144 * h.repl + 131072 * b2n h.training + 16384 * h.cls
    + 8192 * b2n h.noskim

/-- The sequence handle that 64 bits spell (R48). -/
def seqHandleOf (n : Nat) : SeqHandle :=
  { tenant := bitsOf 63 52 n, sequence := bitsOf 51 20 n, repl := bitsOf 19 18 n, training := bitOf 17 n,
    cls := bitsOf 16 14 n, noskim := bitOf 13 n }

/-- A page handle as 64 bits (R56). -/
def PageHandle.num (h : PageHandle) : Nat := 4503599627370496 * h.node + 16777216 * h.lpn + 256 * h.gen + h.tier

/-- The page handle that 64 bits spell (R56). -/
def pageHandleOf (n : Nat) : PageHandle :=
  { node := bitsOf 63 52 n, lpn := bitsOf 51 24 n, gen := bitsOf 23 8 n, tier := bitsOf 2 0 n }

/-- An endpoint id as 16 bits (R278). -/
def Endpoint.num : Endpoint → Nat
  | .node i => i
  | .adapter i => 16384 + i

/-- The endpoint that 16 bits name (R278); reserved values name none. -/
def endpointOf (n : Nat) : Option Endpoint :=
  if n < 4096 then some (.node n)
  else if 16384 ≤ n && n < 32768 then some (.adapter (n - 16384))
  else none

end Sys2Proof

namespace Sys2Proof.Machine

/-- The local interval counter (R39). -/
def now (s : State) : Nat := s.time.counter

/-- Whether a duration of `t` ticks that started at `since` has passed (R42). -/
def elapsed (s : State) (since t : Nat) : Bool := decide (since + t ≤ now s)

/-- Draws the next free value (log entry 2). -/
def draw (s : State) : Nat × State := (Config.freeNat s.fresh, { s with fresh := s.fresh + 1 })

/-! ### Parts of the state -/


/-! ### The Cask (R497, R498) -/

/-- Whether a kind is pinned (R495). -/
def caskPinnedKind (kind : Nat) : Bool := kind == 0x05 || kind == 0x11 || kind == 0x50

/-- Whether a record of this kind waits for room in a full queue and is never dropped (R497). -/
def caskWaits (kind : Nat) : Bool := kind ∈ [0x01, 0x02, 0x03, 0x04, 0x05, 0x11, 0x15, 0x40, 0x50]

/-- The segment that a head takes next (R498): one never written, else the unpinned segment with the lowest SEG_GEN that
the other head does not use. -/
def caskPick (c : CaskSt) (other : Option Nat) : Option Nat :=
  match (List.range 64).find? fun i => (tabGet c.segs i).isNone with
  | some i => some i
  | none =>
    let cands := (List.range 64).filter fun i =>
      match tabGet c.segs i with
      | some g => !g.pinned && other != some i
      | none => false
    minBy (fun i => (tabGetD c.segs i {}).gen) cands

/-- How many segments are pinned. -/
def caskPinned (c : CaskSt) : Nat := (c.segs.filter fun e => e.2.pinned).length

/-- Gives a record its SEQ and its place on a write head, and queues it (R497). -/
def caskPut (c : CaskSt) (r : CaskRec) (seg place : Nat) : CaskSt :=
  { c with nextSeq := c.nextSeq + 1, gapNext := false,
           queue := c.queue ++ [{ record := { r with seq := c.nextSeq, gap := c.gapNext }, segment := seg, place := place }] }

/-- Takes a new segment for a head and queues its SEGMENT record (R497, R498). -/
def caskTake (c : CaskSt) (pin : Bool) (counter : Nat) : CaskSt :=
  match caskPick c (if pin then c.headO.segment else c.headP.segment) with
  | none => c
  | some i =>
    let g := c.segGen + 1
    let c1 := { c with segGen := g, segs := tabSet c.segs i { pinned := pin, gen := g } }
    let r : CaskRec := { kind := 0x01, pinned := pin, boot := c.boot, counter := counter,
                         payload := le 4 g ++ [BitVec.ofNat 8 (b2n pin)] }
    let c2 := caskPut c1 r i 0
    if pin then { c2 with headP := { segment := some i, next := 1 } }
    else { c2 with headO := { segment := some i, next := 1 } }

/-- Whether a record of this kind goes to the pinned head now (R498). -/
def caskToPinned (c : CaskSt) (kind : Nat) : Bool := caskPinnedKind kind && !c.pinFull

/-- Queues a record whose turn has come: the head takes a segment first if it has none, and takes the next one when the
record fills its segment (R497). -/
def caskPlace (c : CaskSt) (r : CaskRec) : CaskSt :=
  let pin := caskToPinned c r.kind
  let head := if pin then c.headP else c.headO
  let c1 := if head.segment.isNone then caskTake c pin r.counter else c
  let h := if pin then c1.headP else c1.headO
  match h.segment with
  | none => c1
  | some i =>
    let c2 := caskPut c1 { r with pinned := pin } i h.next
    let c3 := if pin then { c2 with headP := { h with next := h.next + 1 } }
              else { c2 with headO := { h with next := h.next + 1 } }
    if h.next + 1 = 16384 then
      if pin && caskPinned c3 = 16 then { c3 with pinFull := true } else caskTake c3 pin r.counter
    else c3

/-! ### Fault events (R476, R477) -/

/-- A fault source's entry. -/
def srcOf (s : State) (n : Nat) : FaultSrc := tabGetD s.fault.srcs n {}

/-- Changes a fault source's entry. -/
def modSrc (s : State) (n : Nat) (f : FaultSrc → FaultSrc) : State :=
  { s with fault := { s.fault with srcs := tabModD s.fault.srcs n {} f } }

/-- Raises an event: the source's line goes high and the event waits in the collector (R477, R482). -/
def raise (s : State) (ev : FaultEv) : State :=
  let s1 := modSrc s ev.source fun x => { x with lineSince := some (now s) }
  { s1 with fault := { s1.fault with events := s1.fault.events ++ [ev] } }

/-- A level source follows its cause; a rising edge counts as an event (R477). -/
def setLevel (s : State) (n : Nat) (high : Bool) (unit : UnitRef := {}) : State :=
  let was := (srcOf s n).level
  let s1 := modSrc s n fun x => { x with level := high }
  if high && !was then
    { s1 with fault := { s1.fault with events := s1.fault.events ++ [{ source := n, unit := unit }] } }
  else s1

/-- Queues a Cask record (R497): a full queue drops an ordinary record, counts it and raises the CASK source, and lets the
records that must not be lost wait. The first overflow of the pinned area raises the CASK source once (R498). -/
def caskRec (s : State) (r : CaskRec) : State :=
  let r1 := { r with boot := s.cask.boot, counter := now s }
  if 256 ≤ s.cask.queue.length then
    if caskWaits r.kind then { s with cask := { s.cask with waiting := s.cask.waiting ++ [r1] } }
    else raise { s with cask := { s.cask with dropped := satAdd cap32 s.cask.dropped 1, gapNext := true } } { source := 9 }
  else
    let c := caskPlace s.cask r1
    let s1 := { s with cask := c }
    if c.pinFull && !s.cask.pinFull then raise s1 { source := 9 } else s1

/-- Queues a record of a kind with its payload. -/
def caskNote (s : State) (kind : Nat) (payload : List Byte) : State := caskRec s { kind := kind, payload := payload }

/-- An ACTION record (R496): 1 SWAP, 2 ISOLATE; free spares left in the unit's group; the causing record's SEQ. -/
def caskAction (s : State) (what : Nat) (u : UnitRef) (sparesLeft : Nat) : State :=
  let cause := s.cask.nextSeq - 1
  caskNote s 0x14 (le 1 what ++ le 1 0 ++ le 1 u.kind ++ le 1 0 ++ le 2 u.num ++ le 2 sparesLeft ++ le 4 0 ++ le 4 cause
    ++ le 8 (cause / 4294967296) ++ le 1 0)

/-- An INTERNAL record with its event (R8, R476, R495). -/
def noteInternal (s : State) (opcode src reqId unitKind unit detail : Nat) : State :=
  raise (caskNote s 0x7F (le 1 opcode ++ le 1 0 ++ le 2 src ++ le 6 reqId ++ le 1 unitKind ++ le 1 0 ++ le 2 unit
    ++ le 2 detail)) { source := 60 }

/-- An armed injection fires at a check of its checker and unit (R491): the mode, and the state in which source 62 has
risen and the injection counts as fired. -/
def fireInj (s : State) (checker unit : Nat) : Option (Nat × State) :=
  let i := s.fault.inj
  if i.status = 1 ∧ i.checker = checker ∧ i.unit = unit then
    some (i.mode, raise { s with fault := { s.fault with inj := { i with status := 2, count := i.count + 1 } } }
      { source := 62, injected := true })
  else none

/-- Whether a check fails: for a real error or for an injection, which counts with it as one event (R492). -/
def checkFails (s : State) (checker unit : Nat) (real : Bool) : Bool × Bool × State :=
  match fireInj s checker unit with
  | some (_, s1) => (true, true, s1)
  | none => (real, false, s)

/-! ### Reaching a register (R398, R457, R522, R528) -/

/-- Whether a control-space location lies on the East die (R528). -/
def isEast (a : Nat) : Bool :=
  let within := fun (lo hi : Nat) => decide (lo ≤ a) && decide (a < hi)
  let e := (a - 0x90000) / 128
  within 0x18000 0x20000 || within 0x80500 0x80900 || within 0x70160 0x701C0 || within 0x71C00 0x72800
    || within 0x20280 0x20400 || within 0x60030 0x60040 || within 0x60120 0x60140
    || (within 0x90000 0x91300 && (e == 21 || e == 22 || e == 36 || (decide (13 ≤ e) && decide (e < 19))
      || (decide (29 ≤ e) && decide (e < 35))))

/-- Whether a block is served over a PLAIN link (R398): IDENT, TRUST, MAILBOX and HOSTLINK/LEDGER. -/
def plainBlock (a : Nat) : Bool :=
  let within := fun (lo hi : Nat) => decide (lo ≤ a) && decide (a < hi)
  decide (a < 0x1000) || within 0x4000 0x5000 || within 0x6000 0x10000 || within 0x30000 0x40000

/-- The STATUS with which an access to an implemented location completes (R522): 0 OK, 1 ERROR, 2 NOT_SECURE. -/
def reachStatus (s : State) (a : Nat) : Nat :=
  if s.boot.romSafe then (if a < 0x2000 then 0 else 1)
  else if s.link.state = 2 ∧ plainBlock a = false then 2
  else if isEast a && s.time.bridgeFenced then 1
  else 0

/-- Counts an access that completes with ERROR (R522). -/
def countError (s : State) (a : Nat) : State := { s with accessErr := s.accessErr + 1, lastErr := a }

/-- A host access to the location `a` has its effect where R522 lets it: over an up link, of a running node. -/
def regEnter (s : State) (a : Nat) (f : State → State) : State :=
  if s.running && decide (2 ≤ s.link.state) then
    match reachStatus s a with
    | 0 => f s
    | 1 => countError s a
    | _ => s
  else s

/-- What happens only while the interior runs: under pin reset and once it has stopped, nothing does (R527, R547, R548,
R555). -/
def whileRunning (s : State) (f : Unit → State) : State := if s.running then f () else s

/-! ### The signing keys of the part (R427) -/

/-- The DEVID public key, from the part's secret and "SZ820-DEVID". -/
def devidKey : List Byte :=
  Config.slhPublic (shake256 (Config.uds ++ [0x53, 0x5A, 0x38, 0x32, 0x30, 0x2D, 0x44, 0x45, 0x56, 0x49, 0x44]) 96)

/-- The public key AK, from the part's secret, OWNER_HASH and "SZ820-AK". -/
def attKey (s : State) : List Byte :=
  Config.slhPublic (shake256 (Config.uds ++ padTo 32 s.trust.ownerHash ++ [0x53, 0x5A, 0x38, 0x32, 0x30, 0x2D, 0x41, 0x4B]) 96)

/-! ### Quadrants and channels -/

/-- The quadrant of a stack (R14). -/
def quadOfStack (st : Nat) : Nat := st / 3

/-- The node pseudo-channel number (R14). -/
def pcNum (st pc : Nat) : Nat := st * 32 + pc

def chanOf (s : State) (n : Nat) : Chan := tabGetD s.mem.chans n {}
def stackOf (s : State) (n : Nat) : StackSt := tabGetD s.mem.stks n {}
def quadOf (s : State) (q : Nat) : Quad := tabGetD s.mem.quads q {}
def clusterOf (s : State) (q : Nat) : Cluster := tabGetD s.mem.clusters q {}

def modChan (s : State) (n : Nat) (f : Chan → Chan) : State :=
  { s with mem := { s.mem with chans := tabModD s.mem.chans n {} f } }
def modStack (s : State) (n : Nat) (f : StackSt → StackSt) : State :=
  { s with mem := { s.mem with stks := tabModD s.mem.stks n {} f } }
def modQuad (s : State) (q : Nat) (f : Quad → Quad) : State :=
  { s with mem := { s.mem with quads := tabModD s.mem.quads q {} f } }
def modCluster (s : State) (q : Nat) (f : Cluster → Cluster) : State :=
  { s with mem := { s.mem with clusters := tabModD s.mem.clusters q {} f } }
def modTile (s : State) (t : Nat) (f : Tile → Tile) : State :=
  { s with mem := { s.mem with tiles := tabModD s.mem.tiles t {} f } }

end Sys2Proof.Machine
end

