-- ==== Sys2Proof/Machine/Stream.lean ====
section
/-!
DEFINITION. Machine/Stream.lean: the page codec's streams (chapter 9): the table entries of the coder (R246, R247), block
records (R244, R245), streams and their header (R243), decoding with the checks of R247 and R248, and the page CRC over an
image (R54).
-/

namespace Sys2Proof.Machine

/-- Bytes of a slot image (R53). -/
def imageBytes : Nat := 18432

/-- The first byte of the side block in a slot image (R53). -/
def sideBase : Nat := 16384

/-! ### Bits -/

/-- The low `n` bits of a number, bit 0 first. -/
def toBits : Nat → Nat → List Bool
  | 0, _ => []
  | n + 1, v => (v % 2 == 1) :: toBits n (v / 2)

/-- The number whose bits are given, bit 0 first. -/
def ofBits : List Bool → Nat
  | [] => 0
  | b :: l => b2n b + 2 * ofBits l

/-- A bit string as bytes, bit 0 upward, the last byte padded with zero bits (R246). -/
def packBits (bs : List Bool) : List Byte :=
  (List.range (ceilDiv bs.length 8)).map fun i => BitVec.ofNat 8 (ofBits ((bs.drop (8 * i)).take 8))

/-- The bits of bytes, in order, from bit 0 of each upward (R246). -/
def unpackBits (bs : List Byte) : List Bool := bs.flatMap fun b => toBits 8 b.toNat

/-! ### Coding (R246, R247) -/

/-- A table entry (R247): SYM, NB and NEXT. -/
structure AnsEntry where
  sym : Nat
  nb : Nat
  next : Nat
  deriving DecidableEq, Repr

/-- The entry for state 2,048 + i of a distribution (0 A, 1 B) of a format's table, within the bounds of R247. The contents are
published apart from the spec (log entry 4). -/
def ansEntry (fmt table dist i : Nat) : AnsEntry :=
  let nb := Config.ansBits fmt table dist i % 12
  { sym := Config.ansSym fmt table dist i % 256, nb := nb, next := 2048 + Config.ansNext fmt table dist i % (2049 - 2 ^ nb) }

/-- Codes symbols in reverse order from state 2,048 (R246): the final state and the bits in the order in which the decoder
reads them. None where the table has no entry that leads to a state by a symbol. -/
def ansEncode (e : Nat → AnsEntry) : List Byte → Option (Nat × List Bool)
  | [] => some (2048, [])
  | b :: l => (ansEncode e l).bind fun (x, bits) =>
      ((List.range 2048).find? fun i =>
        (e i).sym == b.toNat && decide ((e i).next ≤ x) && decide (x < (e i).next + 2 ^ (e i).nb)).map fun i =>
          (2048 + i, toBits (e i).nb (x - (e i).next) ++ bits)

/-- The decode loop of R247 over `n` symbols, with its three checks. -/
def ansDecode (e : Nat → AnsEntry) : Nat → Nat → List Bool → Option (List Byte)
  | 0, x, bits => if x = 2048 ∧ bits.length < 8 ∧ bits.all (!·) = true then some [] else none
  | n + 1, x, bits =>
    let a := e (x - 2048)
    if bits.length < a.nb then none
    else (ansDecode e n (a.next + ofBits (bits.take a.nb)) (bits.drop a.nb)).map fun l => BitVec.ofNat 8 a.sym :: l

/-- Sub-stream i of a block: bytes i, i + 8, and so on (R246). -/
def subSymbols (bs : List Byte) (i : Nat) : List Byte := (List.range 512).map fun n => bs.getD (8 * n + i) 0

/-- The payload of a CODED block (R244): the sub-stream table, then the sub-streams. -/
def codedPayload (fmt table : Nat) (bs : List Byte) : Option (List Byte) :=
  let subs := (List.range 8).map fun i =>
    (ansEncode (ansEntry fmt table (i % 2)) (subSymbols bs i)).map fun (x, bits) => (x, packBits bits)
  if subs.all Option.isSome then
    let l := subs.filterMap id
    some ((l.flatMap fun e => le 2 e.2.length ++ le 2 e.1) ++ l.flatMap Prod.snd)
  else none

/-- Decodes a CODED payload (R247); its length fits its sub-stream table (R248). -/
def decodeCoded (fmt table : Nat) (p : List Byte) : Option (List Byte) :=
  let len := fun (i : Nat) => fieldLe p (4 * i) 2
  if p.length ≠ 32 + sumNat ((List.range 8).map len) then none
  else
    let subs := (List.range 8).map fun i =>
      let start := 32 + sumNat ((List.range i).map len)
      let x := fieldLe p (4 * i + 2) 2
      if 2048 ≤ x ∧ x ≤ 4095 then
        ansDecode (ansEntry fmt table (i % 2)) 512 x (unpackBits ((p.drop start).take (len i)))
      else none
    if subs.all Option.isSome then
      let l := subs.filterMap id
      some ((List.range 4096).map fun k => (l.getD (k % 8) []).getD (k / 8) 0)
    else none

/-! ### Block records (R244, R245) -/

/-- Whether a format has a SCALES record: MX formats and INT8_TOK (R243). -/
def hasScales (fmt : Nat) : Bool := (decide (0x10 ≤ fmt) && decide (fmt ≤ 0x15)) || fmt == 0x20

/-- A record: header and payload (R244). -/
def blockRecord (kind table block : Nat) (payload : List Byte) : List Byte :=
  le 1 kind ++ le 1 table ++ le 1 block ++ le 1 0 ++ le 2 payload.length ++ le 2 0 ++ payload

/-- The KIND of a data block and its payload (R245): 0 CODED, 1 RAW, 2 ZERO. -/
def blockCoding (fmt table : Nat) (bs : List Byte) : Nat × List Byte :=
  if bs.all (· == 0) then (2, [])
  else if table = 0x80 then (1, bs)
  else match codedPayload fmt table bs with
    | some p => if p.length < 32 + 4064 then (0, p) else (1, bs)
    | none => (1, bs)

/-- The bytes of data block b of an image. -/
def dataBlock (img : Mem) (b : Nat) : List Byte := memReadN 0 img (4096 * b) 4096

/-- The table of data block b: blocks 0 and 1 hold K, 2 and 3 V (R244). -/
def blockTable (kTable vTable b : Nat) : Nat := if b < 2 then kTable else vTable

/-- The KINDs of the four data blocks. -/
def dataKinds (fmt kTable vTable : Nat) (img : Mem) : List Nat :=
  (List.range 4).map fun b => (blockCoding fmt (blockTable kTable vTable b) (dataBlock img b)).1

/-- The SCALES record: ZERO or RAW (R245). -/
def scalesRecord (img : Mem) : List Byte :=
  let bs := memReadN 0 img (sideBase + 0x80) 1024
  if bs.all (· == 0) then blockRecord 2 0 4 [] else blockRecord 1 0 4 bs

/-! ### Streams (R243) -/

/-- The block records of a stream. -/
def streamRecords (fmt kTable vTable : Nat) (img : Mem) : List Byte :=
  ((List.range 4).flatMap fun b =>
    let t := blockTable kTable vTable b
    let c := blockCoding fmt t (dataBlock img b)
    blockRecord c.1 t b c.2) ++ (if hasScales fmt then scalesRecord img else [])

/-- The stream of a slot image (R243, R245): a function of the image, LPN, GEN and the CODEC bytes alone. -/
def encodeStream (kTable vTable lpn gen : Nat) (img : Mem) : List Byte :=
  let fmt := (memRead 0 img sideBase).toNat
  let rs := streamRecords fmt kTable vTable img
  le 2 0x5A8C ++ le 1 1 ++ le 1 fmt ++ le 4 (0x2A0 + rs.length) ++ le 4 (lpn % 268435456) ++ le 2 gen
    ++ le 1 (if hasScales fmt then 5 else 4) ++ le 17 0 ++ memReadN 0 img sideBase 128 ++ memReadN 0 img (sideBase + 0x480) 512 ++ rs

/-- Whether a TABLE value is one of R242. -/
def tableDefined (t : Nat) : Bool := decide (t < 32) || t == 0x80

/-- Reads the record of block i: its bytes, and what follows it (R244, R248). -/
def decodeRecord (fmt i : Nat) (b : List Byte) : Option (List Byte × List Byte) :=
  let kind := fieldLe b 0 1 % 4
  let table := fieldLe b 1 1
  let len := fieldLe b 4 2
  let size := if i = 4 then 1024 else 4096
  let payload := (b.drop 8).take len
  if fieldLe b 2 1 ≠ i ∨ b.length < 8 + len ∨ (i < 4 ∧ tableDefined table = false) then none
  else
    let bytes := match kind with
      | 2 => if len = 0 then some (List.replicate size 0) else none
      | 1 => if len = size then some payload else none
      | 0 => if i < 4 ∧ table < 32 then decodeCoded fmt table payload else none
      | _ => none
    bytes.map fun x => (x, b.drop (8 + len))

/-- Reads the records of the blocks of a list, in order. -/
def decodeRecords (fmt : Nat) : List Nat → List Byte → Option (List (List Byte))
  | [], _ => some []
  | i :: l, b => (decodeRecord fmt i b).bind fun (x, rest) => (decodeRecords fmt l rest).map fun xs => x :: xs

/-- Bytes from address `a` on as sparse memory. -/
def sparseAt (a : Nat) (bs : List Byte) : Mem :=
  ((List.range bs.length).zip bs).filterMap fun e => if e.2 = 0 then none else some (a + e.1, e.2)

/-- Decodes a stream under an expected format, LPN and GEN and a limit of bytes: the slot image, or none on a decode error
(R248). The side-block bytes that a stream does not store become zero (R243). -/
def decodeStream (fmt lpn gen limit : Nat) (b : List Byte) : Option Mem :=
  let len := fieldLe b 4 4
  let n := if hasScales fmt then 5 else 4
  if fieldLe b 0 2 ≠ 0x5A8C ∨ fieldLe b 2 1 ≠ 1 ∨ fieldLe b 3 1 ≠ fmt ∨ limit < len ∨ fieldLe b 8 4 % 268435456 ≠ lpn
      ∨ fieldLe b 12 2 ≠ gen ∨ fieldLe b 14 1 ≠ n then none
  else (decodeRecords fmt (List.range n) ((b.take len).drop 0x2A0)).map fun bs =>
    ((List.range 4).flatMap fun k => sparseAt (4096 * k) (bs.getD k [])) ++ sparseAt sideBase (slice b 0x20 128)
      ++ sparseAt (sideBase + 0x80) (bs.getD 4 []) ++ sparseAt (sideBase + 0x480) (slice b 0xA0 512)

/-- The TABLE of data block b of a stream (R244): the records before it are passed over by their lengths. -/
def streamTable (b : List Byte) (k : Nat) : Nat :=
  let at_ := (List.range k).foldl (fun a _ => a + 8 + fieldLe b (a + 4) 2) 0x2A0
  fieldLe b (at_ + 1) 1

/-! ### The page CRC (R54) -/

/-- The page CRC over data area and SCALES. -/
def crcOver (data scales : List Byte) : Nat :=
  (~~~ crcRun (0xC96C5795D7870F42#64) (0xFFFFFFFFFFFFFFFF#64) (data ++ scales)).toNat

/-- Whether the CRC that an image stores does not fit its content (R206). -/
def imageWrong (img : Mem) : Bool :=
  ofLe (memReadN 0 img (sideBase + 8) 8) != crcOver (memReadN 0 img 0 16384) (memReadN 0 img (sideBase + 0x80) 1024)

end Sys2Proof.Machine
end

