-- ==== Sys2Proof/Machine/Frames.lean ====
section
/-!
DEFINITION. Machine/Frames.lean: the frame table and the free lists (R59, R61, R71, R72, R80, R81), slot images and their
side blocks (R51, R53, R54), placement (R209, R222, R223), blocks of the plain pseudo-channels (R64), the page map and the
walker (R62 to R67).
-/

namespace Sys2Proof.Machine

/-! ### Slots and images -/

/-- Slots of a mash-capable pseudo-channel (R61). -/
def slotsPerPc : Nat := 76458



/-- The place of a mash-capable pseudo-channel among the 336 of the node. -/
def mashIndex (st pc : Nat) : Nat := st * 28 + (pc - 4)

/-- The address of a slot's first byte in `MemSt.slots`. -/
def slotBase (st pc slot : Nat) : Nat := (mashIndex st pc * slotsPerPc + slot) * imageBytes

/-- The extent key of a lower-tier location. -/
def extKey : Loc → Nat
  | .lp c g _ => 268435456 * c + g
  | .host r g _ => 2147483648 + 2097152 * r + g
  | _ => 0

def frameOf (s : State) (lpn : Nat) : Frame := tabGetD s.mem.frames lpn {}

def setFrame (s : State) (lpn : Nat) (f : Frame) : State :=
  { s with mem := { s.mem with frames := tabSet s.mem.frames lpn f } }

def modFrame (s : State) (lpn : Nat) (f : Frame → Frame) : State := setFrame s lpn (f (frameOf s lpn))

/-- The HBM slot that serves a frame's reads and writes: the staged copy where one exists (R225), else its home. -/
def slotOf (f : Frame) : Loc :=
  if f.staged then f.alt else match f.loc with
  | .hbm st pc n => .hbm st pc n
  | _ => .none

/-- Whether a place waits for its memory's reference clock (R550). -/
def locWaits (s : State) : Loc → Bool
  | .hbm st _ _ => s.pack.lostMem.contains (.hbm (st / 6))
  | .lp c _ _ => s.pack.lostMem.contains (.lp (c / 4))
  | _ => false

/-- Whether every access to a frame's bytes waits (R550). -/
def frameWaits (s : State) (lpn : Nat) : Bool :=
  let f := frameOf s lpn
  locWaits s (if slotOf f == .none then f.loc else slotOf f)

/-- Whether a place lies in a pseudo-channel that is not in memory mode, or that enters it no more (R191, R192). -/
def locHeld (s : State) : Loc → Bool
  | .hbm st pc _ => (chanOf s (pcNum st pc)).mode != 0
  | _ => false

/-- The place of a frame's bytes that a memory-mode access reaches. -/
def homeOf (s : State) (lpn : Nat) : Loc := if slotOf (frameOf s lpn) == .none then (frameOf s lpn).loc else slotOf (frameOf s lpn)

def frameHeld (s : State) (lpn : Nat) : Bool := locHeld s (homeOf s lpn)

/-- The hold queue's entries (R194, R215): 32 at most, the rest wait at the controller's input. -/
def holdCount (c : Chan) : Nat := min 32 c.hold.length

/-- A memory-mode request meets a channel that computes (R192 to R194): once, its entries of at most 64 words join the hold
queue, or wait at its input; a full queue closes the burst. -/
def holdAt (s : State) (l : Loc) (w : HoldWork) (words : Nat) : State :=
  match l with
  | .hbm st pc _ =>
    modChan s (pcNum st pc) fun c =>
      if c.hold.any fun e => e.work == w then c
      else
        let new := if words = 0 then [{ words := 0, work := w }]
          else (List.range (ceilDiv words 64)).map fun i => ({ words := min 64 (words - 64 * i), work := w } : HoldEntry)
        { c with hold := c.hold ++ new, closing := c.closing || decide (32 ≤ (c.hold ++ new).length) }
  | _ => s

/-- A memory-mode access of `words` memory words to each of some places: it waits for a memory's clock (R550) and for channels
in processor mode, in whose hold queues it stands; else `f` runs. -/
def whenMemory (s : State) (ls : List Loc) (w : HoldWork) (words : Nat) (f : Unit → State) : State :=
  if ls.any (locWaits s) then s
  else if ls.any (locHeld s) then foldState (fun s l => if locHeld s l then holdAt s l w words else s) s ls
  else f ()

/-- The image that an extent's stream decodes to (R218, R243). -/
def extImage (e : Extent) : Mem :=
  (decodeStream (fieldLe e.stream 3 1) e.lpn e.gen e.stream.length e.stream).getD []

/-- The image of the extent at a lower-tier place. -/
def lowerImage (s : State) (l : Loc) : Mem := ((tabGet s.mem.exts (extKey l)).map extImage).getD []

/-- `n` bytes of a slot, or of the image that an extent holds. -/
def slotBytes (s : State) : Loc → Nat → Nat → List Byte
  | .hbm st pc k, o, n => memReadN 0 s.mem.slots (slotBase st pc k + o) n
  | l, o, n => memReadN 0 (lowerImage s l) o n

/-- `n` bytes of a frame's image, from its slot or else its extent (R225, R233). -/
def imgBytes (s : State) (lpn o n : Nat) : List Byte :=
  let f := frameOf s lpn
  match slotOf f with
  | .none => slotBytes s f.loc o n
  | l => slotBytes s l o n

/-- A little-endian field of a frame's image. -/
def imgLe (s : State) (lpn o n : Nat) : Nat := ofLe (imgBytes s lpn o n)

/-- Writes bytes into a slot. -/
def slotWrite (s : State) : Loc → Nat → List Byte → State
  | .hbm st pc n, o, bs => { s with mem := { s.mem with slots := memWriteN 0 s.mem.slots (slotBase st pc n + o) bs } }
  | _, _, _ => s

/-- Writes bytes into a frame's slot (R225). -/
def imgWrite (s : State) (lpn o : Nat) (bs : List Byte) : State := slotWrite s (slotOf (frameOf s lpn)) o bs

/-- A slot's image as sparse memory from address 0. -/
def slotImage (s : State) : Loc → Mem
  | .hbm st pc n =>
    let b := slotBase st pc n
    (s.mem.slots.filter fun c => decide (b ≤ c.1) && decide (c.1 < b + imageBytes)).map fun c => (c.1 - b, c.2)
  | l => lowerImage s l

/-- A frame's image as sparse memory. -/
def frameImage (s : State) (lpn : Nat) : Mem :=
  let f := frameOf s lpn
  match slotOf f with
  | .none => slotImage s f.loc
  | l => slotImage s l

/-- Fills a slot with an image; the bytes that the image does not list become zero. -/
def slotFill (s : State) (l : Loc) (img : Mem) : State :=
  match l with
  | .hbm st pc n =>
    let b := slotBase st pc n
    let m := memClear s.mem.slots b imageBytes
    { s with mem := { s.mem with slots := foldState (fun m c => memWrite 0 m (b + c.1) c.2) m img } }
  | _ => s

/-! ### Side block (R53) -/


def sTokens (s : State) (lpn : Nat) : Nat := imgLe s lpn (sideBase + 4) 2
def sP (s : State) (lpn : Nat) : Nat := imgLe s lpn (sideBase + 6) 2
def sCrc (s : State) (lpn : Nat) : Nat := imgLe s lpn (sideBase + 8) 8
def sFlags (s : State) (lpn : Nat) : Nat := imgLe s lpn (sideBase + 18) 1
def sSkimOk (s : State) (lpn : Nat) : Bool := bitOf 3 (sFlags s lpn)
def sFirstPos (s : State) (lpn : Nat) : Nat := imgLe s lpn (sideBase + 20) 4
def sSeq (s : State) (lpn : Nat) : SeqHandle := seqHandleOf (imgLe s lpn (sideBase + 24) 8)
def sLayer (s : State) (lpn : Nat) : Nat := imgLe s lpn (sideBase + 32) 2
def sKvHead (s : State) (lpn : Nat) : Nat := imgLe s lpn (sideBase + 34) 2

/-- Sets one flag bit of byte 0x012 of a frame's side block. -/
def setSideFlag (s : State) (lpn bit : Nat) (v : Bool) : State :=
  let w := sFlags s lpn
  let w' := if bitOf bit w = v then w else if v then w + 2 ^ bit else w - 2 ^ bit
  imgWrite s lpn (sideBase + 18) (le 1 w')

/-- The header of a frame's side block, written when an APPEND first writes the frame (R53). -/
def sideHeader (format headDim tokens p gen flags firstPos seq layer head : Nat) : List Byte :=
  le 1 format ++ le 1 0 ++ le 2 headDim ++ le 2 tokens ++ le 2 p ++ le 8 0 ++ le 2 gen ++ le 2 flags ++ le 4 firstPos
    ++ le 8 seq ++ le 2 layer ++ le 2 head

/-- The page CRC over the data area and SCALES of a frame (R54). -/
def pageCrc (s : State) (lpn : Nat) : Nat :=
  crcOver (imgBytes s lpn 0 16384) (imgBytes s lpn (sideBase + 0x80) 1024)

/-- Whether the stored CRC of a frame does not fit its content (R206). -/
def crcWrong (s : State) (lpn : Nat) : Bool := sCrc s lpn != pageCrc s lpn

/-- The CRC of the zero image (R54, R59). -/
def zeroCrc : Nat := 10075669632271300788

/-- Sets IN_FLUX in the table and the side block (R55, R61). The first changed word finds the stored CRC and the content: their
difference is what the incremental update of R204 keeps, since the CRC is affine in a message of fixed length. -/
def setFlux (s : State) (lpn : Nat) (v : Bool) : State :=
  setSideFlag (modFrame s lpn fun f =>
    { f with inFlux := v, crcOff := if v && !f.inFlux then sCrc s lpn ^^^ pageCrc s lpn else f.crcOff }) lpn 0 v

/-- Sets POISON in the table and, where the frame has a slot, in the side block (R61, R81). -/
def poisonFrame (s : State) (lpn : Nat) : State :=
  setSideFlag (modFrame s lpn fun f => { f with poison := true }) lpn 1 true

/-! ### Free lists (R59, R222) -/

def freeOf (s : State) (pcn : Nat) : FreeList := tabGetD s.mem.free pcn {}

def modFree (s : State) (pcn : Nat) (f : FreeList → FreeList) : State :=
  { s with mem := { s.mem with free := tabModD s.mem.free pcn {} f } }

/-- The next slot never used, skipping retired ones (`fuel` slots at most). -/
def nextVirgin (retired : List Nat) : Nat → Nat → Nat
  | 0, v => v
  | fuel + 1, v => if v ∈ retired then nextVirgin retired fuel (v + 1) else v

/-- The head of a free list: its page number, its slot, and the list without it. -/
def freePop (st pc : Nat) (l : FreeList) : Option (Nat × Nat × FreeList) :=
  if l.withheld then none
  else
    let v := nextVirgin l.retired l.retired.length l.virgin
    if v < slotsPerPc then
      some (mashIndex st pc * slotsPerPc + v, v, { l with virgin := v + 1 })
    else match l.back with
      | [] => none
      | (lpn, n) :: r => some (lpn, n, { l with back := r })

/-- Frames on a pseudo-channel's free list. -/
def freeCountPc (l : FreeList) : Nat :=
  if l.withheld then 0
  else (slotsPerPc - l.virgin) - (l.retired.filter fun n => decide (l.virgin ≤ n)).length + l.back.length

/-- The free slot count of a stack (R222). -/
def freeCount (s : State) (st : Nat) : Nat :=
  sumNat ((List.range 28).map fun i =>
    let l := freeOf s (pcNum st (4 + i))
    freeCountPc l + l.vacant.length)

/-- Every mash-capable pseudo-channel, from a preferred stack and pseudo-channel index on. -/
def fullOrder (pst ppc : Nat) : List (Nat × Nat) :=
  ((List.range 12).map fun i => (pst + i) % 12).flatMap fun st => (List.range 28).map fun j => (st, 4 + (ppc + j) % 28)

/-- The preferred place of R223 for page k of tensor t, with h taken from the sequence number. -/
def preferred (seqNum t k : Nat) : Nat × Nat :=
  let h := seqNum % 12
  ((h + t + k) % 12, (h + 5 * t + k / 12) % 28)

/-- The order of R223 for page k of tensor t; stopped stacks are left out (R553). -/
def placeOrder (s : State) (seqNum t k : Nat) : List (Nat × Nat) :=
  (fullOrder (preferred seqNum t k).1 (preferred seqNum t k).2).filter fun e => !(stackOf s e.1).stopped

/-- The order of R74, R183 and R209 beside a frame: its pseudo-channel, its stack, then other stacks. -/
def besideOrder (st pc : Nat) : List (Nat × Nat) := fullOrder st (pc - 4)

/-- The order of R223 with its inputs from a frame's side block. -/
def sideOrder (s : State) (lpn : Nat) : List (Nat × Nat) :=
  placeOrder s (sSeq s lpn).sequence (sLayer s lpn * 128 + sKvHead s lpn) (sFirstPos s lpn / max 1 (sP s lpn))

/-- The zero image with its CRC (R59). -/
def zeroImage : Mem := memWriteN 0 [] (sideBase + 8) (le 8 zeroCrc)

/-- Zero-fills a slot (R59, R210). -/
def zeroSlot (s : State) (st pc n : Nat) : State :=
  let b := slotBase st pc n
  { s with mem := { s.mem with slots := memWriteN 0 (memClear s.mem.slots b imageBytes) (b + sideBase + 8) (le 8 zeroCrc) } }

/-- Whether a slot has stood on its free list since calibration: it holds the zero image (R59, R210). -/
def slotVirgin (s : State) : Loc → Bool
  | .hbm st pc n => decide ((freeOf s (pcNum st pc)).virgin ≤ n)
  | _ => false

/-- Takes the head of the first list in `order` that has one: page number, location, next state. -/
def takeSlot (s : State) : List (Nat × Nat) → Option (Nat × Loc × State)
  | [] => none
  | (st, pc) :: rest =>
    match freePop st pc (freeOf s (pcNum st pc)) with
    | some (lpn, n, l) =>
      let s1 := if slotVirgin s (.hbm st pc n) then zeroSlot s st pc n else s
      some (lpn, .hbm st pc n, modFree s1 (pcNum st pc) fun _ => l)
    | none => takeSlot s rest

/-- The next local page number that has no slot: one freed outside HBM, else one never used (R222; log entry 12). -/
def lpnTake (s : State) : Option (Nat × State) :=
  match s.mem.lpnPool with
  | l :: r => some (l, { s with mem := { s.mem with lpnPool := r } })
  | [] =>
    if s.mem.lpnNext < 268435456 then
      some (s.mem.lpnNext, { s with mem := { s.mem with lpnNext := s.mem.lpnNext + 1 } })
    else none

/-- A slot becomes vacant (R222, R226): it counts as free until it is paired with a page number that has no slot. -/
def vacate (s : State) : Loc → State
  | .hbm st pc n => modFree s (pcNum st pc) fun l => { l with vacant := l.vacant ++ [n] }
  | _ => s

/-- A page number that was freed outside HBM waits for a vacant slot (R222). -/
def lpnGive (s : State) (lpn : Nat) : State := { s with mem := { s.mem with lpnPool := s.mem.lpnPool ++ [lpn] } }

/-- The oldest vacant slot of a channel that has no slot to zero-fill is paired with a page number (R222). -/
def pairVacant (s : State) (pcn : Nat) : State :=
  match (freeOf s pcn).toZero, (freeOf s pcn).vacant with
  | [], n :: r => match lpnTake s with
    | some (lpn, s1) => modFree s1 pcn fun l => { l with vacant := r, toZero := [(lpn, n)] }
    | none => s
  | _, _ => s

/-- Takes a bare slot for a staged copy or a moved frame (R223): the page number that its list held with it is free of its
slot (log entry 12). A vacant slot serves where no list has an entry and no page number waits to be paired with it (R222). -/
def takeBare (s : State) (order : List (Nat × Nat)) : Option (Loc × State) :=
  match takeSlot s order with
  | some (lpn, l, s1) => some (l, lpnGive s1 lpn)
  | none =>
    match order.find? fun e => s.mem.lpnPool.isEmpty && !(freeOf s (pcNum e.1 e.2)).vacant.isEmpty with
    | none => none
    | some (st, pc) =>
      match (freeOf s (pcNum st pc)).vacant with
      | [] => none
      | n :: r => some (.hbm st pc n, modFree s (pcNum st pc) fun l => { l with vacant := r })

/-- Releases a lower-tier extent (R218). -/
def freeExtent (s : State) (l : Loc) : State :=
  match l with
  | .lp _ _ _ => { s with mem := { s.mem with exts := tabDel s.mem.exts (extKey l) } }
  | .host _ _ _ => { s with mem := { s.mem with exts := tabDel s.mem.exts (extKey l) } }
  | _ => s

/-- The generation after a free (R59). -/
def nextGen (g : Nat) : Nat := if 65535 ≤ g then 1 else g + 1

/-- Drops a staging and a write-down of a frame that goes FREE: slots return unused, the lane's output is dropped (R239). -/
def dropTransfers (s : State) (lpn : Nat) : State :=
  let slots := (s.mem.stages.filter fun j => j.lpn == lpn).map fun j => j.slot
  let s1 := foldState vacate s slots
  { s1 with mem := { s1.mem with stages := s1.mem.stages.filter fun j => j.lpn != lpn,
                                 downs := s1.mem.downs.filter fun j => j.lpn != lpn,
                                 extMoves := s1.mem.extMoves.filter fun x => x != lpn,
                                 moves := s1.mem.moves.filter fun x => x != lpn } }

/-- A frame becomes FREE (R72, R80, R81, R239): its generation rises, its extent is released, its staged slot becomes
vacant, its own slot waits for its zero-fill; the HBM slot of a poisoned frame goes to the retire list. -/
def freeFrame (s : State) (lpn : Nat) : State :=
  let f := frameOf s lpn
  let s1 := dropTransfers s lpn
  let s2 := if !f.staged then s1
    else match f.poison, f.alt with
      | true, .hbm st pc n => modFree s1 (pcNum st pc) fun l => { l with retired := n :: l.retired }
      | _, l => vacate s1 l
  let s3 := freeExtent s2 f.loc
  let s4 := setFrame s3 lpn { gen := nextGen f.gen }
  match f.loc with
  | .hbm st pc n =>
    if f.poison then
      lpnGive (modFree s4 (pcNum st pc) fun l => { l with retired := n :: l.retired }) lpn
    else modFree s4 (pcNum st pc) fun l => { l with toZero := l.toZero ++ [(lpn, n)] }
  | _ => lpnGive s4 lpn

/-- A leaf entry (or gradient table entry) lets go of a frame (R72, R80). -/
def decRef (s : State) (lpn : Nat) : State :=
  let f := frameOf s lpn
  let s1 := setFrame s lpn { f with refcount := f.refcount - 1 }
  if f.refcount ≤ 1 then
    if f.pins = 0 then freeFrame s1 lpn else modFrame s1 lpn fun g => { g with refcount := 0, state := .draining }
  else s1

/-- Releases the extents that a frame's readers still kept after its home moved (R227, R239). -/
def dropOldExts (s : State) (lpn : Nat) : State :=
  let s1 := foldState (fun s e => freeExtent s e.2) s (s.mem.oldExts.filter fun e => e.1 == lpn)
  { s1 with mem := { s1.mem with oldExts := s1.mem.oldExts.filter fun e => e.1 != lpn } }

/-- Releases a frame's former extent: at once, or once its pins are gone (R227, R239). -/
def retireExtent (s : State) (lpn : Nat) (l : Loc) : State :=
  if (frameOf s lpn).pins = 0 then freeExtent s l
  else { s with mem := { s.mem with oldExts := s.mem.oldExts ++ [(lpn, l)] } }

/-- A pin is released; a DRAINING frame without pins is freed (R72). -/
def unpin (s : State) (lpn : Nat) : State :=
  let f := frameOf s lpn
  let s0 := if f.pins ≤ 1 then dropOldExts s lpn else s
  let s1 := setFrame s0 lpn { f with pins := f.pins - 1 }
  if f.pins ≤ 1 && f.state == .draining then freeFrame s1 lpn else s1

/-! ### Blocks of the plain pseudo-channels (R64) -/

/-- 2 KiB blocks of a plain pseudo-channel of 1.3125 GiB (log entry 11). -/
def plainBlocks : Nat := 688128

/-- The first block from `cur` on at which `len` blocks fit in one plain pseudo-channel. -/
def alignBlock (cur len : Nat) : Nat :=
  if cur % 1048576 + len ≤ plainBlocks then cur else 1048576 * (cur / 1048576 + 1)

/-- The lowest place of `len` contiguous free blocks, given the used ones in ascending order. -/
def fitBlock (len : Nat) : List (Nat × Nat) → Nat → Nat
  | [], cur => alignBlock cur len
  | (b, l) :: t, cur =>
    let c := alignBlock cur len
    if c + len ≤ b then c else fitBlock len t (max c (b + l))

/-- Inserts an interval into the ascending list of used ones. -/
def insertBlock (b l : Nat) : List (Nat × Nat) → List (Nat × Nat)
  | [] => [(b, l)]
  | (c, m) :: t => if b < c then (b, l) :: (c, m) :: t else (c, m) :: insertBlock b l t

/-- The 2 KiB blocks in use. -/
def blocksUsed (s : State) : Nat := sumNat (s.mem.blocks.map Prod.snd)

/-- Whether `n` single blocks are free (R64): block 0 of plain pseudo-channel 0 never is. -/
def blocksFree (s : State) (n : Nat) : Bool := decide (blocksUsed s + 1 + n ≤ 48 * plainBlocks)

/-- Allocates `len` contiguous blocks; block 0 is never allocated (R64). -/
def allocBlocks (s : State) (len : Nat) : Option (Nat × State) :=
  let b := fitBlock len s.mem.blocks 1
  if 48 * 1048576 ≤ b || plainBlocks < len then none
  else some (b, { s with mem := { s.mem with blocks := insertBlock b len s.mem.blocks } })

/-- Releases the blocks that start at `b`. -/
def freeBlocks (s : State) (b : Nat) : State :=
  { s with mem := { s.mem with blocks := s.mem.blocks.filter fun e => e.1 != b } }

/-! ### Sequences and the page map (R62 to R67) -/

def seqOf (s : State) (q : SeqId) : Option Seq := assoc s.mem.seqs q

def setSeq (s : State) (q : SeqId) (x : Seq) : State :=
  { s with mem := { s.mem with seqs := assocSet s.mem.seqs q x } }

def modSeq (s : State) (q : SeqId) (f : Seq → Seq) : State :=
  match seqOf s q with
  | none => s
  | some x => setSeq s q (f x)

/-- The rank of a KV head among the local heads (R62). -/
def headRank (x : Seq) (head : Nat) : Option Nat := x.localHeads.findIdx? (· == head)

/-- The tensor index of (layer, KV head) (R62). -/
def tensorIdx (x : Seq) (layer head : Nat) : Option Nat :=
  (headRank x head).map fun r => layer * x.localHeads.length + r

/-- The number of local tensors. -/
def tensorCount (x : Seq) : Nat := x.layers * x.localHeads.length

def tensorOf (x : Seq) (t : Nat) : Tensor := tabGetD x.tensors t { endPos := x.tokenBase }

def setTensor (x : Seq) (t : Nat) (v : Tensor) : Seq := { x with tensors := tabSet x.tensors t v }

/-- The page handle of page k of tensor t, where its leaf lists one (R65). -/
def pageGet (s : State) (x : Seq) (t k : Nat) : Option PageHandle :=
  match tabGet x.leafPtr (t * x.leaves + k / 256) with
  | none => none
  | some b => if b = 0 then none else tabGet (tabGetD s.mem.leafs b []) (k % 256)

/-- Drops the lines of both dies' translation caches that hold an entry about to be rewritten (R67). -/
def xlatDrop (s : State) (q : SeqId) (t k : Nat) : State :=
  { s with mem := { s.mem with xlat := s.mem.xlat.filter fun l => !(l.seq == q && l.tensor == t && l.line == k / 8) } }

/-- Writes a leaf entry of a sequence, allocating the leaf block where there is none (R65, R67). DESIGN CHOICE (log entry 90):
where no leaf block is free the entry is not written; the callers answer NOPAGE for it. -/
def pageSet (s : State) (q : SeqId) (t k : Nat) (h : PageHandle) : State :=
  match seqOf s q with
  | none => s
  | some x =>
    let i := t * x.leaves + k / 256
    let s0 := xlatDrop s q t k
    match tabGet x.leafPtr i with
    | some b => { s0 with mem := { s0.mem with leafs := tabModD s0.mem.leafs b [] fun e => tabSet e (k % 256) h } }
    | none =>
      match allocBlocks s0 1 with
      | none => s0
      | some (b, s1) =>
        let s2 := setSeq s1 q { x with leafPtr := tabSet x.leafPtr i b }
        { s2 with mem := { s2.mem with leafs := tabSet s2.mem.leafs b [(k % 256, h)] } }

/-- Writes a leaf entry; none where no leaf block is free for it (R65; log entry 90). -/
def pageName (s : State) (q : SeqId) (t k : Nat) (h : PageHandle) : Option State :=
  let s1 := pageSet s q t k h
  if ((seqOf s1 q).bind fun x => pageGet s1 x t k).isSome then some s1 else none

/-- Takes a leaf entry out; the position then has no content (R66, R67). -/
def pageDel (s : State) (q : SeqId) (t k : Nat) : State :=
  match seqOf s q with
  | none => s
  | some x =>
    match tabGet x.leafPtr (t * x.leaves + k / 256) with
    | none => s
    | some b =>
      let s1 := xlatDrop s q t k
      { s1 with mem := { s1.mem with leafs := tabModD s1.mem.leafs b [] fun e => tabDel e (k % 256) } }

/-- Every listed page of a tensor: page index and handle. -/
def pagesOf (s : State) (x : Seq) (t : Nat) : List (Nat × PageHandle) :=
  (List.range x.leaves).flatMap fun i =>
    match tabGet x.leafPtr (t * x.leaves + i) with
    | none => []
    | some b => (tabGetD s.mem.leafs b []).map fun e => (i * 256 + e.1, e.2)

/-- Every listed page of a sequence: tensor, page index and handle. -/
def allPages (s : State) (x : Seq) : List (Nat × Nat × PageHandle) :=
  (List.range (tensorCount x)).flatMap fun t => (pagesOf s x t).map fun e => (t, e.1, e.2)

/-- The walker's outcomes (R66). A hit carries the page index, the token slot and the handle. -/
inductive Walk where
  | notLocal
  | noContent
  | hit (page slot : Nat) (handle : PageHandle)
  deriving DecidableEq, Repr

/-- Resolves (layer, KV head, position) of a sequence (R66). -/
def walk (s : State) (x : Seq) (layer head pos : Nat) : Walk :=
  match tensorIdx x layer head with
  | none => .notLocal
  | some t =>
    if pos < x.tokenBase || x.tokenLimit ≤ pos then .notLocal
    else if (tensorOf x t).endPos ≤ pos then .noContent
    else
      let loc := pos - x.tokenBase
      match pageGet s x t (loc / x.p) with
      | none => .noContent
      | some h => .hit (loc / x.p) (loc % x.p) h

/-- The walk of a die enters the line it read in that die's translation cache of 65,536 lines, oldest out (R66, R67). -/
def xlatTouch (s : State) (die : Nat) (q : SeqId) (t k : Nat) : State :=
  let l : XlatLine := ⟨die, q, t, k / 8⟩
  let rest := s.mem.xlat.filter fun m => m ≠ l
  let mine := (rest.filter fun m => m.die == die).take 65535
  let other := rest.filter fun m => m.die != die
  { s with mem := { s.mem with xlat := l :: (mine ++ other) } }

/-- This node's id in the installed map (R321); 0 before the first map. -/
def nodeId (s : State) : Nat := match s.comp.map with
  | none => 0
  | some m => m.node

/-- The installed epoch; 0 before the first map. -/
def epochOf (s : State) : Nat := match s.comp.map with
  | none => 0
  | some m => m.epoch

/-- The leaf entries that name a frame follow its tier, and their lines leave the translation caches (R67). -/
def retierLeaves (s : State) (lpn : Nat) : State :=
  foldState (fun s e => foldState (fun s p =>
      if p.2.2.lpn = lpn then pageSet s e.1 p.1 p.2.1 { p.2.2 with tier := (frameOf s lpn).tier } else s)
    s (allPages s e.2)) s s.mem.seqs

/-- The handle of a frame as the node issues it now (R56, R58). -/
def handleOf (s : State) (lpn : Nat) : PageHandle :=
  let f := frameOf s lpn
  { node := nodeId s, lpn := lpn, gen := f.gen, tier := f.tier }

/-- Releases a growth reserve (R80). -/
def dropReserve (s : State) (q : SeqId) (t : Nat) : State :=
  match seqOf s q with
  | none => s
  | some x =>
    match (tensorOf x t).reserve with
    | none => s
    | some h => freeFrame (setSeq s q (setTensor x t { tensorOf x t with reserve := none, want := false })) h.lpn

/-- Removes every page, reserve, gradient frame, leaf block and the directory of a sequence (R72, R80, R85, R185). -/
def releaseContent (s : State) (q : SeqId) : State :=
  match seqOf s q with
  | none => s
  | some x =>
    let s1 := foldState (fun s e => decRef s e.2.2.lpn) s (allPages s x)
    let s2 := foldState (fun s t => dropReserve s q t) s1 (List.range (tensorCount x))
    let gf := (s2.mem.grads.filter fun g => g.seq == q).flatMap fun g => g.frames
    let s3 := foldState freeBlocks (foldState decRef s2 gf) x.gradBlock.toList
    let s4 := foldState (fun s e => freeBlocks { s with mem := { s.mem with leafs := tabDel s.mem.leafs e.2 } } e.2)
      s3 x.leafPtr
    let s5 := freeBlocks s4 x.dirBlock
    let s6 := { s5 with mem := { s5.mem with grads := s5.mem.grads.filter (fun g => g.seq != q),
                                             refills := s5.mem.refills.filter (fun r => r.1 != q),
                                             xlat := s5.mem.xlat.filter (fun l => l.seq != q) } }
    modSeq s6 q fun y => { y with tensors := y.tensors.map (fun e => (e.1, { e.2 with reserve := none, want := false })),
                                  leafPtr := [], gradSum := [], gradBlock := none, hints := [], tight := false, dirBlock := 0,
                                  dirBlocks := 0 }

/-- Removes a sequence wholly. -/
def removeSeq (s : State) (q : SeqId) : State :=
  let s1 := releaseContent s q
  { s1 with mem := { s1.mem with seqs := assocDel s1.mem.seqs q } }

/-- The blocks of a directory (R63): the tensor table padded to 2 KiB, then the leaf pointers. -/
def directoryBlocks (tensors leaves : Nat) : Nat := ceilDiv (16 * tensors) 2048 + ceilDiv (4 * tensors * leaves) 2048

/-- Checks a handle (R60): NOT_OWNER for another node, STALE_GEN for a frame that is not there. -/
def checkHandle (s : State) (h : PageHandle) : Status :=
  let f := frameOf s h.lpn
  if h.node ≠ nodeId s then .notOwner
  else if f.state = .free ∨ f.state = .reserve ∨ f.state = .draining ∨ f.gen ≠ h.gen then .staleGen
  else .ok

/-- Asks for a reserve refill (R74, R75). -/
def wantRefill (s : State) (q : SeqId) (t : Nat) : State :=
  let s1 := modSeq s q fun x => setTensor x t { tensorOf x t with want := true }
  { s1 with mem := { s1.mem with refills := s1.mem.refills ++ [(q, t)] } }

end Sys2Proof.Machine
end

