-- ==== Sys2Proof/Machine/Mapping.lean ====
section
/-!
DEFINITION. Machine/Mapping.lean: what the installed map says: placement (R322, R323), roles and owners (R324, R331), the
chain of a cell (R322, R334), routes (R288, R321) and the global tree (R343); and reading a map's bytes (R316 to R321).
-/

namespace Sys2Proof.Machine

/-- The layout number of a sequence (R322). -/
def layoutNo (m : FMap) (q : SeqId) : Nat :=
  match assoc m.overrides q.num with
  | some l => l
  | none => m.slots.getD ((crc32c (le 8 (1048576 * q.num))).toNat % m.slots.length) 0

def layoutOf (m : FMap) (q : SeqId) : Layout := m.layouts.getD (layoutNo m q) {}

/-- The nodes that a cell names in chain order, NODE0 first, up to REPL (R322). -/
def chainOf (c : Cell) (repl : Nat) : List Nat :=
  ([c.node0] ++ (if 2 ≤ repl then [c.node1] else []) ++ (if 3 ≤ repl then [c.node2] else [])).filterMap id

/-- Whether a cell names a node in any role (R323). -/
def cellNames (c : Cell) (n : Nat) : Bool :=
  c.node0 == some n || c.node1 == some n || c.node2 == some n || c.join == some n

/-- The number of the cell of (head group, column) (R319). -/
def cellNo (l : Layout) (g r : Nat) : Nat := g * l.t + r

def cellAt (l : Layout) (i : Nat) : Cell := l.cells.getD i {}

/-- The head group of a KV head (R322). -/
def headGroup (l : Layout) (h : Nat) : Nat := h / l.hg % l.g

/-- The column of a position (R322). -/
def column (l : Layout) (pos : Nat) : Nat := min (pos / l.rangeTokens) (l.t - 1)

/-- The column in which a layout names a node; a node stands in one column of a layout (R325). -/
def columnOf (l : Layout) (n : Nat) : Option Nat :=
  ((List.range l.cells.length).find? fun i => cellNames (cellAt l i) n).map fun i => i % l.t

/-- A node's assigned heads for a sequence of `kvHeads` heads (R323). LOCAL_HEADS has bits for 128 heads (R48). -/
def assignedHeads (l : Layout) (n kvHeads : Nat) : List Nat :=
  match columnOf l n with
  | none => []
  | some r => (List.range (min kvHeads 128)).filter fun h => cellNames (cellAt l (cellNo l (headGroup l h) r)) n

/-- A node's local range for a sequence (R322): base and limit. -/
def localRange (l : Layout) (n maxTokens : Nat) : Option (Nat × Nat) :=
  (columnOf l n).map fun r =>
    (r * l.rangeTokens, if r = l.t - 1 then maxTokens else min ((r + 1) * l.rangeTokens) maxTokens)

/-- The role of this node for a command (R324). -/
inductive Role where
  | owner
  | replica (owner : Nat)
  | notOwner (owner : Nat)
  deriving DecidableEq, Repr

/-- Whether a cell names a node as NODE1 or NODE2 (R324): REPL has no part in the role, since the node ignores the flags of a
handle that it receives (R48). -/
def cellReplica (c : Cell) (n : Nat) : Bool := c.node1 == some n || c.node2 == some n

/-- The role in one cell. -/
def roleIn (c : Cell) (n : Nat) : Role :=
  let o := c.node0.getD 0
  if c.node0 = some n then .owner
  else if cellReplica c n then .replica o
  else .notOwner o

/-- The role for a command that names heads and starts at a position (R324): the cell of (HEAD_FIRST, `pos`), as R322 takes
it; every named head must lie in one cell. DEDUCED (log entry 33): R324 names the head only. -/
def roleHeads (m : FMap) (q : SeqId) (headFirst headCount pos : Nat) : Role :=
  let l := layoutOf m q
  let r := column l pos
  let g := headGroup l headFirst
  let c := cellAt l (cellNo l g r)
  if ((List.range headCount).all fun i => headGroup l (headFirst + i) == g) then roleIn c m.node
  else .notOwner (c.node0.getD 0)

/-- The role for a command that names no KV head (R324). -/
def roleWhole (m : FMap) (q : SeqId) : Role :=
  let l := layoutOf m q
  let mine := (List.range l.cells.length).filter fun i => cellNames (cellAt l i) m.node
  if mine.any fun i => (cellAt l i).node0 == some m.node then .owner
  else match mine with
    | [] => .notOwner ((cellAt l 0).node0.getD 0)
    | i :: _ =>
      if mine.any fun j => cellReplica (cellAt l j) m.node then .replica ((cellAt l i).node0.getD 0)
      else .notOwner ((cellAt l i).node0.getD 0)

/-- The owner of the cell of (head, position) (R121, R322). -/
def ownerAt (m : FMap) (q : SeqId) (head pos : Nat) : Nat :=
  let l := layoutOf m q
  ((cellAt l (cellNo l (headGroup l head) (column l pos))).node0).getD 0

/-- The node after `n` in a chain. -/
def nextIn : List Nat → Nat → Option Nat
  | a :: b :: t, n => if a = n then some b else nextIn (b :: t) n
  | _, _ => none

/-- The successors of this node for a command of a sequence, with their cells (R334): in every cell of its column in which
the command reached it (as NODE0 from a source, or from the predecessor `from`), each successor once. -/
def successors (m : FMap) (q : SeqId) (repl : Nat) (from_ : Option Nat) : List (Nat × Nat) :=
  let l := layoutOf m q
  let cells := (List.range l.cells.length).filter fun i =>
    let ch := chainOf (cellAt l i) repl
    match from_ with
    | none => (cellAt l i).node0 == some m.node
    | some p => nextIn ch p == some m.node
  let pairs := cells.filterMap fun i => (nextIn (chainOf (cellAt l i) repl) m.node).map fun n => (n, i)
  pairs.foldl (fun acc e => if acc.any (fun x => x.1 == e.1) then acc else acc ++ [e]) []

/-- Whether the map places `from_` directly before this node in a cell of the sequence (R336). -/
def precedes (m : FMap) (q : SeqId) (repl from_ : Nat) : Bool :=
  let l := layoutOf m q
  (List.range l.cells.length).any fun i =>
    let c := cellAt l i
    nextIn (chainOf c repl) from_ == some m.node || (c.join == some m.node && c.joinFrom == some from_)

def nodeEntry (m : FMap) (n : Nat) : Option EpEntry := m.nodes.find? fun e => e.id == n
def adapterEntry (m : FMap) (n : Nat) : Option EpEntry := m.adapters.find? fun e => e.id == n

def entryOf (m : FMap) : Endpoint → Option EpEntry
  | .node n => nodeEntry m n
  | .adapter n => adapterEntry m n

/-- The composer adapters of a map (R318). -/
def composers (m : FMap) : List Endpoint :=
  (m.adapters.filter fun e => e.composer).map fun e => .adapter e.id

/-- Whether an endpoint is a composer adapter of the installed map; before the first map any adapter may send one (R330). -/
def isComposer (s : State) (e : Endpoint) : Bool :=
  match s.comp.map, e with
  | none, .adapter _ => true
  | some m, e => (composers m).contains e
  | none, .node _ => false

/-- The route set of a peer (R288, R321). -/
def routesOf (m : FMap) (e : Endpoint) : List Route :=
  let i := match e with
    | .node n => m.nodes.findIdx? fun x => x.id == n
    | .adapter n => (m.adapters.findIdx? fun x => x.id == n).map fun k => k + m.nodes.length
  match i with
  | none => []
  | some k => m.routes.getD (m.routeIdx.getD k 0) []

/-- The home die of an association (R294): the die of the first entry of the peer's route set. -/
def homeDie (s : State) (e : Endpoint) : Nat :=
  match s.comp.map with
  | none => 0
  | some m => match routesOf m e with
    | [] => 0
    | r :: _ => r.port / 6

/-- The ACTIVE nodes in ascending id order: the global tree's indices (R343). -/
def treeNodes (m : FMap) : List Nat := (m.nodes.filter fun e => e.state == 1).map fun e => e.id

/-- This node's parent in the tree; none at index 0 or outside the tree. -/
def treeParent (m : FMap) : Option Nat :=
  let t := treeNodes m
  match t.findIdx? (· == m.node) with
  | none => none
  | some 0 => none
  | some i => t[(i - 1) / 16]?

/-- This node's children in the tree. -/
def treeChildren (m : FMap) : List Nat :=
  let t := treeNodes m
  match t.findIdx? (· == m.node) with
  | none => []
  | some i => (List.range 16).filterMap fun k => t[16 * i + 1 + k]?

/-! ### Reading a map (R316 to R321) -/

def parseEntry (bs : List Byte) : EpEntry :=
  let w := fieldLe bs 0 2
  { id := bitsOf 13 0 w, state := bitsOf 15 14 w, partner := bitsOf 11 0 (fieldLe bs 2 2), incarnation := fieldLe bs 4 4,
    addr := fieldBe bs 8 16, pfx := fieldLe bs 24 1, v1 := bitOf 0 (fieldLe bs 25 1), composer := bitOf 1 (fieldLe bs 25 1) }

def parseNodeField (bs : List Byte) (i : Nat) : Option Nat :=
  let w := fieldLe bs i 2
  if bitOf 15 w then some (bitsOf 11 0 w) else none

def parseCell (bs : List Byte) : Cell :=
  { node0 := parseNodeField bs 0, node1 := parseNodeField bs 2, node2 := parseNodeField bs 4, join := parseNodeField bs 6,
    joinFrom := parseNodeField bs 8 }

/-- Reads `n` layouts; answers the rest of the bytes. -/
def parseLayouts : Nat → List Byte → List Layout × List Byte
  | 0, bs => ([], bs)
  | n + 1, bs =>
    let g := fieldLe bs 0 1
    let t := fieldLe bs 2 1
    let cells := (List.range (g * t)).map fun i => parseCell (slice bs (16 + 16 * i) 16)
    let l : Layout := { g := g, hg := fieldLe bs 1 1, t := t, rangeTokens := fieldLe bs 4 4, cells := cells }
    let (ls, rest) := parseLayouts n (bs.drop (16 + 16 * (g * t)))
    (l :: ls, rest)

/-- Reads a route set (R321): its PRESENT entries in order, and none where the first is not PRESENT, which R325 refuses. -/
def parseRoutes (bs : List Byte) : List Route :=
  let present := fun (i : Nat) => bitOf 6 (fieldLe bs (8 * i) 8)
  if !present 0 then []
  else ((List.range 12).filter present).map fun i =>
    let w := fieldLe bs (8 * i) 8
    { port := bitsOf 3 0 w, sub := bitsOf 5 4 w, mac := bitsOf 63 16 w }

def pad8 (n : Nat) : Nat := ceilDiv n 8 * 8

/-- Reads a map. The lengths must agree and DIGEST must be right; what R325 asks of the content is checked apart. -/
def parseMap (bs : List Byte) : Option FMap :=
  let commonLen := fieldLe bs 0x20 4
  let localLen := fieldLe bs 0x24 4
  let nN := fieldLe bs 0x10 2
  let nA := fieldLe bs 0x12 2
  let nL := fieldLe bs 0x14 2
  let nS := fieldLe bs 0x18 4
  let nO := fieldLe bs 0x1C 4
  if fieldLe bs 0 4 ≠ 0x4E4D4150 ∨ fieldLe bs 4 2 ≠ 1 ∨ bs.length ≠ commonLen + localLen ∨ 16777216 < commonLen
      ∨ 2097152 < localLen ∨ commonLen < 0x60 ∨ localLen < 16 ∨ slice bs 0x40 32 ≠ shake256 (bs.drop 0x60) 32 then none
  else
    let t0 := (bs.take commonLen).drop 0x60
    let nodes := (List.range nN).map fun i => parseEntry (slice t0 (32 * i) 32)
    let adapters := (List.range nA).map fun i => parseEntry (slice t0 (32 * (nN + i)) 32)
    let (layouts, t1) := parseLayouts nL (t0.drop (32 * (nN + nA)))
    let slots := (List.range nS).map fun i => bitsOf 11 0 (fieldLe t1 (2 * i) 2)
    let t2 := t1.drop (2 * nS)
    let overrides := (List.range nO).map fun i =>
      let w := fieldLe t2 (8 * i) 8
      (bitsOf 43 0 w, bitsOf 55 44 w)
    let lp := bs.drop commonLen
    let nR := fieldLe lp 2 2
    let nW := fieldLe lp 4 1
    let routes := (List.range nR).map fun i => parseRoutes (slice lp (16 + 128 * i) 128)
    let idxAt := 16 + 128 * nR
    let watchAt := idxAt + pad8 (nN + nA)
    let used := 0x60 + 32 * (nN + nA) + sumNat (layouts.map fun l => 16 + 16 * (l.g * l.t)) + 2 * nS + 8 * nO
    if commonLen ≠ pad8 used ∨ localLen ≠ watchAt + pad8 (2 * nW) then none
    else some
      { epoch := fieldLe bs 8 4, prev := fieldLe bs 12 4, nodes := nodes, adapters := adapters, layouts := layouts,
        slots := slots, overrides := overrides, digest := slice bs 0x40 32, node := bitsOf 11 0 (fieldLe lp 0 2),
        routes := routes, routeIdx := (List.range (nN + nA)).map (fun i => fieldLe lp (idxAt + i) 1),
        watch := (List.range nW).map fun i => bitsOf 11 0 (fieldLe lp (watchAt + 2 * i) 2) }

/-- Whether a list of numbers rises strictly. -/
def rising : List Nat → Bool
  | [] => true
  | [_] => true
  | a :: b :: t => decide (a < b) && rising (b :: t)

def cellMembers (c : Cell) : List Nat := [c.node0, c.node1, c.node2, c.join].filterMap id

/-- No value stands twice in a list. -/
def distinct : List Nat → Bool
  | [] => true
  | a :: t => !t.contains a && distinct t

def isPow2 (n : Nat) : Bool := n != 0 && 2 ^ n.log2 == n

/-- The first row of R325 that a map breaks, numbered from 1; 0 when none. `installed` is the installed epoch, and
`portOff p` says whether a port is OFF. The check on PREV_EPOCH is left out before the first map (R330). -/
def mapCheck (m : FMap) (installed : Option Nat) (thisNode : Option Nat) (portOff : Nat → Bool) : Nat :=
  let shape :=
    decide (1 ≤ m.epoch) && decide (1 ≤ m.nodes.length) && decide (m.nodes.length ≤ 4096)
    && decide (m.adapters.length ≤ 16384) && decide (1 ≤ m.layouts.length) && decide (m.layouts.length ≤ 4096)
    && isPow2 m.slots.length && decide (m.slots.length ≤ 1048576) && decide (m.overrides.length ≤ 65536)
    && (m.layouts.all fun l => decide (1 ≤ l.g) && decide (l.g ≤ 128) && decide (1 ≤ l.hg) && decide (l.hg ≤ 128)
        && decide (1 ≤ l.t) && decide (l.t ≤ 255) && decide (l.g * l.t ≤ 1024)
        && l.rangeTokens % 65536 == 0 && decide (65536 ≤ l.rangeTokens) && decide (l.rangeTokens ≤ 16777216))
    && (m.slots.all fun x => decide (x < m.layouts.length)) && (m.overrides.all fun x => decide (x.2 < m.layouts.length))
    && rising (m.nodes.map fun e => e.id) && rising (m.adapters.map fun e => e.id) && rising (m.overrides.map Prod.fst)
    && ((m.nodes ++ m.adapters).all fun e => (e.state == 1 || e.state == 2) && decide (64 ≤ e.pfx) && decide (e.pfx ≤ 128))
    && (m.nodes.all fun e => decide (e.id < 4096))
    && decide (1 ≤ m.routes.length) && decide (m.routes.length ≤ 256) && decide (m.watch.length ≤ 64)
    && (m.routeIdx.all fun i => decide (i < m.routes.length))
  let active := treeNodes m
  if !shape then 1
  else if (match installed with
      | none => false
      | some e => decide (m.epoch ≤ e) || decide (m.epoch ≤ m.prev)) then 2
  else if (match thisNode with
      | none => false
      | some n => m.node != n) then 3
  else if !(m.layouts.all fun l => l.cells.all fun c =>
      c.node0.isSome && (cellMembers c).all active.contains && distinct (cellMembers c)
      && c.join.isSome == c.joinFrom.isSome && (match c.joinFrom with
        | none => true
        | some n => active.contains n)) then 4
  else if !(m.layouts.all fun l => (List.range l.cells.length).all fun i =>
      (cellMembers (cellAt l i)).all fun n => columnOf l n == some (i % l.t)) then 5
  else if !(m.nodes.all fun e => e.state != 1 || (e.partner != e.id && active.contains e.partner)) then 6
  else if !((m.watch.all fun n => (m.nodes.map fun e => e.id).contains n)
      && m.routes.all fun rs => match rs with
        | [] => false
        | r :: _ => decide (r.port < 12) && !portOff r.port) then 7
  else 0

end Sys2Proof.Machine
end

