-- ==== Sys2Proof/WellFormed.lean ====
section
/-!
DEFINITION. WellFormed.lean: which operand values the descriptor fields of the spec can carry (`fits`: the field widths of
R48, R56, R88 and the opcode tables) and which of them R90 accepts (`accepted`: the ranges that the command's own table
gives).
-/

namespace Sys2Proof

/-- An endpoint id within R278. -/
def Endpoint.fits : Endpoint → Bool
  | .node i => decide (i < 4096)
  | .adapter i => decide (i < 16384)

/-- A sequence handle within R48. -/
def SeqHandle.fits (h : SeqHandle) : Bool :=
  decide (h.tenant < 4096) && decide (h.sequence < 4294967296) && decide (h.repl < 4) && decide (h.cls < 8)

/-- A page handle within R56. -/
def PageHandle.fits (h : PageHandle) : Bool :=
  decide (h.node < 4096) && decide (h.lpn < 268435456) && decide (h.gen < 65536) && decide (h.tier < 8)

def TensorBlock.fits (t : TensorBlock) : Bool :=
  decide (t.layerFirst < 256) && decide (t.layerLast < 256) && decide (t.headFirst < 256) && decide (t.headCount < 256)

def w16 (n : Nat) : Bool := decide (n < 65536)
def w32 (n : Nat) : Bool := decide (n < 4294967296)
def w64 (n : Nat) : Bool := decide (n < 18446744073709551616)

def AttnDesc.fits (a : AttnDesc) : Bool :=
  decide (a.bias < 4) && decide (a.layer < 256) && decide (a.headFirst < 256) && decide (a.headCount < 256)
  && decide (a.group < 256) && w16 a.qtok && decide (a.qfmt < 256) && w32 a.qPos && w32 a.kvStart && w32 a.kvEnd
  && decide (a.window < 16777216) && decide (a.skim < 256) && w16 a.sinks && w16 a.softcap && w16 a.scale
  && decide (a.mergeNode < 4096) && w32 a.tag

def MergeDesc.fits (m : MergeDesc) : Bool :=
  decide (m.layer < 256) && decide (m.headFirst < 256) && decide (m.headCount < 256) && decide (m.group < 256)
  && w16 m.qtok && decide (m.maxInputs < 256) && w32 m.timeout && w32 m.kvStart && w32 m.kvEnd && w16 m.headDim
  && decide (m.mergeNode < 4096) && w32 m.tag

/-- The widths of a command's own fields. -/
def Body.fits : Body → Bool
  | .append tb _ ntok format pos => tb.fits && w16 ntok && decide (format < 256) && w32 pos
  | .fork parent pos => parent.fits && w32 pos
  | .trim tb start limit => tb.fits && w32 start && w32 limit
  | .park => true
  | .wake => true
  | .evict => true
  | .hint tb kind start limit => tb.fits && decide (kind < 256) && w32 start && w32 limit
  | .attnFwd a => a.fits
  | .attnBwd a dofmt step => a.fits && decide (dofmt < 256) && w16 step && a.mergeNode == 0
  | .gradDrain _ _ layer hf hc step ks ke =>
    decide (layer < 256) && decide (hf < 256) && decide (hc < 256) && w16 step && w32 ks && w32 ke
  | .merge m => m.fits
  | .skimRefresh tb start limit => tb.fits && w32 start && w32 limit
  | .prefixSearch _ _ count maskChain maskScope cseq => w16 count && w64 maskChain && decide (maskScope < 1048576) && w16 cseq
  | .prefixInsert count => w16 count
  | .prefixDelete _ count => w16 count
  | .frameRead h offset length deadline => h.fits && w16 offset && w16 length && w32 deadline
  | .frameWrite layer head h offset length pos =>
    decide (layer < 256) && decide (head < 256) && h.fits && w16 offset && w16 length && w32 pos
  | .guestPut _ _ offset objLen => w64 offset && w64 objLen
  | .guestGet offset length => w64 offset && w32 length
  | .guestRelease => true
  | .qwait q count timeout => decide (q < 1024) && w64 count && w32 timeout
  | .ledgerRead grant region count line => decide (grant < 4) && w16 region && w16 count && w32 line
  | .ledgerWrite keep region count line => decide (keep < 4) && w16 region && w16 count && w32 line
  | .ledgerRelease region count line => w16 region && w16 count && w32 line
  | .ledgerPublish region expect => w16 region && w64 expect
  | .ledgerRecall region line _ version => w16 region && w32 line && w64 version
  | .reserved => true

/-- The opcode of a body (R89, R306, R378, R409); 0 for a reserved opcode. -/
def Body.opcode : Body → Nat
  | .append _ _ _ _ _ => 0x01 | .fork _ _ => 0x02 | .trim _ _ _ => 0x03 | .park => 0x04 | .wake => 0x05
  | .evict => 0x06 | .hint _ _ _ _ => 0x07 | .attnFwd _ => 0x10 | .attnBwd _ _ _ => 0x11
  | .gradDrain _ _ _ _ _ _ _ _ => 0x12 | .merge _ => 0x13 | .skimRefresh _ _ _ => 0x14
  | .prefixSearch _ _ _ _ _ _ => 0x20 | .prefixInsert _ => 0x21 | .prefixDelete _ _ => 0x22
  | .frameRead _ _ _ _ => 0x30 | .frameWrite _ _ _ _ _ _ => 0x31 | .guestPut _ _ _ _ => 0x32 | .guestGet _ _ => 0x33
  | .guestRelease => 0x34 | .qwait _ _ _ => 0x35 | .ledgerRead _ _ _ _ => 0x40 | .ledgerWrite _ _ _ _ => 0x41
  | .ledgerRelease _ _ _ => 0x42 | .ledgerPublish _ _ => 0x43 | .ledgerRecall _ _ _ _ => 0x44 | .reserved => 0

/-- The CFLAGS bits of the opcodes they do not apply to are reserved (R88, R90). -/
def Desc.cflagsFit (d : Desc) : Bool :=
  (!d.allowPartial || d.opcode == 0x10 || d.opcode == 0x11 || d.opcode == 0x13) && (!d.replicaOk || d.opcode == 0x10)

/-- The widths of the common header (R88), and the opcode that goes with the body. -/
def Desc.fits (d : Desc) : Bool :=
  d.opcode == d.body.opcode && d.opcode != 0 && d.formed && !d.v1 && d.cflagsFit && w32 d.epoch
  && decide (d.reqId < 281474976710656) && decide (d.queue < 1024) && d.seq.fits && d.seqZero == (d.seq == {})
  && w32 d.payloadLen && d.body.fits

/-- Zero, or a positive finite BF16 value (R94). DESIGN CHOICE (log entry 102): negative zero, 0x8000, is not taken as zero. -/
def bf16Param (x : Nat) : Bool := x == 0 || (decide (0 < x) && decide (x < 0x7F80))

/-- A query format that R91 names. -/
def queryFormat (f : Nat) : Bool := f == 0x30 || f == 0x31 || f == 0x01 || f == 0x02

def TensorBlock.accepted (t : TensorBlock) : Bool :=
  decide (t.layerFirst ≤ t.layerLast) && decide (1 ≤ t.headCount) && decide (t.headCount ≤ 128)

/-- The ranges of R93 and R94 that need no sequence. -/
def AttnDesc.accepted (a : AttnDesc) : Bool :=
  decide (a.bias < 3) && decide (a.headFirst < 128) && decide (1 ≤ a.headCount) && decide (a.headCount ≤ 128)
  && decide (1 ≤ a.group) && decide (a.group ≤ 128) && decide (1 ≤ a.qtok)
  && decide (a.qtok * a.group * a.headCount ≤ 65536) && queryFormat a.qfmt && decide (a.kvStart < a.kvEnd)
  && decide (a.skim ≤ 30) && bf16Param a.softcap && bf16Param a.scale

def headDims : List Nat := [64, 96, 128, 192, 256]

/-- R111. -/
def MergeDesc.accepted (m : MergeDesc) : Bool :=
  decide (1 ≤ m.headCount) && decide (m.headFirst + m.headCount ≤ 128) && decide (1 ≤ m.group) && decide (m.group ≤ 128)
  && decide (1 ≤ m.qtok) && decide (m.qtok * m.group * m.headCount ≤ 65536) && decide (m.kvStart < m.kvEnd)
  && headDims.contains m.headDim && decide (1 ≤ m.maxInputs) && decide (m.maxInputs ≤ 64) && decide (1 ≤ m.timeout)

/-- The ranges of a command's own fields (R90) that need no sequence. DESIGN CHOICE (log entry 102): GRAD_DRAIN takes an empty
range and refuses one whose KV_END lies below its KV_START. -/
def Body.accepted : Body → Bool
  | .append tb _ ntok _ _ => tb.accepted && decide (1 ≤ ntok) && decide (ntok ≤ 8192)
  | .fork _ _ => true
  | .trim tb _ _ => tb.accepted
  | .park => true
  | .wake => true
  | .evict => true
  | .hint tb _ _ _ => tb.accepted
  | .attnFwd a => a.accepted
  | .attnBwd a dofmt _ =>
    a.accepted && (dofmt == 0x30 || dofmt == 0x31) && (a.qfmt == 0x30 || a.qfmt == 0x31) && a.skim == 0 && !a.viaMerge
    && !a.outBf16
  | .gradDrain _ _ _ _ hc _ ks ke => decide (1 ≤ hc) && decide (hc ≤ 128) && decide (ks ≤ ke)
  | .merge m => m.accepted
  | .skimRefresh tb _ _ => tb.accepted
  | .prefixSearch _ cascade count _ _ cseq => decide (1 ≤ count) && decide (count ≤ 256) && (cascade || cseq == 0)
  | .prefixInsert count => decide (1 ≤ count) && decide (count ≤ 256)
  | .prefixDelete bySeq count => if bySeq then count == 0 else decide (1 ≤ count) && decide (count ≤ 256)
  | .frameRead _ offset length _ =>
    offset % 32 == 0 && length % 32 == 0 && decide (32 ≤ length) && decide (offset + length ≤ 18432)
  | .frameWrite _ _ _ offset length _ =>
    offset % 32 == 0 && length % 32 == 0 && decide (32 ≤ length) && decide (offset + length ≤ 18432)
  | .guestPut create _ offset _ => !create || offset == 0
  | .guestGet _ length => decide (1 ≤ length) && decide (length ≤ 33554432)
  | .guestRelease => true
  | .qwait _ _ _ => true
  | .ledgerRead grant _ count _ => decide (grant ≤ 2) && decide (1 ≤ count) && decide (count ≤ 64)
  | .ledgerWrite keep _ count _ => decide (keep ≤ 2) && decide (1 ≤ count) && decide (count ≤ 64)
  | .ledgerRelease _ count _ => decide (1 ≤ count) && decide (count ≤ 64)
  | .ledgerPublish _ _ => true
  | .ledgerRecall _ _ _ _ => false
  | .reserved => false

/-- Whether R90 accepts a descriptor, apart from what needs the sequence or the payload. -/
def Desc.accepted (d : Desc) : Bool := d.formed && decide (d.payloadLen ≤ 33554432) && d.body.accepted

/-- A command whose operands fit the fields of the spec. -/
def Command.fits (c : Command) : Bool :=
  c.src.fits && decide (c.tenant < 4096) && decide (c.keygen < 256) && decide (c.port < 12) && decide (c.sub < 4)
  && decide (c.die < 2) && (c.desc.v1 || c.desc.fits) && c.payload.length == c.desc.payloadLen

/-- A packet within the fields of R279. -/
def Packet.fits (p : Packet) : Bool :=
  decide (p.port < 12) && decide (p.sub < 4) && decide (p.ver < 16) && decide (p.type < 16) && p.src.fits && p.dst.fits
  && decide (p.tenant < 4096) && decide (p.keygen < 256) && decide (p.attempt < 256) && decide (p.bodyLen ≤ 8192)
  && decide (p.tsn < 281474976710656) && decide (p.ackTsn < 281474976710656) && w32 p.credit && w32 p.msgLen
  && decide (p.roll < 16) && decide (p.ackRoll < 16)

/-- A frame as a sub-port can receive it: the DA-to-header bytes of an Ethernet or a UDP/IPv6 frame (R274, R275), and a
body within R280. -/
def RxFrame.fits (f : RxFrame) : Bool :=
  decide (f.port < 12) && decide (f.sub < 4) && (decide (f.head.length = 62) || decide (f.head.length = 66)
  || decide (f.head.length = 110) || decide (f.head.length = 114)) && decide (f.body.length ≤ 8192)

/-- A delivered message as it stands at a port. -/
def Inbound.fits (m : Inbound) : Bool :=
  m.src.fits && decide (m.tenant < 4096) && decide (m.keygen < 256) && decide (m.port < 12) && decide (m.sub < 4)
  && decide (m.die < 2)

/-- A word error within the code of R201 and the layout of R188. -/
def WordErr.fits (e : WordErr) : Bool :=
  (decide (1 ≤ e.symbols) || e.severe) && decide (e.symbols ≤ 34)
  && match e.plain with | none => true | some (stack, pc) => decide (stack < 12) && decide (pc < 32)

/-- A flit within R394. -/
def Flit.fits (f : Flit) : Bool :=
  f.bytes.length == 512 && (f.opened.isEmpty || f.opened.length == 484) && decide (f.seq < 4096)

/-- The widths of an identity record (R257). -/
def IdRecord.fits (r : IdRecord) : Bool :=
  w32 r.magic && w16 r.version && w64 r.cartridgeId && r.serial.length == 20 && r.model.length == 40
  && r.nodeKeyHash.length == 32 && w32 r.enrolBoot && w64 r.enrolCount && w32 r.ratedTb && decide (r.duwBase < 2 ^ 128) && w64 r.lbas

end Sys2Proof
end

