-- ==== Sys2Proof/Machine/Messages.lean ====
section
/-!
DEFINITION. Machine/Messages.lean: the bytes of messages: descriptors of command set v2 and v1 (R88 to R136, R306 to R310,
R380 to R383, R410 to R418), completions (R300), result records and hole entries (R99, R102, R136), RECORDS (R301), and
the CONTROL messages (R340, R347, R348, R433, R512).
-/

namespace Sys2Proof.Machine

/-! ### Command descriptors -/

/-- Bit `b` of an option or flag byte, as a number. -/
def flag (b : Nat) (v : Bool) : Nat := if v then 2 ^ b else 0

/-- The OPT byte of a body. -/
def encodeOpt : Body → Nat
  | .append _ create _ _ _ => flag 0 create
  | .attnFwd a => flag 0 a.causal + 2 * a.bias + flag 3 a.outBf16 + flag 4 a.viaMerge
  | .attnBwd a _ _ => flag 0 a.causal + 2 * a.bias + flag 3 a.outBf16 + flag 4 a.viaMerge
  | .gradDrain release outBf16 _ _ _ _ _ _ => flag 0 release + flag 3 outBf16
  | .merge m => flag 3 m.outBf16 + flag 4 m.viaMerge + flag 5 m.sum
  | .prefixSearch stop cascade _ _ _ _ => flag 0 stop + flag 1 cascade
  | .prefixDelete bySeq _ => flag 0 bySeq
  | .guestPut create commit _ _ => flag 0 create + flag 1 commit
  | .ledgerRead grant _ _ _ => grant
  | .ledgerWrite keep _ _ _ => keep
  | .ledgerRecall _ _ downgrade _ => flag 0 downgrade
  | _ => 0

/-- The tensor block at 0x1C. -/
def encodeTb (t : TensorBlock) : List Byte := le 1 t.layerFirst ++ le 1 t.layerLast ++ le 1 t.headFirst ++ le 1 t.headCount

/-- The ATTN_FWD layout (R93) with the byte at 0x23 and the word at 0x3A. -/
def encodeAttn (a : AttnDesc) (b23 w3a : Nat) : List Byte :=
  le 1 a.layer ++ le 1 a.headFirst ++ le 1 a.headCount ++ le 1 a.group ++ le 2 a.qtok ++ le 1 a.qfmt ++ le 1 b23
    ++ le 4 a.qPos ++ le 4 a.kvStart ++ le 4 a.kvEnd ++ le 3 a.window ++ le 1 a.skim ++ le 2 a.sinks ++ le 2 a.softcap
    ++ le 2 a.scale ++ le 2 w3a ++ le 4 a.tag

/-- Bytes 0x1C to 0x3F of a descriptor. -/
def encodeBody : Body → List Byte
  | .append tb _ ntok format pos => encodeTb tb ++ le 2 ntok ++ le 1 format ++ le 1 0 ++ le 4 pos ++ le 24 0
  | .fork parent pos => le 4 0 ++ le 8 parent.num ++ le 4 pos ++ le 20 0
  | .trim tb start limit => encodeTb tb ++ le 4 0 ++ le 4 start ++ le 4 limit ++ le 20 0
  | .park => le 36 0
  | .wake => le 36 0
  | .evict => le 36 0
  | .hint tb kind start limit => encodeTb tb ++ le 1 kind ++ le 3 0 ++ le 4 start ++ le 4 limit ++ le 20 0
  | .attnFwd a => encodeAttn a 0 a.mergeNode
  | .attnBwd a dofmt step => encodeAttn a dofmt step
  | .gradDrain _ _ layer hf hc step ks ke =>
    le 1 layer ++ le 1 hf ++ le 1 hc ++ le 1 0 ++ le 2 step ++ le 2 0 ++ le 4 ks ++ le 4 ke ++ le 20 0
  | .merge m =>
    le 1 m.layer ++ le 1 m.headFirst ++ le 1 m.headCount ++ le 1 m.group ++ le 2 m.qtok ++ le 1 m.maxInputs ++ le 1 0
      ++ le 4 m.timeout ++ le 4 m.kvStart ++ le 4 m.kvEnd ++ le 2 m.headDim ++ le 8 0 ++ le 2 m.mergeNode ++ le 4 m.tag
  | .skimRefresh tb start limit => encodeTb tb ++ le 4 0 ++ le 4 start ++ le 4 limit ++ le 20 0
  | .prefixSearch _ _ count mc ms cseq => le 2 count ++ le 2 0 ++ le 8 mc ++ le 4 ms ++ le 2 cseq ++ le 18 0
  | .prefixInsert count => le 2 count ++ le 34 0
  | .prefixDelete _ count => le 2 count ++ le 34 0
  | .frameRead h offset length deadline =>
    le 4 0 ++ le 8 h.num ++ le 2 offset ++ le 2 length ++ le 4 deadline ++ le 16 0
  | .frameWrite layer head h offset length pos =>
    le 1 layer ++ le 1 head ++ le 2 0 ++ le 8 h.num ++ le 2 offset ++ le 2 length ++ le 4 pos ++ le 16 0
  | .guestPut _ _ offset objLen => le 4 0 ++ le 8 offset ++ le 8 objLen ++ le 16 0
  | .guestGet offset length => le 4 0 ++ le 8 offset ++ le 4 length ++ le 20 0
  | .guestRelease => le 36 0
  | .qwait q count timeout => le 2 q ++ le 2 0 ++ le 8 count ++ le 4 timeout ++ le 20 0
  | .ledgerRead _ region count line => le 2 region ++ le 2 count ++ le 4 line ++ le 28 0
  | .ledgerWrite _ region count line => le 2 region ++ le 2 count ++ le 4 line ++ le 28 0
  | .ledgerRelease region count line => le 2 region ++ le 2 count ++ le 4 line ++ le 28 0
  | .ledgerPublish region expect => le 2 region ++ le 2 0 ++ le 8 expect ++ le 24 0
  | .ledgerRecall region line _ version => le 2 region ++ le 2 1 ++ le 4 line ++ le 4 0 ++ le 8 version ++ le 16 0
  | .reserved => le 36 0

/-- A v2 descriptor's 64 bytes (R88). -/
def encodeDesc (d : Desc) : List Byte :=
  le 1 d.opcode ++ le 1 2 ++ le 1 (flag 0 d.allowPartial + flag 1 d.replicaOk) ++ le 1 (encodeOpt d.body) ++ le 4 d.epoch
    ++ le 8 (d.reqId + 281474976710656 * d.queue) ++ le 8 d.seq.num ++ le 4 d.payloadLen ++ encodeBody d.body

/-- The tensor block of a descriptor. -/
def parseTb (b : List Byte) : TensorBlock :=
  ⟨fieldLe b 0x1C 1, fieldLe b 0x1D 1, fieldLe b 0x1E 1, fieldLe b 0x1F 1⟩

/-- The fields of the ATTN_FWD layout; `mergeNode` is read only for ATTN_FWD. -/
def parseAttn (b : List Byte) (mergeNode : Nat) : AttnDesc :=
  let opt := fieldLe b 3 1
  { causal := bitOf 0 opt, bias := bitsOf 2 1 opt, outBf16 := bitOf 3 opt, viaMerge := bitOf 4 opt,
    layer := fieldLe b 0x1C 1, headFirst := fieldLe b 0x1D 1, headCount := fieldLe b 0x1E 1, group := fieldLe b 0x1F 1,
    qtok := fieldLe b 0x20 2, qfmt := fieldLe b 0x22 1, qPos := fieldLe b 0x24 4, kvStart := fieldLe b 0x28 4,
    kvEnd := fieldLe b 0x2C 4, window := fieldLe b 0x30 3, skim := fieldLe b 0x33 1, sinks := fieldLe b 0x34 2,
    softcap := fieldLe b 0x36 2, scale := fieldLe b 0x38 2, mergeNode := mergeNode, tag := fieldLe b 0x3C 4 }

/-- The command's own fields, by opcode. A reserved opcode has none (R89). DESIGN CHOICE (log entry 102): bits [15:12] of
MERGE_NODE are ignored, as the unused high bits of the other node and queue numbers are. -/
def parseBody (b : List Byte) : Body :=
  let opt := fieldLe b 3 1
  match fieldLe b 0 1 with
  | 0x01 => .append (parseTb b) (bitOf 0 opt) (fieldLe b 0x20 2) (fieldLe b 0x22 1) (fieldLe b 0x24 4)
  | 0x02 => .fork (seqHandleOf (fieldLe b 0x20 8)) (fieldLe b 0x28 4)
  | 0x03 => .trim (parseTb b) (fieldLe b 0x24 4) (fieldLe b 0x28 4)
  | 0x04 => .park
  | 0x05 => .wake
  | 0x06 => .evict
  | 0x07 => .hint (parseTb b) (fieldLe b 0x20 1) (fieldLe b 0x24 4) (fieldLe b 0x28 4)
  | 0x10 => .attnFwd (parseAttn b (lowBits 12 (fieldLe b 0x3A 2)))
  | 0x11 => .attnBwd (parseAttn b 0) (fieldLe b 0x23 1) (fieldLe b 0x3A 2)
  | 0x12 => .gradDrain (bitOf 0 opt) (bitOf 3 opt) (fieldLe b 0x1C 1) (fieldLe b 0x1D 1) (fieldLe b 0x1E 1)
      (fieldLe b 0x20 2) (fieldLe b 0x24 4) (fieldLe b 0x28 4)
  | 0x13 => .merge
      { outBf16 := bitOf 3 opt, viaMerge := bitOf 4 opt, sum := bitOf 5 opt, layer := fieldLe b 0x1C 1,
        headFirst := fieldLe b 0x1D 1, headCount := fieldLe b 0x1E 1, group := fieldLe b 0x1F 1, qtok := fieldLe b 0x20 2,
        maxInputs := fieldLe b 0x22 1, timeout := fieldLe b 0x24 4, kvStart := fieldLe b 0x28 4, kvEnd := fieldLe b 0x2C 4,
        headDim := fieldLe b 0x30 2, mergeNode := lowBits 12 (fieldLe b 0x3A 2), tag := fieldLe b 0x3C 4 }
  | 0x14 => .skimRefresh (parseTb b) (fieldLe b 0x24 4) (fieldLe b 0x28 4)
  | 0x20 => .prefixSearch (bitOf 0 opt) (bitOf 1 opt) (fieldLe b 0x1C 2) (fieldLe b 0x20 8)
      (lowBits 20 (fieldLe b 0x28 4)) (fieldLe b 0x2C 2)
  | 0x21 => .prefixInsert (fieldLe b 0x1C 2)
  | 0x22 => .prefixDelete (bitOf 0 opt) (fieldLe b 0x1C 2)
  | 0x30 => .frameRead (pageHandleOf (fieldLe b 0x20 8)) (fieldLe b 0x28 2) (fieldLe b 0x2A 2) (fieldLe b 0x2C 4)
  | 0x31 => .frameWrite (fieldLe b 0x1C 1) (fieldLe b 0x1D 1) (pageHandleOf (fieldLe b 0x20 8)) (fieldLe b 0x28 2)
      (fieldLe b 0x2A 2) (fieldLe b 0x2C 4)
  | 0x32 => .guestPut (bitOf 0 opt) (bitOf 1 opt) (fieldLe b 0x20 8) (fieldLe b 0x28 8)
  | 0x33 => .guestGet (fieldLe b 0x20 8) (fieldLe b 0x28 4)
  | 0x34 => .guestRelease
  | 0x35 => .qwait (lowBits 10 (fieldLe b 0x1C 2)) (fieldLe b 0x20 8) (fieldLe b 0x28 4)
  | 0x40 => .ledgerRead (bitsOf 1 0 opt) (fieldLe b 0x1C 2) (fieldLe b 0x1E 2) (fieldLe b 0x20 4)
  | 0x41 => .ledgerWrite (bitsOf 1 0 opt) (fieldLe b 0x1C 2) (fieldLe b 0x1E 2) (fieldLe b 0x20 4)
  | 0x42 => .ledgerRelease (fieldLe b 0x1C 2) (fieldLe b 0x1E 2) (fieldLe b 0x20 4)
  | 0x43 => .ledgerPublish (fieldLe b 0x1C 2) (fieldLe b 0x20 8)
  | 0x44 => .ledgerRecall (fieldLe b 0x1C 2) (fieldLe b 0x20 4) (bitOf 0 opt) (fieldLe b 0x28 8)
  | _ => .reserved

/-- The body of an accepted v1 descriptor (R134, R135); the format of an APPEND is the sequence's, so it is left at 0. -/
def parseBodyV1 (b : List Byte) : Body :=
  let layer := fieldLe b 0x18 1
  let head := fieldLe b 0x19 1
  let count := fieldLe b 0x1A 2
  let pos := fieldLe b 0x1C 4
  match fieldLe b 0 1 with
  | 0x01 => .append ⟨layer, layer, head, 1⟩ false count 0 pos
  | 0x03 => .trim ⟨layer, layer, head, 1⟩ pos (fieldLe b 0x24 4)
  | 0x06 => .evict
  | 0x10 => .attnFwd { causal := bitOf 0 (fieldLe b 2 1), outBf16 := bitOf 1 (fieldLe b 2 1), layer := layer,
                       headFirst := head, headCount := 1, group := count, qtok := 1, qfmt := 0x30, qPos := pos,
                       kvStart := fieldLe b 0x20 4, kvEnd := fieldLe b 0x24 4, tag := fieldLe b 0x28 4 }
  | _ => .reserved

/-- Reads a descriptor: v2, or v1 in mixed mode. A descriptor of another version, or of a reserved opcode, is not formed
(R90, R134). -/
def parseDesc (mixed : Bool) (b : List Byte) : Desc :=
  let version := fieldLe b 1 1
  let op := fieldLe b 0 1
  if version = 1 ∧ mixed then
    let seq := seqHandleOf (fieldLe b 0x10 8)
    let body := parseBodyV1 b
    { opcode := op, v1 := true, formed := body != .reserved, epoch := fieldLe b 4 4, reqId := lowBits 48 (fieldLe b 8 8),
      queue := 0, seq := seq, seqZero := seq == {}, payloadLen := fieldLe b 0x2C 4, body := body }
  else
    let seq := seqHandleOf (fieldLe b 0x10 8)
    let w := fieldLe b 8 8
    let body := parseBody b
    let cf := fieldLe b 2 1
    { opcode := op, v1 := false, formed := version == 2 && body != .reserved,
      allowPartial := bitOf 0 cf && (op == 0x10 || op == 0x11 || op == 0x13), replicaOk := bitOf 1 cf && op == 0x10,
      epoch := fieldLe b 4 4, reqId := lowBits 48 w, queue := bitsOf 57 48 w, seq := seq, seqZero := seq == {},
      payloadLen := fieldLe b 0x18 4, body := body }

/-- The length of the descriptor that begins with these bytes: 48 for v1, 64 otherwise (R134, R299). -/
def descLen (mixed : Bool) (b : List Byte) : Nat := if fieldLe b 1 1 = 1 ∧ mixed then 48 else 64

/-- The 8-byte message header of a KIND (R299). -/
def msgHead (kind : Nat) : List Byte := le 1 kind ++ le 7 0

/-- The KIND of a message. -/
def msgKind (b : List Byte) : Nat := fieldLe b 0 1

/-- A COMMAND message. -/
def commandMsg (d : Desc) (payload : List Byte) : List Byte := msgHead 0x01 ++ encodeDesc d ++ payload

/-- The command that a delivered COMMAND message carries. -/
def commandOf (mixed : Bool) (m : Inbound) : Command :=
  let b := m.bytes.drop 8
  { src := m.src, tenant := m.tenant, keygen := m.keygen, sys := m.sys, mgmt := m.mgmt, viaLink := m.viaLink, port := m.port,
    sub := m.sub, die := m.die, desc := parseDesc mixed b, payload := b.drop (descLen mixed b) }

/-! ### Completions and records -/

/-- What a completion carries besides what the descriptor and the queue give (R300). -/
structure Reply where
  status : Status
  owner : Option Nat := none
  records : List (List Byte) := []
  holes : List (List Byte) := []
  data : List Byte := []
  value : Nat := 0
  deriving DecidableEq, Repr

/-- What a v1 source is sent in place of a v2 status (R136). -/
def statusV1 : Status → Status
  | .notOwner => .staleMap
  | .fenced => .staleMap
  | .noState => .busyRetry
  | .keyRetired => .internal
  | .lostUpdate => .internal
  | .conflict => .internal
  | .tierLate => .internal
  | .lifeEnd => .internal
  | st => st

/-- Whether a status carries an owner hint (R300). -/
def statusHinted (st : Status) : Bool := st == .staleMap || st == .notOwner

/-- A COMPLETION message (R299, R300). -/
def completionMsg (d : Desc) (r : Reply) (seq epoch qcount : Nat) : List Byte :=
  let st := if d.v1 then statusV1 r.status else r.status
  msgHead 0x02 ++ le 8 (d.reqId + 281474976710656 * d.queue) ++ le 1 d.opcode ++ le 1 st.code
    ++ le 2 (match r.owner with
        | some n => if statusHinted st then n else 0xFFFF
        | none => 0xFFFF)
    ++ le 4 epoch ++ le 8 seq ++ le 4 r.records.length ++ le 4 r.holes.length ++ le 4 r.data.length ++ le 4 qcount
    ++ le 8 r.value ++ r.records.flatten ++ r.holes.flatten ++ r.data

/-- A RECORDS message (R301). -/
def recordsMsg (records holes : List (List Byte)) : List Byte :=
  msgHead 0x03 ++ le 4 records.length ++ le 4 holes.length ++ records.flatten ++ holes.flatten

/-- The content of a result record (R99). O is held as the bytes of its elements. -/
structure Record where
  tag : Nat := 0
  qtok : Nat := 0
  qhead : Nat := 0
  status : Status := .ok
  flags : Nat := 0
  node : Nat := 0
  epoch : Nat := 0
  m : Nat := 0xFF800000
  l : Nat := 0
  bound : Nat := 0
  covered : Nat := 0
  start : Nat := 0
  limit : Nat := 0
  layer : Nat := 0
  ofmt : Nat := 0
  holes : Nat := 0
  o : List Byte := []
  deriving DecidableEq, Repr

/-- A result record's bytes (R99). -/
def recordBytes (r : Record) : List Byte :=
  le 4 r.tag ++ le 2 r.qtok ++ le 2 r.qhead ++ le 1 r.status.code ++ le 1 r.flags ++ le 2 r.node ++ le 4 r.epoch ++ le 4 r.m
    ++ le 4 r.l ++ le 4 r.bound ++ le 4 r.covered ++ le 4 r.start ++ le 4 r.limit ++ le 1 r.layer ++ le 1 r.ofmt
    ++ le 2 r.holes ++ le 4 0 ++ r.o

/-- A v1 result record's bytes; `row` is the row within COUNT (R136). -/
def recordBytesV1 (r : Record) (row : Nat) : List Byte :=
  le 4 r.tag ++ le 2 row ++ le 1 (statusV1 r.status).code ++ le 1 0 ++ le 4 r.m ++ le 4 r.l ++ r.o

/-- Reads a result record whose O takes `n` bytes. -/
def parseRecord (b : List Byte) (n : Nat) : Record :=
  { tag := fieldLe b 0 4, qtok := fieldLe b 4 2, qhead := fieldLe b 6 2, status := statusOf (fieldLe b 8 1),
    flags := fieldLe b 9 1, node := lowBits 12 (fieldLe b 10 2), epoch := fieldLe b 12 4, m := fieldLe b 16 4,
    l := fieldLe b 20 4, bound := fieldLe b 24 4, covered := fieldLe b 28 4, start := fieldLe b 32 4, limit := fieldLe b 36 4,
    layer := fieldLe b 40 1, ofmt := fieldLe b 41 1, holes := fieldLe b 42 2, o := slice b 48 n }

/-- A hole entry's bytes (R102). -/
def holeBytes (head : Nat) (h : Hole) : List Byte :=
  le 1 head ++ le 1 h.reason.code ++ le 2 0 ++ le 4 h.start ++ le 4 h.limit ++ le 4 0

/-- Reads a hole entry: its KV head and the hole. -/
def parseHole (b : List Byte) : Nat × Hole :=
  (fieldLe b 0 1, { reason := statusOf (fieldLe b 1 1), start := fieldLe b 4 4, limit := fieldLe b 8 4 })

/-! ### CONTROL messages -/

/-- MAP_ACK (R348). -/
def mapAckMsg (epoch installed : Nat) (st : Status) : List Byte :=
  msgHead 0x11 ++ le 4 epoch ++ le 4 installed ++ le 1 st.code ++ le 7 0

/-- HEARTBEAT (R348). -/
def heartbeatMsg (epoch : Nat) : List Byte := msgHead 0x13 ++ le 4 epoch ++ le 4 0

/-- REPORT (R348). -/
def reportMsg (what : Nat) (st : Status) (subject epoch arg0 arg1 : Nat) : List Byte :=
  msgHead 0x14 ++ le 1 what ++ le 1 st.code ++ le 2 subject ++ le 4 epoch ++ le 4 arg0 ++ le 4 arg1

/-- CHAIN (R348): the descriptor follows from 0x18 as 64 bytes, then the payload. -/
def chainMsg (origin keygen hop epoch req : Nat) (desc payload : List Byte) : List Byte :=
  msgHead 0x15 ++ le 2 origin ++ le 1 keygen ++ le 1 hop ++ le 4 epoch ++ le 8 req ++ padTo 64 desc ++ payload

/-- CHAIN_ACK (R348). -/
def chainAckMsg (origin epoch req : Nat) (st : Status) : List Byte :=
  msgHead 0x16 ++ le 2 origin ++ le 2 0 ++ le 4 epoch ++ le 8 req ++ le 1 st.code ++ le 7 0

/-- The head of a COPY message (R340). -/
def copyHead (kind part epoch seq last : Nat) : List Byte :=
  msgHead kind ++ le 1 part ++ le 3 0 ++ le 4 epoch ++ le 8 seq ++ le 4 last ++ le 4 0

/-- One entry of COPY FRAMES (R340). -/
def copyEntryBytes (e : CopyEntry) : List Byte :=
  le 8 e.handle.num ++ le 2 e.tensor ++ le 3 e.page ++ le 1 (flag 0 e.isRef) ++ le 2 0 ++ (if e.isRef then [] else e.image)

/-- COPY FRAMES (R340). -/
def copyFramesMsg (epoch seq : Nat) (es : List CopyEntry) : List Byte :=
  copyHead 0x17 1 epoch seq es.length ++ (es.map copyEntryBytes).flatten

/-- COPY_ACK (R340). -/
def copyAckMsg (part epoch seq : Nat) (st : Status) (handles : List PageHandle) : List Byte :=
  copyHead 0x18 part epoch seq st.code ++ (handles.map fun h => le 8 h.num).flatten

/-- STEP (R348). -/
def stepMsg (epoch stepId action arg seq : Nat) : List Byte :=
  msgHead 0x19 ++ le 4 epoch ++ le 4 stepId ++ le 1 action ++ le 1 0 ++ le 2 arg ++ le 4 0 ++ le 8 seq

/-- GLOBAL (R348). -/
def globalMsg (op what treeEpoch opId arg : Nat) : List Byte :=
  msgHead 0x1A ++ le 1 op ++ le 1 what ++ le 2 0 ++ le 4 treeEpoch ++ le 4 opId ++ le 4 arg

/-- HALO_MARK (R512). -/
def haloMarkMsg (snapId treeEpoch : Nat) : List Byte := msgHead 0x1C ++ le 4 snapId ++ le 4 treeEpoch

/-- HALO_DONE (R512). -/
def haloDoneMsg (snapId haloNo : Nat) (latched drained : Bool) (inFlight epoch counter : Nat) : List Byte :=
  msgHead 0x1D ++ le 4 snapId ++ le 2 haloNo ++ le 2 (flag 0 latched + flag 1 drained) ++ le 4 inFlight ++ le 4 epoch
    ++ le 8 counter

/-- ATTEST_RSP (R433). -/
def attestRspMsg (reqTag : Nat) (st : Status) (body : List Byte) : List Byte :=
  msgHead 0x1F ++ le 4 reqTag ++ le 1 st.code ++ le 3 0 ++ le 4 body.length ++ le 12 0 ++ body

/-! ### Sequence descriptor and tensor entries (R62, R63, R259) -/

/-- The state's value in a descriptor (R83). -/
def SeqState.code : SeqState → Nat
  | .active => 1 | .parking => 2 | .parked => 3 | .waking => 4 | .evicting => 5

/-- PARK_REF (R259). -/
def parkRefNum : Option ParkRef → Nat
  | none => 0
  | some r => r.port + 2 * r.object + 268435456 * r.partner + 1099511627776 * r.cart

/-- A bit set of KV heads. -/
def headMask (hs : List Nat) : Nat := sumNat (hs.map fun h => 2 ^ h)

/-- The KV heads of a bit set. -/
def headsOf (mask : Nat) : List Nat := (List.range 128).filter fun h => bitOf h mask

/-- The 1,024 bytes of a sequence descriptor (R62). -/
def encodeSeq (x : Seq) (frames : Nat) : List Byte :=
  le 8 x.handle.num ++ le 1 x.state.code ++ le 1 x.format ++ le 2 x.headDim ++ le 2 x.layers ++ le 2 x.kvHeads
    ++ le 16 (headMask x.localHeads) ++ le 4 x.tokenBase ++ le 4 x.tokenLimit ++ le 4 x.maxTokens ++ le 2 x.p ++ le 2 x.leaves
    ++ le 4 x.dirBlock ++ le 4 x.dirBlocks ++ le 8 x.lastAccess ++ le 8 (parkRefNum x.parkRef) ++ le 4 x.epoch ++ le 4 frames
    ++ le 4 (flag 0 x.tight) ++ le 172 0 ++ padTo 512 x.codec ++ le 256 0

/-- Reads a sequence descriptor; the page map is not part of it. -/
def parseSeq (b : List Byte) : Seq :=
  { handle := seqHandleOf (fieldLe b 0 8), format := fieldLe b 9 1, headDim := fieldLe b 10 2, layers := fieldLe b 12 2,
    kvHeads := fieldLe b 14 2, localHeads := headsOf (fieldLe b 16 16), tokenBase := fieldLe b 32 4,
    tokenLimit := fieldLe b 36 4, maxTokens := fieldLe b 40 4, p := fieldLe b 44 2, leaves := fieldLe b 46 2,
    epoch := fieldLe b 0x48 4, tight := bitOf 0 (fieldLe b 0x50 1), codec := slice b 0x100 512 }

/-- A tensor entry (R63). -/
def encodeTensor (t : Tensor) : List Byte :=
  le 4 t.endPos ++ le 8 ((t.reserve.map PageHandle.num).getD 0) ++ le 4 (flag 0 t.want)

end Sys2Proof.Machine
end

