-- ==== Sys2Proof/Machine/Send.lean ====
section
/-!
DEFINITION. Machine/Send.lean: sending and answering: the Ranup Link's transmit side (R395, R401 to R405), peer contexts
(R294 to R297), egress classes (R360), the outcome log (R131, R302), completions and queue counts (R300, R305), forwarding
along the chain (R334, R335), REPORT messages (R348) and the mailbox's answers (R516).
-/

namespace Sys2Proof.Machine

/-! ### Mailbox answers and tenant counters -/

/-- Puts a message into the K2H FIFO (R516): word 0, then the words, the last with the end mark. -/
def k2hPush (s : State) (kind tag : Nat) (ws : List Word32) : State :=
  let n := ws.length + 1
  let w0 : Word32 := BitVec.ofNat 32 (kind + 256 * tag + 65536 * n)
  let all := w0 :: ws
  let marked := (List.range n).map fun i => (all.getD i 0, i + 1 == n)
  { s with mail := { s.mail with k2h := s.mail.k2h ++ marked } }

/-- Adds to counter `i` of a tenant (R514). -/
def bump (s : State) (tenant i n : Nat) : State :=
  { s with snap := { s.snap with tctr := tabModD s.snap.tctr tenant [] fun t => tabModD t i 0 (· + n) } }

/-- A die has sent `n` result records for a tenant (R510, R514). -/
def countRecords (s : State) (die tenant n : Nat) : State :=
  bump { s with net := { s.net with recSent := tabModD s.net.recSent die 0 (· + n) } } tenant 4 n

/-! ### Transmit side of the Ranup Link -/

/-- The data of a transaction (R401); a read carries none. -/
def txData : LinkTx → List Byte
  | .regCpl _ _ _ d => d
  | .memRd _ _ _ => []
  | .memWr _ d => d
  | .msg m => m.bytes

/-- The header of R401: TYPE, STATUS, TAG, LEN, ADDR. -/
def txHeader (type status tag len addr : Nat) : List Byte := le 1 type ++ le 1 status ++ le 2 tag ++ le 4 len ++ le 8 addr

/-- The header of a transaction (R401, R402); a read's LEN is the length that it asks for. -/
def txHead : LinkTx → List Byte
  | .regCpl tag a st d => txHeader 0x03 st tag d.length a
  | .memRd tag a n => txHeader 0x10 0 tag n a
  | .memWr a d => txHeader 0x11 0 0 d.length a
  | .msg m => txHeader 0x20 0 0 m.bytes.length (m.tenant % 4096 + 4096 * (m.keygen % 256) + flag 20 m.sys + flag 21 m.mgmt)

/-- Bytes of a transaction with its header (R401). -/
def txBytes (t : LinkTx) : Nat := 16 + ceilDiv (txData t).length 4 * 4

/-- A transaction as bytes (R401): the header, and the data padded with zero to a multiple of 4. -/
def txWire (t : LinkTx) : List Byte := txHead t ++ padTo (ceilDiv (txData t).length 4 * 4) (txData t)

/-- The credit kind of a transaction (R404): 0 posted, 1 non-posted, 2 completion. -/
def txKind : LinkTx → Nat
  | .regCpl _ _ _ _ => 2
  | .memRd _ _ _ => 1
  | .memWr _ _ => 0
  | .msg _ => 0

/-- Whether the credit limit allows a transaction (R404). -/
def txAllowed (l : LinkSt) (t : LinkTx) : Bool :=
  let k := txKind t
  let need := tabGetD l.used k 0 + ceilDiv (txBytes t) 64
  decide ((tabGetD l.limit k 0 + 4294967296 - need % 4294967296) % 4294967296 < 2147483648)

/-- The header of a flit (R394): ACK_SEQ is the number of the last good data flit received. -/
def flitHeader (l : LinkSt) (kind : Nat) (nak : Bool) : List Byte :=
  le 2 ((l.rxSeq + 4095) % 4096 + flag 12 nak + flag 13 (l.rxAny || nak) + 16384 * kind)

/-- The nonce of a flit to the host (R396): DIR 1, KIND, 16 zero bits and the count of its KIND. -/
def flitNonce (kind count : Nat) : List Byte := le 1 1 ++ le 1 kind ++ le 2 0 ++ le 8 count

/-- PAYLOAD and TAG of a flit (R394, R396): sealed under the key from node to host while the link is SECURE (R435). -/
def flitBody (l : LinkSt) (kind : Nat) (head payload : List Byte) : List Byte :=
  match l.kLink with
  | some k =>
    if l.state = 3 then
      padTo 500 (Config.gcmSeal ((k.drop 32).take 32) (flitNonce kind (tabGetD l.txCount kind 0)) head (padTo 484 payload))
    else padTo 500 payload
  | none => padTo 500 payload

/-- The 512 bytes of a flit (R394). -/
def flitBytes (l : LinkSt) (kind : Nat) (nak : Bool) (payload : List Byte) : List Byte :=
  let head := flitHeader l kind nak
  let b := head ++ flitBody l kind head payload
  let c := b ++ le 4 (crc32c b).toNat
  c ++ padTo 6 (Config.flitFec c)

/-- A flit leaves (R394, R396): its KIND's count rises while the link is SECURE. -/
def linkEmit (l : LinkSt) (kind : Nat) (nak : Bool) (payload : List Byte) : LinkSt :=
  { l with wire := l.wire ++ [flitBytes l kind nak payload]
           txCount := if l.state = 3 then tabModD l.txCount kind 0 (· + 1) else l.txCount }

/-- An idle flit, which carries the acknowledgement or the NAK (R394, R395). -/
def linkIdle (l : LinkSt) (nak : Bool) : LinkSt := linkEmit l 2 nak []

/-- The node's own credit limit of a kind (R404): what it granted at first and what it has taken since (log entry 103). -/
def ownLimit (l : LinkSt) (k : Nat) : Nat := (Config.linkCredit k + tabGetD l.rx.used k 0) % 4294967296

/-- A control flit: the node's three credit limits (R394, R404; their places are those of log entry 103). -/
def linkControl (l : LinkSt) : LinkSt :=
  linkEmit l 1 false (le 4 (ownLimit l 0) ++ le 4 (ownLimit l 1) ++ le 4 (ownLimit l 2))

/-- Sends one flit if the window of 1,024 unacknowledged flits and the credit allow it (R395, R404). -/
def linkSendOne (l : LinkSt) : LinkSt :=
  match l.queue with
  | [] => l
  | t :: rest =>
    if 1024 ≤ l.kept.length || (l.progress == 0 && !txAllowed l t) then l
    else
      let n := ceilDiv (txBytes t) 484
      let last := decide (n ≤ l.progress + 1)
      let payload := slice (txWire t) (484 * l.progress) 484
      let fl : LinkFlit := { seq := l.txSeq, bytes := flitBytes l 0 false payload }
      let used := if l.progress = 0 then
        tabModD l.used (txKind t) 0 (fun u => (u + ceilDiv (txBytes t) 64) % 4294967296) else l.used
      let l1 : LinkSt := { linkEmit l 0 false payload with kept := l.kept ++ [fl], txSeq := (l.txSeq + 1) % 4096, used := used }
      if last then { l1 with queue := rest, progress := 0, out := l1.out ++ [t] } else { l1 with progress := l.progress + 1 }

/-- Sends what the window and the credits allow. -/
def linkPump (s : State) : State := { s with link := iter linkSendOne 1024 s.link }

/-- Hands a transaction to the link; a link that is not up for it drops it (R398, R399). -/
def linkSend (s : State) (t : LinkTx) : State :=
  let ok := match t with
    | .regCpl _ _ _ _ => decide (2 ≤ s.link.state)
    | _ => s.link.state == 3
  if ok then linkPump { s with link := { s.link with queue := s.link.queue ++ [t] } } else s

/-! ### Peer contexts and sending -/

/-- The keys of a tenant; 4096 names the fabric transport key. -/
def tenantOf (s : State) (n : Nat) : Tenant := tabGetD s.trust.tenants n {}

/-- The number under which an association's keys are held. -/
def keyNo (a : AssocKey) : Nat := if a.sys then 4096 else a.tenant

/-- The generation that seals what the node sends (R284, R442): the current one, else the retired one until its erasure. -/
def sealGen (s : State) (a : AssocKey) : Option Nat :=
  let t := tenantOf s (keyNo a)
  match t.keygen with
  | some g => some g
  | none => t.prev.map Prod.fst

def ctxOf (s : State) (a : AssocKey) : Option PeerCtx := s.net.ctxs.find? fun c => c.key == a

def modCtx (s : State) (a : AssocKey) (f : PeerCtx → PeerCtx) : State :=
  { s with net := { s.net with ctxs := s.net.ctxs.map fun c => if c.key = a then f c else c } }

/-- Whether a backing entry is free for a new context (R295, R296): the region stays registered when its content is lost. -/
def backingFree (s : State) (a : AssocKey) : Bool :=
  a.sys || ((s.net.pctx == 1 || s.net.pctx == 3) && decide ((s.net.ctxs.filter fun c => !c.key.sys).length < s.net.pctxSize))

/-- Whether a cached context may be evicted (R297). -/
def evictable (s : State) (c : PeerCtx) : Bool :=
  c.cached && c.flight.isEmpty && c.msgs.isEmpty && c.held.isEmpty && !c.fetching
    && s.net.miss.all fun e => (e.2.src, e.2.tenant, e.2.sys) != (c.key.peer, c.key.tenant, c.key.sys)

/-- Writes a changed tenant context back to its place in the context region, by its place among the contexts (R295, R297;
log entry 16). -/
def writeBack (s : State) (c : PeerCtx) : State :=
  if c.key.sys || c.backed then s
  else
    let i := ((s.net.ctxs.filter fun x => !x.key.sys).findIdx? fun x => x.key == c.key).getD 0
    linkSend s (.memWr (s.net.pctxBase + 512 * i)
      (padTo 512 (Config.gcmSeal s.trust.sealKey (Config.contextNonce i (now s)) [] (Config.contextImage i (now s)))))

/-- Makes room for one context on a die: nothing if fewer than 16,384 are cached there, else the least recently used
context that may be evicted is written back and leaves the cache (R294, R297). -/
def makeRoom (s : State) (die : Nat) : Option State :=
  let mine := s.net.ctxs.filter fun c => (c.cached || c.fetching) && homeDie s c.key.peer == die
  if mine.length < 16384 then some s
  else (minBy (fun c => c.used) (mine.filter (evictable s))).map fun v =>
    modCtx (writeBack s v) v.key fun c => { c with cached := false, backed := true }

/-- Creates the context of an association that has none (R296): roll count 0, no TSN received. -/
def newCtx (s : State) (a : AssocKey) : Option State :=
  if backingFree s a then
    (makeRoom s (homeDie s a.peer)).map fun s1 =>
      { s1 with net := { s1.net with ctxs := s1.net.ctxs ++ [{ key := a, txCredit := pCreditInit s, backed := false, used := now s }] } }
  else none

/-- Queues a message on an association, sealed under generation `gen` (R285). It is dropped and counted where no key seals it
or no context can be created (log entry 13). -/
def sendUnder (s : State) (gen : Option Nat) (a : AssocKey) (cls : MsgClass) (egress : Nat) (arrival : Option (Nat × Nat))
    (bytes : List Byte) : State :=
  let s1? := match ctxOf s a with
    | some c => if c.lost then none else some s
    | none => newCtx s a
  match gen, s1? with
  | some g, some s1 =>
    let m : TxMsg := { id := s1.net.nextMsg, cls := cls, egress := egress, arrival := arrival, keygen := g, bytes := bytes }
    modCtx { s1 with net := { s1.net with nextMsg := s1.net.nextMsg + 1 } } a fun c => { c with txQueue := c.txQueue ++ [m] }
  | _, _ => { s with net := { s.net with discarded := s.net.discarded + 1 } }

/-- Queues a message under the current generation of the association's keys. -/
def sendMsg (s : State) (a : AssocKey) (cls : MsgClass) (egress : Nat) (arrival : Option (Nat × Nat)) (bytes : List Byte) :
    State := sendUnder s (sealGen s a) a cls egress arrival bytes

/-- A fabric member as the peer of a SYS association. -/
def sysKey (e : Endpoint) : AssocKey := { peer := e, sys := true }

/-- The adapter endpoint of the link host (R405). -/
def hlEndpoint (s : State) : Endpoint := .adapter (fld s 0x30004 13 0)

/-- A CONTROL message other than COPY: egress class 7 (R360). One to the link host is a MSG of the link while it is SECURE
(R405). DEDUCED (log entry 34). -/
def sendControl (s : State) (e : Endpoint) (bytes : List Byte) : State :=
  if e = hlEndpoint s ∧ s.link.state = 3 then
    linkSend s (.msg { src := e, tenant := 0, keygen := (sealGen s (sysKey e)).getD 0, sys := true, viaLink := true, bytes := bytes })
  else sendMsg s (sysKey e) .control 7 none bytes

/-- The egress class of what concerns a sequence: its stored class, SEQZ_CLASS where the node does not hold it (R360). -/
def seqClass (s : State) (q : SeqId) : Nat :=
  match seqOf s q with
  | some x => x.handle.cls
  | none => pSeqzClass s

/-- Whether a body belongs to a GUEST command. -/
def isGuest : Body → Bool
  | .guestPut _ _ _ _ => true
  | .guestGet _ _ => true
  | .guestRelease => true
  | _ => false

/-- The egress class of a command's messages (R360). -/
def cmdClass (s : State) (d : Desc) : Nat :=
  if isGuest d.body then pCopyClass s else if d.seqZero then pSeqzClass s else seqClass s d.seq.id

/-- REPORT to every COMPOSER adapter (R347, R348), with the mailbox's copy (R516). -/
def reportAll (s : State) (what : Nat) (st : Status) (subject epoch arg0 arg1 : Nat) : State :=
  match s.comp.map with
  | none => s
  | some m =>
    let msg := reportMsg what st subject epoch arg0 arg1
    let s1 := foldState (fun s e => sendControl s e msg) s (composers m)
    k2hPush s1 0x82 0 ((List.range 4).map fun i => BitVec.ofNat 32 (fieldLe msg (8 + 4 * i) 4))

/-! ### Outcome log (R131, R302) -/

def cmdKey (c : Command) : CmdKey := ⟨c.src, c.desc.reqId⟩

/-- Whether a command modifies the sequence that it names (R128, R308). -/
def isModifying : Body → Bool
  | .append _ _ _ _ _ => true
  | .fork _ _ => true
  | .trim _ _ _ => true
  | .park => true
  | .wake => true
  | .evict => true
  | .attnBwd _ _ _ => true
  | .gradDrain release _ _ _ _ _ _ _ => release
  | .skimRefresh _ _ _ => true
  | .frameWrite _ _ _ _ _ _ => true
  | _ => false

/-- Whether a command modifies a sequence, as its own or as the parent of a FORK. -/
def modifies (c : Command) (q : SeqId) : Bool :=
  isModifying c.desc.body && (c.desc.seq.id == q || match c.desc.body with
    | .fork p _ => p.id == q
    | _ => false)

/-- Whether a body is of the read commands of a sequence (R129). -/
def isRead : Body → Bool
  | .attnFwd _ => true
  | .gradDrain release _ _ _ _ _ _ _ => !release
  | .hint _ _ _ _ => true
  | _ => false

/-- How long an outcome is kept (R302). -/
def retainFor (s : State) (b : Body) : Nat :=
  let long := isModifying b || match b with
    | .guestPut _ _ _ _ => true
    | .guestRelease => true
    | .merge _ => true
    | _ => false
  if long then pRetain s else 100000

/-- Whether an outcome of this status is recorded (R131). -/
def recorded (st : Status) : Bool :=
  !([.fenced, .busyRetry, .noPage, .tierLate, .staleMap, .notOwner, .noState].contains st)

def findOutcome (s : State) (k : CmdKey) : Option Outcome := s.outcomes.find? fun o => o.key == k

/-- Takes an entry out of the log. -/
def dropOutcome (s : State) (k : CmdKey) : State := { s with outcomes := s.outcomes.filter fun o => o.key != k }

/-- Writes the outcome of a command, or removes its entry where no outcome is recorded (R131, R302). -/
def settle (s : State) (c : Command) (st : Status) : State :=
  if recorded st then
    let k := cmdKey c
    { s with outcomes := (s.outcomes.filter fun o => o.key != k)
        ++ [{ key := k, status := some st, since := now s, retain := retainFor s c.desc.body }] }
  else dropOutcome s (cmdKey c)

/-- Writes an in-progress entry if its bucket of eight has a free or expired one (R302). -/
def openOutcome (s : State) (k : CmdKey) : Option State :=
  let bucket := fun (k : CmdKey) => Config.outcomeBucket k.src.num k.reqId
  let live := s.outcomes.filter fun o => o.status.isNone || !elapsed s o.since o.retain
  if live.length < 8 || (live.filter fun o => bucket o.key == bucket k).length < 8 then
    some { s with outcomes := live ++ [{ key := k }] }
  else none

/-! ### Command queues and completions -/

def queueOf (s : State) (q : Nat) : CmdQueue := tabGetD s.queues q {}

def modQueue (s : State) (q : Nat) (f : CmdQueue → CmdQueue) : State :=
  { s with queues := tabModD s.queues q {} f }

/-- The SEQ field of a completion (R300, R48): the handle with its stored flags; the identity alone where the sequence is
not held (log entry 14); zero for a command without SEQ. -/
def replySeq (s : State) (d : Desc) : Nat :=
  if d.seqZero then 0
  else match seqOf s d.seq.id with
    | some x => x.handle.num
    | none => 1048576 * d.seq.id.num

/-- The association on which a command came and is answered. -/
def replyKey (c : Command) : AssocKey := if c.sys then sysKey c.src else { peer := c.src, tenant := c.tenant }

/-- Sends bytes to the source of a command under generation `gen`: over the link it came by, or from the sub-port on which it
arrived (R25). -/
def replyUnder (s : State) (gen : Option Nat) (c : Command) (cls : MsgClass) (bytes : List Byte) : State :=
  if c.viaLink then
    linkSend s (.msg { src := c.src, tenant := c.tenant, keygen := gen.getD c.keygen, sys := c.sys, viaLink := true, bytes := bytes })
  else sendUnder s gen (replyKey c) cls (cmdClass s c.desc) (some (c.port, c.sub)) bytes

/-- Sends bytes to the source of a command. -/
def sendReply (s : State) (c : Command) (cls : MsgClass) (bytes : List Byte) : State :=
  replyUnder s (sealGen s (replyKey c)) c cls bytes

/-- Records an outcome that a command reaches without having entered the log (R131), where its bucket has room. -/
def settleNew (s : State) (c : Command) (st : Status) : State :=
  if (findOutcome s (cmdKey c)).isSome then settle s c st
  else match openOutcome s (cmdKey c) with
    | some s1 => settle s1 c st
    | none => s

/-- Answers a command under a retired generation with KEY_RETIRED, sealed under that same generation (R284); the outcome is
recorded (R131). -/
def answerRetired (s0 : State) (c : Command) : State :=
  let s := if (findOutcome s0 (cmdKey c)).isSome then s0 else settleNew s0 c .keyRetired
  let s1 := modQueue s c.desc.queue fun q => { q with count := q.count + 1 }
  replyUnder s1 (some c.keygen) c .completion
    (completionMsg c.desc { status := .keyRetired } (replySeq s1 c.desc) (epochOf s1) (lowBits 32 (queueOf s1 c.desc.queue).count))

/-- Answers a command with a COMPLETION without counting it (R305: DUP answers). -/
def answerDup (s : State) (c : Command) : State :=
  sendReply s c .completion
    (completionMsg c.desc { status := .dup } (replySeq s c.desc) (epochOf s) (lowBits 32 (queueOf s c.desc.queue).count))

/-- Answers a command with a COMPLETION and counts it in its queue (R300, R305). -/
def answerOne (s : State) (c : Command) (r : Reply) : State :=
  let s1 := modQueue s c.desc.queue fun q => { q with count := q.count + 1 }
  sendReply s1 c .completion
    (completionMsg c.desc r (replySeq s1 c.desc) (epochOf s1) (lowBits 32 (queueOf s1 c.desc.queue).count))

/-- The incarnation that the installed map gives this node; 0 before the first map. -/
def incarnationOf (s : State) : Nat := match s.comp.map with
  | none => 0
  | some m => ((nodeEntry m m.node).map fun e => e.incarnation).getD 0

/-- Takes a command out of the admitted ones. -/
def dropLive (s : State) (k : CmdKey) : State :=
  { s with exec := { s.exec with live := s.exec.live.filter fun l => cmdKey l.cmd != k } }

def liveOf (s : State) (k : CmdKey) : Option Live := s.exec.live.find? fun l => cmdKey l.cmd == k

def modLive (s : State) (k : CmdKey) (f : Live → Live) : State :=
  { s with exec := { s.exec with live := s.exec.live.map fun l => if cmdKey l.cmd = k then f l else l } }

/-- A replica holds a chained command that lacks frames or time (R337): it keeps its place among the admitted commands, so
later chained commands of the sequence stay behind it, and begins anew at its retry. -/
def holdChain (s : State) (c : Command) : State :=
  let s1 := modLive s (cmdKey c) fun l => { l with begun := false, append := {} }
  let rest := s1.comp.heldChains.filter fun h => cmdKey h.cmd != cmdKey c
  { s1 with comp := { s1.comp with heldChains := rest ++ [{ cmd := c, since := now s }] } }

/-- The status of a CHAIN_ACK to a predecessor: STALE_MAP once the installed map no longer places it directly before this
node (R336, R338). -/
def ackStatus (s : State) (c : Command) (p : Nat) (st : Status) : Status :=
  let repl := match seqOf s c.desc.seq.id with
    | some x => x.handle.repl
    | none => c.desc.seq.repl
  match s.comp.map with
  | none => .staleMap
  | some m => if precedes m c.desc.seq.id repl p then st else .staleMap

/-- A command reaches its outcome: it leaves the admitted commands, its outcome is logged, and it is answered: a COMPLETION
to its source, or a CHAIN_ACK to its predecessor (R300, R335). INTERNAL is recorded (R8). A replica never refuses a chained
command for want of frames or time (R337). -/
def completeOne (s : State) (c : Command) (r : Reply) : State :=
  if c.chainedFrom.isSome && (r.status == .noPage || r.status == .busyRetry) then holdChain s c
  else
  let s0 := dropLive s (cmdKey c)
  let s1 := if r.status = .internal then noteInternal s0 c.desc.opcode c.src.num c.desc.reqId 0 0 0 else s0
  let s2 := settle s1 c r.status
  match c.chainedFrom with
  | some p => sendControl s2 (.node p) (chainAckMsg c.src.num (epochOf s2) c.desc.reqId (ackStatus s2 c p r.status))
  | none => answerOne s2 c r

/-- The first queue whose QWAIT has what it waits for (R310). -/
def readyQwait (s : State) : Option (Nat × Qwait) :=
  s.queues.findSome? fun e => match e.2.blocked with
    | some b => if b.count ≤ (queueOf s b.waitQueue).count then some (e.1, b) else none
    | none => none

/-- Completes one QWAIT that has what it waits for; its queue resumes (R310). -/
def releaseQwait (s : State) : State :=
  match readyQwait s with
  | none => s
  | some (q, b) => completeOne (modQueue s q fun x => { x with blocked := none }) b.cmd { status := .ok }

/-- Completes every QWAIT that has what it waits for; each completion may release another. -/
def releaseQwaits (s : State) : State := iter releaseQwait s.queues.length s

/-- Answers a command, and completes the QWAITs whose count this reaches. -/
def answer (s : State) (c : Command) (r : Reply) : State := releaseQwaits (answerOne s c r)

/-- Completes a command, and the QWAITs whose count this reaches. -/
def complete (s : State) (c : Command) (r : Reply) : State := releaseQwaits (completeOne s c r)

/-! ### Chains (R334, R335) -/

/-- Whether a command is forwarded along the chain (R334). -/
def isForwarded : Body → Bool
  | .append _ _ _ _ _ => true
  | .fork _ _ => true
  | .trim _ _ _ => true
  | .evict => true
  | .park => true
  | .wake => true
  | .frameWrite _ _ _ _ _ _ => true
  | _ => false

/-- Sends a CHAIN to a successor under an epoch (R335). It concerns a sequence, so it takes that sequence's class (R360). -/
def sendChain (s : State) (c : Command) (node epoch : Nat) : State :=
  let kg := ((tenantOf s c.desc.seq.tenant).keygen).getD c.keygen
  sendMsg s (sysKey (.node node)) .chain (seqClass s c.desc.seq.id) none
    (chainMsg c.src.num kg (c.chainHop + 1) epoch c.desc.reqId (encodeDesc c.desc) c.payload)

/-- The legs of a command: its successors in the map, and the joiners whose copy of its sequence is past its copy point; a
joiner that is copying it now gets the command after its COPY END (R339). -/
def chainLegs (s : State) (c : Command) (repl : Nat) : List ChainLeg :=
  match s.comp.map with
  | none => []
  | some m =>
    let q := c.desc.seq.id
    let leg := fun (n i : Nat) (now? : Option Nat) => ({ node := n, cell := i, sentAt := now?, epoch := m.epoch } : ChainLeg)
    let mapped := (successors m q repl c.chainedFrom).map fun e => leg e.1 e.2 (some (now s))
    let joins := s.comp.copies.filterMap fun cp =>
      if cp.layout == layoutNo m q && !cp.wake && !cp.todo.contains q then
        some (leg cp.joiner cp.cell (if cp.current == some q then none else some (now s)))
      else none
    mapped ++ joins

/-- A command has been executed here (R335): it completes, or first passes its chain. -/
def finish (s : State) (c : Command) (repl : Nat) (r : Reply) : State :=
  let legs := if isForwarded c.desc.body then chainLegs s c repl else []
  if legs.isEmpty then complete s c r
  else
    let s1 := modLive s (cmdKey c) fun l => { l with executed := true }
    let s2 := { s1 with comp := { s1.comp with
      waits := s1.comp.waits ++ [{ key := cmdKey c, cmd := c, status := r.status, legs := legs }] } }
    foldState (fun s l => if l.sentAt.isSome then sendChain s c l.node l.epoch else s) s2 legs

end Sys2Proof.Machine
end

