-- ==== Sys2Proof/Machine/Fence.lean ====
section
/-!
DEFINITION. Machine/Fence.lean: the fence (R22, R41, R328 to R330, R359, R467, R482) as one operation, and its end.
-/

namespace Sys2Proof.Machine

/-- The commands that a die's admission queues hold. -/
def admCommands (d : AdmDie) : List Command := d.queues.flatMap fun e => e.2.items.map fun i => i.cmd

/-- Every command that has not been admitted: in command queues and in admission queues (R330). -/
def waitingCommands (s : State) : List Command :=
  (s.queues.flatMap fun e => e.2.waiting) ++ admCommands s.sched.w ++ admCommands s.sched.e

/-- A die's admission queues emptied. -/
def clearAdm (d : AdmDie) : AdmDie :=
  { d with queues := d.queues.map fun e => (e.1, { e.2 with items := [], deficit := 0 }), active := [], turn := [] }

/-- Takes every waiting command out of its queue. -/
def clearWaiting (s : State) : State :=
  { s with queues := s.queues.map fun e => (e.1, { e.2 with waiting := [] }),
           sched := { s.sched with w := clearAdm s.sched.w, e := clearAdm s.sched.e } }

/-- Answers a command that was not admitted, whose outcome log entry is another copy's if there is one (R131), or drops it if
it is chained. -/
def turnAway (st : Status) (s : State) (c : Command) : State :=
  if c.chainedFrom.isSome then s else answer s c { status := st }

/-- The causes whose fence ends only by reset (R330, R467, R482). -/
def hardCause (cause : Nat) : Bool := cause == 1 || cause == 2 || cause == 3 || cause == 7

/-- The chained commands that a replica holds and has not yet executed are discarded, with their entries in the outcome log
(R330, R349). -/
def discardChained (s : State) : State :=
  let gone := (s.exec.live.filter fun l => l.cmd.chainedFrom.isSome && !l.executed && !l.begun).map fun l => l.cmd
  let s1 := foldState (fun s c => dropOutcome (dropLive s (cmdKey c)) (cmdKey c)) s gone
  { s1 with comp := { s1.comp with heldChains := [], chainStore := [] } }

/-- The node fences itself (R330, R359, R482): the FENCE record and source 59, FENCED for every command not admitted and for
every Ledger request that still waits (R422), and the held chained commands discarded (R349). A node that is fenced already
keeps its fence, which a harder cause replaces. -/
def fenceNode (s : State) (cause source : Nat) : State :=
  if s.fault.fenced && !(hardCause cause && !s.fault.hard) then s
  else
    let s1 := { s with fault := { s.fault with fenced := true, cause := cause, hard := hardCause cause,
                                               fenceInc := incarnationOf s } }
    let s2 := caskNote s1 0x15 (le 1 cause ++ le 1 source ++ le 2 0 ++ le 4 (epochOf s1))
    let s3 := setLevel s2 59 true
    let ws := waitingCommands s3
    let s4 := foldState (turnAway .fenced) (clearWaiting s3) ws
    let lw := s4.ledger.waits.map fun w => w.cmd
    let s5 := foldState (fun s c => complete s c { status := .fenced }) { s4 with ledger := { s4.ledger with waits := [] } } lw
    discardChained s5

/-- A fence ends (R330, R471): source 59 falls. -/
def endFence (s : State) : State :=
  setLevel { s with fault := { s.fault with fenced := false, cause := 0, hard := false } } 59 false

end Sys2Proof.Machine
end

