-- ==== Sys2Proof/Machine/Operands.lean ====
section
/-!
DEFINITION. Machine/Operands.lean: what a command's operands mean and what the node checks of them before any effect: the
storage and operand formats (R50 to R52, R91), the payload lengths (R90), the map epoch (R327), the role of the node (R324,
R331), the sequence's state (R84), the handle (R60), and the order of the commands of a sequence (R128, R129).
-/

namespace Sys2Proof.Machine

/-! ### Formats (R50 to R52, R91) -/

/-- Bits of one element of a storage or operand format; 0 for a reserved value (R52). -/
def elemBits (f : Nat) : Nat :=
  match f with
  | 0x01 => 8 | 0x02 => 8 | 0x10 => 8 | 0x11 => 8 | 0x12 => 6 | 0x13 => 6 | 0x14 => 4 | 0x15 => 8 | 0x20 => 8
  | 0x30 => 16 | 0x31 => 16 | _ => 0

/-- Whether a storage format is encoded by R52. -/
def formatKnown (f : Nat) : Bool := elemBits f != 0

/-- A Microscaling format. -/
def isMx (f : Nat) : Bool := decide (0x10 ≤ f) && decide (f ≤ 0x15)

/-- Bytes of one token slot's K or V (R51). -/
def rowBytes (f headDim : Nat) : Nat := headDim * elemBits f / 8

/-- Tokens per page (R50): the largest power of two that does not exceed 16,384 / (2 × head_dim × bytes per element). -/
def tokensPerPage (f headDim : Nat) : Nat := 2 ^ (16384 / (2 * rowBytes f headDim)).log2

/-- Bytes of the scales of one token's K or V (R53, R120): one E8M0 byte per 32 elements, or one FP16 scale. -/
def scaleBytes (f headDim : Nat) : Nat := if isMx f then headDim / 32 else if f = 0x20 then 2 else 0

/-- Leaves per tensor (R62). -/
def leafCount (base limit p : Nat) : Nat := ceilDiv (limit - base) (256 * p)

/-- Whether R91 allows a query format with a storage format. -/
def queryAllowed (storage qfmt : Nat) : Bool :=
  queryFormat qfmt && (qfmt == 0x30 || qfmt == 0x31 || !(storage == 0x30 || storage == 0x31))

def padTo64 (n : Nat) : Nat := ceilDiv n 64 * 64

/-- Bytes of one tensor block of an APPEND's payload (R120). -/
def appendBlock (f headDim ntok : Nat) : Nat := padTo64 (ntok * 2 * (rowBytes f headDim + scaleBytes f headDim))

/-! ### Shapes named by a command -/

/-- The number of tensors that a tensor block names. -/
def tbTensors (t : TensorBlock) : Nat := (t.layerLast + 1 - t.layerFirst) * t.headCount

/-- The (layer, head) pairs of a tensor block in payload order (R120). -/
def tbPairs (t : TensorBlock) : List (Nat × Nat) :=
  (rangeFrom t.layerFirst (t.layerLast + 1)).flatMap fun l =>
    (rangeFrom t.headFirst (t.headFirst + t.headCount)).map fun h => (l, h)

/-- The KV heads that a command names, if it names any: first and count (R324). -/
def namedHeads : Body → Option (Nat × Nat)
  | .append tb _ _ _ _ => some (tb.headFirst, tb.headCount)
  | .trim tb _ _ => some (tb.headFirst, tb.headCount)
  | .hint tb _ _ _ => some (tb.headFirst, tb.headCount)
  | .skimRefresh tb _ _ => some (tb.headFirst, tb.headCount)
  | .attnFwd a => some (a.headFirst, a.headCount)
  | .attnBwd a _ _ => some (a.headFirst, a.headCount)
  | .gradDrain _ _ _ hf hc _ _ _ => some (hf, hc)
  | .frameWrite _ head _ _ _ _ => some (head, 1)
  | _ => none

/-- The first position that a command with named heads names (R324, R322). -/
def namedStart : Body → Nat
  | .append _ _ _ _ pos => pos
  | .trim _ start _ => start
  | .hint _ _ start _ => start
  | .skimRefresh _ start _ => start
  | .attnFwd a => a.kvStart
  | .attnBwd a _ _ => a.kvStart
  | .gradDrain _ _ _ _ _ _ ks _ => ks
  | .frameWrite _ _ _ _ _ pos => pos
  | _ => 0

/-- Whether the node checks ownership of a command's sequence (R324): every command of a sequence but MERGE and
PREFIX_INSERT. -/
def ownershipChecked : Body → Bool
  | .fork _ _ => true
  | .park => true
  | .wake => true
  | .evict => true
  | b => (namedHeads b).isSome

/-- The attention commands of R84. -/
def isAttention : Body → Bool
  | .attnFwd _ => true
  | .attnBwd _ _ _ => true
  | .gradDrain _ _ _ _ _ _ _ _ => true
  | .skimRefresh _ _ _ => true
  | _ => false

/-- The commands that R84 judges as an APPEND, FORK, TRIM or attention command. -/
def needsActive : Body → Bool
  | .append _ _ _ _ _ => true
  | .fork _ _ => true
  | .trim _ _ _ => true
  | .frameWrite _ _ _ _ _ _ => true
  | b => isAttention b

/-- Payload bytes of the query part of ATTN_FWD (R95). -/
def attnRows (a : AttnDesc) : Nat := a.qtok * a.group * a.headCount

def biasBytes (a : AttnDesc) : Nat :=
  if a.bias = 1 then a.headCount * a.group * 4 else if a.bias = 2 then a.qtok * (a.kvEnd - a.kvStart) * 2 else 0

/-- The payload length that the fields imply (R90), where it does not depend on a sequence the node lacks. `x` is the
sequence in SEQ. -/
def payloadImplied (x : Option Seq) (payload : List Byte) : Body → Option Nat
  | .append tb create ntok _ _ =>
    let lead := if create then 640 else 0
    match x with
    | some x => some (lead + tbTensors tb * appendBlock x.format x.headDim ntok)
    | none => if create then some (lead + tbTensors tb * appendBlock (fieldLe payload 0 1) (fieldLe payload 2 2) ntok) else none
  | .attnFwd a => x.map fun x => attnRows a * rowBytes a.qfmt x.headDim + biasBytes a
  | .attnBwd a dofmt _ =>
    x.map fun x => attnRows a * (rowBytes a.qfmt x.headDim + rowBytes dofmt x.headDim + 8) + biasBytes a
  | .prefixSearch _ _ count _ _ _ => some (16 * count)
  | .prefixInsert count => some (24 * count)
  | .prefixDelete _ count => some (16 * count)
  | .frameWrite _ _ _ _ length _ => some length
  | .guestPut _ _ _ _ => none
  | .ledgerWrite _ _ count _ => some (72 * count)
  | .ledgerPublish _ _ => none
  | _ => some 0

/-- Whether a tensor block lies within a sequence's shape (R49). -/
def tbInShape (x : Seq) (t : TensorBlock) : Bool :=
  decide (t.layerLast < x.layers) && decide (t.headFirst + t.headCount ≤ x.kvHeads)

/-- Whether a range of positions lies within a sequence's shape (R49): it starts below MAX_TOKENS and ends at most there. -/
def rangeInShape (x : Seq) (start limit : Nat) : Bool := decide (start < x.maxTokens) && decide (limit ≤ x.maxTokens)

/-- The ranges that the shape of the sequence gives (R49, R94). -/
def inShape (x : Seq) : Body → Bool
  | .append tb _ ntok format pos => tbInShape x tb && format == x.format && decide (pos + ntok ≤ x.maxTokens)
  | .trim tb start limit => tbInShape x tb && rangeInShape x start limit
  | .hint tb _ start limit => tbInShape x tb && rangeInShape x start limit
  | .skimRefresh tb start limit => tbInShape x tb && rangeInShape x start limit
  | .attnFwd a => decide (a.layer < x.layers) && decide (a.headFirst + a.headCount ≤ x.kvHeads)
      && decide (a.kvEnd ≤ x.maxTokens) && queryAllowed x.format a.qfmt
  | .attnBwd a _ _ => decide (a.layer < x.layers) && decide (a.headFirst + a.headCount ≤ x.kvHeads)
      && decide (a.kvEnd ≤ x.maxTokens) && x.handle.training
  | .gradDrain _ _ layer hf hc _ _ ke => decide (layer < x.layers) && decide (hf + hc ≤ x.kvHeads) && decide (ke ≤ x.maxTokens)
  | .frameWrite layer head _ _ _ pos => decide (layer < x.layers) && decide (head < x.kvHeads) && decide (pos < x.maxTokens)
  | _ => true

/-- Whether the position of a FORK lies within its parent's shape (R49): the fork point is at most MAX_TOKENS. -/
def parentInShape (s : State) : Body → Bool
  | .fork p pos => match seqOf s p.id with
    | some x => decide (pos ≤ x.maxTokens)
    | none => true
  | _ => true

/-- Whether a v1 APPEND meets a format that the v1 command set knows (R135): FP8_E4M3 or BF16. -/
def v1Format (x : Seq) (d : Desc) : Bool :=
  match d.v1, d.body with
  | true, .append _ _ _ _ _ => x.format == 0x01 || x.format == 0x30
  | _, _ => true

/-- What a descriptor says of the sequence that it names (R49, R90, R94, R135): the shape, the length of the payload. -/
def fitsSeq (x : Seq) (c : Command) : Bool :=
  inShape x c.desc.body && v1Format x c.desc && (match payloadImplied (some x) c.payload c.desc.body with
    | some n => c.payload.length == n
    | none => true)

/-- What R90 checks of a descriptor, and R299 of its tenant, once the checks before REFUSED_FIT have passed. -/
def descFits (s : State) (c : Command) : Bool :=
  let d := c.desc
  let x := if d.seqZero then none else seqOf s d.seq.id
  d.accepted && c.payload.length == d.payloadLen
    && (match x with
        | some x => fitsSeq x c
        | none => match payloadImplied none c.payload d.body with
          | some n => d.payloadLen == n
          | none => true)
    && parentInShape s d.body && (c.sys || d.seqZero || d.seq.tenant == c.tenant)

/-! ### Epoch, role and state -/

/-- The replication factor of a command's sequence: the stored one, else the handle's (R48). -/
def replOf (s : State) (d : Desc) : Nat :=
  match seqOf s d.seq.id with
  | some x => x.handle.repl
  | none => d.seq.repl

/-- The role of this node for a command, by the installed map (R324). -/
def roleOf (s : State) (d : Desc) : Role :=
  match s.comp.map with
  | none => .notOwner 0
  | some m =>
    match namedHeads d.body with
    | some (hf, hc) => roleHeads m d.seq.id hf hc (namedStart d.body)
    | none => roleWhole m d.seq.id

/-- NODE0 of the cell by which a command is judged. -/
def roleOwner (s : State) : Role → Nat
  | .owner => nodeId s
  | .replica o => o
  | .notOwner o => o

/-- The page handle that a command names. -/
def namedHandle : Body → Option PageHandle
  | .frameRead h _ _ _ => some h
  | .frameWrite _ _ h _ _ _ => some h
  | _ => none

/-- NODE0 of the cell of a frame, by its side block (R331; log entry 38). -/
def frameOwner (s : State) (lpn : Nat) : Option Nat :=
  s.comp.map.map fun m => ownerAt m (sSeq s lpn).id (sKvHead s lpn) (sFirstPos s lpn)

/-- The owner hint (R331). -/
def ownerHint (s : State) (d : Desc) : Option Nat :=
  if ownershipChecked d.body then some (roleOwner s (roleOf s d))
  else match namedHandle d.body with
    | some h => if h.node ≠ nodeId s then some h.node else if (frameOf s h.lpn).state == .stub then frameOwner s h.lpn else none
    | none => none

/-- The ALT of the STUB frame that a command names by handle (R331); zero when there is none. -/
def stubAlt (s : State) (d : Desc) : Nat :=
  match namedHandle d.body with
  | some h => if h.node = nodeId s ∧ (frameOf s h.lpn).gen = h.gen ∧ (frameOf s h.lpn).state = .stub then
      ((frameOf s h.lpn).fwd.map PageHandle.num).getD 0 else 0
  | none => 0

/-- The verdict on a command's epoch (R327): none when it is accepted. -/
def judgeEpoch (s : State) (d : Desc) : Option Reply :=
  let e := epochOf s
  if d.epoch = e ∨ s.comp.oldEpoch = some d.epoch then none
  else if e < d.epoch then some { status := .busyRetry }
  else some { status := .staleMap, owner := ownerHint s d }

/-- Whether a command is routed by the older epoch of a running grace window. -/
def byOldEpoch (s : State) (d : Desc) : Bool := d.epoch != epochOf s && s.comp.oldEpoch == some d.epoch

/-- The verdict on ownership (R324, R332): a replica serves ATTN_FWD with REPLICA_OK; an ATTN_FWD routed by the older epoch
is served from the STUB frames that the node still holds. -/
def judgeOwner (s : State) (d : Desc) : Option Reply :=
  if !ownershipChecked d.body then none
  else
    let fwd := match d.body with
      | .attnFwd _ => true
      | _ => false
    match roleOf s d with
    | .owner => none
    | .replica o => if fwd && d.replicaOk then none
      else some { status := .notOwner, owner := some o, value := stubAlt s d }
    | .notOwner o =>
      if fwd && byOldEpoch s d && (seqOf s d.seq.id).isSome then none
      else some { status := .notOwner, owner := some o, value := stubAlt s d }

/-- The NO_STATE verdicts of R84, made where the node is the owner or holds the sequence, and that of R382 for a
PREFIX_INSERT. A v1 command to an ABSENT sequence has NO_STATE whatever it is (R135). -/
def judgeState (s : State) (d : Desc) : Option Reply :=
  let no : Option Reply := some { status := .noState }
  match d.body with
  | .prefixInsert _ => match seqOf s d.seq.id with
    | none => no
    | some x => if x.state == .evicting then no else none
  | _ =>
    if !ownershipChecked d.body then none
    else match seqOf s d.seq.id, d.body with
      | none, .append _ create _ _ _ => if create && !d.v1 then none else no
      | none, .fork _ _ => none
      | none, .evict => if d.v1 then no else none
      | none, .hint _ _ _ _ => none
      | none, _ => no
      | some x, b =>
        if x.state == .evicting && (needsActive b || b == .park || b == .wake) then no else none

/-! ### Not local (R66, R94, R119, R121) -/

/-- The owner of the cell of (head, position) in the installed map. -/
def ownerHere (s : State) (q : SeqId) (head pos : Nat) : Option Nat := s.comp.map.map fun m => ownerAt m q head pos

/-- The first head or position of a range that is valid for the sequence but not local, as its owner (R66, R94). Where KV_END
passes TOKEN_LIMIT the hint is the owner of position TOKEN_LIMIT, as R121 has it for an APPEND (DESIGN CHOICE, log entry 89). -/
def notLocalOwner (s : State) (x : Seq) (q : SeqId) (hf hc ks ke : Nat) : Option (Option Nat) :=
  match (rangeFrom hf (min (hf + hc) x.kvHeads)).find? fun h => (headRank x h).isNone with
  | some h => some (ownerHere s q h ks)
  | none =>
    if ks < x.tokenBase then some (ownerHere s q hf ks)
    else if x.tokenLimit < min ke x.maxTokens then some (ownerHere s q hf x.tokenLimit)
    else none

/-- What a create block declares (R119). -/
def blockSeq (h : SeqHandle) (b : List Byte) : Seq :=
  let f := fieldLe b 0 1
  let hd := fieldLe b 2 2
  let base := fieldLe b 0x0C 4
  let limit := fieldLe b 0x10 4
  let p := tokensPerPage f hd
  { handle := h, format := f, headDim := hd, layers := fieldLe b 4 2, kvHeads := fieldLe b 6 2, maxTokens := fieldLe b 8 4,
    tokenBase := base, tokenLimit := limit, localHeads := headsOf (fieldLe b 0x20 16), p := p, leaves := leafCount base limit p,
    codec := slice b 0x80 512 }

/-- This node's assignment for a sequence (R323): heads, base and limit. -/
def assignment (s : State) (q : SeqId) (x : Seq) : Option (List Nat × Nat × Nat) :=
  s.comp.map.bind fun m =>
    let l := layoutOf m q
    (localRange l m.node x.maxTokens).map fun r => (assignedHeads l m.node x.kvHeads, r.1, r.2)

/-- A sequence with its local range set. -/
def placeSeq (x : Seq) (a : List Nat × Nat × Nat) : Seq :=
  { x with localHeads := a.1, tokenBase := a.2.1, tokenLimit := a.2.2, leaves := leafCount a.2.1 a.2.2 x.p }

/-- The assignment under which a create block makes its sequence here; none where the map gives this node no part of it, or
where a source's block differs from the map's assignment (R119, R323). A chained creation takes the assignment. -/
def createPlace (s : State) (c : Command) : Option (List Nat × Nat × Nat) :=
  let x := blockSeq c.desc.seq c.payload
  (assignment s c.desc.seq.id x).bind fun a =>
    if c.chainedFrom.isSome || (x.localHeads == a.1 && x.tokenBase == a.2.1 && x.tokenLimit == a.2.2) then some a else none

/-- The NOT_OWNER of an APPEND to a sequence (R66, R121). -/
def appendNotLocal (s : State) (x : Seq) (q : SeqId) (tb : TensorBlock) (ntok pos : Nat) : Option Reply :=
  if (rangeFrom tb.headFirst (min (tb.headFirst + tb.headCount) x.kvHeads)).any fun h => (headRank x h).isNone then
    some { status := .notOwner, owner := ownerHere s q tb.headFirst pos }
  else if x.tokenLimit < pos + ntok && x.tokenLimit < x.maxTokens then
    some { status := .notOwner, owner := ownerHere s q tb.headFirst x.tokenLimit }
  else none

/-- The walker's *not local* outcome for a command (R66), and that of R119 for a creation. -/
def judgeLocal (s : State) (c : Command) : Option Reply :=
  let q := c.desc.seq.id
  let far := fun (x : Seq) (hf hc ks ke : Nat) =>
    (notLocalOwner s x q hf hc ks ke).map fun o => ({ status := .notOwner, owner := o } : Reply)
  match seqOf s q, c.desc.body with
  | none, .append tb true ntok _ pos =>
    if c.payload.length < 640 then none
    else match createPlace s c with
      | none => some { status := .notOwner, owner := ownerHint s c.desc }
      | some a => appendNotLocal s (placeSeq (blockSeq c.desc.seq c.payload) a) q tb ntok pos
  | some x, .append tb _ ntok _ pos => appendNotLocal s x q tb ntok pos
  | some x, .attnFwd a => far x a.headFirst a.headCount a.kvStart a.kvEnd
  | some x, .attnBwd a _ _ => far x a.headFirst a.headCount a.kvStart a.kvEnd
  | some x, .gradDrain _ _ _ hf hc _ ks ke => far x hf hc ks ke
  | some x, .trim tb start _ =>
    if (rangeFrom tb.headFirst (min (tb.headFirst + tb.headCount) x.kvHeads)).any fun h => (headRank x h).isNone then
      some { status := .notOwner, owner := ownerHere s q tb.headFirst start }
    else none
  | _, _ => none

/-- The FORK's parent is judged as R84 judges a parent. -/
def judgeParent (s : State) (d : Desc) : Option Reply :=
  match d.body with
  | .fork p _ =>
    match seqOf s p.id with
    | none => some { status := .noState }
    | some x => if x.state == .evicting then some { status := .noState } else none
  | _ => none

/-- The verdict on the handle that FRAME_READ names (R60, R307, R331): a STUB frame is read only under the older epoch; and on
that of a FRAME_WRITE from a source, which must be the one that the node's own walk finds (R308). -/
def judgeHandle (s : State) (c : Command) : Option Reply :=
  match c.desc.body with
  | .frameRead h _ _ _ =>
    match checkHandle s h with
    | .ok =>
      let f := frameOf s h.lpn
      let fromNode := c.sys && match c.src with
        | .node _ => true
        | .adapter _ => false
      if !fromNode && (sSeq s h.lpn).tenant != c.tenant then some { status := .staleGen }
      else if f.state == .stub && !byOldEpoch s c.desc then
        some { status := .notOwner, owner := ownerHint s c.desc, value := stubAlt s c.desc }
      else none
    | .notOwner => some { status := .notOwner, owner := some h.node }
    | st => some { status := st }
  | .frameWrite layer head h _ _ pos =>
    if c.chainedFrom.isSome then none
    else if h.node ≠ nodeId s then some { status := .notOwner, owner := some h.node }
    else match seqOf s c.desc.seq.id with
      | none => none
      | some x =>
        if !inShape x c.desc.body then none
        else match walk s x layer head pos with
          | .notLocal => some { status := .notOwner, owner := ownerHere s c.desc.seq.id head pos }
          | .noContent => some { status := .staleGen }
          | .hit _ _ g => if g.lpn = h.lpn ∧ g.gen = h.gen then none else some { status := .staleGen }
  | _ => none

/-- The first verdict of a list. -/
def firstVerdict : List (Option Reply) → Option Reply
  | [] => none
  | some r :: _ => some r
  | none :: l => firstVerdict l

/-- The checks of R11 from the map epoch to the handle, which R304 makes at arrival and again at admission. -/
def judge (s : State) (c : Command) : Option Reply :=
  firstVerdict [judgeEpoch s c.desc, judgeOwner s c.desc, judgeState s c.desc, judgeParent s c.desc, judgeLocal s c,
    judgeHandle s c]

/-! ### Order (R128, R129) -/

/-- The admitted commands that were admitted before the one with key `k`. -/
def earlier (s : State) (k : CmdKey) : List Live := s.exec.live.takeWhile fun l => cmdKey l.cmd != k

/-- Whether a command is admitted in a running node, has not been executed here, and is not held (R337). -/
def isLive (s : State) (c : Command) : Bool :=
  s.running && (s.exec.live.any fun l => l.cmd == c && !l.executed) && s.comp.heldChains.all fun h => cmdKey h.cmd != cmdKey c

/-- Whether every earlier modifying command of a sequence has been executed (R128). -/
def turnFor (s : State) (k : CmdKey) (q : SeqId) : Bool :=
  (earlier s k).all fun l => l.executed || !modifies l.cmd q

/-- Whether a command may run now (R128, R129): a modifying command after every earlier modifying command of its sequences,
a read command after the earlier modifying commands of its own queue have completed. -/
def mayRun (s : State) (c : Command) : Bool :=
  let k := cmdKey c
  let q := c.desc.seq.id
  if isModifying c.desc.body then
    turnFor s k q && match c.desc.body with
      | .fork p _ => turnFor s k p.id
      | _ => true
  else if isRead c.desc.body then
    (earlier s k).all fun l => !(modifies l.cmd q && l.cmd.desc.queue == c.desc.queue && l.cmd.chainedFrom.isNone)
  else true

/-- Runs `f` on a command that is admitted and may run; otherwise nothing happens (log entry 1). -/
def whenReady (s : State) (c : Command) (f : Unit → State) : State := if isLive s c && mayRun s c then f () else s

end Sys2Proof.Machine
end

