-- ==== Sys2Proof/Machine/Elements.lean ====
section
/-!
DEFINITION. Machine/Elements.lean: stored elements of a page (R51 to R53): where a token's K or V lies, what its elements
decode to, its scales, the Skim bounds (R161 to R163), and writing a token slot from an APPEND's payload (R120).
-/

namespace Sys2Proof.Machine

/-- The value of a stored element code of a format, before its scale (R52). -/
def elemVal (f x : Nat) : FVal :=
  match f with
  | 0x01 => ofE4m3 x | 0x02 => ofE5m2 x | 0x10 => ofE4m3 x | 0x11 => ofE5m2 x | 0x12 => ofE3m2 x | 0x13 => ofE2m3 x
  | 0x14 => ofE2m1 x
  | 0x15 => fmul (ofInt8 x) (.fin false 1 (-6))
  | 0x20 => ofInt8 x
  | 0x30 => ofBf16 x | 0x31 => ofF16 x | _ => .nan

/-- The code of element `d` of a row of elements of `bits` bits, packed with the lower dimension in the lower bits (R51). -/
def codeAt (bits : Nat) (row : List Byte) (d : Nat) : Nat :=
  let w := fieldLe row (d * bits / 8) 2
  (w / 2 ^ (d * bits % 8)) % 2 ^ bits

/-- The element codes of a row of `n` elements. -/
def rowCodes (f n : Nat) (row : List Byte) : List Nat := (List.range n).map (codeAt (elemBits f) row)

/-- The element values of a row, before scales. -/
def rowElems (f n : Nat) (row : List Byte) : List FVal := (rowCodes f n row).map (elemVal f)

/-- The offset of token slot i's K or V (R51). -/
def rowOffset (f headDim i : Nat) (isV : Bool) : Nat := (if isV then 8192 else 0) + i * rowBytes f headDim

/-- The offset of token slot i's K or V scales (R53). -/
def scaleOffset (f headDim p i : Nat) (isV : Bool) : Nat :=
  sideBase + 0x80 + ((if isV then p else 0) + i) * scaleBytes f headDim

/-- The stored bytes of token slot i's K or V. -/
def storedRow (s : State) (lpn f headDim i : Nat) (isV : Bool) : List Byte :=
  imgBytes s lpn (rowOffset f headDim i isV) (rowBytes f headDim)

/-- The stored scale bytes of token slot i's K or V. -/
def storedScales (s : State) (lpn f headDim p i : Nat) (isV : Bool) : List Byte :=
  imgBytes s lpn (scaleOffset f headDim p i isV) (scaleBytes f headDim)

/-- The scale of dimension d: one E8M0 scale per 32 elements, one FP16 scale per token, or none (R52). -/
def scaleAt (f : Nat) (scales : List Byte) (d : Nat) : FVal :=
  if isMx f then ofE8m0 (scales.getD (d / 32) 0).toNat
  else if f = 0x20 then ofF16 (fieldLe scales 0 2)
  else .fin false 1 0

/-- The decoded values of a row: element times scale (R162). -/
def decodeRow (f n : Nat) (row scales : List Byte) : List FVal :=
  (List.range n).map fun d => fmul (elemVal f (codeAt (elemBits f) row d)) (scaleAt f scales d)

/-! ### Skim bounds (R161, R162) -/

def skimMin (s : State) (lpn d : Nat) : FVal := ofE5m2 (imgLe s lpn (sideBase + 0x480 + d) 1)
def skimMax (s : State) (lpn d : Nat) : FVal := ofE5m2 (imgLe s lpn (sideBase + 0x580 + d) 1)

/-- The smaller of two bounds, neither of which is NaN. -/
def boundMin (a b : FVal) : FVal := if flt b a then b else a

/-- The bound of a set of values of one dimension as an E5M2 code; a NaN element gives an infinite bound. -/
def boundCode (isMax : Bool) (vs : List FVal) : Nat :=
  if vs.contains .nan then (if isMax then 0x7C else 0xFC)
  else match vs with
    | [] => 0
    | v :: rest => toE5m2Out isMax (rest.foldl (fun a b => if isMax then (if flt a b then b else a) else boundMin a b) v)

/-- The SKIM bytes that cover the given decoded K rows, widening the bounds `old` where they are given. -/
def skimBytes (headDim : Nat) (rows : List (List FVal)) (old : Option (List FVal × List FVal)) : List Byte × List Byte :=
  let col := fun (d : Nat) => rows.map fun r => r.getD d fzero
  let with_ := fun (isMax : Bool) (d : Nat) => match old with
    | none => boundCode isMax (col d)
    | some (lo, hi) => boundCode isMax (((if isMax then hi else lo).getD d fzero) :: col d)
  ((List.range headDim).map fun d => BitVec.ofNat 8 (with_ false d),
   (List.range headDim).map fun d => BitVec.ofNat 8 (with_ true d))

/-- The decoded K rows of token slots [lo, hi) of a frame. -/
def decodedK (s : State) (lpn f headDim p lo hi : Nat) : List (List FVal) :=
  (rangeFrom lo hi).map fun i => decodeRow f headDim (storedRow s lpn f headDim i false) (storedScales s lpn f headDim p i false)

/-- Writes SKIM bounds that cover token slots [lo, hi), as new bounds or widening the old ones (R162, R163). -/
def writeSkim (s : State) (lpn f headDim p lo hi : Nat) (widen : Bool) : State :=
  let old := if widen then
      some ((List.range headDim).map (skimMin s lpn), (List.range headDim).map (skimMax s lpn))
    else none
  let (mn, mx) := skimBytes headDim (decodedK s lpn f headDim p lo hi) old
  imgWrite (imgWrite s lpn (sideBase + 0x480) mn) lpn (sideBase + 0x580) mx

/-! ### Token slots -/

/-- The K or V bytes of position j of a tensor block of an APPEND's payload, and its scales (R120). -/
def blockRow (f headDim ntok : Nat) (blk : List Byte) (j : Nat) (isV : Bool) : List Byte :=
  slice blk ((if isV then ntok * rowBytes f headDim else 0) + j * rowBytes f headDim) (rowBytes f headDim)

def blockScales (f headDim ntok : Nat) (blk : List Byte) (j : Nat) (isV : Bool) : List Byte :=
  slice blk (2 * ntok * rowBytes f headDim + ((if isV then ntok else 0) + j) * scaleBytes f headDim) (scaleBytes f headDim)

/-- Writes position j of a payload block into token slot i of a frame (R51, R53). -/
def writeToken (s : State) (lpn f headDim p ntok : Nat) (blk : List Byte) (i j : Nat) : State :=
  let put := fun (s : State) (isV : Bool) =>
    imgWrite (imgWrite s lpn (rowOffset f headDim i isV) (blockRow f headDim ntok blk j isV))
      lpn (scaleOffset f headDim p i isV) (blockScales f headDim ntok blk j isV)
  put (put s false) true

/-- Zeroes token slot i of a frame (R51, R70, R86). -/
def zeroToken (s : State) (lpn f headDim p i : Nat) : State :=
  let put := fun (s : State) (isV : Bool) =>
    imgWrite (imgWrite s lpn (rowOffset f headDim i isV) (List.replicate (rowBytes f headDim) 0))
      lpn (scaleOffset f headDim p i isV) (List.replicate (scaleBytes f headDim) 0)
  put (put s false) true

/-- Sets TOKENS (R53). -/
def setTokens (s : State) (lpn n : Nat) : State := imgWrite s lpn (sideBase + 4) (le 2 n)

/-- Whether a token slot holds only zeros in a run of payload bytes at `offset` of the image (R308). -/
def onlyBelowTokens (f headDim p tokens offset : Nat) (payload : List Byte) : Bool :=
  (List.range payload.length).all fun i =>
    payload.getD i 0 == 0 ||
      (let o := offset + i
       if o < 16384 then
         let r := o % 8192 / max 1 (rowBytes f headDim)
         decide (r < tokens)
       else
         let sb := max 1 (scaleBytes f headDim)
         let k := (o - (sideBase + 0x80)) / sb
         scaleBytes f headDim != 0 && decide (k < 2 * p) && decide (k % p < tokens))

/-! ### Word errors (R203) -/

/-- A row is retired (R203): its slots leave the free lists, and a record gives their number. -/
def retireRow (s : State) (st pc : Nat) (r : RowRef) (cause : Nat) (injected : Bool) : State :=
  if s.mem.retireRows.any fun e => e.1 == st && e.2.1 == pc && e.2.2.sid == r.sid && e.2.2.bank == r.bank && e.2.2.row == r.row
  then s
  else
    let s1 := { s with mem := { s.mem with retireRows := s.mem.retireRows ++ [(st, pc, r)] } }
    let s2 := modFree s1 (pcNum st pc) fun l =>
      { l with retired := r.slots.filter (fun n => !l.retired.contains n) ++ l.retired,
               back := l.back.filter (fun e => !r.slots.contains e.2),
               toZero := l.toZero.filter (fun e => !r.slots.contains e.2),
               vacant := l.vacant.filter (fun n => !r.slots.contains n) }
    let lost := ((freeOf s (pcNum st pc)).back ++ (freeOf s (pcNum st pc)).toZero).filter fun e => r.slots.contains e.2
    let s3 := foldState lpnGive s2 (lost.map Prod.fst)
    let row := le 1 st ++ le 1 pc ++ le 1 r.sid ++ le 1 r.bank ++ le 4 r.row ++ le 1 cause ++ le 2 r.slots.length
    caskRec s3 { kind := 0x21, injected := injected, payload := row }

/-- A corrected word (R203): counted in CORR and for its row; the sixteenth within 2^20 ticks retires the row. -/
def correctedWord (s : State) (st pc : Nat) (r : RowRef) (injected : Bool) : State :=
  let n := pcNum st pc
  let c := chanOf s n
  let same := fun (e : RowRef × Nat × Nat) => e.1.sid == r.sid && e.1.bank == r.bank && e.1.row == r.row
  let (k, since) := match c.rowCorr.find? same with
    | some (_, k, since) => if now s < since + 1048576 then (k + 1, since) else (1, now s)
    | none => (1, now s)
  let s1 := modChan s n fun x => { x with corr := x.corr + 1, rowCorr := (r, k, since) :: x.rowCorr.filter fun e => !same e }
  let s2 := raise s1 { source := 23, unit := { kind := 1, num := n }, injected := injected }
  if 16 ≤ k then retireRow s2 st pc r 2 injected else s2

/-- An uncorrectable word (R203): counted in UNCORR, its source rises, and its row is retired. -/
def uncorrectableWord (s : State) (st pc : Nat) (r : RowRef) (injected : Bool) : State :=
  let n := pcNum st pc
  let s1 := modChan s n fun x => { x with uncorr := x.uncorr + 1 }
  retireRow (raise s1 { source := 18 + quadOfStack st, unit := { kind := 1, num := n }, injected := injected }) st pc r 1 injected

/-- An error in a word of a plain pseudo-channel (R203): a correctable one counts as in any channel, an uncorrectable one raises
the HBM metadata source, and its row is retired. -/
def plainWord (s : State) (e : WordErr) : State :=
  match e.plain with
  | none => s
  | some (st, pc) =>
    if !e.uncorrectable then correctedWord s st pc e.row false
    else retireRow (raise s { source := 22, unit := { kind := 1, num := pcNum st pc } }) st pc e.row 1 false

/-- The row of a word that an injection spoils: its numbers are the stack's own (log entry 35), and of its slots the node knows the
one that was read. -/
def injectedRow (s : State) (slot : Nat) : RowRef × State :=
  let (a, s1) := draw s
  let (b, s2) := draw s1
  let (c, s3) := draw s2
  ({ sid := a % 256, bank := b % 256, row := c % 4294967296, slots := [slot] }, s3)

/-- The word errors of one read, each with whether an injection caused it: an armed injection at the checker adds one, unless
a real error of its severity meets it (R491, R492). -/
def wordsSeen (s : State) (checker n slot : Nat) (errs : List WordErr) : List (WordErr × Bool) × State :=
  match fireInj s checker n with
  | none => (errs.map fun e => (e, false), s)
  | some (mode, s1) =>
    let hard := mode == 1
    if errs.any fun e => e.uncorrectable == hard then (errs.map fun e => (e, e.uncorrectable == hard), s1)
    -- the injection adds no second error of the severity that it meets (R492)
    else
      let (r, s2) := injectedRow s1 slot
      ((errs.map fun e => (e, false)) ++ [({ symbols := if hard then 2 else 1, row := r }, true)], s2)

/-- The checks of the words that a read takes from a frame's slot (R203): corrected words are counted, an uncorrectable one
poisons the frame; `checker` is the controller's or the mash units' (R491). Answers whether the read failed. -/
def checkWords (s : State) (checker lpn : Nat) (seen : List WordErr) : Bool × State :=
  let s := foldState plainWord s (seen.filter fun e => e.plain.isSome)
  let errs := seen.filter fun e => e.plain.isNone
  match slotOf (frameOf s lpn) with
  | .hbm st pc slot =>
    let (all, s0) := wordsSeen s checker (pcNum st pc) slot errs
    let s1 := foldState (fun s e => correctedWord s st pc e.1.row e.2) s0 (all.filter fun e => !e.1.uncorrectable)
    let bad := all.filter fun e => e.1.uncorrectable
    if bad.isEmpty then (false, s1)
    else (true, poisonFrame (foldState (fun s e => uncorrectableWord s st pc e.1.row e.2) s1 bad) lpn)
  | _ => (false, s)

/-- The checks of the words of frames that are copied one after another (R70, R208): `errs` gives each frame's errors in
order. The first uncorrectable word stops the copies. -/
def checkAll (s : State) : List Nat → List (List WordErr) → Bool × State
  | [], _ => (false, s)
  | l :: ls, errs =>
    let r := checkWords s 1 l (errs.headD [])
    if r.1 then r else checkAll r.2 ls errs.tail

end Sys2Proof.Machine
end

