-- ==== Sys2Proof/Machine/Tiers.lean ====
section
/-!
DEFINITION. Machine/Tiers.lean: the lower tiers (chapter 8) and the page codec (chapter 9): streams and extents, codec
lanes, staging, write-downs, promotion, demotion, extent moves, host regions, hot and cold frames.
-/

namespace Sys2Proof.Machine

/-! ### Streams of frames (R242, R248, R251) -/

/-- A sequence whose page map leads to a frame (R251): the one that the side block names, or another that shares it. -/
def frameSeq (s : State) (lpn : Nat) : Option Seq :=
  (seqOf s (sSeq s lpn).id).or
    ((s.mem.seqs.find? fun e => (allPages s e.2).any fun p => p.2.2.lpn == lpn).map Prod.snd)

/-- The tables of a frame's K and V blocks (R251): from its current extent where it has one, else the CODEC bytes of a
sequence that holds it; RAW where none does. -/
def codecTables (s : State) (lpn : Nat) : Nat × Nat :=
  let ext := if (frameOf s lpn).tier ≤ 1 then none else tabGet s.mem.exts (extKey (frameOf s lpn).loc)
  match ext, frameSeq s lpn with
  | some e, _ => (streamTable e.stream 0, streamTable e.stream 2)
  | none, some x => ((x.codec.getD (2 * sLayer s lpn) 0).toNat, (x.codec.getD (2 * sLayer s lpn + 1) 0).toNat)
  | none, none => (0x80, 0x80)

/-- The storage format of a frame's sequence (R248); the side block's where no sequence holds the frame. -/
def frameFormat (s : State) (lpn : Nat) : Nat :=
  match frameSeq s lpn with
  | some x => x.format
  | none => imgLe s lpn sideBase 1

/-! ### Extents (R217, R218) -/

/-- The used granules of one device or region in ascending order, from the extent table whose keys start at `base`. -/
def usedGranules (s : State) (base span : Nat) : List (Nat × Nat) :=
  (s.mem.exts.filter fun e => decide (base ≤ e.1) && decide (e.1 < base + span)).map
    fun e => (e.1 - base, ceilDiv e.2.stream.length 512)

/-- The lowest place of `len` free granules. -/
def fitGranules (len : Nat) : List (Nat × Nat) → Nat → Nat
  | [], cur => cur
  | (b, l) :: t, cur => if cur + len ≤ b then cur else fitGranules len t (max cur (b + l))

def lpDev (s : State) (c : Nat) : LpDev := tabGetD s.mem.lp c {}

/-- A place on an LPDDR5X device: the lowest-numbered trained device that is not hot and has room (R219; log entry 16). -/
def allocLp (s : State) (len : Nat) : Option Loc :=
  (List.range 8).findSome? fun c =>
    if (lpDev s c).trained && !(lpDev s c).hot then
      let g := fitGranules len (usedGranules s (extKey (.lp c 0 0)) 268435456) 0
      if g + len ≤ 268435456 then some (.lp c g len) else none
    else none

/-- A place in a host region: the lowest-numbered region that is not draining and has room (R220; log entry 16). -/
def allocHost (s : State) (len : Nat) : Option Loc :=
  s.mem.regions.findSome? fun e =>
    if e.2.draining || s.link.state != 3 then none
    else
      let g := fitGranules len (usedGranules s (extKey (.host e.1 0 0)) 2097152) 0
      if g + len ≤ 4096 * e.2.units then some (.host e.1 g len) else none

/-- A place for a new extent: LPDDR5X while it has room, then HOST (R77, R236). -/
def allocExtent (s : State) (len : Nat) : Option Loc := (allocLp s len).or (allocHost s len)

/-- The MEM transactions of a host location: address and length, none crossing 4 KiB (R402). -/
def memPieces (addr : Nat) : Nat → Nat → List (Nat × Nat)
  | 0, _ => []
  | _, 0 => []
  | fuel + 1, len =>
    let n := min len (4096 - addr % 4096)
    (addr, n) :: memPieces (addr + n) fuel (len - n)

/-- The host address and length of a location. -/
def hostSpan (s : State) : Loc → Option (Nat × Nat)
  | .host r g n => (tabGet s.mem.regions r).map fun x => (2097152 * x.base + 512 * g, 512 * n)
  | _ => none

/-- The tweak of a granule (R218): LPN, GEN and the granule's place. -/
def granuleTweak (lpn gen i : Nat) : List Byte := le 16 (lpn % 268435456 + 268435456 * (gen % 65536) + 17592186044416 * (i % 64))

/-- A stream's granules as they lie at rest (R218): each one data unit under the tenant's XTS keys. -/
def sealGranules (s : State) (tenant lpn gen : Nat) (stream : List Byte) : List (List Byte) :=
  let n := ceilDiv stream.length 512
  (List.range n).map fun i =>
    Config.xtsSeal (tabGetD s.trust.tenants tenant {}).xts (granuleTweak lpn gen i) (padTo 512 ((stream.drop (512 * i)).take 512))

/-- Installs an extent (R218), and for HOST the writes that carry it (R404). -/
def putExtent (s : State) (l : Loc) (e : Extent) : State :=
  let s1 := { s with mem := { s.mem with exts := tabSet s.mem.exts (extKey l) e } }
  match hostSpan s l with
  | none => s1
  | some (a, n) =>
    let bytes := e.sealed.flatMap (padTo 512)
    foldState (fun s p => linkSend s (.memWr p.1 (padTo p.2 (slice bytes (p.1 - a) p.2)))) s1 (memPieces a 8 n)

/-! ### Codec lanes (R249 to R252) -/

/-- Lanes of a kind in service in a cluster; none before its self-test (R253). -/
def lanesLive (c : Cluster) (encode : Bool) : List Nat :=
  if !c.tested then []
  else if encode then (rangeFrom 32 48).filter fun l => !c.encOut.contains l
  else (List.range 32).filter fun l => !c.decOut.contains l

/-- Clusters in the order in which R250 and R252 look for a lane. -/
def clusterOrder (q : Nat) : List Nat := [q, q / 2 * 2 + (1 - q % 2), (1 - q / 2) * 2, (1 - q / 2) * 2 + 1]

/-- The cluster of a new transfer (R250): the one named, or the next with a lane of the kind in service. -/
def clusterFor (s : State) (q : Nat) (encode : Bool) : Nat :=
  ((clusterOrder q).find? fun k => !(lanesLive (clusterOf s k) encode).isEmpty).getD q

/-- Whether some stack is below FREE_LOW. -/
def anyLow (s : State) : Bool := (List.range 12).any fun st => decide (freeCount s st < pFreeLow s)

/-- The row of a transfer in R234 and its place within the row: nearest layer first, then the higher CLASS. The transfers of a
PARK and a WAKE stand in no row; they come with the last (log entry 36). -/
def jobRow (s : State) (j : CodecJob) : Nat × Nat :=
  if j.visit.isSome || j.key.isSome then (1, 0)
  else if j.obj.isSome then (6, 0)
  else if j.encode then
    match s.mem.downs.find? fun d => d.lpn == j.lpn with
    | some d => (if d.why == .preempt && anyLow s then 3 else 6, 0)
    | none => (6, 0)
  else
    match s.mem.stages.find? fun d => d.lpn == j.lpn with
    | some d => match d.why with
      | .write => (2, 0)
      | .prefetch => (4, 8 * d.ahead + (7 - d.cls))
      | .hint => (5, 0)
      | .promote => (5, 0)
    | none => (5, 0)

/-- The order of R234 as one number. -/
def jobPrio (s : State) (j : CodecJob) : Nat := 65536 * (jobRow s j).1 + (jobRow s j).2

/-- The reads of host memory that a decode needs (R404); none for the LPDDR5X tier. -/
def jobReads (s : State) (j : CodecJob) : List (Nat × Nat) :=
  if j.encode then []
  else match hostSpan s j.src with
    | none => []
    | some (a, n) => memPieces a 8 n

/-- Issues one MEM_RD (R404). -/
def memRead1 (s : State) (why : MemWhy) (p : Nat × Nat) : State :=
  let tag := s.link.memNext
  let m : MemRd := { tag := tag, addr := p.1, len := p.2, since := now s, why := why }
  linkSend { s with link := { s.link with memRds := s.link.memRds ++ [m], memNext := (tag + 1) % 65536 } } (.memRd tag p.1 p.2)

/-- Gives the lowest free lane of its kind to the first waiting transfer of a cluster in the order of R234; a decode of a
host extent starts once its reads fit the 1,024 tags (R404). -/
def assignLane (cluster : Nat) (encode : Bool) (s : State) : State :=
  let mine := s.mem.codec.filter fun j => j.cluster == cluster && j.encode == encode
  let busy := mine.filterMap fun j => j.lane
  match (lanesLive (clusterOf s cluster) encode).find? fun l => !busy.contains l,
        minBy (jobPrio s) (mine.filter fun j => j.lane.isNone) with
  | some l, some j =>
    let rs := jobReads s j
    if 1024 < s.link.memRds.length + rs.length then s
    else
      let s1 := { s with mem := { s.mem with codec := s.mem.codec.map fun x => if x.id = j.id then { x with lane := some l } else x } }
      foldState (fun s p => memRead1 s (.job j.id) p) s1 rs
  | _, _ => s

/-- Starts every waiting transfer that finds a lane. -/
def assignLanes (s : State) : State :=
  foldState (fun s q => iter (assignLane q true) 16 (iter (assignLane q false) 32 s)) s (List.range 4)

/-- Puts a transfer in the queue of a cluster; answers its number. -/
def codecQueue (s : State) (j : CodecJob) (quad : Nat) : Nat × State :=
  let id := s.mem.nextJob
  let j1 := { j with id := id, cluster := clusterFor s quad j.encode }
  (id, assignLanes { s with mem := { s.mem with codec := s.mem.codec ++ [j1], nextJob := id + 1 } })

/-- Submits a transfer of a frame; a decode reads the extent that is the frame's home now (R239). -/
def codecSubmit (s : State) (encode : Bool) (lpn quad : Nat) (visit : Option Nat) (key : Option CmdKey) : Nat × State :=
  codecQueue s { id := 0, encode := encode, lpn := lpn, cluster := quad, visit := visit, key := key,
                 src := if encode then .none else (frameOf s lpn).loc } quad

/-- A transfer ends: its lane is free. -/
def codecEnd (s : State) (id : Nat) : State :=
  assignLanes { s with
    mem := { s.mem with codec := s.mem.codec.filter fun j => j.id != id }
    link := { s.link with memRds := s.link.memRds.filter fun m => m.why != .job id } }

/-- The cluster of a handle read (R250): of the two of the arrival die, the one with the fewest waiting transfers. -/
def readCluster (s : State) (die : Nat) : Nat :=
  let waiting := fun (q : Nat) => (s.mem.codec.filter fun j => j.cluster == q && j.lane.isNone).length
  if waiting (2 * die + 1) < waiting (2 * die) then 2 * die + 1 else 2 * die

/-! ### Staging (R224, R225) -/

/-- Whether a frame is in staging or waits for it. -/
def inStaging (s : State) (lpn : Nat) : Bool := s.mem.stages.any fun j => j.lpn == lpn

/-- Asks for a frame to be staged, `ahead` layers ahead for a prefetch; one request serves both of two (R239). -/
def requestAhead (s : State) (lpn : Nat) (why : StageWhy) (q : Option SeqId) (t k ahead : Nat) : State :=
  let f := frameOf s lpn
  if f.tier ≤ 1 || f.staged || inStaging s lpn then s
  else
    let cls := ((q.bind (seqOf s)).map fun x => x.handle.cls).getD 0
    let j : StageJob := { lpn := lpn, why := why, seq := q, tensor := t, page := k, ahead := ahead, cls := cls }
    { s with mem := { s.mem with stages := s.mem.stages ++ [j] } }

/-- Asks for a frame to be staged. -/
def requestStage (s : State) (lpn : Nat) (why : StageWhy) (q : Option SeqId) (t k : Nat) : State := requestAhead s lpn why q t k 0

/-- Staged copies and copies in staging that take a place in a stack's pool (R224); a copy staged for promotion takes none
(R227). -/
def poolUsed (s : State) (st : Nat) : Nat :=
  (s.mem.frames.filter fun e => e.2.staged && !e.2.promo && match e.2.alt with
    | .hbm st' _ _ => st' == st
    | _ => false).length
  + (s.mem.stages.filter fun j => j.why != .promote && match j.slot with
    | .hbm st' _ _ => st' == st
    | _ => false).length

/-- The placement inputs of a staging request (R223): by the sequence and page that reached the frame, or by the side block
for a promotion. -/
def stageOrder (s : State) (j : StageJob) : List (Nat × Nat) :=
  match j.why, j.seq with
  | .promote, _ => sideOrder s j.lpn
  | _, some q => placeOrder s q.sequence j.tensor j.page
  | _, none => placeOrder s (sSeq s j.lpn).sequence j.tensor j.page

/-- Starts a write-down of a slot (R226, R227): DIRTY is cleared, an encoder of the slot's quadrant reads it. -/
def startDown (s : State) (lpn : Nat) (why : DownWhy) (source : Loc) : State :=
  if s.mem.downs.any fun d => d.lpn == lpn then s
  else
    let quad := match source with
      | .hbm st _ _ => quadOfStack st
      | _ => 0
    let s1 := modFrame s lpn fun f => { f with dirty := false }
    let (id, s2) := codecSubmit s1 true lpn quad none none
    let d : DownJob := { lpn := lpn, why := why, source := source, job := some id }
    { s2 with mem := { s2.mem with downs := s2.mem.downs ++ [d] } }

/-- A sequence's staged copy was released with no visit since its staging (R229). -/
def noteWasted (s : State) (f : Frame) : State :=
  match f.stagedFor with
  | some q => if f.visited then s else modSeq s q fun x => { x with wasted := true }
  | none => s

/-- Releases a staged copy (R226): a clean one at once, a dirty one after its write-down. -/
def releaseStaged (s : State) (lpn : Nat) : State :=
  let f := frameOf s lpn
  if !f.staged || f.pins != 0 || f.inFlux then s
  else if f.dirty then startDown s lpn .release f.alt
  else
    let s1 := vacate (noteWasted s f) f.alt
    setFrame s1 lpn { f with staged := false, alt := .none, stagedFor := none, visited := false, promo := false }

/-- The least recently visited staged copy of a stack that may be released (R224). -/
def oldestStaged (s : State) (st : Nat) : Option Nat :=
  (minBy (fun e => e.2.lastVisit) (s.mem.frames.filter fun e =>
    e.2.staged && !e.2.promo && e.2.pins == 0 && !e.2.inFlux && !(s.mem.downs.any fun d => d.lpn == e.1) && match e.2.alt with
      | .hbm st' _ _ => st' == st
      | _ => false)).map Prod.fst

/-- Whether a prefetch of the same sequence comes before a request: a nearer layer, or an earlier page of its layer (R228). -/
def prefetchBefore (s : State) (j : StageJob) : Bool :=
  j.why == .prefetch && s.mem.stages.any fun i =>
    i.why == .prefetch && i.seq == j.seq && i.slot == .none
      && (decide (i.ahead < j.ahead) || (i.ahead == j.ahead && decide (i.page < j.page)))

/-- The pool of a stack is full: the stage waits for the write-down of the copy that it chose, or chooses the next (R224). -/
def makeStageRoom (s : State) (j : StageJob) (st : Nat) : State :=
  if (j.victim.map fun v => s.mem.downs.any fun d => d.lpn == v) = some true then s
  else match oldestStaged s st with
    | none => s
    | some v =>
      let s1 := releaseStaged s v
      { s1 with mem := { s1.mem with stages := s1.mem.stages.map fun i => if i.lpn = j.lpn then { i with victim := some v } else i } }

/-- STAGING_START (R224, R228): takes a slot and submits the decode; a full pool first releases a copy, and the stage waits. A
prefetch waits for those before it. -/
def execStagingStart (lpn : Nat) (s : State) : Out :=
  .next <| whileRunning s fun _ =>
    match s.mem.stages.find? fun j => j.lpn == lpn && j.slot == .none with
    | none => s
    | some j =>
      if prefetchBefore s j then s
      else match takeBare s (stageOrder s j) with
      | none => s
      | some (.hbm st pc n, s1) =>
        if j.why != .promote && decide (pStageMax s ≤ poolUsed s st) then makeStageRoom s j st
        else
          let (id, s2) := codecSubmit s1 false lpn (quadOfStack st) none none
          { s2 with mem := { s2.mem with stages := s2.mem.stages.map fun x =>
            if x.lpn = lpn then { x with slot := .hbm st pc n, job := some id } else x } }
      | some _ => s

/-- The frame's only content is lost (R232): it is poisoned, its staging ends, the slot returns unused. -/
def failStage (s : State) (lpn : Nat) (slot : Loc) : State :=
  let s1 := vacate { s with mem := { s.mem with stages := s.mem.stages.filter fun j => j.lpn != lpn } } slot
  modFrame s1 lpn fun f => { f with poison := true }

/-- Installs the new extent of a write-down, and only then releases the old one (R218, R226, R227). -/
def installDown (s : State) (d : DownJob) (l : Loc) : State :=
  let f := frameOf s d.lpn
  let e : Extent := { lpn := d.lpn, gen := f.gen, stream := d.stream,
                      sealed := sealGranules s (sSeq s d.lpn).tenant d.lpn f.gen d.stream }
  let s2 := retireExtent (putExtent s l e) d.lpn (if f.tier ≤ 1 then .none else f.loc)
  let tier := match l with
    | .lp _ _ _ => 2
    | _ => 3
  let s3 := if f.tier ≤ 1 then
      setFrame s2 d.lpn { f with tier := tier, loc := l, alt := d.source, staged := true, visited := true, lastVisit := now s }
    else setFrame s2 d.lpn { f with tier := tier, loc := l }
  let s4 := retierLeaves { s3 with mem := { s3.mem with downs := s3.mem.downs.filter fun x => x.lpn != d.lpn } } d.lpn
  let g := frameOf s4 d.lpn
  let freeIt := d.why != .demote || match d.source with
    | .hbm st _ _ => decide (freeCount s4 st < pCoolLow s4)
    | _ => false
  if freeIt && g.pins == 0 && !g.dirty && !g.inFlux then releaseStaged s4 d.lpn else s4

/-- WRITE_DOWN_COMPLETE (R226, R227, R232): a failed check of the slot as the encoder read it poisons the frame in HBM and
writes no extent. `bad` marks a failure of that check that the slot's content does not show. Without room in a lower tier the
write-down waits (log entry 16). -/
def execWriteDownComplete (lpn : Nat) (bad : Bool) (s : State) : Out :=
  .next <| whileRunning s fun _ =>
    match s.mem.downs.find? fun d => d.lpn == lpn && d.encoded with
    | none => s
    | some d =>
      let n := match d.source with
        | .hbm st pc _ => pcNum st pc
        | _ => 0
      let (fail, _, s0) := checkFails s 3 n (bad || d.bad)
      if fail then
        let f := frameOf s0 lpn
        let s1 := { s0 with mem := { s0.mem with downs := s0.mem.downs.filter fun x => x.lpn != lpn } }
        let s2 := if f.tier ≤ 1 then s1 else
          setFrame (retireExtent s1 lpn f.loc) lpn
            { f with tier := 1, loc := f.alt, alt := .none, staged := false, dirty := false, promo := false }
        poisonFrame (retierLeaves s2 lpn) lpn
      else
        let len := ceilDiv d.stream.length 512
        match allocExtent s0 len with
        | none => s0
        | some l =>
          let s1 := installDown s0 d l
          { s1 with mem := { s1.mem with encOut := s1.mem.encOut + len } }

/-! ### Codec rows -/

/-- Transfers of a kind that no lane of the node can run are dropped (R252); what lanes have delivered stays. -/
def dropTransfersOf (s : State) (encode : Bool) : State :=
  let gone := fun (j : StageJob) => !encode && j.job.isSome && !j.decoded
  let s1 := foldState vacate s ((s.mem.stages.filter gone).map fun j => j.slot)
  let stages := s1.mem.stages.filter fun j => !gone j
  let downs := if encode then s1.mem.downs.filter fun d => d.encoded else s1.mem.downs
  { s1 with mem := { s1.mem with codec := s1.mem.codec.filter fun j => j.encode != encode, stages := stages, downs := downs } }

/-- A codec lane is taken out of service (R252): its transfer runs again on another lane; without any lane of the kind the
node fences. -/
def laneOut (s : State) (cluster lane : Nat) : State :=
  let encode := decide (32 ≤ lane)
  let s1 := modCluster s cluster fun c => match encode with
    | true => { c with encOut := lane :: c.encOut.filter (· != lane) }
    | false => { c with decOut := lane :: c.decOut.filter (· != lane) }
  let s3 := caskAction s1 2 { kind := 4, num := cluster * 48 + lane } 0
  if (List.range 4).all fun q => (lanesLive (clusterOf s3 q) encode).isEmpty then
    fenceNode (dropTransfersOf s3 encode) 1 (33 + cluster)
  else
    let mine := fun (j : CodecJob) => j.cluster == cluster && j.lane == some lane
    let moved := s3.mem.codec.map fun j =>
      if mine j then { j with lane := none, readErr := false, cluster := clusterFor s3 cluster encode }
      else if j.encode = encode ∧ j.lane.isNone ∧ j.cluster = cluster then { j with cluster := clusterFor s3 cluster encode }
      else j
    -- the transfer runs again from its start: its reads of host memory are issued anew
    let again := s3.link.memRds.filter fun m => !(s3.mem.codec.any fun j => mine j && m.why == .job j.id)
    assignLanes { s3 with mem := { s3.mem with codec := moved }, link := { s3.link with memRds := again } }

/-- A codec lane fails its check (R252). -/
def laneFail (s : State) (cluster lane : Nat) (injected : Bool) : State :=
  laneOut (raise s { source := 33 + cluster, unit := { kind := 4, num := cluster * 48 + lane }, injected := injected,
                     unitDone := true }) cluster lane

/-- An armed injection of a checker fires on the lane that runs a transfer (R491). -/
def laneInjection (s : State) (j : CodecJob) : Option State :=
  (fireInj s 7 (j.cluster * 48 + j.lane.getD 0)).map Prod.snd

/-- A read of an LPDDR5X extent with `linkErrs` uncorrectable link errors in a row, or at which an armed injection of the
link's checker fires (R219, R491): one error, and MODE 0, is repeated with success; a second, and MODE 1, is a failed read
check with its event. -/
def lpRead (s : State) (l : Loc) (linkErrs : Nat) : Bool × State :=
  match l with
  | .lp ch _ _ =>
    let fails := fun (s : State) (injected : Bool) =>
      (true, raise s { source := 26 + ch / 4, unit := { kind := 9, num := ch }, injected := injected })
    match fireInj s 4 ch with
    | some (mode, s1) => if mode = 1 then fails s1 true else (false, s1)
    | none => if 2 ≤ linkErrs then fails s false else (false, s)
  | _ => (false, s)

/-- An encoder reads a slot (R203, R206, R245, R251): the words and the full CRC are checked, the blocks' kinds counted;
whether a check failed, and the stream. -/
def encodeSlot (s : State) (j : CodecJob) (src : Loc) (errs : List WordErr) : Bool × List Byte × State :=
  let (bad, s1) := checkWords s 1 j.lpn errs
  let img := slotImage s1 src
  let (kt, vt) := codecTables s1 j.lpn
  let ks := dataKinds (memRead 0 img sideBase).toNat kt vt img
  let s2 := modCluster s1 j.cluster fun c =>
    { c with raw := c.raw + (ks.filter (· == 1)).length, coded := c.coded + (ks.filter (· == 0)).length }
  let s3 := modQuad s2 j.cluster fun q => { q with enc := q.enc + 1 }
  (bad || imageWrong img, encodeStream kt vt j.lpn (frameOf s j.lpn).gen img, { s3 with mem := { s3.mem with encIn := s3.mem.encIn + 36 } })

/-- CODEC_LANE_FAIL (R252). Decoder lanes are 0 to 31, encoder lanes 32 to 47 (R484). -/
def execCodecLaneFail (cluster : Fin 4) (lane : Nat) (s : State) : Out :=
  .next <| whileRunning s fun _ =>
    if (lanesLive (clusterOf s cluster.val) (decide (32 ≤ lane))).contains lane then laneFail s cluster.val lane false else s

/-! ### Hot and cold (R235 to R237) -/

/-- Whether the classification samples, and whether it uses hints (R235). -/
def samples (s : State) : Bool := pClassify s != 1
def usesHints (s : State) : Bool := pClassify s != 0

/-- The KIND of the newest hint of its sequence that covers a frame: 1 HOT, 2 COLD. -/
def hintOf (s : State) (lpn : Nat) : Option Nat :=
  if !usesHints s then none
  else match seqOf s (sSeq s lpn).id with
    | none => none
    | some x =>
      let p0 := sFirstPos s lpn
      let p1 := p0 + sP s lpn
      (x.hints.reverse.find? fun h =>
        decide (h.layerFirst ≤ sLayer s lpn) && decide (sLayer s lpn ≤ h.layerLast) && decide (h.headFirst ≤ sKvHead s lpn)
          && decide (sKvHead s lpn < h.headFirst + h.headCount) && decide (h.start < p1) && decide (p0 < h.limit)).map
        fun h => h.kind

/-- Whether a frame is hot (R236). -/
def isHot (s : State) (lpn : Nat) : Bool :=
  let f := frameOf s lpn
  f.refcount == 1 && match hintOf s lpn with
    | some k => k == 1
    | none => samples s && decide (pHotMark s ≤ f.sample)

/-- Whether a frame is cold (R236). -/
def isCold (s : State) (lpn : Nat) : Bool :=
  let f := frameOf s lpn
  f.refcount == 1 && match hintOf s lpn with
    | some k => k == 2
    | none => samples s && decide (f.sample < pColdMark s)

/-- The stack of an HBM location. -/
def locStack : Loc → Nat
  | .hbm st _ _ => st
  | _ => 0

/-- Whether R236 lets a frame be promoted now: a hot LIVE frame of a lower tier, staged in a stack at or above FREE_HIGH, or
not staged while some stack is. A STUB frame is not promoted (R239). -/
def mayPromote (s : State) (lpn : Nat) : Bool :=
  let f := frameOf s lpn
  decide (2 ≤ f.tier) && f.state == .live && !f.poison && isHot s lpn &&
    if f.staged then decide (pFreeHigh s ≤ freeCount s (locStack f.alt)) && !(s.mem.downs.any fun d => d.lpn == lpn)
    else !inStaging s lpn && (List.range 12).any fun st => decide (pFreeHigh s ≤ freeCount s st)

/-- The place of the hint that covers a frame in its sequence's list, where a hint decides. -/
def hintPlace (s : State) (lpn : Nat) : Option Nat :=
  if (hintOf s lpn).isNone then none
  else (seqOf s (sSeq s lpn).id).map fun x =>
    let p0 := sFirstPos s lpn
    let p1 := p0 + sP s lpn
    x.hints.length - ((x.hints.reverse.findIdx? fun h =>
      decide (h.layerFirst ≤ sLayer s lpn) && decide (sLayer s lpn ≤ h.layerLast) && decide (h.headFirst ≤ sKvHead s lpn)
        && decide (sKvHead s lpn < h.headFirst + h.headCount) && decide (h.start < p1) && decide (p0 < h.limit)).getD 0)

/-- The order of promotion (R236): frames that hints decide in the order of their hints, then by the highest SAMPLE (log
entry 100). -/
def promoteKey (s : State) (lpn : Nat) : Nat :=
  match hintPlace s lpn with
  | some i => i
  | none => 17 + (cap32 - min cap32 (frameOf s lpn).sample)

/-- Whether no other frame that may move comes before a frame. -/
def comesFirst (s : State) (may : Nat → Bool) (key : Nat → Nat) (lpn : Nat) : Bool :=
  s.mem.frames.all fun e => e.1 == lpn || !may e.1 || decide (key lpn ≤ key e.1)

/-- PROMOTION (R227, R236): the first frame in order that is staged moves home to its staged copy; one that is not staged is
staged first. Its extent is released once its pins are gone (R239). -/
def execPromotion (lpn : Nat) (s : State) : Out :=
  .next <| whileRunning s fun _ =>
    let f := frameOf s lpn
    if !mayPromote s lpn || !comesFirst s (mayPromote s) (promoteKey s) lpn then s
    else if f.staged then
      retierLeaves (setFrame (retireExtent s lpn f.loc) lpn
        { f with tier := 1, loc := f.alt, alt := .none, staged := false, dirty := false, stagedFor := none, promo := false }) lpn
    else requestStage s lpn .promote none 0 0

/-- Whether R227 lets a frame be demoted now. -/
def mayDemote (s : State) (lpn : Nat) : Bool :=
  let f := frameOf s lpn
  f.tier == 1 && f.state == .live && f.pins == 0 && !f.inFlux && !f.poison && !f.grad
    && !(s.mem.downs.any fun d => d.lpn == lpn) && !s.mem.moves.contains lpn

/-- Whether a frame is one that R236 demotes now: cold, in a stack below COOL_LOW. -/
def coolable (s : State) (st lpn : Nat) : Bool :=
  mayDemote s lpn && isCold s lpn && locStack (frameOf s lpn).loc == st && decide (freeCount s st < pCoolLow s)

/-- DEMOTION (R227, R236): the coldest such frame of a stack is written down. -/
def execDemotion (lpn : Nat) (s : State) : Out :=
  .next <| whileRunning s fun _ =>
    let f := frameOf s lpn
    let st := locStack f.loc
    if coolable s st lpn && !frameWaits s lpn && comesFirst s (coolable s st) (fun l => (frameOf s l).sample) lpn
        && (allocExtent s 36).isSome then startDown s lpn .demote f.loc
    else s

/-- EXTENT_MOVE (R220, R227): an extent of a draining host region moves to another region or to LPDDR5X; another host
extent moves to LPDDR5X. A frame whose extent is being read stays. -/
def execExtentMove (lpn : Nat) (s : State) : Out :=
  .next <| whileRunning s fun _ =>
    let f := frameOf s lpn
    match f.loc with
    | .host r _ n =>
      if inStaging s lpn || s.mem.codec.any (fun j => j.lpn == lpn) then s
      else
        let draining := ((tabGet s.mem.regions r).map fun x => x.draining).getD false
        let target := if draining then (allocHost s n).or (allocLp s n) else allocLp s n
        match target with
        | none => s
        | some l =>
          let s1 := putExtent s l (tabGetD s.mem.exts (extKey f.loc) { lpn := lpn, gen := f.gen })
          let tier := match l with
            | .lp _ _ _ => 2
            | _ => 3
          retierLeaves (setFrame (retireExtent s1 lpn f.loc) lpn { f with loc := l, tier := tier }) lpn
    | _ => s

/-- AGE_SWEEP (R235): every SAMPLE is halved, every AGE ticks. -/
def execAgeSweep (s : State) : Out :=
  .next <| whileRunning s fun _ =>
    if samples s && elapsed s s.mem.ageSince (pAge s) then
      { s with mem := { s.mem with ageSince := now s, frames := s.mem.frames.map fun e => (e.1, { e.2 with sample := e.2.sample / 2 }) } }
    else s

/-! ### Host regions (R220, R221, R241) -/

/-- HREG_ADD: registers the selected region, or refuses it (R220, R241). -/
def hregAdd (s : State) : State :=
    let r := fld s 0x60080 9 0
    let base := rd s 0x60084 + 4294967296 * rd s 0x60088
    let units := fld s 0x6008C 9 0
    let b := base / 2097152
    let overlaps := s.mem.regions.any fun e => decide (b < e.2.base + e.2.units) && decide (e.2.base < b + units)
    if base % 2097152 ≠ 0 ∨ units = 0 ∨ 512 < units ∨ overlaps ∨ (tabGet s.mem.regions r).isSome ∨ s.link.state ≠ 3 then
      { s with mem := { s.mem with hregStatus := tabSet s.mem.hregStatus r 3 } }
    else { s with mem := { s.mem with regions := tabSet s.mem.regions r { base := b, units := units },
                                      hregStatus := tabSet s.mem.hregStatus r 1 } }

/-- HREG_ADD: the write has its effect where the access reaches the register (R522). -/
def execHregAdd (s : State) : Out := .next (regEnter s 0x60090 hregAdd)

/-- HREG_REMOVE (R220): the region drains. -/
def hregRemove (s : State) : State :=
    let r := fld s 0x60080 9 0
    match tabGet s.mem.regions r with
    | none => s
    | some x => { s with mem := { s.mem with regions := tabSet s.mem.regions r { x with draining := true },
                                             hregStatus := tabSet s.mem.hregStatus r 2 } }

/-- HREG_REMOVE: the write has its effect where the access reaches the register (R522). -/
def execHregRemove (s : State) : Out := .next (regEnter s 0x60090 hregRemove)

/-- REGION_DRAINED (R220): a draining region that holds no extent is reported removed. -/
def execRegionDrained (region : Nat) (s : State) : Out :=
  .next <| whileRunning s fun _ =>
    match tabGet s.mem.regions region with
    | none => s
    | some x =>
      if x.draining && (usedGranules s (extKey (.host region 0 0)) 2097152).isEmpty then
        { s with mem := { s.mem with regions := tabDel s.mem.regions region, hregStatus := tabSet s.mem.hregStatus region 0 } }
      else s

/-- The content of every host region is lost (R221): frames poisoned, extents released, regions deregistered, one record. -/
def hostTierLost (s : State) : State :=
  let lost := (s.mem.frames.filter fun e => e.2.tier == 3).map Prod.fst
  if lost.isEmpty && s.mem.regions.isEmpty then s
  else
    let s1 := foldState (fun s l => modFrame (freeExtent s (frameOf s l).loc) l fun f => { f with poison := true, loc := .none }) s lost
    let s2 := { s1 with mem := { s1.mem with regions := [], hregStatus := [] } }
    let s3 := caskNote s2 0x32 (le 1 2 ++ le 3 0 ++ le 4 lost.length)
    if lost.isEmpty then s3 else raise s3 { source := 17 }

/-- LP_MR4_READ (R219): every 10,000 local ticks MR4 gives each device's refresh multiplier (`temps`) and whether it is above
its operating range: placement stops on such a device, and source 28 follows. -/
def execLpMr4Read (hot : List Bool) (temps : List Nat) (s : State) : Out :=
  .next <| whileRunning s fun _ =>
    if !elapsed s s.mem.mr4Since 10000 then s
    else
      let s1 := foldState (fun s c =>
        { s with mem := { s.mem with lp := tabModD s.mem.lp c {} fun d =>
          { d with hot := hot.getD c false, refresh := temps.getD c 0 } } }) s (List.range 8)
      let first := (hot.findIdx? (· == true)).getD 0
      setLevel { s1 with mem := { s1.mem with mr4Since := now s } } 28 (hot.contains true) { kind := 9, num := first }

end Sys2Proof.Machine
end

