-- ==== Sys2Proof/Machine/Cellar.lean ====
section
/-!
DEFINITION. Machine/Cellar.lean: cartridges, parked objects and guest objects (chapter 10), PARK, WAKE and the release of a
sequence (R84, R85), guest commands (R309), preemption (R77), and the end of a removed tenant (R444).
-/

namespace Sys2Proof.Machine

/-! ### Frames and their places -/

/-- Takes a new LIVE frame (R59, R80): the head of the first list in `order`, with its generation. -/
def newFrame (s : State) (order : List (Nat × Nat)) (state : FrameState) (refs : Nat) : Option (Nat × State) :=
  (takeSlot s order).map fun (lpn, l, s1) =>
    (lpn, setFrame s1 lpn { gen := (frameOf s1 lpn).gen, refcount := refs, state := state, tier := 1, loc := l,
                               sample := pColdMark s })

/-- The HBM place of a frame: stack and pseudo-channel. -/
def placeOf (s : State) (lpn : Nat) : Option (Nat × Nat) :=
  match slotOf (frameOf s lpn) with
  | .hbm st pc _ => some (st, pc)
  | _ => none

/-- The number of the channel that serves a frame's slot; 0 without one. -/
def frameChan (s : State) (lpn : Nat) : Nat :=
  match placeOf s lpn with
  | some (st, pc) => pcNum st pc
  | none => 0

/-- Where a tensor's reserve is looked for (R74, R209): beside its tail frame, which is its last listed page, also while the
APPEND that wrote it runs; or at the preferred place of its next page. -/
def reserveOrder (s : State) (x : Seq) (t : Nat) : List (Nat × Nat) :=
  let k := ((tensorOf x t).endPos - x.tokenBase) / max 1 x.p
  match (pagesOf s x t).getLast?.bind fun e => placeOf s e.2.lpn with
  | some (st, pc) => besideOrder st pc
  | none => fullOrder (preferred x.handle.sequence t k).1 (preferred x.handle.sequence t k).2

/-- Whether a tensor holds a growth reserve: its END lies within the local range. -/
def wantsReserve (x : Seq) (t : Nat) : Bool :=
  decide (x.tokenBase ≤ (tensorOf x t).endPos) && decide ((tensorOf x t).endPos < x.tokenLimit)

/-- Takes a reserve for a tensor (R74). -/
def takeReserve (s : State) (q : SeqId) (t : Nat) : Option State :=
  match seqOf s q with
  | none => none
  | some x =>
    (newFrame s (reserveOrder s x t) .reserve 0).map fun (lpn, s1) =>
      setSeq s1 q (setTensor x t { tensorOf x t with reserve := some (handleOf s1 lpn), want := false })

/-- Takes a reserve for every tensor of a list, all or none. -/
def takeReserves (q : SeqId) : List Nat → State → Option State
  | [], s => some s
  | t :: ts, s => (takeReserve s q t).bind (takeReserves q ts)

/-! ### Ports and objects (R254, R259 to R261, R265) -/

def portOf (s : State) (p : Nat) : CellarPort := tabGetD s.mem.ports p {}

def modPort (s : State) (p : Nat) (f : CellarPort → CellarPort) : State :=
  { s with mem := { s.mem with ports := tabModD s.mem.ports p {} f } }

/-- The CARTRIDGE_ID of the cartridge in a port. -/
def portCart (s : State) (p : Nat) : Nat := (portOf s p).identity.cartridgeId

/-- Whether a port can take writes: READY, not in LIFE_END. -/
def canWrite (s : State) (p : Nat) : Bool := (portOf s p).state == 4

/-- Whether a port can be read: READY or LIFE_END. -/
def canRead (s : State) (p : Nat) : Bool := (portOf s p).state == 4 || (portOf s p).state == 6

/-- What the node knows of a cartridge that is away. -/
def cartOf (s : State) (cart : Nat) : CartRec := tabGetD s.mem.carts cart {}

/-- The objects on a cartridge that its directory no longer names grow by one. -/
def noteStale (s : State) (cart : Nat) : State :=
  { s with mem := { s.mem with carts := tabModD s.mem.carts cart {} fun c => { c with stale := c.stale + 1 } } }

/-- The bytes of an object as the model lays it out (log entry 18): the descriptor, each tensor's END, then for each frame its
place, the LPN and GEN that its stream was written under, and the stream (R260; log entry 99). -/
def objectBytes (o : Parked) : List Byte :=
  le 4 (tensorCount o.descr) ++ le 4 o.frames.length ++ encodeSeq o.descr o.frames.length
    ++ ((List.range (tensorCount o.descr)).flatMap fun t => le 4 (tensorOf o.descr t).endPos)
    ++ (o.frames.flatMap fun f =>
      le 4 f.tensor ++ le 4 f.page ++ le 4 f.lpn ++ le 2 f.gen ++ le 2 (b2n f.poison) ++ le 4 f.stream.length ++ f.stream)

/-- The length of an object's bytes. -/
def objectSize (o : Parked) : Nat :=
  1032 + 4 * tensorCount o.descr + sumNat (o.frames.map fun f => 20 + f.stream.length)

/-- Reads the frames of an object's bytes. -/
def parseFrames : Nat → List Byte → List ObjFrame
  | 0, _ => []
  | n + 1, b =>
    let len := fieldLe b 16 4
    { tensor := fieldLe b 0 4, page := fieldLe b 4 4, lpn := fieldLe b 8 4, gen := fieldLe b 12 2,
      poison := fieldLe b 14 1 == 1, stream := (b.drop 20).take len } :: parseFrames n (b.drop (20 + len))

/-- Reads an object's bytes. -/
def parseObject (b : List Byte) : Seq × List ObjFrame :=
  let nt := fieldLe b 0 4
  let d := parseSeq (slice b 8 1024)
  let x := { d with tensors := (List.range nt).map fun t => (t, { endPos := fieldLe b (1032 + 4 * t) 4 }) }
  (x, parseFrames (fieldLe b 4 4) (b.drop (1032 + 4 * nt)))

/-- An object of a sequence (R260). It carries no hints: PARK clears the list (R237). -/
def objectOf (q : SeqId) (number : Nat) (x : Seq) (frames : List ObjFrame) : Parked :=
  { number := number, seq := q, descr := { x with hints := [] }, frames := frames }

/-- An object whose descriptor carries a PARK_REF (R259, R260). -/
def refTo (r : ParkRef) (o : Parked) : Parked := { o with descr := { o.descr with parkRef := some r } }

/-- The guest objects on the cartridge in a port. -/
def portGuests (s : State) (p : Nat) : List Guest :=
  if (portOf s p).state = 0 then [] else s.mem.guests.filter fun g => g.cart == portCart s p

/-- Free bytes of a cartridge: its capacity without LBA 0 to 15 of the identity record (R257), without its objects and its
guests (log entry 18). -/
def portFree (s : State) (p : Nat) : Nat :=
  1073741824 * (portOf s p).sizeGib
    - (65536 + sumNat ((portGuests s p).map fun g => g.len) + sumNat ((portOf s p).objects.map objectSize))

/-- The port for a new object of a size (R261, R265): the one with more free space, the other where that one is full; a
port at 95 % only while the other is at 95 % too. -/
def choosePort (s : State) (size : Nat) : Option Nat :=
  let ready := [0, 1].filter (canWrite s)
  let fresh := ready.filter fun p => !(portOf s p).warn95
  let cands := if fresh.isEmpty then ready else fresh
  let ordered := if portFree s 0 < portFree s 1 then cands.reverse else cands
  ordered.find? fun p => decide (size ≤ portFree s p)

/-- The readable port that holds a guest object's cartridge. -/
def guestPort (s : State) (g : Guest) : Option Nat := [0, 1].find? fun p => canRead s p && portCart s p == g.cart

/-- Issues an I/O (R255). -/
def startIo (s : State) (port : Nat) (why : IoWhy) : State :=
  { s with mem := { s.mem with nvme := s.mem.nvme ++ [{ id := s.mem.nextIo, port := port, why := why }],
                               nextIo := s.mem.nextIo + 1 } }

/-- Deallocates an object on the cartridge in a port (R263); in LIFE_END it stays on the media (R265). -/
def deallocate (s : State) (p : Nat) : State := if canWrite s p then startIo s p .deallocate else s

/-- Drops the I/O that belongs to a purpose. -/
def dropIo (s : State) (p : IoWhy → Bool) : State :=
  { s with mem := { s.mem with nvme := s.mem.nvme.filter fun n => !p n.why } }

/-- Whether an I/O serves the local object of a sequence. -/
def ioOf (q : SeqId) : IoWhy → Bool
  | .parkWrite x => x == q
  | .parkFlush x => x == q
  | .wakeRead x _ _ => x == q
  | .protectWrite x => x == q
  | .protectFlush x => x == q
  | .adoptWrite x => x == q
  | .adoptFlush x => x == q
  | .guestWrite _ _ => false
  | .guestFlush _ => false
  | .guestRead _ => false
  | .deallocate => false
  | .format => false
  | .recordWrite => false
  | .recordFlush => false

/-- Whether an I/O writes a new local object of a sequence. -/
def writesObject (q : SeqId) (w : IoWhy) : Bool :=
  ioOf q w && match w with
    | .wakeRead _ _ _ => false
    | _ => true

/-! ### Commands between nodes -/

/-- Sends a command to another node over the SYS association (R299). -/
def nodeCommand (s : State) (node : Nat) (q : SeqId) (body : Body) (payload : List Byte) : State :=
  let h : SeqHandle := match seqOf s q with
    | some x => x.handle
    | none => { tenant := q.tenant, sequence := q.sequence }
  let d : Desc := { opcode := body.opcode, epoch := epochOf s, reqId := s.mem.nextIo, seq := h, payloadLen := payload.length,
                    body := body }
  sendMsg { s with mem := { s.mem with nextIo := s.mem.nextIo + 1 } } (sysKey (.node node)) .command (cmdClass s d) none
    (commandMsg d payload)

/-- Sends an object to a partner in pieces of at most 32 MiB (R261, R309); answers their request ids. -/
def sendGuest (s : State) (node : Nat) (q : SeqId) (bytes : List Byte) : List Nat × State :=
  let n := ceilDiv bytes.length 33554432
  (rangeFrom s.mem.nextIo (s.mem.nextIo + n), foldState (fun s i =>
    nodeCommand s node q (.guestPut (i == 0) (i + 1 == n) (33554432 * i) (if i = 0 then bytes.length else 0))
      ((bytes.drop (33554432 * i)).take 33554432)) s (List.range n))

/-- Asks a partner for an object (R309); answers the request ids. -/
def askGuest (s : State) (node : Nat) (q : SeqId) (size : Nat) : List Nat × State :=
  let n := ceilDiv size 33554432
  (rangeFrom s.mem.nextIo (s.mem.nextIo + n), foldState (fun s i =>
    nodeCommand s node q (.guestGet (33554432 * i) (min 33554432 (size - 33554432 * i))) []) s (List.range n))

/-- Whether a delivery is a node's completion of one of this node's commands, by its request id (R300). -/
def isAnswer (node : Nat) (reqs : List Nat) (d : Delivery) : Bool :=
  d.kind == 2 && d.msg.src == .node node && d.msg.sys && reqs.contains (fieldLe d.msg.bytes 8 6)

/-- The delivered completion of one request: status and data (R300). -/
def answerOf (s : State) (node r : Nat) : Option (Nat × List Byte) :=
  (s.net.inbox.find? (isAnswer node [r])).map fun d => (fieldLe d.msg.bytes 0x11 1, d.msg.bytes.drop 0x38)

/-- The delivered completions of requests are used up. -/
def dropAnswers (s : State) (node : Nat) (reqs : List Nat) : State :=
  { s with net := { s.net with inbox := s.net.inbox.filter fun d => !isAnswer node reqs d } }

/-- Whether every piece of an object has been acknowledged (R261). -/
def allPut (s : State) (node : Nat) (reqs : List Nat) : Bool :=
  reqs.all fun r => (answerOf s node r).map Prod.fst == some 0

/-- What the partner has answered to the GUEST_GETs of an object. -/
inductive GuestAnswer where
  | waiting
  | again
  | failed
  | bytes (b : List Byte)
  deriving DecidableEq, Repr

/-- The partner's answer to the GUEST_GETs of an object: one that the partner could not take yet is asked for again. -/
def gotGuest (s : State) (node : Nat) (reqs : List Nat) : GuestAnswer :=
  let as_ := reqs.map (answerOf s node)
  let sts := as_.filterMap fun a => a.map Prod.fst
  if as_.any fun a => a.isNone then .waiting
  else if sts.any fun st => st == Status.staleMap.code || st == Status.busyRetry.code then .again
  else if sts.any fun st => st != 0 then .failed
  else .bytes (as_.flatMap fun a => (a.map Prod.snd).getD [])

/-- The Cellar partner that the map names for this node (R261). -/
def partnerOf (s : State) : Option Nat :=
  s.comp.map.bind fun m => (nodeEntry m m.node).bind fun e => if e.partner = m.node then none else some e.partner

/-- Whether the map lists a node. -/
def nodeListed (s : State) (n : Nat) : Bool :=
  match s.comp.map with
  | none => false
  | some m => (nodeEntry m n).isSome

/-- Whether this node suspects a node (R341). -/
def suspected (s : State) (n : Nat) : Bool := s.comp.watch.any fun w => w.node == n && w.suspected

/-- The next holder of a guest object that the map names (R342): this node's Cellar partner, where it suspects the node that
the object was put on (log entry 57). -/
def nextHolder (s : State) (node : Nat) : Option Nat := if suspected s node then (partnerOf s).filter (· != node) else none

/-- Asks the node that holds an object and, while it is suspected, the next holder at the same time (R342); answers the
request ids of both. -/
def askHolders (s : State) (node : Nat) (q : SeqId) (size : Nat) : List Nat × Option (Nat × List Nat) × State :=
  let (reqs, s1) := askGuest s node q size
  match nextHolder s node with
  | none => (reqs, none, s1)
  | some n =>
    let (more, s2) := askGuest s1 n q size
    (reqs, some (n, more), s2)

/-- A node's answer; one that the map no longer lists answers no more. -/
def gotListed (s : State) (node : Nat) (reqs : List Nat) : GuestAnswer :=
  match gotGuest s node reqs with
  | .waiting => if nodeListed s node then .waiting else .failed
  | a => a

/-- The first complete answer of the nodes asked (R342); it fails once all have. -/
def firstAnswer (s : State) (node : Nat) (reqs : List Nat) : Option (Nat × List Nat) → GuestAnswer
  | none => gotListed s node reqs
  | some (n, more) =>
    match gotListed s node reqs, gotListed s n more with
    | .bytes b, _ => .bytes b
    | _, .bytes b => .bytes b
    | .failed, a => a
    | a, .failed => a
    | .waiting, _ => .waiting
    | .again, a => a

/-- The answers of the nodes asked are used up. -/
def dropHolders (s : State) (node : Nat) (reqs : List Nat) : Option (Nat × List Nat) → State
  | none => dropAnswers s node reqs
  | some (n, more) => dropAnswers (dropAnswers s node reqs) n more

/-! ### Guest objects (R261, R309) -/

def guestOf (s : State) (origin : Nat) (q : SeqId) : Option Guest :=
  s.mem.guests.find? fun g => g.origin == origin && g.seq == q

def dropGuest (s : State) (origin : Nat) (q : SeqId) : State :=
  { s with mem := { s.mem with guests := s.mem.guests.filter fun g => !(g.origin == origin && g.seq == q) } }

def putGuest (s : State) (g : Guest) : State :=
  { s with mem := { s.mem with guests := (dropGuest s g.origin g.seq).mem.guests ++ [g] } }

/-- Releases a guest object (R263): a deallocation and a directory update; an absent one changes nothing. -/
def discardGuest (s : State) (origin : Nat) (q : SeqId) : State :=
  match guestOf s origin q with
  | none => s
  | some g =>
    let s1 := dropGuest s origin q
    match guestPort s1 g with
    | some p => deallocate s1 p
    | none => noteStale s1 g.cart

/-! ### Releasing objects (R263) and the end of a removed tenant (R444) -/

/-- The port that holds the cartridge of a PARK_REF, with the object in its directory. -/
def refPort (s : State) (r : ParkRef) : Option Nat :=
  if (portOf s r.port).state != 0 && portCart s r.port % 16777216 == r.cart then some r.port else none

/-- The object that a PARK_REF names, as the node's directories list it: of the cartridge in the port, or of one that is
away. -/
def directoryObject (s : State) (r : ParkRef) : Option Parked :=
  let objs := match refPort s r with
    | some p => (portOf s p).objects
    | none => (s.mem.carts.filter fun (e : Nat × CartRec) => e.1 % 16777216 == r.cart).flatMap fun (e : Nat × CartRec) => e.2.objects
  objs.find? fun o => o.number == r.object

/-- The object that a PARK_REF names, where this node can read it. -/
def localObject (s : State) : Option ParkRef → Option Parked
  | none => none
  | some r => match refPort s r with
    | some p => if canRead s p then (directoryObject s r).filter (fun o => o.flushed) else none
    | none => none

/-- Takes a local object out of its cartridge's directory (R263): it is deallocated, at the cartridge's return where that is
away. -/
def dropObject (s : State) (r : ParkRef) : State :=
  match refPort s r with
  | some p =>
    let s1 := modPort s p fun c => { c with objects := c.objects.filter fun o => o.number != r.object }
    if (portOf s p).objects.any fun o => o.number == r.object then deallocate s1 p else s1
  | none => { s with mem := { s.mem with carts := s.mem.carts.map fun e =>
      if e.1 % 16777216 = r.cart ∧ (e.2.objects.any fun o => o.number == r.object) = true then
        (e.1, { e.2 with objects := e.2.objects.filter (fun o => o.number != r.object), stale := e.2.stale + 1 })
      else e } }

/-- Takes a half-written local object of a sequence back: its writes stop, and it leaves the directory. -/
def dropHalf (s : State) (q : SeqId) : State :=
  let half := fun (o : Parked) => o.seq == q && !o.flushed
  let s1 := dropIo s (writesObject q)
  foldState (fun s p =>
    if (portOf s p).objects.any half then
      deallocate (modPort s p fun c => { c with objects := c.objects.filter fun o => !half o }) p
    else s) s1 [0, 1]

/-- Releases both objects of a PARK_REF (R263); before a PARK has a partner there is no second one. -/
def releaseObjects (s : State) (q : SeqId) (partnered : Bool) : Option ParkRef → State
  | none => s
  | some r =>
    let s1 := discardGuest (dropObject s r) (nodeId s) q
    if partnered then nodeCommand s1 r.partner q .guestRelease [] else s1

/-- A removed tenant that holds nothing more becomes ABSENT (R444). -/
def tenantAbsent (s : State) (n : Nat) : State :=
  let t := tenantOf s n
  if t.state == 2 && t.keygen.isNone && t.prev.isNone && (s.mem.seqs.all fun e => e.1.tenant != n)
      && (s.mem.guests.all fun g => g.seq.tenant != n) && (s.ledger.regions.all fun r => r.2.tenant != n) then
    let s1 := caskNote s 0x40 (le 2 n ++ le 1 2 ++ le 1 (t.retired.getD 0) ++ le 4 t.evicted ++ le 4 t.released ++ le 4 t.deleted)
    { s1 with trust := { s1.trust with tenants := tabSet s1.trust.tenants n { t with state := 0, transport := [], storage := [] } } }
  else s

/-- Answers every command of a list that still runs. -/
def completeKeys (s : State) (ks : List CmdKey) (st : Status) : State :=
  foldState (fun s k => match liveOf s k with
    | some l => complete s l.cmd { status := st }
    | none => s) s ks

/-- Ends every command of a list that still runs, through its chain where it has one (R335). -/
def finishKeys (s : State) (ks : List CmdKey) (st : Status) : State :=
  foldState (fun s k => match liveOf s k with
    | some l => finish s l.cmd (replOf s l.cmd.desc) { status := st }
    | none => s) s ks

/-- Stops the codec transfers of a PARK or WAKE of a sequence. -/
def dropObjTransfers (s : State) (q : SeqId) : State :=
  let mine := s.mem.codec.filter fun j => (j.obj.map Prod.fst) == some q
  foldState (fun s (j : CodecJob) => codecEnd s j.id) s mine

/-- The commands of a PARK or WAKE of a sequence. -/
def jobKeys (s : State) (q : SeqId) : List CmdKey :=
  (s.mem.parks.filter fun j => j.seq == q).flatMap (fun j => j.keys) ++ (s.mem.wakes.filter fun j => j.seq == q).flatMap fun j => j.keys

/-- Stops a PARK, a WAKE and a re-protection of a sequence with their I/O and transfers. -/
def stopJobs (s : State) (q : SeqId) : State :=
  let s1 := { s with mem := { s.mem with parks := s.mem.parks.filter (fun j => j.seq != q),
                                         wakes := s.mem.wakes.filter (fun j => j.seq != q),
                                         protects := s.mem.protects.filter fun j => j.seq != q } }
  dropObjTransfers (dropIo (dropHalf s1 q) (ioOf q)) q

/-- EVICT of a sequence in any state (R84, R442): a PARK or WAKE in progress stops, and its commands complete with NO_STATE as
a PARK or WAKE of an EVICTING sequence does (DEDUCED, log entry 99); both objects are released, and frames, reserves,
directory and hints go. -/
def evictSeq (s : State) (q : SeqId) : State :=
  match seqOf s q with
  | none => s
  | some x =>
    let keys := jobKeys s q
    let partnered := (s.mem.parks.filter fun j => j.seq == q).all fun j => j.partner.isSome && j.sent
    let s2 := releaseObjects (stopJobs s q) q partnered x.parkRef
    tenantAbsent (completeKeys (removeSeq s2 q) keys .noState) q.tenant

/-! ### PARK (R85, R261, R262) -/

/-- Changes a PARK in progress. -/
def modPark (s : State) (q : SeqId) (f : ParkJob → ParkJob) : State :=
  { s with mem := { s.mem with parks := s.mem.parks.map fun j => if j.seq = q then f j else j } }

/-- Changes a WAKE in progress. -/
def modWake (s : State) (q : SeqId) (f : WakeJob → WakeJob) : State :=
  { s with mem := { s.mem with wakes := s.mem.wakes.map fun j => if j.seq = q then f j else j } }

/-- Puts a new object on a port and issues its write (R261); answers its PARK_REF. -/
def writeObject (s : State) (p : Nat) (partner : Nat) (o : Parked) (why : IoWhy) : ParkRef × State :=
  let n := (portOf s p).nextObject
  let ref : ParkRef := { port := p, object := n, partner := partner, cart := portCart s p % 16777216 }
  let s1 := modPort s p fun c => { c with objects := c.objects ++ [refTo ref { o with number := n }], nextObject := n + 1 }
  (ref, startIo s1 p why)

/-- Writes the object of a PARK to Cellar port `p` and keeps the reference to it (R261). -/
def parkWriteAt (s : State) (q : SeqId) (partner : Nat) (o : Parked) (p : Nat) : State :=
  let (ref, s1) := writeObject s p partner o (.parkWrite q)
  modSeq (modPark s1 q fun j => { j with port := p, object := ref.object, localDone := false }) q fun y =>
    { y with parkRef := some ref }

/-- Starts the local copy of a PARK on a port that has room (R261); none with room leaves the PARK to its timeout. -/
def parkLocal (s : State) (q : SeqId) : State :=
  match s.mem.parks.find? fun j => j.seq == q, seqOf s q with
  | some j, some x => match choosePort s (objectSize (objectOf q 0 x j.frames)) with
    | none => s
    | some p => parkWriteAt s q (j.partner.getD 0) (objectOf q 0 x j.frames) p
  | _, _ => s

/-- Sends the object of a PARK to the partner (R261). -/
def parkRemote (s : State) (q : SeqId) : State :=
  match s.mem.parks.find? fun j => j.seq == q, seqOf s q with
  | some j, some x => match j.partner with
    | none => s
    | some n =>
      let (reqs, s1) := sendGuest s n q (objectBytes (objectOf q 0 x j.frames))
      modPark s1 q fun j => { j with reqs := reqs }
  | _, _ => s

/-- Once every frame is encoded, both copies of a PARK are written at the same time (R261). -/
def parkBuilt (s : State) (q : SeqId) : State :=
  match s.mem.parks.find? fun j => j.seq == q, seqOf s q with
  | some j, some x =>
    if j.sent || !j.todo.isEmpty then s
    else
      let fs := (allPages s x).filterMap fun e => j.frames.find? fun f => f.tensor == e.1 && f.page == e.2.1
      let s1 := modPark s q fun j => { j with frames := fs, sent := true }
      let s2 := modSeq s1 q fun y => { y with objSize := objectSize (objectOf q 0 x fs) }
      parkRemote (parkLocal s2 q) q
  | _, _ => s

/-- A frame of a PARK has its stream. -/
def parkFrame (s : State) (q : SeqId) (f : ObjFrame) : State :=
  parkBuilt (modPark s q fun j =>
    { j with todo := j.todo.filter (fun p => p != (f.tensor, f.page)), frames := j.frames ++ [f] }) q

/-- Submits one frame of a PARK (R250): an encoder reads its slot; of a frame without a slot, a decoder checks the extent's
stream, which the object takes unchanged (log entry 99). -/
def parkSubmit (q : SeqId) (s : State) (e : Nat × Nat × PageHandle) : State :=
  let l := e.2.2.lpn
  let f := frameOf s l
  let o : ObjFrame := { tensor := e.1, page := e.2.1, lpn := l, gen := f.gen, poison := f.poison }
  let quad := quadOfStack (locStack (slotOf f))
  let j : CodecJob := { id := 0, encode := slotOf f != .none, lpn := l, cluster := quad, obj := some (q, o),
                        src := if slotOf f = .none then f.loc else .none }
  (codecQueue s j quad).2

/-- Starts a PARK (R85, R261): the sequence is PARKING, and its frames are encoded. -/
def startPark (s : State) (q : SeqId) (keys : List CmdKey) (preempt : Bool) : State :=
  match seqOf s q with
  | none => s
  | some x =>
    let pages := allPages s x
    let partner := partnerOf s
    let j : ParkJob := { seq := q, keys := keys, since := now s, port := 0, object := 0, partner := partner, preempt := preempt,
                         todo := pages.map fun e => (e.1, e.2.1) }
    let s1 := setSeq { s with mem := { s.mem with parks := s.mem.parks ++ [j] } } q { x with state := .parking, parkRef := none }
    parkBuilt (foldState (parkSubmit q) s1 pages) q

/-- A PARK that a soft reset has stopped goes on from its descriptor state (R87, R471): the frames that have no stream yet are
encoded, and the copies that are not on the media are written; any other PARK goes on as it is (log entry 99). -/
def resumePark (s : State) (q : SeqId) : State :=
  match s.mem.parks.find? fun j => j.seq == q && j.halted, seqOf s q with
  | some j, some x =>
    let partner := partnerOf s
    let there := j.localDone && (localObject s x.parkRef).isSome
    let s1 := modSeq (modPark s q fun i => { i with halted := false, since := now s, partner := partner, localDone := there }) q
      fun y => { y with parkRef := y.parkRef.map fun r => { r with partner := partner.getD 0 } }
    if j.sent then parkRemote (if there then s1 else parkLocal s1 q) q
    else parkBuilt (foldState (parkSubmit q) s1 ((allPages s x).filter fun e => j.todo.contains (e.1, e.2.1))) q
  | _, _ => s

/-- A further PARK joins the one in progress (R84). -/
def joinPark (q : SeqId) (k : CmdKey) (j : ParkJob) : ParkJob :=
  if j.seq = q ∧ j.keys.contains k = false then { j with keys := j.keys ++ [k] } else j

/-- A further WAKE joins the one in progress (R84). -/
def joinWake (q : SeqId) (k : CmdKey) (j : WakeJob) : WakeJob :=
  if j.seq = q ∧ j.keys.contains k = false then { j with keys := j.keys ++ [k] } else j

/-- A chained PARK (R334): the replica releases its frames and is PARKED with PARK_REF zero. -/
def parkReplica (s : State) (c : Command) (x : Seq) : State :=
  finish (modSeq (releaseContent s c.desc.seq.id) c.desc.seq.id fun y => { y with state := .parked, parkRef := none }) c
    x.handle.repl { status := .ok }

/-- PARK (R84, R85, R334): by the sequence's state it completes, joins, or starts. -/
def execPark (c : Command) (s : State) : Out :=
  .next <| whenReady s c fun _ =>
    let q := c.desc.seq.id
    match c.desc.body, seqOf s q with
    | .park, none => complete s c { status := .noState }
    | .park, some x => if c.chainedFrom.isSome && x.state == .active then parkReplica s c x else match x.state with
      | .evicting => complete s c { status := .noState }
      | .parked => complete s c { status := .ok }
      | .waking => complete s c { status := .busyRetry }
      | .parking => resumePark { s with mem := { s.mem with parks := s.mem.parks.map (joinPark q (cmdKey c)) } } q
      | .active =>
        if canWrite s 0 || canWrite s 1 then startPark s q [cmdKey c] false else complete s c { status := .lifeEnd }
    | _, _ => s

/-- Whether both copies of a PARK are complete (R85, R256, R261): the local object is flushed and the partner has acknowledged
every piece. -/
def parkComplete (s : State) (j : ParkJob) : Bool :=
  j.sent && j.localDone && !j.halted && match j.partner with
    | some n => allPut s n j.reqs
    | none => false

/-- The answers that a PARK waited for are used up. -/
def parkAnswers (s : State) (j : ParkJob) : State :=
  match j.partner with
  | some n => dropAnswers s n j.reqs
  | none => s

/-- PARK_COPIES_DONE (R85, R256, R261): both copies are complete; the frames, leaves and reserves go, and the sequence is
PARKED. -/
def execParkCopiesDone (q : SeqId) (s : State) : Out :=
  .next <| whileRunning s fun _ =>
    match s.mem.parks.find? fun j => j.seq == q with
    | none => s
    | some j =>
      if parkComplete s j then
        let s1 := releaseContent (parkAnswers s j) q
        let s2 := modSeq s1 q fun x => { x with state := .parked }
        finishKeys { s2 with mem := { s2.mem with parks := s2.mem.parks.filter fun i => i.seq != q } } j.keys .ok
      else s

/-- PARK_COPY_TIMEOUT (R262): both copies are not complete in time; what was written is released on both sides, the sequence
is ACTIVE again. -/
def execParkCopyTimeout (q : SeqId) (s : State) : Out :=
  .next <| whileRunning s fun _ =>
    match s.mem.parks.find? fun j => j.seq == q, seqOf s q with
    | some j, some x =>
      if elapsed s j.since (pCopyTimeout s) && !parkComplete s j && !j.halted then
        let s1 := releaseObjects (stopJobs (parkAnswers s j) q) q (j.partner.isSome && j.sent)
          (some (x.parkRef.getD { port := j.port, object := j.object, partner := j.partner.getD 0, cart := 16777216 }))
        completeKeys (modSeq s1 q fun y => { y with state := .active, parkRef := none, objSize := 0 }) j.keys .busyRetry
      else s
    | _, _ => s

/-! ### WAKE (R85, R263) -/

/-- Takes a frame for every page of an object, all or none (R223). -/
def wakeFrames (q : SeqId) : List ObjFrame → State → Option State
  | [], s => some s
  | f :: fs, s =>
    match newFrame s (placeOrder s q.sequence f.tensor f.page) .live 1 with
    | none => none
    | some (lpn, s1) =>
      match pageName s1 q f.tensor f.page (handleOf s1 lpn) with
      | none => none
      | some s2 => wakeFrames q fs s2

/-- The frame of a page of a WAKE. -/
def wakeLpn (s : State) (q : SeqId) (p : Nat × Nat) : Option Nat :=
  ((seqOf s q).bind fun x => pageGet s x p.1 p.2).map fun h => h.lpn

/-- A frame whose two copies both failed is restored with POISON (R263). -/
def wakePoison (s : State) (q : SeqId) (p : Nat × Nat) : State :=
  let s1 := modWake s q fun j => { j with left := j.left.filter (fun e => e != p), guestTry := j.guestTry.filter fun e => e != p }
  match wakeLpn s q p with
  | none => s1
  | some l => poisonFrame s1 l

/-- Submits the decode of a frame of an object (R250). -/
def wakeSubmit (s : State) (q : SeqId) (guest : Bool) (f : ObjFrame) : State :=
  match wakeLpn s q (f.tensor, f.page) with
  | none => s
  | some l =>
    let quad := quadOfStack (locStack (frameOf s l).loc)
    (codecQueue s { id := 0, encode := false, lpn := l, cluster := quad, obj := some (q, f), guest := guest } quad).2

/-- Asks the partner for the guest object, once. -/
def wakeAsk (s : State) (q : SeqId) : State :=
  match s.mem.wakes.find? fun j => j.seq == q, seqOf s q with
  | some j, some x =>
    if !j.reqs.isEmpty || j.guest.isSome then s
    else match x.parkRef with
      | none => s
      | some r =>
        let (reqs, also, s1) := askHolders s r.partner q x.objSize
        modWake s1 q fun j => { j with reqs := reqs, also := also }
  | _, _ => s

/-- Restores a page from the guest object, which has come. -/
def wakeGuestPage (fs : List ObjFrame) (q : SeqId) (s : State) (p : Nat × Nat) : State :=
  match fs.find? fun f => f.tensor == p.1 && f.page == p.2 with
  | some f => wakeSubmit s q true f
  | none => wakePoison s q p

/-- A page's local copy failed its read, decode or CRC: it is read from the guest object (R263). -/
def wakeFromGuest (s : State) (q : SeqId) (p : Nat × Nat) : State :=
  match s.mem.wakes.find? fun j => j.seq == q with
  | none => s
  | some j =>
    let s1 := modWake s q fun i => { i with left := i.left.filter (fun e => e != p), guestTry := i.guestTry ++ [p] }
    match j.guest with
    | some fs => wakeGuestPage fs q s1 p
    | none => wakeAsk s1 q

/-- Gives a WAKE its directory, frames and reserves, all or none, and issues its reads (R85, R263); without them it stays
WAKING and is tried again when slots come free. Where no directory lists its object, the guest object names the pages (log
entry 99). -/
def wakeTry (s : State) (q : SeqId) : State :=
  match s.mem.wakes.find? fun j => j.seq == q && !j.allocated && !j.copied && !j.halted, seqOf s q with
  | some j, some x =>
    let listed := ((x.parkRef.bind (directoryObject s)).map fun o => o.frames).or j.guest
    match listed with
    | none => wakeAsk s q
    | some fs =>
      let got := (allocBlocks s (directoryBlocks (tensorCount x) x.leaves)).bind fun (b, s1) =>
        let s2 := setSeq s1 q { x with dirBlock := b, dirBlocks := directoryBlocks (tensorCount x) x.leaves }
        (wakeFrames q fs s2).bind fun s3 =>
          takeReserves q ((List.range (tensorCount x)).filter (wantsReserve x)) s3
      match got with
      | none => { s with mem := { s.mem with preempting := true } }
      | some s4 =>
        let pages := fs.map fun f => (f.tensor, f.page)
        match (x.parkRef.bind fun r => (localObject s (some r)).map fun _ => r.port) with
        | some p =>
          foldState (fun s e => startIo s p (.wakeRead q e.1 e.2)) (modWake s4 q fun i => { i with allocated := true, left := pages }) pages
        | none =>
          let s5 := modWake s4 q fun i => { i with allocated := true, guestTry := pages }
          match j.guest with
          | some gs => foldState (wakeGuestPage gs q) s5 pages
          | none => if pages.isEmpty then s5 else wakeAsk s5 q
  | _, _ => s

/-- Starts a WAKE (R84, R85). -/
def startWake (s : State) (q : SeqId) (keys : List CmdKey) : State :=
  let s1 := modSeq s q fun x => { x with state := .waking }
  wakeTry { s1 with mem := { s1.mem with wakes := s1.mem.wakes ++ [{ seq := q, keys := keys }] } } q

/-- Tries again every WAKE that waits for frames (R85). -/
def retryWakes (s : State) : State := foldState wakeTry s (s.mem.wakes.map fun j => j.seq)

/-- A WAKE that a soft reset has stopped goes on from its descriptor state (R87, R471): it takes its frames, or reads those that
are not restored; any other WAKE goes on as it is (log entry 99). -/
def resumeWake (s : State) (q : SeqId) : State :=
  match s.mem.wakes.find? fun j => j.seq == q && j.halted, seqOf s q with
  | some j, some x =>
    let s1 := modWake s q fun i => { i with halted := false }
    if j.copied then s1
    else if !j.allocated then wakeTry s1 q
    else
      let s2 := match x.parkRef.bind fun r => (localObject s (some r)).map fun _ => r.port with
        | some p => foldState (fun s e => startIo s p (.wakeRead q e.1 e.2)) s1 j.left
        | none => foldState (fun s e => wakeFromGuest s q e) s1 j.left
      match j.guest with
      | some fs => foldState (wakeGuestPage fs q) s2 j.guestTry
      | none => if j.guestTry.isEmpty then s2 else wakeAsk s2 q
  | _, _ => s

/-- WAKE (R84, R85). A replica rebuilds its frames by a copy from its predecessor (R334). -/
def execWake (c : Command) (s : State) : Out :=
  .next <| whenReady s c fun _ =>
    let q := c.desc.seq.id
    match c.desc.body, seqOf s q with
    | .wake, none => complete s c { status := .noState }
    | .wake, some x => match x.state with
      | .evicting => complete s c { status := .noState }
      | .active => complete s c { status := .ok }
      | .parking => complete s c { status := .busyRetry }
      | .waking => resumeWake { s with mem := { s.mem with wakes := s.mem.wakes.map (joinWake q (cmdKey c)) } } q
      | .parked =>
        if c.chainedFrom.isSome then
          modSeq { s with mem := { s.mem with wakes := s.mem.wakes ++ [{ seq := q, keys := [cmdKey c], copied := true }] } } q
            fun y => { y with state := .waking }
        else startWake s q [cmdKey c]
    | _, _ => s

/-- The copies by which this node's successors rebuild a woken sequence (R334). -/
def wakeReplicas (s : State) (q : SeqId) (repl : Nat) (pred : Option Nat) : State :=
  match s.comp.map with
  | none => s
  | some m =>
    let new := (successors m q repl pred).map fun e =>
      ({ cell := e.2, layout := layoutNo m q, joiner := e.1, todo := [q], wake := true } : CopyOut)
    { s with comp := { s.comp with copies := s.comp.copies ++ new } }

/-- The WAKE ends (R263, R229): the sequence is ACTIVE with prefetch depth K_INIT, and both objects are released. -/
def wakeDone (s : State) (q : SeqId) (j : WakeJob) (x : Seq) : State :=
  let s1 := modSeq s q fun y => { y with state := .active, parkRef := none, depth := pKInit s, objSize := 0 }
  let s2 := { s1 with mem := { s1.mem with wakes := s1.mem.wakes.filter fun i => i.seq != q } }
  finishKeys (wakeReplicas (releaseObjects s2 q true x.parkRef) q x.handle.repl none) j.keys .ok

/-- The guest object of a WAKE has come: it names the pages where no directory did, and gives those that the local object
could not. -/
def wakeGuestCame (s : State) (q : SeqId) (j : WakeJob) (fs : List ObjFrame) : State :=
  let s1 := modWake s q fun i => { i with guest := some fs, reqs := [] }
  if j.allocated then foldState (wakeGuestPage fs q) s1 j.guestTry else wakeTry s1 q

/-- The guest object of a WAKE cannot be had: the pages that wait for it are restored with POISON (R263). A WAKE that does not
know its pages asks again. -/
def wakeGuestLost (s : State) (q : SeqId) (j : WakeJob) : State :=
  if j.allocated then foldState (fun s p => wakePoison s q p) (modWake s q fun i => { i with guest := some [], reqs := [] }) j.guestTry
  else modWake s q fun i => { i with reqs := [] }

/-- WAKE_COMPLETE (R263): the guest object is taken in once it has come, and the WAKE ends when every stream is restored, from
the local or else from the guest object. -/
def execWakeComplete (q : SeqId) (s : State) : Out :=
  .next <| whileRunning s fun _ =>
    match s.mem.wakes.find? fun j => j.seq == q && !j.copied && !j.halted, seqOf s q with
    | some j, some x =>
      if !j.reqs.isEmpty then
        let n := (x.parkRef.map fun r => r.partner).getD 0
        let s1 := dropHolders s n j.reqs j.also
        match firstAnswer s n j.reqs j.also with
        | .waiting => s
        | .again => wakeAsk (modWake s1 q fun i => { i with reqs := [] }) q
        | .failed => wakeGuestLost s1 q j
        | .bytes b => wakeGuestCame s1 q j (parseObject b).2
      else if !j.allocated then wakeTry s q
      else if j.left.isEmpty && j.guestTry.isEmpty then wakeDone s q j x
      else s
    | _, _ => s

/-! ### Recovery steps that wait for an object (R345, R346) -/

/-- Keeps the record of a STEP among the last 4,096. -/
def putStep (s : State) (r : StepRec) : State :=
  let same := fun (x : StepRec) => x.epoch == r.epoch && x.stepId == r.stepId && x.seq == r.seq
  let l := s.comp.steps.filter (fun x => !same x) ++ [r]
  { s with comp := { s.comp with steps := l.drop (l.length - 4096) } }

/-- The answer to an executed STEP: to the composers, or to the node that sent an ADOPT (R347). -/
def stepAnswer (s : State) (dest : Option Nat) (stepId : Nat) (st : Status) : State :=
  match dest with
  | none => reportAll s 4 st (nodeId s) (epochOf s) stepId 0
  | some n => sendControl s (.node n) (reportMsg 4 st (nodeId s) (epochOf s) stepId 0)

/-- One ADOPT of a TRANSFER_GUESTS has been answered; the last answer completes it (R346). -/
def stepWaited (s : State) (r : StepRec) (q : SeqId) (st : Status) : State :=
  let r1 := { r with waiting := r.waiting.filter (· != q), acc := r.acc.worse st }
  if r1.waiting.isEmpty then stepAnswer (putStep s { r1 with status := some r1.acc }) none r.stepId r1.acc else putStep s r1

/-- An adopted object is written, or could not be: the ADOPTs of its sequence are answered, and so is the step by which this
node adopts a guest object that it holds itself. -/
def adoptAnswered (s : State) (q : SeqId) (st : Status) : State :=
  let mine := s.comp.steps.filter fun r => r.action == 2 && r.seq == some q && r.status.isNone
  let s1 := foldState (fun s (r : StepRec) => stepAnswer (putStep s { r with status := some st }) (some r.arg) r.stepId st) s mine
  let own := s1.comp.steps.filter fun r =>
    r.action == 1 && r.status.isNone && r.waiting.contains q && (guestOf s1 (nodeId s1) q).isSome
  foldState (fun s (r : StepRec) => stepWaited s r q st) s1 own

/-- Adds the re-protection of sequences that have lost a copy (R264). -/
def protectDue (s : State) (lostLocal : Bool) (qs : List SeqId) : State :=
  let new := qs.filter fun q => s.mem.protects.all fun j => !(j.seq == q && j.lostLocal == lostLocal)
  { s with mem := { s.mem with protects := s.mem.protects ++ new.map fun q => { seq := q, lostLocal := lostLocal } } }

/-- An adopted object is on the media (R346): PARK_REF names it, and an absent sequence becomes PARKED. One that this node held
as a guest itself goes on to its own partner (R264, log entry 32). -/
def adopted (s : State) (p : Nat) (q : SeqId) : State :=
  match (portOf s p).objects.find? fun o => o.seq == q && !o.flushed with
  | none => s
  | some o =>
    let s1 := modPort s p fun c => { c with objects := c.objects.map fun x => if x.number = o.number then { x with flushed := true } else x }
    let s2 := match seqOf s1 q with
      | some _ => modSeq s1 q fun x => { x with parkRef := o.descr.parkRef, tensors := o.descr.tensors, objSize := objectSize o }
      | none => setSeq s1 q { o.descr with state := .parked, objSize := objectSize o }
    let own := (guestOf s2 (nodeId s2) q).isSome
    adoptAnswered (if own then protectDue s2 false [q] else s2) q .ok

/-! ### I/O (R255, R256) -/



/-- The parked sequences whose local object is on the cartridge in a port. -/
def parkedOn (s : State) (p : Nat) : List SeqId :=
  (s.mem.seqs.filter fun e => e.2.state == .parked && (e.2.parkRef.bind (refPort s)) == some p).map Prod.fst

/-- The PARKs whose local copy is on a port write it to the other port (R267): those that are not yet flushed or, where the
cartridge is gone, all of them. -/
def moveParks (s : State) (p : Nat) (all : Bool) : State :=
  foldState (fun s (j : ParkJob) => parkLocal (dropHalf s j.seq) j.seq) s
    (s.mem.parks.filter fun j => j.port == p && j.object != 0 && !j.halted && (all || !j.localDone))

/-- Source 57 follows the ports' WARN80 (R265, R476). -/
def lifeLevel (s : State) : State :=
  let first := if (portOf s 0).warn80 then 0 else 1
  setLevel s 57 ((portOf s 0).warn80 || (portOf s 1).warn80) { kind := 10, num := first }

/-- The node's table of cartridges once the one in a port is away: its LIFE and its directory stay with it (R265, R266); an
object without a flushed directory entry, and a guest object that is incomplete (R311), is to be deallocated (R267). -/
def cartsWith (s : State) (p : Nat) : Tab CartRec :=
  let c := portOf s p
  let partial_ := (portGuests s p).filter fun g => !g.committed
  if c.state = 4 ∨ c.state = 5 ∨ c.state = 6 then
    tabModD s.mem.carts c.identity.cartridgeId {} fun r =>
      { life := c.life, objects := c.objects.filter (fun o => o.flushed), nextObject := c.nextObject,
        stale := r.stale + (c.objects.filter fun o => !o.flushed).length + partial_.length }
  else s.mem.carts

/-- A port reports EMPTY (R267): its objects are re-protected, a PARK in progress goes to the other port, and the guest objects
on the cartridge that are incomplete are discarded (R311). -/
def portEmpty (s : State) (p : Nat) : State :=
  let due := parkedOn s p
  let kept := s.mem.guests.filter fun g => g.committed || !(portGuests s p).contains g
  let s1 := modPort { s with mem := { s.mem with carts := cartsWith s p, guests := kept } } p fun _ => {}
  lifeLevel (moveParks (protectDue s1 true due) p true)

/-- An EJECTING port without I/O in flight reports EMPTY (R267). -/
def drainEject (s : State) (p : Nat) : State :=
  if (portOf s p).state == 5 && (s.mem.nvme.all fun n => n.port != p) then portEmpty s p else s

/-- A Cask life record (R495). -/
def lifeRecord (s : State) (p event : Nat) : State :=
  let c := portOf s p
  caskNote s 0x50 (le 1 p ++ le 1 event ++ le 2 c.life ++ le 8 c.identity.cartridgeId ++ le 4 c.identity.ratedTb)

/-- The bytes of an identity record that its signature covers (R257). -/
def idRecordBytes (r : IdRecord) : List Byte :=
  le 4 r.magic ++ le 2 r.version ++ le 2 0 ++ le 8 r.cartridgeId ++ padTo 20 r.serial ++ padTo 40 r.model ++ le 4 0
    ++ padTo 32 r.nodeKeyHash ++ le 4 r.enrolBoot ++ le 4 0 ++ le 8 r.enrolCount ++ le 4 r.ratedTb ++ le 4 0
    ++ le 16 r.duwBase ++ le 8 r.lbas ++ le 96 0

/-- NODE_KEY_HASH of this node (R257). -/
def nodeKeyHash (s : State) : List Byte := shake256 (padTo 64 (attKey s)) 32

/-- The namespace is formatted (R258): its content is gone, and the identity record is written. -/
def enrolFormatted (s : State) (p : Nat) : State :=
  let c := portOf s p
  let old := c.identity.cartridgeId
  let rec_ : IdRecord :=
    { cartridgeId := Config.random s.fresh % 18446744073709551616, serial := c.serial, model := c.model, nodeKeyHash := nodeKeyHash s,
      enrolBoot := s.cask.boot, enrolCount := now s, ratedTb := rd s (0x60214 + 32 * p), duwBase := c.dataUnits,
      lbas := 262144 * c.sizeGib }
  let s1 := { s with fresh := s.fresh + 1, mem := { s.mem with guests := s.mem.guests.filter (fun g => g.cart != old),
                                                               carts := tabDel s.mem.carts old } }
  startIo (modPort s1 p fun c => { c with identity := rec_, objects := [], nextObject := 1 }) p .recordWrite

/-- The identity record is on the media (R258): the port is READY, or LIFE_END for a cartridge whose LIFE has ended. -/
def enrolDone (s : State) (p : Nat) : State :=
  lifeRecord (modPort s p fun c => { c with state := if 1000 ≤ c.life then 6 else 4, reason := 0, enrolling := false }) p 1

/-- The sequence's re-protection by a new local object is complete (R264): PARK_REF names it, and the old one goes. -/
def protectedLocal (s : State) (q : SeqId) : State :=
  match s.mem.protects.find? fun j => j.seq == q && j.lostLocal, seqOf s q with
  | some j, some x =>
    let s1 := modPort s j.port fun c => { c with objects := c.objects.map fun o => if o.number = j.object then { o with flushed := true } else o }
    let s2 := match x.parkRef with
      | some r => dropObject s1 r
      | none => s1
    let o := (portOf s1 j.port).objects.find? fun o => o.number == j.object
    let ref := (o.bind fun o => o.descr.parkRef).map fun r => { r with partner := (x.parkRef.map fun y => y.partner).getD r.partner }
    let s3 := modPort s2 j.port fun c => { c with objects := c.objects.map fun o =>
      if o.number = j.object then { o with descr := { o.descr with parkRef := ref } } else o }
    let s4 := modSeq s3 q fun y => { y with parkRef := ref, objSize := (o.map objectSize).getD y.objSize }
    { s4 with mem := { s4.mem with protects := s4.mem.protects.filter fun i => !(i.seq == q && i.lostLocal) } }
  | _, _ => s

/-- A command's data transfer of a guest object ended. -/
def guestIoDone (s : State) (port : Nat) (key : CmdKey) (f : State → Live → State) : State :=
  match liveOf s key with
  | none => s
  | some l => if canRead s port then f s l else complete s l.cmd { status := .lifeEnd }

/-- A flush follows a write (R256) while the port takes writes (R265). -/
def flushAfter (s : State) (port : Nat) (why : IoWhy) : State := if canWrite s port then startIo s port why else s

/-- An I/O completed. -/
def ioDone (s : State) (n : Nvme) : State :=
  match n.why with
  | .parkWrite q => flushAfter s n.port (.parkFlush q)
  | .parkFlush q =>
    let s1 := modPort s n.port fun c => { c with objects := c.objects.map fun o => if o.seq = q then { o with flushed := true } else o }
    modPark s1 q fun j => { j with localDone := true }
  | .wakeRead q t k =>
    let o := (seqOf s q).bind fun x => localObject s x.parkRef
    match o.bind fun o => o.frames.find? fun f => f.tensor == t && f.page == k with
    | some f => wakeSubmit s q false f
    | none => wakeFromGuest s q (t, k)
  | .guestWrite key commit =>
    guestIoDone s n.port key fun s l =>
      if !commit then complete s l.cmd { status := .ok }
      else if canWrite s n.port then startIo s n.port (.guestFlush key)
      else complete s l.cmd { status := .lifeEnd }
  | .guestFlush key =>
    guestIoDone s n.port key fun s l =>
      let s1 := { s with mem := { s.mem with guests := s.mem.guests.map fun g =>
        if g.seq = l.cmd.desc.seq.id ∧ Endpoint.node g.origin = l.cmd.src then { g with committed := true } else g } }
      complete s1 l.cmd { status := .ok }
  | .guestRead key =>
    guestIoDone s n.port key fun s l =>
      match l.cmd.desc.body, l.cmd.src with
      | .guestGet offset length, .node origin => match guestOf s origin l.cmd.desc.seq.id with
        | some g => complete s l.cmd { status := .ok, data := (g.bytes.drop offset).take length }
        | none => complete s l.cmd { status := .noState }
      | _, _ => s
  | .protectWrite q => flushAfter s n.port (.protectFlush q)
  | .protectFlush q => protectedLocal s q
  | .adoptWrite q => flushAfter s n.port (.adoptFlush q)
  | .adoptFlush q => adopted s n.port q
  | .deallocate => s
  | .format => enrolFormatted s n.port
  | .recordWrite => startIo s n.port .recordFlush
  | .recordFlush => enrolDone s n.port

/-- A re-protection starts over: its new object is taken back. -/
def protectRestart (s : State) (q : SeqId) : State :=
  let s1 := dropHalf s q
  { s1 with mem := { s1.mem with protects := s1.mem.protects.map fun j =>
    if j.seq = q ∧ j.lostLocal = true then { j with port := 0, object := 0 } else j } }

/-- A transfer failed (R255): a read goes to the guest object, a PARK is left to R262, a guest command ends with INTERNAL, a
re-protection starts over, an ADOPT is answered INTERNAL, and an enrolment leaves the port as it was (log entry 99). -/
def ioFailed (s : State) (n : Nvme) : State :=
  match n.why with
  | .parkWrite _ => s
  | .parkFlush _ => s
  | .wakeRead q t k => wakeFromGuest s q (t, k)
  | .guestWrite key _ => completeKeys s [key] .internal
  | .guestFlush key => completeKeys s [key] .internal
  | .guestRead key => completeKeys s [key] .internal
  | .protectWrite q => protectRestart s q
  | .protectFlush q => protectRestart s q
  | .adoptWrite q => adoptAnswered (dropHalf s q) q .internal
  | .adoptFlush q => adoptAnswered (dropHalf s q) q .internal
  | .deallocate => s
  | .format => modPort s n.port fun c => { c with enrolling := false }
  | .recordWrite => modPort s n.port fun c => { c with enrolling := false }
  | .recordFlush => modPort s n.port fun c => { c with enrolling := false }

/-- Whether an I/O is in flight: a port has 16 queue pairs of 256 places (R255). -/
def inFlight (s : State) (n : Nvme) : Bool := ((s.mem.nvme.filter fun i => i.port == n.port).take 4096).contains n

/-- NVME_COMPLETION (R255): an error is tried once more, and a second one fails the transfer. -/
def execNvmeCompletion (io : Nat) (ok : Bool) (s : State) : Out :=
  .next <| whileRunning s fun _ =>
    match s.mem.nvme.find? fun n => n.id == io with
    | none => s
    | some n =>
      if !inFlight s n then s
      else if !ok && !n.retried then
        { s with mem := { s.mem with nvme := s.mem.nvme.map fun i => if i.id = io then { i with retried := true } else i } }
      else
        let s1 := { s with mem := { s.mem with nvme := s.mem.nvme.filter fun i => i.id != io } }
        let s2 := if ok then ioDone s1 n
          else ioFailed (raise s1 { source := 55 + n.port, unit := { kind := 10, num := n.port } }) n
        drainEject s2 n.port

/-! ### Guest commands (R309) -/

/-- The node that a command came from, over a SYS association. -/
def fromNode (c : Command) : Option Nat :=
  match c.src with
  | .node n => if c.sys then some n else none
  | .adapter _ => none

/-- Whether a guest object's transfer of a command is in progress: the next piece waits for it. -/
def guestBusy (s : State) (origin : Nat) (q : SeqId) : Bool :=
  s.mem.nvme.any fun n => match n.why with
    | .guestWrite k _ => (liveOf s k).any fun l => l.cmd.src == .node origin && l.cmd.desc.seq.id == q
    | .guestFlush k => (liveOf s k).any fun l => l.cmd.src == .node origin && l.cmd.desc.seq.id == q
    | _ => false

/-- Adds bytes to a guest object: they are written, and flushed where the piece commits it (R256, R309). -/
def guestAdd (s : State) (c : Command) (g : Guest) (offset : Nat) (commit : Bool) : State :=
  let len := g.bytes.length + c.payload.length
  if offset ≠ g.bytes.length ∨ g.len < len ∨ (commit = true ∧ len ≠ g.len) then complete s c { status := .refusedFit }
  else match (guestPort s g).filter (canWrite s) with
    | none => complete s c { status := .lifeEnd }
    | some p => startIo (putGuest s { g with bytes := g.bytes ++ c.payload }) p (.guestWrite (cmdKey c) commit)

/-- GUEST_PUT (R261, R265, R309). -/
def execGuestPut (c : Command) (s : State) : Out :=
  .next <| whenReady s c fun _ =>
    match c.desc.body, fromNode c with
    | .guestPut create commit offset objLen, some origin =>
      let q := c.desc.seq.id
      if guestBusy s origin q then s
      else if create then
        let s1 := discardGuest s origin q
        if !canWrite s1 0 && !canWrite s1 1 then complete s1 c { status := .lifeEnd }
        else match choosePort s1 objLen with
          | none => complete s1 c { status := .refusedFit }
          | some p => guestAdd s1 c { origin := origin, seq := q, cart := portCart s1 p, len := objLen } offset commit
      else match guestOf s origin q with
        | none => complete s c { status := .refusedFit }
        | some g => guestAdd s c g offset commit
    | .guestPut _ _ _ _, none => complete s c { status := .refusedFit }
    | _, _ => s

/-- GUEST_GET (R309): bytes beyond the object are refused. -/
def execGuestGet (c : Command) (s : State) : Out :=
  .next <| whenReady s c fun _ =>
    match c.desc.body, fromNode c with
    | .guestGet offset length, some origin =>
      if s.mem.nvme.any fun n => n.why == .guestRead (cmdKey c) then s
      else match guestOf s origin c.desc.seq.id with
        | none => complete s c { status := .noState }
        | some g => match if g.committed then guestPort s g else none with
          | none => complete s c { status := .noState }
          | some p =>
            if g.len < offset + length then complete s c { status := .refusedFit }
            else startIo s p (.guestRead (cmdKey c))
    | .guestGet _ _, none => complete s c { status := .refusedFit }
    | _, _ => s

/-- GUEST_RELEASE (R263, R309): an absent object completes OK. -/
def execGuestRelease (c : Command) (s : State) : Out :=
  .next <| whenReady s c fun _ =>
    match c.desc.body, fromNode c with
    | .guestRelease, some origin =>
      tenantAbsent (complete (discardGuest s origin c.desc.seq.id) c { status := .ok }) c.desc.seq.tenant
    | .guestRelease, none => complete s c { status := .refusedFit }
    | _, _ => s

/-! ### Re-protection (R264) -/

/-- Changes the re-protections of one kind of a sequence. -/
def modProtect (s : State) (q : SeqId) (lostLocal : Bool) (f : ReProtect → ReProtect) : State :=
  { s with mem := { s.mem with protects := s.mem.protects.map fun i => if i.seq = q ∧ i.lostLocal = lostLocal then f i else i } }

/-- A re-protection ends without effect. -/
def endProtect (s : State) (q : SeqId) (lostLocal : Bool) : State :=
  { s with mem := { s.mem with protects := s.mem.protects.filter fun i => !(i.seq == q && i.lostLocal == lostLocal) } }

/-- Writes the object of a re-protection to Cellar port `p` (R264). -/
def protectWriteAt (s : State) (q : SeqId) (partner : Nat) (o : Parked) (p : Nat) : State :=
  let (ref, s1) := writeObject s p partner o (.protectWrite q)
  modProtect s1 q true fun i => { i with port := p, object := ref.object, reqs := [] }

/-- Writes the new local object of a re-protection (R264): PARK_REF changes once it is flushed. -/
def protectPlace (s : State) (q : SeqId) (x : Seq) (partner : Nat) (fs : List ObjFrame) : State :=
  match choosePort s (objectSize (objectOf q 0 x fs)) with
  | none => s
  | some p => protectWriteAt s q partner (objectOf q 0 x fs) p

/-- The local copy of a sequence was lost: its object, from the port that still reads it or from the partner, goes to a
port. -/
def protectLocal (s : State) (j : ReProtect) (x : Seq) (r : ParkRef) : State :=
  let q := j.seq
  if j.object ≠ 0 then s
  else match localObject s (some r) with
    | some o => protectPlace s q x r.partner o.frames
    | none =>
      let ask := fun (s : State) =>
        let (reqs, also, s1) := askHolders s r.partner q x.objSize
        modProtect s1 q true fun i => { i with reqs := reqs, also := also }
      if j.reqs.isEmpty then ask s
      else
        let s1 := dropHolders s r.partner j.reqs j.also
        match firstAnswer s r.partner j.reqs j.also with
        | .waiting => s
        | .again => ask s1
        | .failed => endProtect s1 q true
        | .bytes b => protectPlace s1 q x r.partner (parseObject b).2

/-- The partner's copy was lost: the local object goes to the map's partner, and PARK_REF names it once it has
acknowledged. -/
def protectGuest (s : State) (j : ReProtect) (x : Seq) (r : ParkRef) : State :=
  let q := j.seq
  match partnerOf s with
  | none => s
  | some n =>
    if !j.reqs.isEmpty && j.partner == n then
      if j.reqs.any fun k => (answerOf s n k).isNone then s
      else
        let s1 := dropAnswers s n j.reqs
        if allPut s n j.reqs then
          let ref := { r with partner := n }
          let s2 := match refPort s1 r with
            | some p => modPort s1 p fun c => { c with objects := c.objects.map fun o => if o.number = r.object then refTo ref o else o }
            | none => s1
          discardGuest (endProtect (modSeq s2 q fun y => { y with parkRef := some ref }) q false) (nodeId s2) q
        else modProtect s1 q false fun i => { i with reqs := [] }
    else match localObject s (some r) with
      | none => s
      | some o =>
        let (reqs, s1) := sendGuest s n q (objectBytes (objectOf q r.object x o.frames))
        modProtect s1 q false fun i => { i with reqs := reqs, partner := n }

/-- One re-protection of a sequence goes on, or ends where the sequence is no longer parked (R264). -/
def protectStep (q : SeqId) (s : State) (j : ReProtect) : State :=
  match seqOf s q with
  | some x => match x.state, x.parkRef with
    | .parked, some r => if j.lostLocal then protectLocal s j x r else protectGuest s j x r
    | .parked, none => s
    | _, _ => endProtect s q j.lostLocal
  | none => endProtect s q j.lostLocal

/-- RE_PROTECT (R264). -/
def execReProtect (q : SeqId) (s : State) : Out :=
  .next <| whileRunning s fun _ => foldState (protectStep q) s (s.mem.protects.filter fun j => j.seq == q)

/-! ### Cartridges (R254, R258, R265 to R267) -/

/-- Whether an identity record verifies for a cartridge (R257); `sigOk` is whether its signature does. -/
def recordVerifies (i : CartridgeInfo) : Bool :=
  i.record.version == 1 && i.sigOk && padTo 20 i.record.serial == padTo 20 i.serial && padTo 40 i.record.model == padTo 40 i.model

/-- The first condition of R254 that a cartridge breaks, 0 when none; 8 marks a cartridge without the record's MAGIC. -/
def cartridgeReason (s : State) (i : CartridgeInfo) : Nat :=
  if !i.pcieOk || !(i.width == 8 || i.width == 4) then 1
  else if !i.nvmeOk then 2
  else if !i.namespaceOk then 3
  else if i.sizeGib < 1024 || 65536 < i.sizeGib then 4
  else if !i.queuesOk then 5
  else if i.record.magic ≠ 0x4C524543 then 8
  else if !recordVerifies i then 6
  else if i.record.nodeKeyHash ≠ nodeKeyHash s then 7
  else 0

/-- PARK_REF.PORT follows a cartridge to the port that it is put into, and what its absence had made due is not. -/
def followCart (s : State) (p : Nat) : State :=
  let cart := portCart s p % 16777216
  let s1 := { s with mem := { s.mem with seqs := s.mem.seqs.map fun e =>
    (e.1, match e.2.parkRef with
      | some r => if r.cart = cart ∧ ((portOf s p).objects.any fun o => o.number == r.object) = true then
          { e.2 with parkRef := some { r with port := p } } else e.2
      | none => e.2) } }
  let back := if canWrite s1 p then parkedOn s1 p else []
  { s1 with mem := { s1.mem with protects := s1.mem.protects.filter fun j => !(j.lostLocal && j.object == 0 && back.contains j.seq) } }

/-- A cartridge is brought into service, or not (R254, R266): its LIFE and its directory come back with it, and what the
directory does not name is deallocated. The port passes through TRAINING within the step. -/
def insertCartridge (s : State) (p : Nat) (i : CartridgeInfo) : State :=
  let reason := cartridgeReason s i
  let known := cartOf s i.record.cartridgeId
  let ready := reason == 0
  let life := if ready then known.life else 0
  let s1 := modPort s p fun _ =>
    { state := if !ready then (if reason = 8 then 3 else 2) else if 1000 ≤ known.life then 6 else 4
      reason := if reason = 8 then 0 else reason
      width := i.width, gen5 := i.gen5, sizeGib := i.sizeGib, serial := i.serial, model := i.model, identity := i.record
      dataUnits := i.dataUnits, life := life, warn80 := decide (800 ≤ life), warn95 := decide (950 ≤ life)
      objects := if ready then known.objects else [], nextObject := if ready then known.nextObject else 1 }
  let s2 := if ready then
      followCart (iter (fun s => deallocate s p) known.stale
        { s1 with mem := { s1.mem with carts := tabDel s1.mem.carts i.record.cartridgeId } }) p
    else s1
  let s3 := lifeLevel s2
  if 1 ≤ reason ∧ reason ≤ 7 then raise s3 { source := 55 + p, unit := { kind := 10, num := p }, detail := reason } else s3

/-- CARTRIDGE_INSERT (R266). -/
def execCartridgeInsert (port : Fin 2) (info : CartridgeInfo) (s : State) : Out :=
  .next <| if s.running && (portOf s port.val).state == 0 then
      insertCartridge s port.val info else s

/-- A cartridge is gone (R267): all I/O in flight fails, PARKs go to the other port, WAKEs read the guest objects. -/
def portGone (s : State) (p : Nat) : State :=
  let lost := s.mem.nvme.filter fun n => n.port == p
  let s1 := portEmpty { s with mem := { s.mem with nvme := s.mem.nvme.filter fun n => n.port != p } } p
  foldState ioFailed s1 lost

/-- CARTRIDGE_REMOVAL (R267). -/
def execCartridgeRemoval (port : Fin 2) (s : State) : Out :=
  .next <| whileRunning s fun _ =>
    if (portOf s port.val).state == 0 then s
    else raise (portGone s port.val) { source := 55 + port.val, unit := { kind := 10, num := port.val } }

/-- CP_ENROL (R258): accepted in UNENROLLED, or in REFUSED with reason 6 or 7; the format starts. -/
def cpEnrol (port : Fin 2) (s : State) : State :=
    let p := port.val
    let c := portOf s p
    if (c.state == 3 || (c.state == 2 && (c.reason == 6 || c.reason == 7))) && !c.enrolling then
      startIo (modPort s p fun c => { c with enrolling := true }) p .format
    else s

/-- CP_ENROL: the write has its effect where the access reaches the register (R522). -/
def execCpEnrol (port : Fin 2) (s : State) : Out := .next (regEnter s (0x60218 + 32 * port.val) (cpEnrol port))

/-- CP_EJECT (R267). -/
def cpEject (port : Fin 2) (s : State) : State :=
    if (portOf s port.val).state == 0 then s
    else drainEject (moveParks (modPort s port.val fun c => { c with state := 5 }) port.val false) port.val

/-- CP_EJECT: the write has its effect where the access reaches the register (R522). -/
def execCpEject (port : Fin 2) (s : State) : Out := .next (regEnter s (0x60218 + 32 * port.val) (cpEject port))

/-- LIFE in tenths of a percent (R265). -/
def lifeOf (c : CellarPort) (l : SmartLog) : Nat :=
  let used := 10 * l.percentageUsed
  let i := c.identity
  let written := if i.ratedTb = 0 then 0 else 512000000 * (l.dataUnitsWritten - i.duwBase) / (1000000000000 * i.ratedTb)
  min 1000 (max used written)

/-- SMART_POLL (R265): LIFE never falls; crossing 80 %, 95 % and the end writes a life record each. -/
def execSmartPoll (port : Fin 2) (log : SmartLog) (s : State) : Out :=
  .next <| whileRunning s fun _ =>
    let p := port.val
    let c := portOf s p
    if c.state != 4 && c.state != 6 then s
    else
      let life := max c.life (lifeOf c log)
      let ended := decide (1000 ≤ life) || log.readOnly
      let s1 := modPort s p fun c => { c with life := life, warn80 := decide (800 ≤ life), warn95 := decide (950 ≤ life),
                                              dataUnits := log.dataUnitsWritten }
      let s2 := if 800 ≤ life ∧ ¬ c.warn80 then lifeLevel (lifeRecord s1 p 2) else s1
      let s3 := if 950 ≤ life ∧ ¬ c.warn95 then lifeRecord s2 p 3 else s2
      if ended && c.state == 4 then
        let s4 := lifeRecord (modPort s3 p fun c => { c with state := 6 }) p 4
        moveParks (protectDue s4 true (parkedOn s4 p)) p false
      else s3

/-! ### Preemption (R77, R238) -/

/-- Whether preemption runs: from below FREE_LOW on some stack to FREE_HIGH on all (R77). -/
def preemptRuns (s : State) : Bool :=
  anyLow s || (s.mem.preempting && (List.range 12).any fun st => decide (freeCount s st < pFreeHigh s))

/-- Whether a sequence may be a victim (R77). -/
def isCandidate (s : State) (x : Seq) : Bool :=
  x.state == .active && elapsed s x.lastAccess (pMinIdle s) && decide (x.handle.cls < pProtect s)

/-- The frames of a victim that may move: unpinned and of one reference. -/
def victimFrames (s : State) (x : Seq) : List Nat :=
  ((allPages s x).map fun e => e.2.2.lpn).filter fun l => mayDemote s l && (frameOf s l).refcount == 1

/-- The place of a victim in the order of R77: class, last access, handle. -/
def victimKey (x : Seq) : Nat := (x.handle.cls * 2 ^ 64 + x.lastAccess) * 2 ^ 64 + x.handle.num

/-- The victim that R77 chooses among the candidates with a frame to move. -/
def victim (s : State) : Option (SeqId × Seq) :=
  minBy (fun e => victimKey e.2) (s.mem.seqs.filter fun e => isCandidate s e.2 && !(victimFrames s e.2).isEmpty)

/-- Frames that preemption may still move in its window of 1,000 ticks, of the `limit` of the path (R78, R238, R268; log
entry 36). -/
def preemptBudget (s : State) (limit : Nat) : Nat :=
  let n := min (pPreemptRate s) limit
  if elapsed s s.mem.preSince 1000 then n else n - s.mem.preMoved

/-- Counts moved frames in the window. -/
def preemptSpend (s : State) (n : Nat) : State :=
  if elapsed s s.mem.preSince 1000 then { s with mem := { s.mem with preSince := now s, preMoved := n } }
  else { s with mem := { s.mem with preMoved := s.mem.preMoved + n } }

/-- Slots of a stack that wait for their zero-fill. -/
def zeroCount (s : State) (st : Nat) : Nat := sumNat ((List.range 28).map fun i => (freeOf s (pcNum st (4 + i))).toZero.length)

/-- The clean staged copies of the stacks below FREE_LOW that are not pinned (R236). -/
def cleanCopies (s : State) : List Nat :=
  let low := (List.range 12).filter fun st => decide (freeCount s st < pFreeLow s)
  (s.mem.frames.filter fun e => e.2.staged && !e.2.dirty && e.2.pins == 0 && !e.2.inFlux
    && !(s.mem.downs.any fun d => d.lpn == e.1) && match e.2.alt with
      | .hbm st _ _ => low.contains st
      | _ => false).map Prod.fst

/-- Whether preemption chooses victims once those copies are released (R77, R236). -/
def preemptChooses (s : State) : Bool :=
  s.mem.preempting || (List.range 12).any fun st => decide (freeCount s st + zeroCount s st < pFreeLow s)

/-- Whether a modifying command of a sequence is half done: preemption parks as PARK does, after it (R128). -/
def halfDone (s : State) (q : SeqId) : Bool := s.exec.live.any fun l => modifies l.cmd q && l.begun && !l.executed

/-- PREEMPT_VICTIM (R77): the stacks that lack slots first release their clean staged copies (R236); then the victim's frames
are written down while a lower tier has room, else the victim is parked. The frames that move per 1,000 ticks are bounded by
PREEMPT_RATE and by the path: 271 to LPDDR5X, 87 to HOST (R238), 40 to the Cellar (R268). -/
def execPreemptVictim (s : State) : Out :=
  .next <| whileRunning s fun _ =>
    if !preemptRuns s then { s with mem := { s.mem with preempting := false } }
    else
      let s0 := foldState releaseStaged s (cleanCopies s)
      if !preemptChooses s0 then retryWakes s0
      else
        let s1 := { s0 with mem := { s0.mem with preempting := true } }
        match victim s1 with
        | none => retryWakes s1
        | some (q, x) =>
          let s2 := if (allocExtent s1 36).isSome then
              let fs := (victimFrames s1 x).take (preemptBudget s1 (if (allocLp s1 36).isSome then 271 else 87))
              foldState (fun s l => startDown s l .preempt (frameOf s l).loc) (preemptSpend s1 fs.length) fs
            else if (canWrite s1 0 || canWrite s1 1) && !halfDone s1 q then startPark s1 q [] true
            else s1
          retryWakes s2

end Sys2Proof.Machine
end

