-- ==== Sys2Proof/Machine/Append.lean ====
section
/-!
DEFINITION. Machine/Append.lean: APPEND (R118 to R121): creating a sequence (R49, R119), taking frames all or nothing (R74),
copy-on-write (R70), the writes, the commit of a frame (R205), growth reserves (R75) and zero-fill (R59).
-/

namespace Sys2Proof.Machine

/-! ### The state of the sequence (R84) -/

/-- Runs `f` on an ACTIVE sequence; any other state is answered as R84 states, and a PARKED sequence starts to WAKE at its
owner (R84, R324). `refusal` is what the command meets of this sequence before BUSY_RETRY and NOPAGE (R11). -/
def withActive (s : State) (c : Command) (q : SeqId) (refusal : Seq → Option Reply) (f : Seq → State) : State :=
  match seqOf s q with
  | none => complete s c { status := .noState }
  | some x =>
    if x.state = .evicting then complete s c { status := .noState }
    else match refusal x with
      | some r => complete s c r
      | none => match x.state with
        | .active => f x
        | .parked =>
          let s1 := complete s c { status := .busyRetry }
          if c.chainedFrom.isNone && roleOf s c.desc == .owner then startWake s1 q [] else s1
        | _ => complete s c { status := .busyRetry }

/-- REFUSED_FIT where a condition holds. -/
def unfit (p : Bool) : Option Reply := if p then some { status := .refusedFit } else none

/-! ### Creation (R49, R119, R323) -/



/-- Whether a CODEC byte names a table or RAW (R242). -/
def codecByteOk (b : Byte) : Bool := decide (b.toNat < 0x20) || b == 0x80#8

/-- The conditions of R49 that need no allocation. -/
def shapeOk (s : State) (x : Seq) : Bool :=
  decide (1 ≤ x.layers) && decide (x.layers ≤ 256) && decide (1 ≤ x.kvHeads) && decide (x.kvHeads ≤ 128)
    && headDims.contains x.headDim && decide (1 ≤ x.maxTokens) && decide (x.maxTokens ≤ 16777216)
    && formatKnown x.format && x.tokenBase % (256 * x.p) == 0
    && decide (1 ≤ x.handle.repl) && decide (x.handle.repl ≤ 3) && (!x.handle.training || pGradEnable s)
    && decide (s.mem.seqs.length < 1048576) && (x.codec.take (2 * x.layers)).all codecByteOk

/-- Creates a sequence (R49): refused with a status, or the state with its descriptor, directory and reserves. -/
def createSeq (s : State) (q : SeqId) (x : Seq) : Except Status State :=
  if !shapeOk s x then .error .refusedFit
  else match allocBlocks s (directoryBlocks (tensorCount x) x.leaves) with
    | none => .error .refusedFit
    | some (b, s1) =>
      let y := { x with state := .active, dirBlock := b, dirBlocks := directoryBlocks (tensorCount x) x.leaves,
                        lastAccess := now s, epoch := epochOf s, depth := pKInit s }
      let s2 := setSeq s1 q y
      match takeReserves q ((List.range (tensorCount y)).filter (wantsReserve y)) s2 with
      | none => .error .noPage
      | some s3 => .ok s3



/-! ### Frames of an APPEND (R69, R70, R74) -/

/-- A tensor of an APPEND: its index, its (layer, head) and its block in the payload. -/
structure AppendPart where
  tensor : Nat
  layer : Nat
  head : Nat
  block : List Byte
  deriving DecidableEq, Repr

/-- The local tensors that a tensor block names. -/
def localTensors (x : Seq) (tb : TensorBlock) : List Nat := (tbPairs tb).filterMap fun p => tensorIdx x p.1 p.2

/-- The parts of an APPEND in payload order (R120); none where a head is not local. -/
def appendParts (x : Seq) (tb : TensorBlock) (ntok : Nat) (payload : List Byte) : Option (List AppendPart) :=
  let n := appendBlock x.format x.headDim ntok
  let ps := tbPairs tb
  (List.range ps.length).mapM fun i =>
    let p := ps.getD i (0, 0)
    (tensorIdx x p.1 p.2).map fun t => { tensor := t, layer := p.1, head := p.2, block := slice payload (i * n) n }

/-- Whether a page holds gradient frames (R185). -/
def hasGrad (s : State) (q : SeqId) (t k : Nat) : Bool := s.mem.grads.any fun g => g.seq == q && g.tensor == t && g.page == k

/-- The tail page of a tensor, where the first new position falls inside one. -/
def tailPage (s : State) (x : Seq) (t pos : Nat) : Option (Nat × PageHandle) :=
  let o := pos - x.tokenBase
  if o % x.p = 0 then none else (pageGet s x t (o / x.p)).map fun h => (o / x.p, h)

/-- A new frame for page k of a tensor: its reserve where `first`, else the free lists (R74, R223). While TIGHT is 1, a
tensor without its reserve gets none (R75). -/
def pageFrame (s : State) (q : SeqId) (t k : Nat) (first : Bool) : Option (Nat × State) :=
  match seqOf s q with
  | none => none
  | some x =>
    match first, (tensorOf x t).reserve with
    | true, some h =>
      let s1 := setSeq s q (setTensor x t { tensorOf x t with reserve := none })
      some (h.lpn, wantRefill (modFrame s1 h.lpn fun f => { f with state := .live, refcount := 1 }) q t)
    | true, none => if x.tight then none else newFrame s (placeOrder s q.sequence t k) .live 1
    | false, _ => newFrame s (placeOrder s q.sequence t k) .live 1

/-- Copies a shared frame into a new one of the writer's page (R70, R163): the slots from `keep` on are zeroed, TOKENS is
`keep`, and the writer's leaf names the copy. The side block is copied with its POISON flag (R208). -/
def copyOnWrite (s : State) (q : SeqId) (x : Seq) (t k old new keep : Nat) : State :=
  let s1 := slotFill s (frameOf s new).loc (frameImage s old)
  let s2 := foldState (fun s i => zeroToken s new x.format x.headDim x.p i) s1 (rangeFrom keep (sTokens s old))
  let s3 := setFlux (setTokens s2 new keep) new true
  let s4 := if (frameOf s old).poison then poisonFrame s3 new else s3
  decRef (pageSet s4 q t k (handleOf s4 new)) old

/-- Writes the header of a frame that an APPEND first writes (R53, R163). -/
def firstHeader (s : State) (x : Seq) (lpn layer head k : Nat) : State :=
  imgWrite s lpn sideBase
    (sideHeader x.format x.headDim 0 x.p (frameOf s lpn).gen 9 (x.tokenBase + k * x.p) x.handle.num layer head)

/-- Writes the new positions that fall in page k into its frame, with TOKENS and the Skim bounds (R53, R162, R163). -/
def writePage (s : State) (x : Seq) (part : AppendPart) (lpn k pos ntok : Nat) (fresh : Bool) : State :=
  let lo := max pos (x.tokenBase + k * x.p)
  let hi := min (pos + ntok) (x.tokenBase + (k + 1) * x.p)
  let slot := fun (j : Nat) => j - (x.tokenBase + k * x.p)
  let s1 := foldState (fun s j => writeToken s lpn x.format x.headDim x.p ntok part.block (slot j) (j - pos)) s (rangeFrom lo hi)
  let s2 := writeSkim s1 lpn x.format x.headDim x.p (slot lo) (slot hi) (!fresh)
  setFlux (setTokens s2 lpn (slot hi)) lpn true

/-- Gives one tensor of an APPEND its frames and writes them: answers the frames it touched, or none without room. -/
def appendTensor (q : SeqId) (pos ntok : Nat) (part : AppendPart) (s : State) : Option (List Nat × State) :=
  match seqOf s q with
  | none => none
  | some x =>
    let t := part.tensor
    let k1 := (pos + ntok - 1 - x.tokenBase) / x.p
    let tail := tailPage s x t pos
    let step1 : Option (List Nat × State) := match tail with
      | none => some ([], s)
      | some (k, h) =>
        if (frameOf s h.lpn).refcount ≤ 1 then some ([h.lpn], writePage (setFlux s h.lpn true) x part h.lpn k pos ntok false)
        else (pageFrame s q t k true).map fun (n, s1) =>
          ([n], writePage (copyOnWrite s1 q x t k h.lpn n (pos - (x.tokenBase + k * x.p))) x part n k pos ntok false)
    let firstNew := match tail with
      | none => (pos - x.tokenBase) / x.p
      | some (k, _) => k + 1
    let cowUsed := match tail with
      | none => false
      | some (_, h) => decide (1 < (frameOf s h.lpn).refcount)
    (rangeFrom firstNew (k1 + 1)).foldl (fun acc k => acc.bind fun (ls, s) =>
      (pageFrame s q t k (k == firstNew && !cowUsed)).bind fun (n, s1) =>
        (pageName s1 q t k (handleOf s1 n)).map fun s2 =>
          (ls ++ [n], writePage (firstHeader s2 x n part.layer part.head k) x part n k pos ntok true)) step1

/-- Gives every tensor its frames and writes them, all or none (R74). -/
def appendAll (q : SeqId) (pos ntok : Nat) : List AppendPart → State → Option (List Nat × State)
  | [], s => some ([], s)
  | p :: ps, s =>
    (appendTensor q pos ntok p s).bind fun (ls, s1) => (appendAll q pos ntok ps s1).map fun (ms, s2) => (ls ++ ms, s2)

/-! ### Starting (R76) -/

/-- The tail frames of an APPEND. -/
def tailFrames (s : State) (x : Seq) (parts : List AppendPart) (pos : Nat) : List (Nat × Nat × Nat) :=
  parts.filterMap fun p => (tailPage s x p.tensor pos).map fun e => (p.tensor, e.1, e.2.lpn)

/-- Starts an APPEND to an existing sequence, once its checks have passed: it waits while a tail frame is IN_FLUX, and
starts staging where one is in a lower tier only (R225). `undo` is the state without the sequence's creation. Where a frame
that it reads or writes lies in a computing channel, its requests wait in the hold queue and it takes its frames when they
are served (R194, R196; log entry 93). -/
def startParts (undo s : State) (c : Command) (q : SeqId) (x : Seq) (parts : List AppendPart) (pos ntok : Nat)
    (errs : List (List WordErr)) : State :=
  let tails := tailFrames s x parts pos
  let lower := tails.filter fun e => decide (2 ≤ (frameOf s e.2.2).tier) && !(frameOf s e.2.2).staged
  if tails.any fun e => (frameOf s e.2.2).inFlux then undo
  else if !lower.isEmpty then
    complete (foldState (fun s e => requestStage s e.2.2 .write (some q) e.1 e.2.1) undo lower) c { status := .busyRetry }
  else
    let cow := (tails.filter fun e => decide (1 < (frameOf s e.2.2).refcount)).map fun e => e.2.2
    let checked := if cow.isEmpty then (false, s) else checkAll s cow errs
    if !cow.isEmpty && (appendAll q pos ntok parts s).isNone then complete undo c { status := .noPage }
    else if checked.1 then complete checked.2 c { status := .poison }
    else match appendAll q pos ntok parts checked.2 with
      | none => complete undo c { status := .noPage }
      | some (ls, s1) =>
        let places := (cow ++ ls).map (homeOf s1)
        if places.any (locHeld s) then
          modLive (whenMemory undo places (.command (cmdKey c)) (ceilDiv (appendBlock x.format x.headDim ntok) 32) fun _ => undo)
            (cmdKey c) fun l => { l with held := true }
        else modLive s1 (cmdKey c) fun l => { l with begun := true, held := false, append := { frames := ls } }

/-- Whether the frames that an APPEND would write wait for their memory's clock (R550). -/
def appendWaits (s : State) (q : SeqId) : Bool :=
  match seqOf s q with
  | none => false
  | some x => (List.range (tensorCount x)).any fun t =>
    let e := (tensorOf x t).endPos
    let tail := if e ≤ x.tokenBase then none else pageGet s x t ((e - 1 - x.tokenBase) / max 1 x.p)
    [tail, (tensorOf x t).reserve].any fun h => (h.map fun h => frameWaits s h.lpn).getD false

/-- What an APPEND to a sequence of this shape meets before BUSY_RETRY and NOPAGE (R11, R121, R185): NOT_OWNER, then
REFUSED_FIT. -/
def appendRefusal (s : State) (c : Command) (tb : TensorBlock) (ntok pos : Nat) (x : Seq) : Option Reply :=
  let q := c.desc.seq.id
  match appendNotLocal s x q tb ntok pos with
  | some r => some r
  | none =>
    let ts := localTensors x tb
    unfit (!fitsSeq x c || (ts.any fun t => (tensorOf x t).endPos != pos)
      || ts.any fun t => hasGrad s q t ((pos - x.tokenBase) / max 1 x.p))

/-- An APPEND whose 5 µs have passed since its admission before it could start (R76); a chained one has no such bound. -/
def boundPassed (s : State) (c : Command) : Bool :=
  c.chainedFrom.isNone && ((liveOf s (cmdKey c)).map fun l => !l.held && decide (l.since + 500 < now s)).getD false

/-- APPEND's checks at its turn (R11, R121, R185), then its start. One that could not start within its bound is refused
(R76). -/
def appendStart (s : State) (c : Command) (errs : List (List WordErr)) : State :=
  match c.desc.body with
  | .append tb create ntok _ pos =>
    let q := c.desc.seq.id
    let go := fun (s1 : State) (x : Seq) =>
      let blockAt := if create then c.payload.drop 640 else c.payload
      if boundPassed s c then complete s c { status := .busyRetry }
      else match appendParts x tb ntok blockAt with
        | none => complete s c { status := .notOwner, owner := ownerHint s c.desc }
        | some parts => startParts s s1 c q x parts pos ntok errs
    if appendWaits s q then (if boundPassed s c then complete s c { status := .busyRetry } else s)
    else if (seqOf s q).isNone && create && !c.desc.v1 then
      match createPlace s c with
      | none => complete s c { status := .notOwner, owner := ownerHint s c.desc }
      | some a =>
        let x := placeSeq (blockSeq c.desc.seq c.payload) a
        match appendRefusal s c tb ntok pos x with
        | some r => complete s c r
        | none => match createSeq s q x with
          | .error st => complete s c { status := st }
          | .ok s1 => match seqOf s1 q with
            | none => s
            | some y => go s1 y
    else withActive s c q (appendRefusal s c tb ntok pos) (go s)
  | _ => s

/-- APPEND_START (R76): an admitted APPEND whose turn has come obtains its frames and issues its writes. -/
def execAppendStart (key : CmdKey) (errs : List (List WordErr)) (s : State) : Out :=
  .next <| whileRunning s fun _ =>
    match liveOf s key with
    | none => s
    | some l => if !l.begun && !l.executed && mayRun s l.cmd then appendStart s l.cmd errs else s

/-- APPEND_BOUND_EXPIRY (R76): an APPEND from a source that has not started 5 µs after its admission is refused. -/
def execAppendBoundExpiry (key : CmdKey) (s : State) : Out :=
  .next <| whileRunning s fun _ =>
    match liveOf s key with
    | none => s
    | some l => match l.cmd.desc.body with
      | .append _ _ _ _ _ =>
        if !l.begun && !l.held && !l.executed && l.cmd.chainedFrom.isNone && elapsed s l.since 500 then
          complete s l.cmd { status := .busyRetry }
        else s
      | _ => s

/-! ### Commits (R54, R205) -/

/-- The plans that waited for a frame's commit record its TOKENS (R68). -/
def recordTokens (s : State) (lpn : Nat) : State :=
  let n := sTokens s lpn
  { s with exec := { s.exec with plans := s.exec.plans.map fun p =>
    { p with pins := p.pins.map fun i => if i.lpn = lpn ∧ i.tokens = none then { i with tokens := some n } else i } } }

/-- The commit of a frame (R204, R205): the CRC is updated by what changed, so that one that was wrong stays wrong by the same
amount, the generation is written, or the frame is poisoned; IN_FLUX is cleared; a staged copy is DIRTY (R225). -/
def commitFrame (s : State) (lpn : Nat) (bad : Bool) : State :=
  let s1 := imgWrite s lpn (sideBase + 8) (le 8 (pageCrc s lpn ^^^ (frameOf s lpn).crcOff))
  let s2 := imgWrite s1 lpn (sideBase + 16) (le 2 (frameOf s lpn).gen)
  let s3 := if bad then poisonFrame s2 lpn else s2
  recordTokens (modFrame (setFlux s3 lpn false) lpn fun f => { f with dirty := f.staged }) lpn

/-- The commit with its checks (R205): a word that did not complete cleanly, and with COMMIT_VERIFY the full CRC of the frame
against the incremental one, where `verifyBad` is a comparison that fails. -/
def commitChecked (s : State) (lpn : Nat) (badWord verifyBad : Bool) : State :=
  let n := frameChan s lpn
  let (vbad, _, s1) := if pCommitVerify s then checkFails s 3 n (verifyBad || (frameOf s lpn).crcOff != 0) else (false, false, s)
  commitFrame s1 lpn (badWord || vbad)

/-- FRAME_COMMIT (R205): `badWord` says that a word write of the frame did not complete cleanly, `verifyBad` that the full
CRC of COMMIT_VERIFY differs. -/
def execFrameCommit (lpn : Nat) (badWord verifyBad : Bool) (s : State) : Out :=
  .next <| whileRunning s fun _ =>
    if !(frameOf s lpn).inFlux || frameWaits s lpn then s
    else commitChecked s lpn badWord verifyBad

/-- The frames of a started APPEND that are still IN_FLUX are committed, END rises, and the command passes its chain
(R121, R205, R335). A frame that a commit poisoned makes the status POISON (log entry 20). -/
def appendEnd (s : State) (l : Live) (tb : TensorBlock) (ntok pos : Nat) : State :=
  let q := l.cmd.desc.seq.id
  let s1 := foldState (fun s n => if (frameOf s n).inFlux then commitChecked s n false false else s) s l.append.frames
  match seqOf s1 q with
  | none => complete s1 l.cmd { status := .noState }
  | some x =>
    let ts := (tbPairs tb).filterMap fun p => tensorIdx x p.1 p.2
    let y := ts.foldl (fun x t => setTensor x t { tensorOf x t with endPos := pos + ntok }) x
    let bad := l.append.frames.any fun n => (frameOf s1 n).poison
    finish (setSeq s1 q y) l.cmd x.handle.repl { status := if bad then .poison else .ok }

/-- APPEND (R121): started if it has not been (R76), it commits what its FRAME_COMMITs have not committed, and completes. -/
def execAppend (c : Command) (s : State) : Out :=
  .next <| whenReady s c fun _ =>
    match c.desc.body with
    | .append tb _ ntok _ pos =>
      let begun := ((liveOf s (cmdKey c)).map fun l => l.begun).getD false
      let s1 := if begun then s else appendStart s c []
      match liveOf s1 (cmdKey c) with
      | none => s1
      | some l => if l.begun then appendEnd s1 l tb ntok pos else s1
    | _ => s

/-! ### Reserves and zero-fill (R59, R74, R75) -/

/-- RESERVE_REFILL (R74, R75, R209): a refill takes a slot; without one the sequence is TIGHT and preemption starts. TIGHT
clears with the last outstanding refill. -/
def execReserveRefill (q : SeqId) (tensor : Nat) (s : State) : Out :=
  .next <| whileRunning s fun _ =>
    if !s.mem.refills.contains (q, tensor) then s
    else match seqOf s q with
      | none => { s with mem := { s.mem with refills := s.mem.refills.filter fun r => r != (q, tensor) } }
      | some x =>
        let needs := wantsReserve x tensor && (tensorOf x tensor).reserve.isNone
        let got := if needs then takeReserve s q tensor else some s
        match got with
        | none =>
          let s1 := modSeq s q fun x => { x with tight := true }
          { s1 with mem := { s1.mem with preempting := true } }
        | some s1 =>
          let rest := s1.mem.refills.filter fun r => r != (q, tensor)
          let s2 := modSeq { s1 with mem := { s1.mem with refills := rest } } q
            fun x => setTensor x tensor { tensorOf x tensor with want := false }
          if rest.any fun r => r.1 == q then s2 else modSeq s2 q fun x => { x with tight := false }



/-- ZERO_FILL (R59, R222): the slot that has waited longest, or a vacant slot paired with a page number, is zero-filled in
memory mode and joins the tail of its list; a WAKE that waits for frames tries again (R85). -/
def execZeroFill (stack : Fin 12) (pc : Nat) (s : State) : Out :=
  .next <| whileRunning s fun _ =>
    let s0 := pairVacant s (pcNum stack.val pc)
    match (freeOf s0 (pcNum stack.val pc)).toZero with
    | [] => s
    | (lpn, n) :: rest =>
      whenMemory s0 [.hbm stack.val pc n] .zero 576 fun _ =>
        retryWakes (modFree (zeroSlot s0 stack.val pc n) (pcNum stack.val pc)
          fun l => { l with toZero := rest, back := l.back ++ [(lpn, n)] })

end Sys2Proof.Machine
end

