-- ==== Sys2Proof/Machine/Lifecycle.lean ====
section
/-!
DEFINITION. Machine/Lifecycle.lean: FORK, TRIM, EVICT, HINT and SKIM_REFRESH (chapters 3, 4, 6), and reads and writes of
frames by handle (R307, R308).
-/

namespace Sys2Proof.Machine

/-! ### FORK (R71, R122, R123) -/

/-- The pages of a parent that hold positions below n: tensor, page and handle (R71). -/
def forkPages (s : State) (x : Seq) (n : Nat) : List (Nat × Nat × PageHandle) :=
  (allPages s x).filter fun e => decide (x.tokenBase + e.2.1 * x.p < n)

/-- Shares the parent's frames with the child (R71). -/
def sharePages (s : State) (child : SeqId) (ps : List (Nat × Nat × PageHandle)) : State :=
  foldState (fun s e =>
    pageSet (modFrame s e.2.2.lpn fun f => { f with refcount := f.refcount + 1 }) child e.1 e.2.1 e.2.2) s ps

/-- The child of a FORK at n (R123). -/
def forkChild (x : Seq) (h : SeqHandle) (n : Nat) : Seq :=
  { x with handle := h, tensors := (List.range (tensorCount x)).map (fun t => (t, { endPos := n })), leafPtr := [],
           parkRef := none, tight := false, hints := [], gradSum := [], wasted := false }

/-- The leaves that a child of a FORK needs: one 2 KiB block each (R64, R65). -/
def childLeaves (x : Seq) (ps : List (Nat × Nat × PageHandle)) : Nat :=
  (ps.map fun e => e.1 * x.leaves + e.2.1 / 256).eraseDups.length

/-- The fork point n′ (R123). -/
def forkPoint (x : Seq) (pos : Nat) : Nat := min (max pos x.tokenBase) x.tokenLimit

/-- What R71, R123 and R323 refuse of a FORK of this parent. -/
def forkRefusal (s : State) (c : Command) (parent : SeqHandle) (pos : Nat) (x : Seq) : Option Reply :=
  let q := c.desc.seq.id
  let n := forkPoint x pos
  let sameLayout := match s.comp.map with
    | none => true
    | some m => layoutNo m q == layoutNo m parent.id
  let short := (List.range (tensorCount x)).any fun t => decide ((tensorOf x t).endPos < n)
  unfit (q.tenant != parent.tenant || (seqOf s q).isSome || !sameLayout || short || decide (x.maxTokens < pos)
    || (forkPages s x n).any fun e => decide (65535 ≤ (frameOf s e.2.2.lpn).refcount))

/-- FORK (R71, R122, R123, R323): without free blocks for the child's leaves it is refused with NOPAGE (log entry 90). -/
def execFork (c : Command) (s : State) : Out :=
  .next <| whenReady s c fun _ =>
    match c.desc.body with
    | .fork parent pos => withActive s c parent.id (forkRefusal s c parent pos) fun x =>
      let q := c.desc.seq.id
      let ps := forkPages s x (forkPoint x pos)
      match createSeq s q (forkChild x c.desc.seq (forkPoint x pos)) with
      | .error st => complete s c { status := st }
      | .ok s1 =>
        if blocksFree s1 (childLeaves x ps) then finish (sharePages s1 q ps) c c.desc.seq.repl { status := .ok }
        else complete s c { status := .noPage }
    | _ => s

/-! ### TRIM (R86, R124) -/

/-- What a TRIM does to one tensor: whole pages to remove, and the page to cut with the slots it keeps. -/
structure TrimPart where
  tensor : Nat
  pages : List (Nat × PageHandle) := []
  cut : Option (Nat × PageHandle × Nat) := none
  newEnd : Option Nat := none
  deriving DecidableEq, Repr

/-- Whether R86 accepts a range: it begins and ends on page boundaries, or it reaches END and may begin inside a page. -/
def trimAligned (x : Seq) (t start limit : Nat) : Bool :=
  decide ((tensorOf x t).endPos ≤ limit) || (start % max 1 x.p == 0 && limit % max 1 x.p == 0)

/-- The part of a tensor that a TRIM removes; none where the range is not on page boundaries (R86). A range that starts below
TOKEN_BASE is taken from TOKEN_BASE on (DESIGN CHOICE, log entry 91: R123 states such a clamp for FORK alone). -/
def trimPart (s : State) (x : Seq) (t start limit : Nat) : Option TrimPart :=
  let e := (tensorOf x t).endPos
  let lo := max start x.tokenBase
  let reaches := decide (e ≤ limit)
  if !trimAligned x t start limit then none
  else if e ≤ lo || limit ≤ lo then some { tensor := t }
  else
    let first := ceilDiv (lo - x.tokenBase) x.p
    let pages := (pagesOf s x t).filter fun p =>
      decide (first ≤ p.1) && (reaches || decide (x.tokenBase + (p.1 + 1) * x.p ≤ limit))
    let keep := (lo - x.tokenBase) % x.p
    let k := (lo - x.tokenBase) / x.p
    let cut := if keep = 0 then none else (pageGet s x t k).map fun h => (k, h, keep)
    some { tensor := t, pages := pages, cut := cut, newEnd := if reaches then some lo else none }

/-- Cuts a partly trimmed page (R86): in place where it has one reference, else in a copy (R70). -/
def trimCut (s : State) (q : SeqId) (t : Nat) (cut : Nat × PageHandle × Nat) : Option State :=
  match seqOf s q with
  | none => none
  | some x =>
    let (k, h, keep) := cut
    if (frameOf s h.lpn).refcount ≤ 1 then
      let s1 := foldState (fun s i => zeroToken s h.lpn x.format x.headDim x.p i) (setFlux s h.lpn true)
        (rangeFrom keep (sTokens s h.lpn))
      some (commitChecked (setTokens s1 h.lpn (min keep (sTokens s h.lpn))) h.lpn false false)
    else (pageFrame s q t k true).map fun (n, s1) => commitChecked (copyOnWrite s1 q x t k h.lpn n keep) n false false

/-- Removes the pages and lowers END of one tensor (R86); a tensor that no longer needs its reserve lets it go FREE (R80), and
one whose END comes back into the range gets one. -/
def trimApply (q : SeqId) (p : TrimPart) (s : State) : Option State :=
  let cutDone := match p.cut with
    | none => some s
    | some c => trimCut s q p.tensor c
  cutDone.map fun s1 =>
    let s2 := foldState (fun s e => decRef (pageDel s q p.tensor e.1) e.2.lpn) s1 p.pages
    match p.newEnd with
    | none => s2
    | some e =>
      let s3 := modSeq s2 q fun x => setTensor x p.tensor { tensorOf x p.tensor with endPos := e }
      match seqOf s3 q with
      | none => s3
      | some x =>
        let t := tensorOf x p.tensor
        if !wantsReserve x p.tensor then dropReserve s3 q p.tensor
        else if t.reserve.isNone && !t.want then wantRefill s3 q p.tensor else s3

/-- Applies every part, all or none. -/
def trimAll (q : SeqId) : List TrimPart → State → Option State
  | [], s => some s
  | p :: ps, s => (trimApply q p s).bind (trimAll q ps)

/-- The pages that a TRIM touches: tensor and page. -/
def trimTouched (ps : List TrimPart) : List (Nat × Nat) :=
  ps.flatMap fun p => (p.pages.map fun e => (p.tensor, e.1)) ++ (p.cut.toList.map fun e => (p.tensor, e.1))

/-- What a TRIM meets before BUSY_RETRY and NOPAGE (R11, R66, R86, R185). -/
def trimRefusal (s : State) (c : Command) (tb : TensorBlock) (start limit : Nat) (x : Seq) : Option Reply :=
  match judgeLocal s c with
  | some r => some r
  | none =>
    if !fitsSeq x c then some { status := .refusedFit }
    else match (localTensors x tb).mapM fun t => trimPart s x t start limit with
      | none => some { status := .refusedFit }
      | some ps => unfit ((trimTouched ps).any fun e => hasGrad s c.desc.seq.id e.1 e.2)

/-- TRIM (R86, R124, R185, R225); it waits while the tail that it cuts is IN_FLUX (R55), and an uncorrectable word of a shared
tail that it copies ends it with POISON and no other effect, as a copying APPEND ends (R208). -/
def execTrim (c : Command) (errs : List (List WordErr)) (s : State) : Out :=
  .next <| whenReady s c fun _ =>
    match c.desc.body with
    | .trim tb start limit => withActive s c c.desc.seq.id (trimRefusal s c tb start limit) fun x =>
      let q := c.desc.seq.id
      match (localTensors x tb).mapM fun t => trimPart s x t start limit with
        | none => complete s c { status := .refusedFit }
        | some ps =>
          let cuts := ps.filterMap fun p => p.cut.map fun e => (p.tensor, e.1, e.2.1.lpn)
          let lower := cuts.filter fun e => decide (2 ≤ (frameOf s e.2.2).tier) && !(frameOf s e.2.2).staged
          if cuts.any fun e => (frameOf s e.2.2).inFlux then s
          else if !lower.isEmpty then
            complete (foldState (fun s e => requestStage s e.2.2 .write (some q) e.1 e.2.1) s lower) c { status := .busyRetry }
          else whenMemory s (cuts.map fun e => homeOf s e.2.2) (.command (cmdKey c)) 576 fun _ =>
            let shared := (cuts.filter fun e => decide (1 < (frameOf s e.2.2).refcount)).map fun e => e.2.2
            let checked := checkAll s shared errs
            if (trimAll q ps s).isNone then complete s c { status := .noPage }
            else if checked.1 then complete checked.2 c { status := .poison }
            else match trimAll q ps checked.2 with
              | none => complete checked.2 c { status := .noPage }
              | some s1 => finish s1 c x.handle.repl { status := .ok }
    | _ => s

/-! ### EVICT and HINT (R84, R125, R126, R237) -/

/-- EVICT (R84): an ABSENT sequence completes at once; a v1 command to one has NO_STATE (R135). -/
def execEvict (c : Command) (s : State) : Out :=
  .next <| whenReady s c fun _ =>
    match c.desc.body, seqOf s c.desc.seq.id with
    | .evict, none => complete s c { status := if c.desc.v1 then .noState else .ok }
    | .evict, some x => finish (evictSeq s c.desc.seq.id) c x.handle.repl { status := .ok }
    | _, _ => s

/-- Whether two ranges [a, b) and [c, d) meet. -/
def meets (a b c d : Nat) : Bool := decide (a < d) && decide (c < b)

/-- Whether a hint overlaps a tensor block and range. -/
def hintMeets (h : HintEntry) (tb : TensorBlock) (start limit : Nat) : Bool :=
  meets h.layerFirst (h.layerLast + 1) tb.layerFirst (tb.layerLast + 1)
    && meets h.headFirst (h.headFirst + h.headCount) tb.headFirst (tb.headFirst + tb.headCount) && meets h.start h.limit start limit

/-- The pages of the named local tensors that hold positions of a range: tensor, page, page number. -/
def rangePages (s : State) (x : Seq) (ts : List Nat) (start limit : Nat) : List (Nat × Nat × Nat) :=
  ts.flatMap fun t =>
    ((pagesOf s x t).filter fun p =>
      meets (x.tokenBase + p.1 * x.p) (min (x.tokenBase + (p.1 + 1) * x.p) (tensorOf x t).endPos) start limit).map
      fun p => (t, p.1, p.2.lpn)



/-- What a HINT does to an ACTIVE sequence (R126, R237). -/
def applyHint (s : State) (q : SeqId) (x : Seq) (tb : TensorBlock) (kind start limit : Nat) : State :=
  if kind = 3 then
    foldState (fun s e => requestStage s e.2.2 .hint (some q) e.1 e.2.1) s (rangePages s x (localTensors x tb) start limit)
  else if kind = 1 ∨ kind = 2 then
    let h : HintEntry := { layerFirst := tb.layerFirst, layerLast := tb.layerLast, headFirst := tb.headFirst,
                           headCount := tb.headCount, kind := kind, start := start, limit := limit }
    let kept := if 16 ≤ x.hints.length then x.hints.drop (x.hints.length - 15) else x.hints
    setSeq s q { x with hints := kept ++ [h] }
  else setSeq s q { x with hints := x.hints.filter fun h => !hintMeets h tb start limit }

/-- HINT (R84, R126, R237): always OK; it acts on an ACTIVE sequence only. -/
def execHint (c : Command) (s : State) : Out :=
  .next <| whenReady s c fun _ =>
    match c.desc.body, seqOf s c.desc.seq.id with
    | .hint _ _ _ _, none => complete s c { status := .ok }
    | .hint tb kind start limit, some x =>
      let s1 := if x.state = .active then applyHint s c.desc.seq.id x tb kind start limit else s
      complete s1 c { status := .ok }
    | _, _ => s

/-! ### SKIM_REFRESH (R127, R164) -/

/-- Whether a plan admitted before the refresh holds a pin on a frame. -/
def pinnedBefore (s : State) (before : List CmdKey) (lpn : Nat) : Bool :=
  s.exec.plans.any fun p => before.contains p.key && p.pins.any fun i => i.lpn == lpn

/-- Whether a refresh can write a frame now: it has a slot, and no earlier plan pins it (R164, R239). -/
def canRefresh (s : State) (before : List CmdKey) (lpn : Nat) : Bool :=
  slotOf (frameOf s lpn) != .none && !(frameOf s lpn).inFlux && !frameWaits s lpn && !frameHeld s lpn
    && !pinnedBefore s before lpn

/-- Writes a frame's bounds tightly and sets SKIM_OK (R127, R164); the commit of a staged copy sets DIRTY. -/
def refreshFrame (s : State) (x : Seq) (lpn : Nat) : State :=
  let s1 := writeSkim s lpn x.format x.headDim x.p 0 (sTokens s lpn) false
  modFrame (setSideFlag s1 lpn 3 true) lpn fun f => { f with dirty := f.dirty || f.staged }

/-- Advances a refresh; it completes with its last frame. -/
def refreshStep (s : State) (j : RefreshJob) : State :=
  match liveOf s j.key with
  | none => { s with exec := { s.exec with refreshes := s.exec.refreshes.filter fun i => i.key != j.key } }
  | some l => match seqOf s l.cmd.desc.seq.id with
    | none => complete { s with exec := { s.exec with refreshes := s.exec.refreshes.filter fun i => i.key != j.key } } l.cmd
        { status := .noState }
    | some x =>
      let ready := j.frames.filter (canRefresh s j.before)
      let s0 := foldState (fun s n => if frameHeld s n then holdAt s (homeOf s n) (.frame n) 576 else s) s j.frames
      let s1 := foldState (fun s n => refreshFrame s x n) s0 ready
      let left := j.frames.filter fun n => !ready.contains n
      let rest := s1.exec.refreshes.filter fun i => i.key != j.key
      if left.isEmpty then complete { s1 with exec := { s1.exec with refreshes := rest } } l.cmd { status := .ok }
      else { s1 with exec := { s1.exec with refreshes := rest ++ [{ j with frames := left }] } }

/-- Advances every refresh in progress. -/
def refreshAll (s : State) : State := foldState refreshStep s s.exec.refreshes

/-- SKIM_REFRESH (R127, R164, R239): SKIM_OK of every frame of the range is cleared first; frames in a lower tier are
staged. -/
def execSkimRefresh (c : Command) (s : State) : Out :=
  .next <| whenReady s c fun _ =>
    match c.desc.body with
    | .skimRefresh tb start limit => withActive s c c.desc.seq.id (fun x => unfit (!fitsSeq x c)) fun x =>
      match s.exec.refreshes.find? fun j => j.key == cmdKey c with
      | some j => refreshStep s j
      | none =>
        let es := rangePages s x (localTensors x tb) start limit
        let s1 := foldState (fun s e => requestStage (setSideFlag s e.2.2 3 false) e.2.2 .hint (some c.desc.seq.id) e.1 e.2.1) s es
        let j : RefreshJob := { key := cmdKey c, frames := (es.map fun e => e.2.2).eraseDups,
                                before := s.exec.plans.map fun p => p.key }
        refreshStep { s1 with exec := { s1.exec with refreshes := s1.exec.refreshes ++ [j] } } j
    | _ => s

/-! ### Reads by handle (R60, R233, R307) -/

/-- Ends the wait of a FRAME_READ: its pin is released. -/
def endRead (s : State) (w : ReadWait) : State :=
  let jobs := (s.mem.codec.filter fun j => j.key == some w.key).map fun j => j.id
  let s1 := foldState codecEnd { s with exec := { s.exec with reads := s.exec.reads.filter fun r => r.key != w.key } } jobs
  unpin s1 w.lpn

/-- A FRAME_READ of a frame in HBM or with a staged copy: words checked, and the full CRC of a whole image (R203, R206). -/
def readHbm (s : State) (c : Command) (lpn offset length : Nat) (errs : List WordErr) (crcBad : Bool) : State :=
  let (bad, s1) := checkWords s 1 lpn errs
  let n := frameChan s lpn
  let whole := offset == 0 && length == imageBytes
  let (cbad, _, s2) := if whole && !bad then checkFails s1 3 n (crcBad || crcWrong s1 lpn) else (false, false, s1)
  let s3 := if cbad then poisonFrame s2 lpn else s2
  if bad || cbad then complete s3 c { status := .poison }
  else complete s3 c { status := .ok, data := imgBytes s3 lpn offset length }

/-- FRAME_READ (R307): waits while the frame is IN_FLUX; a lower-tier frame is decoded without staging (R233). -/
def execFrameRead (c : Command) (errs : List WordErr) (crcBad : Bool) (s : State) : Out :=
  .next <| whenReady s c fun _ =>
    match c.desc.body with
    | .frameRead h offset length deadline =>
      match s.exec.reads.find? fun r => r.key == cmdKey c with
      | some w =>
        if !w.ready then s
        else
          let s1 := endRead s w
          if w.bad || (frameOf s w.lpn).poison then complete s1 c { status := .poison }
          else complete s1 c { status := .ok, data := memReadN 0 w.image offset length }
      | none => match judgeHandle s c with
        | some r => complete s c r
        | none =>
          let f := frameOf s h.lpn
          if f.inFlux || frameWaits s h.lpn then s
          else if 65535 ≤ f.pins then complete s c { status := .busyRetry }
          else if f.poison then complete s c { status := .poison }
          else if slotOf f != .none then
            whenMemory s [homeOf s h.lpn] (.command (cmdKey c)) (ceilDiv length 32) fun _ =>
              readHbm s c h.lpn offset length errs crcBad
          else
            let s1 := modFrame s h.lpn fun f => { f with pins := f.pins + 1 }
            let w : ReadWait := { key := cmdKey c, lpn := h.lpn, deadline := deadline }
            (codecSubmit { s1 with exec := { s1.exec with reads := s1.exec.reads ++ [w] } } false h.lpn (readCluster s c.die) none
              (some (cmdKey c))).2
    | _ => s

/-- FRAME_READ_DEADLINE (R233): a read whose data has not passed its checks in time completes with TIER_LATE. -/
def execFrameReadDeadline (key : CmdKey) (s : State) : Out :=
  .next <| whileRunning s fun _ =>
    match s.exec.reads.find? fun r => r.key == key, liveOf s key with
    | some w, some l =>
      if !w.ready && w.deadline != 0 && elapsed s l.since w.deadline then complete (endRead s w) l.cmd { status := .tierLate }
      else s
    | _, _ => s

/-! ### Writes by handle (R308) -/

/-- Whether a byte range lies in the data area or in SCALES (R308). -/
def writableRange (offset length : Nat) : Bool :=
  decide (offset + length ≤ 16384) || (decide (sideBase + 0x80 ≤ offset) && decide (offset + length ≤ sideBase + 0x480))

/-- Writes a frame and commits it (R202 to R205); SKIM_OK is 0 from the commit on (R163). -/
def writeFrame (s : State) (lpn offset : Nat) (payload : List Byte) : State :=
  commitChecked (setSideFlag (imgWrite (setFlux s lpn true) lpn offset payload) lpn 3 false) lpn false false

/-- What a FRAME_WRITE meets before BUSY_RETRY (R11, R308): NOT_OWNER and STALE_GEN of the walk that a source's HANDLE must
agree with, then REFUSED_FIT; a replica whose own walk finds no frame answers INTERNAL. -/
def frameWriteRefusal (s : State) (c : Command) (layer head offset pos : Nat) (x : Seq) : Option Reply :=
  match judgeHandle s c with
  | some r => some r
  | none =>
    if !fitsSeq x c || !writableRange offset c.payload.length then some { status := .refusedFit }
    else match walk s x layer head pos with
      | .hit _ _ g => unfit (!(frameOf s g.lpn).inFlux && (decide (1 < (frameOf s g.lpn).refcount)
          || !onlyBelowTokens x.format x.headDim x.p (sTokens s g.lpn) offset c.payload))
      | _ => if c.chainedFrom.isSome && x.state == .active then some { status := .internal } else none

/-- FRAME_WRITE (R225, R308): the node that a source addresses checks that its walk finds HANDLE; a replica writes the frame
that its own walk finds. -/
def execFrameWrite (c : Command) (s : State) : Out :=
  .next <| whenReady s c fun _ =>
    match c.desc.body with
    | .frameWrite layer head _ offset _ pos => withActive s c c.desc.seq.id (frameWriteRefusal s c layer head offset pos) fun x =>
      match walk s x layer head pos with
      | .hit k _ g =>
        let f := frameOf s g.lpn
        if f.inFlux then s
        else if 2 ≤ f.tier && !f.staged then
          complete (requestStage s g.lpn .write (some c.desc.seq.id) ((tensorIdx x layer head).getD 0) k) c
            { status := .busyRetry }
        else whenMemory s [homeOf s g.lpn] (.command (cmdKey c)) (ceilDiv c.payload.length 32) fun _ => finish (writeFrame s g.lpn offset c.payload) c x.handle.repl { status := .ok }
      | _ => complete s c { status := .internal }
    | _ => s

end Sys2Proof.Machine
end

