-- ==== Sys2Proof/Machine/Ledger.lean ====
section
/-!
DEFINITION. Machine/Ledger.lean: the Ledger (R406 to R423, R426): regions, reads and grants, recalls, write-back,
publication, and holders that die.
-/

namespace Sys2Proof.Machine

def regionOf (s : State) (r : Nat) : Option LedRegion := tabGet s.ledger.regions r

def modRegion (s : State) (r : Nat) (f : LedRegion → LedRegion) : State :=
  { s with ledger := { s.ledger with regions := tabMod s.ledger.regions r f } }

def lineOf (g : LedRegion) (i : Nat) : LedLine := tabGetD g.lines i {}

def modLine (s : State) (r i : Nat) (f : LedLine → LedLine) : State :=
  modRegion s r fun g => { g with lines := tabModD g.lines i {} f }

/-- Bytes of a line; a new region's lines hold zero (R407). -/
def lineBytes (l : LedLine) : List Byte := padTo 64 l.content

/-- The committed bytes of line `i` of a PUBLISHED region's current copy. -/
def pubLine (g : LedRegion) (i : Nat) : List Byte := slice (tabGetD g.copies g.current []) (64 * i) 64

/-- A line header (R411). -/
def lineHeader (version : Nat) (lost heldM : Bool) (granted : Nat) (poison discarded : Bool) : List Byte :=
  le 8 version ++ le 1 (flag 0 lost + flag 1 heldM + 4 * granted + flag 4 poison + flag 5 discarded) ++ le 7 0

/-! ### Directory state -/

/-- The state of a line (R413): RECALL while recalls are outstanding, else by its holders. -/
def dirState (s : State) (r i : Nat) (l : LedLine) : Nat :=
  if s.ledger.recalls.any fun x => x.region == r && x.line == i then 3
  else if l.holder.isSome then 2
  else if l.sharers.isEmpty then 0 else 1

/-- Sends a recall to a holder unless one is outstanding (R415). -/
def sendRecall (s : State) (r i : Nat) (holder : Endpoint) (downgrade : Bool) (version : Nat) : State :=
  if s.fault.fenced || s.ledger.recalls.any (fun x => x.region == r && x.line == i && x.holder == holder) then s
  else
    let id := s.ledger.nextReq
    let tenant := ((regionOf s r).map fun g => g.tenant).getD 0
    let d : Desc := { opcode := 0x44, epoch := epochOf s, reqId := id, seqZero := true, body := .ledgerRecall r i downgrade version }
    let x : Recall := ⟨id, r, i, holder, downgrade, version, now s⟩
    let s1 := { s with ledger := { s.ledger with recalls := s.ledger.recalls ++ [x], nextReq := id + 1,
                                                 recallsSent := s.ledger.recallsSent + 1 } }
    let bytes := commandMsg d []
    if holder = hlEndpoint s then
      linkSend s1 (.msg { src := holder, tenant := tenant, keygen := ((tenantOf s1 tenant).keygen).getD 0, viaLink := true,
                          bytes := bytes })
    else sendMsg s1 { peer := holder, tenant := tenant } .command (pSeqzClass s1) none bytes

/-- Commits new content to a line (R414): the line version and the region version rise by one. -/
def commitLine (s : State) (r i : Nat) (bytes : List Byte) (by_ : Option CmdKey) : State :=
  let s1 := modLine s r i fun l => { l with content := bytes, version := l.version + 1, poison := false, lastCommit := by_ }
  modRegion s1 r fun g => { g with version := g.version + 1 }

/-- A recall ends (R414, R415): an invalidating one takes the holder's grant away, a downgrading one leaves it a sharer. -/
def endRecall (s : State) (x : Recall) : State :=
  let s1 := { s with ledger := { s.ledger with recalls := s.ledger.recalls.filter fun y => y.reqId != x.reqId } }
  modLine s1 x.region x.line fun l =>
    if (l.holder.map Prod.fst) = some x.holder then
      { l with holder := none, sharers := if x.downgrade then l.sharers ++ [x.holder] else l.sharers }
    else { l with sharers := l.sharers.filter (· != x.holder) }

/-! ### Reads -/

/-- The line buffer after a read (R406): a hit is counted, the line becomes the most recently read. -/
def touchLine (s : State) (r i : Nat) : State :=
  let hit := s.ledger.lineBuf.contains (r, i)
  { s with ledger := { s.ledger with lbufHits := s.ledger.lbufHits + b2n hit,
                                     lineBuf := ((r, i) :: s.ledger.lineBuf.filter (· != (r, i))).take 16384 } }

/-- Returns one line (R411): its header and bytes, whether it was LOST and poisoned; LOST clears. -/
def returnLine (s : State) (r i : Nat) (src : Endpoint) (granted : Nat) : State × List Byte × Bool × Bool :=
  match regionOf s r with
  | none => (s, [], false, false)
  | some g =>
    let s1 := touchLine s r i
    if g.published then
      let p := g.pubPoison.contains i
      (s1, lineHeader g.version false false 0 p false ++ (if p then le 64 0 else pubLine g i), false, p)
    else
      let l := lineOf g i
      let heldM := match l.holder with
        | some (h, _) => h != src
        | none => false
      (modLine s1 r i fun l => { l with lost := false },
        lineHeader l.version l.lost heldM granted l.poison false ++ (if l.poison then le 64 0 else lineBytes l), l.lost, l.poison)

/-- The grant that an endpoint holds on a line: 0 none, 1 S, 2 M. -/
def grantOf (l : LedLine) (e : Endpoint) : Nat :=
  if l.holder.map Prod.fst = some e then 2 else if l.sharers.contains e then 1 else 0

/-- Completes a read of `count` lines (R411): POISON before LOST_UPDATE before OK, VALUE the region version. -/
def completeRead (s : State) (c : Command) (r first count : Nat) (grants : Bool) : State :=
  let step := fun (a : State × List Byte × Bool × Bool) (k : Nat) =>
    let i := first + k
    let g := match regionOf a.1 r with
      | some g => if grants then grantOf (lineOf g i) c.src else 0
      | none => 0
    let (s1, bs, lost, poison) := returnLine a.1 r i c.src g
    (s1, a.2.1 ++ bs, a.2.2.1 || lost, a.2.2.2 || poison)
  let version := ((regionOf s r).map fun g => g.version).getD 0
  let (s1, data, lost, poison) := (List.range count).foldl step (s, [], false, false)
  complete s1 c { status := if poison then .poison else if lost then .lostUpdate else .ok, data := data, value := version }

/-- Grants what a waiting read asks for on one line (R412, R414). -/
def giveGrant (s : State) (r i : Nat) (src : Endpoint) (grant : Nat) : State :=
  modLine s r i fun l =>
    if grant = 2 then { l with holder := some (src, l.version), sharers := [] }
    else if l.holder.map Prod.fst = some src then l
    else if l.sharers.contains src || 4 ≤ l.sharers.length then l
    else { l with sharers := l.sharers ++ [src] }

/-- Whether a line can be granted now to `src`. -/
def lineFree (l : LedLine) (src : Endpoint) (grant : Nat) : Bool :=
  (match l.holder with
    | some (h, _) => h == src
    | none => true) && (grant != 2 || l.sharers.all (· == src))

/-- Sends the recalls that a request needs on a line (R414). -/
def recallFor (s : State) (r i : Nat) (src : Endpoint) (grant : Nat) : State :=
  match regionOf s r with
  | none => s
  | some g =>
    let l := lineOf g i
    let s1 := match l.holder with
      | some (h, v) => if h = src then s else sendRecall s r i h (grant != 2) v
      | none => s
    if grant = 2 then
      foldState (fun s h => if h = src then s else sendRecall s r i h false l.version) s1 l.sharers
    else s1

/-- Whether an earlier waiting request still needs a line. -/
def blockedBy (before : List LedWait) (r i : Nat) : Bool :=
  before.any fun w => w.region == r && decide (w.first ≤ i) && decide (i < w.first + w.count)

/-- Reserves a waiting request's lines in ascending order as far as it goes (R412): the number reserved. -/
def reserveFrom (before : List LedWait) (w : LedWait) : Nat → State → Nat → State × Nat
  | 0, s, k => (s, k)
  | fuel + 1, s, k =>
    if w.count ≤ k then (s, k)
    else
      let i := w.first + k
      match regionOf s w.region with
      | none => (s, k)
      | some g =>
        if blockedBy before w.region i then (s, k)
        else if lineFree (lineOf g i) w.cmd.src w.grant
            && !(s.ledger.recalls.any fun x => x.region == w.region && x.line == i) then
          reserveFrom before w fuel s (k + 1)
        else (recallFor s w.region i w.cmd.src w.grant, k)

/-- Serves the waiting requests in their order: one whose lines are all reserved is granted and completes. -/
def serveWaits : List LedWait → List LedWait → State → State × List LedWait
  | _, [], s => (s, [])
  | before, w :: ws, s =>
    let (s1, k) := reserveFrom before w 65 s 0
    if w.count ≤ k then
      let s2 := foldState (fun s j => giveGrant s w.region (w.first + j) w.cmd.src w.grant) s1 (List.range w.count)
      serveWaits before ws (completeRead s2 w.cmd w.region w.first w.count true)
    else
      let (s3, rest) := serveWaits (before ++ [w]) ws s1
      (s3, w :: rest)

/-- Serves every waiting request. -/
def serveLedger (s : State) : State :=
  let (s1, ws) := serveWaits [] s.ledger.waits s
  { s1 with ledger := { s1.ledger with waits := ws } }

/-! ### Commands -/

/-- The checks of R408, and of the region's kind. -/
def ledgerRefusal (s : State) (c : Command) (r first count : Nat) (kindOk : LedRegion → Bool) : Option Status :=
  match regionOf s r with
  | none => some .noState
  | some g =>
    if (c.tenant ≠ g.tenant ∧ ¬ (c.viaLink ∧ c.mgmt)) ∨ g.size < first + count ∨ ¬ kindOk g then some .refusedFit else none

/-- A command that R419 finds repeated is answered DUP. -/
def ledgerDup (s : State) (c : Command) : State := answerDup (settle (dropLive s (cmdKey c)) c .ok) c

/-- How many requests wait on a line. -/
def waitersOn (s : State) (r i : Nat) : Nat :=
  (s.ledger.waits.filter fun w => w.region == r && decide (w.first ≤ i) && decide (i < w.first + w.count)).length

/-- Marks the lines whose read check failed as poisoned, and raises source 54 for each (R423, R476). -/
def poisonLines (s : State) (r : Nat) (bad : List Nat) : State :=
  foldState (fun s i =>
    let s1 := modRegion s r fun g =>
      if g.published then { g with pubPoison := g.pubPoison ++ [i] }
      else { g with lines := tabModD g.lines i {} fun l => { l with poison := true } }
    raise s1 { source := 54 }) s bad

/-- LEDGER_READ (R410 to R412). `badLines` lists the named lines whose read finds an uncorrectable error. -/
def execLedgerRead (c : Command) (badLines : List Nat) (s : State) : Out :=
  .next <|
    if !isLive s c then s
    else match c.desc.body with
      | .ledgerRead grant r count first =>
        match ledgerRefusal s c r first count fun g => grant == 0 || !g.published with
        | some st => complete s c { status := st }
        | none =>
          let s0 := poisonLines s r (badLines.filter fun i => decide (first ≤ i) && decide (i < first + count))
          if grant = 0 then completeRead s0 c r first count false
          else if (List.range count).any fun k => decide (64 ≤ waitersOn s r (first + k)) then
            complete s c { status := .busyRetry }
          else
            let w : LedWait := { cmd := c, region := r, first := first, count := count, grant := grant }
            let s1 := modLive s0 (cmdKey c) fun l => { l with executed := true }
            serveLedger { s1 with ledger := { s1.ledger with waits := s1.ledger.waits ++ [w] } }
      | _ => s

/-- The recall of a line to a holder ends with the holder's own command (R423). -/
def finishRecall (s : State) (r i : Nat) (src : Endpoint) : State :=
  match s.ledger.recalls.find? fun x => x.region == r && x.line == i && x.holder == src with
  | some x => endRecall s x
  | none => s

/-- One line of a LEDGER_WRITE (R417): committed where the source holds it M at that VERSION, else DISCARDED. -/
def writeLine (s : State) (c : Command) (r i keep version : Nat) (bytes : List Byte) : State × List Byte × Bool :=
  match regionOf s r with
  | none => (s, [], true)
  | some g =>
    let l := lineOf g i
    if l.holder = some (c.src, version) then
      let s1 := commitLine s r i bytes (some (cmdKey c))
      let s2 := modLine s1 r i fun l =>
        if keep = 2 then { l with holder := some (c.src, l.version) }
        else { l with holder := none, sharers := if keep = 1 then [c.src] else [] }
      let s3 := finishRecall s2 r i c.src
      let l3 := lineOf ((regionOf s3 r).getD g) i
      (s3, lineHeader l3.version false false (grantOf l3 c.src) false false, false)
    else (s, lineHeader l.version false false (grantOf l c.src) false true, true)

/-- The lines of a LEDGER_WRITE, in ascending order (R417): their headers, and whether one was discarded. -/
def writeLines (s : State) (c : Command) (r keep first count : Nat) : State × List Byte × Bool :=
  (List.range count).foldl (fun a k =>
    let (s1, h, d) := writeLine a.1 c r (first + k) keep (fieldLe c.payload (72 * k) 8) (slice c.payload (72 * k + 8) 64)
    (s1, a.2.1 ++ h, a.2.2 || d)) (s, [], false)

/-- LEDGER_WRITE (R417, R419). -/
def execLedgerWrite (c : Command) (s : State) : Out :=
  .next <|
    if !isLive s c then s
    else match c.desc.body with
      | .ledgerWrite keep r count first =>
        match ledgerRefusal s c r first count fun g => !g.published with
        | some st => complete s c { status := st }
        | none =>
          let dup := (List.range count).any fun k =>
            match regionOf s r with
            | some g => (lineOf g (first + k)).lastCommit == some (cmdKey c)
            | none => false
          if dup then ledgerDup s c
          else
            let w := writeLines s c r keep first count
            serveLedger (complete w.1 c { status := if w.2.2 then .lostUpdate else .ok, data := w.2.1 })
      | _ => s

/-- Ends an endpoint's grant on a line without data (R414, R417, R423). -/
def dropGrant (s : State) (r i : Nat) (src : Endpoint) : State :=
  let s1 := { s with ledger := { s.ledger with
    recalls := s.ledger.recalls.filter fun x => !(x.region == r && x.line == i && x.holder == src) } }
  modLine s1 r i fun l =>
    { l with holder := if l.holder.map Prod.fst = some src then none else l.holder, sharers := l.sharers.filter (· != src) }

/-- LEDGER_RELEASE (R417). -/
def execLedgerRelease (c : Command) (s : State) : Out :=
  .next <|
    if !isLive s c then s
    else match c.desc.body with
      | .ledgerRelease r count first =>
        match ledgerRefusal s c r first count fun g => !g.published with
        | some st => complete s c { status := st }
        | none =>
          let s1 := foldState (fun s k => dropGrant s r (first + k) c.src) s (List.range count)
          serveLedger (complete s1 c { status := .ok })
      | _ => s

/-- LEDGER_PUBLISH (R418, R419). -/
def execLedgerPublish (c : Command) (s : State) : Out :=
  .next <|
    if !isLive s c then s
    else match c.desc.body with
      | .ledgerPublish r expect =>
        match ledgerRefusal s c r 0 0 fun g => g.published && c.payload.length == g.size * 64 with
        | some st => complete s c { status := st }
        | none =>
          match regionOf s r with
          | none => s
          | some g =>
            if g.lastPub = some (cmdKey c) then ledgerDup s c
            else if expect = g.version then
              let s1 := modRegion s r fun g =>
                { g with copies := tabSet g.copies (1 - g.current) c.payload, current := 1 - g.current, version := g.version + 1,
                         pubPoison := [], lastPub := some (cmdKey c) }
              complete s1 c { status := .ok, value := g.version + 1 }
            else complete { s with ledger := { s.ledger with conflicts := s.ledger.conflicts + 1 } } c
                { status := .conflict, value := g.version }
      | _ => s

/-! ### Recalls and dead holders -/

/-- RECALL_ANSWER (R414, R415, R419): matched by REQ_ID; an M holder's 64 bytes are committed. A fenced node changes no
grant (R422). -/
def execRecallAnswer (src : Endpoint) (reqId : Nat) (data : List Byte) (s : State) : Out :=
  .next <| whileRunning s fun _ =>
    match s.ledger.recalls.find? fun x => x.reqId == reqId && x.holder == src with
    | none => { s with ledger := { s.ledger with repeats := s.ledger.repeats + 1 } }
    | some x =>
      if s.fault.fenced then s
      else
        let holds := match regionOf s x.region with
          | some g => (lineOf g x.line).holder == some (src, x.version)
          | none => false
        let s1 := if holds && data.length == 64 then commitLine s x.region x.line data none else s
        serveLedger (endRecall s1 x)

/-- The line of an M holder that is declared dead reverts (R416); its S grants are removed. -/
def revertLine (e : Endpoint) (l : LedLine) : LedLine × Bool :=
  if l.holder.map Prod.fst = some e then
    ({ l with holder := none, version := l.version + 1, lost := true, sharers := l.sharers.filter (· != e) }, true)
  else ({ l with sharers := l.sharers.filter (· != e) }, false)

/-- Reverts a region's lines for a dead holder. -/
def revertRegion (e : Endpoint) (g : LedRegion) : LedRegion × Nat :=
  let ls := g.lines.map fun x => (x.1, revertLine e x.2)
  let n := (ls.filter fun x => x.2.2).length
  ({ g with lines := ls.map fun x => (x.1, x.2.1), version := g.version + n }, n)

/-- A holder is declared dead (R415, R416): every grant it holds at this node ends. -/
def holderDead (s : State) (e : Endpoint) : State :=
  let rs := s.ledger.regions.map fun x => (x.1, revertRegion e x.2)
  let n := sumNat (rs.map fun x => x.2.2)
  serveLedger { s with ledger := { s.ledger with
    regions := rs.map fun x => (x.1, x.2.1), reverts := s.ledger.reverts + n,
    recalls := s.ledger.recalls.filter fun x => x.holder != e } }

/-- A link that goes down or a map declares a holder dead (R399, R415). While fenced the node changes no grant (R422; log entry
104); the end of every fence ends all grants. -/
def declareDead (s : State) (e : Endpoint) : State := if s.fault.fenced then s else holderDead s e

/-- Every endpoint that holds a grant. -/
def allHolders (s : State) : List Endpoint :=
  (s.ledger.regions.flatMap fun g => g.2.lines.flatMap fun l => (l.2.holder.toList.map Prod.fst) ++ l.2.sharers).eraseDups

/-- Ends every grant as if each holder had been declared dead (R422). -/
def ledgerEndGrants (s : State) : State := foldState holderDead s (allHolders s)

/-- RECALL_TIMEOUT (R415): a recall unanswered for 2,000 ticks declares its holder dead; not while the node is fenced
(R422). -/
def execRecallTimeout (reqId : Nat) (s : State) : Out :=
  .next <| whileRunning s fun _ =>
    match s.ledger.recalls.find? fun x => x.reqId == reqId with
    | none => s
    | some x => if elapsed s x.since 2000 && !s.fault.fenced then holderDead s x.holder else s

/-- LDG_DECLARE_DEAD (R415). -/
def ldgDeclareDead (s : State) : State :=
    match endpointOf (fld s 0x30118 15 0) with
    | some e => if s.fault.fenced then s else holderDead s e
    | none => s

/-- LDG_DECLARE_DEAD: the write has its effect where the access reaches the register (R522). -/
def execLdgDeclareDead (s : State) : Out := .next (regEnter s 0x3011C ldgDeclareDead)

/-! ### Regions (R407, R426) -/

/-- Ledger lines that a region takes: twice its lines when it is PUBLISHED (R407). -/
def regionLines (g : LedRegion) : Nat := if g.published then 2 * g.size else g.size

/-- The lowest place of `len` free lines, given the used intervals in ascending order (log entry 15). -/
def fitLines (len : Nat) : List (Nat × Nat) → Nat → Nat
  | [], cur => cur
  | (b, l) :: t, cur => if cur + len ≤ b then cur else fitLines len t (max cur (b + l))

/-- The used intervals in ascending order. -/
def usedLines (s : State) : List (Nat × Nat) :=
  s.ledger.regions.foldl (fun acc e => insertBlock e.2.base (regionLines e.2) acc) []

def linesUsed (s : State) : Nat := sumNat (s.ledger.regions.map fun e => regionLines e.2)

/-- LREG_CREATE (R407, R426). -/
def lregCreate (s : State) : State :=
    let r := fld s 0x30120 15 0
    let n := fld s 0x30124 12 0
    let pub := fld s 0x30124 13 13 == 1
    let g : LedRegion := { published := pub, tenant := fld s 0x30124 25 14, size := n }
    let base := fitLines (regionLines g) (usedLines s) 0
    if (regionOf s r).isSome ∨ n = 0 ∨ 4096 < n ∨ fld s 0x30100 24 0 < base + regionLines g then
      { s with ledger := { s.ledger with refused := r :: s.ledger.refused.filter (· != r) } }
    else
      { s with ledger := { s.ledger with regions := tabSet s.ledger.regions r { g with base := base },
                                         refused := s.ledger.refused.filter (· != r) } }

/-- LREG_CREATE: the write has its effect where the access reaches the register (R522). -/
def execLregCreate (s : State) : Out := .next (regEnter s 0x30128 lregCreate)

/-- Deletes a region (R423): its grants end and its waiting commands answer NO_STATE. -/
def deleteRegion (s : State) (r : Nat) : State :=
  let gone := s.ledger.waits.filter fun w => w.region == r
  let s1 := { s with ledger := { s.ledger with
    regions := tabDel s.ledger.regions r, refused := s.ledger.refused.filter (· != r),
    waits := s.ledger.waits.filter fun w => w.region != r, recalls := s.ledger.recalls.filter fun x => x.region != r,
    lineBuf := s.ledger.lineBuf.filter fun x => x.1 != r } }
  foldState (fun s w => complete s w.cmd { status := .noState }) s1 gone

/-- LREG_DELETE (R423, R426). -/
def execLregDelete (s : State) : Out := .next (regEnter s 0x30128 fun s => deleteRegion s (fld s 0x30120 15 0))

end Sys2Proof.Machine
end

