-- ==== Sys2Proof/Machine/Link.lean ====
section
/-!
DEFINITION. Machine/Link.lean: the Ranup Link (chapter 15): flits, replay and credits (R394 to R396), training (R397), link
down (R399), the node's reads of host memory (R404) and messages over the link (R405).
-/

namespace Sys2Proof.Machine

/-! ### Link down (R399) -/

/-- Contexts that exist only in the context region are lost (R298): their packets are dropped and counted, the loss is
recorded and a new incarnation is asked for. -/
def contextsLost (s : State) (which : PeerCtx → Bool) : State :=
  let gone := s.net.ctxs.filter fun c => !c.cached && !c.key.sys && !c.lost && which c
  if gone.isEmpty then s
  else
    let isGone := fun (p : Packet) => gone.any fun c => c.key.peer == p.src && c.key.tenant == p.tenant && !p.sys
    let dropped := s.net.miss.filter fun e => isGone e.2
    let s1 := { s with
      net := { s.net with
        ctxs := s.net.ctxs.map fun c => if gone.any fun g => g.key == c.key then { c with lost := true, fetching := false } else c
        miss := s.net.miss.filter fun e => !isGone e.2
        pctx := 3
        ports := foldState (fun t e => tabModD t e.2.port {} fun p => { p with dropOther := p.dropOther + 1 }) s.net.ports dropped }
      comp := { s.comp with needIncarnation := true } }
    let s2 := raise (caskNote s1 0x32 (le 1 3 ++ le 3 0 ++ le 4 gone.length)) { source := 53 }
    reportAll s2 6 .ok (nodeId s2) (epochOf s2) 0 0

/-- A read of host memory fails (R399, R404): the transfer that issued it fails its check; a context that it fetched is lost
(log entry 17). -/
def memFail (s : State) (m : MemRd) : State :=
  match m.why with
  | .job id => { s with mem := { s.mem with codec := s.mem.codec.map fun j => if j.id = id then { j with readErr := true } else j } }
  | .context a => contextsLost (modCtx s a fun c => { c with fetching := false }) fun c => c.key == a

/-- The ceilings of R397 as GEN_MAX and WIDTH_MAX give them. -/
def fullCeilings (s : State) (l : LinkSt) : LinkSt := { l with genCeil := fld s 0x30000 1 0, widthCeil := fld s 0x30000 3 2 }

/-- The link starts to train at step 1 with empty queues and no credit. -/
def startTraining (l : LinkSt) : LinkSt :=
  { l with state := 1, gen := 0, width := 0, reversed := false, step := 1, txSeq := 0, rxSeq := 0, rxDiscard := false,
           rxFails := 0, queue := [], progress := 0, kept := [], limit := [], used := [], memRds := [], kLink := none,
           txCount := [], rxAny := false, rx := {} }

/-- The Ranup Link goes down (R399, R221, R298, R415) and trains again. -/
def linkGoesDown (s : State) : State :=
  let s1 := foldState memFail s s.link.memRds
  let s2 := { s1 with link := startTraining { s1.link with down := s1.link.down + 1, memRds := [] } }
  let s3 := declareDead (contextsLost (hostTierLost s2) fun _ => true) (hlEndpoint s2)
  setLevel s3 15 true

/-- LINK_DOWN (R399): training is lost, or the adapter signals the loss of the link. -/
def execLinkDown (_cause : DownCause) (s : State) : Out :=
  .next <| if s.running && 2 ≤ s.link.state then linkGoesDown s else s

/-! ### Flits (R394, R395) -/

/-- KIND, ACKV, NAK and ACK_SEQ of a received flit (R394). -/
def flitKind (f : Flit) : Nat := bitsOf 15 14 (fieldLe f.bytes 0 2)
def flitAckv (f : Flit) : Bool := bitOf 13 (fieldLe f.bytes 0 2)
def flitNak (f : Flit) : Bool := bitOf 12 (fieldLe f.bytes 0 2)
def flitAckSeq (f : Flit) : Nat := bitsOf 11 0 (fieldLe f.bytes 0 2)

/-- Whether the CRC of a received flit holds (R394). -/
def flitCrcOk (f : Flit) : Bool := fieldLe f.bytes 0x1F6 4 == (crc32c (f.bytes.take 0x1F6)).toNat

/-- PAYLOAD of a received flit: what it opens to while the link is SECURE (R396). -/
def flitPayload (l : LinkSt) (f : Flit) : List Byte := if l.state = 3 then f.opened else slice f.bytes 2 484

/-- The credit kind of a TYPE, and whether data follows its header; none where it is reserved (R402). -/
def rxType : Nat → Option (Nat × Bool)
  | 0x01 => some (1, false)
  | 0x02 => some (0, true)
  | 0x03 => some (2, true)
  | 0x10 => some (1, false)
  | 0x11 => some (0, true)
  | 0x12 => some (2, true)
  | 0x20 => some (0, true)
  | _ => none

/-- Reads on in the transaction stream (R401, R402); none at a reserved TYPE. A zero in place of a TYPE ends a flit's transactions
(log entry 103). -/
def rxRead : Nat → RxStream → List Byte → Option RxStream
  | 0, x, _ => some x
  | fuel + 1, x, bs =>
    if bs.isEmpty then some x
    else if 0 < x.skip then rxRead fuel { x with skip := x.skip - bs.length } (bs.drop x.skip)
    else
      let h := x.head ++ bs
      if x.head.isEmpty && fieldLe h 0 1 == 0 then some x
      else match rxType (fieldLe h 0 1) with
        | none => none
        | some (k, data) =>
          if h.length < 16 then some { x with head := h }
          else
            let len := if data then ceilDiv (fieldLe h 4 4) 4 * 4 else 0
            rxRead fuel { used := tabModD x.used k 0 (fun u => (u + ceilDiv (16 + len) 64) % 4294967296), skip := len, head := [] }
              (h.drop 16)

/-- Whether sequence number `a` comes after `b`, modulo 4,096. -/
def seqAfter (a b : Nat) : Bool :=
  let d := (a + 4096 - b) % 4096
  decide (0 < d) && decide (d < 2048)

/-- An acknowledgement releases every kept flit up to its number (R395). -/
def linkAck (l : LinkSt) (ackSeq : Nat) : LinkSt :=
  { l with kept := l.kept.filter fun f => seqAfter f.seq ackSeq, lastAck := ackSeq }

/-- A NAK: what it acknowledges is released and the rest is sent again; a flit that failed on four transmissions takes the
link down (R395). -/
def linkNak (s : State) (ackSeq : Nat) : State :=
  let l := linkAck s.link ackSeq
  match l.kept with
  | [] => { s with link := l }
  | f :: _ =>
    if 4 ≤ f.tries then linkGoesDown { s with link := l }
    else { s with link := { l with kept := l.kept.map (fun x => { x with tries := x.tries + 1 }),
                                   wire := l.wire ++ l.kept.map fun x => x.bytes } }

/-- A flit whose CRC fails (R395): it and every later data flit are discarded until the replay arrives, a NAK is sent, and
the fourth failure takes the link down. -/
def flitCrcFails (s : State) (atOnce : Bool) : State :=
  let l := { s.link with rxDiscard := true, rxFails := s.link.rxFails + 1, nak := s.link.nak + 1 }
  if atOnce || decide (4 ≤ l.rxFails) then linkGoesDown { s with link := l } else { s with link := linkIdle l true }

/-- A flit whose tag fails while its CRC passes (R395). -/
def flitTagFails (s : State) : State :=
  let n := s.link.auth + 1
  let s1 := caskNote { s with link := { s.link with auth := n } } 0x32 (le 1 1 ++ le 3 0 ++ le 4 n)
  linkGoesDown (raise s1 { source := 16 })

/-- A control flit's credit limits (R404): posted, non-posted, completion (log entry 103). -/
def linkCredit (l : LinkSt) (payload : List Byte) : LinkSt :=
  { l with limit := [(0, fieldLe payload 0 4), (1, fieldLe payload 4 4), (2, fieldLe payload 8 4)] }

/-- The next expected data flit is accepted with what its payload adds to the stream (R395): the node acknowledges it, and grants
the host again what it took (R404). -/
def linkTake (l : LinkSt) (x : RxStream) : LinkSt :=
  linkControl { l with rxSeq := (l.rxSeq + 1) % 4096, rxFails := 0, rxDiscard := false, rxAny := true, rx := x }

/-- A data flit that passed its checks (R395, R402): one that is not the next expected one is discarded; a reserved TYPE fails the
link. -/
def flitData (s : State) (f : Flit) : State :=
  if f.seq ≠ s.link.rxSeq then linkPump s
  else match rxRead 64 s.link.rx (flitPayload s.link f) with
    | none => linkGoesDown s
    | some x => linkPump { s with link := linkTake s.link x }

/-- A flit that passed its checks. -/
def flitAccept (s : State) (f : Flit) : State :=
  let l1 := if flitAckv f then linkAck s.link (flitAckSeq f) else s.link
  let s1 := if flitNak f then linkNak { s with link := l1 } (flitAckSeq f) else { s with link := l1 }
  if s1.link.state < 2 then s1
  else if flitKind f = 0 then flitData s1 f
  else if flitKind f = 1 then linkPump { s1 with link := linkCredit s1.link (flitPayload s1.link f) }
  else linkPump s1

/-- FLIT_RECEIVED (R395, R396, R402, R404). In the last training step a control flit gives the initial credits. -/
def execFlitReceived (f : Flit) (s : State) : Out :=
  .next <|
    if !s.running then s
    else if s.link.state < 2 then
      if s.link.state = 1 ∧ s.link.step = 4 ∧ flitKind f = 1 ∧ flitCrcOk f = true then
        { s with link := linkCredit s.link (flitPayload s.link f) }
      else s
    else
      match fireInj s 9 0 with
      | some (mode, s1) => flitCrcFails s1 (mode == 1)
      | none =>
        if !flitCrcOk f then flitCrcFails s false
        else if s.link.state = 3 ∧ f.tagOk = false then flitTagFails s
        else flitAccept s f

/-- NAK_RECEIVED (R395). -/
def execNakReceived (ackSeq : Nat) (s : State) : Out :=
  .next <| if s.running && 2 ≤ s.link.state then linkPump (linkNak s ackSeq) else s

/-! ### Training (R397) -/

/-- A training attempt fails: after three at one generation the generation ceiling falls, and at Gen 1 the width ceiling. -/
def trainFails (l : LinkSt) : LinkSt :=
  let n := l.fails + 1
  let l1 := { l with step := 1 }
  if n < 3 then { l1 with fails := n }
  else if 1 < l.genCeil then { l1 with fails := 0, genCeil := l.genCeil - 1 }
  else { l1 with fails := 0, widthCeil := min 2 (l.widthCeil + 1) }

/-- The widest width of a ceiling: 0 x16, 1 x8, 2 x4. -/
def widthOfCeil (c : Nat) : Nat := if c = 0 then 16 else if c = 1 then 8 else 4

/-- One event of training: a step completes in its turn, or a bound is exceeded. -/
def trainStep (l : LinkSt) (e : LinkEvent) : LinkSt :=
  match l.step, e with
  | _, .boundExceeded => trainFails l
  | 1, .bitLock n => if 4 ≤ n then { l with step := 2 } else l
  | 2, .widthAgreed w rev =>
    if (w = 4 ∨ w = 8 ∨ w = 16) ∧ w ≤ widthOfCeil l.widthCeil then { l with step := 3, width := w, reversed := rev } else l
  | 3, .equalised g => if 1 ≤ g ∧ g ≤ l.genCeil then { l with step := 4, gen := g } else l
  | 4, .flitLock => linkControl { l with
      state := 2, step := 5, fails := 0, txSeq := 0, rxSeq := 0, rxDiscard := false, rxFails := 0, kept := [], rxAny := false, rx := {} }
  | _, _ => l

/-- LINK_TRAINING (R397): the node's link state follows the steps; PLAIN ends the HL_LINK source's cause (R399). -/
def execLinkTraining (e : LinkEvent) (s : State) : Out :=
  .next <|
    if !s.running || s.link.state != 1 || s.time.backup then s
    else
      let s1 := { s with link := trainStep s.link e }
      if s1.link.state = 2 then setLevel s1 15 false else s1

/-- HL_RETRAIN (R397, R399): the link goes down and trains with full ceilings. -/
def hlRetrain (s : State) : State :=
    if !s.running then s
    else
      let s1 := if 2 ≤ s.link.state then linkGoesDown s else s
      if s1.link.state = 1 then { s1 with link := { startTraining (fullCeilings s1 s1.link) with fails := 0 } } else s1

/-- HL_RETRAIN: the write has its effect where the access reaches the register (R522). -/
def execHlRetrain (s : State) : Out := .next (regEnter s 0x3000C hlRetrain)

/-! ### Host memory (R404) -/

/-- A read of host memory fails while the link stays up (R404). -/
def memRdFails (s : State) (m : MemRd) : State :=
  let s1 := { s with link := { s.link with memRds := s.link.memRds.filter (fun x => x.tag != m.tag), memto := s.link.memto + 1 } }
  assignLanes (memFail (raise s1 { source := 17 }) m)

/-- MEM_CPL (R402, R404): a part of the answer, or the whole of it; an error fails the read. -/
def execMemCpl (tag : Nat) (ok : Bool) (data : List Byte) (s : State) : Out :=
  .next <| whileRunning s fun _ =>
    match s.link.memRds.find? fun m => m.tag == tag with
    | none => s
    | some m =>
      if !ok then memRdFails s m
      else if data.length < m.len then
        { s with link := { s.link with memRds := s.link.memRds.map fun x =>
          if x.tag = tag then { x with addr := m.addr + data.length, len := m.len - data.length } else x } }
      else assignLanes { s with link := { s.link with memRds := s.link.memRds.filter fun x => x.tag != tag } }

/-- MEM_RD_TIMEOUT (R404): a read not answered within 10,000 ticks fails. -/
def execMemRdTimeout (tag : Nat) (s : State) : Out :=
  .next <| whileRunning s fun _ =>
    match s.link.memRds.find? fun m => m.tag == tag with
    | none => s
    | some m => if elapsed s m.since 10000 then memRdFails s m else s

/-! ### Messages over the link (R398, R405) -/

/-- Whether a key generation is the current or the previous one of an association's keys (R284). -/
def genKnown (s : State) (a : AssocKey) (g : Nat) : Bool :=
  let t := tenantOf s (keyNo a)
  t.keygen == some g || t.prev.map Prod.fst == some g

/-- Whether a key generation is retired but still accepted (R284). -/
def genRetired (s : State) (a : AssocKey) (g : Nat) : Bool :=
  let t := tenantOf s (keyNo a)
  t.keygen != some g && t.prev.map Prod.fst == some g

/-- Whether a message is of a KIND that its association may carry (R299, R347, R512); no endpoint sends MAP_ACK to a node. -/
def kindAllowed (m : Inbound) : Bool :=
  let k := msgKind m.bytes
  decide (8 ≤ m.bytes.length) && ((decide (1 ≤ k) && decide (k ≤ 3)) || (m.sys && decide (16 ≤ k) && decide (k ≤ 31) && k != 17 && k != 27))

/-- What is left of a message under a retired generation (R284): a command, which waits for its KEY_RETIRED answer, and in
place of a completion the status KEY_RETIRED for the command that awaited it. -/
def retiredRest (m : Inbound) : Option Inbound :=
  if msgKind m.bytes = 1 then some m
  else if msgKind m.bytes = 2 then some { m with bytes := splice m.bytes 0x11 [0x40] }
  else none

/-- Counts a discarded message (R284, R299, R347). -/
def discard (s : State) : State := { s with net := { s.net with discarded := s.net.discarded + 1 } }

/-- Hands a message to its consumer (R292, R405). A message of a reserved KIND, or a CONTROL message on a tenant
association, is discarded and counted (R299); so is a completion, a record or a CONTROL message under a retired generation
(R284). -/
def deliver (s : State) (m : Inbound) : State :=
  let a : AssocKey := { peer := m.src, tenant := m.tenant, sys := m.sys }
  let s1 := if m.sys then s else bump s m.tenant 5 m.bytes.length
  let old := genRetired s a m.keygen
  if !kindAllowed m then discard s1
  else
    let s2 := if old && msgKind m.bytes != 1 then discard s1 else s1
    match if old then retiredRest m else some m with
    | none => s2
    | some r => { s2 with net := { s2.net with inbox := s2.net.inbox ++ [{ msg := r, kind := msgKind r.bytes, retired := old }] } }

/-- Whether the link accepts a MSG by its KEYGEN (R405): in configuration safe state, where no key package is installed, no
generation is older than the previous one (R467). DEDUCED (log entry 34). -/
def linkGenOk (s : State) (a : AssocKey) (g : Nat) : Bool :=
  genKnown s a g || (s.boot.cfgState == 2 && (tenantOf s (keyNo a)).keygen.isNone)

/-- MSG (R398, R405): discarded and counted while the link is PLAIN, discarded under an old key generation, else delivered
as if it came from HL_EP. -/
def execMsg (tenant keygen : Nat) (sys mgmt : Bool) (bytes : List Byte) (s : State) : Out :=
  .next <|
    if !s.running || s.link.state < 2 then s
    else if s.link.state != 3 then { s with link := { s.link with plainDrop := s.link.plainDrop + 1 } }
    else
      let m : Inbound := { src := hlEndpoint s, tenant := tenant, keygen := keygen, sys := sys, mgmt := mgmt, viaLink := true,
                           bytes := bytes }
      if linkGenOk s { peer := m.src, tenant := tenant, sys := sys } keygen then deliver s m else s

end Sys2Proof.Machine
end

