-- ==== Sys2Proof/Machine/Mash.lean ====
section
/-!
DEFINITION. Machine/Mash.lean: pseudo-channels and stacks (chapter 7): bursts, tokens, the quota, refresh, row clone, spare
units and failed units; and the tiles' chains, swaps and isolation (R144, R174, R176, R488, R489).
-/

namespace Sys2Proof.Machine

/-! ### Plans and visits by key -/

def planFor (s : State) (k : CmdKey) : Option Plan := s.exec.plans.find? fun p => p.key == k
def visitOf (s : State) (id : Nat) : Option Visit := s.exec.visits.find? fun v => v.id == id

def modPlan (s : State) (k : CmdKey) (f : Plan → Plan) : State :=
  { s with exec := { s.exec with plans := s.exec.plans.map fun p => if p.key = k then f p else p } }

def modVisit (s : State) (id : Nat) (f : Visit → Visit) : State :=
  { s with exec := { s.exec with visits := s.exec.visits.map fun v => if v.id = id then f v else v } }

/-- The ATTN_FWD layout of an attention command. -/
def attnOf : Body → AttnDesc
  | .attnFwd a => a
  | .attnBwd a _ _ => a
  | _ => {}

def isBwdBody : Body → Bool
  | .attnBwd _ _ _ => true
  | _ => false

/-- The rows of a block of a group (R137). -/
def blockRows (g : Group) (block : Nat) : Nat := min 64 (g.rows - 64 * block)

/-! ### Bursts (R143, R190 to R195) -/

/-- Bytes of a row set of `r` rows: elements in one or two bytes, and the scales of converted rows (R153, R190). -/
def rowSetBytes (p : Plan) (r : Nat) : Nat :=
  if elemBits p.format ≤ 8 then
    r * (p.headDim + (if elemBits (attnOf p.cmd.desc.body).qfmt = 16 then p.headDim / 32 else 0))
  else r * 2 * p.headDim

/-- Picoseconds that bytes take on the interface share of a channel, 36.8 GB/s. -/
def bytesPs (n : Nat) : Nat := ceilDiv (10000 * n) 368

/-- The time of an item on its channel in picoseconds, and the row sets held after it (R190, R207). -/
def itemPs (s : State) (c : Chan) : Item → Nat × List (CmdKey × Nat × Nat)
  | .add _ => (bytesPs 16384, c.rowSets)
  | .visit id =>
    match visitOf s id with
    | none => (0, c.rowSets)
    | some v => match planFor s v.key with
      | none => (0, c.rowSets)
      | some p =>
        let r := ((p.groups[v.group]?).map fun g => blockRows g v.block).getD 0
        let set := (v.key, v.group, v.block)
        let load := if c.rowSets.contains set then 0 else rowSetBytes p r
        (max 74100 (bytesPs (load + r * (2 * p.headDim + 8))), (set :: c.rowSets.filter (· != set)).take 4)

/-- A channel whose item in progress has ended starts its next one, in arrival order, unless its burst closes or the item
would carry it past 2.0 µs (R143, R193). -/
def nextItem (s : State) (c : Chan) : Chan :=
  match c.burst, c.queue with
  | [], i :: rest =>
    let (t, sets) := itemPs s c i
    if c.closing || 2000000 < c.burstPs + t then c
    else { c with queue := rest, burst := [i], burstPs := c.burstPs + t, rowSets := sets }
  | _, _ => c

/-- Marks the visit in progress on a channel: it is not rerouted any more (R139). -/
def markBurst (s : State) (n : Nat) : State :=
  let ids := (chanOf s n).burst.filterMap fun i => match i with
    | .visit id => some id
    | .add _ => none
  { s with exec := { s.exec with visits := s.exec.visits.map fun v => if ids.contains v.id then { v with inBurst := true } else v } }

/-- Starts the next item of the burst that runs on a channel. -/
def refill (s : State) (n : Nat) : State := markBurst (modChan s n (nextItem s)) n

/-- The refreshes that may be postponed (R187). -/
def refreshAllowance : Nat := 2 + Config.refreshExtra

/-- Refreshes that can fall due in one entry, burst and exit: 2,080 ns at the interval of R187. -/
def burstRefreshes (s : State) (st : Nat) : Nat := if (stackOf s st).hot then 2 else 1

/-- Whether a channel may begin to enter processor mode (R187, R192, R195): a token and a queued item, every request that
waited at the end of its last burst served, its window over, its postponed refreshes issued, and the JEDEC allowance not in
reach. -/
def mayEnter (s : State) (st pc : Nat) : Bool :=
  let c := chanOf s (pcNum st pc)
  decide (4 ≤ pc) && decide (pc < 32) && c.token && c.mode == 0 && !c.queue.isEmpty && !c.disabled
    && decide (0 < (stackOf s st).quota) && c.hold.isEmpty && decide (c.windowEnd ≤ now s)
    && decide (c.postponed + burstRefreshes s st ≤ refreshAllowance) && !locWaits s (.hbm st pc 0)

/-- BURST_ENTRY (R192 step 1): a channel with a token and queued items begins to enter processor mode; from here on its
memory-mode requests go to the hold queue. Entry takes 40 ns. -/
def execBurstEntry (stack : Fin 12) (pc : Nat) (s : State) : Out :=
  .next <| whileRunning s fun _ =>
    if mayEnter s stack.val pc then
      modChan (modStack s stack.val fun k => { k with bursts := k.bursts + 1 }) (pcNum stack.val pc)
        fun c => { c with mode := 1, modeEnd := now s + 4, burstPs := 0, closing := false }
    else s

/-- Whether a frame of a channel is IN_FLUX: an access that began in memory mode is still in flight (R192 step 1). -/
def fluxOn (s : State) (st pc : Nat) : Bool :=
  s.mem.frames.any fun e => e.2.inFlux && match slotOf e.2 with
    | .hbm a b _ => a == st && b == pc
    | _ => false

/-- The token of a channel goes back to its stack's arbiter (R197). -/
def returnToken (s : State) (st pc : Nat) : State :=
  modStack (modChan s (pcNum st pc) fun c => { c with token := false }) st fun k => { k with granted := k.granted.filter (· != pc) }

/-- Whether a channel waits for a token (R197). -/
def wantsToken (s : State) (st pc : Nat) : Bool :=
  let c := chanOf s (pcNum st pc)
  !c.token && !c.queue.isEmpty && !c.disabled

def mashChannels : List Nat := rangeFrom 4 32

/-- A burst ends (R192 steps 5 and 6, R197): the channel leaves processor mode, which takes 40 ns, and the token goes back
where another channel waits or the quota is passed. An item in progress that a failed unit has stopped runs again from its
start (R156, R212). -/
def closeBurst (s : State) (st pc : Nat) : State :=
  let n := pcNum st pc
  let left := (chanOf s n).burst
  let back := fun (v : Visit) => if left.contains (.visit v.id) then { v with inBurst := false } else v
  let s1 := { s with exec := { s.exec with visits := s.exec.visits.map back } }
  let s2 := modChan s1 n fun c => { c with mode := 3, modeEnd := now s + 4, queue := left ++ c.queue, burst := [], burstPs := 0,
                                           closing := false }
  let others := mashChannels.any fun i => i != pc && wantsToken s2 st i
  let passed := decide ((stackOf s2 st).quota < (stackOf s2 st).granted.length)
  if others || passed || (chanOf s2 n).disabled then returnToken s2 st pc else s2

/-- BURST_CLOSE (R192, R193): no item is in progress, and the next one does not fit, or the burst closes early, or none waits. -/
def execBurstClose (stack : Fin 12) (pc : Nat) (s : State) : Out :=
  .next <| whileRunning s fun _ =>
    let c := chanOf s (pcNum stack.val pc)
    if c.mode = 2 ∧ c.burst = [] ∧ 4 ≤ pc ∧ pc < 32 then closeBurst s stack.val pc else s

/-- Whether an item is the one that its channel runs now. -/
def runsNow (s : State) (n : Nat) (i : Item) : Bool := (chanOf s n).mode == 2 && (chanOf s n).burst.head? == some i

/-- The item that ran leaves the burst; the next one starts while it fits. -/
def popBurst (s : State) (n : Nat) : State := refill (modChan s n fun c => { c with burst := c.burst.drop 1 }) n

/-- Takes an item out of every queue and burst. -/
def dropItem (s : State) (i : Item) : State :=
  { s with mem := { s.mem with chans := s.mem.chans.map fun e =>
    (e.1, { e.2 with queue := e.2.queue.filter (· != i), burst := e.2.burst.filter (· != i) }) } }

/-! ### Tokens and the quota (R197 to R199) -/

/-- Idle holders give their tokens back where another channel waits (R197). -/
def reclaimTokens (s : State) (st : Nat) : State :=
  if mashChannels.any (wantsToken s st) then
    foldState (fun s pc =>
      let c := chanOf s (pcNum st pc)
      if c.token && c.mode == 0 && c.queue.isEmpty then returnToken s st pc else s) s mashChannels
  else s

/-- TOKEN_GRANT (R197): a free token goes to the next waiting channel after the one granted last. -/
def execTokenGrant (stack : Fin 12) (s : State) : Out :=
  .next <| whileRunning s fun _ =>
    let st := stack.val
    let s1 := reclaimTokens s st
    let k := stackOf s1 st
    if k.quota ≤ k.granted.length then s1
    else
      let order := (List.range 28).map fun i => 4 + (k.lastGrant - 4 + 1 + i) % 28
      match order.find? (wantsToken s1 st) with
      | none => s1
      | some pc =>
        modStack (modChan s1 (pcNum st pc) fun c => { c with token := true }) st
          fun k => { k with granted := k.granted ++ [pc], lastGrant := pc }

/-- The quota of a temperature under the image cap (R198). -/
def tempQuota (s : State) (t : Nat) : Nat :=
  min (pMashQuota s) (if t ≤ 80 then 16 else if t ≤ 88 then 12 else if t ≤ 93 then 8 else 0)

/-- The next step above a quota, and the temperature at or below which readings must lie to enter it (R199). -/
def nextQuota (s : State) (q : Nat) : Nat × Nat :=
  let cap := fun (n : Nat) => min (pMashQuota s) n
  if q < cap 8 then (cap 8, 91) else if q < cap 12 then (cap 12, 86) else (cap 16, 78)

/-- Closes the bursts of the most recently granted channels after their item in progress while the tokens in use pass the
quota (R199). -/
def closeOver (s : State) (st : Nat) : State :=
  let k := stackOf s st
  let running := k.granted.reverse.filter fun pc => (chanOf s (pcNum st pc)).mode == 2 || (chanOf s (pcNum st pc)).mode == 1
  foldState (fun s pc => modChan s (pcNum st pc) fun c => { c with closing := true }) s (running.take (k.granted.length - k.quota))

/-- One stack's reading (R187, R198, R199, R553). -/
def readStack (s : State) (st t : Nat) : State :=
  let k := stackOf s st
  let lower := tempQuota s t < k.quota
  let q := if lower then tempQuota s t else k.quota
  let cool := if lower then none
    else if t ≤ (nextQuota s q).2 && q < (nextQuota s q).1 then some (k.coolSince.getD (now s)) else none
  let resume := if k.stopped && decide (t ≤ 93) then some (k.resumeSince.getD (now s)) else none
  let ends := match resume with
    | some since => elapsed s since 100000
    | none => false
  let stopped := decide (95 ≤ t) || (k.stopped && !ends)
  closeOver (modStack s st fun x =>
    { x with temp := t, quota := q, coolSince := cool, stopped := stopped, resumeSince := if stopped then resume else none,
             hot := decide (85 < t) }) st

/-- The HBM_THERMAL source follows a quota of 0 on any stack (R198). -/
def hbmThermal (s : State) : State :=
  match (List.range 12).find? fun st => (stackOf s st).quota == 0 with
  | some st => setLevel s 24 true { kind := 8, num := st }
  | none => setLevel s 24 false

/-- HBM_TEMP_READ (R186, R198, R199, R553): the hottest core die of each stack, every 10,000 local ticks. -/
def execHbmTempRead (temps : List Nat) (s : State) : Out :=
  .next <|
    if !s.running || !elapsed s s.mem.tempSince 10000 then s
    else hbmThermal (foldState (fun s st => readStack s st (temps.getD st 0))
      { s with mem := { s.mem with tempSince := now s } } (List.range 12))

/-- QUOTA_RAISE (R199): after 100,000 ticks of low enough readings the quota rises by one step. -/
def execQuotaRaise (stack : Fin 12) (s : State) : Out :=
  .next <| whileRunning s fun _ =>
    let k := stackOf s stack.val
    match k.coolSince with
    | none => s
    | some since =>
      if elapsed s since 100000 then
        let q := (nextQuota s k.quota).1
        let again := decide (k.temp ≤ (nextQuota s q).2) && decide (q < (nextQuota s q).1)
        hbmThermal (modStack s stack.val fun x => { x with quota := q, coolSince := if again then some (now s) else none })
      else s

/-- REFRESH_DUE (R187): issued in memory mode, postponed from the entry of a burst to its exit while the JEDEC allowance
permits; one that it does not permit closes the burst (log entry 93). -/
def execRefreshDue (stack : Fin 12) (pc : Nat) (s : State) : Out :=
  .next <| whileRunning s fun _ =>
    let n := pcNum stack.val pc
    if pc < 32 ∧ (chanOf s n).mode ≠ 0 then
      modChan s n fun c =>
        if c.postponed < refreshAllowance then { c with postponed := c.postponed + 1 } else { c with closing := true }
    else s

/-! ### Row clone (R208) -/

/-- The frame whose bytes lie in a slot. -/
def frameAt (s : State) (l : Loc) : Option Nat := (s.mem.frames.find? fun e => slotOf e.2 == l).map Prod.fst

/-- The copy of a CLONE (R208): word for word; an uncorrectable word poisons the source frame and leaves the destination. -/
def cloneSlot (s : State) (src dst : Loc) (errs : List WordErr) : State :=
  let (bad, s1) := match frameAt s src with
    | some lpn => checkWords s 1 lpn errs
    | none => (false, s)
  if bad then s1 else slotFill s1 dst (if slotVirgin s1 src then zeroImage else slotImage s1 src)

/-- CLONE (R194, R208): a copy inside a stack in memory mode; it takes an entry of the hold queue of each channel that it
touches and that computes, and waits for a source frame that is IN_FLUX (R55). -/
def execClone (stack : Fin 12) (srcPc srcSlot dstPc dstSlot : Nat) (errs : List WordErr) (s : State) : Out :=
  .next <| whileRunning s fun _ =>
    let src : Loc := .hbm stack.val srcPc srcSlot
    let dst : Loc := .hbm stack.val dstPc dstSlot
    let legal := fun (pc slot : Nat) => decide (4 ≤ pc) && decide (pc < 32) && decide (slot < slotsPerPc)
    if !legal srcPc srcSlot || !legal dstPc dstSlot || ((frameAt s src).map fun l => (frameOf s l).inFlux).getD false then s
    else whenMemory s [src, dst] (.clone stack.val srcPc srcSlot dstPc dstSlot errs) 0 fun _ => cloneSlot s src dst errs

/-! ### Entry, exit and the memory-mode window (R192, R195) -/

/-- Serves one entry of a hold queue (R194): a CLONE once every channel that it touches is in memory mode, a request in the
step that made it, which goes on by its own event. Answers whether the entry is done. -/
def serveEntry (s : State) : HoldWork → Bool × State
  | .clone st a i b j errs =>
    if locHeld s (.hbm st a i) || locHeld s (.hbm st b j) then (false, s)
    else (true, cloneSlot s (.hbm st a i) (.hbm st b j) errs)
  | _ => (true, s)

/-- Takes an entry's work out of every hold queue. -/
def dropHold (s : State) (w : HoldWork) : State :=
  { s with mem := { s.mem with chans := s.mem.chans.map fun e => (e.1, { e.2 with hold := e.2.hold.filter fun h => h.work != w }) } }

/-- Serves the hold queue of a channel in memory mode in arrival order. -/
def serveHold (s : State) (n : Nat) : State :=
  foldState (fun s e => match serveEntry s e.work with
    | (true, s1) => dropHold s1 e.work
    | (false, s1) => s1) s (chanOf s n).hold

/-- The end of an exit (R187, R195): the postponed refreshes are issued in 280 ns, and a memory-mode window of at least 200 ns
opens where the hold queue has entries. -/
def endExit (s : State) (n : Nat) : State :=
  serveHold (modChan s n fun c =>
    let r := if c.postponed = 0 then 0 else 28
    { c with mode := 0, postponed := 0, windowEnd := now s + (if c.hold.isEmpty then r else max 20 r) }) n

/-- What a tick brings a channel (R192): entry ends when 40 ns have passed and no access is in flight, and the first item
starts; exit ends 40 ns after the stack was asked. -/
def chanTick (s : State) (n : Nat) : State :=
  let c := chanOf s n
  if now s < c.modeEnd then s
  else match c.mode with
    | 1 => if fluxOn s (n / 32) (n % 32) then s else refill (modChan s n fun c => { c with mode := 2 }) n
    | 3 => endExit s n
    | _ => s

/-- A tick on every channel. -/
def chansTick (s : State) : State := foldState (fun s e => chanTick s e.1) s s.mem.chans

/-! ### Failed units (R211 to R213) -/

/-- The LIVE frames that a channel's slots hold. -/
def framesOn (s : State) (st pc : Nat) : List Nat :=
  (s.mem.frames.filter fun e => (e.2.state == .live || e.2.state == .stub) && match slotOf e.2 with
    | .hbm a b _ => a == st && b == pc
    | _ => false).map Prod.fst

/-- A channel becomes mash-disabled (R212 step 3): its slots are withheld and its LIVE frames wait to be moved. -/
def disableChannel (s : State) (st pc : Nat) : State :=
  let n := pcNum st pc
  let s1 := modFree (modChan s n fun c => { c with disabled := true }) n fun l => { l with withheld := true }
  let add := (framesOn s1 st pc).filter fun l => !s1.mem.moves.contains l
  caskAction { s1 with mem := { s1.mem with moves := s1.mem.moves ++ add } } 2 { kind := 1, num := n } 0

/-- The add that ran on a failed unit poisons its frame and is not applied again (R182). -/
def failItem (s : State) (n : Nat) : State :=
  match (chanOf s n).mode, (chanOf s n).burst with
  | 2, .add id :: _ =>
    match s.exec.contribs.find? fun c => c.id == id with
    | none => s
    | some c =>
      let s1 := dropItem { s with exec := { s.exec with contribs := s.exec.contribs.filter fun x => x.id != id } } (.add id)
      poisonFrame s1 c.lpn
  | _, _ => s

/-- A mash unit is replaced by its channel's spare, or its channel is disabled (R212). -/
def unitReplace (s : State) (st pc unit : Nat) (reducer spareOk : Bool) : State :=
  let n := pcNum st pc
  let u : UnitRef := if reducer then { kind := 1, num := n } else { kind := 2, num := n * 32 + unit }
  if (chanOf s n).disabled then s
  else
    let s1 := failItem s n
    let s2 := if (chanOf s1 n).mode = 2 ∨ (chanOf s1 n).mode = 1 then closeBurst s1 st pc else s1
    let c := chanOf s2 n
    if !reducer && !c.spareActive && !c.spareFail && spareOk then
      caskAction (modChan s2 n fun c => { c with spareActive := true, spareTarget := unit, failedUnits := unit :: c.failedUnits })
        1 u 0
    else
      let s3 := modChan s2 n fun c =>
        { c with failedUnits := if reducer then c.failedUnits else unit :: c.failedUnits
                 spareFail := c.spareFail || (!reducer && !c.spareActive && !spareOk) }
      disableChannel s3 st pc

/-- A mash unit or channel reducer fails (R212). -/
def unitFails (s : State) (st pc unit : Nat) (reducer spareOk injected : Bool) : State :=
  let n := pcNum st pc
  let u : UnitRef := if reducer then { kind := 1, num := n } else { kind := 2, num := n * 32 + unit }
  unitReplace (raise s { source := 18 + quadOfStack st, unit := u, injected := injected, unitDone := true }) st pc unit reducer
    spareOk

/-- MASH_UNIT_FAIL (R212). -/
def execMashUnitFail (stack : Fin 12) (pc unit : Nat) (reducer spareOk : Bool) (s : State) : Out :=
  .next <| if s.running && decide (4 ≤ pc) && decide (pc < 32) && decide (unit < 32) then
    unitFails s stack.val pc unit reducer spareOk false else s

/-- FRAME_MOVE (R212, R213, R223): a frame of a mash-disabled channel moves to another channel with its handle and generation; its
queued visits and adds follow it. Its words and its CRC are checked (R203, R206); `crcBad` is a CRC check that fails. -/
def execFrameMove (lpn : Nat) (errs : List WordErr) (s : State) (crcBad : Bool := false) : Out :=
  .next <| whileRunning s fun _ =>
    let f := frameOf s lpn
    let leave := fun (s : State) => { s with mem := { s.mem with moves := s.mem.moves.filter (· != lpn) } }
    if !s.mem.moves.contains lpn || f.inFlux then s
    else whenMemory s [homeOf s lpn] (.frame lpn) 576 fun _ => match slotOf f with
      | .hbm st pc n =>
        let (bad, s0) := checkWords s 1 lpn errs
        let (crc, _, s1) := if bad then (false, false, s0) else checkFails s0 3 (pcNum st pc) (crcBad || crcWrong s0 lpn)
        if bad then leave s1
        else if crc then leave (poisonFrame s1 lpn)
        else match takeBare s1 ((sideOrder s1 lpn).filter fun e => e != (st, pc)) with
          | none => s1
          | some (l, s2) =>
            let s3 := slotFill s2 l (slotImage s2 (.hbm st pc n))
            let s4 := modFrame s3 lpn fun f => if f.staged then { f with alt := l } else { f with loc := l }
            let s5 := modFree s4 (pcNum st pc) fun x => { x with vacant := x.vacant ++ [n] }
            let mine := (s5.exec.visits.filter fun v => v.lpn == lpn && v.path == .mash && !v.inBurst).map (fun v => Item.visit v.id)
              ++ (s5.exec.contribs.filter fun c => c.lpn == lpn && !c.inBurst).map fun c => Item.add c.id
            let s6 := foldState dropItem s5 mine
            let (st', pc') := match l with
              | .hbm a b _ => (a, b)
              | _ => (st, pc)
            let s7 := modChan s6 (pcNum st' pc') fun c => { c with queue := c.queue ++ mine }
            let follow := fun (v : Visit) => if v.lpn == lpn && v.path != .fallback then { v with quad := quadOfStack st' } else v
            leave { s7 with exec := { s7.exec with visits := s7.exec.visits.map follow } }
      | _ => leave s

/-! ### Tiles and chains (R144, R174, R176, R488, R489) -/

def tileOf (s : State) (t : Nat) : Tile := tabGetD s.mem.tiles t {}

/-- Whether every tile of a list is in service. -/
def tilesLive (s : State) (ts : List Nat) : Bool := ts.all fun t => (tileOf s t).state == 0

/-- The tiles of a forward and of a backward chain (R144, R174). -/
def fwdTiles (q k : Nat) : List Nat := [16 * q + 2 * k, 16 * q + 2 * k + 1]
def bwdTiles (q k : Nat) : List Nat := (List.range 4).map fun i => 16 * q + 4 * k + i

/-- Forward chains in service, lent ones included (R176, R489). -/
def fwdLive (s : State) (q : Nat) : List Nat := (List.range 8).filter fun k => tilesLive s (fwdTiles q k)

/-- Forward chains that can take a visit now. -/
def fwdFree (s : State) (q : Nat) : List Nat := (fwdLive s q).filter fun k => !(quadOf s q).bwd.contains (k / 2)

/-- The quadrant whose chains serve a quadrant's pages (R489). -/
def serveQuad (s : State) (q : Nat) : Nat := if (fwdLive s q).isEmpty then q / 2 * 2 + (1 - q % 2) else q

/-- Whether a visit belongs to an ATTN_BWD. -/
def isBwdVisit (s : State) (v : Visit) : Bool := ((planFor s v.key).map fun p => isBwdBody p.cmd.desc.body).getD false

/-- The visits that wait for a quadrant's backward or forward chains, those of a neighbour that it serves among them (R489). -/
def waitingTiles (s : State) (q : Nat) (bwd : Bool) : List Visit :=
  s.exec.visits.filter fun v => serveQuad s v.quad == q && (v.path == .tile || v.path == .fallback) && isBwdVisit s v == bwd

/-- BWD_CHAIN_FORM (R174, R176): a further backward chain is formed while backward visits wait. -/
def execBwdChainForm (quad : Fin 4) (s : State) : Out :=
  .next <| whileRunning s fun _ =>
    let q := quad.val
    let x := quadOf s q
    let late := fun (k : Nat) => x.returned.any fun r =>
      r.1 == k && !((waitingTiles s q false).isEmpty && elapsed s r.2 10000)
    match (List.range (pBwdMax s)).find? fun k => !x.bwd.contains k && tilesLive s (bwdTiles q k) && !late k with
    | none => s
    | some k =>
      if (waitingTiles s q true).isEmpty then s
      else modQuad s q fun x => { x with bwd := x.bwd ++ [k], bwdIdle := none, returned := x.returned.filter fun r => r.1 != k }

/-- BWD_CHAIN_IDLE (R174): after 10,000 ticks without a waiting backward visit the tiles return to forward chains. -/
def execBwdChainIdle (quad : Fin 4) (s : State) : Out :=
  .next <| whileRunning s fun _ =>
    let x := quadOf s quad.val
    match x.bwdIdle with
    | some since =>
      if (waitingTiles s quad.val true).isEmpty && elapsed s since 10000 then
        modQuad s quad.val fun x => { x with bwd := [], bwdIdle := none }
      else s
    | none => s

/-- FWD_CHAIN_RETURN (R176): forward visits wait in a quadrant whose every forward chain is lent. -/
def execFwdChainReturn (quad : Fin 4) (s : State) : Out :=
  .next <| whileRunning s fun _ =>
    let q := quad.val
    let x := quadOf s q
    if (fwdFree s q).isEmpty && !(waitingTiles s q false).isEmpty then
      match x.bwd.max? with
      | none => s
      | some k => modQuad s q fun x => { x with bwd := x.bwd.filter (· != k), returned := (k, now s) :: x.returned }
    else s

/-- A tile is isolated (R489), once; a die without a forward chain fences. -/
def tileOut (s : State) (t : Nat) : State :=
  let q := t / 16
  let u : UnitRef := { kind := 3, num := t }
  if (tileOf s t).state = 2 then s
  else
    let s2 := modTile s t fun x => { x with state := 2, spared := false }
    let s3 := modQuad s2 q fun x =>
      { x with spareFail := x.spareFail || x.spareFree, spareFree := false,
               spareActive := x.spareActive && x.spareTarget != t, bwd := x.bwd.filter fun k => !(bwdTiles q k).contains t }
    let s4 := caskAction s3 2 u 0
    let die := q / 2
    if (fwdLive s4 (2 * die)).isEmpty && (fwdLive s4 (2 * die + 1)).isEmpty then fenceNode s4 1 (29 + q) else s4

/-- The spare of a tile's quadrant takes its place, or the tile is isolated (R488). -/
def tileReplace (s : State) (t phys : Nat) (spareOk : Bool) : State :=
  let q := t / 16
  if (tileOf s t).state = 2 then s
  else if (quadOf s q).spareFree && spareOk then
    caskAction (modQuad (modTile s t fun x => { x with spared := true, state := 0 }) q fun x =>
      { x with spareFree := false, spareActive := true, spareTarget := t, spareFailedPhys := phys }) 1 { kind := 3, num := t } 0
  else tileOut s t

/-- A tile fails (R487, R488). -/
def tileFails (s : State) (t phys : Nat) (spareOk injected : Bool) : State :=
  tileReplace (raise (modTile s t fun x => { x with checks := x.checks + 1 })
    { source := 29 + t / 16, unit := { kind := 3, num := t }, injected := injected, unitDone := true }) t phys spareOk

/-- TILE_FAIL (R488). -/
def execTileFail (tile : Fin 64) (phys : Nat) (spareOk : Bool) (s : State) : Out :=
  .next <| if s.running then tileFails s tile.val phys spareOk false else s

end Sys2Proof.Machine
end

