-- ==== Sys2Proof/Machine/Numerics.lean ====
section
/-!
DEFINITION. Machine/Numerics.lean: the arithmetic of attention (chapters 4 to 6): visibility (R96), query operands (R153),
scores (R97, R151), per-visit partials (R147, R152, R189), the fold (R148), the skip bound (R167) and backward terms (R172,
R173).
-/

namespace Sys2Proof.Machine

/-- The shape that the arithmetic needs: storage format, head dimension, tokens per page. -/
structure Shape where
  format : Nat
  headDim : Nat
  p : Nat
  deriving DecidableEq, Repr

/-! ### Rows and visibility (R95, R96) -/

/-- A row of a row group: its query token and its group member (R137). -/
def rowTok (a : AttnDesc) (r : Nat) : Nat := r / a.group
def rowMember (a : AttnDesc) (r : Nat) : Nat := r % a.group

/-- The command row of row r of the group of local head offset h (R95). -/
def cmdRow (a : AttnDesc) (h r : Nat) : Nat := (rowTok a r * a.headCount + h) * a.group + rowMember a r

/-- Whether key position j is visible to position q (R96). -/
def visible (a : AttnDesc) (j q : Nat) : Bool :=
  decide (a.kvStart ≤ j) && decide (j < a.kvEnd) && (!a.causal || decide (j ≤ q))
    && (a.window == 0 || decide (q < j + a.window) || decide (j < a.sinks))

/-- The visible token slots of a page with `n` content slots whose first position is `first`, for the row at position q. -/
def visibleSlots (a : AttnDesc) (first n q : Nat) : List Nat := (List.range n).filter fun i => visible a (first + i) q

/-- Whether some row of [r0, r1) sees some of the first `n` slots of a page. -/
def blockSees (a : AttnDesc) (first n r0 r1 : Nat) : Bool :=
  r0 < r1 && (rangeFrom (rowTok a r0) (rowTok a (r1 - 1) + 1)).any fun i => !(visibleSlots a first n (a.qPos + i)).isEmpty

/-! ### Query operands (R91, R153) -/

/-- A converted query (or dO) row: element values, and one scale exponent per block of 32 dimensions. -/
structure QRow where
  vals : List FVal
  scales : List Int
  deriving DecidableEq, Repr

/-- The elements of row `r` of a run of rows of one format at `offset` of a payload. -/
def payloadRow (fmt headDim : Nat) (payload : List Byte) (offset r : Nat) : List FVal :=
  rowElems fmt headDim (slice payload (offset + r * rowBytes fmt headDim) (rowBytes fmt headDim))

/-- Whether the tile arrays run in 8-bit mode for a storage format (R151). -/
def mode8 (f : Nat) : Bool := decide (elemBits f ≤ 8)

/-- The query operand of a row (R153). -/
def queryOperand (sh : Shape) (qfmt : Nat) (vals : List FVal) : QRow :=
  let nb := sh.headDim / 32
  if mode8 sh.format && (qfmt == 0x30 || qfmt == 0x31) then
    let bs := (List.range nb).map fun b => toMx ((vals.drop (32 * b)).take 32)
    { vals := bs.flatMap fun b => b.1, scales := bs.map fun b => b.2.1 }
  else { vals := vals, scales := List.replicate nb 0 }

/-- The decoded value of dimension d of a query operand. -/
def QRow.dec (q : QRow) (d : Nat) : FVal := fmul (q.vals.getD d fzero) (.fin false 1 (q.scales.getD (d / 32) 0))

/-! ### Scores (R97, R151) -/

/-- The exact sum of the products of two lists. -/
def dotExact (a b : List FVal) : FVal := (List.zipWith fmul a b).foldl fadd fzero

/-- The dot product by blocks of 32 dimensions (R151 steps 1 to 4): `ks` gives the K block's scale. -/
def dotBlocks (q : QRow) (k : List FVal) (ks : Nat → FVal) : Word32 :=
  (List.range q.scales.length).foldl (fun acc b =>
    let sum := dotExact ((q.vals.drop (32 * b)).take 32) ((k.drop (32 * b)).take 32)
    let scaled := fmul (fmul sum (ks b)) (.fin false 1 (q.scales.getD b 0))
    bits32 (fadd (of32 acc) (round32 scaled))) zero32

/-- The K block's scale: E8M0 for MX formats, 1 otherwise. -/
def blockScale (f : Nat) (scales : List Byte) (b : Nat) : FVal :=
  if isMx f then ofE8m0 (scales.getD b 0).toNat else .fin false 1 0

/-- The token scale of INT8_TOK storage; 1 otherwise. -/
def tokenScale (f : Nat) (scales : List Byte) : FVal := if f = 0x20 then ofF16 (fieldLe scales 0 2) else .fin false 1 0

/-- Applies the token's K scale where the format has one (R151 step 5). -/
def withTokenScale (f : Nat) (scales : List Byte) (x : Word32) : Word32 :=
  if f = 0x20 then bits32 (fmul (of32 x) (tokenScale f scales)) else x

/-- The score scale (R93). -/
def scaleValue (a : AttnDesc) (headDim : Nat) : FVal := if a.scale = 0 then of32 (invSqrt headDim) else ofBf16 a.scale

/-- The distance |q − j| as an exact value. -/
def distance (q j : Nat) : FVal := .fin false ((q - j) + (j - q)) 0

/-- The bias terms of a row: its FP32 slope, and the BF16 bias of each requested position. -/
def slopeOf (payload : List Byte) (biasAt head : Nat) : Word32 := BitVec.ofNat 32 (fieldLe payload (biasAt + 4 * head) 4)
def biasOf (a : AttnDesc) (payload : List Byte) (biasAt i j : Nat) : FVal :=
  ofBf16 (fieldLe payload (biasAt + 2 * (i * (a.kvEnd - a.kvStart) + (j - a.kvStart))) 2)

/-- SOFTCAP on a score (R151 step 6): the capped score and c_t; without SOFTCAP the score itself. -/
def capScore (a : AttnDesc) (s : Word32) : Word32 × Word32 :=
  if a.softcap = 0 then (s, zero32)
  else
    let c := ofBf16 a.softcap
    let t := tanh32 (to32 (fdiv (of32 s) c))
    (bits32 (fmul c (of32 t)), t)

/-- BIAS on a score (R97). `h` is the row's query head within the command. -/
def biasScore (a : AttnDesc) (payload : List Byte) (biasAt h i j : Nat) (s : Word32) : Word32 :=
  if a.bias = 1 then sub32 s (bits32 (fmul (of32 (slopeOf payload biasAt h)) (distance (a.qPos + i) j)))
  else if a.bias = 2 then bits32 (fadd (of32 s) (biasOf a payload biasAt i j))
  else s

/-- The page data of one token slot. -/
structure TokRow where
  k : List FVal
  ks : List Byte
  v : List FVal
  vs : List Byte
  deriving DecidableEq, Repr

/-- Reads a token slot of a frame. -/
def tokRow (s : State) (lpn : Nat) (sh : Shape) (i : Nat) : TokRow :=
  { k := rowElems sh.format sh.headDim (storedRow s lpn sh.format sh.headDim i false),
    ks := storedScales s lpn sh.format sh.headDim sh.p i false,
    v := rowElems sh.format sh.headDim (storedRow s lpn sh.format sh.headDim i true),
    vs := storedScales s lpn sh.format sh.headDim sh.p i true }

/-- What a row brings to a visit: its descriptor, payload, place of the bias part, query token, head within the command, and
operand. -/
structure RowCtx where
  a : AttnDesc
  payload : List Byte
  biasAt : Nat
  i : Nat
  head : Nat
  q : QRow
  deriving DecidableEq, Repr

/-- The dot product of a row and a token's K with the token's scale (R151 steps 1 to 5). -/
def dotK (sh : Shape) (q : QRow) (t : TokRow) : Word32 :=
  withTokenScale sh.format t.ks (dotBlocks q t.k (blockScale sh.format t.ks))

/-- The score of a row at position j (R97, R151). -/
def score (sh : Shape) (c : RowCtx) (t : TokRow) (j : Nat) : Word32 :=
  let s0 := bits32 (fmul (scaleValue c.a sh.headDim) (of32 (dotK sh c.q t)))
  biasScore c.a c.payload c.biasAt c.head c.i j (capScore c.a s0).1

/-! ### Partials (R147, R148, R152, R189) -/

/-- The empty partial (R147). -/
def emptyPartial (headDim : Nat) : Partial := { m := negInf32, l := zero32, o := List.replicate headDim zero32, s := zero32, c := 0 }

/-- The fold of two partials of a row (R148). -/
def foldPartial (x y : Partial) : Partial :=
  let m := max32 x.m y.m
  if m = negInf32 then emptyPartial (max x.o.length y.o.length)
  else
    let a := exp32 (sub32 x.m m)
    let b := exp32 (sub32 y.m m)
    let mix := fun (u v : Word32) => add32 (mul32 a u) (mul32 b v)
    let n := max x.o.length y.o.length
    { m := m, l := mix x.l y.l, s := mix x.s y.s, c := x.c + y.c,
      o := (List.range n).map fun d => mix (x.o.getD d zero32) (y.o.getD d zero32) }

/-- The plain sum of two dQ partials (R114, R174). -/
def sumPartial (x y : Partial) : Partial :=
  let n := max x.o.length y.o.length
  { m := zero32, l := zero32, s := zero32, c := x.c + y.c,
    o := (List.range n).map fun d => add32 (x.o.getD d zero32) (y.o.getD d zero32) }

/-- The weights of a visit: the visible slots with their scores, the page maximum and p (R147). -/
def weights (js : List (Nat × Word32)) : Word32 × List (Nat × Word32) :=
  let m := (js.map Prod.snd).foldl max32 negInf32
  (m, js.map fun e => (e.1, exp32 (sub32 e.2 m)))

/-- The bank pair that holds dimension d of a token slot's V (R188). -/
def pairOf (sh : Shape) (i d : Nat) : Nat := (i * rowBytes sh.format sh.headDim + d * elemBits sh.format / 8) / 256

/-- One dimension of a mash visit's O (R189 phases 5 and 6): each unit adds over its own slots in ascending order, the
reducer adds the unit sums in ascending pair order; each addition rounds once (log entry 21). -/
def mashSum (sh : Shape) (ps : List (Nat × Word32)) (row : Nat → TokRow) (d : Nat) : FVal :=
  let step := fun (acc : FVal × FVal × Nat) (e : Nat × Word32) =>
    let t := row e.1
    let x := fmul (of32 e.2) (fmul (t.v.getD d fzero) (scaleAt sh.format t.vs d))
    let u := pairOf sh e.1 d
    if u = acc.2.2 then (acc.1, round32 (fadd acc.2.1 x), u)
    else (round32 (fadd acc.1 acc.2.1), round32 x, u)
  let r := ps.foldl step (fzero, fzero, 0)
  round32 (fadd r.1 r.2.1)

/-- A value converted to BF16 and widened again, and whether it saturated. -/
def viaBf16 (v : FVal) : FVal × Bool :=
  let r := toBf16 v
  (ofBf16 r.1, r.2)

/-- The partial of one row of a mash visit, and how many values saturated. -/
def mashPartial (sh : Shape) (js : List (Nat × Word32)) (row : Nat → TokRow) : Partial × Nat :=
  if js.isEmpty then (emptyPartial sh.headDim, 0)
  else
    let (m, ps) := weights js
    let l := (ps.map Prod.snd).foldl add32 zero32
    let o := (List.range sh.headDim).map fun d => viaBf16 (mashSum sh ps row d)
    ({ m := m, l := l, o := o.map fun x => to32 x.1, s := zero32, c := js.length }, (o.filter fun x => x.2).length)

/-- The P operands of one block of 32 slots on a tile (R152, R153): values with the block's scale applied, and saturations. -/
def tileP (sh : Shape) (wide : Bool) (ps : List (Nat × Word32)) (row : Nat → TokRow) : List (Nat × FVal) × Nat :=
  let scaled := ps.map fun e =>
    (e.1, if sh.format = 0x20 then round32 (fmul (of32 e.2) (tokenScale sh.format (row e.1).vs)) else of32 e.2)
  if wide then
    let r := scaled.map fun e => (e.1, viaBf16 e.2)
    (r.map fun e => (e.1, e.2.1), (r.filter fun e => e.2.2).length)
  else
    let (vs, k, n) := toMx (scaled.map Prod.snd)
    ((List.zip (scaled.map Prod.fst) vs).map fun e => (e.1, fmul e.2 (.fin false 1 k)), n)

/-- The V value of a token on a tile: decoded with its MX scale; INT8 elements without theirs, which P carries (R152). -/
def tileV (sh : Shape) (t : TokRow) (d : Nat) : FVal :=
  if sh.format = 0x20 then t.v.getD d fzero else fmul (t.v.getD d fzero) (scaleAt sh.format t.vs d)

/-- The contribution of one row of a tile visit (R146, R147, R152), and how many values saturated. -/
def tilePartial (sh : Shape) (pvPrec : Bool) (js : List (Nat × Word32)) (row : Nat → TokRow) : Partial × Nat :=
  if js.isEmpty then (emptyPartial sh.headDim, 0)
  else
    let (m, ps) := weights js
    let l := (ps.map Prod.snd).foldl add32 zero32
    let wide := !mode8 sh.format || pvPrec
    let blocks := (List.range (ceilDiv sh.p 32)).map fun b => tileP sh wide (ps.filter fun e => e.1 / 32 == b) row
    let o := (List.range sh.headDim).map fun d =>
      blocks.foldl (fun acc b =>
        bits32 (fadd (of32 acc) (round32 ((b.1.map fun e => fmul e.2 (tileV sh (row e.1) d)).foldl fadd fzero)))) zero32
    ({ m := m, l := l, o := o, s := zero32, c := js.length }, sumNat (blocks.map Prod.snd))

/-- The scores of a row over the visible slots of a page. -/
def rowScores (sh : Shape) (c : RowCtx) (first n : Nat) (row : Nat → TokRow) : List (Nat × Word32) :=
  (visibleSlots c.a first n (c.a.qPos + c.i)).map fun i => (i, score sh c (row i) (first + i))

/-! ### The skip test (R167) -/

/-- An upper bound on a row's scores over a page, rounded up at every step. -/
def skipScore (sh : Shape) (c : RowCtx) (kmin kmax : Nat → FVal) (js : List Nat) : FVal :=
  let term := fun (d : Nat) =>
    let q := c.q.dec d
    match q with
    | .nan => FVal.nan
    | _ => if q.isZero then fzero else if flt fzero q then fmul q (kmax d) else fmul q (kmin d)
  let sum := roundUp32 ((List.range sh.headDim).foldl (fun acc d => fadd acc (term d)) fzero)
  let scale := if c.a.scale != 0 then ofBf16 c.a.scale
    else of32 (if flt sum fzero then invSqrtDown sh.headDim else invSqrtUp sh.headDim)
  let u0 := roundUp32 (fmul scale sum)
  let u1 := if c.a.softcap = 0 then u0
    else
      let cap := ofBf16 c.a.softcap
      let q := fdiv u0 cap
      let up := match q with
        | .fin _ _ _ => roundUp32 (fadd q (fmul q.abs (.fin false 1 (-22))))
        | v => v
      let t := if up = .nan then up else of32 (tanhUp (to32 up))
      roundUp32 (fmul cap t)
  if c.a.bias = 1 then
    let slope := of32 (slopeOf c.payload c.biasAt c.head)
    let ds := js.map fun j => (c.a.qPos + c.i - j) + (j - (c.a.qPos + c.i))
    let delta := if flt slope fzero then ds.foldl max 0 else (minBy id ds).getD 0
    roundUp32 (fadd u1 (fmul slope (.fin false delta 0)).neg)
  else u1

/-- The bound b = n × exp(u − m_ref), rounded up. -/
def skipMass (u : FVal) (mRef : Word32) (n : Nat) : FVal :=
  let d := roundUp32 (fadd u (of32 mRef).neg)
  let e := match d with
    | .nan => FVal.nan
    | .inf true => fzero
    | .inf false => .inf false
    | _ => of32 (expUp (to32 d))
  roundUp32 (fmul (.fin false n 0) e)

/-- Whether a row is skippable on a page with bound mass b (R167). -/
def skippable (a : AttnDesc) (u b : FVal) (r : SkimRow) : Bool :=
  let total := roundUp32 (fadd (of32 r.sAcc) b)
  (of32 r.mRef).isFinite && u != .nan && u != .inf false && b != .nan && b != .inf false
    && fle total (fmul (of32 r.lRef) (.fin false 1 (-(a.skim : Int))))

/-! ### Backward (R172, R173) -/

/-- A stored element as a BF16 operand: MX elements with their scale, INT8 elements as integers. -/
def bwdElem (f : Nat) (v : FVal) (scales : List Byte) (d : Nat) : FVal × Bool :=
  if f = 0x20 then (v, false) else viaBf16 (fmul v (scaleAt f scales d))

/-- One row's terms at one visible position: p, g for dK and g for dQ as BF16 operands, and how many saturated (R558). -/
structure BwdTerm where
  slot : Nat
  p : FVal
  gk : FVal
  gq : FVal
  sat : Nat
  deriving DecidableEq, Repr

/-- What a backward row brings besides RowCtx: dO as an operand, LSE and D. -/
structure BwdCtx where
  row : RowCtx
  dO : QRow
  lse : Word32
  d : Word32
  deriving DecidableEq, Repr

/-- A token slot's K and V as 16-bit operands, and how many elements saturated. -/
def bwdTok (sh : Shape) (t : TokRow) : TokRow × Nat :=
  let k := (List.range sh.headDim).map fun d => bwdElem sh.format (t.k.getD d fzero) t.ks d
  let v := (List.range sh.headDim).map fun d => bwdElem sh.format (t.v.getD d fzero) t.vs d
  ({ t with k := k.map Prod.fst, v := v.map Prod.fst }, (k.filter Prod.snd).length + (v.filter Prod.snd).length)

/-- The terms of R172 for one row and one position; `t` holds 16-bit operands. -/
def bwdTerm (sh : Shape) (c : BwdCtx) (t : TokRow) (i j : Nat) : BwdTerm :=
  let one : Nat → FVal := fun _ => .fin false 1 0
  let x0 := withTokenScale sh.format t.ks (dotBlocks c.row.q t.k one)
  let scale := scaleValue c.row.a sh.headDim
  let x := bits32 (fmul scale (of32 x0))
  let (capped, ct) := capScore c.row.a x
  let s := biasScore c.row.a c.row.payload c.row.biasAt c.row.head c.row.i j capped
  let p := exp32 (sub32 s c.lse)
  let dP := withTokenScale sh.format t.vs (dotBlocks c.dO t.v one)
  let dS := mul32 p (sub32 dP c.d)
  let g0 := bits32 (fmul (of32 dS) scale)
  let g := if c.row.a.softcap = 0 then g0 else mul32 g0 (sub32 0x3F800000#32 (mul32 ct ct))
  let pb := viaBf16 (of32 p)
  let gk := viaBf16 (of32 g)
  let gq := if sh.format = 0x20 then viaBf16 (of32 (withTokenScale sh.format t.ks g)) else (gk.1, false)
  { slot := i, p := pb.1, gk := gk.1, gq := gq.1, sat := b2n pb.2 + b2n gk.2 + b2n gq.2 }

/-- An FP32 accumulation of products in ascending order. -/
def accumulate (xs : List (FVal × FVal)) : Word32 :=
  xs.foldl (fun acc e => bits32 (fadd (of32 acc) (fmul e.1 e.2))) zero32

/-- One row's dQ over a page (R172). -/
def bwdQ (sh : Shape) (ts : List BwdTerm) (row : Nat → TokRow) : Partial :=
  { m := zero32, l := zero32, s := zero32, c := ts.length,
    o := (List.range sh.headDim).map fun d => accumulate (ts.map fun t => (t.gq, (row t.slot).k.getD d fzero)) }

/-- A visit's dK then dV over a page's slots (R172, R178): `rows` pairs each row's operands with its terms. -/
def bwdKV (sh : Shape) (rows : List (BwdCtx × List BwdTerm)) : List Word32 :=
  let part := fun (isV : Bool) => (List.range sh.p).flatMap fun i => (List.range sh.headDim).map fun d =>
    accumulate (rows.flatMap fun r => (r.2.filter fun t => t.slot == i).map fun t =>
      if isV then (t.p, r.1.dO.vals.getD d fzero) else (t.gk, r.1.row.q.vals.getD d fzero))
  part false ++ part true

end Sys2Proof.Machine
end

