-- ==== Sys2Proof/Machine/Plans.lean ====
section
/-!
DEFINITION. Machine/Plans.lean: the plan stage (R68, R137 to R141, R230): what an attention command plans at its turn, gradient
frames (R178 to R183), creating visits (R141, R165 to R169), holes and poison (R156, R157), result records (R99 to R103,
R160, R170) and the prefetch depth (R228, R229).
-/

namespace Sys2Proof.Machine

def Plan.shape (p : Plan) : Shape := ⟨p.format, p.headDim, p.p⟩
def Plan.attn (p : Plan) : AttnDesc := attnOf p.cmd.desc.body
def Plan.bwd (p : Plan) : Bool := isBwdBody p.cmd.desc.body

/-- The first position of a page. -/
def Plan.first (p : Plan) (k : Nat) : Nat := p.base + k * p.p

/-- Where the bias part begins in a command's payload (R95, R105). -/
def Plan.biasAt (p : Plan) : Nat :=
  let rows := attnRows p.attn
  match p.cmd.desc.body with
  | .attnBwd a dofmt _ => rows * (rowBytes a.qfmt p.headDim + rowBytes dofmt p.headDim + 8)
  | _ => rows * rowBytes p.attn.qfmt p.headDim

def groupOf (p : Plan) (i : Nat) : Group := p.groups.getD i { head := 0, tensor := 0, rows := 0 }

def modGroup (s : State) (k : CmdKey) (i : Nat) (f : Group → Group) : State :=
  modPlan s k fun p => { p with groups := p.groups.modify i f }

/-- The operands of row r of group gi (R95, R153). -/
def rowCtx (p : Plan) (gi r : Nat) : RowCtx :=
  let a := p.attn
  { a := a, payload := p.cmd.payload, biasAt := p.biasAt, i := rowTok a r, head := gi * a.group + rowMember a r,
    q := queryOperand p.shape a.qfmt (payloadRow a.qfmt p.headDim p.cmd.payload 0 (cmdRow a gi r)) }

/-! ### Pins (R68) -/

/-- The pin of a page; `tokens` none means that the frame has been IN_FLUX since. -/
def pinFor (p : Plan) (t k : Nat) : Option Pin := p.pins.find? fun i => i.tensor == t && i.page == k

/-- One use of a pinned page ends; with its last the frame is unpinned. -/
def pinDone (s : State) (key : CmdKey) (t k : Nat) : State :=
  match (planFor s key).bind fun p => pinFor p t k with
  | none => s
  | some i =>
    let same := fun (x : Pin) => x.tensor == t && x.page == k
    if i.visits ≤ 1 then unpin (modPlan s key fun p => { p with pins := p.pins.filter fun x => !same x }) i.lpn
    else
      let dec := fun (x : Pin) => if same x then { x with visits := x.visits - 1 } else x
      modPlan s key fun p => { p with pins := p.pins.map dec }

/-- Releases every pin of a plan on a tensor. -/
def unpinTensor (s : State) (key : CmdKey) (t : Nat) : State :=
  match planFor s key with
  | none => s
  | some p =>
    let mine := p.pins.filter fun x => x.tensor == t
    foldState (fun s i => unpin s i.lpn) (modPlan s key fun p => { p with pins := p.pins.filter fun x => x.tensor != t }) mine

/-! ### Holes and poison (R102, R156, R157) -/

/-- Adds a hole to a sorted list; holes of one REASON that adjoin become one entry. -/
def addHole (h : Hole) : List Hole → List Hole
  | [] => [h]
  | x :: rest =>
    if x.reason = h.reason ∧ x.start ≤ h.limit ∧ h.start ≤ x.limit then
      addHole { reason := h.reason, start := min x.start h.start, limit := max x.limit h.limit } rest
    else if h.limit ≤ x.start then h :: x :: rest
    else x :: addHole h rest

/-- The hole that a page of a command leaves (R157). -/
def pageHole (p : Plan) (k : Nat) (reason : Status) : Hole :=
  { reason := reason, start := max p.attn.kvStart (p.first k), limit := min p.attn.kvEnd (p.first k + p.p) }

/-- A visit no longer waits for its quadrant's chains: the timers of R174 and R176 start. -/
def chainTimers (s : State) (quad : Nat) (bwd : Bool) : State :=
  let q := serveQuad s quad
  if !(waitingTiles s q bwd).isEmpty then s
  else if bwd then modQuad s q fun x => { x with bwdIdle := some (now s) }
  else modQuad s q fun x => { x with returned := x.returned.map fun r => (r.1, now s) }

/-- Drops visits: their items leave the channels, their decodes deliver to nobody. -/
def dropVisits (s : State) (which : Visit → Bool) : State :=
  let gone := (s.exec.visits.filter which).map fun v => (v, isBwdVisit s v)
  let ids := gone.map fun e => e.1.id
  let s1 := foldState (fun s i => dropItem s (.visit i)) s ids
  let free := fun (j : CodecJob) => if j.visit.any ids.contains then { j with visit := none } else j
  let s2 := { s1 with
    exec := { s1.exec with visits := s1.exec.visits.filter fun v => !ids.contains v.id }
    mem := { s1.mem with codec := s1.mem.codec.map free } }
  foldState (fun s e => if e.1.path == .tile || e.1.path == .fallback then chainTimers s e.1.quad e.2 else s) s2 gone

/-- The gradient frames of a page take nothing from a command any more (R185): its window sums and the contributions that
wait. -/
def dropGradients (s : State) (p : Plan) (t : Nat) (page : Option Nat) : State :=
  let mine := fun (k : Nat) => page.all (· == k)
  let frames := (s.mem.grads.filter fun g => g.seq == p.seq && g.tensor == t && mine g.page).flatMap fun g => g.frames
  let out := s.exec.contribs.filter fun c => c.key == p.key && frames.contains c.lpn
  let s1 := foldState (fun s (c : Contribution) => dropItem s (.add c.id)) s out
  { s1 with exec := { s1.exec with
    windows := s1.exec.windows.filter fun w => !(w.key == p.key && w.tensor == t && mine w.page)
    contribs := s1.exec.contribs.filter fun c => !(out.any fun d => d.id == c.id) } }

/-- A page of a group becomes a hole (R156, R157): its positions leave every row of the head, whatever block folded them
before; its other visits end, and the command unpins it. -/
def makeHole (s : State) (p : Plan) (gi k : Nat) (reason : Status) : State :=
  let t := (groupOf p gi).tensor
  let s1 := dropVisits (dropGradients s p t (some k)) fun v => v.key == p.key && v.group == gi && v.page == k
  let without := fun (ps : List (Nat × List Partial)) => ps.filter fun e => e.1 != k
  let s2 := modGroup s1 p.key gi fun g =>
    { g with holes := addHole (pageHole p k reason) g.holes
             todo := g.todo.filter fun e => e.2 != k
             seed := g.seed.filter (· != k)
             home := (g.home.map fun a => { a with parts := without a.parts }).filter fun a => !a.parts.isEmpty
             tile := g.tile.map fun e => (e.1, without e.2) }
  let same := fun (x : Pin) => x.tensor == t && x.page == k
  match pinFor p t k with
  | some i => unpin (modPlan s2 p.key fun p => { p with pins := p.pins.filter fun x => !same x }) i.lpn
  | none => s2

/-- A page of a group ends as poisoned (R156): a hole, or the whole head; its gradient frames receive no contribution
(R185). -/
def settlePoison (s : State) (key : CmdKey) (gi k : Nat) : State :=
  match planFor s key with
  | none => s
  | some p =>
    let t := (groupOf p gi).tensor
    if p.cmd.desc.allowPartial then makeHole s p gi k .poison
    else
      let s2 := dropVisits (dropGradients s p t none) fun v => v.key == key && v.group == gi
      let s3 := modGroup s2 key gi fun g => { g with poisoned := true, holes := [], todo := [], seed := [], home := [], tile := [] }
      unpinTensor s3 key t

/-! ### Planning a command (R68, R137, R169, R181) -/

/-- Content slots of a page below END (R66). -/
def contentSlots (x : Seq) (t k : Nat) : Nat := min x.p ((tensorOf x t).endPos - (x.tokenBase + k * x.p))

/-- Whether a row group is a Skim row group (R98, R166). -/
def skimGroup (a : AttnDesc) (bwd noskim : Bool) (rows : Nat) : Bool :=
  !bwd && decide (rows ≤ 64) && a.skim != 0 && a.bias != 2 && !noskim

/-- The pages of a tensor that hold a position visible to the group (R137), in ascending order. -/
def visiblePages (s : State) (x : Seq) (a : AttnDesc) (t : Nat) : List (Nat × PageHandle) :=
  (pagesOf s x t).filter fun e => blockSees a (x.tokenBase + e.1 * x.p) (contentSlots x t e.1) 0 (a.qtok * a.group)

/-- The visits of a group in the order of R141: windows of eight row blocks, then pages, then blocks. -/
def visitOrder (x : Seq) (a : AttnDesc) (t : Nat) (pages : List Nat) : List (Nat × Nat) :=
  let rows := a.qtok * a.group
  let nb := ceilDiv rows 64
  (List.range (ceilDiv nb 8)).flatMap fun w => pages.flatMap fun k =>
    ((rangeFrom (8 * w) (min nb (8 * w + 8))).filter fun b =>
      blockSees a (x.tokenBase + k * x.p) (contentSlots x t k) (64 * b) (min rows (64 * b + 64))).map fun b => (b, k)

/-- The seed pages of a Skim row group (R169). -/
def seedPages (s : State) (x : Seq) (a : AttnDesc) (t : Nat) (pages : List Nat) : List Nat :=
  let sink := fun (k : Nat) => (List.range a.qtok).any fun i =>
    (visibleSlots a (x.tokenBase + k * x.p) (contentSlots x t k) (a.qPos + i)).any fun o =>
      decide (x.tokenBase + k * x.p + o < a.sinks)
  let last := pages.drop (pages.length - pSkimSeed s)
  pages.filter fun k => sink k || last.contains k

/-- Plans one KV head (R137, R156, R169): its group and its pins. -/
def planHead (s : State) (x : Seq) (c : Command) (h : Nat) (t : Nat) : Group × List Pin :=
  let a := attnOf c.desc.body
  let rows := a.qtok * a.group
  let pages := visiblePages s x a t
  let poisoned := pages.filter fun e => (frameOf s e.2.lpn).poison
  let g0 : Group := { head := a.headFirst + h, tensor := t, rows := rows }
  if !poisoned.isEmpty && !c.desc.allowPartial then ({ g0 with poisoned := true }, [])
  else
    let good := pages.filter fun e => !(frameOf s e.2.lpn).poison
    let hole := fun (k : Nat) => ({ reason := .poison, start := max a.kvStart (x.tokenBase + k * x.p),
                                    limit := min a.kvEnd (x.tokenBase + k * x.p + x.p) } : Hole)
    let holes := poisoned.foldl (fun hs e => addHole (hole e.1) hs) []
    let skim := skimGroup a (isBwdBody c.desc.body) x.handle.noskim rows
    let order := visitOrder x a t (good.map Prod.fst)
    let seeds := if skim then seedPages s x a t (good.map Prod.fst) else []
    let row : SkimRow := { mRef := negInf32, lRef := zero32, sAcc := zero32, skipped := 0 }
    let g := { g0 with todo := order.filter (fun e => !seeds.contains e.2), seed := seeds, holes := holes,
                       skim := if skim then List.replicate rows row else [] }
    let pin := fun (e : Nat × PageHandle) =>
      let f := frameOf s e.2.lpn
      ({ tensor := t, page := e.1, lpn := e.2.lpn,
         tokens := if f.inFlux then none else some (min (sTokens s e.2.lpn) (contentSlots x t e.1)),
         visits := (order.filter fun o => o.2 == e.1).length } : Pin)
    (g, good.map pin)

/-! ### Gradient frames (R107, R178 to R183) -/

/-- Gradient frames per K/V page (R178). -/
def gradFrames (headDim p : Nat) : Nat :=
  let hd := if headDim = 96 then 128 else if headDim = 192 then 256 else headDim
  2 * p * hd * 4 / 16384

def gradEntry (s : State) (q : SeqId) (t k : Nat) : Option GradEntry :=
  s.mem.grads.find? fun g => g.seq == q && g.tensor == t && g.page == k

/-- The gradient summary of a sequence, an 8-byte word per local tensor in plain pseudo-channels, which its first gradient frame
brings (R179). Without room for it the frame counts as not free (log entry 95). -/
def gradSummary (q : SeqId) (s : State) : Option State :=
  match seqOf s q with
  | none => none
  | some x =>
    if x.gradBlock.isSome then some s
    else (allocBlocks s (ceilDiv (8 * tensorCount x) 2048)).map fun (b, s1) => modSeq s1 q fun y => { y with gradBlock := some b }

/-- Whether a tensor holds gradient pages. -/
def holdsGrads (s : State) (q : SeqId) (t : Nat) : Bool := s.mem.grads.any fun g => g.seq == q && g.tensor == t

/-- Allocates the gradient frames of one page (R178, R181, R183): zeroed, LIVE, REFCOUNT 1, with the K/V page's identity. -/
def gradAlloc (q : SeqId) (x : Seq) (step : Nat) (s : State) (e : Nat × Nat × Nat) : Option State :=
  let (t, k, lpn) := e
  let order := match placeOf s lpn with
    | some (st, pc) => besideOrder st pc
    | none => fullOrder (preferred q.sequence t k).1 (preferred q.sequence t k).2
  let one := fun (acc : Option (List Nat × State)) (_ : Nat) => acc.bind fun (ls, s) =>
    (newFrame s order .live 1).map fun (n, s1) =>
      let s2 := modFrame s1 n fun f => { f with grad := true }
      let head := sideHeader (imgLe s lpn sideBase 1) (imgLe s lpn (sideBase + 2) 2) (sP s lpn) (sP s lpn) (frameOf s2 n).gen 4
        (sFirstPos s lpn) (sSeq s lpn).num (sLayer s lpn) (sKvHead s lpn)
      (ls ++ [n], imgWrite (imgWrite s2 n sideBase head) n (sideBase + 8) (le 8 zeroCrc))
  ((List.range (gradFrames x.headDim x.p)).foldl one (some ([], s))).bind fun (ls, s1) =>
    if 4194304 ≤ s1.mem.grads.length then none
    else gradSummary q { s1 with mem := { s1.mem with
      grads := s1.mem.grads ++ [{ seq := q, tensor := t, page := k, step := step, frames := ls }] } }

/-- Allocates what a backward command lacks, all or none. -/
def gradAllocAll (q : SeqId) (x : Seq) (step : Nat) : List (Nat × Nat × Nat) → State → Option State
  | [], s => some s
  | e :: es, s => (gradAlloc q x step s e).bind (gradAllocAll q x step es)

/-! ### Result records (R99 to R103, R157, R160, R170) -/

/-- The identity of a command's fold: the empty partial, or a zero dQ. -/
def Plan.unitPartial (p : Plan) : Partial :=
  if p.bwd then { emptyPartial p.headDim with m := zero32 } else emptyPartial p.headDim

def Plan.join (p : Plan) : Partial → Partial → Partial := if p.bwd then sumPartial else foldPartial

/-- Folds a list of partials in its order; an empty list is the identity. -/
def joinAll (p : Plan) : List Partial → Partial
  | [] => p.unitPartial
  | x :: xs => xs.foldl p.join x

/-- Row i of a block in an arrival's parts: its visits' partials folded in order (R146). -/
def partsRow (p : Plan) (parts : List (Nat × List Partial)) (i : Nat) : Partial :=
  joinAll p (parts.map fun e => e.2.getD i p.unitPartial)

/-- The partial of row r in a quadrant's home chain: what arrived there for its block, folded in order of arrival (R149). -/
def homeRow (p : Plan) (g : Group) (quad r : Nat) : Partial :=
  joinAll p ((g.home.filter fun a => a.quad == quad && a.block == r / 64).map fun a => partsRow p a.parts (r % 64))

/-- The quadrants of a die whose home chains hold partials of a group. -/
def homeQuads (g : Group) (die : Nat) : List Nat := [2 * die, 2 * die + 1].filter fun q => g.home.any fun a => a.quad == q

/-- The partial of row r at the root chain (R26, R149, R170): the far die sends one partial across the bridge, which folds with
the home chains of the root die, and the Skim partial joins last. Quadrants fold in ascending order (log entry 24). -/
def rootPartial (p : Plan) (g : Group) (r : Nat) : Partial :=
  let far := homeQuads g (1 - p.die)
  let near := (homeQuads g p.die).map fun q => homeRow p g q r
  let folded := joinAll p (near ++ (if far.isEmpty then [] else [joinAll p (far.map fun q => homeRow p g q r)]))
  match g.skim[r]? with
  | none => folded
  | some k => p.join folded ⟨k.mRef, zero32, List.replicate p.headDim zero32, k.sAcc, k.skipped⟩

/-- The chain that the plan stage names in a quadrant, or in a neighbour that serves it: any in service (R149; a free value,
log entry 26). -/
def nameChain (s : State) (quad : Nat) : Nat × State :=
  let ks := fwdLive s (serveQuad s quad)
  let (n, s1) := draw s
  (ks.getD (n % max 1 ks.length) 0, s1)

/-- A group's home chain in a quadrant is named with the first partial that reaches it (R149). -/
def nameHome (s : State) (key : CmdKey) (gi quad : Nat) : State :=
  match planFor s key with
  | none => s
  | some p =>
    if (tabGet (groupOf p gi).chains quad).isSome then s
    else
      let (k, s1) := nameChain s quad
      modGroup s1 key gi fun g => { g with chains := tabSet g.chains quad k }

/-- The root chain of a group (R149): one of the home chains on the root die, or one that the plan stage names there. -/
def rootChain (s : State) (p : Plan) (g : Group) : (Nat × Nat) × State :=
  let (n, s1) := draw s
  match homeQuads g p.die with
  | [] =>
    let q := serveQuad s (2 * p.die + n % 2)
    let (k, s2) := nameChain s1 q
    ((q, k), s2)
  | qs => let q := qs.getD (n % qs.length) 0
          ((q, tabGetD g.chains q 0), s1)

/-- The folds of a group's final merges by quadrant (R148, R536): every partial but the first that reaches a stage. -/
def rootFolds (p : Plan) (g : Group) (root : Nat) : List (Nat × Nat) :=
  let far := homeQuads g (1 - p.die)
  let near := homeQuads g p.die
  let arrive := near.length + (if far.isEmpty then 0 else 1)
  [(root, g.rows * (arrive - 1 + (if g.skim.isEmpty then 0 else 1))), (far.headD 0, g.rows * (far.length - 1))]

/-- The results of a group's home chains fold at its root chain (R26, R149). -/
def foldRoot (s : State) (key : CmdKey) (gi : Nat) : State :=
  match planFor s key with
  | none => s
  | some p =>
    let g := groupOf p gi
    let (c, s1) := rootChain s p g
    let s2 := foldState (fun s e => if e.2 = 0 then s else modQuad s e.1 fun q => { q with folds := q.folds + e.2 }) s1
      (rootFolds p g c.1)
    modGroup s2 key gi fun g => { g with root := some c, final := some ((List.range g.rows).map (rootPartial p g)) }

/-- The bytes of O, and how many elements saturated. -/
def outBytes (bf16 : Bool) (o : List Word32) : List Byte × Nat :=
  if bf16 then
    let r := o.map fun w => toBf16 (of32 w)
    (r.flatMap fun x => le 2 x.1, (r.filter fun x => x.2).length)
  else (o.flatMap fun w => le 4 w.toNat, 0)

/-- The status of a head's records (R101, R156). -/
def groupStatus (g : Group) : Status := if g.poisoned then .poison else if g.holes.isEmpty then .ok else .partialDone

/-- The content of row r's record (R99 to R101, R230). EMPTY is the last case of R101 and is not set on a POISON record (log
entry 23). DESIGN CHOICE (log entry 102): a POISON record of ATTN_BWD has the M of R101, minus infinity, where R106 gives 0. -/
def recordOf (s : State) (p : Plan) (gi r : Nat) : Record × Partial :=
  let a := p.attn
  let g := groupOf p gi
  let v := if g.poisoned then emptyPartial p.headDim else (g.final.getD []).getD r p.unitPartial
  let skimmed := match g.skim[r]? with
    | none => false
    | some k => flt fzero (of32 k.sAcc)
  let flags := flag 0 (g.lateBlocks.contains (r / 64)) + flag 1 (skimmed && !g.poisoned) + flag 2 (v.c == 0 && !g.poisoned)
    + flag 3 p.replica
  ({ tag := a.tag, qtok := rowTok a r, qhead := g.head * a.group + rowMember a r, status := groupStatus g, flags := flags,
     node := nodeId s, epoch := epochOf s, m := v.m.toNat, l := v.l.toNat, bound := v.s.toNat, covered := v.c,
     start := a.kvStart, limit := a.kvEnd, layer := a.layer, ofmt := b2n a.outBf16,
     holes := if g.poisoned then 0 else g.holes.length, o := (outBytes a.outBf16 v.o).1 }, v)

/-- Whether a record is counted as non-finite (R154). -/
def nonFinitePartial (v : Partial) : Bool := nonFinite32 v.m || nonFinite32 v.l || v.o.any nonFinite32

/-- The records of a finished command in row order, its hole entries by KV head and START, and what the numerics counters
gain. -/
def planRecords (s : State) (p : Plan) : List (List Byte) × List (List Byte) × Nat × Nat :=
  let a := p.attn
  let rs := (List.range (attnRows a)).map fun r =>
    let i := r / (a.headCount * a.group)
    let h := r / a.group % a.headCount
    let rr := i * a.group + r % a.group
    let (rec, v) := recordOf s p h rr
    (if p.cmd.desc.v1 then recordBytesV1 rec (r % a.group) else recordBytes rec, nonFinitePartial v, (outBytes a.outBf16 v.o).2)
  let holes := p.groups.flatMap fun g => if g.poisoned then [] else g.holes.map (holeBytes g.head)
  (rs.map fun x => x.1, holes, (rs.filter fun x => x.2.1).length, sumNat (rs.map fun x => x.2.2))

/-- The prefetch depth after a layer command (R229). -/
def adjustDepth (s : State) (p : Plan) : State :=
  modSeq s p.seq fun x =>
    let up := p.groups.any fun g => g.waitedFull
    let depth := if up == x.wasted then x.depth else if up then min (pKMax s) (x.depth + 1) else max 1 (x.depth - 1)
    { x with depth := depth, wasted := false }

/-- Sends a command's records to its merger (R103, R301): the tenant association, or this node's own merge stage. -/
def sendRecords (s : State) (c : Command) (node tenant egress : Nat) (bytes : List Byte) : State :=
  if node = nodeId s then
    deliver s { src := .node node, tenant := tenant, keygen := ((tenantOf s tenant).keygen).getD 0, die := c.die, bytes := bytes }
  else sendMsg s { peer := .node node, tenant := tenant } .records egress none bytes

/-- Counts an ATTN_BWD for each KV head that it names, in the sequence's gradient summary (R107, R179, R184); a word of another
step has no gradient pages any more and starts again. -/
def countBwd (s : State) (p : Plan) (step : Nat) : State :=
  foldState (fun s g => modSeq s p.seq fun x =>
    if x.gradBlock.isNone then x
    else match tabGet x.gradSum g.tensor with
      | some (st, n) => if st = step then { x with gradSum := tabSet x.gradSum g.tensor (st, n + 1) }
        else if holdsGrads s p.seq g.tensor && !(s.mem.grads.any fun e => e.seq == p.seq && e.tensor == g.tensor && e.step == step)
        then x else { x with gradSum := tabSet x.gradSum g.tensor (step, 1) }
      | none => { x with gradSum := tabSet x.gradSum g.tensor (step, 1) }) s p.groups

/-- Whether every visit of a group has folded or is settled. -/
def groupDone (s : State) (key : CmdKey) (gi : Nat) (g : Group) : Bool :=
  g.seed.isEmpty && g.todo.isEmpty && g.tile.isEmpty && !(s.exec.visits.any fun v => v.key == key && v.group == gi)

/-- Whether a group is final (R160): R156 has settled it, or its rows have folded at the root chain. -/
def groupFinal (g : Group) : Bool := g.poisoned || g.final.isSome

/-- Whether every record of a command is final, and every contribution applied. -/
def planFinal (s : State) (p : Plan) : Bool :=
  p.groups.all groupFinal
    && !(s.exec.windows.any fun w => w.key == p.key) && !(s.exec.contribs.any fun c => c.key == p.key)

/-- A command's last record is final: it leaves the plan stage and completes (R103, R160, R184, R229). -/
def finishPlan (s : State) (p : Plan) : State :=
  let (recs, holes, nonfin, sat) := planRecords s p
  let st := worst (p.groups.map groupStatus)
  let s1 := { s with
    exec := { s.exec with plans := s.exec.plans.filter fun x => x.key != p.key,
                          planTurn := s.exec.planTurn.filter (· != p.key) }
    mem := { s.mem with numNonfin := s.mem.numNonfin + nonfin, numSat := s.mem.numSat + sat } }
  let s2 := adjustDepth (foldState (fun s i => unpin s i.lpn) s1 p.pins) p
  let s3 := match p.cmd.desc.body with
    | .attnBwd _ _ step => if st = .ok ∨ st = .partialDone then countBwd s2 p step else s2
    | _ => s2
  let a := p.attn
  let s3 := countRecords s3 p.die p.seq.tenant recs.length
  if a.viaMerge && !p.bwd then
    complete (sendRecords s3 p.cmd a.mergeNode p.cmd.desc.seq.tenant (cmdClass s3 p.cmd.desc) (recordsMsg recs holes)) p.cmd
      { status := st }
  else complete s3 p.cmd { status := st, records := recs, holes := holes }

/-- The groups of a command whose last visit has ended fold at their root chains. -/
def foldRoots (s : State) (key : CmdKey) : State :=
  match planFor s key with
  | none => s
  | some p => foldState (fun s gi =>
      if !groupFinal (groupOf p gi) && groupDone s key gi (groupOf p gi) then foldRoot s key gi else s) s
    (List.range p.groups.length)

/-- Folds what has ended, finishes a command whose records are all final, and lets a SKIM_REFRESH go on that waited for its
pins (R160, R164). -/
def planCheck (s : State) (key : CmdKey) : State :=
  let s1 := foldRoots s key
  match planFor s1 key with
  | none => s1
  | some p => refreshAll (if planFinal s1 p then finishPlan s1 p else s1)

/-! ### Folds of visits (R146, R148, R149, R165) -/

/-- The running maximum and sum that the home chains report for a row (R165). -/
def reportRow (p : Plan) (g : Group) (r : Nat) (k : SkimRow) : SkimRow :=
  let ps := [0, 1, 2, 3].map fun q => homeRow p g q r
  let m := (ps.map fun x => x.m).foldl max32 negInf32
  let l := ps.foldl (fun acc x => add32 acc (mul32 x.l (exp32 (sub32 x.m m)))) zero32
  let acc := if m = k.mRef then k.sAcc else mul32 k.sAcc (exp32 (sub32 k.mRef m))
  if m = negInf32 then k else { k with mRef := m, lRef := l, sAcc := acc }

/-- Partials of a block reach the home chain of a quadrant, or of the one that serves it, fold there and are reported to the
plan stage (R149, R165, R489). -/
def foldHome (s : State) (p : Plan) (gi quad block : Nat) (parts : List (Nat × List Partial)) : State :=
  let q := serveQuad s quad
  let s1 := nameHome s p.key gi q
  let upd := fun (g : Group) =>
    let g1 := { g with home := g.home ++ [(⟨q, block, parts⟩ : Arrival)] }
    { g1 with skim := (List.range g1.skim.length).map fun r =>
        reportRow p g1 r (g1.skim.getD r { mRef := negInf32, lRef := zero32, sAcc := zero32, skipped := 0 }) }
  modQuad (modGroup s1 p.key gi upd) q fun x => { x with folds := x.folds + (parts.headD (0, [])).2.length }

/-- A tile visit's contribution joins the row block's running values (R146). -/
def foldTile (s : State) (p : Plan) (gi quad block page : Nat) (ps : List Partial) : State :=
  modGroup s p.key gi fun g =>
    let k := 4 * block + quad
    { g with tile := tabSet g.tile k (tabGetD g.tile k [] ++ [(page, ps)]) }

/-- Whether a row block has a tile visit outstanding in a quadrant, or one still to be planned (R146). -/
def tileOpen (s : State) (key : CmdKey) (gi : Nat) (g : Group) (k : Nat) : Bool :=
  (s.exec.visits.any fun v => v.key == key && v.group == gi && v.block == k / 4 && (v.path == .stageWait || v.quad == k % 4))
    || (g.skim.isEmpty && g.todo.any fun e => e.1 == k / 4)

/-- Running values whose row block has completed in the quadrant become the quadrant's partial (R146). -/
def flushTiles (s : State) (key : CmdKey) (gi : Nat) : State :=
  match planFor s key with
  | none => s
  | some p =>
    let g := groupOf p gi
    foldState (fun s e =>
      if tileOpen s key gi g e.1 then s
      else
        let s1 := modGroup s key gi fun g => { g with tile := tabDel g.tile e.1 }
        if e.2.isEmpty then s1 else foldHome s1 p gi (e.1 % 4) (e.1 / 4) e.2) s g.tile

/-! ### Starting (R94, R104, R107) -/



/-- Installs a plan: its frames are pinned and their lines enter the translation cache (R67, R68). -/
def installPlan (s : State) (p : Plan) : State :=
  let s1 := foldState (fun s i =>
    xlatTouch (modFrame s i.lpn fun f => { f with pins := f.pins + 1 }) p.die p.seq i.tensor i.page) s p.pins
  let s2 := modLive s1 p.key fun l => { l with begun := true }
  planCheck { s2 with exec := { s2.exec with plans := s2.exec.plans ++ [p], planTurn := s2.exec.planTurn ++ [p.key] } } p.key

/-- The tensors of the heads that an attention command names. -/
def attnTensors (x : Seq) (a : AttnDesc) : List Nat :=
  (List.range a.headCount).map fun h => (tensorIdx x a.layer (a.headFirst + h)).getD 0

/-- Whether a tensor of a sequence holds gradient pages of another step (R107). -/
def otherStep (s : State) (q : SeqId) (ts : List Nat) (step : Nat) : Bool :=
  s.mem.grads.any fun g => g.seq == q && ts.contains g.tensor && g.step != step

/-- What an attention command meets of its sequence before BUSY_RETRY and NOPAGE, in the order of R11 (R66, R94, R107). -/
def attnRefusal (s : State) (c : Command) (x : Seq) : Option Reply :=
  let a := attnOf c.desc.body
  match notLocalOwner s x c.desc.seq.id a.headFirst a.headCount a.kvStart a.kvEnd with
  | some o => some { status := .notOwner, owner := o }
  | none => unfit (!fitsSeq x c || (match c.desc.body with
      | .attnBwd _ _ step => otherStep s c.desc.seq.id (attnTensors x a) step
      | _ => false))

/-- The plan of an attention command (R68, R137). -/
def attnPlan (s : State) (c : Command) (x : Seq) : Plan :=
  let a := attnOf c.desc.body
  let ts := attnTensors x a
  let parts := (List.range a.headCount).map fun h => planHead s x c h (ts.getD h 0)
  { key := cmdKey c, cmd := c, die := c.die, epoch := epochOf s, seq := c.desc.seq.id,
    replica := (match roleOf s c.desc with
      | .replica _ => true
      | _ => false),
    groups := parts.map Prod.fst, pins := parts.flatMap Prod.snd, format := x.format, headDim := x.headDim, p := x.p,
    base := x.tokenBase }

/-- An attention command at its turn: refused before any effect, or planned (R11, R68, R106). -/
def attnStart (s : State) (c : Command) : State :=
  let q := c.desc.seq.id
  withActive s c q (attnRefusal s c) fun x =>
    let p := attnPlan s c x
    if p.pins.any fun i => decide (65535 ≤ (frameOf s i.lpn).pins) then complete s c { status := .busyRetry }
    else match c.desc.body with
      | .attnBwd _ _ step =>
        let need := (p.pins.filter fun i => (gradEntry s q i.tensor i.page).isNone).map fun i => (i.tensor, i.page, i.lpn)
        match gradAllocAll q x step need s with
        | none => complete s c { status := .noPage }
        | some s1 => installPlan s1 p
      | _ => installPlan s p

/-- ATTN_FWD at its turn (R93, R137). -/
def execAttnFwd (c : Command) (s : State) : Out :=
  .next <| whenReady s c fun _ =>
    match c.desc.body with
    | .attnFwd _ => if (planFor s (cmdKey c)).isSome then s else attnStart s c
    | _ => s

/-- ATTN_BWD at its turn (R104, R107, R172, R181). -/
def execAttnBwd (c : Command) (s : State) : Out :=
  .next <| whenReady s c fun _ =>
    match c.desc.body with
    | .attnBwd _ _ _ => if (planFor s (cmdKey c)).isSome then s else attnStart s c
    | _ => s

/-- The staging of the next k layers when an attention command is admitted (R228). -/
def prefetch (s : State) (c : Command) : State :=
  let q := c.desc.seq.id
  match seqOf s q with
  | none => s
  | some x =>
    if x.state != .active || x.layers = 0 then s
    else
      let a := attnOf c.desc.body
      let layer := fun (i : Nat) => if isBwdBody c.desc.body then (a.layer + x.layers * (i / x.layers + 1) - i) % x.layers
        else (a.layer + i) % x.layers
      foldState (fun s i =>
        let ts := (rangeFrom a.headFirst (a.headFirst + a.headCount)).filterMap fun h => tensorIdx x (layer i) h
        foldState (fun s e => requestAhead s e.2.2 .prefetch (some q) e.1 e.2.1 i) s (rangePages s x ts a.kvStart a.kvEnd))
        s (rangeFrom 1 (x.depth + 1))

/-! ### Creating visits (R138, R141, R165 to R169, R230, R235) -/

/-- Visits of a quadrant that have not completed; one that waits for a staging has no quadrant yet (R146). -/
def quadLoad (s : State) (q : Nat) : Nat := (s.exec.visits.filter fun v => v.quad == q && v.path != .stageWait).length

/-- Whether a resident page's visit may run on mash units (R138). -/
def mashAllowed (s : State) (p : Plan) (g : Group) (stack : Nat) : Bool :=
  !p.bwd && decide (g.rows ≤ 8) && decide (p.attn.bias ≤ 1) && decide (0 < (stackOf s stack).quota)

/-- Every 64th visit that a die's plan stage makes is sampled (R235). -/
def sampleVisit (s : State) (die lpn : Nat) : State :=
  if !samples s then s
  else
    let n := tabGetD s.exec.sampled die 0 + 1
    let s1 := { s with exec := { s.exec with sampled := tabSet s.exec.sampled die n } }
    if n % 64 = 0 then modFrame s1 lpn fun f => { f with sample := satAdd cap32 f.sample 1 } else s1

/-- A backward visit waits for a quadrant: its chains' idle time ends (R174). -/
def joinQuad (s : State) (p : Plan) (quad : Nat) : State :=
  if p.bwd then modQuad s (serveQuad s quad) fun x => { x with bwdIdle := none } else s

/-- Gives a visit of a resident page its path: it joins its channel's queue, or waits for a tile chain (R138). -/
def placeVisit (s : State) (p : Plan) (g : Group) (v : Visit) : State :=
  match placeOf s v.lpn with
  | none => s
  | some (st, pc) =>
    let s1 := modFrame s v.lpn fun f => { f with visited := true, lastVisit := now s }
    if mashAllowed s p g st then
      let s2 := modVisit s1 v.id fun v => { v with path := .mash, quad := quadOfStack st }
      modChan s2 (pcNum st pc) fun c => { c with queue := c.queue ++ [.visit v.id] }
    else joinQuad (modVisit s1 v.id fun v => { v with path := .tile, quad := quadOfStack st }) p (quadOfStack st)

/-- A visit takes the fallback (R146, R230): the quadrant with the fewest outstanding visits decodes the page. -/
def takeFallback (s : State) (v : Visit) : State :=
  let q := (minBy (quadLoad s) [0, 1, 2, 3]).getD 0
  let s1 := modVisit s v.id fun v => { v with path := .fallback, quad := q }
  let s2 := modGroup s1 v.key v.group fun g => { g with waitedFull := true }
  let die := ((planFor s v.key).map fun p => p.die).getD 0
  let s3 := { s2 with mem := { s2.mem with
    fallbacks := s2.mem.fallbacks + 1, fallDie := tabModD s2.mem.fallDie die 0 (· + 1) } }
  let s4 := match planFor s v.key with
    | some p => bump (joinQuad s3 p q) p.seq.tenant 3 1
    | none => s3
  (codecSubmit s4 false v.lpn q (some v.id) none).2

/-- A backward visit opens or joins the window sum of its page; the window's visits go to one chain, which a free value names
(R177; log entry 26). -/
def openWindow (s : State) (p : Plan) (g : Group) (block k : Nat) : State :=
  let w := block / 8
  if !p.bwd || s.exec.windows.any (fun x => x.key == p.key && x.tensor == g.tensor && x.page == k && x.window == w) then s
  else
    let left := 1 + (g.todo.filter fun e => e.2 == k && e.1 / 8 == w).length
    let (n, s1) := draw s
    { s1 with exec := { s1.exec with windows := s1.exec.windows ++
      [{ key := p.key, tensor := g.tensor, page := k, window := w, left := left,
         values := List.replicate (2 * p.p * p.headDim) zero32, pick := n }] } }

/-- Creates one visit (R137, R138, R230), or settles its page where the frame is poisoned by now (R156). -/
def makeVisit (s : State) (key : CmdKey) (gi block k : Nat) (seed : Bool) : State :=
  match planFor s key with
  | none => s
  | some p =>
    let g := groupOf p gi
    match pinFor p g.tensor k with
    | none => s
    | some pin =>
      let f := frameOf s pin.lpn
      if f.poison then flushTiles (settlePoison s key gi k) key gi
      else
        let id := s.exec.nextVisit
        let v : Visit := { id := id, key := key, group := gi, block := block, tensor := g.tensor, page := k, lpn := pin.lpn,
                           path := .stageWait, planned := now s, quad := 0, seed := seed }
        let s1 := openWindow { s with exec := { s.exec with visits := s.exec.visits ++ [v], nextVisit := id + 1 } } p g block k
        let s2 := sampleVisit s1 p.die pin.lpn
        if slotOf f != .none then placeVisit s2 p g v
        else if inStaging s pin.lpn then s2
        else takeFallback s2 v

/-- The skip test of one page for a Skim row group (R165, R167, R168): the rows' bounds, if every row is skippable. -/
def skipTest (s : State) (p : Plan) (gi : Nat) (g : Group) (pin : Pin) : Option (List (FVal × Nat)) :=
  let a := p.attn
  let f := frameOf s pin.lpn
  if slotOf f == .none || !sSkimOk s pin.lpn || !a.accepted then none
  else
    let n := pin.tokens.getD 0
    let rows := (List.range g.rows).map fun r =>
      let c := rowCtx p gi r
      let js := (visibleSlots a (p.first pin.page) n (a.qPos + c.i)).map (p.first pin.page + ·)
      let u := skipScore p.shape c (skimMin s pin.lpn) (skimMax s pin.lpn) js
      let row := g.skim.getD r { mRef := negInf32, lRef := zero32, sAcc := zero32, skipped := 0 }
      let b := skipMass u row.mRef js.length
      (skippable a u b row, b, js.length)
    if rows.all fun x => x.1 then some (rows.map fun x => x.2) else none

/-- A page is skipped (R168). -/
def skipPage (s : State) (p : Plan) (gi : Nat) (g : Group) (k : Nat) (bs : List (FVal × Nat)) : State :=
  let grow := fun (e : SkimRow × FVal × Nat) =>
    { e.1 with sAcc := to32 (roundUp32 (fadd (of32 e.1.sAcc) e.2.1)), skipped := e.1.skipped + e.2.2 }
  let s1 := modGroup s p.key gi fun x => { x with skim := (List.zip x.skim bs).map grow }
  pinDone (bump s1 p.seq.tenant 2 1) p.key g.tensor k

/-- The next step of a row group, if it has one now (R141, R168, R169). -/
def planGroup (s : State) (p : Plan) (gi : Nat) : Option State :=
  let g := groupOf p gi
  if g.poisoned then none
  else match g.seed, g.todo with
    | k :: rest, _ => some (makeVisit (modGroup s p.key gi fun g => { g with seed := rest }) p.key gi 0 k true)
    | [], [] => none
    | [], (b, k) :: rest =>
      let s1 := modGroup s p.key gi fun g => { g with todo := rest }
      if g.skim.isEmpty then some (makeVisit s1 p.key gi b k false)
      else if s.exec.visits.any fun v => v.key == p.key && v.group == gi && v.seed then none
      else match pinFor p g.tensor k with
        | none => some s1
        | some pin =>
          let f := frameOf s pin.lpn
          if f.poison then some (makeVisit s1 p.key gi b k false)
          else if f.inFlux then none
          else match skipTest s p gi g pin with
            | some bs => some (skipPage s1 p gi g k bs)
            | none => some (makeVisit s1 p.key gi b k false)

/-- The next step of a command: the first of its groups, in row order, that has one. -/
def planOne (s : State) (key : CmdKey) : Option State :=
  (planFor s key).bind fun p => (List.range p.groups.length).findSome? fun gi => planGroup s p gi

/-- Visits of a die's commands that have not completed. -/
def dieLoad (s : State) (die : Nat) : Nat :=
  (s.exec.visits.filter fun v => ((planFor s v.key).map fun p => p.die == die).getD false).length

/-- Up to `fuel` steps of one command while the die holds fewer than 65,536 visits (R141). -/
def planMany (die : Nat) (key : CmdKey) : Nat → State → State
  | 0, s => s
  | fuel + 1, s =>
    if 65536 ≤ dieLoad s die then s
    else match planOne s key with
      | none => s
      | some s1 => planMany die key fuel s1

/-- The turn of one command of a die (R141): at most 8,192 visits; the turn then passes on. A row group with nothing left to
visit may be final. -/
def planTurnOf (s : State) (die : Nat) : State :=
  match s.exec.planTurn.find? fun k => (planFor s k).any fun p => p.die == die && (planOne s k).isSome with
  | none => s
  | some k =>
    let s1 := planMany die k 8192 s
    planCheck { s1 with exec := { s1.exec with planTurn := s1.exec.planTurn.filter (· != k) ++ (if s1.exec.planTurn.contains k then [k] else []) } } k

end Sys2Proof.Machine
end

