-- ==== Sys2Proof/Machine/Visits.lean ====
section
/-!
DEFINITION. Machine/Visits.lean: how visits run and end (R137 to R149, R156, R230 to R232), on mash units, tile chains and
the fallback path; the fold into home chains and what Skim learns from it (R149, R165); gradient contributions (R172, R177,
R182, R207); GRAD_DRAIN (R109, R185).
-/

namespace Sys2Proof.Machine

/-! ### The end of a visit (R68, R146, R156) -/

/-- A visit ends: it leaves the plan stage and its page is unpinned with its last (R68); what waited for that goes on. -/
def visitEnd (s : State) (v : Visit) : State :=
  let bwd := isBwdVisit s v
  let s1 := pinDone { s with exec := { s.exec with visits := s.exec.visits.filter fun x => x.id != v.id } } v.key v.tensor v.page
  let s2 := if v.path == .tile || v.path == .fallback then chainTimers s1 v.quad bwd else s1
  planCheck (flushTiles s2 v.key v.group) v.key

/-- A visit meets a poisoned page: every visit of the page in its head ends with it (R156). -/
def visitPoison (s : State) (v : Visit) : State :=
  planCheck (flushTiles (settlePoison s v.key v.group v.page) v.key v.group) v.key

/-- The scored rows of a forward visit. -/
def visitRows (s : State) (p : Plan) (v : Visit) (part : List (Nat × Word32) → (Nat → TokRow) → Partial × Nat) :
    List (Partial × Nat) :=
  let g := groupOf p v.group
  let n := ((pinFor p v.tensor v.page).bind fun i => i.tokens).getD 0
  let toks := (List.range n).map fun i => tokRow s v.lpn p.shape i
  let row := fun (i : Nat) => toks.getD i { k := [], ks := [], v := [], vs := [] }
  (List.range (blockRows g v.block)).map fun r =>
    part (rowScores p.shape (rowCtx p v.group (64 * v.block + r)) (p.first v.page) n row) row

def addSat (s : State) (n : Nat) : State := { s with mem := { s.mem with numSat := s.mem.numSat + n } }

/-! ### Mash visits (R142, R189) -/

/-- MASH_VISIT: the visit that its channel runs now completes; its words are checked, its partials fold in the home chain of
its quadrant. A failed unit discards it and it runs again (R156). -/
def execMashVisit (visit : Nat) (errs : List WordErr) (s : State) : Out :=
  .next <| whileRunning s fun _ =>
    match (visitOf s visit).bind fun v => (planFor s v.key).map fun p => (v, p) with
    | none => s
    | some (v, p) => match placeOf s v.lpn with
      | none => s
      | some (st, pc) =>
        let n := pcNum st pc
        if v.path != .mash || !runsNow s n (.visit visit) || (frameOf s v.lpn).inFlux || frameWaits s v.lpn then s
        -- a word error or an injection ends the visit of its page; a failed unit has it run again
        else match (if s.fault.inj.unit / 32 = n then fireInj s 6 s.fault.inj.unit else none) with
          | some (_, s1) => unitFails s1 st pc (s.fault.inj.unit % 32) false true true
          | none =>
            let (bad, s1) := checkWords s 2 v.lpn errs
            let s2 := popBurst s1 n
            if bad || (frameOf s2 v.lpn).poison then visitPoison s2 v
            else
              let rs := visitRows s2 p v (mashPartial p.shape)
              let s3 := modQuad (addSat s2 (sumNat (rs.map Prod.snd))) (quadOfStack st) fun q => { q with mashVis := q.mashVis + 1 }
              let s4 := bump (modStack s3 st fun k => { k with visits := k.visits + 1 }) p.seq.tenant 1 1
              visitEnd (foldHome s4 p v.group (quadOfStack st) v.block [(v.page, rs.map Prod.fst)]) v

/-- MASH_WAIT_EXPIRY (R139, R213): a mash visit that no burst has taken runs as a tile visit. -/
def execMashWaitExpiry (visit : Nat) (s : State) : Out :=
  .next <| whileRunning s fun _ =>
    match visitOf s visit with
    | none => s
    | some v =>
      if v.path == .mash && !v.inBurst && pMashWait s != 0 && elapsed s v.planned (pMashWait s) then
        modVisit (dropItem s (.visit visit)) visit fun v => { v with path := .tile }
      -- MASH_WAIT 0 disables the rerouting
      else s

/-! ### Backward visits (R172, R177) -/

/-- The operands of a backward row. -/
def bwdCtx (p : Plan) (gi r : Nat) : BwdCtx :=
  let a := p.attn
  let c := rowCtx p gi r
  let rows := attnRows a
  let q := rows * rowBytes a.qfmt p.headDim
  let n := cmdRow a gi r
  match p.cmd.desc.body with
  | .attnBwd _ dofmt _ =>
    let d := q + rows * rowBytes dofmt p.headDim
    { row := { c with q := { vals := payloadRow a.qfmt p.headDim p.cmd.payload 0 n, scales := List.replicate (p.headDim / 32) 0 } },
      dO := { vals := payloadRow dofmt p.headDim p.cmd.payload q n, scales := List.replicate (p.headDim / 32) 0 },
      lse := BitVec.ofNat 32 (fieldLe p.cmd.payload (d + 4 * n) 4),
      d := BitVec.ofNat 32 (fieldLe p.cmd.payload (d + 4 * rows + 4 * n) 4) }
  | _ => { row := c, dO := c.q, lse := zero32, d := zero32 }

/-- A contribution for each gradient frame of a page (R177, R178). -/
def contribute (s : State) (p : Plan) (w : WindowSum) : State :=
  match gradEntry s p.seq w.tensor w.page with
  | none => s
  | some e =>
    foldState (fun s i =>
      let lpn := e.frames.getD i 0
      let id := s.exec.nextVisit
      let c : Contribution := { id := id, key := p.key, lpn := lpn, values := (w.values.drop (4096 * i)).take 4096 }
      let s1 := { s with exec := { s.exec with contribs := s.exec.contribs ++ [c], nextVisit := id + 1 } }
      match placeOf s1 lpn with
      | some (st, pc) => modChan s1 (pcNum st pc) fun c => { c with queue := c.queue ++ [.add id] }
      | none => s1) s (List.range e.frames.length)

/-- Adds a visit's dK and dV to its window; the window's last visit sends the contribution (R177). -/
def addWindow (s : State) (p : Plan) (v : Visit) (vals : List Word32) : State :=
  let mine := fun (w : WindowSum) => w.key == p.key && w.tensor == v.tensor && w.page == v.page && w.window == v.block / 8
  match s.exec.windows.find? mine with
  | none => s
  | some w =>
    let w1 := { w with left := w.left - 1, values := List.zipWith add32 w.values vals }
    let rest := s.exec.windows.filter fun x => !mine x
    if w.left ≤ 1 then contribute { s with exec := { s.exec with windows := rest } } p w1
    else { s with exec := { s.exec with windows := rest ++ [w1] } }

/-- A backward visit's arithmetic: dQ folds in the running values, dK and dV in the window (R172, R174). -/
def bwdVisit (s : State) (p : Plan) (v : Visit) : State :=
  let g := groupOf p v.group
  let sh := p.shape
  let n := ((pinFor p v.tensor v.page).bind fun i => i.tokens).getD 0
  let toks := (List.range n).map fun i => bwdTok sh (tokRow s v.lpn sh i)
  let row := fun (i : Nat) => (toks.getD i ({ k := [], ks := [], v := [], vs := [] }, 0)).1
  let rows := (List.range (blockRows g v.block)).map fun r =>
    let c := bwdCtx p v.group (64 * v.block + r)
    let js := visibleSlots p.attn (p.first v.page) n (p.attn.qPos + c.row.i)
    (c, js.map fun i => bwdTerm sh c (row i) i (p.first v.page + i))
  let s1 := addSat s (sumNat (toks.map Prod.snd) + sumNat (rows.flatMap fun e => e.2.map fun t => t.sat))
  addWindow (foldTile s1 p v.group v.quad v.block v.page (rows.map fun e => bwdQ sh e.2 row)) p v (bwdKV sh rows)

/-! ### Tile visits (R144 to R146) -/

/-- What picks the chain of a visit: its number, or for a backward visit the free value of its page's window (R177). -/
def chainPick (s : State) (v : Visit) : Nat :=
  match s.exec.windows.find? fun w => w.key == v.key && w.tensor == v.tensor && w.page == v.page && w.window == v.block / 8 with
  | some w => w.pick
  | none => v.id

/-- The tiles of the chain that serves a visit: of the quadrant's chains in service, the one that a number picks. -/
def chainTiles (s : State) (q : Nat) (bwd : Bool) (id : Nat) : Option (List Nat) :=
  if bwd then
    let ks := (quadOf s q).bwd
    if ks.isEmpty then none else some (bwdTiles q (ks.getD (id % ks.length) 0))
  else
    let ks := fwdFree s q
    if ks.isEmpty then none else some (fwdTiles q (ks.getD (id % ks.length) 0))

/-- A visit passes through its chain's tiles (R536, R538). -/
def countTiles (s : State) (q : Nat) (ts : List Nat) : State :=
  foldState (fun s t => modTile s t fun x => { x with visits := x.visits + 1 })
    (modQuad s q fun x => { x with tileVis := x.tileVis + 1 }) ts

/-- The arithmetic of a visit on a tile chain. -/
def tileWork (s : State) (p : Plan) (v : Visit) : State :=
  if p.bwd then bwdVisit s p v
  else
    let rs := visitRows s p v (tilePartial p.shape (pPvPrec s))
    foldTile (addSat s (sumNat (rs.map Prod.snd))) p v.group v.quad v.block v.page (rs.map Prod.fst)

/-- An armed injection on the tiles of a chain fires at their next check (R491). -/
def tileInjection (s : State) (ts : List Nat) : Option State :=
  if ts.contains s.fault.inj.unit then (fireInj s 5 s.fault.inj.unit).map Prod.snd else none

/-- TILE_VISIT (R146, R194, R203): a tile chain completes a visit, whose page the fetch stage reads in memory mode. A failed
tile discards it and it runs again (R156). -/
def execTileVisit (visit : Nat) (errs : List WordErr) (s : State) : Out :=
  .next <| whileRunning s fun _ =>
    match (visitOf s visit).bind fun v => (planFor s v.key).map fun p => (v, p) with
    | none => s
    | some (v, p) =>
      let q := serveQuad s v.quad
      match chainTiles s q p.bwd (chainPick s v) with
      | none => s
      | some ts =>
        if v.path != .tile || (frameOf s v.lpn).inFlux then s
        else whenMemory s [homeOf s v.lpn] (.visit visit) 576 fun _ => match tileInjection s ts with
          | some s1 => tileFails s1 s.fault.inj.unit (s.fault.inj.unit % 16) true true
          | none =>
            let (bad, s1) := checkWords s 1 v.lpn errs
            if bad || (frameOf s1 v.lpn).poison then visitPoison s1 v
            else visitEnd (tileWork (bump (countTiles s1 q ts) p.seq.tenant 1 1) p v) v

/-! ### Staging waits and the fallback (R224, R230 to R232) -/

/-- A visit whose staging has ended goes on (R230). -/
def resumeVisit (s : State) (v : Visit) : State :=
  match planFor s v.key with
  | none => s
  | some p =>
    if (frameOf s v.lpn).poison then visitPoison s v else placeVisit s p (groupOf p v.group) v

/-- STAGING_COMPLETE (R224, R206): the decoded image is written and its CRC checked; the entry write makes the copy STAGED,
and the visits that waited for it go on. A promotion's copy is staged the same way (R227). `bad` marks a check that fails
though the image that the decoder delivered passes it. -/
def execStagingComplete (lpn : Nat) (bad : Bool) (s : State) : Out :=
  .next <| whileRunning s fun _ =>
    match s.mem.stages.find? fun j => j.lpn == lpn && j.decoded with
    | none => s
    | some j => whenMemory s [j.slot] (.frame lpn) 576 fun _ =>
      let n := match j.slot with
        | .hbm st pc _ => pcNum st pc
        | _ => 0
      let (fail, _, s0) := checkFails s 3 n (bad || j.decodeErr || imageWrong j.image)
      let done :=
        if fail then failStage s0 lpn j.slot
        else
          let s1 := slotFill s0 j.slot j.image
          let s2 := modFrame s1 lpn fun f =>
            { f with alt := j.slot, staged := true, dirty := false, visited := false, lastVisit := now s, stagedFor := j.seq,
                     promo := j.why == .promote }
          { s2 with mem := { s2.mem with stages := s2.mem.stages.filter fun x => x.lpn != lpn } }
      refreshAll (foldState resumeVisit done (done.exec.visits.filter fun v => v.lpn == lpn && v.path == .stageWait))

/-- STAGE_WAIT_EXPIRY (R230): a visit that has waited STAGE_WAIT ticks for its staging takes the fallback. -/
def execStageWaitExpiry (visit : Nat) (s : State) : Out :=
  .next <| whileRunning s fun _ =>
    match visitOf s visit with
    | none => s
    | some v => if v.path == .stageWait && elapsed s v.planned (pStageWait s) then takeFallback s v else s

/-- The records of a row block carry TIER_LATE (R230, R231). -/
def markLate (block : Nat) (g : Group) : Group := { g with lateBlocks := block :: g.lateBlocks.filter (· != block) }

/-- FALLBACK_VISIT (R232): the decoded page has passed its CRC check and the held partial is released, or the check fails and
the frame is poisoned. Its records carry TIER_LATE. -/
def execFallbackVisit (visit : Nat) (bad : Bool) (s : State) : Out :=
  .next <| whileRunning s fun _ =>
    match (visitOf s visit).bind fun v => (planFor s v.key).map fun p => (v, p) with
    | none => s
    | some (v, p) =>
      if v.path != .fallback || !v.decoded || (frameOf s v.lpn).inFlux then s
      else if bad || (frameOf s v.lpn).poison then visitPoison (modFrame s v.lpn fun f => { f with poison := true }) v
      else
        let q := serveQuad s v.quad
        match chainTiles s q p.bwd (chainPick s v) with
        | none => s
        | some ts =>
          let s1 := modGroup (bump (countTiles s q ts) p.seq.tenant 1 1) v.key v.group (markLate v.block)
          visitEnd (tileWork s1 p v) v

/-- FALLBACK_DEADLINE (R231): a late visit leaves a TIER_LATE hole, or waits on with the flag set. -/
def execFallbackDeadline (visit : Nat) (s : State) : Out :=
  .next <| whileRunning s fun _ =>
    match (visitOf s visit).bind fun v => (planFor s v.key).map fun p => (v, p) with
    | none => s
    | some (v, p) =>
      if v.path != .fallback || v.late || !elapsed s v.planned (pFallback s) then s
      else
        let s1 := modVisit s visit fun v => { v with late := true }
        if p.cmd.desc.allowPartial then
          let s2 := makeHole s1 p v.group v.page .tierLate
          let s3 := { s2 with mem := { s2.mem with lateHoles := s2.mem.lateHoles + 1 } }
          planCheck (flushTiles s3 v.key v.group) v.key
        else modGroup s1 v.key v.group (markLate v.block)

/-! ### Gradient adds (R182, R207) -/

/-- GRADIENT_ADD: the add that its channel runs now reads and checks its words, is applied and its frame committed; an
uncorrectable word makes the commit poison the frame (R203, R205). A unit that fails during it poisons the frame, the add is
not applied again, and MASH_UNIT_FAIL carries what the steward does. -/
def execGradientAdd (contribution : Nat) (unitFailed : Bool) (s : State) (errs : List WordErr := []) : Out :=
  .next <| whileRunning s fun _ =>
    match s.exec.contribs.find? fun c => c.id == contribution with
    | none => s
    | some c => match placeOf s c.lpn with
      | none => planCheck (dropItem { s with exec := { s.exec with contribs := s.exec.contribs.filter fun x => x.id != c.id } } (.add c.id)) c.key
      | some (st, pc) =>
        let n := pcNum st pc
        if !runsNow s n (.add contribution) || (frameOf s c.lpn).inFlux || frameWaits s c.lpn then s
        else if unitFailed then planCheck (refill (failItem s n) n) c.key
        else
          let s1 := popBurst { s with exec := { s.exec with contribs := s.exec.contribs.filter fun x => x.id != c.id } } n
          let (bad, s2) := checkWords s1 2 c.lpn errs
          let old := imgBytes s2 c.lpn 0 16384
          let sum := (List.range 4096).flatMap fun i =>
            le 4 (add32 (BitVec.ofNat 32 (fieldLe old (4 * i) 4)) (c.values.getD i zero32)).toNat
          let ok := (frameOf s2 c.lpn).grad && !(frameOf s2 c.lpn).poison
          let s3 := modStack s2 st fun k => { k with adds := k.adds + 1 }
          planCheck (if ok then commitChecked (imgWrite (setFlux s3 c.lpn true) c.lpn 0 sum) c.lpn bad false else s2) c.key

/-! ### GRAD_DRAIN (R109, R185) -/

/-- The tensors of the local KV heads that a drain names, with their heads. -/
def drainTensors (x : Seq) (layer hf hc : Nat) : List Nat :=
  (rangeFrom hf (hf + hc)).filterMap fun h => tensorIdx x layer h

/-- The 32-byte drain header (R109). -/
def drainHeader (step layer hf hc : Nat) (bf16 : Bool) (contrib ks ke : Nat) : List Byte :=
  le 2 step ++ le 1 layer ++ le 1 hf ++ le 1 hc ++ le 1 (b2n bf16) ++ le 2 0 ++ le 4 contrib ++ le 4 ks ++ le 4 ke ++ le 12 0

/-- The contribution count summed over the named heads; 0 where none is held for the step. -/
def contribSum (x : Seq) (ts : List Nat) (step : Nat) : Nat :=
  sumNat (ts.map fun t => match tabGet x.gradSum t with
    | some (st, n) => if st = step then n else 0
    | none => 0)

/-- The value of dimension d of the dK or dV row of a position; 0 where no gradient is held. -/
def gradValue (s : State) (q : SeqId) (x : Seq) (t step pos : Nat) (isV : Bool) (d : Nat) : Word32 :=
  if pos < x.tokenBase then zero32
  else
    let o := pos - x.tokenBase
    match gradEntry s q t (o / x.p) with
    | none => zero32
    | some e =>
      if e.step ≠ step then zero32
      else
        let b := (((if isV then x.p else 0) + o % x.p) * x.headDim + d) * 4
        match e.frames[b / 16384]? with
        | none => zero32
        | some lpn => BitVec.ofNat 32 (imgLe s lpn (b % 16384) 4)

/-- The values of a drain's rows, in order. -/
def drainValues (s : State) (q : SeqId) (x : Seq) (ts : List (Option Nat)) (step ks ke : Nat) : List Word32 :=
  ts.flatMap fun t => [false, true].flatMap fun isV => (rangeFrom ks ke).flatMap fun pos => (List.range x.headDim).map fun d =>
    match t with
    | some t => gradValue s q x t step pos isV d
    | none => zero32

/-- The rows of a drain, and how many values saturated (R558). -/
def drainRows (s : State) (q : SeqId) (x : Seq) (ts : List (Option Nat)) (step ks ke : Nat) (bf16 : Bool) : List Byte × Nat :=
  outBytes bf16 (drainValues s q x ts step ks ke)

/-- What a GRAD_DRAIN meets of its sequence before BUSY_RETRY, in the order of R11 (R66, R109). -/
def drainRefusal (s : State) (c : Command) (x : Seq) : Option Reply :=
  match c.desc.body with
  | .gradDrain release bf16 _ hf hc _ ks ke =>
    match notLocalOwner s x c.desc.seq.id hf hc ks ke with
    | some o => some { status := .notOwner, owner := o }
    | none => unfit (!inShape x c.desc.body
        || (!release && decide (536870912 < hc * (ke - ks) * 2 * x.headDim * (if bf16 then 2 else 4))))
  | _ => none

/-- The gradient entries of tensors whose page meets a range. -/
def gradIn (s : State) (q : SeqId) (x : Seq) (ts : List Nat) (ks ke : Nat) : List GradEntry :=
  s.mem.grads.filter fun g =>
    g.seq == q && ts.contains g.tensor && meets (x.tokenBase + g.page * x.p) (x.tokenBase + (g.page + 1) * x.p) ks ke

/-- GRAD_DRAIN read (R109, R185): waits until no ATTN_BWD of the sequence is in progress. -/
def execGradDrainRead (c : Command) (s : State) : Out :=
  .next <| whenReady s c fun _ =>
    match c.desc.body with
    | .gradDrain false bf16 layer hf hc step ks ke => withActive s c c.desc.seq.id (drainRefusal s c) fun x =>
      let q := c.desc.seq.id
      let busy := s.exec.live.any fun l => isBwdBody l.cmd.desc.body && l.cmd.desc.seq.id == q && !l.executed
      let ts := drainTensors x layer hf hc
      let head := drainHeader step layer hf hc bf16 (contribSum x ts step) ks ke
      let es := gradIn s q x ts ks ke
      let frames := es.flatMap fun e => e.frames
      if busy || frames.any fun l => (frameOf s l).inFlux then s
      else if frames.any fun l => (frameOf s l).poison then complete s c { status := .poison, data := head }
      else whenMemory s (frames.map (homeOf s)) (.command (cmdKey c)) 512 fun _ =>
        let rows := drainRows s q x ((rangeFrom hf (hf + hc)).map fun h => tensorIdx x layer h) step ks ke bf16
        complete (addSat s rows.2) c { status := .ok, data := head ++ rows.1 }
    | _ => s

/-- GRAD_DRAIN release (R109, R185): the gradient frames of the named heads whose page meets the range are freed whole, also a
page that the range covers in part (DESIGN CHOICE, log entry 96), and the contribution counts of the heads that held such
pages reset. A head without one is left as it is. -/
def execGradDrainRelease (c : Command) (s : State) : Out :=
  .next <| whenReady s c fun _ =>
    match c.desc.body with
    | .gradDrain true _ layer hf hc step ks ke => withActive s c c.desc.seq.id (drainRefusal s c) fun x =>
      let q := c.desc.seq.id
      let ts := drainTensors x layer hf hc
      let es := (gradIn s q x ts ks ke).filter fun e => e.step == step
      let s1 := foldState decRef s (es.flatMap fun e => e.frames)
      let s2 := { s1 with mem := { s1.mem with grads := s1.mem.grads.filter fun g => !es.contains g } }
      let reset := fun (y : Seq) => es.foldl (fun y e => { y with gradSum := tabDel y.gradSum e.tensor }) y
      complete (modSeq s2 q reset) c
        { status := .ok, data := drainHeader step layer hf hc false (contribSum (reset x) ts step) ks ke }
    | _ => s

end Sys2Proof.Machine
end

