-- ==== Sys2Proof/Machine/Merging.lean ====
section
/-!
DEFINITION. Machine/Merging.lean: MERGE (R111 to R117): groups, inputs, replacement by epoch, closing, the early buffer and
the closed keys, each on the merge die of its key.
-/

namespace Sys2Proof.Machine

/-- The merge die of a key (R117): bit 0 of the CRC-32C of tenant and TAG. -/
def mergeDie (tenant tag : Nat) : Nat := (crc32c (le 2 tenant ++ le 4 tag)).toNat % 2

def mergeOf (s : State) (die : Nat) : MergeDie := if die = 0 then s.exec.mergeW else s.exec.mergeE

def modMerge (s : State) (die : Nat) (f : MergeDie → MergeDie) : State :=
  if die = 0 then { s with exec := { s.exec with mergeW := f s.exec.mergeW } }
  else { s with exec := { s.exec with mergeE := f s.exec.mergeE } }

def isKey (tenant tag : Nat) (g : MergeGroup) : Bool := g.tenant == tenant && g.desc.tag == tag

def mergeGroup (s : State) (die tenant tag : Nat) : Option MergeGroup := (mergeOf s die).groups.find? (isKey tenant tag)

def setMergeGroup (s : State) (die : Nat) (g : MergeGroup) : State :=
  let put := fun (x : MergeGroup) => if isKey g.tenant g.desc.tag x then g else x
  modMerge s die fun d => { d with groups := d.groups.map put }

/-- Counts discarded inputs (R113, R116). -/
def discardInputs (s : State) (die n : Nat) : State := modMerge s die fun d => { d with discards := d.discards + n }

/-- Bytes that a group reserves (R112). -/
def mergeBytes (m : MergeDesc) : Nat := m.maxInputs * m.qtok * m.group * m.headCount * (48 + 4 * m.headDim)

/-! ### Inputs (R113) -/

/-- Reads `n` records of a head dimension: the records and the bytes after them; none where the bytes end early. -/
def readRecords (headDim : Nat) : Nat → List Byte → Option (List Record × List Byte)
  | 0, bs => some ([], bs)
  | n + 1, bs =>
    let size := 48 + headDim * (if fieldLe bs 41 1 = 1 then 2 else 4)
    if bs.length < size then none
    else (readRecords headDim n (bs.drop size)).map fun (rs, rest) => (parseRecord bs (size - 48) :: rs, rest)

/-- A record's content as a partial. -/
def recordPartial (headDim : Nat) (r : Record) : Partial :=
  { m := BitVec.ofNat 32 r.m, l := BitVec.ofNat 32 r.l, s := BitVec.ofNat 32 r.bound, c := r.covered,
    o := (List.range headDim).map fun d =>
      if r.ofmt = 1 then to32 (ofBf16 (fieldLe r.o (2 * d) 2)) else BitVec.ofNat 32 (fieldLe r.o (4 * d) 4) }

/-- The inputs that a RECORDS message carries, one for each KV head; none where its length disagrees or its records carry
more than one TAG (R113, R301). -/
def readInputs (m : MergeDesc) (bytes : List Byte) : Option (List (Nat × List Record × List Hole)) :=
  let nr := fieldLe bytes 8 4
  let nh := fieldLe bytes 12 4
  if bytes.length < 48 * nr then none
  else (readRecords m.headDim nr (bytes.drop 16)).bind fun (rs, rest) =>
    if rest.length ≠ 16 * nh ∨ (rs.any fun r => r.tag != m.tag) = true then none
    else
      let hs := (List.range nh).map fun i => parseHole (slice rest (16 * i) 16)
      let heads := (rs.map fun r => r.qhead / m.group).eraseDups
      some (heads.map fun h => (h, rs.filter (fun r => r.qhead / m.group == h), (hs.filter fun e => e.1 == h).map Prod.snd))

/-- Whether a status is one that a record carries (R101, R115); INTERNAL and the reserved values, which are read as INTERNAL
(R8), are none. -/
def recordStatus (st : Status) : Bool := st == .ok || st == .partialDone || st == .poison || st == .busyRetry

/-- What the records of an input say of their range (R102, R115): a record with POISON counts as a hole over it with reason
POISON, one of a merger that closed without its inputs (BUSY_RETRY) as a hole with reason NO_STATE (log entry 97). -/
def inputHoles (rs : List Record) (start limit : Nat) (listed : List Hole) : List Hole :=
  if rs.any fun r => r.status == .poison then [{ reason := .poison, start := start, limit := limit }]
  else if rs.any fun r => r.status == .busyRetry then [{ reason := .noState, start := start, limit := limit }]
  else listed

/-- An input in the form in which a group holds it; none where rule 1 of R113 discards it. -/
def mergeInputOf (m : MergeDesc) (head : Nat) (rs : List Record) (holes : List Hole) : Option MergeIn :=
  match rs with
  | [] => none
  | r0 :: _ =>
    let same := rs.all fun r => r.node == r0.node && r.epoch == r0.epoch && r.start == r0.start && r.limit == r0.limit
      && r.layer == m.layer
    let inside := decide (m.headFirst ≤ head) && decide (head < m.headFirst + m.headCount)
    let rows := (List.range (m.qtok * m.group)).map fun i =>
      rs.filter fun r => r.qtok == i / m.group && r.qhead == head * m.group + i % m.group
    if !same || !inside || rs.length != m.qtok * m.group || rows.any fun l => l.length != 1 then none
    else
      let one := rows.map fun l => l.headD r0
      some { node := r0.node, epoch := r0.epoch, start := r0.start, limit := r0.limit, rows := one.map (recordPartial m.headDim),
             flags := one.map fun r => r.flags, poison := rs.any fun r => r.status == .poison,
             internal := rs.any fun r => !recordStatus r.status, holes := inputHoles rs r0.start r0.limit holes }

/-- Rules 2 to 5 of R113 for one input; none where it is discarded. -/
def holdInput (m : MergeDesc) (held : List MergeIn) (x : MergeIn) : Option (List MergeIn) :=
  let hit := held.filter fun y => meets x.start x.limit y.start y.limit
  if hit.any fun y => decide (x.epoch ≤ y.epoch) then none
  else
    let rest := held.filter fun y => !meets x.start x.limit y.start y.limit
    if m.maxInputs ≤ rest.length then none else some (rest ++ [x])

/-- One input reaches its group. -/
def addInput (die : Nat) (s : State) (g : MergeGroup) (e : Nat × List Record × List Hole) : MergeGroup × State :=
  match (mergeInputOf g.desc e.1 e.2.1 e.2.2).bind (holdInput g.desc (tabGetD g.inputs e.1 [])) with
  | none => (g, discardInputs s die 1)
  | some l => ({ g with inputs := tabSet g.inputs e.1 l }, s)

/-- A RECORDS message reaches its group. -/
def addReply (s : State) (die : Nat) (g : MergeGroup) (bytes : List Byte) : State :=
  match readInputs g.desc bytes with
  | none => discardInputs s die 1
  | some es =>
    let r := es.foldl (fun acc e => addInput die acc.2 acc.1 e) (g, s)
    setMergeGroup r.2 die r.1

/-! ### Closing (R114, R115) -/

/-- The parts of [lo, hi) that a list of ranges in ascending order leaves open. -/
def gaps (hi : Nat) : List (Nat × Nat) → Nat → List (Nat × Nat)
  | [], lo => if lo < hi then [(lo, hi)] else []
  | (a, b) :: t, lo => (if lo < min a hi then [(lo, min a hi)] else []) ++ gaps hi t (max lo b)

/-- Inserts a range in ascending order of its start. -/
def insertRange (r : Nat × Nat) : List (Nat × Nat) → List (Nat × Nat)
  | [] => [r]
  | x :: t => if r.1 ≤ x.1 then r :: x :: t else x :: insertRange r t

/-- What is unresolved of a KV head (R114). -/
def unresolved (g : MergeGroup) (head : Nat) : List (Nat × Nat) :=
  gaps g.desc.kvEnd (((tabGetD g.inputs head []).map fun x => (x.start, x.limit)).foldl (fun l r => insertRange r l) []) g.desc.kvStart

/-- The holes of a KV head at close. -/
def headHoles (g : MergeGroup) (head : Nat) : List Hole :=
  let listed := (tabGetD g.inputs head []).flatMap fun x => x.holes
  let open_ := (unresolved g head).map fun r => ({ reason := .noState, start := r.1, limit := r.2 } : Hole)
  (listed ++ open_).foldl (fun hs h => addHole h hs) []

/-- The status of a KV head's records (R115); an input that carries INTERNAL or a reserved value makes it INTERNAL (R8, R11;
log entry 97). -/
def headStatus (allowPartial internal : Bool) (hs : List Hole) : Status :=
  if internal then .internal
  else if hs.isEmpty then .ok else if allowPartial then .partialDone
  else if hs.any fun h => h.reason == .poison then .poison else .busyRetry

/-- The holes that a KV head's records count and list: those of a PARTIAL head (R101, R102). -/
def shownHoles (st : Status) (hs : List Hole) : List Hole := if st = .partialDone then hs else []

/-- The status of a KV head of a group at its close. -/
def closeStatus (g : MergeGroup) (head : Nat) : Status :=
  headStatus g.cmd.desc.allowPartial ((tabGetD g.inputs head []).any fun x => x.internal) (headHoles g head)

/-- The output record of row r of a KV head (R114, R115). -/
def mergeRecord (s : State) (g : MergeGroup) (head r : Nat) : Record × Partial :=
  let m := g.desc
  let held := tabGetD g.inputs head []
  let st := closeStatus g head
  let hs := shownHoles st (headHoles g head)
  let unit := if m.sum then { emptyPartial m.headDim with m := zero32 } else emptyPartial m.headDim
  let folded := held.foldl (fun acc x => (if m.sum then sumPartial else foldPartial) acc (x.rows.getD r unit)) unit
  let v := if st = .ok ∨ st = .partialDone then folded else emptyPartial m.headDim
  let epochs := held.map fun x => x.epoch
  let top := epochs.foldl max 0
  let mixed := epochs.any fun e => e != top
  let late := held.any fun x => bitOf 0 (x.flags.getD r 0)
  let empty := held.isEmpty || (v.c == 0 && (st == .ok || st == .partialDone))
  ({ tag := m.tag, qtok := r / m.group, qhead := head * m.group + r % m.group, status := st,
     flags := flag 0 late + flag 1 (flt fzero (of32 v.s)) + flag 2 empty + flag 4 true + flag 5 mixed, node := nodeId s,
     epoch := if held.isEmpty then epochOf s else top, m := v.m.toNat, l := v.l.toNat, bound := v.s.toNat, covered := v.c,
     start := m.kvStart, limit := m.kvEnd, layer := m.layer, ofmt := b2n m.outBf16, holes := hs.length,
     o := (outBytes m.outBf16 v.o).1 }, v)

/-- The output of a group: records in row order, holes, the numerics counts and the status. -/
def mergeOutput (s : State) (g : MergeGroup) : List (List Byte) × List (List Byte) × Nat × Nat × Status :=
  let m := g.desc
  let rs := (List.range (m.qtok * m.group * m.headCount)).map fun r =>
    let head := m.headFirst + r / m.group % m.headCount
    mergeRecord s g head (r / (m.headCount * m.group) * m.group + r % m.group)
  let holes := (rangeFrom m.headFirst (m.headFirst + m.headCount)).flatMap fun h =>
    (shownHoles (closeStatus g h) (headHoles g h)).map (holeBytes h)
  (rs.map fun x => recordBytes x.1, holes, (rs.filter fun x => nonFinitePartial x.2).length,
    sumNat (rs.map fun x => (outBytes m.outBf16 x.2.o).2), worst (rs.map fun x => x.1.status))

/-- A group closes (R114): its records leave from its merge die, and its key is remembered (R116). -/
def closeGroup (s : State) (die : Nat) (g : MergeGroup) : State :=
  let (recs, holes, nonfin, sat, st) := mergeOutput s g
  let s1 := modMerge s die fun d =>
    { d with groups := d.groups.filter fun x => !isKey g.tenant g.desc.tag x
             closed := ((g.tenant, g.desc.tag) :: d.closed.filter (· != (g.tenant, g.desc.tag))).take 4096 }
  let s2 := { s1 with mem := { s1.mem with numNonfin := s1.mem.numNonfin + nonfin, numSat := s1.mem.numSat + sat } }
  let s2 := countRecords s2 die g.tenant recs.length
  let c := { g.cmd with die := die }
  if g.desc.viaMerge then
    complete (sendRecords s2 c g.desc.mergeNode g.tenant (cmdClass s2 c.desc) (recordsMsg recs holes)) g.cmd { status := st }
  else complete s2 g.cmd { status := st, records := recs, holes := holes }

/-- Closes a group whose every KV head is resolved (R114). -/
def mergeCheck (s : State) (die tenant tag : Nat) : State :=
  match mergeGroup s die tenant tag with
  | none => s
  | some g =>
    let m := g.desc
    if (rangeFrom m.headFirst (m.headFirst + m.headCount)).all fun h => (unresolved g h).isEmpty then closeGroup s die g else s

/-! ### Rows -/

/-- MERGE (R111, R112, R116, R117): opens a group on its merge die and takes the early records of its key. -/
def execMerge (c : Command) (s : State) : Out :=
  .next <| whenReady s c fun _ =>
    match c.desc.body with
    | .merge m =>
      let tenant := c.desc.seq.tenant
      let die := mergeDie tenant m.tag
      let used := sumNat ((mergeOf s die).groups.map fun g => g.bytes)
      match mergeGroup s die tenant m.tag with
      | some g => if cmdKey g.cmd = cmdKey c then s else complete s c { status := .refusedFit }
      | none =>
        if 8388608 < mergeBytes m then complete s c { status := .refusedFit }
        else if 8388608 < used + mergeBytes m then complete s c { status := .busyRetry }
        else
          let since := ((liveOf s (cmdKey c)).map fun l => l.since).getD (now s)
          let g : MergeGroup := { cmd := c, desc := m, tenant := tenant, since := since, bytes := mergeBytes m }
          let mine := fun (e : EarlyRecords) => e.tenant == tenant && e.tag == m.tag
          let early := (mergeOf s die).early.filter fun e => mine e && !elapsed s e.since 20000
          let late := (mergeOf s die).early.filter fun e => mine e && elapsed s e.since 20000
          let s1 := modMerge s die fun d =>
            { d with groups := d.groups ++ [g], early := d.early.filter (fun e => !mine e), discards := d.discards + late.length,
                     closed := d.closed.filter (· != (tenant, m.tag)) }
          let add := fun (s : State) (e : EarlyRecords) => match mergeGroup s die tenant m.tag with
            | none => s
            | some g => addReply s die g e.body
          mergeCheck (foldState add (modLive s1 (cmdKey c) fun l => { l with begun := true }) early) die tenant m.tag
    | _ => s

/-- Takes a delivered message out of the inbox. -/
def takeInbox (s : State) (m : Inbound) : State :=
  match takeFirst (fun d => d.msg == m) s.net.inbox with
  | none => s
  | some (_, rest) => { s with net := { s.net with inbox := rest } }

/-- MERGE_INPUT (R113, R116, R117): a RECORDS message reaches the merge die of its key. -/
def execMergeInput (m : Inbound) (s : State) : Out :=
  .next <|
    if msgKind m.bytes ≠ 3 ∨ m.sys = true ∨ s.running = false then s
    else
      let s0 := takeInbox s m
      let tag := fieldLe m.bytes 16 4
      let n := fieldLe m.bytes 8 4
      let die := mergeDie m.tenant tag
      match mergeGroup s0 die m.tenant tag with
      | some g => mergeCheck (addReply s0 die g m.bytes) die m.tenant tag
      | none =>
        let d := mergeOf s0 die
        let held := sumNat (d.early.map fun e => e.count)
        if d.closed.contains (m.tenant, tag) || 4096 < held + n then discardInputs s0 die 1
        else modMerge s0 die fun d =>
          { d with early := d.early ++ [{ tenant := m.tenant, tag := tag, since := now s0, count := n, body := m.bytes }] }

/-- MERGE_TIMEOUT (R114): TIMEOUT ticks after the MERGE was admitted the group closes. -/
def execMergeTimeout (die : Fin 2) (tenant tag : Nat) (s : State) : Out :=
  .next <| whileRunning s fun _ =>
    match mergeGroup s die.val tenant tag with
    | none => s
    | some g => if elapsed s g.since g.desc.timeout then closeGroup s die.val g else s

/-- EARLY_BUFFER_EXPIRY (R116): records held 20,000 ticks for an unknown key are discarded and counted. -/
def execEarlyBufferExpiry (die : Fin 2) (s : State) : Out :=
  .next <| whileRunning s fun _ =>
    let late := fun (e : EarlyRecords) => elapsed s e.since 20000
    let n := ((mergeOf s die.val).early.filter late).length
    modMerge s die.val fun d => { d with early := d.early.filter (fun e => !late e), discards := d.discards + n }

end Sys2Proof.Machine
end

