-- ==== Sys2Proof/Machine/Prefix.lean ====
section
/-!
DEFINITION. Machine/Prefix.lean: the prefix index (chapter 14): searches, inserts, deletes, the sweep, the rate of a half
and the SZ-410 cascade.
-/

namespace Sys2Proof.Machine

/-- The first entry number of the half that a CHAIN belongs to (R373, R375). -/
def halfBase (chain : Nat) : Nat := if chain % 2 = 0 then 0 else 524288

/-- Entries of a half. -/
def halfUsed (p : PrefixSt) (half : Nat) : Nat :=
  (p.entries.filter fun e => decide (524288 * half ≤ e.1) && decide (e.1 < 524288 * (half + 1))).length

/-- The lowest number from `lo` below `hi` that a table does not list. -/
def lowestFree {β : Type} : Tab β → Nat → Nat → Option Nat
  | [], lo, hi => if lo < hi then some lo else none
  | (i, _) :: t, lo, hi =>
    if i < lo then lowestFree t lo hi
    else if i = lo then lowestFree t (lo + 1) hi
    else if lo < hi then some lo else none

/-- Raises the line of a half's steward: source 38. -/
def prefixFault (s : State) (half : Nat) (injected : Bool) : State :=
  raise s { source := 38, unit := { kind := 11, num := half }, injected := injected }

/-- Takes an entry and its record out (R375). -/
def prefixRemove (s : State) (n : Nat) : State :=
  match tabGet s.pfx.entries n with
  | none => s
  | some e =>
    { s with pfx := { s.pfx with entries := tabDel s.pfx.entries n, recs := tabDel s.pfx.recs e.record,
                                 stale := s.pfx.stale.filter (· != n) } }

/-- A parity failure (R385): the entry is invalidated, its record freed, the failure counted, the line raised. -/
def prefixParity (s : State) (n : Nat) (injected : Bool) : State :=
  let s1 := prefixRemove s n
  prefixFault { s1 with pfx := { s1.pfx with parity := s1.pfx.parity + 1 } } (n / 524288) injected

/-- Bits of `a` and `b` agree wherever `mask` is 1. -/
def maskedEq (mask a b : Nat) : Bool := Nat.land (Nat.xor a b) mask == 0

/-- The numbers of the valid entries that match a key under the masks (R374, R380), ascending. -/
def prefixMatches (p : PrefixSt) (tenant chain scope maskChain maskScope : Nat) : List Nat :=
  (p.entries.filter fun e => e.2.tenant == tenant && maskedEq maskChain e.2.chain chain
    && maskedEq maskScope e.2.scope scope).map Prod.fst

/-- The number of the entry with exactly this key. -/
def prefixExact (p : PrefixSt) (tenant chain scope : Nat) : Option Nat :=
  (p.entries.find? fun e => e.2.tenant == tenant && e.2.chain == chain && e.2.scope == scope).map Prod.fst

/-- A key block of a payload (R380): CHAIN and SCOPE. -/
def keyBlock (payload : List Byte) (off : Nat) : Nat × Nat := (fieldLe payload off 8, lowBits 20 (fieldLe payload (off + 8) 4))

/-- A search result (R381). -/
def searchResult (result : Nat) (multi suppressed : Bool) (pos seq : Nat) : List Byte :=
  le 1 result ++ le 1 (flag 0 multi + flag 1 suppressed) ++ le 2 0 ++ le 4 pos ++ le 8 seq

/-- Searches one key (R381): its result, whether it ends a STOP_AT_MISS command, and whether it is a HIT. -/
def searchKey (s : State) (tenant chain scope maskChain maskScope : Nat) (suppressed : Bool) (parityBad : List Nat) :
    State × List Byte × Bool × Bool :=
  let s0 := { s with pfx := { s.pfx with searches := s.pfx.searches + 1 } }
  let ms := prefixMatches s0.pfx tenant chain scope maskChain maskScope
  match ms with
  | [] => (s0, searchResult 0 false suppressed 0 0, true, false)
  | n :: more =>
    let multi := !more.isEmpty
    let (bad, inj, s1) := checkFails s0 11 (n / 524288) (parityBad.contains n)
    if bad then (prefixParity s1 n inj, searchResult 4 multi suppressed 0 0, true, false)
    else
      let e := tabGetD s1.pfx.entries n ⟨0, 0, 0, 0⟩
      let r := tabGetD s1.pfx.recs e.record ⟨⟨0, 0⟩, 0⟩
      match seqOf s1 r.seq with
      | some x =>
        if x.state == .evicting then
          ({ s1 with pfx := { s1.pfx with staleCount := s1.pfx.staleCount + 1, stale := s1.pfx.stale ++ [n] } },
            searchResult 2 multi suppressed 0 0, true, false)
        else
          ({ s1 with pfx := { s1.pfx with hits := s1.pfx.hits + 1 } },
            searchResult 1 multi suppressed r.pos x.handle.num, false, true)
      | none =>
        ({ s1 with pfx := { s1.pfx with staleCount := s1.pfx.staleCount + 1, stale := s1.pfx.stale ++ [n] } },
          searchResult 2 multi suppressed 0 0, true, false)

/-- Searches keys in order; under STOP_AT_MISS the keys after one that stops are SKIPPED (R381). -/
def searchKeys (tenant maskChain maskScope : Nat) (stopAtMiss : Bool) (parityBad : List Nat) :
    List (Nat × Nat) → State → Bool → State × List (List Byte)
  | [], s, _ => (s, [])
  | (chain, scope) :: ks, s, stopped =>
    if stopped then
      let (s1, rs) := searchKeys tenant maskChain maskScope stopAtMiss parityBad ks s true
      (s1, searchResult 3 false false 0 0 :: rs)
    else
      let (s1, r, stops, _) := searchKey s tenant chain scope maskChain maskScope false parityBad
      let (s2, rs) := searchKeys tenant maskChain maskScope stopAtMiss parityBad ks s1 (stops && stopAtMiss)
      (s2, r :: rs)

/-- Whether a body is a prefix command. -/
def isPrefix : Body → Bool
  | .prefixSearch _ _ _ _ _ _ => true
  | .prefixInsert _ => true
  | .prefixDelete _ _ => true
  | _ => false

/-- Slots go to keys in admission order (R378), so a prefix command runs once every earlier one has run. -/
def prefixTurn (s : State) (c : Command) : Bool :=
  isLive s c && (earlier s (cmdKey c)).all fun l => l.executed || !isPrefix l.cmd.desc.body

/-- The entries that a search found STALE are deleted in a later slot (R381): before the next prefix command runs. -/
def dropStale (s : State) : State :=
  foldState (fun s n => prefixRemove { s with pfx := { s.pfx with updates := s.pfx.updates + 1 } } n) s s.pfx.stale

/-- The keys of a payload of blocks of `width` bytes. -/
def keyBlocks (payload : List Byte) (width count : Nat) : List (Nat × Nat) :=
  (List.range count).map fun i => keyBlock payload (width * i)

/-! ### Cascade (R389 to R391) -/

/-- Cascade searches are refused from here on (R390): CASC_ERR, and the steward's line. -/
def cascadeFail (s : State) : State := prefixFault { s with pfx := { s.pfx with cascErr := true } } 0 false

/-- Sends one pulse (R389). -/
def matchPulse (s : State) (hit : Bool) : State := { s with pfx := { s.pfx with matchOut := s.pfx.matchOut ++ [hit] } }

/-- One key of a cascade search with the upstream pulse it has: its result and its own pulse. -/
def cascadeKey (s : State) (k : Cascade) (upstream : Bool) : State :=
  match k.left, k.cmd.desc.body with
  | (chain, scope) :: ks, .prefixSearch stopAtMiss _ _ mc ms _ =>
    if k.stopped then
      let k1 := { k with left := ks, results := k.results ++ [searchResult 3 false upstream 0 0], since := now s }
      matchPulse { s with pfx := { s.pfx with cascade := some k1 } } upstream
    else
      let (s1, r, stops, hit) := searchKey s k.cmd.tenant chain scope mc ms upstream k.parityBad
      let k1 := { k with left := ks, results := k.results ++ [r], stopped := stops && stopAtMiss, since := now s }
      matchPulse { s1 with pfx := { s1.pfx with cascade := some k1 } } (hit || upstream)
  | _, _ => s

/-- Runs the waiting cascade search as far as the pulses received allow; position 0 needs none (R389). -/
def cascadeRun : Nat → State → State
  | 0, s => s
  | n + 1, s =>
    match s.pfx.cascade with
    | none => s
    | some k =>
      if k.left.isEmpty then
        complete { s with pfx := { s.pfx with cascade := none } } k.cmd { status := .ok, data := k.results.flatten }
      else if fld s 0x50000 2 1 = 0 then cascadeRun n (cascadeKey s k false)
      else match s.pfx.matchIn with
        | [] => s
        | p :: ps => cascadeRun n (cascadeKey { s with pfx := { s.pfx with matchIn := ps } } k p)

/-- The refusals of a cascade search (R390, R391). -/
def cascadeStart (s : State) (c : Command) (count cseq : Nat) (parityBad : List Nat) : State :=
  if fld s 0x50000 0 0 = 0 ∨ s.pfx.cascErr then complete s c { status := .refusedFit }
  else if !s.pfx.cascStart && cseq != (s.pfx.lastCseq + 1) % 65536 then complete (cascadeFail s) c { status := .refusedFit }
  else
    let k : Cascade := { cmd := c, left := keyBlocks c.payload 16 count, since := now s, parityBad := parityBad }
    cascadeRun (count + 1)
      { s with pfx := { s.pfx with lastCseq := cseq, cascStart := false, cascade := some k } }

/-! ### Commands -/

/-- A prefix command is refused on a SYS association (R379). -/
def prefixRefused (c : Command) : Bool := c.sys

/-- PREFIX_SEARCH (R380, R381). `parityBad` lists the entries whose parity check fails. -/
def execPrefixSearch (c : Command) (parityBad : List Nat) (s : State) : Out :=
  .next <|
    if !prefixTurn s c || s.pfx.cascade.isSome then s
    else
      let s0 := dropStale s
      if prefixRefused c then complete s0 c { status := .refusedFit }
      else match c.desc.body with
        | .prefixSearch stopAtMiss cascade count mc ms cseq =>
          if cascade then cascadeStart s0 c count cseq parityBad
          else
            let (s1, rs) := searchKeys c.tenant mc ms stopAtMiss parityBad (keyBlocks c.payload 16 count) s0 false
            complete s1 c { status := .ok, data := rs.flatten }
        | _ => s

/-- Enters one key (R382): a new record for an entry with the same key, else a new entry. -/
def prefixEnter (s : State) (q : SeqId) (chain scope pos : Nat) : State :=
  let s0 := { s with pfx := { s.pfx with updates := s.pfx.updates + 1 } }
  match prefixExact s0.pfx q.tenant chain scope with
  | some n =>
    let e := tabGetD s0.pfx.entries n ⟨0, 0, 0, 0⟩
    let recs := tabDel s0.pfx.recs e.record
    match lowestFree recs 0 1048576 with
    | none => s0
    | some r => { s0 with pfx := { s0.pfx with recs := tabSet recs r ⟨q, pos⟩,
                                               entries := tabSet s0.pfx.entries n { e with record := r } } }
  | none =>
    match lowestFree s0.pfx.entries (halfBase chain) (halfBase chain + 524288), lowestFree s0.pfx.recs 0 1048576 with
    | some n, some r => { s0 with pfx := { s0.pfx with recs := tabSet s0.pfx.recs r ⟨q, pos⟩,
                                                       entries := tabSet s0.pfx.entries n ⟨q.tenant, scope, chain, r⟩ } }
    | _, _ => s0

/-- One key's operation meets a parity failure (R385): it is refused, and the command completes INTERNAL. -/
def prefixOne (s : State) (hit : Option Nat) (parityBad : List Nat) (f : State → State) : State × Bool :=
  match hit with
  | none => (f s, false)
  | some n =>
    let (bad, inj, s1) := checkFails s 11 (n / 524288) (parityBad.contains n)
    if bad then (prefixParity s1 n inj, true) else (f s1, false)

/-- The refusals of PREFIX_INSERT before any effect (R382). -/
def insertRefusal (s : State) (c : Command) (count : Nat) : Option Status :=
  match seqOf s c.desc.seq.id with
  | none => some .noState
  | some x =>
    let keys := keyBlocks c.payload 24 count
    let inHalf := fun (h : Nat) => (keys.filter fun k => k.1 % 2 == h).length
    if x.state == .evicting then some .noState
    else if (List.range count).any (fun i =>
        let p := fieldLe c.payload (24 * i + 16) 4
        p == 0 || decide (x.maxTokens < p)) then some .refusedFit
    else if 524288 < halfUsed s.pfx 0 + inHalf 0 ∨ 524288 < halfUsed s.pfx 1 + inHalf 1 then some .refusedFit
    else none

/-- Enters the keys of PREFIX_INSERT in order (R382); answers whether one of them met a parity failure (R385). -/
def insertKeys (c : Command) (parityBad : List Nat) (count : Nat) (s : State) : State × Bool :=
  (List.range count).foldl (fun (a : State × Bool) i =>
    let k := keyBlock c.payload (24 * i)
    let r := prefixOne a.1 (prefixExact a.1.pfx c.desc.seq.tenant k.1 k.2) parityBad
      fun s => prefixEnter s c.desc.seq.id k.1 k.2 (fieldLe c.payload (24 * i + 16) 4)
    (r.1, a.2 || r.2)) (s, false)

/-- PREFIX_INSERT (R382). -/
def execPrefixInsert (c : Command) (parityBad : List Nat) (s : State) : Out :=
  .next <|
    if !prefixTurn s c || s.pfx.cascade.isSome then s
    else
      let s0 := dropStale s
      match c.desc.body with
      | .prefixInsert count =>
        if prefixRefused c then complete s0 c { status := .refusedFit }
        else match insertRefusal s0 c count with
          | some st => complete s0 c { status := st }
          | none =>
            let r := insertKeys c parityBad count s0
            complete r.1 c { status := if r.2 then .internal else .ok }
      | _ => s

/-- Deletes the keys of PREFIX_DELETE in order (R383); answers whether one of them met a parity failure (R385). -/
def deleteKeys (tenant : Nat) (parityBad : List Nat) (keys : List (Nat × Nat)) (s : State) : State × Bool :=
  keys.foldl (fun (a : State × Bool) k =>
    let hit := prefixExact a.1.pfx tenant k.1 k.2
    let r := prefixOne { a.1 with pfx := { a.1.pfx with updates := a.1.pfx.updates + 1 } } hit parityBad fun s => match hit with
      | some n => prefixRemove s n
      | none => s
    (r.1, a.2 || r.2)) (s, false)

/-- PREFIX_DELETE (R383). A BY_SEQ delete leaves its entries to the sweep, which completes it. -/
def execPrefixDelete (c : Command) (parityBad : List Nat) (s : State) : Out :=
  .next <|
    if !prefixTurn s c || s.pfx.cascade.isSome then s
    else
      let s0 := dropStale s
      match c.desc.body with
      | .prefixDelete bySeq count =>
        if prefixRefused c then complete s0 c { status := .refusedFit }
        else if bySeq then
          if c.desc.seq.tenant ≠ c.tenant then complete s0 c { status := .refusedFit }
          else
            let ns := (s0.pfx.entries.filter fun e =>
              (tabGetD s0.pfx.recs e.2.record ⟨⟨0, 0⟩, 0⟩).seq == c.desc.seq.id).map Prod.fst
            modLive { s0 with pfx := { s0.pfx with bySeq := s0.pfx.bySeq ++ [(c.desc.seq.id, cmdKey c)],
                                                   stale := s0.pfx.stale ++ ns } }
              (cmdKey c) fun l => { l with executed := true }
        else
          let r := deleteKeys c.tenant parityBad (keyBlocks c.payload 16 count) s0
          complete r.1 c { status := if r.2 then .internal else .ok }
      | _ => s

/-- PREFIX_SWEEP (R384): one pass deletes the entries whose sequence is ABSENT or EVICTING, those that searches found
STALE and those that a BY_SEQ delete named, and completes the BY_SEQ deletes. -/
def execPrefixSweep (s : State) : Out :=
  .next <| whileRunning s fun _ =>
    let gone := (s.pfx.entries.filter fun e =>
      match seqOf s (tabGetD s.pfx.recs e.2.record ⟨⟨0, 0⟩, 0⟩).seq with
      | none => true
      | some x => x.state == .evicting).map Prod.fst
    let s1 := dropStale s
    let s2 := foldState (fun s n =>
      if (tabGet s.pfx.entries n).isSome then prefixRemove { s with pfx := { s.pfx with updates := s.pfx.updates + 1 } } n
      else s) s1 gone
    let done := s2.pfx.bySeq
    foldState (fun s e => match liveOf s e.2 with
      | some l => complete s l.cmd { status := .ok }
      | none => s) { s2 with pfx := { s2.pfx with bySeq := [] } } done

/-- The rate of a half by the hottest logic junction of its die (R377). -/
def rateFor (temp : Nat) : Nat := if temp ≤ 85 then 0 else if temp ≤ 95 then 1 else 2

/-- A reading of a die's hottest junction (R377): a lower rate acts at once; a higher one waits until every reading for
100,000 ticks has lain 2 °C below the threshold. -/
def prefixTemp (s : State) (half temp : Nat) : State :=
  let p := s.pfx
  let rate := if half = 0 then p.rateW else p.rateE
  let since := if half = 0 then p.coolW else p.coolE
  let want := rateFor temp
  let cool : Bool := (rate == 1 && decide (temp + 2 ≤ 85)) || (rate == 2 && decide (temp + 2 ≤ 95))
  let rate1 := max rate want
  let since1 := if cool && decide (rate1 = rate) then (if since.isSome then since else some (now s)) else none
  if half = 0 then { s with pfx := { p with rateW := rate1, coolW := since1 } }
  else { s with pfx := { p with rateE := rate1, coolE := since1 } }

/-- PREFIX_RATE_RAISE (R377): one step, after the wait; the next step starts its own wait. -/
def execPrefixRateRaise (half : Fin 2) (s : State) : Out :=
  .next <| whileRunning s fun _ =>
    let p := s.pfx
    let since := if half.val = 0 then p.coolW else p.coolE
    match since with
    | none => s
    | some t =>
      if !elapsed s t 100000 then s
      else if half.val = 0 then { s with pfx := { p with rateW := p.rateW - 1, coolW := none } }
      else { s with pfx := { p with rateE := p.rateE - 1, coolE := none } }

/-- MATCH_IN_PULSE (R389): 3 ticks or less is a miss, 5 or more a hit; 4 ticks sets CASC_ERR. The pin has this user only in
cascade mode at a position above 0 (R391, R543). -/
def execMatchInPulse (ticks : Nat) (s : State) : Out :=
  .next <| whileRunning s fun _ =>
    if fld s 0x50000 0 0 = 0 ∨ fld s 0x50000 2 1 = 0 then s
    else if ticks = 4 then { s with pfx := { s.pfx with cascErr := true } }
    else
      let s1 := { s with pfx := { s.pfx with matchIn := s.pfx.matchIn ++ [decide (5 ≤ ticks)] } }
      cascadeRun 257 s1

/-- CASCADE_TIMEOUT (R390): a search that waited more than 10,000 ticks for an upstream pulse is refused. -/
def execCascadeTimeout (s : State) : Out :=
  .next <| whileRunning s fun _ =>
    match s.pfx.cascade with
    | none => s
    | some k =>
      if elapsed s k.since 10001 then
        complete (cascadeFail { s with pfx := { s.pfx with cascade := none } }) k.cmd { status := .refusedFit }
      else s

/-- CASC_RESYNC (R390): CASC_ERR clears, and the next CSEQ starts the count. -/
def cascResync (s : State) : State := { s with pfx := { s.pfx with cascErr := false, cascStart := true } }

/-- CASC_RESYNC: the write has its effect where the access reaches the register (R522). -/
def execCascResync (s : State) : Out := .next (regEnter s 0x50028 cascResync)

/-- Every reset clears the index (R387); a BY_SEQ delete that waits for the sweep then has nothing left to remove. -/
def prefixClear (s : State) : State :=
  let done := s.pfx.bySeq
  let s1 := { s with pfx := { s.pfx with entries := [], recs := [], stale := [], bySeq := [], cascade := none, matchIn := [] } }
  foldState (fun s e => match liveOf s e.2 with
    | some l => complete s l.cmd { status := .ok }
    | none => s) s1 done

end Sys2Proof.Machine
end

