-- ==== Sys2Proof/Machine/Rounds.lean ====
section
/-!
DEFINITION. Machine/Rounds.lean: the deficit round robin of both schedulers (R356, R357, R361), the gates (R364), the
histograms (R368, R369) and the trace buffer (R515).
-/

namespace Sys2Proof.Machine

/-! ### Deficit round robin (R356, R357) -/

/-- The scheduler's own state: the active list, the queues still to visit in this round (the head is being visited: it has
its quantum), the deficits and the virtual time. -/
structure Drr where
  active : List Nat
  turn : List Nat
  deficit : Tab Nat
  vtime : Nat
  deriving DecidableEq, Repr

/-- What the scheduler asks of its queues: the cost of a queue's head, its quantum, and whether it may release now. -/
structure DrrAsk where
  cost : Nat → Nat
  quantum : Nat → Nat
  ok : Nat → Bool

/-- Whether a queue could release its head with its deficit. -/
def drrFits (k : DrrAsk) (d : Tab Nat) (q : Nat) : Bool := k.ok q && decide (k.cost q ≤ tabGetD d q 0)

/-- Visits queues in order, each with its quantum, up to one that releases; a closed queue is passed over (R356, R358). -/
def drrPass (k : DrrAsk) : List Nat → Tab Nat → Option Nat × List Nat × Tab Nat
  | [], d => (none, [], d)
  | q :: t, d =>
    if k.ok q then
      let d1 := tabModD d q 0 (· + k.quantum q)
      if drrFits k d1 q then (some q, q :: t, d1) else drrPass k t d1
    else drrPass k t d

/-- Adds `n` quanta to each open queue of a list. -/
def drrAdd (k : DrrAsk) (n : Nat) : List Nat → Tab Nat → Tab Nat
  | [], d => d
  | q :: t, d => drrAdd k n t (if k.ok q then tabModD d q 0 (· + n * k.quantum q) else d)

/-- The rounds until a queue could release its head: at least one. -/
def drrRounds (k : DrrAsk) (d : Tab Nat) (q : Nat) : Nat :=
  max 1 (ceilDiv (k.cost q - tabGetD d q 0) (max 1 (k.quantum q)))

/-- The jump of R357: the virtual time advances in one step to the first round in which a queue could release. -/
def drrJump (k : DrrAsk) (r : Drr) : Option Nat × Drr :=
  match minBy (drrRounds k r.deficit) (r.active.filter k.ok) with
  | none => (none, { r with turn := [] })
  | some m =>
    let n := drrRounds k r.deficit m
    let later := r.active.dropWhile fun q => !(k.ok q && drrRounds k r.deficit q == n)
    let passed := r.active.take (r.active.length - later.length)
    match later with
    | [] => (none, { r with turn := [] })
    | q :: t =>
      let d1 := drrAdd k n (passed ++ [q]) r.deficit
      (some q, { r with vtime := r.vtime + n, deficit := drrAdd k (n - 1) t d1, turn := q :: t })

/-- Chooses the next queue to release from. -/
def drrNext (k : DrrAsk) (r : Drr) : Option Nat × Drr :=
  let here := match r.turn with
    | [] => (none, [], r.deficit)
    | h :: t => if r.active.contains h && drrFits k r.deficit h then (some h, h :: t, r.deficit) else drrPass k t r.deficit
  match here with
  | (some q, t, d) => (some q, { r with turn := t, deficit := d })
  | (none, _, d) =>
    match drrPass k r.active d with
    | (some q, t, d1) => (some q, { r with turn := t, deficit := d1, vtime := r.vtime + 1 })
    | (none, _, d1) => drrJump k { r with turn := [], deficit := d1, vtime := if r.active.isEmpty then r.vtime else r.vtime + 1 }

/-- A queue has released an item of this cost; `empty` when nothing is left in it (R356). -/
def drrTake (r : Drr) (q cost : Nat) (empty : Bool) : Drr :=
  if empty then
    { r with active := r.active.filter (· != q), turn := r.turn.filter (· != q), deficit := tabSet r.deficit q 0 }
  else { r with deficit := tabModD r.deficit q 0 (· - cost) }

/-- A queue that becomes non-empty joins the tail with deficit 0, in the running round too (R357). -/
def drrJoin (r : Drr) (q : Nat) : Drr :=
  if r.active.contains q then r
  else { r with active := r.active ++ [q], turn := if r.turn.isEmpty then [] else r.turn ++ [q],
                deficit := tabSet r.deficit q 0 }

/-! ### Gates (R364) -/

def gateOf (s : State) (u : Nat) : GateUnit := tabGetD s.sched.gates u {}

def modGate (s : State) (u : Nat) (f : GateUnit → GateUnit) : State :=
  { s with sched := { s.sched with gates := tabModD s.sched.gates u {} f } }

/-- The OPEN set of a unit now (R364): every class while it is disabled. -/
def gateOpenSet (s : State) (u : Nat) : Nat :=
  if pGateEn s u then let g := gateOf s u; (g.list.getD g.entry {}).opens else 255

def gateOpen (s : State) (u cls : Nat) : Bool := bitOf cls (gateOpenSet s u)

/-! ### Histograms (R368, R369) -/

/-- The bin of a value (R368). -/
def histBin (v : Nat) : Nat :=
  if v < 2 then v
  else if 4294967296 ≤ v then 63
  else 2 * v.log2 + b2n (v.testBit (v.log2 - 1))

/-- The number of a histogram: 4 × index + 2 × egress + delay, and for admission a block for each die. -/
def histNo (egress delay : Bool) (die index : Nat) : Nat := 4 * (1024 * die + index) + flag 1 egress + flag 0 delay

/-- Adds a value to a histogram; the bins saturate at 32 bits. -/
def histAdd (s : State) (egress delay : Bool) (die index v : Nat) : State :=
  { s with sched := { s.sched with
    hist := tabModD s.sched.hist (histNo egress delay die index) [] fun t => tabModD t (histBin v) 0 fun n => satAdd cap32 n 1 } }

/-- Whether the item that enters as number `n` is sampled: one in 2^SAMPLE_SHIFT (R369). -/
def sampledNo (s : State) (n : Nat) : Bool := n % 2 ^ pSampleShift s == 0

/-! ### Trace buffer (R515) -/

/-- Writes an entry of 64 bytes at the head of the ring. -/
def traceWrite (s : State) (entry : List Byte) : State :=
  { s with snap := { s.snap with trace := tabSet s.snap.trace s.snap.traceHead (padTo 64 entry),
                                 traceHead := (s.snap.traceHead + 1) % 16384 } }

/-- An egress sample, one to an entry (R369, R515). -/
def traceSample (s : State) (index depth delay : Nat) : State :=
  if pEgTrace s then
    traceWrite s (le 1 3 ++ le 1 1 ++ le 2 0 ++ le 2 index ++ le 2 depth ++ le 4 (min cap32 delay) ++ le 4 (now s))
  else s

end Sys2Proof.Machine
end

