-- ==== Sys2Proof/Machine/Wire.lean ====
section
/-!
DEFINITION. Machine/Wire.lean: the bytes of a frame: the Nasol header in network byte order (R4, R279 to R281), the key and
nonce of a packet (R282, R283), the Ethernet frame (R273, R274), the IPv6 and UDP headers (R275), and the frame checks of
R276.
-/

namespace Sys2Proof.Machine

/-! ### The Nasol header (R279 to R281) -/

/-- FLAGS (R281). -/
def packetFlags (p : Packet) : Nat :=
  flag 0 p.first + flag 1 p.last + flag 2 p.ackReq + flag 3 p.ackv + flag 4 p.sys + flag 5 p.dupFlag

/-- The 48 bytes of a packet's header. -/
def headerBytes (p : Packet) : List Byte :=
  be 1 (16 * p.ver + p.type) ++ be 1 (packetFlags p) ++ be 2 p.src.num ++ be 2 p.dst.num ++ be 2 p.tenant ++ be 1 p.keygen
    ++ be 1 p.attempt ++ be 2 p.bodyLen ++ be 6 p.tsn ++ be 6 p.ackTsn ++ be 8 p.sack.toNat ++ be 4 p.credit ++ be 4 p.msgLen
    ++ be 1 (16 * p.roll + p.ackRoll) ++ be 7 0

/-- The number in bytes [i, i + n) of a header, network byte order. -/
def headField (h : List Byte) (i n : Nat) : Nat := ofBe (slice h i n)

/-- Reads a header; reserved bits are ignored (R5), and a reserved endpoint id names no endpoint (R278). -/
def parseHeader (h : List Byte) : Option Packet :=
  let f := headField h 1 1
  match endpointOf (headField h 2 2), endpointOf (headField h 4 2) with
  | some src, some dst =>
    some { ver := headField h 0 1 / 16, type := headField h 0 1 % 16, first := bitOf 0 f, last := bitOf 1 f, ackReq := bitOf 2 f,
           ackv := bitOf 3 f, sys := bitOf 4 f, dupFlag := bitOf 5 f, src := src, dst := dst, tenant := headField h 6 2 % 4096,
           keygen := headField h 8 1, attempt := headField h 9 1, bodyLen := headField h 10 2, tsn := headField h 12 6,
           ackTsn := headField h 18 6, sack := BitVec.ofNat 64 (headField h 24 8), credit := headField h 32 4,
           msgLen := headField h 36 4, roll := headField h 40 1 / 16, ackRoll := headField h 40 1 % 16 }
  | _, _ => none

/-! ### Keys and sealing (R282, R283) -/

/-- An endpoint's incarnation in the installed map; before the first map no rule gives one (log entry 98). -/
def endInc (s : State) (e : Endpoint) : Nat :=
  match s.comp.map, e with
  | some m, .node n => ((nodeEntry m n).map fun x => x.incarnation).getD 0
  | some m, .adapter n => ((adapterEntry m n).map fun x => x.incarnation).getD 0
  | none, _ => Config.mapless e.num

/-- The transport key of a generation: the current one's, else the previous one's (R282, R284, R440). -/
def transportKey (s : State) (a : AssocKey) (g : Nat) : List Byte :=
  let t := tenantOf s (keyNo a)
  if t.keygen = some g then t.transport else t.prevTransport

/-- K_dir of the direction from a packet's SRC to its DST at a roll count (R282). -/
def dirKey (s : State) (p : Packet) (tk : List Byte) (rolls : Nat) : List Byte :=
  shake256 (tk ++ [0x4E, 0x41, 0x53, 0x4F, 0x4C, 0x2D, 0x44, 0x49, 0x52] ++ be 2 p.tenant ++ be 1 p.keygen ++ be 2 p.src.num
    ++ be 4 (endInc s p.src) ++ be 2 p.dst.num ++ be 4 (endInc s p.dst) ++ be 4 rolls) 32

/-- The 96-bit nonce of a packet (R283). -/
def packetNonce (p : Packet) : List Byte :=
  be 2 p.src.num ++ be 1 (if p.type = 1 then 1 else 0) ++ be 1 p.attempt ++ be 2 0 ++ be 6 p.tsn

/-- The sealed body and its tag (R283): AES-256-GCM under K_dir, the header as additional data (log entry 6). -/
def sealedBody (s : State) (a : AssocKey) (p : Packet) (rolls : Nat) : List Byte :=
  padTo (p.body.length + 16)
    (Config.gcmSeal (dirKey s p (transportKey s a p.keygen) rolls) (packetNonce p) (headerBytes p) p.body)

/-! ### Addresses (R273, R318, R321) -/

/-- The MAC address of a sub-port (R273). -/
def subMac (s : State) (r : Nat × Nat) : Nat := rd s 0x20024 + 4294967296 * fld s 0x20028 15 0 + 4 * r.1 + r.2

/-- The IPv6 address of a sub-port, from the image, as 16 bytes in network order (R4, R273). -/
def subAddr (s : State) (r : Nat × Nat) : List Byte := padTo 16 (tabGetD s.boot.addr6 (4 * r.1 + r.2) [])

/-- The next-hop MAC of a frame to a peer by a sub-port: that of the route entry; by a sub-port outside the route set (R25)
no rule gives one (log entry 98). -/
def hopMac (s : State) (e : Endpoint) (r : Nat × Nat) : Nat :=
  match (s.comp.map.map fun m => routesOf m e).bind fun l => l.find? fun x => x.port == r.1 && x.sub == r.2 with
  | some x => x.mac
  | none => Config.hopMac e.num (4 * r.1 + r.2)

/-- The peer's entry in the map. -/
def endEntry (s : State) (e : Endpoint) : Option EpEntry :=
  s.comp.map.bind fun m => match e with
    | .node n => nodeEntry m n
    | .adapter n => adapterEntry m n

/-- The peer's IPv6 address (R273, R318); before the first map no rule gives one (log entry 98). -/
def peerAddr (s : State) (e : Endpoint) : Nat := ((endEntry s e).map fun x => x.addr).getD (Config.mapless e.num)

/-! ### Frames (R274, R275) -/

/-- The PCP of a frame: that of its egress class (R274, R277); an ACK has no class (R360), and no rule gives its PCP (log
entry 98). -/
def framePcp (s : State) (cls : Option Nat) : Nat :=
  match cls with
  | some c => pPcp s c
  | none => Config.ackPcp % 8

/-- The destination and source addresses, the 802.1Q tag where the port sends one, and the EtherType (R274). The EtherType of
a UDP/IPv6 frame is that of IPv6 (log entry 98). -/
def etherHead (s : State) (r : Nat × Nat) (e : Endpoint) (cls : Option Nat) : List Byte :=
  be 6 (hopMac s e r) ++ be 6 (subMac s r)
    ++ (if pVlan s r.1 then be 2 0x8100 ++ be 2 (8192 * framePcp s cls + fld s (0x20100 + 64 * r.1) 17 6) else [])
    ++ be 2 (if pEncap s r.1 then 0x86DD else fld s 0x20000 15 0)

/-- The association hash (R275): CRC-32C over SRC, DST and TENANT of the header, in the header's byte order. -/
def assocHash (p : Packet) : Nat := (crc32c (be 2 p.src.num ++ be 2 p.dst.num ++ be 2 p.tenant)).toNat

/-- Ones' complement sum of 16-bit words (RFC 8200, section 8.1). -/
def onesSum : List Byte → Nat
  | [] => 0
  | [b] => 256 * b.toNat
  | b :: c :: l => let n := onesSum l + 256 * b.toNat + c.toNat
                   if 65535 < n then n - 65535 else n

/-- The IPv6 pseudo-header of a UDP packet of `n` bytes. -/
def pseudoHead (src dst : List Byte) (n : Nat) : List Byte := src ++ dst ++ be 4 n ++ be 3 0 ++ be 1 17

/-- The UDP checksum, never zero: a sum of zero is sent as all ones. -/
def udpChecksum (src dst udp : List Byte) : Nat :=
  let n := 65535 - onesSum (pseudoHead src dst udp.length ++ udp)
  if n = 0 then 65535 else n

/-- The IPv6 and UDP headers over what follows them (R275). -/
def udp6Head (s : State) (r : Nat × Nat) (cls : Option Nat) (p : Packet) (content : List Byte) : List Byte :=
  let h := assocHash p
  let src := subAddr s r
  let dst := be 16 (peerAddr s p.dst)
  let n := 8 + content.length
  let ports := be 2 (49152 + h % 16384) ++ be 2 (fld s 0x20000 31 16) ++ be 2 n
  -- version 6; the traffic class is 8 × PCP as DSCP and ECN 0
  be 4 (6 * 268435456 + 4 * (8 * framePcp s cls) * 1048576 + h % 1048576) ++ be 2 n ++ be 1 17 ++ be 1 (fld s 0x20004 7 0)
    ++ src ++ dst ++ ports ++ be 2 (udpChecksum src dst (ports ++ be 2 0 ++ content))

/-- The frame check sequence of IEEE 802.3: CRC-32, least significant byte first. -/
def frameFcs (b : List Byte) : List Byte := le 4 (~~~ crcRun 0xEDB88320#32 0xFFFFFFFF#32 b).toNat

/-- The bytes of a packet's frame from DA to FCS. -/
def frameBytes (s : State) (r : Nat × Nat) (a : AssocKey) (cls : Option Nat) (p : Packet) (rolls : Nat) : List Byte :=
  let content := headerBytes p ++ sealedBody s a p rolls
  let b := etherHead s r p.dst cls ++ (if pEncap s r.1 then udp6Head s r cls p content else []) ++ content
  b ++ frameFcs b

/-! ### Frame checks (R276) -/

/-- Splits a received frame's bytes: destination MAC, EtherType after any 802.1Q tag, and the rest. -/
def splitEther (b : List Byte) : Nat × Nat × List Byte :=
  let t := headField b 12 2
  if t = 0x8100 then (headField b 0 6, headField b 16 2, b.drop 18) else (headField b 0 6, t, b.drop 14)

/-- Whether an address lies within an entry's ADDR/PREFIX (R318). -/
def addrWithin (e : EpEntry) (a : Nat) : Bool := a / 2 ^ (128 - e.pfx) == e.addr / 2 ^ (128 - e.pfx)

/-- The IPv6 and UDP checks of R276 on the 48 bytes that precede the Nasol header. Before the first map no source address is
listed, and any is taken (log entry 98). -/
def udp6Ok (s : State) (r : Nat × Nat) (src : Option Endpoint) (b rest : List Byte) : Bool :=
  let from_ := slice b 8 16
  let dest := slice b 24 16
  let udp := b.drop 40 ++ rest
  let listed := match s.comp.map, src with
    | none, _ => true
    | some _, some e => (endEntry s e).any fun x => addrWithin x (ofBe from_)
    | some _, none => false
  dest == subAddr s r && headField b 6 1 == 17 && headField b 42 2 == fld s 0x20000 31 16 && headField b 46 2 != 0
    && onesSum (pseudoHead from_ dest udp.length ++ udp) == 65535 && listed

/-- The packet that a frame carries, and whether R276 accepts the frame. A frame whose header names no endpoints carries
none. -/
def packetOf (s : State) (f : RxFrame) : Option Packet :=
  let (da, etype, rest) := splitEther f.head
  let udp := pEncap s f.port
  let h := if udp then rest.drop 48 else rest
  (parseHeader h).map fun p =>
    let r := (f.port, f.sub)
    let ok := f.fcsOk && da == subMac s r && etype == (if udp then 0x86DD else fld s 0x20000 15 0) && h.length == 48
      && f.sealed.length == p.bodyLen + 16
      && (!udp || udp6Ok s r (some p.src) (rest.take 48) (h ++ f.sealed))
    { p with port := f.port, sub := f.sub, frameOk := ok, tagOk := f.tagOk, body := padTo p.bodyLen f.body }

end Sys2Proof.Machine
end

