-- ==== Sys2Proof/Machine/Transport.lean ====
section
/-!
DEFINITION. Machine/Transport.lean: the fabric ports and the Nasol transport (chapter 11, R270 to R298): lanes and
sub-ports, receiving and sending packets, acknowledgement, retransmission and rolls, PFC, peer contexts, and the egress
scheduler (R360 to R363).
-/

namespace Sys2Proof.Machine

/-! ### Ports and sub-ports (R270 to R272) -/

/-- Sub-ports of a mode (R270). -/
def subCount (mode : Nat) : Nat :=
  match mode with
  | 1 => 1 | 2 => 2 | 3 => 4 | 4 => 1 | 5 => 2 | 6 => 4 | _ => 0

/-- Bits that a sub-port of a mode sends in one tick of 10 ns (R270). -/
def bitsPerTick (mode : Nat) : Nat :=
  match mode with
  | 1 => 16000 | 2 => 8000 | 3 => 4000 | 4 => 8000 | 5 => 4000 | 6 => 2000 | _ => 0

def fabPort (s : State) (p : Nat) : Port := tabGetD s.net.ports p {}

def modFab (s : State) (p : Nat) (f : Port → Port) : State :=
  { s with net := { s.net with ports := tabModD s.net.ports p {} f } }

def subOf (s : State) (p sub : Nat) : SubPort := tabGetD (fabPort s p).subs sub {}

def modSub (s : State) (p sub : Nat) (f : SubPort → SubPort) : State :=
  modFab s p fun x => { x with subs := tabModD x.subs sub {} f }

/-- Whether a sub-port is up (R271). -/
def isUp (s : State) (p sub : Nat) : Bool := decide (sub < subCount (pPortMode s p)) && (subOf s p sub).up

/-- The lanes of a sub-port. -/
def subLanes (mode sub : Nat) : List Nat := let n := 8 / max 1 (subCount mode); rangeFrom (sub * n) (sub * n + n)

/-- SUBPORT_UP_DOWN (R271, R272): a sub-port with a lane that has no spare stays down. -/
def execSubportUpDown (port : Fin 12) (sub : Fin 4) (up : Bool) (s : State) : Out :=
  .next <|
    let mode := pPortMode s port.val
    let lanes := subLanes mode sub.val
    if !s.running || decide (subCount mode ≤ sub.val) then s
    else if up && ((fabPort s port.val).downLanes.any lanes.contains || s.fault.ciphers.any fun n => n < 24 && n / 2 == port.val)
      then s
    else modSub s port.val sub.val fun x => { x with up := up }

/-- A fabric lane is replaced (R272, R486): it moves to the port's spare, or leaves its sub-port down; the sub-port goes down
in both cases and retrains after a move. `note` raises the port's source. -/
def laneReplace (s : State) (p lane : Nat) (note : Bool) : State :=
  let mode := pPortMode s p
  let n := subCount mode
  if n = 0 then s
  else
    let sub := lane / (8 / n)
    let x := fabPort s p
    let u : UnitRef := { kind := 5, num := 8 * p + lane }
    let s1 := modSub s p sub fun y => { y with up := false }
    if x.spareUsed then
      if x.downLanes.contains lane then s1
      else
        let s2 := modFab s1 p fun y => { y with downLanes := y.downLanes ++ [lane] }
        if note then raise s2 { source := 41 + p, unit := u, unitDone := true } else s2
    else
      let s2 := modFab s1 p fun y => { y with spareUsed := true, spareLane := lane, lanesOut := y.lanesOut ++ [lane] }
      caskAction (if note then raise s2 { source := 41 + p, unit := u, unitDone := true } else s2) 1 u 0

/-- A fabric lane fails (R272). -/
def laneFails (s : State) (p lane : Nat) : State := laneReplace s p lane true

/-- LANE_SPARE_MOVE (R272). -/
def execLaneSpareMove (port : Fin 12) (lane : Fin 8) (s : State) : Out :=
  .next <| if s.running then laneFails s port.val lane.val else s

/-! ### Routes (R288) -/

/-- The sub-ports of a peer's route set in order. -/
def routeSubs (s : State) (e : Endpoint) : List (Nat × Nat) :=
  match s.comp.map with
  | none => []
  | some m => (routesOf m e).map fun r => (r.port, r.sub)

/-- The first up entry of a list of sub-ports. -/
def firstUp (s : State) (l : List (Nat × Nat)) : Option (Nat × Nat) := l.find? fun r => isUp s r.1 r.2

/-- The sub-port of a message's first transmission (R288, R25). -/
def firstRoute (s : State) (e : Endpoint) (arrival : Option (Nat × Nat)) : Option (Nat × Nat) :=
  match arrival with
  | some r => if isUp s r.1 r.2 then some r else firstUp s (routeSubs s e)
  | none => firstUp s (routeSubs s e)

/-- The sub-port of a retransmission: the next up entry after the last one used; the first up entry after a transmission
outside the route set (R288). `resend` takes the first up entry after one on an arrival sub-port that has gone down. -/
def nextRoute (s : State) (e : Endpoint) (via : Option (Nat × Nat)) : Option (Nat × Nat) :=
  let l := routeSubs s e
  match via.bind fun v => l.findIdx? (· == v) with
  | some i => firstUp s (l.drop (i + 1) ++ l.take (i + 1))
  | none => firstUp s l

/-! ### Egress queues (R360 to R362) -/

/-- Bytes from DA to FCS of a packet with a body (R274, R275). -/
def frameLen (s : State) (p body : Nat) : Nat :=
  14 + (if pVlan s p then 4 else 0) + (if pEncap s p then 48 else 0) + 48 + body + 16 + 4

def subDrr (x : SubPort) : Drr := { active := x.active, turn := x.turn, deficit := x.deficit, vtime := x.vtime }

def withDrr (x : SubPort) (r : Drr) : SubPort :=
  { x with active := r.active, turn := r.turn, deficit := r.deficit, vtime := r.vtime }

/-- A packet reaches its egress class queue: at the tail, or at the head for a retransmission (R361); one in
2^SAMPLE_SHIFT is sampled (R369). -/
def egJoin (s : State) (r : Nat × Nat) (cls : Nat) (packet : Packet) (head : Bool) : State :=
  let n := s.sched.egEntered
  let smp := sampledNo s n
  let q := tabGetD (subOf s r.1 r.2).queues cls []
  let it : EgItem := { cls := some cls, len := frameLen s r.1 packet.body.length, ready := now s, sampled := smp, packet := packet }
  let s1 := { s with sched := { s.sched with egEntered := n + 1 } }
  let s2 := if smp then histAdd s1 true false 0 (32 * r.1 + 8 * r.2 + cls) (if head then 0 else q.length) else s1
  modSub s2 r.1 r.2 fun x =>
    let x1 := { x with queues := tabSet x.queues cls (if head then it :: q else q ++ [it]) }
    withDrr x1 (drrJoin (subDrr x1) cls)

/-- Takes the queued packets of one direction out of a sub-port. -/
def egPurge (mine : Packet → Bool) (x : SubPort) : SubPort :=
  let qs := x.queues.map fun e => (e.1, e.2.filter fun i => !mine i.packet)
  let gone := x.active.filter fun c => (tabGetD qs c []).isEmpty
  withDrr { x with queues := qs } (foldState (fun r c => drrTake r c 0 true) (subDrr x) gone)

/-! ### What the node sends (R279, R285 to R287) -/

/-- A DATA packet as its frame carries it; the ACK fields are placed when it leaves (R287). -/
def dataPacketOf (s : State) (a : AssocKey) (roll : Nat) (f : TxPacket) : Packet :=
  { type := 0, first := f.first, last := f.last, ackReq := f.ackReq, sys := a.sys, src := .node (nodeId s), dst := a.peer,
    tenant := a.tenant, keygen := f.keygen, attempt := f.try_, bodyLen := f.body.length, tsn := f.tsn, msgLen := f.msgLen,
    roll := roll % 16, body := f.body }

/-- The ACK fields of an association (R279, R286, R287): while no TSN has been received, ACK_TSN is all ones. -/
def ackFields (s : State) (c : PeerCtx) (p : Packet) : Packet :=
  { p with ackv := true, ackTsn := if c.rxNext = 0 then 2 ^ 48 - 1 else c.rxNext - 1,
           sack := BitVec.ofNat 64 (sumNat ((List.range 64).map fun i => if c.rxAbove.contains (c.rxNext + i) then 2 ^ i else 0)),
           credit := (pCreditInit s + c.rxUnits) % 4294967296, ackRoll := c.rxRoll % 16 }

/-- Sends an ACK packet on the first up entry of the route set (R280, R287, R362). -/
def sendAck (s : State) (a : AssocKey) (dup : Bool) : State :=
  match ctxOf s a, firstUp s (routeSubs s a.peer), sealGen s a with
  | some c, some r, some g =>
    let p : Packet := { type := 1, dupFlag := dup, sys := a.sys, src := .node (nodeId s), dst := a.peer, tenant := a.tenant,
                        keygen := g, tsn := c.ackSeqTx, roll := c.txRoll % 16 }
    let it : EgItem := { cls := none, len := frameLen s r.1 0, ready := now s, packet := p }
    modSub (modCtx s a fun x => { x with ackSeqTx := x.ackSeqTx + 1, ackOwed := none, backed := false }) r.1 r.2 fun x => { x with acks := x.acks ++ [it] }
  | _, _, _ => s

/-- Packets of a message (R285). -/
def packetCount (s : State) (len : Nat) : Nat := max 1 (ceilDiv len (pBodyMax s))

/-- Units of credit of a body (R286). -/
def creditUnits (body : Nat) : Nat := max 1 (ceilDiv body 4096)

/-- Whether the credit limit allows so many units, compared modulo 2^32 (R286). -/
def creditAllows (limit units : Nat) : Bool := decide ((limit % 4294967296 + 4294967296 - units % 4294967296) % 4294967296 < 2147483648)

/-- The lowest TSN not acknowledged. -/
def lowestTsn (c : PeerCtx) : Nat := match c.flight with
  | [] => c.txNext
  | f :: l => foldState (fun n x => min n x.tsn) f.tsn l

/-! ### Suspicion by a roll (R290, R341) -/

/-- A watched peer becomes suspected (R341): `why` is 0 for silence and 1 for a roll. -/
def suspect (s : State) (n why : Nat) : State :=
  match s.comp.watch.find? fun w => w.node == n with
  | none => s
  | some w =>
    if w.suspected then s
    else
      let s1 := { s with comp := { s.comp with
        watch := s.comp.watch.map fun x => if x.node = n then { x with suspected := true, good := 0 } else x } }
      reportAll s1 1 .ok n (epochOf s1) 0 why

/-- Any authenticated SYS packet from a watched peer is heard (R341). -/
def heard (s : State) (a : AssocKey) : State :=
  match a.sys, a.peer with
  | true, .node n =>
    { s with comp := { s.comp with watch := s.comp.watch.map fun x => if x.node = n then { x with heard := true } else x } }
  | _, _ => s

/-- SYS DATA other than a HEARTBEAT has gone to a peer (R341). -/
def sysDataSent (s : State) (a : AssocKey) : State :=
  match a.sys, a.peer with
  | true, .node n =>
    { s with comp := { s.comp with watch := s.comp.watch.map fun x => if x.node = n then { x with sysSent := true } else x } }
  | _, _ => s

/-! ### Rolling a direction (R290) -/

/-- The sending direction rolls: every packet in flight and every partly sent message is abandoned and reported to the unit
that issued it, by its number and class, and TSNs start again at 0. An abandoned completion is discarded and counted. -/
def rollDirection (s : State) (a : AssocKey) : State :=
  match ctxOf s a with
  | none => s
  | some c =>
    let part := (c.txQueue.filter fun m => m.sent != 0).map fun m => (m.id, m.cls)
    let fly := c.flight.foldl (fun acc f => if acc.any (fun x => x.1 == f.msg) then acc else acc ++ [(f.msg, f.cls)]) part
    let lost := (fly.filter fun x => x.2 == .completion).length
    let s1 := modCtx s a fun c =>
      { c with txRoll := (c.txRoll + 1) % 4294967296, txNext := 0, txUnits := 0, txCredit := pCreditInit s, flight := [],
               txQueue := c.txQueue.filter (fun m => m.sent == 0), ackSeqTx := 0, backed := false }
    let mine := fun (p : Packet) => p.type == 0 && p.dst == a.peer && p.sys == a.sys && p.tenant == a.tenant
    let purge := fun (x : Port) => { x with subs := x.subs.map fun e => (e.1, egPurge mine e.2) }
    { s1 with net := { s1.net with discarded := s1.net.discarded + lost, abandoned := s1.net.abandoned ++ fly,
                                   ports := s1.net.ports.map fun e => (e.1, purge e.2) } }

/-! ### Sending messages (R285, R286, R293) -/

/-- Starts the fetch of a context that is not cached (R296). It waits while no cached context can be evicted (R297). -/
def startFetch (s : State) (a : AssocKey) : State :=
  match ctxOf s a with
  | none => s
  | some c =>
    if c.cached || c.fetching || c.lost then s
    else match makeRoom s (homeDie s a.peer) with
      | none => s
      | some s1 =>
        let s2 := modCtx s1 a fun c => { c with fetching := true }
        if a.sys then s2
        else
          let i := ((s.net.ctxs.filter fun x => !x.key.sys).findIdx? fun x => x.key == a).getD 0
          memRead1 s2 (.context a) (s.net.pctxBase + 512 * i, 512)

/-- Sends the next packet of the message at the head of an association's queue, if window, credit and route allow. -/
def cutOne (a : AssocKey) (s : State) : State :=
  match ctxOf s a with
  | none => s
  | some c =>
    match c.txQueue with
    | [] => s
    | m :: rest =>
      let body := (m.bytes.drop m.sent).take (pBodyMax s)
      let low := lowestTsn c
      let units := creditUnits body.length
      match firstRoute s a.peer m.arrival with
      | none => s
      | some r =>
        if !c.cached || decide (low + 2047 < c.txNext) || !creditAllows c.txCredit (c.txUnits + units) then s
        else
          let last := decide (m.bytes.length ≤ m.sent + body.length)
          let f : TxPacket := { tsn := c.txNext, msg := m.id, cls := m.cls, egress := m.egress, arrival := m.arrival,
                                keygen := m.keygen, first := m.sent == 0, last := last,
                                ackReq := last || decide (low + 1536 ≤ c.txNext + 1), msgLen := m.bytes.length, body := body,
                                since := now s, rto := pRtoInit s, via := some r }
          let m1 := { m with sent := m.sent + body.length }
          let s1 := modCtx s a fun c =>
            { c with txNext := c.txNext + 1, txUnits := (c.txUnits + units) % 4294967296, flight := c.flight ++ [f],
                     txQueue := if last then rest else m1 :: rest, backed := false, used := now s }
          let beat := m.cls == .control && msgKind m.bytes == 0x13
          let s2 := if a.sys then (if beat then s1 else sysDataSent s1 a) else bump s1 a.tenant 6 body.length
          egJoin s2 r m.egress (dataPacketOf s a c.txRoll f) false

/-- MESSAGE_SEND (R285): cuts the message at the head of an association's queue. The direction rolls before its TSN could
reach 2^48 − 4,096 (R290), once nothing is in flight. -/
def execMessageSend (a : AssocKey) (s : State) : Out :=
  .next <|
    match ctxOf s a with
    | none => s
    | some c =>
      if !s.running || c.lost then s
      else if !c.cached then (if c.txQueue.isEmpty then s else startFetch s a)
      else match c.txQueue with
        | [] => s
        | m :: _ =>
          let n := packetCount s (m.bytes.length - m.sent)
          if m.sent == 0 && decide (2 ^ 48 - 4096 < c.txNext + n) then
            if c.flight.isEmpty then iter (cutOne a) n (rollDirection s a) else s
          else iter (cutOne a) n s

/-! ### Retransmission (R289, R293) -/

/-- Resends a packet in flight with TRY + 1 on the next route entry; its timer doubles up to RTO_MAX. -/
def resend (s : State) (a : AssocKey) (tsn : Nat) : State :=
  match ctxOf s a with
  | none => s
  | some c =>
    match c.flight.find? fun f => f.tsn == tsn with
    | none => s
    | some f =>
      let gone := f.arrival.isSome && f.via == f.arrival && !(f.arrival.any fun x => isUp s x.1 x.2)
      let r := nextRoute s a.peer (if gone then none else f.via)
      let f1 := { f with try_ := f.try_ + 1, ackReq := true, since := now s, rto := min (2 * f.rto) (pRtoMax s),
                         via := match r with
                           | none => f.via
                           | some x => some x }
      let s1 := modCtx s a fun c => { c with flight := c.flight.map (fun x => if x.tsn = tsn then f1 else x), backed := false }
      match r with
      | none => s1
      | some x => egJoin s1 x f.egress (dataPacketOf s a c.txRoll f1) true

/-- RETRANSMIT_TIMEOUT (R289, R290): the packet is resent, or its direction rolls and the peer is reported. -/
def execRetransmitTimeout (a : AssocKey) (tsn : Nat) (s : State) : Out :=
  .next <|
    match ctxOf s a with
    | none => s
    | some c =>
      match c.flight.find? fun f => f.tsn == tsn with
      | none => s
      | some f =>
        if !s.running || !elapsed s f.since f.rto then s
        else if f.try_ < pRetryMax s then resend s a tsn
        else
          let s1 := rollDirection s a
          match a.sys, a.peer with
          | true, .node n => suspect s1 n 1
          | _, _ => s1

/-- Whether the ACK fields of a packet acknowledge a TSN (R293). -/
def acks (p : Packet) (tsn : Nat) : Bool :=
  let base := if p.ackTsn = 2 ^ 48 - 1 then 0 else p.ackTsn + 1
  decide (tsn < base) || (decide (tsn < base + 64) && p.sack.getLsbD (tsn - base))

/-- How many TSNs above one the SACK of a packet shows received (R289). -/
def sackedAbove (p : Packet) (tsn : Nat) : Nat :=
  let base := if p.ackTsn = 2 ^ 48 - 1 then 0 else p.ackTsn + 1
  ((List.range 64).filter fun i => p.sack.getLsbD i && decide (tsn < base + i)).length

/-- Applies the ACK fields of a packet whose ACK_ROLL is the current roll (R291 step 7, R293), and resends at once what the
SACK shows missing (R289). -/
def applyAck (s : State) (a : AssocKey) (p : Packet) : State :=
  match ctxOf s a with
  | none => s
  | some c =>
    if !p.ackv || p.ackRoll != c.txRoll % 16 then s
    else
      let left := c.flight.filter fun f => !acks p f.tsn
      let s1 := modCtx s a fun c => { c with flight := left, txCredit := p.credit % 4294967296, backed := false }
      let fast := left.filter fun f => decide (f.try_ < pRetryMax s) && decide (3 ≤ sackedAbove p f.tsn)
      foldState (fun s f => resend s a f.tsn) s1 fast

/-- ACK_COALESCE_EXPIRY (R287). -/
def execAckCoalesceExpiry (a : AssocKey) (s : State) : Out :=
  .next <|
    match (ctxOf s a).bind fun c => c.ackOwed with
    | none => s
    | some t => if s.running && elapsed s t (pAckCoalesce s) then sendAck s a false else s

/-! ### Receiving (R291, R292) -/

def assocOf (p : Packet) : AssocKey := { peer := p.src, tenant := if p.sys then 0 else p.tenant, sys := p.sys }

def dropOther (s : State) (p : Packet) : State := modFab s p.port fun x => { x with dropOther := x.dropOther + 1 }
def dropWindow (s : State) (p : Packet) : State := modFab s p.port fun x => { x with dropWindow := x.dropWindow + 1 }
def dropBuffer (s : State) (p : Packet) : State := modFab s p.port fun x => { x with dropBuffer := x.dropBuffer + 1 }

/-- Step 2 of R291. Before its first map the node has no id, and any node id is taken as its own. -/
def headerOk (s : State) (p : Packet) : Bool :=
  let mine := match s.comp.map, p.dst with
    | none, .node _ => true
    | some m, .node n => n == m.node
    | _, .adapter _ => false
  p.ver == 1 && decide (p.type ≤ 1) && mine && p.bodyLen == p.body.length && decide (p.bodyLen ≤ 8192)
    && (p.type == 0 || p.bodyLen == 0)

/-- Whether an endpoint may stand at the other end of an association (R282, R330): a member for SYS, any listed endpoint for
a tenant; before the first map an adapter. -/
def peerAllowed (s : State) (a : AssocKey) : Bool :=
  match s.comp.map, a.peer with
  | none, .adapter _ => true
  | none, .node _ => false
  | some m, .node n => (nodeEntry m n).isSome
  | some m, .adapter n => (adapterEntry m n).isSome && (!a.sys || (composers m).contains (.adapter n))

/-- Bytes that wait in a die's receive buffer. -/
def heldBytes (s : State) (die : Nat) : Nat :=
  sumNat ((s.net.ctxs.filter fun c => homeDie s c.key.peer == die).map fun c => sumNat (c.held.map fun p => p.body.length))

/-- Free bytes of a die's receive buffer of 64 MiB. -/
def bufferFree (s : State) (die : Nat) : Nat := 67108864 - heldBytes s die

/-- Whether a message buffer of `len` bytes can be reserved on a die (R292): 32 MiB on the die for messages of up to 65,536
bytes, a 1 GiB area for larger ones. Delivered messages that no unit has taken still hold theirs. -/
def reserveOk (s : State) (die len : Nat) : Bool :=
  let small := decide (len ≤ 65536)
  let same := fun (n : Nat) => decide (n ≤ 65536) == small
  let parts := sumNat ((s.net.ctxs.filter fun c => homeDie s c.key.peer == die).map fun c =>
    sumNat ((c.msgs.filter fun m => same m.len).map fun m => m.len))
  let waiting := sumNat ((s.net.inbox.filter fun d => !d.msg.viaLink && homeDie s d.msg.src == die && same d.msg.bytes.length).map
    fun d => d.msg.bytes.length)
  decide (parts + waiting + len ≤ if small then 33554432 else 1073741824)

/-- Places a part in a message buffer. -/
def placePart (m : RxMsg) (t : RxPart) : RxMsg := { m with parts := tabSet m.parts (t.tsn - m.firstTsn) t.body }

/-- Whether a TSN belongs to a message. -/
def inMsg (s : State) (m : RxMsg) (tsn : Nat) : Bool :=
  decide (m.firstTsn ≤ tsn) && decide (tsn < m.firstTsn + packetCount s m.len)

/-- Advances the highest contiguous TSN over what stands above it. -/
def advance (c : PeerCtx) : PeerCtx :=
  if c.rxAbove.contains c.rxNext then { c with rxNext := c.rxNext + 1, rxAbove := c.rxAbove.filter (· != c.rxNext) } else c

/-- Accepts a DATA packet's part into its context (R291 step 10, R292). -/
def acceptPart (s : State) (c : PeerCtx) (t : RxPart) : PeerCtx :=
  let c1 := iter advance 2048 { c with rxAbove := t.tsn :: c.rxAbove }
  let c2 := { c1 with ackOwed := some (c1.ackOwed.getD (now s)), backed := false, used := now s }
  if t.first then
    let m0 : RxMsg := { firstTsn := t.tsn, len := t.msgLen, keygen := t.keygen, port := t.port, sub := t.sub }
    let mine := c2.held.filter fun h => inMsg s m0 h.tsn
    let m1 := foldState placePart (placePart m0 t) mine
    let units := sumNat ((t :: mine).map fun h => creditUnits h.body.length)
    { c2 with msgs := c2.msgs ++ [m1], held := c2.held.filter (fun h => !inMsg s m0 h.tsn), rxUnits := c2.rxUnits + units }
  else if c2.msgs.any fun m => inMsg s m t.tsn then
    { c2 with msgs := c2.msgs.map (fun m => if inMsg s m t.tsn then placePart m t else m),
              rxUnits := c2.rxUnits + creditUnits t.body.length }
  else { c2 with held := c2.held ++ [t] }

/-- A SYS message that crosses the cut of a fabric snapshot (R513 step 3). -/
def noteCrossing (s : State) (a : AssocKey) (kind : Nat) : State :=
  let note := fun (d : Drain) =>
    if a.sys && kind != 0x1C && !d.marked.contains a then
      { d with crossing := d.crossing + 1, crossed := if d.crossed.contains a then d.crossed else d.crossed ++ [a] }
    else d
  { s with snap := { s.snap with drains := s.snap.drains.map note } }

/-- Delivers the earliest message of a direction once every TSN up to its last has been received (R292). It came on the die
of the port on which its FIRST packet arrived (R26). -/
def deliverOne (a : AssocKey) (s : State) : State :=
  match ctxOf s a with
  | none => s
  | some c =>
    match minBy (fun m => m.firstTsn) c.msgs with
    | none => s
    | some m =>
      if c.rxNext < m.firstTsn + packetCount s m.len then s
      else
        let bytes := (m.parts.flatMap fun e => e.2).take m.len
        let s1 := modCtx s a fun c => { c with msgs := c.msgs.filter fun x => x.firstTsn != m.firstTsn }
        let s2 := noteCrossing s1 a (msgKind bytes)
        deliver s2 { src := a.peer, tenant := a.tenant, keygen := m.keygen, sys := a.sys, port := m.port, sub := m.sub,
                     die := m.port / 6, bytes := bytes }

/-- Step 8 to 10 of R291. -/
def receiveData (s : State) (a : AssocKey) (p : Packet) : State :=
  match ctxOf s a with
  | none => s
  | some c =>
    let die := homeDie s a.peer
    if decide (p.tsn < c.rxNext) || c.rxAbove.contains p.tsn then
      sendAck (modFab s p.port fun x => { x with dup := x.dup + 1 }) a true
    else if c.rxNext + 2048 ≤ p.tsn then dropWindow s p
    else if bufferFree s die < p.body.length || (p.first && !reserveOk s die p.msgLen) then dropBuffer s p
    else
      let t : RxPart := { tsn := p.tsn, body := p.body, first := p.first, last := p.last, msgLen := p.msgLen, keygen := p.keygen,
                          port := p.port, sub := p.sub }
      let c1 := acceptPart s c t
      let s1 := modCtx s a fun _ => c1
      let s2 := modFab s1 p.port fun x => { x with rx := x.rx + 1, rxBytes := x.rxBytes + frameLen s p.port p.body.length }
      let s3 := iter (deliverOne a) c1.msgs.length s2
      if p.ackReq then sendAck s3 a false else s3

/-- A receiver adopts the next roll (R290): what it held of the old one is discarded. -/
def adoptRoll (s : State) (a : AssocKey) (p : Packet) : State :=
  modCtx s a fun c =>
    if p.roll = c.rxRoll % 16 then c
    else { c with rxRoll := (c.rxRoll + 1) % 4294967296, rxNext := 0, rxAbove := [], rxUnits := 0, held := [], msgs := [],
                  ackSeqRx := none, ackOwed := none, backed := false }

/-- Steps 4 to 10 of R291, for a packet whose context is cached. -/
def receiveCached (s : State) (p : Packet) : State :=
  let a := assocOf p
  match ctxOf s a with
  | none => s
  | some c =>
    if p.roll != c.rxRoll % 16 && p.roll != (c.rxRoll + 1) % 16 then dropWindow s p
    else
      let real := !(p.tagOk && genKnown s a p.keygen && peerAllowed s a)
      let (bad, inj, s1) := if p.type = 0 then checkFails s 8 p.port real else (real, false, s)
      if bad then
        raise (modFab s1 p.port fun x => { x with dropAuth := x.dropAuth + 1 })
          { source := 14, unit := { kind := 6, num := p.port }, injected := inj }
      else
        let s2 := adoptRoll (heard s1 a) a p
        if p.type = 0 then receiveData (applyAck s2 a p) a p
        else
          let old := (ctxOf s2 a).bind fun c => c.ackSeqRx
          if (match old with
              | none => false
              | some n => decide (p.tsn ≤ n)) then dropWindow s2 p
          else
            let s3 := modCtx s2 a fun c => { c with ackSeqRx := some p.tsn, backed := false, used := now s }
            applyAck (modFab s3 p.port fun x => { x with rx := x.rx + 1, rxBytes := x.rxBytes + frameLen s p.port 0 }) a p

/-- Puts a packet into the home die's miss buffer of 256 (R296). -/
def missJoin (s : State) (p : Packet) : State :=
  let a := assocOf p
  let die := homeDie s a.peer
  if 256 ≤ (s.net.miss.filter fun e => e.1 == die).length then dropBuffer s p
  else startFetch { s with net := { s.net with miss := s.net.miss ++ [(die, p)] } } a

/-- Receives a packet (R291, R296, R298). -/
def receive (s : State) (p : Packet) : State :=
  let a := assocOf p
  if !s.running || !isUp s p.port p.sub then s
  else if !p.frameOk || !headerOk s p then dropOther s p
  else match ctxOf s a with
    | some c => if c.lost then dropOther s p else if c.cached then receiveCached s p else missJoin s p
    | none =>
      if !backingFree s a then dropOther s p
      else match newCtx s a with
        | some s1 => receiveCached s1 p
        | none => missJoin s p

/-- A frame arrives at an up sub-port: its bytes are read (R274 to R279), and its packet is received; one whose header names a
reserved endpoint id is dropped. `mine` says which packets the command is for. -/
def receiveFrame (mine : Packet → Bool) (f : RxFrame) (s : State) : State :=
  if !isUp s f.port f.sub then s
  else match packetOf s f with
    | some p => if mine p then receive s p else s
    | none => modFab s f.port fun x => { x with dropOther := x.dropOther + 1 }

/-- DATA_PACKET (R291): a packet of any type but ACK; a reserved type is dropped (R280). -/
def execDataPacket (f : RxFrame) (s : State) : Out :=
  .next <| whileRunning s fun _ => receiveFrame (fun p => p.type != 1) f s

/-- ACK_PACKET (R291). -/
def execAckPacket (f : RxFrame) (s : State) : Out :=
  .next <| whileRunning s fun _ => receiveFrame (fun p => p.type == 1) f s

/-- The waiting packets of an association continue at step 4 of R291 in arrival order (R296). -/
def missRun (s : State) (a : AssocKey) : State :=
  let mine := s.net.miss.filter fun e => assocOf e.2 == a
  let s1 := { s with net := { s.net with miss := s.net.miss.filter fun e => assocOf e.2 != a } }
  foldState (fun s e => receiveCached s e.2) s1 mine

/-- CONTEXT_FETCH_DONE (R296, R297): a fetch has completed, or one that waited for room starts. -/
def execContextFetchDone (a : AssocKey) (s : State) : Out :=
  .next <|
    if !s.running then s
    else
      let waiting := s.net.miss.any fun e => assocOf e.2 == a
      match ctxOf s a with
      | none => if waiting then ((newCtx s a).map fun s1 => missRun s1 a).getD s else s
      | some c =>
        if c.fetching then
          if s.link.memRds.any fun m => m.why == .context a then s
          else missRun (modCtx s a fun c => { c with fetching := false, cached := true, backed := true, used := now s }) a
        else if waiting || !c.txQueue.isEmpty then startFetch s a
        else s

/-- Registers the context region (R295, R313): once per boot, while no tenant context exists. -/
def pctxSet (s : State) : State :=
  let base := rd s 0x20030 + 4294967296 * rd s 0x20034
  let units := fld s 0x20038 8 0
  if s.net.pctx = 1 ∨ s.net.pctx = 3 then s
  else if 1 ≤ units ∧ units ≤ 256 ∧ base % 2097152 = 0 ∧ (s.net.ctxs.all fun c => c.key.sys) = true then
    { s with net := { s.net with pctx := 1, pctxBase := base, pctxSize := 4096 * units } }
  else { s with net := { s.net with pctx := 2 } }

/-- PCTX_SET (R295, R313). -/
def execPctxSet (s : State) : Out := .next (regEnter s 0x2003C pctxSet)

/-! ### Egress (R361, R362, R369) -/

/-- Sends a frame: the ACK fields of its association are placed in it, and no other carrier is owed (R287). The packet is
sealed, and the frame's bytes go on the wire (R274, R275, R279, R283). -/
def sendFrame (s : State) (r : Nat × Nat) (it : EgItem) : State :=
  let a : AssocKey := { peer := it.packet.dst, tenant := it.packet.tenant, sys := it.packet.sys }
  let q := match ctxOf s a with
    | none => it.packet
    | some c => ackFields s c it.packet
  let p : Packet := { q with port := r.1, sub := r.2 }
  let rolls := ((ctxOf s a).map fun c => c.txRoll).getD 0
  let s1 := modCtx s a fun c => { c with ackOwed := none }
  let sent : SentFrame := { port := r.1, sub := r.2, packet := p, bytes := frameBytes s r a it.cls p rolls }
  let s2 := { s1 with net := { s1.net with wire := sent :: s1.net.wire } }
  modFab s2 r.1 fun x => { x with tx := x.tx + 1, txBytes := x.txBytes + it.len,
                                   retx := x.retx + (if p.type = 0 ∧ 0 < p.attempt then 1 else 0) }

/-- Whether PFC pauses an egress class of a sub-port (R277). -/
def pfcPaused (s : State) (x : SubPort) (cls : Nat) : Bool := (tabGet x.paused (pPcp s cls)).isSome

/-- What the egress scheduler asks (R361). -/
def egAsk (s : State) (p : Nat) (x : SubPort) : DrrAsk :=
  { cost := fun c => ((tabGetD x.queues c []).head?.map fun i => i.len).getD 0
    quantum := pEgQuantum s
    ok := fun c => !(tabGetD x.queues c []).isEmpty && gateOpen s (2 + p) c && !pfcPaused s x c }

/-- EGRESS_SELECT (R361 to R363): an ACK goes ahead of every class; else the round robin chooses a class. -/
def execEgressSelect (port : Fin 12) (sub : Fin 4) (s : State) : Out :=
  .next <|
    let p := port.val
    let b := sub.val
    let x := subOf s p b
    if !s.running || !isUp s p b then s
    else match x.acks with
      | i :: rest => sendFrame (modSub s p b fun y => { y with acks := rest, busyAt := now s }) (p, b) i
      | [] =>
        match drrNext (egAsk s p x) (subDrr x) with
        | (none, _) => s
        | (some c, r) =>
          match tabGetD x.queues c [] with
          | [] => s
          | i :: rest =>
            let s1 := modSub s p b fun y =>
              withDrr { y with queues := tabSet y.queues c rest, busyAt := now s } (drrTake r c i.len rest.isEmpty)
            let delay := now s - i.ready
            let idx := 32 * p + 8 * b + c
            let s2 := if i.sampled then traceSample (histAdd s1 true true 0 idx delay) idx rest.length delay else s1
            sendFrame s2 (p, b) i

/-! ### PFC and PAUSE (R276, R277) -/

/-- The PCP values on which PFC is enabled. -/
def pfcPcps (s : State) : List Nat :=
  (if fld s 0x2001C 0 0 = 1 then [fld s 0x2001C 3 1] else []) ++ (if fld s 0x2001C 4 4 = 1 then [fld s 0x2001C 7 5] else [])

/-- Ticks of a number of pause quanta of 512 bits at a sub-port's rate (R277). -/
def quantaTicks (mode quanta : Nat) : Nat := ceilDiv (512 * quanta) (max 1 (bitsPerTick mode))

/-- PFC_FRAME (R277): each enabled PCP that it names is paused for its quanta, or resumed by quanta 0. -/
def execPfcFrame (port : Fin 12) (sub : Fin 4) (quanta : List (Nat × Nat)) (s : State) : Out :=
  .next <|
    if !s.running || !isUp s port.val sub.val then s
    else
      let on := quanta.filter fun e => (pfcPcps s).contains e.1
      let put := fun (x : SubPort) (e : Nat × Nat) =>
        if e.2 = 0 then { x with paused := tabDel x.paused e.1, pausedAt := tabDel x.pausedAt e.1 }
        else { x with paused := tabSet x.paused e.1 e.2, pausedAt := tabSet x.pausedAt e.1 (now s) }
      let s1 := modFab s port.val fun x => { x with pauseRx := x.pauseRx + 1 }
      modSub s1 port.val sub.val fun x => foldState put x on

/-- PFC_PAUSE_EXPIRY (R277). -/
def execPfcPauseExpiry (port : Fin 12) (sub : Fin 4) (pcp : Fin 8) (s : State) : Out :=
  .next <|
    let x := subOf s port.val sub.val
    match tabGet x.paused pcp.val with
    | none => s
    | some q =>
      if s.running && elapsed s (tabGetD x.pausedAt pcp.val 0) (quantaTicks (pPortMode s port.val) q) then
        modSub s port.val sub.val fun x => { x with paused := tabDel x.paused pcp.val, pausedAt := tabDel x.pausedAt pcp.val }
      else s

/-- PAUSE_FRAME (R276): ignored and counted. -/
def execPauseFrame (port : Fin 12) (s : State) : Out :=
  .next <| if s.running && pPortMode s port.val != 0 then modFab s port.val fun x => { x with pauseRx := x.pauseRx + 1 } else s

/-- The up sub-ports of a die. -/
def upSubs (s : State) (die : Nat) : List (Nat × Nat) :=
  ((rangeFrom (6 * die) (6 * die + 6)).flatMap fun p => (List.range 4).map fun b => (p, b)).filter fun r => isUp s r.1 r.2

/-- Sends a PFC frame with these quanta for each enabled PCP on every up sub-port of a die (R277). -/
def pfcSend (s : State) (die quanta : Nat) : State :=
  let frames := (upSubs s die).flatMap fun r => (pfcPcps s).map fun pcp => (4 * r.1 + r.2, pcp, quanta)
  { s with net := { s.net with pfcOut := s.net.pfcOut ++ frames } }

/-- BUFFER_XOFF (R277): XOFF below 8 MiB free, quanta 0 once 16 MiB are free again. -/
def execBufferXoff (die : Fin 2) (s : State) : Out :=
  .next <|
    let d := die.val
    let free := bufferFree s d
    let on := (tabGet s.net.xoff d).isSome
    if !s.running || (pfcPcps s).isEmpty then s
    else if !on && decide (free < 8388608) then pfcSend { s with net := { s.net with xoff := tabSet s.net.xoff d (now s) } } d 65535
    else if on && decide (16777216 ≤ free) then pfcSend { s with net := { s.net with xoff := tabDel s.net.xoff d } } d 0
    else s

/-- The repeat interval of XOFF on a die: 32,768 quanta at the rate of its fastest up sub-port. -/
def xoffInterval (s : State) (die : Nat) : Nat :=
  match (upSubs s die).map fun r => quantaTicks (pPortMode s r.1) 32768 with
  | [] => quantaTicks 1 32768
  | t :: l => foldState (fun n x => min n x) t l

/-- XOFF_REPEAT (R277). -/
def execXoffRepeat (die : Fin 2) (s : State) : Out :=
  .next <|
    match tabGet s.net.xoff die.val with
    | none => s
    | some t =>
      if s.running && decide (bufferFree s die.val < 8388608) && elapsed s t (xoffInterval s die.val) then
        pfcSend { s with net := { s.net with xoff := tabSet s.net.xoff die.val (now s) } } die.val 65535
      else s

end Sys2Proof.Machine
end

