-- ==== Sys2Proof/Machine/Schedule.lean ====
section
/-!
DEFINITION. Machine/Schedule.lean: command queues and the outcome log (R302 to R305, R310, R315, R420), the admission
schedulers (R351 to R359) and the gate lists (R364 to R367).
-/

namespace Sys2Proof.Machine

/-! ### Command queues (R304, R315) -/

/-- Whether mixed mode accepts v1 descriptors (R134). -/
def pMixed (s : State) : Bool := fld s 0x1010 0 0 == 1

def qEnabled (q : CmdQueue) : Bool := bitOf 29 q.bind.toNat
def qAny (q : CmdQueue) : Bool := bitOf 28 q.bind.toNat
def qSrc (q : CmdQueue) : Nat := bitsOf 15 0 q.bind.toNat
def qTenant (q : CmdQueue) : Nat := bitsOf 27 16 q.bind.toNat

/-- Whether a queue takes a command (R304). -/
def queueTakes (s : State) (c : Command) : Bool :=
  let q := queueOf s c.desc.queue
  qEnabled q && (qAny q || (qSrc q == c.src.num && qTenant q == c.tenant))

/-- A QBIND write takes effect once the queue holds no waiting command; its completion count becomes 0 (R304, R311). -/
def applyBind (s : State) (n : Nat) : State :=
  let q := queueOf s n
  match q.bindNext with
  | none => s
  | some w =>
    if q.waiting.isEmpty && q.blocked.isNone then modQueue s n fun q => { q with bind := w, bindNext := none, count := 0 } else s

/-- A write of QBIND (R315): its reserved bits are not stored. -/
def writeBind (s : State) (n : Nat) (value : Word32) : State :=
  applyBind (modQueue s n fun q => { q with bindNext := some (value &&& 0x3FFFFFFF) }) n

/-- QBIND_WRITE (R304). -/
def execQbindWrite (queue : Fin 1024) (value : Word32) (s : State) : Out :=
  .next (regEnter s (0x21000 + 16 * queue.val) fun s => writeBind s queue.val value)

/-! ### Arrival (R304) -/

/-- Whether a completion under R327 reports a newer epoch. -/
def noteBehind (s : State) (c : Command) (r : Reply) : State :=
  if r.status = .busyRetry ∧ epochOf s < c.desc.epoch then reportAll s 5 .ok (nodeId s) c.desc.epoch 0 0 else s

/-- Answers a command that its checks stopped, and records its outcome where R131 has one and its bucket has room. -/
def refuse (s : State) (c : Command) (r : Reply) : State := answer (settleNew (noteBehind s c r) c r.status) c r

/-- The live entry of a key in the outcome log (R302). -/
def loggedOutcome (s : State) (k : CmdKey) : Option Outcome :=
  s.outcomes.find? fun o => o.key == k && (o.status.isNone || !elapsed s o.since o.retain)

/-- Puts a command among the admitted ones. -/
def putLive (s : State) (c : Command) : State :=
  { s with exec := { s.exec with live := s.exec.live ++ [{ cmd := c, since := now s, epoch := epochOf s }] } }

/-- Whether a command is of the Ledger. -/
def isLedger : Body → Bool
  | .ledgerRead _ _ _ _ => true
  | .ledgerWrite _ _ _ _ => true
  | .ledgerRelease _ _ _ => true
  | .ledgerPublish _ _ => true
  | .ledgerRecall _ _ _ _ => true
  | _ => false

/-- Whether a command is a fast read (R420). -/
def isFastRead (s : State) (c : Command) : Bool :=
  (match c.desc.body with
    | .ledgerRead 0 _ 1 _ => true
    | _ => false)
  && (queueOf s c.desc.queue).waiting.isEmpty
  && !(s.exec.live.any fun l => l.cmd.desc.queue == c.desc.queue && isLedger l.cmd.desc.body)
  && !((admItems s).any fun i => i.cmd.desc.queue == c.desc.queue && isLedger i.cmd.desc.body)
where
  /-- Every command in the admission queues of both dies. -/
  admItems (s : State) : List AdmItem :=
    (s.sched.w.queues.flatMap fun e => e.2.items) ++ (s.sched.e.queues.flatMap fun e => e.2.items)

/-- The checks that a command meets at admission, and for a fast read at its arrival (R11, R302, R304): its in-progress
entry, the verdicts up to REFUSED_FIT, then the descriptor, then the bucket. -/
def admitOne (s : State) (c : Command) : State :=
  let k := cmdKey c
  if s.fault.fenced then turnAway .fenced s c
  else match loggedOutcome s k with
    | some o => if o.status.isNone then s else answerDup s c
    | none =>
      match openOutcome s k with
      | some s1 =>
        match judge s1 c with
        | some r => refuse s1 c r
        | none => if descFits s1 c then putLive s1 c else refuse s1 c { status := .refusedFit }
      | none =>
        let busy := { s with net := { s.net with outcomeBusy := s.net.outcomeBusy + 1 } }
        match judge s c with
        | some r => answer (noteBehind busy c r) c r
        | none => answer busy c { status := if descFits s c then .busyRetry else .refusedFit }

/-! ### Admission queues (R351 to R355) -/

def admOf (s : State) (die : Nat) : AdmDie := if die = 0 then s.sched.w else s.sched.e

def modAdm (s : State) (die : Nat) (f : AdmDie → AdmDie) : State :=
  if die = 0 then { s with sched := { s.sched with w := f s.sched.w } } else { s with sched := { s.sched with e := f s.sched.e } }

/-- Whether a command waits in the system queue (R352). -/
def toSystem (c : Command) : Bool :=
  c.chainedFrom.isSome || isGuest c.desc.body || (c.sys && c.desc.seqZero)

/-- The (tenant, class) of a command (R352, R408): the class is the stored one of its sequence; the handle's own flags count
only in the command that creates the sequence (R48). -/
def admPair (s : State) (c : Command) : Nat × Nat :=
  if c.desc.seqZero then (c.tenant, pSeqzClass s)
  else (c.desc.seq.tenant, match seqOf s c.desc.seq.id with
    | some x => x.handle.cls
    | none => c.desc.seq.cls)

/-- The admission queue of a command on a die (R351): the bound queue of its pair, a free bound queue, or the shared queue
of its class. -/
def admQueueNo (s : State) (die : Nat) (c : Command) : Nat :=
  if toSystem c then 0
  else
    let p := admPair s c
    let qs := (admOf s die).queues
    match qs.find? fun e => e.2.bound == some p with
    | some e => e.1
    | none =>
      let busy := (qs.filter fun e => e.2.bound.isSome).map Prod.fst
      match (rangeFrom 9 (10 + busy.length)).find? fun n => decide (n < 1024) && !busy.contains n with
      | some n => n
      | none => 1 + p.2

/-- The page indices of a node's local range that overlap a range of positions (R355). -/
def localPages (x : Seq) (lo hi : Nat) : Nat :=
  let a := max lo x.tokenBase
  let b := min hi x.tokenLimit
  if x.p = 0 ∨ b ≤ a then 0 else (b - 1 - x.tokenBase) / x.p + 1 - (a - x.tokenBase) / x.p

/-- The cost of a command in page visits (R355). -/
def admCost (s : State) (c : Command) : Nat :=
  let attn := fun (a : AttnDesc) => match seqOf s c.desc.seq.id with
    | none => 1
    | some x => a.headCount * ceilDiv (a.qtok * a.group) 64 * localPages x a.kvStart a.kvEnd
  max 1 (match c.desc.body with
    | .attnFwd a => attn a
    | .attnBwd a _ _ => attn a
    | .append tb _ ntok _ _ => match seqOf s c.desc.seq.id with
      | none => 1
      | some x => tbTensors tb * ceilDiv ntok (max 1 x.p)
    | _ => 1)

/-- A command enters an admission queue (R351, R355, R357, R369). -/
def admEnter (s : State) (die : Nat) (c : Command) : State :=
  let n := admQueueNo s die c
  let d := admOf s die
  let smp := sampledNo s d.entered
  let x := tabGetD d.queues n {}
  let s1 := if smp then histAdd s false false die n x.items.length else s
  let it : AdmItem := { cmd := c, cost := admCost s c, arrived := now s, sampled := smp }
  let x1 : AdmQueue := { x with items := x.items ++ [it], bound := if 9 ≤ n then some (admPair s c) else x.bound,
                                deficit := if x.items.isEmpty then 0 else x.deficit }
  modAdm s1 die fun d =>
    { d with queues := tabSet d.queues n x1, entered := d.entered + 1,
             active := if d.active.contains n then d.active else d.active ++ [n],
             turn := if d.active.contains n || d.turn.isEmpty then d.turn else d.turn ++ [n] }

/-- Pool places in use on a die: chained commands take none (R354). -/
def admPlaces (s : State) (die : Nat) : Nat := ((admCommands (admOf s die)).filter fun c => c.chainedFrom.isNone).length

/-- Where the commands of a command queue wait for their release: die and admission queue. -/
def waitPlaces (s : State) (q : Nat) : List (Nat × Nat) :=
  [0, 1].flatMap fun die => (admOf s die).queues.flatMap fun e =>
    (e.2.items.filter fun i => i.cmd.chainedFrom.isNone && i.cmd.desc.queue == q).map fun _ => (die, e.1)

def isQwait : Body → Bool
  | .qwait _ _ _ => true
  | _ => false

/-- The command at the head of a command queue enters its admission queue if R310, R353 and R354 let it. -/
def leaveQueue (q : Nat) (s : State) : State :=
  let x := queueOf s q
  match x.waiting with
  | [] => s
  | c :: rest =>
    let at_ := (c.die, admQueueNo s c.die c)
    if x.blocked.isSome || isQwait c.desc.body || decide (16384 ≤ admPlaces s c.die)
        || (waitPlaces s q).any fun p => p != at_ then s
    else applyBind (admEnter (modQueue s q fun y => { y with waiting := rest }) c.die c) q

/-- Moves what can leave every command queue, and held chained commands into a free place of their store (R353, R354). -/
def drainQueues (s : State) : State :=
  let s1 := foldState (fun s c =>
    if ((admCommands (admOf s c.die)).filter fun c => c.chainedFrom.isSome).length < 4096 then
      admEnter { s with comp := { s.comp with chainStore := s.comp.chainStore.filter fun y => cmdKey y != cmdKey c } } c.die c
    else s) s s.comp.chainStore
  foldState (fun s q => iter (leaveQueue q) (queueOf s q).waiting.length s) s1 (tabKeys s1.queues fun q => !q.waiting.isEmpty)

/-! ### COMMAND_ARRIVAL -/

/-- Takes a delivered message out of the inbox. -/
def takeDelivery (s : State) (m : Inbound) : State :=
  match takeFirst (fun d => d.msg == m) s.net.inbox with
  | none => s
  | some (_, rest) => { s with net := { s.net with inbox := rest } }

/-- What a delivered command meets (R11, R284, R302, R304, R420). -/
def arrive (s : State) (c : Command) : State :=
  let a := replyKey c
  if genRetired s a c.keygen then answerRetired s c
  else if s.fault.fenced then turnAway .fenced s c
  else match loggedOutcome s (cmdKey c) with
    | some o => if o.status.isNone then s else answerDup s c
    | none =>
      match judge s c with
      | some r => refuse s c r
      | none =>
        if !queueTakes s c then refuse s c { status := .refusedFit }
        else if isFastRead s c then admitOne s c
        else if 256 ≤ (queueOf s c.desc.queue).waiting.length then
          (if descFits s c then answer s c { status := .busyRetry } else refuse s c { status := .refusedFit })
        else drainQueues (modQueue s c.desc.queue fun q => { q with waiting := q.waiting ++ [c] })

/-- A v1 APPEND names no format, so it takes that of its sequence (R135). -/
def withFormat (s : State) (c : Command) : Command :=
  match c.desc.v1, c.desc.body, seqOf s c.desc.seq.id with
  | true, .append tb cr n _ pos, some x => { c with desc := { c.desc with body := .append tb cr n x.format pos } }
  | _, _, _ => c

/-- COMMAND_ARRIVAL (R304): of a COMMAND message; any other message is not of this row. -/
def execCommandArrival (m : Inbound) (s : State) : Out :=
  .next <| if !s.running || msgKind m.bytes != 1 then s else arrive (takeDelivery s m) (withFormat s (commandOf (pMixed s) m))

/-- OUTCOME_EXPIRY (R302). -/
def execOutcomeExpiry (key : CmdKey) (s : State) : Out :=
  .next <|
    match findOutcome s key with
    | none => s
    | some o => if s.running && o.status.isSome && elapsed s o.since o.retain then dropOutcome s key else s

/-! ### QWAIT (R310) -/

/-- What R310 refuses. -/
def qwaitFits (s : State) (c : Command) (waitQueue : Nat) : Bool :=
  let q := queueOf s c.desc.queue
  let w := queueOf s waitQueue
  c.desc.seqZero && qEnabled w && (if qAny q then qAny w else !qAny w && qTenant w == qTenant q)

/-- QWAIT (R310): the command at the head of its command queue, once every earlier one has been admitted. -/
def execQwait (c : Command) (s : State) : Out :=
  .next <|
    let n := c.desc.queue
    let q := queueOf s n
    match c.desc.body with
    | .qwait w count timeout =>
      if !s.running || q.waiting.head? != some c || q.blocked.isSome || !(waitPlaces s n).isEmpty then s
      else
        let s1 := modQueue s n fun q => { q with waiting := q.waiting.tail }
        let k := cmdKey c
        let done := fun (s : State) => drainQueues (applyBind s n)
        if s1.fault.fenced then done (turnAway .fenced s1 c)
        else match loggedOutcome s1 k with
          | some o => done (if o.status.isNone then s1 else answerDup s1 c)
          | none =>
            match openOutcome s1 k with
            | none => done (admitOne s1 c)
            | some s2 =>
              match judgeEpoch s2 c.desc with
              | some r => done (refuse s2 c r)
              | none =>
                if !(descFits s2 c && qwaitFits s2 c w) then done (refuse s2 c { status := .refusedFit })
                else if count ≤ (queueOf s2 w).count then done (complete s2 c { status := .ok })
                else
                  let b : Qwait := { cmd := c, waitQueue := w, count := count, timeout := timeout, since := now s2 }
                  modQueue s2 n fun q => { q with blocked := some b }
    | _ => s

/-! ### ADMIT (R356 to R358) -/

/-- The class of an admission queue, none for the system queue. -/
def admClass (n : Nat) (q : AdmQueue) : Option Nat :=
  if n = 0 then none else if n < 9 then some (n - 1) else q.bound.map Prod.snd

/-- The quantum of an admission queue (R356). -/
def admQuantum (s : State) (n : Nat) (q : AdmQueue) : Nat :=
  match admClass n q with
  | none => pSysQuantum s
  | some c => if n < 9 then pAdmQuantum s c else pAdmQuantum s c * tabGetD s.sched.weights ((q.bound.map Prod.fst).getD 0) 1

/-- The deficits of a die's queues as the round robin keeps them. -/
def admDrr (d : AdmDie) : Drr :=
  { active := d.active, turn := d.turn, deficit := d.queues.map fun e => (e.1, e.2.deficit), vtime := d.vtime }

def withAdmDrr (d : AdmDie) (r : Drr) : AdmDie :=
  { d with active := r.active, turn := r.turn, vtime := r.vtime,
           queues := d.queues.map fun e => (e.1, { e.2 with deficit := tabGetD r.deficit e.1 0 }) }

def admAsk (s : State) (die : Nat) (d : AdmDie) : DrrAsk :=
  { cost := fun n => ((tabGetD d.queues n {}).items.head?.map fun i => i.cost).getD 0
    quantum := fun n => admQuantum s n (tabGetD d.queues n {})
    ok := fun n => let q := tabGetD d.queues n {}
      !q.items.isEmpty && (match admClass n q with
        | none => true
        | some c => gateOpen s die c) }

/-- Whether a die's plan stage has reached a limit (R141): it holds every attention command released to it that has not
completed, planned or not. -/
def planFull (s : State) (die : Nat) : Bool :=
  let attn := fun (b : Body) => match b with
    | .attnFwd _ => true
    | .attnBwd _ _ _ => true
    | _ => false
  decide (256 ≤ (s.exec.live.filter fun l => l.cmd.die == die && !l.executed && attn l.cmd.desc.body).length)
    || decide (65536 ≤ dieLoad s die)

/-- A released command enters execution (R132, R326, R359): a chained one under its originating source. The sequence's
LAST_ACCESS becomes this tick, and the prefetch of an attention command starts (R228). -/
def admitCommand (s : State) (c : Command) : State :=
  let s1 := match c.chainedFrom with
    | none => admitOne s c
    | some p =>
      if s.fault.fenced then s
      else match loggedOutcome s (cmdKey c) with
        | some o => if o.status.isNone then s else sendControl s (.node p) (chainAckMsg c.src.num (epochOf s) c.desc.reqId .dup)
        | none => match openOutcome s (cmdKey c) with
          | some s1 => putLive s1 c
          | none => { s with comp := { s.comp with chainStore := s.comp.chainStore ++ [c] } }
  if isLive s1 c then
    let s2 := if c.desc.seqZero then s1 else modSeq s1 c.desc.seq.id fun x => { x with lastAccess := now s1 }
    match c.desc.body with
    | .attnFwd _ => prefetch s2 c
    | .attnBwd _ _ _ => prefetch s2 c
    | _ => s2
  else s1

/-- The head `i` of admission queue `q` of a die leaves it at the round robin's decision `r` (R356, R357, R369): the release is
counted, and a sampled command gives its delay. -/
def releaseHead (s : State) (die q : Nat) (r : Drr) (i : AdmItem) (rest : List AdmItem) : State :=
  let x := tabGetD (admOf s die).queues q {}
  let delay := now s - i.arrived
  let x1 : AdmQueue := { x with items := rest, bound := if rest.isEmpty then none else x.bound,
                                sample := (if i.sampled then delay else x.sample) }
  let s1 := modAdm s die fun d => withAdmDrr { d with queues := tabSet d.queues q x1, admitted := d.admitted + 1, busyAt := now s }
    (drrTake r q i.cost rest.isEmpty)
  if i.sampled then histAdd s1 false true die q delay else s1

/-- Notes whether a die's plan stage stands at a limit of R141 (R358). -/
def noteFull (s : State) (die : Nat) : State :=
  if (admOf s die).held = planFull s die then s else modAdm s die fun d => { d with held := planFull s die }

/-- The round robin of a die releases one command (R356 to R358). -/
def admitStep (s : State) (n : Nat) : State :=
  let s0 := drainQueues s
  let d := admOf s0 n
  if planFull s0 n then s0
  else match drrNext (admAsk s0 n d) (admDrr d) with
    | (none, _) => s0
    | (some q, r) =>
      match (tabGetD d.queues q {}).items with
      | [] => s0
      | i :: rest =>
        let s1 := releaseHead s0 n q r i rest
        drainQueues (admitCommand (if i.cmd.sys then s1 else bump s1 i.cmd.tenant 0 1) i.cmd)

/-- ADMIT (R356 to R358). -/
def execAdmission (die : Fin 2) (s : State) : Out :=
  .next <| whileRunning s fun _ => noteFull (admitStep s die.val) die.val

/-- PLAN_VISITS (R141): the turn of one command of the die. Where the plan stage has dropped below the limit that it stood at, a
releasable command is released first (R358). -/
def execPlanVisits (die : Fin 2) (s : State) : Out :=
  .next <| whileRunning s fun _ =>
    let due := (admOf s die.val).held && !planFull s die.val
    noteFull (planTurnOf (if due then admitStep s die.val else s) die.val) die.val

/-- HIST_CLEAR (R371). -/
def histClear (s : State) : State := { s with sched := { s.sched with hist := [] } }

def execHistClear (s : State) : Out := .next (regEnter s 0x40068 histClear)

/-! ### Gate lists (R364 to R367) -/

/-- The offset of a gate unit's registers (R372). -/
def gateBase (u : Nat) : Nat := 0x40100 + 32 * u

/-- Whether a pending list is armed at a map epoch. -/
def pendAtEpoch (s : State) (u : Nat) : Bool := fld s (gateBase u + 8) 2 2 == 1

/-- The counter value at which a pending list takes over. -/
def pendAt (s : State) (u : Nat) : Nat := rd s (gateBase u + 12) + 4294967296 * rd s (gateBase u + 16)

/-- The pending list becomes the active list and starts at entry 0 now (R365). -/
def takeOver (s : State) (u : Nat) : State :=
  let len := max 1 (fld s (gateBase u + 8) 14 8)
  modGate s u fun g =>
    let list := (List.range len).map fun i => tabGetD g.pend i {}
    { g with list := list, entry := 0, entryEnd := now s + (list.getD 0 {}).ticks, pend := [], armed := false }

/-- PEND_ARM (R365, R366): only while GATE_RT is 1; a counter value in the past takes over at once. -/
def pendArm (s : State) (u : Nat) : State :=
  if !pGateRt s || (gateOf s u).armed then s
  else
    let s1 := modGate s u fun g => { g with armed := true }
    if !pendAtEpoch s1 u && decide (pendAt s1 u ≤ now s1) then takeOver s1 u else s1

def execPendArm (unit : Fin 14) (s : State) : Out := .next (regEnter s (gateBase unit.val + 8) fun s => pendArm s unit.val)

/-- PEND_DISARM (R367). -/
def pendDisarm (s : State) (u : Nat) : State := modGate s u fun g => { g with armed := false }

def execPendDisarm (unit : Fin 14) (s : State) : Out := .next (regEnter s (gateBase unit.val + 8) fun s => pendDisarm s unit.val)

/-- Whether an armed counter value has been reached. -/
def takeoverDue (s : State) (u : Nat) : Bool := (gateOf s u).armed && !pendAtEpoch s u && decide (pendAt s u ≤ now s)

/-- GATE_TAKEOVER (R365): at a counter value; at a map epoch the takeover is part of the map's installation. -/
def execGateTakeover (unit : Fin 14) (s : State) : Out :=
  .next <| if s.running && takeoverDue s unit.val then takeOver s unit.val else s

/-- The running entry of a unit ends (R364, R367): the next entry opens its classes; a takeover at the same tick goes
first. -/
def gateEnds (s : State) (u : Nat) : State :=
  let g := gateOf s u
  if takeoverDue s u then takeOver s u
  else if !pGateEn s u || g.list.isEmpty || decide (now s < g.entryEnd) then s
  else
    let e := if g.entry + 1 < g.list.length then g.entry + 1 else 0
    modGate s u fun g => { g with entry := e, entryEnd := g.entryEnd + (g.list.getD e {}).ticks }

/-- GATE_ENTRY_END (R364, R367). -/
def execGateEntryEnd (unit : Fin 14) (s : State) : Out :=
  .next <|
    let u := unit.val
    let g := gateOf s u
    if !s.running || !pGateEn s u || g.list.isEmpty || decide (now s < g.entryEnd) then s else gateEnds s u

/-- Step 3 of R326 for the gates (R365): the lists armed at an epoch that the installed map has reached take over. -/
def gatesAtEpoch (s : State) : State :=
  foldState (fun s u =>
    if (gateOf s u).armed && pendAtEpoch s u && decide (rd s (gateBase u + 12) ≤ epochOf s) then takeOver s u else s) s
    (List.range 14)

end Sys2Proof.Machine
end

