-- ==== Sys2Proof/Machine/Reset.lean ====
section
/-!
DEFINITION. Machine/Reset.lean: the soft reset (R470, R471, R482) as one operation, and what readmission releases (R330).
-/

namespace Sys2Proof.Machine

/-! ### Fences checked again (R22, R41, R471, R482) -/

/-- Modules of the bridge that are not retired (R22). -/
def bridgeWorking (s : State) : Nat :=
  16 - (s.time.bridge.filter fun e => e.2.retired).length

/-- The effective severity of a source (R479). -/
def effSeverity (s : State) (n : Nat) : Nat := if (srcOf s n).escalated then 3 else pSeverity s n

/-- The sources that raise a level line (R476). -/
def levelSource (n : Nat) : Bool := [6, 7, 10, 11, 15, 24, 28, 57, 59].contains n

/-- A level source whose line is high and whose effective severity includes FENCE (R482); source 59 is the fence itself. -/
def fencingLevel (s : State) : Option Nat :=
  (List.range 64).find? fun n =>
    levelSource n && n != 59 && (srcOf s n).level && effSeverity s n != 0 && bitOf 3 (pSevAction s (effSeverity s n))

/-- Ends every fence and fences again for each cause that still holds; without a map the node answers FENCED (R471). -/
def refence (s : State) : State :=
  let safe := s.fault.cause == 7
  let inc := s.fault.fenceInc
  let s1 := endFence s
  let s2 := if safe then fenceNode s1 7 255
    else if s1.time.bridgeFenced || decide (bridgeWorking s1 < 12) then fenceNode s1 2 7
    else if s1.time.backup then fenceNode s1 3 6
    else match fencingLevel s1 with
      | some n => fenceNode s1 1 n
      | none => fenceNode s1 6 255
  { s2 with fault := { s2.fault with fenceInc := inc } }

/-! ### Work that a soft reset ends (R471) -/

/-- Takes a command out without a completion; its entry in the outcome log goes too. -/
def forget (s : State) (c : Command) : State := dropOutcome (dropLive s (cmdKey c)) (cmdKey c)

/-- Step 1: what waits is discarded without completion, a QWAIT that holds its queue too. -/
def discardWaiting (s : State) : State :=
  let held := s.queues.filterMap fun e => e.2.blocked.map fun b => b.cmd
  let s1 := foldState forget (clearWaiting s) held
  let s2 := { s1 with queues := s1.queues.map fun e => (e.1, { e.2 with blocked := none }) }
  foldState applyBind s2 (s2.queues.map Prod.fst)

/-- The commands of step 2: attention commands and GRAD_DRAIN reads. -/
def cancelled : Body → Bool
  | .attnFwd _ => true
  | .attnBwd _ _ _ => true
  | .gradDrain release _ _ _ _ _ _ _ => !release
  | _ => false

/-- Ends the work of an attention command: its visits and adds end, and its pins are released. -/
def dropWork (s : State) (k : CmdKey) : State :=
  let s1 := dropVisits s fun v => v.key == k
  let adds := (s1.exec.contribs.filter fun a => a.key == k).map fun a => a.id
  let s2 := foldState (fun s i => dropItem s (.add i)) s1 adds
  let pins := (s2.exec.plans.filter fun p => p.key == k).flatMap fun p => p.pins
  let s3 := foldState (fun s i => unpin s i.lpn) s2 pins
  { s3 with exec := { s3.exec with
    plans := s3.exec.plans.filter (fun p => p.key != k), planTurn := s3.exec.planTurn.filter (· != k),
    contribs := s3.exec.contribs.filter (fun a => a.key != k), windows := s3.exec.windows.filter fun w => w.key != k } }

/-- Cancels one command of step 2: no record leaves. -/
def cancelOne (s : State) (c : Command) : State := forget (dropWork s (cmdKey c)) c

/-- The copies that this node runs stop: their pins are released (R339). -/
def stopCopies (s : State) (which : CopyOut → Bool) : State :=
  let gone := s.comp.copies.filter which
  let s1 := foldState unpin s (gone.flatMap fun c => c.pins)
  { s1 with comp := { s1.comp with copies := s1.comp.copies.filter fun c => !which c } }

/-- Step 5: every direction rolls, and the miss buffers are empty. -/
def rollAll (s : State) : State :=
  let s1 := foldState rollDirection s (s.net.ctxs.map fun c => c.key)
  { s1 with net := { s1.net with miss := [] } }

/-- Step 4: merge groups close without output. -/
def closeMerges (s : State) : State :=
  let cs := (s.exec.mergeW.groups ++ s.exec.mergeE.groups).map fun g => g.cmd
  let clear := fun (m : MergeDie) => { m with groups := [], early := [] }
  foldState forget { s with exec := { s.exec with mergeW := clear s.exec.mergeW, mergeE := clear s.exec.mergeE } } cs

/-- The installed map and the lease are discarded (R471 step 6); the node remembers the incarnation that its last map gave
(R473). -/
def dropMap (s : State) : State :=
  let inc := match s.comp.map with
    | none => s.fault.fenceInc
    | some _ => incarnationOf s
  { s with comp := { s.comp with map := none, prevMap := none, oldEpoch := none, leaseSince := none, barriers := [],
                                 resetPending := none, copyIns := [], targets := [], watch := [] }
           fault := { s.fault with fenceInc := inc } }

/-- Step 3: a PARK that a command runs stops at a frame boundary (R87), without completion: the sequence stays PARKING, with the
streams that are encoded. -/
def haltPark (s : State) (j : ParkJob) : State :=
  let s1 := dropObjTransfers (dropIo (dropHalf (parkAnswers s j) j.seq) (ioOf j.seq)) j.seq
  modPark s1 j.seq fun i => { i with keys := [], reqs := [], halted := true, object := if i.localDone then i.object else 0 }

/-- Step 3: a WAKE that a command runs stops at a frame boundary (R87), without completion: the sequence stays WAKING, with the
frames that are restored. -/
def haltWake (s : State) (j : WakeJob) : State :=
  let s1 := dropObjTransfers (dropIo s (ioOf j.seq)) j.seq
  modWake s1 j.seq fun i => { i with keys := [], reqs := [], also := none, halted := true }

/-- Step 3 of R471: the PARKs and WAKEs that commands run stop (log entry 99); one that the node runs of itself goes on, without the
commands that had joined it. -/
def haltJobs (s : State) : State :=
  let keys := (s.mem.parks.flatMap fun j => j.keys) ++ s.mem.wakes.flatMap fun j => j.keys
  let cs := (s.exec.live.map fun l => l.cmd).filter fun c => keys.contains (cmdKey c)
  let s1 := foldState haltPark s (s.mem.parks.filter fun j => !j.keys.isEmpty && !j.preempt)
  let s2 := foldState haltWake s1 (s1.mem.wakes.filter fun j => !j.keys.isEmpty)
  foldState forget { s2 with mem := { s2.mem with parks := s2.mem.parks.map fun j => { j with keys := [] } } } cs

/-- Soft reset (R471). Before READY it is ignored. -/
def softReset (s : State) : State :=
  if !s.boot.ready then s
  else
    let s1 := discardChained (discardWaiting s)
    let s2 := foldState cancelOne s1 ((s1.exec.live.map fun l => l.cmd).filter fun c => cancelled c.desc.body)
    let s3 := rollAll (ledgerEndGrants (closeMerges (haltJobs s2)))
    let s4 := { s3 with mail := { s3.mail with cur := [], done := false, fifo := [], skip := false, k2h := [], mapBuf := [],
                                               mapTotal := 0 } }
    refence (dropMap (stopCopies (prefixClear s4) fun _ => true))

/-! ### Readmission (R330, R387, R422, R473) -/

/-- Ends the jobs of a sequence: its PARK, WAKE and re-protection, and their I/O. -/
def endJobs (s : State) (q : SeqId) : State :=
  completeKeys (stopJobs s q) (jobKeys s q) .fenced

/-- Releases every object of the cartridge in a port (R263, R330). -/
def releasePort (s : State) (p : Nat) : State :=
  let n := (portOf s p).objects.length
  iter (fun s => deallocate s p) n (modPort s p fun c => { c with objects := [] })

/-- Releases every sequence and every local parked object, ends every grant and clears the prefix index; guest objects
stay. -/
def releaseAll (s : State) : State :=
  let s1 := foldState (fun s w => forget s w.cmd) s s.comp.waits
  let s2 := { s1 with comp := { s1.comp with waits := [] } }
  let qs := s2.mem.seqs.map Prod.fst
  let s3 := foldState (fun s q => tenantAbsent (removeSeq (endJobs s q) q) q.tenant) s2 qs
  let away := s3.mem.carts.map fun (e : Nat × CartRec) => (e.1, { e.2 with objects := [], stale := e.2.stale + e.2.objects.length })
  let s4 := foldState releasePort { s3 with mem := { s3.mem with carts := away } } [0, 1]
  ledgerEndGrants (prefixClear s4)

end Sys2Proof.Machine
end

