-- ==== Sys2Proof/Machine/Compose.lean ====
section
/-!
DEFINITION. Machine/Compose.lean: installing a map (R325 to R328, R332), the lease and the fence it brings (R329, R330), the
replication chain (R334 to R338), the failure detector (R341) and the operations of the global tree (R343, R344, R472).
-/

namespace Sys2Proof.Machine

/-! ### Delivered CONTROL messages -/

/-- Takes the first delivered message of a KIND from an endpoint out of the inbox. -/
def takeKind (s : State) (src : Endpoint) (kind : Nat) : State :=
  match takeFirst (fun d => d.kind == kind && d.msg.src == src) s.net.inbox with
  | none => s
  | some (_, rest) => { s with net := { s.net with inbox := rest } }

/-- Takes a delivered message of a KIND that only nodes send; one from an adapter is discarded and counted (R347). -/
def takeNode (s : State) (src : Endpoint) (kind : Nat) : State :=
  let s0 := takeKind s src kind
  match src with
  | .node _ => s0
  | .adapter _ => discard s0

/-- The node that an endpoint is. -/
def asNode : Endpoint → Option Nat
  | .node n => some n
  | .adapter _ => none

/-! ### What a map takes from a sequence (R323, R332) -/

/-- Gives a sequence another list of local heads: its tensors, leaf pointers, gradient entries and refills keep their
(layer, head); a tensor without a place in the new list is dropped. -/
def reshape (s : State) (q : SeqId) (heads : List Nat) : State :=
  match seqOf s q with
  | none => s
  | some x =>
    let n := x.localHeads.length
    let y := { x with localHeads := heads }
    let move := fun (t : Nat) => if n = 0 then none else (x.localHeads[t % n]?).bind fun h => tensorIdx y (t / n) h
    let tensors := foldState (fun (m : Tab Tensor) e => match move e.1 with
      | some t => tabSet m t e.2
      | none => m) [] x.tensors
    let leafs := foldState (fun (m : Tab Nat) e => match move (e.1 / max 1 x.leaves) with
      | some t => tabSet m (t * x.leaves + e.1 % max 1 x.leaves) e.2
      | none => m) [] x.leafPtr
    let grads := foldState (fun (m : Tab (Nat × Nat)) e => match move e.1 with
      | some t => tabSet m t e.2
      | none => m) [] x.gradSum
    let s1 := setSeq s q { y with tensors := tensors, leafPtr := leafs, gradSum := grads }
    let gmap := s1.mem.grads.filterMap fun g => if g.seq = q then (move g.tensor).map fun t => { g with tensor := t } else some g
    let rmap := s1.mem.refills.filterMap fun r => if r.1 = q then (move r.2).map fun t => (q, t) else some r
    { s1 with mem := { s1.mem with grads := gmap, refills := rmap, xlat := s1.mem.xlat.filter fun l => l.seq != q } }

/-- The local heads of a sequence that the installed map still assigns to this node, none where its range has changed. -/
def keptHeads (s : State) (q : SeqId) (x : Seq) : List Nat :=
  match assignment s q x with
  | none => []
  | some (heads, base, limit) =>
    if base = x.tokenBase ∧ limit = x.tokenLimit then x.localHeads.filter heads.contains else []

/-- The tensors that a list of heads leaves out. -/
def tensorsNotOf (x : Seq) (heads : List Nat) : List Nat :=
  (List.range (tensorCount x)).filter fun t =>
    match x.localHeads[t % max 1 x.localHeads.length]? with
    | some h => !heads.contains h
    | none => false

/-- Every frame that some sequence still holds under the installed map. -/
def heldFrames (s : State) : List Nat :=
  s.mem.seqs.flatMap fun e =>
    let gone := tensorsNotOf e.2 (keptHeads s e.1 e.2)
    ((allPages s e.2).filter fun p => !gone.contains p.1).map fun p => p.2.2.lpn

/-- Step 4 of R326: marks as STUB the LIVE frames of the tensors that the map no longer assigns (R332); ALT is the joiner's
handle where one was copied. -/
def markStubs (s : State) : State :=
  let held := heldFrames s
  foldState (fun s e =>
    let gone := tensorsNotOf e.2 (keptHeads s e.1 e.2)
    foldState (fun s p =>
      let lpn := p.2.2.lpn
      if (frameOf s lpn).state == .live && gone.contains p.1 && !held.contains lpn then
        let t := s.comp.targets.find? fun t => t.seq == e.1 && t.tensor == p.1 && t.page == p.2.1
        modFrame s lpn fun f => { f with state := .stub, fwd := t.map fun t => t.handle }
      else s) s (allPages s e.2)) s s.mem.seqs

/-- Drops the tensors of a sequence that the map no longer assigns: their frames and gradient frames are let go, their leaf
blocks and reserves released (R80, R180); a sequence without a tensor goes (R332). -/
def dropUnassigned (s : State) (q : SeqId) : State :=
  match seqOf s q with
  | none => s
  | some x =>
    let keep := keptHeads s q x
    let gone := tensorsNotOf x keep
    if gone.isEmpty then s
    else if keep.isEmpty then tenantAbsent (removeSeq s q) q.tenant
    else
      let pages := (allPages s x).filter fun p => gone.contains p.1
      let s1 := foldState (fun s p => decRef s p.2.2.lpn) s pages
      let s2 := foldState (fun s t => dropReserve s q t) s1 gone
      let blocks := (x.leafPtr.filter fun e => gone.contains (e.1 / max 1 x.leaves)).map fun e => e.2
      let s3 := foldState (fun s b => freeBlocks { s with mem := { s.mem with leafs := tabDel s.mem.leafs b } } b) s2 blocks
      let grads := (s3.mem.grads.filter fun g => g.seq == q && gone.contains g.tensor).flatMap fun g => g.frames
      reshape (foldState decRef s3 grads) q keep

/-- The grace window ends (R327, R332, R80). -/
def endGrace (s : State) : State :=
  let s1 := foldState dropUnassigned s (s.mem.seqs.map Prod.fst)
  { s1 with comp := { s1.comp with prevMap := none, oldEpoch := none, targets := [] } }

/-- GRACE_END (R327). -/
def execGraceEnd (s : State) : Out :=
  .next <| if s.running && s.comp.prevMap.isSome && elapsed s s.comp.graceSince (pGrace s) then endGrace s else s

/-! ### Chains after a map (R337, R338) -/

/-- Where this node stands in a chain of the sequence under the installed map for a command that it executed: after its
predecessor, or at the head (none inside), as a promoted replica does (R132, R334); none where it has left the chain (R336). -/
def chainPlace (s : State) (c : Command) (repl : Nat) : Option (Option Nat) :=
  match s.comp.map with
  | none => none
  | some m =>
    let q := c.desc.seq.id
    let l := layoutOf m q
    let head := (List.range l.cells.length).any fun i => (cellAt l i).node0 == some m.node
    match c.chainedFrom with
    | none => if head then some none else none
    | some p =>
      if precedes m q repl p then some (some p)
      else if head then some none
      else (l.cells.findSome? fun e => (chainOf e repl).find? fun n => nextIn (chainOf e repl) n == some m.node).map some

/-- Whether this node stands in a chain of the sequence under the installed map. -/
def standsInChain (s : State) (c : Command) (repl : Nat) : Bool := (chainPlace s c repl).isSome

/-- A command that waits for its chain has all its acknowledgements: it completes with the worst status, where DUP confirms
(R132, R335). A node that has left the chain completes none (R336). -/
def settleWait (s : State) (w : ChainWait) : State :=
  if standsInChain s w.cmd (replOf s w.cmd.desc) && w.legs.all fun l => l.status.isSome then
    let st := worst (w.status :: w.legs.filterMap fun l => l.status)
    complete { s with comp := { s.comp with waits := s.comp.waits.filter fun x => x.key != w.key } } w.cmd { status := st }
  else s

/-- Replaces a waiting command's entry. -/
def putWait (s : State) (w : ChainWait) : State :=
  { s with comp := { s.comp with waits := s.comp.waits.map fun x => if x.key = w.key then w else x } }

/-- Forwards a waiting command along the chain of the new map (R337): to new successors, and again to one that answered
STALE_MAP. -/
def aimWait (s : State) (w : ChainWait) : State :=
  let repl := replOf s w.cmd.desc
  let from_ := (chainPlace s w.cmd repl).getD w.cmd.chainedFrom
  let legs := (chainLegs s { w.cmd with chainedFrom := from_ } repl).map fun l =>
    match w.legs.find? fun o => o.node == l.node with
    | some o => if o.retry then l else o
    | none => l
  let fresh := legs.filter fun l => l.sentAt.isSome && w.legs.all fun o => o.node != l.node || o.retry
  let s1 := putWait s { w with legs := legs }
  let s2 := foldState (fun s l => sendChain s w.cmd l.node l.epoch) s1 fresh
  settleWait s2 { w with legs := legs }

/-! ### Contexts and incarnations (R297, R298) -/

def incOf (m : Option FMap) (e : Endpoint) : Option Nat := (m.bind fun m => entryOf m e).map fun x => x.incarnation

/-- A context starts anew where the incarnation of one of its endpoints has changed: its keys are other keys. Messages of
which nothing has been sent stay queued. -/
def renewContexts (s : State) (old : Option FMap) (ownNew : Bool) : State :=
  let stale := fun (c : PeerCtx) => ownNew || incOf old c.key.peer != incOf s.comp.map c.key.peer
  let fresh := fun (c : PeerCtx) => ({ key := c.key, txCredit := pCreditInit s, cached := c.cached && !c.lost, backed := false,
                                       txQueue := c.txQueue.filter fun m => m.sent == 0, used := c.used } : PeerCtx)
  let gone := s.net.ctxs.filter stale
  if old.isNone then s
  else
    { s with net := { s.net with
      ctxs := s.net.ctxs.map fun c => if stale c then fresh c else c
      miss := s.net.miss.filter fun e => gone.all fun c => c.key != assocOf e.2
      pctx := if ownNew && s.net.pctx == 3 then 1 else s.net.pctx }
             comp := { s.comp with needIncarnation := s.comp.needIncarnation && !ownNew } }

/-! ### Joining copies after a map (R339) -/

/-- The heads of a cell's head group. -/
def cellHeads (l : Layout) (i kvHeads : Nat) : List Nat := (List.range kvHeads).filter fun h => headGroup l h == i / max 1 l.t

/-- The catch-up copies that the installed map asks of this node: layout, cell and joiner. -/
def joinCells (m : FMap) : List (Nat × Nat × Nat) :=
  (List.range m.layouts.length).flatMap fun li =>
    let l := m.layouts.getD li {}
    (List.range l.cells.length).filterMap fun i =>
      let c := cellAt l i
      match c.join with
      | some j => if c.joinFrom = some m.node then some (li, i, j) else none
      | none => none

/-- Starts the copies that are new, stops those that the map no longer names, and keeps the others (R339, R349). -/
def aimCopies (s : State) : State :=
  match s.comp.map with
  | none => s
  | some m =>
    let want := joinCells m
    let s1 := stopCopies s fun c => !c.wake && !want.contains (c.layout, c.cell, c.joiner)
    let have_ := s1.comp.copies.map fun c => (c.layout, c.cell, c.joiner)
    let new := (want.filter fun w => !have_.contains w).map fun (li, i, j) =>
      let l := m.layouts.getD li {}
      let todo := (s1.mem.seqs.filter fun e => layoutNo m e.1 == li && e.2.localHeads.any (cellHeads l i e.2.kvHeads).contains)
      ({ cell := i, layout := li, joiner := j, todo := todo.map Prod.fst } : CopyOut)
    { s1 with comp := { s1.comp with copies := s1.comp.copies ++ new } }

/-- A joiner whose copy the map no longer names releases the sequences it held only for that cell (R339). -/
def dropJoins (s : State) : State :=
  foldState (fun s c =>
    let named := match s.comp.map with
      | none => false
      | some m => let l := layoutOf m c.seq
        l.cells.any fun x => x.join == some m.node && x.joinFrom == some c.source
    if named then s
    else
      let s1 := { s with comp := { s.comp with copyIns := s.comp.copyIns.filter fun x => x.seq != c.seq } }
      match seqOf s1 c.seq with
      | none => s1
      | some x => if (keptHeads s1 c.seq x).isEmpty then tenantAbsent (removeSeq s1 c.seq) c.seq.tenant else s1) s s.comp.copyIns

/-! ### MAP (R325, R326, R328, R330, R473) -/

/-- The watch list of the map, with what the detector knows of the peers that stay (R341). -/
def watchList (s : State) (m : FMap) : List Watched :=
  m.watch.map fun n => (s.comp.watch.find? fun w => w.node == n).getD { node := n }

/-- A map is refused (R325): a record names the check, and source 61 rises. -/
def refuseMap (s : State) (bytes : List Byte) (check : Nat) : State :=
  raise (caskNote s 0x31 (fieldBytes bytes ++ le 1 check ++ slice bytes 0x40 16)) { source := 61 }
where
  /-- The EPOCH of the map as its header spells it. -/
  fieldBytes (b : List Byte) : List Byte := slice b 8 4

/-- The failing row of R325 for a map, 0 for none: the first map after a reset skips the check on PREV_EPOCH, but its EPOCH
exceeds the last one installed (R330, R473). -/
def judgeMap (s : State) (m : FMap) : Nat :=
  let r := mapCheck m (s.comp.map.map fun x => x.epoch) (s.comp.map.map fun x => x.node) (fun p => pPortMode s p == 0)
  if (r = 0 ∨ 2 < r) ∧ m.epoch ≤ s.comp.lastEpoch then 2 else r

/-- A PARK in progress whose partner the map no longer lists goes on with the map's next partner (R267); one without a partner
takes the one that the map now names. -/
def parkPartner (s : State) (m : FMap) (j : ParkJob) : State :=
  let gone := match j.partner with
    | some n => (nodeEntry m n).all fun e => e.state != 1
    | none => true
  match partnerOf s with
  | none => s
  | some n =>
    if !gone || j.partner == some n then s
    else
      let s1 := modSeq (modPark s j.seq fun i => { i with partner := some n, reqs := [] }) j.seq fun x =>
        { x with parkRef := x.parkRef.map fun r => { r with partner := n } }
      if j.sent && !j.halted then parkRemote s1 j.seq else s1

/-- Starts a protection for every parked sequence whose parked copy's partner the map no longer lists (R264), and gives the
PARKs in progress their next partner (R267). -/
def protectLost (s : State) (m : FMap) : State :=
  let lost := (s.mem.seqs.filter fun e => e.2.state == .parked && match e.2.parkRef with
    | some r => (nodeEntry m r.partner).isNone
    | none => false).map Prod.fst
  foldState (fun s j => parkPartner s m j) (protectDue s false lost) s.mem.parks

/-- The global operations that a new map abandons are reported (R343). DESIGN CHOICE (log entry 54): as STEP_DONE with the
OP_ID and the status STALE_MAP. -/
def reportOpen (s : State) (open_ : List Barrier) : State :=
  foldState (fun s b => reportAll s 4 .staleMap (nodeId s) b.treeEpoch b.opId 0) s open_

/-- The switch of R326 step 3 and what follows it in the step. -/
def switchMap (s : State) (m : FMap) : State :=
  let old := s.comp.map
  let entry := nodeEntry m m.node
  let active := (entry.map fun e => e.state == 1).getD false
  let inc := (entry.map fun e => e.incarnation).getD 0
  let s0 := if old.isSome then endGrace s else s
  let readmit := s0.fault.fenced && (s0.fault.cause == 4 || s0.fault.cause == 5) && active && decide (s0.fault.fenceInc < inc)
  let again := old.isNone && decide (0 < s0.comp.lastEpoch) && inc != s0.fault.fenceInc
  let s1 := if readmit || again then releaseAll s0 else s0
  let oldEpoch := match old with
    | none => none
    | some o => if m.prev = o.epoch then some o.epoch else none
  let s2 := { s1 with comp := { s1.comp with map := some m, prevMap := old, oldEpoch := oldEpoch, lastEpoch := m.epoch,
                                             graceSince := now s, barriers := [], resetPending := none, watch := watchList s1 m } }
  let s3 := if readmit || (s2.fault.fenced && s2.fault.cause == 6) then endFence s2 else s2
  let ownNew := old.isSome && incOf old (.node m.node) != some inc
  let s4 := renewContexts s3 old ownNew
  let s5 := markStubs s4
  let s6 := if old.isNone then endGrace s5 else s5
  let dead := (allHolders s6).filter fun e => match entryOf m e with
    | some x => x.state != 1
    | none => true
  let s7 := foldState declareDead s6 dead
  let s8 := dropJoins (aimCopies s7)
  let s9 := gatesAtEpoch (protectLost s8 m)
  let s10 := reportOpen (foldState aimWait s9 s9.comp.waits) (s.comp.barriers ++ s.comp.resetPending.toList)
  if active then { s10 with comp := { s10.comp with leaseSince := if s10.fault.fenced then none else some (now s) } }
  else fenceNode { s10 with comp := { s10.comp with leaseSince := none } } 4 255

/-- Checks and installs a map (R325, R326): the state, and the STATUS of the MAP_ACK. -/
def installMap (s : State) (bytes : List Byte) : State × Status :=
  if s.fault.fenced && s.fault.cause == 7 then (refuseMap s bytes 0, .refusedFit)
  else match parseMap bytes with
    | none => (refuseMap s bytes 1, .refusedFit)
    | some m =>
      if s.comp.map.any fun x => x.epoch == m.epoch then
        if s.comp.map.any fun x => x.digest == m.digest then (s, .ok) else (refuseMap s bytes 1, .refusedFit)
      else
        let r := judgeMap s m
        if r ≠ 0 then (refuseMap s bytes r, .refusedFit)
        else
          let s1 := switchMap s m
          (s1, if s1.fault.fenced then .fenced else .ok)

/-- MAP (R326): only from a COMPOSER adapter (R347). -/
def execMap (m : Inbound) (s : State) : Out :=
  .next <|
    if !s.running then s
    else
      let s0 := takeDelivery s m
      if !m.sys || !isComposer s0 m.src then discard s0
      else
        let b := m.bytes.drop 8
        let r := installMap s0 b
        sendControl r.1 m.src (mapAckMsg (fieldLe b 8 4) (epochOf r.1) r.2)

/-! ### Lease (R329, R330) -/

/-- A renewal that names the installed epoch restarts the lease while it runs. -/
def renewLease (s : State) (epoch : Nat) : State :=
  if s.comp.map.any (fun m => m.epoch == epoch) && s.comp.leaseSince.isSome then
    { s with comp := { s.comp with leaseSince := some (now s) } }
  else s

/-- RENEW (R329). -/
def execRenew (src : Endpoint) (epoch : Nat) (s : State) : Out :=
  .next <|
    if !s.running then s
    else
      let s0 := takeKind s src 0x12
      if isComposer s0 src then renewLease s0 epoch else discard s0

/-- LEASE_EXPIRY (R329): the node fences itself; its work on PARK and WAKE stops (R349). -/
def execLeaseExpiry (s : State) : Out :=
  .next <|
    match s.comp.leaseSince with
    | none => s
    | some t =>
      if s.running && elapsed s t (pLease s) then
        let s1 := fenceNode { s with comp := { s.comp with leaseSince := none } } 5 255
        foldState endJobs s1 (s1.mem.parks.map (fun j => j.seq) ++ s1.mem.wakes.map fun j => j.seq)
      else s

/-! ### Chains (R335 to R338) -/

/-- Whether this node holds a generation of a tenant, current or previous (R335, R441). -/
def holdsGen (s : State) (tenant g : Nat) : Bool := genKnown s { peer := .node 0, tenant := tenant } g

/-- The command that a CHAIN message carries. -/
def chainedCommand (m : Inbound) (from_ : Nat) : Option Command :=
  (endpointOf (fieldLe m.bytes 8 2)).map fun origin =>
    let d := parseDesc false (slice m.bytes 0x18 64)
    { src := origin, tenant := d.seq.tenant, keygen := fieldLe m.bytes 0x0A 1, port := m.port, sub := m.sub, die := m.die,
      chainedFrom := some from_, chainHop := fieldLe m.bytes 0x0B 1,
      desc := { d with reqId := fieldLe m.bytes 0x10 6 }, payload := m.bytes.drop 0x58 }

/-- A chained command waits in the system queue, or in message memory while the store of 4,096 places is full (R354). -/
def chainEnter (s : State) (c : Command) : State :=
  drainQueues { s with comp := { s.comp with chainStore := s.comp.chainStore ++ [c] } }

/-- CHAIN (R335 to R337). -/
def execChain (m : Inbound) (s : State) : Out :=
  .next <|
    if !s.running then s
    else
      let s0 := takeDelivery s m
      match asNode m.src with
      | none => discard s0
      | some p =>
        match chainedCommand m p with
        | none => discard s0
        | some c =>
          let q := c.desc.seq.id
          let ack := fun (st : Status) => sendControl s0 m.src (chainAckMsg c.src.num (epochOf s0) c.desc.reqId st)
          if !m.sys then discard s0
          else if s0.fault.fenced then s0
          else if ackStatus s0 c p .ok != .ok then ack .staleMap
          else if (tenantOf s0 q.tenant).state != 1 then ack .keyRetired
          else if !holdsGen s0 q.tenant c.keygen || s0.comp.heldChains.any fun h => h.cmd.desc.seq.id == q then
            { s0 with comp := { s0.comp with heldChains := s0.comp.heldChains ++ [{ cmd := c, since := now s0 }] } }
          else chainEnter s0 c

/-- CHAIN_RETRY (R337): the oldest held command of its sequence runs again, or enters admission once its key is held. -/
def execChainRetry (key : CmdKey) (s : State) : Out :=
  .next <|
    match s.comp.heldChains.find? fun h => cmdKey h.cmd == key with
    | none => s
    | some h =>
      let q := h.cmd.desc.seq.id
      let first := (s.comp.heldChains.find? fun x => x.cmd.desc.seq.id == q).map fun x => cmdKey x.cmd
      if !s.running || s.fault.fenced || first != some key || !holdsGen s q.tenant h.cmd.keygen then s
      else
        let s1 := { s with comp := { s.comp with heldChains := s.comp.heldChains.filter fun x => cmdKey x.cmd != key } }
        if (liveOf s1 key).isSome then modLive s1 key fun l => { l with since := now s1 } else chainEnter s1 h.cmd

/-- CHAIN_ACK (R335): passed back, or the command completes to its source. STALE_MAP waits for the next map (R336). -/
def execChainAck (src origin : Endpoint) (originReq epoch : Nat) (status : Status) (s : State) : Out :=
  .next <|
    if !s.running then s
    else
      let s0 := takeNode s src 0x16
      match asNode src, s0.comp.waits.find? fun w => w.key == ⟨origin, originReq⟩ with
      | some n, some w =>
        let st := if status = .dup then .ok else status
        let put := fun (l : ChainLeg) =>
          if l.node ≠ n ∨ l.status.isSome = true ∨ epoch = 0 then l
          else if status = .staleMap then { l with retry := true } else { l with status := some st, retry := false }
        let w1 := { w with legs := w.legs.map put }
        settleWait (putWait s0 w1) w1
      | _, _ => s0

/-- CHAIN_TIMEOUT (R337): CHAIN_STUCK is reported once, and the CHAIN is sent again unchanged. -/
def execChainTimeout (key : CmdKey) (s : State) : Out :=
  .next <|
    match s.comp.waits.find? fun w => w.key == key with
    | none => s
    | some w =>
      let late := fun (l : ChainLeg) => l.status.isNone && !l.retry && (match l.sentAt with
        | some t => elapsed s t (pChainTimeout s)
        | none => false)
      match w.legs.find? late with
      | none => s
      | some l =>
        if !s.running then s
        else
          let li := (s.comp.map.map fun m => layoutNo m w.cmd.desc.seq.id).getD 0
          let s1 := if w.stuck then s
            else raise (reportAll s 7 .ok l.node (epochOf s) (li + 65536 * l.cell) 0) { source := 58 }
          let again := fun (x : ChainLeg) => if x.node = l.node then { x with sentAt := some (now s) } else x
          sendChain (putWait s1 { w with stuck := true, legs := w.legs.map again }) w.cmd l.node l.epoch

/-! ### Failure detector (R341) -/

/-- HEARTBEAT (R341). -/
def execHeartbeat (src : Endpoint) (_epoch : Nat) (s : State) : Out :=
  .next <| if s.running then heard (takeNode s src 0x13) (sysKey src) else s

/-- What one firing finds of a watched peer. -/
def detectOne (s : State) (w : Watched) : State :=
  let n := w.node
  let put := fun (s : State) (w1 : Watched) =>
    { s with comp := { s.comp with watch := s.comp.watch.map fun x => if x.node = n then w1 else x } }
  let s0 := if !w.sysSent && !s.fault.fenced then sendControl s (.node n) (heartbeatMsg (epochOf s)) else s
  let w0 := { w with heard := false, sysSent := false }
  if w.heard then
    if w.suspected && 1 ≤ w.good then
      reportAll (put s0 { w0 with misses := 0, suspected := false, good := 0 }) 2 .ok n (epochOf s) 0 0
    else put s0 { w0 with misses := 0, good := if w.suspected then w.good + 1 else 0 }
  else
    let s1 := put s0 { w0 with misses := w.misses + 1, good := 0 }
    if pMisses s ≤ w.misses + 1 then suspect s1 n 0 else s1

/-- The detector's comparator fires (R341): every watched peer is judged, and the next firing is HB_PERIOD later. -/
def detectorFires (s : State) : State :=
  foldState detectOne { s with comp := { s.comp with detNext := s.comp.detNext + pHbPeriod s } } s.comp.watch

/-- DETECTOR_FIRING (R341). -/
def execDetectorFiring (s : State) : Out :=
  .next <| if !s.running || !pDetEn s || decide (now s < s.comp.detNext) then s else detectorFires s

/-! ### The global tree (R343, R344, R472) -/

/-- The installed map, where an operation of this tree epoch is valid and this node stands in the tree. -/
def treeOf (s : State) (treeEpoch : Nat) : Option FMap :=
  match s.comp.map with
  | none => none
  | some m => if m.epoch = treeEpoch ∧ (treeNodes m).contains m.node = true then some m else none

/-- Sends a GLOBAL message to every child. -/
def toChildren (s : State) (m : FMap) (msg : List Byte) : State :=
  foldState (fun s n => sendControl s (.node n) msg) s (treeChildren m)

/-- A barrier at this node arrives once its condition holds and every child has arrived; index 0 lets the release fall and
answers the starter (R344). -/
def barrierTry (s : State) (m : FMap) (b : Barrier) : State :=
  let put := fun (s : State) (b : Barrier) =>
    { s with comp := { s.comp with barriers := (s.comp.barriers.filter fun x => x.opId != b.opId) ++ [b] } }
  if b.arrived || decide (m.epoch < b.arg) || !(treeChildren m).all b.children.contains then put s b
  else match treeParent m with
    | some p => sendControl (put s { b with arrived := true }) (.node p) (globalMsg 1 b.what b.treeEpoch b.opId b.arg)
    | none =>
      let rel := globalMsg 2 b.what b.treeEpoch b.opId b.arg
      let s1 := toChildren { s with comp := { s.comp with barriers := s.comp.barriers.filter fun x => x.opId != b.opId } } m rel
      match b.starter with
      | some e => sendControl s1 e rel
      | none => s1

/-- A fabric reset once every child has arrived: the node arrives at its parent, or answers its starter, and resets
(R472). -/
def resetTry (s : State) (m : FMap) (b : Barrier) : State :=
  let put := { s with comp := { s.comp with resetPending := some b } }
  if !(treeChildren m).all b.children.contains then put
  else
    let s1 := match treeParent m, b.starter with
      | some p, _ => sendControl s (.node p) (globalMsg 1 b.what b.treeEpoch b.opId b.arg)
      | none, some e => sendControl s e (globalMsg 2 b.what b.treeEpoch b.opId b.arg)
      | none, none => s
    softReset { s1 with comp := { s1.comp with resetPending := none } }

/-- BARRIER_ARRIVE (R344): from a child, an arrival; from the parent, or from a COMPOSER adapter at index 0, the start, which
passes to the children. -/
def execBarrierArrive (src : Endpoint) (treeEpoch opId arg : Nat) (s : State) : Out :=
  .next <|
    if !s.running then s
    else
      let s0 := takeKind s src 0x1A
      match treeOf s0 treeEpoch with
      | none => s0
      | some m =>
        let b := (s0.comp.barriers.find? fun x => x.opId == opId).getD { treeEpoch := treeEpoch, opId := opId, arg := arg, what := 1 }
        match asNode src, s0.comp.resetPending with
        | some n, some r =>
          if r.opId = opId ∧ (treeChildren m).contains n = true then resetTry s0 m { r with children := n :: r.children } else s0
        | some n, none =>
          if (treeChildren m).contains n then barrierTry s0 m { b with children := n :: b.children.filter (· != n) }
          else if treeParent m = some n then barrierTry (toChildren s0 m (globalMsg 1 1 treeEpoch opId arg)) m b
          else discard s0
        | none, _ =>
          if isComposer s0 src && (treeParent m).isNone then
            barrierTry (toChildren s0 m (globalMsg 1 1 treeEpoch opId arg)) m { b with starter := some src }
          else discard s0

/-- BARRIER_RELEASE (R344): falls down the tree and ends the barrier. -/
def execBarrierRelease (src : Endpoint) (treeEpoch opId : Nat) (s : State) : Out :=
  .next <|
    if !s.running then s
    else
      let s0 := takeKind s src 0x1A
      match treeOf s0 treeEpoch, s0.comp.barriers.find? fun x => x.opId == opId with
      | some m, some b =>
        if asNode src = treeParent m ∧ (asNode src).isSome = true then
          toChildren { s0 with comp := { s0.comp with barriers := s0.comp.barriers.filter fun x => x.opId != opId } } m
            (globalMsg 2 b.what treeEpoch opId b.arg)
        else discard s0
      | _, _ => s0

/-- BROADCAST (R344, R472): forwarded to the children and acted on: 1 RENEW, 2 soft reset. Index 0 answers its starter. -/
def execBroadcast (src : Endpoint) (what treeEpoch opId arg : Nat) (s : State) : Out :=
  .next <|
    if !s.running then s
    else
      let s0 := takeKind s src 0x1A
      match treeOf s0 treeEpoch with
      | none => s0
      | some m =>
        let ok := match asNode src with
          | some n => treeParent m == some n
          | none => isComposer s0 src && (treeParent m).isNone
        if !ok then discard s0
        else
          let starter := if (asNode src).isNone then some src else none
          let s1 := toChildren s0 m (globalMsg 3 what treeEpoch opId arg)
          if what = 2 then
            if s1.comp.resetPending.isSome then s1
            else resetTry s1 m { treeEpoch := treeEpoch, opId := opId, arg := arg, what := 2, starter := starter }
          else
            let s2 := if what = 1 then renewLease s1 arg else s1
            match starter with
            | some e => sendControl s2 e (globalMsg 2 what treeEpoch opId arg)
            | none => s2

end Sys2Proof.Machine
end

