-- ==== Sys2Proof/Machine/Copy.lean ====
section
/-!
DEFINITION. Machine/Copy.lean: the catch-up copy of a cell and the rebuild of a woken replica (R334, R339, R340), and the
composer's STEPs over guest objects (R345, R346).
-/

namespace Sys2Proof.Machine

/-! ### The sender's side (R339, R340) -/

/-- COPY_RATE in GB/s (R350). -/
def pCopyRate (s : State) : Nat := fld s 0x1130 9 0

def isCopy (c d : CopyOut) : Bool := c.layout == d.layout && c.cell == d.cell && c.joiner == d.joiner && c.wake == d.wake

def putCopy (s : State) (c : CopyOut) : State :=
  { s with comp := { s.comp with copies := s.comp.copies.map fun d => if isCopy c d then c else d } }

/-- The tensors that a copy carries: those of its cell, or all of them for a woken replica. -/
def copyTensors (s : State) (c : CopyOut) (x : Seq) : List Nat :=
  let l := (s.comp.map.map fun m => m.layouts.getD c.layout {}).getD {}
  let heads := cellHeads l c.cell x.kvHeads
  (List.range (tensorCount x)).filter fun t => c.wake || match x.localHeads[t % max 1 x.localHeads.length]? with
    | some h => heads.contains h
    | none => false

/-- Sends a COPY message at the rate of R339: the next one waits until COPY_RATE allows it. -/
def sendCopy (s : State) (joiner : Nat) (bytes : List Byte) : State :=
  let free := max (now s) s.comp.copyFree + ceilDiv bytes.length (10 * max 1 (pCopyRate s))
  sendMsg { s with comp := { s.comp with copyFree := free } } (sysKey (.node joiner)) .copy (pCopyClass s) none bytes

/-- Whether a sequence stands at a place of its modifying order (R128): no modifying command of it is half done. -/
def atCopyPoint (s : State) (q : SeqId) (x : Seq) : Bool :=
  (x.state == .active || x.state == .parked) && s.exec.live.all fun l => !modifies l.cmd q || !l.begun || l.executed

/-- Step 1 and 2 of R339: the frames are pinned and COPY BEGIN leaves. -/
def copyStart (s : State) (c : CopyOut) (q : SeqId) (x : Seq) : State :=
  let ts := copyTensors s c x
  let pages := (allPages s x).filter fun p => ts.contains p.1
  let pins := (pages.map fun p => p.2.2.lpn).eraseDups
  let s1 := foldState (fun s n => modFrame s n fun f => { f with pins := f.pins + 1 }) s pins
  let c1 := { c with todo := c.todo.filter (· != q), current := some q, waitPart := some 0, pins := pins, sent := [],
                     sentNow := [], resent := [], frames := pages.map fun p => (p.1, p.2.1, p.2.2.lpn) }
  let entries := (ts.map fun t => encodeTensor { tensorOf x t with reserve := none, want := false }).flatten
  sendCopy (putCopy s1 c1) c.joiner
    (copyHead 0x17 0 (epochOf s) x.handle.num ts.length ++ encodeSeq x pages.length ++ entries)

/-- The full CRC of a frame that is copied out (R206): a mismatch poisons it. -/
def copyOutCheck (s : State) (lpn : Nat) : State :=
  let n := frameChan s lpn
  let r := checkFails s 3 n (pageCrc s lpn != sCrc s lpn)
  if r.1 then poisonFrame r.2.2 lpn else r.2.2

/-- Sends one entry of COPY FRAMES. -/
def sendFrameCopy (s : State) (c : CopyOut) (x : Seq) (f : Nat × Nat × Nat) (rest : List (Nat × Nat × Nat)) (isRef : Bool) : State :=
  let e : CopyEntry := { handle := handleOf s f.2.2, tensor := f.1, page := f.2.1, isRef := isRef,
                         image := if isRef then [] else imgBytes s f.2.2 0 imageBytes }
  sendCopy (putCopy s { c with frames := rest, waitPart := some 1, sentNow := [f] }) c.joiner
    (copyFramesMsg (epochOf s) x.handle.num [e])

/-- Step 3 of R339 for one frame: the image, or a reference where the frame has been sent already. The image is read once the
frame is not IN_FLUX (R55); its words and its CRC are checked (R203, R206). A frame of a lower tier without a slot is read from
its extent (log entry 30). -/
def copyFrame (s : State) (c : CopyOut) (x : Seq) (f : Nat × Nat × Nat) (rest : List (Nat × Nat × Nat)) (errs : List WordErr) : State :=
  if c.sent.contains f.2.2 then sendFrameCopy s c x f rest true
  else if (frameOf s f.2.2).inFlux then s
  else whenMemory s [homeOf s f.2.2] (.frame f.2.2) 576 fun _ =>
    sendFrameCopy (copyOutCheck (checkWords s 1 f.2.2 errs).2 f.2.2) c x f rest false

/-- The next part of a copy. -/
def copyNext (s : State) (c : CopyOut) (q : SeqId) (errs : List WordErr) : State :=
  match seqOf s q with
  | none =>
    let s1 := foldState unpin s c.pins
    putCopy s1 { c with todo := c.todo.filter (· != q), current := none, waitPart := none, frames := [], pins := [], done := c.done }
  | some x =>
    if c.current.isNone then (if atCopyPoint s q x then copyStart s c q x else s)
    else if c.waitPart.isSome then s
    else match c.frames with
      | f :: rest => copyFrame s c x f rest errs
      | [] => sendCopy (putCopy s { c with waitPart := some 2 }) c.joiner (copyHead 0x17 2 (epochOf s) x.handle.num 0)

/-- COPY_NEXT (R339): JOIN_FROM sends the next part of the copy of a sequence within COPY_RATE; `errs` are the word errors of
the frame that it reads. -/
def execCopyNext (seq : SeqId) (cell : Nat) (s : State) (errs : List WordErr := []) : Out :=
  .next <|
    let due := fun (c : CopyOut) => c.cell == cell && (c.current == some seq || (c.current.isNone && c.todo.contains seq))
    match s.comp.copies.find? due with
    | none => s
    | some c => if !s.running || s.fault.fenced || decide (now s < s.comp.copyFree) then s else copyNext s c seq errs

/-- A copy of a sequence starts again: its pins are released and it waits in the list. -/
def copyAgain (s : State) (c : CopyOut) (q : SeqId) : State :=
  putCopy (foldState unpin s c.pins)
    { c with todo := c.todo ++ [q], current := none, waitPart := none, frames := [], pins := [], sent := [], sentNow := [] }

/-- Sends the commands that waited for a joiner's COPY END (R339). -/
def sendHeldLegs (s : State) (joiner : Nat) (q : SeqId) : State :=
  let mine := fun (w : ChainWait) (l : ChainLeg) => w.cmd.desc.seq.id == q && l.node == joiner && l.sentAt.isNone
  let ws := s.comp.waits.filter fun w => w.legs.any (mine w)
  let stamp := fun (w : ChainWait) => { w with legs := w.legs.map fun l => if mine w l then { l with sentAt := some (now s) } else l }
  let s1 := { s with comp := { s.comp with waits := s.comp.waits.map stamp } }
  foldState (fun s w => sendChain s w.cmd joiner (epochOf s)) s1 ws

/-- The joiner's END is acknowledged: the copy of the sequence is done. -/
def copyEnded (s : State) (c : CopyOut) (q : SeqId) : State :=
  let c1 := { c with current := none, waitPart := none, pins := [], done := c.done ++ [q], sent := [] }
  let s1 := sendHeldLegs (putCopy (foldState unpin s c.pins) c1) c.joiner q
  if c1.wake && c1.todo.isEmpty then { s1 with comp := { s1.comp with copies := s1.comp.copies.filter fun d => !isCopy c1 d } } else s1

/-- What an acknowledgement of FRAMES does: the joiner's handles become stub targets (R332); a failed frame is sent again
once. -/
def framesAcked (s : State) (c : CopyOut) (q : SeqId) (status : Status) (handles : List PageHandle) : State :=
  match status, c.sentNow with
  | .ok, f :: _ =>
    let new := match handles with
      | h :: _ => [{ seq := q, tensor := f.1, page := f.2.1, handle := h : StubTarget }]
      | [] => []
    putCopy { s with comp := { s.comp with targets := s.comp.targets ++ new } }
      { c with waitPart := none, sentNow := [], sent := if c.sent.contains f.2.2 then c.sent else f.2.2 :: c.sent }
  | .poison, f :: _ =>
    putCopy s { c with waitPart := none, sentNow := [], frames := if c.resent.contains f.2.2 then c.frames else f :: c.frames
                       resent := f.2.2 :: c.resent }
  | _, fs => putCopy s { c with waitPart := none, sentNow := [], frames := fs ++ c.frames }

/-- COPY_ACK (R340). -/
def execCopyAck (src : Endpoint) (part epoch : Nat) (seq : SeqId) (status : Status) (handles : List PageHandle) (s : State) : Out :=
  .next <|
    if !s.running then s
    else
      let s0 := takeNode s src 0x18
      match s0.comp.copies.find? fun c => asNode src == some c.joiner && c.current == some seq && c.waitPart == some part with
      | none => s0
      | some c =>
        if s0.fault.fenced || epoch != epochOf s0 then s0
        else if status = .staleMap then copyAgain s0 c seq
        else if part = 1 then framesAcked s0 c seq status handles
        else if status ≠ .ok then copyAgain s0 c seq
        else if part = 0 then putCopy s0 { c with waitPart := none }
        else copyEnded s0 c seq

/-! ### The joiner's side (R339, R340) -/

/-- The heads that a sender's copy may carry: those of the cells whose JOIN is this node and whose JOIN_FROM is the
sender. -/
def joinHeads (s : State) (q : SeqId) (from_ : Nat) (x : Seq) : List (List Nat) :=
  match s.comp.map with
  | none => []
  | some m =>
    let l := layoutOf m q
    (List.range l.cells.length).filterMap fun i =>
      let c := cellAt l i
      if c.join = some m.node ∧ c.joinFrom = some from_ then some ((cellHeads l i x.kvHeads).filter x.localHeads.contains)
      else none

/-- Whether the tensors of some heads hold nothing here yet. -/
def headsEmpty (s : State) (q : SeqId) (heads : List Nat) : Bool :=
  match seqOf s q with
  | none => true
  | some x => heads.all fun h => (List.range x.layers).all fun l => match tensorIdx x l h with
    | some t => (tensorOf x t).endPos == x.tokenBase
    | none => true

/-- The heads whose tensors a COPY BEGIN lists (log entry 30): the first cell of the right size that holds nothing yet. -/
def beginHeads (s : State) (q : SeqId) (from_ count : Nat) (x : Seq) : List Nat :=
  if s.mem.wakes.any fun j => j.seq == q && j.copied then x.localHeads
  else
    let cands := (joinHeads s q from_ x).filter fun hs => x.layers * hs.length == count
    ((cands.find? (headsEmpty s q)).or cands.head?).getD []

/-- Gives a sequence its directory for its present shape (R63). -/
def newDirectory (s : State) (q : SeqId) : Option State :=
  match seqOf s q with
  | none => none
  | some x =>
    let n := directoryBlocks (tensorCount x) x.leaves
    (allocBlocks (if x.dirBlock = 0 then s else freeBlocks s x.dirBlock) n).map fun (b, s1) =>
      setSeq s1 q { x with dirBlock := b, dirBlocks := n }

/-- Creates the sequence of a COPY BEGIN, or extends it to this node's assigned heads (R323, R339). -/
def joinSeq (s : State) (q : SeqId) (x : Seq) (parked : Bool) : Option State :=
  let held := match seqOf s q with
    | some y => y
    | none => { x with state := if parked then .parked else .active, localHeads := [], tensors := [], lastAccess := now s,
                       epoch := epochOf s, depth := pKInit s, parkRef := none, tight := false }
  let s1 := setSeq s q held
  match assignment s q x with
  | none => none
  | some a =>
    let s2 := reshape s1 q a.1
    newDirectory (modSeq s2 q fun y => { y with tokenBase := a.2.1, tokenLimit := a.2.2, leaves := leafCount a.2.1 a.2.2 y.p }) q

/-- Sets the END values that a COPY BEGIN lists, in the order of the sender's tensors. -/
def setEnds (s : State) (q : SeqId) (heads : List Nat) (layers : Nat) (b : List Byte) : State :=
  let pairs := (List.range layers).flatMap fun l => heads.map fun h => (l, h)
  foldState (fun s i =>
    let p := pairs.getD i (0, 0)
    modSeq s q fun y => match tensorIdx y p.1 p.2 with
      | some t => setTensor y t { tensorOf y t with endPos := fieldLe b (16 * i) 4 }
      | none => y) s (List.range pairs.length)

/-- Lets go of what an earlier copy left in the tensors of some heads. -/
def clearHeads (s : State) (q : SeqId) (heads : List Nat) : State :=
  match seqOf s q with
  | none => s
  | some y =>
    let ts := (List.range y.layers).flatMap fun l => heads.filterMap fun h => tensorIdx y l h
    let pages := (allPages s y).filter fun p => ts.contains p.1
    foldState (fun s p => decRef (pageDel s q p.1 p.2.1) p.2.2.lpn) s pages

/-- Whether this node may take a copy of a sequence from a node: as the joiner that the map names, or as a replica that
wakes. -/
def takesCopy (s : State) (q : SeqId) (from_ : Nat) : Bool :=
  match s.comp.map with
  | none => false
  | some m => precedes m q (((seqOf s q).map fun x => x.handle.repl).getD 3) from_

/-- COPY_BEGIN (R339, R340). -/
def execCopyBegin (m : Inbound) (s : State) : Out :=
  .next <|
    if !s.running then s
    else
      let s0 := takeDelivery s m
      let b := m.bytes
      let x := parseSeq (slice b 0x20 1024)
      let q := x.handle.id
      let count := fieldLe b 0x18 4
      match asNode m.src with
      | none => discard s0
      | some n =>
        let ack := fun (s : State) (st : Status) => sendControl s m.src (copyAckMsg 0 (fieldLe b 0x0C 4) x.handle.num st [])
        if !m.sys then discard s0
        else if s0.fault.fenced then s0
        else if fieldLe b 0x0C 4 ≠ epochOf s0 then ack s0 .staleMap
        else
          let heads := beginHeads s0 q n count x
          if !takesCopy s0 q n || (heads.isEmpty && count != 0) then ack s0 .notOwner
          else match joinSeq s0 q x (fieldLe b 0x28 1 == 3) with
            | none => ack s0 .noPage
            | some s1 =>
              let s2 := setEnds (clearHeads s1 q heads) q heads x.layers (b.drop 0x420)
              let ins := s2.comp.copyIns.filter fun i => i.seq != q
              ack { s2 with comp := { s2.comp with copyIns := ins ++ [{ seq := q, source := n, heads := x.localHeads }] } } .ok

/-- This node's tensor for the sender's tensor index. -/
def tensorHere (y : Seq) (heads : List Nat) (t : Nat) : Option Nat :=
  let n := heads.length
  if n = 0 then none else (heads[t % n]?).bind fun h => tensorIdx y (t / n) h

def putIn (s : State) (i : CopyIn) : State :=
  { s with comp := { s.comp with copyIns := s.comp.copyIns.map fun j => if j.seq = i.seq then i else j } }

/-- Writes an image into a new frame under its new generation (R53) and checks its CRC (R206). -/
def installImage (s : State) (lpn : Nat) (image : List Byte) : Bool × State :=
  let s1 := slotFill s (frameOf s lpn).loc (memWriteN 0 [] 0 image)
  let s2 := imgWrite s1 lpn (sideBase + 16) (le 2 (frameOf s1 lpn).gen)
  let n := frameChan s2 lpn
  let r := checkFails s2 3 n (pageCrc s2 lpn != sCrc s2 lpn)
  (r.1, if bitOf 1 (sFlags r.2.2 lpn) then poisonFrame r.2.2 lpn else r.2.2)

/-- Names an installed frame in the page map: NOPAGE, with the frame given back, where no leaf block is free (log entry 90). -/
def copyName (s : State) (q : SeqId) (t page lpn : Nat) : Status × Option PageHandle × State :=
  match pageName s q t page (handleOf s lpn) with
  | some s1 => (.ok, some (handleOf s1 lpn), s1)
  | none => (.noPage, none, decRef s lpn)

/-- Installs one entry of COPY FRAMES: its status, this node's handle, and the state. -/
def copyInOne (s : State) (i : CopyIn) (e : CopyEntry) : Status × Option PageHandle × State :=
  match (seqOf s i.seq).bind fun y => tensorHere y i.heads e.tensor with
  | none => (.ok, none, s)
  | some t =>
    if e.isRef then
      match assoc i.installed e.handle with
      | none => (.internal, none, noteInternal s 0 i.source 0 0 0 0)
      | some lpn => copyName (modFrame s lpn fun f => { f with refcount := f.refcount + 1 }) i.seq t e.page lpn
    else match newFrame s (placeOrder s i.seq.sequence t e.page) .live 1 with
      | none => (.noPage, none, s)
      | some (lpn, s1) =>
        let r := installImage s1 lpn e.image
        if r.1 && !i.failed.contains e.handle then
          (.poison, none, putIn (freeFrame r.2 lpn) { i with failed := e.handle :: i.failed })
        else
          let s2 := if r.1 then poisonFrame r.2 lpn else r.2
          let r1 := copyName s2 i.seq t e.page lpn
          (r1.1, r1.2.1, if r1.1 = .ok then putIn r1.2.2 { i with installed := (e.handle, lpn) :: i.installed } else r1.2.2)

/-- COPY_FRAMES (R206, R340). -/
def execCopyFrames (src : Endpoint) (epoch : Nat) (seq : SeqId) (entries : List CopyEntry) (s : State) : Out :=
  .next <|
    if !s.running then s
    else
      let s0 := takeNode s src 0x17
      match s0.comp.copyIns.find? fun i => i.seq == seq && asNode src == some i.source with
      | none => s0
      | some _ =>
        let num := ((seqOf s0 seq).map fun x => x.handle.num).getD (1048576 * seq.num)
        let ack := fun (s : State) (st : Status) (hs : List PageHandle) => sendControl s src (copyAckMsg 1 epoch num st hs)
        if s0.fault.fenced then s0
        else if epoch ≠ epochOf s0 then ack s0 .staleMap []
        else
          let one := fun (acc : Status × List PageHandle × State) (e : CopyEntry) =>
            match acc.2.2.comp.copyIns.find? fun i => i.seq == seq with
            | none => acc
            | some i =>
              let r := copyInOne acc.2.2 i e
              (acc.1.worse r.1, acc.2.1 ++ [(r.2.1).getD {}], r.2.2)
          let r := entries.foldl one (Status.ok, [], s0)
          ack r.2.2 r.1 r.2.1

/-- Growth reserves for the tensors that a copy filled (R74). -/
def joinReserves (s : State) (q : SeqId) : State :=
  match seqOf s q with
  | none => s
  | some x =>
    if x.state = .parked then s
    else foldState (fun s t =>
      let e := ((seqOf s q).map fun y => tensorOf y t).getD {}
      if wantsReserve x t && e.reserve.isNone && !e.want then wantRefill s q t else s) s (List.range (tensorCount x))

/-- Reports JOINED for the cell of a sequence that this node joins (R339, R348). -/
def reportJoined (s : State) (q : SeqId) (from_ : Nat) : State :=
  match s.comp.map with
  | none => s
  | some m =>
    let l := layoutOf m q
    match (List.range l.cells.length).find? fun i => (cellAt l i).join == some m.node && (cellAt l i).joinFrom == some from_ with
    | none => s
    | some i => reportAll s 3 .ok m.node m.epoch (layoutNo m q + 65536 * i) 0

/-- A woken replica has its frames: it is ACTIVE, answers its chain, and its own successors rebuild (R334). -/
def wakeCopied (s : State) (q : SeqId) (from_ : Nat) (j : WakeJob) : State :=
  let s1 := modSeq s q fun y => { y with state := .active, depth := pKInit s }
  let s2 := { s1 with mem := { s1.mem with wakes := s1.mem.wakes.filter fun i => i.seq != q } }
  let repl := ((seqOf s2 q).map fun x => x.handle.repl).getD 1
  finishKeys (wakeReplicas s2 q repl (some from_)) j.keys .ok

/-- COPY_END (R334, R339). No message says which sequence of a cell is the last, so a free value says whether JOINED is due
(log entry 31). -/
def execCopyEnd (src : Endpoint) (epoch : Nat) (seq : SeqId) (s : State) : Out :=
  .next <|
    if !s.running then s
    else
      let s0 := takeNode s src 0x17
      match s0.comp.copyIns.find? fun i => i.seq == seq && asNode src == some i.source with
      | none => s0
      | some i =>
        let num := ((seqOf s0 seq).map fun x => x.handle.num).getD (1048576 * seq.num)
        if s0.fault.fenced then s0
        else if epoch ≠ epochOf s0 then sendControl s0 src (copyAckMsg 2 epoch num .staleMap [])
        else
          let s1 := { s0 with comp := { s0.comp with copyIns := s0.comp.copyIns.filter fun i => i.seq != seq } }
          let s2 := sendControl (joinReserves s1 seq) src (copyAckMsg 2 epoch num .ok [])
          match s2.mem.wakes.find? fun j => j.seq == seq && j.copied with
          | some j => wakeCopied s2 seq i.source j
          | none =>
            let d := draw s2
            if d.1 % 2 = 1 then reportJoined d.2 seq i.source else d.2

/-! ### STEPs (R345, R346) -/



/-- What R345 decides before a STEP is executed: STALE_MAP, the recorded answer, or REFUSED_FIT. -/
def stepGate (s : State) (dest : Option Nat) (epoch stepId action : Nat) (seq : Option SeqId) (run : Unit → State) : State :=
  if s.fault.fenced then s
  else if epoch ≠ epochOf s then stepAnswer s dest stepId .staleMap
  else match s.comp.steps.find? fun r => r.epoch == epoch && r.stepId == stepId && r.seq == seq && r.action == action with
    | some r => match r.status with
      | some st => stepAnswer s dest stepId st
      | none => s
    | none =>
      if s.comp.steps.any fun r => r.epoch == epoch && r.stepId == stepId && r.action != action then
        stepAnswer s dest stepId .refusedFit
      else run ()

/-- Starts to write an adopted object as this node's own (R346), with PARTNER `partner`: the state of the sequence is checked
first, and a removed tenant's object is refused (R445). The answer is none while the write runs. -/
def adoptObject (s : State) (partner : Nat) (q : SeqId) (object : List Byte) : Option Status × State :=
  let o := parseObject object
  let d := o.1
  let held := seqOf s q
  let done := match held with
    | some x => ((x.parkRef.bind (directoryObject s)).map fun (o : Parked) => o.flushed) == some true
    | none => false
  let fits := match held with
    | some x => x.state == .parked
    | none => d.handle.id == q && assignment s q d == some (d.localHeads, d.tokenBase, d.tokenLimit)
  if (tenantOf s q.tenant).state != 1 then (some .keyRetired, s)
  else if object.length < 1032 then (some .noState, s)
  else if !fits then (some .refusedFit, s)
  else if done then (some .ok, s)
  else if s.mem.nvme.any fun (n : Nvme) => n.why == .adoptWrite q || n.why == .adoptFlush q then (none, s)
  else match choosePort s object.length with
    | none => (some (if canWrite s 0 || canWrite s 1 then .refusedFit else .lifeEnd), s)
    | some p =>
      let x := held.getD { d with state := .parked, epoch := epochOf s, lastAccess := now s, depth := pKInit s }
      (none, (writeObject s p partner (objectOf q 0 { x with tensors := d.tensors } o.2) (.adoptWrite q)).2)

/-- Re-keys one guest object to its sequence's NODE0 and sends it ADOPT. Where that is this node itself, it adopts the object
itself, and then protects it on its own partner (R264, log entry 32). Answers the sequence whose ADOPT is awaited, or else the
status of an adoption that is over. -/
def transferOne (epoch stepId : Nat) (s : State) (g : Guest) : Option SeqId × Status × State :=
  match s.comp.map with
  | none => (none, .ok, s)
  | some m =>
    let d := (parseObject g.bytes).1
    let n := ownerAt m g.seq (d.localHeads.headD 0) d.tokenBase
    if n = m.node then
      let s1 := putGuest (dropGuest s g.origin g.seq) { g with origin := n }
      let r := adoptObject s1 ((partnerOf s).getD g.origin) g.seq g.bytes
      match r.1 with
      | none => (some g.seq, .ok, r.2)
      | some st => (none, st, r.2)
    else
      let s1 := putGuest (dropGuest s g.origin g.seq) { g with origin := n }
      (some g.seq, .ok, sendControl s1 (.node n) (stepMsg epoch stepId 2 m.node d.handle.num))

/-- TRANSFER_GUESTS (R346). -/
def execTransferGuests (src : Endpoint) (epoch stepId arg : Nat) (s : State) : Out :=
  .next <|
    if !s.running then s
    else
      let s0 := takeKind s src 0x19
      if !isComposer s0 src then discard s0
      else stepGate s0 none epoch stepId 1 none fun _ =>
        let gs := s0.mem.guests.filter fun g => g.origin == arg && g.committed
        let r := gs.foldl (fun acc g =>
          let o := transferOne epoch stepId acc.2.2 g
          (acc.1 ++ o.1.toList, acc.2.1.worse o.2.1, o.2.2)) (([] : List SeqId), Status.ok, s0)
        let rec_ : StepRec :=
          { epoch := epoch, stepId := stepId, seq := none, action := 1, arg := arg, waiting := r.1, acc := r.2.1 }
        if r.1.isEmpty then stepAnswer (putStep r.2.2 { rec_ with status := some r.2.1 }) none stepId r.2.1
        else putStep r.2.2 rec_

/-- ADOPT (R346): `object` is what the sender's GUEST_GET answered. -/
def execAdopt (src : Endpoint) (epoch stepId : Nat) (seq : SeqId) (object : List Byte) (s : State) : Out :=
  .next <|
    if !s.running then s
    else
      let s0 := takeKind s src 0x19
      match asNode src with
      | none => discard s0
      | some n => stepGate s0 (some n) epoch stepId 2 (some seq) fun _ =>
        let r := adoptObject s0 n seq object
        let s1 := putStep r.2 { epoch := epoch, stepId := stepId, seq := some seq, action := 2, arg := n, status := r.1 }
        match r.1 with
        | none => s1
        | some st => stepAnswer s1 (some n) stepId st

/-- RELEASE_GUESTS (R264, R346). -/
def execReleaseGuests (src : Endpoint) (epoch stepId arg : Nat) (s : State) : Out :=
  .next <|
    if !s.running then s
    else
      let s0 := takeKind s src 0x19
      if !isComposer s0 src then discard s0
      else stepGate s0 none epoch stepId 3 none fun _ =>
        let gs := s0.mem.guests.filter fun g => g.origin == arg
        let s1 := foldState (fun s (g : Guest) => discardGuest s g.origin g.seq) s0 gs
        let s2 := foldState (fun s g => tenantAbsent s g.seq.tenant) s1 gs
        stepAnswer (putStep s2 { epoch := epoch, stepId := stepId, seq := none, action := 3, arg := arg, status := some .ok })
          none stepId .ok

/-- STEP_DONE_REPORT (R346): an ADOPT has been answered; the last answer completes TRANSFER_GUESTS. -/
def execStepDoneReport (src : Endpoint) (stepId : Nat) (status : Status) (s : State) : Out :=
  .next <|
    if !s.running then s
    else
      let s0 := takeNode s src 0x14
      match asNode src, s0.comp.steps.find? fun r => r.stepId == stepId && r.action == 1 && r.status.isNone && r.epoch == epochOf s0 with
      | some n, some r =>
        match r.waiting.find? fun q => (guestOf s0 n q).isSome with
        | none => s0
        | some q => stepWaited s0 r q status
      | _, _ => s0

end Sys2Proof.Machine
end

