-- ==== Sys2Proof/Machine/Flags.lean ====
section
/-!
DEFINITION. Machine/Flags.lean: the status fields of the register blocks (R46, R47, R214, R215, R241, R253, R269, R313 to
R315, R371, R372, R392, R425, R426, R448, R475, R504, R505, R518, R519, R534, R536 to R538) as the state gives them at this
moment: the RO and RS fields of every location; and the words of a snapshot entry (R510, R539).
-/

namespace Sys2Proof.Machine

/-! ### Packing -/

/-- A 32-bit counter that saturates (R16). -/
def sat32 (n : Nat) : Nat := min cap32 n

/-- Bits [31:0] and [63:32] of a count. -/
def lo32 (n : Nat) : Nat := n % 4294967296
def hi32 (n : Nat) : Nat := n / 4294967296 % 4294967296

/-- Two counts in one snapshot word (R539). -/
def twoCounts (a b : Nat) : Nat := lo32 a + 4294967296 * lo32 b

/-- A word with bit i set where `p i` holds, for i below n. -/
def maskOf (n : Nat) (p : Nat → Bool) : Nat := sumNat ((List.range n).map fun i => flag i (p i))

/-- The 32-bit word at byte 4w of a byte string; zero beyond its end. -/
def wordAt (bs : List Byte) (w : Nat) : Nat := fieldLe bs (4 * w) 4

/-! ### IDENT (R534) -/

def identLive (s : State) (o : Nat) : Nat :=
  match o with
  | 0x00 => 0x5654 + 65536 * 0x0820
  | 0x04 => Config.stepping % 256
  | 0x08 => lo32 Config.romVersion
  | 0x0C => lo32 s.boot.kilnRel
  | 0x10 => lo32 s.boot.mashRel
  | 0x14 => lo32 s.boot.tileRel
  | 0x18 => 12 + 64 * 32 + 12 * 8192 + 8 * 131072 + 2 * 2097152
  | 0x1C => 15
  | 0x20 => nodeId s % 4096 + flag 15 s.comp.map.isSome
  | 0x24 => lo32 (epochOf s)
  | 0x30 => sat32 s.accessErr
  | 0x34 => s.lastErr
  | 0x38 => sat32 s.lockedWr
  | 0x3C => sat32 s.badvalWr
  | _ => 0

/-! ### CONFIG (R475) -/

def configLive (s : State) (o : Nat) : Nat :=
  match o with
  | 0x00 => b2n s.boot.lock
  | 0x04 => s.boot.cfgState + 4 * s.boot.cfgSlot + 16 * s.boot.cfgReason
  | 0x08 => lo32 s.boot.cfgSeq
  | 0x0C => lo32 s.boot.cfgDetail
  | 0x14 => s.boot.step + flag 4 s.boot.failed + 32 * s.boot.bank + flag 6 s.boot.pending + flag 7 s.boot.tried
      + flag 8 s.boot.rolledBack + flag 9 s.boot.ready + flag 10 s.boot.romSafe
  | 0x18 => lo32 s.boot.dirSeq
  | 0x3C => s.boot.stgState + 16 * s.boot.stgReason
  | _ => 0

/-! ### FAULT (R477, R478, R504, R505) -/

/-- Bit n of STATUS: the level of source n's line. -/
def lineHigh (s : State) (n : Nat) : Bool := (srcOf s n).level || (srcOf s n).lineSince.isSome

def statusBits (s : State) : Nat := maskOf 63 (lineHigh s)
def stickyBits (s : State) : Nat := maskOf 63 fun n => (srcOf s n).sticky
def escalBits (s : State) : Nat := maskOf 63 fun n => (srcOf s n).escalated

/-- FIRST (R478): the source whose sticky bit set earliest. -/
def firstWord (s : State) : Nat :=
  match s.fault.order with
  | [] => 0
  | n :: _ => n + 64

def fenceWord (s : State) : Nat := b2n s.fault.fenced + 2 * s.fault.cause

/-- The SEQ of the newest record written (R504). -/
def caskNewest (c : CaskSt) : Nat := ((c.segs.flatMap fun e => e.2.recs.map fun r => r.seq).max?).getD 0

/-- The SEQ of the oldest record that can be read (R504). -/
def caskOldest (c : CaskSt) : Nat :=
  ((c.segs.flatMap fun e => (e.2.recs.filter fun r => !r.badCrc).map fun r => r.seq).min?).getD 0

def faultLive (s : State) (o : Nat) : Nat :=
  if o < 0x100 then
    match o with
    | 0x00 => lo32 (statusBits s)
    | 0x04 => hi32 (statusBits s)
    | 0x08 => lo32 (stickyBits s)
    | 0x0C => hi32 (stickyBits s)
    | 0x18 => lo32 (escalBits s)
    | 0x1C => hi32 (escalBits s)
    | 0x20 => firstWord s
    | 0x24 => fenceWord s
    | 0x4C => s.fault.inj.status
    | 0x50 => sat32 s.fault.inj.count
    | _ => 0
  else if o < 0x500 then
    let x := srcOf s ((o - 0x100) / 16)
    if o % 16 = 4 then sat32 x.total else if o % 16 = 8 then sat32 x.win else 0
  else
    match o with
    | 0x800 => b2n s.cask.ready + flag 1 s.cask.pinFull + 4 * caskPinned s.cask + 65536 * s.cask.queue.length
    | 0x804 => lo32 (caskNewest s.cask)
    | 0x808 => s.cask.headHi
    | 0x80C => lo32 (caskOldest s.cask)
    | 0x810 => s.cask.oldHi
    | 0x814 => sat32 s.cask.dropped
    | 0x818 => sat32 s.cask.bad
    | 0x82C => s.cask.rstate
    | _ => if 0x840 ≤ o && o < 0x880 then wordAt s.cask.data ((o - 0x840) / 4) else 0

/-! ### TIME (R46, R47) -/

/-- The typical stage times of R30 in ps: by voltage from 600 mV in steps of 50 mV, at 40, 60, 85 and 105 °C. -/
def stageTable : List (List Nat) :=
  [[233, 243, 255, 265], [213, 222, 233, 242], [196, 204, 214, 222], [182, 190, 200, 207], [165, 172, 181, 187],
   [150, 156, 164, 170]]

/-- The columns of R30. -/
def stageTemps : List Nat := [40, 60, 85, 105]

/-- The bounds of a part's stage time in ps (R30): 15 % around the typical value, which at a point between rows or columns is
within 2 % of the linear interpolation; below 40 °C the 40 °C value counts. None above 105 °C. -/
def stageBounds (mv temp : Nat) : Option (Nat × Nat) :=
  if 105 < temp then none
  else
    let v := max 600 (min 850 mv) - 600
    let r := min (v / 50) 4
    let dv := v - 50 * r
    let t := max 40 temp
    let c := if t < 60 then 0 else if t < 85 then 1 else 2
    let t0 := stageTemps.getD c 0
    let dt := stageTemps.getD (c + 1) 0 - t0
    let row := fun (k : Nat) => (stageTable.getD k []).getD c 0 * (dt - (t - t0)) + (stageTable.getD k []).getD (c + 1) 0 * (t - t0)
    let num := row r * (50 - dv) + row (r + 1) * dv
    let point := dv % 50 == 0 && stageTemps.contains t
    let den := 50000 * dt
    some (ceilDiv (num * (if point then 850 else 833)) den, num * (if point then 1150 else 1173) / den)

/-- STAGE_W and STAGE_E (R31, R46): the measured stage time of a quadrant, within the bounds of R30 and otherwise free (log
entry 8); 0 while the node does not run. -/
def stageOf (s : State) (q : Nat) : Nat :=
  if s.running then
    let mv := if q < 2 then s.time.railW.mv else s.time.railE.mv
    let temp := s.pack.logicTemps.getD q 0
    let pick := Config.stagePs q mv temp
    match stageBounds mv temp with
    | some (lo, hi) => lo + pick % (hi + 1 - lo)
    | none => pick % 1024
  else 0

/-- What a comparator serves and the value it holds (R43, R47, R364, R481): user 1 a gate list, 2 the failure detector, 3 a
fault window. A gate unit's comparator is armed at the earlier of its entry's end and its pending takeover value. -/
def comparator (s : State) (n : Nat) : Nat × Option Nat :=
  match (List.range 14).find? fun u => pGateEn s u && pGateCmp s u == n with
  | some u =>
    let g := gateOf s u
    let due := (if g.list.isEmpty then [] else [g.entryEnd]) ++ (if g.armed && !pendAtEpoch s u then [pendAt s u] else [])
    (1, due.min?)
  | none =>
    if pDetEn s && pDetCmp s == n then (2, if s.boot.lock then some s.comp.detNext else none)
    else match (List.range 16).find? fun k => pFwinEn s k && pFwinCmp s k == n with
      | some k => (3, tabGet s.fault.winEnd k)
      | none => (0, none)

def timeLive (s : State) (o : Nat) : Nat :=
  if o < 0x100 then
    match o with
    | 0x00 => lo32 (now s)
    | 0x04 => s.time.countHi
    | 0x08 => b2n s.time.refOk + flag 1 s.time.backup
    | 0x14 => lo32 s.time.mark
    | 0x18 => hi32 s.time.mark
    | 0x2C => s.time.railW.mv + 65536 * s.time.railE.mv
    | 0x30 => stageOf s 0 + 65536 * stageOf s 1
    | 0x34 => stageOf s 2 + 65536 * stageOf s 3
    | _ => 0
  else
    let (user, due) := comparator s ((o - 0x100) / 16)
    match o % 16 with
    | 0 => user + flag 2 due.isSome
    | 4 => lo32 (due.getD 0)
    | 8 => hi32 (due.getD 0)
    | _ => 0

/-! ### SNAP and MAILBOX (R518, R519) -/

/-- The frames that a tenant holds now: pages, growth reserves and gradient pages of its sequences (R514). -/
def tenantFrames (s : State) (tenant : Nat) : Nat :=
  let pages := (s.mem.seqs.filter fun e => e.1.tenant == tenant).flatMap fun e =>
    (allPages s e.2).map (fun p => p.2.2.lpn)
      ++ (List.range (tensorCount e.2)).filterMap fun t => (tensorOf e.2 t).reserve.map fun h => h.lpn
  let grads := (s.mem.grads.filter fun g => g.seq.tenant == tenant).flatMap fun g => g.frames
  (pages ++ grads).eraseDups.length

/-- Counter i of a tenant (R514): commands, page visits, pages skipped, fallback visits, records sent, bytes received, bytes
sent, frames held now. -/
def tenantCounter (s : State) (tenant i : Nat) : Nat :=
  if i = 7 then tenantFrames s tenant else tabGetD (tabGetD s.snap.tctr tenant []) i 0

/-- The coarse view of a counter value (R446). -/
def coarse (v : Nat) : Nat := if v = 0 then 0 else 2 ^ v.log2

/-- The value of counter i that TCTR_SEL shows. -/
def shownCounter (s : State) (i : Nat) : Nat :=
  let v := tenantCounter s (fld s 0x3100 11 0) i
  if fld s 0x3100 12 12 = 1 then coarse v else v

def snapLive (s : State) (o : Nat) : Nat :=
  match o with
  | 0x08 => s.snap.state + 4 * s.snap.lastSrc + 65536 * s.snap.haloNo
  | 0x0C => s.snap.snapId
  | 0x10 => sat32 s.snap.missed
  | 0x14 => sat32 s.snap.crossing
  | 0x44 => s.snap.traceHead
  | _ =>
    if 0x80 ≤ o && o < 0xC0 then wordAt (tabGetD s.snap.trace (fld s 0x3040 13 0) []) ((o - 0x80) / 4)
    else if 0x110 ≤ o && o < 0x150 then
      let i := (o - 0x110) / 8
      if o % 8 = 0 then lo32 (shownCounter s i) else tabGetD s.snap.tctrHi i 0
    else 0

/-- Whole messages in a mailbox FIFO. -/
def endMarks (f : List (Word32 × Bool)) : Nat := (f.filter fun w => w.2).length

def mailLive (s : State) (o : Nat) : Nat :=
  match o with
  | 0x08 => (64 - s.mail.fifo.length) + 256 * endMarks s.mail.fifo + 65536 * min 65535 s.mail.overrun
  | 0x14 => min 64 s.mail.k2h.length + flag 7 s.mail.last + 256 * endMarks (s.mail.k2h.take 64)
      + 65536 * min 65535 s.mail.underrun
  | _ => 0

/-! ### TRUST (R448) -/

def slotWord (s : State) (n : Nat) : List Byte := padTo 32 (tabGetD s.trust.slots n [])

/-- Whether a fabric transport key is current (R448). -/
def fabricKey (s : State) : Bool := (tabGetD s.trust.tenants 4096 {}).keygen.isSome

/-- TEN_STATUS of a tenant: the current generation, or the retired one while REMOVING. -/
def tenStatus (s : State) (t : Nat) : Nat :=
  let x := tabGetD s.trust.tenants t {}
  let gen := if x.state = 2 then x.retired.getD 0 else x.keygen.getD 0
  x.state + 4 * gen + flag 10 x.prev.isSome + 65536 * min 65535 (tabGetD s.trust.ignored t 0)

def tstatus (s : State) : Nat :=
  b2n s.trust.udsLocked + flag 1 s.trust.owned + flag 2 s.trust.endorsed + flag 3 (fabricKey s)

def trustLive (s : State) (o : Nat) : Nat :=
  if o < 0x1000 then
    match o with
    | 0x000 => tstatus s
    | 0x008 => sat32 s.trust.plainWr
    | 0x0E4 => s.trust.attState
    | 0x0E8 => s.trust.attWindow.length
    | 0x304 => s.trust.kemState + 16 * s.trust.kemReason
    | 0x404 => tenStatus s (fld s 0x6400 11 0)
    | _ =>
      if 0x10 ≤ o && o < 0x30 then wordAt s.trust.ownerHash ((o - 0x10) / 4)
      else if 0x30 ≤ o && o < 0x50 then wordAt Config.vendorHash ((o - 0x30) / 4)
      else if 0x100 ≤ o && o < 0x200 then wordAt (slotWord s ((o - 0x100) / 32)) (o % 32 / 4)
      else 0
  else if 0x4000 ≤ o && o < 0x8000 then wordAt s.trust.attWindow (4096 * fld s 0x60EC 1 0 + (o - 0x4000) / 4)
  else 0

/-! ### QUAD (R536) -/

/-- QSTATUS: zero until the quadrant's self-test is done. -/
def qstatus (s : State) (q : Nat) : Nat :=
  let x := quadOf s q
  if x.tested then
    maskOf 8 (fun k => (fwdLive s q).contains k) + 256 * maskOf 4 (fun k => x.bwd.contains k) + flag 12 x.spareFree
      + 8192 * ((List.range 16).filter fun t => (tileOf s (16 * q + t)).state == 2).length
  else 0

/-- The counters of a QUAD entry in the order of their offsets from 0x010. -/
def quadCount (x : Quad) : Nat → Nat
  | 0 => x.mashVis
  | 1 => x.tileVis
  | 2 => x.folds
  | 3 => x.dec
  | 4 => x.enc
  | _ => 0

def quadLive (s : State) (q o : Nat) : Nat :=
  let x := quadOf s q
  if o = 0 then qstatus s q
  else if o = 0x40 then sat32 x.qswParity
  else if 0x10 ≤ o && o < 0x38 then
    let i := (o - 0x10) / 8
    if o % 8 = 0 then lo32 (quadCount x i) else tabGetD x.latch i 0
  else 0

/-! ### PORT (R313, R314) -/

/-- Contexts cached on a die. -/
def cachedOn (s : State) (die : Nat) : Nat :=
  (s.net.ctxs.filter fun c => c.cached && homeDie s c.key.peer == die).length

def missOn (s : State) (die : Nat) : Nat := (s.net.miss.filter fun e => e.1 == die).length

def pstatus (s : State) (p : Nat) : Nat :=
  let x := fabPort s p
  maskOf 4 (fun b => (subOf s p b).up) + flag 4 x.spareUsed + 32 * x.spareLane

/-- Word k of the IPv6 address that IP6_SEL names: bits [32k + 31:32k]. -/
def ip6Word (s : State) (p : Nat) : Nat :=
  let a := 0x20108 + 64 * p
  ofBe (padTo 16 (tabGetD s.boot.addr6 (4 * p + fld s a 1 0) [])) / 2 ^ (32 * fld s a 3 2) % 4294967296

def portLive (s : State) (o : Nat) : Nat :=
  if o < 0x100 then
    match o with
    | 0x40 => s.net.pctx
    | 0x44 => cachedOn s 0 + 65536 * cachedOn s 1
    | 0x48 => missOn s 0 + 65536 * missOn s 1
    | 0x4C => s.net.ctxs.length
    | 0x50 => sat32 s.net.outcomeBusy
    | _ => 0
  else if o < 0x1000 then
    let p := (o - 0x100) / 64
    let x := fabPort s p
    match (o - 0x100) % 64 with
    | 0x04 => pstatus s p
    | 0x0C => ip6Word s p
    | 0x10 => sat32 x.rx
    | 0x14 => sat32 x.tx
    | 0x18 => sat32 x.dropAuth
    | 0x1C => sat32 x.dropWindow
    | 0x20 => sat32 x.dropBuffer
    | 0x24 => sat32 x.dup
    | 0x28 => sat32 x.retx
    | 0x2C => sat32 x.dropOther
    | 0x30 => sat32 x.pauseRx
    | 0x34 => sat32 x.fecUncorr
    | _ => 0
  else
    let q := queueOf s ((o - 0x1000) / 16)
    match o % 16 with
    | 0 => q.bind.toNat
    | 4 => lo32 q.count
    | 8 => q.countHi
    | _ => min 256 q.waiting.length + flag 9 q.blocked.isSome

/-! ### HOSTLINK (R425, R426) -/

def hlStatus (s : State) : Nat :=
  let l := s.link
  l.state + 8 * l.gen + 32 * l.width + flag 10 l.reversed + 2048 * l.genCeil + 8192 * l.widthCeil

def hostlinkLive (s : State) (o : Nat) : Nat :=
  let l := s.link
  let g := s.ledger
  let r := fld s 0x30120 15 0
  match o with
  | 0x08 => hlStatus s
  | 0x10 => sat32 l.nak
  | 0x14 => sat32 l.down
  | 0x18 => sat32 l.auth
  | 0x1C => sat32 l.memto
  | 0x20 => sat32 l.plainDrop
  | 0x104 => linesUsed s
  | 0x108 => sat32 g.lbufHits
  | 0x10C => sat32 g.recallsSent
  | 0x110 => sat32 g.reverts
  | 0x114 => sat32 g.conflicts
  | 0x12C => if (regionOf s r).isSome then 1 else if g.refused.contains r then 2 else 0
  | 0x130 => lo32 ((regionOf s r).elim 0 fun x => x.version)
  | 0x134 => g.verHi
  | 0x138 => (regionOf s r).elim 0 fun x => x.base
  | _ => 0

/-! ### SCHED (R371, R372) -/

def boundQueues (d : AdmDie) : Nat := (d.queues.filter fun e => e.2.bound.isSome).length

/-- The histogram bin that HIST_SEL selects; the die counts for admission only. -/
def histShown (s : State) : Nat :=
  let w := rd s 0x40060
  let eg := bitOf 0 w
  tabGetD (tabGetD s.sched.hist (histNo eg (bitOf 1 w) (if eg then 0 else bitsOf 2 2 w) (bitsOf 12 3 w)) []) (bitsOf 18 13 w) 0

/-- The entry that PEND_SEL selects (R372). -/
def pendShown (s : State) (u : Nat) : GateEntry :=
  let i := fld s (gateBase u + 20) 5 0
  if fld s (gateBase u + 20) 6 6 = 1 then (gateOf s u).list.getD i {} else tabGetD (gateOf s u).pend i {}

def schedLive (s : State) (o : Nat) : Nat :=
  if o < 0x100 then
    match o with
    | 0x48 => admPlaces s 0 + 65536 * admPlaces s 1
    | 0x4C => boundQueues s.sched.w + 65536 * boundQueues s.sched.e
    | 0x50 => lo32 s.sched.w.vtime
    | 0x54 => lo32 s.sched.e.vtime
    | 0x5C => tabGetD s.sched.weights (fld s 0x40058 11 0) 1
    | 0x64 => histShown s
    | _ => 0
  else
    let u := (o - 0x100) / 32
    match (o - 0x100) % 32 with
    | 0x04 => (gateOf s u).entry + flag 6 (gateOf s u).armed + 256 * gateOpenSet s u + 65536 * min 65535 (gateOf s u).ignored
    | 0x18 => (pendShown s u).opens + 256 * (pendShown s u).ticks
    | _ => 0

/-! ### PREFIX (R392) -/

def prefixLive (s : State) (o : Nat) : Nat :=
  let p := s.pfx
  match o with
  | 0x04 => p.rateW + 4 * p.rateE + flag 4 p.cascErr
  | 0x08 => halfUsed p 0
  | 0x0C => halfUsed p 1
  | 0x10 => sat32 p.searches
  | 0x14 => sat32 p.hits
  | 0x18 => sat32 p.updates
  | 0x1C => sat32 p.parity
  | 0x20 => sat32 p.staleCount
  | 0x24 => p.lastCseq
  | _ => 0

/-! ### TIER (R241, R253, R269) -/

/-- Granules in use on an LPDDR5X device, and in the host regions. -/
def lpUsed (s : State) (c : Nat) : Nat := sumNat ((usedGranules s (extKey (.lp c 0 0)) 268435456).map Prod.snd)
def hostUsed (s : State) : Nat := sumNat ((usedGranules s 2147483648 2147483648).map Prod.snd)

def stagedFrames (s : State) : Nat := (s.mem.frames.filter fun e => e.2.staged).length

def cpStatus (s : State) (p : Nat) : Nat :=
  let x := portOf s p
  x.state + 8 * x.reason + flag 7 x.warn80 + flag 8 x.warn95 + 512 * x.width + flag 13 x.gen5

def tierLive (s : State) (o : Nat) : Nat :=
  if o < 0x100 then
    match o with
    | 0x40 => sat32 (hostUsed s)
    | 0x44 => stagedFrames s
    | 0x48 => sat32 s.mem.fallbacks
    | 0x4C => sat32 s.mem.lateHoles
    | 0x94 => tabGetD s.mem.hregStatus (fld s 0x60080 9 0) 0
    | _ => if 0x20 ≤ o && o < 0x40 then lpUsed s ((o - 0x20) / 4) + flag 28 (lpDev s ((o - 0x20) / 4)).hot else 0
  else if o < 0x140 then
    let c := clusterOf s ((o - 0x100) / 16)
    match o % 16 with
    | 0 => (lanesLive c false).length + 256 * (lanesLive c true).length
    | 4 => sat32 c.decErr
    | 8 => sat32 c.raw
    | _ => sat32 c.coded
  else if o = 0x140 then sat32 s.mem.encIn
  else if o = 0x144 then sat32 s.mem.encOut
  else if 0x200 ≤ o && o < 0x240 then
    let p := (o - 0x200) / 32
    let x := portOf s p
    match (o - 0x200) % 32 with
    | 0x00 => cpStatus s p
    | 0x04 => min 1000 x.life
    | 0x08 => sat32 (portFree s p / 1073741824)
    | 0x0C => x.objects.length
    | 0x10 => (portGuests s p).length
    | _ => 0
  else 0

/-! ### MASH (R214, R215) -/

def stkStatus (s : State) (st : Nat) : Nat :=
  let k := stackOf s st
  k.quota + 256 * k.granted.length + 65536 * (k.temp % 256)

def stkHealth (s : State) (st : Nat) : Nat :=
  let cs := (List.range 32).map fun pc => chanOf s (pcNum st pc)
  (cs.filter fun c => c.disabled).length + 64 * (cs.filter fun c => c.spareActive).length

def mashLive (s : State) (o : Nat) : Nat :=
  if o = 4 then maskOf 12 (fun st => (stackOf s st).calDone) + 4096 * maskOf 12 (fun st => (stackOf s st).calFail)
  else if 0x100 ≤ o && o < 0x1C0 then
    let st := (o - 0x100) / 16
    if o % 16 = 0 then stkStatus s st else if o % 16 = 4 then stkHealth s st else 0
  else if 0x1000 ≤ o then
    let n := (o - 0x1000) / 16
    let c := chanOf s n
    match o % 16 with
    | 0 => c.mode + flag 2 c.token + flag 3 c.disabled + flag 4 (decide (n % 32 < 4)) + 32 * c.hold.length
    | 4 => b2n c.spareActive + 2 * c.spareTarget + flag 6 c.spareFail
    | 8 => min 65535 c.corr + 65536 * min 65535 c.uncorr
    | _ => 0
  else 0

/-! ### TILE (R537, R538) -/

def tileLive (s : State) (o : Nat) : Nat :=
  if o < 0x100 then
    match o with
    | 0 => sat32 s.mem.numNonfin
    | 4 => sat32 s.mem.numSat
    | _ =>
      let x := quadOf s ((o - 0x40) / 4)
      b2n x.spareActive + 2 * x.spareTarget + 128 * x.spareFailedPhys + flag 12 x.spareFail
  else
    let t := (o - 0x100) / 32
    let x := tileOf s t
    match (o - 0x100) % 32 with
    | 0 => x.state + flag 2 x.spared + 8 * (t % 16 / 2) + 64 * (t % 2) + flag 7 ((quadOf s (t / 16)).bwd.contains (t % 16 / 4))
        + 256 * (t % 4)
    | 4 => sat32 x.visits
    | 8 => sat32 x.checks
    | _ => 0

/-! ### Snapshot entries (R510, R511, R539) -/

def sumRange (n : Nat) (f : Nat → Nat) : Nat := sumNat ((List.range n).map f)

/-- Mash and tile visits of a die: the sums over its two quadrants (R511). -/
def dieMash (s : State) (d : Nat) : Nat := (quadOf s (2 * d)).mashVis + (quadOf s (2 * d + 1)).mashVis
def dieTile (s : State) (d : Nat) : Nat := (quadOf s (2 * d)).tileVis + (quadOf s (2 * d + 1)).tileVis

/-- Bytes of a die: the sums over its six ports (R511). -/
def dieRx (s : State) (d : Nat) : Nat := sumRange 6 fun i => (fabPort s (6 * d + i)).rxBytes
def dieTx (s : State) (d : Nat) : Nat := sumRange 6 fun i => (fabPort s (6 * d + i)).txBytes

def tenantsIn (s : State) (state : Nat) : Nat := (s.trust.tenants.filter fun e => decide (e.1 < 4096) && e.2.state == state).length

/-- The words of a snapshot entry at this moment; `snapId` is the SNAP_ID of the Halo, 0 for a local one. -/
def snapWords (s : State) (snapId i : Nat) : List Nat :=
  if i = 0 then [statusBits s, stickyBits s, escalBits s, firstWord s + 4294967296 * fenceWord s, caskNewest s.cask]
  else if i = 1 then [now s, timeLive s 0x2C, timeLive s 0x30, timeLive s 0x34, twoCounts s.cask.boot (epochOf s)]
  else if i = 2 then
    [schedLive s 0x48, schedLive s 0x4C, s.sched.w.vtime, s.sched.e.vtime, s.sched.w.admitted, s.sched.e.admitted]
  else if i = 3 then
    [hlStatus s, twoCounts s.link.nak s.link.down, twoCounts s.link.auth s.link.memto, s.ledger.lbufHits,
     twoCounts s.ledger.recallsSent s.ledger.reverts]
  else if i = 4 then [tstatus s, twoCounts (tenantsIn s 1) (tenantsIn s 2), s.trust.reports]
  else if i = 5 then [twoCounts (halfUsed s.pfx 0) (halfUsed s.pfx 1), s.pfx.searches, s.pfx.hits, s.pfx.updates]
  else if i = 6 then
    [stagedFrames s, s.mem.fallbacks, s.mem.lateHoles, hostUsed s] ++ (List.range 8).map (lpUsed s)
      ++ [twoCounts (cpStatus s 0) (cpStatus s 1)]
  else if i < 19 then
    let st := i - 7
    let k := stackOf s st
    let cs := (List.range 32).map fun pc => chanOf s (pcNum st pc)
    [stkStatus s st, stkHealth s st, k.visits, k.bursts, k.adds, sumNat (cs.map fun c => c.corr), sumNat (cs.map fun c => c.uncorr)]
  else if i < 23 then
    let q := i - 19
    let x := quadOf s q
    [x.mashVis, x.tileVis, x.folds, qstatus s q, x.dec, x.enc, (clusterOf s q).decErr]
  else if i < 35 then
    let p := i - 23
    let x := fabPort s p
    [pstatus s p, x.rx, x.tx, x.dropAuth, x.dropWindow, x.dropBuffer, x.dup, x.retx, x.dropOther, x.fecUncorr, x.rxBytes,
     x.txBytes]
  else if i < 37 then
    let d := i - 35
    [dieMash s d, dieTile s d, tabGetD s.mem.fallDie d 0, tabGetD s.net.recSent d 0, dieRx s d, dieTx s d, s.time.bridgeRetries,
     cachedOn s d, missOn s d]
  else if i = 37 then
    [dieMash s 0 + dieMash s 1, dieTile s 0 + dieTile s 1, dieRx s 0 + dieRx s 1, dieTx s 0 + dieTx s 1, snapId,
     s.snap.haloNo + 65536 * s.snap.lastSrc]
  else []

/-- A location of SNAPDATA (R510): the half of the latched word that it holds. -/
def snapdataLive (s : State) (o : Nat) : Nat :=
  let w := (tabGetD s.snap.data (o / 128) []).getD (o % 128 / 8) 0
  if o % 8 = 0 then lo32 w else hi32 w

/-- The RO and RS fields of a control-space location, without the side effects of its read. -/
def liveWord (s : State) (a : Nat) : Nat :=
  if a < 0x1000 then identLive s a
  else if a < 0x2000 then configLive s (a - 0x1000)
  else if a < 0x3000 then faultLive s (a - 0x2000)
  else if a < 0x4000 then snapLive s (a - 0x3000)
  else if a < 0x5000 then mailLive s (a - 0x4000)
  else if a < 0x6000 then timeLive s (a - 0x5000)
  else if a < 0x10000 then trustLive s (a - 0x6000)
  else if a < 0x20000 then quadLive s ((a - 0x10000) / 0x4000) ((a - 0x10000) % 0x4000)
  else if a < 0x30000 then portLive s (a - 0x20000)
  else if a < 0x40000 then hostlinkLive s (a - 0x30000)
  else if a < 0x50000 then schedLive s (a - 0x40000)
  else if a < 0x60000 then prefixLive s (a - 0x50000)
  else if a < 0x70000 then tierLive s (a - 0x60000)
  else if a < 0x80000 then mashLive s (a - 0x70000)
  else if a < 0x90000 then tileLive s (a - 0x80000)
  else snapdataLive s (a - 0x90000)

end Sys2Proof.Machine
end

