-- ==== Sys2Proof/Machine/Access.lean ====
section
/-!
DEFINITION. Machine/Access.lean: the register map (R532 to R538 and the register tables of the other chapters), the value of
a register at a read, the side effects of reads (R526), and the rows of the opcode table that read one register.
-/

namespace Sys2Proof.Machine

/-! ### The map -/

/-- What an implemented register holds beside RO and RS fields: its RW fields as (high, low) bits, the masks of its RWL and
W1P bits, whether it is write-only, and whether its aliases are reserved locations (R530). -/
structure RegDef where
  rw : List (Nat × Nat) := []
  rwl : Nat := 0
  w1p : Nat := 0
  wo : Bool := false
  noAlias : Bool := false
  deriving DecidableEq, Repr

/-- The mask of a list of fields. -/
def fieldMask (l : List (Nat × Nat)) : Nat := sumNat (l.map fun f => 2 ^ (f.1 + 1) - 2 ^ f.2)

def roReg : Option RegDef := some {}
def rwlReg (m : Nat) : Option RegDef := some { rwl := m }
def rwReg (l : List (Nat × Nat)) : Option RegDef := some { rw := l }
def rwWord : Option RegDef := some { rw := [(31, 0)] }
def w1pReg (m : Nat) : Option RegDef := some { w1p := m }

/-- Whether an offset lies in [lo, hi). -/
def inRange (lo hi o : Nat) : Bool := decide (lo ≤ o) && decide (o < hi)

def identDef (o : Nat) : Option RegDef := if inRange 0 0x28 o || inRange 0x30 0x40 o then roReg else none

def configDef (o : Nat) : Option RegDef :=
  match o with
  | 0x00 | 0x04 | 0x08 | 0x0C | 0x14 | 0x18 | 0x3C => roReg
  | 0x10 => rwlReg 1
  | 0x20 => w1pReg 1
  | 0x30 => rwReg [(0, 0)]
  | 0x34 => rwReg [(23, 0)]
  | 0x38 => w1pReg 31
  | 0x60 => w1pReg 1
  | 0x100 => rwlReg 0x1FFFF
  | 0x104 => rwlReg 0x7FFFF
  | 0x108 | 0x110 | 0x120 | 0x124 => rwlReg cap32
  | 0x10C => rwlReg 0x1FFFF
  | 0x128 => rwlReg 0x7FFFFFFF
  | 0x12C => rwlReg 0xFFFFFF
  | 0x130 => rwlReg 0xFFFF
  | _ =>
    if inRange 0x40 0x60 o then rwWord
    else if inRange 0x800 0x1000 o then some { rw := [(31, 0)], noAlias := true }
    else none

def faultDef (o : Nat) : Option RegDef :=
  match o with
  | 0x10 | 0x14 => some { wo := true }
  | 0x28 | 0x2C | 0x30 => rwlReg 0x1F
  | 0x40 => rwlReg 1
  | 0x44 => rwReg [(3, 0), (4, 4), (23, 8)]
  | 0x48 => w1pReg 3
  | 0x4C | 0x50 => roReg
  | 0x820 => rwWord
  | 0x824 => rwReg [(15, 0)]
  | 0x828 => w1pReg 1
  | _ =>
    if inRange 0 0x28 o then roReg
    else if inRange 0x80 0x100 o then rwlReg (if o % 8 = 0 then 0x7F else cap32)
    else if inRange 0x100 0x500 o then
      (if o % 16 = 0 then rwlReg 0xFFFF7F else if o % 16 = 12 then none else roReg)
    else if inRange 0x800 0x81C o || o == 0x82C || inRange 0x840 0x880 o then roReg
    else none

def snapDef (o : Nat) : Option RegDef :=
  match o with
  | 0x00 => some { rw := [(4, 4)], rwl := 15 }
  | 0x04 => w1pReg 3
  | 0x40 => rwReg [(13, 0)]
  | 0x44 => roReg
  | 0x100 => rwReg [(11, 0), (12, 12)]
  | _ => if inRange 0x08 0x18 o || inRange 0x80 0xC0 o || inRange 0x110 0x150 o then roReg else none

def mailDef (o : Nat) : Option RegDef :=
  match o with
  | 0x00 | 0x04 => some { wo := true, noAlias := true }
  | 0x08 | 0x14 => roReg
  | 0x10 => some { noAlias := true }
  | _ => none

def timeDef (o : Nat) : Option RegDef :=
  match o with
  | 0x00 | 0x04 | 0x08 | 0x14 | 0x18 | 0x2C | 0x30 | 0x34 => roReg
  | 0x10 => w1pReg 1
  | 0x20 => rwlReg 0xFFFFFF03
  | 0x24 => rwlReg 0x3FFFFFFF
  | 0x28 => rwReg [(9, 0)]
  | _ => if inRange 0x100 0x500 o && o % 16 != 12 then roReg else none

def trustDef (o : Nat) : Option RegDef :=
  match o with
  | 0x000 | 0x008 | 0x0E4 | 0x0E8 | 0x304 | 0x404 => roReg
  | 0x0E0 | 0x300 => w1pReg 3
  | 0x0EC => rwReg [(1, 0)]
  | 0x200 => rwReg [(0, 0)]
  | 0x224 | 0x408 => w1pReg 1
  | 0x400 => rwReg [(11, 0)]
  | _ =>
    if inRange 0x10 0x50 o || inRange 0x100 0x200 o then roReg
    else if inRange 0x80 0xE0 o || inRange 0x204 0x224 o then rwWord
    else if inRange 0x1000 0x2000 o then some { rw := [(31, 0)], noAlias := true }
    else if inRange 0x4000 0x8000 o then some { noAlias := true }
    else none

def quadDef (o : Nat) : Option RegDef :=
  let e := o % 0x4000
  if e == 0 || inRange 0x10 0x38 e || e == 0x40 then roReg else none

def portDef (o : Nat) : Option RegDef :=
  if o < 0x100 then
    match o with
    | 0x00 | 0x08 | 0x0C | 0x18 | 0x24 => rwlReg cap32
    | 0x04 => rwlReg 0x3FFF03FF
    | 0x10 => rwlReg 0xFFFF000F
    | 0x14 => rwlReg 0x1FFF
    | 0x1C => rwlReg 0xFF
    | 0x20 => rwlReg 0xFFFFFF
    | 0x28 => rwlReg 0xFFFF
    | 0x30 | 0x34 => rwWord
    | 0x38 => rwReg [(8, 0)]
    | 0x3C => w1pReg 1
    | _ => if inRange 0x40 0x54 o then roReg else none
  else if o < 0x400 then
    let e := (o - 0x100) % 64
    if e = 0 then rwlReg 0x3FFFF
    else if e = 8 then rwReg [(1, 0), (3, 2)]
    else if e < 0x38 then roReg
    else none
  else if inRange 0x1000 0x5000 o then
    (if o % 16 = 0 then rwReg [(15, 0), (27, 16), (28, 28), (29, 29)] else roReg)
  else none

def hostlinkDef (o : Nat) : Option RegDef :=
  match o with
  | 0x00 => rwlReg 15
  | 0x04 => rwlReg 0x3FFF
  | 0x08 => roReg
  | 0x0C => w1pReg 1
  | 0x100 => rwlReg 0x1FFFFFF
  | 0x118 | 0x120 => rwReg [(15, 0)]
  | 0x11C => w1pReg 1
  | 0x124 => rwReg [(12, 0), (13, 13), (25, 14)]
  | 0x128 => w1pReg 3
  | _ => if inRange 0x10 0x24 o || inRange 0x104 0x118 o || inRange 0x12C 0x13C o then roReg else none

def schedDef (o : Nat) : Option RegDef :=
  if o < 0x100 then
    match o with
    | 0x40 => rwlReg 0x1FFF
    | 0x44 => rwlReg 0xFFFFFF
    | 0x58 => rwReg [(11, 0)]
    | 0x5C => rwReg [(4, 0)]
    | 0x60 => rwReg [(0, 0), (1, 1), (2, 2), (12, 3), (18, 13)]
    | 0x64 => roReg
    | 0x68 => w1pReg 1
    | _ => if o < 0x40 then rwlReg 0xFFFFFF else if inRange 0x48 0x58 o then roReg else none
  else if o < 0x2C0 then
    match (o - 0x100) % 32 with
    | 0x00 => rwlReg 0x7F
    | 0x04 => roReg
    | 0x08 => some { rw := [(2, 2), (14, 8)], w1p := 3 }
    | 0x0C | 0x10 => rwWord
    | 0x14 => rwReg [(5, 0), (6, 6)]
    | 0x18 => rwReg [(7, 0), (31, 8)]
    | _ => none
  else none

def prefixDef (o : Nat) : Option RegDef :=
  if o = 0 then rwlReg 7 else if o = 0x28 then w1pReg 1 else if o < 0x28 then roReg else none

def tierDef (o : Nat) : Option RegDef :=
  match o with
  | 0x00 => rwlReg 0x3FF
  | 0x04 | 0x08 | 0x14 | 0x18 | 0x240 => rwlReg cap32
  | 0x0C => rwlReg 0x7FFFF
  | 0x10 => rwlReg 0x1FFFFF
  | 0x80 | 0x8C => rwReg [(9, 0)]
  | 0x84 | 0x88 | 0x214 | 0x234 => rwWord
  | 0x90 | 0x218 | 0x238 => w1pReg 3
  | 0x94 => roReg
  | _ =>
    if inRange 0x20 0x50 o || inRange 0x100 0x148 o || inRange 0x200 0x214 o || inRange 0x220 0x234 o then roReg else none

def mashDef (o : Nat) : Option RegDef :=
  if o = 0 then rwlReg 0x7F
  else if o = 4 then roReg
  else if inRange 0x100 0x1C0 o then (if o % 16 < 8 then roReg else none)
  else if inRange 0x1000 0x2800 o then (if o % 16 < 12 then roReg else none)
  else none

def tileDef (o : Nat) : Option RegDef :=
  if o < 8 || inRange 0x40 0x50 o then roReg
  else if inRange 0x100 0x900 o then (if o % 32 < 12 then roReg else none)
  else none

/-- The register at a control-space offset that is a multiple of 4; none at a reserved location (R532). -/
def regDef (a : Nat) : Option RegDef :=
  if a < 0x1000 then identDef a
  else if a < 0x2000 then configDef (a - 0x1000)
  else if a < 0x3000 then faultDef (a - 0x2000)
  else if a < 0x4000 then snapDef (a - 0x3000)
  else if a < 0x5000 then mailDef (a - 0x4000)
  else if a < 0x6000 then timeDef (a - 0x5000)
  else if a < 0x10000 then trustDef (a - 0x6000)
  else if a < 0x20000 then quadDef (a - 0x10000)
  else if a < 0x30000 then portDef (a - 0x20000)
  else if a < 0x40000 then hostlinkDef (a - 0x30000)
  else if a < 0x50000 then schedDef (a - 0x40000)
  else if a < 0x60000 then prefixDef (a - 0x50000)
  else if a < 0x70000 then tierDef (a - 0x60000)
  else if a < 0x80000 then mashDef (a - 0x70000)
  else if a < 0x90000 then tileDef (a - 0x80000)
  else if a < 0x91300 then roReg
  else none

/-! ### Reading -/

/-- The value of an implemented register, without the side effects of its read: the RW and RWL fields as written and the RO
and RS fields as the state gives them; WO and W1P bits read zero (R7). -/
def regWord (s : State) (a : Nat) : Nat :=
  match regDef a with
  | none => 0
  | some d => Nat.lor (Nat.land (rd s a) (Nat.lor (fieldMask d.rw) d.rwl)) (liveWord s a)

/-- A read of K2H_WORD removes and returns the head word; an empty FIFO gives zero and counts (R516). -/
def k2hPop (s : State) : Nat × State :=
  match s.mail.k2h with
  | [] => (0, { s with mail := { s.mail with underrun := s.mail.underrun + 1 } })
  | (w, e) :: rest => (w.toNat, { s with mail := { s.mail with k2h := rest, last := e } })

/-- The latch of a low word's read (R526): the matching high word is held. -/
def readLatch (s : State) (a : Nat) : State :=
  if a = 0x5000 then { s with time := { s.time with countHi := hi32 (now s) } }
  else if a = 0x2804 then { s with cask := { s.cask with headHi := hi32 (caskNewest s.cask) } }
  else if a = 0x280C then { s with cask := { s.cask with oldHi := hi32 (caskOldest s.cask) } }
  else if inRange 0x3110 0x3150 a && a % 8 == 0 then
    let i := (a - 0x3110) / 8
    { s with snap := { s.snap with tctrHi := tabSet s.snap.tctrHi i (hi32 (shownCounter s i)) } }
  else if inRange 0x10000 0x20000 a && inRange 0x10 0x38 (a % 0x4000) && a % 8 == 0 then
    let i := (a % 0x4000 - 0x10) / 8
    modQuad s ((a - 0x10000) / 0x4000) fun q => { q with latch := tabSet q.latch i (hi32 (quadCount q i)) }
  else if inRange 0x21000 0x25000 a && a % 16 == 4 then
    modQueue s ((a - 0x21000) / 16) fun q => { q with countHi := hi32 q.count }
  else if a = 0x30130 then
    { s with ledger := { s.ledger with verHi := hi32 ((regionOf s (fld s 0x30120 15 0)).elim 0 fun x => x.version) } }
  else s

/-- A read of one register with its side effect (R526, R516). -/
def readWord (s : State) (a : Nat) : Nat × State :=
  if a = 0x4010 then k2hPop s else (regWord s a, readLatch s a)

/-- A REG_RD of one implemented register ends as R522 states and is answered on the link. -/
def readAt (s : State) (tag a : Nat) : State :=
  if s.running && decide (2 ≤ s.link.state) then
    match reachStatus s a with
    | 0 => linkSend (readWord s a).2 (.regCpl tag a 0 (le 4 (readWord s a).1))
    | 1 => linkSend (countError s a) (.regCpl tag a 1 [])
    | _ => linkSend s (.regCpl tag a 2 [])
  else s

/-! ### Rows -/

/-- COUNT_LO_READ (R40). -/
def execCountLoRead (tag : Nat) (s : State) : Out := .next (readAt s tag 0x5000)

/-- QCC_LO_READ (R315, R526). -/
def execQccLoRead (tag : Nat) (queue : Fin 1024) (s : State) : Out := .next (readAt s tag (0x21004 + 16 * queue.val))

/-- LREG_VER_LO_READ (R426, R526). -/
def execLregVerLoRead (tag : Nat) (s : State) : Out := .next (readAt s tag 0x30130)

/-- CASK_HEAD_LO_READ (R504, R526). -/
def execCaskHeadLoRead (tag : Nat) (s : State) : Out := .next (readAt s tag 0x2804)

/-- CASK_OLD_LO_READ (R504, R526). -/
def execCaskOldLoRead (tag : Nat) (s : State) : Out := .next (readAt s tag 0x280C)

/-- TCTR_LO_READ (R518, R526). -/
def execTctrLoRead (tag : Nat) (index : Fin 8) (s : State) : Out := .next (readAt s tag (0x3110 + 8 * index.val))

/-- The place of a counter in a QUAD entry (R536). -/
def quadCounterNo : QuadCounter → Nat
  | .mashVis => 0
  | .tileVis => 1
  | .folds => 2
  | .dec => 3
  | .enc => 4

/-- QUAD_COUNTER_READ (R536, R526). -/
def execQuadCounterRead (tag : Nat) (quad : Fin 4) (counter : QuadCounter) (s : State) : Out :=
  .next (readAt s tag (0x10010 + 0x4000 * quad.val + 8 * quadCounterNo counter))

/-- K2H_WORD (R516). -/
def execK2hWord (tag : Nat) (s : State) : Out := .next (readAt s tag 0x4010)

end Sys2Proof.Machine
end

