-- ==== Sys2Proof/Machine/Observe.lean ====
section
/-!
DEFINITION. Machine/Observe.lean: Halo and the snapshot words (R506 to R511), fabric snapshots (R512, R513), trace capture
(R515) and the mailboxes (R516, R517).
-/

namespace Sys2Proof.Machine

/-! ### Halo (R506 to R509) -/

/-- The bytes of SNAPDATA in index order (R515). -/
def snapBytes (data : Tab (List Nat)) : List Byte :=
  (List.range 38).flatMap fun i =>
    let ws := tabGetD data i []
    (List.range 16).flatMap fun j => le 8 (ws.getD j 0)

/-- A capture (R515): one header entry, then 82 data entries of 60 bytes each. -/
def capture (s : State) : State :=
  let s1 := traceWrite s (le 1 1 ++ le 1 0 ++ le 2 s.snap.haloNo ++ le 8 (now s) ++ le 1 s.snap.lastSrc)
  let bs := snapBytes s.snap.data
  foldState (fun s i => traceWrite s (le 1 2 ++ le 1 0 ++ le 2 s.snap.haloNo ++ slice bs (60 * i) 60)) s1 (List.range 82)

/-- Latches every snapshot word in one step (R507; log entry 40). `src` is the bit of LAST_SRC: 0 pin, 1 register, 2 fault, 3
marker. -/
def latchHalo (s : State) (src snapId : Nat) : State :=
  let s1 := { s with snap := { s.snap with haloNo := (s.snap.haloNo + 1) % 65536, lastSrc := 2 ^ src, haloAt := some (now s) } }
  let data := (List.range 38).map fun i => (i, snapWords s1 snapId i)
  let hold := fld s 0x3000 4 4 = 1
  let s2 := { s1 with snap := { s1.snap with
    data := data, state := (if hold then 3 else 2), haloOut := s1.snap.haloOut + fld s 0x3000 1 1 } }
  if fld s 0x3000 2 2 = 1 then capture s2 else s2

/-- Whether a trigger comes at the tick of the last Halo: in its stage, or while its words are being latched (R506, R508; log
entry 40). -/
def sameTick (s : State) : Bool := s.snap.haloAt == some (now s)

/-- Whether a trigger makes a Halo (R508): not while the words are being latched or held. -/
def haloFree (s : State) : Bool := s.snap.state != 1 && s.snap.state != 3 && !sameTick s

def missHalo (s : State) : State := { s with snap := { s.snap with missed := s.snap.missed + 1 } }

/-- A trigger in the stage of the last Halo makes no other one: LAST_SRC records it too (R506). -/
def joinHalo (s : State) (src snapId : Nat) : State :=
  let src1 := Nat.lor s.snap.lastSrc (2 ^ src)
  let ws := tabGetD s.snap.data 37 []
  let id := if snapId = 0 then ws.getD 4 0 else snapId
  { s with snap := { s.snap with lastSrc := src1,
                                 data := tabSet s.snap.data 37 ((ws.set 4 id).set 5 (s.snap.haloNo + 65536 * src1)) } }

/-- A trigger that makes no Halo (R506, R508): at the tick of the last one it either falls into the same stage, which is free
(log entry 40), or is missed; answers whether the node's words are those of this trigger. -/
def haloLate (s : State) (src snapId : Nat) : Bool × State :=
  if sameTick s then
    let (v, s1) := draw s
    if v % 2 = 0 then (true, joinHalo s1 src snapId) else (false, missHalo s1)
  else (false, missHalo s)

/-! ### Fabric snapshots (R512, R513) -/

/-- The associations on which a node sends markers: its tree children, and every SYS association with a cached context. -/
def markerPeers (s : State) : List AssocKey :=
  let kids := match s.comp.map with
    | none => []
    | some m => (treeChildren m).map fun n => sysKey (.node n)
  (kids ++ (s.net.ctxs.filter fun c => c.key.sys && c.cached).map fun c => c.key).eraseDups

/-- Steps 2 and 3 of R513: markers go out, and the crossing messages are recorded from now on. `seen` lists the associations
whose marker has arrived. -/
def startDrain (s : State) (snapId : Nat) (seen : List AssocKey) (latched : Bool) : State :=
  let peers := markerPeers s
  let s1 := if latched then s else { s with fresh := s.fresh + 1 }
  let counter := if latched then now s else Config.freeNat s.fresh % 18446744073709551616
  let d : Drain := { snapId := snapId, since := now s, expect := peers, marked := seen, latched := latched,
                     haloNo := (if latched then s.snap.haloNo else 0), counter := counter }
  let s2 := { s1 with snap := { s1.snap with snapId := snapId, ids := (snapId :: s1.snap.ids).take 64, drains := s1.snap.drains ++ [d] } }
  foldState (fun s a => sendControl s a.peer (haloMarkMsg snapId (epochOf s))) s2 peers

/-- A local trigger (R506, R508): a Halo, which starts a fabric snapshot where SNAP_CFG.FABRIC is set and a map is installed,
or a missed trigger. -/
def halo (s : State) (src : Nat) : State :=
  if haloFree s then
    let s1 := latchHalo s src 0
    if fld s 0x3000 3 3 = 1 ∧ s.comp.map.isSome = true then
      startDrain s1 (65536 * nodeId s1 + s1.snap.haloNo) [] true
    else s1
  else (haloLate s src 0).2

/-- Whether every marker that a drain waits for has arrived (R513). -/
def drainComplete (d : Drain) : Bool := (d.expect ++ d.crossed).all fun a => d.marked.contains a

/-- HALO_DONE to every COMPOSER adapter, with the mailbox's copy (R512, R516); the drain ends. -/
def haloDone (s : State) (d : Drain) (drained : Bool) : State :=
  let msg := haloDoneMsg d.snapId d.haloNo d.latched drained d.crossing (epochOf s) d.counter
  let s1 := { s with snap := { s.snap with crossing := d.crossing, drains := s.snap.drains.filter fun x => x.snapId != d.snapId } }
  let dest := match s.comp.map with
    | none => []
    | some m => composers m
  let s2 := foldState (fun s e => sendControl s e msg) s1 dest
  k2hPush s2 0x84 0 ((List.range 6).map fun i => BitVec.ofNat 32 (fieldLe msg (8 + 4 * i) 4))

/-- HALO_MARK (R513): the first marker of a new SNAP_ID takes a Halo, or latches nothing (R508), and floods markers; a later
one is its association's marker. A marker of another tree epoch is discarded and counted. -/
def haloMark (s : State) (src : Endpoint) (snapId treeEpoch : Nat) : State :=
  let a := sysKey src
  if s.comp.map.isNone || treeEpoch != epochOf s then { s with snap := { s.snap with discards := s.snap.discards + 1 } }
  else if s.snap.ids.contains snapId then
    let mark := fun (d : Drain) => if d.snapId = snapId ∧ d.marked.contains a = false then { d with marked := d.marked ++ [a] } else d
    { s with snap := { s.snap with drains := s.snap.drains.map mark } }
  else if haloFree s then startDrain (latchHalo s 3 snapId) snapId [a] true
  else
    let (joined, s1) := haloLate s 3 snapId
    startDrain s1 snapId [a] joined

/-- Whether an endpoint may send HALO_MARK (R512): a node or a COMPOSER adapter. -/
def mayMark (s : State) (src : Endpoint) : Bool := (asNode src).isSome || isComposer s src

/-- HALO_MARK. -/
def execHaloMark (src : Endpoint) (snapId treeEpoch : Nat) (s : State) : Out :=
  .next <|
    if !s.running then s
    else
      let s0 := takeKind s src 0x1C
      if mayMark s0 src then haloMark s0 src snapId treeEpoch else discard s0

/-- HALO_DRAIN_DONE (R513). -/
def execHaloDrainDone (s : State) : Out :=
  .next <|
    match s.snap.drains.find? drainComplete with
    | none => s
    | some d => if s.running then haloDone s d true else s

/-- HALO_DRAIN_TIMEOUT (R513): 5,000 ticks after step 1. -/
def execHaloDrainTimeout (s : State) : Out :=
  .next <|
    match s.snap.drains.find? fun d => !drainComplete d && elapsed s d.since 5000 with
    | none => s
    | some d => if s.running then haloDone s d false else s

/-- SNAP_GO (R506). -/
def execSnapGo (s : State) : Out := .next (regEnter s 0x3004 fun s => halo s 1)

/-- RELEASE ends the hold (R508). -/
def snapRelease (s : State) : State :=
  if s.snap.state = 3 then { s with snap := { s.snap with state := 2 } } else s

/-- SNAP_RELEASE. -/
def execSnapRelease (s : State) : Out := .next (regEnter s 0x3004 snapRelease)

/-- HALO_IN (R506): a high level of at least 2 ticks, while the pin is enabled. -/
def execHaloIn (ticks : Nat) (s : State) : Out :=
  .next <| if s.running && decide (2 ≤ ticks) && fld s 0x3000 0 0 == 1 then halo s 0 else s

/-! ### Mailboxes (R516, R517) -/

/-- Word 0 of a mailbox message: KIND, TAG and LEN. -/
def mailKind (ws : List Word32) : Nat := (ws.getD 0 0).toNat % 256
def mailTag (ws : List Word32) : Nat := bitsOf 15 8 (ws.getD 0 0).toNat
def mailLen (ws : List Word32) : Nat := bitsOf 31 16 (ws.getD 0 0).toNat

/-- ERROR: the reason, then the TAG (R516). -/
def mailError (s : State) (reason tag : Nat) : State := k2hPush s 0x8F tag [BitVec.ofNat 32 reason, BitVec.ofNat 32 tag]

/-- What is wrong with a whole H2K message: 0 nothing, 1 its length, 2 its kind. -/
def mailReason (ws : List Word32) : Nat :=
  let n := ws.length
  if mailLen ws ≠ n ∨ 1024 < n then 1
  else match mailKind ws with
    | 1 => if n < 3 then 1 else 0
    | 2 => if n = 2 then 0 else 1
    | 3 => if 64 < n then 1 else 0
    | _ => 2

/-- The message that the Kiln has taken whole is discarded with ERROR where it is malformed. -/
def mailJudge (s : State) : State :=
  if s.mail.done && mailReason s.mail.cur != 0 then
    mailError { s with mail := { s.mail with cur := [], done := false } } (mailReason s.mail.cur) (mailTag s.mail.cur)
  else s

/-- One word falls from the head of the chain to the Kiln, unless a whole message is still there. -/
def mailTake (s : State) : State :=
  if s.mail.done then s
  else match s.mail.fifo with
    | [] => s
    | (w, e) :: rest => mailJudge { s with mail := { s.mail with cur := s.mail.cur ++ [w], done := e, fifo := rest } }

/-- The Kiln drains the chain (R517). -/
def mailDrain (s : State) : State := iter mailTake s.mail.fifo.length s

/-- The words of a message whose end mark has not come. -/
def openTail (f : List (Word32 × Bool)) : List (Word32 × Bool) := (f.reverse.takeWhile fun w => !w.2).reverse

/-- A write of a word, with or without its end mark (R516). A word written while no stage is empty is dropped and counted;
its message is discarded to its end mark, and the Kiln answers ERROR. -/
def mailWrite (s : State) (w : Word32) (last : Bool) : State :=
  if s.mail.skip then { s with mail := { s.mail with skip := !last } }
  else if 64 ≤ s.mail.fifo.length then
    let tail := openTail s.mail.fifo
    let tag := mailTag (tail.map Prod.fst ++ [w])
    let s1 := { s with mail := { s.mail with
      overrun := s.mail.overrun + 1, skip := !last, fifo := s.mail.fifo.take (s.mail.fifo.length - tail.length) } }
    mailError s1 3 tag
  else mailDrain { s with mail := { s.mail with fifo := s.mail.fifo ++ [(w, last)] } }

/-- H2K_WORD. -/
def execH2kWord (w : Word32) (s : State) : Out := .next (regEnter s 0x4000 fun s => mailWrite s w false)

/-- H2K_LAST. -/
def execH2kLast (w : Word32) (s : State) : Out := .next (regEnter s 0x4004 fun s => mailWrite s w true)

/-- The Kiln has acted on the message at its head; the next one follows. -/
def mailNext (s : State) : State := mailDrain { s with mail := { s.mail with cur := [], done := false } }

/-- Acts on the whole message at the head, if it has this kind. -/
def onMail (s : State) (kind : Nat) (f : State → List Word32 → State) : State :=
  if s.running && s.mail.done && mailKind s.mail.cur == kind then f (mailNext s) s.mail.cur else s

/-- The bytes of mailbox words. -/
def wordBytes (ws : List Word32) : List Byte := ws.flatMap fun w => le 4 w.toNat

/-- A chunk of a map (R517): a gap or a step back is ERROR 4; the last one delivers the map, and MAP_ACK answers. -/
def mapChunk (s : State) (ws : List Word32) : State :=
  let off := (ws.getD 1 0).toNat
  let total := (ws.getD 2 0).toNat
  let have_ := if off = 0 then [] else s.mail.mapBuf
  if off ≠ have_.length ∨ (off ≠ 0 ∧ total ≠ s.mail.mapTotal) then mailError s 4 (mailTag ws)
  else
    let buf := (have_ ++ wordBytes (ws.drop 3)).take total
    if buf.length = total then
      let r := installMap { s with mail := { s.mail with mapBuf := [], mapTotal := 0 } } buf
      k2hPush r.1 0x81 (mailTag ws)
        [BitVec.ofNat 32 (fieldLe buf 8 4), BitVec.ofNat 32 (epochOf r.1), BitVec.ofNat 32 r.2.code]
    else { s with mail := { s.mail with mapBuf := buf, mapTotal := total } }

/-- MAP_CHUNK. -/
def execMapChunk (s : State) : Out := .next (onMail s 1 mapChunk)

/-- MAILBOX_RENEW (R329, R516). -/
def execMailboxRenew (s : State) : Out := .next (onMail s 2 fun s ws => renewLease s (ws.getD 1 0).toNat)

/-- PING (R516): echoed as PONG. -/
def execPing (s : State) : Out := .next (onMail s 3 fun s ws => k2hPush s 0x83 (mailTag ws) (ws.drop 1))

end Sys2Proof.Machine
end

