-- ==== Sys2Proof/Machine/Trust.lean ====
section
/-!
DEFINITION. Machine/Trust.lean: measurement slots (R430), attestation (R431 to R434), the link keys (R435), key packages and
rotation (R437 to R441), and the removal of a tenant (R442 to R445).
-/

namespace Sys2Proof.Machine

/-- The bytes of `n` consecutive RW registers. -/
def regBytes (s : State) (a n : Nat) : List Byte := (List.range n).flatMap fun i => le 4 (rd s (a + 4 * i))

/-- What only the management context may do (R436): ignored and counted while the link is PLAIN. -/
def managed (s : State) (f : State → State) : State :=
  if s.link.state = 3 then f s else { s with trust := { s.trust with plainWr := s.trust.plainWr + 1 } }

/-! ### Measurement slots (R430) -/

/-- Extends slot n with a measurement, and writes the pinned MEASURE record (R495). -/
def extendSlot (s : State) (n : Nat) (m : List Byte) (rom : Bool) : State :=
  let v := shake256 (slotWord s n ++ m) 32
  let s1 := { s with trust := { s.trust with slots := tabSet s.trust.slots n v } }
  caskRec s1 { kind := 0x05, rom := rom, payload := le 1 n ++ le 3 0 ++ padTo 32 m }

/-- EXTEND_CMD.GO (R430, R436). -/
def extendGo (s : State) : State := managed s fun s => extendSlot s (6 + fld s 0x6200 0 0) (regBytes s 0x6204 8) false

def execExtendGo (s : State) : Out := .next (regEnter s 0x6224 extendGo)

/-- The CDI (R427): from the part's secret, slots 0 to 3 and "SZ820-CDI". -/
def cdi (s : State) : List Byte :=
  shake256 (Config.uds ++ ((List.range 4).flatMap (slotWord s)) ++ [0x53, 0x5A, 0x38, 0x32, 0x30, 0x2D, 0x43, 0x44, 0x49]) 32

/-- The seed d and z of the KEM key (R427): from the CDI and "SZ820-KEM". -/
def kemSeed (s : State) : List Byte := shake256 (cdi s ++ [0x53, 0x5A, 0x38, 0x32, 0x30, 0x2D, 0x4B, 0x45, 0x4D]) 64

/-! ### Attestation (R431 to R434) -/

/-- Bytes 0x000 to 0x87F of a report (R431). -/
def reportBody (s : State) (r : AttReq) : List Byte :=
  let flags := flag 0 s.trust.owned + flag 1 (s.link.state == 3) + flag 2 s.fault.fenced + flag 3 s.boot.pending
  le 4 0x54415A53 ++ le 2 1 ++ le 1 1 ++ le 1 flags ++ padTo 32 r.nonce ++ padTo 64 r.userData
    ++ shake256 (padTo 64 devidKey) 32 ++ padTo 64 (attKey s) ++ padTo 32 s.trust.ownerHash
    ++ padTo 32 Config.vendorHash ++ le 4 s.cask.boot ++ le 4 (epochOf s) ++ le 8 (now s)
    ++ le 2 (if s.comp.map.isSome then nodeId s else 0xFFFF) ++ le 6 0 ++ ((List.range 8).flatMap (slotWord s))
    ++ padTo 1568 (Config.encapsKey (kemSeed s)) ++ le 64 0

/-- Bytes 0x000 to 0x0BF of the endorsement (R432). -/
def endorseBody (s : State) : List Byte :=
  le 4 0x4E455A53 ++ le 2 1 ++ le 1 2 ++ le 1 0 ++ padTo 64 devidKey ++ padTo 64 (attKey s)
    ++ padTo 32 s.trust.ownerHash ++ le 24 0

/-- Report requests that the engine holds, from all paths together (R434). -/
def reportQueue (s : State) : List AttReq := s.trust.queue.filter fun r => !r.endorse

/-- The engine starts to sign the report at its head: its content is fixed now (R428). -/
def startSign (s : State) : State :=
  match s.trust.queue with
  | r :: rest =>
    if r.body.isEmpty && !r.endorse then
      { s with trust := { s.trust with queue := { r with body := reportBody s r } :: rest } }
    else s
  | [] => s

/-- Queues a report request, or refuses it where 16 are queued (R434). -/
def queueReport (s : State) (r : AttReq) : Option State :=
  if 16 ≤ (reportQueue s).length then none
  else some (startSign { s with trust := { s.trust with queue := s.trust.queue ++ [r] } })

/-- Answers a peer (R433). -/
def attestAnswer (s : State) (e : Endpoint) (tag : Nat) (st : Status) (body : List Byte) : State :=
  sendControl s e (attestRspMsg tag st body)

/-- ATT_CMD.REPORT (R431, R434): it may join the queue while the status is busy. -/
def attReport (s : State) : State :=
  match queueReport s { nonce := regBytes s 0x6080 8, userData := regBytes s 0x60A0 16 } with
  | some s1 => { s1 with trust := { s1.trust with attState := 1 } }
  | none => { s with trust := { s.trust with attState := 3 } }

def execAttReport (s : State) : Out := .next (regEnter s 0x60E0 attReport)

/-- ATT_CMD.ENDORSE (R432): a request waits until the endorsement is signed. -/
def attEndorse (s : State) : State :=
  if s.trust.endorsed then { s with trust := { s.trust with attWindow := s.trust.endorsement, attState := 2 } }
  else { s with trust := { s.trust with queue := s.trust.queue ++ [{ endorse := true }], attState := 1 } }

def execAttEndorse (s : State) : Out := .next (regEnter s 0x60E0 attEndorse)

/-- ATTEST_REQ (R433): answered while fenced too. -/
def execAttestReq (src : Endpoint) (reqTag what : Nat) (nonce userData : List Byte) (s : State) : Out :=
  .next <|
    if !s.running then s
    else
      let s0 := takeKind s src 0x1E
      if !mayMark s0 src then discard s0
      else if what = 1 then
        match queueReport s0 { nonce := nonce, userData := userData, peer := some (src, reqTag) } with
        | some s1 => s1
        | none => attestAnswer s0 src reqTag .busyRetry []
      else if what = 2 then
        if s0.trust.endorsed then attestAnswer s0 src reqTag .ok s0.trust.endorsement
        else { s0 with trust := { s0.trust with queue := s0.trust.queue ++ [{ endorse := true, peer := some (src, reqTag) }] } }
      else attestAnswer s0 src reqTag .refusedFit []

/-- SIGNATURE_DONE (R428, R434): the report that the engine signs is complete; its NONCE is remembered, and it goes to the
window or to the peer that asked. -/
def execSignatureDone (signature : List Byte) (s : State) : Out :=
  .next <|
    match takeFirst (fun (r : AttReq) => !r.endorse) s.trust.queue with
    | none => s
    | some (r, rest) =>
      if !s.running then s
      else
        let body := (if r.body.isEmpty then reportBody s r else r.body) ++ padTo 49856 signature
        let s1 := { s with trust := { s.trust with
          queue := rest, nonces := (padTo 32 r.nonce :: s.trust.nonces).take 16, reports := s.trust.reports + 1 } }
        let s2 := match r.peer with
          | some (e, tag) => attestAnswer s1 e tag .ok body
          | none =>
            let more := rest.any fun x => x.peer.isNone
            { s1 with trust := { s1.trust with attWindow := body, attState := (if more then 1 else 2) } }
        startSign s2

/-! ### Link keys (R435) -/

/-- KEM_CMD.LINK: decapsulates, derives both link keys, and exchanges credits again under them; the state is SECURE. -/
def kemLink (s : State) : State :=
  let ss := Config.decaps (kemSeed s) (regBytes s 0x7000 392)
  let nonce := regBytes s 0x6080 8
  let k := shake256 (ss ++ [0x52, 0x41, 0x4E, 0x55, 0x50, 0x2D, 0x4C, 0x49, 0x4E, 0x4B] ++ nonce) 64
  { s with
    link := linkControl { s.link with state := 3, kLink := some k, txSeq := 0, rxSeq := 0, rxDiscard := false, rxFails := 0,
                                      lastAck := 4095, kept := [], limit := [], used := [], epoch := 0, txCount := [],
                                      rxAny := false, rx := {} }
    trust := { s.trust with kemState := 2, kemReason := 0 } }

def execKemLink (s : State) : Out := .next (regEnter s 0x6300 kemLink)

/-! ### Key packages (R437 to R441) -/

/-- A key package (R437). -/
structure Package where
  tenant : Nat
  keygen : Nat
  first : Bool
  fabric : Bool
  nonce : List Byte
  ok : Bool
  deriving DecidableEq, Repr

/-- Reads a package; `ok` says whether it is well-formed. -/
def parsePackage (b : List Byte) : Package :=
  let t := fieldLe b 6 2
  let f := fieldLe b 9 1
  let fabric := bitOf 1 f
  { tenant := t % 4096, keygen := fieldLe b 8 1, first := bitOf 0 f, fabric := fabric, nonce := slice b 0x10 32,
    ok := fieldLe b 0 4 == 0x4B505A53 && fieldLe b 4 2 == 1 && t / 4096 == 0 && f / 4 == 0 && fieldLe b 0x0A 6 == 0
      && fieldLe b 0x65C 4 == 0 && (!fabric || t % 4096 == 0) }

/-- The secrets of a package: TRANSPORT_SECRET and STORAGE_SECRET, where its tag succeeds (R437). -/
def openPackage (s : State) (b : List Byte) : Option (List Byte) :=
  let ss := Config.decaps (kemSeed s) (slice b 0x30 1568)
  let kek := shake256 (ss ++ [0x53, 0x5A, 0x38, 0x32, 0x30, 0x2D, 0x57, 0x52, 0x41, 0x50] ++ slice b 0 0x30) 32
  Config.openBlob kek (slice b 0x650 12 ++ slice b 0 0x660) (slice b 0x660 80)

/-- Check 4 (R439); a tenant in REMOVING is left to check 6 (R445). -/
def keygenFits (t : Tenant) (p : Package) : Bool :=
  if t.state = 2 then true
  else if p.first then
    match t.retired with
    | some g => p.keygen == (g + 1) % 256
    | none => true
  else
    match t.keygen with
    | some g => p.keygen == (g + 1) % 256
    | none => false

/-- Check 5: a fabric package carries no storage secret; a later package of a tenant carries the one that is held. -/
def storageFits (t : Tenant) (p : Package) (secret : List Byte) : Bool :=
  if p.fabric then secret.all (· == 0)
  else p.first || t.state == 2 || secret == t.storage

/-- Check 6. -/
def stateFits (t : Tenant) (p : Package) : Bool :=
  if p.first then t.state == 0 else t.state == 1 && t.prev.isNone

/-- The number under which a package's keys are held. -/
def packageKey (p : Package) : Nat := if p.fabric then 4096 else p.tenant

/-- The reason for which a package is refused (R438), 0 if none; and its secrets. Configuration safe state installs no
package (R467). -/
def packageReason (s : State) (b : List Byte) : Nat × List Byte :=
  let p := parsePackage b
  let t := tenantOf s (packageKey p)
  if s.boot.cfgState = 2 then (6, [])
  else if !p.ok then (1, [])
  else if !s.trust.nonces.contains p.nonce then (2, [])
  else match openPackage s b with
    | none => (3, [])
    | some x =>
      if !keygenFits t p then (4, [])
      else if !storageFits t p (slice x 32 32) then (5, [])
      else if !stateFits t p then (6, [])
      else (0, x)

/-- TK, the transport key of a generation (R440): big-endian fields, the tenant zero for the fabric. -/
def deriveTk (secret : List Byte) (tenant keygen : Nat) : List Byte :=
  shake256 (secret ++ [0x4E, 0x41, 0x53, 0x4F, 0x4C, 0x2D, 0x54, 0x4B] ++ be 2 tenant ++ be 1 keygen) 32

/-- The two XTS keys of a tenant, 256 bits each (R440). They do not depend on the generation. -/
def deriveXts (secret : List Byte) (tenant : Nat) : List Byte :=
  shake256 (secret ++ [0x53, 0x5A, 0x38, 0x32, 0x30, 0x2D, 0x58, 0x54, 0x53] ++ be 2 tenant) 64

/-- KEM_CMD.INSTALL (R438, R440, R441): a package that passes is installed in one step, and the keys are derived from its
secrets; the generation that was current becomes the previous one with its transport key. -/
def kemInstall (s : State) : State :=
  managed s fun s =>
    let b := regBytes s 0x7000 428
    let (r, x) := packageReason s b
    if r ≠ 0 then { s with trust := { s.trust with kemState := 3, kemReason := r } }
    else
      let p := parsePackage b
      let n := packageKey p
      let t := tenantOf s n
      let prev := if p.first then none else t.keygen.map fun g => (g, now s)
      let t1 := { t with state := 1, keygen := some p.keygen, prev := prev, drained := [],
                         transport := deriveTk (slice x 0 32) p.tenant p.keygen,
                         prevTransport := (if p.first then [] else t.transport), storage := slice x 32 32,
                         xts := (if p.fabric then [] else deriveXts (slice x 32 32) p.tenant),
                         evicted := 0, released := 0, deleted := 0 }
      { s with trust := { s.trust with tenants := tabSet s.trust.tenants n t1, kemState := 2, kemReason := 0 } }

def execKemInstall (s : State) : Out := .next (regEnter s 0x6300 kemInstall)

/-! ### Removal (R442 to R444) -/

def modTenant (s : State) (n : Nat) (f : Tenant → Tenant) : State :=
  { s with trust := { s.trust with tenants := tabModD s.trust.tenants n {} f } }

/-- A chained command of a removed tenant is discarded and acknowledged with KEY_RETIRED (R335, R445). -/
def retireChained (s : State) (c : Command) : State :=
  match c.chainedFrom with
  | some p => sendControl s (.node p) (chainAckMsg c.src.num (epochOf s) c.desc.reqId .keyRetired)
  | none => s

/-- The chained commands of a tenant that this node holds are discarded and acknowledged (R335, R337). -/
def retireHeld (s : State) (t : Nat) : State :=
  let mine := fun (c : Command) => c.tenant == t
  let held := (s.comp.heldChains.map fun h => h.cmd).filter mine
  let s1 := { s with comp := { s.comp with heldChains := s.comp.heldChains.filter fun h => !mine h.cmd } }
  foldState (fun s c => retireChained (if isLive s c then dropOutcome (dropLive s (cmdKey c)) (cmdKey c) else s) c) s1 held

/-- The waiting commands of a tenant leave their queues and are answered KEY_RETIRED (R442), which is recorded (R131); chained
ones are acknowledged with it. -/
def retireWaiting (s : State) (t : Nat) : State :=
  let mine := fun (c : Command) => !c.sys && c.tenant == t
  let ws := (waitingCommands s ++ s.comp.chainStore).filter mine
    ++ (s.queues.filterMap fun e => e.2.blocked.map fun b => b.cmd).filter mine
  let clear := fun (d : AdmDie) =>
    { d with queues := d.queues.map fun e => (e.1, { e.2 with items := e.2.items.filter fun i => !mine i.cmd }) }
  let s1 := { s with
    queues := s.queues.map fun e => (e.1, { e.2 with waiting := e.2.waiting.filter fun c => !mine c
                                                     blocked := e.2.blocked.filter fun b => !mine b.cmd })
    sched := { s.sched with w := clear s.sched.w, e := clear s.sched.e }
    comp := { s.comp with chainStore := s.comp.chainStore.filter fun c => !mine c } }
  let away := fun (s : State) (c : Command) =>
    if c.chainedFrom.isSome then retireChained s c else answer (settleNew s c .keyRetired) c { status := .keyRetired }
  drainQueues (retireHeld (foldState away s1 ws) t)

/-- TEN_CMD.REMOVE for an ACTIVE tenant (R442): in one step the generation is retired, waiting commands are answered, and its
sequences, guest objects and regions go (log entry 41). -/
def removeTenant (s : State) (t : Nat) : State :=
  let x := tenantOf s t
  let g := x.keygen.getD 0
  let qs := (s.mem.seqs.map Prod.fst).filter fun q => q.tenant == t
  let gs := s.mem.guests.filter fun g => g.seq.tenant == t
  let rs := (s.ledger.regions.filter fun r => r.2.tenant == t).map Prod.fst
  let t1 := { x with state := 2, keygen := none, prev := some (g, now s), retired := some g, drained := [],
                     prevTransport := x.transport, transport := [],
                     evicted := qs.length, released := gs.length, deleted := rs.length }
  let s1 := { s with trust := { s.trust with tenants := tabSet s.trust.tenants t t1 } }
  let s2 := caskNote s1 0x40 (le 2 t ++ le 1 1 ++ le 1 g ++ le 12 0)
  let s3 := retireWaiting s2 t
  let s4 := foldState evictSeq s3 qs
  let s5 := foldState (fun s (g : Guest) => discardGuest s g.origin g.seq) s4 gs
  foldState deleteRegion s5 rs

/-- TEN_CMD.REMOVE (R442, R445). -/
def tenantRemove (s : State) : State :=
  managed s fun s =>
    let t := fld s 0x6400 11 0
    if (tenantOf s t).state = 1 then removeTenant s t
    else { s with trust := { s.trust with ignored := tabModD s.trust.ignored t 0 (· + 1) } }

def execTenantRemove (s : State) : Out := .next (regEnter s 0x6408 tenantRemove)

/-- The at-rest jobs of a tenant that still run at the erasure are stopped (R443): a read of an extent fails its check, and a
write-down installs no extent. -/
def stopSealed (s : State) (t : Nat) : State :=
  let mine := fun (lpn : Nat) => (sSeq s lpn).tenant == t
  let downs := s.mem.downs.filter fun d => mine d.lpn
  let s1 := { s with mem := { s.mem with
    downs := s.mem.downs.filter fun d => !mine d.lpn
    codec := s.mem.codec.map fun j => if !j.encode && mine j.lpn then { j with readErr := true } else j } }
  foldState codecEnd s1 (downs.filterMap fun d => d.job)

/-- The key store erases a retired generation (R443): at a removal the XTS keys too, which stops the at-rest jobs that still
run under them. -/
def eraseKeys (s : State) (t : Nat) : State :=
  if (tenantOf s t).state = 2 then
    tenantAbsent (modTenant (stopSealed s t) t fun x =>
      { x with prev := none, drained := [], xts := [], transport := [], prevTransport := [], storage := [] }) t
  else tenantAbsent (modTenant s t fun x => { x with prev := none, drained := [], prevTransport := [] }) t

/-- DRAIN_FENCE (R443): with the last of the 32 engines, the keys are erased. -/
def execDrainFence (engine : Fin 32) (tenant : Nat) (s : State) : Out :=
  .next <|
    let x := tenantOf s tenant
    if !s.running || x.prev.isNone then s
    else
      let d := if x.drained.contains engine.val then x.drained else x.drained ++ [engine.val]
      let s1 := modTenant s tenant fun x => { x with drained := d }
      if d.length = 32 then eraseKeys s1 tenant else s1

/-- KEY_DRAIN_EXPIRY (R443): KEY_DRAIN is 1,000,000 ticks. -/
def execKeyDrainExpiry (tenant : Nat) (s : State) : Out :=
  .next <|
    match (tenantOf s tenant).prev with
    | none => s
    | some (_, since) => if s.running && elapsed s since 1000000 then eraseKeys s tenant else s

end Sys2Proof.Machine
end

