-- ==== Sys2Proof/Machine/Faults.lean ====
section
/-!
DEFINITION. Machine/Faults.lean: the fault collector (R477 to R483), the actions on units (R480, R484 to R489), injection
(R491, R492), and the Cask's interface and reads (R493 to R501).
-/

namespace Sys2Proof.Machine

/-! ### Records (R494, R496) -/

/-- The 64 bytes of a record; an inverted CRC where the record was written so. -/
def caskBytes (r : CaskRec) : List Byte :=
  let body := le 1 r.kind ++ le 1 (b2n r.pinned + flag 1 r.rom + flag 2 r.injected + flag 3 r.gap) ++ le 6 r.seq ++ le 4 r.boot
    ++ le 4 0 ++ le 8 r.counter ++ padTo 36 r.payload
  let c := crc32c body
  body ++ le 4 (if r.badCrc then ~~~c else c).toNat

/-- The payload of the FAULT family (R496). -/
def faultPayload (s : State) (ev : FaultEv) (sev : Nat) (escalated : Bool) (arg actions : Nat) : List Byte :=
  let x := srcOf s ev.source
  le 1 ev.source ++ le 1 (sev + flag 2 escalated) ++ le 1 ev.unit.kind ++ le 1 0 ++ le 2 ev.unit.num ++ le 2 ev.detail
    ++ le 4 (if pWinEn s ev.source then x.win else 0) ++ le 4 x.total ++ le 8 arg ++ le 1 actions

def faultRecord (s : State) (kind : Nat) (ev : FaultEv) (sev : Nat) (escalated : Bool) (actions : Nat) : State :=
  caskRec s { kind := kind, injected := ev.injected, payload := faultPayload s ev sev escalated ev.arg actions }

/-! ### Actions on units (R480, R484) -/

/-- Whether R484 marks a unit kind for ISOLATE, and for SWAP. -/
def mayIsolate (kind : Nat) : Bool := [1, 2, 3, 4, 5, 7].contains kind
def maySwap (kind : Nat) : Bool := [2, 3, 5].contains kind

/-- A cipher engine is isolated (R485): a link engine takes down every sub-port of its port. -/
def cipherOut (s : State) (n : Nat) : State :=
  if s.fault.ciphers.contains n then s
  else
    let s1 := { s with fault := { s.fault with ciphers := s.fault.ciphers ++ [n] } }
    let s2 := if n < 24 then foldState (fun s b => modSub s (n / 2) b fun x => { x with up := false }) s1 (List.range 4) else s1
    caskAction s2 2 { kind := 7, num := n } 0

/-- ISOLATE (R480, R484): the unit leaves service as if it had failed with no spare. -/
def isolateUnit (s : State) (u : UnitRef) : State :=
  match u.kind with
  | 1 => if (chanOf s u.num).disabled then s else disableChannel s (u.num / 32) (u.num % 32)
  | 2 => if (chanOf s (u.num / 32)).disabled then s else disableChannel s (u.num / 1024) (u.num / 32 % 32)
  | 3 => tileOut s u.num
  | 4 =>
    if (lanesLive (clusterOf s (u.num / 48)) (decide (32 ≤ u.num % 48))).contains (u.num % 48) then
      laneOut s (u.num / 48) (u.num % 48) else s
  | 5 =>
    let p := u.num / 8
    let lane := u.num % 8
    if (fabPort s p).downLanes.contains lane then s
    else
      let n := subCount (pPortMode s p)
      let s1 := modFab s p fun y => { y with downLanes := y.downLanes ++ [lane] }
      if n = 0 then s1 else caskAction (modSub s1 p (lane / (8 / n)) fun y => { y with up := false }) 2 u 0
  | 7 => cipherOut s u.num
  | _ => s

/-- SWAP (R480, R488): a free spare of the unit's group replaces it; with no free spare, ISOLATE. -/
def swapUnit (s : State) (u : UnitRef) : State :=
  match u.kind with
  | 2 => unitReplace s (u.num / 1024) (u.num / 32 % 32) (u.num % 32) false true
  | 3 => tileReplace s u.num (u.num % 16) true
  | 5 => laneReplace s (u.num / 8) (u.num % 8) false
  | _ => s

/-- ISOLATE and SWAP of an event: none where a fixed response has already dealt with the unit (R481). -/
def unitActions (s : State) (ev : FaultEv) (actions : Nat) : State :=
  if ev.unitDone then s
  else if bitOf 1 actions && mayIsolate ev.unit.kind then isolateUnit s ev.unit
  else if bitOf 2 actions && maySwap ev.unit.kind then swapUnit s ev.unit
  else s

/-! ### The collector (R477 to R482) -/

/-- The event sets its source's sticky bit; the first one since the bit was cleared writes FIRST_FAULT (R478). -/
def setSticky (s : State) (ev : FaultEv) (sev : Nat) (escalated : Bool) (actions : Nat) : State :=
  if (srcOf s ev.source).sticky then s
  else
    let s1 := modSrc s ev.source fun x => { x with sticky := true }
    faultRecord { s1 with fault := { s1.fault with order := s1.fault.order ++ [ev.source] } } 0x11 ev sev escalated actions

/-- LOG (R480): at most 16 records of a source in its log period; the others are counted. FIRST_FAULT stands for the FAULT
record of its event and counts (R478). -/
def logEvent (s : State) (ev : FaultEv) (sev : Nat) (escalated first : Bool) (actions : Nat) : State :=
  let x := srcOf s ev.source
  let start := x.logStart.getD (now s)
  if x.logCount < 16 then
    let s1 := modSrc s ev.source fun x => { x with logStart := some start, logCount := x.logCount + 1 }
    if first then s1 else faultRecord s1 0x10 ev sev escalated actions
  else if first then s
  else modSrc s ev.source fun x => { x with logMissed := x.logMissed + 1 }

/-- An event is counted (R477), unless its source is MASKED (R479). -/
def countEvent (s : State) (ev : FaultEv) : State :=
  let n := ev.source
  if pSeverity s n = 0 then s
  else modSrc s n fun x => { x with total := x.total + 1, win := if pWinEn s n then x.win + 1 else x.win }

/-- Whether this event escalates its source (R481). -/
def escalates (s : State) (n : Nat) : Bool :=
  pSeverity s n != 0 && pWinEn s n && !(srcOf s n).escalated && decide (pThreshold s n ≤ (srcOf s n).win)

/-- An event is handled: counts, sticky bit, escalation, then the actions of the effective severity (R480, R481). -/
def handleEvent (s : State) (ev : FaultEv) : State :=
  let n := ev.source
  let s1 := countEvent s ev
  let esc := escalates s1 n
  let s2 := if esc then modSrc s1 n fun x => { x with escalated := true } else s1
  let sev := effSeverity s2 n
  let actions := if sev = 0 then 0 else pSevAction s2 sev
  let first := !(srcOf s2 n).sticky
  let s3 := setSticky s2 ev sev esc actions
  let s4 := if esc then faultRecord s3 0x12 ev sev true actions else s3
  let s5 := if bitOf 0 actions then logEvent s4 ev sev esc first actions else s4
  let s6 := unitActions s5 ev actions
  let s7 := if bitOf 3 actions then fenceNode s6 1 n else s6
  if bitOf 4 actions && (esc || pSeverity s7 n == 3) then halo s7 2 else s7

/-- The end of fault window k (R481): its sources with fewer than N events return to their severity; the counts restart. -/
def windowEnd (s : State) (k : Nat) : State :=
  let mine := (List.range 63).filter fun n => pWinEn s n && pWindow s n == k
  let s1 := foldState (fun s n => modSrc s n fun x =>
    { x with escalated := x.escalated && decide (pThreshold s n ≤ x.win), win := 0 }) s mine
  { s1 with fault := { s1.fault with winEnd := tabSet s1.fault.winEnd k (tabGetD s1.fault.winEnd k 0 + pFwinLen s1 k) } }

/-- Whether window k has ended. -/
def windowDue (s : State) (k : Nat) : Bool :=
  pFwinEn s k && match tabGet s.fault.winEnd k with
    | some t => decide (t ≤ now s)
    | none => false

/-- FAULT_WINDOW_END. -/
def execFaultWindowEnd (window : Fin 16) (s : State) : Out :=
  .next <| if s.running && windowDue s window.val then windowEnd s window.val else s

/-- The sources of checks that no other row makes (R476): the Kiln, the supervisors, Cask writes, the trust hardware, the
ciphers, the walkers, the schedulers, the quadrant switches, the ports' FEC, the context cache and the directory. -/
def selfSource (n : Nat) : Bool := [1, 2, 3, 4, 5, 9, 12, 13, 37, 39, 40, 53, 54].contains n || inRange 41 53 n

/-- The unit that such an event names (R476): a cipher engine, a port's lane, or none. -/
def selfUnit (c : SelfCheck) : UnitRef :=
  if c.source = 13 then { kind := 7, num := c.num }
  else if inRange 41 53 c.source then { kind := 5, num := 8 * (c.source - 41) + c.num % 8 }
  else {}

/-- A check of the node's own hardware fails (R476): the source rises; a port counts an uncorrectable codeword (R314), a
quadrant a parity failure of its switch (R536). -/
def selfCheck (s : State) (c : SelfCheck) : State :=
  let s1 := if inRange 41 53 c.source then modFab s (c.source - 41) fun x => { x with fecUncorr := x.fecUncorr + 1 }
    else if c.source = 40 then modQuad s (c.num % 4) fun q => { q with qswParity := q.qswParity + 1 }
    else s
  raise s1 { source := c.source, unit := selfUnit c, detail := c.detail }

/-- FAULT_EVENT (R480, R482): a failed check of the node's own hardware rises, if the command brings one; then the earliest
event is handled, and a window of its source that has ended is ended first. -/
def execFaultEvent (s0 : State) (check : Option SelfCheck := none) : Out :=
  .next <|
    let s := match check with
      | some c => if s0.running && selfSource c.source then selfCheck s0 c else s0
      | none => s0
    match s.fault.events with
    | [] => s
    | ev :: rest =>
      if !s.running then s
      else
        let s1 := { s with fault := { s.fault with events := rest } }
        let k := pWindow s1 ev.source
        handleEvent (if pWinEn s1 ev.source && windowDue s1 k then windowEnd s1 k else s1) ev

/-- EVENT_LINE_DROP (R477): 1,000 ticks after the latest event. -/
def execEventLineDrop (source : Fin 64) (s : State) : Out :=
  .next <|
    match (srcOf s source.val).lineSince with
    | none => s
    | some t => if s.running && elapsed s t 1000 then modSrc s source.val fun x => { x with lineSince := none } else s

/-- LOG_PERIOD_END (R480): 100,000,000 ticks; FAULT_SUMMARY carries the number of events that were not recorded. -/
def execLogPeriodEnd (source : Fin 64) (s : State) : Out :=
  .next <|
    let n := source.val
    let x := srcOf s n
    match x.logStart with
    | none => s
    | some t =>
      if s.running && elapsed s t 100000000 then
        let s1 := if x.logMissed = 0 then s else
          caskNote s 0x13 (faultPayload s { source := n } (effSeverity s n) false x.logMissed 0)
        modSrc s1 n fun x => { x with logStart := none, logCount := 0, logMissed := 0 }
      else s

/-- Clears the sticky bits that a word names (R478). -/
def stickyClr (s : State) (high : Bool) (bits : Nat) : State :=
  let hit := fun (n : Nat) => (if high then decide (32 ≤ n) else decide (n < 32)) && bitOf (n % 32) bits
  { s with fault := { s.fault with
    srcs := s.fault.srcs.map fun e => if hit e.1 then (e.1, { e.2 with sticky := false }) else e
    order := s.fault.order.filter fun n => !hit n } }

/-- STICKY_CLR (R478). -/
def execStickyClr (high : Bool) (bits : Word32) (s : State) : Out :=
  .next (regEnter s (if high then 0x2014 else 0x2010) fun s => stickyClr s high bits.toNat)

/-! ### Injection (R491, R492) -/

/-- Units of each checker's kind (R484, R491). -/
def checkerUnits (checker : Nat) : Nat :=
  match checker with
  | 1 | 2 | 3 => 384
  | 4 => 8
  | 5 => 64
  | 6 => 12288
  | 7 => 192
  | 8 => 12
  | 9 => 1
  | 10 => 16
  | 11 => 2
  | 12 => 1
  | _ => 0

/-- INJ_CMD.ARM (R492): ignored and counted while an injection is armed. -/
def injArm (s : State) : State :=
  if s.fault.inj.status = 1 then { s with badvalWr := s.badvalWr + 1 }
  else
    let c := fld s 0x2044 3 0
    let u := fld s 0x2044 23 8
    if pInjectEn s && s.link.state == 3 && decide (u < checkerUnits c) then
      { s with fault := { s.fault with
        inj := { s.fault.inj with status := 1, checker := c, mode := fld s 0x2044 4 4, unit := u } } }
    else { s with fault := { s.fault with inj := { s.fault.inj with status := 3 } } }

def execInjArm (s : State) : Out := .next (regEnter s 0x2048 injArm)

/-- INJ_CMD.DISARM. -/
def injDisarm (s : State) : State :=
  if s.fault.inj.status = 1 then { s with fault := { s.fault with inj := { s.fault.inj with status := 0 } } } else s

def execInjDisarm (s : State) : Out := .next (regEnter s 0x2048 injDisarm)

/-! ### Cask (R497 to R501) -/

/-- CASK_CMD.READ (R501): a record that is absent, or whose CRC fails, gives state 3. -/
def caskRead (s : State) : State :=
  let seq := rd s 0x2820 + 4294967296 * fld s 0x2824 15 0
  match (s.cask.segs.flatMap fun e => e.2.recs).find? fun r => r.seq == seq with
  | none => { s with cask := { s.cask with rstate := 3, data := [] } }
  | some r =>
    if r.badCrc then { s with cask := { s.cask with rstate := 3, data := [], bad := s.cask.bad + 1 } }
    else { s with cask := { s.cask with rstate := 2, data := caskBytes r } }

def execCaskRead (s : State) : Out := .next (regEnter s 0x2828 caskRead)

/-- Appends a record to its segment. -/
def caskStore (c : CaskSt) (j : CaskJob) (bad : Bool) : CaskSt :=
  { c with segs := tabModD c.segs j.segment {} fun g => { g with recs := g.recs ++ [{ j.record with badCrc := bad }] } }

/-- The record at the head of the queue is written (R497). -/
def caskWriteHead (s : State) (bad : Bool) : State :=
  match s.cask.queue with
  | [] => s
  | j :: rest => { s with cask := caskStore { s.cask with queue := rest } j bad }

/-- The record that has waited longest takes the place that has become free (R497). -/
def caskAdmit (s : State) : State :=
  match s.cask.waiting with
  | [] => s
  | r :: rest =>
    if s.cask.queue.length < 256 then
      let s1 := { s with cask := caskPlace { s.cask with waiting := rest } r }
      if s1.cask.pinFull && !s.cask.pinFull then raise s1 { source := 9 } else s1
    else s

/-- CASK_RECORD_WRITE (R497, R491): an armed CASK_CRC injection inverts the record's CRC. -/
def execCaskRecordWrite (s : State) : Out :=
  .next <|
    if !s.running || s.cask.queue.isEmpty then s
    else match fireInj s 12 0 with
      | some (_, s1) => caskAdmit (caskWriteHead s1 true)
      | none => caskAdmit (caskWriteHead s false)

end Sys2Proof.Machine
end

