-- ==== Sys2Proof/Machine/Boot.lean ====
section
/-!
DEFINITION. Machine/Boot.lean: the flash (R450, R451, R455), staging (R458, R468), the fuses (R469), the configuration image
(R459 to R468), the power-up sequence (R452 to R457, R500, R210, R13, R432) and pin reset (R470, R527, R547).
-/

namespace Sys2Proof.Machine

/-! ### Flash areas (R450) -/

/-- Bytes of the flash; erased flash reads ones (log entry 50). -/
def flashRead (s : State) (a n : Nat) : List Byte := memReadN 0xFF s.boot.flash a n

def setFlash (s : State) (m : Mem) : State := { s with boot := { s.boot with flash := m } }

def bankBase (bank : Nat) : Nat := if bank = 0 then 0x100000 else 0x1000000
def bankLen : Nat := 0xF00000
def cfgBase (slot : Nat) : Nat := if slot = 0 then 0x2000000 else 0x2400000
def slotLen : Nat := 0x400000

/-! ### The directory (R451) -/

/-- The directory in use: the copy it lies in and its fields. -/
structure Directory where
  copy : Nat := 1
  seq : Nat := 0
  active : Nat := 0
  pending : Bool := false
  tried : Bool := false
  deriving DecidableEq, Repr

/-- A copy of the directory, if it is valid. -/
def dirCopy (s : State) (copy : Nat) : Option Directory :=
  let b := flashRead s (0x10000 * copy) 64
  let flags := fieldLe b 8 1
  if fieldLe b 0 4 = 0x5249445A ∧ fieldLe b 0x3C 4 = (crc32c (b.take 60)).toNat then
    some { copy := copy, seq := fieldLe b 4 4, active := flags % 2, pending := bitOf 1 flags, tried := bitOf 2 flags }
  else none

/-- The directory in use: the valid copy with the higher DSEQ, or none pending. -/
def readDirectory (s : State) : Directory :=
  match dirCopy s 0, dirCopy s 1 with
  | some a, some b => if a.seq < b.seq then b else a
  | some a, none => a
  | none, some b => b
  | none, none => {}

/-- The 64 bytes of a directory record. -/
def dirBytes (d : Directory) : List Byte :=
  let body := le 4 0x5249445A ++ le 4 d.seq ++ le 4 (d.active + flag 1 d.pending + flag 2 d.tried) ++ le 48 0
  body ++ le 4 (crc32c body).toNat

/-- The node's view of the directory in use. -/
def useDirectory (s : State) (d : Directory) : State :=
  { s with boot := { s.boot with dirSeq := d.seq, dirCopy := d.copy, active := d.active, pending := d.pending, tried := d.tried } }

/-- A directory write: to the copy that is not in use, with DSEQ one higher. -/
def writeDirectory (s : State) (active : Nat) (pending tried : Bool) : State :=
  let d : Directory := { copy := 1 - s.boot.dirCopy, seq := (s.boot.dirSeq + 1) % 4294967296, active := active,
                         pending := pending, tried := tried }
  useDirectory (setFlash s (memWriteN 0xFF s.boot.flash (0x10000 * d.copy) (dirBytes d))) d

/-! ### Firmware images (R429, R455) -/

/-- Image k of a bank (0 Kiln, 1 mash, 2 tile) with its release number, if R429 accepts it. -/
def fwImage (s : State) (bank k : Nat) : Option (List Byte × Nat) :=
  let h := flashRead s (bankBase bank) 64
  let off := fieldLe h (4 + 8 * k) 4
  let len := fieldLe h (8 + 8 * k) 4
  if fieldLe h 0 4 = 0x4B4E425A ∧ 29920 ≤ len ∧ off + len ≤ bankLen then
    let b := flashRead s (bankBase bank + off) len
    let body := fieldLe b 0xC 4
    let key := (b.drop (64 + body)).take 64
    if fieldLe b 0 4 = 0x47465A53 ∧ fieldLe b 4 1 = k + 1 ∧ len = 64 + body + 64 + 29792
        ∧ shake256 key 32 = padTo 32 Config.vendorHash
        ∧ Config.verify key (b.take (128 + body)) (b.drop (128 + body)) = true then
      some (b, fieldLe b 8 4)
    else none
  else none

/-- The three images of a bank, if all verify. -/
def bankImages (s : State) (bank : Nat) : Option (List (List Byte × Nat)) :=
  match fwImage s bank 0, fwImage s bank 1, fwImage s bank 2 with
  | some a, some b, some c => some [a, b, c]
  | _, _, _ => none

/-! ### The configuration image (R459 to R463) -/

/-- A section: its offset, its TYPE and its value. -/
structure CfgSection where
  off : Nat
  kind : Nat
  value : List Byte
  deriving DecidableEq, Repr

/-- The sections of an image from an offset on, and the offset of one that breaks R460 (or of the end, where it is not
IMAGE_LEN). -/
def cfgSections (b : List Byte) (limit : Nat) : Nat → Nat → List CfgSection × Option Nat
  | 0, off => ([], if off = limit then none else some off)
  | n + 1, off =>
    let kind := fieldLe b off 2
    let len := fieldLe b (off + 4) 4
    let size := ceilDiv len 8 * 8
    let bad := kind == 0 || decide (3 < kind) || fieldLe b (off + 2) 2 != 0 || decide (limit < off + 8 + size)
    if bad || !((slice b (off + 8 + len) (size - len)).all (· == 0)) then ([], some off)
    else
      let r := cfgSections b limit n (off + 8 + size)
      ({ off := off, kind := kind, value := slice b (off + 8) len } :: r.1, r.2)

/-- Entry i of a section's value with entries of n bytes. -/
def cfgEntry (x : CfgSection) (n i : Nat) : List Byte := slice x.value (n * i) n

/-- Whether a section's value has the layout of its type (R461 to R463). -/
def sectionOk (x : CfgSection) : Bool :=
  let v := x.value
  match x.kind with
  | 1 => v.length % 8 == 0
  | 2 => v.length % 24 == 0 && (List.range (v.length / 24)).all fun i =>
      let e := cfgEntry x 24 i
      decide (fieldLe e 0 1 < 12) && decide (fieldLe e 1 1 < 4) && fieldLe e 2 6 == 0
  | _ =>
    decide (4 ≤ v.length) && decide (fieldLe v 0 1 ≤ 13) && decide (1 ≤ fieldLe v 1 1) && decide (fieldLe v 1 1 ≤ 64)
      && fieldLe v 2 2 == 0 && v.length == 4 + 4 * fieldLe v 1 1

/-- What may stand only once: REGS, ADDR6, and GATES of one unit (R460). -/
def sectionKey (x : CfgSection) : Nat := if x.kind = 3 then 16 + fieldLe x.value 0 1 else x.kind

/-- The first section that breaks its layout or repeats another. -/
def badSection : List CfgSection → List Nat → Option Nat
  | [], _ => none
  | x :: l, seen =>
    if !sectionOk x || seen.contains (sectionKey x) then some x.off else badSection l (sectionKey x :: seen)

/-- IMAGE_LEN and SECTIONS of an image. -/
def imageLen (b : List Byte) : Nat := fieldLe b 8 4
def imageSections (b : List Byte) : List CfgSection := (cfgSections b (imageLen b) (fieldLe b 6 2) 64).1

/-- Check 2 of R465: none, or the offset it fails at (0xFFFF_FFFF for the header). -/
def formatFault (b : List Byte) : Option Nat :=
  let n := fieldLe b 6 2
  if fieldLe b 0 4 ≠ 0x4746435A ∨ fieldLe b 4 2 ≠ 1 ∨ n = 0 ∨ 64 < n ∨ 4164448 < imageLen b
      ∨ (slice b 0x10 48).all (· == 0) = false then some 0xFFFFFFFF
  else match cfgSections b (imageLen b) n 64 with
    | (l, none) => badSection l []
    | (l, some off) => some ((badSection l []).getD off)

/-- The REGS entries of an image: offset, address and value (R461). -/
def regsEntries (b : List Byte) : List (Nat × Nat × Nat) :=
  (imageSections b).flatMap fun x => if x.kind = 1 then
    (List.range (x.value.length / 8)).map fun i => (x.off + 8 + 8 * i, fieldLe (cfgEntry x 8 i) 0 4, fieldLe (cfgEntry x 8 i) 4 4)
  else []

/-- The GATES lists of an image: offset of the first entry, unit and entries (R463). -/
def gatesLists (b : List Byte) : List (Nat × Nat × List GateEntry) :=
  (imageSections b).filterMap fun x => if x.kind = 3 then
    some (x.off + 12, fieldLe x.value 0 1, (List.range (fieldLe x.value 1 1)).map fun i =>
      let w := fieldLe x.value (4 + 4 * i) 4
      { opens := w % 256, ticks := w / 256 })
  else none

/-- The ADDR6 entries of an image: 4 × port + sub-port, and the address (R462). -/
def addr6Entries (b : List Byte) : List (Nat × List Byte) :=
  (imageSections b).flatMap fun x => if x.kind = 2 then
    (List.range (x.value.length / 24)).map fun i =>
      let e := cfgEntry x 24 i
      (4 * fieldLe e 0 1 + fieldLe e 1 1, slice e 8 16)
  else []

/-! ### Ranges (R465 check 4, R523) -/

/-- The bits that the host or the image may write. -/
def writable (d : RegDef) : Nat := Nat.lor (fieldMask d.rw) d.rwl

/-- Whether a value lies in the range of the RW field of register `a` whose lowest bit is `lo` (R523). -/
def fieldOk (a lo v : Nat) : Bool :=
  let gate := inRange 0x40100 0x402C0 a
  if a = 0x1034 then v % 2048 == 0
  else if a = 0x6008C then decide (1 ≤ v) && decide (v ≤ 512)
  else if a = 0x20038 then decide (1 ≤ v) && decide (v ≤ 256)
  else if a = 0x4005C then decide (1 ≤ v) && decide (v ≤ 16)
  else if a = 0x30124 && lo == 0 then decide (1 ≤ v) && decide (v ≤ 4096)
  else if gate && (a - 0x40100) % 32 == 8 && lo == 8 then decide (1 ≤ v) && decide (v ≤ 64)
  else if gate && (a - 0x40100) % 32 == 24 && lo == 8 then decide (1 ≤ v)
  else true

/-- Whether a value lies between two limits. -/
def between (lo hi v : Nat) : Bool := decide (lo ≤ v) && decide (v ≤ hi)

/-- Ranges of the CONFIG/LOCK parameters (R78, R140, R171, R175, R350). -/
def configRange (a w : Nat) : Bool :=
  match a with
  | 0x1100 => between 256 65536 w
  | 0x1104 => decide (w ≤ 262144)
  | 0x110C => decide (bitsOf 3 0 w ≤ 8) && between 1 4096 (bitsOf 16 4 w)
  | 0x1110 => decide (bitsOf 19 0 w ≤ 1000000) && decide (bitsOf 27 21 w ≤ 64) && decide (bitsOf 30 28 w ≤ 4)
  | 0x1120 => between 1000000 100000000 w
  | 0x1124 => decide (w ≤ 1000000000)
  | 0x1128 => between 10000 10000000 (bitsOf 23 0 w) && between 2 64 (bitsOf 30 24 w)
  | 0x112C => between 1000 10000000 w
  | 0x1130 => between 1 1000 (bitsOf 9 0 w)
  | _ => true

/-- The die of a gate unit and of a fault window (R466, R481). -/
def unitEast (u : Nat) : Bool := u == 1 || decide (8 ≤ u)
def windowEast (k : Nat) : Bool := decide (8 ≤ k)

/-- Ranges of the FAULT fields (R503). -/
def faultRange (a w : Nat) : Bool :=
  let o := a - 0x2000
  if inRange 0x80 0x100 o then
    (if o % 8 = 0 then !bitOf 6 w || decide (32 ≤ bitsOf 5 0 w) == windowEast ((o - 0x80) / 8) else decide (1000 ≤ w))
  else if inRange 0x100 0x500 o then decide (1 ≤ bitsOf 23 8 w)
  else true

/-- Ranges of the PORT fields (R270, R312). -/
def portRange (a w : Nat) : Bool :=
  match a with
  | 0x20000 =>
    decide (0x600 ≤ bitsOf 15 0 w) && !([0x0800, 0x86DD, 0x8100, 0x8808, 0x88A8].contains (bitsOf 15 0 w))
      && decide (1024 ≤ bitsOf 31 16 w)
  | 0x20004 => decide (1 ≤ bitsOf 7 0 w) && between 1518 9216 (bitsOf 29 16 w)
  | 0x20008 => between 200 100000 w
  | 0x2000C => decide (w ≤ 10000000)
  | 0x20010 => decide (1 ≤ bitsOf 3 0 w) && between 10 10000 (bitsOf 31 16 w)
  | 0x20014 => between 16 4096 w
  | 0x20018 => decide (100000000 ≤ w)
  | _ => !(inRange 0x20100 0x20400 a && a % 64 == 0) || decide (bitsOf 3 0 w ≤ 6)

/-- Ranges of the scheduler and gate fields (R370, R372). -/
def schedRange (a w : Nat) : Bool :=
  let o := a - 0x40000
  if o < 0x20 then decide (1 ≤ w)
  else if o < 0x40 then decide (256 ≤ w)
  else if o = 0x40 then decide (bitsOf 5 3 w ≤ 6) && decide (bitsOf 12 8 w ≤ 16)
  else if o = 0x44 then decide (1 ≤ w)
  else if inRange 0x100 0x2C0 o && o % 32 == 0 then
    !bitOf 0 w || decide (32 ≤ bitsOf 6 1 w) == unitEast ((o - 0x100) / 32)
  else true

/-- Ranges of the tier and Cellar fields (R240, R269). -/
def tierRange (a w : Nat) : Bool :=
  match a with
  | 0x60000 => decide (bitsOf 1 0 w ≤ 2) && between 1 8 (bitsOf 5 2 w) && between 1 8 (bitsOf 9 6 w)
  | 0x60004 => decide (w ≤ 1000000)
  | 0x60008 => between 1000 10000000 w
  | 0x6000C => decide (w ≤ 262144)
  | 0x60010 => decide (w ≤ 1048576)
  | 0x60014 => decide (1 ≤ bitsOf 15 0 w)
  | 0x60018 => decide (10000 ≤ w)
  | 0x60240 => decide (1000000 ≤ w)
  | _ => true

/-- Whether the fields of a register lie in their ranges (R465 check 4). -/
def registerRange (a w : Nat) : Bool :=
  (((regDef a).map fun d => d.rw.all fun f => fieldOk a f.2 (bitsOf f.1 f.2 w)).getD true)
    && (if a < 0x2000 then configRange a w
        else if a < 0x3000 then faultRange a w
        else if a = 0x5024 then decide (600 ≤ bitsOf 9 0 w) && decide (bitsOf 19 10 w ≤ 850)
        else if inRange 0x20000 0x30000 a then portRange a w
        else if a = 0x30000 then decide (1 ≤ bitsOf 1 0 w) && decide (bitsOf 3 2 w ≤ 2)
        else if a = 0x30100 then decide (w ≤ 16777216)
        else if inRange 0x40000 0x50000 a then schedRange a w
        else if inRange 0x60000 0x70000 a then tierRange a w
        else if a = 0x70000 then between 1 16 (bitsOf 4 0 w)
        else true)

/-! ### Checks 3 to 6 -/

/-- Whether an entry meets R461 by itself: a register outside TRUST, MAILBOX and SNAPDATA with a field to write, and zeros
elsewhere. -/
def entryOk (a v : Nat) : Bool :=
  a % 4 == 0 && !inRange 0x4000 0x5000 a && !inRange 0x6000 0x10000 a && decide (a < 0x90000)
    && match regDef a with
      | none => false
      | some d => writable d != 0 && Nat.land v (writable d) == v

/-- Check 3: the first entry that breaks R461. -/
def registerFault : List (Nat × Nat × Nat) → List Nat → Option Nat
  | [], _ => none
  | (off, a, v) :: l, seen => if !entryOk a v || seen.contains a then some off else registerFault l (a :: seen)

/-- Check 4: the first entry out of range. -/
def rangeFault (b : List Byte) : Option Nat :=
  let regs := ((regsEntries b).filter fun e => !registerRange e.2.1 e.2.2).map Prod.fst
  let gates := (gatesLists b).flatMap fun g => (List.range g.2.2.length).filterMap fun i =>
    if (g.2.2.getD i {}).ticks = 0 then some (g.1 + 4 * i) else none
  (regs ++ gates).min?

/-- Stores the RW and RWL fields of a register, some of which the state holds elsewhere: a queue's binding, an entry of a
pending gate list, a tenant's weight. -/
def storeReg (s : State) (a mask w : Nat) : State :=
  let merge := fun (old : Nat) => (old - Nat.land old mask) + Nat.land w mask
  if inRange 0x21000 0x25000 a && a % 16 == 0 then
    let q := (a - 0x21000) / 16
    writeBind s q (BitVec.ofNat 32 (merge ((queueOf s q).bindNext.getD (queueOf s q).bind).toNat))
  else if a = 0x4005C then
    { s with sched := { s.sched with weights := tabModD s.sched.weights (fld s 0x40058 11 0) 1 merge } }
  else if inRange 0x40100 0x402C0 a && (a - 0x40100) % 32 == 24 then
    let u := (a - 0x40100) / 32
    modGate s u fun g =>
      let i := fld s (gateBase u + 20) 5 0
      let e := tabGetD g.pend i {}
      let x := merge (e.opens + 256 * e.ticks)
      { g with pend := tabSet g.pend i { opens := x % 256, ticks := x / 256 } }
  else wrReg s a (merge (rd s a))

/-- The Kiln writes the entries in list order (R461). -/
def applyRegs (s : State) (b : List Byte) : State :=
  foldState (fun s e => storeReg s e.2.1 (((regDef e.2.1).map writable).getD 0) e.2.2) s (regsEntries b)

/-- Check 5, on the fields that the image would leave. -/
def crossOk (t : State) (b : List Byte) : Bool :=
  let on := (List.range 12).filter fun p => pPortMode t p != 0
  let mac := rd t 0x20024 + 4294967296 * rd t 0x20028
  let has6 := fun (n : Nat) => (addr6Entries b).any fun e => e.1 == n
  decide (pVmin t ≤ pVmax t) && decide (pFreeLow t ≤ pFreeHigh t) && decide (pFreeHigh t ≤ pCoolLow t)
    && decide (pKInit t ≤ pKMax t) && decide (pColdMark t < pHotMark t) && decide (pRtoInit t ≤ pRtoMax t)
    && (on.all fun p => decide (frameLen t p (pBodyMax t) ≤ fld t 0x20004 29 16))
    && decide (2 * pGrace t ≤ pLease t) && (!pGradEnable t || decide (1 ≤ pBwdMax t)) && pDetEn t
    && !(fld t 0x2001C 0 0 == 1 && fld t 0x2001C 4 4 == 1 && fld t 0x2001C 3 1 == fld t 0x2001C 7 5)
    && (on.isEmpty || (!bitOf 40 mac && mac % 64 == 0))
    && (on.all fun p => !pEncap t p || (List.range (subCount (pPortMode t p))).all fun b => has6 (4 * p + b))
    && ((List.range 14).all fun u => !pGateEn t u || (gatesLists b).any fun g =>
      g.2.1 == u && (decide (u < 2) || g.2.2.all fun e => bitOf 7 e.opens))

/-- The comparators that the image names (R466). -/
def comparatorUsers (t : State) : List Nat :=
  ((List.range 14).filterMap fun u => if pGateEn t u then some (pGateCmp t u) else none)
    ++ (if pDetEn t then [pDetCmp t] else [])
    ++ ((List.range 16).filterMap fun k => if pFwinEn t k then some (pFwinCmp t k) else none)

/-- Check 6 (R466). -/
def sharedOk (t : State) : Bool :=
  let casc := fld t 0x50000 0 0 == 1
  !(casc && fld t 0x3000 0 0 == 1) && !(casc && fld t 0x3000 1 1 == 1) && !(fld t 0x3000 2 2 == 1 && pEgTrace t)
    && distinct (comparatorUsers t)

/-- The image of a configuration slot: IMAGE_LEN bytes, the owner's key and the signature. -/
def cfgImage (s : State) (slot : Nat) : List Byte :=
  flashRead s (cfgBase slot) (min (imageLen (flashRead s (cfgBase slot) 64)) 4164448 + 64 + 29792)

/-- Check 1. -/
def ownerSigned (s : State) (b : List Byte) : Bool :=
  let n := imageLen b
  let key := (b.drop n).take 64
  s.trust.owned && decide (n ≤ 4164448) && shake256 key 32 == padTo 32 s.trust.ownerHash
    && Config.verify key (b.take (n + 64)) (b.drop (n + 64))

/-- Checks 1 to 6 of an image: the REASON, 0 if it passes, and CFG_DETAIL (R465). -/
def imageReason (s : State) (b : List Byte) : Nat × Nat :=
  if !ownerSigned s b then (1, 0xFFFFFFFF)
  else match formatFault b with
    | some off => (2, off)
    | none => match registerFault (regsEntries b) [] with
      | some off => (3, off)
      | none => match rangeFault b with
        | some off => (4, off)
        | none =>
          let t := applyRegs { s with regs := [] } b
          if !crossOk t b then (5, 0xFFFFFFFF) else if !sharedOk t then (6, 0xFFFFFFFF) else (0, 0xFFFFFFFF)

/-! ### Staging (R458, R468, R474) -/

/-- The area that STG_SEL names: the bank that is neither ACTIVE nor running, or the slot that was not loaded. -/
def stageArea (s : State) : Option (Nat × Nat) :=
  if fld s 0x1030 0 0 = 1 then some (cfgBase (1 - s.boot.cfgSlot), slotLen)
  else if s.boot.active = s.boot.bank then some (bankBase (1 - s.boot.bank), bankLen)
  else none

def setStage (s : State) (state reason : Nat) : State :=
  { s with boot := { s.boot with stgState := state, stgReason := reason } }

/-- A staging command starts: ignored and counted while one runs (R524); accepted from the management context, or in ROM safe
state (R457, R458). -/
def staging (s : State) (f : State → State) : State :=
  if s.boot.stgState = 1 then { s with badvalWr := s.badvalWr + 1 }
  else if !s.boot.romSafe && s.link.state != 3 then s
  else f s

/-- Starts a flash operation. -/
def startFlash (s : State) (op : FlashOp) : State :=
  { s with boot := { s.boot with stgState := 1, stgReason := 0, op := some op } }

/-- Whether a firmware set is pending while the firmware bank is the target (R458). -/
def pendingBlocks (s : State) : Bool := s.boot.pending && fld s 0x1030 0 0 == 0

/-- STG_CMD.ERASE. -/
def stgErase (s : State) : State :=
  staging s fun s => match stageArea s with
    | some (base, len) => if pendingBlocks s then setStage s 3 8 else startFlash s (.erase base len)
    | none => setStage s 3 8

/-- STG_CMD.WRITE: the window goes to STG_OFFSET, which must lie in the area (log entry 52). -/
def stgWrite (s : State) : State :=
  staging s fun s => match stageArea s with
    | some (base, len) =>
      let off := fld s 0x1034 23 0
      if pendingBlocks s || decide (len < off + 2048) then setStage s 3 8
      else startFlash s (.program (base + off) (regBytes s 0x1800 512))
    | none => setStage s 3 8

/-- STAGE of a firmware set: the three images verify, slot 5 is extended with their measurements, and the directory is
written. -/
def stageFirmware (s : State) : State :=
  if s.boot.pending || s.boot.active != s.boot.bank then setStage s 3 8
  else match bankImages s (1 - s.boot.bank) with
    | none => setStage s 3 7
    | some l =>
      startFlash (foldState (fun s i => extendSlot s 5 (shake256 i.1 32) s.boot.romSafe) s l) .stageFirmware

/-- STAGE of a configuration image: checks 1 to 6 at once, and a SEQ above CFG_SEQ (R468). -/
def stageConfig (s : State) : State :=
  let b := cfgImage s (1 - s.boot.cfgSlot)
  let r := (imageReason s b).1
  if r ≠ 0 then setStage s 3 r
  else if fieldLe b 0xC 4 ≤ s.boot.cfgSeq && s.boot.cfgState == 1 then setStage s 3 8
  else setStage s 2 0

/-- STG_CMD.STAGE. -/
def stgStage (s : State) : State :=
  staging s fun s => if fld s 0x1030 0 0 = 1 then stageConfig s else stageFirmware s

/-- STG_CMD.CONFIRM: only after READY, in a boot that runs a pending bank. -/
def stgConfirm (s : State) : State :=
  staging s fun s =>
    if s.boot.ready && s.boot.pending && s.boot.bank != s.boot.active then startFlash s .confirm else setStage s 3 8

/-- STG_CMD.CANCEL. -/
def stgCancel (s : State) : State := staging s fun s => startFlash s .cancel

def execStgErase (s : State) : Out := .next (regEnter s 0x1038 stgErase)
def execStgWrite (s : State) : Out := .next (regEnter s 0x1038 stgWrite)
def execStgStage (s : State) : Out := .next (regEnter s 0x1038 stgStage)
def execStgConfirm (s : State) : Out := .next (regEnter s 0x1038 stgConfirm)
def execStgCancel (s : State) : Out := .next (regEnter s 0x1038 stgCancel)

/-- A flash operation that has succeeded. -/
def flashDone (s : State) (op : FlashOp) : State :=
  match op with
  | .erase base len => setStage (setFlash s (memClear s.boot.flash base len)) 0 0
  | .program base data => setStage (setFlash s (memWriteN 0xFF s.boot.flash base data)) 0 0
  | .stageFirmware => setStage (writeDirectory s s.boot.active true false) 2 0
  | .confirm => setStage (writeDirectory s s.boot.bank false false) 4 0
  | .cancel => setStage (writeDirectory s s.boot.active false false) 0 0

/-- FLASH_OPERATION_DONE (R458, R465): an error refuses the command with reason FLASH. -/
def execFlashOperationDone (ok : Bool) (s : State) : Out :=
  .next <|
    match s.boot.op with
    | none => s
    | some op =>
      if !s.running then s
      else
        let s1 := { s with boot := { s.boot with op := none } }
        if ok then flashDone s1 op else setStage s1 3 9

/-- OWN_CMD.FUSE (R469, R474): takes effect at the next pin reset. -/
def ownFuse (s : State) : State :=
  if s.boot.stgState = 1 then { s with badvalWr := s.badvalWr + 1 }
  else if s.trust.owned || s.trust.fuseOwned then setStage s 3 8
  else { s with trust := { s.trust with fuseOwned := true, fuseHash := regBytes s 0x1040 8 } }

def execOwnFuse (s : State) : Out := .next (regEnter s 0x1060 ownFuse)

/-- RST_CMD.SOFT (R471). -/
def execRstSoft (s : State) : Out := .next (regEnter s 0x1020 softReset)

/-! ### Pin reset (R470, R527, R547) -/

/-- What a reset leaves of the cartridges (R265, R470): each one's LIFE and directory. -/
def cartsKept (s : State) : Tab CartRec := cartsWith { s with mem := { s.mem with carts := cartsWith s 0 } } 1

/-- The state while PERST_N is asserted: every field at its Reset column; the flash, the fuses, the Cask's segments, the
Cellar's content and THERMTRIP_N stay. -/
def underReset (s : State) : State :=
  { State.reset with
    pending := s.pending, fresh := s.fresh
    cask := { segs := s.cask.segs.filter fun e => !e.2.recs.isEmpty }
    mem := { carts := cartsKept s, guests := s.mem.guests.filter (fun g => g.committed), retireRows := s.mem.retireRows }
    trust := { fuseOwned := s.trust.fuseOwned, fuseHash := s.trust.fuseHash }
    boot := { flash := s.boot.flash }
    pack := { thermtrip := s.pack.thermtrip } }

/-- The Cask record in progress finishes, and no further record starts (R499, R547, R548, R555). -/
def finishRecord (s : State) : State :=
  let s1 := if s.running then caskWriteHead s false else s
  { s1 with cask := { s1.cask with queue := [], waiting := [] } }

/-- PERST_N_ASSERT (R547). -/
def execPerstNAssert (s : State) : Out := .next (underReset (finishRecord s))

/-! ### The Cask scan (R500) -/

/-- The segment that a head wrote last: the highest SEG_GEN among the valid SEGMENT records of its kind. -/
def lastSegment (c : CaskSt) (pin : Bool) : Option Nat :=
  let mine := c.segs.filter fun e => e.2.pinned == pin && ((e.2.recs.head?.map fun r => r.kind == 1 && !r.badCrc).getD false)
  (minBy (fun e => 4294967296 - (e.2 : CaskSeg).gen) mine).map Prod.fst

/-- A head goes on in the segment that it wrote last, after its records. -/
def headAfter (c : CaskSt) (seg : Option Nat) : CaskHead :=
  match seg with
  | none => {}
  | some i =>
    let n := (tabGetD c.segs i {}).recs.length
    if n < 16384 then { segment := some i, next := n } else {}

/-- The scan: boot count and next SEQ follow from the newest valid record of the two segments; bad records are counted. -/
def caskScan (s : State) : State :=
  let c := s.cask
  let a := lastSegment c true
  let b := lastSegment c false
  let recs := ([a, b].filterMap id).flatMap fun i => (tabGetD c.segs i {}).recs
  let good := recs.filter fun r => !r.badCrc
  let heads := (c.segs.filterMap fun e => e.2.recs.head?).filter fun r => r.badCrc
  let newest := minBy (fun (r : CaskRec) => 281474976710656 - r.seq) good
  let bad := (recs.filter fun r => r.badCrc).length + heads.length
  { s with cask := { c with
    ready := true, boot := (newest.map fun r => r.boot + 1).getD 1, nextSeq := (newest.map fun r => r.seq + 1).getD 0
    segGen := ((c.segs.map fun e => e.2.gen).max?).getD 0, headP := headAfter c a, headO := headAfter c b, bad := bad
    pinFull := decide (16 ≤ caskPinned c) && (headAfter c a).segment.isNone } }

/-! ### The steps of power-up (R452) -/

/-- Step k is in progress, at the tick at which it will have ended. -/
def atStep (env : BootEnv) (k : Nat) (s : State) : State :=
  { s with boot := { s.boot with step := k }
           time := { s.time with counter := max s.time.counter (env.stepEnds.getD (k - 2) 0) } }

/-- A step fails or exceeds its bound (R454). -/
def bootFailed (bound : Bool) (k : Nat) (s : State) : State :=
  let s1 := { s with boot := { s.boot with step := k, failed := true } }
  raise (caskRec s1 { kind := 4, rom := decide (k ≤ 4), payload := le 1 k ++ le 1 (if bound then 1 else 2) }) { source := 8 }

/-- Runs step k unless the sequence has stopped. -/
def bootStep (env : BootEnv) (k : Nat) (f : State → State) (s : State) : State :=
  if s.boot.failed || s.boot.romSafe then s
  else
    let s1 := atStep env k s
    if env.badStep = some k then bootFailed env.badStepBound k s1 else f s1

/-- The scan and the first record of the boot (R500). -/
def bootStart (s : State) : State :=
  let s1 := caskScan s
  let s2 := { s1 with trust := { s1.trust with owned := s1.trust.fuseOwned, ownerHash := s1.trust.fuseHash } }
  caskRec s2 { kind := 2, rom := true, payload := le 4 Config.romVersion ++ le 4 s2.cask.bad ++ le 1 (b2n s2.trust.owned) }

/-- Step 2: keys, UDS and slot 0 (R427, R430); the context seal key is drawn (R295). -/
def bootFuses (s : State) : State :=
  let m := shake256 (le 4 Config.romVersion ++ padTo 32 Config.vendorHash ++ padTo 32 s.trust.ownerHash
    ++ le 1 (b2n s.trust.owned)) 32
  extendSlot { s with fresh := s.fresh + 1, trust := { s.trust with udsLocked := true, sealKey := le 32 (Config.random s.fresh) } } 0 m true

/-- A rollback to the ACTIVE bank (R456). -/
def rollBack (step : Nat) (s : State) : State :=
  let s1 := writeDirectory s s.boot.active false false
  caskRec { s1 with boot := { s1.boot with bank := s1.boot.active, rolledBack := true } }
    { kind := 4, rom := true, payload := le 1 step ++ le 1 4 }

/-- Step 3: the directory and the bank (R451, R456). -/
def bootBank (s : State) : State :=
  let s1 := useDirectory s (readDirectory s)
  let b := s1.boot
  if !b.pending then { s1 with boot := { b with bank := b.active } }
  else if b.tried then rollBack 3 s1
  else
    let s2 := writeDirectory s1 b.active true true
    { s2 with boot := { s2.boot with bank := 1 - b.active } }

/-- The bank's images are measured and the Kiln starts (R427, R430). -/
def startKiln (s : State) (l : List (List Byte × Nat)) : State :=
  let rel := fun (i : Nat) => ((l[i]?).map Prod.snd).getD 0
  let s1 := foldState (fun s i => extendSlot s (i + 1) (shake256 (((l[i]?).map Prod.fst).getD []) 32) true) s [0, 1, 2]
  { s1 with trust := { s1.trust with slotsLocked := true }
            boot := { s1.boot with kilnRel := rel 0, mashRel := rel 1, tileRel := rel 2 } }

/-- ROM safe state (R457). -/
def romSafe (s : State) : State :=
  let s1 := { s with boot := { s.boot with romSafe := true } }
  caskRec s1 { kind := 4, rom := true, payload := le 1 4 ++ le 1 3 }

/-- Step 4: the images (R429, R456), and the link starts to train. -/
def bootImages (s : State) : State :=
  let s1 := match bankImages s s.boot.bank with
    | some l => startKiln s l
    | none =>
      if s.boot.pending then
        let s1 := rollBack 4 s
        match bankImages s1 s1.boot.bank with
        | some l => startKiln s1 l
        | none => romSafe s1
      else romSafe s
  { s1 with link := startTraining (fullCeilings s1 s1.link) }

/-- The candidate slots in the order in which the Kiln tries them (R464). -/
def candidates (s : State) : List Nat :=
  let head := fun (i : Nat) => flashRead s (cfgBase i) 64
  let is := [0, 1].filter fun i => fieldLe (head i) 0 4 == 0x4746435A && fieldLe (head i) 4 2 == 1
  if is.length = 2 ∧ fieldLe (head 0) 0xC 4 < fieldLe (head 1) 0xC 4 then is.reverse else is

def configRecord (s : State) (result slot reason seq detail : Nat) : State :=
  caskNote s 6 (le 1 result ++ le 1 slot ++ le 1 reason ++ le 1 0 ++ le 4 seq ++ le 4 detail)

/-- Applies an image that passed (R461 to R463, R466, R468, R481). -/
def applyImage (s : State) (slot : Nat) (b : List Byte) : State :=
  let seq := fieldLe b 0xC 4
  let s1 := applyRegs (extendSlot s 4 (shake256 b 32) false) b
  let s2 := foldState (fun s g => modGate s g.2.1 fun x =>
    { x with list := g.2.2, entry := 0, entryEnd := now s + (g.2.2.getD 0 {}).ticks }) s1 (gatesLists b)
  let wins := (List.range 16).filterMap fun k => if pFwinEn s2 k then some (k, now s2 + pFwinLen s2 k) else none
  let s3 := { s2 with
    boot := { s2.boot with lock := true, cfgState := 1, cfgSlot := slot, cfgSeq := seq
                           addr6 := foldState (fun t e => tabSet t e.1 e.2) [] (addr6Entries b) }
    comp := { s2.comp with detNext := now s2 + pHbPeriod s2 }
    fault := { s2.fault with winEnd := wins }
    link := fullCeilings s2 s2.link }
  configRecord s3 1 slot 0 seq 0xFFFFFFFF

/-- Configuration safe state (R467). -/
def configSafe (s : State) : State :=
  let s1 := extendSlot s 4 (List.replicate 32 0xFF) false
  configRecord { s1 with boot := { s1.boot with lock := true, cfgState := 2 } } 3 0 s1.boot.cfgReason 0 s1.boot.cfgDetail

/-- Tries the candidates in order (R464, R465). -/
def tryImages : List Nat → State → State
  | [], s => configSafe s
  | i :: is, s =>
    let b := cfgImage s i
    let r := imageReason s b
    if r.1 = 0 then applyImage s i b
    else
      let s1 := { s with boot := { s.boot with cfgReason := r.1, cfgDetail := r.2 } }
      tryImages is (configRecord s1 2 i r.1 (fieldLe b 0xC 4) r.2)

/-- Step 5: the image, and the fence until the first map (R330, R453, R467), after which the bridge and the reference clock
are checked (R22, R41). -/
def bootConfig (env : BootEnv) (s : State) : State :=
  let s1 := tryImages (candidates s) s
  let s2 := { s1 with
    fault := { s1.fault with fenced := false, cause := 0 }
    time := { s1.time with bridge := (rangeFrom env.bridgeModules 16).map fun m => (m, { retired := true }) } }
  let s3 := fenceNode s2 (if s2.boot.cfgState = 2 then 7 else 6) 255
  let s4 := if env.bridgeModules < 12 then
      fenceNode (setLevel { s3 with time := { s3.time with bridgeFenced := true } } 7 true { kind := 12, num := env.bridgeModules })
        2 7
    else s3
  if env.hlRefOk then s4 else fenceNode (setLevel s4 6 true) 3 6

/-! ### Calibration and self-tests (R13, R210, R211, R219, R252, R488) -/

/-- Steps 3 to 5 of R210 for one mash-capable channel: its spare, or mash-disabled with its slots withheld (R211, R212). -/
def calChannel (c : StackCal) (st : Nat) (s : State) (pc : Nat) : State :=
  let n := pcNum st pc
  let failed := (c.failedUnits.filter fun u => u.1 == pc).map Prod.snd
  let spareBad := c.failedSpares.contains pc
  let spared := decide (failed.length = 1) && !spareBad
  let off := c.failedReducers.contains pc || (!failed.isEmpty && !spared)
  let s1 := modChan s n fun x =>
    { x with disabled := off, spareActive := spared, spareTarget := if spared then failed.headD 0 else 0, spareFail := spareBad
             failedUnits := failed }
  modFree s1 n fun l => { l with withheld := off || !c.trained }

/-- The rows of a stack that the Cask lists as retired (R203, R210): pseudo-channel and row. -/
def caskRows (s : State) (st : Nat) : List (Nat × RowRef) :=
  ((s.cask.segs.flatMap fun e => e.2.recs).filterMap fun r =>
    if r.kind = 0x21 ∧ fieldLe r.payload 0 1 = st then
      some (fieldLe r.payload 1 1, ({ sid := fieldLe r.payload 2 1, bank := fieldLe r.payload 3 1, row := fieldLe r.payload 4 4 } : RowRef))
    else none).eraseDups

/-- Whether a retired row is one of a list. -/
def rowIn (l : List (Nat × RowRef)) (e : Nat × Nat × RowRef) : Bool :=
  l.any fun r => r.1 == e.2.1 && r.2.sid == e.2.2.sid && r.2.bank == e.2.2.bank && r.2.row == e.2.2.row

/-- Step 2 of R210 for one stack: with ROW_REPAIR, the first `repaired` rows that the Cask lists are repaired; the others stay
retired, and their slots stay out of the free lists (R203). Answers how many were repaired. -/
def repairRows (s : State) (st repaired : Nat) : Nat × State :=
  let listed := caskRows s st
  let n := if pRowRepair s then min repaired listed.length else 0
  let left := s.mem.retireRows.filter fun e => e.1 != st || rowIn (listed.drop n) e
  let s1 := { s with mem := { s.mem with retireRows := left } }
  (n, foldState (fun s e => modFree s (pcNum st e.2.1) fun l =>
    { l with retired := e.2.2.slots.filter (fun k => !l.retired.contains k) ++ l.retired }) s1 (left.filter fun e => e.1 == st))

/-- The calibration of one stack and its record (R210); a step beyond its bound raises HBM_CAL. -/
def calStack (env : BootEnv) (s00 : State) (st : Nat) : State :=
  let c := env.stackCals.getD st {}
  let pcs := rangeFrom 4 32
  let (repaired, s) := repairRows s00 st c.rowsRepaired
  let s1 := foldState (calChannel c st) s pcs
  let count := fun (p : Chan → Bool) => (pcs.filter fun pc => p (chanOf s1 (pcNum st pc))).length
  let fail := !c.trained || !c.boundOk
  let s2 := modStack s1 st fun x =>
    { x with calDone := c.trained, calFail := fail, quota := tempQuota s1 x.temp }
  let s3 := caskNote s2 0x20 (le 1 st ++ le 1 (if fail then c.failStep else 0) ++ le 2 c.failedUnits.length
    ++ le 2 (count fun x => x.spareActive) ++ le 1 (count fun x => x.disabled)
    ++ le 2 repaired)
  if fail then raise s3 { source := 25, unit := { kind := 8, num := st } } else s3

/-- Training of one LPDDR5X device and its first MR4 read (R219). -/
def trainLp (env : BootEnv) (s : State) (c : Nat) : State :=
  let ok := env.lpTrained.getD c false
  let s1 := { s with mem := { s.mem with lp := tabSet s.mem.lp c { trained := ok, hot := ok && env.lpHot.getD c false } } }
  if ok then s1 else raise s1 { source := 26 + c / 4, unit := { kind := 9, num := c } }

/-- Step 6. -/
def bootMemory (env : BootEnv) (s : State) : State :=
  let s1 := foldState (trainLp env) (foldState (calStack env) s (List.range 12)) (List.range 8)
  let hot := (List.range 8).find? fun c => (lpDev s1 c).hot
  setLevel s1 28 hot.isSome { kind := 9, num := hot.getD 0 }

/-- Step 7: a quadrant's spare tile and codec lanes are ready; tiles and lanes that fail are spared or isolated. -/
def bootSelfTest (env : BootEnv) (s : State) : State :=
  let s1 := foldState (fun s q =>
    let bad := env.failedSpareTiles.contains q
    modCluster (modQuad s q fun x => { x with tested := true, spareFree := !bad, spareFail := bad }) q fun c =>
      { c with tested := true }) s (List.range 4)
  let s2 := foldState (fun s t => if t < 64 then tileFails s t (t % 16) true false else s) s1 env.failedTiles
  foldState (fun s l => if (lanesLive (clusterOf s l.1) (decide (32 ≤ l.2))).contains l.2 then laneFail s l.1 l.2 false else s) s2
    env.failedLanes

/-- Step 8: the endorsement (R428, R432); the signature is a free value. -/
def bootEndorse (s : State) : State :=
  let (r, s1) := draw s
  { s1 with trust := { s1.trust with endorsed := true, endorsement := endorseBody s1 ++ le 49856 r } }

/-- Step 9: lanes that fail training are mapped out (R272), sub-ports come up (R271), cartridges are brought into service
(R254, R266). -/
def bootPorts (env : BootEnv) (s : State) : State :=
  let s1 := foldState (fun s l => if l.1 < 12 ∧ l.2 < 8 then laneReplace s l.1 l.2 true else s) s env.failedFabricLanes
  let s2 := foldState (fun s b =>
    let lanes := subLanes (pPortMode s b.1) b.2
    let ok := decide (b.1 < 12) && decide (b.2 < subCount (pPortMode s b.1)) && !((fabPort s b.1).downLanes.any lanes.contains)
    if ok then modSub s b.1 b.2 fun x => { x with up := true } else s) s1 env.subportsUp
  foldState (fun s p => match env.cartridges.getD p none with
    | some i => insertCartridge s p i
    | none => s) s2 [0, 1]

/-- The PARKED descriptors of the local objects (R260, R452 step 10). -/
def rebuildParked (s : State) (p : Nat) : State :=
  if !canRead s p then s
  else foldState (fun s (o : Parked) =>
    let partner := (o.descr.parkRef.map fun r => r.partner).getD 0
    let ref : ParkRef := { port := p, object := o.number, partner := partner, cart := portCart s p % 16777216 }
    setSeq s o.seq { o.descr with state := .parked, parkRef := some ref, epoch := 0, lastAccess := now s, depth := pKInit s,
                                  hints := [], objSize := objectSize o }) s
    (portOf s p).objects

/-- Step 10 (R452, R495). -/
def bootReady (s : State) : State :=
  let tiles := List.range 64
  let s1 := foldState rebuildParked s [0, 1]
  caskNote { s1 with boot := { s1.boot with ready := true } } 3
    (le 1 s1.boot.bank ++ le 1 (b2n s1.boot.rolledBack) ++ le 1 s1.boot.cfgSlot ++ le 1 s1.boot.cfgState ++ le 4 s1.boot.cfgSeq
      ++ le 1 (tiles.filter fun t => (tileOf s1 t).spared).length ++ le 1 (tiles.filter fun t => (tileOf s1 t).state == 2).length
      ++ le 2 (s1.mem.chans.filter fun c => c.2.disabled).length)

/-- Steps 6 to 9 run together (R452): one that fails stops the sequence after the others. -/
def bootUnits (env : BootEnv) (s : State) : State :=
  if s.boot.failed || s.boot.romSafe then s
  else
    let skip := fun (k : Nat) (f : State → State) (s : State) => if env.badStep = some k then s else f (atStep env k s)
    let s1 := bootPorts env (skip 8 bootEndorse (skip 7 (bootSelfTest env) (skip 6 (bootMemory env) s)))
    match [6, 7, 8].find? fun k => env.badStep == some k with
    | some k => bootFailed env.badStepBound k s1
    | none => atStep env 9 s1

/-- The power-up sequence (R452 to R454). -/
def powerUp (env : BootEnv) (s : State) : State :=
  let s0 := { s with running := true, pack := { s.pack with pinReset := false }
                     time := { s.time with refOk := env.hlRefOk, backup := !env.hlRefOk } }
  let s1 := bootStep env 2 bootFuses (bootStart s0)
  let s2 := bootStep env 5 (bootConfig env) (bootStep env 4 bootImages (bootStep env 3 bootBank s1))
  bootStep env 10 bootReady (bootUnits env s2)

/-- PERST_N_DEASSERT (R452): a node that has tripped stays stopped until its rails are removed (R555). -/
def execPerstNDeassert (env : BootEnv) (s : State) : Out :=
  .next <| if s.pack.pinReset && !s.pack.thermtrip then powerUp env s else s

end Sys2Proof.Machine
end

