-- ==== Sys2Proof/Machine/Package.lean ====
section
/-!
DEFINITION. Machine/Package.lean: the bridge (R22), the counter and its comparators (R39 to R44), the core rails (R32 to R35,
R545), the sensors (R447, R553, R555, R556), and the loss of clocks and supplies (R41, R548 to R550).
-/

namespace Sys2Proof.Machine

/-! ### The bridge (R22, R548) -/

/-- Whether a frame's content lies on the East die. -/
def onEast (s : State) (lpn : Nat) : Bool :=
  match slotOf (frameOf s lpn), (frameOf s lpn).loc with
  | .hbm st _ _, _ => decide (6 ≤ st)
  | _, .lp ch _ _ => decide (4 ≤ ch)
  | _, _ => false

/-- The frames that a command in execution reads or writes. -/
def framesNamed (s : State) (l : Live) : List Nat :=
  let q := l.cmd.desc.seq.id
  let block := fun (x : Seq) (tb : TensorBlock) => ((tbPairs tb).filterMap fun p => tensorIdx x p.1 p.2).flatMap fun t =>
    (pagesOf s x t).map fun e => e.2.lpn
  let attn := fun (x : Seq) (a : AttnDesc) => (drainTensors x a.layer a.headFirst a.headCount).flatMap fun t =>
    (visiblePages s x a t).map fun e => e.2.lpn
  match seqOf s q, l.cmd.desc.body with
  | _, .append _ _ _ _ _ => l.append.frames
  | _, .frameRead h _ _ _ => [h.lpn]
  | _, .frameWrite _ _ h _ _ _ => [h.lpn]
  | some x, .attnFwd a => attn x a
  | some x, .attnBwd a _ _ => attn x a
  | some x, .trim tb _ _ => block x tb
  | some x, .skimRefresh tb _ _ => block x tb
  | some x, .park => (allPages s x).map fun e => e.2.2.lpn
  | some x, .gradDrain _ _ layer hf hc _ ks ke => (gradIn s q x (drainTensors x layer hf hc) ks ke).flatMap fun g => g.frames
  | _, _ => []

/-- Whether a command in execution needs the East die (R330; log entry 37). -/
def needsEast (s : State) (l : Live) : Bool :=
  let pfx := match l.cmd.desc.body with
    | .prefixSearch _ _ _ _ _ _ => true
    | .prefixInsert _ => true
    | .prefixDelete _ _ => true
    | _ => false
  !l.executed && (l.cmd.die == 1 || pfx || (framesNamed s l).any (onEast s))

/-- Work that needs the East die ends with FENCED when the bridge fences the node (R330): merge groups of that die, and
commands in execution that need it. -/
def endEastWork (s : State) : State :=
  let gs := s.exec.mergeE.groups.map fun g => g.cmd
  let s1 := { s with exec := { s.exec with mergeE := { s.exec.mergeE with groups := [], early := [] } } }
  let cs := (s1.exec.live.filter (needsEast s1)).map fun l => l.cmd
  foldState (fun s c => complete (dropWork s (cmdKey c)) c { status := .fenced }) s1 (gs ++ cs.filter fun c => !gs.contains c)

/-- A module that passes its limit is retired (R22); below 12 modules the BRIDGE source rises and the node fences. -/
def bridgeCheck (s : State) (module : Nat) : State :=
  if decide (12 ≤ bridgeWorking s) || s.time.bridgeFenced then s
  else
    endEastWork (fenceNode (setLevel { s with time := { s.time with bridgeFenced := true } } 7 true { kind := 12, num := module }) 2 7)

/-- Retires modules of the bridge. -/
def bridgeRetire (s : State) (ms : List Nat) : State :=
  let t := foldState (fun t m => tabModD t m {} fun x => { x with retired := true }) s.time.bridge ms
  bridgeCheck { s with time := { s.time with bridge := t } } (ms.headD 0)

/-- A flit of a module is sent again: more than 64 times in 2^20 ticks retire the module. -/
def bridgeRetry (s : State) (m : Nat) : State :=
  let x := tabGetD s.time.bridge m {}
  let y : BridgeModule := if x.fails = 0 || elapsed s x.since 1048576 then { x with fails := 1, since := now s }
    else { x with fails := x.fails + 1 }
  let s1 := { s with time := { s.time with bridge := tabSet s.time.bridge m y, bridgeRetries := s.time.bridgeRetries + 1 } }
  if 64 < y.fails then bridgeRetire s1 [m] else s1

/-- BRIDGE_FLIT_RETRY (R22, R491). -/
def execBridgeFlitRetry (module : Fin 16) (s : State) : Out :=
  .next <|
    let m := module.val
    if !s.running || (tabGetD s.time.bridge m {}).retired then s
    else match fireInj s 10 m with
      | some (_, s1) => bridgeRetry s1 m
      | none => bridgeRetry s m

/-- CORE_E_POWER_LOSS (R548). -/
def execCoreEPowerLoss (s : State) : Out := .next <| if s.running then bridgeRetire s (List.range 16) else s

/-! ### The counter (R42 to R44, R310) -/

/-- The QWAITs whose TIMEOUT has passed complete BUSY_RETRY, and their queues resume (R310). -/
def qwaitTimeouts (s : State) : State :=
  let due := s.queues.filterMap fun e => match e.2.blocked with
    | some b => if b.timeout ≠ 0 ∧ elapsed s b.since b.timeout then some (e.1, b.cmd) else none
    | none => none
  drainQueues (foldState (fun s (e : Nat × Command) =>
    complete (modQueue s e.1 fun q => { q with blocked := none }) e.2 { status := .busyRetry }) s due)

/-- Whether a comparator's value has been reached (R43). -/
def comparatorDue (s : State) (n : Nat) : Bool :=
  match (comparator s n).2 with
  | some t => decide (t ≤ now s)
  | none => false

/-- COMPARATOR_FIRE (R43): the comparator's user takes its event, after those of the lower-numbered comparators of its die
that are due. -/
def execComparatorFire (n : Fin 64) (s : State) : Out :=
  .next <|
    let k := n.val
    if !s.running || !comparatorDue s k || (rangeFrom (k / 32 * 32) k).any (comparatorDue s) then s
    else match (comparator s k).1 with
      | 1 => match (List.range 14).find? fun u => pGateEn s u && pGateCmp s u == k with
        | some u => gateEnds s u
        | none => s
      | 2 => detectorFires s
      | _ => match (List.range 16).find? fun w => pFwinEn s w && pFwinCmp s w == k with
        | some w => windowEnd s w
        | none => s

/-- MARK.GO (R44). -/
def markGo (s : State) : State := caskNote { s with time := { s.time with mark := now s } } 0x30 []

def execMarkGo (s : State) : Out := .next (regEnter s 0x5010 markGo)

/-! ### The core rails (R32 to R35, R545) -/

def railOf (s : State) (die : Nat) : Rail := if die = 0 then s.time.railW else s.time.railE

def modRail (s : State) (die : Nat) (f : Rail → Rail) : State :=
  if die = 0 then { s with time := { s.time with railW := f s.time.railW } }
  else { s with time := { s.time with railE := f s.time.railE } }

/-- The hottest logic junction of a die (R553). -/
def dieTemp (s : State) (die : Nat) : Nat := max (s.pack.logicTemps.getD (2 * die) 0) (s.pack.logicTemps.getD (2 * die + 1) 0)

/-- Whether an admission queue or an egress queue of a die holds anything (R32). -/
def dieBusy (s : State) (die : Nat) : Bool :=
  ((admOf s die).queues.any fun e => !e.2.items.isEmpty)
    || (s.net.ports.any fun e => e.1 / 6 == die && e.2.subs.any fun b => !b.2.acks.isEmpty || b.2.queues.any fun q => !q.2.isEmpty)

/-- The sampled admission delays of a die's queues (R32, R369). -/
def dieSamples (s : State) (die : Nat) : List Nat := (admOf s die).queues.map fun e => e.2.sample

/-- When a die's queues last gave an item out (R32). -/
def lastGiven (s : State) (die : Nat) : Nat :=
  (s.net.ports.filter fun e => e.1 / 6 == die).foldl (fun m e => e.2.subs.foldl (fun m b => max m b.2.busyAt) m) (admOf s die).busyAt

/-- Whether a die has been idle for a time (R32): no queue of it held anything. -/
def dieIdle (s : State) (die t : Nat) : Bool :=
  !dieBusy s die && ((railOf s die).idleSince.map fun i => elapsed s i t).getD false && elapsed s (lastGiven s die) t

/-- The voltage that the mode asks for, within VMIN and VMAX (R32, R34); FIXED at 750 mV until the image is loaded (R46). DESIGN
CHOICE (log entry 101): in LATENCY a die that is idle for less than 100,000 ticks holds its present voltage; in BALANCED a queue
without a sampled delay counts as delay 0. -/
def wantedMv (s : State) (die : Nat) : Nat :=
  let r := railOf s die
  let clamp := fun (v : Nat) => max (pVmin s) (min (pVmax s) v)
  if !s.boot.lock then 750
  else match pMode s with
    | 0 => clamp (pVfixed s)
    | 1 =>
      if dieBusy s die then pVmax s
      else if dieIdle s die 100000 then pVmin s
      else clamp r.mv
    | 2 =>
      let l := dieSamples s die
      if l.any fun x => decide (pTarget s < x) then clamp (r.mv + 5)
      else if l.all fun x => decide (2 * x < pTarget s) then clamp (r.mv - 5)
      else clamp r.mv
    | _ => pVmin s

/-- Notes since when a die is idle (R32). -/
def noteIdle (s : State) (die : Nat) : State :=
  if dieBusy s die == (railOf s die).idleSince.isNone then s
  else modRail s die fun x => { x with idleSince := if dieBusy s die then none else some (now s) }

/-- One decision of the policy for a rail (R33, R35): heat first, then the power cap, then the mode. DESIGN CHOICE (log entry
101): a rail that stands outside VMIN to VMAX moves to the nearer limit in the steps of R33. -/
def railStep (s : State) (die : Nat) : State :=
  let r := railOf s die
  let hot := decide (105 ≤ dieTemp s die)
  let warm := decide (100 ≤ dieTemp s die)
  let capped := s.boot.lock && decide (pPcap s < r.power)
  let forced := hot || capped
  let want := if forced then (if s.boot.lock then pVmin s else r.mv) else wantedMv s die
  let down := decide (want < r.mv)
  let up := decide (r.mv < want)
  let wait := if up || forced then 1000 else 10000
  if !r.answering || !elapsed s r.lastStep wait || (up && (warm || forced)) || !(up || down) then s
  else modRail s die fun x =>
    { x with mv := if down then max want (x.mv - 5) else min want (x.mv + 5), lastStep := now s }

/-- VPOLICY_STEP: the policy looks at a die, whose power estimate is `power` watts. -/
def execVpolicyStep (die : Fin 2) (power : Nat) (s : State) : Out :=
  .next <|
    if !s.running then s
    else
      railStep (modRail (noteIdle s die.val) die.val fun x => { x with power := power }) die.val

/-- Source 10 is high while a regulator does not answer (R476, R545). -/
def voltageLevel (s : State) : State := setLevel s 10 (!s.time.railW.answering || !s.time.railE.answering)

/-- AVS_NO_ANSWER (R545): at the third transaction in a row without an answer. -/
def execAvsNoAnswer (die : Fin 2) (s : State) : Out :=
  .next <|
    if !s.running then s
    else
      voltageLevel (modRail s die.val fun x =>
        { x with missed := x.missed + 1, answering := x.answering && decide (x.missed + 1 < 3) })

/-- REGULATOR_ANSWERS_AGAIN (R545). -/
def execRegulatorAnswersAgain (die : Fin 2) (s : State) : Out :=
  .next <| if s.running then voltageLevel (modRail s die.val fun x => { x with missed := 0, answering := true }) else s

/-! ### Sensors (R447, R553, R555, R556) -/

/-- LOGIC_TEMP_READ (R377, R476, R553): the hottest junction of each quadrant, every 1,000 ticks. -/
def execLogicTempRead (temps : List Nat) (s : State) : Out :=
  .next <|
    if !s.running || !elapsed s s.pack.logicSince 1000 then s
    else
      let s1 := { s with pack := { s.pack with logicTemps := temps, logicSince := now s } }
      let s2 := prefixTemp (prefixTemp s1 0 (dieTemp s1 0)) 1 (dieTemp s1 1)
      let hot := decide (105 ≤ dieTemp s1 0) || decide (105 ≤ dieTemp s1 1)
      setLevel s2 11 hot

/-- THERMTRIP (R555): the Cask record in progress finishes, and the interior stops. -/
def execThermtrip (s : State) : Out :=
  .next <|
    let s1 := finishRecord s
    { s1 with running := false, pack := { s1.pack with thermtrip := true } }

/-- SENSOR_WINDOW_END (R447, R556): at the end of a window of 10,000,000 ticks, its means, coarsened, and the state byte of the
sideband. -/
def execSensorWindowEnd (powerMean logicMean hbmMean lpMean : Nat) (s : State) : Out :=
  .next <|
    if s.running && elapsed s s.pack.windowSince 10000000 then
      let byte := b2n s.boot.ready + flag 1 s.fault.fenced + flag 2 (srcOf s 11).level + flag 3 (srcOf s 24).level
      { s with pack := { s.pack with power := powerMean / 10 * 10, logic := logicMean / 2 * 2, hbm := hbmMean / 2 * 2,
                                     lp := lpMean / 2 * 2, state := byte, part := 0x0820, windowSince := now s } }
    else s

/-- The registers of the sideband, zeros until the first window ends (R556). -/
def i3cBytes (s : State) : List Byte :=
  le 2 s.pack.power ++ le 1 s.pack.logic ++ le 1 s.pack.hbm ++ le 1 s.pack.lp ++ le 1 s.pack.state ++ le 2 s.pack.part

/-- I3C_READ (R556): answered from step 2 of the power-up sequence on. -/
def execI3cRead (offset len : Nat) (s : State) : Out :=
  .next <| if s.running then { s with pack := { s.pack with i3c := slice (i3cBytes s) offset len } } else s

/-! ### Clocks and supplies (R41, R548 to R550) -/

/-- HL_REFCLK_LOSS (R41, R399, R549). -/
def execHlRefclkLoss (s : State) : Out :=
  .next <|
    if !s.running || s.time.backup then s
    else
      let s1 := setLevel { s with time := { s.time with refOk := false, backup := true } } 6 true
      let s2 := fenceNode s1 3 6
      if 2 ≤ s2.link.state then linkGoesDown s2 else s2

/-- HL_REFCLK_RETURN (R41): the fence stays until a reset. -/
def execHlRefclkReturn (s : State) : Out :=
  .next <| if s.running && s.time.backup then setLevel { s with time := { s.time with refOk := true, backup := false } } 6 false
    else s

/-- MEM_REFCLK_LOSS (R550): the die's stacks or devices are in self-refresh; their content is kept and accesses wait. -/
def execMemRefclkLoss (clk : MemClock) (s : State) : Out :=
  .next <|
    if !s.running || s.pack.lostMem.contains clk then s
    else { s with pack := { s.pack with lostMem := s.pack.lostMem ++ [clk] } }

/-- A retraining beyond its bound (R550). -/
def retrainLate (s : State) : MemClock → State
  | .hbm die =>
    raise (foldState (fun s st => modStack s st fun x => { x with calFail := true }) s (rangeFrom (6 * die) (6 * die + 6)))
      { source := 25, unit := { kind := 8, num := 6 * die } }
  | .lp die => raise s { source := 26 + die, unit := { kind := 9, num := 4 * die } }

/-- MEM_REFCLK_RETURN (R550). -/
def execMemRefclkReturn (clk : MemClock) (withinBound : Bool) (s : State) : Out :=
  .next <|
    if !s.running || !s.pack.lostMem.contains clk then s
    else
      let s1 := { s with pack := { s.pack with lostMem := s.pack.lostMem.filter fun c => c != clk } }
      if withinBound then s1 else retrainLate s1 clk

/-- OTHER_REFCLK_LOSS (R549). -/
def execOtherRefclkLoss (clk : RefClock) (s : State) : Out :=
  .next <|
    if !s.running then s
    else match clk with
      | .serdes die => foldState (fun s p => foldState (fun s b => modSub s p b fun x => { x with up := false }) s (List.range 4)) s
          (rangeFrom (6 * die) (6 * die + 6))
      | .cellar => foldState (fun s p => if (portOf s p).state = 0 then s
          else raise (portGone s p) { source := 55 + p, unit := { kind := 10, num := p } }) s [0, 1]
      | .bridge => bridgeRetire s (List.range 16)
      | .xspi => if s.boot.op.isSome then setStage { s with boot := { s.boot with op := none } } 3 9 else s

/-- CORE_W_POWER_LOSS (R499, R548): the interior stops until PERST_N is asserted and released. -/
def execCoreWPowerLoss (s : State) : Out :=
  .next <|
    let s1 := finishRecord s
    { s1 with running := false, pack := { s1.pack with thermtrip := false } }

end Sys2Proof.Machine
end

