-- ==== Sys2Proof/Machine/Clock.lean ====
section
/-!
DEFINITION. Machine/Clock.lean: the tick of the local interval counter (R39): what the node does by itself as time passes, the
comparators that fire at a tick (R43) and the units' timeouts, which take their time from the time bus (R42).
-/

namespace Sys2Proof.Machine

/-- Runs one of the node's own events for each of a list. -/
def eachOf {α : Type} (f : α → State → Out) (l : List α) (s : State) : State :=
  foldState (fun s a => match f a s with
    | .next t => t
    | .fault _ => s
    | .refused _ => s) s l

/-- Runs one of the node's own events. -/
def once (f : State → Out) (s : State) : State := eachOf (fun _ => f) [()] s

/-- The timeouts of the command state (R76, R114, R116, R139, R230, R231, R233, R302, R310, R390). -/
def expireCommands (s : State) : State :=
  let s1 := eachOf execAppendBoundExpiry (s.exec.live.map fun l => cmdKey l.cmd) s
  let s2 := eachOf execFrameReadDeadline (s1.exec.reads.map fun r => r.key) s1
  let s3 := eachOf execMashWaitExpiry (s2.exec.visits.map fun v => v.id) s2
  let s4 := eachOf execStageWaitExpiry (s3.exec.visits.map fun v => v.id) s3
  let s5 := eachOf execFallbackDeadline (s4.exec.visits.map fun v => v.id) s4
  let s6 := foldState (fun s d => eachOf (fun (k : Nat × Nat) => execMergeTimeout d k.1 k.2)
    ((mergeOf s d.val).groups.map fun g => (g.tenant, g.desc.tag)) s) s5 [0, 1]
  let s7 := eachOf execEarlyBufferExpiry [0, 1] s6
  let s8 := qwaitTimeouts s7
  let s9 := eachOf execOutcomeExpiry (s8.outcomes.map fun o => o.key) s8
  once execCascadeTimeout s9

/-- The timeouts of the fabric, the map and the Ledger (R277, R287, R289, R327, R329, R337, R404, R415). -/
def expireFabric (s : State) : State :=
  let flights := s.net.ctxs.flatMap fun c => c.flight.map fun f => (c.key, f.tsn)
  let s1 := eachOf (fun (k : AssocKey × Nat) => execRetransmitTimeout k.1 k.2) flights s
  let s2 := eachOf execAckCoalesceExpiry (s1.net.ctxs.map fun c => c.key) s1
  let pauses := (List.finRange 12).flatMap fun p => (List.finRange 4).flatMap fun b => (List.finRange 8).map fun c => (p, b, c)
  let s3 := eachOf (fun (k : Fin 12 × Fin 4 × Fin 8) => execPfcPauseExpiry k.1 k.2.1 k.2.2) pauses s2
  let s4 := eachOf execXoffRepeat [0, 1] s3
  let s5 := once execLeaseExpiry (once execGraceEnd s4)
  let due := (s5.comp.heldChains.filter fun h => elapsed s5 h.since 960).map fun h => cmdKey h.cmd
  let s6 := eachOf execChainRetry due (eachOf execChainTimeout (s5.comp.waits.map fun w => w.key) s5)
  let s7 := eachOf execMemRdTimeout (s6.link.memRds.map fun m => m.tag) s6
  eachOf execRecallTimeout (s7.ledger.recalls.map fun r => r.reqId) s7

/-- The timeouts of the memory, the units and the services (R174, R199, R235, R262, R377, R443, R477, R480, R513). -/
def expireUnits (s : State) : State :=
  let s1 := eachOf execParkCopyTimeout (s.mem.parks.map fun j => j.seq) s
  let s2 := eachOf execQuotaRaise (List.finRange 12) s1
  let s3 := eachOf execBwdChainIdle (List.finRange 4) s2
  let s4 := eachOf execPrefixRateRaise [0, 1] (once execAgeSweep s3)
  let s5 := once execHaloDrainTimeout s4
  let s6 := eachOf execKeyDrainExpiry (s5.trust.tenants.map Prod.fst) s5
  eachOf execLogPeriodEnd (List.finRange 64) (eachOf execEventLineDrop (List.finRange 64) s6)

/-- Every timeout that has passed fires (R42). -/
def expireAll (s : State) : State := expireUnits (expireFabric (expireCommands s))

/-- One tick of the local interval counter (R39): the channels and the rails go on, the comparators that are due fire in the
order of their numbers (R43), and at every multiple of 16 the time bus brings the units' timeouts, so that none fires later
than 32 ticks after its time (R42). -/
def tick (s : State) : State :=
  if !s.running then s
  else
    let s1 := { s with time := { s.time with counter := s.time.counter + 1 } }
    let s2 := refreshAll (chansTick (noteIdle (noteIdle s1 0) 1))
    let s3 := eachOf execComparatorFire (List.finRange 64) s2
    if now s3 % 16 = 0 then expireAll { s3 with time := { s3.time with bus := now s3 } } else s3

/-- TIME_BUS_BROADCAST (R42): the counter runs to its next multiple of 16, which every steward takes. -/
def execTimeBusBroadcast (s : State) : Out := .next (iter tick (16 - s.time.counter % 16) s)

end Sys2Proof.Machine
end

