-- ==== Sys2Proof/Machine/Codec.lean ====
section
/-!
DEFINITION. Machine/Codec.lean: the codec's rows (chapter 9): what a lane makes of the slot or the stream that it reads, for
write-downs, stagings, reads by handle, PARK and WAKE.
-/

namespace Sys2Proof.Machine

/-- Whether a transfer's lane may go on now: one of a preemption's PARK takes its share of the window (R268). -/
def transferAllowed (s : State) (q : SeqId) : Bool :=
  (s.mem.parks.all fun j => j.seq != q || !j.preempt) || decide (0 < preemptBudget s 40)

/-- Counts a frame that a preemption's PARK moves (R268). -/
def transferSpent (s : State) (q : SeqId) : State :=
  if s.mem.parks.any fun j => j.seq == q && j.preempt then preemptSpend s 1 else s

/-- The granules of an object's stream at rest (R218, R260). -/
def sealFrame (s : State) (q : SeqId) (f : ObjFrame) (stream : List Byte) (poison : Bool) : ObjFrame :=
  { f with stream := stream, sealed := sealGranules s q.tenant f.lpn f.gen stream, poison := poison }

/-- The slot that an encoder reads: the write-down's source, or the frame's slot for a PARK. -/
def encodeSource (s : State) (j : CodecJob) : Loc :=
  match s.mem.downs.find? fun d => d.job == some j.id with
  | some d => d.source
  | none => homeOf s j.lpn

/-- An encoder has delivered the stream of a write-down. -/
def downEncoded (s : State) (job : Nat) (bad : Bool) (stream : List Byte) : State :=
  let downs := s.mem.downs.map fun d =>
    if d.job == some job then { d with encoded := true, bad := bad, stream := stream } else d
  { s with mem := { s.mem with downs := downs } }

/-- An encoder has delivered the stream of a PARK's frame: one that fails its check is poisoned (R206). -/
def parkEncoded (s : State) (q : SeqId) (f : ObjFrame) (src : Loc) (bad : Bool) (stream : List Byte) : State :=
  let n := match src with
    | .hbm st pc _ => pcNum st pc
    | _ => 0
  let (fail, _, s1) := checkFails s 3 n bad
  let s2 := if fail then poisonFrame s1 f.lpn else s1
  parkFrame (transferSpent s2 q) q (sealFrame s2 q f stream (frameOf s2 f.lpn).poison)

/-- CODEC_ENCODE (R55, R245, R250): a lane has read a slot that is not IN_FLUX and encoded its stream, for a write-down or a
PARK. -/
def execCodecEncode (job : Nat) (s : State) (errs : List WordErr := []) : Out :=
  .next <| whileRunning s fun _ =>
    match s.mem.codec.find? fun j => j.id == job && j.encode && j.lane.isSome with
    | none => s
    | some j =>
      let src := encodeSource s j
      if (frameOf s j.lpn).inFlux || !((j.obj.map fun o => transferAllowed s o.1).getD true) then s
      else whenMemory s [src] (.frame j.lpn) 576 fun _ => match laneInjection s j with
        | some s1 => laneFail s1 j.cluster (j.lane.getD 0) true
        | none =>
          let (bad, stream, s1) := encodeSlot s j src errs
          let s2 := codecEnd s1 job
          match j.obj with
          | none => downEncoded s2 job bad stream
          | some (q, f) => parkEncoded s2 q f src bad stream

/-- The stream that a decoder reads: of an extent, or of an object's frame. -/
def jobStream (s : State) (j : CodecJob) : List Byte :=
  match j.src, j.obj with
  | .none, some (_, f) => f.stream
  | l, _ => ((tabGet s.mem.exts (extKey l)).map fun e => e.stream).getD []

/-- What a decoder makes of the bytes that it reads (R248): the image under the format, LPN and GEN that it expects. For a
WAKE these are the values stored with the stream (R260). -/
def decodeJob (s : State) (j : CodecJob) (bytes : List Byte) : Option Mem :=
  match j.src, j.obj with
  | .none, some (q, f) =>
    decodeStream (((seqOf s q).map fun x => x.format).getD 0) f.lpn f.gen (512 * ceilDiv f.stream.length 512) bytes
  | l, _ =>
    let n := match l with
      | .lp _ _ n => n
      | .host _ _ n => n
      | _ => 0
    decodeStream (frameFormat s j.lpn) j.lpn (frameOf s j.lpn).gen (512 * n) bytes

/-- A page of a WAKE is decoded (R263): it is written under its new generation (R53), or read from the guest object, or
restored with POISON. -/
def wakeDecoded (s : State) (q : SeqId) (f : ObjFrame) (guest : Bool) (img : Option Mem) : State :=
  let p := (f.tensor, f.page)
  match img, wakeLpn s q p with
  | some m, some l =>
    let s1 := imgWrite (slotFill s (frameOf s l).loc m) l (sideBase + 16) (le 2 (frameOf s l).gen)
    modWake (if f.poison then poisonFrame s1 l else s1) q fun j =>
      { j with left := j.left.filter (fun x => x != p), guestTry := j.guestTry.filter fun x => x != p }
  | none, some _ => if guest then wakePoison s q p else wakeFromGuest s q p
  | _, none => s

/-- A decoder has checked the stream of a PARK's lower-tier frame: the object takes it unchanged; a frame that fails is
poisoned (R206, R232). -/
def parkDecoded (s : State) (q : SeqId) (f : ObjFrame) (stream : List Byte) (ok : Bool) : State :=
  let s1 := if ok then s else poisonFrame s f.lpn
  parkFrame s1 q (sealFrame s1 q f stream (frameOf s1 f.lpn).poison)

/-- A decoder has delivered to a staging, a fallback visit or a read by handle; a failed check of the last two poisons the
frame (R232, R233). -/
def deliverDecoded (s : State) (j : CodecJob) (img : Option Mem) : State :=
  let wrong := fun (_ : Unit) => match img with
    | some m => imageWrong m
    | none => true
  let s1 := { s with
    mem := { s.mem with
      stages := s.mem.stages.map fun d =>
        if d.job == some j.id then { d with decoded := true, decodeErr := img.isNone, image := img.getD [] } else d }
    exec := { s.exec with
      visits := s.exec.visits.map fun v => if some v.id == j.visit then { v with decoded := true } else v
      reads := s.exec.reads.map fun r =>
        if some r.key == j.key then { r with ready := true, bad := wrong (), image := img.getD [] } else r } }
  if (j.visit.isSome || j.key.isSome) && wrong () then modFrame s1 j.lpn fun f => { f with poison := true } else s1

/-- CODEC_DECODE (R219, R247, R248, R250): a lane has decoded its stream and delivered it: to the staging slot, to the tile
chain or the read that waits for it, or to a frame of a PARK or WAKE. `readAs` is what the lane read where that is not what
was written, `linkErrs` the uncorrectable errors of its LPDDR5X transfers in a row. CL_DECERR counts decode errors only. -/
def execCodecDecode (job : Nat) (readAs : Option (List Byte)) (s : State) (linkErrs : Nat := 0) : Out :=
  .next <| whileRunning s fun _ =>
    match s.mem.codec.find? fun j => j.id == job && !j.encode && j.lane.isSome with
    | none => s
    | some j =>
      if (s.link.memRds.any fun m => m.why == .job job) || locWaits s j.src then s
      else match laneInjection s j with
      | some s1 => laneFail s1 j.cluster (j.lane.getD 0) true
      | none =>
        let (lpBad, s0) := lpRead s j.src linkErrs
        let readBad := j.readErr || lpBad
        let img := if readBad then none else decodeJob s0 j (readAs.getD (jobStream s0 j))
        let s1 := modCluster s0 j.cluster fun c => { c with decErr := c.decErr + b2n (!readBad && img.isNone) }
        let s2 := codecEnd (modQuad s1 j.cluster fun q => { q with dec := q.dec + 1 }) job
        match j.obj with
        | none => deliverDecoded s2 j img
        | some (q, f) =>
          let passed := img.filter fun m => !imageWrong m
          if j.src = .none then wakeDecoded s2 q f j.guest passed
          else parkDecoded s2 q f (jobStream s j) passed.isSome

end Sys2Proof.Machine
end

