-- ==== Sys2Proof/Machine/Registers.lean ====
section
/-!
DEFINITION. Machine/Registers.lean: host accesses to the register window (R520 to R530): which locations an access touches,
how it ends, its reads, and its writes field by field.
-/

namespace Sys2Proof.Machine

/-! ### Locations (R520, R529) -/

/-- What a word of the window names: a control-space offset, and the bit for an alias; none in the reserved area. -/
def winTarget (w : Nat) : Option (Nat × Option Nat) :=
  if w < 0x100000 then some (w, none)
  else if inRange 0x2000000 0x4000000 w then some ((w - 0x2000000) / 128 * 4, some ((w - 0x2000000) % 128 / 4))
  else none

/-- The control-space offset behind a word, outside every block where there is none. -/
def winOffset (w : Nat) : Nat := ((winTarget w).map Prod.fst).getD 0x100000

/-- Whether a word of the window is implemented (R530, R532). -/
def winImplemented (w : Nat) : Bool :=
  match winTarget w with
  | none => false
  | some (a, none) => (regDef a).isSome
  | some (a, some _) => match regDef a with
    | none => false
    | some d => !d.noAlias

/-- The words of an access. -/
def accessWords (addr n : Nat) : List Nat := (List.range n).map fun i => addr + 4 * i

/-- How an access of `len` bytes ends (R521, R522): the STATUS, the first word that failed, and whether REG_BUS rises. -/
def accessEnd (s : State) (addr len : Nat) : Nat × Nat × Bool :=
  if len < 4 ∨ 64 < len ∨ len % 4 ≠ 0 ∨ addr % 4 ≠ 0 ∨ 4096 < addr % 4096 + len then (1, addr, true)
  else
    let ws := accessWords addr (len / 4)
    match ws.find? fun w => reachStatus s (winOffset w) != 0 with
    | some w => (reachStatus s (winOffset w), w, false)
    | none => match ws.find? fun w => !winImplemented w with
      | some w => (1, w, true)
      | none => (0, addr, false)

/-- An access that failed at a word is counted, and raises REG_BUS where R522 says so. -/
def accessFails (s : State) (w : Nat) (bus : Bool) : State :=
  if bus then raise (countError s w) { source := 0, arg := w } else countError s w

/-! ### REG_RD -/

/-- A read of one word of the window: an alias shows its bit, without a side effect (R530). -/
def winRead (s : State) (w : Nat) : Nat × State :=
  match winTarget w with
  | none => (0, s)
  | some (a, none) => readWord s a
  | some (a, some b) => (b2n (bitOf b (regWord s a)), s)

/-- The words of an access are read in ascending order (R521). -/
def winReads : List Nat → State → List Byte × State
  | [], s => ([], s)
  | w :: ws, s =>
    let r := winRead s w
    let rest := winReads ws r.2
    (le 4 r.1 ++ rest.1, rest.2)

/-- REG_RD (R402, R522). -/
def execRegRd (tag addr len : Nat) (s : State) : Out :=
  .next <|
    if !s.running || decide (s.link.state < 2) then s
    else match accessEnd s addr len with
      | (0, _, _) => let r := winReads (accessWords addr (len / 4)) s; linkSend r.2 (.regCpl tag addr 0 r.1)
      | (1, w, bus) => linkSend (accessFails s w bus) (.regCpl tag addr 1 [])
      | (st, _, _) => linkSend s (.regCpl tag addr st [])

/-! ### REG_WR (R523) -/

/-- The pulse of one W1P bit. -/
def pulse (s : State) (a b : Nat) : State :=
  match a, b with
  | 0x1020, 0 => softReset s
  | 0x1038, 0 => stgErase s
  | 0x1038, 1 => stgWrite s
  | 0x1038, 2 => stgStage s
  | 0x1038, 3 => stgConfirm s
  | 0x1038, 4 => stgCancel s
  | 0x1060, 0 => ownFuse s
  | 0x2048, 0 => injArm s
  | 0x2048, 1 => injDisarm s
  | 0x2828, 0 => caskRead s
  | 0x3004, 0 => halo s 1
  | 0x3004, 1 => snapRelease s
  | 0x5010, 0 => markGo s
  | 0x60E0, 0 => attReport s
  | 0x60E0, 1 => attEndorse s
  | 0x6224, 0 => extendGo s
  | 0x6300, 0 => kemInstall s
  | 0x6300, 1 => kemLink s
  | 0x6408, 0 => tenantRemove s
  | 0x2003C, 0 => pctxSet s
  | 0x3000C, 0 => hlRetrain s
  | 0x3011C, 0 => ldgDeclareDead s
  | 0x30128, 0 => lregCreate s
  | 0x30128, 1 => deleteRegion s (fld s 0x30120 15 0)
  | 0x40068, 0 => histClear s
  | 0x50028, 0 => cascResync s
  | 0x60090, 0 => hregAdd s
  | 0x60090, 1 => hregRemove s
  | 0x60218, 0 => cpEnrol 0 s
  | 0x60218, 1 => cpEject 0 s
  | 0x60238, 0 => cpEnrol 1 s
  | 0x60238, 1 => cpEject 1 s
  | _, _ =>
    if inRange 0x40100 0x402C0 a && (a - 0x40100) % 32 == 8 then
      let u := (a - 0x40100) / 32
      if b = 0 then pendArm s u else pendDisarm s u
    else s

/-- Counts one bad value (R523). -/
def badValue (s : State) : State := { s with badvalWr := s.badvalWr + 1 }

/-- Whether a register belongs to a pending gate list: PEND_CTRL, PEND_AT and PEND_ENTRY (R366, R372). -/
def pendReg (a : Nat) : Bool := inRange 0x40100 0x402C0 a && [8, 12, 16, 24].contains ((a - 0x40100) % 32)

/-- The host stores RW bits (R523): those of a pending gate list only while GATE_RT is 1 and the list is not armed, and never
an egress entry that closes class 7 (R366). -/
def hostStore (s : State) (a mask w : Nat) : State :=
  if mask = 0 then s
  else if pendReg a then
    let u := (a - 0x40100) / 32
    let entry := (a - 0x40100) % 32 == 24
    let ignored := modGate s u fun g => { g with ignored := g.ignored + 1 }
    if !pGateRt s then s
    else if (gateOf s u).armed then ignored
    else if entry && fld s (gateBase u + 20) 6 6 == 1 then s
    else if entry && decide (2 ≤ u) && bitOf 7 mask && !bitOf 7 w then ignored
    else storeReg s a mask w
  else storeReg s a mask w

/-- The RW fields of a write whose values lie in their ranges, and whether one does not. -/
def goodFields (a w : Nat) (rw : List (Nat × Nat)) : List (Nat × Nat) × Bool :=
  let ok := rw.filter fun f => fieldOk a f.2 (bitsOf f.1 f.2 w)
  (ok, decide (ok.length < rw.length))

/-- The bits of a mask. -/
def bitList (m : Nat) : List Nat := (List.range 32).filter fun b => bitOf b m

/-- A write of a whole register (R523): a write-only register acts; the RW fields are stored; of the W1P bits, a single one
pulses. RO, RS and RWL fields are not written. -/
def writeReg (s : State) (d : RegDef) (a w : Nat) : State :=
  if d.wo then
    if a = 0x4000 then mailWrite s (BitVec.ofNat 32 w) false
    else if a = 0x4004 then mailWrite s (BitVec.ofNat 32 w) true
    else stickyClr s (a == 0x2014) w
  else
    let (ok, bad) := goodFields a w d.rw
    let s1 := hostStore s a (fieldMask ok) w
    let s2 := if bad then badValue s1 else s1
    match bitList (Nat.land w d.w1p) with
    | [] => s2
    | [b] => pulse s2 a b
    | _ => badValue s2

/-- A write of an alias word (R530): one bit of one field. -/
def writeAlias (s : State) (d : RegDef) (a b v : Nat) : State :=
  if d.wo then (if v = 1 then stickyClr s (a == 0x2014) (2 ^ b) else s)
  else if bitOf b d.w1p then (if v = 1 then pulse s a b else s)
  else match d.rw.find? fun f => decide (f.2 ≤ b) && decide (b ≤ f.1) with
    | none => s
    | some f =>
      let old := regWord s a
      let w := (old - Nat.land old (2 ^ b)) + v * 2 ^ b
      if fieldOk a f.2 (bitsOf f.1 f.2 w) then hostStore s a (2 ^ b) w else badValue s

/-- A write of one word of the window. -/
def winWrite (s : State) (e : Nat × Word32) : State :=
  match winTarget e.1 with
  | none => s
  | some (a, alias_) => match regDef a with
    | none => s
    | some d => match alias_ with
      | none => writeReg s d a e.2.toNat
      | some b => writeAlias s d a b (e.2.toNat % 2)

/-- Whether a word of a write differs from the current value in an RWL bit (R523), and of which register. -/
def lockedHit (s : State) (e : Nat × Word32) : Option Nat :=
  match winTarget e.1 with
  | none => none
  | some (a, alias_) => match regDef a with
    | none => none
    | some d =>
      let cur := rd s a
      let hit := match alias_ with
        | none => Nat.land (Nat.xor cur e.2.toNat) d.rwl != 0
        | some b => bitOf b d.rwl && bitOf b cur != (e.2.toNat % 2 == 1)
      if hit then some a else none

/-- A write that R522 lets through: the registers whose RWL fields it would change are counted once each, then its words act
in ascending order (R521, R523). -/
def regWrite (s : State) (es : List (Nat × Word32)) : State :=
  let n := (es.filterMap (lockedHit s)).eraseDups.length
  foldState winWrite { s with lockedWr := s.lockedWr + n } es

/-- REG_WR (R402, R522, R523). -/
def execRegWr (addr : Nat) (data : List Word32) (s : State) : Out :=
  .next <|
    if !s.running || decide (s.link.state < 2) then s
    else match accessEnd s addr (4 * data.length) with
      | (0, _, _) => regWrite s ((accessWords addr data.length).zip data)
      | (1, w, bus) => accessFails s w bus
      | _ => s

end Sys2Proof.Machine
end

