-- ==== Sys2Proof/Machine/Dispatch.lean ====
section
/-!
DEFINITION. Machine/Dispatch.lean: one arm per command of the opcode table, each one call of its meaning.
-/

namespace Sys2Proof.Machine

def exec (i : Instr) (s : State) : Host.Outcome State Fault Refusal :=
  match i with
  | .append c => Sys2Proof.Machine.execAppend c s
  | .fork c => Sys2Proof.Machine.execFork c s
  | .trim c errs => Sys2Proof.Machine.execTrim c errs s
  | .park c => Sys2Proof.Machine.execPark c s
  | .wake c => Sys2Proof.Machine.execWake c s
  | .evict c => Sys2Proof.Machine.execEvict c s
  | .hint c => Sys2Proof.Machine.execHint c s
  | .attnFwd c => Sys2Proof.Machine.execAttnFwd c s
  | .attnBwd c => Sys2Proof.Machine.execAttnBwd c s
  | .gradDrainRead c => Sys2Proof.Machine.execGradDrainRead c s
  | .gradDrainRelease c => Sys2Proof.Machine.execGradDrainRelease c s
  | .merge c => Sys2Proof.Machine.execMerge c s
  | .skimRefresh c => Sys2Proof.Machine.execSkimRefresh c s
  | .prefixSearch c parityBad => Sys2Proof.Machine.execPrefixSearch c parityBad s
  | .prefixInsert c parityBad => Sys2Proof.Machine.execPrefixInsert c parityBad s
  | .prefixDelete c parityBad => Sys2Proof.Machine.execPrefixDelete c parityBad s
  | .frameRead c errs crcBad => Sys2Proof.Machine.execFrameRead c errs crcBad s
  | .frameWrite c => Sys2Proof.Machine.execFrameWrite c s
  | .guestPut c => Sys2Proof.Machine.execGuestPut c s
  | .guestGet c => Sys2Proof.Machine.execGuestGet c s
  | .guestRelease c => Sys2Proof.Machine.execGuestRelease c s
  | .qwait c => Sys2Proof.Machine.execQwait c s
  | .ledgerRead c badLines => Sys2Proof.Machine.execLedgerRead c badLines s
  | .ledgerWrite c => Sys2Proof.Machine.execLedgerWrite c s
  | .ledgerRelease c => Sys2Proof.Machine.execLedgerRelease c s
  | .ledgerPublish c => Sys2Proof.Machine.execLedgerPublish c s
  | .recallAnswer src reqId data => Sys2Proof.Machine.execRecallAnswer src reqId data s
  | .recallTimeout reqId => Sys2Proof.Machine.execRecallTimeout reqId s
  | .commandArrival m => Sys2Proof.Machine.execCommandArrival m s
  | .outcomeExpiry key => Sys2Proof.Machine.execOutcomeExpiry key s
  | .admission die => Sys2Proof.Machine.execAdmission die s
  | .planVisits die => Sys2Proof.Machine.execPlanVisits die s
  | .mashVisit visit errs => Sys2Proof.Machine.execMashVisit visit errs s
  | .tileVisit visit errs => Sys2Proof.Machine.execTileVisit visit errs s
  | .fallbackVisit visit bad => Sys2Proof.Machine.execFallbackVisit visit bad s
  | .mashWaitExpiry visit => Sys2Proof.Machine.execMashWaitExpiry visit s
  | .stageWaitExpiry visit => Sys2Proof.Machine.execStageWaitExpiry visit s
  | .fallbackDeadline visit => Sys2Proof.Machine.execFallbackDeadline visit s
  | .frameReadDeadline key => Sys2Proof.Machine.execFrameReadDeadline key s
  | .appendBoundExpiry key => Sys2Proof.Machine.execAppendBoundExpiry key s
  | .appendStart key errs => Sys2Proof.Machine.execAppendStart key errs s
  | .frameCommit lpn badWord verifyBad => Sys2Proof.Machine.execFrameCommit lpn badWord verifyBad s
  | .reserveRefill seq tensor => Sys2Proof.Machine.execReserveRefill seq tensor s
  | .zeroFill stack pc => Sys2Proof.Machine.execZeroFill stack pc s
  | .preemptVictim => Sys2Proof.Machine.execPreemptVictim s
  | .promotion lpn => Sys2Proof.Machine.execPromotion lpn s
  | .demotion lpn => Sys2Proof.Machine.execDemotion lpn s
  | .stagingStart lpn => Sys2Proof.Machine.execStagingStart lpn s
  | .stagingComplete lpn bad => Sys2Proof.Machine.execStagingComplete lpn bad s
  | .writeDownComplete lpn bad => Sys2Proof.Machine.execWriteDownComplete lpn bad s
  | .extentMove lpn => Sys2Proof.Machine.execExtentMove lpn s
  | .ageSweep => Sys2Proof.Machine.execAgeSweep s
  | .hregAdd => Sys2Proof.Machine.execHregAdd s
  | .hregRemove => Sys2Proof.Machine.execHregRemove s
  | .regionDrained region => Sys2Proof.Machine.execRegionDrained region s
  | .codecEncode job errs => Sys2Proof.Machine.execCodecEncode job s errs
  | .codecDecode job readAs linkErrs => Sys2Proof.Machine.execCodecDecode job readAs s linkErrs
  | .codecLaneFail cluster lane => Sys2Proof.Machine.execCodecLaneFail cluster lane s
  | .burstEntry stack pc => Sys2Proof.Machine.execBurstEntry stack pc s
  | .burstClose stack pc => Sys2Proof.Machine.execBurstClose stack pc s
  | .tokenGrant stack => Sys2Proof.Machine.execTokenGrant stack s
  | .refreshDue stack pc => Sys2Proof.Machine.execRefreshDue stack pc s
  | .gradientAdd contribution unitFailed errs => Sys2Proof.Machine.execGradientAdd contribution unitFailed s errs
  | .clone stack srcPc srcSlot dstPc dstSlot errs => Sys2Proof.Machine.execClone stack srcPc srcSlot dstPc dstSlot errs s
  | .hbmTempRead temps => Sys2Proof.Machine.execHbmTempRead temps s
  | .quotaRaise stack => Sys2Proof.Machine.execQuotaRaise stack s
  | .mashUnitFail stack pc unit reducer spareOk => Sys2Proof.Machine.execMashUnitFail stack pc unit reducer spareOk s
  | .frameMove lpn errs crcBad => Sys2Proof.Machine.execFrameMove lpn errs s crcBad
  | .lpMr4Read hot temps => Sys2Proof.Machine.execLpMr4Read hot temps s
  | .tileFail tile phys spareOk => Sys2Proof.Machine.execTileFail tile phys spareOk s
  | .bwdChainForm quad => Sys2Proof.Machine.execBwdChainForm quad s
  | .bwdChainIdle quad => Sys2Proof.Machine.execBwdChainIdle quad s
  | .fwdChainReturn quad => Sys2Proof.Machine.execFwdChainReturn quad s
  | .mergeInput m => Sys2Proof.Machine.execMergeInput m s
  | .mergeTimeout die tenant tag => Sys2Proof.Machine.execMergeTimeout die tenant tag s
  | .earlyBufferExpiry die => Sys2Proof.Machine.execEarlyBufferExpiry die s
  | .dataPacket f => Sys2Proof.Machine.execDataPacket f s
  | .ackPacket f => Sys2Proof.Machine.execAckPacket f s
  | .retransmitTimeout a tsn => Sys2Proof.Machine.execRetransmitTimeout a tsn s
  | .ackCoalesceExpiry a => Sys2Proof.Machine.execAckCoalesceExpiry a s
  | .messageSend a => Sys2Proof.Machine.execMessageSend a s
  | .egressSelect port sub => Sys2Proof.Machine.execEgressSelect port sub s
  | .pfcFrame port sub quanta => Sys2Proof.Machine.execPfcFrame port sub quanta s
  | .pauseFrame port => Sys2Proof.Machine.execPauseFrame port s
  | .bufferXoff die => Sys2Proof.Machine.execBufferXoff die s
  | .contextFetchDone a => Sys2Proof.Machine.execContextFetchDone a s
  | .subportUpDown port sub up => Sys2Proof.Machine.execSubportUpDown port sub up s
  | .laneSpareMove port lane => Sys2Proof.Machine.execLaneSpareMove port lane s
  | .map m => Sys2Proof.Machine.execMap m s
  | .graceEnd => Sys2Proof.Machine.execGraceEnd s
  | .renew src epoch => Sys2Proof.Machine.execRenew src epoch s
  | .leaseExpiry => Sys2Proof.Machine.execLeaseExpiry s
  | .chain m => Sys2Proof.Machine.execChain m s
  | .chainAck src origin originReq epoch status => Sys2Proof.Machine.execChainAck src origin originReq epoch status s
  | .chainTimeout key => Sys2Proof.Machine.execChainTimeout key s
  | .chainRetry key => Sys2Proof.Machine.execChainRetry key s
  | .copyBegin m => Sys2Proof.Machine.execCopyBegin m s
  | .copyFrames src epoch seq entries => Sys2Proof.Machine.execCopyFrames src epoch seq entries s
  | .copyEnd src epoch seq => Sys2Proof.Machine.execCopyEnd src epoch seq s
  | .copyAck src part epoch seq status handles => Sys2Proof.Machine.execCopyAck src part epoch seq status handles s
  | .copyNext seq cell errs => Sys2Proof.Machine.execCopyNext seq cell s errs
  | .heartbeat src epoch => Sys2Proof.Machine.execHeartbeat src epoch s
  | .detectorFiring => Sys2Proof.Machine.execDetectorFiring s
  | .transferGuests src epoch stepId arg => Sys2Proof.Machine.execTransferGuests src epoch stepId arg s
  | .adopt src epoch stepId seq object => Sys2Proof.Machine.execAdopt src epoch stepId seq object s
  | .releaseGuests src epoch stepId arg => Sys2Proof.Machine.execReleaseGuests src epoch stepId arg s
  | .stepDoneReport src stepId status => Sys2Proof.Machine.execStepDoneReport src stepId status s
  | .barrierArrive src treeEpoch opId arg => Sys2Proof.Machine.execBarrierArrive src treeEpoch opId arg s
  | .barrierRelease src treeEpoch opId => Sys2Proof.Machine.execBarrierRelease src treeEpoch opId s
  | .broadcast src what treeEpoch opId arg => Sys2Proof.Machine.execBroadcast src what treeEpoch opId arg s
  | .haloMark src snapId treeEpoch => Sys2Proof.Machine.execHaloMark src snapId treeEpoch s
  | .haloDrainDone => Sys2Proof.Machine.execHaloDrainDone s
  | .haloDrainTimeout => Sys2Proof.Machine.execHaloDrainTimeout s
  | .attestReq src reqTag what nonce userData => Sys2Proof.Machine.execAttestReq src reqTag what nonce userData s
  | .signatureDone signature => Sys2Proof.Machine.execSignatureDone signature s
  | .nvmeCompletion io ok => Sys2Proof.Machine.execNvmeCompletion io ok s
  | .parkCopiesDone seq => Sys2Proof.Machine.execParkCopiesDone seq s
  | .parkCopyTimeout seq => Sys2Proof.Machine.execParkCopyTimeout seq s
  | .wakeComplete seq => Sys2Proof.Machine.execWakeComplete seq s
  | .reProtect seq => Sys2Proof.Machine.execReProtect seq s
  | .cartridgeInsert port info => Sys2Proof.Machine.execCartridgeInsert port info s
  | .cartridgeRemoval port => Sys2Proof.Machine.execCartridgeRemoval port s
  | .cpEnrol port => Sys2Proof.Machine.execCpEnrol port s
  | .cpEject port => Sys2Proof.Machine.execCpEject port s
  | .smartPoll port log => Sys2Proof.Machine.execSmartPoll port log s
  | .prefixSweep => Sys2Proof.Machine.execPrefixSweep s
  | .prefixRateRaise half => Sys2Proof.Machine.execPrefixRateRaise half s
  | .matchInPulse ticks => Sys2Proof.Machine.execMatchInPulse ticks s
  | .cascadeTimeout => Sys2Proof.Machine.execCascadeTimeout s
  | .cascResync => Sys2Proof.Machine.execCascResync s
  | .flitReceived f => Sys2Proof.Machine.execFlitReceived f s
  | .nakReceived ackSeq => Sys2Proof.Machine.execNakReceived ackSeq s
  | .linkDown cause => Sys2Proof.Machine.execLinkDown cause s
  | .linkTraining e => Sys2Proof.Machine.execLinkTraining e s
  | .hlRetrain => Sys2Proof.Machine.execHlRetrain s
  | .regRd tag addr len => Sys2Proof.Machine.execRegRd tag addr len s
  | .regWr addr data => Sys2Proof.Machine.execRegWr addr data s
  | .memCpl tag ok data => Sys2Proof.Machine.execMemCpl tag ok data s
  | .memRdTimeout tag => Sys2Proof.Machine.execMemRdTimeout tag s
  | .msg tenant keygen sys mgmt bytes => Sys2Proof.Machine.execMsg tenant keygen sys mgmt bytes s
  | .countLoRead tag => Sys2Proof.Machine.execCountLoRead tag s
  | .markGo => Sys2Proof.Machine.execMarkGo s
  | .qccLoRead tag queue => Sys2Proof.Machine.execQccLoRead tag queue s
  | .qbindWrite queue value => Sys2Proof.Machine.execQbindWrite queue value s
  | .pctxSet => Sys2Proof.Machine.execPctxSet s
  | .histClear => Sys2Proof.Machine.execHistClear s
  | .pendArm unit => Sys2Proof.Machine.execPendArm unit s
  | .pendDisarm unit => Sys2Proof.Machine.execPendDisarm unit s
  | .gateEntryEnd unit => Sys2Proof.Machine.execGateEntryEnd unit s
  | .gateTakeover unit => Sys2Proof.Machine.execGateTakeover unit s
  | .ldgDeclareDead => Sys2Proof.Machine.execLdgDeclareDead s
  | .lregCreate => Sys2Proof.Machine.execLregCreate s
  | .lregDelete => Sys2Proof.Machine.execLregDelete s
  | .lregVerLoRead tag => Sys2Proof.Machine.execLregVerLoRead tag s
  | .attReport => Sys2Proof.Machine.execAttReport s
  | .attEndorse => Sys2Proof.Machine.execAttEndorse s
  | .extendGo => Sys2Proof.Machine.execExtendGo s
  | .kemInstall => Sys2Proof.Machine.execKemInstall s
  | .kemLink => Sys2Proof.Machine.execKemLink s
  | .tenantRemove => Sys2Proof.Machine.execTenantRemove s
  | .drainFence engine tenant => Sys2Proof.Machine.execDrainFence engine tenant s
  | .keyDrainExpiry tenant => Sys2Proof.Machine.execKeyDrainExpiry tenant s
  | .rstSoft => Sys2Proof.Machine.execRstSoft s
  | .stgErase => Sys2Proof.Machine.execStgErase s
  | .stgWrite => Sys2Proof.Machine.execStgWrite s
  | .stgStage => Sys2Proof.Machine.execStgStage s
  | .stgConfirm => Sys2Proof.Machine.execStgConfirm s
  | .stgCancel => Sys2Proof.Machine.execStgCancel s
  | .ownFuse => Sys2Proof.Machine.execOwnFuse s
  | .stickyClr high bits => Sys2Proof.Machine.execStickyClr high bits s
  | .injArm => Sys2Proof.Machine.execInjArm s
  | .injDisarm => Sys2Proof.Machine.execInjDisarm s
  | .caskRead => Sys2Proof.Machine.execCaskRead s
  | .caskHeadLoRead tag => Sys2Proof.Machine.execCaskHeadLoRead tag s
  | .caskOldLoRead tag => Sys2Proof.Machine.execCaskOldLoRead tag s
  | .snapGo => Sys2Proof.Machine.execSnapGo s
  | .snapRelease => Sys2Proof.Machine.execSnapRelease s
  | .tctrLoRead tag index => Sys2Proof.Machine.execTctrLoRead tag index s
  | .quadCounterRead tag quad counter => Sys2Proof.Machine.execQuadCounterRead tag quad counter s
  | .h2kWord w => Sys2Proof.Machine.execH2kWord w s
  | .h2kLast w => Sys2Proof.Machine.execH2kLast w s
  | .k2hWord tag => Sys2Proof.Machine.execK2hWord tag s
  | .mapChunk => Sys2Proof.Machine.execMapChunk s
  | .mailboxRenew => Sys2Proof.Machine.execMailboxRenew s
  | .ping => Sys2Proof.Machine.execPing s
  | .faultEvent check => Sys2Proof.Machine.execFaultEvent s check
  | .faultWindowEnd window => Sys2Proof.Machine.execFaultWindowEnd window s
  | .eventLineDrop source => Sys2Proof.Machine.execEventLineDrop source s
  | .logPeriodEnd source => Sys2Proof.Machine.execLogPeriodEnd source s
  | .caskRecordWrite => Sys2Proof.Machine.execCaskRecordWrite s
  | .bridgeFlitRetry module => Sys2Proof.Machine.execBridgeFlitRetry module s
  | .timeBusBroadcast => Sys2Proof.Machine.execTimeBusBroadcast s
  | .comparatorFire n => Sys2Proof.Machine.execComparatorFire n s
  | .vpolicyStep die power => Sys2Proof.Machine.execVpolicyStep die power s
  | .logicTempRead temps => Sys2Proof.Machine.execLogicTempRead temps s
  | .thermtrip => Sys2Proof.Machine.execThermtrip s
  | .avsNoAnswer die => Sys2Proof.Machine.execAvsNoAnswer die s
  | .hlRefclkLoss => Sys2Proof.Machine.execHlRefclkLoss s
  | .hlRefclkReturn => Sys2Proof.Machine.execHlRefclkReturn s
  | .memRefclkLoss clk => Sys2Proof.Machine.execMemRefclkLoss clk s
  | .memRefclkReturn clk withinBound => Sys2Proof.Machine.execMemRefclkReturn clk withinBound s
  | .otherRefclkLoss clk => Sys2Proof.Machine.execOtherRefclkLoss clk s
  | .coreWPowerLoss => Sys2Proof.Machine.execCoreWPowerLoss s
  | .coreEPowerLoss => Sys2Proof.Machine.execCoreEPowerLoss s
  | .perstNAssert => Sys2Proof.Machine.execPerstNAssert s
  | .perstNDeassert env => Sys2Proof.Machine.execPerstNDeassert env s
  | .haloIn ticks => Sys2Proof.Machine.execHaloIn ticks s
  | .i3cRead offset len => Sys2Proof.Machine.execI3cRead offset len s
  | .pfcPauseExpiry port sub pcp => Sys2Proof.Machine.execPfcPauseExpiry port sub pcp s
  | .xoffRepeat die => Sys2Proof.Machine.execXoffRepeat die s
  | .flashOperationDone ok => Sys2Proof.Machine.execFlashOperationDone ok s
  | .regulatorAnswersAgain die => Sys2Proof.Machine.execRegulatorAnswersAgain die s
  | .sensorWindowEnd powerMean logicMean hbmMean lpMean => Sys2Proof.Machine.execSensorWindowEnd powerMean logicMean hbmMean lpMean s

end Sys2Proof.Machine
end

