-- ==== Sys2Proof/Safety.lean ====
section
/-!
DEFINITION. Safety.lean: the words in which statements about the node are made: what a state must satisfy whatever commands it
meets, when a host access and a command in flight have their effect, and what it is for a command to give a next state.
-/

namespace Sys2Proof.Machine

/-- A byte memory whose unlisted addresses read `d` is in canonical form. -/
abbrev Memory.wf (d : Byte) (m : Mem) : Prop := memWf d m = true

/-- The slots of the stacks and the flash are in canonical form. -/
def State.memoryOk (s : State) : Prop := Memory.wf 0 s.mem.slots ∧ Memory.wf 255 s.boot.flash

/-- The command `c` at the state `s` answers a next state, of which `P` holds. -/
def Gives (c : Instr) (s : State) (P : State → Prop) : Prop := ∃ t, exec c s = .next t ∧ P t

/-- A host access to the control-space location `a` has its effect: the interior runs, the link is up, and the access
completes with OK (R522). -/
def Reaches (s : State) (a : Nat) : Prop := s.running = true ∧ 2 ≤ s.link.state ∧ reachStatus s a = 0

/-- An admitted command whose turn has come: it is among the live commands, and nothing before it in its sequence or in its
chain holds it back (R121, R129). -/
def Turn (s : State) (c : Command) : Prop := isLive s c = true ∧ mayRun s c = true

end Sys2Proof.Machine
end

