-- ==== Sys2Proof/Certificates/Slice0/Obligations.lean ====
section
/-!
DEFINITION. Certificates/Slice0/Obligations.lean: the statements for the provers, in the order of the spec's parts: the step and the
reset state, what no command may change, completions, the host's registers, trust and boot, faults and records, the link and the
package, the Ledger, the schedulers, the prefix index, the commands over sequences and frames, the cartridges, attention and
gradients, the tiers, the stacks and tiles, the fabric, and the composer.
-/

open Sys2Proof Sys2Proof.Machine

/-- One step of a state with the command `c` at the front of its queue is `exec` of `c` on the state with the queue's rest. With
an empty queue a step is a tick of the node: where the interior runs, the local interval counter counts at least one more and what
has become due happens (R39, R42, R43); where it does not run, nothing changes. The queue, and that a step without a command is
one tick, are the model's own choice (log entry 1). -/
def Obligations.StepRunsFront : Prop :=
  (∀ (c : Instr) (rest : List Instr) (s : State),
    step { s with pending := c :: rest } = exec c { s with pending := rest }) ∧
  (∀ s : State, s.pending = [] → step s = .next (tick s) ∧
    (s.running = true → s.time.counter + 1 ≤ (tick s).time.counter) ∧ (s.running = false → tick s = s))

/-- In the reset state no register has been written, the link is down, no command is admitted or waits, no sequence, frame,
association, map, key or Ledger region is held, the node is fenced until its first map, command queue 0 is enabled and
open to any source and no other queue is enabled, and the slots of the stacks and the flash are in their canonical form. That the
interior does not run, and that the flash reads 0xFF, are the model's choices (log entries 1 and 50). -/
def Obligations.ResetHolds : Prop :=
  State.reset.pending = [] ∧ State.reset.running = false ∧ State.reset.regs = [] ∧ State.reset.link.state = 0 ∧
  State.reset.exec.live = [] ∧ State.reset.mem.seqs = [] ∧ State.reset.mem.frames = [] ∧ State.reset.mem.slots = [] ∧
  State.reset.net.ctxs = [] ∧ State.reset.comp.map = none ∧ State.reset.fault.fenced = true ∧ State.reset.trust.tenants = [] ∧
  State.reset.ledger.regions = [] ∧ State.reset.pfx.entries = [] ∧ State.reset.outcomes = [] ∧ State.reset.boot.flash = [] ∧
  State.reset.accessErr = 0 ∧ State.reset.lastErr = 4294967295 ∧ State.reset.time.counter = 0 ∧
  qEnabled (queueOf State.reset 0) = true ∧ qAny (queueOf State.reset 0) = true ∧
  (∀ n : Nat, n ≠ 0 → qEnabled (queueOf State.reset n) = false) ∧ State.reset.memoryOk

/-- From every state whose memories are canonical, every step, whatever command stands at the front of the queue and whatever
its operands are, reaches a state whose memories are canonical. -/
def Obligations.CanonicalKept : Prop := ∀ s t : State, s.memoryOk → step s = .next t → t.memoryOk

/-- A fence outlasts every step but a MAP, the mailbox chunk that completes a map, a BARRIER_ARRIVE or BROADCAST (by which a
fabric reset comes), a soft reset, a register write (which may write RST_CMD), and a pin reset with the power-up after it. -/
def Obligations.FenceStands : Prop :=
  ∀ (s t : State) (c : Instr), exec c s = .next t → s.fault.fenced = true → t.fault.fenced = false →
    (∃ m, c = .map m) ∨ c = .mapChunk ∨ c = .rstSoft ∨ (∃ a d, c = .regWr a d) ∨ (∃ a b d e, c = .barrierArrive a b d e) ∨
    (∃ a w b d e, c = .broadcast a w b d e) ∨ c = .perstNAssert ∨ (∃ env, c = .perstNDeassert env)

/-- The words stored in RW and RWL registers change only by REG_WR, by pin reset, and by the power-up that loads the
configuration image. The external flash changes only when a staging operation ends, and during the power-up (which may fall back
and mark slots). -/
def Obligations.StoredWordsKept : Prop :=
  ∀ (s t : State) (c : Instr), exec c s = .next t →
    (t.regs ≠ s.regs → (∃ a d, c = .regWr a d) ∨ c = .perstNAssert ∨ (∃ env, c = .perstNDeassert env)) ∧
    (t.boot.flash ≠ s.boot.flash → (∃ ok, c = .flashOperationDone ok) ∨ (∃ env, c = .perstNDeassert env))

/-- No command takes the local interval counter or the next Cask SEQ back, but for THERMTRIP, the loss of the West core supply,
pin reset, and the power-up. Whatever steps follow, the ownership fuse stays blown once it is. -/
def Obligations.NumbersNeverGoBack : Prop :=
  (∀ (s t : State) (c : Instr), exec c s = .next t →
    t.time.counter < s.time.counter ∨ t.cask.nextSeq < s.cask.nextSeq →
    c = .thermtrip ∨ c = .coreWPowerLoss ∨ c = .perstNAssert ∨ (∃ env, c = .perstNDeassert env)) ∧
  (∀ s t : State, step s = .next t → s.trust.fuseOwned = true → t.trust.fuseOwned = true)

/-- Under pin reset, and once the interior has stopped, every command but PERST_N, THERMTRIP and the loss of the West core
supply leaves the node as it is. -/
def Obligations.StoppedNodeStands : Prop :=
  ∀ (s : State) (c : Instr), s.running = false →
    c ≠ .perstNAssert → (∀ env, c ≠ .perstNDeassert env) → c ≠ .thermtrip → c ≠ .coreWPowerLoss → exec c s = .next s

/-- Every command at every state answers a next state, whose queue of commands is the one it met. -/
def Obligations.EveryCommandAnswers : Prop :=
  ∀ (c : Instr) (s : State), Gives c s fun t => t.pending = s.pending

/-- R278, for every 16-bit id: which endpoint it names, and that every other id names none. -/
def Obligations.EndpointIds : Prop :=
  ∀ n : Nat, n < 65536 →
    (bitsOf 15 14 n = 0 → bitsOf 13 12 n = 0 → endpointOf n = some (.node (bitsOf 11 0 n))) ∧
    (bitsOf 15 14 n = 1 → endpointOf n = some (.adapter (bitsOf 13 0 n))) ∧
    (bitsOf 15 14 n = 0 → bitsOf 13 12 n ≠ 0 → endpointOf n = none) ∧
    (2 ≤ bitsOf 15 14 n → endpointOf n = none)

/-- A sequence handle, a page handle and an endpoint id within their fields, and every status, are read back from the number
that carries them. -/
def Obligations.HandlesReadBack : Prop :=
  (∀ h : SeqHandle, h.fits = true → seqHandleOf h.num = h) ∧
  (∀ h : PageHandle, h.fits = true → pageHandleOf h.num = h) ∧
  (∀ e : Endpoint, e.fits = true → endpointOf e.num = some e) ∧
  (∀ st : Status, statusOf st.code = st)

/-- Every well-formed command descriptor of the command set, with every operand at every value its field admits, is read back
from its 64 bytes, whatever payload follows it. -/
def Obligations.DescriptorsReadBack : Prop :=
  ∀ (d : Desc) (payload : List Byte) (mixed : Bool), d.fits = true →
    (encodeDesc d).length = 64 ∧ parseDesc mixed (encodeDesc d ++ payload) = d

/-- A completion takes the command out of the admitted ones, and has its outcome logged where R131 records one; where it records
none, the log holds no entry of it. A command that came from its source adds one to the completion count of its own queue and of
no other; one that came over a chain is acknowledged to its predecessor and counts on no queue. A chained command that meets NOPAGE
or BUSY_RETRY is not completed: it is held for its retry. -/
def Obligations.CompletionAnswers : Prop :=
  ∀ (s : State) (c : Command) (r : Reply),
    ((c.chainedFrom.isSome && (r.status == .noPage || r.status == .busyRetry)) = true → completeOne s c r = holdChain s c) ∧
    ((c.chainedFrom.isSome && (r.status == .noPage || r.status == .busyRetry)) = false →
      liveOf (completeOne s c r) (cmdKey c) = none ∧
      (recorded r.status = true →
        (findOutcome (completeOne s c r) (cmdKey c)).map (fun o => (o.status, o.since)) = some (some r.status, now s)) ∧
      (recorded r.status = false → findOutcome (completeOne s c r) (cmdKey c) = none) ∧
      (∀ q : Nat, queueOf (completeOne s c r) q = if c.chainedFrom = none ∧ q = c.desc.queue then
        { queueOf s q with count := (queueOf s q).count + 1 } else queueOf s q))

/-- A completion, with the QWAITs that it releases, changes nothing but the admitted commands, the outcome log, the command
queues, the transmit side of the fabric and of the link, the records and the event of an INTERNAL status, and the held chained
commands. -/
def Obligations.CompletionFrame : Prop :=
  ∀ (s : State) (c : Command) (r : Reply),
    { complete s c r with
      exec := s.exec, outcomes := s.outcomes, queues := s.queues, net := s.net, link := s.link, cask := s.cask,
      fault := s.fault, comp := s.comp } = s

/-- A command that has been executed here completes at once where it is not forwarded or no successor holds its sequence. A
forwarded command with successors stays admitted, marked as executed, and waits for one acknowledgement from each leg; its
source is not answered yet. -/
def Obligations.ExecutedCommandPassesChain : Prop :=
  ∀ (s : State) (c : Command) (repl : Nat) (r : Reply),
    (isForwarded c.desc.body = false ∨ chainLegs s c repl = [] → finish s c repl r = complete s c r) ∧
    (isForwarded c.desc.body = true → chainLegs s c repl ≠ [] →
      (finish s c repl r).comp.waits = s.comp.waits ++
        [{ key := cmdKey c, cmd := c, status := r.status, legs := chainLegs s c repl }] ∧
      (finish s c repl r).queues = s.queues ∧ (finish s c repl r).outcomes = s.outcomes ∧
      (∀ l ∈ (finish s c repl r).exec.live, cmdKey l.cmd = cmdKey c → l.executed = true))

/-- R40: COUNT_LO_READ answers the low 32 bits of the counter and latches its high 32 bits of the same tick, changing nothing
else before it answers; read after it, COUNT_HI gives the rest of the same 64-bit value, whatever the counter has done. -/
def Obligations.CountRead : Prop :=
  ∀ (s : State) (tag : Nat), Reaches s 0x5000 →
    exec (.countLoRead tag) s = .next (linkSend { s with time := { s.time with countHi := bitsOf 63 32 (now s) } }
      (.regCpl tag 0x5000 0 (le 4 (bitsOf 31 0 (now s))))) ∧
    ∀ t u : State, exec (.countLoRead tag) s = .next t → u.time.countHi = t.time.countHi → now s < 2 ^ 64 →
      bitsOf 31 0 (now s) + 2 ^ 32 * regWord u 0x5004 = now s

/-- Each read of a low word answers bits [31:0] of its count, and latches bits [63:32] of the same value into the matching high
word; a read of K2H_WORD answers the head word of the mailbox FIFO and takes it out, or answers zero and counts an underrun
where the FIFO is empty. Nothing else changes before the answer is sent. A counter value v that leaves the node outside the management context is reported as 0 when v is 0 and as the largest power
of two that does not exceed it otherwise; where TCTR_SEL.COARSE is set, that is what each tenant counter shows. -/
def Obligations.LatchingReads : Prop :=
  (∀ (s : State) (tag : Nat),
    let sends := fun (a : Nat) (t : State) (v : Nat) => Host.Outcome.next (φ := Fault) (ρ := Refusal) (linkSend t (.regCpl tag a 0 (le 4 v)))
    (Reaches s 0x2804 → exec (.caskHeadLoRead tag) s =
      sends 0x2804 { s with cask := { s.cask with headHi := bitsOf 63 32 (caskNewest s.cask) } } (bitsOf 31 0 (caskNewest s.cask))) ∧
    (Reaches s 0x280C → exec (.caskOldLoRead tag) s =
      sends 0x280C { s with cask := { s.cask with oldHi := bitsOf 63 32 (caskOldest s.cask) } } (bitsOf 31 0 (caskOldest s.cask))) ∧
    (∀ i : Fin 8, Reaches s (0x3110 + 8 * i.val) → exec (.tctrLoRead tag i) s =
      sends (0x3110 + 8 * i.val) { s with snap := { s.snap with tctrHi := tabSet s.snap.tctrHi i.val (bitsOf 63 32 (shownCounter s i.val)) } }
        (bitsOf 31 0 (shownCounter s i.val))) ∧
    (∀ (q : Fin 4) (k : QuadCounter), Reaches s (0x10010 + 0x4000 * q.val + 8 * quadCounterNo k) →
      exec (.quadCounterRead tag q k) s =
        sends (0x10010 + 0x4000 * q.val + 8 * quadCounterNo k) (modQuad s q.val fun x => { x with latch := tabSet x.latch (quadCounterNo k) (bitsOf 63 32 (quadCount x (quadCounterNo k))) })
          (bitsOf 31 0 (quadCount (quadOf s q.val) (quadCounterNo k)))) ∧
    (∀ q : Fin 1024, Reaches s (0x21004 + 16 * q.val) → exec (.qccLoRead tag q) s =
      sends (0x21004 + 16 * q.val) (modQueue s q.val fun x => { x with countHi := bitsOf 63 32 x.count }) (bitsOf 31 0 (queueOf s q.val).count)) ∧
    (∀ g : LedRegion, Reaches s 0x30130 → regionOf s (fld s 0x30120 15 0) = some g → exec (.lregVerLoRead tag) s =
      sends 0x30130 { s with ledger := { s.ledger with verHi := bitsOf 63 32 g.version } } (bitsOf 31 0 g.version)) ∧
    (∀ (w : Word32) (last : Bool) (rest : List (Word32 × Bool)), Reaches s 0x4010 → s.mail.k2h = (w, last) :: rest →
      exec (.k2hWord tag) s = sends 0x4010 { s with mail := { s.mail with k2h := rest, last := last } } w.toNat) ∧
    (Reaches s 0x4010 → s.mail.k2h = [] →
      exec (.k2hWord tag) s = sends 0x4010 { s with mail := { s.mail with underrun := s.mail.underrun + 1 } } 0)) ∧
  (coarse 0 = 0 ∧ (∀ v : Nat, v ≠ 0 → (∃ k : Nat, coarse v = 2 ^ k) ∧ coarse v ≤ v ∧ v < 2 * coarse v) ∧
  (∀ (s : State) (i : Nat), fld s 0x3100 12 12 = 1 → shownCounter s i = coarse (tenantCounter s (fld s 0x3100 11 0) i)))

/-- REG_RD of one register with a read side effect is that register's own row; REG_WR of 1 to one command bit is that command's
row, and REG_WR of a write-only register is its row. So what the other statements say of these rows holds of the host's
ordinary accesses. -/
def Obligations.RowsAreAccesses : Prop :=
  (∀ (s : State) (tag : Nat), s.running = true → 2 ≤ s.link.state →
    exec (.regRd tag 0x5000 4) s = exec (.countLoRead tag) s ∧ exec (.regRd tag 0x2804 4) s = exec (.caskHeadLoRead tag) s ∧
    exec (.regRd tag 0x280C 4) s = exec (.caskOldLoRead tag) s ∧ exec (.regRd tag 0x30130 4) s = exec (.lregVerLoRead tag) s ∧
    exec (.regRd tag 0x4010 4) s = exec (.k2hWord tag) s) ∧
  (∀ (s : State) (e : Nat × Nat × Instr), Reaches s e.1 →
    e ∈ [(0x1020, 0, Instr.rstSoft), (0x1038, 0, .stgErase), (0x1038, 1, .stgWrite), (0x1038, 2, .stgStage),
      (0x1038, 3, .stgConfirm), (0x1038, 4, .stgCancel), (0x1060, 0, .ownFuse), (0x2048, 0, .injArm), (0x2048, 1, .injDisarm),
      (0x2828, 0, .caskRead), (0x3004, 0, .snapGo), (0x3004, 1, .snapRelease), (0x5010, 0, .markGo), (0x60E0, 0, .attReport),
      (0x60E0, 1, .attEndorse), (0x6224, 0, .extendGo), (0x6300, 0, .kemInstall), (0x6300, 1, .kemLink),
      (0x6408, 0, .tenantRemove), (0x2003C, 0, .pctxSet), (0x3000C, 0, .hlRetrain), (0x3011C, 0, .ldgDeclareDead),
      (0x30128, 0, .lregCreate), (0x30128, 1, .lregDelete), (0x40068, 0, .histClear), (0x50028, 0, .cascResync),
      (0x60090, 0, .hregAdd), (0x60090, 1, .hregRemove), (0x60218, 0, .cpEnrol 0), (0x60218, 1, .cpEject 0),
      (0x60238, 0, .cpEnrol 1), (0x60238, 1, .cpEject 1)] →
    exec (.regWr e.1 [BitVec.ofNat 32 (2 ^ e.2.1)]) s = exec e.2.2 s) ∧
  (∀ (s : State) (w : Word32), (Reaches s 0x4000 → exec (.regWr 0x4000 [w]) s = exec (.h2kWord w) s) ∧
    (Reaches s 0x4004 → exec (.regWr 0x4004 [w]) s = exec (.h2kLast w) s) ∧
    (Reaches s 0x2010 → exec (.regWr 0x2010 [w]) s = exec (.stickyClr false w) s) ∧
    (Reaches s 0x2014 → exec (.regWr 0x2014 [w]) s = exec (.stickyClr true w) s))

/-- REG_RD that R522 lets through answers OK with the words in ascending order after their read side effects; one that ends with
ERROR or NOT_SECURE answers that status without data. REG_WR that R522 lets through writes its words; a write of one
register that is a single RW word without a special place stores it and nothing else. An access that ends with ERROR changes
no register: it is counted, its word is noted, and REG_BUS rises where R522 says so; one that ends with NOT_SECURE changes
nothing. -/
def Obligations.HostAccesses : Prop :=
  ∀ s : State, s.running = true → 2 ≤ s.link.state →
    (∀ tag addr len : Nat, (accessEnd s addr len).1 = 0 → exec (.regRd tag addr len) s =
      .next (linkSend (winReads (accessWords addr (len / 4)) s).2 (.regCpl tag addr 0 (winReads (accessWords addr (len / 4)) s).1))) ∧
    (∀ tag addr len : Nat, (accessEnd s addr len).1 ≠ 0 → Gives (.regRd tag addr len) s fun t =>
      { t with link := s.link, accessErr := s.accessErr, lastErr := s.lastErr, fault := s.fault } = s ∧
      t.accessErr = s.accessErr + if (accessEnd s addr len).1 = 1 then 1 else 0) ∧
    (∀ (addr : Nat) (data : List Word32), (accessEnd s addr (4 * data.length)).1 = 0 → exec (.regWr addr data) s =
      .next (regWrite s ((accessWords addr data.length).zip data))) ∧
    (∀ (addr : Nat) (data : List Word32), (accessEnd s addr (4 * data.length)).1 ≠ 0 → Gives (.regWr addr data) s fun t =>
      { t with accessErr := s.accessErr, lastErr := s.lastErr, fault := s.fault } = s ∧
      t.accessErr = s.accessErr + if (accessEnd s addr (4 * data.length)).1 = 1 then 1 else 0) ∧
    (∀ (a : Nat) (w : Word32), a ∈ [0x1040, 0x6080, 0x60A0, 0x6204, 0x7000, 0x60084] → reachStatus s a = 0 →
      rd s a < 2 ^ 32 → exec (.regWr a [w]) s = .next { s with regs := tabSet s.regs a w.toNat })

/-- ATT_CMD.REPORT joins the report queue and makes ATT_STATE busy, and is refused with ATT_STATE 3 where 16 requests are
queued; ATT_CMD.ENDORSE shows the endorsement once it is signed and waits for it before. An ATTEST_REQ of a node or COMPOSER
for a report joins the same queue. The end of a signature takes the report at the head out of the queue, counts it, and
remembers its NONCE among the last 16. Each changes nothing but the TRUST block, the delivered message, and the answer it
sends. -/
def Obligations.AttestationRequests : Prop :=
  ∀ s : State, s.running = true →
    (Reaches s 0x60E0 → (reportQueue s).length < 16 → Gives .attReport s fun t =>
      t.trust.attState = 1 ∧ (reportQueue t).length = (reportQueue s).length + 1 ∧ { t with trust := s.trust } = s) ∧
    (Reaches s 0x60E0 → 16 ≤ (reportQueue s).length →
      exec .attReport s = .next { s with trust := { s.trust with attState := 3 } }) ∧
    (Reaches s 0x60E0 → s.trust.endorsed = true →
      exec .attEndorse s = .next { s with trust := { s.trust with attWindow := s.trust.endorsement, attState := 2 } }) ∧
    (Reaches s 0x60E0 → s.trust.endorsed = false →
      exec .attEndorse s =
        .next { s with trust := { s.trust with queue := s.trust.queue ++ [{ endorse := true }], attState := 1 } }) ∧
    (∀ (src : Endpoint) (reqTag : Nat) (nonce userData : List Byte), mayMark s src = true → (reportQueue s).length < 16 →
      Gives (.attestReq src reqTag 1 nonce userData) s fun t =>
        (reportQueue t).length = (reportQueue s).length + 1 ∧ { t with trust := s.trust, net := s.net } = s) ∧
    (∀ (signature : List Byte) (r : AttReq) (rest : List AttReq), takeFirst (fun x => !x.endorse) s.trust.queue = some (r, rest) →
      Gives (.signatureDone signature) s fun t =>
        t.trust.reports = s.trust.reports + 1 ∧ t.trust.nonces = (padTo 32 r.nonce :: s.trust.nonces).take 16 ∧
        t.trust.queue.length = rest.length ∧ { t with trust := s.trust, net := s.net, link := s.link } = s)

/-- EXTEND_CMD.GO over a SECURE link extends slot 6 or 7 with the 32 bytes of EXTEND_DATA, leaves the other slots alone, and
is ignored and counted over a PLAIN link. KEM_CMD.LINK makes the link SECURE with the keys of its secret, nonce and label, and
begins both directions anew. KEM_CMD.INSTALL over a SECURE link installs a package that passes every check: the tenant is
ACTIVE, its current generation is the package's and a generation it replaces drains from now; a package that fails a check
leaves the key store alone and shows the reason. A FIRST package may carry any generation, unless the node remembers a retired generation g of the tenant: then it must carry
g + 1 modulo 256. A package without FIRST must carry the current generation + 1 modulo 256. This is check 4 for a tenant that
is not REMOVING (R445 leaves that one to check 6); fabric packages are checked by the same rule, under the fabric's own number. -/
def Obligations.KeysAndSlots : Prop :=
  (∀ s : State, s.running = true →
    (Reaches s 0x6224 → s.link.state = 3 → Gives .extendGo s fun t =>
      slotWord t (6 + fld s 0x6200 0 0) = padTo 32 (shake256 (slotWord s (6 + fld s 0x6200 0 0) ++ regBytes s 0x6204 8) 32) ∧
      (∀ k : Nat, k ≠ 6 + fld s 0x6200 0 0 → slotWord t k = slotWord s k) ∧
      { t with trust := s.trust, cask := s.cask, fault := s.fault } = s) ∧
    (Reaches s 0x6224 → s.link.state = 2 →
      exec .extendGo s = .next { s with trust := { s.trust with plainWr := s.trust.plainWr + 1 } }) ∧
    (Reaches s 0x6300 → Gives .kemLink s fun t =>
      t.link.state = 3 ∧ t.link.txSeq = 0 ∧ t.link.rxSeq = 0 ∧ t.link.kept = [] ∧ t.trust.kemState = 2 ∧
      t.link.kLink = some (shake256 (Config.decaps (kemSeed s) (regBytes s 0x7000 392)
        ++ [0x52, 0x41, 0x4E, 0x55, 0x50, 0x2D, 0x4C, 0x49, 0x4E, 0x4B] ++ regBytes s 0x6080 8) 64) ∧
      { t with link := s.link, trust := s.trust } = s) ∧
    (Reaches s 0x6300 → s.link.state = 3 → Gives .kemInstall s fun t =>
      let p := parsePackage (regBytes s 0x7000 428)
      let r := (packageReason s (regBytes s 0x7000 428)).1
      let old := tenantOf s (packageKey p)
      (r = 0 → t.trust.kemState = 2 ∧ (tenantOf t (packageKey p)).state = 1 ∧ (tenantOf t (packageKey p)).keygen = some p.keygen ∧
        (tenantOf t (packageKey p)).prev = (if p.first then none else old.keygen.map fun g => (g, now s)) ∧
        ∀ n : Nat, n ≠ packageKey p → tenantOf t n = tenantOf s n) ∧
      (r ≠ 0 → t.trust.kemState = 3 ∧ t.trust.kemReason = r ∧ t.trust.tenants = s.trust.tenants) ∧
      { t with trust := s.trust } = s)) ∧
  (∀ (t : Tenant) (p : Package), t.state ≠ 2 →
    (p.first = true → t.retired = none → keygenFits t p = true) ∧
    (∀ g : Nat, p.first = true → t.retired = some g → (keygenFits t p = true ↔ p.keygen = (g + 1) % 256)) ∧
    (∀ g : Nat, p.first = false → t.keygen = some g → (keygenFits t p = true ↔ p.keygen = (g + 1) % 256)) ∧
    (p.first = false → t.keygen = none → keygenFits t p = false))

/-- TEN_CMD.REMOVE over a SECURE link removes an ACTIVE tenant in one step (log entry 41), and for any other tenant is ignored and
counted. A DRAIN_FENCE of an engine that is not the last marks the engine alone; with the last of the 32 engines, or when
KEY_DRAIN has passed, the retired generation is erased. -/
def Obligations.TenantsRemoved : Prop :=
  ∀ s : State, s.running = true →
    (Reaches s 0x6408 → s.link.state = 3 → (tenantOf s (fld s 0x6400 11 0)).state = 1 →
      exec .tenantRemove s = .next (removeTenant s (fld s 0x6400 11 0))) ∧
    (Reaches s 0x6408 → s.link.state = 3 → (tenantOf s (fld s 0x6400 11 0)).state ≠ 1 → exec .tenantRemove s =
      .next { s with trust := { s.trust with ignored := tabModD s.trust.ignored (fld s 0x6400 11 0) 0 (· + 1) } }) ∧
    (∀ (e : Fin 32) (n : Nat), (tenantOf s n).prev ≠ none → e.val ∉ (tenantOf s n).drained → (tenantOf s n).drained.length < 31 →
      exec (.drainFence e n) s = .next (modTenant s n fun x => { x with drained := (tenantOf s n).drained ++ [e.val] })) ∧
    (∀ (e : Fin 32) (n : Nat), (tenantOf s n).prev ≠ none → e.val ∉ (tenantOf s n).drained →
      (tenantOf s n).drained.length = 31 → Gives (.drainFence e n) s fun t => (tenantOf t n).prev = none) ∧
    (∀ n g since : Nat, (tenantOf s n).prev = some (g, since) → since + 1000000 ≤ now s →
      Gives (.keyDrainExpiry n) s fun t => (tenantOf t n).prev = none)

/-- With no staging operation running and over a SECURE link or in ROM safe state: ERASE and WRITE of an area that R458 allows,
CONFIRM of a running pending bank after READY, and CANCEL each start one flash operation and change nothing else; STAGE of a
configuration image is decided at once, READY where checks 1 to 6 pass and its SEQ is new, and else refused with its reason;
STAGE of a firmware set whose images verify extends slot 5 with their measurements and starts the write of the directory. A command
that R458 does not allow now is refused with reason 8, images that do not verify with reason 7. Each command given while an operation
runs is ignored and counted. The end of an operation writes exactly the area or the directory entry that it names, or reports FLASH
and leaves the flash alone. OWN_CMD.FUSE blows the fuse of an unowned part with the 32 bytes of OWN_HASH, and is refused else. -/
def Obligations.StagingCommands : Prop :=
  ∀ s : State, Reaches s 0x1038 →
    (s.boot.stgState ≠ 1 → s.boot.romSafe = true ∨ s.link.state = 3 →
      (∀ base len : Nat, stageArea s = some (base, len) → pendingBlocks s = false →
        exec .stgErase s = .next (startFlash s (.erase base len)) ∧
        (fld s 0x1034 23 0 + 2048 ≤ len →
          exec .stgWrite s = .next (startFlash s (.program (base + fld s 0x1034 23 0) (regBytes s 0x1800 512)))) ∧
        (len < fld s 0x1034 23 0 + 2048 → exec .stgWrite s = .next (setStage s 3 8))) ∧
      (stageArea s = none ∨ pendingBlocks s = true →
        exec .stgErase s = .next (setStage s 3 8) ∧ exec .stgWrite s = .next (setStage s 3 8)) ∧
      (fld s 0x1030 0 0 = 1 → ∀ r n : Nat, r = (imageReason s (cfgImage s (1 - s.boot.cfgSlot))).1 →
        n = fieldLe (cfgImage s (1 - s.boot.cfgSlot)) 0xC 4 →
        (r ≠ 0 → exec .stgStage s = .next (setStage s 3 r)) ∧
        (r = 0 → s.boot.cfgState ≠ 1 ∨ s.boot.cfgSeq < n → exec .stgStage s = .next (setStage s 2 0)) ∧
        (r = 0 → s.boot.cfgState = 1 → n ≤ s.boot.cfgSeq → exec .stgStage s = .next (setStage s 3 8))) ∧
      (fld s 0x1030 0 0 = 0 →
        (s.boot.pending = true ∨ s.boot.active ≠ s.boot.bank → exec .stgStage s = .next (setStage s 3 8)) ∧
        (s.boot.pending = false → s.boot.active = s.boot.bank →
          (bankImages s (1 - s.boot.bank) = none → exec .stgStage s = .next (setStage s 3 7)) ∧
          (∀ l, bankImages s (1 - s.boot.bank) = some l → exec .stgStage s = .next (startFlash
            (foldState (fun s i => extendSlot s 5 (shake256 i.1 32) s.boot.romSafe) s l) .stageFirmware)))) ∧
      (s.boot.ready = true → s.boot.pending = true → s.boot.bank ≠ s.boot.active → exec .stgConfirm s = .next (startFlash s .confirm)) ∧
      (s.boot.ready = false ∨ s.boot.pending = false ∨ s.boot.bank = s.boot.active → exec .stgConfirm s = .next (setStage s 3 8)) ∧
      exec .stgCancel s = .next (startFlash s .cancel)) ∧
    (s.boot.stgState = 1 → ∀ c ∈ [Instr.stgErase, .stgWrite, .stgStage, .stgConfirm, .stgCancel],
      exec c s = .next { s with badvalWr := s.badvalWr + 1 }) ∧
    (∀ op : FlashOp, s.boot.op = some op → ∀ u : State, u = { s with boot := { s.boot with op := none } } →
      exec (.flashOperationDone false) s = .next (setStage u 3 9) ∧
      (∀ base len : Nat, op = .erase base len → Gives (.flashOperationDone true) s fun t =>
        t.boot.flash = memClear s.boot.flash base len ∧ t.boot.stgState = 0 ∧ t.boot.op = none ∧ { t with boot := s.boot } = s) ∧
      (∀ (base : Nat) (data : List Byte), op = .program base data → Gives (.flashOperationDone true) s fun t =>
        t.boot.flash = memWriteN 0xFF s.boot.flash base data ∧ t.boot.stgState = 0 ∧ t.boot.op = none ∧
        { t with boot := s.boot } = s) ∧
      (op = .stageFirmware → exec (.flashOperationDone true) s = .next (setStage (writeDirectory u s.boot.active true false) 2 0)) ∧
      (op = .confirm → exec (.flashOperationDone true) s = .next (setStage (writeDirectory u s.boot.bank false false) 4 0)) ∧
      (op = .cancel → exec (.flashOperationDone true) s = .next (setStage (writeDirectory u s.boot.active false false) 0 0))) ∧
    (Reaches s 0x1060 → s.boot.stgState ≠ 1 →
      (s.trust.owned = false → s.trust.fuseOwned = false → exec .ownFuse s =
        .next { s with trust := { s.trust with fuseOwned := true, fuseHash := regBytes s 0x1040 8 } }) ∧
      (s.trust.owned = true ∨ s.trust.fuseOwned = true → exec .ownFuse s = .next (setStage s 3 8)))

/-- PERST_N_ASSERT stops the interior, takes every register, counter and volatile part of the state to its reset value, and
keeps the flash, the fuses, the committed guest objects and the written Cask records. PERST_N_DEASSERT of a node under pin
reset that has not tripped runs the power-up. RST_CMD.SOFT after READY acts as the soft reset, keeping the stored registers and
the interval counter. THERMTRIP and the loss of the West core supply finish the Cask record that is being written, drop the
queued ones, and stop the interior; the loss of the East core supply retires every module of the bridge. -/
def Obligations.ResetsAndPower : Prop :=
  (∀ s : State, Gives .perstNAssert s fun t =>
    t.running = false ∧ t.regs = [] ∧ t.fault = {} ∧ t.time = {} ∧ t.net = {} ∧ t.exec = {} ∧ t.comp = {} ∧ t.ledger = {} ∧
    t.pfx = {} ∧ t.link = {} ∧ t.outcomes = [] ∧ t.mem.seqs = [] ∧ t.mem.frames = [] ∧ t.mem.slots = [] ∧ t.trust.tenants = [] ∧
    t.boot.flash = s.boot.flash ∧ t.trust.fuseOwned = s.trust.fuseOwned ∧ t.trust.fuseHash = s.trust.fuseHash ∧
    t.mem.guests = s.mem.guests.filter (fun g => g.committed)) ∧
  (∀ (env : BootEnv) (s : State), s.pack.pinReset = true → s.pack.thermtrip = false →
    exec (.perstNDeassert env) s = .next (powerUp env s) ∧ (powerUp env s).running = true ∧ (powerUp env s).pack.pinReset = false) ∧
  (∀ s : State, Reaches s 0x1020 → s.boot.ready = true → exec .rstSoft s = .next (softReset s) ∧
    (softReset s).regs = s.regs ∧ now s ≤ now (softReset s) ∧ (softReset s).fault.fenced = true) ∧
  (∀ s u : State, u = finishRecord s →
    exec .thermtrip s = .next { u with running := false, pack := { u.pack with thermtrip := true } } ∧
    exec .coreWPowerLoss s = .next { u with running := false, pack := { u.pack with thermtrip := false } } ∧
    u.cask.queue = [] ∧ u.cask.waiting = [] ∧ { u with cask := s.cask } = s) ∧
  (∀ s : State, s.running = true → exec .coreEPowerLoss s = .next (bridgeRetire s (List.range 16)))

/-- FAULT_EVENT with a failed check of the node's own hardware first raises its event, then does what FAULT_EVENT without one does:
it handles the earliest event that waits, after the end of its source's window where that is due, and with no event waiting it does
nothing. The end of a window
takes its sources' counts to 0, lets those below their threshold return to their severity, and touches no other source. An
event source's line falls 1,000 ticks after its latest event. The end of a log period of a source that missed no record starts
its count anew, and of one that missed some writes their number first. STICKY_CLR clears exactly the sticky bits that are
written 1. -/
def Obligations.FaultCollector : Prop :=
  ∀ s : State, s.running = true →
    (∀ c : SelfCheck, (selfSource c.source = true → exec (.faultEvent (some c)) s = exec (.faultEvent none) (selfCheck s c) ∧
        (selfCheck s c).fault.events = s.fault.events ++ [{ source := c.source, unit := selfUnit c, detail := c.detail }]) ∧
      (selfSource c.source = false → exec (.faultEvent (some c)) s = exec (.faultEvent none) s)) ∧
    (∀ (ev : FaultEv) (rest : List FaultEv), s.fault.events = ev :: rest →
      exec (.faultEvent none) s = .next (handleEvent (if pWinEn s ev.source && windowDue s (pWindow s ev.source)
        then windowEnd { s with fault := { s.fault with events := rest } } (pWindow s ev.source)
        else { s with fault := { s.fault with events := rest } }) ev)) ∧
    (s.fault.events = [] → exec (.faultEvent none) s = .next s) ∧
    (∀ k : Fin 16, windowDue s k.val = true → Gives (.faultWindowEnd k) s fun t =>
      (∀ n : Nat, n < 63 → pWinEn s n = true → pWindow s n = k.val → srcOf t n =
        { srcOf s n with win := 0, escalated := (srcOf s n).escalated && decide (pThreshold s n ≤ (srcOf s n).win) }) ∧
      (∀ n : Nat, n < 63 → ¬(pWinEn s n = true ∧ pWindow s n = k.val) → srcOf t n = srcOf s n) ∧ { t with fault := s.fault } = s) ∧
    (∀ (n : Fin 64) (t : Nat), (srcOf s n.val).lineSince = some t → t + 1000 ≤ now s →
      exec (.eventLineDrop n) s = .next (modSrc s n.val fun x => { x with lineSince := none })) ∧
    (∀ (n : Fin 64) (t : Nat), (srcOf s n.val).logStart = some t → t + 100000000 ≤ now s → (srcOf s n.val).logMissed = 0 →
      exec (.logPeriodEnd n) s = .next (modSrc s n.val fun x => { x with logStart := none, logCount := 0, logMissed := 0 })) ∧
    (∀ (n : Fin 64) (t : Nat), (srcOf s n.val).logStart = some t → t + 100000000 ≤ now s → (srcOf s n.val).logMissed ≠ 0 →
      Gives (.logPeriodEnd n) s fun u => (srcOf u n.val).logStart = none ∧ (srcOf u n.val).logCount = 0 ∧
        (srcOf u n.val).logMissed = 0 ∧ { u with fault := s.fault, cask := s.cask } = s) ∧
    (∀ (high : Bool) (bits : Word32), Reaches s (if high then 0x2014 else 0x2010) → Gives (.stickyClr high bits) s fun t =>
      (∀ n : Nat, n < 64 → (srcOf t n).sticky = ((srcOf s n).sticky && !(high == decide (32 ≤ n) && bitOf (n % 32) bits.toNat))) ∧
      { t with fault := s.fault } = s)

/-- ARM with INJECT_EN set, over a SECURE link, of a unit that the checker has, arms that checker, unit and mode; any other ARM is
refused, and one given while an injection is armed is ignored and counted; DISARM of an armed injection makes it idle. A
CASK_RECORD_WRITE with no armed CASK_CRC injection and no record waiting for room writes the record at the head of the queue
into its segment as it is; with such an injection it writes it with an inverted CRC and fires the injection once. -/
def Obligations.InjectionsAndRecords : Prop :=
  ∀ s : State,
    (Reaches s 0x2048 → s.fault.inj.status ≠ 1 → pInjectEn s = true → s.link.state = 3 →
      fld s 0x2044 23 8 < checkerUnits (fld s 0x2044 3 0) → exec .injArm s = .next { s with fault := { s.fault with
        inj := { s.fault.inj with status := 1, checker := fld s 0x2044 3 0, mode := fld s 0x2044 4 4, unit := fld s 0x2044 23 8 } } }) ∧
    (Reaches s 0x2048 → s.fault.inj.status ≠ 1 →
      pInjectEn s = false ∨ s.link.state ≠ 3 ∨ checkerUnits (fld s 0x2044 3 0) ≤ fld s 0x2044 23 8 →
      exec .injArm s = .next { s with fault := { s.fault with inj := { s.fault.inj with status := 3 } } }) ∧
    (Reaches s 0x2048 → s.fault.inj.status = 1 → exec .injArm s = .next { s with badvalWr := s.badvalWr + 1 } ∧
      exec .injDisarm s = .next { s with fault := { s.fault with inj := { s.fault.inj with status := 0 } } }) ∧
    (∀ (j : CaskJob) (rest : List CaskJob), s.running = true → s.cask.queue = j :: rest → s.cask.waiting = [] →
      (¬(s.fault.inj.status = 1 ∧ s.fault.inj.checker = 12 ∧ s.fault.inj.unit = 0) →
        exec .caskRecordWrite s = .next { s with cask := caskStore { s.cask with queue := rest } j false }) ∧
      (s.fault.inj.status = 1 → s.fault.inj.checker = 12 → s.fault.inj.unit = 0 → Gives .caskRecordWrite s fun t =>
        t.cask = caskStore { s.cask with queue := rest } j true ∧ t.fault.inj.status = 2 ∧
        t.fault.inj.count = s.fault.inj.count + 1 ∧ { t with cask := s.cask, fault := s.fault } = s))

/-- R501: CASK_CMD.READ of the SEQ in CASK_SEL shows state 2 and the record's 64 bytes where a segment holds a record of that SEQ
whose CRC is right, and state 3 otherwise (overwritten, dropped and never written records are in no segment); no segment,
queue or record number changes, and nothing outside the Cask's interface does. -/
def Obligations.CaskReads : Prop :=
  ∀ s : State, Reaches s 0x2828 → Gives .caskRead s fun t =>
    let seq := rd s 0x2820 + 4294967296 * fld s 0x2824 15 0
    let found := (s.cask.segs.flatMap fun e => e.2.recs).find? fun r => r.seq == seq
    (∀ r : CaskRec, found = some r → r.badCrc = false → t.cask.rstate = 2 ∧ t.cask.data = caskBytes r) ∧
    (∀ r : CaskRec, found = some r → r.badCrc = true → t.cask.rstate = 3) ∧
    (found = none → t.cask.rstate = 3) ∧
    t.cask.segs = s.cask.segs ∧ t.cask.queue = s.cask.queue ∧ t.cask.waiting = s.cask.waiting ∧ t.cask.nextSeq = s.cask.nextSeq ∧
    { t with cask := s.cask } = s

/-- SNAP_GO, and a level of at least 2 ticks on an enabled HALO_IN, each take a Halo while the snapshot words are neither being
latched nor held and no fabric snapshot is due: HALO_NO counts, LAST_SRC names the source, and the state is held where HOLD is
set; while they are held a trigger at a later tick is counted as missed, and at the tick of the last Halo it is either added
to LAST_SRC or counted as missed (log entry 40). RELEASE ends a hold. A HALO_MARK of a member with the installed epoch
and a new SNAP_ID takes a Halo and starts its drain; one of another epoch is counted and has no other effect. A drain whose
markers have all arrived, or that has lasted 5,000 ticks, is reported. -/
def Obligations.Snapshots : Prop :=
  ∀ s : State, s.running = true →
    (∀ taken : Nat → State → Prop, (taken = fun b t => t.snap.haloNo = (s.snap.haloNo + 1) % 65536 ∧ t.snap.lastSrc = b ∧
        t.snap.state = (if fld s 0x3000 4 4 = 1 then 3 else 2) ∧ { t with snap := s.snap } = s) →
      haloFree s = true → fld s 0x3000 3 3 = 0 ∨ s.comp.map = none →
      (Reaches s 0x3004 → Gives .snapGo s (taken 2)) ∧
      (∀ ticks : Nat, 2 ≤ ticks → fld s 0x3000 0 0 = 1 → Gives (.haloIn ticks) s (taken 1))) ∧
    (haloFree s = false → Reaches s 0x3004 →
      (sameTick s = false → exec .snapGo s = .next { s with snap := { s.snap with missed := s.snap.missed + 1 } }) ∧
      (sameTick s = true → Gives .snapGo s fun t =>
        (t.snap = (joinHalo s 1 0).snap ∨ t.snap = { s.snap with missed := s.snap.missed + 1 }) ∧
        { t with snap := s.snap, fresh := s.fresh } = s)) ∧
    (s.snap.state = 3 → Reaches s 0x3004 → exec .snapRelease s = .next { s with snap := { s.snap with state := 2 } }) ∧
    (∀ (src : Endpoint) (snapId epoch : Nat) (s0 : State), s0 = takeKind s src 0x1C → mayMark s0 src = true →
      (s.comp.map ≠ none → epoch = epochOf s → s.snap.ids.contains snapId = false → haloFree s = true →
        exec (.haloMark src snapId epoch) s = .next (startDrain (latchHalo s0 3 snapId) snapId [sysKey src] true)) ∧
      (s.comp.map ≠ none → epoch ≠ epochOf s →
        exec (.haloMark src snapId epoch) s = .next { s0 with snap := { s0.snap with discards := s0.snap.discards + 1 } })) ∧
    (∀ d : Drain, s.snap.drains.find? drainComplete = some d → exec .haloDrainDone s = .next (haloDone s d true)) ∧
    (∀ d : Drain, s.snap.drains.find? (fun d => !drainComplete d && elapsed s d.since 5000) = some d →
      exec .haloDrainTimeout s = .next (haloDone s d false))

/-- A word written while a stage is empty and no message is being discarded enters the chain, with its end mark for H2K_LAST; one
written while no stage is empty is dropped and counted, its message is discarded to its end mark, and ERROR 3 answers. A whole
RENEW message restarts a running lease that names the installed epoch; a whole PING message is echoed as PONG with its TAG; each
leaves the mailbox for the next message. -/
def Obligations.MailboxMessages : Prop :=
  ∀ s : State, s.running = true →
    (∀ w : Word32, s.mail.skip = false → s.mail.fifo.length < 64 →
      (Reaches s 0x4000 → exec (.h2kWord w) s = .next (mailDrain { s with mail := { s.mail with fifo := s.mail.fifo ++ [(w, false)] } })) ∧
      (Reaches s 0x4004 → exec (.h2kLast w) s = .next (mailDrain { s with mail := { s.mail with fifo := s.mail.fifo ++ [(w, true)] } }))) ∧
    (∀ w : Word32, s.mail.skip = false → 64 ≤ s.mail.fifo.length → Reaches s 0x4000 → Gives (.h2kWord w) s fun t =>
      t.mail.overrun = s.mail.overrun + 1 ∧ t.mail.skip = true ∧ t.mail.k2h.length = s.mail.k2h.length + 3 ∧ { t with mail := s.mail } = s) ∧
    (∀ w : Word32, s.mail.skip = true → Reaches s 0x4000 → Reaches s 0x4004 → exec (.h2kWord w) s = .next s ∧
      exec (.h2kLast w) s = .next { s with mail := { s.mail with skip := false } }) ∧
    (s.mail.done = true → mailKind s.mail.cur = 2 →
      exec .mailboxRenew s = .next (renewLease (mailNext s) (s.mail.cur.getD 1 0).toNat)) ∧
    (s.mail.done = true → mailKind s.mail.cur = 3 →
      exec .ping s = .next (k2hPush (mailNext s) 0x83 (mailTag s.mail.cur) (s.mail.cur.drop 1)))

/-- R517, of the whole MAP_CHUNK message at the head of the mailbox: a chunk whose offset is neither 0 nor the number of bytes
assembled, or whose total differs, is answered with ERROR 4 and assembles nothing; a chunk at offset 0 begins anew; one that
leaves the assembly short of its total is kept; and with the one that makes it whole the assembled bytes are installed as a MAP
message's are, and MAP_ACK answers through K2H with the map's epoch, the installed epoch and the status. -/
def Obligations.MapChunks : Prop :=
  ∀ (s u : State) (ws : List Word32) (off total : Nat) (held buf : List Byte), s.running = true → s.mail.done = true →
    mailKind s.mail.cur = 1 → ws = s.mail.cur → u = mailNext s → off = (ws.getD 1 0).toNat → total = (ws.getD 2 0).toNat →
    held = (if off = 0 then [] else s.mail.mapBuf) → buf = (held ++ wordBytes (ws.drop 3)).take total →
    (off ≠ held.length ∨ (off ≠ 0 ∧ total ≠ s.mail.mapTotal) → exec .mapChunk s = .next (mailError u 4 (mailTag ws))) ∧
    (off = held.length → off = 0 ∨ total = s.mail.mapTotal → buf.length ≠ total →
      exec .mapChunk s = .next { u with mail := { u.mail with mapBuf := buf, mapTotal := total } }) ∧
    (off = held.length → off = 0 ∨ total = s.mail.mapTotal → buf.length = total →
      ∀ r : State × Status, r = installMap { u with mail := { u.mail with mapBuf := [], mapTotal := 0 } } buf →
      exec .mapChunk s = .next (k2hPush r.1 0x81 (mailTag ws)
        [BitVec.ofNat 32 (fieldLe buf 8 4), BitVec.ofNat 32 (epochOf r.1), BitVec.ofNat 32 r.2.code]))

/-- Over an up link with no flit injection armed: a flit with a failed CRC is counted, answered with a NAK, and discards what follows until the
replay, and the fourth in a row takes the link down; a failed tag over a SECURE link takes it down with its source, a reserved type takes it
down; a good data flit that is the next expected one advances the receive sequence and the transaction stream, and a control flit
answers it; and a good control flit takes its credit
limits; a NAK sends every unacknowledged flit again, once more counted, and a flit sent four times takes the link down. The loss of the link
counts it, and the link trains again from step 1 with empty queues. A MSG is dropped and counted over a PLAIN link and delivered
over a SECURE one under a known generation. The last part of an answer to a MEM_RD ends the read; an earlier part shortens it;
an error or 10,000 ticks fail it. A flit that the node forms has 512 bytes, a CRC that holds, and in its header its KIND, its NAK, and
the number of the last data flit taken; over a PLAIN link its payload is the stream's bytes as they are. -/
def Obligations.LinkTraffic : Prop :=
  ∀ s : State, s.running = true → 2 ≤ s.link.state →
    (∀ f : Flit, fireInj s 9 0 = none → flitCrcOk f = false → s.link.rxFails < 3 → exec (.flitReceived f) s =
      .next { s with link := linkIdle { s.link with rxDiscard := true, rxFails := s.link.rxFails + 1, nak := s.link.nak + 1 } true }) ∧
    (∀ f : Flit, fireInj s 9 0 = none → flitCrcOk f = false → 3 ≤ s.link.rxFails → exec (.flitReceived f) s =
      .next (linkGoesDown { s with link := { s.link with rxDiscard := true, rxFails := s.link.rxFails + 1, nak := s.link.nak + 1 } })) ∧
    (∀ f : Flit, fireInj s 9 0 = none → flitCrcOk f = true →
      (s.link.state = 3 → f.tagOk = false → exec (.flitReceived f) s = .next (flitTagFails s)) ∧
      (s.link.state ≠ 3 ∨ f.tagOk = true → ∀ l : LinkSt, l = (if flitAckv f then linkAck s.link (flitAckSeq f) else s.link) →
        (flitNak f = true → exec (.flitReceived f) s = .next (flitAccept s f)) ∧
        (flitNak f = false →
          (flitKind f = 0 → f.seq = l.rxSeq →
            (rxRead 64 l.rx (flitPayload l f) = none → exec (.flitReceived f) s = .next (linkGoesDown { s with link := l })) ∧
            (∀ x : RxStream, rxRead 64 l.rx (flitPayload l f) = some x →
              exec (.flitReceived f) s = .next (linkPump { s with link := linkControl { l with
                rxSeq := (l.rxSeq + 1) % 4096, rxFails := 0, rxDiscard := false, rxAny := true, rx := x } }))) ∧
          (flitKind f = 0 → f.seq ≠ l.rxSeq → exec (.flitReceived f) s = .next (linkPump { s with link := l })) ∧
          (flitKind f = 1 → exec (.flitReceived f) s = .next (linkPump { s with link := linkCredit l (flitPayload l f) }))))) ∧
    (∀ (a : Nat) (l : LinkSt), l = linkAck s.link a →
      (l.kept = [] → exec (.nakReceived a) s = .next (linkPump { s with link := l })) ∧
      (∀ (f : LinkFlit) (rest : List LinkFlit), l.kept = f :: rest →
        (f.tries < 4 → exec (.nakReceived a) s = .next (linkPump { s with link := { l with
          kept := l.kept.map (fun x => { x with tries := x.tries + 1 }), wire := l.wire ++ l.kept.map fun x => x.bytes } })) ∧
        (4 ≤ f.tries → exec (.nakReceived a) s = .next (linkPump (linkGoesDown { s with link := l }))))) ∧
    (∀ cause : DownCause, exec (.linkDown cause) s = .next (linkGoesDown s)) ∧
    (∀ (tenant keygen : Nat) (sys mgmt : Bool) (bytes : List Byte),
      (s.link.state = 2 → exec (.msg tenant keygen sys mgmt bytes) s =
        .next { s with link := { s.link with plainDrop := s.link.plainDrop + 1 } }) ∧
      (s.link.state = 3 → linkGenOk s { peer := hlEndpoint s, tenant := tenant, sys := sys } keygen = true →
        exec (.msg tenant keygen sys mgmt bytes) s = .next (deliver s {
          src := hlEndpoint s, tenant := tenant, keygen := keygen, sys := sys, mgmt := mgmt, viaLink := true, bytes := bytes }))) ∧
    (∀ (m : MemRd) (data : List Byte), s.link.memRds.find? (fun x => x.tag == m.tag) = some m →
      (m.len ≤ data.length → exec (.memCpl m.tag true data) s = .next (assignLanes
        { s with link := { s.link with memRds := s.link.memRds.filter fun x => x.tag != m.tag } })) ∧
      (data.length < m.len → exec (.memCpl m.tag true data) s = .next { s with link := { s.link with
        memRds := s.link.memRds.map fun x => if x.tag = m.tag then
          { x with addr := m.addr + data.length, len := m.len - data.length } else x } }) ∧
      exec (.memCpl m.tag false data) s = .next (memRdFails s m) ∧
      (m.since + 10000 ≤ now s → exec (.memRdTimeout m.tag) s = .next (memRdFails s m))) ∧
    (∀ (l : LinkSt) (kind : Nat) (nak : Bool) (payload : List Byte) (f : Flit), kind < 4 → f.bytes = flitBytes l kind nak payload →
      f.bytes.length = 512 ∧ flitCrcOk f = true ∧ flitKind f = kind ∧ flitNak f = nak ∧ flitAckv f = (l.rxAny || nak) ∧
      flitAckSeq f = (l.rxSeq + 4095) % 4096 ∧
      (l.state ≠ 3 → flitPayload l f = padTo 484 payload))

/-- In training the four steps complete in their order, bit lock on at least 4 lanes, a width within the ceiling, a generation
within the ceiling, and flit lock, which brings the link up PLAIN with both sequences at 0 and lets its fault source fall; a step
that exceeds its bound begins the attempt anew, and after three attempts lowers the generation ceiling, or at Gen 1 widens the
width ceiling by one step. RETRAIN takes an up link down and trains it with full ceilings. -/
def Obligations.LinkTrains : Prop :=
  ∀ s : State, s.running = true → s.time.backup = false →
    (s.link.state = 1 →
      (∀ n : Nat, s.link.step = 1 → 4 ≤ n → exec (.linkTraining (.bitLock n)) s = .next { s with link := { s.link with step := 2 } }) ∧
      (∀ (w : Nat) (rev : Bool), s.link.step = 2 → w ∈ [4, 8, 16] → w ≤ widthOfCeil s.link.widthCeil →
        exec (.linkTraining (.widthAgreed w rev)) s = .next { s with link := { s.link with step := 3, width := w, reversed := rev } }) ∧
      (∀ g : Nat, s.link.step = 3 → 1 ≤ g → g ≤ s.link.genCeil →
        exec (.linkTraining (.equalised g)) s = .next { s with link := { s.link with step := 4, gen := g } }) ∧
      (s.link.step = 4 → Gives (.linkTraining .flitLock) s fun t => t.link.state = 2 ∧ t.link.txSeq = 0 ∧ t.link.rxSeq = 0 ∧
        t.link.kept = [] ∧ (srcOf t 15).level = false ∧ { t with link := s.link, fault := s.fault } = s) ∧
      (s.link.fails < 2 → exec (.linkTraining .boundExceeded) s =
        .next { s with link := { s.link with step := 1, fails := s.link.fails + 1 } }) ∧
      (2 ≤ s.link.fails → exec (.linkTraining .boundExceeded) s = .next { s with link :=
        if 1 < s.link.genCeil then { s.link with step := 1, fails := 0, genCeil := s.link.genCeil - 1 }
        else { s.link with step := 1, fails := 0, widthCeil := min 2 (s.link.widthCeil + 1) } })) ∧
    (Reaches s 0x3000C → Gives .hlRetrain s fun t => t.link.state = 1 ∧ t.link.step = 1 ∧ t.link.fails = 0 ∧
      t.link.genCeil = fld s 0x30000 1 0 ∧ t.link.widthCeil = fld s 0x30000 3 2)

/-- MARK.GO marks the counter and writes its MARK record. The time bus runs the counter to its next multiple of 16, tick by tick. A
comparator that has reached its value, when no lower-numbered one of its die is due, gives its user its event: a gate list its entry
end, the failure detector its firing, a fault window its end. The loss of HL_REFCLK fences the node and takes an up link down, and
its return ends the source's cause; a memory clock that is lost is noted, and one that returns in time is forgotten, while one that
returns late lets its units train again. The loss of a SerDes clock takes down every sub-port of its die, of the cartridges' clock
empties the ports that hold one and raises their sources, of the bridge's clock retires its modules, and of the xSPI clock fails a
staging operation with reason 9. -/
def Obligations.TimeAndClocks : Prop :=
  ∀ s : State, s.running = true →
    (Reaches s 0x5010 → Gives .markGo s fun t => t.time.mark = now s ∧
      { t with time := s.time, cask := s.cask, fault := s.fault } = s) ∧
    (Gives .timeBusBroadcast s fun t => t = iter tick (16 - s.time.counter % 16) s ∧
      s.time.counter - s.time.counter % 16 + 16 ≤ t.time.counter) ∧
    (∀ (n : Fin 64) (due : Nat), due ≤ now s → (∀ k : Nat, n.val / 32 * 32 ≤ k → k < n.val → comparatorDue s k = false) →
      (∀ u : Nat, comparator s n.val = (1, some due) → (List.range 14).find? (fun u => pGateEn s u && pGateCmp s u == n.val) = some u →
        exec (.comparatorFire n) s = .next (gateEnds s u)) ∧
      (comparator s n.val = (2, some due) → exec (.comparatorFire n) s = .next (detectorFires s)) ∧
      (∀ k : Nat, comparator s n.val = (3, some due) → (List.range 16).find? (fun k => pFwinEn s k && pFwinCmp s k == n.val) = some k →
        exec (.comparatorFire n) s = .next (windowEnd s k))) ∧
    (s.time.backup = false → Gives .hlRefclkLoss s fun t => t.time.backup = true ∧ t.time.refOk = false ∧ t.fault.fenced = true ∧
      (2 ≤ s.link.state → t.link.state = 1)) ∧
    (s.time.backup = true → Gives .hlRefclkReturn s fun t => t.time.backup = false ∧ t.time.refOk = true ∧ (srcOf t 6).level = false ∧
      { t with time := s.time, fault := s.fault } = s) ∧
    (∀ clk : MemClock, s.pack.lostMem.contains clk = false →
      exec (.memRefclkLoss clk) s = .next { s with pack := { s.pack with lostMem := s.pack.lostMem ++ [clk] } }) ∧
    (∀ (clk : MemClock) (u : State), s.pack.lostMem.contains clk = true →
      u = { s with pack := { s.pack with lostMem := s.pack.lostMem.filter fun c => c != clk } } →
      exec (.memRefclkReturn clk true) s = .next u ∧ exec (.memRefclkReturn clk false) s = .next (retrainLate u clk)) ∧
    (∀ die : Fin 2, Gives (.otherRefclkLoss (.serdes die)) s fun t =>
      (∀ p b : Nat, 6 * die.val ≤ p → p < 6 * die.val + 6 → b < 4 → (subOf t p b).up = false) ∧ { t with net := s.net } = s) ∧
    (exec (.otherRefclkLoss .cellar) s = .next (foldState (fun s p => if (portOf s p).state = 0 then s
      else raise (portGone s p) { source := 55 + p, unit := { kind := 10, num := p } }) s [0, 1])) ∧
    (Gives (.otherRefclkLoss .bridge) s fun t => t = bridgeRetire s (List.range 16) ∧
      ∀ m : Nat, m < 16 → (tabGetD t.time.bridge m {}).retired = true) ∧
    (∀ op : FlashOp, s.boot.op = some op →
      exec (.otherRefclkLoss .xspi) s = .next (setStage { s with boot := { s.boot with op := none } } 3 9))

/-- A flit that a module in service sends again is counted for the module and for the bridge, an injection that is armed there fires
with it, and the 65th in a window of 2^20 ticks retires the module. A regulator that does not answer is counted, and at the third time
in a row counts as not answering and raises its source; an answer ends both. A policy step takes the power estimate and changes nothing
but its rail. A reading of the logic temperatures, 1,000 ticks after the last, is kept, and source 11 follows 105 °C; the end of a sensor
window shows its coarsened means; a sideband read answers the registers it names. A decision of the voltage policy moves a rail by at
most 5 mV and leaves the other rail alone: towards VMIN while a junction is at 105 °C or more or the power passes its cap, else
towards what the mode asks for, up not before 1,000 ticks and at less than 100 °C, down not before 10,000 ticks after the last step.
Once the image is loaded, with VMIN not above VMAX, a rail that lies within them stays within them. What the modes ask for beyond R32 is the
model's choice (log entry 101). -/
def Obligations.PackageSensors : Prop :=
  (∀ s : State, s.running = true →
    (∀ m : Fin 16, (tabGetD s.time.bridge m.val {}).retired = false →
      (fireInj s 10 m.val = none → exec (.bridgeFlitRetry m) s = .next (bridgeRetry s m.val)) ∧
      (∀ (mode : Nat) (u : State), fireInj s 10 m.val = some (mode, u) →
        exec (.bridgeFlitRetry m) s = .next (bridgeRetry u m.val))) ∧
    (∀ die : Fin 2, Gives (.avsNoAnswer die) s fun t => (railOf t die.val).missed = (railOf s die.val).missed + 1 ∧
      (2 ≤ (railOf s die.val).missed → (railOf t die.val).answering = false ∧ (srcOf t 10).level = true) ∧
      { t with time := s.time, fault := s.fault } = s) ∧
    (∀ die : Fin 2, Gives (.regulatorAnswersAgain die) s fun t => (railOf t die.val).missed = 0 ∧ (railOf t die.val).answering = true ∧
      { t with time := s.time, fault := s.fault } = s) ∧
    (∀ (die : Fin 2) (power : Nat), Gives (.vpolicyStep die power) s fun t => (railOf t die.val).power = power ∧
      { t with time := s.time } = s ∧ t = railStep (modRail (noteIdle s die.val) die.val fun r => { r with power := power }) die.val) ∧
    (∀ temps : List Nat, s.pack.logicSince + 1000 ≤ now s → Gives (.logicTempRead temps) s fun t => t.pack.logicTemps = temps ∧
      t.pack.logicSince = now s ∧ (srcOf t 11).level = (decide (105 ≤ dieTemp t 0) || decide (105 ≤ dieTemp t 1)) ∧
      { t with pack := s.pack, pfx := s.pfx, fault := s.fault } = s) ∧
    (∀ power logic hbm lp : Nat, s.pack.windowSince + 10000000 ≤ now s →
      exec (.sensorWindowEnd power logic hbm lp) s = .next { s with pack := { s.pack with
        power := power / 10 * 10, logic := logic / 2 * 2, hbm := hbm / 2 * 2, lp := lp / 2 * 2, part := 0x0820, windowSince := now s
        state := b2n s.boot.ready + flag 1 s.fault.fenced + flag 2 (srcOf s 11).level + flag 3 (srcOf s 24).level } }) ∧
    (∀ offset len : Nat, exec (.i3cRead offset len) s = .next { s with pack := { s.pack with i3c := slice (i3cBytes s) offset len } })) ∧
  (∀ (s u : State) (m : Nat) (x y : BridgeModule), x = tabGetD s.time.bridge m {} →
    y = (if x.fails = 0 ∨ x.since + 1048576 ≤ now s then { x with fails := 1, since := now s } else { x with fails := x.fails + 1 }) →
    u = { s with time := { s.time with bridge := tabSet s.time.bridge m y, bridgeRetries := s.time.bridgeRetries + 1 } } →
    (y.fails ≤ 64 → bridgeRetry s m = u) ∧ (64 < y.fails → bridgeRetry s m = bridgeRetire u [m])) ∧
  (∀ (s : State) (die : Nat) (r : Rail), r = railOf s die → r.answering = true → s.boot.lock = true →
    (105 ≤ dieTemp s die ∨ pPcap s < r.power → r.lastStep + 1000 ≤ now s → pVmin s < r.mv →
      (railOf (railStep s die) die).mv = max (pVmin s) (r.mv - 5)) ∧
    (dieTemp s die < 105 → r.power ≤ pPcap s → r.lastStep + 10000 ≤ now s → wantedMv s die < r.mv →
      (railOf (railStep s die) die).mv = max (wantedMv s die) (r.mv - 5)) ∧
    (dieTemp s die < 100 → r.power ≤ pPcap s → r.lastStep + 1000 ≤ now s → r.mv < wantedMv s die →
      (railOf (railStep s die) die).mv = min (wantedMv s die) (r.mv + 5))) ∧
  (∀ (s t : State) (die : Fin 2) (power : Nat), exec (.vpolicyStep die power) s = .next t →
    (railOf t die.val).mv ≤ (railOf s die.val).mv + 5 ∧ (railOf s die.val).mv ≤ (railOf t die.val).mv + 5 ∧
    railOf t (1 - die.val) = railOf s (1 - die.val) ∧
    (s.boot.lock = true → pVmin s ≤ pVmax s → pVmin s ≤ (railOf s die.val).mv → (railOf s die.val).mv ≤ pVmax s →
      pVmin s ≤ (railOf t die.val).mv ∧ (railOf t die.val).mv ≤ pVmax s))

/-- For a command whose region exists, is its tenant's (or is reached by the management context over the Ranup Link), and holds its
lines, whatever lines prove unreadable. A LEDGER_READ without a grant marks the unreadable ones as poisoned and completes with the
named lines; of one line of a region that is not PUBLISHED that is its header, its bytes and the region version, LOST_UPDATE where
the line was lost, POISON and zero bytes where it is poisoned, and LOST clears. A LEDGER_READ that asks for a grant is marked as
executed and waits at the end of the requests, which are then served, or completes with BUSY_RETRY where 64 requests wait on one of
its lines already. A LEDGER_WRITE that has not been committed before writes its lines in ascending order: a line that its source
holds M at that version is committed, which adds one to the versions of the line and of the region, and another is discarded with
LOST_UPDATE. A LEDGER_RELEASE ends the source's grants on its lines. A LEDGER_PUBLISH of as many bytes as the region holds writes, at
the region's version, the other copy and makes it current; at another version it is counted as a conflict and answers the version.
A command that was committed before is answered DUP; one that fails R408, or whose region is of the other kind, completes with the
status of its refusal. -/
def Obligations.LedgerCommands : Prop :=
  ∀ (s : State) (c : Command) (r first count : Nat), isLive s c = true →
    (∀ g : LedRegion, regionOf s r = some g → g.tenant = c.tenant ∨ (c.viaLink = true ∧ c.mgmt = true) →
      (∀ (grant : Nat) (bad : List Nat) (s0 : State), c.desc.body = .ledgerRead grant r count first → first + count ≤ g.size →
        grant = 0 ∨ g.published = false →
        s0 = poisonLines s r (bad.filter fun i => decide (first ≤ i) && decide (i < first + count)) →
        (grant = 0 → exec (.ledgerRead c bad) s = .next (completeRead s0 c r first count false)) ∧
        (grant ≠ 0 → (∀ k < count, waitersOn s r (first + k) < 64) →
          exec (.ledgerRead c bad) s = .next (serveLedger { modLive s0 (cmdKey c) (fun l => { l with executed := true }) with
            ledger := { s0.ledger with waits := s0.ledger.waits ++ [⟨c, r, first, count, grant⟩] } })) ∧
        (grant ≠ 0 → (∃ k < count, 64 ≤ waitersOn s r (first + k)) →
          exec (.ledgerRead c bad) s = .next (complete s c { status := .busyRetry }))) ∧
      (∀ l : LedLine, l = lineOf g first → g.published = false → completeRead s c r first 1 false =
        complete (modLine (touchLine s r first) r first fun l => { l with lost := false }) c
          { status := if l.poison then .poison else if l.lost then .lostUpdate else .ok
            data := lineHeader l.version l.lost (l.holder.any fun h => h.1 != c.src) 0 l.poison false ++
              (if l.poison then le 64 0 else lineBytes l)
            value := g.version }) ∧
      (∀ keep : Nat, c.desc.body = .ledgerWrite keep r count first → first + count ≤ g.size → g.published = false →
        ((∀ k < count, (lineOf g (first + k)).lastCommit ≠ some (cmdKey c)) → exec (.ledgerWrite c) s =
          .next (serveLedger (complete (writeLines s c r keep first count).1 c
            { status := if (writeLines s c r keep first count).2.2 then .lostUpdate else .ok
              data := (writeLines s c r keep first count).2.1 }))) ∧
        ((∃ k < count, (lineOf g (first + k)).lastCommit = some (cmdKey c)) →
          exec (.ledgerWrite c) s = .next (ledgerDup s c))) ∧
      (∀ (i keep version : Nat) (bytes : List Byte) (w : State × List Byte × Bool), w = writeLine s c r i keep version bytes →
        ((lineOf g i).holder = some (c.src, version) → w.2.2 = false ∧ ∃ g' : LedRegion, regionOf w.1 r = some g' ∧
          g'.version = g.version + 1 ∧ (lineOf g' i).content = bytes ∧ (lineOf g' i).version = (lineOf g i).version + 1 ∧
          (lineOf g' i).poison = false) ∧
        ((lineOf g i).holder ≠ some (c.src, version) → w.2.2 = true ∧ w.1 = s)) ∧
      (c.desc.body = .ledgerRelease r count first → first + count ≤ g.size → g.published = false →
        exec (.ledgerRelease c) s = .next (serveLedger (complete
          (foldState (fun s k => dropGrant s r (first + k) c.src) s (List.range count)) c { status := .ok }))) ∧
      (∀ expect : Nat, c.desc.body = .ledgerPublish r expect → g.published = true → c.payload.length = g.size * 64 →
        (g.lastPub ≠ some (cmdKey c) → expect = g.version → exec (.ledgerPublish c) s = .next (complete (modRegion s r fun g =>
          { g with copies := tabSet g.copies (1 - g.current) c.payload, current := 1 - g.current, version := g.version + 1,
                   pubPoison := [], lastPub := some (cmdKey c) }) c { status := .ok, value := g.version + 1 })) ∧
        (g.lastPub ≠ some (cmdKey c) → expect ≠ g.version → exec (.ledgerPublish c) s =
          .next (complete { s with ledger := { s.ledger with conflicts := s.ledger.conflicts + 1 } } c
            { status := .conflict, value := g.version })) ∧
        (g.lastPub = some (cmdKey c) → exec (.ledgerPublish c) s = .next (ledgerDup s c)))) ∧
    (∀ (st : Status) (bad : List Nat),
      (∀ grant : Nat, c.desc.body = .ledgerRead grant r count first →
        ledgerRefusal s c r first count (fun g => grant == 0 || !g.published) = some st →
        exec (.ledgerRead c bad) s = .next (complete s c { status := st })) ∧
      (∀ keep : Nat, c.desc.body = .ledgerWrite keep r count first →
        ledgerRefusal s c r first count (fun g => !g.published) = some st →
        exec (.ledgerWrite c) s = .next (complete s c { status := st })) ∧
      (c.desc.body = .ledgerRelease r count first → ledgerRefusal s c r first count (fun g => !g.published) = some st →
        exec (.ledgerRelease c) s = .next (complete s c { status := st })) ∧
      (∀ expect : Nat, c.desc.body = .ledgerPublish r expect →
        ledgerRefusal s c r 0 0 (fun g => g.published && c.payload.length == g.size * 64) = some st →
        exec (.ledgerPublish c) s = .next (complete s c { status := st })))

/-- An answer that no outstanding recall of its source matches is counted as repeated. In a node that is not fenced a matching
answer ends its recall, and the 64 bytes of an M holder at the recall's version are committed first; a recall unanswered for
2,000 ticks, and LDG_DECLARE_DEAD of an endpoint number, declare the holder dead. While the node is fenced none of these changes a
grant. LREG_CREATE of an absent region of 1 to 4,096 lines for which a place is free creates it with no content;
LREG_DELETE takes the region away. -/
def Obligations.LedgerRecalls : Prop :=
  ∀ s : State, s.running = true →
    (∀ (src : Endpoint) (id : Nat) (data : List Byte), (∀ x ∈ s.ledger.recalls, x.reqId = id → x.holder ≠ src) →
      exec (.recallAnswer src id data) s = .next { s with ledger := { s.ledger with repeats := s.ledger.repeats + 1 } }) ∧
    (∀ (x : Recall) (data : List Byte), s.ledger.recalls.find? (fun y => y.reqId == x.reqId && y.holder == x.holder) = some x →
      (s.fault.fenced = true → exec (.recallAnswer x.holder x.reqId data) s = .next s) ∧
      (s.fault.fenced = false → exec (.recallAnswer x.holder x.reqId data) s = .next (serveLedger (endRecall
        (if (regionOf s x.region).any (fun g => (lineOf g x.line).holder == some (x.holder, x.version)) && data.length == 64 then
          commitLine s x.region x.line data none else s) x)))) ∧
    (∀ x : Recall, s.ledger.recalls.find? (fun y => y.reqId == x.reqId) = some x → x.since + 2000 ≤ now s →
      exec (.recallTimeout x.reqId) s = .next (if s.fault.fenced then s else holderDead s x.holder)) ∧
    (∀ e : Endpoint, Reaches s 0x3011C → endpointOf (fld s 0x30118 15 0) = some e →
      exec .ldgDeclareDead s = .next (if s.fault.fenced then s else holderDead s e)) ∧
    (∀ r n base : Nat, Reaches s 0x30128 → r = fld s 0x30120 15 0 → n = fld s 0x30124 12 0 → regionOf s r = none → 0 < n →
      n ≤ 4096 → base = fitLines ((1 + fld s 0x30124 13 13) * n) (usedLines s) 0 →
      base + (1 + fld s 0x30124 13 13) * n ≤ fld s 0x30100 24 0 → Gives .lregCreate s fun t =>
        regionOf t r = some { published := fld s 0x30124 13 13 == 1, tenant := fld s 0x30124 25 14, size := n, base := base } ∧
        (∀ k : Nat, k ≠ r → regionOf t k = regionOf s k) ∧ { t with ledger := s.ledger } = s) ∧
    (∀ r : Nat, Reaches s 0x30128 → r = fld s 0x30120 15 0 → Gives .lregDelete s fun t =>
      regionOf t r = none ∧ (∀ k : Nat, k ≠ r → regionOf t k = regionOf s k))

/-- No command of the Ledger, no answer to a recall, no timeout of one, no declaration of a dead holder and no deletion of a region
changes a register, the time base, the memory or the sequences of the node, the prefix units, the keys and measurements, the
firmware store, the package or the state of the link; none of them ends a fence. -/
def Obligations.LedgerFrame : Prop :=
  ∀ (s t : State) (i : Instr),
    ((∃ c bad, i = .ledgerRead c bad) ∨ (∃ c, i = .ledgerWrite c) ∨ (∃ c, i = .ledgerRelease c) ∨ (∃ c, i = .ledgerPublish c) ∨
      (∃ src id data, i = .recallAnswer src id data) ∨ (∃ id, i = .recallTimeout id) ∨ i = .ldgDeclareDead ∨ i = .lregDelete) →
    exec i s = .next t →
    t.regs = s.regs ∧ t.time = s.time ∧ t.mem = s.mem ∧ t.pfx = s.pfx ∧ t.trust = s.trust ∧ t.boot = s.boot ∧ t.pack = s.pack ∧
    t.snap = s.snap ∧ t.running = s.running ∧ t.link.state = s.link.state ∧ (s.fault.fenced = true → t.fault.fenced = true)

/-- A write of QBIND to a queue with no waiting and no blocking command takes effect at once, with bits 31 and 30 not stored, and
sets its completion count to 0; on any other queue it waits. A COMMAND message is taken out of the inbox (a v1 APPEND takes its
sequence's format): a command under a retired key, and one that meets a fence, are turned away; a copy of one in progress is
dropped, and of one that the log holds as done is answered DUP; one that a check stops, or that its queue does not take, is refused;
a fast read is admitted at once; any other waits at the end of its command queue, or is answered BUSY_RETRY where 256 wait there
(REFUSED_FIT where its descriptor has a bad field). A
QWAIT at the head of its queue, with every earlier command of the queue released, completes OK where its count has been reached,
else blocks its queue, unless a check stops it. ADMIT releases the head of the queue that the round robin names, which leaves its
queue; each release is counted, and a sampled one gives its delay. An outcome kept for its time leaves the log. HIST_CLEAR clears
the histograms. -/
def Obligations.QueuesAndAdmission : Prop :=
  ∀ s : State, s.running = true →
    (∀ (q : Fin 1024) (w : Word32), Reaches s (0x21000 + 16 * q.val) →
      ((queueOf s q.val).waiting = [] ∧ (queueOf s q.val).blocked = none → Gives (.qbindWrite q w) s fun t =>
        (queueOf t q.val).bind = w &&& 0x3FFFFFFF ∧ (queueOf t q.val).count = 0 ∧ (queueOf t q.val).bindNext = none ∧
        (∀ k : Nat, k ≠ q.val → queueOf t k = queueOf s k) ∧ { t with queues := s.queues } = s) ∧
      (¬((queueOf s q.val).waiting = [] ∧ (queueOf s q.val).blocked = none) → Gives (.qbindWrite q w) s fun t =>
        queueOf t q.val = { queueOf s q.val with bindNext := some (w &&& 0x3FFFFFFF) } ∧
        (∀ k : Nat, k ≠ q.val → queueOf t k = queueOf s k) ∧ { t with queues := s.queues } = s)) ∧
    (∀ (m : Inbound) (c : Command) (u : State), msgKind m.bytes = 1 → c = withFormat s (commandOf (pMixed s) m) →
      u = takeDelivery s m → exec (.commandArrival m) s = .next (arrive u c) ∧
      (genRetired u (replyKey c) c.keygen = true → arrive u c = answerRetired u c) ∧
      (genRetired u (replyKey c) c.keygen = false →
        (u.fault.fenced = true → arrive u c = turnAway .fenced u c) ∧
        (u.fault.fenced = false →
          (∀ o : Outcome, loggedOutcome u (cmdKey c) = some o →
            (o.status = none → arrive u c = u) ∧ (o.status ≠ none → arrive u c = answerDup u c)) ∧
          (loggedOutcome u (cmdKey c) = none →
            (∀ r : Reply, judge u c = some r → arrive u c = refuse u c r) ∧
            (judge u c = none → queueTakes u c = false → arrive u c = refuse u c { status := .refusedFit }) ∧
            (judge u c = none → queueTakes u c = true →
              (isFastRead u c = true → arrive u c = admitOne u c) ∧
              (isFastRead u c = false → (queueOf u c.desc.queue).waiting.length < 256 → arrive u c =
                drainQueues (modQueue u c.desc.queue fun q => { q with waiting := q.waiting ++ [c] })) ∧
              (isFastRead u c = false → 256 ≤ (queueOf u c.desc.queue).waiting.length → descFits u c = true →
                arrive u c = answer u c { status := .busyRetry }) ∧
              (isFastRead u c = false → 256 ≤ (queueOf u c.desc.queue).waiting.length → descFits u c = false →
                arrive u c = refuse u c { status := .refusedFit })))))) ∧
    (∀ (c : Command) (w count timeout : Nat) (u v : State), c.desc.body = .qwait w count timeout →
      (queueOf s c.desc.queue).waiting.head? = some c → (queueOf s c.desc.queue).blocked = none → waitPlaces s c.desc.queue = [] →
      s.fault.fenced = false → u = modQueue s c.desc.queue (fun q => { q with waiting := q.waiting.tail }) →
      loggedOutcome u (cmdKey c) = none → openOutcome u (cmdKey c) = some v →
      (∀ r : Reply, judgeEpoch v c.desc = some r →
        exec (.qwait c) s = .next (drainQueues (applyBind (refuse v c r) c.desc.queue))) ∧
      (judgeEpoch v c.desc = none → descFits v c = false ∨ qwaitFits v c w = false →
        exec (.qwait c) s = .next (drainQueues (applyBind (refuse v c { status := .refusedFit }) c.desc.queue))) ∧
      (judgeEpoch v c.desc = none → descFits v c = true → qwaitFits v c w = true →
        (count ≤ (queueOf v w).count →
          exec (.qwait c) s = .next (drainQueues (applyBind (complete v c { status := .ok }) c.desc.queue))) ∧
        ((queueOf v w).count < count → exec (.qwait c) s = .next (modQueue v c.desc.queue fun q =>
          { q with blocked := some ⟨c, w, count, timeout, now s⟩ })))) ∧
    (∀ (die : Fin 2) (u : State) (q : Nat) (r : Drr) (i : AdmItem) (rest : List AdmItem),
      u = drainQueues s → planFull u die.val = false →
      drrNext (admAsk u die.val (admOf u die.val)) (admDrr (admOf u die.val)) = (some q, r) →
      (tabGetD (admOf u die.val).queues q {}).items = i :: rest → ∀ v : State, v = releaseHead u die.val q r i rest →
      exec (.admission die) s =
        .next (noteFull (drainQueues (admitCommand (if i.cmd.sys then v else bump v i.cmd.tenant 0 1) i.cmd)) die.val) ∧
      (tabGetD (admOf v die.val).queues q {}).items = rest ∧ (admOf v die.val).admitted = (admOf u die.val).admitted + 1 ∧
      (tabGetD (admOf v die.val).queues q {}).sample =
        (if i.sampled then now u - i.arrived else (tabGetD (admOf u die.val).queues q {}).sample)) ∧
    (∀ (k : CmdKey) (o : Outcome), findOutcome s k = some o → o.status ≠ none → o.since + o.retain ≤ now s →
      exec (.outcomeExpiry k) s = .next { s with outcomes := s.outcomes.filter fun o => o.key != k }) ∧
    (Reaches s 0x40068 → exec .histClear s = .next { s with sched := { s.sched with hist := [] } })

/-- PEND_ARM while GATE_RT is 1 arms a list that is not armed; one armed at a counter value that has passed takes over at once,
and an armed list whose counter value is reached takes over then: the pending list becomes the active list, starts at its entry 0
now, and is no longer armed. PEND_DISARM disarms. At the end of the running entry of an enabled unit the next entry follows, after
the last one entry 0, each starting where the one before it ended. No other gate is touched. -/
def Obligations.GateLists : Prop :=
  ∀ (s : State) (u : Fin 14), s.running = true →
    let only := fun (g : GateUnit) => Host.Outcome.next (φ := Fault) (ρ := Refusal) (modGate s u.val fun _ => g)
    let g := gateOf s u.val
    let list := (List.range (max 1 (fld s (gateBase u.val + 8) 14 8))).map fun i => tabGetD g.pend i {}
    let taken : GateUnit := { g with list := list, entry := 0, entryEnd := now s + (list.getD 0 {}).ticks, pend := [], armed := false }
    (Reaches s (gateBase u.val + 8) → pGateRt s = true → g.armed = false →
      (pendAtEpoch s u.val = true ∨ now s < pendAt s u.val → exec (.pendArm u) s = only { g with armed := true }) ∧
      (pendAtEpoch s u.val = false → pendAt s u.val ≤ now s → exec (.pendArm u) s = only taken)) ∧
    (Reaches s (gateBase u.val + 8) → exec (.pendDisarm u) s = only { g with armed := false }) ∧
    (g.armed = true → pendAtEpoch s u.val = false → pendAt s u.val ≤ now s → exec (.gateTakeover u) s = only taken) ∧
    (pGateEn s u.val = true → g.list ≠ [] → g.entryEnd ≤ now s → takeoverDue s u.val = false → exec (.gateEntryEnd u) s = only
      (let e := if g.entry + 1 < g.list.length then g.entry + 1 else 0
       { g with entry := e, entryEnd := g.entryEnd + (g.list.getD e {}).ticks }))

/-- Once every earlier prefix command has run and no cascade search waits, whatever entries fail their parity; the entries found
STALE before are deleted first. A command on a SYS association is refused. A search completes OK with the results of its keys in
their order: a key without a match is a MISS; with matches the first entry decides: PARITY, which invalidates it, a HIT with the position
of its record and the handle of its sequence, or STALE where the sequence is absent or being evicted, with MULTI where more entries
match; the keys after one that stops a STOP_AT_MISS command are SKIPPED. A cascade search is refused where cascade mode is off or
CASC_ERR stands, and where its CSEQ does not follow the last one, which sets CASC_ERR; else its keys run as their pulses come. An
insert that R382 does not refuse enters its keys in order: a key takes a record of the sequence and position, a new one in the place
of the old for a key that the index holds, else one under the lowest free entry of the key's half. A delete takes out the entry and the
record of each key that the index holds. An insert or a delete with a key whose entry fails its parity completes INTERNAL. A BY_SEQ
delete of a sequence of its own tenant leaves the sequence's entries to the sweep. -/
def Obligations.PrefixCommands : Prop :=
  (∀ (s u : State) (c : Command) (bad : List Nat), prefixTurn s c = true → s.pfx.cascade = none → u = dropStale s →
    (∀ (stop : Bool) (count mc ms cs : Nat), c.desc.body = .prefixSearch stop false count mc ms cs → c.sys = false →
      exec (.prefixSearch c bad) s = .next (complete
        (searchKeys c.tenant mc ms stop bad (keyBlocks c.payload 16 count) u false).1 c
        { status := .ok, data := (searchKeys c.tenant mc ms stop bad (keyBlocks c.payload 16 count) u false).2.flatten })) ∧
    (∀ (stop : Bool) (count mc ms cs : Nat), c.desc.body = .prefixSearch stop true count mc ms cs → c.sys = false →
      (fld s 0x50000 0 0 = 0 ∨ u.pfx.cascErr = true →
        exec (.prefixSearch c bad) s = .next (complete u c { status := .refusedFit })) ∧
      (fld s 0x50000 0 0 = 1 → u.pfx.cascErr = false → u.pfx.cascStart = false → cs ≠ (u.pfx.lastCseq + 1) % 65536 →
        exec (.prefixSearch c bad) s = .next (complete (cascadeFail u) c { status := .refusedFit })) ∧
      (fld s 0x50000 0 0 = 1 → u.pfx.cascErr = false → u.pfx.cascStart = true ∨ cs = (u.pfx.lastCseq + 1) % 65536 →
        exec (.prefixSearch c bad) s = .next (cascadeRun (count + 1) { u with pfx := { u.pfx with
          lastCseq := cs, cascStart := false, cascade := some { cmd := c, left := keyBlocks c.payload 16 count, since := now s, parityBad := bad } } }))) ∧
    (∀ count : Nat, c.desc.body = .prefixInsert count → c.sys = false →
      (∀ st : Status, insertRefusal u c count = some st → exec (.prefixInsert c bad) s = .next (complete u c { status := st })) ∧
      (insertRefusal u c count = none → exec (.prefixInsert c bad) s = .next (complete (insertKeys c bad count u).1 c
        { status := if (insertKeys c bad count u).2 then .internal else .ok }))) ∧
    (∀ count : Nat, c.desc.body = .prefixDelete false count → c.sys = false →
      exec (.prefixDelete c bad) s = .next (complete (deleteKeys c.tenant bad (keyBlocks c.payload 16 count) u).1 c
        { status := if (deleteKeys c.tenant bad (keyBlocks c.payload 16 count) u).2 then .internal else .ok })) ∧
    (∀ k : Nat, c.desc.body = .prefixDelete true k → c.sys = false →
      (c.desc.seq.tenant = c.tenant → Gives (.prefixDelete c bad) s fun t =>
        t.pfx = { u.pfx with bySeq := u.pfx.bySeq ++ [(c.desc.seq.id, cmdKey c)], stale := t.pfx.stale } ∧
        (∀ (n : Nat) (e : PrefEntry), (n, e) ∈ u.pfx.entries →
          (tabGetD u.pfx.recs e.record ⟨⟨0, 0⟩, 0⟩).seq = c.desc.seq.id → n ∈ t.pfx.stale) ∧
        { t with pfx := u.pfx, exec := u.exec } = u) ∧
      (c.desc.seq.tenant ≠ c.tenant → exec (.prefixDelete c bad) s = .next (complete u c { status := .refusedFit }))) ∧
    (c.sys = true →
      (∀ (stop casc : Bool) (count mc ms cs : Nat), c.desc.body = .prefixSearch stop casc count mc ms cs →
        exec (.prefixSearch c bad) s = .next (complete u c { status := .refusedFit })) ∧
      (∀ count : Nat, c.desc.body = .prefixInsert count →
        exec (.prefixInsert c bad) s = .next (complete u c { status := .refusedFit })) ∧
      (∀ (bySeq : Bool) (count : Nat), c.desc.body = .prefixDelete bySeq count →
        exec (.prefixDelete c bad) s = .next (complete u c { status := .refusedFit })))) ∧
  (∀ (s v : State) (tenant chain scope mc ms : Nat) (up : Bool) (bad : List Nat),
    v = { s with pfx := { s.pfx with searches := s.pfx.searches + 1 } } →
    (prefixMatches s.pfx tenant chain scope mc ms = [] →
      searchKey s tenant chain scope mc ms up bad = (v, searchResult 0 false up 0 0, true, false)) ∧
    (∀ (n : Nat) (more : List Nat) (inj : Bool) (v1 : State), prefixMatches s.pfx tenant chain scope mc ms = n :: more →
      (checkFails v 11 (n / 524288) (bad.contains n) = (true, inj, v1) → searchKey s tenant chain scope mc ms up bad =
        (prefixParity v1 n inj, searchResult 4 (!more.isEmpty) up 0 0, true, false)) ∧
      (∀ (e : PrefEntry) (r : PrefRec), checkFails v 11 (n / 524288) (bad.contains n) = (false, inj, v1) →
        tabGet v1.pfx.entries n = some e → tabGet v1.pfx.recs e.record = some r →
        (∀ x : Seq, seqOf v1 r.seq = some x → x.state ≠ .evicting → searchKey s tenant chain scope mc ms up bad =
          ({ v1 with pfx := { v1.pfx with hits := v1.pfx.hits + 1 } },
            searchResult 1 (!more.isEmpty) up r.pos x.handle.num, false, true)) ∧
        (seqOf v1 r.seq = none ∨ (∃ x : Seq, seqOf v1 r.seq = some x ∧ x.state = .evicting) →
          searchKey s tenant chain scope mc ms up bad =
            ({ v1 with pfx := { v1.pfx with staleCount := v1.pfx.staleCount + 1, stale := v1.pfx.stale ++ [n] } },
              searchResult 2 (!more.isEmpty) up 0 0, true, false)))) ∧
    (∀ (stop : Bool) (ks : List (Nat × Nat)),
      searchKeys tenant mc ms stop bad ks s true = (s, ks.map fun _ => searchResult 3 false false 0 0))) ∧
  (∀ (s v : State) (q : SeqId) (chain scope pos r : Nat), v = { s with pfx := { s.pfx with updates := s.pfx.updates + 1 } } →
    (∀ n : Nat, prefixExact s.pfx q.tenant chain scope = none →
      lowestFree s.pfx.entries (halfBase chain) (halfBase chain + 524288) = some n → lowestFree s.pfx.recs 0 1048576 = some r →
      prefixEnter s q chain scope pos = { v with pfx := { v.pfx with recs := tabSet s.pfx.recs r ⟨q, pos⟩,
                                                                     entries := tabSet s.pfx.entries n ⟨q.tenant, scope, chain, r⟩ } }) ∧
    (∀ (n : Nat) (e : PrefEntry), prefixExact s.pfx q.tenant chain scope = some n → tabGet s.pfx.entries n = some e →
      lowestFree (tabDel s.pfx.recs e.record) 0 1048576 = some r →
      prefixEnter s q chain scope pos = { v with pfx := { v.pfx with recs := tabSet (tabDel s.pfx.recs e.record) r ⟨q, pos⟩,
                                                                     entries := tabSet s.pfx.entries n { e with record := r } } }) ∧
    (∀ (tenant n : Nat) (inj : Bool) (v1 : State) (bad : List Nat), prefixExact s.pfx tenant chain scope = some n →
      (checkFails v 11 (n / 524288) (bad.contains n) = (false, inj, v1) →
        deleteKeys tenant bad [(chain, scope)] s = (prefixRemove v1 n, false)) ∧
      (checkFails v 11 (n / 524288) (bad.contains n) = (true, inj, v1) →
        deleteKeys tenant bad [(chain, scope)] s = (prefixParity v1 n inj, true))) ∧
    (∀ (tenant : Nat) (bad : List Nat), prefixExact s.pfx tenant chain scope = none →
      deleteKeys tenant bad [(chain, scope)] s = (v, false)))

/-- After the sweep no entry is left whose sequence was absent or being evicted, no entry is new, and no BY_SEQ delete waits. A half
whose wait of 100,000 ticks is over rises by one step, and its wait ends. In cascade mode above position 0 a pulse of
MATCH_IN is noted as a miss to 3 ticks and as a hit from 5, and the waiting search goes on; one of 4 ticks sets CASC_ERR. A search
that waited more than 10,000 ticks for its pulse is refused, with CASC_ERR set. CASC_RESYNC clears it and lets the next search start
the count. -/
def Obligations.PrefixUpkeep : Prop :=
  ∀ s : State, s.running = true →
    (Gives .prefixSweep s fun t => t.pfx.bySeq = [] ∧
      (∀ x ∈ t.pfx.entries, x ∈ s.pfx.entries ∧
        ∃ q : Seq, seqOf s (tabGetD s.pfx.recs x.2.record ⟨⟨0, 0⟩, 0⟩).seq = some q ∧ q.state ≠ .evicting)) ∧
    (∀ t : Nat, t + 100000 ≤ now s →
      (s.pfx.coolW = some t → exec (.prefixRateRaise 0) s =
        .next { s with pfx := { s.pfx with rateW := s.pfx.rateW - 1, coolW := none } }) ∧
      (s.pfx.coolE = some t → exec (.prefixRateRaise 1) s =
        .next { s with pfx := { s.pfx with rateE := s.pfx.rateE - 1, coolE := none } })) ∧
    (∀ ticks : Nat, fld s 0x50000 0 0 = 1 → fld s 0x50000 2 1 ≠ 0 →
      (ticks ≠ 4 → exec (.matchInPulse ticks) s = .next (cascadeRun 257
        { s with pfx := { s.pfx with matchIn := s.pfx.matchIn ++ [decide (5 ≤ ticks)] } })) ∧
      exec (.matchInPulse 4) s = .next { s with pfx := { s.pfx with cascErr := true } }) ∧
    (∀ k : Cascade, s.pfx.cascade = some k → k.since + 10000 < now s → exec .cascadeTimeout s =
      .next (complete (cascadeFail { s with pfx := { s.pfx with cascade := none } }) k.cmd { status := .refusedFit })) ∧
    (Reaches s 0x50028 → exec .cascResync s = .next { s with pfx := { s.pfx with cascErr := false, cascStart := true } })

/-- An admitted APPEND whose turn has come and that has not started: what refuses it is its answer, and one whose bound has passed
is refused with BUSY_RETRY. On a sequence that is there, or that it creates, one that nothing refuses waits for a tail that is IN_FLUX,
stages a tail that lies in a lower tier, and else obtains its frames, all of them or none (NOPAGE), after the words of the shared tails
that it copies have passed their checks (POISON where they do not); it has then started. One that has started completes by its
commits: no frame of it is IN_FLUX, and the END of each of its tensors is the position after the last one written. One that has not
started 500 ticks after its admission is refused with BUSY_RETRY. FORK of an active parent that nothing refuses creates the child with
the fork point as every END and shares the parent's pages below it. -/
def Obligations.AppendAndFork : Prop :=
  ∀ (s : State) (c : Command), Turn s c →
    (∀ (tb : TensorBlock) (create : Bool) (ntok fmt pos : Nat) (l : Live) (errs : List (List WordErr)) (q : SeqId) (run : Out),
      c.desc.body = .append tb create ntok fmt pos → liveOf s (cmdKey c) = some l → l.cmd = c → l.begun = false →
      l.executed = false → appendWaits s q = false → q = c.desc.seq.id → run = exec (.appendStart (cmdKey c) errs) s →
      (∀ (x : Seq) (r : Reply), seqOf s q = some x → x.state ≠ .evicting → appendRefusal s c tb ntok pos x = some r →
        run = .next (complete s c r)) ∧
      (∀ x : Seq, seqOf s q = some x → x.state = .active → appendRefusal s c tb ntok pos x = none → boundPassed s c = true →
        run = .next (complete s c { status := .busyRetry })) ∧
      (seqOf s q = none → create = true → c.desc.v1 = false →
        (createPlace s c = none → run = .next (complete s c { status := .notOwner, owner := ownerHint s c.desc })) ∧
        (∀ (a : List Nat × Nat × Nat) (x : Seq), createPlace s c = some a → x = placeSeq (blockSeq c.desc.seq c.payload) a →
          (∀ r : Reply, appendRefusal s c tb ntok pos x = some r → run = .next (complete s c r)) ∧
          (∀ st : Status, appendRefusal s c tb ntok pos x = none → createSeq s q x = .error st →
            run = .next (complete s c { status := st })))) ∧
      (∀ (u : State) (x : Seq) (parts : List AppendPart), boundPassed s c = false →
        (seqOf s q = some x ∧ x.state = .active ∧ appendRefusal s c tb ntok pos x = none ∧ u = s) ∨
          (seqOf s q = none ∧ create = true ∧ c.desc.v1 = false ∧ ∃ a : List Nat × Nat × Nat, createPlace s c = some a ∧
            appendRefusal s c tb ntok pos (placeSeq (blockSeq c.desc.seq c.payload) a) = none ∧
            createSeq s q (placeSeq (blockSeq c.desc.seq c.payload) a) = .ok u ∧ seqOf u q = some x) →
        appendParts x tb ntok (if create then c.payload.drop 640 else c.payload) = some parts →
        ((∃ e ∈ tailFrames u x parts pos, (frameOf u e.2.2).inFlux = true) → run = .next s) ∧
        ((∀ e ∈ tailFrames u x parts pos, (frameOf u e.2.2).inFlux = false) → ∀ lower cow : List (Nat × Nat × Nat),
          lower = ((tailFrames u x parts pos).filter fun e => decide (2 ≤ (frameOf u e.2.2).tier) && !(frameOf u e.2.2).staged) →
          cow = ((tailFrames u x parts pos).filter fun e => decide (1 < (frameOf u e.2.2).refcount)) →
          (lower ≠ [] → run = .next (complete (foldState (fun s e => requestStage s e.2.2 .write (some q) e.1 e.2.1) s lower) c
            { status := .busyRetry })) ∧
          (lower = [] → appendAll q pos ntok parts u = none → run = .next (complete s c { status := .noPage })) ∧
          (lower = [] → (appendAll q pos ntok parts u).isSome = true → ∀ (bad : Bool) (v : State),
            (bad, v) = (if cow = [] then (false, u) else checkAll u (cow.map fun e => e.2.2) errs) →
            (bad = true → run = .next (complete v c { status := .poison })) ∧
            (bad = false → ∀ (ls : List Nat) (w : State), appendAll q pos ntok parts v = some (ls, w) →
              (∀ n ∈ (cow.map fun e => e.2.2) ++ ls, locHeld u (homeOf w n) = false) →
              run = .next (modLive w (cmdKey c) fun l => { l with begun := true, held := false, append := { frames := ls } })))))) ∧
    (∀ (tb : TensorBlock) (create : Bool) (ntok fmt pos : Nat) (l : Live), c.desc.body = .append tb create ntok fmt pos →
      liveOf s (cmdKey c) = some l → l.cmd = c →
      (∀ x : Seq, seqOf s c.desc.seq.id = some x → l.begun = true → Gives (.append c) s fun t =>
        (∀ n ∈ l.append.frames, (frameOf t n).inFlux = false) ∧ ∃ y : Seq, seqOf t c.desc.seq.id = some y ∧
        y = { x with tensors := y.tensors } ∧
        ∀ p ∈ tbPairs tb, ∀ n : Nat, tensorIdx x p.1 p.2 = some n → (tensorOf y n).endPos = pos + ntok) ∧
      (l.begun = false → l.held = false → l.executed = false → c.chainedFrom = none → l.since + 500 ≤ now s →
        exec (.appendBoundExpiry (cmdKey c)) s = .next (complete s c { status := .busyRetry }))) ∧
    (∀ (parent : SeqHandle) (pos : Nat) (x : Seq) (ps : List (Nat × Nat × PageHandle)), c.desc.body = .fork parent pos →
      seqOf s parent.id = some x → x.state ≠ .evicting → ps = forkPages s x (forkPoint x pos) →
      (∀ r : Reply, forkRefusal s c parent pos x = some r → exec (.fork c) s = .next (complete s c r)) ∧
      (forkRefusal s c parent pos x = none → x.state = .active →
        (∀ st : Status, createSeq s c.desc.seq.id (forkChild x c.desc.seq (forkPoint x pos)) = .error st →
          exec (.fork c) s = .next (complete s c { status := st })) ∧
        (∀ u : State, createSeq s c.desc.seq.id (forkChild x c.desc.seq (forkPoint x pos)) = .ok u →
          (blocksFree u (childLeaves x ps) = true →
            exec (.fork c) s = .next (finish (sharePages u c.desc.seq.id ps) c c.desc.seq.repl { status := .ok })) ∧
          (blocksFree u (childLeaves x ps) = false → exec (.fork c) s = .next (complete s c { status := .noPage })))))

/-- A TRIM of an active sequence that nothing refuses waits for a tail that is IN_FLUX, stages one that lies in a lower tier, and
else does every part of its work and passes its chain; without a frame for the copy of a shared tail it is NOPAGE, and a word of that
tail that fails its check ends it with POISON; what refuses it is its answer. EVICT leaves no sequence of its handle, whatever
state it was in, and completes at once for an absent one. HINT acts on an active sequence by its kind and completes OK in every
case: 3 stages the frames of the range, 1 and 2 add an entry and keep at most 16, 0 removes the entries that it meets.
SKIM_REFRESH clears SKIM_OK of every frame of its range, and the refresh that it starts writes every frame as soon as it may. -/
def Obligations.SequenceCommands : Prop :=
  ∀ (s : State) (c : Command), Turn s c →
    (∀ (tb : TensorBlock) (start limit : Nat) (errs : List (List WordErr)) (x : Seq), c.desc.body = .trim tb start limit →
      seqOf s c.desc.seq.id = some x → x.state ≠ .evicting →
      (∀ r : Reply, trimRefusal s c tb start limit x = some r → exec (.trim c errs) s = .next (complete s c r)) ∧
      (trimRefusal s c tb start limit x = none → x.state = .active → ∀ (ps : List TrimPart) (cuts lower : List (Nat × Nat × Nat)),
        (localTensors x tb).mapM (fun t => trimPart s x t start limit) = some ps →
        cuts = ps.filterMap (fun p => p.cut.map fun e => (p.tensor, e.1, e.2.1.lpn)) →
        lower = (cuts.filter fun e => decide (2 ≤ (frameOf s e.2.2).tier) && !(frameOf s e.2.2).staged) →
        ((∃ e ∈ cuts, (frameOf s e.2.2).inFlux = true) → exec (.trim c errs) s = .next s) ∧
        ((∀ e ∈ cuts, (frameOf s e.2.2).inFlux = false) →
          (lower ≠ [] → exec (.trim c errs) s = .next (complete (foldState (fun s e =>
            requestStage s e.2.2 .write (some c.desc.seq.id) e.1 e.2.1) s lower) c { status := .busyRetry })) ∧
          (lower = [] → (∀ e ∈ cuts, locWaits s (homeOf s e.2.2) = false ∧ locHeld s (homeOf s e.2.2) = false) →
            (trimAll c.desc.seq.id ps s = none → exec (.trim c errs) s = .next (complete s c { status := .noPage })) ∧
            ((trimAll c.desc.seq.id ps s).isSome = true → ∀ (bad : Bool) (v : State),
              checkAll s ((cuts.filter fun e => decide (1 < (frameOf s e.2.2).refcount)).map fun e => e.2.2) errs = (bad, v) →
              (bad = true → exec (.trim c errs) s = .next (complete v c { status := .poison })) ∧
              (∀ u : State, bad = false → trimAll c.desc.seq.id ps v = some u →
                exec (.trim c errs) s = .next (finish u c x.handle.repl { status := .ok }))))))) ∧
    (c.desc.body = .evict →
      (seqOf s c.desc.seq.id = none → exec (.evict c) s =
        .next (complete s c { status := if c.desc.v1 then .noState else .ok })) ∧
      Gives (.evict c) s fun t => seqOf t c.desc.seq.id = none ∧
        ∀ q : SeqId, q ≠ c.desc.seq.id → (seqOf t q).isSome = (seqOf s q).isSome) ∧
    (∀ (tb : TensorBlock) (kind start limit : Nat), c.desc.body = .hint tb kind start limit →
      (seqOf s c.desc.seq.id = none → exec (.hint c) s = .next (complete s c { status := .ok })) ∧
      (∀ x : Seq, seqOf s c.desc.seq.id = some x →
        let h : HintEntry := ⟨tb.layerFirst, tb.layerLast, tb.headFirst, tb.headCount, kind, start, limit⟩
        let hints := fun l => Host.Outcome.next (φ := Fault) (ρ := Refusal)
          (complete (setSeq s c.desc.seq.id { x with hints := l }) c { status := .ok })
        (x.state ≠ .active → exec (.hint c) s = .next (complete s c { status := .ok })) ∧
        (x.state = .active → kind = 0 → exec (.hint c) s = hints (x.hints.filter fun h => !hintMeets h tb start limit)) ∧
        (x.state = .active → kind = 1 ∨ kind = 2 →
          exec (.hint c) s = hints ((if 16 ≤ x.hints.length then x.hints.drop (x.hints.length - 15) else x.hints) ++ [h])) ∧
        (x.state = .active → kind = 3 → exec (.hint c) s = .next (complete (foldState (fun s e =>
          requestStage s e.2.2 .hint (some c.desc.seq.id) e.1 e.2.1) s (rangePages s x (localTensors x tb) start limit)) c
          { status := .ok })))) ∧
    (∀ (tb : TensorBlock) (start limit : Nat) (x : Seq), c.desc.body = .skimRefresh tb start limit →
      seqOf s c.desc.seq.id = some x → x.state ≠ .evicting →
      (fitsSeq x c = false → exec (.skimRefresh c) s = .next (complete s c { status := .refusedFit })) ∧
      (∀ (es : List (Nat × Nat × Nat)) (u : State) (j : RefreshJob), fitsSeq x c = true → x.state = .active →
        s.exec.refreshes.find? (fun j => j.key == cmdKey c) = none → es = rangePages s x (localTensors x tb) start limit →
        u = foldState (fun s e => requestStage (setSideFlag s e.2.2 3 false) e.2.2 .hint (some c.desc.seq.id) e.1 e.2.1) s es →
        j = ⟨cmdKey c, (es.map fun e => e.2.2).eraseDups, s.exec.plans.map fun p => p.key⟩ →
        exec (.skimRefresh c) s =
          .next (refreshStep { u with exec := { u.exec with refreshes := u.exec.refreshes ++ [j] } } j)))

/-- A FRAME_READ that its handle's checks stop completes with their reply. Of a frame that is not IN_FLUX, and whose memory keeps
its clock: with 65,535 pins it is answered BUSY_RETRY, of a poisoned frame POISON; with an HBM slot whose channel is in memory mode
it answers the bytes where every word that it reads, and for a whole image the CRC, passes, and POISON otherwise; a request to a
computing channel stands in the hold queue; one of a frame in a lower tier only pins it and reads it through a codec, without
staging, and completes with the decoded bytes, or with TIER_LATE at its deadline. A FRAME_WRITE that R308 refuses completes with that
reply; else the frame that its walk finds is staged where it is in a lower tier only, and written and committed where it has an HBM
copy in a channel in memory mode, and the command passes its chain. A commit writes the CRC, updated by what changed, and the
generation, clears IN_FLUX, and poisons the frame where a word write failed or COMMIT_VERIFY finds a wrong CRC. -/
def Obligations.FrameCommands : Prop :=
  (∀ (s : State) (c : Command) (h : PageHandle) (offset length deadline : Nat) (errs : List WordErr) (crcBad : Bool), Turn s c →
    c.desc.body = .frameRead h offset length deadline →
    (s.exec.reads.find? (fun r => r.key == cmdKey c) = none →
      (∀ r : Reply, judgeHandle s c = some r → exec (.frameRead c errs crcBad) s = .next (complete s c r)) ∧
      (judgeHandle s c = none → (frameOf s h.lpn).inFlux = false → frameWaits s h.lpn = false →
        (65535 ≤ (frameOf s h.lpn).pins → exec (.frameRead c errs crcBad) s = .next (complete s c { status := .busyRetry })) ∧
        ((frameOf s h.lpn).pins < 65535 → (frameOf s h.lpn).poison = true →
          exec (.frameRead c errs crcBad) s = .next (complete s c { status := .poison })) ∧
        ((frameOf s h.lpn).pins < 65535 → (frameOf s h.lpn).poison = false →
          (slotOf (frameOf s h.lpn) ≠ .none → frameHeld s h.lpn = true → exec (.frameRead c errs crcBad) s =
            .next (holdAt s (homeOf s h.lpn) (.command (cmdKey c)) (ceilDiv length 32))) ∧
          (slotOf (frameOf s h.lpn) ≠ .none → frameHeld s h.lpn = false → ∀ (bad : Bool) (v : State),
            checkWords s 1 h.lpn errs = (bad, v) →
            (bad = true → exec (.frameRead c errs crcBad) s = .next (complete v c { status := .poison })) ∧
            (bad = false → offset ≠ 0 ∨ length ≠ imageBytes → exec (.frameRead c errs crcBad) s =
              .next (complete v c { status := .ok, data := imgBytes v h.lpn offset length })) ∧
            (bad = false → offset = 0 → length = imageBytes → ∀ (wrong inj : Bool) (w : State),
              checkFails v 3 (frameChan s h.lpn) (crcBad || crcWrong v h.lpn) = (wrong, inj, w) →
              exec (.frameRead c errs crcBad) s = .next (if wrong then complete (poisonFrame w h.lpn) c { status := .poison }
                else complete w c { status := .ok, data := imgBytes w h.lpn offset length }))) ∧
          (slotOf (frameOf s h.lpn) = .none → ∀ u : State, u = modFrame s h.lpn (fun f => { f with pins := f.pins + 1 }) →
            exec (.frameRead c errs crcBad) s = .next (codecSubmit { u with exec := { u.exec with
              reads := u.exec.reads ++ [{ key := cmdKey c, lpn := h.lpn, deadline := deadline }] } } false h.lpn
                (readCluster s c.die) none (some (cmdKey c))).2)))) ∧
    (∀ w : ReadWait, s.exec.reads.find? (fun r => r.key == cmdKey c) = some w → w.ready = true →
      exec (.frameRead c errs crcBad) s = .next (complete (endRead s w) c (if w.bad || (frameOf s w.lpn).poison
        then { status := .poison } else { status := .ok, data := memReadN 0 w.image offset length })))) ∧
  (∀ (s : State) (k : CmdKey) (w : ReadWait) (l : Live), s.running = true → s.exec.reads.find? (fun r => r.key == k) = some w →
    liveOf s k = some l → w.ready = false → w.deadline ≠ 0 → l.since + w.deadline ≤ now s →
    exec (.frameReadDeadline k) s = .next (complete (endRead s w) l.cmd { status := .tierLate })) ∧
  (∀ (s : State) (c : Command) (layer head : Nat) (h : PageHandle) (offset length pos : Nat) (x : Seq), Turn s c →
    c.desc.body = .frameWrite layer head h offset length pos → seqOf s c.desc.seq.id = some x → x.state ≠ .evicting →
    (∀ r : Reply, frameWriteRefusal s c layer head offset pos x = some r → exec (.frameWrite c) s = .next (complete s c r)) ∧
    (frameWriteRefusal s c layer head offset pos x = none → x.state = .active → ∀ (k slot : Nat) (g : PageHandle),
      walk s x layer head pos = .hit k slot g → (frameOf s g.lpn).inFlux = false →
      (2 ≤ (frameOf s g.lpn).tier → (frameOf s g.lpn).staged = false → exec (.frameWrite c) s = .next (complete
        (requestStage s g.lpn .write (some c.desc.seq.id) ((tensorIdx x layer head).getD 0) k) c { status := .busyRetry })) ∧
      ((frameOf s g.lpn).tier < 2 ∨ (frameOf s g.lpn).staged = true → frameWaits s g.lpn = false →
        (frameHeld s g.lpn = true → exec (.frameWrite c) s =
          .next (holdAt s (homeOf s g.lpn) (.command (cmdKey c)) (ceilDiv c.payload.length 32))) ∧
        (frameHeld s g.lpn = false →
          exec (.frameWrite c) s = .next (finish (writeFrame s g.lpn offset c.payload) c x.handle.repl { status := .ok }))))) ∧
  (∀ (s : State) (lpn : Nat) (bad differs : Bool), s.running = true → (frameOf s lpn).inFlux = true → frameWaits s lpn = false →
    (pCommitVerify s = false → exec (.frameCommit lpn bad differs) s = .next (commitFrame s lpn bad)) ∧
    (pCommitVerify s = true → ∀ (wrong inj : Bool) (u : State),
      checkFails s 3 (frameChan s lpn) (differs || (frameOf s lpn).crcOff != 0) = (wrong, inj, u) →
      exec (.frameCommit lpn bad differs) s = .next (commitFrame u lpn (bad || wrong)))) ∧
  (∀ (s t : State) (lpn : Nat) (bad : Bool), t = commitFrame s lpn bad →
    (frameOf t lpn).inFlux = false ∧ (frameOf t lpn).poison = ((frameOf s lpn).poison || bad) ∧
    (frameOf t lpn).dirty = (frameOf s lpn).staged ∧ (frameOf t lpn).gen = (frameOf s lpn).gen ∧
    (∀ n : Nat, n ≠ lpn → frameOf t n = frameOf s n) ∧ t.mem.seqs = s.mem.seqs)

/-- PARK completes OK for a parked sequence, BUSY_RETRY for a waking one, joins the one in progress (one that a soft reset has stopped
goes on, log entry 99), and starts for an active one while a port can be written: the sequence is PARKING and waits for its copies; with no such port it completes with LIFE_END. When the
local copy is flushed and the partner has acknowledged every piece, the sequence is PARKED with no leaf and no reserve left; without
them in COPY_TIMEOUT it is ACTIVE again with no PARK_REF. WAKE completes OK for an active sequence, BUSY_RETRY for a parking one,
joins the one in progress likewise, and starts for a parked one; at the end of a WAKE whose frames are all restored the sequence is ACTIVE, with
prefetch depth K_INIT and no PARK_REF. Both answer NO_STATE for an absent sequence and for one that is being evicted. At a replica a
PARK releases the frames at once, and a WAKE waits for the predecessor's copy. -/
def Obligations.ParkAndWake : Prop :=
  ∀ (s : State) (q : SeqId), s.running = true →
    (∀ c : Command, Turn s c → c.desc.seq.id = q → c.desc.body = .park →
      (seqOf s q = none → exec (.park c) s = .next (complete s c { status := .noState })) ∧
      (∀ x : Seq, seqOf s q = some x →
        (x.state = .evicting → exec (.park c) s = .next (complete s c { status := .noState })) ∧
        (x.state = .parked → exec (.park c) s = .next (complete s c { status := .ok })) ∧
        (x.state = .waking → exec (.park c) s = .next (complete s c { status := .busyRetry })) ∧
        (x.state = .parking → ∀ t : State, t = { s with mem := { s.mem with parks := s.mem.parks.map (joinPark q (cmdKey c)) } } →
          exec (.park c) s = .next (resumePark t q) ∧ ((∀ j ∈ s.mem.parks, j.seq = q → j.halted = false) → resumePark t q = t)) ∧
        (x.state = .active → c.chainedFrom.isSome = true → exec (.park c) s = .next (parkReplica s c x)) ∧
        (x.state = .active → c.chainedFrom = none → canWrite s 0 = false → canWrite s 1 = false →
          exec (.park c) s = .next (complete s c { status := .lifeEnd })) ∧
        (x.state = .active → c.chainedFrom = none → canWrite s 0 = true ∨ canWrite s 1 = true → Gives (.park c) s fun t =>
          t = startPark s q [cmdKey c] false ∧
          (∃ y : Seq, seqOf t q = some y ∧ y = { x with state := .parking, parkRef := y.parkRef, objSize := y.objSize }) ∧
          (∃ j ∈ t.mem.parks, j.seq = q ∧ j.since = now s ∧ j.partner = partnerOf s) ∧
          t.mem.frames = s.mem.frames ∧ t.mem.slots = s.mem.slots))) ∧
    (∀ c : Command, Turn s c → c.desc.seq.id = q → c.desc.body = .wake →
      (seqOf s q = none → exec (.wake c) s = .next (complete s c { status := .noState })) ∧
      (∀ x : Seq, seqOf s q = some x →
        (x.state = .evicting → exec (.wake c) s = .next (complete s c { status := .noState })) ∧
        (x.state = .active → exec (.wake c) s = .next (complete s c { status := .ok })) ∧
        (x.state = .parking → exec (.wake c) s = .next (complete s c { status := .busyRetry })) ∧
        (x.state = .waking → ∀ t : State, t = { s with mem := { s.mem with wakes := s.mem.wakes.map (joinWake q (cmdKey c)) } } →
          exec (.wake c) s = .next (resumeWake t q) ∧ ((∀ j ∈ s.mem.wakes, j.seq = q → j.halted = false) → resumeWake t q = t)) ∧
        (x.state = .parked → c.chainedFrom = none → exec (.wake c) s = .next (startWake s q [cmdKey c])) ∧
        (x.state = .parked → c.chainedFrom.isSome = true → exec (.wake c) s = .next (setSeq { s with mem := { s.mem with
          wakes := s.mem.wakes ++ [{ seq := q, keys := [cmdKey c], copied := true }] } } q { x with state := .waking })))) ∧
    (∀ (x : Seq) (j : ParkJob), seqOf s q = some x → s.mem.parks.find? (fun j => j.seq == q) = some j →
      (parkComplete s j = true → Gives (.parkCopiesDone q) s fun t =>
        (∃ y : Seq, seqOf t q = some y ∧ y.state = .parked ∧ y.leafPtr = [] ∧ y.parkRef = x.parkRef ∧
          ∀ e ∈ y.tensors, e.2.reserve = none) ∧ ∀ j ∈ t.mem.parks, j.seq ≠ q) ∧
      (parkComplete s j = false → j.halted = false → j.since + pCopyTimeout s ≤ now s → Gives (.parkCopyTimeout q) s fun t =>
        seqOf t q = some { x with state := .active, parkRef := none, objSize := 0 } ∧ ∀ j ∈ t.mem.parks, j.seq ≠ q)) ∧
    (∀ (x : Seq) (j : WakeJob), seqOf s q = some x → s.mem.wakes.find? (fun j => j.seq == q && !j.copied && !j.halted) = some j →
      (j.reqs = [] → j.allocated = true → j.left = [] → j.guestTry = [] → Gives (.wakeComplete q) s fun t =>
        seqOf t q = some { x with state := .active, parkRef := none, depth := pKInit s, objSize := 0 } ∧
        ∀ j ∈ t.mem.wakes, j.seq ≠ q) ∧
      (j.reqs = [] → j.allocated = false → exec (.wakeComplete q) s = .next (wakeTry s q)) ∧
      (∀ (n : Nat) (r : ParkRef) (b : List Byte), j.reqs ≠ [] → x.parkRef = some r → n = r.partner →
        (gotGuest s n j.reqs = .bytes b →
          exec (.wakeComplete q) s = .next (wakeGuestCame (dropHolders s n j.reqs j.also) q j (parseObject b).2)) ∧
        (∀ (m : Nat) (more : List Nat), gotGuest s n j.reqs = .failed → j.also = some (m, more) → gotGuest s m more = .bytes b →
          exec (.wakeComplete q) s = .next (wakeGuestCame (dropHolders s n j.reqs j.also) q j (parseObject b).2)) ∧
        (gotGuest s n j.reqs = .failed → j.also = none →
          exec (.wakeComplete q) s = .next (wakeGuestLost (dropAnswers s n j.reqs) q j))))

/-- Of a command from another node, while no transfer of the object is in progress. GUEST_PUT with CREATE replaces an earlier object,
on the port that R261 chooses; one without adds its bytes to the object. Bytes that do not continue the object, or a COMMIT short of
its length, are refused; without a port that takes writes the answer is LIFE_END; else the bytes join the object and their write is
issued. GUEST_GET of a committed object that can be read issues the read of its bytes, and refuses bytes beyond it; of any other it
answers NO_STATE. GUEST_RELEASE takes the object out and completes OK, whether it was there or not. None of them is for a command that
did not come from a node. RE_PROTECT of a sequence that is no longer parked ends; of a parked one whose local copy was lost it writes
the local object anew, from what can still be read here or from the partner's copy, and of one whose guest copy was lost it sends the
local object to the map's partner, which becomes the partner of its PARK_REF once it has acknowledged every piece. -/
def Obligations.GuestObjects : Prop :=
  (∀ (s : State) (c : Command) (origin : Nat) (q : SeqId), Turn s c → fromNode c = some origin → q = c.desc.seq.id →
    (∀ (commit : Bool) (offset objLen : Nat), guestBusy s origin q = false →
      (c.desc.body = .guestPut false commit offset objLen →
        (guestOf s origin q = none → exec (.guestPut c) s = .next (complete s c { status := .refusedFit })) ∧
        (∀ g : Guest, guestOf s origin q = some g → exec (.guestPut c) s = .next (guestAdd s c g offset commit))) ∧
      (c.desc.body = .guestPut true commit offset objLen → ∀ u : State, u = discardGuest s origin q →
        (canWrite u 0 = false → canWrite u 1 = false → exec (.guestPut c) s = .next (complete u c { status := .lifeEnd })) ∧
        (canWrite u 0 = true ∨ canWrite u 1 = true →
          (choosePort u objLen = none → exec (.guestPut c) s = .next (complete u c { status := .refusedFit })) ∧
          (∀ p : Nat, choosePort u objLen = some p → exec (.guestPut c) s = .next (guestAdd u c
            { origin := origin, seq := q, cart := portCart u p, len := objLen } offset commit))))) ∧
    (∀ offset length : Nat, c.desc.body = .guestGet offset length →
      (∀ n ∈ s.mem.nvme, n.why ≠ .guestRead (cmdKey c)) →
      (∀ (g : Guest) (p : Nat), guestOf s origin q = some g → g.committed = true → guestPort s g = some p →
        (offset + length ≤ g.len → exec (.guestGet c) s = .next (startIo s p (.guestRead (cmdKey c)))) ∧
        (g.len < offset + length → exec (.guestGet c) s = .next (complete s c { status := .refusedFit }))) ∧
      ((∀ g : Guest, guestOf s origin q = some g → g.committed = true → guestPort s g = none) →
        exec (.guestGet c) s = .next (complete s c { status := .noState }))) ∧
    (c.desc.body = .guestRelease → Gives (.guestRelease c) s fun t =>
      t = tenantAbsent (complete (discardGuest s origin q) c { status := .ok }) c.desc.seq.tenant ∧
      guestOf t origin q = none ∧ (∀ (o : Nat) (r : SeqId), (o, r) ≠ (origin, q) → guestOf t o r = guestOf s o r) ∧
      t.mem.seqs = s.mem.seqs)) ∧
  (∀ (s : State) (c : Command), Turn s c → fromNode c = none →
    (∀ (create commit : Bool) (offset len : Nat), c.desc.body = .guestPut create commit offset len →
      exec (.guestPut c) s = .next (complete s c { status := .refusedFit })) ∧
    (∀ offset length : Nat, c.desc.body = .guestGet offset length →
      exec (.guestGet c) s = .next (complete s c { status := .refusedFit })) ∧
    (c.desc.body = .guestRelease → exec (.guestRelease c) s = .next (complete s c { status := .refusedFit }))) ∧
  (∀ (s : State) (c : Command) (g : Guest) (offset len : Nat) (commit : Bool), len = g.bytes.length + c.payload.length →
    (offset ≠ g.bytes.length ∨ g.len < len ∨ (commit = true ∧ len ≠ g.len) →
      guestAdd s c g offset commit = complete s c { status := .refusedFit }) ∧
    (offset = g.bytes.length → len ≤ g.len → commit = false ∨ len = g.len →
      ((∀ p : Nat, guestPort s g = some p → canWrite s p = false) → guestAdd s c g offset commit = complete s c { status := .lifeEnd }) ∧
      (∀ p : Nat, guestPort s g = some p → canWrite s p = true → guestAdd s c g offset commit =
        startIo (putGuest s { g with bytes := g.bytes ++ c.payload }) p (.guestWrite (cmdKey c) commit)))) ∧
  (∀ (s : State) (q : SeqId), s.running = true → exec (.reProtect q) s =
    .next (foldState (protectStep q) s (s.mem.protects.filter fun j => j.seq == q))) ∧
  (∀ (s : State) (q : SeqId) (j : ReProtect),
    ((∀ x : Seq, seqOf s q = some x → x.state ≠ .parked) → protectStep q s j = endProtect s q j.lostLocal) ∧
    (∀ (x : Seq) (r : ParkRef), seqOf s q = some x → x.state = .parked → x.parkRef = some r → j.seq = q →
      (j.lostLocal = true → protectStep q s j = protectLocal s j x r ∧
        (∀ o : Parked, j.object = 0 → localObject s (some r) = some o →
          protectLocal s j x r = protectPlace s q x r.partner o.frames) ∧
        (∀ b : List Byte, j.object = 0 → localObject s (some r) = none → j.reqs ≠ [] → gotGuest s r.partner j.reqs = .bytes b →
          protectLocal s j x r = protectPlace (dropHolders s r.partner j.reqs j.also) q x r.partner (parseObject b).2)) ∧
      (j.lostLocal = false → protectStep q s j = protectGuest s j x r ∧
        (∀ (n : Nat) (o : Parked) (sent : List Nat × State), partnerOf s = some n → j.reqs = [] → localObject s (some r) = some o →
          sent = sendGuest s n q (objectBytes (objectOf q r.object x o.frames)) →
          protectGuest s j x r = modProtect sent.2 q false fun i => { i with reqs := sent.1, partner := n }) ∧
        (∀ n : Nat, partnerOf s = some n → j.reqs ≠ [] → j.partner = n → allPut s n j.reqs = true →
          seqOf (protectGuest s j x r) q = some { x with parkRef := some { r with partner := n } } ∧
          ∀ i ∈ (protectGuest s j x r).mem.protects, i.seq ≠ q ∨ i.lostLocal = true))))

/-- CARTRIDGE_INSERT into an empty port completes: where every condition of R254 holds the cartridge comes into service with the
LIFE and the directory that the node knows of it, READY or, at the end of its life, LIFE_END; without MAGIC the port is
UNENROLLED, and otherwise REFUSED with the first condition that fails, which raises the port's source.
CARTRIDGE_REMOVAL empties the port and raises its source; no I/O of the port is left. CP_ENROL of an unenrolled cartridge, or of
one refused with reason 6 or 7, starts the format; the format ends in the identity record's write, and its flush makes the port READY, with a life
record. CP_EJECT stops the port's use, and the port empties once no I/O is left. A SMART poll never lowers LIFE; WARN80 and
WARN95 follow it; at the end of its life a READY port becomes LIFE_END. An I/O in flight that completes has the effect of its
purpose; one that fails is tried once more, and the second failure raises the port's source and fails the transfer. -/
def Obligations.CartridgesAndIo : Prop :=
  ∀ s : State, s.running = true →
    (∀ (p : Fin 2) (i : CartridgeInfo), (portOf s p.val).state = 0 → Gives (.cartridgeInsert p i) s fun t =>
      (portOf t p.val).identity = i.record ∧ (portOf t p.val).sizeGib = i.sizeGib ∧
      portOf t (1 - p.val) = portOf s (1 - p.val) ∧
      (cartridgeReason s i = 0 →
        (portOf t p.val).state = (if 1000 ≤ (cartOf s i.record.cartridgeId).life then 6 else 4) ∧ (portOf t p.val).reason = 0 ∧
        (portOf t p.val).life = (cartOf s i.record.cartridgeId).life ∧
        (portOf t p.val).objects = (cartOf s i.record.cartridgeId).objects) ∧
      (cartridgeReason s i = 8 → (portOf t p.val).state = 3 ∧ (portOf t p.val).reason = 0) ∧
      (cartridgeReason s i ≠ 0 → cartridgeReason s i ≠ 8 →
        (portOf t p.val).state = 2 ∧ (portOf t p.val).reason = cartridgeReason s i ∧
        ∃ e ∈ t.fault.events, e.source = 55 + p.val ∧ e.detail = cartridgeReason s i)) ∧
    (∀ p : Fin 2, (portOf s p.val).state ≠ 0 → Gives (.cartridgeRemoval p) s fun t => (portOf t p.val).state = 0 ∧
      (∀ n ∈ t.mem.nvme, n.port ≠ p.val) ∧ ∃ e ∈ t.fault.events, e.source = 55 + p.val) ∧
    (∀ p : Fin 2, Reaches s (0x60218 + 32 * p.val) →
      (((portOf s p.val).state = 3 ∨ ((portOf s p.val).state = 2 ∧ ((portOf s p.val).reason = 6 ∨ (portOf s p.val).reason = 7))) →
        (portOf s p.val).enrolling = false →
        exec (.cpEnrol p) s = .next (startIo (modPort s p.val fun c => { c with enrolling := true }) p.val .format)) ∧
      ((portOf s p.val).state ≠ 3 → ((portOf s p.val).state = 2 → (portOf s p.val).reason ≠ 6 ∧ (portOf s p.val).reason ≠ 7) →
        exec (.cpEnrol p) s = .next s) ∧
      ((portOf s p.val).state ≠ 0 → exec (.cpEject p) s =
        .next (drainEject (moveParks (modPort s p.val fun c => { c with state := 5 }) p.val false) p.val))) ∧
    (∀ (p : Fin 2) (log : SmartLog), (portOf s p.val).state = 4 ∨ (portOf s p.val).state = 6 →
      Gives (.smartPoll p log) s fun t =>
        (portOf t p.val).life = max (portOf s p.val).life (lifeOf (portOf s p.val) log) ∧
        (portOf t p.val).warn80 = decide (800 ≤ (portOf t p.val).life) ∧
        (portOf t p.val).warn95 = decide (950 ≤ (portOf t p.val).life) ∧
        (portOf t p.val).state = if (portOf s p.val).state = 6 ∨ 1000 ≤ (portOf t p.val).life ∨ log.readOnly = true then 6 else 4) ∧
    (∀ n : Nvme, s.mem.nvme.find? (fun i => i.id == n.id) = some n → inFlight s n = true →
      (n.retried = false → exec (.nvmeCompletion n.id false) s = .next { s with mem := { s.mem with
        nvme := s.mem.nvme.map fun i => if i.id = n.id then { i with retried := true } else i } }) ∧
      (n.retried = true → exec (.nvmeCompletion n.id false) s = .next (drainEject (ioFailed (raise { s with mem := { s.mem with
        nvme := s.mem.nvme.filter fun i => i.id != n.id } } { source := 55 + n.port, unit := { kind := 10, num := n.port } }) n) n.port)) ∧
      exec (.nvmeCompletion n.id true) s = .next (drainEject (ioDone { s with mem := { s.mem with
        nvme := s.mem.nvme.filter fun i => i.id != n.id } } n) n.port) ∧
      (n.why = .format → n.port < 2 → (portOf s n.port).state ≠ 5 → Gives (.nvmeCompletion n.id true) s fun t =>
        (portOf t n.port).objects = [] ∧ (portOf t n.port).identity.ratedTb = rd s (0x60214 + 32 * n.port) ∧
        (portOf t n.port).identity.nodeKeyHash = nodeKeyHash s ∧ (∃ x ∈ t.mem.nvme, x.port = n.port ∧ x.why = .recordWrite) ∧
        t.mem.seqs = s.mem.seqs ∧ t.mem.frames = s.mem.frames) ∧
      (n.why = .recordFlush → n.port < 2 → Gives (.nvmeCompletion n.id true) s fun t =>
        (portOf t n.port).state = (if 1000 ≤ (portOf s n.port).life then 6 else 4) ∧ (portOf t n.port).reason = 0 ∧
        (portOf t n.port).enrolling = false ∧ (portOf t n.port).identity = (portOf s n.port).identity))

/-- An ATTN_FWD or ATTN_BWD that is not planned yet, at its turn. A sequence that is absent or being evicted is answered NO_STATE. What
R94 and R107 refuse of its sequence completes with that reply: a range that is not wholly local, a shape or a payload that does
not fit, gradients of another step. A sequence that is not ACTIVE, or a frame with 65,535 pins, is answered BUSY_RETRY; a parked one
begins to wake at its owner. Else an ATTN_FWD is planned, one group for each KV head with the pins of its visible pages; an ATTN_BWD
first obtains the gradient frames that its pages lack, all of them, or completes with NOPAGE. A die's turn makes up to 8,192 steps of
the first command in turn that has one, and then passes on. -/
def Obligations.AttentionCommands : Prop :=
  (∀ (s : State) (c : Command) (i : Instr), Turn s c → planFor s (cmdKey c) = none →
    (i = .attnFwd c ∧ ∃ a : AttnDesc, c.desc.body = .attnFwd a) ∨
      (i = .attnBwd c ∧ ∃ (a : AttnDesc) (d step : Nat), c.desc.body = .attnBwd a d step) →
    (seqOf s c.desc.seq.id = none → exec i s = .next (complete s c { status := .noState })) ∧
    (∀ x : Seq, seqOf s c.desc.seq.id = some x →
      (x.state = .evicting → exec i s = .next (complete s c { status := .noState })) ∧
      (x.state ≠ .evicting → ∀ r : Reply, attnRefusal s c x = some r → exec i s = .next (complete s c r)) ∧
      (x.state ≠ .evicting → attnRefusal s c x = none →
        (x.state = .parking ∨ x.state = .waking → exec i s = .next (complete s c { status := .busyRetry })) ∧
        (x.state = .parked → ∀ t : State, t = complete s c { status := .busyRetry } →
          exec i s = .next (if c.chainedFrom = none ∧ roleOf s c.desc = .owner then startWake t c.desc.seq.id [] else t)) ∧
        (x.state = .active → ∀ p : Plan, p = attnPlan s c x →
          ((∃ n ∈ p.pins, 65535 ≤ (frameOf s n.lpn).pins) → exec i s = .next (complete s c { status := .busyRetry })) ∧
          ((∀ n ∈ p.pins, (frameOf s n.lpn).pins < 65535) →
            (∀ a : AttnDesc, c.desc.body = .attnFwd a → exec i s = .next (installPlan s p)) ∧
            (∀ (a : AttnDesc) (d step : Nat) (need : List (Nat × Nat × Nat)), c.desc.body = .attnBwd a d step →
              need = (p.pins.filter fun n => (gradEntry s c.desc.seq.id n.tensor n.page).isNone).map
                (fun n => (n.tensor, n.page, n.lpn)) →
              (gradAllocAll c.desc.seq.id x step need s = none → exec i s = .next (complete s c { status := .noPage })) ∧
              (∀ u : State, gradAllocAll c.desc.seq.id x step need s = some u → exec i s = .next (installPlan u p)))))))) ∧
  (∀ (s : State) (c : Command) (x : Seq) (a : AttnDesc), a = attnOf c.desc.body →
    (attnPlan s c x).groups.length = a.headCount ∧ (attnPlan s c x).key = cmdKey c ∧
    (attnPlan s c x).pins = (List.range a.headCount).flatMap fun h =>
      (planHead s x c h ((attnTensors x a).getD h 0)).2) ∧
  (∀ (s u v : State) (die : Fin 2) (k : CmdKey), s.running = true →
    u = (if (admOf s die.val).held = true ∧ planFull s die.val = false then admitStep s die.val else s) →
    u.exec.planTurn.find? (fun k => (planFor u k).any fun p => p.die == die.val && (planOne u k).isSome) = some k →
    v = planMany die.val k 8192 u →
    exec (.planVisits die) s = .next (noteFull (planCheck { v with exec := { v.exec with
      planTurn := v.exec.planTurn.filter (· != k) ++ (if v.exec.planTurn.contains k then [k] else []) } } k) die.val))

/-- A mash visit whose turn its channel runs checks the words of its page: where a check fails or the frame is poisoned, the page is
settled as R156 says; else its rows' partials fold into the home chain of its quadrant, which counts it; a mash unit that an injection
fails is replaced. A tile visit does the same on the chain that serves it, with the values that the chain holds for its row block, and
stands in the hold queue of a channel that computes. A fallback visit whose decode has ended releases what its chain held, or settles
its page where the check failed. A mash visit that no burst has taken in MASH_WAIT ticks becomes a tile visit; one that has waited
STAGE_WAIT ticks for its staging takes the fallback; a late fallback visit of a partial command leaves its hole and ends, and of
another command waits on with its flag. A visit that ends, and every visit of a page that is settled, is there no more. -/
def Obligations.VisitsEnd : Prop :=
  (∀ (s : State) (v : Visit) (p : Plan), s.running = true → visitOf s v.id = some v → planFor s v.key = some p →
    (∀ (st pc n unit : Nat) (errs : List WordErr), v.path = .mash → placeOf s v.lpn = some (st, pc) → n = pcNum st pc →
      runsNow s n (.visit v.id) = true → (frameOf s v.lpn).inFlux = false → frameWaits s v.lpn = false → unit = s.fault.inj.unit →
      (∀ (mode : Nat) (u : State), unit / 32 = n → fireInj s 6 unit = some (mode, u) →
        exec (.mashVisit v.id errs) s = .next (unitFails u st pc (unit % 32) false true true)) ∧
      (unit / 32 ≠ n ∨ fireInj s 6 unit = none → ∀ (bad : Bool) (u w : State), checkWords s 2 v.lpn errs = (bad, u) →
        w = popBurst u n →
        (bad = true ∨ (frameOf w v.lpn).poison = true → exec (.mashVisit v.id errs) s = .next (visitPoison w v)) ∧
        (bad = false → (frameOf w v.lpn).poison = false → ∀ (rs : List (Partial × Nat)) (y : State),
          rs = visitRows w p v (mashPartial p.shape) →
          y = modQuad (addSat w (sumNat (rs.map Prod.snd))) (quadOfStack st) (fun q => { q with mashVis := q.mashVis + 1 }) →
          exec (.mashVisit v.id errs) s = .next (visitEnd (foldHome (bump (modStack y st fun k => { k with visits := k.visits + 1 })
            p.seq.tenant 1 1) p v.group (quadOfStack st) v.block [(v.page, rs.map Prod.fst)]) v)))) ∧
    (∀ (q : Nat) (ts : List Nat) (errs : List WordErr), v.path = .tile → q = serveQuad s v.quad →
      chainTiles s q p.bwd (chainPick s v) = some ts → (frameOf s v.lpn).inFlux = false → frameWaits s v.lpn = false →
      (frameHeld s v.lpn = true → exec (.tileVisit v.id errs) s = .next (holdAt s (homeOf s v.lpn) (.visit v.id) 576)) ∧
      (frameHeld s v.lpn = false → (∀ u : State, tileInjection s ts = some u → exec (.tileVisit v.id errs) s =
          .next (tileFails u s.fault.inj.unit (s.fault.inj.unit % 16) true true)) ∧
        (tileInjection s ts = none → ∀ (bad : Bool) (u : State), checkWords s 1 v.lpn errs = (bad, u) →
          (bad = true ∨ (frameOf u v.lpn).poison = true → exec (.tileVisit v.id errs) s = .next (visitPoison u v)) ∧
          (bad = false → (frameOf u v.lpn).poison = false →
            exec (.tileVisit v.id errs) s = .next (visitEnd (tileWork (bump (countTiles u q ts) p.seq.tenant 1 1) p v) v))))) ∧
    (∀ bad : Bool, v.path = .fallback → v.decoded = true → (frameOf s v.lpn).inFlux = false →
      (bad = true ∨ (frameOf s v.lpn).poison = true → exec (.fallbackVisit v.id bad) s =
        .next (visitPoison (modFrame s v.lpn fun f => { f with poison := true }) v)) ∧
      (bad = false → (frameOf s v.lpn).poison = false → ∀ (q : Nat) (ts : List Nat), q = serveQuad s v.quad →
        chainTiles s q p.bwd (chainPick s v) = some ts → exec (.fallbackVisit v.id bad) s = .next (visitEnd (tileWork
          (modGroup (bump (countTiles s q ts) p.seq.tenant 1 1) v.key v.group (markLate v.block)) p v) v))) ∧
    (v.path = .mash → v.inBurst = false → pMashWait s ≠ 0 → v.planned + pMashWait s ≤ now s →
      exec (.mashWaitExpiry v.id) s = .next (modVisit (dropItem s (.visit v.id)) v.id fun v => { v with path := .tile })) ∧
    (v.path = .stageWait → v.planned + pStageWait s ≤ now s → exec (.stageWaitExpiry v.id) s = .next (takeFallback s v)) ∧
    (v.path = .fallback → v.late = false → v.planned + pFallback s ≤ now s →
      ∀ u w : State, u = modVisit s v.id (fun v => { v with late := true }) → w = makeHole u p v.group v.page .tierLate →
      (p.cmd.desc.allowPartial = true → exec (.fallbackDeadline v.id) s = .next (planCheck (flushTiles
        { w with mem := { w.mem with lateHoles := w.mem.lateHoles + 1 } } v.key v.group) v.key)) ∧
      (p.cmd.desc.allowPartial = false →
        exec (.fallbackDeadline v.id) s = .next (modGroup u v.key v.group (markLate v.block))))) ∧
  (∀ (s : State) (v : Visit), visitOf (visitEnd s v) v.id = none ∧
    ∀ p : Plan, planFor s v.key = some p → ∀ x ∈ (visitPoison s v).exec.visits,
      x ∈ s.exec.visits ∧ ¬(x.key = v.key ∧ x.group = v.group ∧ x.page = v.page))

/-- A gradient add that its channel runs checks the words it reads, adds its values to a sound gradient frame word for word, commits
it and is gone; where the unit fails the frame is poisoned. GRAD_DRAIN of an ACTIVE sequence that nothing refuses reads the gradients
of its step behind its header once none of their frames is IN_FLUX and no backward command of the sequence runs, with POISON where
one of them is poisoned; with RELEASE it frees those of the range and step, and their heads' counts. MERGE of a new key, with room on
its merge die, opens a group there and takes the key's early records that are younger than 20,000 ticks; a key that is open is
REFUSED_FIT, and without room it is BUSY_RETRY. A RECORDS message of an open group reaches it, one of an unknown key is held, or
discarded where its key has closed or the early buffer is full; at its timeout the group closes, and records held 20,000 ticks for an
unknown key are discarded. -/
def Obligations.GradientsAndMerges : Prop :=
  (∀ (s : State) (c : Contribution) (st pc : Nat) (errs : List WordErr), s.running = true →
    s.exec.contribs.find? (fun x => x.id == c.id) = some c → placeOf s c.lpn = some (st, pc) →
    runsNow s (pcNum st pc) (.add c.id) = true → (frameOf s c.lpn).inFlux = false → frameWaits s c.lpn = false →
    exec (.gradientAdd c.id true errs) s = .next (planCheck (refill (failItem s (pcNum st pc)) (pcNum st pc)) c.key) ∧
    ∀ (u v : State) (bad : Bool),
      u = popBurst { s with exec := { s.exec with contribs := s.exec.contribs.filter fun x => x.id != c.id } } (pcNum st pc) →
      checkWords u 2 c.lpn errs = (bad, v) →
      ((frameOf v c.lpn).grad = true → (frameOf v c.lpn).poison = false →
        exec (.gradientAdd c.id false errs) s = .next (planCheck (commitChecked (imgWrite
          (setFlux (modStack v st fun k => { k with adds := k.adds + 1 }) c.lpn true) c.lpn 0
          ((List.range 4096).flatMap fun i => le 4 (add32 (BitVec.ofNat 32 (fieldLe (imgBytes v c.lpn 0 16384) (4 * i) 4))
            (c.values.getD i zero32)).toNat)) c.lpn bad false) c.key)) ∧
      ((frameOf v c.lpn).grad = false ∨ (frameOf v c.lpn).poison = true →
        exec (.gradientAdd c.id false errs) s = .next (planCheck v c.key))) ∧
  (∀ (s : State) (c : Command) (x : Seq) (bf16 : Bool) (layer hf hc step ks ke : Nat) (ts : List Nat), Turn s c →
    seqOf s c.desc.seq.id = some x → x.state ≠ .evicting → ts = drainTensors x layer hf hc →
    (c.desc.body = .gradDrain false bf16 layer hf hc step ks ke →
      (∀ r, drainRefusal s c x = some r → exec (.gradDrainRead c) s = .next (complete s c r)) ∧
      (drainRefusal s c x = none → x.state = .active →
        (∀ l ∈ s.exec.live, isBwdBody l.cmd.desc.body = true → l.cmd.desc.seq.id = c.desc.seq.id → l.executed = true) →
        ∀ fs : List Nat, fs = (gradIn s c.desc.seq.id x ts ks ke).flatMap (fun e => e.frames) →
        (∀ n ∈ fs, (frameOf s n).inFlux = false) →
        ∀ head : List Byte, head = drainHeader step layer hf hc bf16 (contribSum x ts step) ks ke →
        ((∃ n ∈ fs, (frameOf s n).poison = true) →
          exec (.gradDrainRead c) s = .next (complete s c { status := .poison, data := head })) ∧
        ((∀ n ∈ fs, (frameOf s n).poison = false ∧ locWaits s (homeOf s n) = false ∧ locHeld s (homeOf s n) = false) →
          ∀ (rows : List Byte) (sat : Nat), drainRows s c.desc.seq.id x ((rangeFrom hf (hf + hc)).map fun h => tensorIdx x layer h)
            step ks ke bf16 = (rows, sat) →
          exec (.gradDrainRead c) s = .next (complete (addSat s sat) c { status := .ok, data := head ++ rows })))) ∧
    (c.desc.body = .gradDrain true bf16 layer hf hc step ks ke →
      (∀ r, drainRefusal s c x = some r → exec (.gradDrainRelease c) s = .next (complete s c r)) ∧
      (drainRefusal s c x = none → x.state = .active → Gives (.gradDrainRelease c) s fun t =>
        (∀ g ∈ t.mem.grads, g ∈ s.mem.grads ∧ ¬(g ∈ gradIn s c.desc.seq.id x ts ks ke ∧ g.step = step)) ∧
        (∀ g ∈ s.mem.grads, ¬(g ∈ gradIn s c.desc.seq.id x ts ks ke ∧ g.step = step) → g ∈ t.mem.grads) ∧
        ∃ u : State, ∃ d : List Byte, t = complete (modSeq u c.desc.seq.id fun y =>
          ((gradIn s c.desc.seq.id x ts ks ke).filter fun g => g.step == step).foldl
            (fun y g => { y with gradSum := tabDel y.gradSum g.tensor }) y) c { status := .ok, data := d }))) ∧
  (∀ (s : State) (c : Command) (m : MergeDesc) (die : Nat), Turn s c → c.desc.body = .merge m →
    die = mergeDie c.desc.seq.tenant m.tag →
    (∀ g, mergeGroup s die c.desc.seq.tenant m.tag = some g → cmdKey g.cmd ≠ cmdKey c →
      exec (.merge c) s = .next (complete s c { status := .refusedFit })) ∧
    (mergeGroup s die c.desc.seq.tenant m.tag = none →
      (8388608 < mergeBytes m → exec (.merge c) s = .next (complete s c { status := .refusedFit })) ∧
      (mergeBytes m ≤ 8388608 → 8388608 < sumNat ((mergeOf s die).groups.map fun g => g.bytes) + mergeBytes m →
        exec (.merge c) s = .next (complete s c { status := .busyRetry })) ∧
      (sumNat ((mergeOf s die).groups.map fun g => g.bytes) + mergeBytes m ≤ 8388608 → ∀ l : Live, liveOf s (cmdKey c) = some l →
        ∀ own : EarlyRecords → Bool, own = (fun e => e.tenant == c.desc.seq.tenant && e.tag == m.tag) →
        exec (.merge c) s = .next (mergeCheck (foldState (fun s e => match mergeGroup s die c.desc.seq.tenant m.tag with
            | none => s
            | some g => addReply s die g e.body)
          (modLive (modMerge s die fun d => { d with
            groups := d.groups ++ [{ cmd := c, desc := m, tenant := c.desc.seq.tenant, since := l.since, bytes := mergeBytes m }],
            early := d.early.filter (fun e => !own e),
            discards := d.discards + ((mergeOf s die).early.filter fun e => own e && elapsed s e.since 20000).length,
            closed := d.closed.filter (· != (c.desc.seq.tenant, m.tag)) }) (cmdKey c) fun l => { l with begun := true })
          ((mergeOf s die).early.filter fun e => own e && !elapsed s e.since 20000)) die c.desc.seq.tenant m.tag)))) ∧
  (∀ (s u : State) (m : Inbound) (tag n die : Nat), s.running = true → msgKind m.bytes = 3 → m.sys = false →
    u = takeInbox s m → tag = fieldLe m.bytes 16 4 → n = fieldLe m.bytes 8 4 → die = mergeDie m.tenant tag →
    (∀ g : MergeGroup, mergeGroup u die m.tenant tag = some g →
      exec (.mergeInput m) s = .next (mergeCheck (addReply u die g m.bytes) die m.tenant tag)) ∧
    (mergeGroup u die m.tenant tag = none →
      ((m.tenant, tag) ∈ (mergeOf u die).closed ∨ 4096 < sumNat ((mergeOf u die).early.map fun e => e.count) + n →
        exec (.mergeInput m) s = .next (discardInputs u die 1)) ∧
      ((m.tenant, tag) ∉ (mergeOf u die).closed → sumNat ((mergeOf u die).early.map fun e => e.count) + n ≤ 4096 →
        exec (.mergeInput m) s = .next (modMerge u die fun d =>
          { d with early := d.early ++ [⟨m.tenant, tag, now u, n, m.bytes⟩] })))) ∧
  (∀ (s : State) (die : Fin 2), s.running = true →
    (∀ (tenant tag : Nat) (g : MergeGroup), mergeGroup s die.val tenant tag = some g → g.since + g.desc.timeout ≤ now s →
      exec (.mergeTimeout die tenant tag) s = .next (closeGroup s die.val g)) ∧
    (Gives (.earlyBufferExpiry die) s fun t =>
      (∀ e ∈ (mergeOf t die.val).early, e ∈ (mergeOf s die.val).early ∧ now s < e.since + 20000) ∧
      (mergeOf t die.val).discards + (mergeOf t die.val).early.length =
        (mergeOf s die.val).discards + (mergeOf s die.val).early.length))

/-- RESERVE_REFILL gives a tensor that lacks it its reserve, or marks the sequence TIGHT and starts preemption. ZERO_FILL zero-fills
the slot that has waited longest, which joins the tail of its list. Preemption ends where no stack is short. A staging whose turn it
is, with a free slot and room in the pool, takes the slot and submits its decode; one whose decode passes its checks leaves its frame
STAGED and clean in that slot, one that fails poisons the frame, and the visits that waited go on. An encode or a decode that its
lane has done, with any errors of what it read, delivers what the lane made of it, and frees the lane; a lane that fails is out of
service. A write-down that fails its check poisons its frame in HBM; one that passes installs its stream where a lower tier has
room. PROMOTION of the first frame in order makes its staged copy its home, or asks for its staging; DEMOTION of the first cold frame
of a short stack starts its write-down. The sweep halves every SAMPLE. -/
def Obligations.TiersAndCodec : Prop :=
  ∀ s : State, s.running = true →
    (∀ (q : SeqId) (n : Nat) (x : Seq), (q, n) ∈ s.mem.refills → seqOf s q = some x → wantsReserve x n = true →
      (tensorOf x n).reserve = none →
      (takeReserve s q n = none → Gives (.reserveRefill q n) s fun t => seqOf t q = some { x with tight := true } ∧
        t.mem.preempting = true) ∧
      (∀ u : State, takeReserve s q n = some u → Gives (.reserveRefill q n) s fun t => (q, n) ∉ t.mem.refills ∧
        ∃ y : Seq, seqOf t q = some y ∧ (tensorOf y n).reserve.isSome = true ∧ (tensorOf y n).want = false)) ∧
    (∀ (st : Fin 12) (pc lpn n : Nat) (rest : List (Nat × Nat)) (u : State), u = pairVacant s (pcNum st.val pc) →
      (freeOf u (pcNum st.val pc)).toZero = (lpn, n) :: rest → locWaits u (.hbm st.val pc n) = false →
      locHeld u (.hbm st.val pc n) = false →
      exec (.zeroFill st pc) s = .next (retryWakes (modFree (zeroSlot u st.val pc n) (pcNum st.val pc) fun l =>
        { l with toZero := rest, back := l.back ++ [(lpn, n)] }))) ∧
    (preemptRuns s = false → exec .preemptVictim s = .next { s with mem := { s.mem with preempting := false } }) ∧
    (preemptRuns s = true → ∀ u : State, u = foldState releaseStaged s (cleanCopies s) →
      (preemptChooses u = false → exec .preemptVictim s = .next (retryWakes u)) ∧
      (preemptChooses u = true → ∀ v : State, v = { u with mem := { u.mem with preempting := true } } →
        (victim v = none → exec .preemptVictim s = .next (retryWakes v)) ∧
        (∀ (q : SeqId) (x : Seq), victim v = some (q, x) → (allocExtent v 36).isSome = false →
          (canWrite v 0 = true ∨ canWrite v 1 = true) → halfDone v q = false →
          exec .preemptVictim s = .next (retryWakes (startPark v q [] true))))) ∧
    (∀ j : StageJob, s.mem.stages.find? (fun x => x.lpn == j.lpn && x.slot == .none) = some j → prefetchBefore s j = false →
      ∀ (st pc n : Nat) (u : State), takeBare s (stageOrder s j) = some (.hbm st pc n, u) →
      (j.why ≠ .promote → pStageMax s ≤ poolUsed s st → exec (.stagingStart j.lpn) s = .next (makeStageRoom s j st)) ∧
      ((j.why = .promote ∨ poolUsed s st < pStageMax s) →
        ∀ r : Nat × State, r = codecSubmit u false j.lpn (quadOfStack st) none none →
        exec (.stagingStart j.lpn) s = .next { r.2 with mem := { r.2.mem with stages := r.2.mem.stages.map fun x =>
          if x.lpn = j.lpn then { x with slot := .hbm st pc n, job := some r.1 } else x } })) ∧
    (∀ (j : StageJob) (bad fail inj : Bool) (st pc n : Nat) (u done : State),
      s.mem.stages.find? (fun x => x.lpn == j.lpn && x.decoded) = some j → j.slot = .hbm st pc n → locWaits s j.slot = false →
      locHeld s j.slot = false → checkFails s 3 (pcNum st pc) (bad || j.decodeErr || imageWrong j.image) = (fail, inj, u) →
      (fail = true → done = failStage u j.lpn j.slot) →
      (fail = false → ∀ v : State, v = modFrame (slotFill u j.slot j.image) j.lpn (fun f => { f with
        alt := j.slot, staged := true, dirty := false, visited := false, lastVisit := now s, stagedFor := j.seq,
        promo := j.why == .promote }) →
        done = { v with mem := { v.mem with stages := v.mem.stages.filter fun x => x.lpn != j.lpn } }) →
      exec (.stagingComplete j.lpn bad) s = .next (refreshAll (foldState resumeVisit done
        (done.exec.visits.filter fun v => v.lpn == j.lpn && v.path == .stageWait)))) ∧
    (∀ (j : CodecJob) (errs : List WordErr), s.mem.codec.find? (fun x => x.id == j.id && x.encode && x.lane.isSome) = some j →
      (frameOf s j.lpn).inFlux = false → locWaits s (encodeSource s j) = false → locHeld s (encodeSource s j) = false →
      (∀ (q : SeqId) (f : ObjFrame), j.obj = some (q, f) → transferAllowed s q = true) →
      (∀ u : State, laneInjection s j = some u → exec (.codecEncode j.id errs) s =
        .next (laneFail u j.cluster (j.lane.getD 0) true)) ∧
      (laneInjection s j = none → ∀ (bad : Bool) (stream : List Byte) (u : State),
        encodeSlot s j (encodeSource s j) errs = (bad, stream, u) →
        (j.obj = none → exec (.codecEncode j.id errs) s = .next (downEncoded (codecEnd u j.id) j.id bad stream)) ∧
        (∀ (q : SeqId) (f : ObjFrame), j.obj = some (q, f) → exec (.codecEncode j.id errs) s =
          .next (parkEncoded (codecEnd u j.id) q f (encodeSource s j) bad stream)))) ∧
    (∀ (j : CodecJob) (readAs : Option (List Byte)) (linkErrs : Nat),
      s.mem.codec.find? (fun x => x.id == j.id && !x.encode && x.lane.isSome) = some j →
      (∀ m ∈ s.link.memRds, m.why ≠ .job j.id) → locWaits s j.src = false →
      (∀ u : State, laneInjection s j = some u → exec (.codecDecode j.id readAs linkErrs) s =
        .next (laneFail u j.cluster (j.lane.getD 0) true)) ∧
      (laneInjection s j = none → ∀ (lpBad : Bool) (u v : State) (img : Option Mem), lpRead s j.src linkErrs = (lpBad, u) →
        img = (if j.readErr || lpBad then none else decodeJob u j (readAs.getD (jobStream u j))) →
        v = codecEnd (modQuad (modCluster u j.cluster fun c =>
          { c with decErr := c.decErr + b2n (!(j.readErr || lpBad) && img.isNone) }) j.cluster fun q => { q with dec := q.dec + 1 }) j.id →
        (j.obj = none → exec (.codecDecode j.id readAs linkErrs) s = .next (deliverDecoded v j img)) ∧
        (∀ (q : SeqId) (f : ObjFrame), j.obj = some (q, f) →
          (j.src = .none → exec (.codecDecode j.id readAs linkErrs) s =
            .next (wakeDecoded v q f j.guest (img.filter fun m => !imageWrong m))) ∧
          (j.src ≠ .none → exec (.codecDecode j.id readAs linkErrs) s =
            .next (parkDecoded v q f (jobStream s j) (img.filter fun m => !imageWrong m).isSome))))) ∧
    (∀ (cluster : Fin 4) (lane : Nat), lane ∈ lanesLive (clusterOf s cluster.val) (decide (32 ≤ lane)) →
      Gives (.codecLaneFail cluster lane) s fun t => lane ∉ lanesLive (clusterOf t cluster.val) (decide (32 ≤ lane)) ∧
        ∃ e ∈ t.fault.events, e.source = 33 + cluster.val ∧ e.unit = { kind := 4, num := cluster.val * 48 + lane }) ∧
    (∀ (d : DownJob) (bad fail inj : Bool) (st pc n : Nat) (u : State),
      s.mem.downs.find? (fun x => x.lpn == d.lpn && x.encoded) = some d → d.source = .hbm st pc n →
      checkFails s 3 (pcNum st pc) (bad || d.bad) = (fail, inj, u) →
      (fail = true → Gives (.writeDownComplete d.lpn bad) s fun t => (frameOf t d.lpn).poison = true ∧
        (frameOf t d.lpn).tier ≤ 1 ∧ ∀ x ∈ t.mem.downs, x.lpn ≠ d.lpn) ∧
      (fail = false → allocExtent u (ceilDiv d.stream.length 512) = none → exec (.writeDownComplete d.lpn bad) s = .next u) ∧
      (fail = false → ∀ l : Loc, allocExtent u (ceilDiv d.stream.length 512) = some l → ∀ v : State, v = installDown u d l →
        exec (.writeDownComplete d.lpn bad) s =
          .next { v with mem := { v.mem with encOut := v.mem.encOut + ceilDiv d.stream.length 512 } })) ∧
    (∀ (lpn : Nat) (f : Frame), f = frameOf s lpn →
      (mayPromote s lpn = true → comesFirst s (mayPromote s) (promoteKey s) lpn = true →
        (f.staged = true → exec (.promotion lpn) s = .next (retierLeaves (setFrame (retireExtent s lpn f.loc) lpn { f with
          tier := 1, loc := f.alt, alt := .none, staged := false, dirty := false, stagedFor := none, promo := false }) lpn)) ∧
        (f.staged = false → exec (.promotion lpn) s = .next (requestStage s lpn .promote none 0 0))) ∧
      (coolable s (locStack f.loc) lpn = true → frameWaits s lpn = false →
        comesFirst s (coolable s (locStack f.loc)) (fun l => (frameOf s l).sample) lpn = true →
        (allocExtent s 36).isSome = true → exec (.demotion lpn) s = .next (startDown s lpn .demote f.loc))) ∧
    (samples s = true → s.mem.ageSince + pAge s ≤ now s → Gives .ageSweep s fun t => t.mem.ageSince = now s ∧
      (∀ lpn : Nat, frameOf t lpn = { frameOf s lpn with sample := (frameOf s lpn).sample / 2 }) ∧ { t with mem := s.mem } = s)

/-- HREG_ADD of a free region number, over a SECURE link, with a base on a 2 MiB boundary and 1 to 512 units that overlap no other
region, registers it; anything else it refuses with status 3. HREG_REMOVE lets the region drain, and a draining region that holds no
extent is removed. An extent of a host region whose frame is not in use moves to the place found for it. -/
def Obligations.HostRegions : Prop :=
  ∀ (s : State) (r base units : Nat), s.running = true → r = fld s 0x60080 9 0 →
    base = rd s 0x60084 + 4294967296 * rd s 0x60088 → units = fld s 0x6008C 9 0 →
    (Reaches s 0x60090 →
      (base % 2097152 = 0 → 0 < units → units ≤ 512 → s.link.state = 3 → tabGet s.mem.regions r = none →
        (∀ e ∈ s.mem.regions, e.2.base + e.2.units ≤ base / 2097152 ∨ base / 2097152 + units ≤ e.2.base) →
        exec .hregAdd s = .next { s with mem := { s.mem with regions := tabSet s.mem.regions r { base := base / 2097152, units := units },
                                                             hregStatus := tabSet s.mem.hregStatus r 1 } }) ∧
      (base % 2097152 ≠ 0 ∨ units = 0 ∨ 512 < units ∨ s.link.state ≠ 3 ∨ (tabGet s.mem.regions r).isSome = true ∨
          (∃ e ∈ s.mem.regions, base / 2097152 < e.2.base + e.2.units ∧ e.2.base < base / 2097152 + units) →
        exec .hregAdd s = .next { s with mem := { s.mem with hregStatus := tabSet s.mem.hregStatus r 3 } }) ∧
      (∀ x : HostRegion, tabGet s.mem.regions r = some x → exec .hregRemove s = .next { s with mem := { s.mem with
        regions := tabSet s.mem.regions r { x with draining := true }, hregStatus := tabSet s.mem.hregStatus r 2 } })) ∧
    (∀ (n : Nat) (x : HostRegion), tabGet s.mem.regions n = some x → x.draining = true →
      usedGranules s (extKey (.host n 0 0)) 2097152 = [] → Gives (.regionDrained n) s fun t => tabGet t.mem.regions n = none ∧
        tabGet t.mem.hregStatus n = some 0 ∧ (∀ k : Nat, k ≠ n → tabGet t.mem.regions k = tabGet s.mem.regions k) ∧
        { t with mem := s.mem } = s) ∧
    (∀ (lpn k g len : Nat) (x : HostRegion) (l : Loc), (frameOf s lpn).loc = .host k g len →
      inStaging s lpn = false → (∀ j ∈ s.mem.codec, j.lpn ≠ lpn) → tabGet s.mem.regions k = some x →
      (if x.draining then (allocHost s len).or (allocLp s len) else allocLp s len) = some l →
      Gives (.extentMove lpn) s fun t => (frameOf t lpn).loc = l ∧ (frameOf t lpn).gen = (frameOf s lpn).gen ∧
        (∀ n : Nat, n ≠ lpn → frameOf t n = frameOf s n))

/-- A channel that may enter processor mode begins its entry; a burst without an item in progress ends: the channel leaves processor
mode with what it had not run still queued. A free token goes to the next waiting channel. A refresh of a channel that is not in memory
mode is postponed while the allowance permits, and closes the burst where it does not. After a reading of the temperatures no
stack's quota is above that of its temperature, and the thermal source says whether some stack has none. A quota raised after its
wait is one step higher. A CLONE whose channels are in memory mode copies the slot; one that meets a channel that computes stands in its
hold queue. A unit that fails is replaced by the channel's spare if that passes, else the channel is disabled. A sound frame of a
disabled channel moves to another channel with its handle; one that fails a check is poisoned and stays. -/
def Obligations.StacksAndChannels : Prop :=
  ∀ s : State, s.running = true →
    (∀ (st : Fin 12) (pc n : Nat), n = pcNum st.val pc →
      (mayEnter s st.val pc = true → Gives (.burstEntry st pc) s fun t =>
        (chanOf t n).mode = 1 ∧ (chanOf t n).modeEnd = now s + 4 ∧ (chanOf t n).queue = (chanOf s n).queue ∧
        (stackOf t st.val).bursts = (stackOf s st.val).bursts + 1 ∧ ∀ k : Nat, k ≠ n → chanOf t k = chanOf s k) ∧
      ((chanOf s n).mode = 2 → (chanOf s n).burst = [] → 4 ≤ pc → pc < 32 → Gives (.burstClose st pc) s fun t =>
        (chanOf t n).mode = 3 ∧ (chanOf t n).modeEnd = now s + 4 ∧ (chanOf t n).burst = [] ∧
        (chanOf t n).queue = (chanOf s n).queue ∧ (chanOf t n).hold = (chanOf s n).hold) ∧
      (pc < 32 → (chanOf s n).mode ≠ 0 → exec (.refreshDue st pc) s = .next (modChan s n fun c =>
        if c.postponed < refreshAllowance then { c with postponed := c.postponed + 1 } else { c with closing := true })) ∧
      (pc < 32 → (chanOf s n).mode = 0 → exec (.refreshDue st pc) s = .next s)) ∧
    (∀ (st : Fin 12) (u : State), u = reclaimTokens s st.val →
      ((stackOf u st.val).quota ≤ (stackOf u st.val).granted.length → exec (.tokenGrant st) s = .next u) ∧
      (∀ pc : Nat, (stackOf u st.val).granted.length < (stackOf u st.val).quota →
        ((List.range 28).map fun i => 4 + ((stackOf u st.val).lastGrant - 4 + 1 + i) % 28).find? (wantsToken u st.val) = some pc →
        Gives (.tokenGrant st) s fun t => (chanOf t (pcNum st.val pc)).token = true ∧
          (stackOf t st.val).granted = (stackOf u st.val).granted ++ [pc] ∧ (stackOf t st.val).lastGrant = pc)) ∧
    (∀ temps : List Nat, s.mem.tempSince + 10000 ≤ now s → Gives (.hbmTempRead temps) s fun t =>
      (∀ st < 12, (stackOf t st).temp = temps.getD st 0 ∧ (stackOf t st).quota ≤ tempQuota s (temps.getD st 0) ∧
        (stackOf t st).quota ≤ (stackOf s st).quota ∧ (stackOf t st).hot = decide (85 < temps.getD st 0)) ∧
      ((srcOf t 24).level = true ↔ ∃ st < 12, (stackOf t st).quota = 0)) ∧
    (∀ (st : Fin 12) (since : Nat), (stackOf s st.val).coolSince = some since → since + 100000 ≤ now s →
      Gives (.quotaRaise st) s fun t => (stackOf t st.val).quota = (nextQuota s (stackOf s st.val).quota).1 ∧
        ∀ k : Nat, k ≠ st.val → stackOf t k = stackOf s k) ∧
    (∀ (hot : List Bool) (temps : List Nat), s.mem.mr4Since + 10000 ≤ now s → Gives (.lpMr4Read hot temps) s fun t =>
      (∀ c < 8, (lpDev t c).hot = hot.getD c false ∧ (lpDev t c).refresh = temps.getD c 0) ∧ (srcOf t 28).level = hot.contains true) ∧
    (∀ (st : Fin 12) (a i b j : Nat) (errs : List WordErr) (src dst : Loc), src = .hbm st.val a i → dst = .hbm st.val b j →
      4 ≤ a → a < 32 → i < slotsPerPc → 4 ≤ b → b < 32 → j < slotsPerPc →
      (∀ l : Nat, frameAt s src = some l → (frameOf s l).inFlux = false) → locWaits s src = false → locWaits s dst = false →
      (locHeld s src = false → locHeld s dst = false →
        exec (.clone st a i b j errs) s = .next (cloneSlot s src dst errs) ∧
        (frameAt s src = none → slotVirgin s src = false →
          exec (.clone st a i b j errs) s = .next (slotFill s dst (slotImage s src)))) ∧
      (locHeld s src = true → locHeld s dst = false →
        exec (.clone st a i b j errs) s = .next (holdAt s src (.clone st.val a i b j errs) 0))) ∧
    (∀ (st : Fin 12) (pc unit n : Nat), 4 ≤ pc → pc < 32 → unit < 32 → n = pcNum st.val pc → (chanOf s n).disabled = false →
      ((chanOf s n).spareActive = false → (chanOf s n).spareFail = false → Gives (.mashUnitFail st pc unit false true) s fun t =>
        (chanOf t n).spareActive = true ∧ (chanOf t n).spareTarget = unit ∧ (chanOf t n).disabled = false) ∧
      Gives (.mashUnitFail st pc unit false false) s (fun t => (chanOf t n).disabled = true ∧ (chanOf t n).spareFail = true ∨
        (chanOf t n).disabled = true ∧ (chanOf s n).spareActive = true) ∧
      ∀ spareOk : Bool, Gives (.mashUnitFail st pc unit true spareOk) s fun t => (chanOf t n).disabled = true) ∧
    (∀ (lpn st pc n : Nat) (errs : List WordErr) (crcBad bad crc inj : Bool) (u v : State), lpn ∈ s.mem.moves →
      (frameOf s lpn).inFlux = false → locWaits s (.hbm st pc n) = false → locHeld s (.hbm st pc n) = false →
      slotOf (frameOf s lpn) = .hbm st pc n → checkWords s 1 lpn errs = (bad, u) →
      checkFails u 3 (pcNum st pc) (crcBad || crcWrong u lpn) = (crc, inj, v) →
      (bad = true → exec (.frameMove lpn errs crcBad) s =
        .next { u with mem := { u.mem with moves := u.mem.moves.filter (· != lpn) } }) ∧
      (bad = false → crc = true → Gives (.frameMove lpn errs crcBad) s fun t => (frameOf t lpn).poison = true ∧
        (frameOf t lpn).loc = (frameOf v lpn).loc ∧ lpn ∉ t.mem.moves) ∧
      (bad = false → crc = false → ∀ (l : Loc) (w : State),
        takeBare v ((sideOrder v lpn).filter fun e => e != (st, pc)) = some (l, w) → Gives (.frameMove lpn errs crcBad) s fun t =>
        frameOf t lpn = (if (frameOf w lpn).staged then { frameOf w lpn with alt := l } else { frameOf w lpn with loc := l }) ∧
        lpn ∉ t.mem.moves ∧ ∀ k : Nat, k ≠ lpn → frameOf t k = frameOf w k))

/-- A tile that fails while its quadrant's spare is free and passes is replaced by it and serves on; another one is out of service. A
backward chain is formed of the first four tiles in service that backward visits can use; after 10,000 ticks without one every
backward chain's tiles go back; where forward visits wait and no forward chain is free, the highest backward chain is dissolved. -/
def Obligations.TilesAndChains : Prop :=
  ∀ s : State, s.running = true →
    (∀ (n : Fin 64) (phys : Nat), (tileOf s n.val).state ≠ 2 →
      ((quadOf s (n.val / 16)).spareFree = true → Gives (.tileFail n phys true) s fun t => (tileOf t n.val).state = 0 ∧
        (tileOf t n.val).spared = true ∧ (quadOf t (n.val / 16)).spareFree = false ∧ (quadOf t (n.val / 16)).spareTarget = n.val) ∧
      (∀ ok : Bool, ok = false ∨ (quadOf s (n.val / 16)).spareFree = false → Gives (.tileFail n phys ok) s fun t =>
        (tileOf t n.val).state = 2 ∧ (quadOf t (n.val / 16)).spareFree = false ∧
        ∀ k ∈ (quadOf t (n.val / 16)).bwd, n.val ∉ bwdTiles (n.val / 16) k)) ∧
    (∀ (q : Fin 4) (k : Nat), waitingTiles s q.val true ≠ [] →
      (List.range (pBwdMax s)).find? (fun k => !(quadOf s q.val).bwd.contains k && tilesLive s (bwdTiles q.val k) &&
        !((quadOf s q.val).returned.any fun r =>
          r.1 == k && !((waitingTiles s q.val false).isEmpty && elapsed s r.2 10000))) = some k →
      exec (.bwdChainForm q) s = .next (modQuad s q.val fun x =>
        { x with bwd := x.bwd ++ [k], bwdIdle := none, returned := x.returned.filter fun r => r.1 != k })) ∧
    (∀ (q : Fin 4) (since : Nat), (quadOf s q.val).bwdIdle = some since → waitingTiles s q.val true = [] → since + 10000 ≤ now s →
      exec (.bwdChainIdle q) s = .next (modQuad s q.val fun x => { x with bwd := [], bwdIdle := none })) ∧
    (∀ (q : Fin 4) (k : Nat), fwdFree s q.val = [] → waitingTiles s q.val false ≠ [] → (quadOf s q.val).bwd.max? = some k →
      exec (.fwdChainReturn q) s = .next (modQuad s q.val fun x =>
        { x with bwd := x.bwd.filter (· != k), returned := (k, now s) :: x.returned }))

/-- A frame that arrives on an up sub-port carries the packet that its bytes name, or is dropped. A packet whose frame or header
fails a check, and one of a lost context, is dropped; one whose context is not cached waits for its fetch. Of a cached association
one outside the current and the next roll is dropped, one whose tag, key or peer fails is dropped and raises its source; of the rest a
DATA packet has its ACK fields applied and is received as its TSN says, and an ACK packet newer than the last one is counted and its
ACK fields are applied, after which no packet that they acknowledge is in flight. A retransmission timer that expires resends its
packet with TRY + 1, or after the last try rolls the direction, which leaves nothing in flight and counts TSNs from 0 again. An
acknowledgement owed for its time is sent. A message at the head of its queue is cut into packets; where its context is not cached its
fetch starts, and a fetch that has completed lets the packets that waited for it go on. PCTX_SET registers a valid region once. An
ACK goes ahead of every class. -/
def Obligations.Transport : Prop :=
  ∀ s : State, s.running = true →
    (∀ f : RxFrame, isUp s f.port f.sub = true →
      (packetOf s f = none → exec (.dataPacket f) s = .next (modFab s f.port fun x => { x with dropOther := x.dropOther + 1 }) ∧
        exec (.ackPacket f) s = .next (modFab s f.port fun x => { x with dropOther := x.dropOther + 1 })) ∧
      (∀ (p : Packet) (run : Instr), packetOf s f = some p → run = (if p.type = 1 then .ackPacket f else .dataPacket f) →
        (p.frameOk = false ∨ headerOk s p = false → exec run s = .next (dropOther s p)) ∧
        (p.frameOk = true → headerOk s p = true →
          (ctxOf s (assocOf p) = none → backingFree s (assocOf p) = false → exec run s = .next (dropOther s p)) ∧
          (ctxOf s (assocOf p) = none → backingFree s (assocOf p) = true →
            (∀ u : State, newCtx s (assocOf p) = some u → exec run s = .next (receiveCached u p)) ∧
            (newCtx s (assocOf p) = none → exec run s = .next (missJoin s p))) ∧
          (∀ c : PeerCtx, ctxOf s (assocOf p) = some c →
            (c.lost = true → exec run s = .next (dropOther s p)) ∧
            (c.lost = false → c.cached = false → exec run s = .next (missJoin s p)) ∧
            (c.lost = false → c.cached = true →
              (p.roll ≠ c.rxRoll % 16 → p.roll ≠ (c.rxRoll + 1) % 16 → exec run s = .next (dropWindow s p)) ∧
              (p.roll = c.rxRoll % 16 ∨ p.roll = (c.rxRoll + 1) % 16 → s.fault.inj.status ≠ 1 →
                (p.tagOk = false ∨ genKnown s (assocOf p) p.keygen = false ∨ peerAllowed s (assocOf p) = false →
                  exec run s = .next (raise (modFab s p.port fun x => { x with dropAuth := x.dropAuth + 1 })
                    { source := 14, unit := { kind := 6, num := p.port } })) ∧
                (p.tagOk = true → genKnown s (assocOf p) p.keygen = true → peerAllowed s (assocOf p) = true →
                  (p.type = 0 → exec run s = .next (receiveData
                    (applyAck (adoptRoll (heard s (assocOf p)) (assocOf p) p) (assocOf p) p) (assocOf p) p)) ∧
                  (p.type = 1 → p.roll = c.rxRoll % 16 → (∀ n : Nat, c.ackSeqRx = some n → n < p.tsn) →
                    Gives (.ackPacket f) s fun t => (fabPort t p.port).rx = (fabPort s p.port).rx + 1 ∧
                    (p.ackv = true → p.ackRoll = c.txRoll % 16 → ∃ c' : PeerCtx, ctxOf t (assocOf p) = some c' ∧
                      c'.txCredit = p.credit % 4294967296 ∧ ∀ x ∈ c'.flight, acks p x.tsn = false))))))))) ∧
    (∀ (a : AssocKey) (c : PeerCtx), ctxOf s a = some c →
      (∀ f : TxPacket, c.flight.find? (fun x => x.tsn == f.tsn) = some f → f.since + f.rto ≤ now s →
        (f.try_ < pRetryMax s → exec (.retransmitTimeout a f.tsn) s = .next (resend s a f.tsn)) ∧
        (pRetryMax s ≤ f.try_ → Gives (.retransmitTimeout a f.tsn) s fun t => ∃ c' : PeerCtx, ctxOf t a = some c' ∧
          c'.flight = [] ∧ c'.txNext = 0 ∧ c'.txRoll = (c.txRoll + 1) % 4294967296)) ∧
      (∀ t : Nat, c.ackOwed = some t → t + pAckCoalesce s ≤ now s → exec (.ackCoalesceExpiry a) s = .next (sendAck s a false)) ∧
      (∀ (m : TxMsg) (rest : List TxMsg), c.lost = false → c.txQueue = m :: rest →
        (c.cached = false → exec (.messageSend a) s = .next (startFetch s a)) ∧
        (c.cached = true → m.sent ≠ 0 ∨ c.txNext + packetCount s (m.bytes.length - m.sent) ≤ 2 ^ 48 - 4096 →
          exec (.messageSend a) s = .next (iter (cutOne a) (packetCount s (m.bytes.length - m.sent)) s)) ∧
        (c.cached = true → m.sent = 0 → 2 ^ 48 - 4096 < c.txNext + packetCount s m.bytes.length → c.flight = [] →
          exec (.messageSend a) s = .next (iter (cutOne a) (packetCount s m.bytes.length) (rollDirection s a)))) ∧
      (c.fetching = true → (∀ m ∈ s.link.memRds, m.why ≠ .context a) → exec (.contextFetchDone a) s = .next (missRun
        (modCtx s a fun c => { c with fetching := false, cached := true, backed := true, used := now s }) a))) ∧
    (Reaches s 0x2003C → s.net.pctx ≠ 1 → s.net.pctx ≠ 3 →
      (1 ≤ fld s 0x20038 8 0 ∧ fld s 0x20038 8 0 ≤ 256 ∧ (rd s 0x20030 + 4294967296 * rd s 0x20034) % 2097152 = 0 ∧
        (∀ c ∈ s.net.ctxs, c.key.sys = true) → exec .pctxSet s = .next { s with net := { s.net with
          pctx := 1, pctxBase := rd s 0x20030 + 4294967296 * rd s 0x20034, pctxSize := 4096 * fld s 0x20038 8 0 } }) ∧
      (fld s 0x20038 8 0 = 0 ∨ 256 < fld s 0x20038 8 0 ∨ (rd s 0x20030 + 4294967296 * rd s 0x20034) % 2097152 ≠ 0 ∨
        (∃ c ∈ s.net.ctxs, c.key.sys = false) → exec .pctxSet s = .next { s with net := { s.net with pctx := 2 } })) ∧
    (∀ (p : Fin 12) (b : Fin 4), isUp s p.val b.val = true →
      (∀ (i : EgItem) (rest : List EgItem), (subOf s p.val b.val).acks = i :: rest → exec (.egressSelect p b) s =
        .next (sendFrame (modSub s p.val b.val fun y => { y with acks := rest, busyAt := now s }) (p.val, b.val) i)) ∧
      (∀ (c : Nat) (r : Drr) (i : EgItem) (rest : List EgItem) (u : State), (subOf s p.val b.val).acks = [] →
        drrNext (egAsk s p.val (subOf s p.val b.val)) (subDrr (subOf s p.val b.val)) = (some c, r) →
        tabGetD (subOf s p.val b.val).queues c [] = i :: rest → u = (modSub s p.val b.val fun y => withDrr { y with
          queues := tabSet y.queues c rest, busyAt := now s } (drrTake r c i.len rest.isEmpty)) →
        (i.sampled = false → exec (.egressSelect p b) s = .next (sendFrame u (p.val, b.val) i)) ∧
        (i.sampled = true → exec (.egressSelect p b) s = .next (sendFrame (traceSample
          (histAdd u true true 0 (32 * p.val + 8 * b.val + c) (now s - i.ready)) (32 * p.val + 8 * b.val + c) rest.length
          (now s - i.ready)) (p.val, b.val) i))))

/-- A sub-port of the port's mode none of whose lanes is down and whose port has no failed cipher comes up, another stays down, and one
goes down when it is told so. The first
lane of a port that fails moves to the port's spare, and every further one stays down; its sub-port goes down in both cases. A PFC
frame pauses an enabled PCP for its quanta, or with quanta 0 resumes it, and the pause ends by itself after its time. A PAUSE
frame is counted and nothing else. A die with less than 8 MiB of buffer free sends XOFF, repeats it, and sends quanta 0 once 16 MiB are
free. -/
def Obligations.PortsAndPauses : Prop :=
  ∀ s : State, s.running = true →
    (∀ (p : Fin 12) (b : Fin 4), b.val < subCount (pPortMode s p.val) →
      exec (.subportUpDown p b false) s = .next (modSub s p.val b.val fun x => { x with up := false }) ∧
      ((∀ l ∈ (fabPort s p.val).downLanes, l ∉ subLanes (pPortMode s p.val) b.val) →
        (∀ n ∈ s.fault.ciphers, n < 24 → n / 2 ≠ p.val) →
        exec (.subportUpDown p b true) s = .next (modSub s p.val b.val fun x => { x with up := true })) ∧
      ((∃ l ∈ (fabPort s p.val).downLanes, l ∈ subLanes (pPortMode s p.val) b.val) ∨
        (∃ n ∈ s.fault.ciphers, n < 24 ∧ n / 2 = p.val) → exec (.subportUpDown p b true) s = .next s)) ∧
    (∀ (p : Fin 12) (lane : Fin 8) (n : Nat), n = subCount (pPortMode s p.val) → n ≠ 0 → Gives (.laneSpareMove p lane) s fun t =>
      (subOf t p.val (lane.val / (8 / n))).up = false ∧
      ((fabPort s p.val).spareUsed = false → (fabPort t p.val).spareUsed = true ∧ (fabPort t p.val).spareLane = lane.val) ∧
      ((fabPort s p.val).spareUsed = true → lane.val ∈ (fabPort t p.val).downLanes) ∧
      (∀ q : Nat, q ≠ p.val → fabPort t q = fabPort s q)) ∧
    (∀ (p : Fin 12) (b : Fin 4) (frame : List (Nat × Nat)), isUp s p.val b.val = true → (frame.map Prod.fst).Nodup →
      Gives (.pfcFrame p b frame) s fun t => (fabPort t p.val).pauseRx = (fabPort s p.val).pauseRx + 1 ∧
        (∀ e ∈ frame, e.1 ∈ pfcPcps s → tabGet (subOf t p.val b.val).paused e.1 = (if e.2 = 0 then none else some e.2)) ∧
        ∀ k : Nat, k ∉ pfcPcps s ∨ k ∉ frame.map Prod.fst →
          tabGet (subOf t p.val b.val).paused k = tabGet (subOf s p.val b.val).paused k) ∧
    (∀ (p : Fin 12) (b : Fin 4) (pcp : Fin 8) (q : Nat), tabGet (subOf s p.val b.val).paused pcp.val = some q →
      tabGetD (subOf s p.val b.val).pausedAt pcp.val 0 + quantaTicks (pPortMode s p.val) q ≤ now s →
      Gives (.pfcPauseExpiry p b pcp) s fun t => tabGet (subOf t p.val b.val).paused pcp.val = none) ∧
    (∀ p : Fin 12, pPortMode s p.val ≠ 0 →
      exec (.pauseFrame p) s = .next (modFab s p.val fun x => { x with pauseRx := x.pauseRx + 1 })) ∧
    (∀ die : Fin 2, pfcPcps s ≠ [] →
      (tabGet s.net.xoff die.val = none → bufferFree s die.val < 8388608 → exec (.bufferXoff die) s =
        .next (pfcSend { s with net := { s.net with xoff := tabSet s.net.xoff die.val (now s) } } die.val 65535)) ∧
      (∀ t : Nat, tabGet s.net.xoff die.val = some t → 16777216 ≤ bufferFree s die.val → exec (.bufferXoff die) s =
        .next (pfcSend { s with net := { s.net with xoff := tabDel s.net.xoff die.val } } die.val 0)) ∧
      (∀ t : Nat, tabGet s.net.xoff die.val = some t → bufferFree s die.val < 8388608 → t + xoffInterval s die.val ≤ now s →
        exec (.xoffRepeat die) s =
          .next (pfcSend { s with net := { s.net with xoff := tabSet s.net.xoff die.val (now s) } } die.val 65535)))

/-- A map from a COMPOSER adapter is judged and acknowledged; one that passes every check of R325 becomes the installed map and its epoch the last installed; the
lease runs anew where the map lists the node ACTIVE and no fence stands, and where it does not list it ACTIVE the node is fenced. The
end of the grace window forgets the map before it. A renewal by a COMPOSER of the installed epoch restarts a running lease; a lease
that runs out fences the node. A heartbeat counts as hearing its peer. A firing of the detector judges every watched peer, and the
next is one period later. -/
def Obligations.MapsAndLeases : Prop :=
  ∀ s : State, s.running = true →
    (∀ (m : Inbound) (u : State), u = takeDelivery s m → m.sys = true → isComposer u m.src = true → exec (.map m) s =
      .next (sendControl (installMap u (m.bytes.drop 8)).1 m.src (mapAckMsg (fieldLe (m.bytes.drop 8) 8 4)
        (epochOf (installMap u (m.bytes.drop 8)).1) (installMap u (m.bytes.drop 8)).2))) ∧
    (∀ (m : Inbound) (u : State) (f : FMap), u = takeDelivery s m → m.sys = true → isComposer u m.src = true →
      (u.fault.fenced = false ∨ u.fault.cause ≠ 7) → parseMap (m.bytes.drop 8) = some f →
      (∀ x : FMap, u.comp.map = some x → x.epoch ≠ f.epoch) → judgeMap u f = 0 → Gives (.map m) s fun t =>
        t.comp.map = some f ∧ t.comp.lastEpoch = f.epoch ∧
        ((nodeEntry f f.node).any (fun e => e.state == 1) = true → t.fault.fenced = false → t.comp.leaseSince = some (now s)) ∧
        ((nodeEntry f f.node).any (fun e => e.state == 1) = false → t.fault.fenced = true ∧ t.comp.leaseSince = none)) ∧
    (∀ old : FMap, s.comp.prevMap = some old → s.comp.graceSince + pGrace s ≤ now s → Gives .graceEnd s fun t =>
      t.comp.prevMap = none ∧ t.comp.oldEpoch = none ∧ t.comp.map = s.comp.map) ∧
    (∀ (src : Endpoint) (f : FMap) (t : Nat), isComposer (takeKind s src 0x12) src = true → s.comp.map = some f →
      s.comp.leaseSince = some t → exec (.renew src f.epoch) s =
        .next { takeKind s src 0x12 with comp := { s.comp with leaseSince := some (now s) } }) ∧
    (∀ t : Nat, s.comp.leaseSince = some t → t + pLease s ≤ now s → Gives .leaseExpiry s fun t =>
      t.fault.fenced = true ∧ t.comp.leaseSince = none) ∧
    (∀ n epoch : Nat, Gives (.heartbeat (.node n) epoch) s fun t => (∀ w ∈ t.comp.watch, w.node = n → w.heard = true) ∧
      t.comp.watch.length = s.comp.watch.length) ∧
    (pDetEn s = true → s.comp.detNext ≤ now s → exec .detectorFiring s = .next (foldState detectOne
      { s with comp := { s.comp with detNext := s.comp.detNext + pHbPeriod s } } s.comp.watch))

/-- A CHAIN from a node that stands before this one, of a tenant that is present and under a generation that the node holds, enters
admission unless a command of its sequence is held already; then, and under a generation that it does not hold, it is held. One
from a node that does not stand before this one is answered STALE_MAP, one of a tenant that is not present KEY_RETIRED. A held command
whose key has come runs again at its retry. An acknowledgement of a successor, of whatever status, is noted and completes the command once every
successor has acknowledged. A CHAIN unacknowledged for its timeout is reported as stuck once, and is sent again. -/
def Obligations.Chains : Prop :=
  ∀ s : State, s.running = true →
    (∀ (m : Inbound) (u : State) (p : Nat) (c : Command), u = takeDelivery s m → m.src = .node p → chainedCommand m p = some c →
      m.sys = true → u.fault.fenced = false →
      (ackStatus u c p .ok ≠ .ok → exec (.chain m) s =
        .next (sendControl u m.src (chainAckMsg c.src.num (epochOf u) c.desc.reqId .staleMap))) ∧
      (ackStatus u c p .ok = .ok → (tenantOf u c.desc.seq.id.tenant).state ≠ 1 → exec (.chain m) s =
        .next (sendControl u m.src (chainAckMsg c.src.num (epochOf u) c.desc.reqId .keyRetired))) ∧
      (ackStatus u c p .ok = .ok → (tenantOf u c.desc.seq.id.tenant).state = 1 →
        (holdsGen u c.desc.seq.id.tenant c.keygen = true → (∀ h ∈ u.comp.heldChains, h.cmd.desc.seq.id ≠ c.desc.seq.id) →
          exec (.chain m) s = .next (drainQueues { u with comp := { u.comp with chainStore := u.comp.chainStore ++ [c] } })) ∧
        (holdsGen u c.desc.seq.id.tenant c.keygen = false ∨ (∃ h ∈ u.comp.heldChains, h.cmd.desc.seq.id = c.desc.seq.id) →
          exec (.chain m) s = .next { u with comp := { u.comp with
            heldChains := u.comp.heldChains ++ [{ cmd := c, since := now u }] } }))) ∧
    (∀ h : HeldChain, s.comp.heldChains.find? (fun x => cmdKey x.cmd == cmdKey h.cmd) = some h → s.fault.fenced = false →
      s.comp.heldChains.find? (fun x => x.cmd.desc.seq.id == h.cmd.desc.seq.id) = some h →
      holdsGen s h.cmd.desc.seq.id.tenant h.cmd.keygen = true → ∀ u : State, u = { s with comp := { s.comp with
        heldChains := s.comp.heldChains.filter fun x => cmdKey x.cmd != cmdKey h.cmd } } →
      exec (.chainRetry (cmdKey h.cmd)) s = .next (if (liveOf u (cmdKey h.cmd)).isSome then
        modLive u (cmdKey h.cmd) fun l => { l with since := now s } else chainEnter u h.cmd)) ∧
    (∀ (n epoch : Nat) (st : Status) (w w1 : ChainWait) (u : State), u = takeKind s (.node n) 0x16 →
      u.comp.waits.find? (fun x => x.key == w.key) = some w →
      w1 = { w with legs := w.legs.map fun l => if l.node = n ∧ l.status = none ∧ epoch ≠ 0 then
        (if st = .staleMap then { l with retry := true }
         else { l with status := some (if st = .dup then .ok else st), retry := false }) else l } →
      exec (.chainAck (.node n) w.key.src w.key.reqId epoch st) s = .next (settleWait (putWait u w1) w1)) ∧
    (∀ (w : ChainWait) (l : ChainLeg) (w1 : ChainWait), s.comp.waits.find? (fun x => x.key == w.key) = some w →
      w.legs.find? (fun x => x.status.isNone && !x.retry &&
        x.sentAt.any fun t => decide (t + pChainTimeout s ≤ now s)) = some l →
      w1 = { w with stuck := true, legs := w.legs.map fun x => if x.node = l.node then { x with sentAt := some (now s) } else x } →
      (w.stuck = true → exec (.chainTimeout w.key) s = .next (sendChain (putWait s w1) w.cmd l.node l.epoch)) ∧
      (w.stuck = false → Gives (.chainTimeout w.key) s fun t => (∃ e ∈ t.fault.events, e.source = 58) ∧
        ∃ u : State, t = sendChain (putWait u w1) w.cmd l.node l.epoch))

/-- COPY_NEXT, once COPY_RATE allows it and the node is not fenced, sends the next part of its copy, with any word errors of the frame
that it reads. An acknowledgement of the part that waits, under the installed epoch, lets the copy go on: after the BEGIN its
frames, after FRAMES what their status says, after the END it is done; STALE_MAP, and any other failed status of the BEGIN or the
END, starts the copy of the sequence again. At the joiner a BEGIN under the installed epoch from the node that the map names creates
or extends the sequence, takes its END values and is acknowledged OK; another is answered STALE_MAP, NOT_OWNER or NOPAGE. Frames are
installed in their order and acknowledged with the joiner's handles; the END of a copy ends it and is acknowledged. -/
def Obligations.CatchUpCopy : Prop :=
  ∀ s : State, s.running = true →
    (∀ (q : SeqId) (cell : Nat) (c : CopyOut) (errs : List WordErr), s.fault.fenced = false → s.comp.copyFree ≤ now s →
      s.comp.copies.find? (fun c => c.cell == cell && (c.current == some q || (c.current.isNone && c.todo.contains q))) = some c →
      exec (.copyNext q cell errs) s = .next (copyNext s c q errs)) ∧
    (∀ (n part epoch : Nat) (q : SeqId) (c : CopyOut) (st : Status) (hs : List PageHandle) (u : State), u = takeKind s (.node n) 0x18 →
      u.comp.copies.find? (fun c => some n == some c.joiner && c.current == some q && c.waitPart == some part) = some c →
      (u.fault.fenced = true ∨ epoch ≠ epochOf u → exec (.copyAck (.node n) part epoch q st hs) s = .next u) ∧
      (u.fault.fenced = false → epoch = epochOf u →
        (st = .staleMap ∨ (part ≠ 1 ∧ st ≠ .ok) → exec (.copyAck (.node n) part epoch q st hs) s = .next (copyAgain u c q)) ∧
        (part = 1 → st ≠ .staleMap → exec (.copyAck (.node n) part epoch q st hs) s = .next (framesAcked u c q st hs)) ∧
        (part = 0 → st = .ok → exec (.copyAck (.node n) part epoch q st hs) s = .next (putCopy u { c with waitPart := none })) ∧
        (1 < part → st = .ok → exec (.copyAck (.node n) part epoch q st hs) s = .next (copyEnded u c q)))) ∧
    (∀ (m : Inbound) (n : Nat) (u : State) (x : Seq) (heads : List Nat) (ack : State → Status → State), u = takeDelivery s m →
      m.src = .node n → m.sys = true → u.fault.fenced = false → x = parseSeq (slice m.bytes 0x20 1024) →
      ack = (fun w st => sendControl w m.src (copyAckMsg 0 (fieldLe m.bytes 0x0C 4) x.handle.num st [])) →
      heads = beginHeads u x.handle.id n (fieldLe m.bytes 0x18 4) x →
      (fieldLe m.bytes 0x0C 4 ≠ epochOf u → exec (.copyBegin m) s = .next (ack u .staleMap)) ∧
      (fieldLe m.bytes 0x0C 4 = epochOf u →
        (takesCopy u x.handle.id n = false ∨ (heads = [] ∧ fieldLe m.bytes 0x18 4 ≠ 0) →
          exec (.copyBegin m) s = .next (ack u .notOwner)) ∧
        (takesCopy u x.handle.id n = true → (heads = [] → fieldLe m.bytes 0x18 4 = 0) →
          (joinSeq u x.handle.id x (fieldLe m.bytes 0x28 1 == 3) = none → exec (.copyBegin m) s = .next (ack u .noPage)) ∧
          (∀ v w : State, joinSeq u x.handle.id x (fieldLe m.bytes 0x28 1 == 3) = some v →
            w = setEnds (clearHeads v x.handle.id heads) x.handle.id heads x.layers (m.bytes.drop 0x420) →
            exec (.copyBegin m) s = .next (ack { w with comp := { w.comp with
              copyIns := (w.comp.copyIns.filter fun i => i.seq != x.handle.id) ++
                [{ seq := x.handle.id, source := n, heads := x.localHeads }] } } .ok))))) ∧
    (∀ (n epoch num : Nat) (q : SeqId) (i : CopyIn) (u : State), u = takeKind s (.node n) 0x17 → u.fault.fenced = false →
      u.comp.copyIns.find? (fun i => i.seq == q && some n == some i.source) = some i →
      num = ((seqOf u q).map fun x => x.handle.num).getD (1048576 * q.num) →
      (∀ es : List CopyEntry,
        (epoch ≠ epochOf u → exec (.copyFrames (.node n) epoch q es) s =
          .next (sendControl u (.node n) (copyAckMsg 1 epoch num .staleMap []))) ∧
        (epoch = epochOf u → ∀ r : Status × List PageHandle × State,
          r = es.foldl (fun acc e => match acc.2.2.comp.copyIns.find? fun i => i.seq == q with
            | none => acc
            | some i => (acc.1.worse (copyInOne acc.2.2 i e).1, acc.2.1 ++ [((copyInOne acc.2.2 i e).2.1).getD {}],
                (copyInOne acc.2.2 i e).2.2)) (Status.ok, [], u) →
          exec (.copyFrames (.node n) epoch q es) s = .next (sendControl r.2.2 (.node n) (copyAckMsg 1 epoch num r.1 r.2.1)))) ∧
      (epoch ≠ epochOf u → exec (.copyEnd (.node n) epoch q) s =
        .next (sendControl u (.node n) (copyAckMsg 2 epoch num .staleMap []))) ∧
      (epoch = epochOf u → Gives (.copyEnd (.node n) epoch q) s fun t => ∀ i ∈ t.comp.copyIns, i.seq ≠ q))

/-- An operation of the installed epoch at a node of the tree. The arrival of a child is added to the barrier, which goes on once its
condition holds; the start from the parent passes to the children, and the release from the parent ends the barrier and falls
to the children. A broadcast from the parent passes to the children and is acted on: RENEW restarts a running lease, and a
soft reset waits for the children's arrivals. At the root a composer starts a barrier or a broadcast in the same way. -/
def Obligations.TreeOperations : Prop :=
  ∀ (s u : State) (m : FMap) (n opId arg : Nat), s.running = true → u = takeKind s (.node n) 0x1A → u.comp.map = some m →
    (treeNodes m).contains m.node = true →
    (u.comp.resetPending = none → ∀ b : Barrier,
      b = (u.comp.barriers.find? fun x => x.opId == opId).getD { treeEpoch := m.epoch, opId := opId, arg := arg, what := 1 } →
      ((treeChildren m).contains n = true → exec (.barrierArrive (.node n) m.epoch opId arg) s =
        .next (barrierTry u m { b with children := n :: b.children.filter (· != n) })) ∧
      ((treeChildren m).contains n = false → treeParent m = some n → exec (.barrierArrive (.node n) m.epoch opId arg) s =
        .next (barrierTry (toChildren u m (globalMsg 1 1 m.epoch opId arg)) m b))) ∧
    (∀ r : Barrier, u.comp.resetPending = some r → r.opId = opId → (treeChildren m).contains n = true →
      exec (.barrierArrive (.node n) m.epoch opId arg) s = .next (resetTry u m { r with children := n :: r.children })) ∧
    (∀ b : Barrier, u.comp.barriers.find? (fun x => x.opId == opId) = some b → treeParent m = some n →
      exec (.barrierRelease (.node n) m.epoch opId) s = .next (toChildren { u with comp := { u.comp with
        barriers := u.comp.barriers.filter fun x => x.opId != opId } } m (globalMsg 2 b.what m.epoch opId b.arg))) ∧
    (treeParent m = some n →
      exec (.broadcast (.node n) 1 m.epoch opId arg) s =
        .next (renewLease (toChildren u m (globalMsg 3 1 m.epoch opId arg)) arg) ∧
      ((toChildren u m (globalMsg 3 2 m.epoch opId arg)).comp.resetPending = none →
        exec (.broadcast (.node n) 2 m.epoch opId arg) s = .next (resetTry (toChildren u m (globalMsg 3 2 m.epoch opId arg)) m
          { treeEpoch := m.epoch, opId := opId, arg := arg, what := 2 }))) ∧
    (∀ (e : Nat) (v : State), v = takeKind s (.adapter e) 0x1A → v.comp.map = some m → isComposer v (.adapter e) = true →
      treeParent m = none →
      (v.comp.resetPending = none → ∀ b : Barrier,
        b = (v.comp.barriers.find? fun x => x.opId == opId).getD { treeEpoch := m.epoch, opId := opId, arg := arg, what := 1 } →
        exec (.barrierArrive (.adapter e) m.epoch opId arg) s =
          .next (barrierTry (toChildren v m (globalMsg 1 1 m.epoch opId arg)) m { b with starter := some (.adapter e) })) ∧
      exec (.broadcast (.adapter e) 1 m.epoch opId arg) s =
        .next (sendControl (renewLease (toChildren v m (globalMsg 3 1 m.epoch opId arg)) arg) (.adapter e)
          (globalMsg 2 1 m.epoch opId arg)) ∧
      ((toChildren v m (globalMsg 3 2 m.epoch opId arg)).comp.resetPending = none →
        exec (.broadcast (.adapter e) 2 m.epoch opId arg) s = .next (resetTry (toChildren v m (globalMsg 3 2 m.epoch opId arg)) m
          { treeEpoch := m.epoch, opId := opId, arg := arg, what := 2, starter := some (.adapter e) })))

/-- A STEP of the installed epoch that the node has not seen, in a node that is not fenced. TRANSFER_GUESTS re-keys the committed
objects of the named node one after another and completes at once where no ADOPT is awaited. ADOPT starts to write the object as the
node's own and is answered when that is decided. RELEASE_GUESTS releases every object of the named node and completes. A report
that an ADOPT has been answered takes its object from what its TRANSFER_GUESTS waits for, and the last one completes it. A STEP of
another epoch is answered STALE_MAP, and one seen before is answered as it was. -/
def Obligations.GuestSteps : Prop :=
  ∀ (s : State) (src : Endpoint) (epoch id arg : Nat) (u : State), s.running = true → u = takeKind s src 0x19 →
    u.fault.fenced = false →
    (epoch ≠ epochOf u → isComposer u src = true →
      exec (.transferGuests src epoch id arg) s = .next (stepAnswer u none id .staleMap) ∧
      exec (.releaseGuests src epoch id arg) s = .next (stepAnswer u none id .staleMap)) ∧
    (epoch = epochOf u → (∀ r ∈ u.comp.steps, r.epoch ≠ epoch ∨ r.stepId ≠ id) →
      (isComposer u src = true → ∀ r : List SeqId × Status × State,
        r = (u.mem.guests.filter fun g => g.origin == arg && g.committed).foldl (fun acc g =>
          (acc.1 ++ (transferOne epoch id acc.2.2 g).1.toList, acc.2.1.worse (transferOne epoch id acc.2.2 g).2.1,
            (transferOne epoch id acc.2.2 g).2.2)) ([], Status.ok, u) →
        (r.1 = [] → exec (.transferGuests src epoch id arg) s = .next (stepAnswer (putStep r.2.2
          { epoch := epoch, stepId := id, seq := none, action := 1, arg := arg, waiting := r.1, acc := r.2.1, status := some r.2.1 })
          none id r.2.1)) ∧
        (r.1 ≠ [] → exec (.transferGuests src epoch id arg) s = .next (putStep r.2.2
          { epoch := epoch, stepId := id, seq := none, action := 1, arg := arg, waiting := r.1, acc := r.2.1 }))) ∧
      (∀ (n : Nat) (q : SeqId) (object : List Byte) (r : Option Status × State), src = .node n → r = adoptObject u n q object →
        (∀ st : Status, r.1 = some st → exec (.adopt src epoch id q object) s = .next (stepAnswer (putStep r.2
          { epoch := epoch, stepId := id, seq := some q, action := 2, arg := n, status := some st }) (some n) id st)) ∧
        (r.1 = none → exec (.adopt src epoch id q object) s = .next (putStep r.2
          { epoch := epoch, stepId := id, seq := some q, action := 2, arg := n, status := none }))) ∧
      (isComposer u src = true → Gives (.releaseGuests src epoch id arg) s fun t =>
        (∀ g ∈ t.mem.guests, g.origin ≠ arg) ∧ (∀ g ∈ s.mem.guests, g.origin ≠ arg → g ∈ t.mem.guests))) ∧
    (∀ (r : StepRec) (st : Status), isComposer u src = true → u.comp.steps.find? (fun r => r.epoch == epochOf u && r.stepId == id &&
        r.seq == none && r.action == 3) = some r → r.status = some st →
      exec (.releaseGuests src (epochOf u) id arg) s = .next (stepAnswer u none id st)) ∧
    (∀ (n : Nat) (status : Status) (r r1 : StepRec) (q : SeqId) (v : State), v = takeKind s (.node n) 0x14 →
      v.comp.steps.find? (fun r => r.stepId == id && r.action == 1 && r.status.isNone && r.epoch == epochOf v) = some r →
      r.waiting.find? (fun q => (guestOf v n q).isSome) = some q →
      r1 = { r with waiting := r.waiting.filter (· != q), acc := r.acc.worse status } →
      (r1.waiting = [] → exec (.stepDoneReport (.node n) id status) s =
        .next (stepAnswer (putStep v { r1 with status := some r1.acc }) none id r1.acc)) ∧
      (r1.waiting ≠ [] → exec (.stepDoneReport (.node n) id status) s = .next (putStep v r1)))
end

