-- ==== Sys2Proof/Laws/Table.lean ====
section
/-!
SUPPORT. Laws/Table.lean: the laws of the byte memory, the tables and the byte strings: a write keeps the canonical form, a
read after a write, and numbers through bytes and back.
-/

namespace Sys2Proof.Machine

set_option Elab.async false

/-- The canonical form, as rising addresses and no default byte. -/
theorem memWf_iff (d : Byte) (m : Mem) :
    memWf d m = true ↔ m.Pairwise (fun x y => x.1 < y.1) ∧ ∀ x ∈ m, x.2 ≠ d := by
  induction m with
  | nil => simp [memWf]
  | cons c m ih =>
    obtain ⟨i, b⟩ := c
    cases m with
    | nil => simp [memWf]
    | cons e m =>
      obtain ⟨j, b'⟩ := e
      simp only [memWf, Bool.and_eq_true, decide_eq_true_eq, ih]
      constructor
      · rintro ⟨⟨hb, hij⟩, hp, hn⟩
        refine ⟨List.pairwise_cons.2 ⟨?_, hp⟩, ?_⟩
        · intro x hx
          rcases List.mem_cons.1 hx with rfl | hx
          · exact hij
          · exact hij.trans ((List.pairwise_cons.1 hp).1 x hx)
        · intro x hx
          rcases List.mem_cons.1 hx with rfl | hx
          · exact hb
          · exact hn x hx
      · rintro ⟨hp, hn⟩
        have h := List.pairwise_cons.1 hp
        exact ⟨⟨hn (i, b) (by simp), h.1 (j, b') (by simp)⟩, h.2, fun x hx => hn x (List.mem_cons_of_mem _ hx)⟩

/-- Every address that a write leaves listed was listed, or is the written one. -/
theorem mem_memWrite (d : Byte) (m : Mem) (a : Nat) (b : Byte) (x : Host.Cell) (h : x ∈ memWrite d m a b) :
    x ∈ m ∨ (x = (a, b) ∧ b ≠ d) := by
  induction m with
  | nil =>
    unfold memWrite at h
    split at h
    · simp at h
    · simp only [List.mem_singleton] at h; exact .inr ⟨h, ‹_›⟩
  | cons c m ih =>
    obtain ⟨i, e⟩ := c
    unfold memWrite at h
    split at h
    · split at h
      · exact .inl h
      · rcases List.mem_cons.1 h with rfl | h
        · exact .inr ⟨rfl, ‹_›⟩
        · exact .inl h
    · split at h
      · split at h
        · exact .inl (List.mem_cons_of_mem _ h)
        · rcases List.mem_cons.1 h with rfl | h
          · exact .inr ⟨rfl, ‹_›⟩
          · exact .inl (List.mem_cons_of_mem _ h)
      · rcases List.mem_cons.1 h with rfl | h
        · exact .inl (by simp)
        · rcases ih h with h | h
          · exact .inl (List.mem_cons_of_mem _ h)
          · exact .inr h

/-- A write keeps the canonical form. -/
theorem memWrite_wf {d : Byte} {m : Mem} (a : Nat) (b : Byte) (h : memWf d m = true) : memWf d (memWrite d m a b) = true := by
  rw [memWf_iff] at h ⊢
  refine ⟨?_, fun x hx => ?_⟩
  · induction m with
    | nil => unfold memWrite; split <;> simp
    | cons c m ih =>
      obtain ⟨i, e⟩ := c
      have hp := List.pairwise_cons.1 h.1
      unfold memWrite
      split
      · split
        · exact h.1
        · refine List.pairwise_cons.2 ⟨fun x hx => ?_, h.1⟩
          rcases List.mem_cons.1 hx with rfl | hx
          · assumption
          · have h1 := hp.1 x hx
            simp only at h1 ⊢; omega
      · split
        · split
          · exact hp.2
          · refine List.pairwise_cons.2 ⟨fun x hx => ?_, hp.2⟩
            have h1 := hp.1 x hx
            simp only at h1 ⊢; omega
        · refine List.pairwise_cons.2 ⟨fun x hx => ?_, ih ⟨hp.2, fun x hx => h.2 x (by simp [hx])⟩⟩
          rcases mem_memWrite d m a b x hx with hx | ⟨rfl, _⟩
          · exact hp.1 x hx
          · simp only; omega
  · rcases mem_memWrite d m a b x hx with hx | ⟨rfl, hb⟩
    · exact h.2 x hx
    · exact hb

theorem memWriteN_wf {d : Byte} (bs : List Byte) : ∀ {m : Mem} (a : Nat), memWf d m = true → memWf d (memWriteN d m a bs) = true := by
  induction bs with
  | nil => exact fun _ h => h
  | cons b bs ih => exact fun a h => ih (a + 1) (memWrite_wf a b h)

theorem memClear_wf {d : Byte} {m : Mem} (a n : Nat) (h : memWf d m = true) : memWf d (memClear m a n) = true := by
  rw [memWf_iff] at h ⊢
  exact ⟨h.1.filter _, fun x hx => h.2 x (List.mem_of_mem_filter hx)⟩

/-- Writing a whole image keeps the canonical form. -/
theorem memImage_wf {d : Byte} {b : Nat} (img : Mem) : ∀ {m : Mem}, memWf d m = true →
    memWf d (foldState (fun m c => memWrite d m (b + c.1) c.2) m img) = true := by
  induction img with
  | nil => exact fun h => h
  | cons c img ih => exact fun h => ih (memWrite_wf _ _ h)

/-- An address below every listed one reads the default. -/
theorem memRead_below {d : Byte} {m : Mem} {a : Nat} (h : ∀ x ∈ m, a < x.1) : memRead d m a = d := by
  induction m with
  | nil => rfl
  | cons c m ih =>
    obtain ⟨i, b⟩ := c
    have h1 : a < i := h (i, b) (by simp)
    rw [memRead, if_neg (by omega)]
    exact ih fun x hx => h x (by simp [hx])

/-- A read after a write of a canonical memory: the byte written, and every other byte as before. -/
theorem memRead_memWrite {d : Byte} {m : Mem} (a : Nat) (b : Byte) (k : Nat) (h : memWf d m = true) :
    memRead d (memWrite d m a b) k = if k = a then b else memRead d m k := by
  rw [memWf_iff] at h
  induction m with
  | nil =>
    unfold memWrite
    by_cases hk : k = a
    · subst hk; split <;> simp_all [memRead]
    · split <;> simp_all [memRead, Ne.symm hk]
  | cons c m ih =>
    obtain ⟨i, e⟩ := c
    have hp := List.pairwise_cons.1 h.1
    have low : memRead d m i = d := memRead_below hp.1
    have ih := ih ⟨hp.2, fun x hx => h.2 x (by simp [hx])⟩
    unfold memWrite
    split
    · have hb : memRead d ((i, e) :: m) a = d := by
        refine memRead_below fun x hx => ?_
        rcases List.mem_cons.1 hx with rfl | hx
        · assumption
        · have := hp.1 x hx; simp only at this; omega
      split
      · split
        · subst_vars; exact hb
        · rfl
      · rw [memRead]; by_cases hk : k = a
        · subst hk; simp
        · rw [if_neg (Ne.symm hk), if_neg hk]
    · split
      · have hai : a = i := ‹_›
        subst hai
        split
        · by_cases hk : k = a
          · subst hk; rw [if_pos rfl, low]; exact (‹b = d›).symm
          · rw [if_neg hk, memRead, if_neg (Ne.symm hk)]
        · by_cases hk : k = a
          · subst hk; simp [memRead]
          · rw [if_neg hk, memRead, memRead, if_neg (Ne.symm hk), if_neg (Ne.symm hk)]
      · by_cases hki : i = k
        · subst hki
          rw [memRead, if_pos rfl, memRead, if_pos rfl, if_neg (by omega)]
        · rw [memRead, if_neg hki, ih, memRead, if_neg hki]

/-- A listed entry of a table after a write. -/
theorem tabGet_tabSet {β : Type} (t : Tab β) (k : Nat) (v : β) (j : Nat) :
    tabGet (tabSet t k v) j = if j = k then some v else tabGet t j := by
  induction t with
  | nil => by_cases hj : j = k
           · subst hj; simp [tabSet, tabGet]
           · simp [tabSet, tabGet, hj, Ne.symm hj]
  | cons c t ih =>
    obtain ⟨i, w⟩ := c
    unfold tabSet
    split
    · by_cases hj : j = k
      · subst hj; simp [tabGet]
      · rw [tabGet, if_neg (Ne.symm hj), if_neg hj]
    · split
      · subst_vars
        by_cases hj : j = i
        · subst hj; simp [tabGet]
        · rw [if_neg hj, tabGet, tabGet, if_neg (Ne.symm hj), if_neg (Ne.symm hj)]
      · by_cases hj : i = j
        · subst hj; rw [tabGet, if_pos rfl, if_neg (Ne.symm ‹_›), tabGet, if_pos rfl]
        · rw [tabGet, if_neg hj, ih, tabGet, if_neg hj]

/-- `n` bytes of a number are `n` long. -/
@[simp] theorem le_length (n x : Nat) : (le n x).length = n := by
  induction n generalizing x with
  | zero => rfl
  | succ n ih => simp [le, ih]

/-- A number through its bytes and back. -/
theorem ofLe_le (n x : Nat) : ofLe (le n x) = x % 256 ^ n := by
  induction n generalizing x with
  | zero => simp [le, ofLe, Nat.mod_one]
  | succ n ih =>
    have h : x % 256 ^ (n + 1) = x % 256 + 256 * (x / 256 % 256 ^ n) := by
      rw [Nat.pow_succ, Nat.mul_comm, Nat.mod_mul]
    simp [le, ofLe, ih, BitVec.toNat_ofNat, h]

/-- The bytes that stand after a prefix. -/
theorem slice_append (a b c : List Byte) : slice (a ++ b ++ c) a.length b.length = b := by
  refine List.ext_getElem (by simp [slice]) fun i h1 h2 => ?_
  simp only [slice, List.getElem_map, List.getElem_range, List.append_assoc]
  rw [List.getD_eq_getElem?_getD, List.getElem?_append_right (Nat.le_add_right _ _), Nat.add_sub_cancel_left,
    List.getElem?_append_left h2, List.getElem?_eq_getElem h2]
  rfl

/-- A little-endian field that was laid out after a prefix. -/
theorem fieldLe_append (a c : List Byte) (n x : Nat) : fieldLe (a ++ le n x ++ c) a.length n = x % 256 ^ n := by
  rw [fieldLe, show slice (a ++ le n x ++ c) a.length n = le n x by
    have := slice_append a (le n x) c
    rwa [le_length] at this, ofLe_le]

/-- A string brought to `n` bytes has `n`. -/
@[simp] theorem padTo_length (n : Nat) (bs : List Byte) : (padTo n bs).length = n := by simp [padTo]; omega

end Sys2Proof.Machine
end

