-- ==== Sys2Proof/Laws/Get.lean ====
section
/-!
SUPPORT. Laws/Get.lean: what a read of one part of the state gives after an update of that part: the part that was updated, and
every other as it was.
-/

namespace Sys2Proof.Machine

set_option Elab.async false

theorem tabGetD_tabSet {β : Type} (t : Tab β) (k : Nat) (v : β) (j : Nat) (d : β) :
    tabGetD (tabSet t k v) j d = if j = k then v else tabGetD t j d := by
  simp only [tabGetD, tabGet_tabSet]
  split <;> rfl

theorem tabGetD_tabModD {β : Type} (t : Tab β) (k : Nat) (d : β) (f : β → β) (j : Nat) :
    tabGetD (tabModD t k d f) j d = if j = k then f (tabGetD t k d) else tabGetD t j d := tabGetD_tabSet t k _ j d

theorem tabGet_tabDel {β : Type} (t : Tab β) (k j : Nat) : tabGet (tabDel t k) j = if j = k then none else tabGet t j := by
  induction t with
  | nil => simp [tabDel, tabGet]
  | cons e t ih =>
    obtain ⟨i, v⟩ := e
    simp only [tabDel, List.filter_cons] at ih ⊢
    by_cases h : i = k
    · subst h
      simp only [ne_eq, not_true_eq_false, decide_false, Bool.false_eq_true, if_false, tabGet, ih]
      by_cases h2 : j = i
      · simp [h2]
      · simp [h2, Ne.symm h2]
    · simp only [ne_eq, h, not_false_eq_true, decide_true, if_true, tabGet, ih]
      by_cases h2 : i = j
      · subst h2; simp [h]
      · simp [h2]

theorem assoc_assocSet {α β : Type} [DecidableEq α] (t : List (α × β)) (k : α) (v : β) (j : α) :
    assoc (assocSet t k v) j = if j = k then some v else assoc t j := by
  induction t with
  | nil => simp only [assocSet, assoc, eq_comm]
  | cons e t ih =>
    obtain ⟨a, w⟩ := e
    simp only [assocSet]
    split
    · next h =>
      subst h
      simp only [assoc]
      by_cases h2 : j = a
      · simp [h2]
      · simp [h2, Ne.symm h2]
    · next h =>
      simp only [assoc, ih]
      by_cases h2 : a = j
      · subst h2; simp [h]
      · simp [h2]

theorem srcOf_modSrc (s : State) (n : Nat) (f : FaultSrc → FaultSrc) (k : Nat) :
    srcOf (modSrc s n f) k = if k = n then f (srcOf s n) else srcOf s k := by
  unfold srcOf modSrc
  exact tabGetD_tabModD _ _ _ _ _

theorem chanOf_modChan (s : State) (n : Nat) (f : Chan → Chan) (k : Nat) :
    chanOf (modChan s n f) k = if k = n then f (chanOf s n) else chanOf s k := by
  unfold chanOf modChan
  exact tabGetD_tabModD _ _ _ _ _

theorem stackOf_modStack (s : State) (n : Nat) (f : StackSt → StackSt) (k : Nat) :
    stackOf (modStack s n f) k = if k = n then f (stackOf s n) else stackOf s k := by
  unfold stackOf modStack
  exact tabGetD_tabModD _ _ _ _ _

theorem quadOf_modQuad (s : State) (n : Nat) (f : Quad → Quad) (k : Nat) :
    quadOf (modQuad s n f) k = if k = n then f (quadOf s n) else quadOf s k := by
  unfold quadOf modQuad
  exact tabGetD_tabModD _ _ _ _ _

theorem clusterOf_modCluster (s : State) (n : Nat) (f : Cluster → Cluster) (k : Nat) :
    clusterOf (modCluster s n f) k = if k = n then f (clusterOf s n) else clusterOf s k := by
  unfold clusterOf modCluster
  exact tabGetD_tabModD _ _ _ _ _

theorem tileOf_modTile (s : State) (n : Nat) (f : Tile → Tile) (k : Nat) :
    tileOf (modTile s n f) k = if k = n then f (tileOf s n) else tileOf s k := by
  unfold tileOf modTile
  exact tabGetD_tabModD _ _ _ _ _

theorem freeOf_modFree (s : State) (n : Nat) (f : FreeList → FreeList) (k : Nat) :
    freeOf (modFree s n f) k = if k = n then f (freeOf s n) else freeOf s k := by
  unfold freeOf modFree
  exact tabGetD_tabModD _ _ _ _ _

theorem portOf_modPort (s : State) (n : Nat) (f : CellarPort → CellarPort) (k : Nat) :
    portOf (modPort s n f) k = if k = n then f (portOf s n) else portOf s k := by
  unfold portOf modPort
  exact tabGetD_tabModD _ _ _ _ _

theorem fabPort_modFab (s : State) (n : Nat) (f : Port → Port) (k : Nat) :
    fabPort (modFab s n f) k = if k = n then f (fabPort s n) else fabPort s k := by
  unfold fabPort modFab
  exact tabGetD_tabModD _ _ _ _ _

theorem queueOf_modQueue (s : State) (n : Nat) (f : CmdQueue → CmdQueue) (k : Nat) :
    queueOf (modQueue s n f) k = if k = n then f (queueOf s n) else queueOf s k := by
  unfold queueOf modQueue
  exact tabGetD_tabModD _ _ _ _ _

theorem gateOf_modGate (s : State) (n : Nat) (f : GateUnit → GateUnit) (k : Nat) :
    gateOf (modGate s n f) k = if k = n then f (gateOf s n) else gateOf s k := by
  unfold gateOf modGate
  exact tabGetD_tabModD _ _ _ _ _

theorem tenantOf_modTenant (s : State) (n : Nat) (f : Tenant → Tenant) (k : Nat) :
    tenantOf (modTenant s n f) k = if k = n then f (tenantOf s n) else tenantOf s k := by
  unfold tenantOf modTenant
  exact tabGetD_tabModD _ _ _ _ _

theorem subOf_modSub (s : State) (p b : Nat) (f : SubPort → SubPort) (q c : Nat) :
    subOf (modSub s p b f) q c = if q = p ∧ c = b then f (subOf s p b) else subOf s q c := by
  simp only [subOf, modSub, fabPort_modFab]
  by_cases h : q = p
  · subst h
    simp only [if_true, tabGetD_tabModD, true_and]
  · simp only [h, if_false, false_and]

theorem frameOf_setFrame (s : State) (n : Nat) (f : Frame) (k : Nat) :
    frameOf (setFrame s n f) k = if k = n then f else frameOf s k := by
  unfold frameOf setFrame
  exact tabGetD_tabSet _ _ _ _ _

theorem frameOf_modFrame (s : State) (n : Nat) (f : Frame → Frame) (k : Nat) :
    frameOf (modFrame s n f) k = if k = n then f (frameOf s n) else frameOf s k := frameOf_setFrame s n _ k

theorem seqOf_setSeq (s : State) (q : SeqId) (x : Seq) (r : SeqId) :
    seqOf (setSeq s q x) r = if r = q then some x else seqOf s r := assoc_assocSet _ q x r

theorem seqOf_modSeq (s : State) (q : SeqId) (f : Seq → Seq) (r : SeqId) :
    seqOf (modSeq s q f) r = if r = q then (seqOf s q).map f else seqOf s r := by
  unfold modSeq
  by_cases h : r = q
  · subst h
    cases e : seqOf s r <;> simp [seqOf_setSeq, e]
  · cases e : seqOf s q <;> simp [seqOf_setSeq, h]

theorem regionOf_modRegion (s : State) (n : Nat) (f : LedRegion → LedRegion) (k : Nat) :
    regionOf (modRegion s n f) k = if k = n then (regionOf s n).map f else regionOf s k := by
  simp only [regionOf, modRegion, tabMod]
  cases e : tabGet s.ledger.regions n with
  | none => by_cases h : k = n <;> simp [h, e]
  | some g => by_cases h : k = n <;> simp [h, tabGet_tabSet]

theorem railOf_modRail (s : State) (d : Nat) (f : Rail → Rail) : railOf (modRail s d f) d = f (railOf s d) := by
  unfold railOf modRail
  split <;> rfl

theorem mergeOf_modMerge (s : State) (d : Nat) (f : MergeDie → MergeDie) : mergeOf (modMerge s d f) d = f (mergeOf s d) := by
  unfold mergeOf modMerge
  split <;> rfl

theorem admOf_modAdm (s : State) (d : Nat) (f : AdmDie → AdmDie) : admOf (modAdm s d f) d = f (admOf s d) := by
  unfold admOf modAdm
  split <;> rfl

end Sys2Proof.Machine
end

