-- ==== Sys2Proof/Laws/Answer.lean ====
section
/-!
SUPPORT. Laws/Answer.lean: sending a message or an answer, and noting an INTERNAL status, leave the composition, the admitted
commands, the outcome log and the command queues alone; and what the log holds once a command is settled.
-/

namespace Sys2Proof.Machine

set_option Elab.async false
set_option linter.unreachableTactic false
set_option linter.unusedTactic false

/-- `b` has the composition, the admitted commands, the outcome log and the command queues of `a`. -/
structure Answ (a b : State) : Prop where
  comp : b.comp = a.comp
  exec : b.exec = a.exec
  outcomes : b.outcomes = a.outcomes
  queues : b.queues = a.queues

theorem Answ.refl (a : State) : Answ a a := ⟨rfl, rfl, rfl, rfl⟩

theorem Answ.upd {a s : State} (h : Answ a s) {x1 x2 x3 x4 x5 x6 x7 x8 x9 x10 x11 x12 x13 x14 x15 x16 x17 x18 x19 x20 x21 x22 x23 x24 x25 x26}
    (h0 : x20 = s.comp := by rfl) (h1 : x15 = s.exec := by rfl) (h2 : x17 = s.outcomes := by rfl) (h3 : x18 = s.queues := by rfl) :
    Answ a (State.mk x1 x2 x3 x4 x5 x6 x7 x8 x9 x10 x11 x12 x13 x14 x15 x16 x17 x18 x19 x20 x21 x22 x23 x24 x25 x26) := by
  subst h0 h1 h2 h3
  exact ⟨h.comp, h.exec, h.outcomes, h.queues⟩

theorem foldState_answ {a : State} {α : Type} {f : State → α → State} {l : List α}
    (hf : ∀ t x, Answ a t → Answ a (f t x)) : ∀ {s : State}, Answ a s → Answ a (foldState f s l) := by
  induction l with
  | nil => exact fun h => h
  | cons x l ih => exact fun h => ih (hf _ x h)

theorem iter_answ {a : State} {f : State → State} {n : Nat} (hf : ∀ t, Answ a t → Answ a (f t)) :
    ∀ {s : State}, Answ a s → Answ a (iter f n s) := by
  induction n with
  | zero => exact fun h => h
  | succ n ih => exact fun h => ih (hf _ h)

/-- A fold whose accumulator holds the state at `g`. -/
theorem foldl_answ {a : State} {α β : Type} (g : β → State) {f : β → α → β} {l : List α}
    (hf : ∀ b x, Answ a (g b) → Answ a (g (f b x))) : ∀ {b : β}, Answ a (g b) → Answ a (g (l.foldl f b)) := by
  induction l with
  | nil => exact fun h => h
  | cons x l ih => exact fun h => ih (hf _ x h)

theorem linkPump_answ  {orig s : State}   (answ : Answ orig s) : Answ orig (linkPump s) := by
  dsimp -iota only [linkPump]
  with_reducible repeat' first
      | assumption | apply iter_answ | (intro _) | refine Answ.upd ?_

theorem linkSend_answ  {orig s : State} {t : LinkTx}  (answ : Answ orig s) : Answ orig (linkSend s t) := by
  dsimp -iota only [linkSend]
  with_reducible repeat' first
      | assumption | apply linkPump_answ | split | refine Answ.upd ?_

theorem modCtx_answ  {orig s : State} {a : AssocKey} {f : PeerCtx → PeerCtx}  (answ : Answ orig s) : Answ orig (modCtx s a f) := by
  dsimp -iota only [modCtx]
  with_reducible repeat' first
      | assumption | (intro _) | split | refine Answ.upd ?_

theorem writeBack_answ  {orig s : State} {c : PeerCtx}  (answ : Answ orig s) : Answ orig (writeBack s c) := by
  dsimp -iota only [writeBack]
  with_reducible repeat' first
      | assumption | apply linkSend_answ | (intro _) | split | refine Answ.upd ?_

theorem makeRoom_answ  {orig s t : State} {die : Nat} (answ : Answ orig s) (e : makeRoom s die = some t) :
    Answ orig t := by
  dsimp only [makeRoom] at e
  split at e
  · cases e; exact answ
  · obtain ⟨v, -, rfl⟩ := Option.map_eq_some_iff.1 e
    exact modCtx_answ (writeBack_answ answ)

theorem newCtx_answ  {orig s t : State} {a : AssocKey} (answ : Answ orig s) (e : newCtx s a = some t) :
    Answ orig t := by
  dsimp only [newCtx] at e
  split at e
  · obtain ⟨s1, e1, rfl⟩ := Option.map_eq_some_iff.1 e
    exact (makeRoom_answ answ e1).upd
  · cases e

theorem sendUnder_answ  {orig s : State} {gen : Option Nat} {a : AssocKey} {cls : MsgClass} {egress : Nat}
    {arrival : Option (Nat × Nat)} {bytes : List Byte} (answ : Answ orig s) :
    Answ orig (sendUnder s gen a cls egress arrival bytes) := by
  dsimp only [sendUnder]
  split
  · next g s1 e =>
    have k : Answ orig s1 := by
      split at e
      · split at e
        · cases e
        · cases e; exact answ
      · exact newCtx_answ answ e
    exact modCtx_answ k.upd
  · exact answ.upd

theorem replyUnder_answ  {orig s : State} {gen : Option Nat} {c : Command} {cls : MsgClass} {bytes : List Byte}  (answ : Answ orig s) : Answ orig (replyUnder s gen c cls bytes) := by
  dsimp -iota only [replyUnder]
  with_reducible repeat' first
      | assumption | apply linkSend_answ | apply sendUnder_answ | split | refine Answ.upd ?_

theorem sendReply_answ  {orig s : State} {c : Command} {cls : MsgClass} {bytes : List Byte}  (answ : Answ orig s) : Answ orig (sendReply s c cls bytes) := by
  dsimp -iota only [sendReply]
  with_reducible repeat' first
      | assumption | apply replyUnder_answ | refine Answ.upd ?_

theorem modSrc_answ  {orig s : State} {n : Nat} {f : FaultSrc → FaultSrc}  (answ : Answ orig s) : Answ orig (modSrc s n f) := by
  dsimp -iota only [modSrc]
  with_reducible repeat' first
      | assumption | refine Answ.upd ?_ | refine Answ.upd ?_

theorem raise_answ  {orig s : State} {ev : FaultEv}  (answ : Answ orig s) : Answ orig (raise s ev) := by
  dsimp -iota only [raise]
  with_reducible repeat' first
      | assumption | apply modSrc_answ | (intro _) | refine Answ.upd ?_ | refine Answ.upd ?_

theorem caskRec_answ  {orig s : State} {r : CaskRec} (answ : Answ orig s) : Answ orig (caskRec s r) := by
  unfold caskRec raise modSrc
  dsimp only
  repeat' split
  all_goals exact answ.upd

theorem caskNote_answ  {orig s : State} {kind : Nat} {payload : List Byte}  (answ : Answ orig s) : Answ orig (caskNote s kind payload) := by
  dsimp -iota only [caskNote]
  with_reducible repeat' first
      | assumption | apply caskRec_answ | refine Answ.upd ?_

theorem noteInternal_answ  {orig s : State} {opcode : Nat} {src : Nat} {reqId : Nat} {unitKind : Nat} {unit : Nat} {detail : Nat}  (answ : Answ orig s) : Answ orig (noteInternal s opcode src reqId unitKind unit detail) := by
  dsimp -iota only [noteInternal]
  with_reducible repeat' first
      | assumption | apply raise_answ | apply caskNote_answ | refine Answ.upd ?_

theorem sendMsg_answ  {orig s : State} {a : AssocKey} {cls : MsgClass} {egress : Nat} {arrival : Option (Nat × Nat)} {bytes : List Byte}  (answ : Answ orig s) : Answ orig (sendMsg s a cls egress arrival bytes) := by
  dsimp -iota only [sendMsg]
  with_reducible repeat' first
      | assumption | apply sendUnder_answ | refine Answ.upd ?_

theorem sendControl_answ  {orig s : State} {e : Endpoint} {bytes : List Byte}  (answ : Answ orig s) : Answ orig (sendControl s e bytes) := by
  dsimp -iota only [sendControl]
  with_reducible repeat' first
      | assumption | apply linkSend_answ | apply sendMsg_answ | split | refine Answ.upd ?_

theorem sendChain_answ  {orig s : State} {c : Command} {node : Nat} {epoch : Nat}  (answ : Answ orig s) : Answ orig (sendChain s c node epoch) := by
  dsimp -iota only [sendChain]
  with_reducible repeat' first
      | assumption | apply sendMsg_answ | refine Answ.upd ?_


theorem settle_exec (s : State) (c : Command) (st : Status) : (settle s c st).exec = s.exec := by
  unfold settle dropOutcome
  split <;> rfl

theorem settle_queues (s : State) (c : Command) (st : Status) : (settle s c st).queues = s.queues := by
  unfold settle dropOutcome
  split <;> rfl

/-- The entry of a settled command (R131). -/
theorem settle_recorded {s : State} {c : Command} {st : Status} (h : recorded st = true) :
    (findOutcome (settle s c st) (cmdKey c)).map (fun o => (o.status, o.since)) = some (some st, now s) := by
  simp only [settle, h, if_true, findOutcome, List.find?_append, List.find?_filter]
  rw [List.find?_eq_none.2]
  · simp
  · simp

/-- A status that R131 does not record leaves no entry. -/
theorem settle_unrecorded {s : State} {c : Command} {st : Status} (h : recorded st = false) :
    findOutcome (settle s c st) (cmdKey c) = none := by
  simp [settle, h, findOutcome, dropOutcome]

end Sys2Proof.Machine
end

