-- ==== Sys2Proof/Laws/Aside.lean ====
section
/-!
SUPPORT. Laws/Aside.lean: what the operations that answer, send, fence and keep the Ledger leave alone. `Aside a b` says that
`b` differs from `a` only in what such an operation may change: the fault collector, the Cask, the mailboxes, the admitted
commands, the fabric, the outcome log, the command queues, the scheduler, the composition, the link and the Ledger.
-/

namespace Sys2Proof.Machine

set_option Elab.async false
set_option linter.unreachableTactic false
set_option linter.unusedTactic false

/-- `b` agrees with `a` on everything that answering and sending leave alone; and, unless `wide`, on the mailboxes, the scheduler
and the Ledger too. -/
structure Aside (wide : Bool) (a b : State) : Prop where
  pending : b.pending = a.pending
  running : b.running = a.running
  fresh : b.fresh = a.fresh
  regs : b.regs = a.regs
  accessErr : b.accessErr = a.accessErr
  lastErr : b.lastErr = a.lastErr
  lockedWr : b.lockedWr = a.lockedWr
  badvalWr : b.badvalWr = a.badvalWr
  time : b.time = a.time
  snap : b.snap = a.snap
  mem : b.mem = a.mem
  pfx : b.pfx = a.pfx
  trust : b.trust = a.trust
  boot : b.boot = a.boot
  pack : b.pack = a.pack
  linkState : b.link.state = a.link.state
  mail : wide = false → b.mail = a.mail
  sched : wide = false → b.sched = a.sched
  ledger : wide = false → b.ledger = a.ledger

theorem Aside.refl (w : Bool) (a : State) : Aside w a a := ⟨rfl, rfl, rfl, rfl, rfl, rfl, rfl, rfl, rfl, rfl, rfl, rfl, rfl, rfl, rfl, rfl, fun _ => rfl, fun _ => rfl, fun _ => rfl⟩

/-- An update of what answering and sending may change. -/
theorem Aside.upd {w : Bool} {a s : State} (h : Aside w a s)
    {x1 x2 x3 x4 x5 x6 x7 x8 x9 x10 x11 x12 x13 x14 x15 x16 x17 x18 x19 x20 x21 x22 x23 x24 x25 x26}
    (h1 : x1 = s.pending := by rfl) (h2 : x2 = s.running := by rfl) (h3 : x3 = s.fresh := by rfl) (h4 : x4 = s.regs := by rfl) (h5 : x5 = s.accessErr := by rfl) (h6 : x6 = s.lastErr := by rfl) (h7 : x7 = s.lockedWr := by rfl) (h8 : x8 = s.badvalWr := by rfl) (h9 : x9 = s.time := by rfl) (h10 : x12 = s.snap := by rfl) (h11 : x14 = s.mem := by rfl) (h12 : x21 = s.pfx := by rfl) (h13 : x24 = s.trust := by rfl) (h14 : x25 = s.boot := by rfl) (h15 : x26 = s.pack := by rfl) (hl : x22.state = s.link.state := by rfl) (h16 : x13 = s.mail := by rfl) (h17 : x19 = s.sched := by rfl) (h18 : x23 = s.ledger := by rfl) :
    Aside w a (State.mk x1 x2 x3 x4 x5 x6 x7 x8 x9 x10 x11 x12 x13 x14 x15 x16 x17 x18 x19 x20 x21 x22 x23 x24 x25 x26) := by
  subst h1 h2 h3 h4 h5 h6 h7 h8 h9 h10 h11 h12 h13 h14 h15 h16 h17 h18
  exact ⟨h.pending, h.running, h.fresh, h.regs, h.accessErr, h.lastErr, h.lockedWr, h.badvalWr, h.time, h.snap, h.mem, h.pfx, h.trust, h.boot, h.pack, hl.trans h.linkState, h.mail, h.sched, h.ledger⟩

/-- An update that may change the mailboxes, the scheduler and the Ledger too. -/
theorem Aside.updWide {a s : State} (h : Aside true a s)
    {x1 x2 x3 x4 x5 x6 x7 x8 x9 x10 x11 x12 x13 x14 x15 x16 x17 x18 x19 x20 x21 x22 x23 x24 x25 x26}
    (h1 : x1 = s.pending := by rfl) (h2 : x2 = s.running := by rfl) (h3 : x3 = s.fresh := by rfl) (h4 : x4 = s.regs := by rfl) (h5 : x5 = s.accessErr := by rfl) (h6 : x6 = s.lastErr := by rfl) (h7 : x7 = s.lockedWr := by rfl) (h8 : x8 = s.badvalWr := by rfl) (h9 : x9 = s.time := by rfl) (h10 : x12 = s.snap := by rfl) (h11 : x14 = s.mem := by rfl) (h12 : x21 = s.pfx := by rfl) (h13 : x24 = s.trust := by rfl) (h14 : x25 = s.boot := by rfl) (h15 : x26 = s.pack := by rfl) (hl : x22.state = s.link.state := by rfl) :
    Aside true a (State.mk x1 x2 x3 x4 x5 x6 x7 x8 x9 x10 x11 x12 x13 x14 x15 x16 x17 x18 x19 x20 x21 x22 x23 x24 x25 x26) := by
  subst h1 h2 h3 h4 h5 h6 h7 h8 h9 h10 h11 h12 h13 h14 h15
  exact ⟨h.pending, h.running, h.fresh, h.regs, h.accessErr, h.lastErr, h.lockedWr, h.badvalWr, h.time, h.snap, h.mem, h.pfx, h.trust, h.boot, h.pack, hl.trans h.linkState, nofun, nofun, nofun⟩

theorem foldState_aside {w : Bool} {a : State} {α : Type} {f : State → α → State} {l : List α}
    (hf : ∀ t x, Aside w a t → Aside w a (f t x)) : ∀ {s : State}, Aside w a s → Aside w a (foldState f s l) := by
  induction l with
  | nil => exact fun h => h
  | cons x l ih => exact fun h => ih (hf _ x h)

theorem iter_aside {w : Bool} {a : State} {f : State → State} {n : Nat} (hf : ∀ t, Aside w a t → Aside w a (f t)) :
    ∀ {s : State}, Aside w a s → Aside w a (iter f n s) := by
  induction n with
  | zero => exact fun h => h
  | succ n ih => exact fun h => ih (hf _ h)

/-- A fold whose accumulator holds the state at `g`. -/
theorem foldl_aside {w : Bool} {a : State} {α β : Type} (g : β → State) {f : β → α → β} {l : List α}
    (hf : ∀ b x, Aside w a (g b) → Aside w a (g (f b x))) : ∀ {b : β}, Aside w a (g b) → Aside w a (g (l.foldl f b)) := by
  induction l with
  | nil => exact fun h => h
  | cons x l ih => exact fun h => ih (hf _ x h)

theorem caskRec_aside {w : Bool} {orig s : State} {r : CaskRec} (aside : Aside w orig s) : Aside w orig (caskRec s r) := by
  unfold caskRec raise modSrc
  dsimp only
  repeat' split
  all_goals exact aside.upd

theorem modSrc_aside {w : Bool} {orig s : State} {n : Nat} {f : FaultSrc → FaultSrc}  (aside : Aside w orig s) : Aside w orig (modSrc s n f) := by
  dsimp -iota only [modSrc]
  with_reducible repeat' first
      | assumption | refine Aside.upd ?_

theorem raise_aside {w : Bool} {orig s : State} {ev : FaultEv}  (aside : Aside w orig s) : Aside w orig (raise s ev) := by
  dsimp -iota only [raise]
  with_reducible repeat' first
      | assumption | apply modSrc_aside | (intro _) | refine Aside.upd ?_

theorem setLevel_aside {w : Bool} {orig s : State} {n : Nat} {high : Bool} {unit : UnitRef}  (aside : Aside w orig s) : Aside w orig (setLevel s n high unit) := by
  dsimp -iota only [setLevel]
  with_reducible repeat' first
      | assumption | apply modSrc_aside | (intro _) | split | refine Aside.upd ?_

theorem caskNote_aside {w : Bool} {orig s : State} {kind : Nat} {payload : List Byte}  (aside : Aside w orig s) : Aside w orig (caskNote s kind payload) := by
  dsimp -iota only [caskNote]
  with_reducible repeat' first
      | assumption | apply caskRec_aside | refine Aside.upd ?_

theorem caskAction_aside {w : Bool} {orig s : State} {what : Nat} {u : UnitRef} {sparesLeft : Nat}  (aside : Aside w orig s) : Aside w orig (caskAction s what u sparesLeft) := by
  dsimp -iota only [caskAction]
  with_reducible repeat' first
      | assumption | apply caskNote_aside | refine Aside.upd ?_

theorem noteInternal_aside {w : Bool} {orig s : State} {opcode : Nat} {src : Nat} {reqId : Nat} {unitKind : Nat} {unit : Nat} {detail : Nat}  (aside : Aside w orig s) : Aside w orig (noteInternal s opcode src reqId unitKind unit detail) := by
  dsimp -iota only [noteInternal]
  with_reducible repeat' first
      | assumption | apply raise_aside | apply caskNote_aside | refine Aside.upd ?_

theorem fireInj_aside {w : Bool} {orig s : State} {checker : Nat} {unit : Nat} {fin : State} {x0 : Nat}  (aside : Aside w orig s) (e : fireInj s checker unit = some (x0, fin)) : Aside w orig fin := by
  dsimp -iota only [fireInj] at e
  repeat' split at e
  all_goals try (simp only [Option.some.injEq, Prod.mk.injEq, reduceCtorEq] at e <;> obtain ⟨-, rfl⟩ := e)
  all_goals
    with_reducible repeat' first
        | assumption | apply raise_aside | split | refine Aside.upd ?_

theorem checkFails_aside {w : Bool} {orig s fin : State} {checker unit : Nat} {real x y : Bool} (aside : Aside w orig s)
    (e : checkFails s checker unit real = (x, y, fin)) : Aside w orig fin := by
  unfold checkFails at e
  split at e
  · next e1 => cases e; exact fireInj_aside aside e1
  · cases e; exact aside

theorem checkFails_asideProj {w : Bool} {orig s : State} {checker : Nat} {unit : Nat} {real : Bool}  (aside : Aside w orig s) : Aside w orig (checkFails s checker unit real).2.2 := by
  rcases h : checkFails s checker unit real with ⟨y0, y1, y2⟩
  exact checkFails_aside aside h

theorem whileRunning_aside {w : Bool} {orig s : State} {f : Unit → State} (h_f : Aside w orig (f ())) (aside : Aside w orig s) : Aside w orig (whileRunning s f) := by
  dsimp -iota only [whileRunning]
  with_reducible repeat' first
      | assumption | apply h_f | (intro _) | split | refine Aside.upd ?_

theorem k2hPush_aside {orig s : State} {kind : Nat} {tag : Nat} {ws : List Word32}  (aside : Aside true orig s) : Aside true orig (k2hPush s kind tag ws) := by
  dsimp -iota only [k2hPush]
  with_reducible repeat' first
      | assumption | (intro _) | refine Aside.updWide ?_

theorem linkSendOne_state (l : LinkSt) : (linkSendOne l).state = l.state := by
  unfold linkSendOne
  split
  · rfl
  · split
    · rfl
    · dsimp only
      split <;> rfl

theorem linkPump_aside {w : Bool} {orig s : State} (aside : Aside w orig s) : Aside w orig (linkPump s) := by
  have e : ∀ (n : Nat) (l : LinkSt), (iter linkSendOne n l).state = l.state := by
    intro n
    induction n with
    | zero => intro l; rfl
    | succ n ih => intro l; rw [iter, ih, linkSendOne_state]
  exact aside.upd (hl := e _ _)

theorem linkSend_aside {w : Bool} {orig s : State} {t : LinkTx}  (aside : Aside w orig s) : Aside w orig (linkSend s t) := by
  dsimp -iota only [linkSend]
  with_reducible repeat' first
      | assumption | apply linkPump_aside | split | refine Aside.upd ?_

theorem modCtx_aside {w : Bool} {orig s : State} {a : AssocKey} {f : PeerCtx → PeerCtx}  (aside : Aside w orig s) : Aside w orig (modCtx s a f) := by
  dsimp -iota only [modCtx]
  with_reducible repeat' first
      | assumption | (intro _) | split | refine Aside.upd ?_

theorem writeBack_aside {w : Bool} {orig s : State} {c : PeerCtx}  (aside : Aside w orig s) : Aside w orig (writeBack s c) := by
  dsimp -iota only [writeBack]
  with_reducible repeat' first
      | assumption | apply linkSend_aside | (intro _) | split | refine Aside.upd ?_

theorem makeRoom_aside {w : Bool} {orig s t : State} {die : Nat} (aside : Aside w orig s) (e : makeRoom s die = some t) :
    Aside w orig t := by
  dsimp only [makeRoom] at e
  split at e
  · cases e; exact aside
  · obtain ⟨v, -, rfl⟩ := Option.map_eq_some_iff.1 e
    exact modCtx_aside (writeBack_aside aside)

theorem newCtx_aside {w : Bool} {orig s t : State} {a : AssocKey} (aside : Aside w orig s) (e : newCtx s a = some t) :
    Aside w orig t := by
  dsimp only [newCtx] at e
  split at e
  · obtain ⟨s1, e1, rfl⟩ := Option.map_eq_some_iff.1 e
    exact (makeRoom_aside aside e1).upd
  · cases e

theorem sendUnder_aside {w : Bool} {orig s : State} {gen : Option Nat} {a : AssocKey} {cls : MsgClass} {egress : Nat}
    {arrival : Option (Nat × Nat)} {bytes : List Byte} (aside : Aside w orig s) :
    Aside w orig (sendUnder s gen a cls egress arrival bytes) := by
  dsimp only [sendUnder]
  split
  · next g s1 e =>
    have k : Aside w orig s1 := by
      split at e
      · split at e
        · cases e
        · cases e; exact aside
      · exact newCtx_aside aside e
    exact modCtx_aside k.upd
  · exact aside.upd

theorem sendMsg_aside {w : Bool} {orig s : State} {a : AssocKey} {cls : MsgClass} {egress : Nat} {arrival : Option (Nat × Nat)} {bytes : List Byte}  (aside : Aside w orig s) : Aside w orig (sendMsg s a cls egress arrival bytes) := by
  dsimp -iota only [sendMsg]
  with_reducible repeat' first
      | assumption | apply sendUnder_aside | refine Aside.upd ?_

theorem sendControl_aside {w : Bool} {orig s : State} {e : Endpoint} {bytes : List Byte}  (aside : Aside w orig s) : Aside w orig (sendControl s e bytes) := by
  dsimp -iota only [sendControl]
  with_reducible repeat' first
      | assumption | apply linkSend_aside | apply sendMsg_aside | split | refine Aside.upd ?_

theorem reportAll_aside {orig s : State} {what : Nat} {st : Status} {subject : Nat} {epoch : Nat} {arg0 : Nat} {arg1 : Nat}  (aside : Aside true orig s) : Aside true orig (reportAll s what st subject epoch arg0 arg1) := by
  dsimp -iota only [reportAll]
  with_reducible repeat' first
      | assumption | apply k2hPush_aside | apply sendControl_aside | apply foldState_aside | (intro _) | split
      | refine Aside.updWide ?_

theorem dropOutcome_aside {w : Bool} {orig s : State} {k : CmdKey}  (aside : Aside w orig s) : Aside w orig (dropOutcome s k) := by
  dsimp -iota only [dropOutcome]
  with_reducible repeat' first
      | assumption | (intro _) | refine Aside.upd ?_

theorem settle_aside {w : Bool} {orig s : State} {c : Command} {st : Status}  (aside : Aside w orig s) : Aside w orig (settle s c st) := by
  dsimp -iota only [settle]
  with_reducible repeat' first
      | assumption | apply dropOutcome_aside | (intro _) | split | refine Aside.upd ?_

theorem openOutcome_aside {w : Bool} {orig s : State} {k : CmdKey} {fin : State}   (aside : Aside w orig s) (e : openOutcome s k = some fin) : Aside w orig fin := by
  dsimp -iota only [openOutcome] at e
  repeat' split at e
  all_goals try (simp only [Option.some.injEq, Prod.mk.injEq, reduceCtorEq] at e <;> obtain rfl := e)
  all_goals
    with_reducible repeat' first
        | assumption | (intro _) | split | refine Aside.upd ?_

theorem modQueue_aside {w : Bool} {orig s : State} {q : Nat} {f : CmdQueue → CmdQueue}  (aside : Aside w orig s) : Aside w orig (modQueue s q f) := by
  dsimp -iota only [modQueue]
  with_reducible repeat' first
      | assumption | refine Aside.upd ?_

theorem replyUnder_aside {w : Bool} {orig s : State} {gen : Option Nat} {c : Command} {cls : MsgClass} {bytes : List Byte}  (aside : Aside w orig s) : Aside w orig (replyUnder s gen c cls bytes) := by
  dsimp -iota only [replyUnder]
  with_reducible repeat' first
      | assumption | apply linkSend_aside | apply sendUnder_aside | split | refine Aside.upd ?_

theorem sendReply_aside {w : Bool} {orig s : State} {c : Command} {cls : MsgClass} {bytes : List Byte}  (aside : Aside w orig s) : Aside w orig (sendReply s c cls bytes) := by
  dsimp -iota only [sendReply]
  with_reducible repeat' first
      | assumption | apply replyUnder_aside | refine Aside.upd ?_

theorem settleNew_aside {w : Bool} {orig s : State} {c : Command} {st : Status}  (aside : Aside w orig s) : Aside w orig (settleNew s c st) := by
  dsimp -iota only [settleNew]
  with_reducible repeat' first
      | assumption | apply settle_aside | refine openOutcome_aside ?_ (by assumption) | split | refine Aside.upd ?_


theorem answerRetired_aside {w : Bool} {orig s0 : State} {c : Command}  (aside : Aside w orig s0) : Aside w orig (answerRetired s0 c) := by
  dsimp -iota only [answerRetired]
  with_reducible repeat' first
      | assumption | apply modQueue_aside | apply replyUnder_aside | apply settleNew_aside | (intro _) | split
      | refine Aside.upd ?_

theorem answerDup_aside {w : Bool} {orig s : State} {c : Command}  (aside : Aside w orig s) : Aside w orig (answerDup s c) := by
  dsimp -iota only [answerDup]
  with_reducible repeat' first
      | assumption | apply sendReply_aside | refine Aside.upd ?_

theorem answerOne_aside {w : Bool} {orig s : State} {c : Command} {r : Reply}  (aside : Aside w orig s) : Aside w orig (answerOne s c r) := by
  dsimp -iota only [answerOne]
  with_reducible repeat' first
      | assumption | apply modQueue_aside | apply sendReply_aside | (intro _) | refine Aside.upd ?_

theorem dropLive_aside {w : Bool} {orig s : State} {k : CmdKey}  (aside : Aside w orig s) : Aside w orig (dropLive s k) := by
  dsimp -iota only [dropLive]
  with_reducible repeat' first
      | assumption | (intro _) | refine Aside.upd ?_

theorem modLive_aside {w : Bool} {orig s : State} {k : CmdKey} {f : Live → Live}  (aside : Aside w orig s) : Aside w orig (modLive s k f) := by
  dsimp -iota only [modLive]
  with_reducible repeat' first
      | assumption | (intro _) | split | refine Aside.upd ?_

theorem holdChain_aside {w : Bool} {orig s : State} {c : Command}  (aside : Aside w orig s) : Aside w orig (holdChain s c) := by
  dsimp -iota only [holdChain]
  with_reducible repeat' first
      | assumption | apply modLive_aside | (intro _) | refine Aside.upd ?_

theorem completeOne_aside {w : Bool} {orig s : State} {c : Command} {r : Reply}  (aside : Aside w orig s) : Aside w orig (completeOne s c r) := by
  dsimp -iota only [completeOne]
  with_reducible repeat' first
      | assumption | apply sendControl_aside | apply settle_aside | apply answerOne_aside | apply dropLive_aside
      | apply holdChain_aside | apply noteInternal_aside | split | refine Aside.upd ?_

theorem releaseQwait_aside {w : Bool} {orig s : State}   (aside : Aside w orig s) : Aside w orig (releaseQwait s) := by
  dsimp -iota only [releaseQwait]
  with_reducible repeat' first
      | assumption | apply modQueue_aside | apply completeOne_aside | (intro _) | split | refine Aside.upd ?_

theorem releaseQwaits_aside {w : Bool} {orig s : State}   (aside : Aside w orig s) : Aside w orig (releaseQwaits s) := by
  dsimp -iota only [releaseQwaits]
  with_reducible repeat' first
      | assumption | apply releaseQwait_aside | apply iter_aside | refine Aside.upd ?_

theorem answer_aside {w : Bool} {orig s : State} {c : Command} {r : Reply}  (aside : Aside w orig s) : Aside w orig (answer s c r) := by
  dsimp -iota only [answer]
  with_reducible repeat' first
      | assumption | apply answerOne_aside | apply releaseQwaits_aside | refine Aside.upd ?_

theorem complete_aside {w : Bool} {orig s : State} {c : Command} {r : Reply}  (aside : Aside w orig s) : Aside w orig (complete s c r) := by
  dsimp -iota only [complete]
  with_reducible repeat' first
      | assumption | apply completeOne_aside | apply releaseQwaits_aside | refine Aside.upd ?_

theorem sendChain_aside {w : Bool} {orig s : State} {c : Command} {node : Nat} {epoch : Nat}  (aside : Aside w orig s) : Aside w orig (sendChain s c node epoch) := by
  dsimp -iota only [sendChain]
  with_reducible repeat' first
      | assumption | apply sendMsg_aside | refine Aside.upd ?_

theorem finish_aside {w : Bool} {orig s : State} {c : Command} {repl : Nat} {r : Reply}  (aside : Aside w orig s) : Aside w orig (finish s c repl r) := by
  dsimp -iota only [finish]
  with_reducible repeat' first
      | assumption | apply modLive_aside | apply complete_aside | apply sendChain_aside | apply foldState_aside
      | (intro _) | split | refine Aside.upd ?_

theorem clearWaiting_aside {orig s : State}   (aside : Aside true orig s) : Aside true orig (clearWaiting s) := by
  dsimp -iota only [clearWaiting]
  with_reducible repeat' first
      | assumption | (intro _) | refine Aside.updWide ?_

theorem turnAway_aside {orig s : State} {st : Status} {c : Command}  (aside : Aside true orig s) : Aside true orig (turnAway st s c) := by
  dsimp -iota only [turnAway]
  with_reducible repeat' first
      | assumption | apply answer_aside | split | refine Aside.updWide ?_

theorem discardChained_aside {orig s : State}   (aside : Aside true orig s) : Aside true orig (discardChained s) := by
  dsimp -iota only [discardChained]
  with_reducible repeat' first
      | assumption | apply dropOutcome_aside | apply dropLive_aside | apply foldState_aside | (intro _)
      | refine Aside.updWide ?_

theorem fenceNode_aside {orig s : State} {cause source : Nat} (aside : Aside true orig s) :
    Aside true orig (fenceNode s cause source) := by
  dsimp only [fenceNode]
  split
  · exact aside
  · with_reducible repeat' first
      | assumption | apply discardChained_aside | apply turnAway_aside | apply clearWaiting_aside
      | apply foldState_aside | apply complete_aside | apply setLevel_aside | apply caskNote_aside | (intro _)
      | refine Aside.updWide ?_

theorem modRegion_aside {orig s : State} {r : Nat} {f : LedRegion → LedRegion}  (aside : Aside true orig s) : Aside true orig (modRegion s r f) := by
  dsimp -iota only [modRegion]
  with_reducible repeat' first
      | assumption | refine Aside.updWide ?_

theorem modLine_aside {orig s : State} {r : Nat} {i : Nat} {f : LedLine → LedLine}  (aside : Aside true orig s) : Aside true orig (modLine s r i f) := by
  dsimp -iota only [modLine]
  with_reducible repeat' first
      | assumption | apply modRegion_aside | (intro _) | refine Aside.updWide ?_

theorem sendRecall_aside {orig s : State} {r : Nat} {i : Nat} {holder : Endpoint} {downgrade : Bool} {version : Nat}  (aside : Aside true orig s) : Aside true orig (sendRecall s r i holder downgrade version) := by
  dsimp -iota only [sendRecall]
  with_reducible repeat' first
      | assumption | apply linkSend_aside | apply sendMsg_aside | (intro _) | split | refine Aside.updWide ?_

theorem commitLine_aside {orig s : State} {r : Nat} {i : Nat} {bytes : List Byte} {by_ : Option CmdKey}  (aside : Aside true orig s) : Aside true orig (commitLine s r i bytes by_) := by
  dsimp -iota only [commitLine]
  with_reducible repeat' first
      | assumption | apply modRegion_aside | apply modLine_aside | (intro _) | refine Aside.updWide ?_

theorem endRecall_aside {orig s : State} {x : Recall}  (aside : Aside true orig s) : Aside true orig (endRecall s x) := by
  dsimp -iota only [endRecall]
  with_reducible repeat' first
      | assumption | apply modLine_aside | (intro _) | split | refine Aside.updWide ?_

theorem touchLine_aside {orig s : State} {r : Nat} {i : Nat}  (aside : Aside true orig s) : Aside true orig (touchLine s r i) := by
  dsimp -iota only [touchLine]
  with_reducible repeat' first
      | assumption | refine Aside.updWide ?_

theorem returnLine_aside {orig s : State} {r : Nat} {i : Nat} {src : Endpoint} {granted : Nat} {fin : State} {x1 : List Byte} {x2 : Bool} {x3 : Bool}  (aside : Aside true orig s) (e : returnLine s r i src granted = (fin, x1, x2, x3)) : Aside true orig fin := by
  dsimp -iota only [returnLine] at e
  repeat' split at e
  all_goals try (simp only [Option.some.injEq, Prod.mk.injEq, reduceCtorEq] at e <;> obtain ⟨rfl, -, -, -⟩ := e)
  all_goals
    with_reducible repeat' first
        | assumption | apply modLine_aside | apply touchLine_aside | (intro _) | split | refine Aside.updWide ?_

theorem returnLine_asideProj {orig s : State} {r : Nat} {i : Nat} {src : Endpoint} {granted : Nat}  (aside : Aside true orig s) : Aside true orig (returnLine s r i src granted).1 := by
  rcases h : returnLine s r i src granted with ⟨y0, y1, y2, y3⟩
  exact returnLine_aside aside h

theorem completeRead_aside {orig s : State} {c : Command} {r first count : Nat} {grants : Bool}
    (aside : Aside true orig s) : Aside true orig (completeRead s c r first count grants) := by
  dsimp -iota only [completeRead]
  split
  next s1 data lost poison e =>
    refine complete_aside ?_
    rw [show s1 = _ from (congrArg Prod.fst e).symm]
    refine foldl_aside Prod.fst (fun b x k => ?_) ?_
    · exact returnLine_aside k rfl
    · exact aside

theorem giveGrant_aside {orig s : State} {r : Nat} {i : Nat} {src : Endpoint} {grant : Nat}  (aside : Aside true orig s) : Aside true orig (giveGrant s r i src grant) := by
  dsimp -iota only [giveGrant]
  with_reducible repeat' first
      | assumption | apply modLine_aside | (intro _) | split | refine Aside.updWide ?_

theorem recallFor_aside {orig s : State} {r : Nat} {i : Nat} {src : Endpoint} {grant : Nat}  (aside : Aside true orig s) : Aside true orig (recallFor s r i src grant) := by
  dsimp -iota only [recallFor]
  with_reducible repeat' first
      | assumption | apply sendRecall_aside | apply foldState_aside | (intro _) | split | refine Aside.updWide ?_

theorem reserveFrom_aside {orig : State} {before : List LedWait} {w : LedWait} {n : Nat} :
    ∀ {s t : State} {k j : Nat}, Aside true orig s → reserveFrom before w n s k = (t, j) → Aside true orig t := by
  induction n with
  | zero => intro s t k j aside e; cases e; exact aside
  | succ n ih =>
    intro s t k j aside e
    dsimp only [reserveFrom] at e
    repeat' split at e
    all_goals first | exact ih aside e | (cases e; exact aside) | (cases e; exact recallFor_aside aside)

theorem serveWaits_aside {orig : State} {ws : List LedWait} :
    ∀ {before rest : List LedWait} {s t : State}, Aside true orig s → serveWaits before ws s = (t, rest) → Aside true orig t := by
  induction ws with
  | nil => intro before rest s t aside e; cases e; exact aside
  | cons w ws ih =>
    intro before rest s t aside e
    unfold serveWaits at e
    split at e
    next s1 k e1 =>
      have k1 := reserveFrom_aside aside e1
      split at e
      · exact ih (completeRead_aside (foldState_aside (fun _ _ h => giveGrant_aside h) k1)) e
      · split at e
        next s3 rs e2 => cases e; exact ih k1 e2

theorem serveLedger_aside {orig s : State}   (aside : Aside true orig s) : Aside true orig (serveLedger s) := by
  dsimp -iota only [serveLedger]
  with_reducible repeat' first
      | assumption | refine serveWaits_aside ?_ (by assumption) | split | refine Aside.updWide ?_

theorem ledgerDup_aside {orig s : State} {c : Command}  (aside : Aside true orig s) : Aside true orig (ledgerDup s c) := by
  dsimp -iota only [ledgerDup]
  with_reducible repeat' first
      | assumption | apply settle_aside | apply answerDup_aside | apply dropLive_aside | refine Aside.updWide ?_

theorem poisonLines_aside {orig s : State} {r : Nat} {bad : List Nat}  (aside : Aside true orig s) : Aside true orig (poisonLines s r bad) := by
  dsimp -iota only [poisonLines]
  with_reducible repeat' first
      | assumption | apply raise_aside | apply modRegion_aside | apply foldState_aside | (intro _) | split
      | refine Aside.updWide ?_

theorem execLedgerRead_aside {orig s fin : State} {c : Command} {badLines : List Nat}  (aside : Aside true orig s) (e : execLedgerRead c badLines s = .next fin) : Aside true orig fin := by
  dsimp -iota only [execLedgerRead] at e
  injection e with e
  subst e
  with_reducible repeat' first
      | assumption | apply modLive_aside | apply complete_aside | apply completeRead_aside | apply serveLedger_aside
      | apply poisonLines_aside | (intro _) | split | refine Aside.updWide ?_

theorem finishRecall_aside {orig s : State} {r : Nat} {i : Nat} {src : Endpoint}  (aside : Aside true orig s) : Aside true orig (finishRecall s r i src) := by
  dsimp -iota only [finishRecall]
  with_reducible repeat' first
      | assumption | apply endRecall_aside | (intro _) | split | refine Aside.updWide ?_

theorem writeLine_aside {orig s : State} {c : Command} {r : Nat} {i : Nat} {keep : Nat} {version : Nat} {bytes : List Byte} {fin : State} {x1 : List Byte} {x2 : Bool}  (aside : Aside true orig s) (e : writeLine s c r i keep version bytes = (fin, x1, x2)) : Aside true orig fin := by
  dsimp -iota only [writeLine] at e
  repeat' split at e
  all_goals try (simp only [Option.some.injEq, Prod.mk.injEq, reduceCtorEq] at e <;> obtain ⟨rfl, -, -⟩ := e)
  all_goals
    with_reducible repeat' first
        | assumption | apply modLine_aside | apply commitLine_aside | apply finishRecall_aside | (intro _) | split
        | refine Aside.updWide ?_

theorem writeLine_asideProj {orig s : State} {c : Command} {r : Nat} {i : Nat} {keep : Nat} {version : Nat} {bytes : List Byte}  (aside : Aside true orig s) : Aside true orig (writeLine s c r i keep version bytes).1 := by
  rcases h : writeLine s c r i keep version bytes with ⟨y0, y1, y2⟩
  exact writeLine_aside aside h

theorem writeLines_asideProj {orig s : State} {c : Command} {r keep first count : Nat} (aside : Aside true orig s) :
    Aside true orig (writeLines s c r keep first count).1 := by
  unfold writeLines
  refine foldl_aside (g := Prod.fst) (fun b k h => ?_) aside
  exact writeLine_asideProj (c := c) (r := r) (i := first + k) (keep := keep)
    (version := fieldLe c.payload (72 * k) 8) (bytes := slice c.payload (72 * k + 8) 64) h

theorem execLedgerWrite_aside {orig s fin : State} {c : Command} (aside : Aside true orig s)
    (e : execLedgerWrite c s = .next fin) : Aside true orig fin := by
  unfold execLedgerWrite at e
  injection e with e
  subst e
  split
  · exact aside
  · split
    · rename_i keep r count first hb
      split
      · exact complete_aside aside
      · extract_lets dup w
        clear_value dup
        split
        · exact ledgerDup_aside aside
        · exact serveLedger_aside (complete_aside (writeLines_asideProj aside))
    · exact aside

theorem dropGrant_aside {orig s : State} {r : Nat} {i : Nat} {src : Endpoint}  (aside : Aside true orig s) : Aside true orig (dropGrant s r i src) := by
  dsimp -iota only [dropGrant]
  with_reducible repeat' first
      | assumption | apply modLine_aside | (intro _) | split | refine Aside.updWide ?_

theorem execLedgerRelease_aside {orig s fin : State} {c : Command}  (aside : Aside true orig s) (e : execLedgerRelease c s = .next fin) : Aside true orig fin := by
  dsimp -iota only [execLedgerRelease] at e
  injection e with e
  subst e
  with_reducible repeat' first
      | assumption | apply complete_aside | apply serveLedger_aside | apply dropGrant_aside | apply foldState_aside
      | (intro _) | split | refine Aside.updWide ?_

theorem execLedgerPublish_aside {orig s fin : State} {c : Command}  (aside : Aside true orig s) (e : execLedgerPublish c s = .next fin) : Aside true orig fin := by
  dsimp -iota only [execLedgerPublish] at e
  injection e with e
  subst e
  with_reducible repeat' first
      | assumption | apply complete_aside | apply modRegion_aside | apply ledgerDup_aside | (intro _) | split
      | refine Aside.updWide ?_

theorem execRecallAnswer_aside {orig s fin : State} {src : Endpoint} {reqId : Nat} {data : List Byte}  (aside : Aside true orig s) (e : execRecallAnswer src reqId data s = .next fin) : Aside true orig fin := by
  dsimp -iota only [execRecallAnswer] at e
  injection e with e
  subst e
  with_reducible repeat' first
      | assumption | apply whileRunning_aside | apply commitLine_aside | apply endRecall_aside | apply serveLedger_aside
      | (intro _) | split | refine Aside.updWide ?_

theorem holderDead_aside {orig s : State} {e : Endpoint}  (aside : Aside true orig s) : Aside true orig (holderDead s e) := by
  dsimp -iota only [holderDead]
  with_reducible repeat' first
      | assumption | apply serveLedger_aside | (intro _) | refine Aside.updWide ?_

theorem ledgerEndGrants_aside {orig s : State}   (aside : Aside true orig s) : Aside true orig (ledgerEndGrants s) := by
  dsimp -iota only [ledgerEndGrants]
  with_reducible repeat' first
      | assumption | apply holderDead_aside | apply foldState_aside | refine Aside.updWide ?_

theorem execRecallTimeout_aside {orig s fin : State} {reqId : Nat}  (aside : Aside true orig s) (e : execRecallTimeout reqId s = .next fin) : Aside true orig fin := by
  dsimp -iota only [execRecallTimeout] at e
  injection e with e
  subst e
  with_reducible repeat' first
      | assumption | apply whileRunning_aside | apply holderDead_aside | (intro _) | split | refine Aside.updWide ?_

theorem ldgDeclareDead_aside {orig s : State}   (aside : Aside true orig s) : Aside true orig (ldgDeclareDead s) := by
  dsimp -iota only [ldgDeclareDead]
  with_reducible repeat' first
      | assumption | apply holderDead_aside | split | refine Aside.updWide ?_

end Sys2Proof.Machine
end

