-- ==== Sys2Proof/Laws/Dark.lean ====
section
/-!
SUPPORT. Laws/Dark.lean: while the Ranup Link is not up, nothing that answers, sends or reverts the Ledger changes the link; and
none of it changes the time base or the stored registers. So the link that goes down is in training when all is done (R399).
-/

namespace Sys2Proof.Machine

set_option Elab.async false
set_option linter.unreachableTactic false
set_option linter.unusedTactic false

/-- `b` has the link of `a` if that is not up, and its time base and stored registers. -/
structure Dark (a b : State) : Prop where
  link : a.link.state < 2 → b.link = a.link
  time : b.time = a.time
  regs : b.regs = a.regs

theorem Dark.refl (a : State) : Dark a a := ⟨fun _ => rfl, rfl, rfl⟩

theorem Dark.upd {a s : State} (h : Dark a s)
    {x1 x2 x3 x4 x5 x6 x7 x8 x9 x10 x11 x12 x13 x14 x15 x16 x17 x18 x19 x20 x21 x22 x23 x24 x25 x26}
    (h1 : x22 = s.link := by rfl) (h2 : x9 = s.time := by rfl) (h3 : x4 = s.regs := by rfl) :
    Dark a (State.mk x1 x2 x3 x4 x5 x6 x7 x8 x9 x10 x11 x12 x13 x14 x15 x16 x17 x18 x19 x20 x21 x22 x23 x24 x25 x26) := by
  subst h1 h2 h3
  exact ⟨h.link, h.time, h.regs⟩

theorem foldState_dark {a : State} {α : Type} {f : State → α → State} {l : List α}
    (hf : ∀ t x, Dark a t → Dark a (f t x)) : ∀ {s : State}, Dark a s → Dark a (foldState f s l) := by
  induction l with
  | nil => exact fun h => h
  | cons x l ih => exact fun h => ih (hf _ x h)

theorem iter_dark {a : State} {f : State → State} {n : Nat} (hf : ∀ t, Dark a t → Dark a (f t)) :
    ∀ {s : State}, Dark a s → Dark a (iter f n s) := by
  induction n with
  | zero => exact fun h => h
  | succ n ih => exact fun h => ih (hf _ h)

/-- A fold whose accumulator holds the state at `g`. -/
theorem foldl_dark {a : State} {α β : Type} (g : β → State) {f : β → α → β} {l : List α}
    (hf : ∀ b x, Dark a (g b) → Dark a (g (f b x))) : ∀ {b : β}, Dark a (g b) → Dark a (g (l.foldl f b)) := by
  induction l with
  | nil => exact fun h => h
  | cons x l ih => exact fun h => ih (hf _ x h)

theorem caskRec_dark {orig s : State} {r : CaskRec} (dark : Dark orig s) : Dark orig (caskRec s r) := by
  unfold caskRec raise modSrc
  dsimp only
  repeat' split
  all_goals exact dark.upd

theorem modSrc_dark {orig s : State} {n : Nat} {f : FaultSrc → FaultSrc}  (dark : Dark orig s) : Dark orig (modSrc s n f) := by
  dsimp -iota only [modSrc]
  with_reducible repeat' first
      | assumption | refine Dark.upd ?_

theorem raise_dark {orig s : State} {ev : FaultEv}  (dark : Dark orig s) : Dark orig (raise s ev) := by
  dsimp -iota only [raise]
  with_reducible repeat' first
      | assumption | apply modSrc_dark | (intro _) | refine Dark.upd ?_

theorem setLevel_dark {orig s : State} {n : Nat} {high : Bool} {unit : UnitRef}  (dark : Dark orig s) : Dark orig (setLevel s n high unit) := by
  dsimp -iota only [setLevel]
  with_reducible repeat' first
      | assumption | apply modSrc_dark | (intro _) | split | refine Dark.upd ?_

theorem caskNote_dark {orig s : State} {kind : Nat} {payload : List Byte}  (dark : Dark orig s) : Dark orig (caskNote s kind payload) := by
  dsimp -iota only [caskNote]
  with_reducible repeat' first
      | assumption | apply caskRec_dark | refine Dark.upd ?_

theorem noteInternal_dark {orig s : State} {opcode : Nat} {src : Nat} {reqId : Nat} {unitKind : Nat} {unit : Nat} {detail : Nat}  (dark : Dark orig s) : Dark orig (noteInternal s opcode src reqId unitKind unit detail) := by
  dsimp -iota only [noteInternal]
  with_reducible repeat' first
      | assumption | apply raise_dark | apply caskNote_dark | refine Dark.upd ?_

theorem whileRunning_dark {orig s : State} {f : Unit → State} (h_f : Dark orig (f ())) (dark : Dark orig s) : Dark orig (whileRunning s f) := by
  dsimp -iota only [whileRunning]
  with_reducible repeat' first
      | assumption | apply h_f | (intro _) | split | refine Dark.upd ?_

theorem k2hPush_dark {orig s : State} {kind : Nat} {tag : Nat} {ws : List Word32}  (dark : Dark orig s) : Dark orig (k2hPush s kind tag ws) := by
  dsimp -iota only [k2hPush]
  with_reducible repeat' first
      | assumption | (intro _) | refine Dark.upd ?_

theorem linkSend_dark {orig s : State} {t : LinkTx} (dark : Dark orig s) : Dark orig (linkSend s t) := by
  obtain ⟨h1, h2, h3⟩ := dark
  refine ⟨fun h => ?_, ?_, ?_⟩
  · have e := h1 h
    have d : ¬ 2 ≤ s.link.state := by rw [e]; omega
    have d3 : ¬ s.link.state = 3 := by rw [e]; omega
    rw [← e]
    cases t <;> simp [linkSend, d, d3]
  · simp only [linkSend, linkPump]; split <;> split <;> exact h2
  · simp only [linkSend, linkPump]; split <;> split <;> exact h3

theorem modCtx_dark {orig s : State} {a : AssocKey} {f : PeerCtx → PeerCtx}  (dark : Dark orig s) : Dark orig (modCtx s a f) := by
  dsimp -iota only [modCtx]
  with_reducible repeat' first
      | assumption | (intro _) | split | refine Dark.upd ?_

theorem writeBack_dark {orig s : State} {c : PeerCtx}  (dark : Dark orig s) : Dark orig (writeBack s c) := by
  dsimp -iota only [writeBack]
  with_reducible repeat' first
      | assumption | apply linkSend_dark | (intro _) | split | refine Dark.upd ?_

theorem makeRoom_dark {orig s t : State} {die : Nat} (dark : Dark orig s) (e : makeRoom s die = some t) :
    Dark orig t := by
  dsimp only [makeRoom] at e
  split at e
  · cases e; exact dark
  · obtain ⟨v, -, rfl⟩ := Option.map_eq_some_iff.1 e
    exact modCtx_dark (writeBack_dark dark)

theorem newCtx_dark {orig s t : State} {a : AssocKey} (dark : Dark orig s) (e : newCtx s a = some t) :
    Dark orig t := by
  dsimp only [newCtx] at e
  split at e
  · obtain ⟨s1, e1, rfl⟩ := Option.map_eq_some_iff.1 e
    exact (makeRoom_dark dark e1).upd
  · cases e

theorem sendUnder_dark {orig s : State} {gen : Option Nat} {a : AssocKey} {cls : MsgClass} {egress : Nat}
    {arrival : Option (Nat × Nat)} {bytes : List Byte} (dark : Dark orig s) :
    Dark orig (sendUnder s gen a cls egress arrival bytes) := by
  dsimp only [sendUnder]
  split
  · next g s1 e =>
    have k : Dark orig s1 := by
      split at e
      · split at e
        · cases e
        · cases e; exact dark
      · exact newCtx_dark dark e
    exact modCtx_dark k.upd
  · exact dark.upd

theorem sendMsg_dark {orig s : State} {a : AssocKey} {cls : MsgClass} {egress : Nat} {arrival : Option (Nat × Nat)} {bytes : List Byte}  (dark : Dark orig s) : Dark orig (sendMsg s a cls egress arrival bytes) := by
  dsimp -iota only [sendMsg]
  with_reducible repeat' first
      | assumption | apply sendUnder_dark | refine Dark.upd ?_

theorem sendControl_dark {orig s : State} {e : Endpoint} {bytes : List Byte}  (dark : Dark orig s) : Dark orig (sendControl s e bytes) := by
  dsimp -iota only [sendControl]
  with_reducible repeat' first
      | assumption | apply linkSend_dark | apply sendMsg_dark | split | refine Dark.upd ?_

theorem reportAll_dark {orig s : State} {what : Nat} {st : Status} {subject : Nat} {epoch : Nat} {arg0 : Nat} {arg1 : Nat}  (dark : Dark orig s) : Dark orig (reportAll s what st subject epoch arg0 arg1) := by
  dsimp -iota only [reportAll]
  with_reducible repeat' first
      | assumption | apply k2hPush_dark | apply sendControl_dark | apply foldState_dark | (intro _) | split
      | refine Dark.upd ?_

theorem dropOutcome_dark {orig s : State} {k : CmdKey}  (dark : Dark orig s) : Dark orig (dropOutcome s k) := by
  dsimp -iota only [dropOutcome]
  with_reducible repeat' first
      | assumption | (intro _) | refine Dark.upd ?_

theorem settle_dark {orig s : State} {c : Command} {st : Status}  (dark : Dark orig s) : Dark orig (settle s c st) := by
  dsimp -iota only [settle]
  with_reducible repeat' first
      | assumption | apply dropOutcome_dark | (intro _) | split | refine Dark.upd ?_

theorem modQueue_dark {orig s : State} {q : Nat} {f : CmdQueue → CmdQueue}  (dark : Dark orig s) : Dark orig (modQueue s q f) := by
  dsimp -iota only [modQueue]
  with_reducible repeat' first
      | assumption | refine Dark.upd ?_

theorem replyUnder_dark {orig s : State} {gen : Option Nat} {c : Command} {cls : MsgClass} {bytes : List Byte}  (dark : Dark orig s) : Dark orig (replyUnder s gen c cls bytes) := by
  dsimp -iota only [replyUnder]
  with_reducible repeat' first
      | assumption | apply linkSend_dark | apply sendUnder_dark | split | refine Dark.upd ?_

theorem sendReply_dark {orig s : State} {c : Command} {cls : MsgClass} {bytes : List Byte}  (dark : Dark orig s) : Dark orig (sendReply s c cls bytes) := by
  dsimp -iota only [sendReply]
  with_reducible repeat' first
      | assumption | apply replyUnder_dark | refine Dark.upd ?_

theorem openOutcome_dark  {orig s : State} {k : CmdKey} {fin : State}   (dark : Dark orig s) (e : openOutcome s k = some fin) : Dark orig fin := by
  dsimp -iota only [openOutcome] at e
  repeat' split at e
  all_goals try (simp only [Option.some.injEq, Prod.mk.injEq, reduceCtorEq] at e <;> obtain rfl := e)
  all_goals
    with_reducible repeat' first
        | assumption | (intro _) | split | refine Dark.upd ?_


theorem settleNew_dark  {orig s : State} {c : Command} {st : Status}  (dark : Dark orig s) : Dark orig (settleNew s c st) := by
  dsimp -iota only [settleNew]
  with_reducible repeat' first
      | assumption | apply settle_dark | refine openOutcome_dark ?_ (by assumption) | split | refine Dark.upd ?_


theorem answerRetired_dark  {orig s0 : State} {c : Command}  (dark : Dark orig s0) : Dark orig (answerRetired s0 c) := by
  dsimp -iota only [answerRetired]
  with_reducible repeat' first
      | assumption | apply modQueue_dark | apply replyUnder_dark | apply settleNew_dark | (intro _) | split
      | refine Dark.upd ?_

theorem answerDup_dark {orig s : State} {c : Command}  (dark : Dark orig s) : Dark orig (answerDup s c) := by
  dsimp -iota only [answerDup]
  with_reducible repeat' first
      | assumption | apply sendReply_dark | refine Dark.upd ?_

theorem answerOne_dark {orig s : State} {c : Command} {r : Reply}  (dark : Dark orig s) : Dark orig (answerOne s c r) := by
  dsimp -iota only [answerOne]
  with_reducible repeat' first
      | assumption | apply modQueue_dark | apply sendReply_dark | (intro _) | refine Dark.upd ?_

theorem dropLive_dark {orig s : State} {k : CmdKey}  (dark : Dark orig s) : Dark orig (dropLive s k) := by
  dsimp -iota only [dropLive]
  with_reducible repeat' first
      | assumption | (intro _) | refine Dark.upd ?_

theorem modLive_dark {orig s : State} {k : CmdKey} {f : Live → Live}  (dark : Dark orig s) : Dark orig (modLive s k f) := by
  dsimp -iota only [modLive]
  with_reducible repeat' first
      | assumption | (intro _) | split | refine Dark.upd ?_

theorem holdChain_dark {orig s : State} {c : Command}  (dark : Dark orig s) : Dark orig (holdChain s c) := by
  dsimp -iota only [holdChain]
  with_reducible repeat' first
      | assumption | apply modLive_dark | (intro _) | refine Dark.upd ?_

theorem completeOne_dark {orig s : State} {c : Command} {r : Reply}  (dark : Dark orig s) : Dark orig (completeOne s c r) := by
  dsimp -iota only [completeOne]
  with_reducible repeat' first
      | assumption | apply sendControl_dark | apply settle_dark | apply answerOne_dark | apply dropLive_dark
      | apply holdChain_dark | apply noteInternal_dark | split | refine Dark.upd ?_

theorem releaseQwait_dark {orig s : State}   (dark : Dark orig s) : Dark orig (releaseQwait s) := by
  dsimp -iota only [releaseQwait]
  with_reducible repeat' first
      | assumption | apply modQueue_dark | apply completeOne_dark | (intro _) | split | refine Dark.upd ?_

theorem releaseQwaits_dark {orig s : State}   (dark : Dark orig s) : Dark orig (releaseQwaits s) := by
  dsimp -iota only [releaseQwaits]
  with_reducible repeat' first
      | assumption | apply releaseQwait_dark | apply iter_dark | refine Dark.upd ?_

theorem answer_dark {orig s : State} {c : Command} {r : Reply}  (dark : Dark orig s) : Dark orig (answer s c r) := by
  dsimp -iota only [answer]
  with_reducible repeat' first
      | assumption | apply answerOne_dark | apply releaseQwaits_dark | refine Dark.upd ?_

theorem complete_dark {orig s : State} {c : Command} {r : Reply}  (dark : Dark orig s) : Dark orig (complete s c r) := by
  dsimp -iota only [complete]
  with_reducible repeat' first
      | assumption | apply completeOne_dark | apply releaseQwaits_dark | refine Dark.upd ?_

theorem sendChain_dark {orig s : State} {c : Command} {node : Nat} {epoch : Nat}  (dark : Dark orig s) : Dark orig (sendChain s c node epoch) := by
  dsimp -iota only [sendChain]
  with_reducible repeat' first
      | assumption | apply sendMsg_dark | refine Dark.upd ?_

theorem finish_dark {orig s : State} {c : Command} {repl : Nat} {r : Reply}  (dark : Dark orig s) : Dark orig (finish s c repl r) := by
  dsimp -iota only [finish]
  with_reducible repeat' first
      | assumption | apply modLive_dark | apply complete_dark | apply sendChain_dark | apply foldState_dark
      | (intro _) | split | refine Dark.upd ?_

theorem clearWaiting_dark {orig s : State}   (dark : Dark orig s) : Dark orig (clearWaiting s) := by
  dsimp -iota only [clearWaiting]
  with_reducible repeat' first
      | assumption | (intro _) | refine Dark.upd ?_

theorem turnAway_dark {orig s : State} {st : Status} {c : Command}  (dark : Dark orig s) : Dark orig (turnAway st s c) := by
  dsimp -iota only [turnAway]
  with_reducible repeat' first
      | assumption | apply answer_dark | split | refine Dark.upd ?_

theorem discardChained_dark {orig s : State}   (dark : Dark orig s) : Dark orig (discardChained s) := by
  dsimp -iota only [discardChained]
  with_reducible repeat' first
      | assumption | apply dropOutcome_dark | apply dropLive_dark | apply foldState_dark | (intro _)
      | refine Dark.upd ?_

theorem fenceNode_dark {orig s : State} {cause source : Nat} (dark : Dark orig s) :
    Dark orig (fenceNode s cause source) := by
  dsimp only [fenceNode]
  split
  · exact dark
  · with_reducible repeat' first
      | assumption | apply discardChained_dark | apply turnAway_dark | apply clearWaiting_dark
      | apply foldState_dark | apply complete_dark | apply setLevel_dark | apply caskNote_dark | (intro _)
      | refine Dark.upd ?_

theorem modRegion_dark {orig s : State} {r : Nat} {f : LedRegion → LedRegion}  (dark : Dark orig s) : Dark orig (modRegion s r f) := by
  dsimp -iota only [modRegion]
  with_reducible repeat' first
      | assumption | refine Dark.upd ?_

theorem modLine_dark {orig s : State} {r : Nat} {i : Nat} {f : LedLine → LedLine}  (dark : Dark orig s) : Dark orig (modLine s r i f) := by
  dsimp -iota only [modLine]
  with_reducible repeat' first
      | assumption | apply modRegion_dark | (intro _) | refine Dark.upd ?_

theorem sendRecall_dark {orig s : State} {r : Nat} {i : Nat} {holder : Endpoint} {downgrade : Bool} {version : Nat}  (dark : Dark orig s) : Dark orig (sendRecall s r i holder downgrade version) := by
  dsimp -iota only [sendRecall]
  with_reducible repeat' first
      | assumption | apply linkSend_dark | apply sendMsg_dark | (intro _) | split | refine Dark.upd ?_

theorem commitLine_dark {orig s : State} {r : Nat} {i : Nat} {bytes : List Byte} {by_ : Option CmdKey}  (dark : Dark orig s) : Dark orig (commitLine s r i bytes by_) := by
  dsimp -iota only [commitLine]
  with_reducible repeat' first
      | assumption | apply modRegion_dark | apply modLine_dark | (intro _) | refine Dark.upd ?_

theorem endRecall_dark {orig s : State} {x : Recall}  (dark : Dark orig s) : Dark orig (endRecall s x) := by
  dsimp -iota only [endRecall]
  with_reducible repeat' first
      | assumption | apply modLine_dark | (intro _) | split | refine Dark.upd ?_

theorem touchLine_dark {orig s : State} {r : Nat} {i : Nat}  (dark : Dark orig s) : Dark orig (touchLine s r i) := by
  dsimp -iota only [touchLine]
  with_reducible repeat' first
      | assumption | refine Dark.upd ?_

theorem returnLine_dark {orig s : State} {r : Nat} {i : Nat} {src : Endpoint} {granted : Nat} {fin : State} {x1 : List Byte} {x2 : Bool} {x3 : Bool}  (dark : Dark orig s) (e : returnLine s r i src granted = (fin, x1, x2, x3)) : Dark orig fin := by
  dsimp -iota only [returnLine] at e
  repeat' split at e
  all_goals try (simp only [Option.some.injEq, Prod.mk.injEq, reduceCtorEq] at e <;> obtain ⟨rfl, -, -, -⟩ := e)
  all_goals
    with_reducible repeat' first
        | assumption | apply modLine_dark | apply touchLine_dark | (intro _) | split | refine Dark.upd ?_

theorem returnLine_darkProj {orig s : State} {r : Nat} {i : Nat} {src : Endpoint} {granted : Nat}  (dark : Dark orig s) : Dark orig (returnLine s r i src granted).1 := by
  rcases h : returnLine s r i src granted with ⟨y0, y1, y2, y3⟩
  exact returnLine_dark dark h

theorem completeRead_dark {orig s : State} {c : Command} {r first count : Nat} {grants : Bool}
    (dark : Dark orig s) : Dark orig (completeRead s c r first count grants) := by
  dsimp -iota only [completeRead]
  split
  next s1 data lost poison e =>
    refine complete_dark ?_
    rw [show s1 = _ from (congrArg Prod.fst e).symm]
    refine foldl_dark Prod.fst (fun b x k => ?_) ?_
    · exact returnLine_dark k rfl
    · exact dark

theorem giveGrant_dark {orig s : State} {r : Nat} {i : Nat} {src : Endpoint} {grant : Nat}  (dark : Dark orig s) : Dark orig (giveGrant s r i src grant) := by
  dsimp -iota only [giveGrant]
  with_reducible repeat' first
      | assumption | apply modLine_dark | (intro _) | split | refine Dark.upd ?_

theorem recallFor_dark {orig s : State} {r : Nat} {i : Nat} {src : Endpoint} {grant : Nat}  (dark : Dark orig s) : Dark orig (recallFor s r i src grant) := by
  dsimp -iota only [recallFor]
  with_reducible repeat' first
      | assumption | apply sendRecall_dark | apply foldState_dark | (intro _) | split | refine Dark.upd ?_

theorem reserveFrom_dark {orig : State} {before : List LedWait} {w : LedWait} {n : Nat} :
    ∀ {s t : State} {k j : Nat}, Dark orig s → reserveFrom before w n s k = (t, j) → Dark orig t := by
  induction n with
  | zero => intro s t k j dark e; cases e; exact dark
  | succ n ih =>
    intro s t k j dark e
    dsimp only [reserveFrom] at e
    repeat' split at e
    all_goals first | exact ih dark e | (cases e; exact dark) | (cases e; exact recallFor_dark dark)

theorem serveWaits_dark {orig : State} {ws : List LedWait} :
    ∀ {before rest : List LedWait} {s t : State}, Dark orig s → serveWaits before ws s = (t, rest) → Dark orig t := by
  induction ws with
  | nil => intro before rest s t dark e; cases e; exact dark
  | cons w ws ih =>
    intro before rest s t dark e
    unfold serveWaits at e
    split at e
    next s1 k e1 =>
      have k1 := reserveFrom_dark dark e1
      split at e
      · exact ih (completeRead_dark (foldState_dark (fun _ _ h => giveGrant_dark h) k1)) e
      · split at e
        next s3 rs e2 => cases e; exact ih k1 e2

theorem serveLedger_dark {orig s : State}   (dark : Dark orig s) : Dark orig (serveLedger s) := by
  dsimp -iota only [serveLedger]
  with_reducible repeat' first
      | assumption | refine serveWaits_dark ?_ (by assumption) | split | refine Dark.upd ?_

theorem ledgerDup_dark {orig s : State} {c : Command}  (dark : Dark orig s) : Dark orig (ledgerDup s c) := by
  dsimp -iota only [ledgerDup]
  with_reducible repeat' first
      | assumption | apply settle_dark | apply answerDup_dark | apply dropLive_dark | refine Dark.upd ?_

theorem poisonLines_dark {orig s : State} {r : Nat} {bad : List Nat}  (dark : Dark orig s) : Dark orig (poisonLines s r bad) := by
  dsimp -iota only [poisonLines]
  with_reducible repeat' first
      | assumption | apply raise_dark | apply modRegion_dark | apply foldState_dark | (intro _) | split
      | refine Dark.upd ?_

theorem finishRecall_dark {orig s : State} {r : Nat} {i : Nat} {src : Endpoint}  (dark : Dark orig s) : Dark orig (finishRecall s r i src) := by
  dsimp -iota only [finishRecall]
  with_reducible repeat' first
      | assumption | apply endRecall_dark | (intro _) | split | refine Dark.upd ?_

theorem writeLine_dark {orig s : State} {c : Command} {r : Nat} {i : Nat} {keep : Nat} {version : Nat} {bytes : List Byte} {fin : State} {x1 : List Byte} {x2 : Bool}  (dark : Dark orig s) (e : writeLine s c r i keep version bytes = (fin, x1, x2)) : Dark orig fin := by
  dsimp -iota only [writeLine] at e
  repeat' split at e
  all_goals try (simp only [Option.some.injEq, Prod.mk.injEq, reduceCtorEq] at e <;> obtain ⟨rfl, -, -⟩ := e)
  all_goals
    with_reducible repeat' first
        | assumption | apply modLine_dark | apply commitLine_dark | apply finishRecall_dark | (intro _) | split
        | refine Dark.upd ?_

theorem writeLine_darkProj {orig s : State} {c : Command} {r : Nat} {i : Nat} {keep : Nat} {version : Nat} {bytes : List Byte}  (dark : Dark orig s) : Dark orig (writeLine s c r i keep version bytes).1 := by
  rcases h : writeLine s c r i keep version bytes with ⟨y0, y1, y2⟩
  exact writeLine_dark dark h

theorem dropGrant_dark {orig s : State} {r : Nat} {i : Nat} {src : Endpoint}  (dark : Dark orig s) : Dark orig (dropGrant s r i src) := by
  dsimp -iota only [dropGrant]
  with_reducible repeat' first
      | assumption | apply modLine_dark | (intro _) | split | refine Dark.upd ?_

theorem holderDead_dark {orig s : State} {e : Endpoint}  (dark : Dark orig s) : Dark orig (holderDead s e) := by
  dsimp -iota only [holderDead]
  with_reducible repeat' first
      | assumption | apply serveLedger_dark | (intro _) | refine Dark.upd ?_

theorem ledgerEndGrants_dark {orig s : State}   (dark : Dark orig s) : Dark orig (ledgerEndGrants s) := by
  dsimp -iota only [ledgerEndGrants]
  with_reducible repeat' first
      | assumption | apply holderDead_dark | apply foldState_dark | refine Dark.upd ?_

theorem ldgDeclareDead_dark {orig s : State}   (dark : Dark orig s) : Dark orig (ldgDeclareDead s) := by
  dsimp -iota only [ldgDeclareDead]
  with_reducible repeat' first
      | assumption | apply holderDead_dark | split | refine Dark.upd ?_


theorem setFrame_dark {orig s : State} {lpn : Nat} {f : Frame}  (dark : Dark orig s) : Dark orig (setFrame s lpn f) := by
  dsimp -iota only [setFrame]
  with_reducible repeat' first
      | assumption | refine Dark.upd ?_
theorem modFrame_dark {orig s : State} {lpn : Nat} {f : Frame → Frame}  (dark : Dark orig s) : Dark orig (modFrame s lpn f) := by
  dsimp -iota only [modFrame]
  with_reducible repeat' first
      | assumption | apply setFrame_dark | refine Dark.upd ?_
theorem freeExtent_dark {orig s : State} {l : Loc}  (dark : Dark orig s) : Dark orig (freeExtent s l) := by
  dsimp -iota only [freeExtent]
  with_reducible repeat' first
      | assumption | split | refine Dark.upd ?_
theorem hostTierLost_dark {orig s : State}   (dark : Dark orig s) : Dark orig (hostTierLost s) := by
  dsimp -iota only [hostTierLost]
  with_reducible repeat' first
      | assumption | apply raise_dark | apply caskNote_dark | apply modFrame_dark | apply freeExtent_dark
      | apply foldState_dark | (intro _) | split | refine Dark.upd ?_
theorem contextsLost_dark {orig s : State} {which : PeerCtx → Bool}  (dark : Dark orig s) : Dark orig (contextsLost s which) := by
  dsimp -iota only [contextsLost]
  with_reducible repeat' first
      | assumption | apply reportAll_dark | apply raise_dark | apply caskNote_dark
      | apply foldState_dark | (intro _) | split | refine Dark.upd ?_
theorem memFail_dark {orig s : State} {m : MemRd}  (dark : Dark orig s) : Dark orig (memFail s m) := by
  dsimp -iota only [memFail]
  with_reducible repeat' first
      | assumption | apply modCtx_dark | apply contextsLost_dark | (intro _) | split
      | refine Dark.upd ?_
theorem declareDead_dark {orig s : State} {e : Endpoint} (dark : Dark orig s) : Dark orig (declareDead s e) := by
  dsimp -iota only [declareDead]
  with_reducible repeat' first
      | assumption | apply holderDead_dark | split
/-- The Ranup Link that has gone down trains again from step 1, with its ceilings. -/
theorem linkGoesDown_link (s : State) : (linkGoesDown s).link.state = 1 ∧ (linkGoesDown s).time = s.time ∧
    (linkGoesDown s).regs = s.regs := by
  have a : Dark s (foldState memFail s s.link.memRds) := foldState_dark (fun t x h => memFail_dark h) (Dark.refl s)
  have b : ∀ u : State, u.link.state = 1 → Dark u (setLevel (declareDead (contextsLost (hostTierLost u) fun _ => true) (hlEndpoint u)) 15 true) :=
    fun u _ => setLevel_dark (declareDead_dark (contextsLost_dark (hostTierLost_dark (Dark.refl u))))
  unfold linkGoesDown
  dsimp only
  have c := b { foldState memFail s s.link.memRds with
    link := startTraining { (foldState memFail s s.link.memRds).link with
      down := (foldState memFail s s.link.memRds).link.down + 1, memRds := [] } } rfl
  refine ⟨?_, ?_, ?_⟩
  · rw [c.link (show (1 : Nat) < 2 by decide)]; rfl
  · rw [c.time]; exact a.time
  · rw [c.regs]; exact a.regs

end Sys2Proof.Machine
end

