-- ==== Sys2Proof/Laws/Kept.lean ====
section
/-!
SUPPORT. Laws/Kept.lean: what the operations of the model keep. `Kept p a b` says what an operation with the permissions `p`
guarantees of the state `b` that it reaches from `a`. The files Laws/Kept*.lean prove it of each operation, once, by its
definition; the theorems about a step cite them.
-/

namespace Sys2Proof.Machine

set_option Elab.async false
set_option linter.unreachableTactic false
set_option linter.unusedTactic false

/-- What an operation may do beyond the ordinary: end a fence, write the flash, store registers, and reset the node or stop
its interior. -/
structure Allow where
  fence : Bool := false
  flash : Bool := false
  regs : Bool := false
  power : Bool := false
  deriving DecidableEq, Repr

/-- What an operation with permissions `p` keeps: always the queue of commands, the canonical forms of the slots and of the
flash, and a set ownership fuse; and, without the permission that takes it away, a fence that stands, the flash, the stored
registers, whether the interior runs, the trip and pin reset state, and the two numbers that otherwise never go back: the
next Cask SEQ and the interval counter. -/
structure Kept (p : Allow) (a b : State) : Prop where
  pending : b.pending = a.pending
  slots : memWf 0 a.mem.slots = true → memWf 0 b.mem.slots = true
  flashWf : memWf 255 a.boot.flash = true → memWf 255 b.boot.flash = true
  fuse : a.trust.fuseOwned = true → b.trust.fuseOwned = true
  fenced : p.fence = false → a.fault.fenced = true → b.fault.fenced = true
  flash : p.flash = false → b.boot.flash = a.boot.flash
  regs : p.regs = false → b.regs = a.regs
  running : p.power = false → b.running = a.running
  thermtrip : p.power = false → b.pack.thermtrip = a.pack.thermtrip
  pinReset : p.power = false → b.pack.pinReset = a.pack.pinReset
  cask : p.power = false → a.cask.nextSeq ≤ b.cask.nextSeq
  counter : p.power = false → a.time.counter ≤ b.time.counter

theorem Kept.refl (p : Allow) (a : State) : Kept p a a :=
  ⟨rfl, id, id, id, fun _ => id, fun _ => rfl, fun _ => rfl, fun _ => rfl, fun _ => rfl, fun _ => rfl,
    fun _ => Nat.le_refl _, fun _ => Nat.le_refl _⟩

/-- An update that leaves the kept components alone. -/
theorem Kept.upd {p : Allow} {a s : State} (h : Kept p a s)
    {x1 x2 x3 x4 x5 x6 x7 x8 x9 x10 x11 x12 x13 x14 x15 x16 x17 x18 x19 x20 x21 x22 x23 x24 x25 x26}
    (h1 : x1 = s.pending := by rfl) (h2 : x2 = s.running := by rfl) (h3 : x4 = s.regs := by rfl)
    (h4 : x26.thermtrip = s.pack.thermtrip := by rfl) (h5 : x26.pinReset = s.pack.pinReset := by rfl)
    (h6 : x25.flash = s.boot.flash := by rfl) (h7 : x24.fuseOwned = s.trust.fuseOwned := by rfl)
    (h8 : x14.slots = s.mem.slots := by rfl) (h9 : x10.fenced = s.fault.fenced := by rfl)
    (h10 : x11.nextSeq = s.cask.nextSeq := by rfl) (h11 : x9.counter = s.time.counter := by rfl) :
    Kept p a (State.mk x1 x2 x3 x4 x5 x6 x7 x8 x9 x10 x11 x12 x13 x14 x15 x16 x17 x18 x19 x20 x21 x22 x23 x24 x25 x26) := by
  subst h1 h2 h3
  exact ⟨h.pending, fun w => h8 ▸ h.slots w, fun w => h6 ▸ h.flashWf w, fun w => h7 ▸ h.fuse w, fun q w => h9 ▸ h.fenced q w,
    fun q => h6.trans (h.flash q), h.regs, h.running, fun q => h4.trans (h.thermtrip q), fun q => h5.trans (h.pinReset q),
    fun q => h10 ▸ h.cask q, fun q => h11 ▸ h.counter q⟩

/-- An update of the Cask whose next SEQ does not fall. -/
theorem Kept.setCask {p : Allow} {a s : State} (h : Kept p a s) {c : CaskSt} (hc : s.cask.nextSeq ≤ c.nextSeq) :
    Kept p a { s with cask := c } :=
  ⟨h.pending, h.slots, h.flashWf, h.fuse, h.fenced, h.flash, h.regs, h.running, h.thermtrip, h.pinReset,
    fun q => (h.cask q).trans hc, h.counter⟩

/-- An update of the slots that keeps their canonical form. -/
theorem Kept.setSlots {p : Allow} {a s : State} (h : Kept p a s) {m : Mem}
    (hm : memWf 0 s.mem.slots = true → memWf 0 m = true) : Kept p a { s with mem := { s.mem with slots := m } } :=
  ⟨h.pending, fun w => hm (h.slots w), h.flashWf, h.fuse, h.fenced, h.flash, h.regs, h.running, h.thermtrip, h.pinReset,
    h.cask, h.counter⟩

/-- An update of the fault collector that lets no fence end without permission. -/
theorem Kept.setFault {p : Allow} {a s : State} (h : Kept p a s) {f : FaultSt}
    (hf : p.fence = false → s.fault.fenced = true → f.fenced = true) : Kept p a { s with fault := f } :=
  ⟨h.pending, h.slots, h.flashWf, h.fuse, fun q w => hf q (h.fenced q w), h.flash, h.regs, h.running, h.thermtrip, h.pinReset,
    h.cask, h.counter⟩

/-! Updates of one component that leave its kept parts alone. -/

theorem Kept.put_mem {p : Allow} {a s : State} (h : Kept p a s) {x0 x1 x2 x3 x4 x5 x6 x7 x8 x10 x11 x12 x13 x14 x15 x16
    x17 x18 x19 x20 x21 x22 x23 x24 x25 x26 x27 x28 x29 x30 x31 x32 x33 x34 x35 x36 x37 x38 x39 x40 x41 x42 x43 x44 x45
    x46 x47 x48} : Kept p a { s with mem := ⟨x0, x1, x2, x3, x4, x5, x6, x7, x8, s.mem.slots, x10, x11, x12, x13, x14,
    x15, x16, x17, x18, x19, x20, x21, x22, x23, x24, x25, x26, x27, x28, x29, x30, x31, x32, x33, x34, x35, x36, x37,
    x38, x39, x40, x41, x42, x43, x44, x45, x46, x47, x48⟩ } :=
  ⟨h.pending, h.slots, h.flashWf, h.fuse, h.fenced, h.flash, h.regs, h.running, h.thermtrip, h.pinReset, h.cask, h.counter⟩

theorem Kept.put_fault {p : Allow} {a s : State} (h : Kept p a s) {x0 x1 x2 x4 x5 x6 x7 x8 x9} : Kept p a { s with fault
    := ⟨x0, x1, x2, s.fault.fenced, x4, x5, x6, x7, x8, x9⟩ } :=
  ⟨h.pending, h.slots, h.flashWf, h.fuse, h.fenced, h.flash, h.regs, h.running, h.thermtrip, h.pinReset, h.cask, h.counter⟩

theorem Kept.put_cask {p : Allow} {a s : State} (h : Kept p a s) {x0 x1 x3 x4 x5 x6 x7 x8 x9 x10 x11 x12 x13 x14 x15
    x16} : Kept p a { s with cask := ⟨x0, x1, s.cask.nextSeq, x3, x4, x5, x6, x7, x8, x9, x10, x11, x12, x13, x14, x15,
    x16⟩ } :=
  ⟨h.pending, h.slots, h.flashWf, h.fuse, h.fenced, h.flash, h.regs, h.running, h.thermtrip, h.pinReset, h.cask, h.counter⟩

theorem Kept.put_time {p : Allow} {a s : State} (h : Kept p a s) {x1 x2 x3 x4 x5 x6 x7 x8 x9 x10} : Kept p a { s with
    time := ⟨s.time.counter, x1, x2, x3, x4, x5, x6, x7, x8, x9, x10⟩ } :=
  ⟨h.pending, h.slots, h.flashWf, h.fuse, h.fenced, h.flash, h.regs, h.running, h.thermtrip, h.pinReset, h.cask, h.counter⟩

theorem Kept.put_trust {p : Allow} {a s : State} (h : Kept p a s) {x1 x2 x3 x4 x5 x6 x7 x8 x9 x10 x11 x12 x13 x14 x15
    x16 x17 x18 x19} : Kept p a { s with trust := ⟨s.trust.fuseOwned, x1, x2, x3, x4, x5, x6, x7, x8, x9, x10, x11, x12,
    x13, x14, x15, x16, x17, x18, x19⟩ } :=
  ⟨h.pending, h.slots, h.flashWf, h.fuse, h.fenced, h.flash, h.regs, h.running, h.thermtrip, h.pinReset, h.cask, h.counter⟩

theorem Kept.put_boot {p : Allow} {a s : State} (h : Kept p a s) {x1 x2 x3 x4 x5 x6 x7 x8 x9 x10 x11 x12 x13 x14 x15 x16
    x17 x18 x19 x20 x21 x22 x23 x24 x25} : Kept p a { s with boot := ⟨s.boot.flash, x1, x2, x3, x4, x5, x6, x7, x8, x9,
    x10, x11, x12, x13, x14, x15, x16, x17, x18, x19, x20, x21, x22, x23, x24, x25⟩ } :=
  ⟨h.pending, h.slots, h.flashWf, h.fuse, h.fenced, h.flash, h.regs, h.running, h.thermtrip, h.pinReset, h.cask, h.counter⟩

theorem Kept.put_pack {p : Allow} {a s : State} (h : Kept p a s) {x0 x1 x2 x3 x4 x5 x6 x8 x9 x10 x12} : Kept p a { s with pack :=
    ⟨x0, x1, x2, x3, x4, x5, x6, s.pack.thermtrip, x8, x9, x10, s.pack.pinReset, x12⟩ } :=
  ⟨h.pending, h.slots, h.flashWf, h.fuse, h.fenced, h.flash, h.regs, h.running, h.thermtrip, h.pinReset, h.cask, h.counter⟩


theorem foldState_kept {p : Allow} {a : State} {α : Type} {f : State → α → State} {l : List α}
    (hf : ∀ t x, Kept p a t → Kept p a (f t x)) : ∀ {s : State}, Kept p a s → Kept p a (foldState f s l) := by
  induction l with
  | nil => exact fun h => h
  | cons x l ih => exact fun h => ih (hf _ x h)

theorem iter_kept {p : Allow} {a : State} {f : State → State} {n : Nat} (hf : ∀ t, Kept p a t → Kept p a (f t)) :
    ∀ {s : State}, Kept p a s → Kept p a (iter f n s) := by
  induction n with
  | zero => exact fun h => h
  | succ n ih => exact fun h => ih (hf _ h)

/-- A fold whose accumulator holds the state at `g`. -/
theorem foldl_kept {p : Allow} {a : State} {α β : Type} (g : β → State) {f : β → α → β} {l : List α}
    (hf : ∀ b x, Kept p a (g b) → Kept p a (g (f b x))) : ∀ {b : β}, Kept p a (g b) → Kept p a (g (l.foldl f b)) := by
  induction l with
  | nil => exact fun h => h
  | cons x l ih => exact fun h => ih (hf _ x h)

end Sys2Proof.Machine
end

