-- ==== Sys2Proof/Laws/KeptOps.lean ====
section
/-!
SUPPORT. Laws/KeptOps.lean: what each operation of Machine/Ops.lean keeps (Laws/Kept.lean).
-/

namespace Sys2Proof.Machine

set_option Elab.async false
set_option linter.unreachableTactic false
set_option linter.unusedTactic false

theorem draw_kept {al : Allow} {orig s : State}  {fin : State} {x0 : Nat}  (kept : Kept al orig s) (e : draw s = (x0, fin)) : Kept al orig fin := by
  dsimp -iota only [draw] at e
  repeat' split at e
  all_goals try (simp only [Option.some.injEq, Prod.mk.injEq, reduceCtorEq] at e <;> obtain ⟨-, rfl⟩ := e)
  all_goals
    with_reducible repeat' first
        | assumption | refine Kept.upd ?_

theorem draw_proj {al : Allow} {orig s : State}   (kept : Kept al orig s) : Kept al orig (draw s).2 := by
  rcases h : draw s with ⟨y0, y1⟩
  exact draw_kept kept h

theorem modSrc_kept {al : Allow} {orig s : State} {n : Nat} {f : FaultSrc → FaultSrc}  (kept : Kept al orig s) : Kept al orig (modSrc s n f) := by
  dsimp -iota only [modSrc]
  with_reducible repeat' first
      | assumption | refine Kept.put_fault ?_ | refine Kept.upd ?_

theorem raise_kept {al : Allow} {orig s : State} {ev : FaultEv}  (kept : Kept al orig s) : Kept al orig (raise s ev) := by
  dsimp -iota only [raise]
  with_reducible repeat' first
      | assumption | apply modSrc_kept | (intro _) | refine Kept.put_fault ?_ | refine Kept.upd ?_

theorem setLevel_kept {al : Allow} {orig s : State} {n : Nat} {high : Bool} {unit : UnitRef}  (kept : Kept al orig s) : Kept al orig (setLevel s n high unit) := by
  dsimp -iota only [setLevel]
  with_reducible repeat' first
      | assumption | apply modSrc_kept | (intro _) | split | refine Kept.put_fault ?_ | refine Kept.upd ?_

/-- A record takes the next SEQ. -/
theorem caskPut_nextSeq (c : CaskSt) (r : CaskRec) (seg place : Nat) : (caskPut c r seg place).nextSeq = c.nextSeq + 1 := rfl

theorem caskTake_nextSeq (c : CaskSt) (pin : Bool) (counter : Nat) : c.nextSeq ≤ (caskTake c pin counter).nextSeq := by
  unfold caskTake
  split
  · exact Nat.le_refl _
  · dsimp only; split <;> exact Nat.le_succ _

theorem caskPlace_nextSeq (c : CaskSt) (r : CaskRec) : c.nextSeq ≤ (caskPlace c r).nextSeq := by
  have main : ∀ (c1 : CaskSt) (h : CaskHead) (pin : Bool), c.nextSeq ≤ c1.nextSeq → c.nextSeq ≤ (match h.segment with
      | none => c1
      | some i =>
        let c2 := caskPut c1 { r with pinned := pin } i h.next
        let c3 := if pin then { c2 with headP := { h with next := h.next + 1 } }
                  else { c2 with headO := { h with next := h.next + 1 } }
        if h.next + 1 = 16384 then
          if pin && caskPinned c3 = 16 then { c3 with pinFull := true } else caskTake c3 pin r.counter
        else c3).nextSeq := by
    intro c1 h pin hc
    split
    · exact hc
    · have put := hc.trans (Nat.le_succ c1.nextSeq)
      cases pin <;> dsimp only [Bool.false_eq_true, if_true, if_false] <;> (repeat' split) <;>
        first | exact put | (refine le_trans ?_ (caskTake_nextSeq _ _ _); exact put)
  refine main _ _ _ ?_
  generalize (if caskToPinned c r.kind = true then c.headP else c.headO).segment.isNone = q
  split
  · exact caskTake_nextSeq _ _ _
  · exact Nat.le_refl _

theorem caskRec_kept {al : Allow} {orig s : State} (r : CaskRec) (kept : Kept al orig s) : Kept al orig (caskRec s r) := by
  unfold caskRec
  dsimp only
  split
  · split
    · exact kept.setCask (Nat.le_refl _)
    · exact raise_kept (kept.setCask (Nat.le_refl _))
  · have h := kept.setCask (caskPlace_nextSeq s.cask { r with boot := s.cask.boot, counter := now s })
    split
    · exact raise_kept h
    · exact h
theorem caskNote_kept {al : Allow} {orig s : State} {kind : Nat} {payload : List Byte}  (kept : Kept al orig s) : Kept al orig (caskNote s kind payload) := by
  dsimp -iota only [caskNote]
  with_reducible repeat' first
      | assumption | apply caskRec_kept | refine Kept.upd ?_

theorem caskAction_kept {al : Allow} {orig s : State} {what : Nat} {u : UnitRef} {sparesLeft : Nat}  (kept : Kept al orig s) : Kept al orig (caskAction s what u sparesLeft) := by
  dsimp -iota only [caskAction]
  with_reducible repeat' first
      | assumption | apply caskNote_kept | refine Kept.upd ?_

theorem noteInternal_kept {al : Allow} {orig s : State} {opcode : Nat} {src : Nat} {reqId : Nat} {unitKind : Nat} {unit : Nat} {detail : Nat}  (kept : Kept al orig s) : Kept al orig (noteInternal s opcode src reqId unitKind unit detail) := by
  dsimp -iota only [noteInternal]
  with_reducible repeat' first
      | assumption | apply raise_kept | apply caskNote_kept | refine Kept.upd ?_

theorem fireInj_kept {al : Allow} {orig s : State} {checker : Nat} {unit : Nat} {fin : State} {x0 : Nat}  (kept : Kept al orig s) (e : fireInj s checker unit = some (x0, fin)) : Kept al orig fin := by
  dsimp -iota only [fireInj] at e
  repeat' split at e
  all_goals try (simp only [Option.some.injEq, Prod.mk.injEq, reduceCtorEq] at e <;> obtain ⟨-, rfl⟩ := e)
  all_goals
    with_reducible repeat' first
        | assumption | apply raise_kept | split | refine Kept.put_fault ?_ | refine Kept.upd ?_

theorem checkFails_kept {al : Allow} {orig s fin : State} {checker unit : Nat} {real x y : Bool} (kept : Kept al orig s)
    (e : checkFails s checker unit real = (x, y, fin)) : Kept al orig fin := by
  unfold checkFails at e
  split at e
  · next e1 => cases e; exact fireInj_kept kept e1
  · cases e; exact kept

/-- A check that is made only under a condition. -/
theorem checkFailsIf_kept {al : Allow} {orig s fin : State} {c : Prop} [Decidable c] {checker unit : Nat}
    {real x0 y0 x y : Bool} (kept : Kept al orig s)
    (e : (if c then checkFails s checker unit real else (x0, y0, s)) = (x, y, fin)) : Kept al orig fin := by
  split at e
  · exact checkFails_kept kept e
  · cases e; exact kept

theorem checkFails_proj {al : Allow} {orig s : State} {checker : Nat} {unit : Nat} {real : Bool}  (kept : Kept al orig s) : Kept al orig (checkFails s checker unit real).2.2 := by
  rcases h : checkFails s checker unit real with ⟨y0, y1, y2⟩
  exact checkFails_kept kept h

theorem countError_kept {al : Allow} {orig s : State} {a : Nat}  (kept : Kept al orig s) : Kept al orig (countError s a) := by
  dsimp -iota only [countError]
  with_reducible repeat' first
      | assumption | refine Kept.upd ?_

theorem regEnter_kept {al : Allow} {orig s : State} {a : Nat} {f : State → State} (h_f : ∀ t, Kept al orig t → Kept al orig (f t)) (kept : Kept al orig s) : Kept al orig (regEnter s a f) := by
  dsimp -iota only [regEnter]
  with_reducible repeat' first
      | assumption | apply countError_kept | apply h_f | (intro _) | split | refine Kept.upd ?_

theorem whileRunning_kept {al : Allow} {orig s : State} {f : Unit → State} (h_f : Kept al orig (f ())) (kept : Kept al orig s) : Kept al orig (whileRunning s f) := by
  dsimp -iota only [whileRunning]
  with_reducible repeat' first
      | assumption | apply h_f | (intro _) | split | refine Kept.upd ?_

theorem modChan_kept {al : Allow} {orig s : State} {n : Nat} {f : Chan → Chan}  (kept : Kept al orig s) : Kept al orig (modChan s n f) := by
  dsimp -iota only [modChan]
  with_reducible repeat' first
      | assumption | refine Kept.put_mem ?_ | refine Kept.upd ?_

theorem modStack_kept {al : Allow} {orig s : State} {n : Nat} {f : StackSt → StackSt}  (kept : Kept al orig s) : Kept al orig (modStack s n f) := by
  dsimp -iota only [modStack]
  with_reducible repeat' first
      | assumption | refine Kept.put_mem ?_ | refine Kept.upd ?_

theorem modQuad_kept {al : Allow} {orig s : State} {q : Nat} {f : Quad → Quad}  (kept : Kept al orig s) : Kept al orig (modQuad s q f) := by
  dsimp -iota only [modQuad]
  with_reducible repeat' first
      | assumption | refine Kept.put_mem ?_ | refine Kept.upd ?_

theorem modCluster_kept {al : Allow} {orig s : State} {q : Nat} {f : Cluster → Cluster}  (kept : Kept al orig s) : Kept al orig (modCluster s q f) := by
  dsimp -iota only [modCluster]
  with_reducible repeat' first
      | assumption | refine Kept.put_mem ?_ | refine Kept.upd ?_

theorem modTile_kept {al : Allow} {orig s : State} {t : Nat} {f : Tile → Tile}  (kept : Kept al orig s) : Kept al orig (modTile s t f) := by
  dsimp -iota only [modTile]
  with_reducible repeat' first
      | assumption | refine Kept.put_mem ?_ | refine Kept.upd ?_

end Sys2Proof.Machine
end

