-- ==== Sys2Proof/Laws/KeptFrames.lean ====
section
/-!
SUPPORT. Laws/KeptFrames.lean: what each operation of Machine/Frames.lean keeps (Laws/Kept.lean).
-/

namespace Sys2Proof.Machine

set_option Elab.async false
set_option linter.unreachableTactic false
set_option linter.unusedTactic false

theorem setFrame_kept {al : Allow} {orig s : State} {lpn : Nat} {f : Frame}  (kept : Kept al orig s) : Kept al orig (setFrame s lpn f) := by
  dsimp -iota only [setFrame]
  with_reducible repeat' first
      | assumption | refine Kept.put_mem ?_ | refine Kept.upd ?_

theorem modFrame_kept {al : Allow} {orig s : State} {lpn : Nat} {f : Frame → Frame}  (kept : Kept al orig s) : Kept al orig (modFrame s lpn f) := by
  dsimp -iota only [modFrame]
  with_reducible repeat' first
      | assumption | apply setFrame_kept | refine Kept.upd ?_

theorem holdAt_kept {al : Allow} {orig s : State} {l : Loc} {w : HoldWork} {words : Nat}  (kept : Kept al orig s) : Kept al orig (holdAt s l w words) := by
  dsimp -iota only [holdAt]
  with_reducible repeat' first
      | assumption | apply modChan_kept | (intro _) | split | refine Kept.upd ?_

theorem whenMemory_kept {al : Allow} {orig s : State} {ls : List Loc} {w : HoldWork} {words : Nat} {f : Unit → State} (h_f : Kept al orig (f ())) (kept : Kept al orig s) : Kept al orig (whenMemory s ls w words f) := by
  dsimp -iota only [whenMemory]
  with_reducible repeat' first
      | assumption | apply holdAt_kept | apply foldState_kept | apply h_f | (intro _) | split | refine Kept.upd ?_

theorem slotWrite_kept {al : Allow} {orig s : State} {l : Loc} {o : Nat} {bs : List Byte} (kept : Kept al orig s) :
    Kept al orig (slotWrite s l o bs) := by
  unfold slotWrite
  split
  · exact kept.setSlots fun w => memWriteN_wf _ _ w
  · exact kept
theorem imgWrite_kept {al : Allow} {orig s : State} {lpn : Nat} {o : Nat} {bs : List Byte}  (kept : Kept al orig s) : Kept al orig (imgWrite s lpn o bs) := by
  dsimp -iota only [imgWrite]
  with_reducible repeat' first
      | assumption | apply slotWrite_kept | refine Kept.upd ?_

theorem slotFill_kept {al : Allow} {orig s : State} {l : Loc} {img : Mem} (kept : Kept al orig s) :
    Kept al orig (slotFill s l img) := by
  unfold slotFill
  split
  · exact kept.setSlots fun w => memImage_wf _ (memClear_wf _ _ w)
  · exact kept
theorem setSideFlag_kept {al : Allow} {orig s : State} {lpn : Nat} {bit : Nat} {v : Bool}  (kept : Kept al orig s) : Kept al orig (setSideFlag s lpn bit v) := by
  dsimp -iota only [setSideFlag]
  with_reducible repeat' first
      | assumption | apply imgWrite_kept | split | refine Kept.upd ?_

theorem setFlux_kept {al : Allow} {orig s : State} {lpn : Nat} {v : Bool}  (kept : Kept al orig s) : Kept al orig (setFlux s lpn v) := by
  dsimp -iota only [setFlux]
  with_reducible repeat' first
      | assumption | apply modFrame_kept | apply setSideFlag_kept | (intro _) | split | refine Kept.upd ?_

theorem poisonFrame_kept {al : Allow} {orig s : State} {lpn : Nat}  (kept : Kept al orig s) : Kept al orig (poisonFrame s lpn) := by
  dsimp -iota only [poisonFrame]
  with_reducible repeat' first
      | assumption | apply modFrame_kept | apply setSideFlag_kept | (intro _) | refine Kept.upd ?_

theorem modFree_kept {al : Allow} {orig s : State} {pcn : Nat} {f : FreeList → FreeList}  (kept : Kept al orig s) : Kept al orig (modFree s pcn f) := by
  dsimp -iota only [modFree]
  with_reducible repeat' first
      | assumption | refine Kept.put_mem ?_ | refine Kept.upd ?_

theorem zeroSlot_kept {al : Allow} {orig s : State} {st pc n : Nat} (kept : Kept al orig s) :
    Kept al orig (zeroSlot s st pc n) := kept.setSlots fun w => memWriteN_wf _ _ (memClear_wf _ _ w)
theorem takeSlot_kept {al : Allow} {orig s t : State} {order : List (Nat × Nat)} {lpn : Nat} {l : Loc} (kept : Kept al orig s)
    (e : takeSlot s order = some (lpn, l, t)) : Kept al orig t := by
  induction order with
  | nil => cases e
  | cons c order ih =>
    unfold takeSlot at e
    split at e
    · simp only [Option.some.injEq, Prod.mk.injEq] at e
      obtain ⟨-, -, rfl⟩ := e
      refine modFree_kept ?_
      split
      · exact zeroSlot_kept kept
      · exact kept
    · exact ih e
theorem lpnTake_kept {al : Allow} {orig s : State}  {fin : State} {x0 : Nat}  (kept : Kept al orig s) (e : lpnTake s = some (x0, fin)) : Kept al orig fin := by
  dsimp -iota only [lpnTake] at e
  repeat' split at e
  all_goals try (simp only [Option.some.injEq, Prod.mk.injEq, reduceCtorEq] at e <;> obtain ⟨-, rfl⟩ := e)
  all_goals
    with_reducible repeat' first
        | assumption | split | refine Kept.put_mem ?_ | refine Kept.upd ?_

theorem vacate_kept {al : Allow} {orig s : State} {y0 : Loc}  (kept : Kept al orig s) : Kept al orig (vacate s y0) := by
  dsimp -iota only [vacate]
  with_reducible repeat' first
      | assumption | apply modFree_kept | (intro _) | split | refine Kept.upd ?_

theorem lpnGive_kept {al : Allow} {orig s : State} {lpn : Nat}  (kept : Kept al orig s) : Kept al orig (lpnGive s lpn) := by
  dsimp -iota only [lpnGive]
  with_reducible repeat' first
      | assumption | refine Kept.put_mem ?_ | refine Kept.upd ?_

theorem pairVacant_kept {al : Allow} {orig s : State} {pcn : Nat}  (kept : Kept al orig s) : Kept al orig (pairVacant s pcn) := by
  dsimp -iota only [pairVacant]
  with_reducible repeat' first
      | assumption | apply modFree_kept | refine lpnTake_kept ?_ (by assumption) | (intro _) | split
      | refine Kept.upd ?_

theorem takeBare_kept {al : Allow} {orig s : State} {order : List (Nat × Nat)} {fin : State} {x0 : Loc}  (kept : Kept al orig s) (e : takeBare s order = some (x0, fin)) : Kept al orig fin := by
  dsimp -iota only [takeBare] at e
  repeat' split at e
  all_goals try (simp only [Option.some.injEq, Prod.mk.injEq, reduceCtorEq] at e <;> obtain ⟨-, rfl⟩ := e)
  all_goals
    with_reducible repeat' first
        | assumption | apply modFree_kept | refine takeSlot_kept ?_ (by assumption) | apply lpnGive_kept | (intro _)
        | split | refine Kept.upd ?_

theorem freeExtent_kept {al : Allow} {orig s : State} {l : Loc}  (kept : Kept al orig s) : Kept al orig (freeExtent s l) := by
  dsimp -iota only [freeExtent]
  with_reducible repeat' first
      | assumption | split | refine Kept.put_mem ?_ | refine Kept.upd ?_

theorem dropTransfers_kept {al : Allow} {orig s : State} {lpn : Nat}  (kept : Kept al orig s) : Kept al orig (dropTransfers s lpn) := by
  dsimp -iota only [dropTransfers]
  with_reducible repeat' first
      | assumption | apply vacate_kept | apply foldState_kept | (intro _) | refine Kept.put_mem ?_
      | refine Kept.upd ?_

theorem freeFrame_kept {al : Allow} {orig s : State} {lpn : Nat}  (kept : Kept al orig s) : Kept al orig (freeFrame s lpn) := by
  dsimp -iota only [freeFrame]
  with_reducible repeat' first
      | assumption | apply setFrame_kept | apply modFree_kept | apply vacate_kept | apply lpnGive_kept
      | apply freeExtent_kept | apply dropTransfers_kept | (intro _) | split | refine Kept.upd ?_

theorem decRef_kept {al : Allow} {orig s : State} {lpn : Nat}  (kept : Kept al orig s) : Kept al orig (decRef s lpn) := by
  dsimp -iota only [decRef]
  with_reducible repeat' first
      | assumption | apply setFrame_kept | apply modFrame_kept | apply freeFrame_kept | (intro _) | split
      | refine Kept.upd ?_

theorem dropOldExts_kept {al : Allow} {orig s : State} {lpn : Nat}  (kept : Kept al orig s) : Kept al orig (dropOldExts s lpn) := by
  dsimp -iota only [dropOldExts]
  with_reducible repeat' first
      | assumption | apply freeExtent_kept | apply foldState_kept | (intro _) | refine Kept.put_mem ?_
      | refine Kept.upd ?_

theorem retireExtent_kept {al : Allow} {orig s : State} {lpn : Nat} {l : Loc}  (kept : Kept al orig s) : Kept al orig (retireExtent s lpn l) := by
  dsimp -iota only [retireExtent]
  with_reducible repeat' first
      | assumption | apply freeExtent_kept | split | refine Kept.put_mem ?_ | refine Kept.upd ?_

theorem unpin_kept {al : Allow} {orig s : State} {lpn : Nat}  (kept : Kept al orig s) : Kept al orig (unpin s lpn) := by
  dsimp -iota only [unpin]
  with_reducible repeat' first
      | assumption | apply setFrame_kept | apply freeFrame_kept | apply dropOldExts_kept | split
      | refine Kept.upd ?_

theorem allocBlocks_kept {al : Allow} {orig s : State} {len : Nat} {fin : State} {x0 : Nat}  (kept : Kept al orig s) (e : allocBlocks s len = some (x0, fin)) : Kept al orig fin := by
  dsimp -iota only [allocBlocks] at e
  repeat' split at e
  all_goals try (simp only [Option.some.injEq, Prod.mk.injEq, reduceCtorEq] at e <;> obtain ⟨-, rfl⟩ := e)
  all_goals
    with_reducible repeat' first
        | assumption | split | refine Kept.put_mem ?_ | refine Kept.upd ?_

theorem freeBlocks_kept {al : Allow} {orig s : State} {b : Nat}  (kept : Kept al orig s) : Kept al orig (freeBlocks s b) := by
  dsimp -iota only [freeBlocks]
  with_reducible repeat' first
      | assumption | (intro _) | refine Kept.put_mem ?_ | refine Kept.upd ?_

theorem setSeq_kept {al : Allow} {orig s : State} {q : SeqId} {x : Seq}  (kept : Kept al orig s) : Kept al orig (setSeq s q x) := by
  dsimp -iota only [setSeq]
  with_reducible repeat' first
      | assumption | refine Kept.put_mem ?_ | refine Kept.upd ?_

theorem modSeq_kept {al : Allow} {orig s : State} {q : SeqId} {f : Seq → Seq}  (kept : Kept al orig s) : Kept al orig (modSeq s q f) := by
  dsimp -iota only [modSeq]
  with_reducible repeat' first
      | assumption | apply setSeq_kept | split | refine Kept.upd ?_

theorem xlatDrop_kept {al : Allow} {orig s : State} {q : SeqId} {t : Nat} {k : Nat}  (kept : Kept al orig s) : Kept al orig (xlatDrop s q t k) := by
  dsimp -iota only [xlatDrop]
  with_reducible repeat' first
      | assumption | (intro _) | refine Kept.put_mem ?_ | refine Kept.upd ?_

theorem pageSet_kept {al : Allow} {orig s : State} {q : SeqId} {t : Nat} {k : Nat} {h : PageHandle}  (kept : Kept al orig s) : Kept al orig (pageSet s q t k h) := by
  dsimp -iota only [pageSet]
  with_reducible repeat' first
      | assumption | refine allocBlocks_kept ?_ (by assumption) | apply setSeq_kept | apply xlatDrop_kept
      | (intro _) | split | refine Kept.put_mem ?_ | refine Kept.upd ?_

theorem pageName_kept {al : Allow} {orig s fin : State} {q : SeqId} {t k : Nat} {h : PageHandle} (kept : Kept al orig s)
    (e : pageName s q t k h = some fin) : Kept al orig fin := by
  simp only [pageName] at e
  split at e
  · injection e with e
    subst e
    exact pageSet_kept kept
  · cases e
theorem pageDel_kept {al : Allow} {orig s : State} {q : SeqId} {t : Nat} {k : Nat}  (kept : Kept al orig s) : Kept al orig (pageDel s q t k) := by
  dsimp -iota only [pageDel]
  with_reducible repeat' first
      | assumption | apply xlatDrop_kept | (intro _) | split | refine Kept.put_mem ?_ | refine Kept.upd ?_

theorem xlatTouch_kept {al : Allow} {orig s : State} {die : Nat} {q : SeqId} {t : Nat} {k : Nat}  (kept : Kept al orig s) : Kept al orig (xlatTouch s die q t k) := by
  dsimp -iota only [xlatTouch]
  with_reducible repeat' first
      | assumption | (intro _) | refine Kept.put_mem ?_ | refine Kept.upd ?_

theorem retierLeaves_kept {al : Allow} {orig s : State} {lpn : Nat}  (kept : Kept al orig s) : Kept al orig (retierLeaves s lpn) := by
  dsimp -iota only [retierLeaves]
  with_reducible repeat' first
      | assumption | apply pageSet_kept | apply foldState_kept | (intro _) | split | refine Kept.upd ?_

theorem dropReserve_kept {al : Allow} {orig s : State} {q : SeqId} {t : Nat}  (kept : Kept al orig s) : Kept al orig (dropReserve s q t) := by
  dsimp -iota only [dropReserve]
  with_reducible repeat' first
      | assumption | apply freeFrame_kept | apply setSeq_kept | split | refine Kept.upd ?_

theorem releaseContent_kept {al : Allow} {orig s : State} {q : SeqId}  (kept : Kept al orig s) : Kept al orig (releaseContent s q) := by
  dsimp -iota only [releaseContent]
  with_reducible repeat' first
      | assumption | apply decRef_kept | apply freeBlocks_kept | apply modSeq_kept | apply dropReserve_kept
      | apply foldState_kept | (intro _) | split | refine Kept.put_mem ?_ | refine Kept.upd ?_

theorem removeSeq_kept {al : Allow} {orig s : State} {q : SeqId}  (kept : Kept al orig s) : Kept al orig (removeSeq s q) := by
  dsimp -iota only [removeSeq]
  with_reducible repeat' first
      | assumption | apply releaseContent_kept | refine Kept.put_mem ?_ | refine Kept.upd ?_

theorem wantRefill_kept {al : Allow} {orig s : State} {q : SeqId} {t : Nat}  (kept : Kept al orig s) : Kept al orig (wantRefill s q t) := by
  dsimp -iota only [wantRefill]
  with_reducible repeat' first
      | assumption | apply modSeq_kept | (intro _) | refine Kept.put_mem ?_ | refine Kept.upd ?_

end Sys2Proof.Machine
end

