-- ==== Sys2Proof/Laws/KeptSend.lean ====
section
/-!
SUPPORT. Laws/KeptSend.lean: what each operation of Machine/Send.lean keeps (Laws/Kept.lean).
-/

namespace Sys2Proof.Machine

set_option Elab.async false
set_option linter.unreachableTactic false
set_option linter.unusedTactic false

theorem k2hPush_kept {al : Allow} {orig s : State} {kind : Nat} {tag : Nat} {ws : List Word32}  (kept : Kept al orig s) : Kept al orig (k2hPush s kind tag ws) := by
  dsimp -iota only [k2hPush]
  with_reducible repeat' first
      | assumption | (intro _) | refine Kept.upd ?_

theorem bump_kept {al : Allow} {orig s : State} {tenant : Nat} {i : Nat} {n : Nat}  (kept : Kept al orig s) : Kept al orig (bump s tenant i n) := by
  dsimp -iota only [bump]
  with_reducible repeat' first
      | assumption | (intro _) | refine Kept.upd ?_

theorem countRecords_kept {al : Allow} {orig s : State} {die : Nat} {tenant : Nat} {n : Nat}  (kept : Kept al orig s) : Kept al orig (countRecords s die tenant n) := by
  dsimp -iota only [countRecords]
  with_reducible repeat' first
      | assumption | apply bump_kept | refine Kept.upd ?_

theorem linkPump_kept {al : Allow} {orig s : State}   (kept : Kept al orig s) : Kept al orig (linkPump s) := by
  dsimp -iota only [linkPump]
  with_reducible repeat' first
      | assumption | apply iter_kept | (intro _) | refine Kept.upd ?_

theorem linkSend_kept {al : Allow} {orig s : State} {t : LinkTx}  (kept : Kept al orig s) : Kept al orig (linkSend s t) := by
  dsimp -iota only [linkSend]
  with_reducible repeat' first
      | assumption | apply linkPump_kept | split | refine Kept.upd ?_

theorem modCtx_kept {al : Allow} {orig s : State} {a : AssocKey} {f : PeerCtx → PeerCtx}  (kept : Kept al orig s) : Kept al orig (modCtx s a f) := by
  dsimp -iota only [modCtx]
  with_reducible repeat' first
      | assumption | (intro _) | split | refine Kept.upd ?_

theorem writeBack_kept {al : Allow} {orig s : State} {c : PeerCtx}  (kept : Kept al orig s) : Kept al orig (writeBack s c) := by
  dsimp -iota only [writeBack]
  with_reducible repeat' first
      | assumption | apply linkSend_kept | (intro _) | split | refine Kept.upd ?_

theorem makeRoom_kept {al : Allow} {orig s t : State} {die : Nat} (kept : Kept al orig s) (e : makeRoom s die = some t) :
    Kept al orig t := by
  dsimp only [makeRoom] at e
  split at e
  · cases e; exact kept
  · obtain ⟨v, -, rfl⟩ := Option.map_eq_some_iff.1 e
    exact modCtx_kept (writeBack_kept kept)
theorem newCtx_kept {al : Allow} {orig s t : State} {a : AssocKey} (kept : Kept al orig s) (e : newCtx s a = some t) :
    Kept al orig t := by
  dsimp only [newCtx] at e
  split at e
  · obtain ⟨s1, e1, rfl⟩ := Option.map_eq_some_iff.1 e
    exact (makeRoom_kept kept e1).upd
  · cases e
theorem sendUnder_kept {al : Allow} {orig s : State} {gen : Option Nat} {a : AssocKey} {cls : MsgClass} {egress : Nat}
    {arrival : Option (Nat × Nat)} {bytes : List Byte} (kept : Kept al orig s) :
    Kept al orig (sendUnder s gen a cls egress arrival bytes) := by
  dsimp only [sendUnder]
  split
  · next g s1 e =>
    have k : Kept al orig s1 := by
      split at e
      · split at e
        · cases e
        · cases e; exact kept
      · exact newCtx_kept kept e
    exact modCtx_kept k.upd
  · exact kept.upd
theorem sendMsg_kept {al : Allow} {orig s : State} {a : AssocKey} {cls : MsgClass} {egress : Nat} {arrival : Option (Nat × Nat)} {bytes : List Byte}  (kept : Kept al orig s) : Kept al orig (sendMsg s a cls egress arrival bytes) := by
  dsimp -iota only [sendMsg]
  with_reducible repeat' first
      | assumption | apply sendUnder_kept | refine Kept.upd ?_

theorem sendControl_kept {al : Allow} {orig s : State} {e : Endpoint} {bytes : List Byte}  (kept : Kept al orig s) : Kept al orig (sendControl s e bytes) := by
  dsimp -iota only [sendControl]
  with_reducible repeat' first
      | assumption | apply linkSend_kept | apply sendMsg_kept | split | refine Kept.upd ?_

theorem reportAll_kept {al : Allow} {orig s : State} {what : Nat} {st : Status} {subject : Nat} {epoch : Nat} {arg0 : Nat} {arg1 : Nat}  (kept : Kept al orig s) : Kept al orig (reportAll s what st subject epoch arg0 arg1) := by
  dsimp -iota only [reportAll]
  with_reducible repeat' first
      | assumption | apply k2hPush_kept | apply sendControl_kept | apply foldState_kept | (intro _) | split
      | refine Kept.upd ?_

theorem dropOutcome_kept {al : Allow} {orig s : State} {k : CmdKey}  (kept : Kept al orig s) : Kept al orig (dropOutcome s k) := by
  dsimp -iota only [dropOutcome]
  with_reducible repeat' first
      | assumption | (intro _) | refine Kept.upd ?_

theorem settle_kept {al : Allow} {orig s : State} {c : Command} {st : Status}  (kept : Kept al orig s) : Kept al orig (settle s c st) := by
  dsimp -iota only [settle]
  with_reducible repeat' first
      | assumption | apply dropOutcome_kept | (intro _) | split | refine Kept.upd ?_

theorem openOutcome_kept {al : Allow} {orig s : State} {k : CmdKey} {fin : State}   (kept : Kept al orig s) (e : openOutcome s k = some fin) : Kept al orig fin := by
  dsimp -iota only [openOutcome] at e
  repeat' split at e
  all_goals try (simp only [Option.some.injEq, Prod.mk.injEq, reduceCtorEq] at e <;> obtain rfl := e)
  all_goals
    with_reducible repeat' first
        | assumption | (intro _) | split | refine Kept.upd ?_

theorem modQueue_kept {al : Allow} {orig s : State} {q : Nat} {f : CmdQueue → CmdQueue}  (kept : Kept al orig s) : Kept al orig (modQueue s q f) := by
  dsimp -iota only [modQueue]
  with_reducible repeat' first
      | assumption | refine Kept.upd ?_

theorem replyUnder_kept {al : Allow} {orig s : State} {gen : Option Nat} {c : Command} {cls : MsgClass} {bytes : List Byte}  (kept : Kept al orig s) : Kept al orig (replyUnder s gen c cls bytes) := by
  dsimp -iota only [replyUnder]
  with_reducible repeat' first
      | assumption | apply linkSend_kept | apply sendUnder_kept | split | refine Kept.upd ?_

theorem sendReply_kept {al : Allow} {orig s : State} {c : Command} {cls : MsgClass} {bytes : List Byte}  (kept : Kept al orig s) : Kept al orig (sendReply s c cls bytes) := by
  dsimp -iota only [sendReply]
  with_reducible repeat' first
      | assumption | apply replyUnder_kept | refine Kept.upd ?_

theorem settleNew_kept {al : Allow} {orig s : State} {c : Command} {st : Status}  (kept : Kept al orig s) : Kept al orig (settleNew s c st) := by
  dsimp -iota only [settleNew]
  with_reducible repeat' first
      | assumption | apply settle_kept | refine openOutcome_kept ?_ (by assumption) | split | refine Kept.upd ?_

theorem answerRetired_kept {al : Allow} {orig s0 : State} {c : Command}  (kept : Kept al orig s0) : Kept al orig (answerRetired s0 c) := by
  dsimp -iota only [answerRetired]
  with_reducible repeat' first
      | assumption | apply modQueue_kept | apply replyUnder_kept | apply settleNew_kept | (intro _) | split
      | refine Kept.upd ?_

theorem answerDup_kept {al : Allow} {orig s : State} {c : Command}  (kept : Kept al orig s) : Kept al orig (answerDup s c) := by
  dsimp -iota only [answerDup]
  with_reducible repeat' first
      | assumption | apply sendReply_kept | refine Kept.upd ?_

theorem answerOne_kept {al : Allow} {orig s : State} {c : Command} {r : Reply}  (kept : Kept al orig s) : Kept al orig (answerOne s c r) := by
  dsimp -iota only [answerOne]
  with_reducible repeat' first
      | assumption | apply modQueue_kept | apply sendReply_kept | (intro _) | refine Kept.upd ?_

theorem dropLive_kept {al : Allow} {orig s : State} {k : CmdKey}  (kept : Kept al orig s) : Kept al orig (dropLive s k) := by
  dsimp -iota only [dropLive]
  with_reducible repeat' first
      | assumption | (intro _) | refine Kept.upd ?_

theorem modLive_kept {al : Allow} {orig s : State} {k : CmdKey} {f : Live → Live}  (kept : Kept al orig s) : Kept al orig (modLive s k f) := by
  dsimp -iota only [modLive]
  with_reducible repeat' first
      | assumption | (intro _) | split | refine Kept.upd ?_

theorem holdChain_kept {al : Allow} {orig s : State} {c : Command}  (kept : Kept al orig s) : Kept al orig (holdChain s c) := by
  dsimp -iota only [holdChain]
  with_reducible repeat' first
      | assumption | apply modLive_kept | (intro _) | refine Kept.upd ?_

theorem completeOne_kept {al : Allow} {orig s : State} {c : Command} {r : Reply}  (kept : Kept al orig s) : Kept al orig (completeOne s c r) := by
  dsimp -iota only [completeOne]
  with_reducible repeat' first
      | assumption | apply sendControl_kept | apply settle_kept | apply answerOne_kept | apply dropLive_kept
      | apply holdChain_kept | apply noteInternal_kept | split | refine Kept.upd ?_

theorem releaseQwait_kept {al : Allow} {orig s : State}   (kept : Kept al orig s) : Kept al orig (releaseQwait s) := by
  dsimp -iota only [releaseQwait]
  with_reducible repeat' first
      | assumption | apply modQueue_kept | apply completeOne_kept | (intro _) | split | refine Kept.upd ?_

theorem releaseQwaits_kept {al : Allow} {orig s : State}   (kept : Kept al orig s) : Kept al orig (releaseQwaits s) := by
  dsimp -iota only [releaseQwaits]
  with_reducible repeat' first
      | assumption | apply releaseQwait_kept | apply iter_kept | (intro _) | refine Kept.upd ?_

theorem answer_kept {al : Allow} {orig s : State} {c : Command} {r : Reply}  (kept : Kept al orig s) : Kept al orig (answer s c r) := by
  dsimp -iota only [answer]
  with_reducible repeat' first
      | assumption | apply answerOne_kept | apply releaseQwaits_kept | refine Kept.upd ?_

theorem complete_kept {al : Allow} {orig s : State} {c : Command} {r : Reply}  (kept : Kept al orig s) : Kept al orig (complete s c r) := by
  dsimp -iota only [complete]
  with_reducible repeat' first
      | assumption | apply completeOne_kept | apply releaseQwaits_kept | refine Kept.upd ?_

theorem sendChain_kept {al : Allow} {orig s : State} {c : Command} {node : Nat} {epoch : Nat}  (kept : Kept al orig s) : Kept al orig (sendChain s c node epoch) := by
  dsimp -iota only [sendChain]
  with_reducible repeat' first
      | assumption | apply sendMsg_kept | refine Kept.upd ?_

theorem finish_kept {al : Allow} {orig s : State} {c : Command} {repl : Nat} {r : Reply}  (kept : Kept al orig s) : Kept al orig (finish s c repl r) := by
  dsimp -iota only [finish]
  with_reducible repeat' first
      | assumption | apply modLive_kept | apply complete_kept | apply sendChain_kept | apply foldState_kept
      | (intro _) | split | refine Kept.upd ?_

end Sys2Proof.Machine
end

