-- ==== Sys2Proof/Laws/KeptFence.lean ====
section
/-!
SUPPORT. Laws/KeptFence.lean: what each operation of Machine/Fence.lean keeps (Laws/Kept.lean).
-/

namespace Sys2Proof.Machine

set_option Elab.async false
set_option linter.unreachableTactic false
set_option linter.unusedTactic false

theorem clearWaiting_kept {al : Allow} {orig s : State}   (kept : Kept al orig s) : Kept al orig (clearWaiting s) := by
  dsimp -iota only [clearWaiting]
  with_reducible repeat' first
      | assumption | (intro _) | refine Kept.upd ?_

theorem turnAway_kept {al : Allow} {orig s : State} {st : Status} {c : Command}  (kept : Kept al orig s) : Kept al orig (turnAway st s c) := by
  dsimp -iota only [turnAway]
  with_reducible repeat' first
      | assumption | apply answer_kept | split | refine Kept.upd ?_

theorem discardChained_kept {al : Allow} {orig s : State}   (kept : Kept al orig s) : Kept al orig (discardChained s) := by
  dsimp -iota only [discardChained]
  with_reducible repeat' first
      | assumption | apply dropOutcome_kept | apply dropLive_kept | apply foldState_kept | (intro _)
      | refine Kept.upd ?_

theorem fenceNode_kept {al : Allow} {orig s : State} {cause source : Nat} (kept : Kept al orig s) :
    Kept al orig (fenceNode s cause source) := by
  dsimp only [fenceNode]
  split
  · exact kept
  · have k := kept.setFault (f := { s.fault with fenced := true, cause := cause, hard := hardCause cause,
                                                 fenceInc := incarnationOf s }) fun _ _ => rfl
    with_reducible repeat' first
      | exact k | assumption | apply discardChained_kept | apply turnAway_kept | apply clearWaiting_kept
      | apply foldState_kept | apply complete_kept | apply setLevel_kept | apply caskNote_kept | (intro _)
      | refine Kept.upd ?_
theorem endFence_kept {al : Allow} {orig s : State} (hal : al.fence = true) (kept : Kept al orig s) :
    Kept al orig (endFence s) := by
  unfold endFence
  exact setLevel_kept (kept.setFault fun q => by simp [hal] at q)
end Sys2Proof.Machine
end

