-- ==== Sys2Proof/Laws/KeptOperands.lean ====
section
/-!
SUPPORT. Laws/KeptOperands.lean: what each operation of Machine/Operands.lean keeps (Laws/Kept.lean).
-/

namespace Sys2Proof.Machine

set_option Elab.async false
set_option linter.unreachableTactic false
set_option linter.unusedTactic false

theorem whenReady_kept {al : Allow} {orig s : State} {c : Command} {f : Unit → State} (h_f : Kept al orig (f ())) (kept : Kept al orig s) : Kept al orig (whenReady s c f) := by
  dsimp -iota only [whenReady]
  with_reducible repeat' first
      | assumption | apply h_f | (intro _) | split | refine Kept.upd ?_

end Sys2Proof.Machine
end

