-- ==== Sys2Proof/Laws/KeptElements.lean ====
section
/-!
SUPPORT. Laws/KeptElements.lean: what each operation of Machine/Elements.lean keeps (Laws/Kept.lean).
-/

namespace Sys2Proof.Machine

set_option Elab.async false
set_option linter.unreachableTactic false
set_option linter.unusedTactic false

theorem writeSkim_kept {al : Allow} {orig s : State} {lpn : Nat} {f : Nat} {headDim : Nat} {p : Nat} {lo : Nat} {hi : Nat} {widen : Bool}  (kept : Kept al orig s) : Kept al orig (writeSkim s lpn f headDim p lo hi widen) := by
  dsimp -iota only [writeSkim]
  with_reducible repeat' first
      | assumption | apply imgWrite_kept | split | refine Kept.upd ?_

theorem writeToken_kept {al : Allow} {orig s : State} {lpn : Nat} {f : Nat} {headDim : Nat} {p : Nat} {ntok : Nat} {blk : List Byte} {i : Nat} {j : Nat}  (kept : Kept al orig s) : Kept al orig (writeToken s lpn f headDim p ntok blk i j) := by
  dsimp -iota only [writeToken]
  with_reducible repeat' first
      | assumption | apply imgWrite_kept | (intro _) | refine Kept.upd ?_

theorem zeroToken_kept {al : Allow} {orig s : State} {lpn : Nat} {f : Nat} {headDim : Nat} {p : Nat} {i : Nat}  (kept : Kept al orig s) : Kept al orig (zeroToken s lpn f headDim p i) := by
  dsimp -iota only [zeroToken]
  with_reducible repeat' first
      | assumption | apply imgWrite_kept | (intro _) | refine Kept.upd ?_

theorem setTokens_kept {al : Allow} {orig s : State} {lpn : Nat} {n : Nat}  (kept : Kept al orig s) : Kept al orig (setTokens s lpn n) := by
  dsimp -iota only [setTokens]
  with_reducible repeat' first
      | assumption | apply imgWrite_kept | refine Kept.upd ?_

theorem retireRow_kept {al : Allow} {orig s : State} {st : Nat} {pc : Nat} {r : RowRef} {cause : Nat} {injected : Bool}  (kept : Kept al orig s) : Kept al orig (retireRow s st pc r cause injected) := by
  dsimp -iota only [retireRow]
  with_reducible repeat' first
      | assumption | apply caskRec_kept | apply modFree_kept | apply lpnGive_kept | apply foldState_kept | (intro _)
      | split | refine Kept.put_mem ?_ | refine Kept.upd ?_

theorem correctedWord_kept {al : Allow} {orig s : State} {st : Nat} {pc : Nat} {r : RowRef} {injected : Bool}  (kept : Kept al orig s) : Kept al orig (correctedWord s st pc r injected) := by
  dsimp -iota only [correctedWord]
  with_reducible repeat' first
      | assumption | apply raise_kept | apply modChan_kept | apply retireRow_kept | (intro _) | split
      | refine Kept.upd ?_

theorem uncorrectableWord_kept {al : Allow} {orig s : State} {st : Nat} {pc : Nat} {r : RowRef} {injected : Bool}  (kept : Kept al orig s) : Kept al orig (uncorrectableWord s st pc r injected) := by
  dsimp -iota only [uncorrectableWord]
  with_reducible repeat' first
      | assumption | apply raise_kept | apply modChan_kept | apply retireRow_kept | (intro _) | refine Kept.upd ?_

theorem plainWord_kept {al : Allow} {orig s : State} {e : WordErr}  (kept : Kept al orig s) : Kept al orig (plainWord s e) := by
  dsimp -iota only [plainWord]
  with_reducible repeat' first
      | assumption | apply raise_kept | apply retireRow_kept | apply correctedWord_kept | split | refine Kept.upd ?_

theorem injectedRow_kept {al : Allow} {orig s : State} {slot : Nat} {fin : State} {x0 : RowRef}  (kept : Kept al orig s) (e : injectedRow s slot = (x0, fin)) : Kept al orig fin := by
  dsimp -iota only [injectedRow] at e
  repeat' split at e
  all_goals try (simp only [Option.some.injEq, Prod.mk.injEq, reduceCtorEq] at e <;> obtain ⟨-, rfl⟩ := e)
  all_goals
    with_reducible repeat' first
        | assumption | refine draw_kept ?_ (by assumption) | apply draw_proj | split | refine Kept.upd ?_

theorem injectedRow_proj {al : Allow} {orig s : State} {slot : Nat}  (kept : Kept al orig s) : Kept al orig (injectedRow s slot).2 := by
  rcases h : injectedRow s slot with ⟨y0, y1⟩
  exact injectedRow_kept kept h

theorem wordsSeen_kept {al : Allow} {orig s : State} {checker : Nat} {n : Nat} {slot : Nat} {errs : List WordErr} {fin : State} {x0 : List (WordErr × Bool)}  (kept : Kept al orig s) (e : wordsSeen s checker n slot errs = (x0, fin)) : Kept al orig fin := by
  dsimp -iota only [wordsSeen] at e
  repeat' split at e
  all_goals try (simp only [Option.some.injEq, Prod.mk.injEq, reduceCtorEq] at e <;> obtain ⟨-, rfl⟩ := e)
  all_goals
    with_reducible repeat' first
        | assumption | refine fireInj_kept ?_ (by assumption) | refine injectedRow_kept ?_ (by assumption)
        | apply injectedRow_proj | (intro _) | split | refine Kept.upd ?_

theorem wordsSeen_proj {al : Allow} {orig s : State} {checker : Nat} {n : Nat} {slot : Nat} {errs : List WordErr}  (kept : Kept al orig s) : Kept al orig (wordsSeen s checker n slot errs).2 := by
  rcases h : wordsSeen s checker n slot errs with ⟨y0, y1⟩
  exact wordsSeen_kept kept h

theorem checkWords_kept {al : Allow} {orig s : State} {checker : Nat} {lpn : Nat} {seen : List WordErr} {fin : State} {x0 : Bool}  (kept : Kept al orig s) (e : checkWords s checker lpn seen = (x0, fin)) : Kept al orig fin := by
  dsimp -iota only [checkWords] at e
  repeat' split at e
  all_goals try (simp only [Option.some.injEq, Prod.mk.injEq, reduceCtorEq] at e <;> obtain ⟨-, rfl⟩ := e)
  all_goals
    with_reducible repeat' first
        | assumption | apply correctedWord_kept | apply uncorrectableWord_kept | apply plainWord_kept
        | refine wordsSeen_kept ?_ (by assumption) | apply wordsSeen_proj | apply poisonFrame_kept
        | apply foldState_kept | (intro _) | split | refine Kept.upd ?_

theorem checkWords_proj {al : Allow} {orig s : State} {checker : Nat} {lpn : Nat} {seen : List WordErr}  (kept : Kept al orig s) : Kept al orig (checkWords s checker lpn seen).2 := by
  rcases h : checkWords s checker lpn seen with ⟨y0, y1⟩
  exact checkWords_kept kept h

theorem checkAll_kept {al : Allow} {orig : State} {ls : List Nat} :
    ∀ {s t : State} {errs : List (List WordErr)} {b : Bool}, Kept al orig s → checkAll s ls errs = (b, t) → Kept al orig t := by
  induction ls with
  | nil => intro s t errs b kept e; cases e; exact kept
  | cons l ls ih =>
    intro s t errs b kept e
    unfold checkAll at e
    have k : Kept al orig (checkWords s 1 l (errs.headD [])).2 := checkWords_kept kept rfl
    dsimp only at e
    split at e
    · rw [e] at k; exact k
    · exact ih k e
end Sys2Proof.Machine
end

