-- ==== Sys2Proof/Laws/KeptTiers.lean ====
section
/-!
SUPPORT. Laws/KeptTiers.lean: what each operation of Machine/Tiers.lean keeps (Laws/Kept.lean).
-/

namespace Sys2Proof.Machine

set_option Elab.async false
set_option linter.unreachableTactic false
set_option linter.unusedTactic false

theorem putExtent_kept {al : Allow} {orig s : State} {l : Loc} {e : Extent}  (kept : Kept al orig s) : Kept al orig (putExtent s l e) := by
  dsimp -iota only [putExtent]
  with_reducible repeat' first
      | assumption | apply linkSend_kept | apply foldState_kept | (intro _) | split | refine Kept.put_mem ?_
      | refine Kept.upd ?_

theorem memRead1_kept {al : Allow} {orig s : State} {why : MemWhy} {p : Nat × Nat}  (kept : Kept al orig s) : Kept al orig (memRead1 s why p) := by
  dsimp -iota only [memRead1]
  with_reducible repeat' first
      | assumption | apply linkSend_kept | refine Kept.upd ?_

theorem assignLane_kept {al : Allow} {orig s : State} {cluster : Nat} {encode : Bool}  (kept : Kept al orig s) : Kept al orig (assignLane cluster encode s) := by
  dsimp -iota only [assignLane]
  with_reducible repeat' first
      | assumption | apply memRead1_kept | apply foldState_kept | (intro _) | split | refine Kept.put_mem ?_
      | refine Kept.upd ?_

theorem assignLanes_kept {al : Allow} {orig s : State}   (kept : Kept al orig s) : Kept al orig (assignLanes s) := by
  dsimp -iota only [assignLanes]
  with_reducible repeat' first
      | assumption | apply assignLane_kept | apply foldState_kept | apply iter_kept | (intro _) | refine Kept.upd ?_

theorem codecQueue_kept {al : Allow} {orig s : State} {j : CodecJob} {quad : Nat} {fin : State} {x0 : Nat}  (kept : Kept al orig s) (e : codecQueue s j quad = (x0, fin)) : Kept al orig fin := by
  dsimp -iota only [codecQueue] at e
  repeat' split at e
  all_goals try (simp only [Option.some.injEq, Prod.mk.injEq, reduceCtorEq] at e <;> obtain ⟨-, rfl⟩ := e)
  all_goals
    with_reducible repeat' first
        | assumption | apply assignLanes_kept | refine Kept.put_mem ?_ | refine Kept.upd ?_

theorem codecQueue_proj {al : Allow} {orig s : State} {j : CodecJob} {quad : Nat}  (kept : Kept al orig s) : Kept al orig (codecQueue s j quad).2 := by
  rcases h : codecQueue s j quad with ⟨y0, y1⟩
  exact codecQueue_kept kept h

theorem codecSubmit_kept {al : Allow} {orig s : State} {encode : Bool} {lpn : Nat} {quad : Nat} {visit : Option Nat} {key : Option CmdKey} {fin : State} {x0 : Nat}  (kept : Kept al orig s) (e : codecSubmit s encode lpn quad visit key = (x0, fin)) : Kept al orig fin := by
  dsimp -iota only [codecSubmit] at e
  repeat' split at e
  all_goals try (simp only [Option.some.injEq, Prod.mk.injEq, reduceCtorEq] at e <;> obtain ⟨-, rfl⟩ := e)
  all_goals
    with_reducible repeat' first
        | assumption | refine codecQueue_kept ?_ (by assumption) | apply codecQueue_proj | split | refine Kept.upd ?_

theorem codecSubmit_proj {al : Allow} {orig s : State} {encode : Bool} {lpn : Nat} {quad : Nat} {visit : Option Nat} {key : Option CmdKey}  (kept : Kept al orig s) : Kept al orig (codecSubmit s encode lpn quad visit key).2 := by
  rcases h : codecSubmit s encode lpn quad visit key with ⟨y0, y1⟩
  exact codecSubmit_kept kept h

theorem codecEnd_kept {al : Allow} {orig s : State} {id : Nat}  (kept : Kept al orig s) : Kept al orig (codecEnd s id) := by
  dsimp -iota only [codecEnd]
  with_reducible repeat' first
      | assumption | apply assignLanes_kept | (intro _) | refine Kept.put_mem ?_ | refine Kept.upd ?_

theorem requestAhead_kept {al : Allow} {orig s : State} {lpn : Nat} {why : StageWhy} {q : Option SeqId} {t : Nat} {k : Nat} {ahead : Nat}  (kept : Kept al orig s) : Kept al orig (requestAhead s lpn why q t k ahead) := by
  dsimp -iota only [requestAhead]
  with_reducible repeat' first
      | assumption | (intro _) | split | refine Kept.put_mem ?_ | refine Kept.upd ?_

theorem requestStage_kept {al : Allow} {orig s : State} {lpn : Nat} {why : StageWhy} {q : Option SeqId} {t : Nat} {k : Nat}  (kept : Kept al orig s) : Kept al orig (requestStage s lpn why q t k) := by
  dsimp -iota only [requestStage]
  with_reducible repeat' first
      | assumption | apply requestAhead_kept | refine Kept.upd ?_

theorem startDown_kept {al : Allow} {orig s : State} {lpn : Nat} {why : DownWhy} {source : Loc}  (kept : Kept al orig s) : Kept al orig (startDown s lpn why source) := by
  dsimp -iota only [startDown]
  with_reducible repeat' first
      | assumption | refine codecSubmit_kept ?_ (by assumption) | apply codecSubmit_proj | apply modFrame_kept
      | (intro _) | split | refine Kept.put_mem ?_ | refine Kept.upd ?_

theorem noteWasted_kept {al : Allow} {orig s : State} {f : Frame}  (kept : Kept al orig s) : Kept al orig (noteWasted s f) := by
  dsimp -iota only [noteWasted]
  with_reducible repeat' first
      | assumption | apply modSeq_kept | (intro _) | split | refine Kept.upd ?_

theorem releaseStaged_kept {al : Allow} {orig s : State} {lpn : Nat}  (kept : Kept al orig s) : Kept al orig (releaseStaged s lpn) := by
  dsimp -iota only [releaseStaged]
  with_reducible repeat' first
      | assumption | apply startDown_kept | apply noteWasted_kept | apply setFrame_kept | apply vacate_kept | split
      | refine Kept.upd ?_

theorem makeStageRoom_kept {al : Allow} {orig s : State} {j : StageJob} {st : Nat}  (kept : Kept al orig s) : Kept al orig (makeStageRoom s j st) := by
  dsimp -iota only [makeStageRoom]
  with_reducible repeat' first
      | assumption | apply releaseStaged_kept | (intro _) | split | refine Kept.put_mem ?_ | refine Kept.upd ?_

theorem execStagingStart_kept {al : Allow} {orig s fin : State} {lpn : Nat}  (kept : Kept al orig s) (e : execStagingStart lpn s = .next fin) : Kept al orig fin := by
  dsimp -iota only [execStagingStart] at e
  injection e with e
  subst e
  with_reducible repeat' first
      | assumption | refine codecSubmit_kept ?_ (by assumption) | apply codecSubmit_proj | apply makeStageRoom_kept
      | apply whileRunning_kept | refine takeBare_kept ?_ (by assumption) | (intro _) | split
      | refine Kept.put_mem ?_ | refine Kept.upd ?_

theorem failStage_kept {al : Allow} {orig s : State} {lpn : Nat} {slot : Loc}  (kept : Kept al orig s) : Kept al orig (failStage s lpn slot) := by
  dsimp -iota only [failStage]
  with_reducible repeat' first
      | assumption | apply modFrame_kept | apply vacate_kept | (intro _) | refine Kept.put_mem ?_
      | refine Kept.upd ?_

theorem installDown_kept {al : Allow} {orig s : State} {d : DownJob} {l : Loc}  (kept : Kept al orig s) : Kept al orig (installDown s d l) := by
  dsimp -iota only [installDown]
  with_reducible repeat' first
      | assumption | apply putExtent_kept | apply releaseStaged_kept | apply setFrame_kept | apply retireExtent_kept
      | apply retierLeaves_kept | (intro _) | split | refine Kept.put_mem ?_ | refine Kept.upd ?_

theorem execWriteDownComplete_kept {al : Allow} {orig s fin : State} {lpn : Nat} {bad : Bool}  (kept : Kept al orig s) (e : execWriteDownComplete lpn bad s = .next fin) : Kept al orig fin := by
  dsimp -iota only [execWriteDownComplete] at e
  injection e with e
  subst e
  with_reducible repeat' first
      | assumption | apply installDown_kept | refine checkFails_kept ?_ (by assumption) | apply checkFails_proj
      | apply whileRunning_kept | apply setFrame_kept | apply poisonFrame_kept | apply retireExtent_kept
      | apply retierLeaves_kept | (intro _) | split | refine Kept.put_mem ?_ | refine Kept.upd ?_

theorem dropTransfersOf_kept {al : Allow} {orig s : State} {encode : Bool}  (kept : Kept al orig s) : Kept al orig (dropTransfersOf s encode) := by
  dsimp -iota only [dropTransfersOf]
  with_reducible repeat' first
      | assumption | apply vacate_kept | apply foldState_kept | (intro _) | split | refine Kept.put_mem ?_
      | refine Kept.upd ?_

theorem laneOut_kept {al : Allow} {orig s : State} {cluster : Nat} {lane : Nat}  (kept : Kept al orig s) : Kept al orig (laneOut s cluster lane) := by
  dsimp -iota only [laneOut]
  with_reducible repeat' first
      | assumption | apply fenceNode_kept | apply assignLanes_kept | apply dropTransfersOf_kept
      | apply caskAction_kept | apply modCluster_kept | (intro _) | split | refine Kept.put_mem ?_
      | refine Kept.upd ?_

theorem laneFail_kept {al : Allow} {orig s : State} {cluster : Nat} {lane : Nat} {injected : Bool}  (kept : Kept al orig s) : Kept al orig (laneFail s cluster lane injected) := by
  dsimp -iota only [laneFail]
  with_reducible repeat' first
      | assumption | apply laneOut_kept | apply raise_kept | refine Kept.upd ?_

theorem laneInjection_kept {al : Allow} {orig s t : State} {j : CodecJob} (kept : Kept al orig s)
    (e : laneInjection s j = some t) : Kept al orig t := by
  obtain ⟨x, e1, rfl⟩ := Option.map_eq_some_iff.1 e
  exact fireInj_kept kept e1
theorem lpRead_kept {al : Allow} {orig s : State} {l : Loc} {linkErrs : Nat} {fin : State} {x0 : Bool}  (kept : Kept al orig s) (e : lpRead s l linkErrs = (x0, fin)) : Kept al orig fin := by
  dsimp -iota only [lpRead] at e
  repeat' split at e
  all_goals try (simp only [Option.some.injEq, Prod.mk.injEq, reduceCtorEq] at e <;> obtain ⟨-, rfl⟩ := e)
  all_goals
    with_reducible repeat' first
        | assumption | apply raise_kept | refine fireInj_kept ?_ (by assumption) | (intro _) | split
        | refine Kept.upd ?_

theorem lpRead_proj {al : Allow} {orig s : State} {l : Loc} {linkErrs : Nat}  (kept : Kept al orig s) : Kept al orig (lpRead s l linkErrs).2 := by
  rcases h : lpRead s l linkErrs with ⟨y0, y1⟩
  exact lpRead_kept kept h

theorem encodeSlot_kept {al : Allow} {orig s : State} {j : CodecJob} {src : Loc} {errs : List WordErr} {fin : State} {x0 : Bool} {x1 : List Byte}  (kept : Kept al orig s) (e : encodeSlot s j src errs = (x0, x1, fin)) : Kept al orig fin := by
  dsimp -iota only [encodeSlot] at e
  repeat' split at e
  all_goals try (simp only [Option.some.injEq, Prod.mk.injEq, reduceCtorEq] at e <;> obtain ⟨-, -, rfl⟩ := e)
  all_goals
    with_reducible repeat' first
        | assumption | apply modQuad_kept | apply modCluster_kept | refine checkWords_kept ?_ (by assumption)
        | apply checkWords_proj | (intro _) | split | refine Kept.put_mem ?_ | refine Kept.upd ?_

theorem encodeSlot_proj {al : Allow} {orig s : State} {j : CodecJob} {src : Loc} {errs : List WordErr}  (kept : Kept al orig s) : Kept al orig (encodeSlot s j src errs).2.2 := by
  rcases h : encodeSlot s j src errs with ⟨y0, y1, y2⟩
  exact encodeSlot_kept kept h

theorem execCodecLaneFail_kept {al : Allow} {orig s fin : State} {cluster : Fin 4} {lane : Nat}  (kept : Kept al orig s) (e : execCodecLaneFail cluster lane s = .next fin) : Kept al orig fin := by
  dsimp -iota only [execCodecLaneFail] at e
  injection e with e
  subst e
  with_reducible repeat' first
      | assumption | apply laneFail_kept | apply whileRunning_kept | (intro _) | split | refine Kept.upd ?_

theorem execPromotion_kept {al : Allow} {orig s fin : State} {lpn : Nat}  (kept : Kept al orig s) (e : execPromotion lpn s = .next fin) : Kept al orig fin := by
  dsimp -iota only [execPromotion] at e
  injection e with e
  subst e
  with_reducible repeat' first
      | assumption | apply requestStage_kept | apply whileRunning_kept | apply setFrame_kept
      | apply retireExtent_kept | apply retierLeaves_kept | (intro _) | split | refine Kept.upd ?_

theorem execDemotion_kept {al : Allow} {orig s fin : State} {lpn : Nat}  (kept : Kept al orig s) (e : execDemotion lpn s = .next fin) : Kept al orig fin := by
  dsimp -iota only [execDemotion] at e
  injection e with e
  subst e
  with_reducible repeat' first
      | assumption | apply startDown_kept | apply whileRunning_kept | (intro _) | split | refine Kept.upd ?_

theorem execExtentMove_kept {al : Allow} {orig s fin : State} {lpn : Nat}  (kept : Kept al orig s) (e : execExtentMove lpn s = .next fin) : Kept al orig fin := by
  dsimp -iota only [execExtentMove] at e
  injection e with e
  subst e
  with_reducible repeat' first
      | assumption | apply putExtent_kept | apply whileRunning_kept | apply setFrame_kept | apply retireExtent_kept
      | apply retierLeaves_kept | (intro _) | split | refine Kept.upd ?_

theorem execAgeSweep_kept {al : Allow} {orig s fin : State}   (kept : Kept al orig s) (e : execAgeSweep s = .next fin) : Kept al orig fin := by
  dsimp -iota only [execAgeSweep] at e
  injection e with e
  subst e
  with_reducible repeat' first
      | assumption | apply whileRunning_kept | (intro _) | split | refine Kept.put_mem ?_ | refine Kept.upd ?_

theorem hregAdd_kept {al : Allow} {orig s : State}   (kept : Kept al orig s) : Kept al orig (hregAdd s) := by
  dsimp -iota only [hregAdd]
  with_reducible repeat' first
      | assumption | (intro _) | split | refine Kept.put_mem ?_ | refine Kept.upd ?_

theorem execHregAdd_kept {al : Allow} {orig s fin : State}   (kept : Kept al orig s) (e : execHregAdd s = .next fin) : Kept al orig fin := by
  dsimp -iota only [execHregAdd] at e
  injection e with e
  subst e
  with_reducible repeat' first
      | assumption | apply hregAdd_kept | apply regEnter_kept | (intro _) | refine Kept.upd ?_

theorem hregRemove_kept {al : Allow} {orig s : State}   (kept : Kept al orig s) : Kept al orig (hregRemove s) := by
  dsimp -iota only [hregRemove]
  with_reducible repeat' first
      | assumption | split | refine Kept.put_mem ?_ | refine Kept.upd ?_

theorem execHregRemove_kept {al : Allow} {orig s fin : State}   (kept : Kept al orig s) (e : execHregRemove s = .next fin) : Kept al orig fin := by
  dsimp -iota only [execHregRemove] at e
  injection e with e
  subst e
  with_reducible repeat' first
      | assumption | apply hregRemove_kept | apply regEnter_kept | (intro _) | refine Kept.upd ?_

theorem execRegionDrained_kept {al : Allow} {orig s fin : State} {region : Nat}  (kept : Kept al orig s) (e : execRegionDrained region s = .next fin) : Kept al orig fin := by
  dsimp -iota only [execRegionDrained] at e
  injection e with e
  subst e
  with_reducible repeat' first
      | assumption | apply whileRunning_kept | (intro _) | split | refine Kept.put_mem ?_ | refine Kept.upd ?_

theorem hostTierLost_kept {al : Allow} {orig s : State}   (kept : Kept al orig s) : Kept al orig (hostTierLost s) := by
  dsimp -iota only [hostTierLost]
  with_reducible repeat' first
      | assumption | apply raise_kept | apply caskNote_kept | apply modFrame_kept | apply freeExtent_kept
      | apply foldState_kept | (intro _) | split | refine Kept.put_mem ?_ | refine Kept.upd ?_

theorem execLpMr4Read_kept {al : Allow} {orig s fin : State} {hot : List Bool} {temps : List Nat}  (kept : Kept al orig s) (e : execLpMr4Read hot temps s = .next fin) : Kept al orig fin := by
  dsimp -iota only [execLpMr4Read] at e
  injection e with e
  subst e
  with_reducible repeat' first
      | assumption | apply setLevel_kept | apply whileRunning_kept | apply foldState_kept | (intro _) | split
      | refine Kept.put_mem ?_ | refine Kept.upd ?_

end Sys2Proof.Machine
end

