-- ==== Sys2Proof/Laws/KeptCellar.lean ====
section
/-!
SUPPORT. Laws/KeptCellar.lean: what each operation of Machine/Cellar.lean keeps (Laws/Kept.lean).
-/

namespace Sys2Proof.Machine

set_option Elab.async false
set_option linter.unreachableTactic false
set_option linter.unusedTactic false

theorem newFrame_kept {al : Allow} {orig s fin : State} {order : List (Nat × Nat)} {state : FrameState} {refs lpn : Nat}
    (kept : Kept al orig s) (e : newFrame s order state refs = some (lpn, fin)) : Kept al orig fin := by
  obtain ⟨⟨n, l, s1⟩, e1, e2⟩ := Option.map_eq_some_iff.1 e
  cases e2
  exact setFrame_kept (takeSlot_kept kept e1)
theorem takeReserve_kept {al : Allow} {orig s fin : State} {q : SeqId} {t : Nat} (kept : Kept al orig s)
    (e : takeReserve s q t = some fin) : Kept al orig fin := by
  unfold takeReserve at e
  split at e
  · cases e
  · obtain ⟨⟨n, s1⟩, e1, e2⟩ := Option.map_eq_some_iff.1 e
    cases e2
    exact setSeq_kept (newFrame_kept kept e1)
theorem takeReserves_kept {al : Allow} {orig : State} {q : SeqId} {ts : List Nat} :
    ∀ {s fin : State}, Kept al orig s → takeReserves q ts s = some fin → Kept al orig fin := by
  induction ts with
  | nil => intro s fin kept e; cases e; exact kept
  | cons t ts ih =>
    intro s fin kept e
    obtain ⟨s1, e1, e2⟩ := Option.bind_eq_some_iff.1 e
    exact ih (takeReserve_kept kept e1) e2
theorem modPort_kept {al : Allow} {orig s : State} {p : Nat} {f : CellarPort → CellarPort}  (kept : Kept al orig s) : Kept al orig (modPort s p f) := by
  dsimp -iota only [modPort]
  with_reducible repeat' first
      | assumption | refine Kept.put_mem ?_ | refine Kept.upd ?_

theorem noteStale_kept {al : Allow} {orig s : State} {cart : Nat}  (kept : Kept al orig s) : Kept al orig (noteStale s cart) := by
  dsimp -iota only [noteStale]
  with_reducible repeat' first
      | assumption | (intro _) | refine Kept.put_mem ?_ | refine Kept.upd ?_

theorem startIo_kept {al : Allow} {orig s : State} {port : Nat} {why : IoWhy}  (kept : Kept al orig s) : Kept al orig (startIo s port why) := by
  dsimp -iota only [startIo]
  with_reducible repeat' first
      | assumption | refine Kept.put_mem ?_ | refine Kept.upd ?_

theorem deallocate_kept {al : Allow} {orig s : State} {p : Nat}  (kept : Kept al orig s) : Kept al orig (deallocate s p) := by
  dsimp -iota only [deallocate]
  with_reducible repeat' first
      | assumption | apply startIo_kept | split | refine Kept.upd ?_

theorem dropIo_kept {al : Allow} {orig s : State} {p : IoWhy → Bool}  (kept : Kept al orig s) : Kept al orig (dropIo s p) := by
  dsimp -iota only [dropIo]
  with_reducible repeat' first
      | assumption | (intro _) | refine Kept.put_mem ?_ | refine Kept.upd ?_

theorem nodeCommand_kept {al : Allow} {orig s : State} {node : Nat} {q : SeqId} {body : Body} {payload : List Byte}  (kept : Kept al orig s) : Kept al orig (nodeCommand s node q body payload) := by
  dsimp -iota only [nodeCommand]
  with_reducible repeat' first
      | assumption | apply sendMsg_kept | split | refine Kept.put_mem ?_ | refine Kept.upd ?_

theorem sendGuest_kept {al : Allow} {orig s : State} {node : Nat} {q : SeqId} {bytes : List Byte} {fin : State} {x0 : List Nat}  (kept : Kept al orig s) (e : sendGuest s node q bytes = (x0, fin)) : Kept al orig fin := by
  dsimp -iota only [sendGuest] at e
  repeat' split at e
  all_goals try (simp only [Option.some.injEq, Prod.mk.injEq, reduceCtorEq] at e <;> obtain ⟨-, rfl⟩ := e)
  all_goals
    with_reducible repeat' first
        | assumption | apply nodeCommand_kept | apply foldState_kept | (intro _) | refine Kept.upd ?_

theorem sendGuest_proj {al : Allow} {orig s : State} {node : Nat} {q : SeqId} {bytes : List Byte}  (kept : Kept al orig s) : Kept al orig (sendGuest s node q bytes).2 := by
  rcases h : sendGuest s node q bytes with ⟨y0, y1⟩
  exact sendGuest_kept kept h

theorem askGuest_kept {al : Allow} {orig s : State} {node : Nat} {q : SeqId} {size : Nat} {fin : State} {x0 : List Nat}  (kept : Kept al orig s) (e : askGuest s node q size = (x0, fin)) : Kept al orig fin := by
  dsimp -iota only [askGuest] at e
  repeat' split at e
  all_goals try (simp only [Option.some.injEq, Prod.mk.injEq, reduceCtorEq] at e <;> obtain ⟨-, rfl⟩ := e)
  all_goals
    with_reducible repeat' first
        | assumption | apply nodeCommand_kept | apply foldState_kept | (intro _) | refine Kept.upd ?_

theorem askGuest_proj {al : Allow} {orig s : State} {node : Nat} {q : SeqId} {size : Nat}  (kept : Kept al orig s) : Kept al orig (askGuest s node q size).2 := by
  rcases h : askGuest s node q size with ⟨y0, y1⟩
  exact askGuest_kept kept h

theorem dropAnswers_kept {al : Allow} {orig s : State} {node : Nat} {reqs : List Nat}  (kept : Kept al orig s) : Kept al orig (dropAnswers s node reqs) := by
  dsimp -iota only [dropAnswers]
  with_reducible repeat' first
      | assumption | (intro _) | refine Kept.upd ?_

theorem askHolders_kept {al : Allow} {orig s : State} {node : Nat} {q : SeqId} {size : Nat} {fin : State} {x0 : List Nat} {x1 : Option (Nat × List Nat)}  (kept : Kept al orig s) (e : askHolders s node q size = (x0, x1, fin)) : Kept al orig fin := by
  dsimp -iota only [askHolders] at e
  repeat' split at e
  all_goals try (simp only [Option.some.injEq, Prod.mk.injEq, reduceCtorEq] at e <;> obtain ⟨-, -, rfl⟩ := e)
  all_goals
    with_reducible repeat' first
        | assumption | refine askGuest_kept ?_ (by assumption) | apply askGuest_proj | split | refine Kept.upd ?_

theorem askHolders_proj {al : Allow} {orig s : State} {node : Nat} {q : SeqId} {size : Nat}  (kept : Kept al orig s) : Kept al orig (askHolders s node q size).2.2 := by
  rcases h : askHolders s node q size with ⟨y0, y1, y2⟩
  exact askHolders_kept kept h

theorem dropHolders_kept {al : Allow} {orig s : State} {node : Nat} {reqs : List Nat} {y0 : Option (Nat × List Nat)}  (kept : Kept al orig s) : Kept al orig (dropHolders s node reqs y0) := by
  dsimp -iota only [dropHolders]
  with_reducible repeat' first
      | assumption | apply dropAnswers_kept | split | refine Kept.upd ?_

theorem dropGuest_kept {al : Allow} {orig s : State} {origin : Nat} {q : SeqId}  (kept : Kept al orig s) : Kept al orig (dropGuest s origin q) := by
  dsimp -iota only [dropGuest]
  with_reducible repeat' first
      | assumption | (intro _) | refine Kept.put_mem ?_ | refine Kept.upd ?_

theorem putGuest_kept {al : Allow} {orig s : State} {g : Guest}  (kept : Kept al orig s) : Kept al orig (putGuest s g) := by
  dsimp -iota only [putGuest]
  with_reducible repeat' first
      | assumption | apply dropGuest_kept | refine Kept.put_mem ?_ | refine Kept.upd ?_

theorem discardGuest_kept {al : Allow} {orig s : State} {origin : Nat} {q : SeqId}  (kept : Kept al orig s) : Kept al orig (discardGuest s origin q) := by
  dsimp -iota only [discardGuest]
  with_reducible repeat' first
      | assumption | apply noteStale_kept | apply deallocate_kept | apply dropGuest_kept | split
      | refine Kept.upd ?_

theorem dropObject_kept {al : Allow} {orig s : State} {r : ParkRef}  (kept : Kept al orig s) : Kept al orig (dropObject s r) := by
  dsimp -iota only [dropObject]
  with_reducible repeat' first
      | assumption | apply modPort_kept | apply deallocate_kept | (intro _) | split | refine Kept.put_mem ?_
      | refine Kept.upd ?_

theorem dropHalf_kept {al : Allow} {orig s : State} {q : SeqId}  (kept : Kept al orig s) : Kept al orig (dropHalf s q) := by
  dsimp -iota only [dropHalf]
  with_reducible repeat' first
      | assumption | apply modPort_kept | apply deallocate_kept | apply dropIo_kept | apply foldState_kept
      | (intro _) | split | refine Kept.upd ?_

theorem releaseObjects_kept {al : Allow} {orig s : State} {q : SeqId} {partnered : Bool} {y0 : Option ParkRef}  (kept : Kept al orig s) : Kept al orig (releaseObjects s q partnered y0) := by
  dsimp -iota only [releaseObjects]
  with_reducible repeat' first
      | assumption | apply nodeCommand_kept | apply discardGuest_kept | apply dropObject_kept | split
      | refine Kept.upd ?_

theorem tenantAbsent_kept {al : Allow} {orig s : State} {n : Nat}  (kept : Kept al orig s) : Kept al orig (tenantAbsent s n) := by
  dsimp -iota only [tenantAbsent]
  with_reducible repeat' first
      | assumption | apply caskNote_kept | (intro _) | split | refine Kept.put_trust ?_ | refine Kept.upd ?_

theorem completeKeys_kept {al : Allow} {orig s : State} {ks : List CmdKey} {st : Status}  (kept : Kept al orig s) : Kept al orig (completeKeys s ks st) := by
  dsimp -iota only [completeKeys]
  with_reducible repeat' first
      | assumption | apply complete_kept | apply foldState_kept | (intro _) | split | refine Kept.upd ?_

theorem finishKeys_kept {al : Allow} {orig s : State} {ks : List CmdKey} {st : Status}  (kept : Kept al orig s) : Kept al orig (finishKeys s ks st) := by
  dsimp -iota only [finishKeys]
  with_reducible repeat' first
      | assumption | apply finish_kept | apply foldState_kept | (intro _) | split | refine Kept.upd ?_

theorem dropObjTransfers_kept {al : Allow} {orig s : State} {q : SeqId}  (kept : Kept al orig s) : Kept al orig (dropObjTransfers s q) := by
  dsimp -iota only [dropObjTransfers]
  with_reducible repeat' first
      | assumption | apply codecEnd_kept | apply foldState_kept | (intro _) | refine Kept.upd ?_

theorem stopJobs_kept {al : Allow} {orig s : State} {q : SeqId}  (kept : Kept al orig s) : Kept al orig (stopJobs s q) := by
  dsimp -iota only [stopJobs]
  with_reducible repeat' first
      | assumption | apply dropIo_kept | apply dropHalf_kept | apply dropObjTransfers_kept | (intro _)
      | refine Kept.put_mem ?_ | refine Kept.upd ?_

theorem evictSeq_kept {al : Allow} {orig s : State} {q : SeqId}  (kept : Kept al orig s) : Kept al orig (evictSeq s q) := by
  dsimp -iota only [evictSeq]
  with_reducible repeat' first
      | assumption | apply releaseObjects_kept | apply tenantAbsent_kept | apply completeKeys_kept
      | apply stopJobs_kept | apply removeSeq_kept | (intro _) | split | refine Kept.upd ?_

theorem modPark_kept {al : Allow} {orig s : State} {q : SeqId} {f : ParkJob → ParkJob}  (kept : Kept al orig s) : Kept al orig (modPark s q f) := by
  dsimp -iota only [modPark]
  with_reducible repeat' first
      | assumption | (intro _) | split | refine Kept.put_mem ?_ | refine Kept.upd ?_

theorem modWake_kept {al : Allow} {orig s : State} {q : SeqId} {f : WakeJob → WakeJob}  (kept : Kept al orig s) : Kept al orig (modWake s q f) := by
  dsimp -iota only [modWake]
  with_reducible repeat' first
      | assumption | (intro _) | split | refine Kept.put_mem ?_ | refine Kept.upd ?_

theorem writeObject_kept {al : Allow} {orig s : State} {p : Nat} {partner : Nat} {o : Parked} {why : IoWhy} {fin : State} {x0 : ParkRef}  (kept : Kept al orig s) (e : writeObject s p partner o why = (x0, fin)) : Kept al orig fin := by
  dsimp -iota only [writeObject] at e
  repeat' split at e
  all_goals try (simp only [Option.some.injEq, Prod.mk.injEq, reduceCtorEq] at e <;> obtain ⟨-, rfl⟩ := e)
  all_goals
    with_reducible repeat' first
        | assumption | apply modPort_kept | apply startIo_kept | (intro _) | refine Kept.upd ?_

theorem writeObject_proj {al : Allow} {orig s : State} {p : Nat} {partner : Nat} {o : Parked} {why : IoWhy}  (kept : Kept al orig s) : Kept al orig (writeObject s p partner o why).2 := by
  rcases h : writeObject s p partner o why with ⟨y0, y1⟩
  exact writeObject_kept kept h

theorem parkWriteAt_kept {al : Allow} {orig s : State} {q : SeqId} {partner : Nat} {o : Parked} {p : Nat}  (kept : Kept al orig s) : Kept al orig (parkWriteAt s q partner o p) := by
  dsimp -iota only [parkWriteAt]
  with_reducible repeat' first
      | assumption | apply modPark_kept | refine writeObject_kept ?_ (by assumption) | apply writeObject_proj
      | apply modSeq_kept | (intro _) | split | refine Kept.upd ?_

theorem parkLocal_kept {al : Allow} {orig s : State} {q : SeqId}  (kept : Kept al orig s) : Kept al orig (parkLocal s q) := by
  dsimp -iota only [parkLocal]
  with_reducible repeat' first
      | assumption | apply parkWriteAt_kept | (intro _) | split | refine Kept.upd ?_

theorem parkRemote_kept {al : Allow} {orig s : State} {q : SeqId}  (kept : Kept al orig s) : Kept al orig (parkRemote s q) := by
  dsimp -iota only [parkRemote]
  with_reducible repeat' first
      | assumption | refine sendGuest_kept ?_ (by assumption) | apply sendGuest_proj | apply modPark_kept
      | (intro _) | split | refine Kept.upd ?_

theorem parkBuilt_kept {al : Allow} {orig s : State} {q : SeqId}  (kept : Kept al orig s) : Kept al orig (parkBuilt s q) := by
  dsimp -iota only [parkBuilt]
  with_reducible repeat' first
      | assumption | apply modPark_kept | apply parkLocal_kept | apply parkRemote_kept | apply modSeq_kept
      | (intro _) | split | refine Kept.upd ?_

theorem parkFrame_kept {al : Allow} {orig s : State} {q : SeqId} {f : ObjFrame}  (kept : Kept al orig s) : Kept al orig (parkFrame s q f) := by
  dsimp -iota only [parkFrame]
  with_reducible repeat' first
      | assumption | apply modPark_kept | apply parkBuilt_kept | (intro _) | refine Kept.upd ?_

theorem parkSubmit_kept {al : Allow} {orig s : State} {q : SeqId} {e : Nat × Nat × PageHandle}  (kept : Kept al orig s) : Kept al orig (parkSubmit q s e) := by
  dsimp -iota only [parkSubmit]
  with_reducible repeat' first
      | assumption | refine codecQueue_kept ?_ (by assumption) | apply codecQueue_proj | split | refine Kept.upd ?_

theorem startPark_kept {al : Allow} {orig s : State} {q : SeqId} {keys : List CmdKey} {preempt : Bool}  (kept : Kept al orig s) : Kept al orig (startPark s q keys preempt) := by
  dsimp -iota only [startPark]
  with_reducible repeat' first
      | assumption | apply parkBuilt_kept | apply parkSubmit_kept | apply setSeq_kept | apply foldState_kept
      | (intro _) | split | refine Kept.put_mem ?_ | refine Kept.upd ?_

theorem resumePark_kept {al : Allow} {orig s : State} {q : SeqId}  (kept : Kept al orig s) : Kept al orig (resumePark s q) := by
  dsimp -iota only [resumePark]
  with_reducible repeat' first
      | assumption | apply modPark_kept | apply parkLocal_kept | apply parkRemote_kept | apply parkBuilt_kept
      | apply parkSubmit_kept | apply modSeq_kept | apply foldState_kept | (intro _) | split | refine Kept.upd ?_

theorem parkReplica_kept {al : Allow} {orig s : State} {c : Command} {x : Seq}  (kept : Kept al orig s) : Kept al orig (parkReplica s c x) := by
  dsimp -iota only [parkReplica]
  with_reducible repeat' first
      | assumption | apply finish_kept | apply modSeq_kept | apply releaseContent_kept | (intro _)
      | refine Kept.upd ?_

theorem execPark_kept {al : Allow} {orig s fin : State} {c : Command}  (kept : Kept al orig s) (e : execPark c s = .next fin) : Kept al orig fin := by
  dsimp -iota only [execPark] at e
  injection e with e
  subst e
  with_reducible repeat' first
      | assumption | apply complete_kept | apply startPark_kept | apply resumePark_kept | apply parkReplica_kept
      | apply whenReady_kept | (intro _) | split | refine Kept.put_mem ?_ | refine Kept.upd ?_

theorem parkAnswers_kept {al : Allow} {orig s : State} {j : ParkJob}  (kept : Kept al orig s) : Kept al orig (parkAnswers s j) := by
  dsimp -iota only [parkAnswers]
  with_reducible repeat' first
      | assumption | apply dropAnswers_kept | split | refine Kept.upd ?_

theorem execParkCopiesDone_kept {al : Allow} {orig s fin : State} {q : SeqId}  (kept : Kept al orig s) (e : execParkCopiesDone q s = .next fin) : Kept al orig fin := by
  dsimp -iota only [execParkCopiesDone] at e
  injection e with e
  subst e
  with_reducible repeat' first
      | assumption | apply whileRunning_kept | apply finishKeys_kept | apply parkAnswers_kept | apply modSeq_kept
      | apply releaseContent_kept | (intro _) | split | refine Kept.put_mem ?_ | refine Kept.upd ?_

theorem execParkCopyTimeout_kept {al : Allow} {orig s fin : State} {q : SeqId}  (kept : Kept al orig s) (e : execParkCopyTimeout q s = .next fin) : Kept al orig fin := by
  dsimp -iota only [execParkCopyTimeout] at e
  injection e with e
  subst e
  with_reducible repeat' first
      | assumption | apply whileRunning_kept | apply releaseObjects_kept | apply completeKeys_kept
      | apply stopJobs_kept | apply parkAnswers_kept | apply modSeq_kept | (intro _) | split | refine Kept.upd ?_

theorem wakeFrames_kept {al : Allow} {orig : State} {q : SeqId} {fs : List ObjFrame} :
    ∀ {s fin : State}, Kept al orig s → wakeFrames q fs s = some fin → Kept al orig fin := by
  induction fs with
  | nil => intro s fin kept e; cases e; exact kept
  | cons t ts ih =>
    intro s fin kept e
    unfold wakeFrames at e
    split at e
    · cases e
    · next n s1 e1 =>
      split at e
      · cases e
      · next s2 e2 => exact ih (pageName_kept (newFrame_kept kept e1) e2) e
theorem wakePoison_kept {al : Allow} {orig s : State} {q : SeqId} {p : Nat × Nat}  (kept : Kept al orig s) : Kept al orig (wakePoison s q p) := by
  dsimp -iota only [wakePoison]
  with_reducible repeat' first
      | assumption | apply modWake_kept | apply poisonFrame_kept | (intro _) | split | refine Kept.upd ?_

theorem wakeSubmit_kept {al : Allow} {orig s : State} {q : SeqId} {guest : Bool} {f : ObjFrame}  (kept : Kept al orig s) : Kept al orig (wakeSubmit s q guest f) := by
  dsimp -iota only [wakeSubmit]
  with_reducible repeat' first
      | assumption | refine codecQueue_kept ?_ (by assumption) | apply codecQueue_proj | split | refine Kept.upd ?_

theorem wakeAsk_kept {al : Allow} {orig s : State} {q : SeqId}  (kept : Kept al orig s) : Kept al orig (wakeAsk s q) := by
  dsimp -iota only [wakeAsk]
  with_reducible repeat' first
      | assumption | refine askHolders_kept ?_ (by assumption) | apply askHolders_proj | apply modWake_kept
      | (intro _) | split | refine Kept.upd ?_

theorem wakeGuestPage_kept {al : Allow} {orig s : State} {fs : List ObjFrame} {q : SeqId} {p : Nat × Nat}  (kept : Kept al orig s) : Kept al orig (wakeGuestPage fs q s p) := by
  dsimp -iota only [wakeGuestPage]
  with_reducible repeat' first
      | assumption | apply wakePoison_kept | apply wakeSubmit_kept | (intro _) | split | refine Kept.upd ?_

theorem wakeFromGuest_kept {al : Allow} {orig s : State} {q : SeqId} {p : Nat × Nat}  (kept : Kept al orig s) : Kept al orig (wakeFromGuest s q p) := by
  dsimp -iota only [wakeFromGuest]
  with_reducible repeat' first
      | assumption | apply modWake_kept | apply wakeAsk_kept | apply wakeGuestPage_kept | (intro _) | split
      | refine Kept.upd ?_

theorem wakeTry_kept {al : Allow} {orig s : State} {q : SeqId} (kept : Kept al orig s) : Kept al orig (wakeTry s q) := by
  unfold wakeTry
  split
  · dsimp only
    split
    · exact wakeAsk_kept kept
    · split
      · exact kept.put_mem
      · next s4 e =>
        obtain ⟨⟨b, s1⟩, e1, e2⟩ := Option.bind_eq_some_iff.1 e
        obtain ⟨s3, e3, e4⟩ := Option.bind_eq_some_iff.1 e2
        have k := takeReserves_kept (wakeFrames_kept (setSeq_kept (allocBlocks_kept kept e1)) e3) e4
        split
        · exact foldState_kept (fun _ _ h => startIo_kept h) (modWake_kept k)
        · split
          · exact foldState_kept (fun _ _ h => wakeGuestPage_kept h) (modWake_kept k)
          · split
            · exact modWake_kept k
            · exact wakeAsk_kept (modWake_kept k)
  · exact kept
theorem startWake_kept {al : Allow} {orig s : State} {q : SeqId} {keys : List CmdKey}  (kept : Kept al orig s) : Kept al orig (startWake s q keys) := by
  dsimp -iota only [startWake]
  with_reducible repeat' first
      | assumption | apply wakeTry_kept | apply modSeq_kept | (intro _) | refine Kept.put_mem ?_
      | refine Kept.upd ?_

theorem retryWakes_kept {al : Allow} {orig s : State}   (kept : Kept al orig s) : Kept al orig (retryWakes s) := by
  dsimp -iota only [retryWakes]
  with_reducible repeat' first
      | assumption | apply wakeTry_kept | apply foldState_kept | (intro _) | refine Kept.upd ?_

theorem resumeWake_kept {al : Allow} {orig s : State} {q : SeqId}  (kept : Kept al orig s) : Kept al orig (resumeWake s q) := by
  dsimp -iota only [resumeWake]
  with_reducible repeat' first
      | assumption | apply startIo_kept | apply modWake_kept | apply wakeAsk_kept | apply wakeGuestPage_kept
      | apply wakeFromGuest_kept | apply wakeTry_kept | apply foldState_kept | (intro _) | split
      | refine Kept.upd ?_

theorem execWake_kept {al : Allow} {orig s fin : State} {c : Command}  (kept : Kept al orig s) (e : execWake c s = .next fin) : Kept al orig fin := by
  dsimp -iota only [execWake] at e
  injection e with e
  subst e
  with_reducible repeat' first
      | assumption | apply complete_kept | apply startWake_kept | apply resumeWake_kept | apply modSeq_kept
      | apply whenReady_kept | (intro _) | split | refine Kept.put_mem ?_ | refine Kept.upd ?_

theorem wakeReplicas_kept {al : Allow} {orig s : State} {q : SeqId} {repl : Nat} {pred : Option Nat}  (kept : Kept al orig s) : Kept al orig (wakeReplicas s q repl pred) := by
  dsimp -iota only [wakeReplicas]
  with_reducible repeat' first
      | assumption | (intro _) | split | refine Kept.upd ?_

theorem wakeDone_kept {al : Allow} {orig s : State} {q : SeqId} {j : WakeJob} {x : Seq}  (kept : Kept al orig s) : Kept al orig (wakeDone s q j x) := by
  dsimp -iota only [wakeDone]
  with_reducible repeat' first
      | assumption | apply releaseObjects_kept | apply finishKeys_kept | apply wakeReplicas_kept | apply modSeq_kept
      | (intro _) | refine Kept.put_mem ?_ | refine Kept.upd ?_

theorem wakeGuestCame_kept {al : Allow} {orig s : State} {q : SeqId} {j : WakeJob} {fs : List ObjFrame}  (kept : Kept al orig s) : Kept al orig (wakeGuestCame s q j fs) := by
  dsimp -iota only [wakeGuestCame]
  with_reducible repeat' first
      | assumption | apply modWake_kept | apply wakeGuestPage_kept | apply wakeTry_kept | apply foldState_kept
      | (intro _) | split | refine Kept.upd ?_

theorem wakeGuestLost_kept {al : Allow} {orig s : State} {q : SeqId} {j : WakeJob}  (kept : Kept al orig s) : Kept al orig (wakeGuestLost s q j) := by
  dsimp -iota only [wakeGuestLost]
  with_reducible repeat' first
      | assumption | apply modWake_kept | apply wakePoison_kept | apply foldState_kept | (intro _) | split
      | refine Kept.upd ?_

theorem execWakeComplete_kept {al : Allow} {orig s fin : State} {q : SeqId}  (kept : Kept al orig s) (e : execWakeComplete q s = .next fin) : Kept al orig fin := by
  dsimp -iota only [execWakeComplete] at e
  injection e with e
  subst e
  with_reducible repeat' first
      | assumption | apply whileRunning_kept | apply dropHolders_kept | apply modWake_kept | apply wakeAsk_kept
      | apply wakeTry_kept | apply wakeDone_kept | apply wakeGuestCame_kept | apply wakeGuestLost_kept | (intro _)
      | split | refine Kept.upd ?_

theorem putStep_kept {al : Allow} {orig s : State} {r : StepRec}  (kept : Kept al orig s) : Kept al orig (putStep s r) := by
  dsimp -iota only [putStep]
  with_reducible repeat' first
      | assumption | (intro _) | refine Kept.upd ?_

theorem stepAnswer_kept {al : Allow} {orig s : State} {dest : Option Nat} {stepId : Nat} {st : Status}  (kept : Kept al orig s) : Kept al orig (stepAnswer s dest stepId st) := by
  dsimp -iota only [stepAnswer]
  with_reducible repeat' first
      | assumption | apply sendControl_kept | apply reportAll_kept | split | refine Kept.upd ?_

theorem stepWaited_kept {al : Allow} {orig s : State} {r : StepRec} {q : SeqId} {st : Status}  (kept : Kept al orig s) : Kept al orig (stepWaited s r q st) := by
  dsimp -iota only [stepWaited]
  with_reducible repeat' first
      | assumption | apply putStep_kept | apply stepAnswer_kept | split | refine Kept.upd ?_

theorem adoptAnswered_kept {al : Allow} {orig s : State} {q : SeqId} {st : Status}  (kept : Kept al orig s) : Kept al orig (adoptAnswered s q st) := by
  dsimp -iota only [adoptAnswered]
  with_reducible repeat' first
      | assumption | apply putStep_kept | apply stepAnswer_kept | apply stepWaited_kept | apply foldState_kept
      | (intro _) | refine Kept.upd ?_

theorem protectDue_kept {al : Allow} {orig s : State} {lostLocal : Bool} {qs : List SeqId}  (kept : Kept al orig s) : Kept al orig (protectDue s lostLocal qs) := by
  dsimp -iota only [protectDue]
  with_reducible repeat' first
      | assumption | (intro _) | refine Kept.put_mem ?_ | refine Kept.upd ?_

theorem adopted_kept {al : Allow} {orig s : State} {p : Nat} {q : SeqId}  (kept : Kept al orig s) : Kept al orig (adopted s p q) := by
  dsimp -iota only [adopted]
  with_reducible repeat' first
      | assumption | apply modPort_kept | apply adoptAnswered_kept | apply protectDue_kept | apply setSeq_kept
      | apply modSeq_kept | (intro _) | split | refine Kept.upd ?_

theorem moveParks_kept {al : Allow} {orig s : State} {p : Nat} {all : Bool}  (kept : Kept al orig s) : Kept al orig (moveParks s p all) := by
  dsimp -iota only [moveParks]
  with_reducible repeat' first
      | assumption | apply dropHalf_kept | apply parkLocal_kept | apply foldState_kept | (intro _) | split
      | refine Kept.upd ?_

theorem lifeLevel_kept {al : Allow} {orig s : State}   (kept : Kept al orig s) : Kept al orig (lifeLevel s) := by
  dsimp -iota only [lifeLevel]
  with_reducible repeat' first
      | assumption | apply setLevel_kept | split | refine Kept.upd ?_

theorem portEmpty_kept {al : Allow} {orig s : State} {p : Nat}  (kept : Kept al orig s) : Kept al orig (portEmpty s p) := by
  dsimp -iota only [portEmpty]
  with_reducible repeat' first
      | assumption | apply modPort_kept | apply protectDue_kept | apply moveParks_kept | apply lifeLevel_kept
      | (intro _) | split | refine Kept.put_mem ?_ | refine Kept.upd ?_

theorem drainEject_kept {al : Allow} {orig s : State} {p : Nat}  (kept : Kept al orig s) : Kept al orig (drainEject s p) := by
  dsimp -iota only [drainEject]
  with_reducible repeat' first
      | assumption | apply portEmpty_kept | (intro _) | split | refine Kept.upd ?_

theorem lifeRecord_kept {al : Allow} {orig s : State} {p : Nat} {event : Nat}  (kept : Kept al orig s) : Kept al orig (lifeRecord s p event) := by
  dsimp -iota only [lifeRecord]
  with_reducible repeat' first
      | assumption | apply caskNote_kept | refine Kept.upd ?_

theorem enrolFormatted_kept {al : Allow} {orig s : State} {p : Nat}  (kept : Kept al orig s) : Kept al orig (enrolFormatted s p) := by
  dsimp -iota only [enrolFormatted]
  with_reducible repeat' first
      | assumption | apply modPort_kept | apply startIo_kept | (intro _) | refine Kept.put_mem ?_
      | refine Kept.upd ?_

theorem enrolDone_kept {al : Allow} {orig s : State} {p : Nat}  (kept : Kept al orig s) : Kept al orig (enrolDone s p) := by
  dsimp -iota only [enrolDone]
  with_reducible repeat' first
      | assumption | apply modPort_kept | apply lifeRecord_kept | (intro _) | split | refine Kept.upd ?_

theorem protectedLocal_kept {al : Allow} {orig s : State} {q : SeqId}  (kept : Kept al orig s) : Kept al orig (protectedLocal s q) := by
  dsimp -iota only [protectedLocal]
  with_reducible repeat' first
      | assumption | apply modPort_kept | apply dropObject_kept | apply modSeq_kept | (intro _) | split
      | refine Kept.put_mem ?_ | refine Kept.upd ?_

theorem guestIoDone_kept {al : Allow} {orig s : State} {port : Nat} {key : CmdKey} {f : State → Live → State} (h_f : ∀ t y0, Kept al orig t → Kept al orig (f t y0)) (kept : Kept al orig s) : Kept al orig (guestIoDone s port key f) := by
  dsimp -iota only [guestIoDone]
  with_reducible repeat' first
      | assumption | apply complete_kept | apply h_f | (intro _) | split | refine Kept.upd ?_

theorem flushAfter_kept {al : Allow} {orig s : State} {port : Nat} {why : IoWhy}  (kept : Kept al orig s) : Kept al orig (flushAfter s port why) := by
  dsimp -iota only [flushAfter]
  with_reducible repeat' first
      | assumption | apply startIo_kept | split | refine Kept.upd ?_

theorem ioDone_kept {al : Allow} {orig s : State} {n : Nvme}  (kept : Kept al orig s) : Kept al orig (ioDone s n) := by
  dsimp -iota only [ioDone]
  with_reducible repeat' first
      | assumption | apply complete_kept | apply modPort_kept | apply startIo_kept | apply modPark_kept
      | apply wakeSubmit_kept | apply wakeFromGuest_kept | apply adopted_kept | apply enrolFormatted_kept
      | apply enrolDone_kept | apply protectedLocal_kept | apply guestIoDone_kept | apply flushAfter_kept
      | (intro _) | split | refine Kept.put_mem ?_ | refine Kept.upd ?_

theorem protectRestart_kept {al : Allow} {orig s : State} {q : SeqId}  (kept : Kept al orig s) : Kept al orig (protectRestart s q) := by
  dsimp -iota only [protectRestart]
  with_reducible repeat' first
      | assumption | apply dropHalf_kept | (intro _) | split | refine Kept.put_mem ?_ | refine Kept.upd ?_

theorem ioFailed_kept {al : Allow} {orig s : State} {n : Nvme}  (kept : Kept al orig s) : Kept al orig (ioFailed s n) := by
  dsimp -iota only [ioFailed]
  with_reducible repeat' first
      | assumption | apply modPort_kept | apply dropHalf_kept | apply completeKeys_kept | apply wakeFromGuest_kept
      | apply adoptAnswered_kept | apply protectRestart_kept | (intro _) | split | refine Kept.upd ?_

theorem execNvmeCompletion_kept {al : Allow} {orig s fin : State} {io : Nat} {ok : Bool}  (kept : Kept al orig s) (e : execNvmeCompletion io ok s = .next fin) : Kept al orig fin := by
  dsimp -iota only [execNvmeCompletion] at e
  injection e with e
  subst e
  with_reducible repeat' first
      | assumption | apply raise_kept | apply whileRunning_kept | apply drainEject_kept | apply ioDone_kept
      | apply ioFailed_kept | (intro _) | split | refine Kept.put_mem ?_ | refine Kept.upd ?_

theorem guestAdd_kept {al : Allow} {orig s : State} {c : Command} {g : Guest} {offset : Nat} {commit : Bool}  (kept : Kept al orig s) : Kept al orig (guestAdd s c g offset commit) := by
  dsimp -iota only [guestAdd]
  with_reducible repeat' first
      | assumption | apply complete_kept | apply startIo_kept | apply putGuest_kept | split | refine Kept.upd ?_

theorem execGuestPut_kept {al : Allow} {orig s fin : State} {c : Command}  (kept : Kept al orig s) (e : execGuestPut c s = .next fin) : Kept al orig fin := by
  dsimp -iota only [execGuestPut] at e
  injection e with e
  subst e
  with_reducible repeat' first
      | assumption | apply complete_kept | apply discardGuest_kept | apply guestAdd_kept | apply whenReady_kept
      | (intro _) | split | refine Kept.upd ?_

theorem execGuestGet_kept {al : Allow} {orig s fin : State} {c : Command}  (kept : Kept al orig s) (e : execGuestGet c s = .next fin) : Kept al orig fin := by
  dsimp -iota only [execGuestGet] at e
  injection e with e
  subst e
  with_reducible repeat' first
      | assumption | apply complete_kept | apply startIo_kept | apply whenReady_kept | (intro _) | split
      | refine Kept.upd ?_

theorem execGuestRelease_kept {al : Allow} {orig s fin : State} {c : Command}  (kept : Kept al orig s) (e : execGuestRelease c s = .next fin) : Kept al orig fin := by
  dsimp -iota only [execGuestRelease] at e
  injection e with e
  subst e
  with_reducible repeat' first
      | assumption | apply complete_kept | apply discardGuest_kept | apply tenantAbsent_kept | apply whenReady_kept
      | (intro _) | split | refine Kept.upd ?_

theorem modProtect_kept {al : Allow} {orig s : State} {q : SeqId} {lostLocal : Bool} {f : ReProtect → ReProtect}  (kept : Kept al orig s) : Kept al orig (modProtect s q lostLocal f) := by
  dsimp -iota only [modProtect]
  with_reducible repeat' first
      | assumption | (intro _) | split | refine Kept.put_mem ?_ | refine Kept.upd ?_

theorem endProtect_kept {al : Allow} {orig s : State} {q : SeqId} {lostLocal : Bool}  (kept : Kept al orig s) : Kept al orig (endProtect s q lostLocal) := by
  dsimp -iota only [endProtect]
  with_reducible repeat' first
      | assumption | (intro _) | refine Kept.put_mem ?_ | refine Kept.upd ?_

theorem protectWriteAt_kept {al : Allow} {orig s : State} {q : SeqId} {partner : Nat} {o : Parked} {p : Nat}  (kept : Kept al orig s) : Kept al orig (protectWriteAt s q partner o p) := by
  dsimp -iota only [protectWriteAt]
  with_reducible repeat' first
      | assumption | refine writeObject_kept ?_ (by assumption) | apply writeObject_proj | apply modProtect_kept
      | (intro _) | split | refine Kept.upd ?_

theorem protectPlace_kept {al : Allow} {orig s : State} {q : SeqId} {x : Seq} {partner : Nat} {fs : List ObjFrame}  (kept : Kept al orig s) : Kept al orig (protectPlace s q x partner fs) := by
  dsimp -iota only [protectPlace]
  with_reducible repeat' first
      | assumption | apply protectWriteAt_kept | split | refine Kept.upd ?_

theorem protectLocal_kept {al : Allow} {orig s : State} {j : ReProtect} {x : Seq} {r : ParkRef}  (kept : Kept al orig s) : Kept al orig (protectLocal s j x r) := by
  dsimp -iota only [protectLocal]
  with_reducible repeat' first
      | assumption | refine askHolders_kept ?_ (by assumption) | apply askHolders_proj | apply dropHolders_kept
      | apply modProtect_kept | apply endProtect_kept | apply protectPlace_kept | (intro _) | split
      | refine Kept.upd ?_

theorem protectGuest_kept {al : Allow} {orig s : State} {j : ReProtect} {x : Seq} {r : ParkRef}  (kept : Kept al orig s) : Kept al orig (protectGuest s j x r) := by
  dsimp -iota only [protectGuest]
  with_reducible repeat' first
      | assumption | apply modPort_kept | refine sendGuest_kept ?_ (by assumption) | apply sendGuest_proj
      | apply dropAnswers_kept | apply discardGuest_kept | apply modProtect_kept | apply endProtect_kept
      | apply modSeq_kept | (intro _) | split | refine Kept.upd ?_

theorem protectStep_kept {al : Allow} {orig s : State} {q : SeqId} {j : ReProtect}  (kept : Kept al orig s) : Kept al orig (protectStep q s j) := by
  dsimp -iota only [protectStep]
  with_reducible repeat' first
      | assumption | apply endProtect_kept | apply protectLocal_kept | apply protectGuest_kept | split
      | refine Kept.upd ?_

theorem execReProtect_kept {al : Allow} {orig s fin : State} {q : SeqId}  (kept : Kept al orig s) (e : execReProtect q s = .next fin) : Kept al orig fin := by
  dsimp -iota only [execReProtect] at e
  injection e with e
  subst e
  with_reducible repeat' first
      | assumption | apply whileRunning_kept | apply protectStep_kept | apply foldState_kept | (intro _) | split
      | refine Kept.upd ?_

theorem followCart_kept {al : Allow} {orig s : State} {p : Nat}  (kept : Kept al orig s) : Kept al orig (followCart s p) := by
  dsimp -iota only [followCart]
  with_reducible repeat' first
      | assumption | (intro _) | split | refine Kept.put_mem ?_ | refine Kept.upd ?_

theorem insertCartridge_kept {al : Allow} {orig s : State} {p : Nat} {i : CartridgeInfo}  (kept : Kept al orig s) : Kept al orig (insertCartridge s p i) := by
  dsimp -iota only [insertCartridge]
  with_reducible repeat' first
      | assumption | apply raise_kept | apply modPort_kept | apply deallocate_kept | apply lifeLevel_kept
      | apply followCart_kept | apply iter_kept | (intro _) | split | refine Kept.put_mem ?_ | refine Kept.upd ?_

theorem execCartridgeInsert_kept {al : Allow} {orig s fin : State} {port : Fin 2} {info : CartridgeInfo}  (kept : Kept al orig s) (e : execCartridgeInsert port info s = .next fin) : Kept al orig fin := by
  dsimp -iota only [execCartridgeInsert] at e
  injection e with e
  subst e
  with_reducible repeat' first
      | assumption | apply insertCartridge_kept | split | refine Kept.upd ?_

theorem portGone_kept {al : Allow} {orig s : State} {p : Nat}  (kept : Kept al orig s) : Kept al orig (portGone s p) := by
  dsimp -iota only [portGone]
  with_reducible repeat' first
      | assumption | apply portEmpty_kept | apply ioFailed_kept | apply foldState_kept | (intro _)
      | refine Kept.put_mem ?_ | refine Kept.upd ?_

theorem execCartridgeRemoval_kept {al : Allow} {orig s fin : State} {port : Fin 2}  (kept : Kept al orig s) (e : execCartridgeRemoval port s = .next fin) : Kept al orig fin := by
  dsimp -iota only [execCartridgeRemoval] at e
  injection e with e
  subst e
  with_reducible repeat' first
      | assumption | apply raise_kept | apply whileRunning_kept | apply portGone_kept | (intro _) | split
      | refine Kept.upd ?_

theorem cpEnrol_kept {al : Allow} {orig s : State} {port : Fin 2}  (kept : Kept al orig s) : Kept al orig (cpEnrol port s) := by
  dsimp -iota only [cpEnrol]
  with_reducible repeat' first
      | assumption | apply modPort_kept | apply startIo_kept | (intro _) | split | refine Kept.upd ?_

theorem execCpEnrol_kept {al : Allow} {orig s fin : State} {port : Fin 2}  (kept : Kept al orig s) (e : execCpEnrol port s = .next fin) : Kept al orig fin := by
  dsimp -iota only [execCpEnrol] at e
  injection e with e
  subst e
  with_reducible repeat' first
      | assumption | apply regEnter_kept | apply cpEnrol_kept | (intro _) | refine Kept.upd ?_

theorem cpEject_kept {al : Allow} {orig s : State} {port : Fin 2}  (kept : Kept al orig s) : Kept al orig (cpEject port s) := by
  dsimp -iota only [cpEject]
  with_reducible repeat' first
      | assumption | apply modPort_kept | apply moveParks_kept | apply drainEject_kept | (intro _) | split
      | refine Kept.upd ?_

theorem execCpEject_kept {al : Allow} {orig s fin : State} {port : Fin 2}  (kept : Kept al orig s) (e : execCpEject port s = .next fin) : Kept al orig fin := by
  dsimp -iota only [execCpEject] at e
  injection e with e
  subst e
  with_reducible repeat' first
      | assumption | apply regEnter_kept | apply cpEject_kept | (intro _) | refine Kept.upd ?_

theorem execSmartPoll_kept {al : Allow} {orig s fin : State} {port : Fin 2} {log : SmartLog}  (kept : Kept al orig s) (e : execSmartPoll port log s = .next fin) : Kept al orig fin := by
  dsimp -iota only [execSmartPoll] at e
  injection e with e
  subst e
  with_reducible repeat' first
      | assumption | apply whileRunning_kept | apply modPort_kept | apply protectDue_kept | apply moveParks_kept
      | apply lifeLevel_kept | apply lifeRecord_kept | (intro _) | split | refine Kept.upd ?_

theorem preemptSpend_kept {al : Allow} {orig s : State} {n : Nat}  (kept : Kept al orig s) : Kept al orig (preemptSpend s n) := by
  dsimp -iota only [preemptSpend]
  with_reducible repeat' first
      | assumption | split | refine Kept.put_mem ?_ | refine Kept.upd ?_

theorem execPreemptVictim_kept {al : Allow} {orig s fin : State}   (kept : Kept al orig s) (e : execPreemptVictim s = .next fin) : Kept al orig fin := by
  dsimp -iota only [execPreemptVictim] at e
  injection e with e
  subst e
  with_reducible repeat' first
      | assumption | apply startDown_kept | apply releaseStaged_kept | apply whileRunning_kept
      | apply startPark_kept | apply retryWakes_kept | apply preemptSpend_kept | apply foldState_kept | (intro _)
      | split | refine Kept.put_mem ?_ | refine Kept.upd ?_

end Sys2Proof.Machine
end

