-- ==== Sys2Proof/Laws/KeptAppend.lean ====
section
/-!
SUPPORT. Laws/KeptAppend.lean: what each operation of Machine/Append.lean keeps (Laws/Kept.lean).
-/

namespace Sys2Proof.Machine

set_option Elab.async false
set_option linter.unreachableTactic false
set_option linter.unusedTactic false

theorem withActive_kept {al : Allow} {orig s : State} {c : Command} {q : SeqId} {refusal : Seq → Option Reply} {f : Seq → State} (h_f : ∀ y, Kept al orig (f y)) (kept : Kept al orig s) : Kept al orig (withActive s c q refusal f) := by
  dsimp -iota only [withActive]
  with_reducible repeat' first
      | assumption | apply complete_kept | apply startWake_kept | apply h_f | (intro _) | split | refine Kept.upd ?_

theorem createSeq_kept {al : Allow} {orig s fin : State} {q : SeqId} {x : Seq} (kept : Kept al orig s)
    (e : createSeq s q x = .ok fin) : Kept al orig fin := by
  dsimp -iota only [createSeq] at e
  split at e
  · cases e
  · split at e
    · cases e
    · next b s1 e1 =>
      split at e
      · cases e
      · next s3 e3 => cases e; exact takeReserves_kept (setSeq_kept (allocBlocks_kept kept e1)) e3
theorem pageFrame_kept {al : Allow} {orig s : State} {q : SeqId} {t : Nat} {k : Nat} {first : Bool} {fin : State} {x0 : Nat}  (kept : Kept al orig s) (e : pageFrame s q t k first = some (x0, fin)) : Kept al orig fin := by
  dsimp -iota only [pageFrame] at e
  repeat' split at e
  all_goals try (simp only [Option.some.injEq, Prod.mk.injEq, reduceCtorEq] at e <;> obtain ⟨-, rfl⟩ := e)
  all_goals
    with_reducible repeat' first
        | assumption | refine newFrame_kept ?_ (by assumption) | apply modFrame_kept | apply setSeq_kept
        | apply wantRefill_kept | (intro _) | split | refine Kept.upd ?_

theorem copyOnWrite_kept {al : Allow} {orig s : State} {q : SeqId} {x : Seq} {t : Nat} {k : Nat} {old : Nat} {new : Nat} {keep : Nat}  (kept : Kept al orig s) : Kept al orig (copyOnWrite s q x t k old new keep) := by
  dsimp -iota only [copyOnWrite]
  with_reducible repeat' first
      | assumption | apply zeroToken_kept | apply setTokens_kept | apply slotFill_kept | apply setFlux_kept
      | apply poisonFrame_kept | apply decRef_kept | apply pageSet_kept | apply foldState_kept | (intro _) | split
      | refine Kept.upd ?_

theorem firstHeader_kept {al : Allow} {orig s : State} {x : Seq} {lpn : Nat} {layer : Nat} {head : Nat} {k : Nat}  (kept : Kept al orig s) : Kept al orig (firstHeader s x lpn layer head k) := by
  dsimp -iota only [firstHeader]
  with_reducible repeat' first
      | assumption | apply imgWrite_kept | refine Kept.upd ?_

theorem writePage_kept {al : Allow} {orig s : State} {x : Seq} {part : AppendPart} {lpn : Nat} {k : Nat} {pos : Nat} {ntok : Nat} {fresh : Bool}  (kept : Kept al orig s) : Kept al orig (writePage s x part lpn k pos ntok fresh) := by
  dsimp -iota only [writePage]
  with_reducible repeat' first
      | assumption | apply writeSkim_kept | apply writeToken_kept | apply setTokens_kept | apply setFlux_kept
      | apply foldState_kept | (intro _) | refine Kept.upd ?_

/-- A fold that may fail and whose accumulator holds the state last. -/
theorem foldlOpt_kept {al : Allow} {orig : State} {α β : Type} {f : Option (α × State) → β → Option (α × State)}
    (hf : ∀ acc k, (∀ r, acc = some r → Kept al orig r.2) → ∀ r, f acc k = some r → Kept al orig r.2) {l : List β} :
    ∀ {acc : Option (α × State)} {r : α × State}, (∀ r, acc = some r → Kept al orig r.2) → l.foldl f acc = some r →
      Kept al orig r.2 := by
  induction l with
  | nil => exact fun h e => h _ e
  | cons k l ih => exact fun h e => ih (hf _ k h) e

theorem appendTensor_kept {al : Allow} {orig s fin : State} {q : SeqId} {pos ntok : Nat} {part : AppendPart} {ls : List Nat}
    (kept : Kept al orig s) (e : appendTensor q pos ntok part s = some (ls, fin)) : Kept al orig fin := by
  unfold appendTensor at e
  split at e
  · cases e
  · refine foldlOpt_kept (fun acc k h r er => ?_) (fun r er => ?_) e
    · obtain ⟨⟨l0, s0⟩, e0, e1⟩ := Option.bind_eq_some_iff.1 er
      obtain ⟨⟨n, s1⟩, e2, e3⟩ := Option.bind_eq_some_iff.1 e1
      simp only [Option.map_eq_some_iff] at e3
      obtain ⟨s2, e4, e5⟩ := e3
      subst e5
      with_reducible refine writePage_kept ?_
      with_reducible refine firstHeader_kept ?_
      exact pageName_kept (pageFrame_kept (h _ e0) e2) e4
    · split at er
      · cases er; exact kept
      · split at er
        · cases er
          with_reducible refine writePage_kept ?_
          exact setFlux_kept kept
        · simp only [Option.map_eq_some_iff] at er
          obtain ⟨⟨n, s1⟩, e2, e3⟩ := er
          subst e3
          with_reducible refine writePage_kept ?_
          with_reducible refine copyOnWrite_kept ?_
          exact pageFrame_kept kept e2
theorem appendAll_kept {al : Allow} {orig : State} {q : SeqId} {pos ntok : Nat} {ps : List AppendPart} :
    ∀ {s fin : State} {ls : List Nat}, Kept al orig s → appendAll q pos ntok ps s = some (ls, fin) → Kept al orig fin := by
  induction ps with
  | nil => intro s fin ls kept e; cases e; exact kept
  | cons p ps ih =>
    intro s fin ls kept e
    obtain ⟨⟨l1, s1⟩, e1, e2⟩ := Option.bind_eq_some_iff.1 e
    obtain ⟨⟨l2, s2⟩, e3, e4⟩ := Option.map_eq_some_iff.1 e2
    cases e4
    exact ih (appendTensor_kept kept e1) e3
theorem startParts_kept {al : Allow} {orig undo s : State} {c : Command} {q : SeqId} {x : Seq} {parts : List AppendPart}
    {pos ntok : Nat} {errs : List (List WordErr)} (ku : Kept al orig undo) (kept : Kept al orig s) :
    Kept al orig (startParts undo s c q x parts pos ntok errs) := by
  dsimp -iota only [startParts]
  repeat' split
  all_goals first
    | exact ku
    | exact complete_kept ku
    | exact complete_kept (foldState_kept (fun _ _ h => requestStage_kept h) ku)
    | exact complete_kept kept
    | exact complete_kept (checkAll_kept kept rfl)
    | exact modLive_kept (whenMemory_kept ku ku)
    | exact modLive_kept (appendAll_kept (checkAll_kept kept rfl) ‹_›)
    | exact modLive_kept (appendAll_kept kept ‹_›)
theorem appendStart_kept {al : Allow} {orig s : State} {c : Command} {errs : List (List WordErr)} (kept : Kept al orig s) :
    Kept al orig (appendStart s c errs) := by
  dsimp -iota only [appendStart]
  split
  · have go : ∀ (s1 : State) (x : Seq) (blk : List Byte) tb q ntok pos, Kept al orig s1 → Kept al orig (
        if boundPassed s c then complete s c { status := .busyRetry }
        else match appendParts x tb ntok blk with
        | none => complete s c { status := .notOwner, owner := ownerHint s c.desc }
        | some parts => startParts s s1 c q x parts pos ntok errs) := by
      intro s1 x blk tb q ntok pos k
      with_reducible repeat' first
        | assumption | apply complete_kept | apply startParts_kept | split
    split
    · split
      · exact complete_kept kept
      · exact kept
    · split
      · split
        · exact complete_kept kept
        · split
          · exact complete_kept kept
          · split
            · exact complete_kept kept
            · next e =>
              split
              · exact kept
              · exact go _ _ _ _ _ _ _ (createSeq_kept kept e)
      · exact withActive_kept (fun x => go _ _ _ _ _ _ _ kept) kept
  · exact kept
theorem execAppendStart_kept {al : Allow} {orig s fin : State} {key : CmdKey} {errs : List (List WordErr)}  (kept : Kept al orig s) (e : execAppendStart key errs s = .next fin) : Kept al orig fin := by
  dsimp -iota only [execAppendStart] at e
  injection e with e
  subst e
  with_reducible repeat' first
      | assumption | apply appendStart_kept | apply whileRunning_kept | (intro _) | split | refine Kept.upd ?_

theorem execAppendBoundExpiry_kept {al : Allow} {orig s fin : State} {key : CmdKey}  (kept : Kept al orig s) (e : execAppendBoundExpiry key s = .next fin) : Kept al orig fin := by
  dsimp -iota only [execAppendBoundExpiry] at e
  injection e with e
  subst e
  with_reducible repeat' first
      | assumption | apply complete_kept | apply whileRunning_kept | (intro _) | split | refine Kept.upd ?_

theorem recordTokens_kept {al : Allow} {orig s : State} {lpn : Nat}  (kept : Kept al orig s) : Kept al orig (recordTokens s lpn) := by
  dsimp -iota only [recordTokens]
  with_reducible repeat' first
      | assumption | (intro _) | split | refine Kept.upd ?_

theorem commitFrame_kept {al : Allow} {orig s : State} {lpn : Nat} {bad : Bool}  (kept : Kept al orig s) : Kept al orig (commitFrame s lpn bad) := by
  dsimp -iota only [commitFrame]
  with_reducible repeat' first
      | assumption | apply recordTokens_kept | apply modFrame_kept | apply imgWrite_kept | apply setFlux_kept
      | apply poisonFrame_kept | (intro _) | split | refine Kept.upd ?_

theorem commitChecked_kept {al : Allow} {orig s : State} {lpn : Nat} {badWord : Bool} {verifyBad : Bool}  (kept : Kept al orig s) : Kept al orig (commitChecked s lpn badWord verifyBad) := by
  dsimp -iota only [commitChecked]
  with_reducible repeat' first
      | assumption | apply commitFrame_kept | refine checkFails_kept ?_ (by assumption) | apply checkFails_proj
      | refine checkFailsIf_kept ?_ (by assumption) | split | refine Kept.upd ?_

theorem execFrameCommit_kept {al : Allow} {orig s fin : State} {lpn : Nat} {badWord : Bool} {verifyBad : Bool}  (kept : Kept al orig s) (e : execFrameCommit lpn badWord verifyBad s = .next fin) : Kept al orig fin := by
  dsimp -iota only [execFrameCommit] at e
  injection e with e
  subst e
  with_reducible repeat' first
      | assumption | apply commitChecked_kept | apply whileRunning_kept | (intro _) | split | refine Kept.upd ?_

theorem appendEnd_kept {al : Allow} {orig s : State} {l : Live} {tb : TensorBlock} {ntok : Nat} {pos : Nat}  (kept : Kept al orig s) : Kept al orig (appendEnd s l tb ntok pos) := by
  dsimp -iota only [appendEnd]
  with_reducible repeat' first
      | assumption | apply complete_kept | apply finish_kept | apply commitChecked_kept | apply setSeq_kept
      | apply foldState_kept | (intro _) | split | refine Kept.upd ?_

theorem execAppend_kept {al : Allow} {orig s fin : State} {c : Command}  (kept : Kept al orig s) (e : execAppend c s = .next fin) : Kept al orig fin := by
  dsimp -iota only [execAppend] at e
  injection e with e
  subst e
  with_reducible repeat' first
      | assumption | apply appendStart_kept | apply appendEnd_kept | apply whenReady_kept | (intro _) | split
      | refine Kept.upd ?_

theorem execReserveRefill_kept {al : Allow} {orig s fin : State} {q : SeqId} {tensor : Nat}
    (kept : Kept al orig s) (e : execReserveRefill q tensor s = .next fin) : Kept al orig fin := by
  unfold execReserveRefill at e
  injection e with e
  subst e
  refine whileRunning_kept ?_ kept
  dsimp only
  split
  · exact kept
  · split
    · exact kept.put_mem
    · rename_i x hx
      split
      · exact (modSeq_kept kept).put_mem
      · rename_i s1 h1
        have k1 : Kept al orig s1 := by
          split at h1
          · exact takeReserve_kept kept h1
          · cases h1; exact kept
        clear h1
        split
        · exact modSeq_kept k1.put_mem
        · exact modSeq_kept (modSeq_kept k1.put_mem)
theorem execZeroFill_kept {al : Allow} {orig s fin : State} {stack : Fin 12} {pc : Nat}
    (kept : Kept al orig s) (e : execZeroFill stack pc s = .next fin) : Kept al orig fin := by
  unfold execZeroFill at e
  injection e with e
  subst e
  refine whileRunning_kept ?_ kept
  dsimp only
  split
  · exact kept
  · exact whenMemory_kept (retryWakes_kept (modFree_kept (zeroSlot_kept (pairVacant_kept kept)))) (pairVacant_kept kept)
end Sys2Proof.Machine
end

