-- ==== Sys2Proof/Laws/KeptLifecycle.lean ====
section
/-!
SUPPORT. Laws/KeptLifecycle.lean: what each operation of Machine/Lifecycle.lean keeps (Laws/Kept.lean).
-/

namespace Sys2Proof.Machine

set_option Elab.async false
set_option linter.unreachableTactic false
set_option linter.unusedTactic false

theorem sharePages_kept {al : Allow} {orig s : State} {child : SeqId} {ps : List (Nat × Nat × PageHandle)}  (kept : Kept al orig s) : Kept al orig (sharePages s child ps) := by
  dsimp -iota only [sharePages]
  with_reducible repeat' first
      | assumption | apply modFrame_kept | apply pageSet_kept | apply foldState_kept | (intro _)
      | refine Kept.upd ?_

theorem execFork_kept {al : Allow} {orig s fin : State} {c : Command}  (kept : Kept al orig s) (e : execFork c s = .next fin) : Kept al orig fin := by
  dsimp -iota only [execFork] at e
  injection e with e
  subst e
  with_reducible repeat' first
      | assumption | apply sharePages_kept | apply complete_kept | apply finish_kept | apply withActive_kept
      | refine createSeq_kept ?_ (by assumption) | apply whenReady_kept | (intro _) | split | refine Kept.upd ?_

theorem trimCut_kept {al : Allow} {orig s fin : State} {q : SeqId} {t : Nat} {cut : Nat × PageHandle × Nat}
    (kept : Kept al orig s) (e : trimCut s q t cut = some fin) : Kept al orig fin := by
  obtain ⟨k, h, keep⟩ := cut
  unfold trimCut at e
  split at e
  · cases e
  · dsimp only at e
    split at e
    · rw [← Option.some.inj e]
      with_reducible repeat' first
        | assumption | apply commitChecked_kept | apply setTokens_kept | apply foldState_kept | apply zeroToken_kept
        | apply setFlux_kept | (intro _)
    · simp only [Option.map_eq_some_iff] at e
      obtain ⟨⟨n, s1⟩, e2, e3⟩ := e
      subst e3
      with_reducible refine commitChecked_kept ?_
      with_reducible refine copyOnWrite_kept ?_
      exact pageFrame_kept kept e2
theorem trimApply_kept {al : Allow} {orig s fin : State} {q : SeqId} {p : TrimPart} (kept : Kept al orig s)
    (e : trimApply q p s = some fin) : Kept al orig fin := by
  unfold trimApply at e
  simp only [Option.map_eq_some_iff] at e
  obtain ⟨s1, e1, e2⟩ := e
  have k : Kept al orig s1 := by
    split at e1
    · cases e1; exact kept
    · exact trimCut_kept kept e1
  rw [← e2]
  with_reducible repeat' first
    | assumption | apply foldState_kept | apply decRef_kept | apply pageDel_kept | apply wantRefill_kept | apply modSeq_kept
    | apply dropReserve_kept | (intro _) | split
theorem trimAll_kept {al : Allow} {orig : State} {q : SeqId} {ps : List TrimPart} :
    ∀ {s fin : State}, Kept al orig s → trimAll q ps s = some fin → Kept al orig fin := by
  induction ps with
  | nil => intro s fin kept e; cases e; exact kept
  | cons t ts ih =>
    intro s fin kept e
    obtain ⟨s1, e1, e2⟩ := Option.bind_eq_some_iff.1 e
    exact ih (trimApply_kept kept e1) e2
theorem execTrim_kept {al : Allow} {orig s fin : State} {c : Command} {errs : List (List WordErr)}
    (kept : Kept al orig s) (e : execTrim c errs s = .next fin) : Kept al orig fin := by
  unfold execTrim at e
  injection e with e
  subst e
  refine whenReady_kept ?_ kept
  beta_reduce
  split
  · refine withActive_kept (fun x => ?_) kept
    extract_lets q
    split
    · exact complete_kept kept
    · extract_lets cuts lower shared checked
      clear_value cuts lower
      split
      · exact kept
      · split
        · exact complete_kept (foldState_kept (fun _ _ h => requestStage_kept h) kept)
        · refine whenMemory_kept ?_ kept
          beta_reduce
          have kc : Kept al orig checked.2 := by
            rcases h : checked with ⟨b, t⟩
            exact checkAll_kept kept h
          clear_value shared checked
          split
          · exact complete_kept kept
          · split
            · exact complete_kept kc
            · split
              · exact complete_kept kc
              · rename_i s1 h1
                exact finish_kept (trimAll_kept kc h1)
  · exact kept
theorem execEvict_kept {al : Allow} {orig s fin : State} {c : Command}  (kept : Kept al orig s) (e : execEvict c s = .next fin) : Kept al orig fin := by
  dsimp -iota only [execEvict] at e
  injection e with e
  subst e
  with_reducible repeat' first
      | assumption | apply complete_kept | apply finish_kept | apply evictSeq_kept | apply whenReady_kept
      | (intro _) | split | refine Kept.upd ?_

theorem applyHint_kept {al : Allow} {orig s : State} {q : SeqId} {x : Seq} {tb : TensorBlock} {kind : Nat} {start : Nat} {limit : Nat}  (kept : Kept al orig s) : Kept al orig (applyHint s q x tb kind start limit) := by
  dsimp -iota only [applyHint]
  with_reducible repeat' first
      | assumption | apply requestStage_kept | apply setSeq_kept | apply foldState_kept | (intro _) | split
      | refine Kept.upd ?_

theorem execHint_kept {al : Allow} {orig s fin : State} {c : Command}  (kept : Kept al orig s) (e : execHint c s = .next fin) : Kept al orig fin := by
  dsimp -iota only [execHint] at e
  injection e with e
  subst e
  with_reducible repeat' first
      | assumption | apply applyHint_kept | apply complete_kept | apply whenReady_kept | (intro _) | split
      | refine Kept.upd ?_

theorem refreshFrame_kept {al : Allow} {orig s : State} {x : Seq} {lpn : Nat}  (kept : Kept al orig s) : Kept al orig (refreshFrame s x lpn) := by
  dsimp -iota only [refreshFrame]
  with_reducible repeat' first
      | assumption | apply writeSkim_kept | apply modFrame_kept | apply setSideFlag_kept | (intro _) | split
      | refine Kept.upd ?_

theorem refreshStep_kept {al : Allow} {orig s : State} {j : RefreshJob}  (kept : Kept al orig s) : Kept al orig (refreshStep s j) := by
  dsimp -iota only [refreshStep]
  with_reducible repeat' first
      | assumption | apply refreshFrame_kept | apply complete_kept | apply holdAt_kept | apply foldState_kept
      | (intro _) | split | refine Kept.upd ?_

theorem refreshAll_kept {al : Allow} {orig s : State}   (kept : Kept al orig s) : Kept al orig (refreshAll s) := by
  dsimp -iota only [refreshAll]
  with_reducible repeat' first
      | assumption | apply refreshStep_kept | apply foldState_kept | refine Kept.upd ?_

theorem execSkimRefresh_kept {al : Allow} {orig s fin : State} {c : Command}  (kept : Kept al orig s) (e : execSkimRefresh c s = .next fin) : Kept al orig fin := by
  dsimp -iota only [execSkimRefresh] at e
  injection e with e
  subst e
  with_reducible repeat' first
      | assumption | apply refreshStep_kept | apply requestStage_kept | apply withActive_kept
      | apply setSideFlag_kept | apply whenReady_kept | apply foldState_kept | (intro _) | split
      | refine Kept.upd ?_

theorem endRead_kept {al : Allow} {orig s : State} {w : ReadWait}  (kept : Kept al orig s) : Kept al orig (endRead s w) := by
  dsimp -iota only [endRead]
  with_reducible repeat' first
      | assumption | apply codecEnd_kept | apply unpin_kept | apply foldState_kept | (intro _) | refine Kept.upd ?_

theorem readHbm_kept {al : Allow} {orig s : State} {c : Command} {lpn : Nat} {offset : Nat} {length : Nat} {errs : List WordErr} {crcBad : Bool}  (kept : Kept al orig s) : Kept al orig (readHbm s c lpn offset length errs crcBad) := by
  dsimp -iota only [readHbm]
  with_reducible repeat' first
      | assumption | apply complete_kept | refine checkFails_kept ?_ (by assumption) | apply checkFails_proj
      | refine checkFailsIf_kept ?_ (by assumption) | refine checkWords_kept ?_ (by assumption)
      | apply checkWords_proj | apply poisonFrame_kept | split | refine Kept.upd ?_

theorem execFrameRead_kept {al : Allow} {orig s fin : State} {c : Command} {errs : List WordErr} {crcBad : Bool}
    (kept : Kept al orig s) (e : execFrameRead c errs crcBad s = .next fin) : Kept al orig fin := by
  unfold execFrameRead at e
  injection e with e
  subst e
  refine whenReady_kept ?_ kept
  beta_reduce
  split
  · split
    · split
      · exact kept
      · split
        · exact complete_kept (endRead_kept kept)
        · exact complete_kept (endRead_kept kept)
    · split
      · exact complete_kept kept
      · extract_lets f
        clear_value f
        split
        · exact kept
        · split
          · exact complete_kept kept
          · split
            · exact complete_kept kept
            · split
              · exact whenMemory_kept (readHbm_kept kept) kept
              · exact codecSubmit_proj (modFrame_kept kept).upd
  · exact kept
theorem execFrameReadDeadline_kept {al : Allow} {orig s fin : State} {key : CmdKey}  (kept : Kept al orig s) (e : execFrameReadDeadline key s = .next fin) : Kept al orig fin := by
  dsimp -iota only [execFrameReadDeadline] at e
  injection e with e
  subst e
  with_reducible repeat' first
      | assumption | apply endRead_kept | apply complete_kept | apply whileRunning_kept | (intro _) | split
      | refine Kept.upd ?_

theorem writeFrame_kept {al : Allow} {orig s : State} {lpn : Nat} {offset : Nat} {payload : List Byte}  (kept : Kept al orig s) : Kept al orig (writeFrame s lpn offset payload) := by
  dsimp -iota only [writeFrame]
  with_reducible repeat' first
      | assumption | apply commitChecked_kept | apply imgWrite_kept | apply setSideFlag_kept | apply setFlux_kept
      | refine Kept.upd ?_

theorem execFrameWrite_kept {al : Allow} {orig s fin : State} {c : Command}  (kept : Kept al orig s) (e : execFrameWrite c s = .next fin) : Kept al orig fin := by
  dsimp -iota only [execFrameWrite] at e
  injection e with e
  subst e
  with_reducible repeat' first
      | assumption | apply writeFrame_kept | apply complete_kept | apply finish_kept | apply requestStage_kept
      | apply withActive_kept | apply whenMemory_kept | apply whenReady_kept | (intro _) | split
      | refine Kept.upd ?_

end Sys2Proof.Machine
end

