-- ==== Sys2Proof/Laws/KeptLedger.lean ====
section
/-!
SUPPORT. Laws/KeptLedger.lean: what each operation of Machine/Ledger.lean keeps (Laws/Kept.lean).
-/

namespace Sys2Proof.Machine

set_option Elab.async false
set_option linter.unreachableTactic false
set_option linter.unusedTactic false

theorem modRegion_kept {al : Allow} {orig s : State} {r : Nat} {f : LedRegion → LedRegion}  (kept : Kept al orig s) : Kept al orig (modRegion s r f) := by
  dsimp -iota only [modRegion]
  with_reducible repeat' first
      | assumption | refine Kept.upd ?_

theorem modLine_kept {al : Allow} {orig s : State} {r : Nat} {i : Nat} {f : LedLine → LedLine}  (kept : Kept al orig s) : Kept al orig (modLine s r i f) := by
  dsimp -iota only [modLine]
  with_reducible repeat' first
      | assumption | apply modRegion_kept | (intro _) | refine Kept.upd ?_

theorem sendRecall_kept {al : Allow} {orig s : State} {r : Nat} {i : Nat} {holder : Endpoint} {downgrade : Bool} {version : Nat}  (kept : Kept al orig s) : Kept al orig (sendRecall s r i holder downgrade version) := by
  dsimp -iota only [sendRecall]
  with_reducible repeat' first
      | assumption | apply linkSend_kept | apply sendMsg_kept | (intro _) | split | refine Kept.upd ?_

theorem commitLine_kept {al : Allow} {orig s : State} {r : Nat} {i : Nat} {bytes : List Byte} {by_ : Option CmdKey}  (kept : Kept al orig s) : Kept al orig (commitLine s r i bytes by_) := by
  dsimp -iota only [commitLine]
  with_reducible repeat' first
      | assumption | apply modRegion_kept | apply modLine_kept | (intro _) | refine Kept.upd ?_

theorem endRecall_kept {al : Allow} {orig s : State} {x : Recall}  (kept : Kept al orig s) : Kept al orig (endRecall s x) := by
  dsimp -iota only [endRecall]
  with_reducible repeat' first
      | assumption | apply modLine_kept | (intro _) | split | refine Kept.upd ?_

theorem touchLine_kept {al : Allow} {orig s : State} {r : Nat} {i : Nat}  (kept : Kept al orig s) : Kept al orig (touchLine s r i) := by
  dsimp -iota only [touchLine]
  with_reducible repeat' first
      | assumption | refine Kept.upd ?_

theorem returnLine_kept {al : Allow} {orig s : State} {r : Nat} {i : Nat} {src : Endpoint} {granted : Nat} {fin : State} {x1 : List Byte} {x2 : Bool} {x3 : Bool}  (kept : Kept al orig s) (e : returnLine s r i src granted = (fin, x1, x2, x3)) : Kept al orig fin := by
  dsimp -iota only [returnLine] at e
  repeat' split at e
  all_goals try (simp only [Option.some.injEq, Prod.mk.injEq, reduceCtorEq] at e <;> obtain ⟨rfl, -, -, -⟩ := e)
  all_goals
    with_reducible repeat' first
        | assumption | apply modLine_kept | apply touchLine_kept | (intro _) | split | refine Kept.upd ?_

theorem returnLine_proj {al : Allow} {orig s : State} {r : Nat} {i : Nat} {src : Endpoint} {granted : Nat}  (kept : Kept al orig s) : Kept al orig (returnLine s r i src granted).1 := by
  rcases h : returnLine s r i src granted with ⟨y0, y1, y2, y3⟩
  exact returnLine_kept kept h

theorem completeRead_kept {al : Allow} {orig s : State} {c : Command} {r first count : Nat} {grants : Bool}
    (kept : Kept al orig s) : Kept al orig (completeRead s c r first count grants) := by
  dsimp -iota only [completeRead]
  split
  next s1 data lost poison e =>
    refine complete_kept ?_
    rw [show s1 = _ from (congrArg Prod.fst e).symm]
    refine foldl_kept Prod.fst (fun b x k => ?_) ?_
    · exact returnLine_kept k rfl
    · exact kept
theorem giveGrant_kept {al : Allow} {orig s : State} {r : Nat} {i : Nat} {src : Endpoint} {grant : Nat}  (kept : Kept al orig s) : Kept al orig (giveGrant s r i src grant) := by
  dsimp -iota only [giveGrant]
  with_reducible repeat' first
      | assumption | apply modLine_kept | (intro _) | split | refine Kept.upd ?_

theorem recallFor_kept {al : Allow} {orig s : State} {r : Nat} {i : Nat} {src : Endpoint} {grant : Nat}  (kept : Kept al orig s) : Kept al orig (recallFor s r i src grant) := by
  dsimp -iota only [recallFor]
  with_reducible repeat' first
      | assumption | apply sendRecall_kept | apply foldState_kept | (intro _) | split | refine Kept.upd ?_

theorem reserveFrom_kept {al : Allow} {orig : State} {before : List LedWait} {w : LedWait} {n : Nat} :
    ∀ {s t : State} {k j : Nat}, Kept al orig s → reserveFrom before w n s k = (t, j) → Kept al orig t := by
  induction n with
  | zero => intro s t k j kept e; cases e; exact kept
  | succ n ih =>
    intro s t k j kept e
    dsimp only [reserveFrom] at e
    repeat' split at e
    all_goals first | exact ih kept e | (cases e; exact kept) | (cases e; exact recallFor_kept kept)
theorem serveWaits_kept {al : Allow} {orig : State} {ws : List LedWait} :
    ∀ {before rest : List LedWait} {s t : State}, Kept al orig s → serveWaits before ws s = (t, rest) → Kept al orig t := by
  induction ws with
  | nil => intro before rest s t kept e; cases e; exact kept
  | cons w ws ih =>
    intro before rest s t kept e
    unfold serveWaits at e
    split at e
    next s1 k e1 =>
      have k1 := reserveFrom_kept kept e1
      split at e
      · exact ih (completeRead_kept (foldState_kept (fun _ _ h => giveGrant_kept h) k1)) e
      · split at e
        next s3 rs e2 => cases e; exact ih k1 e2
theorem serveLedger_kept {al : Allow} {orig s : State}   (kept : Kept al orig s) : Kept al orig (serveLedger s) := by
  dsimp -iota only [serveLedger]
  with_reducible repeat' first
      | assumption | refine serveWaits_kept ?_ (by assumption) | split | refine Kept.upd ?_

theorem ledgerDup_kept {al : Allow} {orig s : State} {c : Command}  (kept : Kept al orig s) : Kept al orig (ledgerDup s c) := by
  dsimp -iota only [ledgerDup]
  with_reducible repeat' first
      | assumption | apply settle_kept | apply answerDup_kept | apply dropLive_kept | refine Kept.upd ?_

theorem poisonLines_kept {al : Allow} {orig s : State} {r : Nat} {bad : List Nat}  (kept : Kept al orig s) : Kept al orig (poisonLines s r bad) := by
  dsimp -iota only [poisonLines]
  with_reducible repeat' first
      | assumption | apply raise_kept | apply modRegion_kept | apply foldState_kept | (intro _) | split
      | refine Kept.upd ?_

theorem execLedgerRead_kept {al : Allow} {orig s fin : State} {c : Command} {badLines : List Nat}  (kept : Kept al orig s) (e : execLedgerRead c badLines s = .next fin) : Kept al orig fin := by
  dsimp -iota only [execLedgerRead] at e
  injection e with e
  subst e
  with_reducible repeat' first
      | assumption | apply modLive_kept | apply complete_kept | apply completeRead_kept | apply serveLedger_kept
      | apply poisonLines_kept | (intro _) | split | refine Kept.upd ?_

theorem finishRecall_kept {al : Allow} {orig s : State} {r : Nat} {i : Nat} {src : Endpoint}  (kept : Kept al orig s) : Kept al orig (finishRecall s r i src) := by
  dsimp -iota only [finishRecall]
  with_reducible repeat' first
      | assumption | apply endRecall_kept | (intro _) | split | refine Kept.upd ?_

theorem writeLine_kept {al : Allow} {orig s : State} {c : Command} {r : Nat} {i : Nat} {keep : Nat} {version : Nat} {bytes : List Byte} {fin : State} {x1 : List Byte} {x2 : Bool}  (kept : Kept al orig s) (e : writeLine s c r i keep version bytes = (fin, x1, x2)) : Kept al orig fin := by
  dsimp -iota only [writeLine] at e
  repeat' split at e
  all_goals try (simp only [Option.some.injEq, Prod.mk.injEq, reduceCtorEq] at e <;> obtain ⟨rfl, -, -⟩ := e)
  all_goals
    with_reducible repeat' first
        | assumption | apply modLine_kept | apply commitLine_kept | apply finishRecall_kept | (intro _) | split
        | refine Kept.upd ?_

theorem writeLine_proj {al : Allow} {orig s : State} {c : Command} {r : Nat} {i : Nat} {keep : Nat} {version : Nat} {bytes : List Byte}  (kept : Kept al orig s) : Kept al orig (writeLine s c r i keep version bytes).1 := by
  rcases h : writeLine s c r i keep version bytes with ⟨y0, y1, y2⟩
  exact writeLine_kept kept h

theorem writeLines_proj {al : Allow} {orig s : State} {c : Command} {r keep first count : Nat} (kept : Kept al orig s) :
    Kept al orig (writeLines s c r keep first count).1 := by
  unfold writeLines
  refine foldl_kept (g := Prod.fst) (fun b k h => ?_) kept
  exact writeLine_proj (c := c) (r := r) (i := first + k) (keep := keep)
    (version := fieldLe c.payload (72 * k) 8) (bytes := slice c.payload (72 * k + 8) 64) h
theorem execLedgerWrite_kept {al : Allow} {orig s fin : State} {c : Command} (kept : Kept al orig s)
    (e : execLedgerWrite c s = .next fin) : Kept al orig fin := by
  unfold execLedgerWrite at e
  injection e with e
  subst e
  split
  · exact kept
  · split
    · rename_i keep r count first hb
      split
      · exact complete_kept kept
      · extract_lets dup w
        clear_value dup
        split
        · exact ledgerDup_kept kept
        · exact serveLedger_kept (complete_kept (writeLines_proj kept))
    · exact kept
theorem dropGrant_kept {al : Allow} {orig s : State} {r : Nat} {i : Nat} {src : Endpoint}  (kept : Kept al orig s) : Kept al orig (dropGrant s r i src) := by
  dsimp -iota only [dropGrant]
  with_reducible repeat' first
      | assumption | apply modLine_kept | (intro _) | split | refine Kept.upd ?_

theorem execLedgerRelease_kept {al : Allow} {orig s fin : State} {c : Command}  (kept : Kept al orig s) (e : execLedgerRelease c s = .next fin) : Kept al orig fin := by
  dsimp -iota only [execLedgerRelease] at e
  injection e with e
  subst e
  with_reducible repeat' first
      | assumption | apply complete_kept | apply serveLedger_kept | apply dropGrant_kept | apply foldState_kept
      | (intro _) | split | refine Kept.upd ?_

theorem execLedgerPublish_kept {al : Allow} {orig s fin : State} {c : Command}  (kept : Kept al orig s) (e : execLedgerPublish c s = .next fin) : Kept al orig fin := by
  dsimp -iota only [execLedgerPublish] at e
  injection e with e
  subst e
  with_reducible repeat' first
      | assumption | apply complete_kept | apply modRegion_kept | apply ledgerDup_kept | (intro _) | split
      | refine Kept.upd ?_

theorem execRecallAnswer_kept {al : Allow} {orig s fin : State} {src : Endpoint} {reqId : Nat} {data : List Byte}  (kept : Kept al orig s) (e : execRecallAnswer src reqId data s = .next fin) : Kept al orig fin := by
  dsimp -iota only [execRecallAnswer] at e
  injection e with e
  subst e
  with_reducible repeat' first
      | assumption | apply whileRunning_kept | apply commitLine_kept | apply endRecall_kept | apply serveLedger_kept
      | (intro _) | split | refine Kept.upd ?_

theorem holderDead_kept {al : Allow} {orig s : State} {e : Endpoint}  (kept : Kept al orig s) : Kept al orig (holderDead s e) := by
  dsimp -iota only [holderDead]
  with_reducible repeat' first
      | assumption | apply serveLedger_kept | (intro _) | refine Kept.upd ?_

theorem declareDead_kept {al : Allow} {orig s : State} {e : Endpoint}  (kept : Kept al orig s) : Kept al orig (declareDead s e) := by
  dsimp -iota only [declareDead]
  with_reducible repeat' first
      | assumption | apply holderDead_kept | split | refine Kept.upd ?_

theorem ledgerEndGrants_kept {al : Allow} {orig s : State}   (kept : Kept al orig s) : Kept al orig (ledgerEndGrants s) := by
  dsimp -iota only [ledgerEndGrants]
  with_reducible repeat' first
      | assumption | apply holderDead_kept | apply foldState_kept | refine Kept.upd ?_

theorem execRecallTimeout_kept {al : Allow} {orig s fin : State} {reqId : Nat}  (kept : Kept al orig s) (e : execRecallTimeout reqId s = .next fin) : Kept al orig fin := by
  dsimp -iota only [execRecallTimeout] at e
  injection e with e
  subst e
  with_reducible repeat' first
      | assumption | apply whileRunning_kept | apply holderDead_kept | (intro _) | split | refine Kept.upd ?_

theorem ldgDeclareDead_kept {al : Allow} {orig s : State}   (kept : Kept al orig s) : Kept al orig (ldgDeclareDead s) := by
  dsimp -iota only [ldgDeclareDead]
  with_reducible repeat' first
      | assumption | apply holderDead_kept | split | refine Kept.upd ?_

theorem execLdgDeclareDead_kept {al : Allow} {orig s fin : State}   (kept : Kept al orig s) (e : execLdgDeclareDead s = .next fin) : Kept al orig fin := by
  dsimp -iota only [execLdgDeclareDead] at e
  injection e with e
  subst e
  with_reducible repeat' first
      | assumption | apply regEnter_kept | apply ldgDeclareDead_kept | (intro _) | refine Kept.upd ?_

theorem lregCreate_kept {al : Allow} {orig s : State}   (kept : Kept al orig s) : Kept al orig (lregCreate s) := by
  dsimp -iota only [lregCreate]
  with_reducible repeat' first
      | assumption | split | refine Kept.upd ?_

theorem execLregCreate_kept {al : Allow} {orig s fin : State}   (kept : Kept al orig s) (e : execLregCreate s = .next fin) : Kept al orig fin := by
  dsimp -iota only [execLregCreate] at e
  injection e with e
  subst e
  with_reducible repeat' first
      | assumption | apply regEnter_kept | apply lregCreate_kept | (intro _) | refine Kept.upd ?_

theorem deleteRegion_kept {al : Allow} {orig s : State} {r : Nat}  (kept : Kept al orig s) : Kept al orig (deleteRegion s r) := by
  dsimp -iota only [deleteRegion]
  with_reducible repeat' first
      | assumption | apply complete_kept | apply foldState_kept | (intro _) | refine Kept.upd ?_

theorem execLregDelete_kept {al : Allow} {orig s fin : State}   (kept : Kept al orig s) (e : execLregDelete s = .next fin) : Kept al orig fin := by
  dsimp -iota only [execLregDelete] at e
  injection e with e
  subst e
  with_reducible repeat' first
      | assumption | apply regEnter_kept | apply deleteRegion_kept | (intro _) | refine Kept.upd ?_

end Sys2Proof.Machine
end

