-- ==== Sys2Proof/Laws/KeptLink.lean ====
section
/-!
SUPPORT. Laws/KeptLink.lean: what each operation of Machine/Link.lean keeps (Laws/Kept.lean).
-/

namespace Sys2Proof.Machine

set_option Elab.async false
set_option linter.unreachableTactic false
set_option linter.unusedTactic false

theorem contextsLost_kept {al : Allow} {orig s : State} {which : PeerCtx → Bool}  (kept : Kept al orig s) : Kept al orig (contextsLost s which) := by
  dsimp -iota only [contextsLost]
  with_reducible repeat' first
      | assumption | apply reportAll_kept | apply raise_kept | apply caskNote_kept | apply dropOther_kept
      | apply foldState_kept | (intro _) | split | refine Kept.upd ?_

theorem memFail_kept {al : Allow} {orig s : State} {m : MemRd}  (kept : Kept al orig s) : Kept al orig (memFail s m) := by
  dsimp -iota only [memFail]
  with_reducible repeat' first
      | assumption | apply modCtx_kept | apply contextsLost_kept | (intro _) | split | refine Kept.put_mem ?_
      | refine Kept.upd ?_

theorem linkGoesDown_kept {al : Allow} {orig s : State}   (kept : Kept al orig s) : Kept al orig (linkGoesDown s) := by
  dsimp -iota only [linkGoesDown]
  with_reducible repeat' first
      | assumption | apply hostTierLost_kept | apply setLevel_kept | apply contextsLost_kept | apply memFail_kept
      | apply declareDead_kept | apply foldState_kept | (intro _) | refine Kept.upd ?_

theorem execLinkDown_kept {al : Allow} {orig s fin : State} {_cause : DownCause}  (kept : Kept al orig s) (e : execLinkDown _cause s = .next fin) : Kept al orig fin := by
  dsimp -iota only [execLinkDown] at e
  injection e with e
  subst e
  with_reducible repeat' first
      | assumption | apply linkGoesDown_kept | split | refine Kept.upd ?_

theorem linkNak_kept {al : Allow} {orig s : State} {ackSeq : Nat}  (kept : Kept al orig s) : Kept al orig (linkNak s ackSeq) := by
  dsimp -iota only [linkNak]
  with_reducible repeat' first
      | assumption | apply linkGoesDown_kept | (intro _) | split | refine Kept.upd ?_

theorem flitCrcFails_kept {al : Allow} {orig s : State} {atOnce : Bool}  (kept : Kept al orig s) : Kept al orig (flitCrcFails s atOnce) := by
  dsimp -iota only [flitCrcFails]
  with_reducible repeat' first
      | assumption | apply linkGoesDown_kept | split | refine Kept.upd ?_

theorem flitTagFails_kept {al : Allow} {orig s : State}   (kept : Kept al orig s) : Kept al orig (flitTagFails s) := by
  dsimp -iota only [flitTagFails]
  with_reducible repeat' first
      | assumption | apply raise_kept | apply caskNote_kept | apply linkGoesDown_kept | refine Kept.upd ?_

theorem flitData_kept {al : Allow} {orig s : State} {f : Flit}  (kept : Kept al orig s) : Kept al orig (flitData s f) := by
  dsimp -iota only [flitData]
  with_reducible repeat' first
      | assumption | apply linkPump_kept | apply linkGoesDown_kept | split | refine Kept.upd ?_

theorem flitAccept_kept {al : Allow} {orig s : State} {f : Flit}  (kept : Kept al orig s) : Kept al orig (flitAccept s f) := by
  dsimp -iota only [flitAccept]
  with_reducible repeat' first
      | assumption | apply linkPump_kept | apply linkNak_kept | apply flitData_kept | split | refine Kept.upd ?_

theorem execFlitReceived_kept {al : Allow} {orig s fin : State} {f : Flit}  (kept : Kept al orig s) (e : execFlitReceived f s = .next fin) : Kept al orig fin := by
  dsimp -iota only [execFlitReceived] at e
  injection e with e
  subst e
  with_reducible repeat' first
      | assumption | refine fireInj_kept ?_ (by assumption) | apply flitCrcFails_kept | apply flitTagFails_kept
      | apply flitAccept_kept | split | refine Kept.upd ?_

theorem execNakReceived_kept {al : Allow} {orig s fin : State} {ackSeq : Nat}  (kept : Kept al orig s) (e : execNakReceived ackSeq s = .next fin) : Kept al orig fin := by
  dsimp -iota only [execNakReceived] at e
  injection e with e
  subst e
  with_reducible repeat' first
      | assumption | apply linkPump_kept | apply linkNak_kept | split | refine Kept.upd ?_

theorem execLinkTraining_kept {al : Allow} {orig s fin : State} {e : LinkEvent}  (kept : Kept al orig s) (e : execLinkTraining e s = .next fin) : Kept al orig fin := by
  dsimp -iota only [execLinkTraining] at e
  injection e with e
  subst e
  with_reducible repeat' first
      | assumption | apply setLevel_kept | split | refine Kept.upd ?_

theorem hlRetrain_kept {al : Allow} {orig s : State}   (kept : Kept al orig s) : Kept al orig (hlRetrain s) := by
  dsimp -iota only [hlRetrain]
  with_reducible repeat' first
      | assumption | apply linkGoesDown_kept | split | refine Kept.upd ?_

theorem execHlRetrain_kept {al : Allow} {orig s fin : State}   (kept : Kept al orig s) (e : execHlRetrain s = .next fin) : Kept al orig fin := by
  dsimp -iota only [execHlRetrain] at e
  injection e with e
  subst e
  with_reducible repeat' first
      | assumption | apply regEnter_kept | apply hlRetrain_kept | (intro _) | refine Kept.upd ?_

theorem memRdFails_kept {al : Allow} {orig s : State} {m : MemRd}  (kept : Kept al orig s) : Kept al orig (memRdFails s m) := by
  dsimp -iota only [memRdFails]
  with_reducible repeat' first
      | assumption | apply assignLanes_kept | apply raise_kept | apply memFail_kept | (intro _) | refine Kept.upd ?_

theorem execMemCpl_kept {al : Allow} {orig s fin : State} {tag : Nat} {ok : Bool} {data : List Byte}  (kept : Kept al orig s) (e : execMemCpl tag ok data s = .next fin) : Kept al orig fin := by
  dsimp -iota only [execMemCpl] at e
  injection e with e
  subst e
  with_reducible repeat' first
      | assumption | apply assignLanes_kept | apply whileRunning_kept | apply memRdFails_kept | (intro _) | split
      | refine Kept.upd ?_

theorem execMemRdTimeout_kept {al : Allow} {orig s fin : State} {tag : Nat}  (kept : Kept al orig s) (e : execMemRdTimeout tag s = .next fin) : Kept al orig fin := by
  dsimp -iota only [execMemRdTimeout] at e
  injection e with e
  subst e
  with_reducible repeat' first
      | assumption | apply whileRunning_kept | apply memRdFails_kept | (intro _) | split | refine Kept.upd ?_

theorem discard_kept {al : Allow} {orig s : State}   (kept : Kept al orig s) : Kept al orig (discard s) := by
  dsimp -iota only [discard]
  with_reducible repeat' first
      | assumption | refine Kept.upd ?_

theorem deliver_kept {al : Allow} {orig s : State} {m : Inbound}  (kept : Kept al orig s) : Kept al orig (deliver s m) := by
  dsimp -iota only [deliver]
  with_reducible repeat' first
      | assumption | apply bump_kept | apply discard_kept | split | refine Kept.upd ?_

theorem execMsg_kept {al : Allow} {orig s fin : State} {tenant : Nat} {keygen : Nat} {sys : Bool} {mgmt : Bool} {bytes : List Byte}  (kept : Kept al orig s) (e : execMsg tenant keygen sys mgmt bytes s = .next fin) : Kept al orig fin := by
  dsimp -iota only [execMsg] at e
  injection e with e
  subst e
  with_reducible repeat' first
      | assumption | apply deliver_kept | split | refine Kept.upd ?_

end Sys2Proof.Machine
end

