-- ==== Sys2Proof/Laws/KeptMash.lean ====
section
/-!
SUPPORT. Laws/KeptMash.lean: what each operation of Machine/Mash.lean keeps (Laws/Kept.lean).
-/

namespace Sys2Proof.Machine

set_option Elab.async false
set_option linter.unreachableTactic false
set_option linter.unusedTactic false

theorem modPlan_kept {al : Allow} {orig s : State} {k : CmdKey} {f : Plan → Plan}  (kept : Kept al orig s) : Kept al orig (modPlan s k f) := by
  dsimp -iota only [modPlan]
  with_reducible repeat' first
      | assumption | (intro _) | split | refine Kept.upd ?_

theorem modVisit_kept {al : Allow} {orig s : State} {id : Nat} {f : Visit → Visit}  (kept : Kept al orig s) : Kept al orig (modVisit s id f) := by
  dsimp -iota only [modVisit]
  with_reducible repeat' first
      | assumption | (intro _) | split | refine Kept.upd ?_

theorem markBurst_kept {al : Allow} {orig s : State} {n : Nat}  (kept : Kept al orig s) : Kept al orig (markBurst s n) := by
  dsimp -iota only [markBurst]
  with_reducible repeat' first
      | assumption | (intro _) | split | refine Kept.upd ?_

theorem refill_kept {al : Allow} {orig s : State} {n : Nat}  (kept : Kept al orig s) : Kept al orig (refill s n) := by
  dsimp -iota only [refill]
  with_reducible repeat' first
      | assumption | apply markBurst_kept | apply modChan_kept | refine Kept.upd ?_

theorem execBurstEntry_kept {al : Allow} {orig s fin : State} {stack : Fin 12} {pc : Nat}  (kept : Kept al orig s) (e : execBurstEntry stack pc s = .next fin) : Kept al orig fin := by
  dsimp -iota only [execBurstEntry] at e
  injection e with e
  subst e
  with_reducible repeat' first
      | assumption | apply whileRunning_kept | apply modChan_kept | apply modStack_kept | (intro _) | split
      | refine Kept.upd ?_

theorem returnToken_kept {al : Allow} {orig s : State} {st : Nat} {pc : Nat}  (kept : Kept al orig s) : Kept al orig (returnToken s st pc) := by
  dsimp -iota only [returnToken]
  with_reducible repeat' first
      | assumption | apply modChan_kept | apply modStack_kept | (intro _) | refine Kept.upd ?_

theorem closeBurst_kept {al : Allow} {orig s : State} {st : Nat} {pc : Nat}  (kept : Kept al orig s) : Kept al orig (closeBurst s st pc) := by
  dsimp -iota only [closeBurst]
  with_reducible repeat' first
      | assumption | apply returnToken_kept | apply modChan_kept | (intro _) | split | refine Kept.upd ?_

theorem execBurstClose_kept {al : Allow} {orig s fin : State} {stack : Fin 12} {pc : Nat}  (kept : Kept al orig s) (e : execBurstClose stack pc s = .next fin) : Kept al orig fin := by
  dsimp -iota only [execBurstClose] at e
  injection e with e
  subst e
  with_reducible repeat' first
      | assumption | apply closeBurst_kept | apply whileRunning_kept | (intro _) | split | refine Kept.upd ?_

theorem popBurst_kept {al : Allow} {orig s : State} {n : Nat}  (kept : Kept al orig s) : Kept al orig (popBurst s n) := by
  dsimp -iota only [popBurst]
  with_reducible repeat' first
      | assumption | apply refill_kept | apply modChan_kept | (intro _) | refine Kept.upd ?_

theorem dropItem_kept {al : Allow} {orig s : State} {i : Item}  (kept : Kept al orig s) : Kept al orig (dropItem s i) := by
  dsimp -iota only [dropItem]
  with_reducible repeat' first
      | assumption | (intro _) | refine Kept.put_mem ?_ | refine Kept.upd ?_

theorem reclaimTokens_kept {al : Allow} {orig s : State} {st : Nat}  (kept : Kept al orig s) : Kept al orig (reclaimTokens s st) := by
  dsimp -iota only [reclaimTokens]
  with_reducible repeat' first
      | assumption | apply returnToken_kept | apply foldState_kept | (intro _) | split | refine Kept.upd ?_

theorem execTokenGrant_kept {al : Allow} {orig s fin : State} {stack : Fin 12}  (kept : Kept al orig s) (e : execTokenGrant stack s = .next fin) : Kept al orig fin := by
  dsimp -iota only [execTokenGrant] at e
  injection e with e
  subst e
  with_reducible repeat' first
      | assumption | apply reclaimTokens_kept | apply whileRunning_kept | apply modChan_kept | apply modStack_kept
      | (intro _) | split | refine Kept.upd ?_

theorem closeOver_kept {al : Allow} {orig s : State} {st : Nat}  (kept : Kept al orig s) : Kept al orig (closeOver s st) := by
  dsimp -iota only [closeOver]
  with_reducible repeat' first
      | assumption | apply modChan_kept | apply foldState_kept | (intro _) | split | refine Kept.upd ?_

theorem readStack_kept {al : Allow} {orig s : State} {st : Nat} {t : Nat}  (kept : Kept al orig s) : Kept al orig (readStack s st t) := by
  dsimp -iota only [readStack]
  with_reducible repeat' first
      | assumption | apply closeOver_kept | apply modStack_kept | (intro _) | split | refine Kept.upd ?_

theorem hbmThermal_kept {al : Allow} {orig s : State}   (kept : Kept al orig s) : Kept al orig (hbmThermal s) := by
  dsimp -iota only [hbmThermal]
  with_reducible repeat' first
      | assumption | apply setLevel_kept | (intro _) | split | refine Kept.upd ?_

theorem execHbmTempRead_kept {al : Allow} {orig s fin : State} {temps : List Nat}  (kept : Kept al orig s) (e : execHbmTempRead temps s = .next fin) : Kept al orig fin := by
  dsimp -iota only [execHbmTempRead] at e
  injection e with e
  subst e
  with_reducible repeat' first
      | assumption | apply readStack_kept | apply hbmThermal_kept | apply foldState_kept | (intro _) | split
      | refine Kept.put_mem ?_ | refine Kept.upd ?_

theorem execQuotaRaise_kept {al : Allow} {orig s fin : State} {stack : Fin 12}  (kept : Kept al orig s) (e : execQuotaRaise stack s = .next fin) : Kept al orig fin := by
  dsimp -iota only [execQuotaRaise] at e
  injection e with e
  subst e
  with_reducible repeat' first
      | assumption | apply hbmThermal_kept | apply whileRunning_kept | apply modStack_kept | (intro _) | split
      | refine Kept.upd ?_

theorem execRefreshDue_kept {al : Allow} {orig s fin : State} {stack : Fin 12} {pc : Nat}  (kept : Kept al orig s) (e : execRefreshDue stack pc s = .next fin) : Kept al orig fin := by
  dsimp -iota only [execRefreshDue] at e
  injection e with e
  subst e
  with_reducible repeat' first
      | assumption | apply whileRunning_kept | apply modChan_kept | (intro _) | split | refine Kept.upd ?_

theorem cloneSlot_kept {al : Allow} {orig s : State} {src dst : Loc} {errs : List WordErr} (kept : Kept al orig s) :
    Kept al orig (cloneSlot s src dst errs) := by
  unfold cloneSlot
  split
  rename_i bad s1 heq
  have k1 : Kept al orig s1 := by
    split at heq
    · exact checkWords_kept kept heq
    · cases heq; exact kept
  split
  · exact k1
  · exact slotFill_kept k1
theorem execClone_kept {al : Allow} {orig s fin : State} {stack : Fin 12} {srcPc srcSlot dstPc dstSlot : Nat}
    {errs : List (WordErr)} (kept : Kept al orig s)
    (e : execClone stack srcPc srcSlot dstPc dstSlot errs s = .next fin) : Kept al orig fin := by
  unfold execClone at e
  injection e with e
  subst e
  refine whileRunning_kept ?_ kept
  beta_reduce
  extract_lets src dst legal
  clear_value legal
  split
  · exact kept
  · exact whenMemory_kept (cloneSlot_kept kept) kept
theorem serveEntry_kept {al : Allow} {orig s : State} {y0 : HoldWork} {fin : State} {x0 : Bool}  (kept : Kept al orig s) (e : serveEntry s y0 = (x0, fin)) : Kept al orig fin := by
  dsimp -iota only [serveEntry] at e
  repeat' split at e
  all_goals try (simp only [Option.some.injEq, Prod.mk.injEq, reduceCtorEq] at e <;> obtain ⟨-, rfl⟩ := e)
  all_goals
    with_reducible repeat' first
        | assumption | apply cloneSlot_kept | split | refine Kept.upd ?_

theorem serveEntry_proj {al : Allow} {orig s : State} {y0 : HoldWork}  (kept : Kept al orig s) : Kept al orig (serveEntry s y0).2 := by
  rcases h : serveEntry s y0 with ⟨y0, y1⟩
  exact serveEntry_kept kept h

theorem dropHold_kept {al : Allow} {orig s : State} {w : HoldWork}  (kept : Kept al orig s) : Kept al orig (dropHold s w) := by
  dsimp -iota only [dropHold]
  with_reducible repeat' first
      | assumption | (intro _) | refine Kept.put_mem ?_ | refine Kept.upd ?_

theorem serveHold_kept {al : Allow} {orig s : State} {n : Nat}  (kept : Kept al orig s) : Kept al orig (serveHold s n) := by
  dsimp -iota only [serveHold]
  with_reducible repeat' first
      | assumption | refine serveEntry_kept ?_ (by assumption) | apply serveEntry_proj | apply dropHold_kept
      | apply foldState_kept | (intro _) | split | refine Kept.upd ?_

theorem endExit_kept {al : Allow} {orig s : State} {n : Nat}  (kept : Kept al orig s) : Kept al orig (endExit s n) := by
  dsimp -iota only [endExit]
  with_reducible repeat' first
      | assumption | apply windowEnd_kept | apply serveHold_kept | apply modChan_kept | (intro _) | split
      | refine Kept.upd ?_

theorem chanTick_kept {al : Allow} {orig s : State} {n : Nat}  (kept : Kept al orig s) : Kept al orig (chanTick s n) := by
  dsimp -iota only [chanTick]
  with_reducible repeat' first
      | assumption | apply refill_kept | apply endExit_kept | apply modChan_kept | (intro _) | split
      | refine Kept.upd ?_

theorem chansTick_kept {al : Allow} {orig s : State}   (kept : Kept al orig s) : Kept al orig (chansTick s) := by
  dsimp -iota only [chansTick]
  with_reducible repeat' first
      | assumption | apply chanTick_kept | apply foldState_kept | (intro _) | refine Kept.upd ?_

theorem disableChannel_kept {al : Allow} {orig s : State} {st : Nat} {pc : Nat}  (kept : Kept al orig s) : Kept al orig (disableChannel s st pc) := by
  dsimp -iota only [disableChannel]
  with_reducible repeat' first
      | assumption | apply caskAction_kept | apply modChan_kept | apply modFree_kept | (intro _)
      | refine Kept.put_mem ?_ | refine Kept.upd ?_

theorem failItem_kept {al : Allow} {orig s : State} {n : Nat}  (kept : Kept al orig s) : Kept al orig (failItem s n) := by
  dsimp -iota only [failItem]
  with_reducible repeat' first
      | assumption | apply dropItem_kept | apply poisonFrame_kept | (intro _) | split | refine Kept.upd ?_

theorem unitReplace_kept {al : Allow} {orig s : State} {st : Nat} {pc : Nat} {unit : Nat} {reducer : Bool} {spareOk : Bool}  (kept : Kept al orig s) : Kept al orig (unitReplace s st pc unit reducer spareOk) := by
  dsimp -iota only [unitReplace]
  with_reducible repeat' first
      | assumption | apply closeBurst_kept | apply disableChannel_kept | apply failItem_kept | apply caskAction_kept
      | apply modChan_kept | (intro _) | split | refine Kept.upd ?_

theorem unitFails_kept {al : Allow} {orig s : State} {st : Nat} {pc : Nat} {unit : Nat} {reducer : Bool} {spareOk : Bool} {injected : Bool}  (kept : Kept al orig s) : Kept al orig (unitFails s st pc unit reducer spareOk injected) := by
  dsimp -iota only [unitFails]
  with_reducible repeat' first
      | assumption | apply unitReplace_kept | apply raise_kept | split | refine Kept.upd ?_

theorem execMashUnitFail_kept {al : Allow} {orig s fin : State} {stack : Fin 12} {pc : Nat} {unit : Nat} {reducer : Bool} {spareOk : Bool}  (kept : Kept al orig s) (e : execMashUnitFail stack pc unit reducer spareOk s = .next fin) : Kept al orig fin := by
  dsimp -iota only [execMashUnitFail] at e
  injection e with e
  subst e
  with_reducible repeat' first
      | assumption | apply unitFails_kept | split | refine Kept.upd ?_

theorem moveLeave_kept {al : Allow} {orig s : State} {lpn : Nat} (kept : Kept al orig s) :
    Kept al orig { s with mem := { s.mem with moves := s.mem.moves.filter (· != lpn) } } := kept.put_mem

theorem execFrameMove_kept {al : Allow} {orig s fin : State} {lpn : Nat} {errs : List WordErr} {crcBad : Bool}
    (kept : Kept al orig s) (e : execFrameMove lpn errs s crcBad = .next fin) : Kept al orig fin := by
  unfold execFrameMove at e
  injection e with e
  subst e
  refine whileRunning_kept ?_ kept
  beta_reduce
  extract_lets f leave
  have kl : ∀ t, Kept al orig t → Kept al orig (leave t) := fun t h => moveLeave_kept h
  clear_value f leave
  split
  · exact kept
  · refine whenMemory_kept ?_ kept
    split
    · rename_i st pc n hs
      rcases h0 : checkWords s 1 lpn errs with ⟨bad, s0⟩
      have k0 := checkWords_kept kept h0
      clear h0
      dsimp -zeta only
      generalize (crcBad || crcWrong s0 lpn) = cb
      have k1 : Kept al orig (if bad = true then (false, false, s0) else checkFails s0 3 (pcNum st pc) cb).2.2 := by
        split
        · exact k0
        · exact checkFails_proj k0
      rcases h1 : (if bad = true then (false, false, s0) else checkFails s0 3 (pcNum st pc) cb) with ⟨crc, y, s1⟩
      rw [h1] at k1
      clear h1
      dsimp -zeta only at k1 ⊢
      split
      · exact kl _ k1
      · split
        · exact kl _ (poisonFrame_kept k1)
        · split
          · exact k1
          · rename_i l s2 h2
            have k2 := takeBare_kept k1 h2
            clear h2
            extract_lets s3 s4 s5 mine s6 s7 follow ex
            have k6 : Kept al orig s6 :=
              foldState_kept (fun _ _ h => dropItem_kept h) (modFree_kept (modFrame_kept (slotFill_kept k2)))
            clear_value s6 mine
            have k7 : Kept al orig s7 := modChan_kept k6
            exact kl _ k7.upd
    · exact kl _ kept
theorem execBwdChainForm_kept {al : Allow} {orig s fin : State} {quad : Fin 4}  (kept : Kept al orig s) (e : execBwdChainForm quad s = .next fin) : Kept al orig fin := by
  dsimp -iota only [execBwdChainForm] at e
  injection e with e
  subst e
  with_reducible repeat' first
      | assumption | apply whileRunning_kept | apply modQuad_kept | (intro _) | split | refine Kept.upd ?_

theorem execBwdChainIdle_kept {al : Allow} {orig s fin : State} {quad : Fin 4}  (kept : Kept al orig s) (e : execBwdChainIdle quad s = .next fin) : Kept al orig fin := by
  dsimp -iota only [execBwdChainIdle] at e
  injection e with e
  subst e
  with_reducible repeat' first
      | assumption | apply whileRunning_kept | apply modQuad_kept | (intro _) | split | refine Kept.upd ?_

theorem execFwdChainReturn_kept {al : Allow} {orig s fin : State} {quad : Fin 4}  (kept : Kept al orig s) (e : execFwdChainReturn quad s = .next fin) : Kept al orig fin := by
  dsimp -iota only [execFwdChainReturn] at e
  injection e with e
  subst e
  with_reducible repeat' first
      | assumption | apply whileRunning_kept | apply modQuad_kept | (intro _) | split | refine Kept.upd ?_

theorem tileOut_kept {al : Allow} {orig s : State} {t : Nat}  (kept : Kept al orig s) : Kept al orig (tileOut s t) := by
  dsimp -iota only [tileOut]
  with_reducible repeat' first
      | assumption | apply fenceNode_kept | apply caskAction_kept | apply modQuad_kept | apply modTile_kept
      | (intro _) | split | refine Kept.upd ?_

theorem tileReplace_kept {al : Allow} {orig s : State} {t : Nat} {phys : Nat} {spareOk : Bool}  (kept : Kept al orig s) : Kept al orig (tileReplace s t phys spareOk) := by
  dsimp -iota only [tileReplace]
  with_reducible repeat' first
      | assumption | apply tileOut_kept | apply caskAction_kept | apply modQuad_kept | apply modTile_kept
      | (intro _) | split | refine Kept.upd ?_

theorem tileFails_kept {al : Allow} {orig s : State} {t : Nat} {phys : Nat} {spareOk : Bool} {injected : Bool}  (kept : Kept al orig s) : Kept al orig (tileFails s t phys spareOk injected) := by
  dsimp -iota only [tileFails]
  with_reducible repeat' first
      | assumption | apply tileReplace_kept | apply raise_kept | apply modTile_kept | (intro _) | refine Kept.upd ?_

theorem execTileFail_kept {al : Allow} {orig s fin : State} {tile : Fin 64} {phys : Nat} {spareOk : Bool}  (kept : Kept al orig s) (e : execTileFail tile phys spareOk s = .next fin) : Kept al orig fin := by
  dsimp -iota only [execTileFail] at e
  injection e with e
  subst e
  with_reducible repeat' first
      | assumption | apply tileFails_kept | split | refine Kept.upd ?_

end Sys2Proof.Machine
end

