-- ==== Sys2Proof/Laws/KeptPlans.lean ====
section
/-!
SUPPORT. Laws/KeptPlans.lean: what each operation of Machine/Plans.lean keeps (Laws/Kept.lean).
-/

namespace Sys2Proof.Machine

set_option Elab.async false
set_option linter.unreachableTactic false
set_option linter.unusedTactic false

theorem modGroup_kept {al : Allow} {orig s : State} {k : CmdKey} {i : Nat} {f : Group → Group}  (kept : Kept al orig s) : Kept al orig (modGroup s k i f) := by
  dsimp -iota only [modGroup]
  with_reducible repeat' first
      | assumption | apply modPlan_kept | (intro _) | refine Kept.upd ?_

theorem pinDone_kept {al : Allow} {orig s : State} {key : CmdKey} {t : Nat} {k : Nat}  (kept : Kept al orig s) : Kept al orig (pinDone s key t k) := by
  dsimp -iota only [pinDone]
  with_reducible repeat' first
      | assumption | apply modPlan_kept | apply unpin_kept | (intro _) | split | refine Kept.upd ?_

theorem unpinTensor_kept {al : Allow} {orig s : State} {key : CmdKey} {t : Nat}  (kept : Kept al orig s) : Kept al orig (unpinTensor s key t) := by
  dsimp -iota only [unpinTensor]
  with_reducible repeat' first
      | assumption | apply modPlan_kept | apply unpin_kept | apply foldState_kept | (intro _) | split
      | refine Kept.upd ?_

theorem chainTimers_kept {al : Allow} {orig s : State} {quad : Nat} {bwd : Bool}  (kept : Kept al orig s) : Kept al orig (chainTimers s quad bwd) := by
  dsimp -iota only [chainTimers]
  with_reducible repeat' first
      | assumption | apply modQuad_kept | (intro _) | split | refine Kept.upd ?_

theorem dropVisits_kept {al : Allow} {orig s : State} {which : Visit → Bool}  (kept : Kept al orig s) : Kept al orig (dropVisits s which) := by
  dsimp -iota only [dropVisits]
  with_reducible repeat' first
      | assumption | apply dropItem_kept | apply chainTimers_kept | apply foldState_kept | (intro _) | split
      | refine Kept.put_mem ?_ | refine Kept.upd ?_

theorem dropGradients_kept {al : Allow} {orig s : State} {p : Plan} {t : Nat} {page : Option Nat}  (kept : Kept al orig s) : Kept al orig (dropGradients s p t page) := by
  dsimp -iota only [dropGradients]
  with_reducible repeat' first
      | assumption | apply dropItem_kept | apply foldState_kept | (intro _) | refine Kept.upd ?_

theorem makeHole_kept {al : Allow} {orig s : State} {p : Plan} {gi : Nat} {k : Nat} {reason : Status}  (kept : Kept al orig s) : Kept al orig (makeHole s p gi k reason) := by
  dsimp -iota only [makeHole]
  with_reducible repeat' first
      | assumption | apply modPlan_kept | apply modGroup_kept | apply dropVisits_kept | apply dropGradients_kept
      | apply unpin_kept | (intro _) | split | refine Kept.upd ?_

theorem settlePoison_kept {al : Allow} {orig s : State} {key : CmdKey} {gi : Nat} {k : Nat}  (kept : Kept al orig s) : Kept al orig (settlePoison s key gi k) := by
  dsimp -iota only [settlePoison]
  with_reducible repeat' first
      | assumption | apply modGroup_kept | apply unpinTensor_kept | apply dropVisits_kept | apply dropGradients_kept
      | apply makeHole_kept | (intro _) | split | refine Kept.upd ?_

theorem gradSummary_kept {al : Allow} {orig s fin : State} {q : SeqId} (kept : Kept al orig s)
    (e : gradSummary q s = some fin) : Kept al orig fin := by
  unfold gradSummary at e
  split at e
  · cases e
  · split at e
    · cases e; exact kept
    · simp only [Option.map_eq_some_iff] at e
      obtain ⟨⟨b, s1⟩, e1, e2⟩ := e
      subst e2
      exact modSeq_kept (allocBlocks_kept kept e1)
theorem gradAlloc_kept {al : Allow} {orig s fin : State} {q : SeqId} {x : Seq} {step : Nat} {e : Nat × Nat × Nat}
    (kept : Kept al orig s) (eq : gradAlloc q x step s e = some fin) : Kept al orig fin := by
  obtain ⟨t, k, lpn⟩ := e
  unfold gradAlloc at eq
  obtain ⟨⟨ls, s1⟩, e1, e2⟩ := Option.bind_eq_some_iff.1 eq
  have k1 : Kept al orig s1 := by
    refine foldlOpt_kept (fun acc k h r er => ?_) (fun r er => ?_) e1
    · obtain ⟨⟨l0, s0⟩, e0, e3⟩ := Option.bind_eq_some_iff.1 er
      simp only [Option.map_eq_some_iff] at e3
      obtain ⟨⟨n, s2⟩, e4, e5⟩ := e3
      subst e5
      have k2 := newFrame_kept (h _ e0) e4
      with_reducible repeat' first
        | assumption | apply imgWrite_kept | apply modFrame_kept
    · rw [← Option.some.inj er]; exact kept
  dsimp only at e2
  split at e2
  · cases e2
  · exact gradSummary_kept k1.put_mem e2
theorem gradAllocAll_kept {al : Allow} {orig : State} {q : SeqId} {x : Seq} {step : Nat} {es : List (Nat × Nat × Nat)} :
    ∀ {s fin : State}, Kept al orig s → gradAllocAll q x step es s = some fin → Kept al orig fin := by
  induction es with
  | nil => intro s fin kept e; cases e; exact kept
  | cons t ts ih =>
    intro s fin kept e
    obtain ⟨s1, e1, e2⟩ := Option.bind_eq_some_iff.1 e
    exact ih (gradAlloc_kept kept e1) e2
theorem nameChain_kept {al : Allow} {orig s : State} {quad : Nat} {fin : State} {x0 : Nat}  (kept : Kept al orig s) (e : nameChain s quad = (x0, fin)) : Kept al orig fin := by
  dsimp -iota only [nameChain] at e
  repeat' split at e
  all_goals try (simp only [Option.some.injEq, Prod.mk.injEq, reduceCtorEq] at e <;> obtain ⟨-, rfl⟩ := e)
  all_goals
    with_reducible repeat' first
        | assumption | refine draw_kept ?_ (by assumption) | apply draw_proj | split | refine Kept.upd ?_

theorem nameChain_proj {al : Allow} {orig s : State} {quad : Nat}  (kept : Kept al orig s) : Kept al orig (nameChain s quad).2 := by
  rcases h : nameChain s quad with ⟨y0, y1⟩
  exact nameChain_kept kept h

theorem nameHome_kept {al : Allow} {orig s : State} {key : CmdKey} {gi : Nat} {quad : Nat}  (kept : Kept al orig s) : Kept al orig (nameHome s key gi quad) := by
  dsimp -iota only [nameHome]
  with_reducible repeat' first
      | assumption | apply modGroup_kept | refine nameChain_kept ?_ (by assumption) | apply nameChain_proj
      | (intro _) | split | refine Kept.upd ?_

theorem rootChain_kept {al : Allow} {orig s : State} {p : Plan} {g : Group} {fin : State} {x0 : (Nat × Nat)}  (kept : Kept al orig s) (e : rootChain s p g = (x0, fin)) : Kept al orig fin := by
  dsimp -iota only [rootChain] at e
  repeat' split at e
  all_goals try (simp only [Option.some.injEq, Prod.mk.injEq, reduceCtorEq] at e <;> obtain ⟨-, rfl⟩ := e)
  all_goals
    with_reducible repeat' first
        | assumption | refine nameChain_kept ?_ (by assumption) | apply nameChain_proj
        | refine draw_kept ?_ (by assumption) | apply draw_proj | split | refine Kept.upd ?_

theorem rootChain_proj {al : Allow} {orig s : State} {p : Plan} {g : Group}  (kept : Kept al orig s) : Kept al orig (rootChain s p g).2 := by
  rcases h : rootChain s p g with ⟨y0, y1⟩
  exact rootChain_kept kept h

theorem foldRoot_kept {al : Allow} {orig s : State} {key : CmdKey} {gi : Nat}  (kept : Kept al orig s) : Kept al orig (foldRoot s key gi) := by
  dsimp -iota only [foldRoot]
  with_reducible repeat' first
      | assumption | apply modGroup_kept | refine rootChain_kept ?_ (by assumption) | apply rootChain_proj
      | apply modQuad_kept | apply foldState_kept | (intro _) | split | refine Kept.upd ?_

theorem adjustDepth_kept {al : Allow} {orig s : State} {p : Plan}  (kept : Kept al orig s) : Kept al orig (adjustDepth s p) := by
  dsimp -iota only [adjustDepth]
  with_reducible repeat' first
      | assumption | apply modSeq_kept | (intro _) | split | refine Kept.upd ?_

theorem sendRecords_kept {al : Allow} {orig s : State} {c : Command} {node : Nat} {tenant : Nat} {egress : Nat} {bytes : List Byte}  (kept : Kept al orig s) : Kept al orig (sendRecords s c node tenant egress bytes) := by
  dsimp -iota only [sendRecords]
  with_reducible repeat' first
      | assumption | apply sendMsg_kept | apply deliver_kept | split | refine Kept.upd ?_

theorem countBwd_kept {al : Allow} {orig s : State} {p : Plan} {step : Nat}  (kept : Kept al orig s) : Kept al orig (countBwd s p step) := by
  dsimp -iota only [countBwd]
  with_reducible repeat' first
      | assumption | apply modSeq_kept | apply foldState_kept | (intro _) | split | refine Kept.upd ?_

theorem finishPlan_kept {al : Allow} {orig s : State} {p : Plan}  (kept : Kept al orig s) : Kept al orig (finishPlan s p) := by
  dsimp -iota only [finishPlan]
  with_reducible repeat' first
      | assumption | apply countRecords_kept | apply complete_kept | apply adjustDepth_kept | apply sendRecords_kept
      | apply countBwd_kept | apply unpin_kept | apply foldState_kept | (intro _) | split | refine Kept.put_mem ?_
      | refine Kept.upd ?_

theorem foldRoots_kept {al : Allow} {orig s : State} {key : CmdKey}  (kept : Kept al orig s) : Kept al orig (foldRoots s key) := by
  dsimp -iota only [foldRoots]
  with_reducible repeat' first
      | assumption | apply foldRoot_kept | apply foldState_kept | (intro _) | split | refine Kept.upd ?_

theorem planCheck_kept {al : Allow} {orig s : State} {key : CmdKey}  (kept : Kept al orig s) : Kept al orig (planCheck s key) := by
  dsimp -iota only [planCheck]
  with_reducible repeat' first
      | assumption | apply refreshAll_kept | apply finishPlan_kept | apply foldRoots_kept | split
      | refine Kept.upd ?_

theorem foldHome_kept {al : Allow} {orig s : State} {p : Plan} {gi : Nat} {quad : Nat} {block : Nat} {parts : List (Nat × List Partial)}  (kept : Kept al orig s) : Kept al orig (foldHome s p gi quad block parts) := by
  dsimp -iota only [foldHome]
  with_reducible repeat' first
      | assumption | apply modGroup_kept | apply nameHome_kept | apply modQuad_kept | (intro _) | refine Kept.upd ?_

theorem foldTile_kept {al : Allow} {orig s : State} {p : Plan} {gi : Nat} {quad : Nat} {block : Nat} {page : Nat} {ps : List Partial}  (kept : Kept al orig s) : Kept al orig (foldTile s p gi quad block page ps) := by
  dsimp -iota only [foldTile]
  with_reducible repeat' first
      | assumption | apply modGroup_kept | (intro _) | refine Kept.upd ?_

theorem flushTiles_kept {al : Allow} {orig s : State} {key : CmdKey} {gi : Nat}  (kept : Kept al orig s) : Kept al orig (flushTiles s key gi) := by
  dsimp -iota only [flushTiles]
  with_reducible repeat' first
      | assumption | apply modGroup_kept | apply foldHome_kept | apply foldState_kept | (intro _) | split
      | refine Kept.upd ?_

theorem installPlan_kept {al : Allow} {orig s : State} {p : Plan}  (kept : Kept al orig s) : Kept al orig (installPlan s p) := by
  dsimp -iota only [installPlan]
  with_reducible repeat' first
      | assumption | apply modLive_kept | apply planCheck_kept | apply modFrame_kept | apply xlatTouch_kept
      | apply foldState_kept | (intro _) | refine Kept.upd ?_

theorem attnStart_kept {al : Allow} {orig s : State} {c : Command} (kept : Kept al orig s) : Kept al orig (attnStart s c) := by
  unfold attnStart
  refine withActive_kept (fun x => ?_) kept
  generalize attnPlan s c x = p
  dsimp -iota only
  split
  · exact complete_kept kept
  · split
    · split
      · exact complete_kept kept
      · next s1 e => exact installPlan_kept (gradAllocAll_kept kept e)
    · exact installPlan_kept kept
theorem execAttnFwd_kept {al : Allow} {orig s fin : State} {c : Command}  (kept : Kept al orig s) (e : execAttnFwd c s = .next fin) : Kept al orig fin := by
  dsimp -iota only [execAttnFwd] at e
  injection e with e
  subst e
  with_reducible repeat' first
      | assumption | apply attnStart_kept | apply whenReady_kept | (intro _) | split | refine Kept.upd ?_

theorem execAttnBwd_kept {al : Allow} {orig s fin : State} {c : Command}  (kept : Kept al orig s) (e : execAttnBwd c s = .next fin) : Kept al orig fin := by
  dsimp -iota only [execAttnBwd] at e
  injection e with e
  subst e
  with_reducible repeat' first
      | assumption | apply attnStart_kept | apply whenReady_kept | (intro _) | split | refine Kept.upd ?_

theorem prefetch_kept {al : Allow} {orig s : State} {c : Command}  (kept : Kept al orig s) : Kept al orig (prefetch s c) := by
  dsimp -iota only [prefetch]
  with_reducible repeat' first
      | assumption | apply requestAhead_kept | apply foldState_kept | (intro _) | split | refine Kept.upd ?_

theorem sampleVisit_kept {al : Allow} {orig s : State} {die : Nat} {lpn : Nat}  (kept : Kept al orig s) : Kept al orig (sampleVisit s die lpn) := by
  dsimp -iota only [sampleVisit]
  with_reducible repeat' first
      | assumption | apply modFrame_kept | (intro _) | split | refine Kept.upd ?_

theorem joinQuad_kept {al : Allow} {orig s : State} {p : Plan} {quad : Nat}  (kept : Kept al orig s) : Kept al orig (joinQuad s p quad) := by
  dsimp -iota only [joinQuad]
  with_reducible repeat' first
      | assumption | apply modQuad_kept | (intro _) | split | refine Kept.upd ?_

theorem placeVisit_kept {al : Allow} {orig s : State} {p : Plan} {g : Group} {v : Visit}  (kept : Kept al orig s) : Kept al orig (placeVisit s p g v) := by
  dsimp -iota only [placeVisit]
  with_reducible repeat' first
      | assumption | apply modVisit_kept | apply joinQuad_kept | apply modChan_kept | apply modFrame_kept
      | (intro _) | split | refine Kept.upd ?_

theorem takeFallback_kept {al : Allow} {orig s : State} {v : Visit} (kept : Kept al orig s) :
    Kept al orig (takeFallback s v) := by
  unfold takeFallback
  extract_lets q s1 s2 die m3 s3 s4
  have k3 : Kept al orig s3 := (modGroup_kept (modVisit_kept kept)).put_mem
  clear_value s3 m3
  have k4 : Kept al orig s4 := by
    show Kept al orig (match planFor s v.key with
      | some p => bump (joinQuad s3 p q) p.seq.tenant 3 1
      | none => s3)
    split
    · exact bump_kept (joinQuad_kept k3)
    · exact k3
  exact codecSubmit_proj k4
theorem openWindow_kept {al : Allow} {orig s : State} {p : Plan} {g : Group} {block : Nat} {k : Nat}  (kept : Kept al orig s) : Kept al orig (openWindow s p g block k) := by
  dsimp -iota only [openWindow]
  with_reducible repeat' first
      | assumption | refine draw_kept ?_ (by assumption) | apply draw_proj | (intro _) | split | refine Kept.upd ?_

theorem makeVisit_kept {al : Allow} {orig s : State} {key : CmdKey} {gi : Nat} {block : Nat} {k : Nat} {seed : Bool}  (kept : Kept al orig s) : Kept al orig (makeVisit s key gi block k seed) := by
  dsimp -iota only [makeVisit]
  with_reducible repeat' first
      | assumption | apply settlePoison_kept | apply flushTiles_kept | apply sampleVisit_kept
      | apply placeVisit_kept | apply takeFallback_kept | apply openWindow_kept | split | refine Kept.upd ?_

theorem skipPage_kept {al : Allow} {orig s : State} {p : Plan} {gi : Nat} {g : Group} {k : Nat} {bs : List (FVal × Nat)}  (kept : Kept al orig s) : Kept al orig (skipPage s p gi g k bs) := by
  dsimp -iota only [skipPage]
  with_reducible repeat' first
      | assumption | apply bump_kept | apply modGroup_kept | apply pinDone_kept | (intro _) | refine Kept.upd ?_

theorem planGroup_kept {al : Allow} {orig s : State} {p : Plan} {gi : Nat} {fin : State}   (kept : Kept al orig s) (e : planGroup s p gi = some fin) : Kept al orig fin := by
  dsimp -iota only [planGroup] at e
  repeat' split at e
  all_goals try (simp only [Option.some.injEq, Prod.mk.injEq, reduceCtorEq] at e <;> obtain rfl := e)
  all_goals
    with_reducible repeat' first
        | assumption | apply modGroup_kept | apply makeVisit_kept | apply skipPage_kept | (intro _) | split
        | refine Kept.upd ?_

theorem planOne_kept {al : Allow} {orig s fin : State} {key : CmdKey} (kept : Kept al orig s)
    (e : planOne s key = some fin) : Kept al orig fin := by
  obtain ⟨p, -, e1⟩ := Option.bind_eq_some_iff.1 e
  obtain ⟨gi, -, e2⟩ := List.exists_of_findSome?_eq_some e1
  exact planGroup_kept kept e2
theorem planMany_kept {al : Allow} {orig : State} {die : Nat} {key : CmdKey} {n : Nat} :
    ∀ {s : State}, Kept al orig s → Kept al orig (planMany die key n s) := by
  induction n with
  | zero => exact fun kept => kept
  | succ n ih =>
    intro s kept
    unfold planMany
    split
    · exact kept
    · split
      · exact kept
      · next s1 e => exact ih (planOne_kept kept e)
theorem planTurnOf_kept {al : Allow} {orig s : State} {die : Nat}  (kept : Kept al orig s) : Kept al orig (planTurnOf s die) := by
  dsimp -iota only [planTurnOf]
  with_reducible repeat' first
      | assumption | apply planCheck_kept | refine planOne_kept ?_ (by assumption) | apply planMany_kept | (intro _)
      | split | refine Kept.upd ?_

end Sys2Proof.Machine
end

