-- ==== Sys2Proof/Laws/KeptVisits.lean ====
section
/-!
SUPPORT. Laws/KeptVisits.lean: what each operation of Machine/Visits.lean keeps (Laws/Kept.lean).
-/

namespace Sys2Proof.Machine

set_option Elab.async false
set_option linter.unreachableTactic false
set_option linter.unusedTactic false

theorem visitEnd_kept {al : Allow} {orig s : State} {v : Visit}  (kept : Kept al orig s) : Kept al orig (visitEnd s v) := by
  dsimp -iota only [visitEnd]
  with_reducible repeat' first
      | assumption | apply pinDone_kept | apply chainTimers_kept | apply planCheck_kept | apply flushTiles_kept
      | (intro _) | split | refine Kept.upd ?_

theorem visitPoison_kept {al : Allow} {orig s : State} {v : Visit}  (kept : Kept al orig s) : Kept al orig (visitPoison s v) := by
  dsimp -iota only [visitPoison]
  with_reducible repeat' first
      | assumption | apply settlePoison_kept | apply planCheck_kept | apply flushTiles_kept | refine Kept.upd ?_

theorem addSat_kept {al : Allow} {orig s : State} {n : Nat}  (kept : Kept al orig s) : Kept al orig (addSat s n) := by
  dsimp -iota only [addSat]
  with_reducible repeat' first
      | assumption | refine Kept.put_mem ?_ | refine Kept.upd ?_

theorem execMashVisit_kept {al : Allow} {orig s fin : State} {visit : Nat} {errs : List WordErr} (kept : Kept al orig s)
    (e : execMashVisit visit errs s = .next fin) : Kept al orig fin := by
  unfold execMashVisit at e
  injection e with e
  subst e
  refine whileRunning_kept ?_ kept
  beta_reduce
  split
  · exact kept
  · split
    · exact kept
    · rename_i v p _ _ st pc hp
      extract_lets n
      clear_value n
      split
      · exact kept
      · split
        · rename_i y s1 hi
          refine unitFails_kept ?_
          split at hi
          · exact fireInj_kept kept hi
          · cases hi
        · split
          rename_i bad s1 hw
          have k1 := checkWords_kept kept hw
          clear hw
          extract_lets s2 rs s3 s4
          have k2 : Kept al orig s2 := popBurst_kept k1
          clear_value s2 rs
          have k3 : Kept al orig s3 := modQuad_kept (addSat_kept k2)
          have k4 : Kept al orig s4 := bump_kept (modStack_kept k3)
          clear_value s4
          split
          · exact visitPoison_kept k2
          · exact visitEnd_kept (foldHome_kept k4)
theorem execMashWaitExpiry_kept {al : Allow} {orig s fin : State} {visit : Nat}  (kept : Kept al orig s) (e : execMashWaitExpiry visit s = .next fin) : Kept al orig fin := by
  dsimp -iota only [execMashWaitExpiry] at e
  injection e with e
  subst e
  with_reducible repeat' first
      | assumption | apply modVisit_kept | apply dropItem_kept | apply whileRunning_kept | (intro _) | split
      | refine Kept.upd ?_

theorem contribute_kept {al : Allow} {orig s : State} {p : Plan} {w : WindowSum}  (kept : Kept al orig s) : Kept al orig (contribute s p w) := by
  dsimp -iota only [contribute]
  with_reducible repeat' first
      | assumption | apply modChan_kept | apply foldState_kept | (intro _) | split | refine Kept.upd ?_

theorem addWindow_kept {al : Allow} {orig s : State} {p : Plan} {v : Visit} {vals : List Word32}  (kept : Kept al orig s) : Kept al orig (addWindow s p v vals) := by
  dsimp -iota only [addWindow]
  with_reducible repeat' first
      | assumption | apply contribute_kept | (intro _) | split | refine Kept.upd ?_

theorem bwdVisit_kept {al : Allow} {orig s : State} {p : Plan} {v : Visit}  (kept : Kept al orig s) : Kept al orig (bwdVisit s p v) := by
  dsimp -iota only [bwdVisit]
  with_reducible repeat' first
      | assumption | apply addSat_kept | apply addWindow_kept | apply foldTile_kept | (intro _) | refine Kept.upd ?_

theorem countTiles_kept {al : Allow} {orig s : State} {q : Nat} {ts : List Nat}  (kept : Kept al orig s) : Kept al orig (countTiles s q ts) := by
  dsimp -iota only [countTiles]
  with_reducible repeat' first
      | assumption | apply modQuad_kept | apply modTile_kept | apply foldState_kept | (intro _) | refine Kept.upd ?_

theorem tileWork_kept {al : Allow} {orig s : State} {p : Plan} {v : Visit}  (kept : Kept al orig s) : Kept al orig (tileWork s p v) := by
  dsimp -iota only [tileWork]
  with_reducible repeat' first
      | assumption | apply addSat_kept | apply bwdVisit_kept | apply foldTile_kept | split | refine Kept.upd ?_

theorem tileInjection_kept {al : Allow} {orig s fin : State} {ts : List Nat} (kept : Kept al orig s)
    (e : tileInjection s ts = some fin) : Kept al orig fin := by
  unfold tileInjection at e
  split at e
  · obtain ⟨x, e1, rfl⟩ := Option.map_eq_some_iff.1 e
    exact fireInj_kept kept e1
  · cases e
theorem execTileVisit_kept {al : Allow} {orig s fin : State} {visit : Nat} {errs : List WordErr}  (kept : Kept al orig s) (e : execTileVisit visit errs s = .next fin) : Kept al orig fin := by
  dsimp -iota only [execTileVisit] at e
  injection e with e
  subst e
  with_reducible repeat' first
      | assumption | apply bump_kept | apply visitEnd_kept | apply visitPoison_kept | apply countTiles_kept
      | apply tileWork_kept | refine tileInjection_kept ?_ (by assumption) | apply tileFails_kept
      | apply whileRunning_kept | refine checkWords_kept ?_ (by assumption) | apply checkWords_proj
      | apply whenMemory_kept | (intro _) | split | refine Kept.upd ?_

theorem resumeVisit_kept {al : Allow} {orig s : State} {v : Visit}  (kept : Kept al orig s) : Kept al orig (resumeVisit s v) := by
  dsimp -iota only [resumeVisit]
  with_reducible repeat' first
      | assumption | apply visitPoison_kept | apply placeVisit_kept | split | refine Kept.upd ?_

theorem execStagingComplete_kept {al : Allow} {orig s fin : State} {lpn : Nat} {bad : Bool}  (kept : Kept al orig s) (e : execStagingComplete lpn bad s = .next fin) : Kept al orig fin := by
  dsimp -iota only [execStagingComplete] at e
  injection e with e
  subst e
  with_reducible repeat' first
      | assumption | apply refreshAll_kept | apply resumeVisit_kept | apply failStage_kept
      | refine checkFails_kept ?_ (by assumption) | apply checkFails_proj | apply whileRunning_kept
      | apply modFrame_kept | apply whenMemory_kept | apply slotFill_kept | apply foldState_kept | (intro _) | split
      | refine Kept.put_mem ?_ | refine Kept.upd ?_

theorem execStageWaitExpiry_kept {al : Allow} {orig s fin : State} {visit : Nat}  (kept : Kept al orig s) (e : execStageWaitExpiry visit s = .next fin) : Kept al orig fin := by
  dsimp -iota only [execStageWaitExpiry] at e
  injection e with e
  subst e
  with_reducible repeat' first
      | assumption | apply takeFallback_kept | apply whileRunning_kept | (intro _) | split | refine Kept.upd ?_

theorem execFallbackVisit_kept {al : Allow} {orig s fin : State} {visit : Nat} {bad : Bool}  (kept : Kept al orig s) (e : execFallbackVisit visit bad s = .next fin) : Kept al orig fin := by
  dsimp -iota only [execFallbackVisit] at e
  injection e with e
  subst e
  with_reducible repeat' first
      | assumption | apply bump_kept | apply visitEnd_kept | apply visitPoison_kept | apply countTiles_kept
      | apply tileWork_kept | apply modGroup_kept | apply whileRunning_kept | apply modFrame_kept | (intro _)
      | split | refine Kept.upd ?_

theorem execFallbackDeadline_kept {al : Allow} {orig s fin : State} {visit : Nat}  (kept : Kept al orig s) (e : execFallbackDeadline visit s = .next fin) : Kept al orig fin := by
  dsimp -iota only [execFallbackDeadline] at e
  injection e with e
  subst e
  with_reducible repeat' first
      | assumption | apply modVisit_kept | apply modGroup_kept | apply makeHole_kept | apply planCheck_kept
      | apply flushTiles_kept | apply whileRunning_kept | (intro _) | split | refine Kept.put_mem ?_
      | refine Kept.upd ?_

theorem execGradientAdd_kept {al : Allow} {orig s fin : State} {contribution : Nat} {unitFailed : Bool} {errs : List WordErr}  (kept : Kept al orig s) (e : execGradientAdd contribution unitFailed s errs = .next fin) : Kept al orig fin := by
  dsimp -iota only [execGradientAdd] at e
  injection e with e
  subst e
  with_reducible repeat' first
      | assumption | apply refill_kept | apply popBurst_kept | apply dropItem_kept | apply failItem_kept
      | apply planCheck_kept | apply commitChecked_kept | apply whileRunning_kept | apply modStack_kept
      | refine checkWords_kept ?_ (by assumption) | apply checkWords_proj | apply imgWrite_kept | apply setFlux_kept
      | (intro _) | split | refine Kept.upd ?_

theorem execGradDrainRead_kept {al : Allow} {orig s fin : State} {c : Command}  (kept : Kept al orig s) (e : execGradDrainRead c s = .next fin) : Kept al orig fin := by
  dsimp -iota only [execGradDrainRead] at e
  injection e with e
  subst e
  with_reducible repeat' first
      | assumption | apply complete_kept | apply addSat_kept | apply withActive_kept | apply whenMemory_kept
      | apply whenReady_kept | (intro _) | split | refine Kept.upd ?_

theorem execGradDrainRelease_kept {al : Allow} {orig s fin : State} {c : Command}  (kept : Kept al orig s) (e : execGradDrainRelease c s = .next fin) : Kept al orig fin := by
  dsimp -iota only [execGradDrainRelease] at e
  injection e with e
  subst e
  with_reducible repeat' first
      | assumption | apply complete_kept | apply withActive_kept | apply decRef_kept | apply modSeq_kept
      | apply whenReady_kept | apply foldState_kept | (intro _) | split | refine Kept.put_mem ?_
      | refine Kept.upd ?_

end Sys2Proof.Machine
end

