-- ==== Sys2Proof/Laws/KeptMerging.lean ====
section
/-!
SUPPORT. Laws/KeptMerging.lean: what each operation of Machine/Merging.lean keeps (Laws/Kept.lean).
-/

namespace Sys2Proof.Machine

set_option Elab.async false
set_option linter.unreachableTactic false
set_option linter.unusedTactic false

theorem modMerge_kept {al : Allow} {orig s : State} {die : Nat} {f : MergeDie → MergeDie}  (kept : Kept al orig s) : Kept al orig (modMerge s die f) := by
  dsimp -iota only [modMerge]
  with_reducible repeat' first
      | assumption | split | refine Kept.upd ?_

theorem setMergeGroup_kept {al : Allow} {orig s : State} {die : Nat} {g : MergeGroup}  (kept : Kept al orig s) : Kept al orig (setMergeGroup s die g) := by
  dsimp -iota only [setMergeGroup]
  with_reducible repeat' first
      | assumption | apply modMerge_kept | (intro _) | split | refine Kept.upd ?_

theorem discardInputs_kept {al : Allow} {orig s : State} {die : Nat} {n : Nat}  (kept : Kept al orig s) : Kept al orig (discardInputs s die n) := by
  dsimp -iota only [discardInputs]
  with_reducible repeat' first
      | assumption | apply modMerge_kept | (intro _) | refine Kept.upd ?_

theorem addInput_kept {al : Allow} {orig s : State} {die : Nat} {g : MergeGroup} {e : Nat × List Record × List Hole} {fin : State} {x0 : MergeGroup}  (kept : Kept al orig s) (e : addInput die s g e = (x0, fin)) : Kept al orig fin := by
  dsimp -iota only [addInput] at e
  repeat' split at e
  all_goals try (simp only [Option.some.injEq, Prod.mk.injEq, reduceCtorEq] at e <;> obtain ⟨-, rfl⟩ := e)
  all_goals
    with_reducible repeat' first
        | assumption | apply discardInputs_kept | split | refine Kept.upd ?_

theorem addInput_proj {al : Allow} {orig s : State} {die : Nat} {g : MergeGroup} {e : Nat × List Record × List Hole}  (kept : Kept al orig s) : Kept al orig (addInput die s g e).2 := by
  rcases h : addInput die s g e with ⟨y0, y1⟩
  exact addInput_kept kept h

theorem addReply_kept {al : Allow} {orig s : State} {die : Nat} {g : MergeGroup} {bytes : List Byte} (kept : Kept al orig s) :
    Kept al orig (addReply s die g bytes) := by
  unfold addReply
  split
  · exact discardInputs_kept kept
  · refine setMergeGroup_kept (foldl_kept Prod.snd (fun b x k => ?_) ?_)
    · generalize e : addInput die b.2 b.1 x = r
      exact addInput_kept k e
    · exact kept
theorem closeGroup_kept {al : Allow} {orig s : State} {die : Nat} {g : MergeGroup}  (kept : Kept al orig s) : Kept al orig (closeGroup s die g) := by
  dsimp -iota only [closeGroup]
  with_reducible repeat' first
      | assumption | apply modMerge_kept | apply countRecords_kept | apply complete_kept | apply sendRecords_kept
      | (intro _) | split | refine Kept.put_mem ?_ | refine Kept.upd ?_

theorem mergeCheck_kept {al : Allow} {orig s : State} {die : Nat} {tenant : Nat} {tag : Nat}  (kept : Kept al orig s) : Kept al orig (mergeCheck s die tenant tag) := by
  dsimp -iota only [mergeCheck]
  with_reducible repeat' first
      | assumption | apply closeGroup_kept | (intro _) | split | refine Kept.upd ?_

theorem execMerge_kept {al : Allow} {orig s fin : State} {c : Command}  (kept : Kept al orig s) (e : execMerge c s = .next fin) : Kept al orig fin := by
  dsimp -iota only [execMerge] at e
  injection e with e
  subst e
  with_reducible repeat' first
      | assumption | apply modMerge_kept | apply addReply_kept | apply mergeCheck_kept | apply modLive_kept
      | apply complete_kept | apply whenReady_kept | apply foldState_kept | (intro _) | split | refine Kept.upd ?_

theorem takeInbox_kept {al : Allow} {orig s : State} {m : Inbound}  (kept : Kept al orig s) : Kept al orig (takeInbox s m) := by
  dsimp -iota only [takeInbox]
  with_reducible repeat' first
      | assumption | (intro _) | split | refine Kept.upd ?_

theorem execMergeInput_kept {al : Allow} {orig s fin : State} {m : Inbound}  (kept : Kept al orig s) (e : execMergeInput m s = .next fin) : Kept al orig fin := by
  dsimp -iota only [execMergeInput] at e
  injection e with e
  subst e
  with_reducible repeat' first
      | assumption | apply modMerge_kept | apply discardInputs_kept | apply addReply_kept | apply mergeCheck_kept
      | apply takeInbox_kept | (intro _) | split | refine Kept.upd ?_

theorem execMergeTimeout_kept {al : Allow} {orig s fin : State} {die : Fin 2} {tenant : Nat} {tag : Nat}  (kept : Kept al orig s) (e : execMergeTimeout die tenant tag s = .next fin) : Kept al orig fin := by
  dsimp -iota only [execMergeTimeout] at e
  injection e with e
  subst e
  with_reducible repeat' first
      | assumption | apply closeGroup_kept | apply whileRunning_kept | (intro _) | split | refine Kept.upd ?_

theorem execEarlyBufferExpiry_kept {al : Allow} {orig s fin : State} {die : Fin 2}  (kept : Kept al orig s) (e : execEarlyBufferExpiry die s = .next fin) : Kept al orig fin := by
  dsimp -iota only [execEarlyBufferExpiry] at e
  injection e with e
  subst e
  with_reducible repeat' first
      | assumption | apply modMerge_kept | apply whileRunning_kept | (intro _) | split | refine Kept.upd ?_

end Sys2Proof.Machine
end

