-- ==== Sys2Proof/Laws/KeptPrefix.lean ====
section
/-!
SUPPORT. Laws/KeptPrefix.lean: what each operation of Machine/Prefix.lean keeps (Laws/Kept.lean).
-/

namespace Sys2Proof.Machine

set_option Elab.async false
set_option linter.unreachableTactic false
set_option linter.unusedTactic false

theorem prefixFault_kept {al : Allow} {orig s : State} {half : Nat} {injected : Bool}  (kept : Kept al orig s) : Kept al orig (prefixFault s half injected) := by
  dsimp -iota only [prefixFault]
  with_reducible repeat' first
      | assumption | apply raise_kept | refine Kept.upd ?_

theorem prefixRemove_kept {al : Allow} {orig s : State} {n : Nat}  (kept : Kept al orig s) : Kept al orig (prefixRemove s n) := by
  dsimp -iota only [prefixRemove]
  with_reducible repeat' first
      | assumption | split | refine Kept.upd ?_

theorem prefixParity_kept {al : Allow} {orig s : State} {n : Nat} {injected : Bool}  (kept : Kept al orig s) : Kept al orig (prefixParity s n injected) := by
  dsimp -iota only [prefixParity]
  with_reducible repeat' first
      | assumption | apply prefixFault_kept | apply prefixRemove_kept | refine Kept.upd ?_

theorem searchKey_kept {al : Allow} {orig s : State} {tenant : Nat} {chain : Nat} {scope : Nat} {maskChain : Nat} {maskScope : Nat} {suppressed : Bool} {parityBad : List Nat} {fin : State} {x1 : List Byte} {x2 : Bool} {x3 : Bool}  (kept : Kept al orig s) (e : searchKey s tenant chain scope maskChain maskScope suppressed parityBad = (fin, x1, x2, x3)) : Kept al orig fin := by
  dsimp -iota only [searchKey] at e
  repeat' split at e
  all_goals try (simp only [Option.some.injEq, Prod.mk.injEq, reduceCtorEq] at e <;> obtain ⟨rfl, -, -, -⟩ := e)
  all_goals
    with_reducible repeat' first
        | assumption | apply prefixParity_kept | refine checkFails_kept ?_ (by assumption) | apply checkFails_proj
        | split | refine Kept.upd ?_

theorem searchKey_proj {al : Allow} {orig s : State} {tenant : Nat} {chain : Nat} {scope : Nat} {maskChain : Nat} {maskScope : Nat} {suppressed : Bool} {parityBad : List Nat}  (kept : Kept al orig s) : Kept al orig (searchKey s tenant chain scope maskChain maskScope suppressed parityBad).1 := by
  rcases h : searchKey s tenant chain scope maskChain maskScope suppressed parityBad with ⟨y0, y1, y2, y3⟩
  exact searchKey_kept kept h

theorem searchKeys_kept {al : Allow} {orig : State} {tenant mc ms : Nat} {stopAtMiss : Bool} {parityBad : List Nat}
    {ks : List (Nat × Nat)} : ∀ {s fin : State} {b : Bool} {rs : List (List Byte)}, Kept al orig s →
      searchKeys tenant mc ms stopAtMiss parityBad ks s b = (fin, rs) → Kept al orig fin := by
  induction ks with
  | nil => intro s fin b rs kept e; cases e; exact kept
  | cons k ks ih =>
    intro s fin b rs kept e
    unfold searchKeys at e
    split at e
    · split at e
      next s1 r1 e1 => cases e; exact ih kept e1
    · split at e
      next s1 r1 x y e1 =>
        split at e
        next s2 r2 e2 => cases e; exact ih (searchKey_kept kept e1) e2
theorem dropStale_kept {al : Allow} {orig s : State}   (kept : Kept al orig s) : Kept al orig (dropStale s) := by
  dsimp -iota only [dropStale]
  with_reducible repeat' first
      | assumption | apply prefixRemove_kept | apply foldState_kept | (intro _) | refine Kept.upd ?_

theorem cascadeFail_kept {al : Allow} {orig s : State}   (kept : Kept al orig s) : Kept al orig (cascadeFail s) := by
  dsimp -iota only [cascadeFail]
  with_reducible repeat' first
      | assumption | apply prefixFault_kept | refine Kept.upd ?_

theorem matchPulse_kept {al : Allow} {orig s : State} {hit : Bool}  (kept : Kept al orig s) : Kept al orig (matchPulse s hit) := by
  dsimp -iota only [matchPulse]
  with_reducible repeat' first
      | assumption | refine Kept.upd ?_

theorem cascadeKey_kept {al : Allow} {orig s : State} {k : Cascade} {upstream : Bool} (kept : Kept al orig s) :
    Kept al orig (cascadeKey s k upstream) := by
  unfold cascadeKey
  split
  · split
    · exact matchPulse_kept kept.upd
    · split
      next s1 r stops hit e => exact matchPulse_kept (searchKey_kept kept e).upd
  · exact kept
theorem cascadeRun_kept {al : Allow} {orig : State} {n : Nat} :
    ∀ {s : State}, Kept al orig s → Kept al orig (cascadeRun n s) := by
  induction n with
  | zero => exact fun kept => kept
  | succ n ih =>
    intro s kept
    unfold cascadeRun
    with_reducible repeat' first
      | assumption | apply complete_kept | apply ih | apply cascadeKey_kept | split | refine Kept.upd ?_
theorem cascadeStart_kept {al : Allow} {orig s : State} {c : Command} {count : Nat} {cseq : Nat} {parityBad : List Nat}  (kept : Kept al orig s) : Kept al orig (cascadeStart s c count cseq parityBad) := by
  dsimp -iota only [cascadeStart]
  with_reducible repeat' first
      | assumption | apply cascadeFail_kept | apply cascadeRun_kept | apply complete_kept | split
      | refine Kept.upd ?_

theorem execPrefixSearch_kept {al : Allow} {orig s fin : State} {c : Command} {parityBad : List Nat}
    (kept : Kept al orig s) (e : execPrefixSearch c parityBad s = .next fin) : Kept al orig fin := by
  unfold execPrefixSearch at e
  injection e with e
  subst e
  split
  · exact kept
  · extract_lets s0
    have k0 : Kept al orig s0 := dropStale_kept kept
    clear_value s0
    split
    · exact complete_kept k0
    · split
      · split
        · exact cascadeStart_kept k0
        · split
          rename_i s1 rs h
          exact complete_kept (searchKeys_kept k0 h)
      · exact kept
theorem prefixEnter_kept {al : Allow} {orig s : State} {q : SeqId} {chain : Nat} {scope : Nat} {pos : Nat}  (kept : Kept al orig s) : Kept al orig (prefixEnter s q chain scope pos) := by
  dsimp -iota only [prefixEnter]
  with_reducible repeat' first
      | assumption | split | refine Kept.upd ?_

theorem prefixOne_kept {al : Allow} {orig s : State} {hit : Option Nat} {parityBad : List Nat} {f : State → State} {fin : State} {x1 : Bool} (h_f : ∀ t, Kept al orig t → Kept al orig (f t)) (kept : Kept al orig s) (e : prefixOne s hit parityBad f = (fin, x1)) : Kept al orig fin := by
  dsimp -iota only [prefixOne] at e
  repeat' split at e
  all_goals try (simp only [Option.some.injEq, Prod.mk.injEq, reduceCtorEq] at e <;> obtain ⟨rfl, -⟩ := e)
  all_goals
    with_reducible repeat' first
        | assumption | apply prefixParity_kept | refine checkFails_kept ?_ (by assumption) | apply checkFails_proj
        | apply h_f | (intro _) | split | refine Kept.upd ?_

theorem prefixOne_proj {al : Allow} {orig s : State} {hit : Option Nat} {parityBad : List Nat} {f : State → State} (h_f : ∀ t, Kept al orig t → Kept al orig (f t)) (kept : Kept al orig s) : Kept al orig (prefixOne s hit parityBad f).1 := by
  rcases h : prefixOne s hit parityBad f with ⟨y0, y1⟩
  exact prefixOne_kept h_f kept h

theorem insertKeys_proj {al : Allow} {orig s : State} {c : Command} {parityBad : List Nat} {count : Nat}
    (kept : Kept al orig s) : Kept al orig (insertKeys c parityBad count s).1 := by
  unfold insertKeys
  refine foldl_kept (b := (s, false)) (g := Prod.fst) (fun b i h => ?_) kept
  exact prefixOne_proj (fun _ k => prefixEnter_kept k) h

theorem insertKeys_kept {al : Allow} {orig s fin : State} {c : Command} {parityBad : List Nat} {count : Nat} {x1 : Bool}
    (kept : Kept al orig s) (e : insertKeys c parityBad count s = (fin, x1)) : Kept al orig fin := by
  have := insertKeys_proj (c := c) (parityBad := parityBad) (count := count) kept
  rwa [e] at this
theorem execPrefixInsert_kept {al : Allow} {orig s fin : State} {c : Command} {parityBad : List Nat}
    (kept : Kept al orig s) (e : execPrefixInsert c parityBad s = .next fin) : Kept al orig fin := by
  unfold execPrefixInsert at e
  injection e with e
  subst e
  split
  · exact kept
  · extract_lets s0
    have k0 : Kept al orig s0 := dropStale_kept kept
    clear_value s0
    split
    · split
      · exact complete_kept k0
      · split
        · exact complete_kept k0
        · exact complete_kept (insertKeys_proj k0)
    · exact kept
theorem deleteKeys_proj {al : Allow} {orig s : State} {tenant : Nat} {parityBad : List Nat} {keys : List (Nat × Nat)}
    (kept : Kept al orig s) : Kept al orig (deleteKeys tenant parityBad keys s).1 := by
  unfold deleteKeys
  refine foldl_kept (b := (s, false)) (g := Prod.fst) (fun b k h => ?_) kept
  refine prefixOne_proj (fun t ht => ?_) h.upd
  split
  · exact prefixRemove_kept ht
  · exact ht

theorem deleteKeys_kept {al : Allow} {orig s fin : State} {tenant : Nat} {parityBad : List Nat} {keys : List (Nat × Nat)}
    {x1 : Bool} (kept : Kept al orig s) (e : deleteKeys tenant parityBad keys s = (fin, x1)) : Kept al orig fin := by
  have := deleteKeys_proj (tenant := tenant) (parityBad := parityBad) (keys := keys) kept
  rwa [e] at this
theorem execPrefixDelete_kept {al : Allow} {orig s fin : State} {c : Command} {parityBad : List Nat}
    (kept : Kept al orig s) (e : execPrefixDelete c parityBad s = .next fin) : Kept al orig fin := by
  unfold execPrefixDelete at e
  injection e with e
  subst e
  split
  · exact kept
  · extract_lets s0
    have k0 : Kept al orig s0 := dropStale_kept kept
    clear_value s0
    split
    · split
      · exact complete_kept k0
      · split
        · split
          · exact complete_kept k0
          · exact modLive_kept k0.upd
        · exact complete_kept (deleteKeys_proj k0)
    · exact kept
theorem execPrefixSweep_kept {al : Allow} {orig s fin : State}   (kept : Kept al orig s) (e : execPrefixSweep s = .next fin) : Kept al orig fin := by
  dsimp -iota only [execPrefixSweep] at e
  injection e with e
  subst e
  with_reducible repeat' first
      | assumption | apply prefixRemove_kept | apply dropStale_kept | apply complete_kept | apply whileRunning_kept
      | apply foldState_kept | (intro _) | split | refine Kept.upd ?_

theorem prefixTemp_kept {al : Allow} {orig s : State} {half : Nat} {temp : Nat}  (kept : Kept al orig s) : Kept al orig (prefixTemp s half temp) := by
  dsimp -iota only [prefixTemp]
  with_reducible repeat' first
      | assumption | split | refine Kept.upd ?_

theorem execPrefixRateRaise_kept {al : Allow} {orig s fin : State} {half : Fin 2}  (kept : Kept al orig s) (e : execPrefixRateRaise half s = .next fin) : Kept al orig fin := by
  dsimp -iota only [execPrefixRateRaise] at e
  injection e with e
  subst e
  with_reducible repeat' first
      | assumption | apply whileRunning_kept | (intro _) | split | refine Kept.upd ?_

theorem execMatchInPulse_kept {al : Allow} {orig s fin : State} {ticks : Nat}  (kept : Kept al orig s) (e : execMatchInPulse ticks s = .next fin) : Kept al orig fin := by
  dsimp -iota only [execMatchInPulse] at e
  injection e with e
  subst e
  with_reducible repeat' first
      | assumption | apply cascadeRun_kept | apply whileRunning_kept | (intro _) | split | refine Kept.upd ?_

theorem execCascadeTimeout_kept {al : Allow} {orig s fin : State}   (kept : Kept al orig s) (e : execCascadeTimeout s = .next fin) : Kept al orig fin := by
  dsimp -iota only [execCascadeTimeout] at e
  injection e with e
  subst e
  with_reducible repeat' first
      | assumption | apply cascadeFail_kept | apply complete_kept | apply whileRunning_kept | (intro _) | split
      | refine Kept.upd ?_

theorem cascResync_kept {al : Allow} {orig s : State}   (kept : Kept al orig s) : Kept al orig (cascResync s) := by
  dsimp -iota only [cascResync]
  with_reducible repeat' first
      | assumption | refine Kept.upd ?_

theorem execCascResync_kept {al : Allow} {orig s fin : State}   (kept : Kept al orig s) (e : execCascResync s = .next fin) : Kept al orig fin := by
  dsimp -iota only [execCascResync] at e
  injection e with e
  subst e
  with_reducible repeat' first
      | assumption | apply cascResync_kept | apply regEnter_kept | (intro _) | refine Kept.upd ?_

theorem prefixClear_kept {al : Allow} {orig s : State}   (kept : Kept al orig s) : Kept al orig (prefixClear s) := by
  dsimp -iota only [prefixClear]
  with_reducible repeat' first
      | assumption | apply complete_kept | apply foldState_kept | (intro _) | split | refine Kept.upd ?_

end Sys2Proof.Machine
end

