-- ==== Sys2Proof/Laws/KeptRounds.lean ====
section
/-!
SUPPORT. Laws/KeptRounds.lean: what each operation of Machine/Rounds.lean keeps (Laws/Kept.lean).
-/

namespace Sys2Proof.Machine

set_option Elab.async false
set_option linter.unreachableTactic false
set_option linter.unusedTactic false

theorem modGate_kept {al : Allow} {orig s : State} {u : Nat} {f : GateUnit → GateUnit}  (kept : Kept al orig s) : Kept al orig (modGate s u f) := by
  dsimp -iota only [modGate]
  with_reducible repeat' first
      | assumption | refine Kept.upd ?_

theorem histAdd_kept {al : Allow} {orig s : State} {egress : Bool} {delay : Bool} {die : Nat} {index : Nat} {v : Nat}  (kept : Kept al orig s) : Kept al orig (histAdd s egress delay die index v) := by
  dsimp -iota only [histAdd]
  with_reducible repeat' first
      | assumption | (intro _) | refine Kept.upd ?_

theorem traceWrite_kept {al : Allow} {orig s : State} {entry : List Byte}  (kept : Kept al orig s) : Kept al orig (traceWrite s entry) := by
  dsimp -iota only [traceWrite]
  with_reducible repeat' first
      | assumption | refine Kept.upd ?_

theorem traceSample_kept {al : Allow} {orig s : State} {index : Nat} {depth : Nat} {delay : Nat}  (kept : Kept al orig s) : Kept al orig (traceSample s index depth delay) := by
  dsimp -iota only [traceSample]
  with_reducible repeat' first
      | assumption | apply traceWrite_kept | split | refine Kept.upd ?_

end Sys2Proof.Machine
end

