-- ==== Sys2Proof/Laws/KeptTransport.lean ====
section
/-!
SUPPORT. Laws/KeptTransport.lean: what each operation of Machine/Transport.lean keeps (Laws/Kept.lean).
-/

namespace Sys2Proof.Machine

set_option Elab.async false
set_option linter.unreachableTactic false
set_option linter.unusedTactic false

theorem modFab_kept {al : Allow} {orig s : State} {p : Nat} {f : Port → Port}  (kept : Kept al orig s) : Kept al orig (modFab s p f) := by
  dsimp -iota only [modFab]
  with_reducible repeat' first
      | assumption | refine Kept.upd ?_

theorem modSub_kept {al : Allow} {orig s : State} {p : Nat} {sub : Nat} {f : SubPort → SubPort}  (kept : Kept al orig s) : Kept al orig (modSub s p sub f) := by
  dsimp -iota only [modSub]
  with_reducible repeat' first
      | assumption | apply modFab_kept | (intro _) | refine Kept.upd ?_

theorem execSubportUpDown_kept {al : Allow} {orig s fin : State} {port : Fin 12} {sub : Fin 4} {up : Bool}  (kept : Kept al orig s) (e : execSubportUpDown port sub up s = .next fin) : Kept al orig fin := by
  dsimp -iota only [execSubportUpDown] at e
  injection e with e
  subst e
  with_reducible repeat' first
      | assumption | apply modSub_kept | (intro _) | split | refine Kept.upd ?_

theorem laneReplace_kept {al : Allow} {orig s : State} {p : Nat} {lane : Nat} {note : Bool}  (kept : Kept al orig s) : Kept al orig (laneReplace s p lane note) := by
  dsimp -iota only [laneReplace]
  with_reducible repeat' first
      | assumption | apply raise_kept | apply caskAction_kept | apply modFab_kept | apply modSub_kept | (intro _)
      | split | refine Kept.upd ?_

theorem laneFails_kept {al : Allow} {orig s : State} {p : Nat} {lane : Nat}  (kept : Kept al orig s) : Kept al orig (laneFails s p lane) := by
  dsimp -iota only [laneFails]
  with_reducible repeat' first
      | assumption | apply laneReplace_kept | refine Kept.upd ?_

theorem execLaneSpareMove_kept {al : Allow} {orig s fin : State} {port : Fin 12} {lane : Fin 8}  (kept : Kept al orig s) (e : execLaneSpareMove port lane s = .next fin) : Kept al orig fin := by
  dsimp -iota only [execLaneSpareMove] at e
  injection e with e
  subst e
  with_reducible repeat' first
      | assumption | apply laneFails_kept | split | refine Kept.upd ?_

theorem egJoin_kept {al : Allow} {orig s : State} {r : Nat × Nat} {cls : Nat} {packet : Packet} {head : Bool}  (kept : Kept al orig s) : Kept al orig (egJoin s r cls packet head) := by
  dsimp -iota only [egJoin]
  with_reducible repeat' first
      | assumption | apply histAdd_kept | apply modSub_kept | (intro _) | split | refine Kept.upd ?_

theorem sendAck_kept {al : Allow} {orig s : State} {a : AssocKey} {dup : Bool}  (kept : Kept al orig s) : Kept al orig (sendAck s a dup) := by
  dsimp -iota only [sendAck]
  with_reducible repeat' first
      | assumption | apply modCtx_kept | apply modSub_kept | (intro _) | split | refine Kept.upd ?_

theorem suspect_kept {al : Allow} {orig s : State} {n : Nat} {why : Nat}  (kept : Kept al orig s) : Kept al orig (suspect s n why) := by
  dsimp -iota only [suspect]
  with_reducible repeat' first
      | assumption | apply reportAll_kept | (intro _) | split | refine Kept.upd ?_

theorem heard_kept {al : Allow} {orig s : State} {a : AssocKey}  (kept : Kept al orig s) : Kept al orig (heard s a) := by
  dsimp -iota only [heard]
  with_reducible repeat' first
      | assumption | (intro _) | split | refine Kept.upd ?_

theorem sysDataSent_kept {al : Allow} {orig s : State} {a : AssocKey}  (kept : Kept al orig s) : Kept al orig (sysDataSent s a) := by
  dsimp -iota only [sysDataSent]
  with_reducible repeat' first
      | assumption | (intro _) | split | refine Kept.upd ?_

theorem rollDirection_kept {al : Allow} {orig s : State} {a : AssocKey}  (kept : Kept al orig s) : Kept al orig (rollDirection s a) := by
  dsimp -iota only [rollDirection]
  with_reducible repeat' first
      | assumption | apply modCtx_kept | (intro _) | split | refine Kept.upd ?_

theorem startFetch_kept {al : Allow} {orig s : State} {a : AssocKey}  (kept : Kept al orig s) : Kept al orig (startFetch s a) := by
  dsimp -iota only [startFetch]
  with_reducible repeat' first
      | assumption | apply modCtx_kept | refine makeRoom_kept ?_ (by assumption) | apply memRead1_kept | (intro _)
      | split | refine Kept.upd ?_

theorem cutOne_kept {al : Allow} {orig s : State} {a : AssocKey}  (kept : Kept al orig s) : Kept al orig (cutOne a s) := by
  dsimp -iota only [cutOne]
  with_reducible repeat' first
      | assumption | apply bump_kept | apply modCtx_kept | apply egJoin_kept | apply sysDataSent_kept | (intro _)
      | split | refine Kept.upd ?_

theorem execMessageSend_kept {al : Allow} {orig s fin : State} {a : AssocKey}  (kept : Kept al orig s) (e : execMessageSend a s = .next fin) : Kept al orig fin := by
  dsimp -iota only [execMessageSend] at e
  injection e with e
  subst e
  with_reducible repeat' first
      | assumption | apply rollDirection_kept | apply startFetch_kept | apply cutOne_kept | apply iter_kept
      | (intro _) | split | refine Kept.upd ?_

theorem resend_kept {al : Allow} {orig s : State} {a : AssocKey} {tsn : Nat}  (kept : Kept al orig s) : Kept al orig (resend s a tsn) := by
  dsimp -iota only [resend]
  with_reducible repeat' first
      | assumption | apply modCtx_kept | apply egJoin_kept | (intro _) | split | refine Kept.upd ?_

theorem execRetransmitTimeout_kept {al : Allow} {orig s fin : State} {a : AssocKey} {tsn : Nat}  (kept : Kept al orig s) (e : execRetransmitTimeout a tsn s = .next fin) : Kept al orig fin := by
  dsimp -iota only [execRetransmitTimeout] at e
  injection e with e
  subst e
  with_reducible repeat' first
      | assumption | apply suspect_kept | apply rollDirection_kept | apply resend_kept | (intro _) | split
      | refine Kept.upd ?_

theorem applyAck_kept {al : Allow} {orig s : State} {a : AssocKey} {p : Packet}  (kept : Kept al orig s) : Kept al orig (applyAck s a p) := by
  dsimp -iota only [applyAck]
  with_reducible repeat' first
      | assumption | apply modCtx_kept | apply resend_kept | apply foldState_kept | (intro _) | split
      | refine Kept.upd ?_

theorem execAckCoalesceExpiry_kept {al : Allow} {orig s fin : State} {a : AssocKey}  (kept : Kept al orig s) (e : execAckCoalesceExpiry a s = .next fin) : Kept al orig fin := by
  dsimp -iota only [execAckCoalesceExpiry] at e
  injection e with e
  subst e
  with_reducible repeat' first
      | assumption | apply sendAck_kept | (intro _) | split | refine Kept.upd ?_

theorem dropOther_kept {al : Allow} {orig s : State} {p : Packet}  (kept : Kept al orig s) : Kept al orig (dropOther s p) := by
  dsimp -iota only [dropOther]
  with_reducible repeat' first
      | assumption | apply modFab_kept | (intro _) | refine Kept.upd ?_

theorem dropWindow_kept {al : Allow} {orig s : State} {p : Packet}  (kept : Kept al orig s) : Kept al orig (dropWindow s p) := by
  dsimp -iota only [dropWindow]
  with_reducible repeat' first
      | assumption | apply modFab_kept | (intro _) | refine Kept.upd ?_

theorem dropBuffer_kept {al : Allow} {orig s : State} {p : Packet}  (kept : Kept al orig s) : Kept al orig (dropBuffer s p) := by
  dsimp -iota only [dropBuffer]
  with_reducible repeat' first
      | assumption | apply modFab_kept | (intro _) | refine Kept.upd ?_

theorem noteCrossing_kept {al : Allow} {orig s : State} {a : AssocKey} {kind : Nat}  (kept : Kept al orig s) : Kept al orig (noteCrossing s a kind) := by
  dsimp -iota only [noteCrossing]
  with_reducible repeat' first
      | assumption | (intro _) | split | refine Kept.upd ?_

theorem deliverOne_kept {al : Allow} {orig s : State} {a : AssocKey}  (kept : Kept al orig s) : Kept al orig (deliverOne a s) := by
  dsimp -iota only [deliverOne]
  with_reducible repeat' first
      | assumption | apply modCtx_kept | apply noteCrossing_kept | apply deliver_kept | (intro _) | split
      | refine Kept.upd ?_

theorem receiveData_kept {al : Allow} {orig s : State} {a : AssocKey} {p : Packet}  (kept : Kept al orig s) : Kept al orig (receiveData s a p) := by
  dsimp -iota only [receiveData]
  with_reducible repeat' first
      | assumption | apply modCtx_kept | apply modFab_kept | apply sendAck_kept | apply dropWindow_kept
      | apply dropBuffer_kept | apply deliverOne_kept | apply iter_kept | (intro _) | split | refine Kept.upd ?_

theorem adoptRoll_kept {al : Allow} {orig s : State} {a : AssocKey} {p : Packet}  (kept : Kept al orig s) : Kept al orig (adoptRoll s a p) := by
  dsimp -iota only [adoptRoll]
  with_reducible repeat' first
      | assumption | apply modCtx_kept | (intro _) | split | refine Kept.upd ?_

theorem receiveCached_kept {al : Allow} {orig s : State} {p : Packet}  (kept : Kept al orig s) : Kept al orig (receiveCached s p) := by
  dsimp -iota only [receiveCached]
  with_reducible repeat' first
      | assumption | apply modCtx_kept | apply raise_kept | refine checkFails_kept ?_ (by assumption)
      | apply checkFails_proj | refine checkFailsIf_kept ?_ (by assumption) | apply modFab_kept | apply heard_kept
      | apply applyAck_kept | apply dropWindow_kept | apply receiveData_kept | apply adoptRoll_kept | (intro _)
      | split | refine Kept.upd ?_

theorem missJoin_kept {al : Allow} {orig s : State} {p : Packet}  (kept : Kept al orig s) : Kept al orig (missJoin s p) := by
  dsimp -iota only [missJoin]
  with_reducible repeat' first
      | assumption | apply startFetch_kept | apply dropBuffer_kept | (intro _) | split | refine Kept.upd ?_

theorem receive_kept {al : Allow} {orig s : State} {p : Packet}  (kept : Kept al orig s) : Kept al orig (receive s p) := by
  dsimp -iota only [receive]
  with_reducible repeat' first
      | assumption | refine newCtx_kept ?_ (by assumption) | apply dropOther_kept | apply receiveCached_kept
      | apply missJoin_kept | split | refine Kept.upd ?_

theorem receiveFrame_kept {al : Allow} {orig s : State} {mine : Packet → Bool} {f : RxFrame}  (kept : Kept al orig s) : Kept al orig (receiveFrame mine f s) := by
  dsimp -iota only [receiveFrame]
  with_reducible repeat' first
      | assumption | apply modFab_kept | apply dropOther_kept | apply receive_kept | (intro _) | split
      | refine Kept.upd ?_

theorem execDataPacket_kept {al : Allow} {orig s fin : State} {f : RxFrame}  (kept : Kept al orig s) (e : execDataPacket f s = .next fin) : Kept al orig fin := by
  dsimp -iota only [execDataPacket] at e
  injection e with e
  subst e
  with_reducible repeat' first
      | assumption | apply whileRunning_kept | apply receiveFrame_kept | (intro _) | split | refine Kept.upd ?_

theorem execAckPacket_kept {al : Allow} {orig s fin : State} {f : RxFrame}  (kept : Kept al orig s) (e : execAckPacket f s = .next fin) : Kept al orig fin := by
  dsimp -iota only [execAckPacket] at e
  injection e with e
  subst e
  with_reducible repeat' first
      | assumption | apply whileRunning_kept | apply receiveFrame_kept | (intro _) | split | refine Kept.upd ?_

theorem missRun_kept {al : Allow} {orig s : State} {a : AssocKey}  (kept : Kept al orig s) : Kept al orig (missRun s a) := by
  dsimp -iota only [missRun]
  with_reducible repeat' first
      | assumption | apply receiveCached_kept | apply foldState_kept | (intro _) | refine Kept.upd ?_

theorem execContextFetchDone_kept {al : Allow} {orig s fin : State} {a : AssocKey} (kept : Kept al orig s)
    (e : execContextFetchDone a s = .next fin) : Kept al orig fin := by
  unfold execContextFetchDone at e
  injection e with e
  subst e
  split
  · exact kept
  · extract_lets waiting
    clear_value waiting
    split
    · split
      · rcases h : newCtx s a with _ | s1
        · exact kept
        · exact missRun_kept (newCtx_kept kept h)
      · exact kept
    · split
      · split
        · exact kept
        · exact missRun_kept (modCtx_kept kept)
      · split
        · exact startFetch_kept kept
        · exact kept
theorem pctxSet_kept {al : Allow} {orig s : State}   (kept : Kept al orig s) : Kept al orig (pctxSet s) := by
  dsimp -iota only [pctxSet]
  with_reducible repeat' first
      | assumption | (intro _) | split | refine Kept.upd ?_

theorem execPctxSet_kept {al : Allow} {orig s fin : State}   (kept : Kept al orig s) (e : execPctxSet s = .next fin) : Kept al orig fin := by
  dsimp -iota only [execPctxSet] at e
  injection e with e
  subst e
  with_reducible repeat' first
      | assumption | apply regEnter_kept | apply pctxSet_kept | (intro _) | refine Kept.upd ?_

theorem sendFrame_kept {al : Allow} {orig s : State} {r : Nat × Nat} {it : EgItem}  (kept : Kept al orig s) : Kept al orig (sendFrame s r it) := by
  dsimp -iota only [sendFrame]
  with_reducible repeat' first
      | assumption | apply modCtx_kept | apply modFab_kept | (intro _) | split | refine Kept.upd ?_

theorem execEgressSelect_kept {al : Allow} {orig s fin : State} {port : Fin 12} {sub : Fin 4}  (kept : Kept al orig s) (e : execEgressSelect port sub s = .next fin) : Kept al orig fin := by
  dsimp -iota only [execEgressSelect] at e
  injection e with e
  subst e
  with_reducible repeat' first
      | assumption | apply histAdd_kept | apply traceSample_kept | apply modSub_kept | apply sendFrame_kept
      | (intro _) | split | refine Kept.upd ?_

theorem execPfcFrame_kept {al : Allow} {orig s fin : State} {port : Fin 12} {sub : Fin 4} {quanta : List (Nat × Nat)}  (kept : Kept al orig s) (e : execPfcFrame port sub quanta s = .next fin) : Kept al orig fin := by
  dsimp -iota only [execPfcFrame] at e
  injection e with e
  subst e
  with_reducible repeat' first
      | assumption | apply modFab_kept | apply modSub_kept | apply foldState_kept | (intro _) | split
      | refine Kept.upd ?_

theorem execPfcPauseExpiry_kept {al : Allow} {orig s fin : State} {port : Fin 12} {sub : Fin 4} {pcp : Fin 8}  (kept : Kept al orig s) (e : execPfcPauseExpiry port sub pcp s = .next fin) : Kept al orig fin := by
  dsimp -iota only [execPfcPauseExpiry] at e
  injection e with e
  subst e
  with_reducible repeat' first
      | assumption | apply modSub_kept | (intro _) | split | refine Kept.upd ?_

theorem execPauseFrame_kept {al : Allow} {orig s fin : State} {port : Fin 12}  (kept : Kept al orig s) (e : execPauseFrame port s = .next fin) : Kept al orig fin := by
  dsimp -iota only [execPauseFrame] at e
  injection e with e
  subst e
  with_reducible repeat' first
      | assumption | apply modFab_kept | (intro _) | split | refine Kept.upd ?_

theorem pfcSend_kept {al : Allow} {orig s : State} {die : Nat} {quanta : Nat}  (kept : Kept al orig s) : Kept al orig (pfcSend s die quanta) := by
  dsimp -iota only [pfcSend]
  with_reducible repeat' first
      | assumption | (intro _) | refine Kept.upd ?_

theorem execBufferXoff_kept {al : Allow} {orig s fin : State} {die : Fin 2}  (kept : Kept al orig s) (e : execBufferXoff die s = .next fin) : Kept al orig fin := by
  dsimp -iota only [execBufferXoff] at e
  injection e with e
  subst e
  with_reducible repeat' first
      | assumption | apply pfcSend_kept | split | refine Kept.upd ?_

theorem execXoffRepeat_kept {al : Allow} {orig s fin : State} {die : Fin 2}  (kept : Kept al orig s) (e : execXoffRepeat die s = .next fin) : Kept al orig fin := by
  dsimp -iota only [execXoffRepeat] at e
  injection e with e
  subst e
  with_reducible repeat' first
      | assumption | apply pfcSend_kept | split | refine Kept.upd ?_

end Sys2Proof.Machine
end

