-- ==== Sys2Proof/Laws/KeptSchedule.lean ====
section
/-!
SUPPORT. Laws/KeptSchedule.lean: what each operation of Machine/Schedule.lean keeps (Laws/Kept.lean).
-/

namespace Sys2Proof.Machine

set_option Elab.async false
set_option linter.unreachableTactic false
set_option linter.unusedTactic false

theorem applyBind_kept {al : Allow} {orig s : State} {n : Nat}  (kept : Kept al orig s) : Kept al orig (applyBind s n) := by
  dsimp -iota only [applyBind]
  with_reducible repeat' first
      | assumption | apply modQueue_kept | (intro _) | split | refine Kept.upd ?_

theorem writeBind_kept {al : Allow} {orig s : State} {n : Nat} {value : Word32}  (kept : Kept al orig s) : Kept al orig (writeBind s n value) := by
  dsimp -iota only [writeBind]
  with_reducible repeat' first
      | assumption | apply applyBind_kept | apply modQueue_kept | (intro _) | refine Kept.upd ?_

theorem execQbindWrite_kept {al : Allow} {orig s fin : State} {queue : Fin 1024} {value : Word32}  (kept : Kept al orig s) (e : execQbindWrite queue value s = .next fin) : Kept al orig fin := by
  dsimp -iota only [execQbindWrite] at e
  injection e with e
  subst e
  with_reducible repeat' first
      | assumption | apply writeBind_kept | apply regEnter_kept | (intro _) | refine Kept.upd ?_

theorem noteBehind_kept {al : Allow} {orig s : State} {c : Command} {r : Reply}  (kept : Kept al orig s) : Kept al orig (noteBehind s c r) := by
  dsimp -iota only [noteBehind]
  with_reducible repeat' first
      | assumption | apply reportAll_kept | split | refine Kept.upd ?_

theorem refuse_kept {al : Allow} {orig s : State} {c : Command} {r : Reply}  (kept : Kept al orig s) : Kept al orig (refuse s c r) := by
  dsimp -iota only [refuse]
  with_reducible repeat' first
      | assumption | apply noteBehind_kept | apply settleNew_kept | apply answer_kept | refine Kept.upd ?_

theorem putLive_kept {al : Allow} {orig s : State} {c : Command}  (kept : Kept al orig s) : Kept al orig (putLive s c) := by
  dsimp -iota only [putLive]
  with_reducible repeat' first
      | assumption | refine Kept.upd ?_

theorem admitOne_kept {al : Allow} {orig s : State} {c : Command}  (kept : Kept al orig s) : Kept al orig (admitOne s c) := by
  dsimp -iota only [admitOne]
  with_reducible repeat' first
      | assumption | apply noteBehind_kept | apply refuse_kept | apply putLive_kept | apply turnAway_kept
      | refine openOutcome_kept ?_ (by assumption) | apply answerDup_kept | apply answer_kept | split
      | refine Kept.upd ?_

theorem modAdm_kept {al : Allow} {orig s : State} {die : Nat} {f : AdmDie → AdmDie}  (kept : Kept al orig s) : Kept al orig (modAdm s die f) := by
  dsimp -iota only [modAdm]
  with_reducible repeat' first
      | assumption | split | refine Kept.upd ?_

theorem admEnter_kept {al : Allow} {orig s : State} {die : Nat} {c : Command}  (kept : Kept al orig s) : Kept al orig (admEnter s die c) := by
  dsimp -iota only [admEnter]
  with_reducible repeat' first
      | assumption | apply modAdm_kept | apply histAdd_kept | (intro _) | split | refine Kept.upd ?_

theorem leaveQueue_kept {al : Allow} {orig s : State} {q : Nat}  (kept : Kept al orig s) : Kept al orig (leaveQueue q s) := by
  dsimp -iota only [leaveQueue]
  with_reducible repeat' first
      | assumption | apply applyBind_kept | apply admEnter_kept | apply modQueue_kept | (intro _) | split
      | refine Kept.upd ?_

theorem drainQueues_kept {al : Allow} {orig s : State}   (kept : Kept al orig s) : Kept al orig (drainQueues s) := by
  dsimp -iota only [drainQueues]
  with_reducible repeat' first
      | assumption | apply admEnter_kept | apply leaveQueue_kept | apply foldState_kept | apply iter_kept
      | (intro _) | split | refine Kept.upd ?_

theorem takeDelivery_kept {al : Allow} {orig s : State} {m : Inbound}  (kept : Kept al orig s) : Kept al orig (takeDelivery s m) := by
  dsimp -iota only [takeDelivery]
  with_reducible repeat' first
      | assumption | (intro _) | split | refine Kept.upd ?_

theorem arrive_kept {al : Allow} {orig s : State} {c : Command}  (kept : Kept al orig s) : Kept al orig (arrive s c) := by
  dsimp -iota only [arrive]
  with_reducible repeat' first
      | assumption | apply refuse_kept | apply admitOne_kept | apply drainQueues_kept | apply turnAway_kept
      | apply modQueue_kept | apply answerRetired_kept | apply answerDup_kept | apply answer_kept | (intro _)
      | split | refine Kept.upd ?_

theorem execCommandArrival_kept {al : Allow} {orig s fin : State} {m : Inbound}  (kept : Kept al orig s) (e : execCommandArrival m s = .next fin) : Kept al orig fin := by
  dsimp -iota only [execCommandArrival] at e
  injection e with e
  subst e
  with_reducible repeat' first
      | assumption | apply takeDelivery_kept | apply arrive_kept | split | refine Kept.upd ?_

theorem execOutcomeExpiry_kept {al : Allow} {orig s fin : State} {key : CmdKey}  (kept : Kept al orig s) (e : execOutcomeExpiry key s = .next fin) : Kept al orig fin := by
  dsimp -iota only [execOutcomeExpiry] at e
  injection e with e
  subst e
  with_reducible repeat' first
      | assumption | apply dropOutcome_kept | split | refine Kept.upd ?_

theorem execQwait_kept {al : Allow} {orig s fin : State} {c : Command}  (kept : Kept al orig s) (e : execQwait c s = .next fin) : Kept al orig fin := by
  dsimp -iota only [execQwait] at e
  injection e with e
  subst e
  with_reducible repeat' first
      | assumption | apply applyBind_kept | apply refuse_kept | apply admitOne_kept | apply drainQueues_kept
      | apply turnAway_kept | refine openOutcome_kept ?_ (by assumption) | apply modQueue_kept
      | apply answerDup_kept | apply complete_kept | (intro _) | split | refine Kept.upd ?_

theorem admitCommand_kept {al : Allow} {orig s : State} {c : Command}  (kept : Kept al orig s) : Kept al orig (admitCommand s c) := by
  dsimp -iota only [admitCommand]
  with_reducible repeat' first
      | assumption | apply putLive_kept | apply admitOne_kept | apply sendControl_kept
      | refine openOutcome_kept ?_ (by assumption) | apply prefetch_kept | apply modSeq_kept | (intro _) | split
      | refine Kept.upd ?_

theorem releaseHead_kept {al : Allow} {orig s : State} {die : Nat} {q : Nat} {r : Drr} {i : AdmItem} {rest : List AdmItem}  (kept : Kept al orig s) : Kept al orig (releaseHead s die q r i rest) := by
  dsimp -iota only [releaseHead]
  with_reducible repeat' first
      | assumption | apply modAdm_kept | apply histAdd_kept | (intro _) | split | refine Kept.upd ?_

theorem noteFull_kept {al : Allow} {orig s : State} {die : Nat}  (kept : Kept al orig s) : Kept al orig (noteFull s die) := by
  dsimp -iota only [noteFull]
  with_reducible repeat' first
      | assumption | apply modAdm_kept | (intro _) | split | refine Kept.upd ?_

theorem admitStep_kept {al : Allow} {orig s : State} {n : Nat}  (kept : Kept al orig s) : Kept al orig (admitStep s n) := by
  dsimp -iota only [admitStep]
  with_reducible repeat' first
      | assumption | apply drainQueues_kept | apply admitCommand_kept | apply releaseHead_kept | apply bump_kept
      | split | refine Kept.upd ?_

theorem execAdmission_kept {al : Allow} {orig s fin : State} {die : Fin 2}  (kept : Kept al orig s) (e : execAdmission die s = .next fin) : Kept al orig fin := by
  dsimp -iota only [execAdmission] at e
  injection e with e
  subst e
  with_reducible repeat' first
      | assumption | apply noteFull_kept | apply admitStep_kept | apply whileRunning_kept | (intro _) | split
      | refine Kept.upd ?_

theorem execPlanVisits_kept {al : Allow} {orig s fin : State} {die : Fin 2}  (kept : Kept al orig s) (e : execPlanVisits die s = .next fin) : Kept al orig fin := by
  dsimp -iota only [execPlanVisits] at e
  injection e with e
  subst e
  with_reducible repeat' first
      | assumption | apply noteFull_kept | apply admitStep_kept | apply planTurnOf_kept | apply whileRunning_kept
      | (intro _) | split | refine Kept.upd ?_

theorem histClear_kept {al : Allow} {orig s : State}   (kept : Kept al orig s) : Kept al orig (histClear s) := by
  dsimp -iota only [histClear]
  with_reducible repeat' first
      | assumption | refine Kept.upd ?_

theorem execHistClear_kept {al : Allow} {orig s fin : State}   (kept : Kept al orig s) (e : execHistClear s = .next fin) : Kept al orig fin := by
  dsimp -iota only [execHistClear] at e
  injection e with e
  subst e
  with_reducible repeat' first
      | assumption | apply histClear_kept | apply regEnter_kept | (intro _) | refine Kept.upd ?_

theorem takeOver_kept {al : Allow} {orig s : State} {u : Nat}  (kept : Kept al orig s) : Kept al orig (takeOver s u) := by
  dsimp -iota only [takeOver]
  with_reducible repeat' first
      | assumption | apply modGate_kept | (intro _) | refine Kept.upd ?_

theorem pendArm_kept {al : Allow} {orig s : State} {u : Nat}  (kept : Kept al orig s) : Kept al orig (pendArm s u) := by
  dsimp -iota only [pendArm]
  with_reducible repeat' first
      | assumption | apply takeOver_kept | apply modGate_kept | (intro _) | split | refine Kept.upd ?_

theorem execPendArm_kept {al : Allow} {orig s fin : State} {unit : Fin 14}  (kept : Kept al orig s) (e : execPendArm unit s = .next fin) : Kept al orig fin := by
  dsimp -iota only [execPendArm] at e
  injection e with e
  subst e
  with_reducible repeat' first
      | assumption | apply pendArm_kept | apply regEnter_kept | (intro _) | refine Kept.upd ?_

theorem pendDisarm_kept {al : Allow} {orig s : State} {u : Nat}  (kept : Kept al orig s) : Kept al orig (pendDisarm s u) := by
  dsimp -iota only [pendDisarm]
  with_reducible repeat' first
      | assumption | apply modGate_kept | (intro _) | refine Kept.upd ?_

theorem execPendDisarm_kept {al : Allow} {orig s fin : State} {unit : Fin 14}  (kept : Kept al orig s) (e : execPendDisarm unit s = .next fin) : Kept al orig fin := by
  dsimp -iota only [execPendDisarm] at e
  injection e with e
  subst e
  with_reducible repeat' first
      | assumption | apply pendDisarm_kept | apply regEnter_kept | (intro _) | refine Kept.upd ?_

theorem execGateTakeover_kept {al : Allow} {orig s fin : State} {unit : Fin 14}  (kept : Kept al orig s) (e : execGateTakeover unit s = .next fin) : Kept al orig fin := by
  dsimp -iota only [execGateTakeover] at e
  injection e with e
  subst e
  with_reducible repeat' first
      | assumption | apply takeOver_kept | split | refine Kept.upd ?_

theorem gateEnds_kept {al : Allow} {orig s : State} {u : Nat}  (kept : Kept al orig s) : Kept al orig (gateEnds s u) := by
  dsimp -iota only [gateEnds]
  with_reducible repeat' first
      | assumption | apply takeOver_kept | apply modGate_kept | (intro _) | split | refine Kept.upd ?_

theorem execGateEntryEnd_kept {al : Allow} {orig s fin : State} {unit : Fin 14}  (kept : Kept al orig s) (e : execGateEntryEnd unit s = .next fin) : Kept al orig fin := by
  dsimp -iota only [execGateEntryEnd] at e
  injection e with e
  subst e
  with_reducible repeat' first
      | assumption | apply gateEnds_kept | split | refine Kept.upd ?_

theorem gatesAtEpoch_kept {al : Allow} {orig s : State}   (kept : Kept al orig s) : Kept al orig (gatesAtEpoch s) := by
  dsimp -iota only [gatesAtEpoch]
  with_reducible repeat' first
      | assumption | apply takeOver_kept | apply foldState_kept | (intro _) | split | refine Kept.upd ?_

end Sys2Proof.Machine
end

