-- ==== Sys2Proof/Laws/KeptReset.lean ====
section
/-!
SUPPORT. Laws/KeptReset.lean: what each operation of Machine/Reset.lean keeps (Laws/Kept.lean).
-/

namespace Sys2Proof.Machine

set_option Elab.async false
set_option linter.unreachableTactic false
set_option linter.unusedTactic false

theorem refence_kept {al : Allow} {orig s : State}  (hfence : al.fence = true) (kept : Kept al orig s) : Kept al orig (refence s) := by
  dsimp -iota only [refence]
  with_reducible repeat' first
      | assumption | apply fenceNode_kept | apply endFence_kept | (intro _) | split | refine Kept.put_fault ?_
      | refine Kept.upd ?_

theorem forget_kept {al : Allow} {orig s : State} {c : Command}  (kept : Kept al orig s) : Kept al orig (forget s c) := by
  dsimp -iota only [forget]
  with_reducible repeat' first
      | assumption | apply dropOutcome_kept | apply dropLive_kept | refine Kept.upd ?_

theorem discardWaiting_kept {al : Allow} {orig s : State}   (kept : Kept al orig s) : Kept al orig (discardWaiting s) := by
  dsimp -iota only [discardWaiting]
  with_reducible repeat' first
      | assumption | apply applyBind_kept | apply forget_kept | apply clearWaiting_kept | apply foldState_kept
      | (intro _) | refine Kept.upd ?_

theorem dropWork_kept {al : Allow} {orig s : State} {k : CmdKey}  (kept : Kept al orig s) : Kept al orig (dropWork s k) := by
  dsimp -iota only [dropWork]
  with_reducible repeat' first
      | assumption | apply dropItem_kept | apply dropVisits_kept | apply unpin_kept | apply foldState_kept
      | (intro _) | refine Kept.upd ?_

theorem cancelOne_kept {al : Allow} {orig s : State} {c : Command}  (kept : Kept al orig s) : Kept al orig (cancelOne s c) := by
  dsimp -iota only [cancelOne]
  with_reducible repeat' first
      | assumption | apply forget_kept | apply dropWork_kept | refine Kept.upd ?_

theorem stopCopies_kept {al : Allow} {orig s : State} {which : CopyOut → Bool}  (kept : Kept al orig s) : Kept al orig (stopCopies s which) := by
  dsimp -iota only [stopCopies]
  with_reducible repeat' first
      | assumption | apply unpin_kept | apply foldState_kept | (intro _) | refine Kept.upd ?_

theorem rollAll_kept {al : Allow} {orig s : State}   (kept : Kept al orig s) : Kept al orig (rollAll s) := by
  dsimp -iota only [rollAll]
  with_reducible repeat' first
      | assumption | apply rollDirection_kept | apply foldState_kept | (intro _) | refine Kept.upd ?_

theorem closeMerges_kept {al : Allow} {orig s : State}   (kept : Kept al orig s) : Kept al orig (closeMerges s) := by
  dsimp -iota only [closeMerges]
  with_reducible repeat' first
      | assumption | apply forget_kept | apply foldState_kept | (intro _) | refine Kept.upd ?_

theorem dropMap_kept {al : Allow} {orig s : State}   (kept : Kept al orig s) : Kept al orig (dropMap s) := by
  dsimp -iota only [dropMap]
  with_reducible repeat' first
      | assumption | split | refine Kept.put_fault ?_ | refine Kept.upd ?_

theorem haltPark_kept {al : Allow} {orig s : State} {j : ParkJob}  (kept : Kept al orig s) : Kept al orig (haltPark s j) := by
  dsimp -iota only [haltPark]
  with_reducible repeat' first
      | assumption | apply dropIo_kept | apply dropHalf_kept | apply dropObjTransfers_kept | apply modPark_kept
      | apply parkAnswers_kept | (intro _) | split | refine Kept.upd ?_

theorem haltWake_kept {al : Allow} {orig s : State} {j : WakeJob}  (kept : Kept al orig s) : Kept al orig (haltWake s j) := by
  dsimp -iota only [haltWake]
  with_reducible repeat' first
      | assumption | apply dropIo_kept | apply dropObjTransfers_kept | apply modWake_kept | (intro _)
      | refine Kept.upd ?_

theorem haltJobs_kept {al : Allow} {orig s : State}   (kept : Kept al orig s) : Kept al orig (haltJobs s) := by
  dsimp -iota only [haltJobs]
  with_reducible repeat' first
      | assumption | apply forget_kept | apply haltPark_kept | apply haltWake_kept | apply foldState_kept
      | (intro _) | refine Kept.put_mem ?_ | refine Kept.upd ?_

theorem softReset_kept {al : Allow} {orig s : State}  (hfence : al.fence = true) (kept : Kept al orig s) : Kept al orig (softReset s) := by
  dsimp -iota only [softReset]
  with_reducible repeat' first
      | assumption | apply prefixClear_kept | apply refence_kept | apply discardWaiting_kept | apply cancelOne_kept
      | apply stopCopies_kept | apply rollAll_kept | apply closeMerges_kept | apply dropMap_kept
      | apply haltJobs_kept | apply discardChained_kept | apply ledgerEndGrants_kept | apply foldState_kept
      | (intro _) | split | refine Kept.upd ?_

theorem endJobs_kept {al : Allow} {orig s : State} {q : SeqId}  (kept : Kept al orig s) : Kept al orig (endJobs s q) := by
  dsimp -iota only [endJobs]
  with_reducible repeat' first
      | assumption | apply completeKeys_kept | apply stopJobs_kept | refine Kept.upd ?_

theorem releasePort_kept {al : Allow} {orig s : State} {p : Nat}  (kept : Kept al orig s) : Kept al orig (releasePort s p) := by
  dsimp -iota only [releasePort]
  with_reducible repeat' first
      | assumption | apply modPort_kept | apply deallocate_kept | apply iter_kept | (intro _) | refine Kept.upd ?_

theorem releaseAll_kept {al : Allow} {orig s : State}   (kept : Kept al orig s) : Kept al orig (releaseAll s) := by
  dsimp -iota only [releaseAll]
  with_reducible repeat' first
      | assumption | apply prefixClear_kept | apply forget_kept | apply endJobs_kept | apply releasePort_kept
      | apply tenantAbsent_kept | apply removeSeq_kept | apply ledgerEndGrants_kept | apply foldState_kept
      | (intro _) | refine Kept.put_mem ?_ | refine Kept.upd ?_

end Sys2Proof.Machine
end

