-- ==== Sys2Proof/Laws/KeptCompose.lean ====
section
/-!
SUPPORT. Laws/KeptCompose.lean: what each operation of Machine/Compose.lean keeps (Laws/Kept.lean).
-/

namespace Sys2Proof.Machine

set_option Elab.async false
set_option linter.unreachableTactic false
set_option linter.unusedTactic false

theorem takeKind_kept {al : Allow} {orig s : State} {src : Endpoint} {kind : Nat}  (kept : Kept al orig s) : Kept al orig (takeKind s src kind) := by
  dsimp -iota only [takeKind]
  with_reducible repeat' first
      | assumption | (intro _) | split | refine Kept.upd ?_

theorem takeNode_kept {al : Allow} {orig s : State} {src : Endpoint} {kind : Nat}  (kept : Kept al orig s) : Kept al orig (takeNode s src kind) := by
  dsimp -iota only [takeNode]
  with_reducible repeat' first
      | assumption | apply takeKind_kept | apply discard_kept | split | refine Kept.upd ?_

theorem reshape_kept {al : Allow} {orig s : State} {q : SeqId} {heads : List Nat}  (kept : Kept al orig s) : Kept al orig (reshape s q heads) := by
  dsimp -iota only [reshape]
  with_reducible repeat' first
      | assumption | apply setSeq_kept | apply foldState_kept | (intro _) | split | refine Kept.put_mem ?_
      | refine Kept.upd ?_

theorem markStubs_kept {al : Allow} {orig s : State}   (kept : Kept al orig s) : Kept al orig (markStubs s) := by
  dsimp -iota only [markStubs]
  with_reducible repeat' first
      | assumption | apply modFrame_kept | apply foldState_kept | (intro _) | split | refine Kept.upd ?_

theorem dropUnassigned_kept {al : Allow} {orig s : State} {q : SeqId}  (kept : Kept al orig s) : Kept al orig (dropUnassigned s q) := by
  dsimp -iota only [dropUnassigned]
  with_reducible repeat' first
      | assumption | apply reshape_kept | apply tenantAbsent_kept | apply decRef_kept | apply freeBlocks_kept
      | apply dropReserve_kept | apply removeSeq_kept | apply foldState_kept | (intro _) | split
      | refine Kept.put_mem ?_ | refine Kept.upd ?_

theorem endGrace_kept {al : Allow} {orig s : State}   (kept : Kept al orig s) : Kept al orig (endGrace s) := by
  dsimp -iota only [endGrace]
  with_reducible repeat' first
      | assumption | apply dropUnassigned_kept | apply foldState_kept | refine Kept.upd ?_

theorem execGraceEnd_kept {al : Allow} {orig s fin : State}   (kept : Kept al orig s) (e : execGraceEnd s = .next fin) : Kept al orig fin := by
  dsimp -iota only [execGraceEnd] at e
  injection e with e
  subst e
  with_reducible repeat' first
      | assumption | apply endGrace_kept | split | refine Kept.upd ?_

theorem settleWait_kept {al : Allow} {orig s : State} {w : ChainWait}  (kept : Kept al orig s) : Kept al orig (settleWait s w) := by
  dsimp -iota only [settleWait]
  with_reducible repeat' first
      | assumption | apply complete_kept | (intro _) | split | refine Kept.upd ?_

theorem putWait_kept {al : Allow} {orig s : State} {w : ChainWait}  (kept : Kept al orig s) : Kept al orig (putWait s w) := by
  dsimp -iota only [putWait]
  with_reducible repeat' first
      | assumption | (intro _) | split | refine Kept.upd ?_

theorem aimWait_kept {al : Allow} {orig s : State} {w : ChainWait}  (kept : Kept al orig s) : Kept al orig (aimWait s w) := by
  dsimp -iota only [aimWait]
  with_reducible repeat' first
      | assumption | apply sendChain_kept | apply settleWait_kept | apply putWait_kept | apply foldState_kept
      | (intro _) | split | refine Kept.upd ?_

theorem renewContexts_kept {al : Allow} {orig s : State} {old : Option FMap} {ownNew : Bool}  (kept : Kept al orig s) : Kept al orig (renewContexts s old ownNew) := by
  dsimp -iota only [renewContexts]
  with_reducible repeat' first
      | assumption | (intro _) | split | refine Kept.upd ?_

theorem aimCopies_kept {al : Allow} {orig s : State}   (kept : Kept al orig s) : Kept al orig (aimCopies s) := by
  dsimp -iota only [aimCopies]
  with_reducible repeat' first
      | assumption | apply stopCopies_kept | (intro _) | split | refine Kept.upd ?_

theorem dropJoins_kept {al : Allow} {orig s : State}   (kept : Kept al orig s) : Kept al orig (dropJoins s) := by
  dsimp -iota only [dropJoins]
  with_reducible repeat' first
      | assumption | apply tenantAbsent_kept | apply removeSeq_kept | apply foldState_kept | (intro _) | split
      | refine Kept.upd ?_

theorem refuseMap_kept {al : Allow} {orig s : State} {bytes : List Byte} {check : Nat}  (kept : Kept al orig s) : Kept al orig (refuseMap s bytes check) := by
  dsimp -iota only [refuseMap]
  with_reducible repeat' first
      | assumption | apply raise_kept | apply caskNote_kept | refine Kept.upd ?_

theorem parkPartner_kept {al : Allow} {orig s : State} {m : FMap} {j : ParkJob}  (kept : Kept al orig s) : Kept al orig (parkPartner s m j) := by
  dsimp -iota only [parkPartner]
  with_reducible repeat' first
      | assumption | apply modPark_kept | apply parkRemote_kept | apply modSeq_kept | (intro _) | split
      | refine Kept.upd ?_

theorem protectLost_kept {al : Allow} {orig s : State} {m : FMap}  (kept : Kept al orig s) : Kept al orig (protectLost s m) := by
  dsimp -iota only [protectLost]
  with_reducible repeat' first
      | assumption | apply parkPartner_kept | apply protectDue_kept | apply foldState_kept | (intro _) | split
      | refine Kept.upd ?_

theorem reportOpen_kept {al : Allow} {orig s : State} {open_ : List Barrier}  (kept : Kept al orig s) : Kept al orig (reportOpen s open_) := by
  dsimp -iota only [reportOpen]
  with_reducible repeat' first
      | assumption | apply reportAll_kept | apply foldState_kept | (intro _) | refine Kept.upd ?_

theorem switchMap_kept {al : Allow} {orig s : State} {m : FMap} (hfence : al.fence = true) (kept : Kept al orig s) :
    Kept al orig (switchMap s m) := by
  unfold switchMap
  extract_lets old entry active inc s0 readmit again s1 oldEpoch c1 s2 s3 ownNew s4 s5 s6 dead s7 s8 s9 s10
  have k0 : Kept al orig s0 := by
    dsimp only [s0]; split
    · exact endGrace_kept kept
    · exact kept
  clear_value s0
  have k1 : Kept al orig s1 := by
    dsimp only [s1]; split
    · exact releaseAll_kept k0
    · exact k0
  clear_value s1
  have k2 : Kept al orig s2 := k1.upd
  clear_value s2
  have k3 : Kept al orig s3 := by
    dsimp only [s3]; split
    · exact endFence_kept hfence k2
    · exact k2
  clear_value s3
  have k5 : Kept al orig s5 := by
    dsimp only [s5, s4]; exact markStubs_kept (renewContexts_kept k3)
  clear_value s5
  have k6 : Kept al orig s6 := by
    dsimp only [s6]; split
    · exact endGrace_kept k5
    · exact k5
  clear_value s6
  have k8 : Kept al orig s8 := by
    dsimp only [s8, s7]; exact dropJoins_kept (aimCopies_kept (foldState_kept (fun _ _ h => declareDead_kept h) k6))
  clear_value s8
  have k9 : Kept al orig s9 := by
    dsimp only [s9]; exact gatesAtEpoch_kept (protectLost_kept k8)
  clear_value s9
  have k10 : Kept al orig s10 := by
    dsimp only [s10]
    exact reportOpen_kept (foldState_kept (fun _ _ h => aimWait_kept h) k9)
  clear_value s10
  split
  · exact k10.upd
  · exact fenceNode_kept k10.upd
theorem installMap_kept {al : Allow} {orig s : State} {bytes : List Byte} {fin : State} {x1 : Status} (hfence : al.fence = true) (kept : Kept al orig s) (e : installMap s bytes = (fin, x1)) : Kept al orig fin := by
  dsimp -iota only [installMap] at e
  repeat' split at e
  all_goals try (simp only [Option.some.injEq, Prod.mk.injEq, reduceCtorEq] at e <;> obtain ⟨rfl, -⟩ := e)
  all_goals
    with_reducible repeat' first
        | assumption | apply refuseMap_kept | apply switchMap_kept | (intro _) | split | refine Kept.upd ?_

theorem installMap_proj {al : Allow} {orig s : State} {bytes : List Byte} (hfence : al.fence = true) (kept : Kept al orig s) : Kept al orig (installMap s bytes).1 := by
  rcases h : installMap s bytes with ⟨y0, y1⟩
  exact installMap_kept hfence kept h

theorem execMap_kept {al : Allow} {orig s fin : State} {m : Inbound} (hfence : al.fence = true) (kept : Kept al orig s) (e : execMap m s = .next fin) : Kept al orig fin := by
  dsimp -iota only [execMap] at e
  injection e with e
  subst e
  with_reducible repeat' first
      | assumption | apply takeDelivery_kept | apply sendControl_kept | refine installMap_kept ?_ (by assumption)
      | apply installMap_proj | apply discard_kept | (intro _) | split | refine Kept.upd ?_

theorem renewLease_kept {al : Allow} {orig s : State} {epoch : Nat}  (kept : Kept al orig s) : Kept al orig (renewLease s epoch) := by
  dsimp -iota only [renewLease]
  with_reducible repeat' first
      | assumption | (intro _) | split | refine Kept.upd ?_

theorem execRenew_kept {al : Allow} {orig s fin : State} {src : Endpoint} {epoch : Nat}  (kept : Kept al orig s) (e : execRenew src epoch s = .next fin) : Kept al orig fin := by
  dsimp -iota only [execRenew] at e
  injection e with e
  subst e
  with_reducible repeat' first
      | assumption | apply takeKind_kept | apply renewLease_kept | apply discard_kept | split | refine Kept.upd ?_

theorem execLeaseExpiry_kept {al : Allow} {orig s fin : State}   (kept : Kept al orig s) (e : execLeaseExpiry s = .next fin) : Kept al orig fin := by
  dsimp -iota only [execLeaseExpiry] at e
  injection e with e
  subst e
  with_reducible repeat' first
      | assumption | apply endJobs_kept | apply fenceNode_kept | apply foldState_kept | (intro _) | split
      | refine Kept.upd ?_

theorem chainEnter_kept {al : Allow} {orig s : State} {c : Command}  (kept : Kept al orig s) : Kept al orig (chainEnter s c) := by
  dsimp -iota only [chainEnter]
  with_reducible repeat' first
      | assumption | apply drainQueues_kept | refine Kept.upd ?_

theorem execChain_kept {al : Allow} {orig s fin : State} {m : Inbound}  (kept : Kept al orig s) (e : execChain m s = .next fin) : Kept al orig fin := by
  dsimp -iota only [execChain] at e
  injection e with e
  subst e
  with_reducible repeat' first
      | assumption | apply takeDelivery_kept | apply sendControl_kept | apply chainEnter_kept | apply discard_kept
      | (intro _) | split | refine Kept.upd ?_

theorem execChainRetry_kept {al : Allow} {orig s fin : State} {key : CmdKey}  (kept : Kept al orig s) (e : execChainRetry key s = .next fin) : Kept al orig fin := by
  dsimp -iota only [execChainRetry] at e
  injection e with e
  subst e
  with_reducible repeat' first
      | assumption | apply modLive_kept | apply chainEnter_kept | (intro _) | split | refine Kept.upd ?_

theorem execChainAck_kept {al : Allow} {orig s fin : State} {src : Endpoint} {origin : Endpoint} {originReq : Nat} {epoch : Nat} {status : Status}  (kept : Kept al orig s) (e : execChainAck src origin originReq epoch status s = .next fin) : Kept al orig fin := by
  dsimp -iota only [execChainAck] at e
  injection e with e
  subst e
  with_reducible repeat' first
      | assumption | apply takeNode_kept | apply settleWait_kept | apply putWait_kept | (intro _) | split
      | refine Kept.upd ?_

theorem execChainTimeout_kept {al : Allow} {orig s fin : State} {key : CmdKey}  (kept : Kept al orig s) (e : execChainTimeout key s = .next fin) : Kept al orig fin := by
  dsimp -iota only [execChainTimeout] at e
  injection e with e
  subst e
  with_reducible repeat' first
      | assumption | apply reportAll_kept | apply sendChain_kept | apply raise_kept | apply putWait_kept | (intro _)
      | split | refine Kept.upd ?_

theorem execHeartbeat_kept {al : Allow} {orig s fin : State} {src : Endpoint} {_epoch : Nat}  (kept : Kept al orig s) (e : execHeartbeat src _epoch s = .next fin) : Kept al orig fin := by
  dsimp -iota only [execHeartbeat] at e
  injection e with e
  subst e
  with_reducible repeat' first
      | assumption | apply takeNode_kept | apply heard_kept | split | refine Kept.upd ?_

theorem detectOne_kept {al : Allow} {orig s : State} {w : Watched}  (kept : Kept al orig s) : Kept al orig (detectOne s w) := by
  dsimp -iota only [detectOne]
  with_reducible repeat' first
      | assumption | apply sendControl_kept | apply reportAll_kept | apply suspect_kept | apply heard_kept
      | (intro _) | split | refine Kept.upd ?_

theorem detectorFires_kept {al : Allow} {orig s : State}   (kept : Kept al orig s) : Kept al orig (detectorFires s) := by
  dsimp -iota only [detectorFires]
  with_reducible repeat' first
      | assumption | apply detectOne_kept | apply foldState_kept | refine Kept.upd ?_

theorem execDetectorFiring_kept {al : Allow} {orig s fin : State}   (kept : Kept al orig s) (e : execDetectorFiring s = .next fin) : Kept al orig fin := by
  dsimp -iota only [execDetectorFiring] at e
  injection e with e
  subst e
  with_reducible repeat' first
      | assumption | apply detectorFires_kept | split | refine Kept.upd ?_

theorem toChildren_kept {al : Allow} {orig s : State} {m : FMap} {msg : List Byte}  (kept : Kept al orig s) : Kept al orig (toChildren s m msg) := by
  dsimp -iota only [toChildren]
  with_reducible repeat' first
      | assumption | apply sendControl_kept | apply foldState_kept | (intro _) | refine Kept.upd ?_

theorem barrierTry_kept {al : Allow} {orig s : State} {m : FMap} {b : Barrier}  (kept : Kept al orig s) : Kept al orig (barrierTry s m b) := by
  dsimp -iota only [barrierTry]
  with_reducible repeat' first
      | assumption | apply sendControl_kept | apply toChildren_kept | (intro _) | split | refine Kept.upd ?_

theorem resetTry_kept {al : Allow} {orig s : State} {m : FMap} {b : Barrier} (hfence : al.fence = true) (kept : Kept al orig s) : Kept al orig (resetTry s m b) := by
  dsimp -iota only [resetTry]
  with_reducible repeat' first
      | assumption | apply softReset_kept | apply sendControl_kept | (intro _) | split | refine Kept.upd ?_

theorem execBarrierArrive_kept {al : Allow} {orig s fin : State} {src : Endpoint} {treeEpoch : Nat} {opId : Nat} {arg : Nat} (hfence : al.fence = true) (kept : Kept al orig s) (e : execBarrierArrive src treeEpoch opId arg s = .next fin) : Kept al orig fin := by
  dsimp -iota only [execBarrierArrive] at e
  injection e with e
  subst e
  with_reducible repeat' first
      | assumption | apply takeKind_kept | apply toChildren_kept | apply barrierTry_kept | apply resetTry_kept
      | apply discard_kept | (intro _) | split | refine Kept.upd ?_

theorem execBarrierRelease_kept {al : Allow} {orig s fin : State} {src : Endpoint} {treeEpoch : Nat} {opId : Nat}  (kept : Kept al orig s) (e : execBarrierRelease src treeEpoch opId s = .next fin) : Kept al orig fin := by
  dsimp -iota only [execBarrierRelease] at e
  injection e with e
  subst e
  with_reducible repeat' first
      | assumption | apply takeKind_kept | apply toChildren_kept | apply discard_kept | (intro _) | split
      | refine Kept.upd ?_

theorem execBroadcast_kept {al : Allow} {orig s fin : State} {src : Endpoint} {what : Nat} {treeEpoch : Nat} {opId : Nat} {arg : Nat} (hfence : al.fence = true) (kept : Kept al orig s) (e : execBroadcast src what treeEpoch opId arg s = .next fin) : Kept al orig fin := by
  dsimp -iota only [execBroadcast] at e
  injection e with e
  subst e
  with_reducible repeat' first
      | assumption | apply sendControl_kept | apply takeKind_kept | apply renewLease_kept | apply toChildren_kept
      | apply resetTry_kept | apply discard_kept | (intro _) | split | refine Kept.upd ?_

end Sys2Proof.Machine
end

