-- ==== Sys2Proof/Laws/KeptCopy.lean ====
section
/-!
SUPPORT. Laws/KeptCopy.lean: what each operation of Machine/Copy.lean keeps (Laws/Kept.lean).
-/

namespace Sys2Proof.Machine

set_option Elab.async false
set_option linter.unreachableTactic false
set_option linter.unusedTactic false

theorem putCopy_kept {al : Allow} {orig s : State} {c : CopyOut}  (kept : Kept al orig s) : Kept al orig (putCopy s c) := by
  dsimp -iota only [putCopy]
  with_reducible repeat' first
      | assumption | (intro _) | split | refine Kept.upd ?_

theorem sendCopy_kept {al : Allow} {orig s : State} {joiner : Nat} {bytes : List Byte}  (kept : Kept al orig s) : Kept al orig (sendCopy s joiner bytes) := by
  dsimp -iota only [sendCopy]
  with_reducible repeat' first
      | assumption | apply sendMsg_kept | refine Kept.upd ?_

theorem copyStart_kept {al : Allow} {orig s : State} {c : CopyOut} {q : SeqId} {x : Seq}  (kept : Kept al orig s) : Kept al orig (copyStart s c q x) := by
  dsimp -iota only [copyStart]
  with_reducible repeat' first
      | assumption | apply putCopy_kept | apply sendCopy_kept | apply modFrame_kept | apply foldState_kept
      | (intro _) | refine Kept.upd ?_

theorem copyOutCheck_kept {al : Allow} {orig s : State} {lpn : Nat} (kept : Kept al orig s) : Kept al orig (copyOutCheck s lpn) := by
  unfold copyOutCheck
  extract_lets
  with_reducible repeat' first
      | assumption | apply checkFails_proj | apply poisonFrame_kept | split
theorem sendFrameCopy_kept {al : Allow} {orig s : State} {c : CopyOut} {x : Seq} {f : Nat × Nat × Nat} {rest : List (Nat × Nat × Nat)} {isRef : Bool}  (kept : Kept al orig s) : Kept al orig (sendFrameCopy s c x f rest isRef) := by
  dsimp -iota only [sendFrameCopy]
  with_reducible repeat' first
      | assumption | apply putCopy_kept | apply sendCopy_kept | split | refine Kept.upd ?_

theorem copyFrame_kept {al : Allow} {orig s : State} {c : CopyOut} {x : Seq} {f : Nat × Nat × Nat} {rest : List (Nat × Nat × Nat)} {errs : List WordErr}  (kept : Kept al orig s) : Kept al orig (copyFrame s c x f rest errs) := by
  dsimp -iota only [copyFrame]
  with_reducible repeat' first
      | assumption | apply copyOutCheck_kept | apply sendFrameCopy_kept | refine checkWords_kept ?_ (by assumption)
      | apply checkWords_proj | apply whenMemory_kept | (intro _) | split | refine Kept.upd ?_

theorem copyNext_kept {al : Allow} {orig s : State} {c : CopyOut} {q : SeqId} {errs : List WordErr}  (kept : Kept al orig s) : Kept al orig (copyNext s c q errs) := by
  dsimp -iota only [copyNext]
  with_reducible repeat' first
      | assumption | apply putCopy_kept | apply sendCopy_kept | apply copyStart_kept | apply copyFrame_kept
      | apply unpin_kept | apply foldState_kept | split | refine Kept.upd ?_

theorem execCopyNext_kept {al : Allow} {orig s fin : State} {seq : SeqId} {cell : Nat} {errs : List WordErr}  (kept : Kept al orig s) (e : execCopyNext seq cell s errs = .next fin) : Kept al orig fin := by
  dsimp -iota only [execCopyNext] at e
  injection e with e
  subst e
  with_reducible repeat' first
      | assumption | apply copyNext_kept | (intro _) | split | refine Kept.upd ?_

theorem copyAgain_kept {al : Allow} {orig s : State} {c : CopyOut} {q : SeqId}  (kept : Kept al orig s) : Kept al orig (copyAgain s c q) := by
  dsimp -iota only [copyAgain]
  with_reducible repeat' first
      | assumption | apply putCopy_kept | apply unpin_kept | apply foldState_kept | refine Kept.upd ?_

theorem sendHeldLegs_kept {al : Allow} {orig s : State} {joiner : Nat} {q : SeqId}  (kept : Kept al orig s) : Kept al orig (sendHeldLegs s joiner q) := by
  dsimp -iota only [sendHeldLegs]
  with_reducible repeat' first
      | assumption | apply sendChain_kept | apply foldState_kept | (intro _) | split | refine Kept.upd ?_

theorem copyEnded_kept {al : Allow} {orig s : State} {c : CopyOut} {q : SeqId}  (kept : Kept al orig s) : Kept al orig (copyEnded s c q) := by
  dsimp -iota only [copyEnded]
  with_reducible repeat' first
      | assumption | apply putCopy_kept | apply sendHeldLegs_kept | apply unpin_kept | apply foldState_kept
      | (intro _) | split | refine Kept.upd ?_

theorem framesAcked_kept {al : Allow} {orig s : State} {c : CopyOut} {q : SeqId} {status : Status} {handles : List PageHandle}  (kept : Kept al orig s) : Kept al orig (framesAcked s c q status handles) := by
  dsimp -iota only [framesAcked]
  with_reducible repeat' first
      | assumption | apply putCopy_kept | split | refine Kept.upd ?_

theorem execCopyAck_kept {al : Allow} {orig s fin : State} {src : Endpoint} {part : Nat} {epoch : Nat} {seq : SeqId} {status : Status} {handles : List PageHandle}  (kept : Kept al orig s) (e : execCopyAck src part epoch seq status handles s = .next fin) : Kept al orig fin := by
  dsimp -iota only [execCopyAck] at e
  injection e with e
  subst e
  with_reducible repeat' first
      | assumption | apply putCopy_kept | apply copyAgain_kept | apply copyEnded_kept | apply framesAcked_kept
      | apply takeNode_kept | (intro _) | split | refine Kept.upd ?_

theorem newDirectory_kept {al : Allow} {orig s : State} {q : SeqId} {fin : State} (kept : Kept al orig s)
    (e : newDirectory s q = some fin) : Kept al orig fin := by
  unfold newDirectory at e
  split at e
  · cases e
  · obtain ⟨⟨b, t⟩, h, rfl⟩ := Option.map_eq_some_iff.1 e
    with_reducible refine setSeq_kept (allocBlocks_kept ?_ h)
    split
    · exact kept
    · exact freeBlocks_kept kept
theorem joinSeq_kept {al : Allow} {orig s : State} {q : SeqId} {x : Seq} {parked : Bool} {fin : State}   (kept : Kept al orig s) (e : joinSeq s q x parked = some fin) : Kept al orig fin := by
  dsimp -iota only [joinSeq] at e
  repeat' split at e
  all_goals try (simp only [Option.some.injEq, Prod.mk.injEq, reduceCtorEq] at e <;> obtain rfl := e)
  all_goals
    with_reducible repeat' first
        | assumption | refine newDirectory_kept ?_ (by assumption) | apply reshape_kept | apply setSeq_kept
        | apply modSeq_kept | (intro _) | split | refine Kept.upd ?_

theorem setEnds_kept {al : Allow} {orig s : State} {q : SeqId} {heads : List Nat} {layers : Nat} {b : List Byte}  (kept : Kept al orig s) : Kept al orig (setEnds s q heads layers b) := by
  dsimp -iota only [setEnds]
  with_reducible repeat' first
      | assumption | apply modSeq_kept | apply foldState_kept | (intro _) | split | refine Kept.upd ?_

theorem clearHeads_kept {al : Allow} {orig s : State} {q : SeqId} {heads : List Nat}  (kept : Kept al orig s) : Kept al orig (clearHeads s q heads) := by
  dsimp -iota only [clearHeads]
  with_reducible repeat' first
      | assumption | apply decRef_kept | apply pageDel_kept | apply foldState_kept | (intro _) | split
      | refine Kept.upd ?_

theorem execCopyBegin_kept {al : Allow} {orig s fin : State} {m : Inbound}  (kept : Kept al orig s) (e : execCopyBegin m s = .next fin) : Kept al orig fin := by
  dsimp -iota only [execCopyBegin] at e
  injection e with e
  subst e
  with_reducible repeat' first
      | assumption | apply takeDelivery_kept | apply sendControl_kept | refine joinSeq_kept ?_ (by assumption)
      | apply setEnds_kept | apply clearHeads_kept | apply discard_kept | (intro _) | split | refine Kept.upd ?_

theorem putIn_kept {al : Allow} {orig s : State} {i : CopyIn}  (kept : Kept al orig s) : Kept al orig (putIn s i) := by
  dsimp -iota only [putIn]
  with_reducible repeat' first
      | assumption | (intro _) | split | refine Kept.upd ?_

theorem installImage_proj {al : Allow} {orig s : State} {lpn : Nat} {image : List Byte} (kept : Kept al orig s) :
    Kept al orig (installImage s lpn image).2 := by
  unfold installImage
  extract_lets s1 s2 n r
  have k1 : Kept al orig s1 := slotFill_kept kept
  have k2 : Kept al orig s2 := imgWrite_kept k1
  have kr : Kept al orig r.2.2 := checkFails_proj k2
  clear_value r
  dsimp only
  split
  · exact poisonFrame_kept kr
  · exact kr

theorem installImage_kept {al : Allow} {orig s : State} {lpn : Nat} {image : List Byte} {fin : State} {x0 : Bool}
    (kept : Kept al orig s) (e : installImage s lpn image = (x0, fin)) : Kept al orig fin := by
  have := installImage_proj (lpn := lpn) (image := image) kept
  rwa [e] at this
theorem copyName_kept {al : Allow} {orig s : State} {q : SeqId} {t : Nat} {page : Nat} {lpn : Nat} {fin : State} {x0 : Status} {x1 : Option PageHandle}  (kept : Kept al orig s) (e : copyName s q t page lpn = (x0, x1, fin)) : Kept al orig fin := by
  dsimp -iota only [copyName] at e
  repeat' split at e
  all_goals try (simp only [Option.some.injEq, Prod.mk.injEq, reduceCtorEq] at e <;> obtain ⟨-, -, rfl⟩ := e)
  all_goals
    with_reducible repeat' first
        | assumption | apply decRef_kept | refine pageName_kept ?_ (by assumption) | split | refine Kept.upd ?_

theorem copyName_proj {al : Allow} {orig s : State} {q : SeqId} {t : Nat} {page : Nat} {lpn : Nat}  (kept : Kept al orig s) : Kept al orig (copyName s q t page lpn).2.2 := by
  rcases h : copyName s q t page lpn with ⟨y0, y1, y2⟩
  exact copyName_kept kept h

theorem copyInOne_kept {al : Allow} {orig s : State} {i : CopyIn} {en : CopyEntry} {fin : State} {x0 : Status}
    {x1 : Option PageHandle} (kept : Kept al orig s) (e : copyInOne s i en = (x0, x1, fin)) : Kept al orig fin := by
  unfold copyInOne at e
  split at e
  · cases e; exact kept
  · split at e
    · split at e
      · cases e; exact noteInternal_kept kept
      · exact copyName_kept (modFrame_kept kept) e
    · split at e
      · cases e; exact kept
      · rename_i t _ _ _ lpn s1 hn
        have k1 := newFrame_kept kept hn
        have kr := installImage_proj (lpn := lpn) (image := en.image) k1
        generalize installImage s1 lpn en.image = r at e kr
        dsimp only at e
        split at e
        · cases e; exact putIn_kept (freeFrame_kept kr)
        · have k2 : Kept al orig (if r.1 = true then poisonFrame r.2 lpn else r.2) := by
            split
            · exact poisonFrame_kept kr
            · exact kr
          generalize (if r.1 = true then poisonFrame r.2 lpn else r.2) = s2 at e k2
          have kn := copyName_proj (q := i.seq) (t := t) (page := en.page) (lpn := lpn) k2
          generalize copyName s2 i.seq t en.page lpn = r1 at e kn
          cases e
          split
          · exact putIn_kept kn
          · exact kn

theorem copyInOne_proj {al : Allow} {orig s : State} {i : CopyIn} {en : CopyEntry} (kept : Kept al orig s) :
    Kept al orig (copyInOne s i en).2.2 := copyInOne_kept kept rfl
theorem execCopyFrames_kept {al : Allow} {orig s fin : State} {src : Endpoint} {epoch : Nat} {seq : SeqId}
    {entries : List CopyEntry} (kept : Kept al orig s) (e : execCopyFrames src epoch seq entries s = .next fin) :
    Kept al orig fin := by
  unfold execCopyFrames at e
  injection e with e
  subst e
  split
  · exact kept
  · extract_lets s0 num ack one r
    have k0 : Kept al orig s0 := takeNode_kept kept
    split
    · exact k0
    · have ka : ∀ {t : State} {st : Status} {hs : List PageHandle}, Kept al orig t → Kept al orig (ack t st hs) :=
        fun h => sendControl_kept h
      have kr : Kept al orig r.2.2 := by
        refine foldl_kept (g := fun (x : Status × List PageHandle × State) => x.2.2) (fun b x h => ?_) k0
        dsimp only [one]
        split
        · exact h
        · exact copyInOne_proj h
      clear_value ack r
      split
      · exact k0
      · split
        · exact ka k0
        · exact ka kr
theorem joinReserves_kept {al : Allow} {orig s : State} {q : SeqId}  (kept : Kept al orig s) : Kept al orig (joinReserves s q) := by
  dsimp -iota only [joinReserves]
  with_reducible repeat' first
      | assumption | apply wantRefill_kept | apply foldState_kept | (intro _) | split | refine Kept.upd ?_

theorem reportJoined_kept {al : Allow} {orig s : State} {q : SeqId} {from_ : Nat}  (kept : Kept al orig s) : Kept al orig (reportJoined s q from_) := by
  dsimp -iota only [reportJoined]
  with_reducible repeat' first
      | assumption | apply reportAll_kept | (intro _) | split | refine Kept.upd ?_

theorem wakeCopied_kept {al : Allow} {orig s : State} {q : SeqId} {from_ : Nat} {j : WakeJob}  (kept : Kept al orig s) : Kept al orig (wakeCopied s q from_ j) := by
  dsimp -iota only [wakeCopied]
  with_reducible repeat' first
      | assumption | apply finishKeys_kept | apply wakeReplicas_kept | apply modSeq_kept | (intro _)
      | refine Kept.put_mem ?_ | refine Kept.upd ?_

theorem execCopyEnd_kept {al : Allow} {orig s fin : State} {src : Endpoint} {epoch : Nat} {seq : SeqId}  (kept : Kept al orig s) (e : execCopyEnd src epoch seq s = .next fin) : Kept al orig fin := by
  dsimp -iota only [execCopyEnd] at e
  injection e with e
  subst e
  with_reducible repeat' first
      | assumption | apply sendControl_kept | apply joinReserves_kept | apply reportJoined_kept
      | apply wakeCopied_kept | refine draw_kept ?_ (by assumption) | apply draw_proj | apply takeNode_kept
      | (intro _) | split | refine Kept.upd ?_

theorem stepGate_kept {al : Allow} {orig s : State} {dest : Option Nat} {epoch : Nat} {stepId : Nat} {action : Nat} {seq : Option SeqId} {run : Unit → State} (h_run : Kept al orig (run ())) (kept : Kept al orig s) : Kept al orig (stepGate s dest epoch stepId action seq run) := by
  dsimp -iota only [stepGate]
  with_reducible repeat' first
      | assumption | apply stepAnswer_kept | apply h_run | (intro _) | split | refine Kept.upd ?_

theorem adoptObject_kept {al : Allow} {orig s : State} {partner : Nat} {q : SeqId} {object : List Byte} {fin : State} {x0 : Option Status}  (kept : Kept al orig s) (e : adoptObject s partner q object = (x0, fin)) : Kept al orig fin := by
  dsimp -iota only [adoptObject] at e
  repeat' split at e
  all_goals try (simp only [Option.some.injEq, Prod.mk.injEq, reduceCtorEq] at e <;> obtain ⟨-, rfl⟩ := e)
  all_goals
    with_reducible repeat' first
        | assumption | refine writeObject_kept ?_ (by assumption) | apply writeObject_proj | (intro _) | split
        | refine Kept.upd ?_

theorem adoptObject_proj {al : Allow} {orig s : State} {partner : Nat} {q : SeqId} {object : List Byte}  (kept : Kept al orig s) : Kept al orig (adoptObject s partner q object).2 := by
  rcases h : adoptObject s partner q object with ⟨y0, y1⟩
  exact adoptObject_kept kept h

theorem transferOne_kept {al : Allow} {orig s : State} {epoch : Nat} {stepId : Nat} {g : Guest} {fin : State}
    {x0 : Option SeqId} {x1 : Status} (kept : Kept al orig s) (e : transferOne epoch stepId s g = (x0, x1, fin)) :
    Kept al orig fin := by
  unfold transferOne at e
  split at e
  · cases e; exact kept
  · rename_i m hm
    extract_lets d n s1 r s2 at e
    clear_value d
    split at e
    · have kr : Kept al orig r.2 := adoptObject_proj (putGuest_kept (dropGuest_kept kept))
      clear_value r
      split at e
      · cases e; exact kr
      · cases e; exact kr
    · cases e
      exact sendControl_kept (putGuest_kept (dropGuest_kept kept))

theorem transferOne_proj {al : Allow} {orig s : State} {epoch : Nat} {stepId : Nat} {g : Guest} (kept : Kept al orig s) :
    Kept al orig (transferOne epoch stepId s g).2.2 := transferOne_kept kept rfl
theorem execTransferGuests_kept {al : Allow} {orig s fin : State} {src : Endpoint} {epoch stepId arg : Nat}
    (kept : Kept al orig s) (e : execTransferGuests src epoch stepId arg s = .next fin) : Kept al orig fin := by
  unfold execTransferGuests at e
  injection e with e
  subst e
  split
  · exact kept
  · extract_lets s0 gs r rec_
    have k0 : Kept al orig s0 := takeKind_kept kept
    split
    · exact discard_kept k0
    · refine stepGate_kept ?_ k0
      have kr : Kept al orig r.2.2 := by
        refine foldl_kept (g := fun (r : List SeqId × Status × State) => r.2.2) (fun b x h => ?_) k0
        exact transferOne_proj h
      clear_value r
      split
      · exact stepAnswer_kept (putStep_kept kr)
      · exact putStep_kept kr
theorem execAdopt_kept {al : Allow} {orig s fin : State} {src : Endpoint} {epoch stepId : Nat} {seq : SeqId}
    {object : List Byte} (kept : Kept al orig s) (e : execAdopt src epoch stepId seq object s = .next fin) :
    Kept al orig fin := by
  unfold execAdopt at e
  injection e with e
  subst e
  split
  · exact kept
  · extract_lets s0
    have k0 : Kept al orig s0 := takeKind_kept kept
    split
    · exact discard_kept k0
    · refine stepGate_kept ?_ k0
      rename_i n _
      have kr : Kept al orig (adoptObject s0 n seq object).2 := adoptObject_proj k0
      generalize adoptObject s0 n seq object = r at kr
      dsimp only
      split
      · exact putStep_kept kr
      · exact stepAnswer_kept (putStep_kept kr)
theorem execReleaseGuests_kept {al : Allow} {orig s fin : State} {src : Endpoint} {epoch : Nat} {stepId : Nat} {arg : Nat}  (kept : Kept al orig s) (e : execReleaseGuests src epoch stepId arg s = .next fin) : Kept al orig fin := by
  dsimp -iota only [execReleaseGuests] at e
  injection e with e
  subst e
  with_reducible repeat' first
      | assumption | apply stepGate_kept | apply takeKind_kept | apply discardGuest_kept | apply tenantAbsent_kept
      | apply putStep_kept | apply stepAnswer_kept | apply discard_kept | apply foldState_kept | (intro _) | split
      | refine Kept.upd ?_

theorem execStepDoneReport_kept {al : Allow} {orig s fin : State} {src : Endpoint} {stepId : Nat} {status : Status}  (kept : Kept al orig s) (e : execStepDoneReport src stepId status s = .next fin) : Kept al orig fin := by
  dsimp -iota only [execStepDoneReport] at e
  injection e with e
  subst e
  with_reducible repeat' first
      | assumption | apply takeNode_kept | apply stepWaited_kept | (intro _) | split | refine Kept.upd ?_

end Sys2Proof.Machine
end

