-- ==== Sys2Proof/Laws/KeptAccess.lean ====
section
/-!
SUPPORT. Laws/KeptAccess.lean: what each operation of Machine/Access.lean keeps (Laws/Kept.lean).
-/

namespace Sys2Proof.Machine

set_option Elab.async false
set_option linter.unreachableTactic false
set_option linter.unusedTactic false

theorem k2hPop_kept {al : Allow} {orig s : State}  {fin : State} {x0 : Nat}  (kept : Kept al orig s) (e : k2hPop s = (x0, fin)) : Kept al orig fin := by
  dsimp -iota only [k2hPop] at e
  repeat' split at e
  all_goals try (simp only [Option.some.injEq, Prod.mk.injEq, reduceCtorEq] at e <;> obtain ⟨-, rfl⟩ := e)
  all_goals
    with_reducible repeat' first
        | assumption | split | refine Kept.upd ?_

theorem k2hPop_proj {al : Allow} {orig s : State}   (kept : Kept al orig s) : Kept al orig (k2hPop s).2 := by
  rcases h : k2hPop s with ⟨y0, y1⟩
  exact k2hPop_kept kept h

theorem readLatch_kept {al : Allow} {orig s : State} {a : Nat}  (kept : Kept al orig s) : Kept al orig (readLatch s a) := by
  dsimp -iota only [readLatch]
  with_reducible repeat' first
      | assumption | apply modQueue_kept | apply modQuad_kept | (intro _) | split | refine Kept.put_cask ?_
      | refine Kept.put_time ?_ | refine Kept.upd ?_

theorem readWord_kept {al : Allow} {orig s : State} {a : Nat} {fin : State} {x0 : Nat}  (kept : Kept al orig s) (e : readWord s a = (x0, fin)) : Kept al orig fin := by
  dsimp -iota only [readWord] at e
  repeat' split at e
  all_goals try (simp only [Option.some.injEq, Prod.mk.injEq, reduceCtorEq] at e <;> obtain ⟨-, rfl⟩ := e)
  all_goals
    with_reducible repeat' first
        | assumption | refine k2hPop_kept ?_ (by assumption) | apply k2hPop_proj | apply readLatch_kept | split
        | refine Kept.upd ?_

theorem readWord_proj {al : Allow} {orig s : State} {a : Nat}  (kept : Kept al orig s) : Kept al orig (readWord s a).2 := by
  rcases h : readWord s a with ⟨y0, y1⟩
  exact readWord_kept kept h

theorem readAt_kept {al : Allow} {orig s : State} {tag : Nat} {a : Nat}  (kept : Kept al orig s) : Kept al orig (readAt s tag a) := by
  dsimp -iota only [readAt]
  with_reducible repeat' first
      | assumption | apply linkSend_kept | apply countError_kept | refine readWord_kept ?_ (by assumption)
      | apply readWord_proj | split | refine Kept.upd ?_

theorem execCountLoRead_kept {al : Allow} {orig s fin : State} {tag : Nat}  (kept : Kept al orig s) (e : execCountLoRead tag s = .next fin) : Kept al orig fin := by
  dsimp -iota only [execCountLoRead] at e
  injection e with e
  subst e
  with_reducible repeat' first
      | assumption | apply readAt_kept | refine Kept.upd ?_

theorem execQccLoRead_kept {al : Allow} {orig s fin : State} {tag : Nat} {queue : Fin 1024}  (kept : Kept al orig s) (e : execQccLoRead tag queue s = .next fin) : Kept al orig fin := by
  dsimp -iota only [execQccLoRead] at e
  injection e with e
  subst e
  with_reducible repeat' first
      | assumption | apply readAt_kept | refine Kept.upd ?_

theorem execLregVerLoRead_kept {al : Allow} {orig s fin : State} {tag : Nat}  (kept : Kept al orig s) (e : execLregVerLoRead tag s = .next fin) : Kept al orig fin := by
  dsimp -iota only [execLregVerLoRead] at e
  injection e with e
  subst e
  with_reducible repeat' first
      | assumption | apply readAt_kept | refine Kept.upd ?_

theorem execCaskHeadLoRead_kept {al : Allow} {orig s fin : State} {tag : Nat}  (kept : Kept al orig s) (e : execCaskHeadLoRead tag s = .next fin) : Kept al orig fin := by
  dsimp -iota only [execCaskHeadLoRead] at e
  injection e with e
  subst e
  with_reducible repeat' first
      | assumption | apply readAt_kept | refine Kept.upd ?_

theorem execCaskOldLoRead_kept {al : Allow} {orig s fin : State} {tag : Nat}  (kept : Kept al orig s) (e : execCaskOldLoRead tag s = .next fin) : Kept al orig fin := by
  dsimp -iota only [execCaskOldLoRead] at e
  injection e with e
  subst e
  with_reducible repeat' first
      | assumption | apply readAt_kept | refine Kept.upd ?_

theorem execTctrLoRead_kept {al : Allow} {orig s fin : State} {tag : Nat} {index : Fin 8}  (kept : Kept al orig s) (e : execTctrLoRead tag index s = .next fin) : Kept al orig fin := by
  dsimp -iota only [execTctrLoRead] at e
  injection e with e
  subst e
  with_reducible repeat' first
      | assumption | apply readAt_kept | refine Kept.upd ?_

theorem execQuadCounterRead_kept {al : Allow} {orig s fin : State} {tag : Nat} {quad : Fin 4} {counter : QuadCounter}  (kept : Kept al orig s) (e : execQuadCounterRead tag quad counter s = .next fin) : Kept al orig fin := by
  dsimp -iota only [execQuadCounterRead] at e
  injection e with e
  subst e
  with_reducible repeat' first
      | assumption | apply readAt_kept | refine Kept.upd ?_

theorem execK2hWord_kept {al : Allow} {orig s fin : State} {tag : Nat}  (kept : Kept al orig s) (e : execK2hWord tag s = .next fin) : Kept al orig fin := by
  dsimp -iota only [execK2hWord] at e
  injection e with e
  subst e
  with_reducible repeat' first
      | assumption | apply readAt_kept | refine Kept.upd ?_

end Sys2Proof.Machine
end

