-- ==== Sys2Proof/Laws/KeptObserve.lean ====
section
/-!
SUPPORT. Laws/KeptObserve.lean: what each operation of Machine/Observe.lean keeps (Laws/Kept.lean).
-/

namespace Sys2Proof.Machine

set_option Elab.async false
set_option linter.unreachableTactic false
set_option linter.unusedTactic false

theorem capture_kept {al : Allow} {orig s : State}   (kept : Kept al orig s) : Kept al orig (capture s) := by
  dsimp -iota only [capture]
  with_reducible repeat' first
      | assumption | apply traceWrite_kept | apply foldState_kept | (intro _) | refine Kept.upd ?_

theorem latchHalo_kept {al : Allow} {orig s : State} {src : Nat} {snapId : Nat}  (kept : Kept al orig s) : Kept al orig (latchHalo s src snapId) := by
  dsimp -iota only [latchHalo]
  with_reducible repeat' first
      | assumption | apply capture_kept | (intro _) | split | refine Kept.upd ?_

theorem missHalo_kept {al : Allow} {orig s : State}   (kept : Kept al orig s) : Kept al orig (missHalo s) := by
  dsimp -iota only [missHalo]
  with_reducible repeat' first
      | assumption | refine Kept.upd ?_

theorem joinHalo_kept {al : Allow} {orig s : State} {src : Nat} {snapId : Nat}  (kept : Kept al orig s) : Kept al orig (joinHalo s src snapId) := by
  dsimp -iota only [joinHalo]
  with_reducible repeat' first
      | assumption | split | refine Kept.upd ?_

theorem haloLate_kept {al : Allow} {orig s : State} {src : Nat} {snapId : Nat} {fin : State} {x0 : Bool}  (kept : Kept al orig s) (e : haloLate s src snapId = (x0, fin)) : Kept al orig fin := by
  dsimp -iota only [haloLate] at e
  repeat' split at e
  all_goals try (simp only [Option.some.injEq, Prod.mk.injEq, reduceCtorEq] at e <;> obtain ⟨-, rfl⟩ := e)
  all_goals
    with_reducible repeat' first
        | assumption | apply missHalo_kept | apply joinHalo_kept | refine draw_kept ?_ (by assumption)
        | apply draw_proj | split | refine Kept.upd ?_

theorem haloLate_proj {al : Allow} {orig s : State} {src : Nat} {snapId : Nat}  (kept : Kept al orig s) : Kept al orig (haloLate s src snapId).2 := by
  rcases h : haloLate s src snapId with ⟨y0, y1⟩
  exact haloLate_kept kept h

theorem startDrain_kept {al : Allow} {orig s : State} {snapId : Nat} {seen : List AssocKey} {latched : Bool}  (kept : Kept al orig s) : Kept al orig (startDrain s snapId seen latched) := by
  dsimp -iota only [startDrain]
  with_reducible repeat' first
      | assumption | apply sendControl_kept | apply foldState_kept | (intro _) | split | refine Kept.upd ?_

theorem halo_kept {al : Allow} {orig s : State} {src : Nat}  (kept : Kept al orig s) : Kept al orig (halo s src) := by
  dsimp -iota only [halo]
  with_reducible repeat' first
      | assumption | apply latchHalo_kept | refine haloLate_kept ?_ (by assumption) | apply haloLate_proj
      | apply startDrain_kept | split | refine Kept.upd ?_

theorem haloDone_kept {al : Allow} {orig s : State} {d : Drain} {drained : Bool}  (kept : Kept al orig s) : Kept al orig (haloDone s d drained) := by
  dsimp -iota only [haloDone]
  with_reducible repeat' first
      | assumption | apply k2hPush_kept | apply sendControl_kept | apply foldState_kept | (intro _) | split
      | refine Kept.upd ?_

theorem haloMark_kept {al : Allow} {orig s : State} {src : Endpoint} {snapId : Nat} {treeEpoch : Nat}  (kept : Kept al orig s) : Kept al orig (haloMark s src snapId treeEpoch) := by
  dsimp -iota only [haloMark]
  with_reducible repeat' first
      | assumption | apply latchHalo_kept | refine haloLate_kept ?_ (by assumption) | apply haloLate_proj
      | apply startDrain_kept | (intro _) | split | refine Kept.upd ?_

theorem execHaloMark_kept {al : Allow} {orig s fin : State} {src : Endpoint} {snapId : Nat} {treeEpoch : Nat}  (kept : Kept al orig s) (e : execHaloMark src snapId treeEpoch s = .next fin) : Kept al orig fin := by
  dsimp -iota only [execHaloMark] at e
  injection e with e
  subst e
  with_reducible repeat' first
      | assumption | apply haloMark_kept | apply takeKind_kept | apply discard_kept | split | refine Kept.upd ?_

theorem execHaloDrainDone_kept {al : Allow} {orig s fin : State}   (kept : Kept al orig s) (e : execHaloDrainDone s = .next fin) : Kept al orig fin := by
  dsimp -iota only [execHaloDrainDone] at e
  injection e with e
  subst e
  with_reducible repeat' first
      | assumption | apply haloDone_kept | split | refine Kept.upd ?_

theorem execHaloDrainTimeout_kept {al : Allow} {orig s fin : State}   (kept : Kept al orig s) (e : execHaloDrainTimeout s = .next fin) : Kept al orig fin := by
  dsimp -iota only [execHaloDrainTimeout] at e
  injection e with e
  subst e
  with_reducible repeat' first
      | assumption | apply haloDone_kept | (intro _) | split | refine Kept.upd ?_

theorem execSnapGo_kept {al : Allow} {orig s fin : State}   (kept : Kept al orig s) (e : execSnapGo s = .next fin) : Kept al orig fin := by
  dsimp -iota only [execSnapGo] at e
  injection e with e
  subst e
  with_reducible repeat' first
      | assumption | apply halo_kept | apply regEnter_kept | (intro _) | refine Kept.upd ?_

theorem snapRelease_kept {al : Allow} {orig s : State}   (kept : Kept al orig s) : Kept al orig (snapRelease s) := by
  dsimp -iota only [snapRelease]
  with_reducible repeat' first
      | assumption | split | refine Kept.upd ?_

theorem execSnapRelease_kept {al : Allow} {orig s fin : State}   (kept : Kept al orig s) (e : execSnapRelease s = .next fin) : Kept al orig fin := by
  dsimp -iota only [execSnapRelease] at e
  injection e with e
  subst e
  with_reducible repeat' first
      | assumption | apply snapRelease_kept | apply regEnter_kept | (intro _) | refine Kept.upd ?_

theorem execHaloIn_kept {al : Allow} {orig s fin : State} {ticks : Nat}  (kept : Kept al orig s) (e : execHaloIn ticks s = .next fin) : Kept al orig fin := by
  dsimp -iota only [execHaloIn] at e
  injection e with e
  subst e
  with_reducible repeat' first
      | assumption | apply halo_kept | split | refine Kept.upd ?_

theorem mailError_kept {al : Allow} {orig s : State} {reason : Nat} {tag : Nat}  (kept : Kept al orig s) : Kept al orig (mailError s reason tag) := by
  dsimp -iota only [mailError]
  with_reducible repeat' first
      | assumption | apply k2hPush_kept | refine Kept.upd ?_

theorem mailJudge_kept {al : Allow} {orig s : State}   (kept : Kept al orig s) : Kept al orig (mailJudge s) := by
  dsimp -iota only [mailJudge]
  with_reducible repeat' first
      | assumption | apply mailError_kept | split | refine Kept.upd ?_

theorem mailTake_kept {al : Allow} {orig s : State}   (kept : Kept al orig s) : Kept al orig (mailTake s) := by
  dsimp -iota only [mailTake]
  with_reducible repeat' first
      | assumption | apply mailJudge_kept | split | refine Kept.upd ?_

theorem mailDrain_kept {al : Allow} {orig s : State}   (kept : Kept al orig s) : Kept al orig (mailDrain s) := by
  dsimp -iota only [mailDrain]
  with_reducible repeat' first
      | assumption | apply mailTake_kept | apply iter_kept | (intro _) | refine Kept.upd ?_

theorem mailWrite_kept {al : Allow} {orig s : State} {w : Word32} {last : Bool}  (kept : Kept al orig s) : Kept al orig (mailWrite s w last) := by
  dsimp -iota only [mailWrite]
  with_reducible repeat' first
      | assumption | apply mailError_kept | apply mailDrain_kept | split | refine Kept.upd ?_

theorem execH2kWord_kept {al : Allow} {orig s fin : State} {w : Word32}  (kept : Kept al orig s) (e : execH2kWord w s = .next fin) : Kept al orig fin := by
  dsimp -iota only [execH2kWord] at e
  injection e with e
  subst e
  with_reducible repeat' first
      | assumption | apply mailWrite_kept | apply regEnter_kept | (intro _) | refine Kept.upd ?_

theorem execH2kLast_kept {al : Allow} {orig s fin : State} {w : Word32}  (kept : Kept al orig s) (e : execH2kLast w s = .next fin) : Kept al orig fin := by
  dsimp -iota only [execH2kLast] at e
  injection e with e
  subst e
  with_reducible repeat' first
      | assumption | apply mailWrite_kept | apply regEnter_kept | (intro _) | refine Kept.upd ?_

theorem mailNext_kept {al : Allow} {orig s : State}   (kept : Kept al orig s) : Kept al orig (mailNext s) := by
  dsimp -iota only [mailNext]
  with_reducible repeat' first
      | assumption | apply mailDrain_kept | refine Kept.upd ?_

theorem onMail_kept {al : Allow} {orig s : State} {kind : Nat} {f : State → List Word32 → State} (h_f : ∀ t y0, Kept al orig t → Kept al orig (f t y0)) (kept : Kept al orig s) : Kept al orig (onMail s kind f) := by
  dsimp -iota only [onMail]
  with_reducible repeat' first
      | assumption | apply mailNext_kept | apply h_f | (intro _) | split | refine Kept.upd ?_

theorem mapChunk_kept {al : Allow} {orig s : State} {ws : List Word32} (hfence : al.fence = true) (kept : Kept al orig s) :
    Kept al orig (mapChunk s ws) := by
  unfold mapChunk
  extract_lets off total have_ buf ml r
  split
  · exact mailError_kept kept
  · split
    · have kr : Kept al orig r.1 := installMap_proj hfence kept.upd
      clear_value r
      exact k2hPush_kept kr
    · exact kept.upd
theorem execMapChunk_kept {al : Allow} {orig s fin : State}  (hfence : al.fence = true) (kept : Kept al orig s) (e : execMapChunk s = .next fin) : Kept al orig fin := by
  dsimp -iota only [execMapChunk] at e
  injection e with e
  subst e
  with_reducible repeat' first
      | assumption | apply onMail_kept | apply mapChunk_kept | (intro _) | refine Kept.upd ?_

theorem execMailboxRenew_kept {al : Allow} {orig s fin : State}   (kept : Kept al orig s) (e : execMailboxRenew s = .next fin) : Kept al orig fin := by
  dsimp -iota only [execMailboxRenew] at e
  injection e with e
  subst e
  with_reducible repeat' first
      | assumption | apply onMail_kept | apply renewLease_kept | (intro _) | refine Kept.upd ?_

theorem execPing_kept {al : Allow} {orig s fin : State}   (kept : Kept al orig s) (e : execPing s = .next fin) : Kept al orig fin := by
  dsimp -iota only [execPing] at e
  injection e with e
  subst e
  with_reducible repeat' first
      | assumption | apply k2hPush_kept | apply onMail_kept | (intro _) | refine Kept.upd ?_

end Sys2Proof.Machine
end

