-- ==== Sys2Proof/Laws/KeptTrust.lean ====
section
/-!
SUPPORT. Laws/KeptTrust.lean: what each operation of Machine/Trust.lean keeps (Laws/Kept.lean).
-/

namespace Sys2Proof.Machine

set_option Elab.async false
set_option linter.unreachableTactic false
set_option linter.unusedTactic false

theorem managed_kept {al : Allow} {orig s : State} {f : State → State} (h_f : ∀ t, Kept al orig t → Kept al orig (f t)) (kept : Kept al orig s) : Kept al orig (managed s f) := by
  dsimp -iota only [managed]
  with_reducible repeat' first
      | assumption | apply h_f | (intro _) | split | refine Kept.put_trust ?_ | refine Kept.upd ?_

theorem extendSlot_kept {al : Allow} {orig s : State} {n : Nat} {m : List Byte} {rom : Bool}  (kept : Kept al orig s) : Kept al orig (extendSlot s n m rom) := by
  dsimp -iota only [extendSlot]
  with_reducible repeat' first
      | assumption | apply caskRec_kept | refine Kept.put_trust ?_ | refine Kept.upd ?_

theorem extendGo_kept {al : Allow} {orig s : State}   (kept : Kept al orig s) : Kept al orig (extendGo s) := by
  dsimp -iota only [extendGo]
  with_reducible repeat' first
      | assumption | apply managed_kept | apply extendSlot_kept | (intro _) | refine Kept.upd ?_

theorem execExtendGo_kept {al : Allow} {orig s fin : State}   (kept : Kept al orig s) (e : execExtendGo s = .next fin) : Kept al orig fin := by
  dsimp -iota only [execExtendGo] at e
  injection e with e
  subst e
  with_reducible repeat' first
      | assumption | apply extendGo_kept | apply regEnter_kept | (intro _) | refine Kept.upd ?_

theorem startSign_kept {al : Allow} {orig s : State}   (kept : Kept al orig s) : Kept al orig (startSign s) := by
  dsimp -iota only [startSign]
  with_reducible repeat' first
      | assumption | split | refine Kept.put_trust ?_ | refine Kept.upd ?_

theorem queueReport_kept {al : Allow} {orig s : State} {r : AttReq} {fin : State}   (kept : Kept al orig s) (e : queueReport s r = some fin) : Kept al orig fin := by
  dsimp -iota only [queueReport] at e
  repeat' split at e
  all_goals try (simp only [Option.some.injEq, Prod.mk.injEq, reduceCtorEq] at e <;> obtain rfl := e)
  all_goals
    with_reducible repeat' first
        | assumption | apply startSign_kept | split | refine Kept.put_trust ?_ | refine Kept.upd ?_

theorem attestAnswer_kept {al : Allow} {orig s : State} {e : Endpoint} {tag : Nat} {st : Status} {body : List Byte}  (kept : Kept al orig s) : Kept al orig (attestAnswer s e tag st body) := by
  dsimp -iota only [attestAnswer]
  with_reducible repeat' first
      | assumption | apply sendControl_kept | refine Kept.upd ?_

theorem attReport_kept {al : Allow} {orig s : State}   (kept : Kept al orig s) : Kept al orig (attReport s) := by
  dsimp -iota only [attReport]
  with_reducible repeat' first
      | assumption | refine queueReport_kept ?_ (by assumption) | split | refine Kept.put_trust ?_
      | refine Kept.upd ?_

theorem execAttReport_kept {al : Allow} {orig s fin : State}   (kept : Kept al orig s) (e : execAttReport s = .next fin) : Kept al orig fin := by
  dsimp -iota only [execAttReport] at e
  injection e with e
  subst e
  with_reducible repeat' first
      | assumption | apply attReport_kept | apply regEnter_kept | (intro _) | refine Kept.upd ?_

theorem attEndorse_kept {al : Allow} {orig s : State}   (kept : Kept al orig s) : Kept al orig (attEndorse s) := by
  dsimp -iota only [attEndorse]
  with_reducible repeat' first
      | assumption | split | refine Kept.put_trust ?_ | refine Kept.upd ?_

theorem execAttEndorse_kept {al : Allow} {orig s fin : State}   (kept : Kept al orig s) (e : execAttEndorse s = .next fin) : Kept al orig fin := by
  dsimp -iota only [execAttEndorse] at e
  injection e with e
  subst e
  with_reducible repeat' first
      | assumption | apply attEndorse_kept | apply regEnter_kept | (intro _) | refine Kept.upd ?_

theorem execAttestReq_kept {al : Allow} {orig s fin : State} {src : Endpoint} {reqTag : Nat} {what : Nat} {nonce : List Byte} {userData : List Byte}  (kept : Kept al orig s) (e : execAttestReq src reqTag what nonce userData s = .next fin) : Kept al orig fin := by
  dsimp -iota only [execAttestReq] at e
  injection e with e
  subst e
  with_reducible repeat' first
      | assumption | refine queueReport_kept ?_ (by assumption) | apply attestAnswer_kept | apply takeKind_kept
      | apply discard_kept | split | refine Kept.put_trust ?_ | refine Kept.upd ?_

theorem execSignatureDone_kept {al : Allow} {orig s fin : State} {signature : List Byte}  (kept : Kept al orig s) (e : execSignatureDone signature s = .next fin) : Kept al orig fin := by
  dsimp -iota only [execSignatureDone] at e
  injection e with e
  subst e
  with_reducible repeat' first
      | assumption | apply startSign_kept | apply attestAnswer_kept | (intro _) | split | refine Kept.put_trust ?_
      | refine Kept.upd ?_

theorem kemLink_kept {al : Allow} {orig s : State}   (kept : Kept al orig s) : Kept al orig (kemLink s) := by
  dsimp -iota only [kemLink]
  with_reducible repeat' first
      | assumption | refine Kept.put_trust ?_ | refine Kept.upd ?_

theorem execKemLink_kept {al : Allow} {orig s fin : State}   (kept : Kept al orig s) (e : execKemLink s = .next fin) : Kept al orig fin := by
  dsimp -iota only [execKemLink] at e
  injection e with e
  subst e
  with_reducible repeat' first
      | assumption | apply kemLink_kept | apply regEnter_kept | (intro _) | refine Kept.upd ?_

theorem kemInstall_kept {al : Allow} {orig s : State}   (kept : Kept al orig s) : Kept al orig (kemInstall s) := by
  dsimp -iota only [kemInstall]
  with_reducible repeat' first
      | assumption | apply managed_kept | (intro _) | split | refine Kept.put_trust ?_ | refine Kept.upd ?_

theorem execKemInstall_kept {al : Allow} {orig s fin : State}   (kept : Kept al orig s) (e : execKemInstall s = .next fin) : Kept al orig fin := by
  dsimp -iota only [execKemInstall] at e
  injection e with e
  subst e
  with_reducible repeat' first
      | assumption | apply kemInstall_kept | apply regEnter_kept | (intro _) | refine Kept.upd ?_

theorem modTenant_kept {al : Allow} {orig s : State} {n : Nat} {f : Tenant → Tenant}  (kept : Kept al orig s) : Kept al orig (modTenant s n f) := by
  dsimp -iota only [modTenant]
  with_reducible repeat' first
      | assumption | refine Kept.put_trust ?_ | refine Kept.upd ?_

theorem retireChained_kept {al : Allow} {orig s : State} {c : Command}  (kept : Kept al orig s) : Kept al orig (retireChained s c) := by
  dsimp -iota only [retireChained]
  with_reducible repeat' first
      | assumption | apply sendControl_kept | split | refine Kept.upd ?_

theorem retireHeld_kept {al : Allow} {orig s : State} {t : Nat} (kept : Kept al orig s) : Kept al orig (retireHeld s t) := by
  unfold retireHeld
  extract_lets mine held c1 s1
  have k1 : Kept al orig s1 := kept.upd
  refine foldState_kept (fun s2 c h => ?_) k1
  refine retireChained_kept ?_
  split
  · exact dropOutcome_kept (dropLive_kept h)
  · exact h
theorem retireWaiting_kept {al : Allow} {orig s : State} {t : Nat}  (kept : Kept al orig s) : Kept al orig (retireWaiting s t) := by
  dsimp -iota only [retireWaiting]
  with_reducible repeat' first
      | assumption | apply drainQueues_kept | apply retireChained_kept | apply retireHeld_kept
      | apply settleNew_kept | apply answer_kept | apply foldState_kept | (intro _) | split | refine Kept.upd ?_

theorem removeTenant_kept {al : Allow} {orig s : State} {t : Nat}  (kept : Kept al orig s) : Kept al orig (removeTenant s t) := by
  dsimp -iota only [removeTenant]
  with_reducible repeat' first
      | assumption | apply retireWaiting_kept | apply caskNote_kept | apply discardGuest_kept | apply evictSeq_kept
      | apply deleteRegion_kept | apply foldState_kept | (intro _) | refine Kept.put_trust ?_ | refine Kept.upd ?_

theorem tenantRemove_kept {al : Allow} {orig s : State}   (kept : Kept al orig s) : Kept al orig (tenantRemove s) := by
  dsimp -iota only [tenantRemove]
  with_reducible repeat' first
      | assumption | apply managed_kept | apply removeTenant_kept | (intro _) | split | refine Kept.put_trust ?_
      | refine Kept.upd ?_

theorem execTenantRemove_kept {al : Allow} {orig s fin : State}   (kept : Kept al orig s) (e : execTenantRemove s = .next fin) : Kept al orig fin := by
  dsimp -iota only [execTenantRemove] at e
  injection e with e
  subst e
  with_reducible repeat' first
      | assumption | apply tenantRemove_kept | apply regEnter_kept | (intro _) | refine Kept.upd ?_

theorem stopSealed_kept {al : Allow} {orig s : State} {t : Nat}  (kept : Kept al orig s) : Kept al orig (stopSealed s t) := by
  dsimp -iota only [stopSealed]
  with_reducible repeat' first
      | assumption | apply codecEnd_kept | apply foldState_kept | (intro _) | split | refine Kept.put_mem ?_
      | refine Kept.upd ?_

theorem eraseKeys_kept {al : Allow} {orig s : State} {t : Nat}  (kept : Kept al orig s) : Kept al orig (eraseKeys s t) := by
  dsimp -iota only [eraseKeys]
  with_reducible repeat' first
      | assumption | apply modTenant_kept | apply stopSealed_kept | apply tenantAbsent_kept | (intro _) | split
      | refine Kept.upd ?_

theorem execDrainFence_kept {al : Allow} {orig s fin : State} {engine : Fin 32} {tenant : Nat}  (kept : Kept al orig s) (e : execDrainFence engine tenant s = .next fin) : Kept al orig fin := by
  dsimp -iota only [execDrainFence] at e
  injection e with e
  subst e
  with_reducible repeat' first
      | assumption | apply modTenant_kept | apply eraseKeys_kept | (intro _) | split | refine Kept.upd ?_

theorem execKeyDrainExpiry_kept {al : Allow} {orig s fin : State} {tenant : Nat}  (kept : Kept al orig s) (e : execKeyDrainExpiry tenant s = .next fin) : Kept al orig fin := by
  dsimp -iota only [execKeyDrainExpiry] at e
  injection e with e
  subst e
  with_reducible repeat' first
      | assumption | apply eraseKeys_kept | split | refine Kept.upd ?_

end Sys2Proof.Machine
end

