-- ==== Sys2Proof/Laws/KeptFaults.lean ====
section
/-!
SUPPORT. Laws/KeptFaults.lean: what each operation of Machine/Faults.lean keeps (Laws/Kept.lean).
-/

namespace Sys2Proof.Machine

set_option Elab.async false
set_option linter.unreachableTactic false
set_option linter.unusedTactic false

theorem faultRecord_kept {al : Allow} {orig s : State} {kind : Nat} {ev : FaultEv} {sev : Nat} {escalated : Bool} {actions : Nat}  (kept : Kept al orig s) : Kept al orig (faultRecord s kind ev sev escalated actions) := by
  dsimp -iota only [faultRecord]
  with_reducible repeat' first
      | assumption | apply caskRec_kept | refine Kept.upd ?_

theorem cipherOut_kept {al : Allow} {orig s : State} {n : Nat}  (kept : Kept al orig s) : Kept al orig (cipherOut s n) := by
  dsimp -iota only [cipherOut]
  with_reducible repeat' first
      | assumption | apply caskAction_kept | apply modSub_kept | apply foldState_kept | (intro _) | split
      | refine Kept.put_fault ?_ | refine Kept.upd ?_

theorem isolateUnit_kept {al : Allow} {orig s : State} {u : UnitRef}  (kept : Kept al orig s) : Kept al orig (isolateUnit s u) := by
  dsimp -iota only [isolateUnit]
  with_reducible repeat' first
      | assumption | apply cipherOut_kept | apply laneOut_kept | apply disableChannel_kept | apply tileOut_kept
      | apply caskAction_kept | apply modFab_kept | apply modSub_kept | (intro _) | split | refine Kept.upd ?_

theorem swapUnit_kept {al : Allow} {orig s : State} {u : UnitRef}  (kept : Kept al orig s) : Kept al orig (swapUnit s u) := by
  dsimp -iota only [swapUnit]
  with_reducible repeat' first
      | assumption | apply unitReplace_kept | apply tileReplace_kept | apply laneReplace_kept | split
      | refine Kept.upd ?_

theorem unitActions_kept {al : Allow} {orig s : State} {ev : FaultEv} {actions : Nat}  (kept : Kept al orig s) : Kept al orig (unitActions s ev actions) := by
  dsimp -iota only [unitActions]
  with_reducible repeat' first
      | assumption | apply isolateUnit_kept | apply swapUnit_kept | split | refine Kept.upd ?_

theorem setSticky_kept {al : Allow} {orig s : State} {ev : FaultEv} {sev : Nat} {escalated : Bool} {actions : Nat}  (kept : Kept al orig s) : Kept al orig (setSticky s ev sev escalated actions) := by
  dsimp -iota only [setSticky]
  with_reducible repeat' first
      | assumption | apply faultRecord_kept | apply modSrc_kept | (intro _) | split | refine Kept.put_fault ?_
      | refine Kept.upd ?_

theorem logEvent_kept {al : Allow} {orig s : State} {ev : FaultEv} {sev : Nat} {escalated : Bool} {first : Bool} {actions : Nat}  (kept : Kept al orig s) : Kept al orig (logEvent s ev sev escalated first actions) := by
  dsimp -iota only [logEvent]
  with_reducible repeat' first
      | assumption | apply faultRecord_kept | apply modSrc_kept | (intro _) | split | refine Kept.upd ?_

theorem countEvent_kept {al : Allow} {orig s : State} {ev : FaultEv}  (kept : Kept al orig s) : Kept al orig (countEvent s ev) := by
  dsimp -iota only [countEvent]
  with_reducible repeat' first
      | assumption | apply modSrc_kept | (intro _) | split | refine Kept.upd ?_

theorem handleEvent_kept {al : Allow} {orig s : State} {ev : FaultEv}  (kept : Kept al orig s) : Kept al orig (handleEvent s ev) := by
  dsimp -iota only [handleEvent]
  with_reducible repeat' first
      | assumption | apply faultRecord_kept | apply unitActions_kept | apply setSticky_kept | apply logEvent_kept
      | apply countEvent_kept | apply fenceNode_kept | apply halo_kept | apply modSrc_kept | (intro _) | split
      | refine Kept.upd ?_

theorem windowEnd_kept {al : Allow} {orig s : State} {k : Nat}  (kept : Kept al orig s) : Kept al orig (windowEnd s k) := by
  dsimp -iota only [windowEnd]
  with_reducible repeat' first
      | assumption | apply modSrc_kept | apply foldState_kept | (intro _) | refine Kept.put_fault ?_
      | refine Kept.upd ?_

theorem execFaultWindowEnd_kept {al : Allow} {orig s fin : State} {window : Fin 16}  (kept : Kept al orig s) (e : execFaultWindowEnd window s = .next fin) : Kept al orig fin := by
  dsimp -iota only [execFaultWindowEnd] at e
  injection e with e
  subst e
  with_reducible repeat' first
      | assumption | apply windowEnd_kept | split | refine Kept.upd ?_

theorem selfCheck_kept {al : Allow} {orig s : State} {c : SelfCheck}  (kept : Kept al orig s) : Kept al orig (selfCheck s c) := by
  dsimp -iota only [selfCheck]
  with_reducible repeat' first
      | assumption | apply raise_kept | apply modQuad_kept | apply modFab_kept | (intro _) | split
      | refine Kept.upd ?_

theorem execFaultEvent_kept {al : Allow} {orig s0 fin : State} {check : Option SelfCheck}  (kept : Kept al orig s0) (e : execFaultEvent s0 check = .next fin) : Kept al orig fin := by
  dsimp -iota only [execFaultEvent] at e
  injection e with e
  subst e
  with_reducible repeat' first
      | assumption | apply handleEvent_kept | apply windowEnd_kept | apply selfCheck_kept | split
      | refine Kept.put_fault ?_ | refine Kept.upd ?_

theorem execEventLineDrop_kept {al : Allow} {orig s fin : State} {source : Fin 64}  (kept : Kept al orig s) (e : execEventLineDrop source s = .next fin) : Kept al orig fin := by
  dsimp -iota only [execEventLineDrop] at e
  injection e with e
  subst e
  with_reducible repeat' first
      | assumption | apply modSrc_kept | (intro _) | split | refine Kept.upd ?_

theorem execLogPeriodEnd_kept {al : Allow} {orig s fin : State} {source : Fin 64}  (kept : Kept al orig s) (e : execLogPeriodEnd source s = .next fin) : Kept al orig fin := by
  dsimp -iota only [execLogPeriodEnd] at e
  injection e with e
  subst e
  with_reducible repeat' first
      | assumption | apply modSrc_kept | apply caskNote_kept | (intro _) | split | refine Kept.upd ?_

theorem stickyClr_kept {al : Allow} {orig s : State} {high : Bool} {bits : Nat}  (kept : Kept al orig s) : Kept al orig (stickyClr s high bits) := by
  dsimp -iota only [stickyClr]
  with_reducible repeat' first
      | assumption | (intro _) | split | refine Kept.put_fault ?_ | refine Kept.upd ?_

theorem execStickyClr_kept {al : Allow} {orig s fin : State} {high : Bool} {bits : Word32}  (kept : Kept al orig s) (e : execStickyClr high bits s = .next fin) : Kept al orig fin := by
  dsimp -iota only [execStickyClr] at e
  injection e with e
  subst e
  with_reducible repeat' first
      | assumption | apply stickyClr_kept | apply regEnter_kept | (intro _) | refine Kept.upd ?_

theorem injArm_kept {al : Allow} {orig s : State}   (kept : Kept al orig s) : Kept al orig (injArm s) := by
  dsimp -iota only [injArm]
  with_reducible repeat' first
      | assumption | split | refine Kept.put_fault ?_ | refine Kept.upd ?_

theorem execInjArm_kept {al : Allow} {orig s fin : State}   (kept : Kept al orig s) (e : execInjArm s = .next fin) : Kept al orig fin := by
  dsimp -iota only [execInjArm] at e
  injection e with e
  subst e
  with_reducible repeat' first
      | assumption | apply injArm_kept | apply regEnter_kept | (intro _) | refine Kept.upd ?_

theorem injDisarm_kept {al : Allow} {orig s : State}   (kept : Kept al orig s) : Kept al orig (injDisarm s) := by
  dsimp -iota only [injDisarm]
  with_reducible repeat' first
      | assumption | split | refine Kept.put_fault ?_ | refine Kept.upd ?_

theorem execInjDisarm_kept {al : Allow} {orig s fin : State}   (kept : Kept al orig s) (e : execInjDisarm s = .next fin) : Kept al orig fin := by
  dsimp -iota only [execInjDisarm] at e
  injection e with e
  subst e
  with_reducible repeat' first
      | assumption | apply injDisarm_kept | apply regEnter_kept | (intro _) | refine Kept.upd ?_

theorem caskRead_kept {al : Allow} {orig s : State}   (kept : Kept al orig s) : Kept al orig (caskRead s) := by
  dsimp -iota only [caskRead]
  with_reducible repeat' first
      | assumption | (intro _) | split | refine Kept.put_cask ?_ | refine Kept.upd ?_

theorem execCaskRead_kept {al : Allow} {orig s fin : State}   (kept : Kept al orig s) (e : execCaskRead s = .next fin) : Kept al orig fin := by
  dsimp -iota only [execCaskRead] at e
  injection e with e
  subst e
  with_reducible repeat' first
      | assumption | apply caskRead_kept | apply regEnter_kept | (intro _) | refine Kept.upd ?_

theorem caskWriteHead_kept {al : Allow} {orig s : State} {bad : Bool} (kept : Kept al orig s) :
    Kept al orig (caskWriteHead s bad) := by
  unfold caskWriteHead
  split
  · exact kept
  · exact kept.setCask (Nat.le_refl _)
theorem caskAdmit_kept {al : Allow} {orig s : State} (kept : Kept al orig s) : Kept al orig (caskAdmit s) := by
  unfold caskAdmit
  split
  · exact kept
  · rename_i r rest hr
    split
    · have h := kept.setCask (caskPlace_nextSeq { s.cask with waiting := rest } r)
      generalize caskPlace { s.cask with waiting := rest } r = c at h ⊢
      dsimp only
      split
      · exact raise_kept h
      · exact h
    · exact kept
theorem execCaskRecordWrite_kept {al : Allow} {orig s fin : State}   (kept : Kept al orig s) (e : execCaskRecordWrite s = .next fin) : Kept al orig fin := by
  dsimp -iota only [execCaskRecordWrite] at e
  injection e with e
  subst e
  with_reducible repeat' first
      | assumption | apply caskWriteHead_kept | apply caskAdmit_kept | refine fireInj_kept ?_ (by assumption)
      | split | refine Kept.upd ?_

end Sys2Proof.Machine
end

