-- ==== Sys2Proof/Laws/KeptBoot.lean ====
section
/-!
SUPPORT. Laws/KeptBoot.lean: what each operation of Machine/Boot.lean keeps (Laws/Kept.lean).
-/

namespace Sys2Proof.Machine

set_option Elab.async false
set_option linter.unreachableTactic false
set_option linter.unusedTactic false

theorem setFlash_kept {al : Allow} {orig s : State} {m : Mem} (hflash : al.flash = true) (h : Kept al orig s)
    (hm : memWf 255 s.boot.flash = true → memWf 255 m = true) : Kept al orig (setFlash s m) :=
  ⟨h.pending, h.slots, fun w => hm (h.flashWf w), h.fuse, h.fenced, fun q => by simp [hflash] at q, h.regs, h.running,
    h.thermtrip, h.pinReset, h.cask, h.counter⟩
theorem useDirectory_kept {al : Allow} {orig s : State} {d : Directory}  (kept : Kept al orig s) : Kept al orig (useDirectory s d) := by
  dsimp -iota only [useDirectory]
  with_reducible repeat' first
      | assumption | refine Kept.put_boot ?_ | refine Kept.upd ?_

theorem writeDirectory_kept {al : Allow} {orig s : State} {active : Nat} {pending tried : Bool} (hflash : al.flash = true)
    (kept : Kept al orig s) : Kept al orig (writeDirectory s active pending tried) := by
  unfold writeDirectory
  extract_lets d
  exact useDirectory_kept (setFlash_kept hflash kept (fun w => memWriteN_wf _ _ w))
theorem wrReg_kept {al : Allow} {orig s : State} {a w : Nat} (hregs : al.regs = true) (h : Kept al orig s) :
    Kept al orig (wrReg s a w) :=
  ⟨h.pending, h.slots, h.flashWf, h.fuse, h.fenced, h.flash, fun q => by simp [hregs] at q, h.running, h.thermtrip,
    h.pinReset, h.cask, h.counter⟩

theorem storeReg_kept {al : Allow} {orig s : State} {a : Nat} {mask : Nat} {w : Nat} (hregs : al.regs = true)
    (kept : Kept al orig s) : Kept al orig (storeReg s a mask w) := by
  unfold storeReg
  extract_lets merge q sc u
  split
  · exact writeBind_kept kept
  · split
    · exact kept.upd
    · split
      · exact modGate_kept kept
      · exact wrReg_kept hregs kept
theorem applyRegs_kept {al : Allow} {orig s : State} {b : List Byte} (hregs : al.regs = true) (kept : Kept al orig s) :
    Kept al orig (applyRegs s b) := by
  unfold applyRegs
  exact foldState_kept (fun _ _ h => storeReg_kept hregs h) kept
theorem setStage_kept {al : Allow} {orig s : State} {state : Nat} {reason : Nat}  (kept : Kept al orig s) : Kept al orig (setStage s state reason) := by
  dsimp -iota only [setStage]
  with_reducible repeat' first
      | assumption | refine Kept.put_boot ?_ | refine Kept.upd ?_

theorem staging_kept {al : Allow} {orig s : State} {f : State → State} (h_f : ∀ t, Kept al orig t → Kept al orig (f t)) (kept : Kept al orig s) : Kept al orig (staging s f) := by
  dsimp -iota only [staging]
  with_reducible repeat' first
      | assumption | apply h_f | (intro _) | split | refine Kept.upd ?_

theorem startFlash_kept {al : Allow} {orig s : State} {op : FlashOp}  (kept : Kept al orig s) : Kept al orig (startFlash s op) := by
  dsimp -iota only [startFlash]
  with_reducible repeat' first
      | assumption | refine Kept.put_boot ?_ | refine Kept.upd ?_

theorem stgErase_kept {al : Allow} {orig s : State}   (kept : Kept al orig s) : Kept al orig (stgErase s) := by
  dsimp -iota only [stgErase]
  with_reducible repeat' first
      | assumption | apply setStage_kept | apply staging_kept | apply startFlash_kept | (intro _) | split
      | refine Kept.upd ?_

theorem stgWrite_kept {al : Allow} {orig s : State}   (kept : Kept al orig s) : Kept al orig (stgWrite s) := by
  dsimp -iota only [stgWrite]
  with_reducible repeat' first
      | assumption | apply setStage_kept | apply staging_kept | apply startFlash_kept | (intro _) | split
      | refine Kept.upd ?_

theorem stageFirmware_kept {al : Allow} {orig s : State}   (kept : Kept al orig s) : Kept al orig (stageFirmware s) := by
  dsimp -iota only [stageFirmware]
  with_reducible repeat' first
      | assumption | apply extendSlot_kept | apply setStage_kept | apply startFlash_kept | apply foldState_kept
      | (intro _) | split | refine Kept.upd ?_

theorem stageConfig_kept {al : Allow} {orig s : State}   (kept : Kept al orig s) : Kept al orig (stageConfig s) := by
  dsimp -iota only [stageConfig]
  with_reducible repeat' first
      | assumption | apply setStage_kept | split | refine Kept.upd ?_

theorem stgStage_kept {al : Allow} {orig s : State}   (kept : Kept al orig s) : Kept al orig (stgStage s) := by
  dsimp -iota only [stgStage]
  with_reducible repeat' first
      | assumption | apply staging_kept | apply stageFirmware_kept | apply stageConfig_kept | (intro _) | split
      | refine Kept.upd ?_

theorem stgConfirm_kept {al : Allow} {orig s : State}   (kept : Kept al orig s) : Kept al orig (stgConfirm s) := by
  dsimp -iota only [stgConfirm]
  with_reducible repeat' first
      | assumption | apply setStage_kept | apply staging_kept | apply startFlash_kept | (intro _) | split
      | refine Kept.upd ?_

theorem stgCancel_kept {al : Allow} {orig s : State}   (kept : Kept al orig s) : Kept al orig (stgCancel s) := by
  dsimp -iota only [stgCancel]
  with_reducible repeat' first
      | assumption | apply staging_kept | apply startFlash_kept | (intro _) | refine Kept.upd ?_

theorem execStgErase_kept {al : Allow} {orig s fin : State}   (kept : Kept al orig s) (e : execStgErase s = .next fin) : Kept al orig fin := by
  dsimp -iota only [execStgErase] at e
  injection e with e
  subst e
  with_reducible repeat' first
      | assumption | apply regEnter_kept | apply stgErase_kept | (intro _) | refine Kept.upd ?_

theorem execStgWrite_kept {al : Allow} {orig s fin : State}   (kept : Kept al orig s) (e : execStgWrite s = .next fin) : Kept al orig fin := by
  dsimp -iota only [execStgWrite] at e
  injection e with e
  subst e
  with_reducible repeat' first
      | assumption | apply regEnter_kept | apply stgWrite_kept | (intro _) | refine Kept.upd ?_

theorem execStgStage_kept {al : Allow} {orig s fin : State}   (kept : Kept al orig s) (e : execStgStage s = .next fin) : Kept al orig fin := by
  dsimp -iota only [execStgStage] at e
  injection e with e
  subst e
  with_reducible repeat' first
      | assumption | apply regEnter_kept | apply stgStage_kept | (intro _) | refine Kept.upd ?_

theorem execStgConfirm_kept {al : Allow} {orig s fin : State}   (kept : Kept al orig s) (e : execStgConfirm s = .next fin) : Kept al orig fin := by
  dsimp -iota only [execStgConfirm] at e
  injection e with e
  subst e
  with_reducible repeat' first
      | assumption | apply regEnter_kept | apply stgConfirm_kept | (intro _) | refine Kept.upd ?_

theorem execStgCancel_kept {al : Allow} {orig s fin : State}   (kept : Kept al orig s) (e : execStgCancel s = .next fin) : Kept al orig fin := by
  dsimp -iota only [execStgCancel] at e
  injection e with e
  subst e
  with_reducible repeat' first
      | assumption | apply regEnter_kept | apply stgCancel_kept | (intro _) | refine Kept.upd ?_

theorem flashDone_kept {al : Allow} {orig s : State} {op : FlashOp} (hflash : al.flash = true) (kept : Kept al orig s) :
    Kept al orig (flashDone s op) := by
  unfold flashDone
  split
  · exact setStage_kept (setFlash_kept hflash kept (fun w => memClear_wf _ _ w))
  · exact setStage_kept (setFlash_kept hflash kept (fun w => memWriteN_wf _ _ w))
  · exact setStage_kept (writeDirectory_kept hflash kept)
  · exact setStage_kept (writeDirectory_kept hflash kept)
  · exact setStage_kept (writeDirectory_kept hflash kept)
theorem execFlashOperationDone_kept {al : Allow} {orig s fin : State} {ok : Bool} (hflash : al.flash = true) (kept : Kept al orig s) (e : execFlashOperationDone ok s = .next fin) : Kept al orig fin := by
  dsimp -iota only [execFlashOperationDone] at e
  injection e with e
  subst e
  with_reducible repeat' first
      | assumption | apply setStage_kept | apply flashDone_kept | (intro _) | split | refine Kept.put_boot ?_
      | refine Kept.upd ?_

theorem ownFuse_kept {al : Allow} {orig s : State} (h : Kept al orig s) : Kept al orig (ownFuse s) := by
  unfold ownFuse
  split
  · exact h.upd
  · split
    · exact setStage_kept h
    · exact ⟨h.pending, h.slots, h.flashWf, fun _ => rfl, h.fenced, h.flash, h.regs, h.running, h.thermtrip, h.pinReset,
        h.cask, h.counter⟩
theorem execOwnFuse_kept {al : Allow} {orig s fin : State}   (kept : Kept al orig s) (e : execOwnFuse s = .next fin) : Kept al orig fin := by
  dsimp -iota only [execOwnFuse] at e
  injection e with e
  subst e
  with_reducible repeat' first
      | assumption | apply regEnter_kept | apply ownFuse_kept | (intro _) | refine Kept.upd ?_

theorem execRstSoft_kept {al : Allow} {orig s fin : State}  (hfence : al.fence = true) (kept : Kept al orig s) (e : execRstSoft s = .next fin) : Kept al orig fin := by
  dsimp -iota only [execRstSoft] at e
  injection e with e
  subst e
  with_reducible repeat' first
      | assumption | apply softReset_kept | apply regEnter_kept | (intro _) | refine Kept.upd ?_

theorem underReset_kept {al : Allow} {orig s : State} (hfence : al.fence = true) (hregs : al.regs = true)
    (hpower : al.power = true) (h : Kept al orig s) : Kept al orig (underReset s) :=
  ⟨h.pending, fun _ => rfl, h.flashWf, h.fuse, fun q => by simp [hfence] at q, h.flash, fun q => by simp [hregs] at q,
    fun q => by simp [hpower] at q, fun q => by simp [hpower] at q, fun q => by simp [hpower] at q,
    fun q => by simp [hpower] at q, fun q => by simp [hpower] at q⟩
theorem finishRecord_kept {al : Allow} {orig s : State}   (kept : Kept al orig s) : Kept al orig (finishRecord s) := by
  dsimp -iota only [finishRecord]
  with_reducible repeat' first
      | assumption | apply caskWriteHead_kept | split | refine Kept.put_cask ?_ | refine Kept.upd ?_

theorem execPerstNAssert_kept {al : Allow} {orig s fin : State}  (hfence : al.fence = true) (hregs : al.regs = true) (hpower : al.power = true) (kept : Kept al orig s) (e : execPerstNAssert s = .next fin) : Kept al orig fin := by
  dsimp -iota only [execPerstNAssert] at e
  injection e with e
  subst e
  with_reducible repeat' first
      | assumption | apply underReset_kept | apply finishRecord_kept | (intro _) | refine Kept.upd ?_

theorem caskScan_kept {al : Allow} {orig s : State} (hpower : al.power = true) (h : Kept al orig s) :
    Kept al orig (caskScan s) :=
  ⟨h.pending, h.slots, h.flashWf, h.fuse, h.fenced, h.flash, h.regs, h.running, h.thermtrip, h.pinReset,
    fun q => by simp [hpower] at q, h.counter⟩
theorem atStep_kept {al : Allow} {orig s : State} {env : BootEnv} {k : Nat} (h : Kept al orig s) :
    Kept al orig (atStep env k s) :=
  ⟨h.pending, h.slots, h.flashWf, h.fuse, h.fenced, h.flash, h.regs, h.running, h.thermtrip, h.pinReset, h.cask,
    fun q => (h.counter q).trans (Nat.le_max_left _ _)⟩
theorem bootFailed_kept {al : Allow} {orig s : State} {bound : Bool} {k : Nat}  (kept : Kept al orig s) : Kept al orig (bootFailed bound k s) := by
  dsimp -iota only [bootFailed]
  with_reducible repeat' first
      | assumption | apply raise_kept | apply caskRec_kept | refine Kept.put_boot ?_ | refine Kept.upd ?_

theorem bootStep_kept {al : Allow} {orig s : State} {env : BootEnv} {k : Nat} {f : State → State} (h_f : ∀ t, Kept al orig t → Kept al orig (f t)) (kept : Kept al orig s) : Kept al orig (bootStep env k f s) := by
  dsimp -iota only [bootStep]
  with_reducible repeat' first
      | assumption | apply atStep_kept | apply bootFailed_kept | apply h_f | (intro _) | split | refine Kept.upd ?_

theorem bootStart_kept {al : Allow} {orig s : State}  (hpower : al.power = true) (kept : Kept al orig s) : Kept al orig (bootStart s) := by
  dsimp -iota only [bootStart]
  with_reducible repeat' first
      | assumption | apply caskRec_kept | apply caskScan_kept | (intro _) | refine Kept.put_trust ?_
      | refine Kept.upd ?_

theorem bootFuses_kept {al : Allow} {orig s : State}   (kept : Kept al orig s) : Kept al orig (bootFuses s) := by
  dsimp -iota only [bootFuses]
  with_reducible repeat' first
      | assumption | apply extendSlot_kept | refine Kept.put_trust ?_ | refine Kept.upd ?_

theorem rollBack_kept {al : Allow} {orig s : State} {step : Nat} (hflash : al.flash = true) (kept : Kept al orig s) : Kept al orig (rollBack step s) := by
  dsimp -iota only [rollBack]
  with_reducible repeat' first
      | assumption | apply caskRec_kept | apply writeDirectory_kept | (intro _) | refine Kept.put_boot ?_
      | refine Kept.upd ?_

theorem bootBank_kept {al : Allow} {orig s : State}  (hflash : al.flash = true) (kept : Kept al orig s) : Kept al orig (bootBank s) := by
  dsimp -iota only [bootBank]
  with_reducible repeat' first
      | assumption | apply useDirectory_kept | apply writeDirectory_kept | apply rollBack_kept | (intro _) | split
      | refine Kept.put_boot ?_ | refine Kept.upd ?_

theorem startKiln_kept {al : Allow} {orig s : State} {l : List (List Byte × Nat)}  (kept : Kept al orig s) : Kept al orig (startKiln s l) := by
  dsimp -iota only [startKiln]
  with_reducible repeat' first
      | assumption | apply extendSlot_kept | apply foldState_kept | (intro _) | refine Kept.put_trust ?_
      | refine Kept.put_boot ?_ | refine Kept.upd ?_

theorem romSafe_kept {al : Allow} {orig s : State}   (kept : Kept al orig s) : Kept al orig (romSafe s) := by
  dsimp -iota only [romSafe]
  with_reducible repeat' first
      | assumption | apply caskRec_kept | refine Kept.put_boot ?_ | refine Kept.upd ?_

theorem bootImages_kept {al : Allow} {orig s : State}  (hflash : al.flash = true) (kept : Kept al orig s) : Kept al orig (bootImages s) := by
  dsimp -iota only [bootImages]
  with_reducible repeat' first
      | assumption | apply rollBack_kept | apply startKiln_kept | apply romSafe_kept | (intro _) | split
      | refine Kept.upd ?_

theorem configRecord_kept {al : Allow} {orig s : State} {result : Nat} {slot : Nat} {reason : Nat} {seq : Nat} {detail : Nat}  (kept : Kept al orig s) : Kept al orig (configRecord s result slot reason seq detail) := by
  dsimp -iota only [configRecord]
  with_reducible repeat' first
      | assumption | apply caskNote_kept | refine Kept.upd ?_

theorem applyImage_kept {al : Allow} {orig s : State} {slot : Nat} {b : List Byte} (hregs : al.regs = true) (kept : Kept al orig s) : Kept al orig (applyImage s slot b) := by
  dsimp -iota only [applyImage]
  with_reducible repeat' first
      | assumption | apply extendSlot_kept | apply modGate_kept | apply applyRegs_kept | apply configRecord_kept
      | apply foldState_kept | (intro _) | split | refine Kept.put_fault ?_ | refine Kept.put_boot ?_
      | refine Kept.upd ?_

theorem configSafe_kept {al : Allow} {orig s : State}   (kept : Kept al orig s) : Kept al orig (configSafe s) := by
  dsimp -iota only [configSafe]
  with_reducible repeat' first
      | assumption | apply extendSlot_kept | apply configRecord_kept | refine Kept.put_boot ?_ | refine Kept.upd ?_

theorem tryImages_kept {al : Allow} {orig : State} (hregs : al.regs = true) (l : List Nat) :
    ∀ {s : State}, Kept al orig s → Kept al orig (tryImages l s) := by
  induction l with
  | nil => exact fun h => configSafe_kept h
  | cons i is ih =>
    intro s h
    unfold tryImages
    extract_lets b r
    clear_value r
    split
    · exact applyImage_kept hregs h
    · exact ih (configRecord_kept h.put_boot)
theorem bootConfig_kept {al : Allow} {orig s : State} {env : BootEnv} (hfence : al.fence = true) (hregs : al.regs = true)
    (kept : Kept al orig s) : Kept al orig (bootConfig env s) := by
  unfold bootConfig
  extract_lets s1 t1 f1 s2 s3 t3 s4
  have k1 : Kept al orig s1 := tryImages_kept hregs _ kept
  clear_value s1
  have k2 : Kept al orig s2 :=
    ⟨k1.pending, k1.slots, k1.flashWf, k1.fuse, fun q => by simp [hfence] at q, k1.flash, k1.regs, k1.running, k1.thermtrip,
      k1.pinReset, k1.cask, k1.counter⟩
  clear_value s2
  have k3 : Kept al orig s3 := fenceNode_kept k2
  clear_value s3
  have k4 : Kept al orig s4 := by
    dsimp only [s4]
    split
    · exact fenceNode_kept (setLevel_kept k3.put_time)
    · exact k3
  clear_value s4
  split
  · exact k4
  · exact fenceNode_kept (setLevel_kept k4)
theorem calChannel_kept {al : Allow} {orig s : State} {c : StackCal} {st : Nat} {pc : Nat}  (kept : Kept al orig s) : Kept al orig (calChannel c st s pc) := by
  dsimp -iota only [calChannel]
  with_reducible repeat' first
      | assumption | apply modChan_kept | apply modFree_kept | (intro _) | split | refine Kept.upd ?_

theorem repairRows_kept {al : Allow} {orig s : State} {st : Nat} {repaired : Nat} {fin : State} {x0 : Nat}  (kept : Kept al orig s) (e : repairRows s st repaired = (x0, fin)) : Kept al orig fin := by
  dsimp -iota only [repairRows] at e
  repeat' split at e
  all_goals try (simp only [Option.some.injEq, Prod.mk.injEq, reduceCtorEq] at e <;> obtain ⟨-, rfl⟩ := e)
  all_goals
    with_reducible repeat' first
        | assumption | apply modFree_kept | apply foldState_kept | (intro _) | split | refine Kept.put_mem ?_
        | refine Kept.upd ?_

theorem repairRows_proj {al : Allow} {orig s : State} {st : Nat} {repaired : Nat}  (kept : Kept al orig s) : Kept al orig (repairRows s st repaired).2 := by
  rcases h : repairRows s st repaired with ⟨y0, y1⟩
  exact repairRows_kept kept h

theorem calStack_kept {al : Allow} {orig s00 : State} {env : BootEnv} {st : Nat}  (kept : Kept al orig s00) : Kept al orig (calStack env s00 st) := by
  dsimp -iota only [calStack]
  with_reducible repeat' first
      | assumption | apply raise_kept | apply caskNote_kept | apply modStack_kept | apply calChannel_kept
      | refine repairRows_kept ?_ (by assumption) | apply repairRows_proj | apply foldState_kept | (intro _) | split
      | refine Kept.upd ?_

theorem trainLp_kept {al : Allow} {orig s : State} {env : BootEnv} {c : Nat}  (kept : Kept al orig s) : Kept al orig (trainLp env s c) := by
  dsimp -iota only [trainLp]
  with_reducible repeat' first
      | assumption | apply raise_kept | split | refine Kept.put_mem ?_ | refine Kept.upd ?_

theorem bootMemory_kept {al : Allow} {orig s : State} {env : BootEnv}  (kept : Kept al orig s) : Kept al orig (bootMemory env s) := by
  dsimp -iota only [bootMemory]
  with_reducible repeat' first
      | assumption | apply setLevel_kept | apply calStack_kept | apply trainLp_kept | apply foldState_kept
      | (intro _) | refine Kept.upd ?_

theorem bootSelfTest_kept {al : Allow} {orig s : State} {env : BootEnv}  (kept : Kept al orig s) : Kept al orig (bootSelfTest env s) := by
  dsimp -iota only [bootSelfTest]
  with_reducible repeat' first
      | assumption | apply laneFail_kept | apply tileFails_kept | apply modQuad_kept | apply modCluster_kept
      | apply foldState_kept | (intro _) | split | refine Kept.upd ?_

theorem bootEndorse_kept {al : Allow} {orig s : State}   (kept : Kept al orig s) : Kept al orig (bootEndorse s) := by
  dsimp -iota only [bootEndorse]
  with_reducible repeat' first
      | assumption | refine draw_kept ?_ (by assumption) | apply draw_proj | split | refine Kept.put_trust ?_
      | refine Kept.upd ?_

theorem bootPorts_kept {al : Allow} {orig s : State} {env : BootEnv}  (kept : Kept al orig s) : Kept al orig (bootPorts env s) := by
  dsimp -iota only [bootPorts]
  with_reducible repeat' first
      | assumption | apply modSub_kept | apply laneReplace_kept | apply insertCartridge_kept | apply foldState_kept
      | (intro _) | split | refine Kept.upd ?_

theorem rebuildParked_kept {al : Allow} {orig s : State} {p : Nat}  (kept : Kept al orig s) : Kept al orig (rebuildParked s p) := by
  dsimp -iota only [rebuildParked]
  with_reducible repeat' first
      | assumption | apply setSeq_kept | apply foldState_kept | (intro _) | split | refine Kept.upd ?_

theorem bootReady_kept {al : Allow} {orig s : State}   (kept : Kept al orig s) : Kept al orig (bootReady s) := by
  dsimp -iota only [bootReady]
  with_reducible repeat' first
      | assumption | apply caskNote_kept | apply rebuildParked_kept | apply foldState_kept | (intro _)
      | refine Kept.put_boot ?_ | refine Kept.upd ?_

theorem bootUnits_kept {al : Allow} {orig s : State} {env : BootEnv}  (kept : Kept al orig s) : Kept al orig (bootUnits env s) := by
  dsimp -iota only [bootUnits]
  with_reducible repeat' first
      | assumption | apply atStep_kept | apply bootFailed_kept | apply bootMemory_kept | apply bootSelfTest_kept
      | apply bootEndorse_kept | apply bootPorts_kept | (intro _) | split | refine Kept.upd ?_

theorem startRun_kept {al : Allow} {orig s : State} {time : TimeSt} (hpower : al.power = true) (h : Kept al orig s) :
    Kept al orig { s with running := true, pack := { s.pack with pinReset := false }, time := time } :=
  ⟨h.pending, h.slots, h.flashWf, h.fuse, h.fenced, h.flash, h.regs, fun q => by simp [hpower] at q,
    fun q => by simp [hpower] at q, fun q => by simp [hpower] at q, h.cask, fun q => by simp [hpower] at q⟩

theorem powerUp_kept {al : Allow} {orig s : State} {env : BootEnv} (hfence : al.fence = true) (hflash : al.flash = true)
    (hregs : al.regs = true) (hpower : al.power = true) (kept : Kept al orig s) : Kept al orig (powerUp env s) := by
  unfold powerUp
  extract_lets p0 t0 s0 s1 s2
  have k0 : Kept al orig s0 := startRun_kept hpower kept
  clear_value s0
  have k1 : Kept al orig s1 := bootStep_kept (fun _ h => bootFuses_kept h) (bootStart_kept hpower k0)
  clear_value s1
  have k2 : Kept al orig s2 :=
    bootStep_kept (fun _ h => bootConfig_kept hfence hregs h)
      (bootStep_kept (fun _ h => bootImages_kept hflash h) (bootStep_kept (fun _ h => bootBank_kept hflash h) k1))
  clear_value s2
  exact bootStep_kept (fun _ h => bootReady_kept h) (bootUnits_kept k2)
theorem execPerstNDeassert_kept {al : Allow} {orig s fin : State} {env : BootEnv} (hfence : al.fence = true) (hflash : al.flash = true) (hregs : al.regs = true) (hpower : al.power = true) (kept : Kept al orig s) (e : execPerstNDeassert env s = .next fin) : Kept al orig fin := by
  dsimp -iota only [execPerstNDeassert] at e
  injection e with e
  subst e
  with_reducible repeat' first
      | assumption | apply powerUp_kept | (intro _) | split | refine Kept.upd ?_

end Sys2Proof.Machine
end

