-- ==== Sys2Proof/Laws/KeptPackage.lean ====
section
/-!
SUPPORT. Laws/KeptPackage.lean: what each operation of Machine/Package.lean keeps (Laws/Kept.lean).
-/

namespace Sys2Proof.Machine

set_option Elab.async false
set_option linter.unreachableTactic false
set_option linter.unusedTactic false

theorem endEastWork_kept {al : Allow} {orig s : State}   (kept : Kept al orig s) : Kept al orig (endEastWork s) := by
  dsimp -iota only [endEastWork]
  with_reducible repeat' first
      | assumption | apply dropWork_kept | apply complete_kept | apply foldState_kept | (intro _)
      | refine Kept.upd ?_

theorem bridgeCheck_kept {al : Allow} {orig s : State} {module : Nat}  (kept : Kept al orig s) : Kept al orig (bridgeCheck s module) := by
  dsimp -iota only [bridgeCheck]
  with_reducible repeat' first
      | assumption | apply fenceNode_kept | apply endEastWork_kept | apply setLevel_kept | split
      | refine Kept.put_time ?_ | refine Kept.upd ?_

theorem bridgeRetire_kept {al : Allow} {orig s : State} {ms : List Nat}  (kept : Kept al orig s) : Kept al orig (bridgeRetire s ms) := by
  dsimp -iota only [bridgeRetire]
  with_reducible repeat' first
      | assumption | apply bridgeCheck_kept | apply foldState_kept | (intro _) | refine Kept.put_time ?_
      | refine Kept.upd ?_

theorem bridgeRetry_kept {al : Allow} {orig s : State} {m : Nat}  (kept : Kept al orig s) : Kept al orig (bridgeRetry s m) := by
  dsimp -iota only [bridgeRetry]
  with_reducible repeat' first
      | assumption | apply bridgeRetire_kept | split | refine Kept.put_time ?_ | refine Kept.upd ?_

theorem execBridgeFlitRetry_kept {al : Allow} {orig s fin : State} {module : Fin 16}  (kept : Kept al orig s) (e : execBridgeFlitRetry module s = .next fin) : Kept al orig fin := by
  dsimp -iota only [execBridgeFlitRetry] at e
  injection e with e
  subst e
  with_reducible repeat' first
      | assumption | apply bridgeRetry_kept | refine fireInj_kept ?_ (by assumption) | split | refine Kept.upd ?_

theorem execCoreEPowerLoss_kept {al : Allow} {orig s fin : State}   (kept : Kept al orig s) (e : execCoreEPowerLoss s = .next fin) : Kept al orig fin := by
  dsimp -iota only [execCoreEPowerLoss] at e
  injection e with e
  subst e
  with_reducible repeat' first
      | assumption | apply bridgeRetire_kept | split | refine Kept.upd ?_

theorem qwaitTimeouts_kept {al : Allow} {orig s : State}   (kept : Kept al orig s) : Kept al orig (qwaitTimeouts s) := by
  dsimp -iota only [qwaitTimeouts]
  with_reducible repeat' first
      | assumption | apply drainQueues_kept | apply modQueue_kept | apply complete_kept | apply foldState_kept
      | (intro _) | split | refine Kept.upd ?_

theorem execComparatorFire_kept {al : Allow} {orig s fin : State} {n : Fin 64}  (kept : Kept al orig s) (e : execComparatorFire n s = .next fin) : Kept al orig fin := by
  dsimp -iota only [execComparatorFire] at e
  injection e with e
  subst e
  with_reducible repeat' first
      | assumption | apply windowEnd_kept | apply gateEnds_kept | apply detectorFires_kept | (intro _) | split
      | refine Kept.upd ?_

theorem markGo_kept {al : Allow} {orig s : State}   (kept : Kept al orig s) : Kept al orig (markGo s) := by
  dsimp -iota only [markGo]
  with_reducible repeat' first
      | assumption | apply caskNote_kept | refine Kept.put_time ?_ | refine Kept.upd ?_

theorem execMarkGo_kept {al : Allow} {orig s fin : State}   (kept : Kept al orig s) (e : execMarkGo s = .next fin) : Kept al orig fin := by
  dsimp -iota only [execMarkGo] at e
  injection e with e
  subst e
  with_reducible repeat' first
      | assumption | apply markGo_kept | apply regEnter_kept | (intro _) | refine Kept.upd ?_

theorem modRail_kept {al : Allow} {orig s : State} {die : Nat} {f : Rail → Rail}  (kept : Kept al orig s) : Kept al orig (modRail s die f) := by
  dsimp -iota only [modRail]
  with_reducible repeat' first
      | assumption | split | refine Kept.put_time ?_ | refine Kept.upd ?_

theorem noteIdle_kept {al : Allow} {orig s : State} {die : Nat}  (kept : Kept al orig s) : Kept al orig (noteIdle s die) := by
  dsimp -iota only [noteIdle]
  with_reducible repeat' first
      | assumption | apply modRail_kept | (intro _) | split | refine Kept.upd ?_

theorem railStep_kept {al : Allow} {orig s : State} {die : Nat}  (kept : Kept al orig s) : Kept al orig (railStep s die) := by
  dsimp -iota only [railStep]
  with_reducible repeat' first
      | assumption | apply modRail_kept | (intro _) | split | refine Kept.upd ?_

theorem execVpolicyStep_kept {al : Allow} {orig s fin : State} {die : Fin 2} {power : Nat}  (kept : Kept al orig s) (e : execVpolicyStep die power s = .next fin) : Kept al orig fin := by
  dsimp -iota only [execVpolicyStep] at e
  injection e with e
  subst e
  with_reducible repeat' first
      | assumption | apply modRail_kept | apply noteIdle_kept | apply railStep_kept | (intro _) | split
      | refine Kept.upd ?_

theorem voltageLevel_kept {al : Allow} {orig s : State}   (kept : Kept al orig s) : Kept al orig (voltageLevel s) := by
  dsimp -iota only [voltageLevel]
  with_reducible repeat' first
      | assumption | apply setLevel_kept | split | refine Kept.upd ?_

theorem execAvsNoAnswer_kept {al : Allow} {orig s fin : State} {die : Fin 2}  (kept : Kept al orig s) (e : execAvsNoAnswer die s = .next fin) : Kept al orig fin := by
  dsimp -iota only [execAvsNoAnswer] at e
  injection e with e
  subst e
  with_reducible repeat' first
      | assumption | apply modRail_kept | apply voltageLevel_kept | (intro _) | split | refine Kept.upd ?_

theorem execRegulatorAnswersAgain_kept {al : Allow} {orig s fin : State} {die : Fin 2}  (kept : Kept al orig s) (e : execRegulatorAnswersAgain die s = .next fin) : Kept al orig fin := by
  dsimp -iota only [execRegulatorAnswersAgain] at e
  injection e with e
  subst e
  with_reducible repeat' first
      | assumption | apply modRail_kept | apply voltageLevel_kept | (intro _) | split | refine Kept.upd ?_

theorem execLogicTempRead_kept {al : Allow} {orig s fin : State} {temps : List Nat}  (kept : Kept al orig s) (e : execLogicTempRead temps s = .next fin) : Kept al orig fin := by
  dsimp -iota only [execLogicTempRead] at e
  injection e with e
  subst e
  with_reducible repeat' first
      | assumption | apply prefixTemp_kept | apply setLevel_kept | split | refine Kept.put_pack ?_
      | refine Kept.upd ?_

theorem execThermtrip_kept {al : Allow} {orig s fin : State} (hpower : al.power = true) (kept : Kept al orig s)
    (e : execThermtrip s = .next fin) : Kept al orig fin := by
  unfold execThermtrip at e
  injection e with e
  subst e
  have h := finishRecord_kept kept
  exact ⟨h.pending, h.slots, h.flashWf, h.fuse, h.fenced, h.flash, h.regs, fun q => by simp [hpower] at q,
    fun q => by simp [hpower] at q, fun q => by simp [hpower] at q, h.cask, h.counter⟩
theorem execSensorWindowEnd_kept {al : Allow} {orig s fin : State} {powerMean : Nat} {logicMean : Nat} {hbmMean : Nat} {lpMean : Nat}  (kept : Kept al orig s) (e : execSensorWindowEnd powerMean logicMean hbmMean lpMean s = .next fin) : Kept al orig fin := by
  dsimp -iota only [execSensorWindowEnd] at e
  injection e with e
  subst e
  with_reducible repeat' first
      | assumption | split | refine Kept.put_pack ?_ | refine Kept.upd ?_

theorem execI3cRead_kept {al : Allow} {orig s fin : State} {offset : Nat} {len : Nat}  (kept : Kept al orig s) (e : execI3cRead offset len s = .next fin) : Kept al orig fin := by
  dsimp -iota only [execI3cRead] at e
  injection e with e
  subst e
  with_reducible repeat' first
      | assumption | split | refine Kept.put_pack ?_ | refine Kept.upd ?_

theorem execHlRefclkLoss_kept {al : Allow} {orig s fin : State}   (kept : Kept al orig s) (e : execHlRefclkLoss s = .next fin) : Kept al orig fin := by
  dsimp -iota only [execHlRefclkLoss] at e
  injection e with e
  subst e
  with_reducible repeat' first
      | assumption | apply fenceNode_kept | apply setLevel_kept | apply linkGoesDown_kept | split
      | refine Kept.put_time ?_ | refine Kept.upd ?_

theorem execHlRefclkReturn_kept {al : Allow} {orig s fin : State}   (kept : Kept al orig s) (e : execHlRefclkReturn s = .next fin) : Kept al orig fin := by
  dsimp -iota only [execHlRefclkReturn] at e
  injection e with e
  subst e
  with_reducible repeat' first
      | assumption | apply setLevel_kept | split | refine Kept.put_time ?_ | refine Kept.upd ?_

theorem execMemRefclkLoss_kept {al : Allow} {orig s fin : State} {clk : MemClock}  (kept : Kept al orig s) (e : execMemRefclkLoss clk s = .next fin) : Kept al orig fin := by
  dsimp -iota only [execMemRefclkLoss] at e
  injection e with e
  subst e
  with_reducible repeat' first
      | assumption | split | refine Kept.put_pack ?_ | refine Kept.upd ?_

theorem retrainLate_kept {al : Allow} {orig s : State} {y0 : MemClock}  (kept : Kept al orig s) : Kept al orig (retrainLate s y0) := by
  dsimp -iota only [retrainLate]
  with_reducible repeat' first
      | assumption | apply raise_kept | apply modStack_kept | apply foldState_kept | (intro _) | split
      | refine Kept.upd ?_

theorem execMemRefclkReturn_kept {al : Allow} {orig s fin : State} {clk : MemClock} {withinBound : Bool}  (kept : Kept al orig s) (e : execMemRefclkReturn clk withinBound s = .next fin) : Kept al orig fin := by
  dsimp -iota only [execMemRefclkReturn] at e
  injection e with e
  subst e
  with_reducible repeat' first
      | assumption | apply retrainLate_kept | (intro _) | split | refine Kept.put_pack ?_ | refine Kept.upd ?_

theorem execOtherRefclkLoss_kept {al : Allow} {orig s fin : State} {clk : RefClock}  (kept : Kept al orig s) (e : execOtherRefclkLoss clk s = .next fin) : Kept al orig fin := by
  dsimp -iota only [execOtherRefclkLoss] at e
  injection e with e
  subst e
  with_reducible repeat' first
      | assumption | apply bridgeRetire_kept | apply raise_kept | apply modSub_kept | apply setStage_kept
      | apply portGone_kept | apply foldState_kept | (intro _) | split | refine Kept.put_boot ?_
      | refine Kept.upd ?_

theorem execCoreWPowerLoss_kept {al : Allow} {orig s fin : State} (hpower : al.power = true) (kept : Kept al orig s)
    (e : execCoreWPowerLoss s = .next fin) : Kept al orig fin := by
  unfold execCoreWPowerLoss at e
  injection e with e
  subst e
  have h := finishRecord_kept kept
  exact ⟨h.pending, h.slots, h.flashWf, h.fuse, h.fenced, h.flash, h.regs, fun q => by simp [hpower] at q,
    fun q => by simp [hpower] at q, fun q => by simp [hpower] at q, h.cask, h.counter⟩
end Sys2Proof.Machine
end

