-- ==== Sys2Proof/Laws/KeptClock.lean ====
section
/-!
SUPPORT. Laws/KeptClock.lean: what each operation of Machine/Clock.lean keeps (Laws/Kept.lean).
-/

namespace Sys2Proof.Machine

set_option Elab.async false
set_option linter.unreachableTactic false
set_option linter.unusedTactic false

theorem eachOf_kept {al : Allow} {orig : State} {α : Type} {f : α → State → Out} {l : List α}
    (h : ∀ a t fin, Kept al orig t → f a t = .next fin → Kept al orig fin) {s : State} (kept : Kept al orig s) :
    Kept al orig (eachOf f l s) := by
  unfold eachOf
  refine foldState_kept (fun t a k => ?_) kept
  split
  · next t1 e => exact h a t t1 k e
  · exact k
  · exact k
theorem once_kept {al : Allow} {orig : State} {f : State → Out}
    (h : ∀ t fin, Kept al orig t → f t = .next fin → Kept al orig fin) {s : State} (kept : Kept al orig s) :
    Kept al orig (once f s) := eachOf_kept (fun _ => h) kept
theorem expireCommands_kept {al : Allow} {orig s : State}   (kept : Kept al orig s) : Kept al orig (expireCommands s) := by
  dsimp -iota only [expireCommands]
  with_reducible repeat' first
      | assumption | refine execCascadeTimeout_kept ?_ (by assumption)
      | refine execOutcomeExpiry_kept ?_ (by assumption) | refine execFrameReadDeadline_kept ?_ (by assumption)
      | refine execMergeTimeout_kept ?_ (by assumption) | refine execEarlyBufferExpiry_kept ?_ (by assumption)
      | refine execMashWaitExpiry_kept ?_ (by assumption) | refine execStageWaitExpiry_kept ?_ (by assumption)
      | refine execFallbackDeadline_kept ?_ (by assumption) | apply qwaitTimeouts_kept
      | refine execAppendBoundExpiry_kept ?_ (by assumption) | apply eachOf_kept | apply once_kept
      | apply foldState_kept | (intro _) | refine Kept.upd ?_

theorem expireFabric_kept {al : Allow} {orig s : State}   (kept : Kept al orig s) : Kept al orig (expireFabric s) := by
  dsimp -iota only [expireFabric]
  with_reducible repeat' first
      | assumption | refine execGraceEnd_kept ?_ (by assumption) | refine execLeaseExpiry_kept ?_ (by assumption)
      | refine execChainRetry_kept ?_ (by assumption) | refine execChainTimeout_kept ?_ (by assumption)
      | refine execRetransmitTimeout_kept ?_ (by assumption) | refine execAckCoalesceExpiry_kept ?_ (by assumption)
      | refine execPfcPauseExpiry_kept ?_ (by assumption) | refine execXoffRepeat_kept ?_ (by assumption)
      | refine execMemRdTimeout_kept ?_ (by assumption) | apply eachOf_kept | apply once_kept
      | refine execRecallTimeout_kept ?_ (by assumption) | (intro _) | refine Kept.upd ?_

theorem expireUnits_kept {al : Allow} {orig s : State}   (kept : Kept al orig s) : Kept al orig (expireUnits s) := by
  dsimp -iota only [expireUnits]
  with_reducible repeat' first
      | assumption | refine execEventLineDrop_kept ?_ (by assumption)
      | refine execLogPeriodEnd_kept ?_ (by assumption) | refine execPrefixRateRaise_kept ?_ (by assumption)
      | refine execKeyDrainExpiry_kept ?_ (by assumption) | refine execAgeSweep_kept ?_ (by assumption)
      | refine execQuotaRaise_kept ?_ (by assumption) | refine execBwdChainIdle_kept ?_ (by assumption)
      | refine execHaloDrainTimeout_kept ?_ (by assumption) | refine execParkCopyTimeout_kept ?_ (by assumption)
      | apply eachOf_kept | apply once_kept | (intro _) | refine Kept.upd ?_

theorem expireAll_kept {al : Allow} {orig s : State}   (kept : Kept al orig s) : Kept al orig (expireAll s) := by
  dsimp -iota only [expireAll]
  with_reducible repeat' first
      | assumption | apply expireCommands_kept | apply expireFabric_kept | apply expireUnits_kept
      | refine Kept.upd ?_

theorem tick_kept {al : Allow} {orig s : State} (kept : Kept al orig s) : Kept al orig (tick s) := by
  unfold tick
  split
  · exact kept
  · extract_lets t1 s1 s2 s3
    have k1 : Kept al orig s1 :=
      ⟨kept.pending, kept.slots, kept.flashWf, kept.fuse, kept.fenced, kept.flash, kept.regs, kept.running,
        kept.thermtrip, kept.pinReset, kept.cask, fun q => (kept.counter q).trans (Nat.le_succ _)⟩
    clear_value s1
    have k2 : Kept al orig s2 := refreshAll_kept (chansTick_kept (noteIdle_kept (noteIdle_kept k1)))
    clear_value s2
    have k3 : Kept al orig s3 := eachOf_kept (fun _ _ _ k e => execComparatorFire_kept k e) k2
    clear_value s3
    split
    · exact expireAll_kept
        ⟨k3.pending, k3.slots, k3.flashWf, k3.fuse, k3.fenced, k3.flash, k3.regs, k3.running,
          k3.thermtrip, k3.pinReset, k3.cask, k3.counter⟩
    · exact k3
theorem execTimeBusBroadcast_kept {al : Allow} {orig s fin : State} (kept : Kept al orig s)
    (e : execTimeBusBroadcast s = .next fin) : Kept al orig fin := by
  unfold execTimeBusBroadcast at e
  injection e with e
  subst e
  exact iter_kept (fun _ h => tick_kept h) kept
end Sys2Proof.Machine
end

