-- ==== Sys2Proof/Laws/KeptCodec.lean ====
section
/-!
SUPPORT. Laws/KeptCodec.lean: what each operation of Machine/Codec.lean keeps (Laws/Kept.lean).
-/

namespace Sys2Proof.Machine

set_option Elab.async false
set_option linter.unreachableTactic false
set_option linter.unusedTactic false

theorem transferSpent_kept {al : Allow} {orig s : State} {q : SeqId}  (kept : Kept al orig s) : Kept al orig (transferSpent s q) := by
  dsimp -iota only [transferSpent]
  with_reducible repeat' first
      | assumption | apply preemptSpend_kept | (intro _) | split | refine Kept.upd ?_

theorem downEncoded_kept {al : Allow} {orig s : State} {job : Nat} {bad : Bool} {stream : List Byte}  (kept : Kept al orig s) : Kept al orig (downEncoded s job bad stream) := by
  dsimp -iota only [downEncoded]
  with_reducible repeat' first
      | assumption | (intro _) | split | refine Kept.put_mem ?_ | refine Kept.upd ?_

theorem parkEncoded_kept {al : Allow} {orig s : State} {q : SeqId} {f : ObjFrame} {src : Loc} {bad : Bool} {stream : List Byte}  (kept : Kept al orig s) : Kept al orig (parkEncoded s q f src bad stream) := by
  dsimp -iota only [parkEncoded]
  with_reducible repeat' first
      | assumption | refine checkFails_kept ?_ (by assumption) | apply checkFails_proj | apply transferSpent_kept
      | apply parkFrame_kept | apply poisonFrame_kept | split | refine Kept.upd ?_

theorem execCodecEncode_kept {al : Allow} {orig s fin : State} {job : Nat} {errs : List WordErr}  (kept : Kept al orig s) (e : execCodecEncode job s errs = .next fin) : Kept al orig fin := by
  dsimp -iota only [execCodecEncode] at e
  injection e with e
  subst e
  with_reducible repeat' first
      | assumption | apply codecEnd_kept | apply laneFail_kept | refine laneInjection_kept ?_ (by assumption)
      | refine encodeSlot_kept ?_ (by assumption) | apply encodeSlot_proj | apply whileRunning_kept
      | apply downEncoded_kept | apply parkEncoded_kept | apply whenMemory_kept | (intro _) | split
      | refine Kept.upd ?_

theorem wakeDecoded_kept {al : Allow} {orig s : State} {q : SeqId} {f : ObjFrame} {guest : Bool} {img : Option Mem}  (kept : Kept al orig s) : Kept al orig (wakeDecoded s q f guest img) := by
  dsimp -iota only [wakeDecoded]
  with_reducible repeat' first
      | assumption | apply modWake_kept | apply wakePoison_kept | apply wakeFromGuest_kept | apply imgWrite_kept
      | apply slotFill_kept | apply poisonFrame_kept | (intro _) | split | refine Kept.upd ?_

theorem parkDecoded_kept {al : Allow} {orig s : State} {q : SeqId} {f : ObjFrame} {stream : List Byte} {ok : Bool}  (kept : Kept al orig s) : Kept al orig (parkDecoded s q f stream ok) := by
  dsimp -iota only [parkDecoded]
  with_reducible repeat' first
      | assumption | apply parkFrame_kept | apply poisonFrame_kept | split | refine Kept.upd ?_

theorem deliverDecoded_kept {al : Allow} {orig s : State} {j : CodecJob} {img : Option Mem}  (kept : Kept al orig s) : Kept al orig (deliverDecoded s j img) := by
  dsimp -iota only [deliverDecoded]
  with_reducible repeat' first
      | assumption | apply modFrame_kept | (intro _) | split | refine Kept.put_mem ?_ | refine Kept.upd ?_

theorem execCodecDecode_kept {al : Allow} {orig s fin : State} {job : Nat} {readAs : Option (List Byte)} {linkErrs : Nat}  (kept : Kept al orig s) (e : execCodecDecode job readAs s linkErrs = .next fin) : Kept al orig fin := by
  dsimp -iota only [execCodecDecode] at e
  injection e with e
  subst e
  with_reducible repeat' first
      | assumption | apply codecEnd_kept | apply laneFail_kept | refine laneInjection_kept ?_ (by assumption)
      | refine lpRead_kept ?_ (by assumption) | apply lpRead_proj | apply whileRunning_kept | apply modQuad_kept
      | apply modCluster_kept | apply wakeDecoded_kept | apply parkDecoded_kept | apply deliverDecoded_kept
      | (intro _) | split | refine Kept.upd ?_

end Sys2Proof.Machine
end

