-- ==== Sys2Proof/Laws/KeptRegisters.lean ====
section
/-!
SUPPORT. Laws/KeptRegisters.lean: what each operation of Machine/Registers.lean keeps (Laws/Kept.lean).
-/

namespace Sys2Proof.Machine

set_option Elab.async false
set_option linter.unreachableTactic false
set_option linter.unusedTactic false

theorem accessFails_kept {al : Allow} {orig s : State} {w : Nat} {bus : Bool}  (kept : Kept al orig s) : Kept al orig (accessFails s w bus) := by
  dsimp -iota only [accessFails]
  with_reducible repeat' first
      | assumption | apply raise_kept | apply countError_kept | split | refine Kept.upd ?_

theorem winRead_kept {al : Allow} {orig s : State} {w : Nat} {fin : State} {x0 : Nat}  (kept : Kept al orig s) (e : winRead s w = (x0, fin)) : Kept al orig fin := by
  dsimp -iota only [winRead] at e
  repeat' split at e
  all_goals try (simp only [Option.some.injEq, Prod.mk.injEq, reduceCtorEq] at e <;> obtain ⟨-, rfl⟩ := e)
  all_goals
    with_reducible repeat' first
        | assumption | refine readWord_kept ?_ (by assumption) | apply readWord_proj | split | refine Kept.upd ?_

theorem winRead_proj {al : Allow} {orig s : State} {w : Nat}  (kept : Kept al orig s) : Kept al orig (winRead s w).2 := by
  rcases h : winRead s w with ⟨y0, y1⟩
  exact winRead_kept kept h

theorem winReads_kept {al : Allow} {orig : State} {ws : List Nat} :
    ∀ {s fin : State} {bs : List Byte}, Kept al orig s → winReads ws s = (bs, fin) → Kept al orig fin := by
  induction ws with
  | nil => intro s fin bs kept e; cases e; exact kept
  | cons w ws ih =>
    intro s fin bs kept e
    unfold winReads at e
    generalize e1 : winRead s w = r at e
    dsimp only at e
    generalize e2 : winReads ws r.2 = x at e
    cases e
    exact ih (winRead_kept kept e1) e2
theorem execRegRd_kept {al : Allow} {orig s fin : State} {tag addr len : Nat} (kept : Kept al orig s)
    (e : execRegRd tag addr len s = .next fin) : Kept al orig fin := by
  unfold execRegRd at e
  injection e with e
  subst e
  split
  · exact kept
  · split
    · rcases h : winReads (accessWords addr (len / 4)) s with ⟨x, t⟩
      exact linkSend_kept (winReads_kept kept h)
    · exact linkSend_kept (accessFails_kept kept)
    · exact linkSend_kept kept
theorem pulse_kept {al : Allow} {orig s : State} {a : Nat} {b : Nat} (hfence : al.fence = true) (kept : Kept al orig s) : Kept al orig (pulse s a b) := by
  dsimp -iota only [pulse]
  with_reducible repeat' first
      | assumption | apply injArm_kept | apply injDisarm_kept | apply caskRead_kept | apply cascResync_kept
      | apply histClear_kept | apply pendArm_kept | apply pendDisarm_kept | apply extendGo_kept
      | apply attReport_kept | apply attEndorse_kept | apply kemLink_kept | apply kemInstall_kept
      | apply tenantRemove_kept | apply softReset_kept | apply hregAdd_kept | apply hregRemove_kept
      | apply markGo_kept | apply halo_kept | apply snapRelease_kept | apply pctxSet_kept | apply stgErase_kept
      | apply stgWrite_kept | apply stgStage_kept | apply stgConfirm_kept | apply stgCancel_kept
      | apply ownFuse_kept | apply cpEnrol_kept | apply cpEject_kept | apply hlRetrain_kept
      | apply ldgDeclareDead_kept | apply lregCreate_kept | apply deleteRegion_kept | (intro _) | split
      | refine Kept.upd ?_

theorem badValue_kept {al : Allow} {orig s : State}   (kept : Kept al orig s) : Kept al orig (badValue s) := by
  dsimp -iota only [badValue]
  with_reducible repeat' first
      | assumption | refine Kept.upd ?_

theorem hostStore_kept {al : Allow} {orig s : State} {a : Nat} {mask : Nat} {w : Nat} (hregs : al.regs = true) (kept : Kept al orig s) : Kept al orig (hostStore s a mask w) := by
  dsimp -iota only [hostStore]
  with_reducible repeat' first
      | assumption | apply modGate_kept | apply storeReg_kept | (intro _) | split | refine Kept.upd ?_

theorem writeReg_kept {al : Allow} {orig s : State} {d : RegDef} {a : Nat} {w : Nat} (hfence : al.fence = true) (hregs : al.regs = true) (kept : Kept al orig s) : Kept al orig (writeReg s d a w) := by
  dsimp -iota only [writeReg]
  with_reducible repeat' first
      | assumption | apply stickyClr_kept | apply mailWrite_kept | apply pulse_kept | apply badValue_kept
      | apply hostStore_kept | (intro _) | split | refine Kept.upd ?_

theorem writeAlias_kept {al : Allow} {orig s : State} {d : RegDef} {a : Nat} {b : Nat} {v : Nat} (hfence : al.fence = true) (hregs : al.regs = true) (kept : Kept al orig s) : Kept al orig (writeAlias s d a b v) := by
  dsimp -iota only [writeAlias]
  with_reducible repeat' first
      | assumption | apply stickyClr_kept | apply pulse_kept | apply badValue_kept | apply hostStore_kept
      | (intro _) | split | refine Kept.upd ?_

theorem winWrite_kept {al : Allow} {orig s : State} {e : Nat × Word32} (hfence : al.fence = true) (hregs : al.regs = true) (kept : Kept al orig s) : Kept al orig (winWrite s e) := by
  dsimp -iota only [winWrite]
  with_reducible repeat' first
      | assumption | apply writeReg_kept | apply writeAlias_kept | (intro _) | split | refine Kept.upd ?_

theorem regWrite_kept {al : Allow} {orig s : State} {es : List (Nat × Word32)} (hfence : al.fence = true) (hregs : al.regs = true) (kept : Kept al orig s) : Kept al orig (regWrite s es) := by
  dsimp -iota only [regWrite]
  with_reducible repeat' first
      | assumption | apply winWrite_kept | apply foldState_kept | (intro _) | refine Kept.upd ?_

theorem execRegWr_kept {al : Allow} {orig s fin : State} {addr : Nat} {data : List Word32} (hfence : al.fence = true) (hregs : al.regs = true) (kept : Kept al orig s) (e : execRegWr addr data s = .next fin) : Kept al orig fin := by
  dsimp -iota only [execRegWr] at e
  injection e with e
  subst e
  with_reducible repeat' first
      | assumption | apply accessFails_kept | apply regWrite_kept | (intro _) | split | refine Kept.upd ?_

end Sys2Proof.Machine
end

