-- ==== Sys2Proof/Laws/KeptExec.lean ====
section
/-!
SUPPORT. Laws/KeptExec.lean: what each command keeps (Laws/Kept.lean): the permissions a command has, and the one theorem
that every command keeps what its permissions leave.
-/

namespace Sys2Proof.Machine

set_option Elab.async false

/-- The permissions of a command: only these commands go beyond the ordinary. -/
def allowOf (c : Instr) : Allow :=
  match c with
  | .map _ => { fence := true }
  | .barrierArrive _ _ _ _ => { fence := true }
  | .broadcast _ _ _ _ _ => { fence := true }
  | .regWr _ _ => { fence := true, regs := true }
  | .rstSoft => { fence := true }
  | .mapChunk => { fence := true }
  | .thermtrip => { power := true }
  | .coreWPowerLoss => { power := true }
  | .perstNAssert => { fence := true, regs := true, power := true }
  | .perstNDeassert _ => { fence := true, flash := true, regs := true, power := true }
  | .flashOperationDone _ => { flash := true }
  | _ => {}

/-- Every command keeps what its permissions leave. -/
theorem exec_kept {c : Instr} {s t : State} (e : exec c s = .next t) : Kept (allowOf c) s t := by
  cases c with
  | append _ => exact execAppend_kept (Kept.refl _ s) e
  | fork _ => exact execFork_kept (Kept.refl _ s) e
  | trim _ _ => exact execTrim_kept (Kept.refl _ s) e
  | park _ => exact execPark_kept (Kept.refl _ s) e
  | wake _ => exact execWake_kept (Kept.refl _ s) e
  | evict _ => exact execEvict_kept (Kept.refl _ s) e
  | hint _ => exact execHint_kept (Kept.refl _ s) e
  | attnFwd _ => exact execAttnFwd_kept (Kept.refl _ s) e
  | attnBwd _ => exact execAttnBwd_kept (Kept.refl _ s) e
  | gradDrainRead _ => exact execGradDrainRead_kept (Kept.refl _ s) e
  | gradDrainRelease _ => exact execGradDrainRelease_kept (Kept.refl _ s) e
  | merge _ => exact execMerge_kept (Kept.refl _ s) e
  | skimRefresh _ => exact execSkimRefresh_kept (Kept.refl _ s) e
  | prefixSearch _ _ => exact execPrefixSearch_kept (Kept.refl _ s) e
  | prefixInsert _ _ => exact execPrefixInsert_kept (Kept.refl _ s) e
  | prefixDelete _ _ => exact execPrefixDelete_kept (Kept.refl _ s) e
  | frameRead _ _ _ => exact execFrameRead_kept (Kept.refl _ s) e
  | frameWrite _ => exact execFrameWrite_kept (Kept.refl _ s) e
  | guestPut _ => exact execGuestPut_kept (Kept.refl _ s) e
  | guestGet _ => exact execGuestGet_kept (Kept.refl _ s) e
  | guestRelease _ => exact execGuestRelease_kept (Kept.refl _ s) e
  | qwait _ => exact execQwait_kept (Kept.refl _ s) e
  | ledgerRead _ _ => exact execLedgerRead_kept (Kept.refl _ s) e
  | ledgerWrite _ => exact execLedgerWrite_kept (Kept.refl _ s) e
  | ledgerRelease _ => exact execLedgerRelease_kept (Kept.refl _ s) e
  | ledgerPublish _ => exact execLedgerPublish_kept (Kept.refl _ s) e
  | recallAnswer _ _ _ => exact execRecallAnswer_kept (Kept.refl _ s) e
  | recallTimeout _ => exact execRecallTimeout_kept (Kept.refl _ s) e
  | commandArrival _ => exact execCommandArrival_kept (Kept.refl _ s) e
  | outcomeExpiry _ => exact execOutcomeExpiry_kept (Kept.refl _ s) e
  | admission _ => exact execAdmission_kept (Kept.refl _ s) e
  | planVisits _ => exact execPlanVisits_kept (Kept.refl _ s) e
  | mashVisit _ _ => exact execMashVisit_kept (Kept.refl _ s) e
  | tileVisit _ _ => exact execTileVisit_kept (Kept.refl _ s) e
  | fallbackVisit _ _ => exact execFallbackVisit_kept (Kept.refl _ s) e
  | mashWaitExpiry _ => exact execMashWaitExpiry_kept (Kept.refl _ s) e
  | stageWaitExpiry _ => exact execStageWaitExpiry_kept (Kept.refl _ s) e
  | fallbackDeadline _ => exact execFallbackDeadline_kept (Kept.refl _ s) e
  | frameReadDeadline _ => exact execFrameReadDeadline_kept (Kept.refl _ s) e
  | appendBoundExpiry _ => exact execAppendBoundExpiry_kept (Kept.refl _ s) e
  | appendStart _ _ => exact execAppendStart_kept (Kept.refl _ s) e
  | frameCommit _ _ _ => exact execFrameCommit_kept (Kept.refl _ s) e
  | reserveRefill _ _ => exact execReserveRefill_kept (Kept.refl _ s) e
  | zeroFill _ _ => exact execZeroFill_kept (Kept.refl _ s) e
  | preemptVictim => exact execPreemptVictim_kept (Kept.refl _ s) e
  | promotion _ => exact execPromotion_kept (Kept.refl _ s) e
  | demotion _ => exact execDemotion_kept (Kept.refl _ s) e
  | stagingStart _ => exact execStagingStart_kept (Kept.refl _ s) e
  | stagingComplete _ _ => exact execStagingComplete_kept (Kept.refl _ s) e
  | writeDownComplete _ _ => exact execWriteDownComplete_kept (Kept.refl _ s) e
  | extentMove _ => exact execExtentMove_kept (Kept.refl _ s) e
  | ageSweep => exact execAgeSweep_kept (Kept.refl _ s) e
  | hregAdd => exact execHregAdd_kept (Kept.refl _ s) e
  | hregRemove => exact execHregRemove_kept (Kept.refl _ s) e
  | regionDrained _ => exact execRegionDrained_kept (Kept.refl _ s) e
  | codecEncode _ _ => exact execCodecEncode_kept (Kept.refl _ s) e
  | codecDecode _ _ _ => exact execCodecDecode_kept (Kept.refl _ s) e
  | codecLaneFail _ _ => exact execCodecLaneFail_kept (Kept.refl _ s) e
  | burstEntry _ _ => exact execBurstEntry_kept (Kept.refl _ s) e
  | burstClose _ _ => exact execBurstClose_kept (Kept.refl _ s) e
  | tokenGrant _ => exact execTokenGrant_kept (Kept.refl _ s) e
  | refreshDue _ _ => exact execRefreshDue_kept (Kept.refl _ s) e
  | gradientAdd _ _ _ => exact execGradientAdd_kept (Kept.refl _ s) e
  | clone _ _ _ _ _ _ => exact execClone_kept (Kept.refl _ s) e
  | hbmTempRead _ => exact execHbmTempRead_kept (Kept.refl _ s) e
  | quotaRaise _ => exact execQuotaRaise_kept (Kept.refl _ s) e
  | mashUnitFail _ _ _ _ _ => exact execMashUnitFail_kept (Kept.refl _ s) e
  | frameMove _ _ _ => exact execFrameMove_kept (Kept.refl _ s) e
  | lpMr4Read _ _ => exact execLpMr4Read_kept (Kept.refl _ s) e
  | tileFail _ _ _ => exact execTileFail_kept (Kept.refl _ s) e
  | bwdChainForm _ => exact execBwdChainForm_kept (Kept.refl _ s) e
  | bwdChainIdle _ => exact execBwdChainIdle_kept (Kept.refl _ s) e
  | fwdChainReturn _ => exact execFwdChainReturn_kept (Kept.refl _ s) e
  | mergeInput _ => exact execMergeInput_kept (Kept.refl _ s) e
  | mergeTimeout _ _ _ => exact execMergeTimeout_kept (Kept.refl _ s) e
  | earlyBufferExpiry _ => exact execEarlyBufferExpiry_kept (Kept.refl _ s) e
  | dataPacket _ => exact execDataPacket_kept (Kept.refl _ s) e
  | ackPacket _ => exact execAckPacket_kept (Kept.refl _ s) e
  | retransmitTimeout _ _ => exact execRetransmitTimeout_kept (Kept.refl _ s) e
  | ackCoalesceExpiry _ => exact execAckCoalesceExpiry_kept (Kept.refl _ s) e
  | messageSend _ => exact execMessageSend_kept (Kept.refl _ s) e
  | egressSelect _ _ => exact execEgressSelect_kept (Kept.refl _ s) e
  | pfcFrame _ _ _ => exact execPfcFrame_kept (Kept.refl _ s) e
  | pauseFrame _ => exact execPauseFrame_kept (Kept.refl _ s) e
  | bufferXoff _ => exact execBufferXoff_kept (Kept.refl _ s) e
  | contextFetchDone _ => exact execContextFetchDone_kept (Kept.refl _ s) e
  | subportUpDown _ _ _ => exact execSubportUpDown_kept (Kept.refl _ s) e
  | laneSpareMove _ _ => exact execLaneSpareMove_kept (Kept.refl _ s) e
  | map _ => exact execMap_kept rfl (Kept.refl _ s) e
  | graceEnd => exact execGraceEnd_kept (Kept.refl _ s) e
  | renew _ _ => exact execRenew_kept (Kept.refl _ s) e
  | leaseExpiry => exact execLeaseExpiry_kept (Kept.refl _ s) e
  | chain _ => exact execChain_kept (Kept.refl _ s) e
  | chainAck _ _ _ _ _ => exact execChainAck_kept (Kept.refl _ s) e
  | chainTimeout _ => exact execChainTimeout_kept (Kept.refl _ s) e
  | chainRetry _ => exact execChainRetry_kept (Kept.refl _ s) e
  | copyBegin _ => exact execCopyBegin_kept (Kept.refl _ s) e
  | copyFrames _ _ _ _ => exact execCopyFrames_kept (Kept.refl _ s) e
  | copyEnd _ _ _ => exact execCopyEnd_kept (Kept.refl _ s) e
  | copyAck _ _ _ _ _ _ => exact execCopyAck_kept (Kept.refl _ s) e
  | copyNext _ _ _ => exact execCopyNext_kept (Kept.refl _ s) e
  | heartbeat _ x1 => exact execHeartbeat_kept (_epoch := x1) (Kept.refl _ s) e
  | detectorFiring => exact execDetectorFiring_kept (Kept.refl _ s) e
  | transferGuests _ _ _ _ => exact execTransferGuests_kept (Kept.refl _ s) e
  | adopt _ _ _ _ _ => exact execAdopt_kept (Kept.refl _ s) e
  | releaseGuests _ _ _ _ => exact execReleaseGuests_kept (Kept.refl _ s) e
  | stepDoneReport _ _ _ => exact execStepDoneReport_kept (Kept.refl _ s) e
  | barrierArrive _ _ _ _ => exact execBarrierArrive_kept rfl (Kept.refl _ s) e
  | barrierRelease _ _ _ => exact execBarrierRelease_kept (Kept.refl _ s) e
  | broadcast _ _ _ _ _ => exact execBroadcast_kept rfl (Kept.refl _ s) e
  | haloMark _ _ _ => exact execHaloMark_kept (Kept.refl _ s) e
  | haloDrainDone => exact execHaloDrainDone_kept (Kept.refl _ s) e
  | haloDrainTimeout => exact execHaloDrainTimeout_kept (Kept.refl _ s) e
  | attestReq _ _ _ _ _ => exact execAttestReq_kept (Kept.refl _ s) e
  | signatureDone _ => exact execSignatureDone_kept (Kept.refl _ s) e
  | nvmeCompletion _ _ => exact execNvmeCompletion_kept (Kept.refl _ s) e
  | parkCopiesDone _ => exact execParkCopiesDone_kept (Kept.refl _ s) e
  | parkCopyTimeout _ => exact execParkCopyTimeout_kept (Kept.refl _ s) e
  | wakeComplete _ => exact execWakeComplete_kept (Kept.refl _ s) e
  | reProtect _ => exact execReProtect_kept (Kept.refl _ s) e
  | cartridgeInsert _ _ => exact execCartridgeInsert_kept (Kept.refl _ s) e
  | cartridgeRemoval _ => exact execCartridgeRemoval_kept (Kept.refl _ s) e
  | cpEnrol _ => exact execCpEnrol_kept (Kept.refl _ s) e
  | cpEject _ => exact execCpEject_kept (Kept.refl _ s) e
  | smartPoll _ _ => exact execSmartPoll_kept (Kept.refl _ s) e
  | prefixSweep => exact execPrefixSweep_kept (Kept.refl _ s) e
  | prefixRateRaise _ => exact execPrefixRateRaise_kept (Kept.refl _ s) e
  | matchInPulse _ => exact execMatchInPulse_kept (Kept.refl _ s) e
  | cascadeTimeout => exact execCascadeTimeout_kept (Kept.refl _ s) e
  | cascResync => exact execCascResync_kept (Kept.refl _ s) e
  | flitReceived _ => exact execFlitReceived_kept (Kept.refl _ s) e
  | nakReceived _ => exact execNakReceived_kept (Kept.refl _ s) e
  | linkDown x0 => exact execLinkDown_kept (_cause := x0) (Kept.refl _ s) e
  | linkTraining _ => exact execLinkTraining_kept (Kept.refl _ s) e
  | hlRetrain => exact execHlRetrain_kept (Kept.refl _ s) e
  | regRd _ _ _ => exact execRegRd_kept (Kept.refl _ s) e
  | regWr _ _ => exact execRegWr_kept rfl rfl (Kept.refl _ s) e
  | memCpl _ _ _ => exact execMemCpl_kept (Kept.refl _ s) e
  | memRdTimeout _ => exact execMemRdTimeout_kept (Kept.refl _ s) e
  | msg _ _ _ _ _ => exact execMsg_kept (Kept.refl _ s) e
  | countLoRead _ => exact execCountLoRead_kept (Kept.refl _ s) e
  | markGo => exact execMarkGo_kept (Kept.refl _ s) e
  | qccLoRead _ _ => exact execQccLoRead_kept (Kept.refl _ s) e
  | qbindWrite _ _ => exact execQbindWrite_kept (Kept.refl _ s) e
  | pctxSet => exact execPctxSet_kept (Kept.refl _ s) e
  | histClear => exact execHistClear_kept (Kept.refl _ s) e
  | pendArm _ => exact execPendArm_kept (Kept.refl _ s) e
  | pendDisarm _ => exact execPendDisarm_kept (Kept.refl _ s) e
  | gateEntryEnd _ => exact execGateEntryEnd_kept (Kept.refl _ s) e
  | gateTakeover _ => exact execGateTakeover_kept (Kept.refl _ s) e
  | ldgDeclareDead => exact execLdgDeclareDead_kept (Kept.refl _ s) e
  | lregCreate => exact execLregCreate_kept (Kept.refl _ s) e
  | lregDelete => exact execLregDelete_kept (Kept.refl _ s) e
  | lregVerLoRead _ => exact execLregVerLoRead_kept (Kept.refl _ s) e
  | attReport => exact execAttReport_kept (Kept.refl _ s) e
  | attEndorse => exact execAttEndorse_kept (Kept.refl _ s) e
  | extendGo => exact execExtendGo_kept (Kept.refl _ s) e
  | kemInstall => exact execKemInstall_kept (Kept.refl _ s) e
  | kemLink => exact execKemLink_kept (Kept.refl _ s) e
  | tenantRemove => exact execTenantRemove_kept (Kept.refl _ s) e
  | drainFence _ _ => exact execDrainFence_kept (Kept.refl _ s) e
  | keyDrainExpiry _ => exact execKeyDrainExpiry_kept (Kept.refl _ s) e
  | rstSoft => exact execRstSoft_kept rfl (Kept.refl _ s) e
  | stgErase => exact execStgErase_kept (Kept.refl _ s) e
  | stgWrite => exact execStgWrite_kept (Kept.refl _ s) e
  | stgStage => exact execStgStage_kept (Kept.refl _ s) e
  | stgConfirm => exact execStgConfirm_kept (Kept.refl _ s) e
  | stgCancel => exact execStgCancel_kept (Kept.refl _ s) e
  | ownFuse => exact execOwnFuse_kept (Kept.refl _ s) e
  | stickyClr _ _ => exact execStickyClr_kept (Kept.refl _ s) e
  | injArm => exact execInjArm_kept (Kept.refl _ s) e
  | injDisarm => exact execInjDisarm_kept (Kept.refl _ s) e
  | caskRead => exact execCaskRead_kept (Kept.refl _ s) e
  | caskHeadLoRead _ => exact execCaskHeadLoRead_kept (Kept.refl _ s) e
  | caskOldLoRead _ => exact execCaskOldLoRead_kept (Kept.refl _ s) e
  | snapGo => exact execSnapGo_kept (Kept.refl _ s) e
  | snapRelease => exact execSnapRelease_kept (Kept.refl _ s) e
  | tctrLoRead _ _ => exact execTctrLoRead_kept (Kept.refl _ s) e
  | quadCounterRead _ _ _ => exact execQuadCounterRead_kept (Kept.refl _ s) e
  | h2kWord _ => exact execH2kWord_kept (Kept.refl _ s) e
  | h2kLast _ => exact execH2kLast_kept (Kept.refl _ s) e
  | k2hWord _ => exact execK2hWord_kept (Kept.refl _ s) e
  | mapChunk => exact execMapChunk_kept rfl (Kept.refl _ s) e
  | mailboxRenew => exact execMailboxRenew_kept (Kept.refl _ s) e
  | ping => exact execPing_kept (Kept.refl _ s) e
  | faultEvent _ => exact execFaultEvent_kept (Kept.refl _ s) e
  | faultWindowEnd _ => exact execFaultWindowEnd_kept (Kept.refl _ s) e
  | eventLineDrop _ => exact execEventLineDrop_kept (Kept.refl _ s) e
  | logPeriodEnd _ => exact execLogPeriodEnd_kept (Kept.refl _ s) e
  | caskRecordWrite => exact execCaskRecordWrite_kept (Kept.refl _ s) e
  | bridgeFlitRetry _ => exact execBridgeFlitRetry_kept (Kept.refl _ s) e
  | timeBusBroadcast => exact execTimeBusBroadcast_kept (Kept.refl _ s) e
  | comparatorFire _ => exact execComparatorFire_kept (Kept.refl _ s) e
  | vpolicyStep _ _ => exact execVpolicyStep_kept (Kept.refl _ s) e
  | logicTempRead _ => exact execLogicTempRead_kept (Kept.refl _ s) e
  | thermtrip => exact execThermtrip_kept rfl (Kept.refl _ s) e
  | avsNoAnswer _ => exact execAvsNoAnswer_kept (Kept.refl _ s) e
  | hlRefclkLoss => exact execHlRefclkLoss_kept (Kept.refl _ s) e
  | hlRefclkReturn => exact execHlRefclkReturn_kept (Kept.refl _ s) e
  | memRefclkLoss _ => exact execMemRefclkLoss_kept (Kept.refl _ s) e
  | memRefclkReturn _ _ => exact execMemRefclkReturn_kept (Kept.refl _ s) e
  | otherRefclkLoss _ => exact execOtherRefclkLoss_kept (Kept.refl _ s) e
  | coreWPowerLoss => exact execCoreWPowerLoss_kept rfl (Kept.refl _ s) e
  | coreEPowerLoss => exact execCoreEPowerLoss_kept (Kept.refl _ s) e
  | perstNAssert => exact execPerstNAssert_kept rfl rfl rfl (Kept.refl _ s) e
  | perstNDeassert _ => exact execPerstNDeassert_kept rfl rfl rfl rfl (Kept.refl _ s) e
  | haloIn _ => exact execHaloIn_kept (Kept.refl _ s) e
  | i3cRead _ _ => exact execI3cRead_kept (Kept.refl _ s) e
  | pfcPauseExpiry _ _ _ => exact execPfcPauseExpiry_kept (Kept.refl _ s) e
  | xoffRepeat _ => exact execXoffRepeat_kept (Kept.refl _ s) e
  | flashOperationDone _ => exact execFlashOperationDone_kept rfl (Kept.refl _ s) e
  | regulatorAnswersAgain _ => exact execRegulatorAnswersAgain_kept (Kept.refl _ s) e
  | sensorWindowEnd _ _ _ _ => exact execSensorWindowEnd_kept (Kept.refl _ s) e

end Sys2Proof.Machine
end

