-- ==== Sys2Proof/Laws/Reach.lean ====
section
/-!
SUPPORT. Laws/Reach.lean: what the gates of the commands do where they let a command through: a host access that reaches its
register, an event in a running node, a mailbox message of its kind, an admitted command whose turn has come; and that none of
them does anything while the interior does not run.
-/

namespace Sys2Proof.Machine

set_option Elab.async false

theorem regEnter_reaches {s : State} {a : Nat} {f : State → State} (h : Reaches s a) : regEnter s a f = f s := by
  obtain ⟨h1, h2, h3⟩ := h
  unfold regEnter
  rw [h1, h3]
  simp [h2]

theorem readAt_reaches {s : State} {tag a : Nat} (h : Reaches s a) :
    readAt s tag a = linkSend (readWord s a).2 (.regCpl tag a 0 (le 4 (readWord s a).1)) := by
  obtain ⟨h1, h2, h3⟩ := h
  unfold readAt
  rw [h1, h3]
  simp [h2]

theorem whileRunning_on {s : State} {f : Unit → State} (h : s.running = true) : whileRunning s f = f () := if_pos h

theorem whenReady_turn {s : State} {c : Command} {f : Unit → State} (h : Turn s c) : whenReady s c f = f () := by
  simp [whenReady, h.1, h.2]

theorem onMail_kind {s : State} {kind : Nat} {f : State → List Word32 → State} (h1 : s.running = true)
    (h2 : s.mail.done = true) (h3 : mailKind s.mail.cur = kind) : onMail s kind f = f (mailNext s) s.mail.cur := by
  simp [onMail, h1, h2, h3]

theorem Turn.running {s : State} {c : Command} (h : Turn s c) : s.running = true := by
  have := h.1
  simp only [isLive, Bool.and_eq_true] at this
  exact this.1.1

theorem regEnter_stopped {s : State} {a : Nat} {f : State → State} (h : s.running = false) : regEnter s a f = s := by
  simp [regEnter, h]

theorem whileRunning_stopped {s : State} {f : Unit → State} (h : s.running = false) : whileRunning s f = s := by
  simp [whileRunning, h]

theorem isLive_stopped {s : State} {c : Command} (h : s.running = false) : isLive s c = false := by simp [isLive, h]

theorem whenReady_stopped {s : State} {c : Command} {f : Unit → State} (h : s.running = false) : whenReady s c f = s := by
  simp [whenReady, isLive_stopped h]

theorem readAt_stopped {s : State} {tag a : Nat} (h : s.running = false) : readAt s tag a = s := by simp [readAt, h]

theorem onMail_stopped {s : State} {kind : Nat} {f : State → List Word32 → State} (h : s.running = false) :
    onMail s kind f = s := by simp [onMail, h]

theorem prefixTurn_stopped {s : State} {c : Command} (h : s.running = false) : prefixTurn s c = false := by
  simp [prefixTurn, isLive_stopped h]

end Sys2Proof.Machine
end

