-- ==== Sys2Proof/Laws/State.lean ====
section
/-!
SUPPORT. Laws/State.lean: the small lemmas of the state's updates: what each named update of one entry leaves alone, field by field
and entry by entry, true by definition; and that the entry read back is the one written.
-/

namespace Sys2Proof.Machine

set_option Elab.async false

@[simp] theorem modSrc_pending (s : State) (n : Nat) (f : FaultSrc → FaultSrc) : (modSrc s n f).pending = s.pending := rfl
@[simp] theorem modSrc_running (s : State) (n : Nat) (f : FaultSrc → FaultSrc) : (modSrc s n f).running = s.running := rfl
@[simp] theorem modSrc_fresh (s : State) (n : Nat) (f : FaultSrc → FaultSrc) : (modSrc s n f).fresh = s.fresh := rfl
@[simp] theorem modSrc_regs (s : State) (n : Nat) (f : FaultSrc → FaultSrc) : (modSrc s n f).regs = s.regs := rfl
@[simp] theorem modSrc_accessErr (s : State) (n : Nat) (f : FaultSrc → FaultSrc) : (modSrc s n f).accessErr = s.accessErr := rfl
@[simp] theorem modSrc_lastErr (s : State) (n : Nat) (f : FaultSrc → FaultSrc) : (modSrc s n f).lastErr = s.lastErr := rfl
@[simp] theorem modSrc_lockedWr (s : State) (n : Nat) (f : FaultSrc → FaultSrc) : (modSrc s n f).lockedWr = s.lockedWr := rfl
@[simp] theorem modSrc_badvalWr (s : State) (n : Nat) (f : FaultSrc → FaultSrc) : (modSrc s n f).badvalWr = s.badvalWr := rfl
@[simp] theorem modSrc_time (s : State) (n : Nat) (f : FaultSrc → FaultSrc) : (modSrc s n f).time = s.time := rfl
@[simp] theorem modSrc_cask (s : State) (n : Nat) (f : FaultSrc → FaultSrc) : (modSrc s n f).cask = s.cask := rfl
@[simp] theorem modSrc_snap (s : State) (n : Nat) (f : FaultSrc → FaultSrc) : (modSrc s n f).snap = s.snap := rfl
@[simp] theorem modSrc_mail (s : State) (n : Nat) (f : FaultSrc → FaultSrc) : (modSrc s n f).mail = s.mail := rfl
@[simp] theorem modSrc_mem (s : State) (n : Nat) (f : FaultSrc → FaultSrc) : (modSrc s n f).mem = s.mem := rfl
@[simp] theorem modSrc_exec (s : State) (n : Nat) (f : FaultSrc → FaultSrc) : (modSrc s n f).exec = s.exec := rfl
@[simp] theorem modSrc_net (s : State) (n : Nat) (f : FaultSrc → FaultSrc) : (modSrc s n f).net = s.net := rfl
@[simp] theorem modSrc_outcomes (s : State) (n : Nat) (f : FaultSrc → FaultSrc) : (modSrc s n f).outcomes = s.outcomes := rfl
@[simp] theorem modSrc_queues (s : State) (n : Nat) (f : FaultSrc → FaultSrc) : (modSrc s n f).queues = s.queues := rfl
@[simp] theorem modSrc_sched (s : State) (n : Nat) (f : FaultSrc → FaultSrc) : (modSrc s n f).sched = s.sched := rfl
@[simp] theorem modSrc_comp (s : State) (n : Nat) (f : FaultSrc → FaultSrc) : (modSrc s n f).comp = s.comp := rfl
@[simp] theorem modSrc_pfx (s : State) (n : Nat) (f : FaultSrc → FaultSrc) : (modSrc s n f).pfx = s.pfx := rfl
@[simp] theorem modSrc_link (s : State) (n : Nat) (f : FaultSrc → FaultSrc) : (modSrc s n f).link = s.link := rfl
@[simp] theorem modSrc_ledger (s : State) (n : Nat) (f : FaultSrc → FaultSrc) : (modSrc s n f).ledger = s.ledger := rfl
@[simp] theorem modSrc_trust (s : State) (n : Nat) (f : FaultSrc → FaultSrc) : (modSrc s n f).trust = s.trust := rfl
@[simp] theorem modSrc_boot (s : State) (n : Nat) (f : FaultSrc → FaultSrc) : (modSrc s n f).boot = s.boot := rfl
@[simp] theorem modSrc_pack (s : State) (n : Nat) (f : FaultSrc → FaultSrc) : (modSrc s n f).pack = s.pack := rfl
@[simp] theorem modSrc_chanOf (s : State) (n : Nat) (f : FaultSrc → FaultSrc) (m : Nat) : chanOf (modSrc s n f) m = chanOf s m := rfl
@[simp] theorem modSrc_stackOf (s : State) (n : Nat) (f : FaultSrc → FaultSrc) (m : Nat) : stackOf (modSrc s n f) m = stackOf s m := rfl
@[simp] theorem modSrc_quadOf (s : State) (n : Nat) (f : FaultSrc → FaultSrc) (m : Nat) : quadOf (modSrc s n f) m = quadOf s m := rfl
@[simp] theorem modSrc_tileOf (s : State) (n : Nat) (f : FaultSrc → FaultSrc) (m : Nat) : tileOf (modSrc s n f) m = tileOf s m := rfl
@[simp] theorem modSrc_frameOf (s : State) (n : Nat) (f : FaultSrc → FaultSrc) (m : Nat) : frameOf (modSrc s n f) m = frameOf s m := rfl
@[simp] theorem modSrc_portOf (s : State) (n : Nat) (f : FaultSrc → FaultSrc) (m : Nat) : portOf (modSrc s n f) m = portOf s m := rfl
@[simp] theorem modSrc_seqOf (s : State) (n : Nat) (f : FaultSrc → FaultSrc) (m : SeqId) : seqOf (modSrc s n f) m = seqOf s m := rfl
@[simp] theorem modSrc_liveOf (s : State) (n : Nat) (f : FaultSrc → FaultSrc) (m : CmdKey) : liveOf (modSrc s n f) m = liveOf s m := rfl
@[simp] theorem modSrc_queueOf (s : State) (n : Nat) (f : FaultSrc → FaultSrc) (m : Nat) : queueOf (modSrc s n f) m = queueOf s m := rfl
@[simp] theorem modSrc_findOutcome (s : State) (n : Nat) (f : FaultSrc → FaultSrc) (m : CmdKey) : findOutcome (modSrc s n f) m = findOutcome s m := rfl

@[simp] theorem raise_pending (s : State) (ev : FaultEv) : (raise s ev).pending = s.pending := rfl
@[simp] theorem raise_running (s : State) (ev : FaultEv) : (raise s ev).running = s.running := rfl
@[simp] theorem raise_fresh (s : State) (ev : FaultEv) : (raise s ev).fresh = s.fresh := rfl
@[simp] theorem raise_regs (s : State) (ev : FaultEv) : (raise s ev).regs = s.regs := rfl
@[simp] theorem raise_accessErr (s : State) (ev : FaultEv) : (raise s ev).accessErr = s.accessErr := rfl
@[simp] theorem raise_lastErr (s : State) (ev : FaultEv) : (raise s ev).lastErr = s.lastErr := rfl
@[simp] theorem raise_lockedWr (s : State) (ev : FaultEv) : (raise s ev).lockedWr = s.lockedWr := rfl
@[simp] theorem raise_badvalWr (s : State) (ev : FaultEv) : (raise s ev).badvalWr = s.badvalWr := rfl
@[simp] theorem raise_time (s : State) (ev : FaultEv) : (raise s ev).time = s.time := rfl
@[simp] theorem raise_cask (s : State) (ev : FaultEv) : (raise s ev).cask = s.cask := rfl
@[simp] theorem raise_snap (s : State) (ev : FaultEv) : (raise s ev).snap = s.snap := rfl
@[simp] theorem raise_mail (s : State) (ev : FaultEv) : (raise s ev).mail = s.mail := rfl
@[simp] theorem raise_mem (s : State) (ev : FaultEv) : (raise s ev).mem = s.mem := rfl
@[simp] theorem raise_exec (s : State) (ev : FaultEv) : (raise s ev).exec = s.exec := rfl
@[simp] theorem raise_net (s : State) (ev : FaultEv) : (raise s ev).net = s.net := rfl
@[simp] theorem raise_outcomes (s : State) (ev : FaultEv) : (raise s ev).outcomes = s.outcomes := rfl
@[simp] theorem raise_queues (s : State) (ev : FaultEv) : (raise s ev).queues = s.queues := rfl
@[simp] theorem raise_sched (s : State) (ev : FaultEv) : (raise s ev).sched = s.sched := rfl
@[simp] theorem raise_comp (s : State) (ev : FaultEv) : (raise s ev).comp = s.comp := rfl
@[simp] theorem raise_pfx (s : State) (ev : FaultEv) : (raise s ev).pfx = s.pfx := rfl
@[simp] theorem raise_link (s : State) (ev : FaultEv) : (raise s ev).link = s.link := rfl
@[simp] theorem raise_ledger (s : State) (ev : FaultEv) : (raise s ev).ledger = s.ledger := rfl
@[simp] theorem raise_trust (s : State) (ev : FaultEv) : (raise s ev).trust = s.trust := rfl
@[simp] theorem raise_boot (s : State) (ev : FaultEv) : (raise s ev).boot = s.boot := rfl
@[simp] theorem raise_pack (s : State) (ev : FaultEv) : (raise s ev).pack = s.pack := rfl
@[simp] theorem raise_chanOf (s : State) (ev : FaultEv) (m : Nat) : chanOf (raise s ev) m = chanOf s m := rfl
@[simp] theorem raise_stackOf (s : State) (ev : FaultEv) (m : Nat) : stackOf (raise s ev) m = stackOf s m := rfl
@[simp] theorem raise_quadOf (s : State) (ev : FaultEv) (m : Nat) : quadOf (raise s ev) m = quadOf s m := rfl
@[simp] theorem raise_tileOf (s : State) (ev : FaultEv) (m : Nat) : tileOf (raise s ev) m = tileOf s m := rfl
@[simp] theorem raise_frameOf (s : State) (ev : FaultEv) (m : Nat) : frameOf (raise s ev) m = frameOf s m := rfl
@[simp] theorem raise_portOf (s : State) (ev : FaultEv) (m : Nat) : portOf (raise s ev) m = portOf s m := rfl
@[simp] theorem raise_seqOf (s : State) (ev : FaultEv) (m : SeqId) : seqOf (raise s ev) m = seqOf s m := rfl
@[simp] theorem raise_liveOf (s : State) (ev : FaultEv) (m : CmdKey) : liveOf (raise s ev) m = liveOf s m := rfl
@[simp] theorem raise_queueOf (s : State) (ev : FaultEv) (m : Nat) : queueOf (raise s ev) m = queueOf s m := rfl
@[simp] theorem raise_findOutcome (s : State) (ev : FaultEv) (m : CmdKey) : findOutcome (raise s ev) m = findOutcome s m := rfl

@[simp] theorem modChan_pending (s : State) (n : Nat) (f : Chan → Chan) : (modChan s n f).pending = s.pending := rfl
@[simp] theorem modChan_running (s : State) (n : Nat) (f : Chan → Chan) : (modChan s n f).running = s.running := rfl
@[simp] theorem modChan_fresh (s : State) (n : Nat) (f : Chan → Chan) : (modChan s n f).fresh = s.fresh := rfl
@[simp] theorem modChan_regs (s : State) (n : Nat) (f : Chan → Chan) : (modChan s n f).regs = s.regs := rfl
@[simp] theorem modChan_accessErr (s : State) (n : Nat) (f : Chan → Chan) : (modChan s n f).accessErr = s.accessErr := rfl
@[simp] theorem modChan_lastErr (s : State) (n : Nat) (f : Chan → Chan) : (modChan s n f).lastErr = s.lastErr := rfl
@[simp] theorem modChan_lockedWr (s : State) (n : Nat) (f : Chan → Chan) : (modChan s n f).lockedWr = s.lockedWr := rfl
@[simp] theorem modChan_badvalWr (s : State) (n : Nat) (f : Chan → Chan) : (modChan s n f).badvalWr = s.badvalWr := rfl
@[simp] theorem modChan_time (s : State) (n : Nat) (f : Chan → Chan) : (modChan s n f).time = s.time := rfl
@[simp] theorem modChan_fault (s : State) (n : Nat) (f : Chan → Chan) : (modChan s n f).fault = s.fault := rfl
@[simp] theorem modChan_cask (s : State) (n : Nat) (f : Chan → Chan) : (modChan s n f).cask = s.cask := rfl
@[simp] theorem modChan_snap (s : State) (n : Nat) (f : Chan → Chan) : (modChan s n f).snap = s.snap := rfl
@[simp] theorem modChan_mail (s : State) (n : Nat) (f : Chan → Chan) : (modChan s n f).mail = s.mail := rfl
@[simp] theorem modChan_exec (s : State) (n : Nat) (f : Chan → Chan) : (modChan s n f).exec = s.exec := rfl
@[simp] theorem modChan_net (s : State) (n : Nat) (f : Chan → Chan) : (modChan s n f).net = s.net := rfl
@[simp] theorem modChan_outcomes (s : State) (n : Nat) (f : Chan → Chan) : (modChan s n f).outcomes = s.outcomes := rfl
@[simp] theorem modChan_queues (s : State) (n : Nat) (f : Chan → Chan) : (modChan s n f).queues = s.queues := rfl
@[simp] theorem modChan_sched (s : State) (n : Nat) (f : Chan → Chan) : (modChan s n f).sched = s.sched := rfl
@[simp] theorem modChan_comp (s : State) (n : Nat) (f : Chan → Chan) : (modChan s n f).comp = s.comp := rfl
@[simp] theorem modChan_pfx (s : State) (n : Nat) (f : Chan → Chan) : (modChan s n f).pfx = s.pfx := rfl
@[simp] theorem modChan_link (s : State) (n : Nat) (f : Chan → Chan) : (modChan s n f).link = s.link := rfl
@[simp] theorem modChan_ledger (s : State) (n : Nat) (f : Chan → Chan) : (modChan s n f).ledger = s.ledger := rfl
@[simp] theorem modChan_trust (s : State) (n : Nat) (f : Chan → Chan) : (modChan s n f).trust = s.trust := rfl
@[simp] theorem modChan_boot (s : State) (n : Nat) (f : Chan → Chan) : (modChan s n f).boot = s.boot := rfl
@[simp] theorem modChan_pack (s : State) (n : Nat) (f : Chan → Chan) : (modChan s n f).pack = s.pack := rfl
@[simp] theorem modChan_srcOf (s : State) (n : Nat) (f : Chan → Chan) (m : Nat) : srcOf (modChan s n f) m = srcOf s m := rfl
@[simp] theorem modChan_stackOf (s : State) (n : Nat) (f : Chan → Chan) (m : Nat) : stackOf (modChan s n f) m = stackOf s m := rfl
@[simp] theorem modChan_quadOf (s : State) (n : Nat) (f : Chan → Chan) (m : Nat) : quadOf (modChan s n f) m = quadOf s m := rfl
@[simp] theorem modChan_clusterOf (s : State) (n : Nat) (f : Chan → Chan) (m : Nat) : clusterOf (modChan s n f) m = clusterOf s m := rfl
@[simp] theorem modChan_tileOf (s : State) (n : Nat) (f : Chan → Chan) (m : Nat) : tileOf (modChan s n f) m = tileOf s m := rfl
@[simp] theorem modChan_frameOf (s : State) (n : Nat) (f : Chan → Chan) (m : Nat) : frameOf (modChan s n f) m = frameOf s m := rfl
@[simp] theorem modChan_freeOf (s : State) (n : Nat) (f : Chan → Chan) (m : Nat) : freeOf (modChan s n f) m = freeOf s m := rfl
@[simp] theorem modChan_portOf (s : State) (n : Nat) (f : Chan → Chan) (m : Nat) : portOf (modChan s n f) m = portOf s m := rfl
@[simp] theorem modChan_seqOf (s : State) (n : Nat) (f : Chan → Chan) (m : SeqId) : seqOf (modChan s n f) m = seqOf s m := rfl
@[simp] theorem modChan_liveOf (s : State) (n : Nat) (f : Chan → Chan) (m : CmdKey) : liveOf (modChan s n f) m = liveOf s m := rfl
@[simp] theorem modChan_queueOf (s : State) (n : Nat) (f : Chan → Chan) (m : Nat) : queueOf (modChan s n f) m = queueOf s m := rfl
@[simp] theorem modChan_findOutcome (s : State) (n : Nat) (f : Chan → Chan) (m : CmdKey) : findOutcome (modChan s n f) m = findOutcome s m := rfl

@[simp] theorem modStack_pending (s : State) (n : Nat) (f : StackSt → StackSt) : (modStack s n f).pending = s.pending := rfl
@[simp] theorem modStack_running (s : State) (n : Nat) (f : StackSt → StackSt) : (modStack s n f).running = s.running := rfl
@[simp] theorem modStack_fresh (s : State) (n : Nat) (f : StackSt → StackSt) : (modStack s n f).fresh = s.fresh := rfl
@[simp] theorem modStack_regs (s : State) (n : Nat) (f : StackSt → StackSt) : (modStack s n f).regs = s.regs := rfl
@[simp] theorem modStack_accessErr (s : State) (n : Nat) (f : StackSt → StackSt) : (modStack s n f).accessErr = s.accessErr := rfl
@[simp] theorem modStack_lastErr (s : State) (n : Nat) (f : StackSt → StackSt) : (modStack s n f).lastErr = s.lastErr := rfl
@[simp] theorem modStack_lockedWr (s : State) (n : Nat) (f : StackSt → StackSt) : (modStack s n f).lockedWr = s.lockedWr := rfl
@[simp] theorem modStack_badvalWr (s : State) (n : Nat) (f : StackSt → StackSt) : (modStack s n f).badvalWr = s.badvalWr := rfl
@[simp] theorem modStack_time (s : State) (n : Nat) (f : StackSt → StackSt) : (modStack s n f).time = s.time := rfl
@[simp] theorem modStack_fault (s : State) (n : Nat) (f : StackSt → StackSt) : (modStack s n f).fault = s.fault := rfl
@[simp] theorem modStack_cask (s : State) (n : Nat) (f : StackSt → StackSt) : (modStack s n f).cask = s.cask := rfl
@[simp] theorem modStack_snap (s : State) (n : Nat) (f : StackSt → StackSt) : (modStack s n f).snap = s.snap := rfl
@[simp] theorem modStack_mail (s : State) (n : Nat) (f : StackSt → StackSt) : (modStack s n f).mail = s.mail := rfl
@[simp] theorem modStack_exec (s : State) (n : Nat) (f : StackSt → StackSt) : (modStack s n f).exec = s.exec := rfl
@[simp] theorem modStack_net (s : State) (n : Nat) (f : StackSt → StackSt) : (modStack s n f).net = s.net := rfl
@[simp] theorem modStack_outcomes (s : State) (n : Nat) (f : StackSt → StackSt) : (modStack s n f).outcomes = s.outcomes := rfl
@[simp] theorem modStack_queues (s : State) (n : Nat) (f : StackSt → StackSt) : (modStack s n f).queues = s.queues := rfl
@[simp] theorem modStack_sched (s : State) (n : Nat) (f : StackSt → StackSt) : (modStack s n f).sched = s.sched := rfl
@[simp] theorem modStack_comp (s : State) (n : Nat) (f : StackSt → StackSt) : (modStack s n f).comp = s.comp := rfl
@[simp] theorem modStack_pfx (s : State) (n : Nat) (f : StackSt → StackSt) : (modStack s n f).pfx = s.pfx := rfl
@[simp] theorem modStack_link (s : State) (n : Nat) (f : StackSt → StackSt) : (modStack s n f).link = s.link := rfl
@[simp] theorem modStack_ledger (s : State) (n : Nat) (f : StackSt → StackSt) : (modStack s n f).ledger = s.ledger := rfl
@[simp] theorem modStack_trust (s : State) (n : Nat) (f : StackSt → StackSt) : (modStack s n f).trust = s.trust := rfl
@[simp] theorem modStack_boot (s : State) (n : Nat) (f : StackSt → StackSt) : (modStack s n f).boot = s.boot := rfl
@[simp] theorem modStack_pack (s : State) (n : Nat) (f : StackSt → StackSt) : (modStack s n f).pack = s.pack := rfl
@[simp] theorem modStack_srcOf (s : State) (n : Nat) (f : StackSt → StackSt) (m : Nat) : srcOf (modStack s n f) m = srcOf s m := rfl
@[simp] theorem modStack_chanOf (s : State) (n : Nat) (f : StackSt → StackSt) (m : Nat) : chanOf (modStack s n f) m = chanOf s m := rfl
@[simp] theorem modStack_quadOf (s : State) (n : Nat) (f : StackSt → StackSt) (m : Nat) : quadOf (modStack s n f) m = quadOf s m := rfl
@[simp] theorem modStack_clusterOf (s : State) (n : Nat) (f : StackSt → StackSt) (m : Nat) : clusterOf (modStack s n f) m = clusterOf s m := rfl
@[simp] theorem modStack_tileOf (s : State) (n : Nat) (f : StackSt → StackSt) (m : Nat) : tileOf (modStack s n f) m = tileOf s m := rfl
@[simp] theorem modStack_frameOf (s : State) (n : Nat) (f : StackSt → StackSt) (m : Nat) : frameOf (modStack s n f) m = frameOf s m := rfl
@[simp] theorem modStack_freeOf (s : State) (n : Nat) (f : StackSt → StackSt) (m : Nat) : freeOf (modStack s n f) m = freeOf s m := rfl
@[simp] theorem modStack_portOf (s : State) (n : Nat) (f : StackSt → StackSt) (m : Nat) : portOf (modStack s n f) m = portOf s m := rfl
@[simp] theorem modStack_seqOf (s : State) (n : Nat) (f : StackSt → StackSt) (m : SeqId) : seqOf (modStack s n f) m = seqOf s m := rfl
@[simp] theorem modStack_liveOf (s : State) (n : Nat) (f : StackSt → StackSt) (m : CmdKey) : liveOf (modStack s n f) m = liveOf s m := rfl
@[simp] theorem modStack_queueOf (s : State) (n : Nat) (f : StackSt → StackSt) (m : Nat) : queueOf (modStack s n f) m = queueOf s m := rfl
@[simp] theorem modStack_findOutcome (s : State) (n : Nat) (f : StackSt → StackSt) (m : CmdKey) : findOutcome (modStack s n f) m = findOutcome s m := rfl

@[simp] theorem modQuad_pending (s : State) (n : Nat) (f : Quad → Quad) : (modQuad s n f).pending = s.pending := rfl
@[simp] theorem modQuad_running (s : State) (n : Nat) (f : Quad → Quad) : (modQuad s n f).running = s.running := rfl
@[simp] theorem modQuad_fresh (s : State) (n : Nat) (f : Quad → Quad) : (modQuad s n f).fresh = s.fresh := rfl
@[simp] theorem modQuad_regs (s : State) (n : Nat) (f : Quad → Quad) : (modQuad s n f).regs = s.regs := rfl
@[simp] theorem modQuad_accessErr (s : State) (n : Nat) (f : Quad → Quad) : (modQuad s n f).accessErr = s.accessErr := rfl
@[simp] theorem modQuad_lastErr (s : State) (n : Nat) (f : Quad → Quad) : (modQuad s n f).lastErr = s.lastErr := rfl
@[simp] theorem modQuad_lockedWr (s : State) (n : Nat) (f : Quad → Quad) : (modQuad s n f).lockedWr = s.lockedWr := rfl
@[simp] theorem modQuad_badvalWr (s : State) (n : Nat) (f : Quad → Quad) : (modQuad s n f).badvalWr = s.badvalWr := rfl
@[simp] theorem modQuad_time (s : State) (n : Nat) (f : Quad → Quad) : (modQuad s n f).time = s.time := rfl
@[simp] theorem modQuad_fault (s : State) (n : Nat) (f : Quad → Quad) : (modQuad s n f).fault = s.fault := rfl
@[simp] theorem modQuad_cask (s : State) (n : Nat) (f : Quad → Quad) : (modQuad s n f).cask = s.cask := rfl
@[simp] theorem modQuad_snap (s : State) (n : Nat) (f : Quad → Quad) : (modQuad s n f).snap = s.snap := rfl
@[simp] theorem modQuad_mail (s : State) (n : Nat) (f : Quad → Quad) : (modQuad s n f).mail = s.mail := rfl
@[simp] theorem modQuad_exec (s : State) (n : Nat) (f : Quad → Quad) : (modQuad s n f).exec = s.exec := rfl
@[simp] theorem modQuad_net (s : State) (n : Nat) (f : Quad → Quad) : (modQuad s n f).net = s.net := rfl
@[simp] theorem modQuad_outcomes (s : State) (n : Nat) (f : Quad → Quad) : (modQuad s n f).outcomes = s.outcomes := rfl
@[simp] theorem modQuad_queues (s : State) (n : Nat) (f : Quad → Quad) : (modQuad s n f).queues = s.queues := rfl
@[simp] theorem modQuad_sched (s : State) (n : Nat) (f : Quad → Quad) : (modQuad s n f).sched = s.sched := rfl
@[simp] theorem modQuad_comp (s : State) (n : Nat) (f : Quad → Quad) : (modQuad s n f).comp = s.comp := rfl
@[simp] theorem modQuad_pfx (s : State) (n : Nat) (f : Quad → Quad) : (modQuad s n f).pfx = s.pfx := rfl
@[simp] theorem modQuad_link (s : State) (n : Nat) (f : Quad → Quad) : (modQuad s n f).link = s.link := rfl
@[simp] theorem modQuad_ledger (s : State) (n : Nat) (f : Quad → Quad) : (modQuad s n f).ledger = s.ledger := rfl
@[simp] theorem modQuad_trust (s : State) (n : Nat) (f : Quad → Quad) : (modQuad s n f).trust = s.trust := rfl
@[simp] theorem modQuad_boot (s : State) (n : Nat) (f : Quad → Quad) : (modQuad s n f).boot = s.boot := rfl
@[simp] theorem modQuad_pack (s : State) (n : Nat) (f : Quad → Quad) : (modQuad s n f).pack = s.pack := rfl
@[simp] theorem modQuad_srcOf (s : State) (n : Nat) (f : Quad → Quad) (m : Nat) : srcOf (modQuad s n f) m = srcOf s m := rfl
@[simp] theorem modQuad_chanOf (s : State) (n : Nat) (f : Quad → Quad) (m : Nat) : chanOf (modQuad s n f) m = chanOf s m := rfl
@[simp] theorem modQuad_stackOf (s : State) (n : Nat) (f : Quad → Quad) (m : Nat) : stackOf (modQuad s n f) m = stackOf s m := rfl
@[simp] theorem modQuad_clusterOf (s : State) (n : Nat) (f : Quad → Quad) (m : Nat) : clusterOf (modQuad s n f) m = clusterOf s m := rfl
@[simp] theorem modQuad_tileOf (s : State) (n : Nat) (f : Quad → Quad) (m : Nat) : tileOf (modQuad s n f) m = tileOf s m := rfl
@[simp] theorem modQuad_frameOf (s : State) (n : Nat) (f : Quad → Quad) (m : Nat) : frameOf (modQuad s n f) m = frameOf s m := rfl
@[simp] theorem modQuad_freeOf (s : State) (n : Nat) (f : Quad → Quad) (m : Nat) : freeOf (modQuad s n f) m = freeOf s m := rfl
@[simp] theorem modQuad_portOf (s : State) (n : Nat) (f : Quad → Quad) (m : Nat) : portOf (modQuad s n f) m = portOf s m := rfl
@[simp] theorem modQuad_seqOf (s : State) (n : Nat) (f : Quad → Quad) (m : SeqId) : seqOf (modQuad s n f) m = seqOf s m := rfl
@[simp] theorem modQuad_liveOf (s : State) (n : Nat) (f : Quad → Quad) (m : CmdKey) : liveOf (modQuad s n f) m = liveOf s m := rfl
@[simp] theorem modQuad_queueOf (s : State) (n : Nat) (f : Quad → Quad) (m : Nat) : queueOf (modQuad s n f) m = queueOf s m := rfl
@[simp] theorem modQuad_findOutcome (s : State) (n : Nat) (f : Quad → Quad) (m : CmdKey) : findOutcome (modQuad s n f) m = findOutcome s m := rfl

@[simp] theorem modCluster_pending (s : State) (n : Nat) (f : Cluster → Cluster) : (modCluster s n f).pending = s.pending := rfl
@[simp] theorem modCluster_running (s : State) (n : Nat) (f : Cluster → Cluster) : (modCluster s n f).running = s.running := rfl
@[simp] theorem modCluster_fresh (s : State) (n : Nat) (f : Cluster → Cluster) : (modCluster s n f).fresh = s.fresh := rfl
@[simp] theorem modCluster_regs (s : State) (n : Nat) (f : Cluster → Cluster) : (modCluster s n f).regs = s.regs := rfl
@[simp] theorem modCluster_accessErr (s : State) (n : Nat) (f : Cluster → Cluster) : (modCluster s n f).accessErr = s.accessErr := rfl
@[simp] theorem modCluster_lastErr (s : State) (n : Nat) (f : Cluster → Cluster) : (modCluster s n f).lastErr = s.lastErr := rfl
@[simp] theorem modCluster_lockedWr (s : State) (n : Nat) (f : Cluster → Cluster) : (modCluster s n f).lockedWr = s.lockedWr := rfl
@[simp] theorem modCluster_badvalWr (s : State) (n : Nat) (f : Cluster → Cluster) : (modCluster s n f).badvalWr = s.badvalWr := rfl
@[simp] theorem modCluster_time (s : State) (n : Nat) (f : Cluster → Cluster) : (modCluster s n f).time = s.time := rfl
@[simp] theorem modCluster_fault (s : State) (n : Nat) (f : Cluster → Cluster) : (modCluster s n f).fault = s.fault := rfl
@[simp] theorem modCluster_cask (s : State) (n : Nat) (f : Cluster → Cluster) : (modCluster s n f).cask = s.cask := rfl
@[simp] theorem modCluster_snap (s : State) (n : Nat) (f : Cluster → Cluster) : (modCluster s n f).snap = s.snap := rfl
@[simp] theorem modCluster_mail (s : State) (n : Nat) (f : Cluster → Cluster) : (modCluster s n f).mail = s.mail := rfl
@[simp] theorem modCluster_exec (s : State) (n : Nat) (f : Cluster → Cluster) : (modCluster s n f).exec = s.exec := rfl
@[simp] theorem modCluster_net (s : State) (n : Nat) (f : Cluster → Cluster) : (modCluster s n f).net = s.net := rfl
@[simp] theorem modCluster_outcomes (s : State) (n : Nat) (f : Cluster → Cluster) : (modCluster s n f).outcomes = s.outcomes := rfl
@[simp] theorem modCluster_queues (s : State) (n : Nat) (f : Cluster → Cluster) : (modCluster s n f).queues = s.queues := rfl
@[simp] theorem modCluster_sched (s : State) (n : Nat) (f : Cluster → Cluster) : (modCluster s n f).sched = s.sched := rfl
@[simp] theorem modCluster_comp (s : State) (n : Nat) (f : Cluster → Cluster) : (modCluster s n f).comp = s.comp := rfl
@[simp] theorem modCluster_pfx (s : State) (n : Nat) (f : Cluster → Cluster) : (modCluster s n f).pfx = s.pfx := rfl
@[simp] theorem modCluster_link (s : State) (n : Nat) (f : Cluster → Cluster) : (modCluster s n f).link = s.link := rfl
@[simp] theorem modCluster_ledger (s : State) (n : Nat) (f : Cluster → Cluster) : (modCluster s n f).ledger = s.ledger := rfl
@[simp] theorem modCluster_trust (s : State) (n : Nat) (f : Cluster → Cluster) : (modCluster s n f).trust = s.trust := rfl
@[simp] theorem modCluster_boot (s : State) (n : Nat) (f : Cluster → Cluster) : (modCluster s n f).boot = s.boot := rfl
@[simp] theorem modCluster_pack (s : State) (n : Nat) (f : Cluster → Cluster) : (modCluster s n f).pack = s.pack := rfl
@[simp] theorem modCluster_srcOf (s : State) (n : Nat) (f : Cluster → Cluster) (m : Nat) : srcOf (modCluster s n f) m = srcOf s m := rfl
@[simp] theorem modCluster_chanOf (s : State) (n : Nat) (f : Cluster → Cluster) (m : Nat) : chanOf (modCluster s n f) m = chanOf s m := rfl
@[simp] theorem modCluster_stackOf (s : State) (n : Nat) (f : Cluster → Cluster) (m : Nat) : stackOf (modCluster s n f) m = stackOf s m := rfl
@[simp] theorem modCluster_quadOf (s : State) (n : Nat) (f : Cluster → Cluster) (m : Nat) : quadOf (modCluster s n f) m = quadOf s m := rfl
@[simp] theorem modCluster_tileOf (s : State) (n : Nat) (f : Cluster → Cluster) (m : Nat) : tileOf (modCluster s n f) m = tileOf s m := rfl
@[simp] theorem modCluster_frameOf (s : State) (n : Nat) (f : Cluster → Cluster) (m : Nat) : frameOf (modCluster s n f) m = frameOf s m := rfl
@[simp] theorem modCluster_freeOf (s : State) (n : Nat) (f : Cluster → Cluster) (m : Nat) : freeOf (modCluster s n f) m = freeOf s m := rfl
@[simp] theorem modCluster_portOf (s : State) (n : Nat) (f : Cluster → Cluster) (m : Nat) : portOf (modCluster s n f) m = portOf s m := rfl
@[simp] theorem modCluster_seqOf (s : State) (n : Nat) (f : Cluster → Cluster) (m : SeqId) : seqOf (modCluster s n f) m = seqOf s m := rfl
@[simp] theorem modCluster_liveOf (s : State) (n : Nat) (f : Cluster → Cluster) (m : CmdKey) : liveOf (modCluster s n f) m = liveOf s m := rfl
@[simp] theorem modCluster_queueOf (s : State) (n : Nat) (f : Cluster → Cluster) (m : Nat) : queueOf (modCluster s n f) m = queueOf s m := rfl
@[simp] theorem modCluster_findOutcome (s : State) (n : Nat) (f : Cluster → Cluster) (m : CmdKey) : findOutcome (modCluster s n f) m = findOutcome s m := rfl

@[simp] theorem modTile_pending (s : State) (n : Nat) (f : Tile → Tile) : (modTile s n f).pending = s.pending := rfl
@[simp] theorem modTile_running (s : State) (n : Nat) (f : Tile → Tile) : (modTile s n f).running = s.running := rfl
@[simp] theorem modTile_fresh (s : State) (n : Nat) (f : Tile → Tile) : (modTile s n f).fresh = s.fresh := rfl
@[simp] theorem modTile_regs (s : State) (n : Nat) (f : Tile → Tile) : (modTile s n f).regs = s.regs := rfl
@[simp] theorem modTile_accessErr (s : State) (n : Nat) (f : Tile → Tile) : (modTile s n f).accessErr = s.accessErr := rfl
@[simp] theorem modTile_lastErr (s : State) (n : Nat) (f : Tile → Tile) : (modTile s n f).lastErr = s.lastErr := rfl
@[simp] theorem modTile_lockedWr (s : State) (n : Nat) (f : Tile → Tile) : (modTile s n f).lockedWr = s.lockedWr := rfl
@[simp] theorem modTile_badvalWr (s : State) (n : Nat) (f : Tile → Tile) : (modTile s n f).badvalWr = s.badvalWr := rfl
@[simp] theorem modTile_time (s : State) (n : Nat) (f : Tile → Tile) : (modTile s n f).time = s.time := rfl
@[simp] theorem modTile_fault (s : State) (n : Nat) (f : Tile → Tile) : (modTile s n f).fault = s.fault := rfl
@[simp] theorem modTile_cask (s : State) (n : Nat) (f : Tile → Tile) : (modTile s n f).cask = s.cask := rfl
@[simp] theorem modTile_snap (s : State) (n : Nat) (f : Tile → Tile) : (modTile s n f).snap = s.snap := rfl
@[simp] theorem modTile_mail (s : State) (n : Nat) (f : Tile → Tile) : (modTile s n f).mail = s.mail := rfl
@[simp] theorem modTile_exec (s : State) (n : Nat) (f : Tile → Tile) : (modTile s n f).exec = s.exec := rfl
@[simp] theorem modTile_net (s : State) (n : Nat) (f : Tile → Tile) : (modTile s n f).net = s.net := rfl
@[simp] theorem modTile_outcomes (s : State) (n : Nat) (f : Tile → Tile) : (modTile s n f).outcomes = s.outcomes := rfl
@[simp] theorem modTile_queues (s : State) (n : Nat) (f : Tile → Tile) : (modTile s n f).queues = s.queues := rfl
@[simp] theorem modTile_sched (s : State) (n : Nat) (f : Tile → Tile) : (modTile s n f).sched = s.sched := rfl
@[simp] theorem modTile_comp (s : State) (n : Nat) (f : Tile → Tile) : (modTile s n f).comp = s.comp := rfl
@[simp] theorem modTile_pfx (s : State) (n : Nat) (f : Tile → Tile) : (modTile s n f).pfx = s.pfx := rfl
@[simp] theorem modTile_link (s : State) (n : Nat) (f : Tile → Tile) : (modTile s n f).link = s.link := rfl
@[simp] theorem modTile_ledger (s : State) (n : Nat) (f : Tile → Tile) : (modTile s n f).ledger = s.ledger := rfl
@[simp] theorem modTile_trust (s : State) (n : Nat) (f : Tile → Tile) : (modTile s n f).trust = s.trust := rfl
@[simp] theorem modTile_boot (s : State) (n : Nat) (f : Tile → Tile) : (modTile s n f).boot = s.boot := rfl
@[simp] theorem modTile_pack (s : State) (n : Nat) (f : Tile → Tile) : (modTile s n f).pack = s.pack := rfl
@[simp] theorem modTile_srcOf (s : State) (n : Nat) (f : Tile → Tile) (m : Nat) : srcOf (modTile s n f) m = srcOf s m := rfl
@[simp] theorem modTile_chanOf (s : State) (n : Nat) (f : Tile → Tile) (m : Nat) : chanOf (modTile s n f) m = chanOf s m := rfl
@[simp] theorem modTile_stackOf (s : State) (n : Nat) (f : Tile → Tile) (m : Nat) : stackOf (modTile s n f) m = stackOf s m := rfl
@[simp] theorem modTile_quadOf (s : State) (n : Nat) (f : Tile → Tile) (m : Nat) : quadOf (modTile s n f) m = quadOf s m := rfl
@[simp] theorem modTile_clusterOf (s : State) (n : Nat) (f : Tile → Tile) (m : Nat) : clusterOf (modTile s n f) m = clusterOf s m := rfl
@[simp] theorem modTile_frameOf (s : State) (n : Nat) (f : Tile → Tile) (m : Nat) : frameOf (modTile s n f) m = frameOf s m := rfl
@[simp] theorem modTile_freeOf (s : State) (n : Nat) (f : Tile → Tile) (m : Nat) : freeOf (modTile s n f) m = freeOf s m := rfl
@[simp] theorem modTile_portOf (s : State) (n : Nat) (f : Tile → Tile) (m : Nat) : portOf (modTile s n f) m = portOf s m := rfl
@[simp] theorem modTile_seqOf (s : State) (n : Nat) (f : Tile → Tile) (m : SeqId) : seqOf (modTile s n f) m = seqOf s m := rfl
@[simp] theorem modTile_liveOf (s : State) (n : Nat) (f : Tile → Tile) (m : CmdKey) : liveOf (modTile s n f) m = liveOf s m := rfl
@[simp] theorem modTile_queueOf (s : State) (n : Nat) (f : Tile → Tile) (m : Nat) : queueOf (modTile s n f) m = queueOf s m := rfl
@[simp] theorem modTile_findOutcome (s : State) (n : Nat) (f : Tile → Tile) (m : CmdKey) : findOutcome (modTile s n f) m = findOutcome s m := rfl

@[simp] theorem setFrame_pending (s : State) (n : Nat) (x : Frame) : (setFrame s n x).pending = s.pending := rfl
@[simp] theorem setFrame_running (s : State) (n : Nat) (x : Frame) : (setFrame s n x).running = s.running := rfl
@[simp] theorem setFrame_fresh (s : State) (n : Nat) (x : Frame) : (setFrame s n x).fresh = s.fresh := rfl
@[simp] theorem setFrame_regs (s : State) (n : Nat) (x : Frame) : (setFrame s n x).regs = s.regs := rfl
@[simp] theorem setFrame_accessErr (s : State) (n : Nat) (x : Frame) : (setFrame s n x).accessErr = s.accessErr := rfl
@[simp] theorem setFrame_lastErr (s : State) (n : Nat) (x : Frame) : (setFrame s n x).lastErr = s.lastErr := rfl
@[simp] theorem setFrame_lockedWr (s : State) (n : Nat) (x : Frame) : (setFrame s n x).lockedWr = s.lockedWr := rfl
@[simp] theorem setFrame_badvalWr (s : State) (n : Nat) (x : Frame) : (setFrame s n x).badvalWr = s.badvalWr := rfl
@[simp] theorem setFrame_time (s : State) (n : Nat) (x : Frame) : (setFrame s n x).time = s.time := rfl
@[simp] theorem setFrame_fault (s : State) (n : Nat) (x : Frame) : (setFrame s n x).fault = s.fault := rfl
@[simp] theorem setFrame_cask (s : State) (n : Nat) (x : Frame) : (setFrame s n x).cask = s.cask := rfl
@[simp] theorem setFrame_snap (s : State) (n : Nat) (x : Frame) : (setFrame s n x).snap = s.snap := rfl
@[simp] theorem setFrame_mail (s : State) (n : Nat) (x : Frame) : (setFrame s n x).mail = s.mail := rfl
@[simp] theorem setFrame_exec (s : State) (n : Nat) (x : Frame) : (setFrame s n x).exec = s.exec := rfl
@[simp] theorem setFrame_net (s : State) (n : Nat) (x : Frame) : (setFrame s n x).net = s.net := rfl
@[simp] theorem setFrame_outcomes (s : State) (n : Nat) (x : Frame) : (setFrame s n x).outcomes = s.outcomes := rfl
@[simp] theorem setFrame_queues (s : State) (n : Nat) (x : Frame) : (setFrame s n x).queues = s.queues := rfl
@[simp] theorem setFrame_sched (s : State) (n : Nat) (x : Frame) : (setFrame s n x).sched = s.sched := rfl
@[simp] theorem setFrame_comp (s : State) (n : Nat) (x : Frame) : (setFrame s n x).comp = s.comp := rfl
@[simp] theorem setFrame_pfx (s : State) (n : Nat) (x : Frame) : (setFrame s n x).pfx = s.pfx := rfl
@[simp] theorem setFrame_link (s : State) (n : Nat) (x : Frame) : (setFrame s n x).link = s.link := rfl
@[simp] theorem setFrame_ledger (s : State) (n : Nat) (x : Frame) : (setFrame s n x).ledger = s.ledger := rfl
@[simp] theorem setFrame_trust (s : State) (n : Nat) (x : Frame) : (setFrame s n x).trust = s.trust := rfl
@[simp] theorem setFrame_boot (s : State) (n : Nat) (x : Frame) : (setFrame s n x).boot = s.boot := rfl
@[simp] theorem setFrame_pack (s : State) (n : Nat) (x : Frame) : (setFrame s n x).pack = s.pack := rfl
@[simp] theorem setFrame_srcOf (s : State) (n : Nat) (x : Frame) (m : Nat) : srcOf (setFrame s n x) m = srcOf s m := rfl
@[simp] theorem setFrame_chanOf (s : State) (n : Nat) (x : Frame) (m : Nat) : chanOf (setFrame s n x) m = chanOf s m := rfl
@[simp] theorem setFrame_stackOf (s : State) (n : Nat) (x : Frame) (m : Nat) : stackOf (setFrame s n x) m = stackOf s m := rfl
@[simp] theorem setFrame_quadOf (s : State) (n : Nat) (x : Frame) (m : Nat) : quadOf (setFrame s n x) m = quadOf s m := rfl
@[simp] theorem setFrame_clusterOf (s : State) (n : Nat) (x : Frame) (m : Nat) : clusterOf (setFrame s n x) m = clusterOf s m := rfl
@[simp] theorem setFrame_tileOf (s : State) (n : Nat) (x : Frame) (m : Nat) : tileOf (setFrame s n x) m = tileOf s m := rfl
@[simp] theorem setFrame_freeOf (s : State) (n : Nat) (x : Frame) (m : Nat) : freeOf (setFrame s n x) m = freeOf s m := rfl
@[simp] theorem setFrame_portOf (s : State) (n : Nat) (x : Frame) (m : Nat) : portOf (setFrame s n x) m = portOf s m := rfl
@[simp] theorem setFrame_seqOf (s : State) (n : Nat) (x : Frame) (m : SeqId) : seqOf (setFrame s n x) m = seqOf s m := rfl
@[simp] theorem setFrame_liveOf (s : State) (n : Nat) (x : Frame) (m : CmdKey) : liveOf (setFrame s n x) m = liveOf s m := rfl
@[simp] theorem setFrame_queueOf (s : State) (n : Nat) (x : Frame) (m : Nat) : queueOf (setFrame s n x) m = queueOf s m := rfl
@[simp] theorem setFrame_findOutcome (s : State) (n : Nat) (x : Frame) (m : CmdKey) : findOutcome (setFrame s n x) m = findOutcome s m := rfl

@[simp] theorem modFrame_pending (s : State) (n : Nat) (f : Frame → Frame) : (modFrame s n f).pending = s.pending := rfl
@[simp] theorem modFrame_running (s : State) (n : Nat) (f : Frame → Frame) : (modFrame s n f).running = s.running := rfl
@[simp] theorem modFrame_fresh (s : State) (n : Nat) (f : Frame → Frame) : (modFrame s n f).fresh = s.fresh := rfl
@[simp] theorem modFrame_regs (s : State) (n : Nat) (f : Frame → Frame) : (modFrame s n f).regs = s.regs := rfl
@[simp] theorem modFrame_accessErr (s : State) (n : Nat) (f : Frame → Frame) : (modFrame s n f).accessErr = s.accessErr := rfl
@[simp] theorem modFrame_lastErr (s : State) (n : Nat) (f : Frame → Frame) : (modFrame s n f).lastErr = s.lastErr := rfl
@[simp] theorem modFrame_lockedWr (s : State) (n : Nat) (f : Frame → Frame) : (modFrame s n f).lockedWr = s.lockedWr := rfl
@[simp] theorem modFrame_badvalWr (s : State) (n : Nat) (f : Frame → Frame) : (modFrame s n f).badvalWr = s.badvalWr := rfl
@[simp] theorem modFrame_time (s : State) (n : Nat) (f : Frame → Frame) : (modFrame s n f).time = s.time := rfl
@[simp] theorem modFrame_fault (s : State) (n : Nat) (f : Frame → Frame) : (modFrame s n f).fault = s.fault := rfl
@[simp] theorem modFrame_cask (s : State) (n : Nat) (f : Frame → Frame) : (modFrame s n f).cask = s.cask := rfl
@[simp] theorem modFrame_snap (s : State) (n : Nat) (f : Frame → Frame) : (modFrame s n f).snap = s.snap := rfl
@[simp] theorem modFrame_mail (s : State) (n : Nat) (f : Frame → Frame) : (modFrame s n f).mail = s.mail := rfl
@[simp] theorem modFrame_exec (s : State) (n : Nat) (f : Frame → Frame) : (modFrame s n f).exec = s.exec := rfl
@[simp] theorem modFrame_net (s : State) (n : Nat) (f : Frame → Frame) : (modFrame s n f).net = s.net := rfl
@[simp] theorem modFrame_outcomes (s : State) (n : Nat) (f : Frame → Frame) : (modFrame s n f).outcomes = s.outcomes := rfl
@[simp] theorem modFrame_queues (s : State) (n : Nat) (f : Frame → Frame) : (modFrame s n f).queues = s.queues := rfl
@[simp] theorem modFrame_sched (s : State) (n : Nat) (f : Frame → Frame) : (modFrame s n f).sched = s.sched := rfl
@[simp] theorem modFrame_comp (s : State) (n : Nat) (f : Frame → Frame) : (modFrame s n f).comp = s.comp := rfl
@[simp] theorem modFrame_pfx (s : State) (n : Nat) (f : Frame → Frame) : (modFrame s n f).pfx = s.pfx := rfl
@[simp] theorem modFrame_link (s : State) (n : Nat) (f : Frame → Frame) : (modFrame s n f).link = s.link := rfl
@[simp] theorem modFrame_ledger (s : State) (n : Nat) (f : Frame → Frame) : (modFrame s n f).ledger = s.ledger := rfl
@[simp] theorem modFrame_trust (s : State) (n : Nat) (f : Frame → Frame) : (modFrame s n f).trust = s.trust := rfl
@[simp] theorem modFrame_boot (s : State) (n : Nat) (f : Frame → Frame) : (modFrame s n f).boot = s.boot := rfl
@[simp] theorem modFrame_pack (s : State) (n : Nat) (f : Frame → Frame) : (modFrame s n f).pack = s.pack := rfl
@[simp] theorem modFrame_srcOf (s : State) (n : Nat) (f : Frame → Frame) (m : Nat) : srcOf (modFrame s n f) m = srcOf s m := rfl
@[simp] theorem modFrame_chanOf (s : State) (n : Nat) (f : Frame → Frame) (m : Nat) : chanOf (modFrame s n f) m = chanOf s m := rfl
@[simp] theorem modFrame_stackOf (s : State) (n : Nat) (f : Frame → Frame) (m : Nat) : stackOf (modFrame s n f) m = stackOf s m := rfl
@[simp] theorem modFrame_quadOf (s : State) (n : Nat) (f : Frame → Frame) (m : Nat) : quadOf (modFrame s n f) m = quadOf s m := rfl
@[simp] theorem modFrame_clusterOf (s : State) (n : Nat) (f : Frame → Frame) (m : Nat) : clusterOf (modFrame s n f) m = clusterOf s m := rfl
@[simp] theorem modFrame_tileOf (s : State) (n : Nat) (f : Frame → Frame) (m : Nat) : tileOf (modFrame s n f) m = tileOf s m := rfl
@[simp] theorem modFrame_freeOf (s : State) (n : Nat) (f : Frame → Frame) (m : Nat) : freeOf (modFrame s n f) m = freeOf s m := rfl
@[simp] theorem modFrame_portOf (s : State) (n : Nat) (f : Frame → Frame) (m : Nat) : portOf (modFrame s n f) m = portOf s m := rfl
@[simp] theorem modFrame_seqOf (s : State) (n : Nat) (f : Frame → Frame) (m : SeqId) : seqOf (modFrame s n f) m = seqOf s m := rfl
@[simp] theorem modFrame_liveOf (s : State) (n : Nat) (f : Frame → Frame) (m : CmdKey) : liveOf (modFrame s n f) m = liveOf s m := rfl
@[simp] theorem modFrame_queueOf (s : State) (n : Nat) (f : Frame → Frame) (m : Nat) : queueOf (modFrame s n f) m = queueOf s m := rfl
@[simp] theorem modFrame_findOutcome (s : State) (n : Nat) (f : Frame → Frame) (m : CmdKey) : findOutcome (modFrame s n f) m = findOutcome s m := rfl

@[simp] theorem modFree_pending (s : State) (n : Nat) (f : FreeList → FreeList) : (modFree s n f).pending = s.pending := rfl
@[simp] theorem modFree_running (s : State) (n : Nat) (f : FreeList → FreeList) : (modFree s n f).running = s.running := rfl
@[simp] theorem modFree_fresh (s : State) (n : Nat) (f : FreeList → FreeList) : (modFree s n f).fresh = s.fresh := rfl
@[simp] theorem modFree_regs (s : State) (n : Nat) (f : FreeList → FreeList) : (modFree s n f).regs = s.regs := rfl
@[simp] theorem modFree_accessErr (s : State) (n : Nat) (f : FreeList → FreeList) : (modFree s n f).accessErr = s.accessErr := rfl
@[simp] theorem modFree_lastErr (s : State) (n : Nat) (f : FreeList → FreeList) : (modFree s n f).lastErr = s.lastErr := rfl
@[simp] theorem modFree_lockedWr (s : State) (n : Nat) (f : FreeList → FreeList) : (modFree s n f).lockedWr = s.lockedWr := rfl
@[simp] theorem modFree_badvalWr (s : State) (n : Nat) (f : FreeList → FreeList) : (modFree s n f).badvalWr = s.badvalWr := rfl
@[simp] theorem modFree_time (s : State) (n : Nat) (f : FreeList → FreeList) : (modFree s n f).time = s.time := rfl
@[simp] theorem modFree_fault (s : State) (n : Nat) (f : FreeList → FreeList) : (modFree s n f).fault = s.fault := rfl
@[simp] theorem modFree_cask (s : State) (n : Nat) (f : FreeList → FreeList) : (modFree s n f).cask = s.cask := rfl
@[simp] theorem modFree_snap (s : State) (n : Nat) (f : FreeList → FreeList) : (modFree s n f).snap = s.snap := rfl
@[simp] theorem modFree_mail (s : State) (n : Nat) (f : FreeList → FreeList) : (modFree s n f).mail = s.mail := rfl
@[simp] theorem modFree_exec (s : State) (n : Nat) (f : FreeList → FreeList) : (modFree s n f).exec = s.exec := rfl
@[simp] theorem modFree_net (s : State) (n : Nat) (f : FreeList → FreeList) : (modFree s n f).net = s.net := rfl
@[simp] theorem modFree_outcomes (s : State) (n : Nat) (f : FreeList → FreeList) : (modFree s n f).outcomes = s.outcomes := rfl
@[simp] theorem modFree_queues (s : State) (n : Nat) (f : FreeList → FreeList) : (modFree s n f).queues = s.queues := rfl
@[simp] theorem modFree_sched (s : State) (n : Nat) (f : FreeList → FreeList) : (modFree s n f).sched = s.sched := rfl
@[simp] theorem modFree_comp (s : State) (n : Nat) (f : FreeList → FreeList) : (modFree s n f).comp = s.comp := rfl
@[simp] theorem modFree_pfx (s : State) (n : Nat) (f : FreeList → FreeList) : (modFree s n f).pfx = s.pfx := rfl
@[simp] theorem modFree_link (s : State) (n : Nat) (f : FreeList → FreeList) : (modFree s n f).link = s.link := rfl
@[simp] theorem modFree_ledger (s : State) (n : Nat) (f : FreeList → FreeList) : (modFree s n f).ledger = s.ledger := rfl
@[simp] theorem modFree_trust (s : State) (n : Nat) (f : FreeList → FreeList) : (modFree s n f).trust = s.trust := rfl
@[simp] theorem modFree_boot (s : State) (n : Nat) (f : FreeList → FreeList) : (modFree s n f).boot = s.boot := rfl
@[simp] theorem modFree_pack (s : State) (n : Nat) (f : FreeList → FreeList) : (modFree s n f).pack = s.pack := rfl
@[simp] theorem modFree_srcOf (s : State) (n : Nat) (f : FreeList → FreeList) (m : Nat) : srcOf (modFree s n f) m = srcOf s m := rfl
@[simp] theorem modFree_chanOf (s : State) (n : Nat) (f : FreeList → FreeList) (m : Nat) : chanOf (modFree s n f) m = chanOf s m := rfl
@[simp] theorem modFree_stackOf (s : State) (n : Nat) (f : FreeList → FreeList) (m : Nat) : stackOf (modFree s n f) m = stackOf s m := rfl
@[simp] theorem modFree_quadOf (s : State) (n : Nat) (f : FreeList → FreeList) (m : Nat) : quadOf (modFree s n f) m = quadOf s m := rfl
@[simp] theorem modFree_clusterOf (s : State) (n : Nat) (f : FreeList → FreeList) (m : Nat) : clusterOf (modFree s n f) m = clusterOf s m := rfl
@[simp] theorem modFree_tileOf (s : State) (n : Nat) (f : FreeList → FreeList) (m : Nat) : tileOf (modFree s n f) m = tileOf s m := rfl
@[simp] theorem modFree_frameOf (s : State) (n : Nat) (f : FreeList → FreeList) (m : Nat) : frameOf (modFree s n f) m = frameOf s m := rfl
@[simp] theorem modFree_portOf (s : State) (n : Nat) (f : FreeList → FreeList) (m : Nat) : portOf (modFree s n f) m = portOf s m := rfl
@[simp] theorem modFree_seqOf (s : State) (n : Nat) (f : FreeList → FreeList) (m : SeqId) : seqOf (modFree s n f) m = seqOf s m := rfl
@[simp] theorem modFree_liveOf (s : State) (n : Nat) (f : FreeList → FreeList) (m : CmdKey) : liveOf (modFree s n f) m = liveOf s m := rfl
@[simp] theorem modFree_queueOf (s : State) (n : Nat) (f : FreeList → FreeList) (m : Nat) : queueOf (modFree s n f) m = queueOf s m := rfl
@[simp] theorem modFree_findOutcome (s : State) (n : Nat) (f : FreeList → FreeList) (m : CmdKey) : findOutcome (modFree s n f) m = findOutcome s m := rfl

@[simp] theorem modPort_pending (s : State) (n : Nat) (f : CellarPort → CellarPort) : (modPort s n f).pending = s.pending := rfl
@[simp] theorem modPort_running (s : State) (n : Nat) (f : CellarPort → CellarPort) : (modPort s n f).running = s.running := rfl
@[simp] theorem modPort_fresh (s : State) (n : Nat) (f : CellarPort → CellarPort) : (modPort s n f).fresh = s.fresh := rfl
@[simp] theorem modPort_regs (s : State) (n : Nat) (f : CellarPort → CellarPort) : (modPort s n f).regs = s.regs := rfl
@[simp] theorem modPort_accessErr (s : State) (n : Nat) (f : CellarPort → CellarPort) : (modPort s n f).accessErr = s.accessErr := rfl
@[simp] theorem modPort_lastErr (s : State) (n : Nat) (f : CellarPort → CellarPort) : (modPort s n f).lastErr = s.lastErr := rfl
@[simp] theorem modPort_lockedWr (s : State) (n : Nat) (f : CellarPort → CellarPort) : (modPort s n f).lockedWr = s.lockedWr := rfl
@[simp] theorem modPort_badvalWr (s : State) (n : Nat) (f : CellarPort → CellarPort) : (modPort s n f).badvalWr = s.badvalWr := rfl
@[simp] theorem modPort_time (s : State) (n : Nat) (f : CellarPort → CellarPort) : (modPort s n f).time = s.time := rfl
@[simp] theorem modPort_fault (s : State) (n : Nat) (f : CellarPort → CellarPort) : (modPort s n f).fault = s.fault := rfl
@[simp] theorem modPort_cask (s : State) (n : Nat) (f : CellarPort → CellarPort) : (modPort s n f).cask = s.cask := rfl
@[simp] theorem modPort_snap (s : State) (n : Nat) (f : CellarPort → CellarPort) : (modPort s n f).snap = s.snap := rfl
@[simp] theorem modPort_mail (s : State) (n : Nat) (f : CellarPort → CellarPort) : (modPort s n f).mail = s.mail := rfl
@[simp] theorem modPort_exec (s : State) (n : Nat) (f : CellarPort → CellarPort) : (modPort s n f).exec = s.exec := rfl
@[simp] theorem modPort_net (s : State) (n : Nat) (f : CellarPort → CellarPort) : (modPort s n f).net = s.net := rfl
@[simp] theorem modPort_outcomes (s : State) (n : Nat) (f : CellarPort → CellarPort) : (modPort s n f).outcomes = s.outcomes := rfl
@[simp] theorem modPort_queues (s : State) (n : Nat) (f : CellarPort → CellarPort) : (modPort s n f).queues = s.queues := rfl
@[simp] theorem modPort_sched (s : State) (n : Nat) (f : CellarPort → CellarPort) : (modPort s n f).sched = s.sched := rfl
@[simp] theorem modPort_comp (s : State) (n : Nat) (f : CellarPort → CellarPort) : (modPort s n f).comp = s.comp := rfl
@[simp] theorem modPort_pfx (s : State) (n : Nat) (f : CellarPort → CellarPort) : (modPort s n f).pfx = s.pfx := rfl
@[simp] theorem modPort_link (s : State) (n : Nat) (f : CellarPort → CellarPort) : (modPort s n f).link = s.link := rfl
@[simp] theorem modPort_ledger (s : State) (n : Nat) (f : CellarPort → CellarPort) : (modPort s n f).ledger = s.ledger := rfl
@[simp] theorem modPort_trust (s : State) (n : Nat) (f : CellarPort → CellarPort) : (modPort s n f).trust = s.trust := rfl
@[simp] theorem modPort_boot (s : State) (n : Nat) (f : CellarPort → CellarPort) : (modPort s n f).boot = s.boot := rfl
@[simp] theorem modPort_pack (s : State) (n : Nat) (f : CellarPort → CellarPort) : (modPort s n f).pack = s.pack := rfl
@[simp] theorem modPort_srcOf (s : State) (n : Nat) (f : CellarPort → CellarPort) (m : Nat) : srcOf (modPort s n f) m = srcOf s m := rfl
@[simp] theorem modPort_chanOf (s : State) (n : Nat) (f : CellarPort → CellarPort) (m : Nat) : chanOf (modPort s n f) m = chanOf s m := rfl
@[simp] theorem modPort_stackOf (s : State) (n : Nat) (f : CellarPort → CellarPort) (m : Nat) : stackOf (modPort s n f) m = stackOf s m := rfl
@[simp] theorem modPort_quadOf (s : State) (n : Nat) (f : CellarPort → CellarPort) (m : Nat) : quadOf (modPort s n f) m = quadOf s m := rfl
@[simp] theorem modPort_clusterOf (s : State) (n : Nat) (f : CellarPort → CellarPort) (m : Nat) : clusterOf (modPort s n f) m = clusterOf s m := rfl
@[simp] theorem modPort_tileOf (s : State) (n : Nat) (f : CellarPort → CellarPort) (m : Nat) : tileOf (modPort s n f) m = tileOf s m := rfl
@[simp] theorem modPort_frameOf (s : State) (n : Nat) (f : CellarPort → CellarPort) (m : Nat) : frameOf (modPort s n f) m = frameOf s m := rfl
@[simp] theorem modPort_freeOf (s : State) (n : Nat) (f : CellarPort → CellarPort) (m : Nat) : freeOf (modPort s n f) m = freeOf s m := rfl
@[simp] theorem modPort_seqOf (s : State) (n : Nat) (f : CellarPort → CellarPort) (m : SeqId) : seqOf (modPort s n f) m = seqOf s m := rfl
@[simp] theorem modPort_liveOf (s : State) (n : Nat) (f : CellarPort → CellarPort) (m : CmdKey) : liveOf (modPort s n f) m = liveOf s m := rfl
@[simp] theorem modPort_queueOf (s : State) (n : Nat) (f : CellarPort → CellarPort) (m : Nat) : queueOf (modPort s n f) m = queueOf s m := rfl
@[simp] theorem modPort_findOutcome (s : State) (n : Nat) (f : CellarPort → CellarPort) (m : CmdKey) : findOutcome (modPort s n f) m = findOutcome s m := rfl

@[simp] theorem setSeq_pending (s : State) (q : SeqId) (x : Seq) : (setSeq s q x).pending = s.pending := rfl
@[simp] theorem setSeq_running (s : State) (q : SeqId) (x : Seq) : (setSeq s q x).running = s.running := rfl
@[simp] theorem setSeq_fresh (s : State) (q : SeqId) (x : Seq) : (setSeq s q x).fresh = s.fresh := rfl
@[simp] theorem setSeq_regs (s : State) (q : SeqId) (x : Seq) : (setSeq s q x).regs = s.regs := rfl
@[simp] theorem setSeq_accessErr (s : State) (q : SeqId) (x : Seq) : (setSeq s q x).accessErr = s.accessErr := rfl
@[simp] theorem setSeq_lastErr (s : State) (q : SeqId) (x : Seq) : (setSeq s q x).lastErr = s.lastErr := rfl
@[simp] theorem setSeq_lockedWr (s : State) (q : SeqId) (x : Seq) : (setSeq s q x).lockedWr = s.lockedWr := rfl
@[simp] theorem setSeq_badvalWr (s : State) (q : SeqId) (x : Seq) : (setSeq s q x).badvalWr = s.badvalWr := rfl
@[simp] theorem setSeq_time (s : State) (q : SeqId) (x : Seq) : (setSeq s q x).time = s.time := rfl
@[simp] theorem setSeq_fault (s : State) (q : SeqId) (x : Seq) : (setSeq s q x).fault = s.fault := rfl
@[simp] theorem setSeq_cask (s : State) (q : SeqId) (x : Seq) : (setSeq s q x).cask = s.cask := rfl
@[simp] theorem setSeq_snap (s : State) (q : SeqId) (x : Seq) : (setSeq s q x).snap = s.snap := rfl
@[simp] theorem setSeq_mail (s : State) (q : SeqId) (x : Seq) : (setSeq s q x).mail = s.mail := rfl
@[simp] theorem setSeq_exec (s : State) (q : SeqId) (x : Seq) : (setSeq s q x).exec = s.exec := rfl
@[simp] theorem setSeq_net (s : State) (q : SeqId) (x : Seq) : (setSeq s q x).net = s.net := rfl
@[simp] theorem setSeq_outcomes (s : State) (q : SeqId) (x : Seq) : (setSeq s q x).outcomes = s.outcomes := rfl
@[simp] theorem setSeq_queues (s : State) (q : SeqId) (x : Seq) : (setSeq s q x).queues = s.queues := rfl
@[simp] theorem setSeq_sched (s : State) (q : SeqId) (x : Seq) : (setSeq s q x).sched = s.sched := rfl
@[simp] theorem setSeq_comp (s : State) (q : SeqId) (x : Seq) : (setSeq s q x).comp = s.comp := rfl
@[simp] theorem setSeq_pfx (s : State) (q : SeqId) (x : Seq) : (setSeq s q x).pfx = s.pfx := rfl
@[simp] theorem setSeq_link (s : State) (q : SeqId) (x : Seq) : (setSeq s q x).link = s.link := rfl
@[simp] theorem setSeq_ledger (s : State) (q : SeqId) (x : Seq) : (setSeq s q x).ledger = s.ledger := rfl
@[simp] theorem setSeq_trust (s : State) (q : SeqId) (x : Seq) : (setSeq s q x).trust = s.trust := rfl
@[simp] theorem setSeq_boot (s : State) (q : SeqId) (x : Seq) : (setSeq s q x).boot = s.boot := rfl
@[simp] theorem setSeq_pack (s : State) (q : SeqId) (x : Seq) : (setSeq s q x).pack = s.pack := rfl
@[simp] theorem setSeq_srcOf (s : State) (q : SeqId) (x : Seq) (m : Nat) : srcOf (setSeq s q x) m = srcOf s m := rfl
@[simp] theorem setSeq_chanOf (s : State) (q : SeqId) (x : Seq) (m : Nat) : chanOf (setSeq s q x) m = chanOf s m := rfl
@[simp] theorem setSeq_stackOf (s : State) (q : SeqId) (x : Seq) (m : Nat) : stackOf (setSeq s q x) m = stackOf s m := rfl
@[simp] theorem setSeq_quadOf (s : State) (q : SeqId) (x : Seq) (m : Nat) : quadOf (setSeq s q x) m = quadOf s m := rfl
@[simp] theorem setSeq_clusterOf (s : State) (q : SeqId) (x : Seq) (m : Nat) : clusterOf (setSeq s q x) m = clusterOf s m := rfl
@[simp] theorem setSeq_tileOf (s : State) (q : SeqId) (x : Seq) (m : Nat) : tileOf (setSeq s q x) m = tileOf s m := rfl
@[simp] theorem setSeq_frameOf (s : State) (q : SeqId) (x : Seq) (m : Nat) : frameOf (setSeq s q x) m = frameOf s m := rfl
@[simp] theorem setSeq_freeOf (s : State) (q : SeqId) (x : Seq) (m : Nat) : freeOf (setSeq s q x) m = freeOf s m := rfl
@[simp] theorem setSeq_portOf (s : State) (q : SeqId) (x : Seq) (m : Nat) : portOf (setSeq s q x) m = portOf s m := rfl
@[simp] theorem setSeq_liveOf (s : State) (q : SeqId) (x : Seq) (m : CmdKey) : liveOf (setSeq s q x) m = liveOf s m := rfl
@[simp] theorem setSeq_queueOf (s : State) (q : SeqId) (x : Seq) (m : Nat) : queueOf (setSeq s q x) m = queueOf s m := rfl
@[simp] theorem setSeq_findOutcome (s : State) (q : SeqId) (x : Seq) (m : CmdKey) : findOutcome (setSeq s q x) m = findOutcome s m := rfl

@[simp] theorem modPlan_pending (s : State) (k : CmdKey) (f : Plan → Plan) : (modPlan s k f).pending = s.pending := rfl
@[simp] theorem modPlan_running (s : State) (k : CmdKey) (f : Plan → Plan) : (modPlan s k f).running = s.running := rfl
@[simp] theorem modPlan_fresh (s : State) (k : CmdKey) (f : Plan → Plan) : (modPlan s k f).fresh = s.fresh := rfl
@[simp] theorem modPlan_regs (s : State) (k : CmdKey) (f : Plan → Plan) : (modPlan s k f).regs = s.regs := rfl
@[simp] theorem modPlan_accessErr (s : State) (k : CmdKey) (f : Plan → Plan) : (modPlan s k f).accessErr = s.accessErr := rfl
@[simp] theorem modPlan_lastErr (s : State) (k : CmdKey) (f : Plan → Plan) : (modPlan s k f).lastErr = s.lastErr := rfl
@[simp] theorem modPlan_lockedWr (s : State) (k : CmdKey) (f : Plan → Plan) : (modPlan s k f).lockedWr = s.lockedWr := rfl
@[simp] theorem modPlan_badvalWr (s : State) (k : CmdKey) (f : Plan → Plan) : (modPlan s k f).badvalWr = s.badvalWr := rfl
@[simp] theorem modPlan_time (s : State) (k : CmdKey) (f : Plan → Plan) : (modPlan s k f).time = s.time := rfl
@[simp] theorem modPlan_fault (s : State) (k : CmdKey) (f : Plan → Plan) : (modPlan s k f).fault = s.fault := rfl
@[simp] theorem modPlan_cask (s : State) (k : CmdKey) (f : Plan → Plan) : (modPlan s k f).cask = s.cask := rfl
@[simp] theorem modPlan_snap (s : State) (k : CmdKey) (f : Plan → Plan) : (modPlan s k f).snap = s.snap := rfl
@[simp] theorem modPlan_mail (s : State) (k : CmdKey) (f : Plan → Plan) : (modPlan s k f).mail = s.mail := rfl
@[simp] theorem modPlan_mem (s : State) (k : CmdKey) (f : Plan → Plan) : (modPlan s k f).mem = s.mem := rfl
@[simp] theorem modPlan_net (s : State) (k : CmdKey) (f : Plan → Plan) : (modPlan s k f).net = s.net := rfl
@[simp] theorem modPlan_outcomes (s : State) (k : CmdKey) (f : Plan → Plan) : (modPlan s k f).outcomes = s.outcomes := rfl
@[simp] theorem modPlan_queues (s : State) (k : CmdKey) (f : Plan → Plan) : (modPlan s k f).queues = s.queues := rfl
@[simp] theorem modPlan_sched (s : State) (k : CmdKey) (f : Plan → Plan) : (modPlan s k f).sched = s.sched := rfl
@[simp] theorem modPlan_comp (s : State) (k : CmdKey) (f : Plan → Plan) : (modPlan s k f).comp = s.comp := rfl
@[simp] theorem modPlan_pfx (s : State) (k : CmdKey) (f : Plan → Plan) : (modPlan s k f).pfx = s.pfx := rfl
@[simp] theorem modPlan_link (s : State) (k : CmdKey) (f : Plan → Plan) : (modPlan s k f).link = s.link := rfl
@[simp] theorem modPlan_ledger (s : State) (k : CmdKey) (f : Plan → Plan) : (modPlan s k f).ledger = s.ledger := rfl
@[simp] theorem modPlan_trust (s : State) (k : CmdKey) (f : Plan → Plan) : (modPlan s k f).trust = s.trust := rfl
@[simp] theorem modPlan_boot (s : State) (k : CmdKey) (f : Plan → Plan) : (modPlan s k f).boot = s.boot := rfl
@[simp] theorem modPlan_pack (s : State) (k : CmdKey) (f : Plan → Plan) : (modPlan s k f).pack = s.pack := rfl
@[simp] theorem modPlan_srcOf (s : State) (k : CmdKey) (f : Plan → Plan) (m : Nat) : srcOf (modPlan s k f) m = srcOf s m := rfl
@[simp] theorem modPlan_chanOf (s : State) (k : CmdKey) (f : Plan → Plan) (m : Nat) : chanOf (modPlan s k f) m = chanOf s m := rfl
@[simp] theorem modPlan_stackOf (s : State) (k : CmdKey) (f : Plan → Plan) (m : Nat) : stackOf (modPlan s k f) m = stackOf s m := rfl
@[simp] theorem modPlan_quadOf (s : State) (k : CmdKey) (f : Plan → Plan) (m : Nat) : quadOf (modPlan s k f) m = quadOf s m := rfl
@[simp] theorem modPlan_tileOf (s : State) (k : CmdKey) (f : Plan → Plan) (m : Nat) : tileOf (modPlan s k f) m = tileOf s m := rfl
@[simp] theorem modPlan_frameOf (s : State) (k : CmdKey) (f : Plan → Plan) (m : Nat) : frameOf (modPlan s k f) m = frameOf s m := rfl
@[simp] theorem modPlan_portOf (s : State) (k : CmdKey) (f : Plan → Plan) (m : Nat) : portOf (modPlan s k f) m = portOf s m := rfl
@[simp] theorem modPlan_seqOf (s : State) (k : CmdKey) (f : Plan → Plan) (m : SeqId) : seqOf (modPlan s k f) m = seqOf s m := rfl
@[simp] theorem modPlan_visitOf (s : State) (k : CmdKey) (f : Plan → Plan) (m : Nat) : visitOf (modPlan s k f) m = visitOf s m := rfl
@[simp] theorem modPlan_liveOf (s : State) (k : CmdKey) (f : Plan → Plan) (m : CmdKey) : liveOf (modPlan s k f) m = liveOf s m := rfl
@[simp] theorem modPlan_queueOf (s : State) (k : CmdKey) (f : Plan → Plan) (m : Nat) : queueOf (modPlan s k f) m = queueOf s m := rfl
@[simp] theorem modPlan_findOutcome (s : State) (k : CmdKey) (f : Plan → Plan) (m : CmdKey) : findOutcome (modPlan s k f) m = findOutcome s m := rfl

@[simp] theorem modVisit_pending (s : State) (n : Nat) (f : Visit → Visit) : (modVisit s n f).pending = s.pending := rfl
@[simp] theorem modVisit_running (s : State) (n : Nat) (f : Visit → Visit) : (modVisit s n f).running = s.running := rfl
@[simp] theorem modVisit_fresh (s : State) (n : Nat) (f : Visit → Visit) : (modVisit s n f).fresh = s.fresh := rfl
@[simp] theorem modVisit_regs (s : State) (n : Nat) (f : Visit → Visit) : (modVisit s n f).regs = s.regs := rfl
@[simp] theorem modVisit_accessErr (s : State) (n : Nat) (f : Visit → Visit) : (modVisit s n f).accessErr = s.accessErr := rfl
@[simp] theorem modVisit_lastErr (s : State) (n : Nat) (f : Visit → Visit) : (modVisit s n f).lastErr = s.lastErr := rfl
@[simp] theorem modVisit_lockedWr (s : State) (n : Nat) (f : Visit → Visit) : (modVisit s n f).lockedWr = s.lockedWr := rfl
@[simp] theorem modVisit_badvalWr (s : State) (n : Nat) (f : Visit → Visit) : (modVisit s n f).badvalWr = s.badvalWr := rfl
@[simp] theorem modVisit_time (s : State) (n : Nat) (f : Visit → Visit) : (modVisit s n f).time = s.time := rfl
@[simp] theorem modVisit_fault (s : State) (n : Nat) (f : Visit → Visit) : (modVisit s n f).fault = s.fault := rfl
@[simp] theorem modVisit_cask (s : State) (n : Nat) (f : Visit → Visit) : (modVisit s n f).cask = s.cask := rfl
@[simp] theorem modVisit_snap (s : State) (n : Nat) (f : Visit → Visit) : (modVisit s n f).snap = s.snap := rfl
@[simp] theorem modVisit_mail (s : State) (n : Nat) (f : Visit → Visit) : (modVisit s n f).mail = s.mail := rfl
@[simp] theorem modVisit_mem (s : State) (n : Nat) (f : Visit → Visit) : (modVisit s n f).mem = s.mem := rfl
@[simp] theorem modVisit_net (s : State) (n : Nat) (f : Visit → Visit) : (modVisit s n f).net = s.net := rfl
@[simp] theorem modVisit_outcomes (s : State) (n : Nat) (f : Visit → Visit) : (modVisit s n f).outcomes = s.outcomes := rfl
@[simp] theorem modVisit_queues (s : State) (n : Nat) (f : Visit → Visit) : (modVisit s n f).queues = s.queues := rfl
@[simp] theorem modVisit_sched (s : State) (n : Nat) (f : Visit → Visit) : (modVisit s n f).sched = s.sched := rfl
@[simp] theorem modVisit_comp (s : State) (n : Nat) (f : Visit → Visit) : (modVisit s n f).comp = s.comp := rfl
@[simp] theorem modVisit_pfx (s : State) (n : Nat) (f : Visit → Visit) : (modVisit s n f).pfx = s.pfx := rfl
@[simp] theorem modVisit_link (s : State) (n : Nat) (f : Visit → Visit) : (modVisit s n f).link = s.link := rfl
@[simp] theorem modVisit_ledger (s : State) (n : Nat) (f : Visit → Visit) : (modVisit s n f).ledger = s.ledger := rfl
@[simp] theorem modVisit_trust (s : State) (n : Nat) (f : Visit → Visit) : (modVisit s n f).trust = s.trust := rfl
@[simp] theorem modVisit_boot (s : State) (n : Nat) (f : Visit → Visit) : (modVisit s n f).boot = s.boot := rfl
@[simp] theorem modVisit_pack (s : State) (n : Nat) (f : Visit → Visit) : (modVisit s n f).pack = s.pack := rfl
@[simp] theorem modVisit_srcOf (s : State) (n : Nat) (f : Visit → Visit) (m : Nat) : srcOf (modVisit s n f) m = srcOf s m := rfl
@[simp] theorem modVisit_chanOf (s : State) (n : Nat) (f : Visit → Visit) (m : Nat) : chanOf (modVisit s n f) m = chanOf s m := rfl
@[simp] theorem modVisit_stackOf (s : State) (n : Nat) (f : Visit → Visit) (m : Nat) : stackOf (modVisit s n f) m = stackOf s m := rfl
@[simp] theorem modVisit_quadOf (s : State) (n : Nat) (f : Visit → Visit) (m : Nat) : quadOf (modVisit s n f) m = quadOf s m := rfl
@[simp] theorem modVisit_tileOf (s : State) (n : Nat) (f : Visit → Visit) (m : Nat) : tileOf (modVisit s n f) m = tileOf s m := rfl
@[simp] theorem modVisit_frameOf (s : State) (n : Nat) (f : Visit → Visit) (m : Nat) : frameOf (modVisit s n f) m = frameOf s m := rfl
@[simp] theorem modVisit_portOf (s : State) (n : Nat) (f : Visit → Visit) (m : Nat) : portOf (modVisit s n f) m = portOf s m := rfl
@[simp] theorem modVisit_seqOf (s : State) (n : Nat) (f : Visit → Visit) (m : SeqId) : seqOf (modVisit s n f) m = seqOf s m := rfl
@[simp] theorem modVisit_planFor (s : State) (n : Nat) (f : Visit → Visit) (m : CmdKey) : planFor (modVisit s n f) m = planFor s m := rfl
@[simp] theorem modVisit_liveOf (s : State) (n : Nat) (f : Visit → Visit) (m : CmdKey) : liveOf (modVisit s n f) m = liveOf s m := rfl
@[simp] theorem modVisit_queueOf (s : State) (n : Nat) (f : Visit → Visit) (m : Nat) : queueOf (modVisit s n f) m = queueOf s m := rfl
@[simp] theorem modVisit_findOutcome (s : State) (n : Nat) (f : Visit → Visit) (m : CmdKey) : findOutcome (modVisit s n f) m = findOutcome s m := rfl

@[simp] theorem dropLive_pending (s : State) (k : CmdKey) : (dropLive s k).pending = s.pending := rfl
@[simp] theorem dropLive_running (s : State) (k : CmdKey) : (dropLive s k).running = s.running := rfl
@[simp] theorem dropLive_fresh (s : State) (k : CmdKey) : (dropLive s k).fresh = s.fresh := rfl
@[simp] theorem dropLive_regs (s : State) (k : CmdKey) : (dropLive s k).regs = s.regs := rfl
@[simp] theorem dropLive_accessErr (s : State) (k : CmdKey) : (dropLive s k).accessErr = s.accessErr := rfl
@[simp] theorem dropLive_lastErr (s : State) (k : CmdKey) : (dropLive s k).lastErr = s.lastErr := rfl
@[simp] theorem dropLive_lockedWr (s : State) (k : CmdKey) : (dropLive s k).lockedWr = s.lockedWr := rfl
@[simp] theorem dropLive_badvalWr (s : State) (k : CmdKey) : (dropLive s k).badvalWr = s.badvalWr := rfl
@[simp] theorem dropLive_time (s : State) (k : CmdKey) : (dropLive s k).time = s.time := rfl
@[simp] theorem dropLive_fault (s : State) (k : CmdKey) : (dropLive s k).fault = s.fault := rfl
@[simp] theorem dropLive_cask (s : State) (k : CmdKey) : (dropLive s k).cask = s.cask := rfl
@[simp] theorem dropLive_snap (s : State) (k : CmdKey) : (dropLive s k).snap = s.snap := rfl
@[simp] theorem dropLive_mail (s : State) (k : CmdKey) : (dropLive s k).mail = s.mail := rfl
@[simp] theorem dropLive_mem (s : State) (k : CmdKey) : (dropLive s k).mem = s.mem := rfl
@[simp] theorem dropLive_net (s : State) (k : CmdKey) : (dropLive s k).net = s.net := rfl
@[simp] theorem dropLive_outcomes (s : State) (k : CmdKey) : (dropLive s k).outcomes = s.outcomes := rfl
@[simp] theorem dropLive_queues (s : State) (k : CmdKey) : (dropLive s k).queues = s.queues := rfl
@[simp] theorem dropLive_sched (s : State) (k : CmdKey) : (dropLive s k).sched = s.sched := rfl
@[simp] theorem dropLive_comp (s : State) (k : CmdKey) : (dropLive s k).comp = s.comp := rfl
@[simp] theorem dropLive_pfx (s : State) (k : CmdKey) : (dropLive s k).pfx = s.pfx := rfl
@[simp] theorem dropLive_link (s : State) (k : CmdKey) : (dropLive s k).link = s.link := rfl
@[simp] theorem dropLive_ledger (s : State) (k : CmdKey) : (dropLive s k).ledger = s.ledger := rfl
@[simp] theorem dropLive_trust (s : State) (k : CmdKey) : (dropLive s k).trust = s.trust := rfl
@[simp] theorem dropLive_boot (s : State) (k : CmdKey) : (dropLive s k).boot = s.boot := rfl
@[simp] theorem dropLive_pack (s : State) (k : CmdKey) : (dropLive s k).pack = s.pack := rfl
@[simp] theorem dropLive_srcOf (s : State) (k : CmdKey) (m : Nat) : srcOf (dropLive s k) m = srcOf s m := rfl
@[simp] theorem dropLive_chanOf (s : State) (k : CmdKey) (m : Nat) : chanOf (dropLive s k) m = chanOf s m := rfl
@[simp] theorem dropLive_stackOf (s : State) (k : CmdKey) (m : Nat) : stackOf (dropLive s k) m = stackOf s m := rfl
@[simp] theorem dropLive_quadOf (s : State) (k : CmdKey) (m : Nat) : quadOf (dropLive s k) m = quadOf s m := rfl
@[simp] theorem dropLive_tileOf (s : State) (k : CmdKey) (m : Nat) : tileOf (dropLive s k) m = tileOf s m := rfl
@[simp] theorem dropLive_frameOf (s : State) (k : CmdKey) (m : Nat) : frameOf (dropLive s k) m = frameOf s m := rfl
@[simp] theorem dropLive_portOf (s : State) (k : CmdKey) (m : Nat) : portOf (dropLive s k) m = portOf s m := rfl
@[simp] theorem dropLive_seqOf (s : State) (k : CmdKey) (m : SeqId) : seqOf (dropLive s k) m = seqOf s m := rfl
@[simp] theorem dropLive_planFor (s : State) (k : CmdKey) (m : CmdKey) : planFor (dropLive s k) m = planFor s m := rfl
@[simp] theorem dropLive_visitOf (s : State) (k : CmdKey) (m : Nat) : visitOf (dropLive s k) m = visitOf s m := rfl
@[simp] theorem dropLive_queueOf (s : State) (k : CmdKey) (m : Nat) : queueOf (dropLive s k) m = queueOf s m := rfl
@[simp] theorem dropLive_findOutcome (s : State) (k : CmdKey) (m : CmdKey) : findOutcome (dropLive s k) m = findOutcome s m := rfl

@[simp] theorem modLive_pending (s : State) (k : CmdKey) (f : Live → Live) : (modLive s k f).pending = s.pending := rfl
@[simp] theorem modLive_running (s : State) (k : CmdKey) (f : Live → Live) : (modLive s k f).running = s.running := rfl
@[simp] theorem modLive_fresh (s : State) (k : CmdKey) (f : Live → Live) : (modLive s k f).fresh = s.fresh := rfl
@[simp] theorem modLive_regs (s : State) (k : CmdKey) (f : Live → Live) : (modLive s k f).regs = s.regs := rfl
@[simp] theorem modLive_accessErr (s : State) (k : CmdKey) (f : Live → Live) : (modLive s k f).accessErr = s.accessErr := rfl
@[simp] theorem modLive_lastErr (s : State) (k : CmdKey) (f : Live → Live) : (modLive s k f).lastErr = s.lastErr := rfl
@[simp] theorem modLive_lockedWr (s : State) (k : CmdKey) (f : Live → Live) : (modLive s k f).lockedWr = s.lockedWr := rfl
@[simp] theorem modLive_badvalWr (s : State) (k : CmdKey) (f : Live → Live) : (modLive s k f).badvalWr = s.badvalWr := rfl
@[simp] theorem modLive_time (s : State) (k : CmdKey) (f : Live → Live) : (modLive s k f).time = s.time := rfl
@[simp] theorem modLive_fault (s : State) (k : CmdKey) (f : Live → Live) : (modLive s k f).fault = s.fault := rfl
@[simp] theorem modLive_cask (s : State) (k : CmdKey) (f : Live → Live) : (modLive s k f).cask = s.cask := rfl
@[simp] theorem modLive_snap (s : State) (k : CmdKey) (f : Live → Live) : (modLive s k f).snap = s.snap := rfl
@[simp] theorem modLive_mail (s : State) (k : CmdKey) (f : Live → Live) : (modLive s k f).mail = s.mail := rfl
@[simp] theorem modLive_mem (s : State) (k : CmdKey) (f : Live → Live) : (modLive s k f).mem = s.mem := rfl
@[simp] theorem modLive_net (s : State) (k : CmdKey) (f : Live → Live) : (modLive s k f).net = s.net := rfl
@[simp] theorem modLive_outcomes (s : State) (k : CmdKey) (f : Live → Live) : (modLive s k f).outcomes = s.outcomes := rfl
@[simp] theorem modLive_queues (s : State) (k : CmdKey) (f : Live → Live) : (modLive s k f).queues = s.queues := rfl
@[simp] theorem modLive_sched (s : State) (k : CmdKey) (f : Live → Live) : (modLive s k f).sched = s.sched := rfl
@[simp] theorem modLive_comp (s : State) (k : CmdKey) (f : Live → Live) : (modLive s k f).comp = s.comp := rfl
@[simp] theorem modLive_pfx (s : State) (k : CmdKey) (f : Live → Live) : (modLive s k f).pfx = s.pfx := rfl
@[simp] theorem modLive_link (s : State) (k : CmdKey) (f : Live → Live) : (modLive s k f).link = s.link := rfl
@[simp] theorem modLive_ledger (s : State) (k : CmdKey) (f : Live → Live) : (modLive s k f).ledger = s.ledger := rfl
@[simp] theorem modLive_trust (s : State) (k : CmdKey) (f : Live → Live) : (modLive s k f).trust = s.trust := rfl
@[simp] theorem modLive_boot (s : State) (k : CmdKey) (f : Live → Live) : (modLive s k f).boot = s.boot := rfl
@[simp] theorem modLive_pack (s : State) (k : CmdKey) (f : Live → Live) : (modLive s k f).pack = s.pack := rfl
@[simp] theorem modLive_srcOf (s : State) (k : CmdKey) (f : Live → Live) (m : Nat) : srcOf (modLive s k f) m = srcOf s m := rfl
@[simp] theorem modLive_chanOf (s : State) (k : CmdKey) (f : Live → Live) (m : Nat) : chanOf (modLive s k f) m = chanOf s m := rfl
@[simp] theorem modLive_stackOf (s : State) (k : CmdKey) (f : Live → Live) (m : Nat) : stackOf (modLive s k f) m = stackOf s m := rfl
@[simp] theorem modLive_quadOf (s : State) (k : CmdKey) (f : Live → Live) (m : Nat) : quadOf (modLive s k f) m = quadOf s m := rfl
@[simp] theorem modLive_tileOf (s : State) (k : CmdKey) (f : Live → Live) (m : Nat) : tileOf (modLive s k f) m = tileOf s m := rfl
@[simp] theorem modLive_frameOf (s : State) (k : CmdKey) (f : Live → Live) (m : Nat) : frameOf (modLive s k f) m = frameOf s m := rfl
@[simp] theorem modLive_portOf (s : State) (k : CmdKey) (f : Live → Live) (m : Nat) : portOf (modLive s k f) m = portOf s m := rfl
@[simp] theorem modLive_seqOf (s : State) (k : CmdKey) (f : Live → Live) (m : SeqId) : seqOf (modLive s k f) m = seqOf s m := rfl
@[simp] theorem modLive_planFor (s : State) (k : CmdKey) (f : Live → Live) (m : CmdKey) : planFor (modLive s k f) m = planFor s m := rfl
@[simp] theorem modLive_visitOf (s : State) (k : CmdKey) (f : Live → Live) (m : Nat) : visitOf (modLive s k f) m = visitOf s m := rfl
@[simp] theorem modLive_queueOf (s : State) (k : CmdKey) (f : Live → Live) (m : Nat) : queueOf (modLive s k f) m = queueOf s m := rfl
@[simp] theorem modLive_findOutcome (s : State) (k : CmdKey) (f : Live → Live) (m : CmdKey) : findOutcome (modLive s k f) m = findOutcome s m := rfl

@[simp] theorem modCtx_pending (s : State) (k : AssocKey) (f : PeerCtx → PeerCtx) : (modCtx s k f).pending = s.pending := rfl
@[simp] theorem modCtx_running (s : State) (k : AssocKey) (f : PeerCtx → PeerCtx) : (modCtx s k f).running = s.running := rfl
@[simp] theorem modCtx_fresh (s : State) (k : AssocKey) (f : PeerCtx → PeerCtx) : (modCtx s k f).fresh = s.fresh := rfl
@[simp] theorem modCtx_regs (s : State) (k : AssocKey) (f : PeerCtx → PeerCtx) : (modCtx s k f).regs = s.regs := rfl
@[simp] theorem modCtx_accessErr (s : State) (k : AssocKey) (f : PeerCtx → PeerCtx) : (modCtx s k f).accessErr = s.accessErr := rfl
@[simp] theorem modCtx_lastErr (s : State) (k : AssocKey) (f : PeerCtx → PeerCtx) : (modCtx s k f).lastErr = s.lastErr := rfl
@[simp] theorem modCtx_lockedWr (s : State) (k : AssocKey) (f : PeerCtx → PeerCtx) : (modCtx s k f).lockedWr = s.lockedWr := rfl
@[simp] theorem modCtx_badvalWr (s : State) (k : AssocKey) (f : PeerCtx → PeerCtx) : (modCtx s k f).badvalWr = s.badvalWr := rfl
@[simp] theorem modCtx_time (s : State) (k : AssocKey) (f : PeerCtx → PeerCtx) : (modCtx s k f).time = s.time := rfl
@[simp] theorem modCtx_fault (s : State) (k : AssocKey) (f : PeerCtx → PeerCtx) : (modCtx s k f).fault = s.fault := rfl
@[simp] theorem modCtx_cask (s : State) (k : AssocKey) (f : PeerCtx → PeerCtx) : (modCtx s k f).cask = s.cask := rfl
@[simp] theorem modCtx_snap (s : State) (k : AssocKey) (f : PeerCtx → PeerCtx) : (modCtx s k f).snap = s.snap := rfl
@[simp] theorem modCtx_mail (s : State) (k : AssocKey) (f : PeerCtx → PeerCtx) : (modCtx s k f).mail = s.mail := rfl
@[simp] theorem modCtx_mem (s : State) (k : AssocKey) (f : PeerCtx → PeerCtx) : (modCtx s k f).mem = s.mem := rfl
@[simp] theorem modCtx_exec (s : State) (k : AssocKey) (f : PeerCtx → PeerCtx) : (modCtx s k f).exec = s.exec := rfl
@[simp] theorem modCtx_outcomes (s : State) (k : AssocKey) (f : PeerCtx → PeerCtx) : (modCtx s k f).outcomes = s.outcomes := rfl
@[simp] theorem modCtx_queues (s : State) (k : AssocKey) (f : PeerCtx → PeerCtx) : (modCtx s k f).queues = s.queues := rfl
@[simp] theorem modCtx_sched (s : State) (k : AssocKey) (f : PeerCtx → PeerCtx) : (modCtx s k f).sched = s.sched := rfl
@[simp] theorem modCtx_comp (s : State) (k : AssocKey) (f : PeerCtx → PeerCtx) : (modCtx s k f).comp = s.comp := rfl
@[simp] theorem modCtx_pfx (s : State) (k : AssocKey) (f : PeerCtx → PeerCtx) : (modCtx s k f).pfx = s.pfx := rfl
@[simp] theorem modCtx_link (s : State) (k : AssocKey) (f : PeerCtx → PeerCtx) : (modCtx s k f).link = s.link := rfl
@[simp] theorem modCtx_ledger (s : State) (k : AssocKey) (f : PeerCtx → PeerCtx) : (modCtx s k f).ledger = s.ledger := rfl
@[simp] theorem modCtx_trust (s : State) (k : AssocKey) (f : PeerCtx → PeerCtx) : (modCtx s k f).trust = s.trust := rfl
@[simp] theorem modCtx_boot (s : State) (k : AssocKey) (f : PeerCtx → PeerCtx) : (modCtx s k f).boot = s.boot := rfl
@[simp] theorem modCtx_pack (s : State) (k : AssocKey) (f : PeerCtx → PeerCtx) : (modCtx s k f).pack = s.pack := rfl
@[simp] theorem modCtx_srcOf (s : State) (k : AssocKey) (f : PeerCtx → PeerCtx) (m : Nat) : srcOf (modCtx s k f) m = srcOf s m := rfl
@[simp] theorem modCtx_chanOf (s : State) (k : AssocKey) (f : PeerCtx → PeerCtx) (m : Nat) : chanOf (modCtx s k f) m = chanOf s m := rfl
@[simp] theorem modCtx_stackOf (s : State) (k : AssocKey) (f : PeerCtx → PeerCtx) (m : Nat) : stackOf (modCtx s k f) m = stackOf s m := rfl
@[simp] theorem modCtx_quadOf (s : State) (k : AssocKey) (f : PeerCtx → PeerCtx) (m : Nat) : quadOf (modCtx s k f) m = quadOf s m := rfl
@[simp] theorem modCtx_tileOf (s : State) (k : AssocKey) (f : PeerCtx → PeerCtx) (m : Nat) : tileOf (modCtx s k f) m = tileOf s m := rfl
@[simp] theorem modCtx_frameOf (s : State) (k : AssocKey) (f : PeerCtx → PeerCtx) (m : Nat) : frameOf (modCtx s k f) m = frameOf s m := rfl
@[simp] theorem modCtx_portOf (s : State) (k : AssocKey) (f : PeerCtx → PeerCtx) (m : Nat) : portOf (modCtx s k f) m = portOf s m := rfl
@[simp] theorem modCtx_seqOf (s : State) (k : AssocKey) (f : PeerCtx → PeerCtx) (m : SeqId) : seqOf (modCtx s k f) m = seqOf s m := rfl
@[simp] theorem modCtx_liveOf (s : State) (k : AssocKey) (f : PeerCtx → PeerCtx) (m : CmdKey) : liveOf (modCtx s k f) m = liveOf s m := rfl
@[simp] theorem modCtx_fabPort (s : State) (k : AssocKey) (f : PeerCtx → PeerCtx) (m : Nat) : fabPort (modCtx s k f) m = fabPort s m := rfl
@[simp] theorem modCtx_queueOf (s : State) (k : AssocKey) (f : PeerCtx → PeerCtx) (m : Nat) : queueOf (modCtx s k f) m = queueOf s m := rfl
@[simp] theorem modCtx_findOutcome (s : State) (k : AssocKey) (f : PeerCtx → PeerCtx) (m : CmdKey) : findOutcome (modCtx s k f) m = findOutcome s m := rfl

@[simp] theorem modFab_pending (s : State) (n : Nat) (f : Port → Port) : (modFab s n f).pending = s.pending := rfl
@[simp] theorem modFab_running (s : State) (n : Nat) (f : Port → Port) : (modFab s n f).running = s.running := rfl
@[simp] theorem modFab_fresh (s : State) (n : Nat) (f : Port → Port) : (modFab s n f).fresh = s.fresh := rfl
@[simp] theorem modFab_regs (s : State) (n : Nat) (f : Port → Port) : (modFab s n f).regs = s.regs := rfl
@[simp] theorem modFab_accessErr (s : State) (n : Nat) (f : Port → Port) : (modFab s n f).accessErr = s.accessErr := rfl
@[simp] theorem modFab_lastErr (s : State) (n : Nat) (f : Port → Port) : (modFab s n f).lastErr = s.lastErr := rfl
@[simp] theorem modFab_lockedWr (s : State) (n : Nat) (f : Port → Port) : (modFab s n f).lockedWr = s.lockedWr := rfl
@[simp] theorem modFab_badvalWr (s : State) (n : Nat) (f : Port → Port) : (modFab s n f).badvalWr = s.badvalWr := rfl
@[simp] theorem modFab_time (s : State) (n : Nat) (f : Port → Port) : (modFab s n f).time = s.time := rfl
@[simp] theorem modFab_fault (s : State) (n : Nat) (f : Port → Port) : (modFab s n f).fault = s.fault := rfl
@[simp] theorem modFab_cask (s : State) (n : Nat) (f : Port → Port) : (modFab s n f).cask = s.cask := rfl
@[simp] theorem modFab_snap (s : State) (n : Nat) (f : Port → Port) : (modFab s n f).snap = s.snap := rfl
@[simp] theorem modFab_mail (s : State) (n : Nat) (f : Port → Port) : (modFab s n f).mail = s.mail := rfl
@[simp] theorem modFab_mem (s : State) (n : Nat) (f : Port → Port) : (modFab s n f).mem = s.mem := rfl
@[simp] theorem modFab_exec (s : State) (n : Nat) (f : Port → Port) : (modFab s n f).exec = s.exec := rfl
@[simp] theorem modFab_outcomes (s : State) (n : Nat) (f : Port → Port) : (modFab s n f).outcomes = s.outcomes := rfl
@[simp] theorem modFab_queues (s : State) (n : Nat) (f : Port → Port) : (modFab s n f).queues = s.queues := rfl
@[simp] theorem modFab_sched (s : State) (n : Nat) (f : Port → Port) : (modFab s n f).sched = s.sched := rfl
@[simp] theorem modFab_comp (s : State) (n : Nat) (f : Port → Port) : (modFab s n f).comp = s.comp := rfl
@[simp] theorem modFab_pfx (s : State) (n : Nat) (f : Port → Port) : (modFab s n f).pfx = s.pfx := rfl
@[simp] theorem modFab_link (s : State) (n : Nat) (f : Port → Port) : (modFab s n f).link = s.link := rfl
@[simp] theorem modFab_ledger (s : State) (n : Nat) (f : Port → Port) : (modFab s n f).ledger = s.ledger := rfl
@[simp] theorem modFab_trust (s : State) (n : Nat) (f : Port → Port) : (modFab s n f).trust = s.trust := rfl
@[simp] theorem modFab_boot (s : State) (n : Nat) (f : Port → Port) : (modFab s n f).boot = s.boot := rfl
@[simp] theorem modFab_pack (s : State) (n : Nat) (f : Port → Port) : (modFab s n f).pack = s.pack := rfl
@[simp] theorem modFab_srcOf (s : State) (n : Nat) (f : Port → Port) (m : Nat) : srcOf (modFab s n f) m = srcOf s m := rfl
@[simp] theorem modFab_chanOf (s : State) (n : Nat) (f : Port → Port) (m : Nat) : chanOf (modFab s n f) m = chanOf s m := rfl
@[simp] theorem modFab_stackOf (s : State) (n : Nat) (f : Port → Port) (m : Nat) : stackOf (modFab s n f) m = stackOf s m := rfl
@[simp] theorem modFab_quadOf (s : State) (n : Nat) (f : Port → Port) (m : Nat) : quadOf (modFab s n f) m = quadOf s m := rfl
@[simp] theorem modFab_tileOf (s : State) (n : Nat) (f : Port → Port) (m : Nat) : tileOf (modFab s n f) m = tileOf s m := rfl
@[simp] theorem modFab_frameOf (s : State) (n : Nat) (f : Port → Port) (m : Nat) : frameOf (modFab s n f) m = frameOf s m := rfl
@[simp] theorem modFab_portOf (s : State) (n : Nat) (f : Port → Port) (m : Nat) : portOf (modFab s n f) m = portOf s m := rfl
@[simp] theorem modFab_seqOf (s : State) (n : Nat) (f : Port → Port) (m : SeqId) : seqOf (modFab s n f) m = seqOf s m := rfl
@[simp] theorem modFab_liveOf (s : State) (n : Nat) (f : Port → Port) (m : CmdKey) : liveOf (modFab s n f) m = liveOf s m := rfl
@[simp] theorem modFab_ctxOf (s : State) (n : Nat) (f : Port → Port) (m : AssocKey) : ctxOf (modFab s n f) m = ctxOf s m := rfl
@[simp] theorem modFab_queueOf (s : State) (n : Nat) (f : Port → Port) (m : Nat) : queueOf (modFab s n f) m = queueOf s m := rfl
@[simp] theorem modFab_findOutcome (s : State) (n : Nat) (f : Port → Port) (m : CmdKey) : findOutcome (modFab s n f) m = findOutcome s m := rfl

@[simp] theorem modSub_pending (s : State) (n b : Nat) (f : SubPort → SubPort) : (modSub s n b f).pending = s.pending := rfl
@[simp] theorem modSub_running (s : State) (n b : Nat) (f : SubPort → SubPort) : (modSub s n b f).running = s.running := rfl
@[simp] theorem modSub_fresh (s : State) (n b : Nat) (f : SubPort → SubPort) : (modSub s n b f).fresh = s.fresh := rfl
@[simp] theorem modSub_regs (s : State) (n b : Nat) (f : SubPort → SubPort) : (modSub s n b f).regs = s.regs := rfl
@[simp] theorem modSub_accessErr (s : State) (n b : Nat) (f : SubPort → SubPort) : (modSub s n b f).accessErr = s.accessErr := rfl
@[simp] theorem modSub_lastErr (s : State) (n b : Nat) (f : SubPort → SubPort) : (modSub s n b f).lastErr = s.lastErr := rfl
@[simp] theorem modSub_lockedWr (s : State) (n b : Nat) (f : SubPort → SubPort) : (modSub s n b f).lockedWr = s.lockedWr := rfl
@[simp] theorem modSub_badvalWr (s : State) (n b : Nat) (f : SubPort → SubPort) : (modSub s n b f).badvalWr = s.badvalWr := rfl
@[simp] theorem modSub_time (s : State) (n b : Nat) (f : SubPort → SubPort) : (modSub s n b f).time = s.time := rfl
@[simp] theorem modSub_fault (s : State) (n b : Nat) (f : SubPort → SubPort) : (modSub s n b f).fault = s.fault := rfl
@[simp] theorem modSub_cask (s : State) (n b : Nat) (f : SubPort → SubPort) : (modSub s n b f).cask = s.cask := rfl
@[simp] theorem modSub_snap (s : State) (n b : Nat) (f : SubPort → SubPort) : (modSub s n b f).snap = s.snap := rfl
@[simp] theorem modSub_mail (s : State) (n b : Nat) (f : SubPort → SubPort) : (modSub s n b f).mail = s.mail := rfl
@[simp] theorem modSub_mem (s : State) (n b : Nat) (f : SubPort → SubPort) : (modSub s n b f).mem = s.mem := rfl
@[simp] theorem modSub_exec (s : State) (n b : Nat) (f : SubPort → SubPort) : (modSub s n b f).exec = s.exec := rfl
@[simp] theorem modSub_outcomes (s : State) (n b : Nat) (f : SubPort → SubPort) : (modSub s n b f).outcomes = s.outcomes := rfl
@[simp] theorem modSub_queues (s : State) (n b : Nat) (f : SubPort → SubPort) : (modSub s n b f).queues = s.queues := rfl
@[simp] theorem modSub_sched (s : State) (n b : Nat) (f : SubPort → SubPort) : (modSub s n b f).sched = s.sched := rfl
@[simp] theorem modSub_comp (s : State) (n b : Nat) (f : SubPort → SubPort) : (modSub s n b f).comp = s.comp := rfl
@[simp] theorem modSub_pfx (s : State) (n b : Nat) (f : SubPort → SubPort) : (modSub s n b f).pfx = s.pfx := rfl
@[simp] theorem modSub_link (s : State) (n b : Nat) (f : SubPort → SubPort) : (modSub s n b f).link = s.link := rfl
@[simp] theorem modSub_ledger (s : State) (n b : Nat) (f : SubPort → SubPort) : (modSub s n b f).ledger = s.ledger := rfl
@[simp] theorem modSub_trust (s : State) (n b : Nat) (f : SubPort → SubPort) : (modSub s n b f).trust = s.trust := rfl
@[simp] theorem modSub_boot (s : State) (n b : Nat) (f : SubPort → SubPort) : (modSub s n b f).boot = s.boot := rfl
@[simp] theorem modSub_pack (s : State) (n b : Nat) (f : SubPort → SubPort) : (modSub s n b f).pack = s.pack := rfl
@[simp] theorem modSub_srcOf (s : State) (n b : Nat) (f : SubPort → SubPort) (m : Nat) : srcOf (modSub s n b f) m = srcOf s m := rfl
@[simp] theorem modSub_chanOf (s : State) (n b : Nat) (f : SubPort → SubPort) (m : Nat) : chanOf (modSub s n b f) m = chanOf s m := rfl
@[simp] theorem modSub_stackOf (s : State) (n b : Nat) (f : SubPort → SubPort) (m : Nat) : stackOf (modSub s n b f) m = stackOf s m := rfl
@[simp] theorem modSub_quadOf (s : State) (n b : Nat) (f : SubPort → SubPort) (m : Nat) : quadOf (modSub s n b f) m = quadOf s m := rfl
@[simp] theorem modSub_tileOf (s : State) (n b : Nat) (f : SubPort → SubPort) (m : Nat) : tileOf (modSub s n b f) m = tileOf s m := rfl
@[simp] theorem modSub_frameOf (s : State) (n b : Nat) (f : SubPort → SubPort) (m : Nat) : frameOf (modSub s n b f) m = frameOf s m := rfl
@[simp] theorem modSub_portOf (s : State) (n b : Nat) (f : SubPort → SubPort) (m : Nat) : portOf (modSub s n b f) m = portOf s m := rfl
@[simp] theorem modSub_seqOf (s : State) (n b : Nat) (f : SubPort → SubPort) (m : SeqId) : seqOf (modSub s n b f) m = seqOf s m := rfl
@[simp] theorem modSub_liveOf (s : State) (n b : Nat) (f : SubPort → SubPort) (m : CmdKey) : liveOf (modSub s n b f) m = liveOf s m := rfl
@[simp] theorem modSub_ctxOf (s : State) (n b : Nat) (f : SubPort → SubPort) (m : AssocKey) : ctxOf (modSub s n b f) m = ctxOf s m := rfl
@[simp] theorem modSub_queueOf (s : State) (n b : Nat) (f : SubPort → SubPort) (m : Nat) : queueOf (modSub s n b f) m = queueOf s m := rfl
@[simp] theorem modSub_findOutcome (s : State) (n b : Nat) (f : SubPort → SubPort) (m : CmdKey) : findOutcome (modSub s n b f) m = findOutcome s m := rfl

@[simp] theorem modTenant_pending (s : State) (n : Nat) (f : Tenant → Tenant) : (modTenant s n f).pending = s.pending := rfl
@[simp] theorem modTenant_running (s : State) (n : Nat) (f : Tenant → Tenant) : (modTenant s n f).running = s.running := rfl
@[simp] theorem modTenant_fresh (s : State) (n : Nat) (f : Tenant → Tenant) : (modTenant s n f).fresh = s.fresh := rfl
@[simp] theorem modTenant_regs (s : State) (n : Nat) (f : Tenant → Tenant) : (modTenant s n f).regs = s.regs := rfl
@[simp] theorem modTenant_accessErr (s : State) (n : Nat) (f : Tenant → Tenant) : (modTenant s n f).accessErr = s.accessErr := rfl
@[simp] theorem modTenant_lastErr (s : State) (n : Nat) (f : Tenant → Tenant) : (modTenant s n f).lastErr = s.lastErr := rfl
@[simp] theorem modTenant_lockedWr (s : State) (n : Nat) (f : Tenant → Tenant) : (modTenant s n f).lockedWr = s.lockedWr := rfl
@[simp] theorem modTenant_badvalWr (s : State) (n : Nat) (f : Tenant → Tenant) : (modTenant s n f).badvalWr = s.badvalWr := rfl
@[simp] theorem modTenant_time (s : State) (n : Nat) (f : Tenant → Tenant) : (modTenant s n f).time = s.time := rfl
@[simp] theorem modTenant_fault (s : State) (n : Nat) (f : Tenant → Tenant) : (modTenant s n f).fault = s.fault := rfl
@[simp] theorem modTenant_cask (s : State) (n : Nat) (f : Tenant → Tenant) : (modTenant s n f).cask = s.cask := rfl
@[simp] theorem modTenant_snap (s : State) (n : Nat) (f : Tenant → Tenant) : (modTenant s n f).snap = s.snap := rfl
@[simp] theorem modTenant_mail (s : State) (n : Nat) (f : Tenant → Tenant) : (modTenant s n f).mail = s.mail := rfl
@[simp] theorem modTenant_mem (s : State) (n : Nat) (f : Tenant → Tenant) : (modTenant s n f).mem = s.mem := rfl
@[simp] theorem modTenant_exec (s : State) (n : Nat) (f : Tenant → Tenant) : (modTenant s n f).exec = s.exec := rfl
@[simp] theorem modTenant_net (s : State) (n : Nat) (f : Tenant → Tenant) : (modTenant s n f).net = s.net := rfl
@[simp] theorem modTenant_outcomes (s : State) (n : Nat) (f : Tenant → Tenant) : (modTenant s n f).outcomes = s.outcomes := rfl
@[simp] theorem modTenant_queues (s : State) (n : Nat) (f : Tenant → Tenant) : (modTenant s n f).queues = s.queues := rfl
@[simp] theorem modTenant_sched (s : State) (n : Nat) (f : Tenant → Tenant) : (modTenant s n f).sched = s.sched := rfl
@[simp] theorem modTenant_comp (s : State) (n : Nat) (f : Tenant → Tenant) : (modTenant s n f).comp = s.comp := rfl
@[simp] theorem modTenant_pfx (s : State) (n : Nat) (f : Tenant → Tenant) : (modTenant s n f).pfx = s.pfx := rfl
@[simp] theorem modTenant_link (s : State) (n : Nat) (f : Tenant → Tenant) : (modTenant s n f).link = s.link := rfl
@[simp] theorem modTenant_ledger (s : State) (n : Nat) (f : Tenant → Tenant) : (modTenant s n f).ledger = s.ledger := rfl
@[simp] theorem modTenant_boot (s : State) (n : Nat) (f : Tenant → Tenant) : (modTenant s n f).boot = s.boot := rfl
@[simp] theorem modTenant_pack (s : State) (n : Nat) (f : Tenant → Tenant) : (modTenant s n f).pack = s.pack := rfl
@[simp] theorem modTenant_srcOf (s : State) (n : Nat) (f : Tenant → Tenant) (m : Nat) : srcOf (modTenant s n f) m = srcOf s m := rfl
@[simp] theorem modTenant_chanOf (s : State) (n : Nat) (f : Tenant → Tenant) (m : Nat) : chanOf (modTenant s n f) m = chanOf s m := rfl
@[simp] theorem modTenant_stackOf (s : State) (n : Nat) (f : Tenant → Tenant) (m : Nat) : stackOf (modTenant s n f) m = stackOf s m := rfl
@[simp] theorem modTenant_quadOf (s : State) (n : Nat) (f : Tenant → Tenant) (m : Nat) : quadOf (modTenant s n f) m = quadOf s m := rfl
@[simp] theorem modTenant_tileOf (s : State) (n : Nat) (f : Tenant → Tenant) (m : Nat) : tileOf (modTenant s n f) m = tileOf s m := rfl
@[simp] theorem modTenant_frameOf (s : State) (n : Nat) (f : Tenant → Tenant) (m : Nat) : frameOf (modTenant s n f) m = frameOf s m := rfl
@[simp] theorem modTenant_portOf (s : State) (n : Nat) (f : Tenant → Tenant) (m : Nat) : portOf (modTenant s n f) m = portOf s m := rfl
@[simp] theorem modTenant_seqOf (s : State) (n : Nat) (f : Tenant → Tenant) (m : SeqId) : seqOf (modTenant s n f) m = seqOf s m := rfl
@[simp] theorem modTenant_liveOf (s : State) (n : Nat) (f : Tenant → Tenant) (m : CmdKey) : liveOf (modTenant s n f) m = liveOf s m := rfl
@[simp] theorem modTenant_queueOf (s : State) (n : Nat) (f : Tenant → Tenant) (m : Nat) : queueOf (modTenant s n f) m = queueOf s m := rfl
@[simp] theorem modTenant_findOutcome (s : State) (n : Nat) (f : Tenant → Tenant) (m : CmdKey) : findOutcome (modTenant s n f) m = findOutcome s m := rfl

@[simp] theorem modQueue_pending (s : State) (n : Nat) (f : CmdQueue → CmdQueue) : (modQueue s n f).pending = s.pending := rfl
@[simp] theorem modQueue_running (s : State) (n : Nat) (f : CmdQueue → CmdQueue) : (modQueue s n f).running = s.running := rfl
@[simp] theorem modQueue_fresh (s : State) (n : Nat) (f : CmdQueue → CmdQueue) : (modQueue s n f).fresh = s.fresh := rfl
@[simp] theorem modQueue_regs (s : State) (n : Nat) (f : CmdQueue → CmdQueue) : (modQueue s n f).regs = s.regs := rfl
@[simp] theorem modQueue_accessErr (s : State) (n : Nat) (f : CmdQueue → CmdQueue) : (modQueue s n f).accessErr = s.accessErr := rfl
@[simp] theorem modQueue_lastErr (s : State) (n : Nat) (f : CmdQueue → CmdQueue) : (modQueue s n f).lastErr = s.lastErr := rfl
@[simp] theorem modQueue_lockedWr (s : State) (n : Nat) (f : CmdQueue → CmdQueue) : (modQueue s n f).lockedWr = s.lockedWr := rfl
@[simp] theorem modQueue_badvalWr (s : State) (n : Nat) (f : CmdQueue → CmdQueue) : (modQueue s n f).badvalWr = s.badvalWr := rfl
@[simp] theorem modQueue_time (s : State) (n : Nat) (f : CmdQueue → CmdQueue) : (modQueue s n f).time = s.time := rfl
@[simp] theorem modQueue_fault (s : State) (n : Nat) (f : CmdQueue → CmdQueue) : (modQueue s n f).fault = s.fault := rfl
@[simp] theorem modQueue_cask (s : State) (n : Nat) (f : CmdQueue → CmdQueue) : (modQueue s n f).cask = s.cask := rfl
@[simp] theorem modQueue_snap (s : State) (n : Nat) (f : CmdQueue → CmdQueue) : (modQueue s n f).snap = s.snap := rfl
@[simp] theorem modQueue_mail (s : State) (n : Nat) (f : CmdQueue → CmdQueue) : (modQueue s n f).mail = s.mail := rfl
@[simp] theorem modQueue_mem (s : State) (n : Nat) (f : CmdQueue → CmdQueue) : (modQueue s n f).mem = s.mem := rfl
@[simp] theorem modQueue_exec (s : State) (n : Nat) (f : CmdQueue → CmdQueue) : (modQueue s n f).exec = s.exec := rfl
@[simp] theorem modQueue_net (s : State) (n : Nat) (f : CmdQueue → CmdQueue) : (modQueue s n f).net = s.net := rfl
@[simp] theorem modQueue_outcomes (s : State) (n : Nat) (f : CmdQueue → CmdQueue) : (modQueue s n f).outcomes = s.outcomes := rfl
@[simp] theorem modQueue_sched (s : State) (n : Nat) (f : CmdQueue → CmdQueue) : (modQueue s n f).sched = s.sched := rfl
@[simp] theorem modQueue_comp (s : State) (n : Nat) (f : CmdQueue → CmdQueue) : (modQueue s n f).comp = s.comp := rfl
@[simp] theorem modQueue_pfx (s : State) (n : Nat) (f : CmdQueue → CmdQueue) : (modQueue s n f).pfx = s.pfx := rfl
@[simp] theorem modQueue_link (s : State) (n : Nat) (f : CmdQueue → CmdQueue) : (modQueue s n f).link = s.link := rfl
@[simp] theorem modQueue_ledger (s : State) (n : Nat) (f : CmdQueue → CmdQueue) : (modQueue s n f).ledger = s.ledger := rfl
@[simp] theorem modQueue_trust (s : State) (n : Nat) (f : CmdQueue → CmdQueue) : (modQueue s n f).trust = s.trust := rfl
@[simp] theorem modQueue_boot (s : State) (n : Nat) (f : CmdQueue → CmdQueue) : (modQueue s n f).boot = s.boot := rfl
@[simp] theorem modQueue_pack (s : State) (n : Nat) (f : CmdQueue → CmdQueue) : (modQueue s n f).pack = s.pack := rfl
@[simp] theorem modQueue_srcOf (s : State) (n : Nat) (f : CmdQueue → CmdQueue) (m : Nat) : srcOf (modQueue s n f) m = srcOf s m := rfl
@[simp] theorem modQueue_chanOf (s : State) (n : Nat) (f : CmdQueue → CmdQueue) (m : Nat) : chanOf (modQueue s n f) m = chanOf s m := rfl
@[simp] theorem modQueue_stackOf (s : State) (n : Nat) (f : CmdQueue → CmdQueue) (m : Nat) : stackOf (modQueue s n f) m = stackOf s m := rfl
@[simp] theorem modQueue_quadOf (s : State) (n : Nat) (f : CmdQueue → CmdQueue) (m : Nat) : quadOf (modQueue s n f) m = quadOf s m := rfl
@[simp] theorem modQueue_tileOf (s : State) (n : Nat) (f : CmdQueue → CmdQueue) (m : Nat) : tileOf (modQueue s n f) m = tileOf s m := rfl
@[simp] theorem modQueue_frameOf (s : State) (n : Nat) (f : CmdQueue → CmdQueue) (m : Nat) : frameOf (modQueue s n f) m = frameOf s m := rfl
@[simp] theorem modQueue_portOf (s : State) (n : Nat) (f : CmdQueue → CmdQueue) (m : Nat) : portOf (modQueue s n f) m = portOf s m := rfl
@[simp] theorem modQueue_seqOf (s : State) (n : Nat) (f : CmdQueue → CmdQueue) (m : SeqId) : seqOf (modQueue s n f) m = seqOf s m := rfl
@[simp] theorem modQueue_liveOf (s : State) (n : Nat) (f : CmdQueue → CmdQueue) (m : CmdKey) : liveOf (modQueue s n f) m = liveOf s m := rfl
@[simp] theorem modQueue_findOutcome (s : State) (n : Nat) (f : CmdQueue → CmdQueue) (m : CmdKey) : findOutcome (modQueue s n f) m = findOutcome s m := rfl

@[simp] theorem dropOutcome_pending (s : State) (k : CmdKey) : (dropOutcome s k).pending = s.pending := rfl
@[simp] theorem dropOutcome_running (s : State) (k : CmdKey) : (dropOutcome s k).running = s.running := rfl
@[simp] theorem dropOutcome_fresh (s : State) (k : CmdKey) : (dropOutcome s k).fresh = s.fresh := rfl
@[simp] theorem dropOutcome_regs (s : State) (k : CmdKey) : (dropOutcome s k).regs = s.regs := rfl
@[simp] theorem dropOutcome_accessErr (s : State) (k : CmdKey) : (dropOutcome s k).accessErr = s.accessErr := rfl
@[simp] theorem dropOutcome_lastErr (s : State) (k : CmdKey) : (dropOutcome s k).lastErr = s.lastErr := rfl
@[simp] theorem dropOutcome_lockedWr (s : State) (k : CmdKey) : (dropOutcome s k).lockedWr = s.lockedWr := rfl
@[simp] theorem dropOutcome_badvalWr (s : State) (k : CmdKey) : (dropOutcome s k).badvalWr = s.badvalWr := rfl
@[simp] theorem dropOutcome_time (s : State) (k : CmdKey) : (dropOutcome s k).time = s.time := rfl
@[simp] theorem dropOutcome_fault (s : State) (k : CmdKey) : (dropOutcome s k).fault = s.fault := rfl
@[simp] theorem dropOutcome_cask (s : State) (k : CmdKey) : (dropOutcome s k).cask = s.cask := rfl
@[simp] theorem dropOutcome_snap (s : State) (k : CmdKey) : (dropOutcome s k).snap = s.snap := rfl
@[simp] theorem dropOutcome_mail (s : State) (k : CmdKey) : (dropOutcome s k).mail = s.mail := rfl
@[simp] theorem dropOutcome_mem (s : State) (k : CmdKey) : (dropOutcome s k).mem = s.mem := rfl
@[simp] theorem dropOutcome_exec (s : State) (k : CmdKey) : (dropOutcome s k).exec = s.exec := rfl
@[simp] theorem dropOutcome_net (s : State) (k : CmdKey) : (dropOutcome s k).net = s.net := rfl
@[simp] theorem dropOutcome_queues (s : State) (k : CmdKey) : (dropOutcome s k).queues = s.queues := rfl
@[simp] theorem dropOutcome_sched (s : State) (k : CmdKey) : (dropOutcome s k).sched = s.sched := rfl
@[simp] theorem dropOutcome_comp (s : State) (k : CmdKey) : (dropOutcome s k).comp = s.comp := rfl
@[simp] theorem dropOutcome_pfx (s : State) (k : CmdKey) : (dropOutcome s k).pfx = s.pfx := rfl
@[simp] theorem dropOutcome_link (s : State) (k : CmdKey) : (dropOutcome s k).link = s.link := rfl
@[simp] theorem dropOutcome_ledger (s : State) (k : CmdKey) : (dropOutcome s k).ledger = s.ledger := rfl
@[simp] theorem dropOutcome_trust (s : State) (k : CmdKey) : (dropOutcome s k).trust = s.trust := rfl
@[simp] theorem dropOutcome_boot (s : State) (k : CmdKey) : (dropOutcome s k).boot = s.boot := rfl
@[simp] theorem dropOutcome_pack (s : State) (k : CmdKey) : (dropOutcome s k).pack = s.pack := rfl
@[simp] theorem dropOutcome_srcOf (s : State) (k : CmdKey) (m : Nat) : srcOf (dropOutcome s k) m = srcOf s m := rfl
@[simp] theorem dropOutcome_chanOf (s : State) (k : CmdKey) (m : Nat) : chanOf (dropOutcome s k) m = chanOf s m := rfl
@[simp] theorem dropOutcome_stackOf (s : State) (k : CmdKey) (m : Nat) : stackOf (dropOutcome s k) m = stackOf s m := rfl
@[simp] theorem dropOutcome_quadOf (s : State) (k : CmdKey) (m : Nat) : quadOf (dropOutcome s k) m = quadOf s m := rfl
@[simp] theorem dropOutcome_tileOf (s : State) (k : CmdKey) (m : Nat) : tileOf (dropOutcome s k) m = tileOf s m := rfl
@[simp] theorem dropOutcome_frameOf (s : State) (k : CmdKey) (m : Nat) : frameOf (dropOutcome s k) m = frameOf s m := rfl
@[simp] theorem dropOutcome_portOf (s : State) (k : CmdKey) (m : Nat) : portOf (dropOutcome s k) m = portOf s m := rfl
@[simp] theorem dropOutcome_seqOf (s : State) (k : CmdKey) (m : SeqId) : seqOf (dropOutcome s k) m = seqOf s m := rfl
@[simp] theorem dropOutcome_liveOf (s : State) (k : CmdKey) (m : CmdKey) : liveOf (dropOutcome s k) m = liveOf s m := rfl
@[simp] theorem dropOutcome_queueOf (s : State) (k : CmdKey) (m : Nat) : queueOf (dropOutcome s k) m = queueOf s m := rfl

@[simp] theorem modRegion_pending (s : State) (n : Nat) (f : LedRegion → LedRegion) : (modRegion s n f).pending = s.pending := rfl
@[simp] theorem modRegion_running (s : State) (n : Nat) (f : LedRegion → LedRegion) : (modRegion s n f).running = s.running := rfl
@[simp] theorem modRegion_fresh (s : State) (n : Nat) (f : LedRegion → LedRegion) : (modRegion s n f).fresh = s.fresh := rfl
@[simp] theorem modRegion_regs (s : State) (n : Nat) (f : LedRegion → LedRegion) : (modRegion s n f).regs = s.regs := rfl
@[simp] theorem modRegion_accessErr (s : State) (n : Nat) (f : LedRegion → LedRegion) : (modRegion s n f).accessErr = s.accessErr := rfl
@[simp] theorem modRegion_lastErr (s : State) (n : Nat) (f : LedRegion → LedRegion) : (modRegion s n f).lastErr = s.lastErr := rfl
@[simp] theorem modRegion_lockedWr (s : State) (n : Nat) (f : LedRegion → LedRegion) : (modRegion s n f).lockedWr = s.lockedWr := rfl
@[simp] theorem modRegion_badvalWr (s : State) (n : Nat) (f : LedRegion → LedRegion) : (modRegion s n f).badvalWr = s.badvalWr := rfl
@[simp] theorem modRegion_time (s : State) (n : Nat) (f : LedRegion → LedRegion) : (modRegion s n f).time = s.time := rfl
@[simp] theorem modRegion_fault (s : State) (n : Nat) (f : LedRegion → LedRegion) : (modRegion s n f).fault = s.fault := rfl
@[simp] theorem modRegion_cask (s : State) (n : Nat) (f : LedRegion → LedRegion) : (modRegion s n f).cask = s.cask := rfl
@[simp] theorem modRegion_snap (s : State) (n : Nat) (f : LedRegion → LedRegion) : (modRegion s n f).snap = s.snap := rfl
@[simp] theorem modRegion_mail (s : State) (n : Nat) (f : LedRegion → LedRegion) : (modRegion s n f).mail = s.mail := rfl
@[simp] theorem modRegion_mem (s : State) (n : Nat) (f : LedRegion → LedRegion) : (modRegion s n f).mem = s.mem := rfl
@[simp] theorem modRegion_exec (s : State) (n : Nat) (f : LedRegion → LedRegion) : (modRegion s n f).exec = s.exec := rfl
@[simp] theorem modRegion_net (s : State) (n : Nat) (f : LedRegion → LedRegion) : (modRegion s n f).net = s.net := rfl
@[simp] theorem modRegion_outcomes (s : State) (n : Nat) (f : LedRegion → LedRegion) : (modRegion s n f).outcomes = s.outcomes := rfl
@[simp] theorem modRegion_queues (s : State) (n : Nat) (f : LedRegion → LedRegion) : (modRegion s n f).queues = s.queues := rfl
@[simp] theorem modRegion_sched (s : State) (n : Nat) (f : LedRegion → LedRegion) : (modRegion s n f).sched = s.sched := rfl
@[simp] theorem modRegion_comp (s : State) (n : Nat) (f : LedRegion → LedRegion) : (modRegion s n f).comp = s.comp := rfl
@[simp] theorem modRegion_pfx (s : State) (n : Nat) (f : LedRegion → LedRegion) : (modRegion s n f).pfx = s.pfx := rfl
@[simp] theorem modRegion_link (s : State) (n : Nat) (f : LedRegion → LedRegion) : (modRegion s n f).link = s.link := rfl
@[simp] theorem modRegion_trust (s : State) (n : Nat) (f : LedRegion → LedRegion) : (modRegion s n f).trust = s.trust := rfl
@[simp] theorem modRegion_boot (s : State) (n : Nat) (f : LedRegion → LedRegion) : (modRegion s n f).boot = s.boot := rfl
@[simp] theorem modRegion_pack (s : State) (n : Nat) (f : LedRegion → LedRegion) : (modRegion s n f).pack = s.pack := rfl
@[simp] theorem modRegion_srcOf (s : State) (n : Nat) (f : LedRegion → LedRegion) (m : Nat) : srcOf (modRegion s n f) m = srcOf s m := rfl
@[simp] theorem modRegion_chanOf (s : State) (n : Nat) (f : LedRegion → LedRegion) (m : Nat) : chanOf (modRegion s n f) m = chanOf s m := rfl
@[simp] theorem modRegion_stackOf (s : State) (n : Nat) (f : LedRegion → LedRegion) (m : Nat) : stackOf (modRegion s n f) m = stackOf s m := rfl
@[simp] theorem modRegion_quadOf (s : State) (n : Nat) (f : LedRegion → LedRegion) (m : Nat) : quadOf (modRegion s n f) m = quadOf s m := rfl
@[simp] theorem modRegion_tileOf (s : State) (n : Nat) (f : LedRegion → LedRegion) (m : Nat) : tileOf (modRegion s n f) m = tileOf s m := rfl
@[simp] theorem modRegion_frameOf (s : State) (n : Nat) (f : LedRegion → LedRegion) (m : Nat) : frameOf (modRegion s n f) m = frameOf s m := rfl
@[simp] theorem modRegion_portOf (s : State) (n : Nat) (f : LedRegion → LedRegion) (m : Nat) : portOf (modRegion s n f) m = portOf s m := rfl
@[simp] theorem modRegion_seqOf (s : State) (n : Nat) (f : LedRegion → LedRegion) (m : SeqId) : seqOf (modRegion s n f) m = seqOf s m := rfl
@[simp] theorem modRegion_liveOf (s : State) (n : Nat) (f : LedRegion → LedRegion) (m : CmdKey) : liveOf (modRegion s n f) m = liveOf s m := rfl
@[simp] theorem modRegion_queueOf (s : State) (n : Nat) (f : LedRegion → LedRegion) (m : Nat) : queueOf (modRegion s n f) m = queueOf s m := rfl
@[simp] theorem modRegion_findOutcome (s : State) (n : Nat) (f : LedRegion → LedRegion) (m : CmdKey) : findOutcome (modRegion s n f) m = findOutcome s m := rfl

@[simp] theorem modGate_pending (s : State) (n : Nat) (f : GateUnit → GateUnit) : (modGate s n f).pending = s.pending := rfl
@[simp] theorem modGate_running (s : State) (n : Nat) (f : GateUnit → GateUnit) : (modGate s n f).running = s.running := rfl
@[simp] theorem modGate_fresh (s : State) (n : Nat) (f : GateUnit → GateUnit) : (modGate s n f).fresh = s.fresh := rfl
@[simp] theorem modGate_regs (s : State) (n : Nat) (f : GateUnit → GateUnit) : (modGate s n f).regs = s.regs := rfl
@[simp] theorem modGate_accessErr (s : State) (n : Nat) (f : GateUnit → GateUnit) : (modGate s n f).accessErr = s.accessErr := rfl
@[simp] theorem modGate_lastErr (s : State) (n : Nat) (f : GateUnit → GateUnit) : (modGate s n f).lastErr = s.lastErr := rfl
@[simp] theorem modGate_lockedWr (s : State) (n : Nat) (f : GateUnit → GateUnit) : (modGate s n f).lockedWr = s.lockedWr := rfl
@[simp] theorem modGate_badvalWr (s : State) (n : Nat) (f : GateUnit → GateUnit) : (modGate s n f).badvalWr = s.badvalWr := rfl
@[simp] theorem modGate_time (s : State) (n : Nat) (f : GateUnit → GateUnit) : (modGate s n f).time = s.time := rfl
@[simp] theorem modGate_fault (s : State) (n : Nat) (f : GateUnit → GateUnit) : (modGate s n f).fault = s.fault := rfl
@[simp] theorem modGate_cask (s : State) (n : Nat) (f : GateUnit → GateUnit) : (modGate s n f).cask = s.cask := rfl
@[simp] theorem modGate_snap (s : State) (n : Nat) (f : GateUnit → GateUnit) : (modGate s n f).snap = s.snap := rfl
@[simp] theorem modGate_mail (s : State) (n : Nat) (f : GateUnit → GateUnit) : (modGate s n f).mail = s.mail := rfl
@[simp] theorem modGate_mem (s : State) (n : Nat) (f : GateUnit → GateUnit) : (modGate s n f).mem = s.mem := rfl
@[simp] theorem modGate_exec (s : State) (n : Nat) (f : GateUnit → GateUnit) : (modGate s n f).exec = s.exec := rfl
@[simp] theorem modGate_net (s : State) (n : Nat) (f : GateUnit → GateUnit) : (modGate s n f).net = s.net := rfl
@[simp] theorem modGate_outcomes (s : State) (n : Nat) (f : GateUnit → GateUnit) : (modGate s n f).outcomes = s.outcomes := rfl
@[simp] theorem modGate_queues (s : State) (n : Nat) (f : GateUnit → GateUnit) : (modGate s n f).queues = s.queues := rfl
@[simp] theorem modGate_comp (s : State) (n : Nat) (f : GateUnit → GateUnit) : (modGate s n f).comp = s.comp := rfl
@[simp] theorem modGate_pfx (s : State) (n : Nat) (f : GateUnit → GateUnit) : (modGate s n f).pfx = s.pfx := rfl
@[simp] theorem modGate_link (s : State) (n : Nat) (f : GateUnit → GateUnit) : (modGate s n f).link = s.link := rfl
@[simp] theorem modGate_ledger (s : State) (n : Nat) (f : GateUnit → GateUnit) : (modGate s n f).ledger = s.ledger := rfl
@[simp] theorem modGate_trust (s : State) (n : Nat) (f : GateUnit → GateUnit) : (modGate s n f).trust = s.trust := rfl
@[simp] theorem modGate_boot (s : State) (n : Nat) (f : GateUnit → GateUnit) : (modGate s n f).boot = s.boot := rfl
@[simp] theorem modGate_pack (s : State) (n : Nat) (f : GateUnit → GateUnit) : (modGate s n f).pack = s.pack := rfl
@[simp] theorem modGate_srcOf (s : State) (n : Nat) (f : GateUnit → GateUnit) (m : Nat) : srcOf (modGate s n f) m = srcOf s m := rfl
@[simp] theorem modGate_chanOf (s : State) (n : Nat) (f : GateUnit → GateUnit) (m : Nat) : chanOf (modGate s n f) m = chanOf s m := rfl
@[simp] theorem modGate_stackOf (s : State) (n : Nat) (f : GateUnit → GateUnit) (m : Nat) : stackOf (modGate s n f) m = stackOf s m := rfl
@[simp] theorem modGate_quadOf (s : State) (n : Nat) (f : GateUnit → GateUnit) (m : Nat) : quadOf (modGate s n f) m = quadOf s m := rfl
@[simp] theorem modGate_tileOf (s : State) (n : Nat) (f : GateUnit → GateUnit) (m : Nat) : tileOf (modGate s n f) m = tileOf s m := rfl
@[simp] theorem modGate_frameOf (s : State) (n : Nat) (f : GateUnit → GateUnit) (m : Nat) : frameOf (modGate s n f) m = frameOf s m := rfl
@[simp] theorem modGate_portOf (s : State) (n : Nat) (f : GateUnit → GateUnit) (m : Nat) : portOf (modGate s n f) m = portOf s m := rfl
@[simp] theorem modGate_seqOf (s : State) (n : Nat) (f : GateUnit → GateUnit) (m : SeqId) : seqOf (modGate s n f) m = seqOf s m := rfl
@[simp] theorem modGate_liveOf (s : State) (n : Nat) (f : GateUnit → GateUnit) (m : CmdKey) : liveOf (modGate s n f) m = liveOf s m := rfl
@[simp] theorem modGate_queueOf (s : State) (n : Nat) (f : GateUnit → GateUnit) (m : Nat) : queueOf (modGate s n f) m = queueOf s m := rfl
@[simp] theorem modGate_findOutcome (s : State) (n : Nat) (f : GateUnit → GateUnit) (m : CmdKey) : findOutcome (modGate s n f) m = findOutcome s m := rfl

@[simp] theorem putWait_pending (s : State) (x : ChainWait) : (putWait s x).pending = s.pending := rfl
@[simp] theorem putWait_running (s : State) (x : ChainWait) : (putWait s x).running = s.running := rfl
@[simp] theorem putWait_fresh (s : State) (x : ChainWait) : (putWait s x).fresh = s.fresh := rfl
@[simp] theorem putWait_regs (s : State) (x : ChainWait) : (putWait s x).regs = s.regs := rfl
@[simp] theorem putWait_accessErr (s : State) (x : ChainWait) : (putWait s x).accessErr = s.accessErr := rfl
@[simp] theorem putWait_lastErr (s : State) (x : ChainWait) : (putWait s x).lastErr = s.lastErr := rfl
@[simp] theorem putWait_lockedWr (s : State) (x : ChainWait) : (putWait s x).lockedWr = s.lockedWr := rfl
@[simp] theorem putWait_badvalWr (s : State) (x : ChainWait) : (putWait s x).badvalWr = s.badvalWr := rfl
@[simp] theorem putWait_time (s : State) (x : ChainWait) : (putWait s x).time = s.time := rfl
@[simp] theorem putWait_fault (s : State) (x : ChainWait) : (putWait s x).fault = s.fault := rfl
@[simp] theorem putWait_cask (s : State) (x : ChainWait) : (putWait s x).cask = s.cask := rfl
@[simp] theorem putWait_snap (s : State) (x : ChainWait) : (putWait s x).snap = s.snap := rfl
@[simp] theorem putWait_mail (s : State) (x : ChainWait) : (putWait s x).mail = s.mail := rfl
@[simp] theorem putWait_mem (s : State) (x : ChainWait) : (putWait s x).mem = s.mem := rfl
@[simp] theorem putWait_exec (s : State) (x : ChainWait) : (putWait s x).exec = s.exec := rfl
@[simp] theorem putWait_net (s : State) (x : ChainWait) : (putWait s x).net = s.net := rfl
@[simp] theorem putWait_outcomes (s : State) (x : ChainWait) : (putWait s x).outcomes = s.outcomes := rfl
@[simp] theorem putWait_queues (s : State) (x : ChainWait) : (putWait s x).queues = s.queues := rfl
@[simp] theorem putWait_sched (s : State) (x : ChainWait) : (putWait s x).sched = s.sched := rfl
@[simp] theorem putWait_pfx (s : State) (x : ChainWait) : (putWait s x).pfx = s.pfx := rfl
@[simp] theorem putWait_link (s : State) (x : ChainWait) : (putWait s x).link = s.link := rfl
@[simp] theorem putWait_ledger (s : State) (x : ChainWait) : (putWait s x).ledger = s.ledger := rfl
@[simp] theorem putWait_trust (s : State) (x : ChainWait) : (putWait s x).trust = s.trust := rfl
@[simp] theorem putWait_boot (s : State) (x : ChainWait) : (putWait s x).boot = s.boot := rfl
@[simp] theorem putWait_pack (s : State) (x : ChainWait) : (putWait s x).pack = s.pack := rfl
@[simp] theorem putWait_srcOf (s : State) (x : ChainWait) (m : Nat) : srcOf (putWait s x) m = srcOf s m := rfl
@[simp] theorem putWait_chanOf (s : State) (x : ChainWait) (m : Nat) : chanOf (putWait s x) m = chanOf s m := rfl
@[simp] theorem putWait_stackOf (s : State) (x : ChainWait) (m : Nat) : stackOf (putWait s x) m = stackOf s m := rfl
@[simp] theorem putWait_quadOf (s : State) (x : ChainWait) (m : Nat) : quadOf (putWait s x) m = quadOf s m := rfl
@[simp] theorem putWait_tileOf (s : State) (x : ChainWait) (m : Nat) : tileOf (putWait s x) m = tileOf s m := rfl
@[simp] theorem putWait_frameOf (s : State) (x : ChainWait) (m : Nat) : frameOf (putWait s x) m = frameOf s m := rfl
@[simp] theorem putWait_portOf (s : State) (x : ChainWait) (m : Nat) : portOf (putWait s x) m = portOf s m := rfl
@[simp] theorem putWait_seqOf (s : State) (x : ChainWait) (m : SeqId) : seqOf (putWait s x) m = seqOf s m := rfl
@[simp] theorem putWait_liveOf (s : State) (x : ChainWait) (m : CmdKey) : liveOf (putWait s x) m = liveOf s m := rfl
@[simp] theorem putWait_queueOf (s : State) (x : ChainWait) (m : Nat) : queueOf (putWait s x) m = queueOf s m := rfl
@[simp] theorem putWait_findOutcome (s : State) (x : ChainWait) (m : CmdKey) : findOutcome (putWait s x) m = findOutcome s m := rfl

@[simp] theorem putCopy_pending (s : State) (x : CopyOut) : (putCopy s x).pending = s.pending := rfl
@[simp] theorem putCopy_running (s : State) (x : CopyOut) : (putCopy s x).running = s.running := rfl
@[simp] theorem putCopy_fresh (s : State) (x : CopyOut) : (putCopy s x).fresh = s.fresh := rfl
@[simp] theorem putCopy_regs (s : State) (x : CopyOut) : (putCopy s x).regs = s.regs := rfl
@[simp] theorem putCopy_accessErr (s : State) (x : CopyOut) : (putCopy s x).accessErr = s.accessErr := rfl
@[simp] theorem putCopy_lastErr (s : State) (x : CopyOut) : (putCopy s x).lastErr = s.lastErr := rfl
@[simp] theorem putCopy_lockedWr (s : State) (x : CopyOut) : (putCopy s x).lockedWr = s.lockedWr := rfl
@[simp] theorem putCopy_badvalWr (s : State) (x : CopyOut) : (putCopy s x).badvalWr = s.badvalWr := rfl
@[simp] theorem putCopy_time (s : State) (x : CopyOut) : (putCopy s x).time = s.time := rfl
@[simp] theorem putCopy_fault (s : State) (x : CopyOut) : (putCopy s x).fault = s.fault := rfl
@[simp] theorem putCopy_cask (s : State) (x : CopyOut) : (putCopy s x).cask = s.cask := rfl
@[simp] theorem putCopy_snap (s : State) (x : CopyOut) : (putCopy s x).snap = s.snap := rfl
@[simp] theorem putCopy_mail (s : State) (x : CopyOut) : (putCopy s x).mail = s.mail := rfl
@[simp] theorem putCopy_mem (s : State) (x : CopyOut) : (putCopy s x).mem = s.mem := rfl
@[simp] theorem putCopy_exec (s : State) (x : CopyOut) : (putCopy s x).exec = s.exec := rfl
@[simp] theorem putCopy_net (s : State) (x : CopyOut) : (putCopy s x).net = s.net := rfl
@[simp] theorem putCopy_outcomes (s : State) (x : CopyOut) : (putCopy s x).outcomes = s.outcomes := rfl
@[simp] theorem putCopy_queues (s : State) (x : CopyOut) : (putCopy s x).queues = s.queues := rfl
@[simp] theorem putCopy_sched (s : State) (x : CopyOut) : (putCopy s x).sched = s.sched := rfl
@[simp] theorem putCopy_pfx (s : State) (x : CopyOut) : (putCopy s x).pfx = s.pfx := rfl
@[simp] theorem putCopy_link (s : State) (x : CopyOut) : (putCopy s x).link = s.link := rfl
@[simp] theorem putCopy_ledger (s : State) (x : CopyOut) : (putCopy s x).ledger = s.ledger := rfl
@[simp] theorem putCopy_trust (s : State) (x : CopyOut) : (putCopy s x).trust = s.trust := rfl
@[simp] theorem putCopy_boot (s : State) (x : CopyOut) : (putCopy s x).boot = s.boot := rfl
@[simp] theorem putCopy_pack (s : State) (x : CopyOut) : (putCopy s x).pack = s.pack := rfl
@[simp] theorem putCopy_srcOf (s : State) (x : CopyOut) (m : Nat) : srcOf (putCopy s x) m = srcOf s m := rfl
@[simp] theorem putCopy_chanOf (s : State) (x : CopyOut) (m : Nat) : chanOf (putCopy s x) m = chanOf s m := rfl
@[simp] theorem putCopy_stackOf (s : State) (x : CopyOut) (m : Nat) : stackOf (putCopy s x) m = stackOf s m := rfl
@[simp] theorem putCopy_quadOf (s : State) (x : CopyOut) (m : Nat) : quadOf (putCopy s x) m = quadOf s m := rfl
@[simp] theorem putCopy_tileOf (s : State) (x : CopyOut) (m : Nat) : tileOf (putCopy s x) m = tileOf s m := rfl
@[simp] theorem putCopy_frameOf (s : State) (x : CopyOut) (m : Nat) : frameOf (putCopy s x) m = frameOf s m := rfl
@[simp] theorem putCopy_portOf (s : State) (x : CopyOut) (m : Nat) : portOf (putCopy s x) m = portOf s m := rfl
@[simp] theorem putCopy_seqOf (s : State) (x : CopyOut) (m : SeqId) : seqOf (putCopy s x) m = seqOf s m := rfl
@[simp] theorem putCopy_liveOf (s : State) (x : CopyOut) (m : CmdKey) : liveOf (putCopy s x) m = liveOf s m := rfl
@[simp] theorem putCopy_queueOf (s : State) (x : CopyOut) (m : Nat) : queueOf (putCopy s x) m = queueOf s m := rfl
@[simp] theorem putCopy_findOutcome (s : State) (x : CopyOut) (m : CmdKey) : findOutcome (putCopy s x) m = findOutcome s m := rfl

@[simp] theorem modSrc_srcOf (s : State) (n : Nat) (f : FaultSrc → FaultSrc) (m : Nat) :
    srcOf (modSrc s n f) m = if m = n then f (srcOf s n) else srcOf s m := by
  unfold srcOf modSrc
  exact tabGetD_tabModD _ _ _ _ _
@[simp] theorem modChan_chanOf (s : State) (n : Nat) (f : Chan → Chan) (m : Nat) :
    chanOf (modChan s n f) m = if m = n then f (chanOf s n) else chanOf s m := by
  unfold chanOf modChan
  exact tabGetD_tabModD _ _ _ _ _
@[simp] theorem modStack_stackOf (s : State) (n : Nat) (f : StackSt → StackSt) (m : Nat) :
    stackOf (modStack s n f) m = if m = n then f (stackOf s n) else stackOf s m := by
  unfold stackOf modStack
  exact tabGetD_tabModD _ _ _ _ _
@[simp] theorem modQuad_quadOf (s : State) (n : Nat) (f : Quad → Quad) (m : Nat) :
    quadOf (modQuad s n f) m = if m = n then f (quadOf s n) else quadOf s m := by
  unfold quadOf modQuad
  exact tabGetD_tabModD _ _ _ _ _
@[simp] theorem modCluster_clusterOf (s : State) (n : Nat) (f : Cluster → Cluster) (m : Nat) :
    clusterOf (modCluster s n f) m = if m = n then f (clusterOf s n) else clusterOf s m := by
  unfold clusterOf modCluster
  exact tabGetD_tabModD _ _ _ _ _
@[simp] theorem modTile_tileOf (s : State) (n : Nat) (f : Tile → Tile) (m : Nat) :
    tileOf (modTile s n f) m = if m = n then f (tileOf s n) else tileOf s m := by
  unfold tileOf modTile
  exact tabGetD_tabModD _ _ _ _ _
@[simp] theorem modFrame_frameOf (s : State) (n : Nat) (f : Frame → Frame) (m : Nat) :
    frameOf (modFrame s n f) m = if m = n then f (frameOf s n) else frameOf s m := by
  unfold frameOf modFrame
  exact tabGetD_tabModD _ _ _ _ _
@[simp] theorem modFree_freeOf (s : State) (n : Nat) (f : FreeList → FreeList) (m : Nat) :
    freeOf (modFree s n f) m = if m = n then f (freeOf s n) else freeOf s m := by
  unfold freeOf modFree
  exact tabGetD_tabModD _ _ _ _ _
@[simp] theorem modPort_portOf (s : State) (n : Nat) (f : CellarPort → CellarPort) (m : Nat) :
    portOf (modPort s n f) m = if m = n then f (portOf s n) else portOf s m := by
  unfold portOf modPort
  exact tabGetD_tabModD _ _ _ _ _
@[simp] theorem modFab_fabPort (s : State) (n : Nat) (f : Port → Port) (m : Nat) :
    fabPort (modFab s n f) m = if m = n then f (fabPort s n) else fabPort s m := by
  unfold fabPort modFab
  exact tabGetD_tabModD _ _ _ _ _
@[simp] theorem modTenant_tenantOf (s : State) (n : Nat) (f : Tenant → Tenant) (m : Nat) :
    tenantOf (modTenant s n f) m = if m = n then f (tenantOf s n) else tenantOf s m := by
  unfold tenantOf modTenant
  exact tabGetD_tabModD _ _ _ _ _
@[simp] theorem modQueue_queueOf (s : State) (n : Nat) (f : CmdQueue → CmdQueue) (m : Nat) :
    queueOf (modQueue s n f) m = if m = n then f (queueOf s n) else queueOf s m := by
  unfold queueOf modQueue
  exact tabGetD_tabModD _ _ _ _ _
@[simp] theorem modGate_gateOf (s : State) (n : Nat) (f : GateUnit → GateUnit) (m : Nat) :
    gateOf (modGate s n f) m = if m = n then f (gateOf s n) else gateOf s m := by
  unfold gateOf modGate
  exact tabGetD_tabModD _ _ _ _ _

/-- A sub-port's entry, read after it was changed. -/
@[simp] theorem modSub_subOf (s : State) (p b : Nat) (f : SubPort → SubPort) (q c : Nat) :
    subOf (modSub s p b f) q c = if q = p ∧ c = b then f (subOf s p b) else subOf s q c := by
  unfold subOf modSub
  rw [modFab_fabPort]
  by_cases h : q = p
  · subst h
    simp only [if_true]
    rw [tabGetD_tabModD]
    simp
  · simp [h]

end Sys2Proof.Machine
end

