-- ==== Sys2Proof/Tests/Slice0.lean ====
section
/-!
SUPPORT. Tests/Slice0.lean: the well-formedness smoke tests, small tests of single steps against the spec, and, for each statement of
Certificates/Slice0/Obligations.lean with hypotheses, concrete states and operands that meet them (`witness_<statement>`).
-/

namespace Sys2Proof.Tests

open Sys2Proof.Machine

set_option Elab.async false
set_option maxRecDepth 10000

/-! ### Helpers: small states and commands -/

/-- A running node over a SECURE link, at the interval counter `n`, not fenced. -/
def onAt (n : Nat) : State := { State.reset with
  running := true
  time := { counter := n }
  fault := { fenced := false }
  link := { state := 3 } }

/-- The same node at counter 0. -/
def on : State := onAt 0

/-- The same node with register words written. -/
def onRegs (r : Tab Nat) : State := { on with regs := r }

theorem reaches_of {s : State} {a : Nat} (h : (s.running && decide (2 ≤ s.link.state) && reachStatus s a == 0) = true) :
    Reaches s a := by
  simp only [Bool.and_eq_true, decide_eq_true_eq, beq_iff_eq] at h
  exact ⟨h.1.1, h.1.2, h.2⟩

theorem turn_of {s : State} {c : Command} (h : (isLive s c && mayRun s c) = true) : Turn s c := by
  simp only [Bool.and_eq_true] at h
  exact h

/-- A command of tenant 1 from adapter 1 for sequence 7, numbered `k`. -/
def cmd (k : Nat) (b : Body) (payload : List Byte := []) : Command :=
  { src := .adapter 1, tenant := 1, payload := payload
    desc := { opcode := b.opcode, reqId := k, seq := { tenant := 1, sequence := 7 }, payloadLen := payload.length, body := b } }

/-- `s` with a command admitted. -/
def live (s : State) (c : Command) (begun : Bool := false) : State :=
  { s with exec := { s.exec with live := s.exec.live ++ [{ cmd := c, since := 0, epoch := 0, begun := begun }] } }

/-- A map of two nodes and one adapter, as the node 0 has it: one cell, with node 0 before node 1. -/
def twoNodes : FMap :=
  { epoch := 1
    nodes := [{ id := 0, state := 1, partner := 1, incarnation := 5 }, { id := 1, state := 1, partner := 0, incarnation := 6 }]
    adapters := [{ id := 1, state := 1, composer := true }]
    layouts := [{ cells := [{ node0 := some 0, node1 := some 1 }] }]
    slots := [0]
    node := 0
    routes := [[{ port := 0, sub := 0, mac := 2 }]]
    routeIdx := [0, 0, 0]
    watch := [1] }

/-- The same node with that map installed. -/
def mapped : State := { on with comp := { on.comp with map := some twoNodes, lastEpoch := 1, leaseSince := some 0 } }

/-- The bytes of a map of two nodes (R316 to R321), with the SHAKE256 digest of its body. -/
def mapBytes : List Byte := be 352
  0x50414d4e01000000010000000000000002000000010000000100000000000000c800000098000000000000000000000000000000000000000000000000000000ffa289aa34b1b3f6f745df7d90b3ed58bedfbb021788f38293cca7769bd4448b00400100050000000000000000000000000000000000000040000000000000000140000006000000000000000000000000000000000000004000000000000000010101000000010000000000000000000080018000000000000000000000000000000000000000000000010000000000000000000000000040000200000000000000000000000000000000000000000000000000000000000000000000000000000000000000000000000000000000000000000000000000000000000000000000000000000000000000000000000000000000000000000000000000000000000000000000000000000000000000000000000000000000000000000000000000

/-- The FMap that those bytes spell. -/
def mapRead : FMap :=
  { twoNodes with adapters := [], routeIdx := [0, 0], watch := [], digest := slice mapBytes 0x40 32 }

/-- A sequence of one layer and one KV head with room for 65,536 positions. -/
def sq : Seq :=
  { handle := { tenant := 1, sequence := 7, repl := 1 }, format := 1, headDim := 64, layers := 1, kvHeads := 1, localHeads := [0],
    tokenBase := 0, tokenLimit := 65536, maxTokens := 65536, p := 64, leaves := 1 }

/-- A node that holds that sequence. -/
def withSeq (s : State) (x : Seq) : State := { s with mem := { s.mem with seqs := [(⟨1, 7⟩, x)] } }

/-- A node with another boot state. -/
def booted (b : BootSt) : State := { on with boot := b }

/-- An EVICT of sequence 7. -/
def evict1 : Command := { cmd 1 .evict with desc := { (cmd 1 .evict).desc with epoch := 1 } }

/-- A sequence with one page: positions 0 to 63 in frame 9 (leaf block 1), in slot 0 of channel 4 of stack 0. -/
def onePage : Seq := { sq with tensors := [(0, { endPos := 64 })], leafPtr := [(0, 1)] }
def h9 : PageHandle := { lpn := 9, gen := 1 }
def frame9 : Frame := { refcount := 1, state := .live, loc := .hbm 0 4 0 }
def paged (x : Seq) (f : Frame) (c : Command) (begun : Bool := false) : State := live { mapped with
  mem := { mapped.mem with seqs := [(⟨1, 7⟩, x)], frames := [(9, f)], leafs := [(1, [(0, h9)])], blocks := [(1, 1)], lpnNext := 100 } } c begun

/-! ### Well-formedness: an ill-formed term for each check -/

/-- R278: a node id has 12 bits, an adapter id 14. -/
theorem test_endpoint_refused : Endpoint.fits (.node 4096) = false ∧ Endpoint.fits (.adapter 16384) = false ∧
    Endpoint.fits (.node 4095) = true := by decide
/-- R48: SEQUENCE has 32 bits, CLASS 3. -/
theorem test_handle_refused : SeqHandle.fits { sequence := 4294967296 } = false ∧ SeqHandle.fits { cls := 8 } = false ∧
    SeqHandle.fits { tenant := 4095, sequence := 4294967295, repl := 3, cls := 7 } = true := by decide
/-- R56: LPN has 28 bits. -/
theorem test_page_handle_refused : PageHandle.fits { lpn := 268435456 } = false ∧ PageHandle.fits { lpn := 9, gen := 1 } = true := by decide
theorem test_tensor_block_refused : TensorBlock.fits ⟨256, 0, 0, 1⟩ = false ∧ TensorBlock.accepted ⟨2, 1, 0, 1⟩ = false ∧
    TensorBlock.accepted ⟨0, 0, 0, 0⟩ = false ∧ TensorBlock.accepted ⟨0, 0, 0, 128⟩ = true := by decide
/-- SKIM 31, BIAS 3 and KV_END not above KV_START are refused. -/
theorem test_attention_refused : AttnDesc.accepted { skim := 31 } = false ∧ AttnDesc.accepted { bias := 3 } = false ∧
    AttnDesc.accepted { kvStart := 1 } = false ∧ AttnDesc.fits { window := 16777216 } = false ∧ AttnDesc.accepted { skim := 30 } = true := by decide
/-- R111: head_dim 80 is none of R49's; MAX_INPUTS reaches 64. -/
theorem test_merge_refused : MergeDesc.accepted { headDim := 80, kvEnd := 64, maxInputs := 1, timeout := 1 } = false ∧
    MergeDesc.accepted { headDim := 64, kvEnd := 64, maxInputs := 65, timeout := 1 } = false ∧
    MergeDesc.fits { tag := 4294967296 } = false ∧
    MergeDesc.accepted { headDim := 64, kvEnd := 64, maxInputs := 64, timeout := 1 } = true := by decide
/-- FRAME_READ moves whole words of 32 bytes within 18,432. -/
theorem test_body_refused : (Body.frameRead {} 16 32 0).accepted = false ∧ (Body.frameRead {} 18432 32 0).accepted = false ∧
    (Body.frameRead {} 0 18432 0).accepted = true ∧ (Body.qwait 1024 0 0).fits = false := by decide
/-- The opcode goes with the body, and a CFLAGS bit with its opcodes alone (R88). -/
theorem test_descriptor_refused : Desc.fits { opcode := 0x05, body := .park, seqZero := true } = false ∧
    Desc.fits { opcode := 0x04, body := .park, seqZero := true, replicaOk := true } = false ∧
    Desc.fits { opcode := 0x04, body := .park, seqZero := false } = false ∧
    Desc.accepted { opcode := 0x04, body := .park, payloadLen := 33554433 } = false ∧
    Desc.fits { opcode := 0x04, body := .park, seqZero := true } = true := by decide
theorem test_command_refused : Command.fits { cmd 1 .evict with payload := [0] } = false ∧
    Command.fits { cmd 1 .evict with port := 12 } = false ∧ Command.fits (cmd 1 .evict) = true := by decide
/-- R279: TSN has 48 bits; a body has at most 8,192 bytes. -/
theorem test_frame_refused : RxFrame.fits { head := [] } = false ∧ RxFrame.fits { head := List.replicate 62 0, port := 12 } = false ∧
    RxFrame.fits { head := List.replicate 62 0 } = true := by decide

theorem test_inbound_refused : Inbound.fits { src := .node 4096 } = false ∧ Inbound.fits { src := .node 1, die := 2 } = false ∧
    Inbound.fits { src := .adapter 9 } = true := by decide

theorem test_word_error_refused : WordErr.fits { symbols := 0 } = false ∧ WordErr.fits { symbols := 35 } = false ∧
    WordErr.fits { plain := some (12, 0) } = false ∧ WordErr.fits { symbols := 2, plain := some (11, 31) } = true := by decide

theorem test_flit_refused : Flit.fits { bytes := [] } = false ∧ Flit.fits { bytes := List.replicate 512 0, seq := 4096 } = false ∧
    Flit.fits { bytes := List.replicate 512 0, opened := [1] } = false ∧ Flit.fits { bytes := List.replicate 512 0 } = true := by decide

theorem test_record_refused : IdRecord.fits {} = false ∧
    IdRecord.fits { version := 65536, serial := List.replicate 20 0, model := List.replicate 40 0, nodeKeyHash := List.replicate 32 0 } =
      false ∧
    IdRecord.fits { serial := List.replicate 20 0, model := List.replicate 40 0, nodeKeyHash := List.replicate 32 0 } = true := by
  decide

theorem test_packet_refused : Packet.fits { src := .node 0, dst := .node 1, tsn := 281474976710656 } = false ∧
    Packet.fits { src := .node 0, dst := .node 1, bodyLen := 8193 } = false ∧ Packet.fits { src := .node 0, dst := .node 1 } = true := by decide

/-! ### The spec's worked examples -/

/-- Locating one mash unit (chapter 1): pseudo-channel 9 of stack 7. -/
theorem test_locate_unit : quadOfStack 7 = 2 ∧ pcNum 7 9 = 233 := by decide
/-- Resolving one position (chapter 3): layer 41, KV head 5, heads 4 and 5 local, positions 524,288 to 786,431. -/
theorem test_resolve_position : tokensPerPage 0x01 128 = 64 ∧ leafCount 524288 786432 64 = 16 ∧
    tensorIdx { sq with layers := 96, kvHeads := 8, localHeads := [4, 5] } 41 5 = some 83 := by decide
/-- Where a position lives (chapter 12): G 4, HG_SIZE 2, T 4, RANGE_TOKENS 262,144, node 42 in cell 10. -/
theorem test_cell_of_position :
    let l : Layout := { g := 4, hg := 2, t := 4, rangeTokens := 262144, cells := (List.range 16).map fun i =>
      if i = 10 then { node0 := some 42, node1 := some 171 } else { node0 := some i } }
    headGroup l 5 = 2 ∧ column l 700000 = 2 ∧ cellNo l 2 2 = 10 ∧ chainOf (cellAt l 10) 2 = [42, 171] ∧ assignedHeads l 42 8 = [4, 5] ∧
      localRange l 42 1048576 = some (524288, 786432) := by decide
/-- One decode command (chapter 4): its 64 bytes, written out from the field table, read as the example's fields. -/
theorem test_decode_command :
    parseDesc false ([0x10, 0x02, 0x00, 0x19, 0x01, 0, 0, 0, 0x09, 0, 0, 0, 0, 0, 0, 0, 0x00, 0x00, 0x78, 0x00, 0x00, 0x00, 0x10, 0x00,
      0x00, 0x10, 0, 0, 0x29, 0x04, 0x02, 0x08, 0x01, 0x00, 0x30, 0x00, 0xFF, 0xFF, 0x0F, 0x00, 0x00, 0x00, 0x08, 0x00, 0x00, 0x00, 0x0C, 0x00,
      0, 0, 0, 0, 0, 0, 0, 0, 0, 0, 0xA7, 0x00, 0x05, 0, 0, 0] : List Byte) =
    { opcode := 0x10, epoch := 1, reqId := 9, seq := { tenant := 1, sequence := 7, repl := 2 }, payloadLen := 4096
      body := .attnFwd { causal := true, outBf16 := true, viaMerge := true, layer := 41, headFirst := 4, headCount := 2, group := 8, qtok := 1,
                         qfmt := 0x30, qPos := 1048575, kvStart := 524288, kvEnd := 786432, mergeNode := 167, tag := 5 } } := by decide
/-- A block with amax 3.0 gets the scale 2^-6, and 3.0 becomes 192 (chapter 5). -/
theorem test_block_scale : (toMx [ofBf16 0x4040, ofBf16 0x3F80]).2.1 = -6 ∧
    to32 ((toMx [ofBf16 0x4040]).1.headD fzero) = 0x43400000#32 := by decide
/-- The CRC of one appended token (chapter 7): token slot 63 lies in bank pair 31. -/
theorem test_bank_pair : pairOf { format := 0x01, headDim := 128, p := 64 } 63 0 = 31 ∧
    pairOf { format := 0x01, headDim := 128, p := 64 } 63 127 = 31 := by decide
/-- A delay of 500 ticks falls in bin 17 (R368). -/
theorem test_histogram_bin : histBin 0 = 0 ∧ histBin 1 = 1 ∧ histBin 500 = 17 := by decide
/-- 786,432 page visits are reported as 524,288 (R446). -/
theorem test_coarse_count : coarse 786432 = 524288 ∧ coarse 0 = 0 := by decide
/-- A mean of 81 °C reads 80, and power falls to a multiple of 10 W (R447). -/
theorem test_sensor_window : ∃ t, exec (.sensorWindowEnd 438 81 81 47) { on with time := { counter := 10000000 } } = .next t ∧
    i3cBytes t = le 2 430 ++ le 1 80 ++ le 1 80 ++ le 1 46 ++ le 1 (b2n t.boot.ready) ++ le 2 0x0820 := ⟨_, rfl, by decide⟩
/-- Two aliases (chapter 20). -/
theorem test_alias_words : winTarget 0x0204027C = some (0x2010, some 31) ∧ winTarget 0x02E3D208 = some (0x71E90, some 2) ∧
    isEast 0x71E90 = true := by decide
/-- The bits of a sequence handle (R48). -/
theorem test_handle_bits : seqHandleOf 0xABC12345678F6000 =
    { tenant := 0xABC, sequence := 0x12345678, repl := 3, training := true, cls := 5, noskim := true } := by decide

/-! ### Single steps and operations -/

theorem test_step_takes_front : step { on with pending := [.thermtrip, .graceEnd] } = exec .thermtrip { on with pending := [.graceEnd] } := rfl
/-- An empty queue lets one tick pass (log entry 1). -/
theorem test_step_idle : step on = .next (tick on) ∧ now (tick on) = 1 := ⟨rfl, by decide⟩
/-- THERMTRIP stops the interior (R555). -/
theorem test_thermtrip : (match exec .thermtrip on with | .next t => t.running | _ => true) = false := by decide
/-- The quotas of R198. -/
theorem test_quotas : [80, 81, 88, 89, 93, 94].map (tempQuota on) = [16, 12, 12, 8, 8, 0] := by decide
/-- The check value of CRC-32C for the digits 1 to 9, as published for that polynomial. -/
theorem test_crc32c : crc32c [0x31, 0x32, 0x33, 0x34, 0x35, 0x36, 0x37, 0x38, 0x39] = 0xE3069283#32 := by decide
/-- The check value of the frame check sequence (CRC-32) for the same digits, 0xCBF43926, least significant byte first. -/
theorem test_fcs : frameFcs [0x31, 0x32, 0x33, 0x34, 0x35, 0x36, 0x37, 0x38, 0x39] = [0x26, 0x39, 0xF4, 0xCB] := by decide
/-- The first 24 bytes and bytes 0x20 to 0x28 of a header, written out from R279 and R281 in network byte order. -/
theorem test_header_bytes :
    let h := headerBytes { src := .node 0x12, dst := .node 0x345, first := true, last := true, ackv := true, tenant := 0x678, keygen := 9
                           attempt := 2, bodyLen := 0x1234, tsn := 0x0102030405, ackTsn := 7, credit := 0xA0B0, msgLen := 0x11, roll := 3
                           ackRoll := 4 }
    h.take 24 = [0x10, 0x0B, 0x00, 0x12, 0x03, 0x45, 0x06, 0x78, 0x09, 0x02, 0x12, 0x34, 0x00, 0x01, 0x02, 0x03, 0x04, 0x05,
      0, 0, 0, 0, 0, 7] ∧ (h.drop 32).take 9 = [0, 0, 0xA0, 0xB0, 0, 0, 0, 0x11, 0x34] ∧ h.length = 48 := by decide
/-- Reading the header back gives its fields. -/
theorem test_header_read :
    (parseHeader (headerBytes { src := .node 0x12, dst := .adapter 3, tenant := 0x678, tsn := 0x0102030405, roll := 3 })).map
      (fun p => (p.src, p.dst, p.tenant, p.tsn, p.roll)) = some (.node 0x12, .adapter 3, 0x678, 0x0102030405, 3) := by decide
/-- The header of a block record (R244): KIND, TABLE, BLOCK and LEN. -/
theorem test_record_header : blockRecord 2 0x80 3 [] = [2, 0x80, 3, 0, 0, 0, 0, 0] ∧
    blockRecord 1 0x80 4 [7, 8] = [1, 0x80, 4, 0, 2, 0, 0, 0, 7, 8] := by decide
/-- Bytes of a block go to sub-streams in turn (R246). -/
theorem test_substream : (subSymbols (List.range 32 |>.map (BitVec.ofNat 8)) 3).take 4 = [3, 11, 19, 27] := by decide
/-- Bits fill bytes from bit 0 upward (R246). -/
theorem test_bit_order : packBits [true, false, false, false, false, false, false, false, true] = [0x01, 0x01] := by decide
/-- SHAKE256 of the empty message, as FIPS 202 publishes it. -/
theorem test_shake256 : shake256 [] 4 = [0x46, 0xB9, 0xDD, 0x2B] := by decide +kernel

/-! ### Witnesses: the step, the reset state and what no command may change -/

theorem witness_StepRunsFront : (on.pending = [] ∧ on.running = true) ∧ State.reset.pending = [] ∧ State.reset.running = false := by
  decide

/-- A node with one byte in a slot, one in the flash, a blown fuse and a fence. -/
def marked : State := { on with
  mem := { on.mem with slots := [(5, 1)] }
  boot := { on.boot with flash := [(0x8000, 0x12)], op := some (.erase 0x8000 4096), stgState := 1 }
  trust := { on.trust with fuseOwned := true }
  fault := { fenced := true } }

theorem witness_CanonicalKept : marked.memoryOk ∧ ∃ t, step marked = .next t ∧ t.time.counter = 1 :=
  ⟨⟨by decide, by decide⟩, _, rfl, by decide⟩

theorem witness_FenceStands : ∃ t, exec (.map { src := .adapter 1, sys := true, bytes := List.replicate 8 0 ++ mapBytes })
    { onRegs [(0x20100, 1)] with fault := { fenced := true } } = .next t ∧ t.fault.fenced = false :=
  ⟨_, rfl, by decide +kernel⟩

theorem witness_StoredWordsKept :
    (∃ t, exec (.regWr 0x1040 [1]) on = .next t ∧ t.regs ≠ on.regs) ∧
    (∃ t, exec (.flashOperationDone true) marked = .next t ∧ t.boot.flash ≠ marked.boot.flash) :=
  ⟨⟨_, rfl, by decide⟩, _, rfl, by decide⟩

theorem witness_NumbersNeverGoBack :
    (∃ t, exec .perstNAssert (onAt 5) = .next t ∧ t.time.counter < (onAt 5).time.counter) ∧
    (∃ t, step marked = .next t ∧ marked.trust.fuseOwned = true) :=
  ⟨⟨_, rfl, by decide⟩, _, rfl, by decide⟩

theorem witness_StoppedNodeStands : State.reset.running = false ∧ Instr.markGo ≠ .perstNAssert ∧
    (∀ env, Instr.markGo ≠ .perstNDeassert env) ∧ Instr.markGo ≠ .thermtrip ∧ Instr.markGo ≠ .coreWPowerLoss :=
  ⟨rfl, nofun, nofun, nofun, nofun⟩

/-- One id for each clause of R278, at the ends of its range. -/
theorem witness_EndpointIds :
    (bitsOf 15 14 4095 = 0 ∧ bitsOf 13 12 4095 = 0) ∧ (bitsOf 15 14 0x4000 = 1 ∧ bitsOf 15 14 0x7FFF = 1) ∧
    (bitsOf 15 14 4096 = 0 ∧ bitsOf 13 12 4096 ≠ 0) ∧ 2 ≤ bitsOf 15 14 0x8000 ∧ 2 ≤ bitsOf 15 14 0xFFFF := by decide

theorem witness_HandlesReadBack :
    ({ tenant := 4095, sequence := 4294967295, repl := 3, training := true, cls := 7, noskim := true } : SeqHandle).fits = true ∧
    ({ node := 4095, lpn := 268435455, gen := 65535, tier := 7 } : PageHandle).fits = true ∧
    (Endpoint.adapter 16383).fits = true := by decide

/-- A FRAME_WRITE whose fields stand at the top of their ranges. -/
theorem witness_DescriptorsReadBack :
    ({ opcode := 0x31, epoch := 4294967295, reqId := 281474976710655, queue := 1023, seq := { tenant := 4095, sequence := 7, cls := 7 },
       payloadLen := 4294967295,
       body := .frameWrite 255 255 { node := 4095, lpn := 268435455, gen := 65535, tier := 7 } 65535 65535 4294967295 } : Desc).fits
      = true := by decide

/-- One command of each kind, for a completion that is recorded and one that is not, and for a chain with and without a successor. -/
theorem witness_CompletionAnswers : (cmd 1 .evict).chainedFrom = none ∧ Status.ok ≠ .internal ∧ Status.busyRetry ≠ .internal ∧
    recorded .ok = true ∧ recorded .busyRetry = false := by decide

theorem witness_ExecutedCommandPassesChain :
    isForwarded (cmd 1 (.hint ⟨0, 0, 0, 1⟩ 0 0 64)).desc.body = false ∧ chainLegs on (cmd 1 .evict) 3 = [] ∧
    (isForwarded (cmd 1 .evict).desc.body = true ∧ chainLegs mapped (cmd 1 .evict) 2 ≠ []) := by decide

theorem witness_CountRead : Reaches (onAt 0x123456789) 0x5000 ∧
    ∃ t, exec (.countLoRead 1) (onAt 0x123456789) = .next t ∧ t.time.countHi = 1 ∧ now (onAt 0x123456789) < 2 ^ 64 :=
  ⟨reaches_of (by decide), _, rfl, by decide⟩

theorem witness_LatchingReads :
    Reaches on 0x2804 ∧ Reaches on 0x280C ∧ Reaches on (0x3110 + 8 * 7) ∧ Reaches on (0x10010 + 0x4000 * 3 + 8 * quadCounterNo .enc) ∧
    Reaches on (0x21004 + 16 * 1023) ∧
    (Reaches on 0x30130 ∧
      regionOf { onRegs [(0x30120, 65535)] with ledger := { regions := [(65535, {})] } }
        (fld { onRegs [(0x30120, 65535)] with ledger := { regions := [(65535, {})] } } 0x30120 15 0) = some {}) ∧
    (Reaches { on with mail := { k2h := [(9, true)] } } 0x4010 ∧ Reaches on 0x4010 ∧ on.mail.k2h = []) ∧ 3 ≠ 0 ∧
    fld (onRegs [(0x3100, 4096)]) 0x3100 12 12 = 1 :=
  ⟨reaches_of (by decide), reaches_of (by decide), reaches_of (by decide), reaches_of (by decide), reaches_of (by decide),
   ⟨reaches_of (by decide), by decide⟩, ⟨reaches_of (by decide), reaches_of (by decide), by decide⟩, by decide, by decide⟩

theorem witness_RowsAreAccesses : on.running = true ∧ 2 ≤ on.link.state ∧
    (∀ a ∈ [0x1020, 0x1038, 0x1060, 0x2048, 0x2828, 0x3004, 0x5010, 0x60E0, 0x6224, 0x6300, 0x6408, 0x2003C, 0x3000C, 0x3011C, 0x30128,
      0x40068, 0x50028, 0x60090, 0x60218, 0x60238, 0x4000, 0x4004, 0x2010, 0x2014], Reaches on a) :=
  ⟨by decide, by decide, fun a h => reaches_of (by
    simp only [List.mem_cons, List.not_mem_nil, or_false] at h
    rcases h with rfl | rfl | rfl | rfl | rfl | rfl | rfl | rfl | rfl | rfl | rfl | rfl | rfl | rfl | rfl | rfl | rfl | rfl | rfl |
      rfl | rfl | rfl | rfl | rfl <;> decide)⟩

/-- A good read of 64 bytes, one across a 4 KiB line, a write of one word, one of 17 words, and a plain RW word. -/
theorem witness_HostAccesses : on.running = true ∧ 2 ≤ on.link.state ∧ (accessEnd on 0x5000 8).1 = 0 ∧ (accessEnd on 0x5FFC 8).1 ≠ 0 ∧
    (accessEnd on 0x1040 (4 * [(1 : Word32)].length)).1 = 0 ∧ (accessEnd on 0x1000 (4 * (List.replicate 17 (1 : Word32)).length)).1 ≠ 0 ∧
    reachStatus on 0x60084 = 0 ∧ rd on 0x60084 < 2 ^ 32 := by decide

/-! ### Witnesses: trust, boot, faults and records -/

def onTrust (t : TrustSt) : State := { on with trust := t }

theorem witness_AttestationRequests : on.running = true ∧ Reaches on 0x60E0 ∧ (reportQueue on).length < 16 ∧
    (Reaches (onTrust { queue := List.replicate 16 {} }) 0x60E0 ∧ 16 ≤ (reportQueue (onTrust { queue := List.replicate 16 {} })).length) ∧
    (onTrust { endorsed := true }).trust.endorsed = true ∧ on.trust.endorsed = false ∧
    (mayMark on (.node 1) = true ∧ mayMark on (.adapter 1) = true) ∧
    takeFirst (fun x => !x.endorse) (onTrust { queue := [{ endorse := true }, { nonce := [1] }] }).trust.queue
      = some ({ nonce := [1] }, [{ endorse := true }]) :=
  ⟨by decide, reaches_of (by decide), by decide, ⟨reaches_of (by decide), by decide⟩, by decide, by decide, by decide, by decide⟩

def pkg (first : Bool) (keygen : Nat) : Package :=
  { tenant := 0, keygen := keygen, first := first, fabric := false, nonce := [], ok := true }

/-- A package of no content: check 1 refuses it. What the opening of a package answers is free (log entry 6), so the installation is
witnessed under the answer that it opens. -/
theorem witness_KeysAndSlots :
    (on.running = true ∧ Reaches on 0x6224 ∧ on.link.state = 3) ∧
    (Reaches { on with link := { state := 2 } } 0x6224 ∧ { on with link := { state := 2 } }.link.state = 2) ∧ Reaches on 0x6300 ∧
    (packageReason on (regBytes on 0x7000 428)).1 ≠ 0 ∧
    ({} : Tenant).state ≠ 2 ∧ (({} : Tenant).retired = none ∧ (pkg true 7).first = true) ∧
    (({ retired := some 255 } : Tenant).retired = some 255 ∧ keygenFits { retired := some 255 } (pkg true 0) = true) ∧
    (({ keygen := some 9 } : Tenant).keygen = some 9 ∧ (pkg false 10).first = false) ∧ ({} : Tenant).keygen = none :=
  ⟨⟨by decide, reaches_of (by decide), by decide⟩, ⟨reaches_of (by decide), by decide⟩, reaches_of (by decide), by decide +kernel, by decide, by decide,
   by decide, by decide, by decide⟩

def tenants (t : Tenant) : State := { on with trust := { tenants := [(0, t)] } }

theorem witness_TenantsRemoved :
    (on.running = true ∧ Reaches (tenants { state := 1 }) 0x6408 ∧ (tenantOf (tenants { state := 1 }) 0).state = 1) ∧
    (tenantOf on 0).state ≠ 1 ∧
    ((tenantOf (tenants { prev := some (3, 0) }) 0).prev ≠ none ∧ 31 ∉ (tenantOf (tenants { prev := some (3, 0) }) 0).drained ∧
      (tenantOf (tenants { prev := some (3, 0) }) 0).drained.length < 31) ∧
    ((tenantOf (tenants { prev := some (3, 0), drained := List.range 31 }) 0).drained.length = 31 ∧
      31 ∉ (tenantOf (tenants { prev := some (3, 0), drained := List.range 31 }) 0).drained) ∧ 0 + 1000000 ≤ now (onAt 1000000) :=
  ⟨⟨by decide, reaches_of (by decide), by decide⟩, by decide, by decide, by decide, by decide⟩

/-- A configuration slot of erased flash is no image: check 1 refuses it. Whether a signature verifies is free (log entry 6), so no
state shows an image that passes. -/
theorem witness_StagingCommands : Reaches (booted {}) 0x1038 ∧ (booted {}).boot.stgState ≠ 1 ∧ (booted {}).link.state = 3 ∧
    (stageArea (booted {}) = some (bankBase 1, bankLen) ∧ pendingBlocks (booted {}) = false ∧ fld (booted {}) 0x1034 23 0 + 2048 ≤ bankLen ∧
      bankLen < fld (onRegs [(0x1034, 16777215)]) 0x1034 23 0 + 2048 ∧ stageArea (onRegs [(0x1034, 16777215)]) = some (bankBase 1, bankLen)) ∧
    (stageArea (booted { active := 1 }) = none) ∧
    (fld (onRegs [(0x1030, 1)]) 0x1030 0 0 = 1 ∧ (imageReason on (cfgImage on (1 - on.boot.cfgSlot))).1 ≠ 0) ∧
    (fld on 0x1030 0 0 = 0 ∧ on.boot.pending = false ∧ on.boot.active = on.boot.bank ∧ bankImages on (1 - on.boot.bank) = none) ∧
    ((booted { pending := true }).boot.pending = true ∧ (booted { pending := true }).boot.stgState ≠ 1) ∧
    ((booted { ready := true, pending := true, bank := 1 }).boot.ready = true ∧ (1 : Nat) ≠ 0 ∧ (booted {}).boot.ready = false) ∧
    ((booted { stgState := 1 }).boot.stgState = 1 ∧ Reaches (booted { stgState := 1 }) 0x1038) ∧
    (∀ op ∈ [FlashOp.erase 0 4096, .program 0 [1], .stageFirmware, .confirm, .cancel], (booted { op := some op }).boot.op = some op) ∧
    (Reaches on 0x1060 ∧ on.trust.owned = false ∧ on.trust.fuseOwned = false ∧ (onTrust { owned := true }).trust.owned = true) :=
  ⟨reaches_of (by decide), by decide, by decide, by decide, by decide, ⟨by decide, by decide +kernel⟩, ⟨by decide, by decide, by decide, by decide +kernel⟩,
   by decide, by decide, ⟨by decide, reaches_of (by decide)⟩, by decide, reaches_of (by decide), by decide, by decide, by decide⟩

theorem witness_ResetsAndPower : (State.reset.pack.pinReset = true ∧ State.reset.pack.thermtrip = false) ∧
    (Reaches (booted { ready := true }) 0x1020 ∧ (booted { ready := true }).boot.ready = true) ∧ on.running = true :=
  ⟨by decide, ⟨reaches_of (by decide), by decide⟩, by decide⟩

def onFault (f : FaultSt) : State := { onAt 100000000 with fault := { f with fenced := false } }

theorem witness_FaultCollector : (onFault {}).running = true ∧ (selfSource 1 = true ∧ selfSource 52 = true ∧ selfSource 10 = false) ∧
    ((onFault { events := [{ source := 14 }] }).fault.events = [{ source := 14 }] ∧
      (pWinEn (onFault { events := [{ source := 14 }] }) 14 && windowDue (onFault { events := [{ source := 14 }] })
        (pWindow (onFault { events := [{ source := 14 }] }) 14)) = false) ∧
    (let s := { onFault { events := [{ source := 14 }], winEnd := [(3, 5)] } with regs := [(0x2100 + 16 * 14, 64 + 4 * 3), (0x2080 + 8 * 3, 64)] }
     s.fault.events = [{ source := 14 }] ∧ (pWinEn s 14 && windowDue s (pWindow s 14)) = true ∧ windowDue s 3 = true) ∧
    ((srcOf (onFault { srcs := [(14, { lineSince := some 5 })] }) 14).lineSince = some 5 ∧ 5 + 1000 ≤ now (onFault {})) ∧
    ((srcOf (onFault { srcs := [(14, { logStart := some 0 })] }) 14).logStart = some 0 ∧ 0 + 100000000 ≤ now (onFault {}) ∧
      (srcOf (onFault { srcs := [(14, { logStart := some 0 })] }) 14).logMissed = 0) ∧
    (srcOf (onFault { srcs := [(14, { logStart := some 0, logMissed := 2 })] }) 14).logMissed ≠ 0 ∧
    (Reaches on 0x2010 ∧ Reaches on 0x2014) :=
  ⟨by decide, by decide, by decide, by decide, by decide, by decide, by decide, reaches_of (by decide), reaches_of (by decide)⟩

def injecting (st : Nat) : State := { onRegs [(0x2040, 1), (0x2044, 12)] with
  fault := { fenced := false, inj := { status := st, checker := 12 } }
  cask := { queue := [{ record := { kind := 1 }, segment := 0, place := 0 }] } }

theorem witness_InjectionsAndRecords :
    (Reaches (injecting 0) 0x2048 ∧ (injecting 0).fault.inj.status ≠ 1 ∧ pInjectEn (injecting 0) = true ∧ (injecting 0).link.state = 3 ∧
      fld (injecting 0) 0x2044 23 8 < checkerUnits (fld (injecting 0) 0x2044 3 0)) ∧
    (Reaches on 0x2048 ∧ pInjectEn on = false) ∧
    (Reaches (injecting 1) 0x2048 ∧ (injecting 1).fault.inj.status = 1) ∧
    ((injecting 0).running = true ∧ (injecting 0).cask.queue = [{ record := { kind := 1 }, segment := 0, place := 0 }] ∧
      (injecting 0).cask.waiting = [] ∧ ¬((injecting 0).fault.inj.status = 1 ∧ (injecting 0).fault.inj.checker = 12)) ∧
    ((injecting 1).fault.inj.checker = 12 ∧ (injecting 1).fault.inj.unit = 0) :=
  ⟨⟨reaches_of (by decide), by decide⟩, ⟨reaches_of (by decide), by decide⟩, ⟨reaches_of (by decide), by decide⟩, by decide, by decide⟩

/-- A Cask with a good record of SEQ 0, and one whose record of SEQ 0 has a wrong CRC. -/
def oneRecord (bad : Bool) : State := { on with cask := { segs := [(0, { recs := [{ kind := 1, badCrc := bad }] })], nextSeq := 1 } }

theorem witness_CaskReads : Reaches (oneRecord false) 0x2828 ∧ Reaches on 0x2828 ∧
    (∀ b : Bool, ((oneRecord b).cask.segs.flatMap fun e => e.2.recs).find? (fun r => r.seq == rd (oneRecord b) 0x2820 + 4294967296 * fld (oneRecord b) 0x2824 15 0)
      = some { kind := 1, badCrc := b }) ∧
    (on.cask.segs.flatMap fun e => e.2.recs).find? (fun r => r.seq == 0) = none :=
  ⟨reaches_of (by decide), reaches_of (by decide), by decide, by decide⟩

def snapped (x : SnapSt) : State := { mapped with snap := x }

theorem witness_Snapshots : on.running = true ∧ (haloFree on = true ∧ fld on 0x3000 3 3 = 0 ∧ Reaches on 0x3004) ∧
    (2 ≤ 2 ∧ fld (onRegs [(0x3000, 1)]) 0x3000 0 0 = 1) ∧
    ((sameTick (snapped { state := 3 }) = false ∧ sameTick (snapped { state := 3, haloAt := some 0 }) = true ∧
      haloFree (snapped { state := 3, haloAt := some 0 }) = false ∧ reachStatus (snapped { state := 3, haloAt := some 0 }) 0x3004 = 0) ∧
      haloFree (snapped { state := 3 }) = false ∧ (snapped { state := 3 }).snap.state = 3 ∧ Reaches (snapped { state := 3 }) 0x3004) ∧
    (takeKind mapped (.adapter 1) 0x1C = mapped ∧ mayMark mapped (.adapter 1) = true ∧ mapped.comp.map ≠ none ∧ epochOf mapped = 1 ∧
      mapped.snap.ids.contains 65535 = false ∧ haloFree mapped = true ∧ (2 : Nat) ≠ epochOf mapped) ∧
    (let d : Drain := { snapId := 4, since := 0, expect := [] }
     (snapped { drains := [d] }).snap.drains.find? drainComplete = some d) ∧
    (let d : Drain := { snapId := 4, since := 0, expect := [⟨.node 1, 0, true⟩] }
     let s := { snapped { drains := [d] } with time := { counter := 5000 } }
     s.snap.drains.find? (fun d => !drainComplete d && elapsed s d.since 5000) = some d) :=
  ⟨by decide, ⟨by decide, by decide, reaches_of (by decide)⟩, by decide, ⟨by decide, by decide, by decide, reaches_of (by decide)⟩, by decide, by decide, by decide⟩

def mail (m : MailSt) : State := { on with mail := m }

theorem witness_MailboxMessages : on.running = true ∧ (on.mail.skip = false ∧ on.mail.fifo.length < 64 ∧ Reaches on 0x4000 ∧ Reaches on 0x4004) ∧
    (64 ≤ (mail { fifo := List.replicate 64 (0, false) }).mail.fifo.length ∧ Reaches (mail { fifo := List.replicate 64 (0, false) }) 0x4000) ∧
    ((mail { skip := true }).mail.skip = true ∧ Reaches (mail { skip := true }) 0x4000 ∧ Reaches (mail { skip := true }) 0x4004) ∧
    ((mail { cur := [0x2, 5], done := true }).mail.done = true ∧ mailKind (mail { cur := [0x2, 5], done := true }).mail.cur = 2) ∧
    mailKind [0x3, 5] = 3 :=
  ⟨by decide, ⟨by decide, by decide, reaches_of (by decide), reaches_of (by decide)⟩, ⟨by decide, reaches_of (by decide)⟩,
   ⟨by decide, reaches_of (by decide), reaches_of (by decide)⟩, by decide, by decide⟩

/-- A first chunk of two words of which one has come, a chunk at a gap, and the one that completes four bytes. -/
theorem witness_MapChunks :
    (mailKind [0x1, 0, 8, 9] = 1 ∧ ((([0x1, 0, 8, 9] : List Word32).getD 1 0).toNat = 0) ∧
      (([] ++ wordBytes (([0x1, 0, 8, 9] : List Word32).drop 3)).take 8).length ≠ 8) ∧
    (mailKind [0x1, 4, 8, 9] = 1 ∧ (4 : Nat) ≠ ([] : List Byte).length) ∧
    (([] ++ wordBytes (([0x1, 0, 4, 9] : List Word32).drop 3)).take 4).length = 4 ∧
    (mail { cur := [0x1, 0, 8, 9], done := true }).mail.done = true := by decide

/-! ### Witnesses: the link, the package, the Ledger and the schedulers -/

def onLink (l : LinkSt) : State := { on with link := l }

/-- A MEM_RD of 64 bytes sent at 0. -/
def memRd64 : MemRd := { tag := 3, addr := 4096, len := 64, since := 0, why := .job 1 }

/-- A flit with header `h`, a payload of zeros and a good CRC. -/
def goodFlit (h : Nat) : Flit :=
  let b := le 2 h ++ List.replicate 500 0
  { bytes := b ++ le 4 (crc32c b).toNat ++ List.replicate 6 0 }

theorem goodFlit_crc (h : Nat) : flitCrcOk (goodFlit h) = true := by
  have n : (le 2 h ++ List.replicate 500 (0 : Byte)).length = 0x1F6 := by simp
  have f := fieldLe_append (le 2 h ++ List.replicate 500 0) (List.replicate 6 0) 4 (crc32c (le 2 h ++ List.replicate 500 0)).toNat
  rw [n] at f
  have lt := (crc32c (le 2 h ++ List.replicate 500 0)).isLt
  unfold flitCrcOk goodFlit
  dsimp only
  rw [f, List.append_assoc (le 2 h ++ List.replicate 500 0), List.take_left' n]
  simp only [beq_iff_eq]
  omega

theorem witness_LinkTraffic : on.running = true ∧ 2 ≤ on.link.state ∧
    (fireInj on 9 0 = none ∧ flitCrcOk { bytes := [1] } = false ∧ on.link.rxFails < 3) ∧
    (3 ≤ (onLink { state := 3, rxFails := 3 }).link.rxFails ∧ fireInj (onLink { state := 3, rxFails := 3 }) 9 0 = none) ∧
    (flitCrcOk (goodFlit 0) = true ∧ flitCrcOk (goodFlit 0x4000) = true ∧ flitCrcOk (goodFlit 0x1000) = true ∧
      flitCrcOk { goodFlit 0 with opened := [255] } = true ∧ flitCrcOk { goodFlit 0 with seq := 1, tagOk := false } = true) ∧
    ((goodFlit 0).tagOk = true ∧ flitNak (goodFlit 0) = false ∧ flitAckv (goodFlit 0) = false ∧ flitKind (goodFlit 0) = 0 ∧
      (goodFlit 0).seq = on.link.rxSeq ∧ flitKind (goodFlit 0x4000) = 1 ∧ flitNak (goodFlit 0x4000) = false ∧
      (1 : Nat) ≠ on.link.rxSeq ∧ on.link.state = 3 ∧ rxRead 64 on.link.rx [] = some {} ∧ rxRead 64 on.link.rx [255] = none ∧
      flitNak (goodFlit 0x1000) = true) ∧
    ((linkAck on.link 0).kept = [] ∧
      (∀ n ∈ [3, 4], (linkAck (onLink { state := 3, kept := [{ seq := 0, tries := n, bytes := [7] }] }).link 4095).kept
        = [{ seq := 0, tries := n, bytes := [7] }])) ∧
    ((onLink { state := 2 }).link.state = 2 ∧
      linkGenOk { on with trust := { tenants := [(1, { state := 1, keygen := some 0 })] } } { peer := hlEndpoint on, tenant := 1 } 0 = true) ∧
    ((onLink { state := 3, memRds := [memRd64] }).link.memRds.find? (fun x => x.tag == 3) = some memRd64 ∧ memRd64.len ≤ (List.replicate 64 (0 : Byte)).length ∧
      ([1] : List Byte).length < memRd64.len ∧ memRd64.since + 10000 ≤ now (onAt 10000)) :=
  ⟨by decide, by decide, by decide, by decide,
    ⟨goodFlit_crc 0, goodFlit_crc 0x4000, goodFlit_crc 0x1000, goodFlit_crc 0, goodFlit_crc 0⟩, by decide, by decide, by decide, by decide⟩

def training (step fails : Nat) : State := onLink { state := 1, step := step, fails := fails }

theorem witness_LinkTrains : on.running = true ∧ on.time.backup = false ∧ ((training 1 0).link.state = 1 ∧ (training 1 0).link.step = 1 ∧ 4 ≤ 4) ∧
    ((training 2 0).link.step = 2 ∧ 16 ∈ [4, 8, 16] ∧ 16 ≤ widthOfCeil (training 2 0).link.widthCeil) ∧
    ((training 3 0).link.step = 3 ∧ 1 ≤ 3 ∧ 3 ≤ (training 3 0).link.genCeil) ∧ (training 4 0).link.step = 4 ∧ (training 1 1).link.fails < 2 ∧
    2 ≤ (training 1 2).link.fails ∧ Reaches on 0x3000C :=
  ⟨by decide, by decide, by decide, by decide, by decide, by decide, by decide, by decide, reaches_of (by decide)⟩

/-- An entry end of gate unit 0 at comparator 0, a firing of the failure detector at comparator 32, and the end of window 2 at
comparator 5, each due. -/
theorem witness_TimeAndClocks : on.running = true ∧ Reaches on 0x5010 ∧
    (let s := { onRegs [(0x40100, 1)] with sched := { gates := [(0, { list := [{}], entryEnd := 0 })] } }
     0 ≤ now s ∧ comparator s 0 = (1, some 0) ∧ (List.range 14).find? (fun u => pGateEn s u && pGateCmp s u == 0) = some 0) ∧
    (let s := { onRegs [(0x1130, 32768)] with boot := { lock := true } }
     comparator s (pDetCmp s) = (2, some 0) ∧ ∀ k < 64, pDetCmp s / 32 * 32 ≤ k → k < pDetCmp s → comparatorDue s k = false) ∧
    (let s := { onRegs [(0x2080 + 8 * 2, 64 + 5)] with fault := { fenced := false, winEnd := [(2, 0)] } }
     comparator s 5 = (3, some 0) ∧ (List.range 16).find? (fun k => pFwinEn s k && pFwinCmp s k == 5) = some 2 ∧
     ∀ k < 5, comparatorDue s k = false) ∧
    on.time.backup = false ∧ ({ on with time := { backup := true } }).time.backup = true ∧ on.pack.lostMem.contains (.hbm 0) = false ∧
    ({ on with pack := { lostMem := [.hbm 0] } }).pack.lostMem.contains (.hbm 0) = true ∧
    (booted { op := some .cancel }).boot.op = some .cancel :=
  ⟨by decide, reaches_of (by decide), by decide, by decide, by decide, by decide, by decide, by decide, by decide, by decide⟩

/-- A rail at 750 mV between the limits 700 and 900, in a node whose image is loaded. -/
def railed (r : Rail) (mode : Nat := 0) : State := { onAt 10000 with
  boot := { lock := true }
  time := { counter := 10000, railW := r }
  regs := [(0x5024, 700 + 1024 * 900), (0x5020, mode)] }

theorem witness_PackageSensors : on.running = true ∧
    ((tabGetD on.time.bridge 15 {}).retired = false ∧ fireInj on 10 15 = none) ∧
    (fireInj { on with fault := { inj := { status := 1, checker := 10, unit := 15 } } } 10 15).isSome = true ∧
    2 ≤ (railOf { on with time := { railW := { missed := 2 } } } 0).missed ∧ (onAt 1000).pack.logicSince + 1000 ≤ now (onAt 1000) ∧
    (({ fails := 63 } : BridgeModule).fails + 1 ≤ 64 ∧ 64 < ({ fails := 64 } : BridgeModule).fails + 1 ∧
      ¬(({ fails := 64 } : BridgeModule).fails = 0 ∨ ({ fails := 64 } : BridgeModule).since + 1048576 ≤ now on)) ∧
    ((railOf (railed {}) 0).answering = true ∧ (railed {}).boot.lock = true ∧ pVmin (railed {}) = 700 ∧ pVmax (railed {}) = 900 ∧
      (railOf (railed {}) 0).mv = 750) ∧
    (pPcap (railed { power := 1 }) < 1 ∧ (railOf (railed { power := 1 }) 0).power = 1 ∧ 0 + 1000 ≤ now (railed { power := 1 })) ∧
    (dieTemp (railed {} 3) 0 < 100 ∧ 0 ≤ pPcap (railed {} 3) ∧ wantedMv (railed {} 3) 0 < 750) ∧
    (dieTemp (railed { mv := 705 }) 0 < 100 ∧ 705 < wantedMv (railed { mv := 705 }) 0) := by decide

/-- A SHARED region 5 of 4 lines of tenant 1. -/
def ledger (g : LedRegion) (b : Body) (payload : List Byte := []) : State :=
  live { on with ledger := { regions := [(5, g)] } } (cmd 1 b payload)

def shared : LedRegion := { tenant := 1, size := 4 }
def published : LedRegion := { tenant := 1, size := 1, published := true }

theorem witness_LedgerCommands :
    (isLive (ledger shared (.ledgerRead 0 5 1 3)) (cmd 1 (.ledgerRead 0 5 1 3)) = true ∧
      regionOf (ledger shared (.ledgerRead 0 5 1 3)) 5 = some shared ∧ shared.tenant = (cmd 1 (.ledgerRead 0 5 1 3)).tenant ∧ 3 < shared.size ∧
      shared.published = false) ∧
    (isLive (ledger published (.ledgerRead 0 5 1 0)) (cmd 1 (.ledgerRead 0 5 1 0)) = true ∧ published.published = true ∧ published.pubPoison = []) ∧
    (isLive (ledger shared (.ledgerRead 2 5 4 0)) (cmd 1 (.ledgerRead 2 5 4 0)) = true ∧ 0 + 4 ≤ shared.size ∧
      ∀ k < 4, waitersOn (ledger shared (.ledgerRead 2 5 4 0)) 5 (0 + k) < 64) ∧
    (let g := { shared with lines := [(3, { holder := some (.adapter 1, 0) })] }
     isLive (ledger g (.ledgerWrite 0 5 1 3) (le 8 0 ++ le 64 1)) (cmd 1 (.ledgerWrite 0 5 1 3) (le 8 0 ++ le 64 1)) = true ∧
     (lineOf g 3).lastCommit ≠ some (cmdKey (cmd 1 (.ledgerWrite 0 5 1 3))) ∧
     (lineOf g 3).holder = some ((cmd 1 (.ledgerWrite 0 5 1 3)).src, fieldLe (le 8 0 ++ le 64 1) 0 8)) ∧
    ((lineOf shared 3).holder ≠ some ((cmd 1 (.ledgerWrite 0 5 1 3)).src, 0) ∧
      isLive (ledger shared (.ledgerWrite 0 5 1 3) (le 8 0 ++ le 64 1)) (cmd 1 (.ledgerWrite 0 5 1 3) (le 8 0 ++ le 64 1)) = true) ∧
    (isLive (ledger shared (.ledgerRelease 5 4 0)) (cmd 1 (.ledgerRelease 5 4 0)) = true ∧ 0 + 4 ≤ shared.size) ∧
    (isLive (ledger published (.ledgerPublish 5 0) (le 64 9)) (cmd 1 (.ledgerPublish 5 0) (le 64 9)) = true ∧
      (cmd 1 (.ledgerPublish 5 0) (le 64 9)).payload.length = published.size * 64 ∧ published.lastPub ≠ some (cmdKey (cmd 1 (.ledgerPublish 5 0))) ∧
      0 = published.version ∧ 1 ≠ published.version) := by decide

/-- The other cases: a management command over the Ranup Link for another tenant's region, 64 requests on one line, one 64-byte
line written by its holder and by another, a write and a publication repeated, and what R408 refuses. -/
theorem witness_LedgerCommands_more :
    (let c := { cmd 1 (.ledgerRead 1 5 1 0) with tenant := 2, viaLink := true, mgmt := true }
     shared.tenant ≠ c.tenant ∧ c.viaLink = true ∧ c.mgmt = true ∧
     let w : LedWait := { cmd := c, region := 5, first := 0, count := 1, grant := 1 }
     let s := { ledger shared .park with ledger := { regions := [(5, shared)], waits := List.replicate 64 w } }
     64 ≤ waitersOn s 5 (0 + 0)) ∧
    (let g := { shared with lines := [(3, { holder := some (.adapter 1, 7), lastCommit := some (cmdKey (cmd 1 .evict)) })] }
     (lineOf g 3).holder = some ((cmd 1 .evict).src, 7) ∧ (lineOf g 3).holder ≠ some ((cmd 1 .evict).src, 8) ∧
     (lineOf g 3).lastCommit = some (cmdKey (cmd 1 .evict))) ∧
    (({ published with lastPub := some (cmdKey (cmd 1 .evict)) } : LedRegion).lastPub = some (cmdKey (cmd 1 .evict))) ∧
    (let s := ledger shared (.ledgerRead 2 5 5 0)
     isLive s (cmd 1 (.ledgerRead 2 5 5 0)) = true ∧
     ledgerRefusal s (cmd 1 (.ledgerRead 2 5 5 0)) 5 0 5 (fun g => 2 == 0 || !g.published) = some .refusedFit ∧
     ledgerRefusal s (cmd 1 (.ledgerRead 2 4 5 0)) 4 0 5 (fun g => 2 == 0 || !g.published) = some .noState ∧
     ledgerRefusal s (cmd 1 (.ledgerWrite 0 5 1 4)) 5 4 1 (fun g => !g.published) = some .refusedFit ∧
     ledgerRefusal s (cmd 1 (.ledgerPublish 5 0)) 5 0 0 (fun g => g.published && (cmd 1 (.ledgerPublish 5 0)).payload.length == g.size * 64)
       = some .refusedFit) := by decide

/-- A node with one recall of line 3 of region 5 outstanding. -/
def recalling (n : Nat) (fenced : Bool) : State := { onAt n with
  fault := { fenced := fenced }
  ledger := { regions := [(5, { shared with lines := [(3, { holder := some (.node 1, 0) })] })],
              recalls := [{ reqId := 9, region := 5, line := 3, holder := .node 1, downgrade := false, version := 0, since := 0 }] } }

theorem witness_LedgerRecalls : on.running = true ∧ (∀ x ∈ on.ledger.recalls, x.reqId = 9 → x.holder ≠ .node 1) ∧
    (∀ b : Bool, ((recalling 2000 b).ledger.recalls.find? (fun y => y.reqId == 9 && y.holder == .node 1)).isSome = true ∧
      (recalling 2000 b).fault.fenced = b ∧ 0 + 2000 ≤ now (recalling 2000 b)) ∧
    (Reaches on 0x3011C ∧ endpointOf (fld on 0x30118 15 0) = some (.node 0)) ∧
    (let s := onRegs [(0x30100, 8192), (0x30124, 4096 + 8192 * 1)]
     Reaches s 0x30128 ∧ fld s 0x30124 12 0 = 4096 ∧ fld s 0x30124 13 13 = 1 ∧ regionOf s 0 = none ∧
     fitLines ((1 + fld s 0x30124 13 13) * 4096) (usedLines s) 0 + (1 + fld s 0x30124 13 13) * 4096 ≤ fld s 0x30100 24 0) :=
  ⟨by decide, by decide, by decide, ⟨reaches_of (by decide), by decide⟩, reaches_of (by decide), by decide⟩

theorem witness_LedgerFrame : ∃ t, exec (.recallTimeout 9) (recalling 2000 false) = .next t ∧ t.ledger.recalls = [] :=
  ⟨_, rfl, by decide⟩

/-- A COMMAND message that carries a command's descriptor. -/
def command (c : Command) : Inbound :=
  { src := c.src, tenant := c.tenant, bytes := le 8 1 ++ encodeDesc c.desc ++ c.payload }

def qwait1 (n : Nat) : Command := { cmd 1 (.qwait 0 n 100) with desc := { (cmd 1 (.qwait 0 n 100)).desc with seq := {}, seqZero := true } }
def queued (c : Command) : State := { on with queues := [(0, { bind := 0x30000000, waiting := [c] })] }

theorem witness_QueuesAndAdmission : on.running = true ∧
    (Reaches on (0x21000 + 16 * 1023) ∧ (queueOf on 1023).waiting = [] ∧ (queueOf on 1023).blocked = none) ∧
    (Reaches (queued evict1) (0x21000 + 16 * 0) ∧ (queueOf (queued evict1) 0).waiting ≠ []) ∧
    (msgKind (command evict1).bytes = 1 ∧ evict1 = commandOf (pMixed mapped) (command evict1) ∧ evict1.desc.v1 = false ∧
      takeDelivery mapped (command evict1) = mapped ∧ genRetired mapped (replyKey evict1) evict1.keygen = false ∧
      mapped.fault.fenced = false ∧ loggedOutcome mapped (cmdKey evict1) = none ∧ judge mapped evict1 = none ∧
      queueTakes mapped evict1 = true ∧ isFastRead mapped evict1 = false ∧ (queueOf mapped 0).waiting.length < 256) ∧
    (loggedOutcome { on with outcomes := [{ key := cmdKey evict1, status := some .ok, retain := 9 }] } (cmdKey evict1)
      = some { key := cmdKey evict1, status := some .ok, retain := 9 }) ∧
    (let c := cmd 1 (.ledgerRead 0 5 1 3)
     isFastRead (ledger shared .park) c = true ∧ judge (ledger shared .park) c = none ∧ queueTakes (ledger shared .park) c = true) ∧
    (∀ n ∈ [0, 5], ∃ v, openOutcome (modQueue (queued (qwait1 n)) 0 fun q => { q with waiting := q.waiting.tail }) (cmdKey (qwait1 n)) = some v ∧
      (queueOf (queued (qwait1 n)) 0).waiting.head? = some (qwait1 n) ∧ waitPlaces (queued (qwait1 n)) 0 = [] ∧
      judgeEpoch v (qwait1 n).desc = none ∧ descFits v (qwait1 n) = true ∧ qwaitFits v (qwait1 n) 0 = true ∧ (queueOf v 0).count = 0) ∧
    (findOutcome { onAt 9 with outcomes := [{ key := cmdKey evict1, status := some .ok, retain := 9 }] } (cmdKey evict1)
      = some { key := cmdKey evict1, status := some .ok, retain := 9 } ∧ 0 + 9 ≤ now (onAt 9)) ∧ Reaches on 0x40068 :=
  ⟨by decide, ⟨reaches_of (by decide), by decide⟩, ⟨reaches_of (by decide), by decide⟩, by decide, by decide, by decide,
   fun n h => by
     simp only [List.mem_cons, List.not_mem_nil, or_false] at h
     rcases h with rfl | rfl
     · exact ⟨_, rfl, by decide⟩
     · exact ⟨_, rfl, by decide⟩,
   by decide, reaches_of (by decide)⟩

/-- The other arrivals: under a retired key, at a fence, of a command in progress, one that a check stops, one for a queue that
does not take it, and one for a full queue, with a good descriptor and with a bad one; and a QWAIT of a later map. -/
theorem witness_QueuesAndAdmission_arrivals :
    (let s := { on with trust := { tenants := [(1, { state := 1, keygen := some 4, prev := some (3, 0) })] } }
     genRetired s (replyKey evict1) 3 = true) ∧
    (genRetired mapped (replyKey evict1) 0 = false ∧ { mapped with fault := { fenced := true } }.fault.fenced = true) ∧
    (loggedOutcome { on with outcomes := [{ key := cmdKey evict1, status := none, retain := 9 }] } (cmdKey evict1)
      = some { key := cmdKey evict1, status := none, retain := 9 }) ∧
    (loggedOutcome on (cmdKey (cmd 1 .evict)) = none ∧ (judge mapped (cmd 1 .evict)).map (fun r => r.status) = some .staleMap) ∧
    (let c := { evict1 with desc := { evict1.desc with queue := 5 } }
     judge mapped c = none ∧ queueTakes mapped c = false) ∧
    (let s := { mapped with queues := [(0, { bind := 0x30000000, waiting := List.replicate 256 evict1 })] }
     let c := { evict1 with desc := { evict1.desc with body := .hint ⟨0, 0, 0, 0⟩ 1 0 64 } }
     judge s evict1 = none ∧ queueTakes s evict1 = true ∧ isFastRead s evict1 = false ∧ 256 ≤ (queueOf s 0).waiting.length ∧
     descFits s evict1 = true ∧ judge s c = none ∧ queueTakes s c = true ∧ isFastRead s c = false ∧ descFits s c = false) ∧
    (judgeEpoch mapped (qwait1 0).desc).isSome = true ∧ qwaitFits on (qwait1 0) 1023 = false := by decide

/-- A command in the admission queue of its class, whose turn it is. -/
theorem witness_QueuesAndAdmission_admission :
    let i : AdmItem := { cmd := evict1, cost := 1, arrived := 0 }
    let s := { on with sched := { w := { queues := [(0, { items := [i], deficit := 5 })], active := [0], turn := [0] } } }
    drainQueues s = s ∧ planFull s 0 = false ∧ (drrNext (admAsk s 0 (admOf s 0)) (admDrr (admOf s 0))).1 = some 0 ∧
    (tabGetD (admOf s 0).queues 0 {}).items = [i] ∧ i.sampled = false := by decide

def gated (r : Tab Nat) (g : GateUnit) : State := { onRegs r with sched := { gates := [(0, g)] } }

theorem witness_GateLists : on.running = true ∧
    (Reaches (gated [(0x40040, 64)] {}) (gateBase 0 + 8) ∧ pGateRt (gated [(0x40040, 64)] {}) = true ∧ (gateOf (gated [(0x40040, 64)] {}) 0).armed = false) ∧
    (pendAtEpoch (gated [(0x40040, 64), (0x40108, 4)] {}) 0 = true ∧ pendAtEpoch on 0 = false ∧ pendAt on 0 ≤ now on ∧
      now (gated [(0x4010C, 1)] {}) < pendAt (gated [(0x4010C, 1)] {}) 0) ∧
    ((gateOf (gated [] { armed := true }) 0).armed = true) ∧
    (pGateEn (gated [(0x40100, 1)] { list := [{}, {}] }) 0 = true ∧ (gateOf (gated [(0x40100, 1)] { list := [{}, {}] }) 0).list ≠ [] ∧
      takeoverDue (gated [(0x40100, 1)] { list := [{}, {}] }) 0 = false) ∧ Reaches on (gateBase 13 + 8) :=
  ⟨by decide, ⟨reaches_of (by decide), by decide⟩, by decide, by decide, by decide, reaches_of (by decide)⟩

/-! ### Witnesses: the prefix index, and the commands over sequences and frames -/

/-- A node with one prefix record for sequence 7 at position 64 under the key (2, 3), with a command admitted. -/
def prefixed (x : List (SeqId × Seq)) (c : Command) : State := live { on with
  mem := { on.mem with seqs := x }
  pfx := { entries := [(0, ⟨1, 3, 2, 0⟩)], recs := [(0, ⟨⟨1, 7⟩, 64⟩)] } } c

def key23 : List Byte := le 8 2 ++ le 8 3
def search1 (k : List Byte) : Command := cmd 1 (.prefixSearch false false 1 18446744073709551615 1048575 0) k
def insert1 (k : List Byte) : Command := cmd 1 (.prefixInsert 1) (k ++ le 8 64)
def delete1 (k : List Byte) : Command := cmd 1 (.prefixDelete false 1) k

theorem witness_PrefixCommands :
    (∀ c ∈ [search1 key23, search1 (le 16 4), insert1 key23, insert1 (le 16 4), delete1 key23, delete1 (le 16 4), cmd 1 (.prefixDelete true 0)],
      prefixTurn (prefixed [(⟨1, 7⟩, sq)] c) c = true ∧ (prefixed [(⟨1, 7⟩, sq)] c).pfx.cascade = none ∧ c.sys = false ∧
      dropStale (prefixed [(⟨1, 7⟩, sq)] c) = prefixed [(⟨1, 7⟩, sq)] c) ∧
    keyBlock (search1 key23).payload 0 = (2, 3) ∧ keyBlock (insert1 key23).payload 0 = (2, 3) ∧ keyBlock (search1 (le 16 4)).payload 0 = (4, 0) ∧
    (prefixMatches (prefixed [] (search1 key23)).pfx 1 4 0 18446744073709551615 1048575 = [] ∧ prefixMatches (prefixed [] (search1 key23)).pfx 1 2 3 18446744073709551615 1048575 = [0] ∧
      checkFails (prefixed [] (search1 key23)) 11 (0 / 524288) false = (false, false, prefixed [] (search1 key23)) ∧
      tabGet (prefixed [] (search1 key23)).pfx.entries 0 = some ⟨1, 3, 2, 0⟩ ∧ tabGet (prefixed [] (search1 key23)).pfx.recs 0 = some ⟨⟨1, 7⟩, 64⟩) ∧
    (seqOf (prefixed [(⟨1, 7⟩, sq)] (search1 key23)) ⟨1, 7⟩ = some sq ∧ sq.state ≠ .evicting ∧ seqOf (prefixed [] (search1 key23)) ⟨1, 7⟩ = none) ∧
    (insertRefusal (prefixed [(⟨1, 7⟩, sq)] (insert1 (le 16 4))) (insert1 (le 16 4)) 1 = none ∧
      prefixExact (prefixed [] (insert1 (le 16 4))).pfx 1 4 0 = none ∧
      lowestFree (prefixed [] (insert1 (le 16 4))).pfx.entries (halfBase 4) (halfBase 4 + 524288) = some 1 ∧
      lowestFree (prefixed [] (insert1 (le 16 4))).pfx.recs 0 1048576 = some 1) ∧
    (insertRefusal (prefixed [(⟨1, 7⟩, sq)] (insert1 key23)) (insert1 key23) 1 = none ∧ prefixExact (prefixed [] (insert1 key23)).pfx 1 2 3 = some 0 ∧
      lowestFree (tabDel (prefixed [] (insert1 key23)).pfx.recs 0) 0 1048576 = some 0) := by decide

def onPfx (p : PrefixSt) : State := { { onAt 200000 with regs := [(0x50000, 3)] } with pfx := p }

theorem witness_PrefixUpkeep : (onPfx {}).running = true ∧
    (0 + 100000 ≤ now (onPfx {}) ∧ (onPfx { rateW := 3, coolW := some 0 }).pfx.coolW = some 0 ∧ (onPfx { rateE := 1, coolE := some 0 }).pfx.coolE = some 0) ∧
    (fld (onPfx {}) 0x50000 0 0 = 1 ∧ fld (onPfx {}) 0x50000 2 1 ≠ 0 ∧ (3 : Nat) ≠ 4 ∧ (5 : Nat) ≠ 4) ∧
    ((onPfx { cascade := some { cmd := search1 key23, left := [], since := 0 } }).pfx.cascade = some { cmd := search1 key23, left := [], since := 0 } ∧
      0 + 10000 < now (onPfx {})) ∧ Reaches on 0x50028 :=
  ⟨by decide, by decide, by decide, by decide, reaches_of (by decide)⟩

/-- An APPEND of one position at position 64, after the page. -/
def append1 : Command := cmd 1 (.append ⟨0, 0, 0, 1⟩ false 1 1 64) (List.replicate (appendBlock 1 64 1) 1)

def parts1 : List AppendPart := [{ tensor := 0, layer := 0, head := 0, block := slice append1.payload 0 (appendBlock 1 64 1) }]
def fork1 : Command := { cmd 1 (.fork { tenant := 1, sequence := 7 } 64) with
  desc := { (cmd 1 (.fork { tenant := 1, sequence := 7 } 64)).desc with seq := { tenant := 1, sequence := 8, repl := 1 } } }

theorem witness_AppendAndFork :
    (isLive (paged onePage frame9 append1) append1 = true ∧ seqOf (paged onePage frame9 append1) append1.desc.seq.id = some onePage ∧
      mayRun (paged onePage frame9 append1) append1 = true ∧ appendWaits (paged onePage frame9 append1) ⟨1, 7⟩ = false ∧
      onePage.state = .active ∧ appendParts onePage ⟨0, 0, 0, 1⟩ 1 append1.payload = some parts1 ∧ 64 + 1 ≤ onePage.tokenLimit ∧
      inShape onePage append1.desc.body = true ∧ (∀ p ∈ parts1, (tensorOf onePage p.tensor).endPos = 64 ∧
        hasGrad (paged onePage frame9 append1) ⟨1, 7⟩ p.tensor 1 = false) ∧ tailFrames (paged onePage frame9 append1) onePage parts1 64 = [] ∧
      (appendAll ⟨1, 7⟩ 64 1 parts1 (paged onePage frame9 append1)).isSome = true) ∧
    ((liveOf (paged onePage frame9 append1 true) (cmdKey append1)).any (fun l => l.cmd == append1 && l.begun) = true ∧
      mayRun (paged onePage frame9 append1 true) append1 = true) ∧
    (let s := { paged onePage frame9 append1 with time := { counter := 500 } }
     isLive s append1 = true ∧ (liveOf s (cmdKey append1)).any (fun l => l.cmd == append1 && !l.begun && !l.executed && decide (l.since + 500 ≤ now s)) = true ∧
       append1.chainedFrom = none) ∧
    (let s := paged onePage frame9 fork1
     isLive s fork1 = true ∧ mayRun s fork1 = true ∧ seqOf s ⟨1, 7⟩ = some onePage ∧ 64 = min (max 64 onePage.tokenBase) onePage.tokenLimit ∧
     seqOf s fork1.desc.seq.id = none ∧ layoutNo twoNodes fork1.desc.seq.id = layoutNo twoNodes ⟨1, 7⟩ ∧
     (∀ t < tensorCount onePage, 64 ≤ (tensorOf onePage t).endPos) ∧ (∀ e ∈ forkPages s onePage 64, (frameOf s e.2.2.lpn).refcount < 65535) ∧
     forkPages s onePage 64 = [(0, 0, h9)] ∧ (match createSeq s fork1.desc.seq.id (forkChild onePage fork1.desc.seq 64) with
       | .ok _ => true
       | .error _ => false) = true) := by decide

def tb0 : TensorBlock := ⟨0, 0, 0, 1⟩
def trim1 : Command := cmd 1 (.trim tb0 32 64)
def hint1 (kind : Nat) : Command := cmd 1 (.hint tb0 kind 0 64)
def refresh1 : Command := cmd 1 (.skimRefresh tb0 0 64)

theorem witness_SequenceCommands :
    (Turn (paged onePage frame9 trim1) trim1 ∧ seqOf (paged onePage frame9 trim1) ⟨1, 7⟩ = some onePage ∧ onePage.state = .active ∧
      (tbPairs tb0).mapM (fun p => tensorIdx onePage p.1 p.2) = some [0] ∧
      (∃ p, trimPart (paged onePage frame9 trim1) onePage 0 32 64 = some p ∧ p.pages = [] ∧ p.cut.map (fun e => e.2.1) = some h9 ∧
        (trimAll ⟨1, 7⟩ [p] (paged onePage frame9 trim1)).isSome = true) ∧ inShape onePage trim1.desc.body = true ∧
      (∀ k, hasGrad (paged onePage frame9 trim1) ⟨1, 7⟩ 0 k = false) ∧
      (frameOf (paged onePage frame9 trim1) 9).refcount ≤ 1 ∧ (frameOf (paged onePage frame9 trim1) 9).tier < 2) ∧
    Turn (paged onePage frame9 evict1) evict1 ∧
    (∀ k ≤ 3, Turn (paged onePage frame9 (hint1 k)) (hint1 k) ∧ seqOf (paged onePage frame9 (hint1 k)) ⟨1, 7⟩ = some onePage) ∧
    (Turn (live mapped (hint1 1)) (hint1 1) ∧ seqOf (live mapped (hint1 1)) ⟨1, 7⟩ = none) ∧
    (Turn (paged { onePage with state := .parked } frame9 (hint1 1)) (hint1 1) ∧ ({ onePage with state := .parked } : Seq).state ≠ .active) ∧
    (Turn (paged onePage frame9 refresh1) refresh1 ∧ (paged onePage frame9 refresh1).exec.refreshes.find? (fun j => j.key == cmdKey refresh1) = none ∧
      inShape onePage refresh1.desc.body = true ∧ rangePages (paged onePage frame9 refresh1) onePage (localTensors onePage tb0) 0 64 = [(0, 0, 9)]) :=
  ⟨⟨turn_of (by decide), by decide, by decide, by decide, ⟨_, rfl, by decide, by decide, by decide⟩, by decide, fun _ => rfl, by decide, by decide⟩,
   turn_of (by decide),
   fun k h => ⟨turn_of (by match k, h with
    | 0, _ => decide
    | 1, _ => decide
    | 2, _ => decide
    | 3, _ => decide), rfl⟩,
   ⟨turn_of (by decide), by decide⟩, ⟨turn_of (by decide), by decide⟩, turn_of (by decide), by decide, by decide, by decide⟩

def read1 (deadline : Nat) : Command := cmd 1 (.frameRead h9 0 32 deadline)
def write1 : Command := cmd 1 (.frameWrite 0 0 h9 0 32 0) (List.replicate 32 0)
/-- The side block of frame 9 names tenant 1 (R55). -/
def sided (s : State) : State := { s with mem := { s.mem with slots := memWriteN 0 [] (slotBase 0 4 0 + sideBase + 24) (le 8 sq.handle.num) } }
def lower9 : Frame := { frame9 with tier := 2, loc := .lp 0 0 36 }

theorem witness_FrameCommands :
    (Turn (sided (paged onePage frame9 (read1 0))) (read1 0) ∧ (sided (paged onePage frame9 (read1 0))).exec.reads = [] ∧
      judgeHandle (sided (paged onePage frame9 (read1 0))) (read1 0) = none ∧ frameWaits (sided (paged onePage frame9 (read1 0))) 9 = false ∧
      slotOf (frameOf (sided (paged onePage frame9 (read1 0))) 9) ≠ .none ∧
      checkWords (sided (paged onePage frame9 (read1 0))) 1 9 [] = (false, sided (paged onePage frame9 (read1 0))) ∧ (32 : Nat) ≠ imageBytes) ∧
    slotOf lower9 = .none ∧
    (let s := { paged onePage lower9 (read1 5) with time := { counter := 5 } }
     let w : ReadWait := { key := cmdKey (read1 5), lpn := 9, deadline := 5 }
     let u := { s with exec := { s.exec with reads := [w] } }
     u.running = true ∧ u.exec.reads.find? (fun r => r.key == cmdKey (read1 5)) = some w ∧ w.ready = false ∧ w.deadline ≠ 0 ∧
     (liveOf u (cmdKey (read1 5))).any (fun l => decide (l.since + w.deadline ≤ now u)) = true) ∧
    (Turn (sided (paged onePage frame9 write1)) write1 ∧ h9.node = nodeId (paged onePage frame9 write1) ∧
      walk (paged onePage frame9 write1) onePage 0 0 0 = .hit 0 0 (handleOf (paged onePage frame9 write1) 9) ∧ h9.gen = frame9.gen ∧
      writableRange 0 32 = true ∧ frame9.refcount ≤ 1 ∧
      onlyBelowTokens onePage.format onePage.headDim onePage.p (sTokens (sided (paged onePage frame9 write1)) 9) 0 write1.payload = true ∧
      (frameOf (paged onePage frame9 write1) 9).tier < 2) ∧
    (frameOf (paged onePage { frame9 with inFlux := true } write1) 9).inFlux = true ∧ pCommitVerify (paged onePage frame9 write1) = false :=
  ⟨⟨turn_of (by decide), by decide⟩, by decide, by decide, ⟨turn_of (by decide), by decide⟩, by decide, by decide⟩
/-- Cascade searches (refused, out of step, running), a command of a SYS association, a BY_SEQ delete of another tenant's
sequence, and a key whose entry fails its parity. -/
def cascading (k : Nat) : Command := cmd 1 (.prefixSearch false true 1 18446744073709551615 1048575 k) key23
theorem witness_PrefixCommands_more :
    (∀ k ∈ [1, 2], prefixTurn (prefixed [] (cascading k)) (cascading k) = true ∧ fld (prefixed [] (cascading k)) 0x50000 0 0 = 0) ∧
    (let s := { prefixed [] (cascading 1) with regs := [(0x50000, 1)] }
     fld s 0x50000 0 0 = 1 ∧ s.pfx.cascErr = false ∧ s.pfx.cascStart = false ∧ 1 = (s.pfx.lastCseq + 1) % 65536 ∧
       2 ≠ (s.pfx.lastCseq + 1) % 65536 ∧ dropStale s = s) ∧
    { cmd 1 (.prefixInsert 1) with sys := true }.sys = true ∧
    ({ cmd 1 (.prefixDelete true 0) with tenant := 2 }.desc.seq.tenant ≠ 2) ∧
    (insertRefusal (prefixed [] (insert1 key23)) (insert1 key23) 1).isSome = true ∧
    (∃ inj v1, checkFails (prefixed [] (search1 key23)) 11 (0 / 524288) ([0].contains 0) = (true, inj, v1)) :=
  ⟨by decide, by decide, by decide, by decide, by decide, _, _, rfl⟩

/-- An APPEND that creates sequence 8 at position 0 on a node whose map gives it the one cell of the only layout. -/
def createBlock : List Byte := [1, 0, 64, 0, 1, 0, 1, 0] ++ le 4 65536 ++ le 4 0 ++ le 4 65536 ++ List.replicate 12 0 ++ [1] ++ List.replicate 607 0
def create1 : Command :=
  { cmd 1 (.append ⟨0, 0, 0, 1⟩ true 1 1 0) (createBlock ++ List.replicate (appendBlock 1 64 1) 1) with
    desc := { (cmd 1 (.append ⟨0, 0, 0, 1⟩ true 1 1 0) (createBlock ++ List.replicate (appendBlock 1 64 1) 1)).desc with
      seq := { tenant := 1, sequence := 8, repl := 2 }, epoch := 1 } }
/-- A sequence whose tail is a page of 32 positions; the next position lies inside it. -/
def half : Seq := { onePage with tensors := [(0, { endPos := 32 })] }
def append2 : Command := cmd 1 (.append ⟨0, 0, 0, 1⟩ false 1 1 32) (List.replicate (appendBlock 1 64 1) 1)

theorem witness_AppendAndFork_more :
    (let s := paged onePage frame9 create1
     Turn s create1 ∧ seqOf s ⟨1, 8⟩ = none ∧ appendWaits s ⟨1, 8⟩ = false ∧ boundPassed s create1 = false ∧
     ∃ a, createPlace s create1 = some a ∧
       appendRefusal s create1 ⟨0, 0, 0, 1⟩ 1 0 (placeSeq (blockSeq create1.desc.seq create1.payload) a) = none ∧
       ∃ u, createSeq s ⟨1, 8⟩ (placeSeq (blockSeq create1.desc.seq create1.payload) a) = .ok u ∧ (seqOf u ⟨1, 8⟩).isSome = true) ∧
    createPlace (paged onePage frame9 { create1 with payload := createBlock.take 12 }) { create1 with payload := createBlock.take 12 } = none ∧
    (appendRefusal (paged onePage frame9 append1) { append1 with payload := [] } ⟨0, 0, 0, 1⟩ 1 64 onePage).isSome = true ∧
    boundPassed { paged onePage frame9 append1 with time := { counter := 501 } } append1 = true ∧
    (let s := paged half { frame9 with inFlux := true } append2
     appendRefusal s append2 ⟨0, 0, 0, 1⟩ 1 32 half = none ∧ tailFrames s half parts1 32 = [(0, 0, 9)] ∧ (frameOf s 9).inFlux = true) ∧
    (let s := paged half { frame9 with tier := 2, loc := .lp 0 0 36 } append2
     tailFrames s half parts1 32 = [(0, 0, 9)] ∧ (frameOf s 9).tier = 2 ∧ (frameOf s 9).staged = false) ∧
    (let s := paged half { frame9 with refcount := 2 } append2
     1 < (frameOf s 9).refcount ∧ (appendAll ⟨1, 7⟩ 32 1 parts1 s).isSome = true ∧
       (checkAll s [9] [[{ symbols := 2 }]]).1 = true) ∧
    (forkRefusal (paged onePage frame9 fork1) fork1 { tenant := 2, sequence := 7 } 64 onePage).isSome = true ∧
    (∃ st, createSeq (paged onePage frame9 fork1) ⟨1, 8⟩ { onePage with headDim := 80 } = .error st) ∧
    blocksFree (paged onePage frame9 fork1) (childLeaves onePage (forkPages (paged onePage frame9 fork1) onePage 64)) = true := 
  ⟨⟨turn_of (by decide +kernel), by decide, by decide, by decide +kernel, ([0], 0, 65536), by decide +kernel, by decide +kernel, _, rfl,
    by decide +kernel⟩, by decide, by decide, by decide, by decide, by decide, by decide +kernel, by decide, ⟨_, rfl⟩, by decide⟩
/-- The tail that a TRIM cuts: IN_FLUX, in a lower tier, shared without a frame for its copy, and shared with a word that fails. -/
def trim2 : Command := cmd 1 (.trim tb0 32 64)
def cut9 (f : Frame) : State := paged onePage f trim2

/-- The same node with every free list withheld. -/
def noFree (s : State) : State :=
  { s with mem := { s.mem with free := (List.range 384).map fun n => (n, { withheld := true }) } }

theorem witness_SequenceCommands_more :
    (∀ f ∈ [{ frame9 with inFlux := true }, { frame9 with tier := 2, loc := .lp 0 0 36 }, { frame9 with refcount := 2 }],
      trimRefusal (cut9 f) trim2 tb0 32 64 onePage = none ∧
      ((localTensors onePage tb0).mapM fun t => trimPart (cut9 f) onePage t 32 64).map (fun ps =>
        ps.filterMap fun p => p.cut.map fun e => (p.tensor, e.1, e.2.1.lpn)) = some [(0, 0, 9)]) ∧
    (frameOf (cut9 { frame9 with inFlux := true }) 9).inFlux = true ∧
    (2 ≤ (frameOf (cut9 lower9) 9).tier ∧ (frameOf (cut9 lower9) 9).staged = false) ∧
    ((checkAll (cut9 { frame9 with refcount := 2 }) [9] [[{ symbols := 2 }]]).1 = true ∧
      (checkAll (cut9 { frame9 with refcount := 2 }) [9] []).1 = false) ∧
    ((trimPart (noFree (cut9 { frame9 with refcount := 2 })) onePage 0 32 64).map fun p =>
      (trimAll ⟨1, 7⟩ [p] (noFree (cut9 { frame9 with refcount := 2 }))).isNone) = some true ∧
    (trimRefusal (cut9 frame9) trim2 tb0 31 63 onePage).isSome = true ∧
    seqOf (live mapped evict1) ⟨1, 7⟩ = none ∧
    16 ≤ ({ onePage with hints := List.replicate 16 ⟨0, 0, 0, 1, 1, 0, 64⟩ } : Seq).hints.length ∧
    fitsSeq onePage refresh1 = true ∧ fitsSeq onePage (cmd 1 (.skimRefresh ⟨0, 1, 0, 1⟩ 0 64)) = false :=
  ⟨by decide, by decide, by decide, by decide, by decide +kernel, by decide, by decide, by decide, by decide, by decide⟩
theorem witness_FrameCommands_more :
    (∀ f ∈ [{ frame9 with pins := 65535 }, { frame9 with poison := true }, { frame9 with pins := 65534 }],
      judgeHandle (sided (paged onePage f (read1 0))) (read1 0) = none ∧ f.inFlux = false ∧
      frameWaits (sided (paged onePage f (read1 0))) 9 = false) ∧
    (judgeHandle (paged onePage frame9 (read1 0)) (read1 0)).isSome = true ∧
    (let s := sided (paged onePage frame9 (read1 0))
     frameHeld { s with mem := { s.mem with chans := [(pcNum 0 4, { mode := 2 })] } } 9 = true) ∧
    ((checkWords (sided (paged onePage frame9 (read1 0))) 1 9 [{ symbols := 2 }]).1 = true) ∧
    (∃ wrong inj w, checkFails (paged onePage frame9 (read1 0)) 3 (frameChan (paged onePage frame9 (read1 0)) 9) true = (wrong, inj, w)) ∧
    (let w : ReadWait := { key := cmdKey (read1 0), lpn := 9, deadline := 0, ready := true }
     let s := { paged onePage lower9 (read1 0) with exec := { (paged onePage lower9 (read1 0)).exec with reads := [w] } }
     Turn s (read1 0) ∧ s.exec.reads.find? (fun r => r.key == cmdKey (read1 0)) = some w ∧ w.ready = true) ∧
    (frameWriteRefusal (sided (paged onePage frame9 write1)) write1 0 0 0 0 onePage = none ∧
      frameWriteRefusal (sided (paged onePage lower9 write1)) write1 0 0 0 0 onePage = none ∧
      (frameWriteRefusal (sided (paged onePage frame9 { write1 with payload := [0] })) { write1 with payload := [0] } 0 0 0 0 onePage).isSome = true) ∧
    (let s := { paged onePage { frame9 with inFlux := true } write1 with regs := [(0x70000, 32)] }
     (frameOf s 9).inFlux = true ∧ frameWaits s 9 = false ∧ pCommitVerify s = true) :=
  ⟨by decide, by decide, by decide, by decide, ⟨_, _, _, rfl⟩, ⟨turn_of (by decide), by decide⟩, by decide, by decide⟩

/-! ### Witnesses: PARK, WAKE, guests and cartridges -/

def park1 : Command := cmd 1 .park
def wake1 : Command := cmd 1 .wake
def readyPort : CellarPort := { state := 4, sizeGib := 1024, identity := { cartridgeId := 5, ratedTb := 100 } }
def withPort (s : State) (p : Nat) (c : CellarPort) : State := { s with mem := { s.mem with ports := [(p, c)] } }
def ref1 : ParkRef := { port := 0, object := 1, partner := 1, cart := 5 }
def parkedSeq : Seq := { onePage with state := .parked, leafPtr := [], parkRef := some ref1 }
def object1 : Parked := { number := 1, seq := ⟨1, 7⟩, descr := parkedSeq, frames := [], flushed := true }

/-- Node 1's completion of the request `r`, with a status and data. -/
def guestAnswer (r st : Nat) (data : List Byte) : Delivery := { kind := 2, msg := { src := .node 1, sys := true
                                                                                    bytes := le 8 2 ++ le 8 r ++ [0x32] ++ le 1 st ++ List.replicate 0x26 0 ++ data } }
def withInbox (s : State) (ds : List Delivery) : State := { s with net := { s.net with inbox := ds } }

/-- A PARK whose local copy is flushed and whose one piece the partner has acknowledged, where it answers. -/
def parkCopies (n : Nat) (answered : Bool) : State :=
  let j : ParkJob := { seq := ⟨1, 7⟩, keys := [cmdKey park1], since := 0, port := 0, object := 1, partner := some 1, localDone := true
                       sent := true, reqs := [9] }
  let s := paged { onePage with state := .parking, parkRef := some ref1 } frame9 park1 true
  withInbox { s with mem := { s.mem with parks := [j] }, time := { counter := n } } (if answered then [guestAnswer 9 0 []] else [])

/-- A WAKE in progress. -/
def waking (j : WakeJob) : State :=
  let s := paged { onePage with state := .waking, parkRef := some ref1 } frame9 wake1
  { s with mem := { s.mem with wakes := [j] } }
def wakeJob : WakeJob := { seq := ⟨1, 7⟩, keys := [cmdKey wake1], allocated := true }

theorem witness_ParkAndWake :
    (let s := withPort (paged onePage frame9 park1) 0 readyPort
     s.running = true ∧ isLive s park1 = true ∧ mayRun s park1 = true ∧ seqOf s ⟨1, 7⟩ = some onePage ∧ park1.chainedFrom = none ∧ onePage.state = .active ∧
       (∀ j ∈ s.mem.parks, j.halted = false) ∧ (∀ j ∈ s.mem.wakes, j.halted = false) ∧ canWrite s 0 = true ∧ canWrite (paged onePage frame9 park1) 0 = false ∧ canWrite (paged onePage frame9 park1) 1 = false) ∧
    (∀ st ∈ [SeqState.parked, .parking, .waking, .active, .evicting], ∀ c ∈ [park1, wake1, { park1 with chainedFrom := some 1 },
      { wake1 with chainedFrom := some 1 }], let s := paged { onePage with state := st } frame9 c
      (isLive s c && mayRun s c) = true ∧ seqOf s ⟨1, 7⟩ = some { onePage with state := st }) ∧
    (isLive (live mapped park1) park1 && mayRun (live mapped park1) park1) = true ∧ seqOf (live mapped park1) ⟨1, 7⟩ = none ∧
    (let s := parkCopies 5 true
     ∃ j, s.mem.parks.find? (fun j => j.seq == ⟨1, 7⟩) = some j ∧ parkComplete s j = true) ∧
    (let s := parkCopies 200000000 false
     ∃ j, s.mem.parks.find? (fun j => j.seq == ⟨1, 7⟩) = some j ∧ parkComplete s j = false ∧ j.halted = false ∧ j.since + pCopyTimeout s ≤ now s) ∧
    (∀ j ∈ [wakeJob, { wakeJob with allocated := false }, { wakeJob with reqs := [9] }, { wakeJob with reqs := [9], also := some (2, [10]) }],
      (waking j).mem.wakes.find? (fun j => j.seq == ⟨1, 7⟩ && !j.copied && !j.halted) = some j ∧ j.left = [] ∧ j.guestTry = []) ∧
    (gotGuest (withInbox on [guestAnswer 9 0 [7]]) 1 [9] = .bytes [7] ∧ gotGuest (withInbox on [guestAnswer 9 0x0E []]) 1 [9] = .failed) :=
  ⟨by decide, by decide, by decide, by decide, ⟨_, rfl, by decide⟩, ⟨_, rfl, by decide⟩, by decide, by decide⟩

/-- A command of node 1 over a SYS association. -/
def nodeCmd (b : Body) (payload : List Byte := []) : Command := { cmd 1 b payload with src := .node 1, sys := true }
def guest1 (committed : Bool) (bytes : List Byte) : Guest := { origin := 1, seq := ⟨1, 7⟩, cart := 5, len := 4, bytes := bytes, committed := committed }
def guestState (c : Command) (g : Guest) (p : CellarPort := readyPort) : State :=
  let s := withPort (live mapped c) 0 p
  { s with mem := { s.mem with guests := [g] } }
def protecting (j : ReProtect) (x : Seq := parkedSeq) : State :=
  let s := withPort (withSeq mapped x) 0 { readyPort with objects := [object1] }
  { s with mem := { s.mem with protects := [j] } }

theorem witness_GuestObjects :
    (∀ b : Bool, ∀ cr : Bool, let c := nodeCmd (.guestPut cr b 2 4) [7, 8]; let s := guestState c (guest1 false [1, 2])
      (isLive s c && mayRun s c) = true ∧ fromNode c = some 1 ∧ guestBusy s 1 c.desc.seq.id = false ∧
      guestOf s 1 c.desc.seq.id = some (guest1 false [1, 2]) ∧ (2 : Nat) = (guest1 false [1, 2]).bytes.length ∧
      2 + c.payload.length = (guest1 false [1, 2]).len ∧ guestPort s (guest1 false [1, 2]) = some 0 ∧ canWrite s 0 = true ∧
      choosePort s 4 = some 0 ∧ choosePort s (2 ^ 41) = none) ∧
    (let c := nodeCmd (.guestPut false false 3 0) [7, 8]
     guestOf (live mapped c) 1 c.desc.seq.id = none ∧ canWrite (live mapped c) 0 = false ∧ canWrite (live mapped c) 1 = false ∧
       (3 : Nat) ≠ (guest1 false [1, 2]).bytes.length ∧ guestPort (live mapped c) (guest1 false [1, 2]) = none) ∧
    (let c := nodeCmd (.guestPut false true 2 0) [7]; (guest1 false [1, 2]).bytes.length + c.payload.length ≠ (guest1 false []).len) ∧
    (let c := nodeCmd (.guestGet 1 3); let s := guestState c (guest1 true [1, 2, 3, 4])
     (isLive s c && mayRun s c) = true ∧ s.mem.nvme = [] ∧ guestOf s 1 c.desc.seq.id = some (guest1 true [1, 2, 3, 4]) ∧
       guestPort s (guest1 true [1, 2, 3, 4]) = some 0 ∧ 1 + 3 ≤ (guest1 true []).len ∧ (guest1 true []).len < 2 + 3 ∧
       (guest1 false []).committed = false) ∧
    (let c := nodeCmd .guestRelease; let s := guestState c (guest1 true []); (isLive s c && mayRun s c) = true) ∧
    (fromNode (cmd 1 (.guestPut true true 0 4)) = none ∧ (isLive (live mapped (cmd 1 (.guestGet 0 4))) (cmd 1 (.guestGet 0 4)) = true)) ∧
    (∀ j ∈ [({ seq := ⟨1, 7⟩, lostLocal := true } : ReProtect), { seq := ⟨1, 7⟩, lostLocal := false }],
      seqOf (protecting j) ⟨1, 7⟩ = some parkedSeq ∧ parkedSeq.state = .parked ∧ parkedSeq.parkRef = some ref1 ∧
      (protecting j).mem.protects.filter (fun j => j.seq == ⟨1, 7⟩) = [j] ∧ j.object = 0 ∧ j.reqs = [] ∧
      localObject (protecting j) (some ref1) = some object1 ∧ partnerOf (protecting j) = some 1) ∧
    (localObject (withSeq mapped parkedSeq) (some ref1) = none ∧ gotGuest (withInbox (withSeq mapped parkedSeq) [guestAnswer 9 0 [7]]) 1 [9] = .bytes [7] ∧
      allPut (withInbox (withSeq mapped parkedSeq) [guestAnswer 9 0 []]) 1 [9] = true) ∧
    ({ parkedSeq with state := .active } : Seq).state ≠ .parked := by decide

def goodCart : CartridgeInfo := { record := { cartridgeId := 9, nodeKeyHash := nodeKeyHash on } }
def smart (used : Nat) (ro : Bool) : SmartLog := { percentageUsed := used, readOnly := ro }

/-- A cartridge enrolled at this node, and one for each other outcome of an insertion. -/
theorem witness_CartridgesAndIo_reasons : cartridgeReason on goodCart = 0 ∧ cartridgeReason on { record := { magic := 0 } } = 8 ∧
    cartridgeReason on { width := 2 } = 1 ∧ cartridgeReason on { record := {}, sigOk := false } = 6 := by
  refine ⟨?_, by decide, by decide, by decide⟩
  have h : recordVerifies goodCart = true := by decide
  simp [cartridgeReason, h]
  simp [goodCart]

theorem witness_CartridgesAndIo : on.running = true ∧ (portOf on 1).state = 0 ∧
    (portOf (withPort on 1 readyPort) 1).state ≠ 0 ∧ (Reaches on 0x60218 ∧ Reaches on (0x60218 + 32 * 1)) ∧
    ((portOf (withPort on 0 { state := 3 }) 0).state = 3 ∧ (∀ r ∈ [6, 7], (portOf (withPort on 0 { state := 2, reason := r }) 0).reason = r) ∧
      (portOf (withPort on 0 { state := 2, reason := 5 }) 0).reason = 5) ∧
    (portOf (withPort on 0 readyPort) 0).state = 4 ∧ (portOf (withPort on 0 { readyPort with state := 6 }) 0).state = 6 ∧
    (∀ w ∈ [IoWhy.parkWrite ⟨1, 7⟩, .format, .recordFlush], ∀ b : Bool, let n : Nvme := { id := 3, port := 0, why := w, retried := b }
     let s := { on with mem := { on.mem with nvme := [n] } }
     s.mem.nvme.find? (fun i => i.id == n.id) = some n ∧ inFlight s n = true ∧ n.retried = b ∧ n.port < 2) :=
  ⟨by decide, by decide, by decide, ⟨reaches_of (by decide), reaches_of (by decide)⟩, by decide, by decide, by decide, by decide⟩

/-! ### Witnesses: attention, visits, gradients and merges -/

def attn1 : AttnDesc := { qfmt := 1, kvEnd := 64 }
def fwd1 : Command := cmd 1 (.attnFwd attn1) (List.replicate (rowBytes 1 64) 0)
def bwd1 : Command := cmd 1 (.attnBwd { attn1 with qfmt := 0x30 } 0x30 5) (List.replicate (2 * rowBytes 0x30 64 + 8) 0)
def trainSeq : Seq := { onePage with handle := { onePage.handle with training := true } }
def pin9 : Pin := { tensor := 0, page := 0, lpn := 9, tokens := some 64 }
/-- The page with its TOKENS recorded. -/
def full (s : State) : State := { s with mem := { s.mem with slots := memWriteN 0 (sided s).mem.slots (slotBase 0 4 0 + sideBase + 4) (le 2 64) } }

theorem witness_AttentionCommands :
    (∀ c ∈ [fwd1, bwd1], let s := full (paged trainSeq frame9 c)
      (isLive s c && mayRun s c) = true ∧ planFor s (cmdKey c) = none ∧ seqOf s c.desc.seq.id = some trainSeq ∧ trainSeq.state = .active ∧
      attnRefusal s c trainSeq = none ∧ (attnPlan s c trainSeq).pins.map (fun p => p.lpn) = [9] ∧ (frameOf s 9).pins < 65535 ∧
      ((attnPlan s c trainSeq).pins.filter fun n => (gradEntry s c.desc.seq.id n.tensor n.page).isNone).map
        (fun n => (n.tensor, n.page, n.lpn)) = [(0, 0, 9)] ∧
      (frameOf (full (paged trainSeq { frame9 with pins := 65535 } c)) 9).pins = 65535 ∧ seqOf (live mapped c) c.desc.seq.id = none) ∧
    (attnRefusal (full (paged onePage frame9 bwd1)) bwd1 onePage).isSome = true ∧
    (gradAllocAll ⟨1, 7⟩ trainSeq 5 [(0, 0, 9)] (full (paged trainSeq frame9 bwd1))).isSome = true ∧
    (gradAllocAll ⟨1, 7⟩ trainSeq 5 [(0, 0, 9)] (noFree (full (paged trainSeq frame9 bwd1)))).isNone = true ∧
    (∃ t, exec (.attnFwd fwd1) (full (paged trainSeq frame9 fwd1)) = .next t ∧
      t.exec.planTurn.find? (fun k => (planFor t k).any fun p => p.die == 0 && (planOne t k).isSome) = some (cmdKey fwd1) ∧
      (admOf t 0).held = false) :=
  ⟨by decide, by decide, by decide +kernel, by decide +kernel, _, rfl, by decide, by decide⟩

/-- A planned ATTN_FWD with one visit to frame 9. -/
def visiting (v : Visit) (n : Nat) : State :=
  let p : Plan := { key := cmdKey fwd1, cmd := fwd1, die := 0, epoch := 1, seq := ⟨1, 7⟩, pins := [pin9], format := 1, headDim := 64, p := 64, base := 0,
                    groups := [{ head := 0, tensor := 0, rows := 1 }] }
  let s := full (paged trainSeq frame9 fwd1 true)
  { s with
    time := { counter := n }
    exec := { s.exec with plans := [p], visits := [v] }
    mem := { s.mem with chans := [(4, { mode := 2, burst := [.visit 1] })], tiles := [] } }
def visit1 (p : Path) : Visit := { id := 1, key := cmdKey fwd1, group := 0, block := 0, tensor := 0, page := 0, lpn := 9, path := p, planned := 0, quad := 0 }

theorem witness_VisitsEnd :
    (∀ p ∈ [Path.mash, .tile, .stageWait, .fallback], let s := visiting (visit1 p) 1000000
      s.running = true ∧ visitOf s 1 = some (visit1 p) ∧ (planFor s (cmdKey fwd1)).isSome = true ∧ fireInj s 6 s.fault.inj.unit = none ∧
      (frameOf s 9).inFlux = false ∧ frameWaits s 9 = false ∧ (frameOf s 9).poison = false ∧
      (chainTiles s (serveQuad s 0) false (chainPick s (visit1 p))).isSome = true ∧ placeOf s 9 = some (0, 4) ∧
      runsNow s (pcNum 0 4) (.visit 1) = true ∧ (checkWords s 2 9 []).1 = false ∧ (checkWords s 2 9 [{ symbols := 2 }]).1 = true ∧
      pMashWait s ≠ 0 ∧ 0 + pMashWait s ≤ now s ∧ 0 + pStageWait s ≤ now s ∧ 0 + pFallback s ≤ now s) ∧
    ({ visit1 .fallback with decoded := true } : Visit).decoded = true ∧ (visit1 .mash).inBurst = false ∧ (visit1 .fallback).late = false ∧
    (let s := visiting (visit1 .tile) 10
     frameHeld s 9 = true ∧ frameHeld { s with mem := { s.mem with chans := [] } } 9 = false) ∧
    (fireInj { on with fault := { inj := { status := 1, checker := 6, unit := 128 } } } 6 128).isSome = true ∧ 128 / 32 = pcNum 0 4 ∧
    (fireInj { on with fault := { inj := { status := 1, checker := 5, unit := 3 } } } 5 3).isSome = true ∧
    (tileInjection { on with fault := { inj := { status := 1, checker := 5, unit := 3 } } } [3]).isSome = true ∧
    fwd1.desc.allowPartial = false ∧ ({ fwd1.desc with allowPartial := true } : Desc).allowPartial = true := by decide

/-- A gradient frame 10 with one contribution whose turn it is. -/
def adding : State :=
  let s := paged trainSeq frame9 bwd1 true
  { s with
    exec := { s.exec with contribs := [{ id := 2, key := cmdKey bwd1, lpn := 10, values := [0x3F800000] }] }
    mem := { s.mem with frames := [(9, frame9), (10, { refcount := 1, state := .live, grad := true, loc := .hbm 0 4 1 })],
                        grads := [{ seq := ⟨1, 7⟩, tensor := 0, page := 0, step := 5, frames := [10] }], chans := [(4, { mode := 2, burst := [.add 2] })] } }

theorem witness_GradientsAndMerges_add : adding.running = true ∧ (adding.exec.contribs.find? (fun x => x.id == 2)).isSome = true ∧
    placeOf adding 10 = some (0, 4) ∧ runsNow adding (pcNum 0 4) (.add 2) = true ∧ (frameOf adding 10).inFlux = false ∧ frameWaits adding 10 = false ∧
    (frameOf adding 10).grad = true ∧ (frameOf adding 10).poison = false := by decide

def drain1 (release : Bool) : Command := cmd 1 (.gradDrain release false 0 0 1 5 0 64)
/-- The same frame with a GRAD_DRAIN as the one admitted command. -/
def draining (release : Bool) (poison : Bool := false) : State := { adding with
  exec := { adding.exec with live := [{ cmd := drain1 release, since := 0, epoch := 1 }] }
  mem := { adding.mem with chans := []
                           frames := [(9, frame9), (10, { refcount := 1, state := .live, grad := true, loc := .hbm 0 4 1, poison := poison })] } }

theorem witness_GradientsAndMerges_drain : (∀ b : Bool, (isLive (draining b) (drain1 b) && mayRun (draining b) (drain1 b)) = true ∧
      seqOf (draining b) ⟨1, 7⟩ = some trainSeq ∧ trainSeq.state = .active ∧ drainRefusal (draining b) (drain1 b) trainSeq = none ∧
      drainTensors trainSeq 0 0 1 = [0] ∧ (gradIn (draining b) ⟨1, 7⟩ trainSeq [0] 0 64).flatMap (fun e => e.frames) = [10]) ∧
    (drainRefusal (draining true) (cmd 1 (.gradDrain true false 1 0 1 5 0 64)) trainSeq).isSome = true ∧
    ((frameOf (draining false) 10).inFlux = false ∧ (frameOf (draining false) 10).poison = false ∧ (frameOf (draining false true) 10).poison = true ∧
      locWaits (draining false) (homeOf (draining false) 10) = false ∧ locHeld (draining false) (homeOf (draining false) 10) = false) ∧
    (∀ l ∈ (draining false).exec.live, isBwdBody l.cmd.desc.body = true → l.executed = true) := by decide

def merge1 : MergeDesc := { tag := 6, maxInputs := 2, timeout := 100 }
def mergeCmd : Command := cmd 1 (.merge merge1)
def group1 : MergeGroup := { cmd := mergeCmd, desc := merge1, tenant := 1, since := 0, bytes := 10 }
def merging (g : List MergeGroup) (n : Nat) : State :=
  let d : MergeDie := { groups := g, early := [{ tenant := 1, tag := 9, since := 0, count := 1, body := [] }] }
  let s := { live mapped mergeCmd with time := { counter := n } }
  { s with exec := { s.exec with mergeW := d, mergeE := d } }
/-- A RECORDS message of tenant 1 for a tag, with a count and no records. -/
def records (tag n : Nat) : Inbound := { src := .node 1, tenant := 1, bytes := le 8 3 ++ le 8 n ++ le 8 tag }

theorem witness_GradientsAndMerges_merge :
    ((isLive (merging [] 0) mergeCmd && mayRun (merging [] 0) mergeCmd) = true ∧ mergeGroup (merging [] 0) (mergeDie 1 6) 1 6 = none ∧
      sumNat ((mergeOf (merging [] 0) (mergeDie 1 6)).groups.map fun g => g.bytes) + mergeBytes merge1 ≤ 8388608 ∧
      (∀ e ∈ (mergeOf (merging [] 0) (mergeDie 1 6)).early, e.tenant ≠ 1 ∨ e.tag ≠ 6) ∧ (liveOf (merging [] 0) (cmdKey mergeCmd)).isSome = true) ∧
    (msgKind (records 6 1).bytes = 3 ∧ takeInbox (merging [group1] 0) (records 6 1) = merging [group1] 0 ∧ (records 6 1).sys = false ∧ fieldLe (records 6 1).bytes 16 4 = 6 ∧
      mergeGroup (merging [group1] 0) (mergeDie 1 6) 1 6 = some group1) ∧
    (fieldLe (records 7 4095).bytes 8 4 = 4095 ∧ mergeGroup (merging [] 0) (mergeDie 1 7) 1 7 = none ∧
      (1, 7) ∉ (mergeOf (merging [] 0) (mergeDie 1 7)).closed ∧
      sumNat ((mergeOf (merging [] 0) (mergeDie 1 7)).early.map fun e => e.count) + 4095 ≤ 4096 ∧
      4096 < sumNat ((mergeOf (merging [] 0) (mergeDie 1 7)).early.map fun e => e.count) + 4096) ∧
    ((1, 7) ∈ ({ closed := [(1, 7)] } : MergeDie).closed ∧ cmdKey group1.cmd ≠ cmdKey { mergeCmd with src := .adapter 2 } ∧
      8388608 < mergeBytes { merge1 with qtok := 4096, headCount := 128, headDim := 256, maxInputs := 64 } ∧
      8388608 < sumNat ((mergeOf (merging [{ group1 with bytes := 8388608 }] 0) (mergeDie 1 6)).groups.map fun g => g.bytes) + mergeBytes merge1) ∧
    (∀ die < 2, mergeGroup (merging [group1] 100) die 1 6 = some group1 ∧ group1.since + group1.desc.timeout ≤ now (merging [group1] 100)) := by decide

/-! ### Witnesses: the lower tiers, host regions, stacks and tiles -/

/-- A node with frame 9 in an extent of LPDDR5X device 0, its tier-2 home, and the tiers in service. -/
def tiered (m : MemSt) (n : Nat := 0) : State := { onAt n with
  mem := { m with
    frames := if m.frames.isEmpty then [(9, lower9)] else m.frames
    lp := [(0, { trained := true })]
    clusters := (List.range 4).map fun i => (i, { tested := true })
    exts := [(extKey (.lp 0 0 36), { lpn := 9, gen := 1, stream := List.replicate 18432 0 })] } }
/-- Every free list withheld: no slot can be taken. -/
def noSlots : Tab FreeList := (List.range 384).map fun i => (i, { withheld := true })
def stage9 : StageJob := { lpn := 9, why := .hint, seq := some ⟨1, 7⟩ }
def decode9 : CodecJob := { id := 5, encode := false, lpn := 9, cluster := 1, lane := some 31 }
def encode9 : CodecJob := { id := 6, encode := true, lpn := 9, cluster := 1, lane := some 32 }
def down9 : DownJob := { lpn := 9, why := .demote, source := .hbm 0 4 0, job := some 6, encoded := true, stream := List.replicate 18432 0 }

/-- No slot is free, no lower tier has room, and sequence 7 has long been idle. -/
def crowded : State :=
  let s := withPort (paged onePage { frame9 with tier := 1 } evict1) 0 readyPort
  { s with time := { counter := 1000000000 }
           regs := [(0x1108, 1000), (0x110C, 8 + 16 * 1024)]
           exec := { s.exec with live := [] }
           mem := { s.mem with free := noSlots } }

theorem witness_TiersAndCodec_reserves :
    (tiered {}).running = true ∧
    (wantsReserve onePage 0 = true ∧ (tensorOf onePage 0).reserve = none ∧
      takeReserve (tiered { seqs := [(⟨1, 7⟩, onePage)], refills := [(⟨1, 7⟩, 0)], free := noSlots }) ⟨1, 7⟩ 0 = none ∧
      (takeReserve (tiered { seqs := [(⟨1, 7⟩, onePage)], refills := [(⟨1, 7⟩, 0)] }) ⟨1, 7⟩ 0).isSome = true) ∧
    (let s := tiered { free := [(31, { toZero := [(3, 4), (5, 6)] })] }
     pairVacant s (pcNum 0 31) = s ∧ locWaits s (.hbm 0 31 0) = false ∧ locHeld s (.hbm 0 31 0) = false ∧
     (freeOf s (pcNum 0 31)).toZero = [(3, 4), (5, 6)]) ∧ preemptRuns (tiered {}) = false ∧
    (let s := tiered { free := noSlots }
     preemptRuns s = true ∧ cleanCopies s = [] ∧ preemptChooses s = true ∧ victim s = none) ∧
    (let s := crowded
     preemptRuns s = true ∧ cleanCopies s = [] ∧ preemptChooses s = true ∧ (victim s).map Prod.fst = some ⟨1, 7⟩ ∧
     (allocExtent s 36).isSome = false ∧ canWrite s 0 = true ∧ halfDone s ⟨1, 7⟩ = false) := by decide +kernel

theorem witness_TiersAndCodec_staging :
    (let s := tiered { stages := [stage9] }
     s.mem.stages.find? (fun x => x.lpn == 9 && x.slot == .none) = some stage9 ∧ prefetchBefore s stage9 = false ∧
     (takeBare s (stageOrder s stage9)).isSome = true ∧ poolUsed s 0 < pStageMax s ∧ stage9.why ≠ .promote) ∧
    (pStageMax { onRegs [(0x60030, 0)] with running := true } ≤ poolUsed on 0 ∨ 0 < pStageMax on) ∧
    (let j := { stage9 with slot := .hbm 0 4 7, decoded := true }
     let s := tiered { stages := [j] }
     s.mem.stages.find? (fun x => x.lpn == 9 && x.decoded) = some j ∧ locWaits s j.slot = false ∧ locHeld s j.slot = false ∧
     (checkFails s 3 (pcNum 0 4) true).1 = true ∧ (checkFails s 3 (pcNum 0 4) false).1 = false) := by decide +kernel

theorem witness_TiersAndCodec :
    (let s := tiered { codec := [decode9, encode9], downs := [down9] }
     s.mem.codec.find? (fun x => x.id == 6 && x.encode && x.lane.isSome) = some encode9 ∧ laneInjection s encode9 = none ∧
     (frameOf s 9).inFlux = false ∧ locWaits s (encodeSource s encode9) = false ∧ locHeld s (encodeSource s encode9) = false ∧
     s.mem.codec.find? (fun x => x.id == 5 && !x.encode && x.lane.isSome) = some decode9 ∧ laneInjection s decode9 = none ∧ s.link.memRds = [] ∧
     locWaits s decode9.src = false ∧ 47 ∈ lanesLive (clusterOf s 3) (decide (32 ≤ 47)) ∧
     s.mem.downs.find? (fun x => x.lpn == 9 && x.encoded) = some down9 ∧ (checkFails s 3 (pcNum 0 4) false).1 = false ∧
     (allocExtent s (ceilDiv down9.stream.length 512)).isSome = true ∧ allocExtent on 36 = none) ∧
    (let s := { tiered {} with fault := { inj := { status := 1, checker := 7, unit := 80 } } }
     (laneInjection s encode9).isSome = true) ∧
    (let o : ObjFrame := { tensor := 0, page := 0, lpn := 9, gen := 1 }
     let e := { encode9 with obj := some (⟨1, 7⟩, o) }
     let d := { decode9 with obj := some (⟨1, 7⟩, o) }
     let s := { tiered { codec := [d, e], seqs := [(⟨1, 7⟩, onePage)] } with trust := { tenants := [(1, { state := 1 })] } }
     s.mem.codec.find? (fun x => x.id == 6 && x.encode && x.lane.isSome) = some e ∧ transferAllowed s ⟨1, 7⟩ = true ∧
     s.mem.codec.find? (fun x => x.id == 5 && !x.encode && x.lane.isSome) = some d ∧ d.src = .none) ∧
    (let f := { lower9 with staged := true, alt := .hbm 0 4 0, sample := 4 }
     let s := tiered { frames := [(9, f)] }
     frameOf s 9 = f ∧ mayPromote s 9 = true ∧ comesFirst s (mayPromote s) (promoteKey s) 9 = true ∧
     mayPromote (tiered { frames := [(9, { lower9 with sample := 4 })] }) 9 = true) ∧
    (let f := { frame9 with tier := 1 }
     let s := tiered { frames := [(9, f)], free := noSlots }
     coolable s (locStack f.loc) 9 = true ∧ frameWaits s 9 = false ∧ (allocExtent s 36).isSome = true ∧
     comesFirst s (coolable s (locStack f.loc)) (fun l => (frameOf s l).sample) 9 = true) ∧
    (samples (tiered {} 100000000) = true ∧ (tiered {} 100000000).mem.ageSince + pAge (tiered {} 100000000) ≤ now (tiered {} 100000000)) := by
  decide +kernel

theorem witness_HostRegions : on.running = true ∧ Reaches on 0x60090 ∧
    (let s := onRegs [(0x60084, 2097152), (0x6008C, 512)]
     let base := rd s 0x60084 + 4294967296 * rd s 0x60088
     base % 2097152 = 0 ∧ fld s 0x6008C 9 0 = 512 ∧ s.link.state = 3 ∧ tabGet s.mem.regions (fld s 0x60080 9 0) = none ∧ s.mem.regions = []) ∧
    (fld on 0x6008C 9 0 = 0 ∧ (onLink { state := 2 }).link.state ≠ 3 ∧ rd (onRegs [(0x60084, 4)]) 0x60084 % 2097152 ≠ 0) ∧
    (let s := { on with mem := { on.mem with regions := [(0, { base := 1, units := 2 })] } }
     tabGet s.mem.regions 0 = some { base := 1, units := 2 } ∧ Reaches s 0x60090) ∧
    (let s := { on with mem := { on.mem with regions := [(1023, { base := 1, units := 2, draining := true })] } }
     tabGet s.mem.regions 1023 = some { base := 1, units := 2, draining := true } ∧ usedGranules s (extKey (.host 1023 0 0)) 2097152 = []) ∧
    (∀ d : Bool, let s := { tiered { frames := [(9, { lower9 with tier := 3, loc := .host 3 0 2 })] } with
        mem := { (tiered { frames := [(9, { lower9 with tier := 3, loc := .host 3 0 2 })] }).mem with regions := [(3, { base := 1, units := 2, draining := d })] } }
      (frameOf s 9).loc = .host 3 0 2 ∧ inStaging s 9 = false ∧ s.mem.codec = [] ∧
      (if d then (allocHost s 2).or (allocLp s 2) else allocLp s 2).isSome = true) :=
  ⟨by decide, reaches_of (by decide), by decide, by decide, ⟨by decide, reaches_of (by decide)⟩, by decide, by decide +kernel⟩

def chan (c : Chan) : State := { on with mem := { on.mem with chans := [(31, c)], stks := [(0, { quota := 16 })] } }
def waitingChan : Chan := { token := true, queue := [.add 1] }

theorem witness_StacksAndChannels_entry : 31 = pcNum 0 31 ∧ mayEnter (chan waitingChan) 0 31 = true := by
  have h : (chanOf (chan waitingChan) (pcNum 0 31)).postponed + burstRefreshes (chan waitingChan) 0 ≤ refreshAllowance := by
    show 0 + 1 ≤ 2 + Config.refreshExtra
    omega
  refine ⟨by decide, ?_⟩
  simp only [mayEnter, h, decide_true, Bool.and_true]
  decide

theorem witness_StacksAndChannels : on.running = true ∧
    ((chanOf (chan { mode := 2 }) 31).mode = 2 ∧ (chanOf (chan { mode := 2 }) 31).burst = [] ∧ (chanOf (chan {}) 31).mode = 0) ∧
    (let s := chan { queue := [.add 1] }
     reclaimTokens s 0 = s ∧ (stackOf s 0).granted.length < (stackOf s 0).quota ∧ (stackOf on 1).quota ≤ (stackOf on 1).granted.length ∧
     ((List.range 28).map fun i => 4 + ((stackOf s 0).lastGrant - 4 + 1 + i) % 28).find? (wantsToken s 0) = some 31) ∧
    ((onAt 10000).mem.tempSince + 10000 ≤ now (onAt 10000) ∧ (onAt 10000).mem.mr4Since + 10000 ≤ now (onAt 10000)) ∧
    (let s := { onAt 100000 with mem := { on.mem with stks := [(0, { coolSince := some 0 })] } }
     (stackOf s 0).coolSince = some 0 ∧ 0 + 100000 ≤ now s) ∧
    (frameAt on (.hbm 0 4 0) = none ∧ 76457 < slotsPerPc ∧ locWaits on (.hbm 0 4 0) = false ∧ locHeld on (.hbm 0 4 0) = false ∧
      slotVirgin { on with mem := { on.mem with free := [(4, { virgin := 1 })] } } (.hbm 0 4 0) = false ∧
      locHeld (chan { mode := 2 }) (.hbm 0 31 0) = true ∧ locHeld (chan { mode := 2 }) (.hbm 0 4 0) = false) ∧
    ((chanOf on 4).disabled = false ∧ (chanOf on 4).spareActive = false ∧ (chanOf on 4).spareFail = false) := by decide +kernel

theorem witness_StacksAndChannels_move :
    (let s := { paged onePage frame9 evict1 with mem := { (paged onePage frame9 evict1).mem with moves := [9] } }
     9 ∈ s.mem.moves ∧ (frameOf s 9).inFlux = false ∧ locWaits s (.hbm 0 4 0) = false ∧ locHeld s (.hbm 0 4 0) = false ∧
     slotOf (frameOf s 9) = .hbm 0 4 0 ∧ checkWords s 1 9 [] = (false, s) ∧ (checkWords s 1 9 [{ symbols := 2 }]).1 = true ∧
     (checkFails s 3 (pcNum 0 4) true).1 = true ∧ (checkFails s 3 (pcNum 0 4) false).1 = false ∧
     (takeBare s ((sideOrder s 9).filter fun e => e != (0, 4))).isSome = true) := by decide +kernel

def tileState (n : Nat) (q : Quad) (v : List Visit) : State :=
  let p := (visiting (visit1 .tile) n).exec.plans
  { onAt n with
    mem := { on.mem with quads := [(0, q)] }
    exec := { on.exec with visits := v, plans := p } }
def bwdPlans (s : State) : State := { s with exec := { s.exec with plans := s.exec.plans.map fun p => { p with cmd := bwd1 } } }

theorem witness_TilesAndChains : (tileState 0 {} []).running = true ∧
    ((tileOf (tileState 0 { spareFree := true } []) 15).state ≠ 2 ∧ (quadOf (tileState 0 { spareFree := true } []) (15 / 16)).spareFree = true ∧
      (quadOf (tileState 0 {} []) (15 / 16)).spareFree = false) ∧
    (let s := bwdPlans (tileState 0 {} [visit1 .tile])
     waitingTiles s 0 true ≠ [] ∧ (List.range (pBwdMax s)).find? (fun k => !(quadOf s 0).bwd.contains k && tilesLive s (bwdTiles 0 k) &&
       !((quadOf s 0).returned.any fun r => r.1 == k && !((waitingTiles s 0 false).isEmpty && elapsed s r.2 10000))) = some 0) ∧
    (let s := tileState 10000 { bwd := [0], bwdIdle := some 0 } []
     (quadOf s 0).bwdIdle = some 0 ∧ waitingTiles s 0 true = [] ∧ 0 + 10000 ≤ now s) ∧
    (let s := tileState 0 { bwd := [0, 1, 2, 3] } [visit1 .tile]
     fwdFree s 0 = [] ∧ waitingTiles s 0 false ≠ [] ∧ (quadOf s 0).bwd.max? = some 3) := by decide

/-! ### Witnesses: the transport, ports, maps, chains, copies, barriers and steps -/

def a0 : AssocKey := { peer := .adapter 1, tenant := 0, sys := true }
def ctx0 : PeerCtx := { key := a0, txCredit := 8 }
/-- Two nodes, the SYS keys of generation 3, sub-port 0 of port 0 up at one port of eight lanes, and one association. -/
def peered (c : PeerCtx) (x : SubPort := {}) (n : Nat := 0) : State :=
  let s := onAt n
  { s with
    regs := [(0x20100, 1)]
    comp := mapped.comp
    net := { s.net with ctxs := [c], ports := [(0, { subs := [(0, { x with up := true })] })] }
    trust := { s.trust with tenants := [(4096, { state := 1, keygen := some 3 })] } }
def data0 : Packet := { first := true, last := true, sys := true, src := .adapter 1, dst := .node 0, keygen := 3, bodyLen := 8, msgLen := 8,
                        body := le 8 0x1C }
def ack0 : Packet := { type := 1, sys := true, src := .adapter 1, dst := .node 0, keygen := 3, tsn := 5, ackv := true, ackTsn := 1, credit := 99 }
def sent0 (k : Nat) (i : Nat) : TxPacket :=
  { tsn := i, msg := 1, cls := .control, egress := 0, arrival := none, keygen := 3, first := true, last := true, ackReq := true, msgLen := 8
    body := le 8 0x1C, try_ := k, since := 0, rto := 100, via := none }
def msg0 : TxMsg := { id := 1, cls := .control, egress := 0, keygen := 3, bytes := le 8 0x1C }
def ackItem : EgItem := { cls := none, len := 96, ready := 0, packet := ack0 }
def dataItem : EgItem := { cls := some 7, len := 104, ready := 0, packet := data0 }
def egQueued : SubPort := { queues := [(7, [dataItem])], active := [7], turn := [7], deficit := [(7, 200)] }

/-- The frame that carries a packet to sub-port 0 of port 0. -/
def wire (p : Packet) : RxFrame :=
  { head := be 6 (subMac (peered ctx0) (0, 0)) ++ be 6 0 ++ be 2 (fld (peered ctx0) 0x20000 15 0) ++ headerBytes p
    sealed := List.replicate (p.bodyLen + 16) 0, tagOk := p.tagOk, body := p.body }

theorem witness_Transport_frames :
    (∀ p ∈ [data0, ack0], let s := peered ctx0
      isUp s 0 0 = true ∧ packetOf s (wire p) = some p ∧ p.frameOk = true ∧ headerOk s p = true ∧ assocOf p = a0 ∧ ctxOf s a0 = some ctx0 ∧
      ctx0.lost = false ∧ ctx0.cached = true ∧ p.roll = ctx0.rxRoll % 16 ∧ p.tagOk = true ∧ genKnown s a0 p.keygen = true ∧
      peerAllowed s a0 = true ∧ s.fault.inj.status ≠ 1) ∧
    data0.type = 0 ∧ ack0.type = 1 ∧ ctx0.ackSeqRx = none ∧ ack0.ackv = true ∧ ack0.ackRoll = ctx0.txRoll % 16 ∧
    ack0.tagOk = true := by decide +kernel
/-- The frames that are turned away: a wrong FCS, a wrong header, a lost context, one that is not cached, a roll outside the window, a
failed tag, and one of a peer without a context. -/
theorem witness_Transport_dropped :
    ((packetOf (peered ctx0) { wire data0 with fcsOk := false }).map fun p => p.frameOk) = some false ∧
    headerOk (peered ctx0) { data0 with ver := 2 } = false ∧ ({ ctx0 with lost := true } : PeerCtx).lost = true ∧
    ({ ctx0 with cached := false } : PeerCtx).cached = false ∧
    (packetOf (peered ctx0) (wire { data0 with roll := 5 }) = some { data0 with roll := 5 } ∧ (5 : Nat) ≠ ctx0.rxRoll % 16 ∧ 5 ≠ (ctx0.rxRoll + 1) % 16) ∧
    genKnown (peered ctx0) a0 9 = false ∧ ctxOf { peered ctx0 with net := { (peered ctx0).net with ctxs := [] } } a0 = none ∧
    packetOf (peered ctx0) { head := List.replicate 62 0xFF } = none ∧
    backingFree { peered ctx0 with net := { (peered ctx0).net with ctxs := [] } } a0 = true := by decide +kernel

theorem witness_Transport : (peered ctx0).running = true ∧
    (∀ k ∈ [0, 15], let c := { ctx0 with flight := [sent0 k 1] }
      let s := peered c {} 100
      ctxOf s a0 = some c ∧ c.flight.find? (fun x => x.tsn == 1) = some (sent0 k 1) ∧ 0 + 100 ≤ now s ∧ 0 < pRetryMax s ∧ pRetryMax s ≤ 15) ∧
    (let c := { ctx0 with ackOwed := some 0, txQueue := [msg0] }
     let s := peered c {} 65535
     ctxOf s a0 = some c ∧ 0 + pAckCoalesce s ≤ now s ∧ c.txNext + packetCount s (msg0.bytes.length - msg0.sent) ≤ 2 ^ 48 - 4096 ∧
     2 ^ 48 - 4096 < 2 ^ 48 - 4096 + packetCount s msg0.bytes.length ∧ msg0.sent = 0 ∧ c.flight = []) ∧
    (ctxOf (peered { ctx0 with cached := false, fetching := true }) a0 = some { ctx0 with cached := false, fetching := true } ∧
      (peered { ctx0 with cached := false, fetching := true }).link.memRds = []) ∧
    (let s := { peered ctx0 with regs := [(0x20038, 256), (0x20034, 1)] }
     Reaches s 0x2003C ∧ s.net.pctx ≠ 1 ∧ s.net.pctx ≠ 3 ∧ fld s 0x20038 8 0 = 256 ∧ (rd s 0x20030 + 4294967296 * rd s 0x20034) % 2097152 = 0 ∧
     (∀ c ∈ s.net.ctxs, c.key.sys = true) ∧ fld (peered ctx0) 0x20038 8 0 = 0) ∧
    (isUp (peered ctx0 { acks := [ackItem] }) 0 0 = true ∧ (subOf (peered ctx0 { acks := [ackItem] }) 0 0).acks = [ackItem]) ∧
    (let s := peered ctx0 egQueued
     (subOf s 0 0).acks = [] ∧ (drrNext (egAsk s 0 (subOf s 0 0)) (subDrr (subOf s 0 0))).1 = some 7 ∧
     tabGetD (subOf s 0 0).queues 7 [] = [dataItem] ∧ dataItem.sampled = false ∧ ({ dataItem with sampled := true } : EgItem).sampled = true) :=
  ⟨by decide, by decide, by decide, by decide, ⟨reaches_of (by decide), by decide⟩, by decide, by decide⟩

/-- A die with `n` bytes waiting in its receive buffer, priority 3 flow-controlled. -/
def part0 : RxPart := { tsn := 1, first := true, last := true, msgLen := 8, keygen := 3, body := [], port := 0, sub := 0 }
def pausing (x : SubPort) (n : Nat := 0) (xoff : Tab Nat := []) : State :=
  { onAt n with
    regs := [(0x20100, 1), (0x2001C, 7)]
    net := { on.net with ports := [(0, { subs := [(0, x)] })], xoff := xoff } }

theorem witness_PortsAndPauses : (pausing {}).running = true ∧
    (0 < subCount (pPortMode (pausing {}) 0) ∧ (fabPort (pausing {}) 0).downLanes = [] ∧ (pausing {}).fault.ciphers = []) ∧
    (∀ u : Bool, let s := { pausing {} with net := { (pausing {}).net with ports := [(0, { spareUsed := u })] } }
      subCount (pPortMode s 0) = 1 ∧ (fabPort s 0).spareUsed = u) ∧
    (isUp (pausing { up := true }) 0 0 = true ∧ 3 ∈ pfcPcps (pausing { up := true })) ∧
    (let s := pausing { paused := [(3, 10)], pausedAt := [(3, 0)] } 1000
     tabGet (subOf s 0 0).paused 3 = some 10 ∧ tabGetD (subOf s 0 0).pausedAt 3 0 + quantaTicks (pPortMode s 0) 10 ≤ now s) ∧
    pPortMode (pausing {}) 0 ≠ 0 ∧ pfcPcps (pausing {}) ≠ [] ∧ tabGet (pausing {}).net.xoff 0 = none ∧
    (tabGet (pausing {} 0 [(0, 0)]).net.xoff 0 = some 0 ∧ 16777216 ≤ bufferFree (pausing {} 0 [(0, 0)]) 0) ∧
    0 + xoffInterval (pausing {}) 0 ≤ now (onAt 100000000) := by decide
/-- A receive buffer that is full. -/
def fullCtx : PeerCtx := { ctx0 with held := List.replicate 512 { part0 with body := List.replicate 131072 0 } }
theorem fullCtx_held : sumNat (fullCtx.held.map fun p => p.body.length) = 67108864 := by
  have h : ∀ n m : Nat, sumNat ((List.replicate n { part0 with body := List.replicate m 0 }).map fun p => p.body.length) = n * m := by
    intro n m
    induction n with
    | zero => simp [sumNat]
    | succ n ih => simp only [List.replicate_succ, List.map_cons, sumNat, ih, List.length_replicate]; rw [Nat.succ_mul, Nat.add_comm]
  exact (h 512 131072).trans (by decide)
theorem full_die {s : State} (e : s.net.ctxs = [fullCtx]) : bufferFree s (homeDie s (.adapter 1)) = 0 := by
  have f : (homeDie s fullCtx.key.peer == homeDie s (.adapter 1)) = true := beq_self_eq_true _
  simp only [bufferFree, heldBytes, e, List.filter_cons, f, if_true, List.filter_nil, List.map_cons, List.map_nil, fullCtx_held, sumNat]
/-- The same die before it has sent XOFF, and when its XOFF of tick 0 has to be repeated. -/
def fullNode (x : Tab Nat) : State :=
  let s := pausing {} 100000000 x
  { s with net := { s.net with ctxs := [fullCtx] } }
theorem witness_PortsAndPauses_full :
    (∀ x : Tab Nat, bufferFree (fullNode x) (homeDie (fullNode x) (.adapter 1)) = 0 ∧ (fullNode x).running = true ∧ pfcPcps (fullNode x) ≠ [] ∧
      homeDie (fullNode x) (.adapter 1) = 0) ∧ tabGet (fullNode []).net.xoff 0 = none ∧ tabGet (fullNode [(0, 0)]).net.xoff 0 = some 0 ∧
    0 + xoffInterval (fullNode [(0, 0)]) 0 ≤ now (fullNode [(0, 0)]) :=
  ⟨fun _ => ⟨full_die rfl, rfl, (by decide : pfcPcps (pausing {}) ≠ []), rfl⟩, rfl, rfl, by decide⟩

theorem witness_PortsAndPauses_down :
    (let s := { pausing {} with net := { (pausing {}).net with ports := [(0, { downLanes := [2] })] } }
     0 < subCount (pPortMode s 0) ∧ ∃ l ∈ (fabPort s 0).downLanes, l ∈ subLanes (pPortMode s 0) 0) ∧
    (∃ n ∈ { pausing {} with fault := { ciphers := [1] } }.fault.ciphers, n < 24 ∧ n / 2 = 0) ∧
    ((subLanes (pPortMode (pausing {}) 0) 0) ≠ []) := by decide

def mapMsg : Inbound := { src := .adapter 1, sys := true, bytes := List.replicate 8 0 ++ mapBytes }
def port0 (s : State) : State := { s with regs := [(0x20100, 1)] }

theorem witness_MapsAndLeases : (port0 on).running = true ∧
    takeDelivery (port0 on) mapMsg = port0 on ∧ mapMsg.sys = true ∧ isComposer (port0 on) mapMsg.src = true ∧ (port0 on).fault.fenced = false ∧
    (port0 on).comp.map = none ∧ judgeMap (port0 on) mapRead = 0 ∧ (nodeEntry mapRead mapRead.node).any (fun e => e.state == 1) = true ∧
    (let s := { onAt 100000000 with regs := [(0x1130, 0x8000)], comp := { mapped.comp with prevMap := some twoNodes, graceSince := 0, watch := [{ node := 1 }] } }
     s.comp.prevMap = some twoNodes ∧ s.comp.graceSince + pGrace s ≤ now s ∧ pDetEn s = true ∧ s.comp.detNext ≤ now s) ∧
    (isComposer (takeKind mapped (.adapter 1) 0x12) (.adapter 1) = true ∧ mapped.comp.map = some twoNodes ∧ mapped.comp.leaseSince = some 0) ∧
    0 + pLease mapped ≤ now (onAt 1000000000) := by decide
/-- A map that lists its node otherwise than ACTIVE, and the outcomes of a chained command: from a node that does not stand before
this one, of a tenant that is not present, and behind one that is held. -/
theorem witness_MapsAndLeases_other : (nodeEntry { mapRead with nodes := [{ id := 0, state := 2, partner := 1, incarnation := 5 }] } 0).any
    (fun e => e.state == 1) = false ∧ { port0 on with fault := { fenced := true, cause := 6 } }.fault.cause ≠ 7 := by decide
theorem witness_MapsAndLeases_parse : parseMap (mapMsg.bytes.drop 8) = some mapRead := by decide +kernel

/-- The same map at node 1, which follows node 0, with tenant 1 present under generation 3. -/
def second (s : State) : State :=
  { s with
    comp := { s.comp with map := some { twoNodes with node := 1 } }
    trust := { s.trust with tenants := [(1, { state := 1, keygen := some 3 }), (4096, { state := 1, keygen := some 3 })] } }
/-- An EVICT of sequence 7, REPL 2, from adapter 1, in a CHAIN message under generation `g`. -/
def chainMsg (g : Nat) : Inbound :=
  { src := .node 0, sys := true
    bytes := le 8 0x15 ++ le 2 0x4001 ++ [BitVec.ofNat 8 g, 1] ++ le 4 1 ++ le 8 9 ++
      encodeDesc { evict1.desc with seq := { evict1.desc.seq with repl := 2 }, reqId := 9 } }
def chained (g : Nat) : Command := (chainedCommand (chainMsg g) 0).getD evict1
def held1 : HeldChain := { cmd := chained 3, since := 0 }
def leg1 (t : Option Nat) : ChainLeg := { node := 1, cell := 0, sentAt := t, epoch := 1 }
def wait1 (stuck : Bool) : ChainWait := { key := cmdKey evict1, cmd := evict1, status := .ok, legs := [leg1 (some 0)], stuck := stuck }
def awaiting (stuck : Bool) : State := { mapped with
  time := { counter := 1000000000 }
  comp := { mapped.comp with waits := [wait1 stuck] } }

theorem witness_Chains : (second mapped).running = true ∧ (second mapped).net.inbox = [] ∧ (second mapped).fault.fenced = false ∧
    (∀ g ∈ [3, 4], (chainMsg g).src = .node 0 ∧ chainedCommand (chainMsg g) 0 = some (chained g) ∧ (chainMsg g).sys = true ∧
      ackStatus (second mapped) (chained g) 0 .ok = .ok ∧ (tenantOf (second mapped) (chained g).desc.seq.id.tenant).state = 1 ∧
      holdsGen (second mapped) (chained g).desc.seq.id.tenant (chained g).keygen = (g == 3)) ∧ (second mapped).comp.heldChains = [] ∧
    (let s := second { mapped with comp := { mapped.comp with heldChains := [held1] } }
     s.comp.heldChains.find? (fun x => cmdKey x.cmd == cmdKey held1.cmd) = some held1 ∧
     s.comp.heldChains.find? (fun x => x.cmd.desc.seq.id == held1.cmd.desc.seq.id) = some held1 ∧
     holdsGen s held1.cmd.desc.seq.id.tenant held1.cmd.keygen = true) ∧
    (∀ b : Bool, (awaiting b).comp.waits.find? (fun x => x.key == (wait1 b).key) = some (wait1 b) ∧ (wait1 b).stuck = b ∧
      (wait1 b).legs.head? = some (leg1 (some 0)) ∧ (leg1 (some 0)).status = none ∧ (leg1 (some 0)).retry = false ∧
      0 + pChainTimeout (awaiting b) ≤ now (awaiting b)) := by decide
theorem witness_Chains_more :
    ackStatus { second mapped with comp := { (second mapped).comp with map := some twoNodes } } (chained 3) 0 .ok ≠ .ok ∧
    (tenantOf { second mapped with trust := {} } (chained 3).desc.seq.id.tenant).state ≠ 1 ∧
    (∃ h ∈ [held1], h.cmd.desc.seq.id = (chained 3).desc.seq.id) ∧
    (takeKind (awaiting false) (.node 1) 0x16).comp.waits.find? (fun x => x.key == (wait1 false).key) = some (wait1 false) := by decide

/-- A copy of sequence 7 for node 1 that waits for the acknowledgement of `part`. -/
def copy1 (p : Option Nat) : CopyOut := { cell := 0, layout := 0, joiner := 1, current := some ⟨1, 7⟩, waitPart := p, sentNow := [(0, 0, 9)] }
def copying (p : Option Nat) : State := { paged onePage frame9 evict1 with
  comp := { mapped.comp with copies := [copy1 p] } }
/-- A COPY BEGIN of sequence 7, whose one tensor ends at 64, for node 1. -/
def beginMsg : Inbound :=
  { src := .node 0, sys := true, bytes := le 8 0x17 ++ le 4 0 ++ le 4 1 ++ le 8 0 ++ le 4 1 ++ le 4 0 ++ encodeSeq { onePage with handle := { onePage.handle with repl := 2 } } 1 ++ le 16 64 }
def joiner : State :=
  let s := second mapped
  { s with comp := { s.comp with map := some { twoNodes with
      node := 1
      layouts := [{ cells := [{ node0 := some 0, join := some 1, joinFrom := some 0 }] }] } } }
def fromBegin : Seq := parseSeq (slice beginMsg.bytes 0x20 1024)
def in1 : CopyIn := { seq := ⟨1, 7⟩, source := 0, heads := [0] }
def receiving : State := second { paged onePage frame9 evict1 with
  comp := { mapped.comp with copyIns := [in1] } }

theorem witness_CatchUpCopy : (copying none).running = true ∧
    (∀ p ∈ [none, some 0, some 1, some 2], (copying p).fault.fenced = false ∧ (copying p).comp.copyFree ≤ now (copying p) ∧
      takeKind (copying p) (.node 1) 0x18 = copying p ∧
      (copying p).comp.copies.find? (fun c => c.cell == 0 && (c.current == some ⟨1, 7⟩ || (c.current.isNone && c.todo.contains ⟨1, 7⟩))) =
        some (copy1 p) ∧
      (∀ n : Nat, p = some n → (copying p).comp.copies.find? (fun c => some 1 == some c.joiner && c.current == some ⟨1, 7⟩ && c.waitPart == some n) =
        some (copy1 p))) ∧
    (takeDelivery joiner beginMsg = joiner ∧ beginMsg.src = .node 0 ∧ beginMsg.sys = true ∧ joiner.fault.fenced = false ∧
      fieldLe beginMsg.bytes 0x0C 4 = epochOf joiner ∧ takesCopy joiner fromBegin.handle.id 0 = true ∧
      beginHeads joiner fromBegin.handle.id 0 (fieldLe beginMsg.bytes 0x18 4) fromBegin = [0] ∧
      (joinSeq joiner fromBegin.handle.id fromBegin (fieldLe beginMsg.bytes 0x28 1 == 3)).isSome = true) ∧
    (takeKind receiving (.node 0) 0x17 = receiving ∧ receiving.fault.fenced = false ∧
      receiving.comp.copyIns.find? (fun i => i.seq == ⟨1, 7⟩ && some 0 == some i.source) = some in1 ∧
      receiving.comp.copyIns.find? (fun i => i.seq == ⟨1, 7⟩) = some in1 ∧ seqOf receiving ⟨1, 7⟩ = some onePage) :=
  ⟨by decide, by
    intro p hp
    simp only [List.mem_cons, List.not_mem_nil, or_false] at hp
    rcases hp with rfl | rfl | rfl | rfl
    · exact ⟨rfl, by decide, rfl, by decide, by simp⟩
    all_goals exact ⟨rfl, by decide, rfl, by decide, by intro n h; cases h; decide⟩, by decide, by decide⟩

def bar1 : Barrier := { treeEpoch := 1, opId := 3, arg := 0, what := 1 }
def two1 : FMap := { twoNodes with node := 1 }
def inTree (m : FMap) (bs : List Barrier) (r : Option Barrier) : State := { mapped with
  comp := { mapped.comp with map := some m, barriers := bs, resetPending := r } }

theorem witness_TreeOperations :
    (∀ m ∈ [twoNodes, two1], ∀ bs ∈ [[], [bar1]], ∀ r ∈ [none, some { bar1 with what := 2 }],
      (inTree m bs r).running = true ∧ (∀ n ∈ [0, 1], takeKind (inTree m bs r) (.node n) 0x1A = inTree m bs r) ∧
      (inTree m bs r).comp.map = some m ∧ (treeNodes m).contains m.node = true ∧ (inTree m bs r).comp.resetPending = r) ∧
    (treeChildren twoNodes).contains 1 = true ∧ (treeChildren two1).contains 0 = false ∧ treeParent two1 = some 0 ∧
    (toChildren (inTree two1 [bar1] none) two1 (globalMsg 3 2 1 3 0)).comp.resetPending = none := by decide
theorem witness_TreeOperations_root : takeKind (inTree twoNodes [] none) (.adapter 1) 0x1A = inTree twoNodes [] none ∧
    isComposer (inTree twoNodes [] none) (.adapter 1) = true ∧ treeParent twoNodes = none ∧ bar1.opId = 3 ∧
    (toChildren (inTree twoNodes [bar1] none) twoNodes (globalMsg 3 2 1 3 0)).comp.resetPending = none := by decide

def step1 (a : Nat) (st : Option Status) (w : List SeqId := []) : StepRec := { epoch := 1, stepId := 5, seq := none, action := a, arg := 1, status := st, waiting := w }
def stepping (l : List StepRec) (g : List Guest) : State := { mapped with
  comp := { mapped.comp with steps := l }
  mem := { on.mem with guests := g } }
def guestOn (n : Nat) (k : Nat) : Guest := { origin := n, seq := ⟨1, k⟩, cart := 5, len := 0, committed := true }

/-- Another epoch, an ADOPT that is decided at once, one that is not, and a transfer that waits for its ADOPTs. -/
theorem witness_GuestSteps_more : (2 : Nat) ≠ epochOf (stepping [] []) ∧ (∀ r ∈ (stepping [] []).comp.steps, r.epoch ≠ 1 ∨ r.stepId ≠ 5) ∧
    (adoptObject (stepping [] []) 1 ⟨1, 7⟩ [1, 2, 3]).1.isSome = true ∧
    ((stepping [] [guestOn 1 7]).mem.guests.filter fun g => g.origin == 1 && g.committed) = [guestOn 1 7] := by decide
theorem witness_GuestSteps :
    (∀ src ∈ [Endpoint.adapter 1, .node 1], ∀ l ∈ [[], [step1 3 (some .ok)]], takeKind (stepping l []) src 0x19 = stepping l []) ∧
    (stepping [] []).running = true ∧ (stepping [] []).fault.fenced = false ∧ isComposer (stepping [] []) (.adapter 1) = true ∧
    (∀ g ∈ [guestOn 2 7], g.origin ≠ 1) ∧ (stepping [] [guestOn 1 7, guestOn 2 7]).mem.guests = [guestOn 1 7, guestOn 2 7] ∧
    (let s := stepping [step1 3 (some .ok)] []
     s.comp.steps.find? (fun r => r.epoch == epochOf s && r.stepId == 5 && r.seq == none && r.action == 3) = some (step1 3 (some .ok)) ∧
     isComposer s (.adapter 1) = true) ∧
    (∀ w ∈ [[⟨1, 7⟩], [⟨1, 7⟩, ⟨1, 8⟩]], let s := stepping [step1 1 none w] [guestOn 1 7, guestOn 1 8]
     takeKind s (.node 1) 0x14 = s ∧
     s.comp.steps.find? (fun r => r.stepId == 5 && r.action == 1 && r.status.isNone && r.epoch == epochOf s) = some (step1 1 none w) ∧
     (step1 1 none w).waiting.find? (fun q => (guestOf s 1 q).isSome) = some ⟨1, 7⟩ ∧
     (((step1 1 none w).waiting.filter (· != ⟨1, 7⟩) = []) ↔ w = [⟨1, 7⟩])) := by decide

end Sys2Proof.Tests
end

/-!
The scope family: which commands may store registers or write the flash, and that a host access to one register is that
register's own row of the opcode table.
-/

namespace Sys2Proof.Machine

/-! ### What can change the stored registers and the flash -/

/-- Only a host write and the two edges of pin reset may store registers (R523, R527, R461). -/
theorem allowOf_regs {c : Instr} (h : (allowOf c).regs = true) :
    (∃ a d, c = .regWr a d) ∨ c = .perstNAssert ∨ ∃ env, c = .perstNDeassert env := by
  cases c with
  | regWr a d => exact .inl ⟨a, d, rfl⟩
  | perstNAssert => exact .inr (.inl rfl)
  | perstNDeassert env => exact .inr (.inr ⟨env, rfl⟩)
  | _ => exact absurd h Bool.false_ne_true

/-- Only the end of a flash operation and the power-up may write the flash (R449, R451, R458). -/
theorem allowOf_flash {c : Instr} (h : (allowOf c).flash = true) :
    (∃ ok, c = .flashOperationDone ok) ∨ ∃ env, c = .perstNDeassert env := by
  cases c with
  | flashOperationDone ok => exact .inl ⟨ok, rfl⟩
  | perstNDeassert env => exact .inr ⟨env, rfl⟩
  | _ => exact absurd h Bool.false_ne_true

/-- Settles O5: a command without the permission for the registers or for the flash keeps them (`exec_kept`), and few commands
have one. -/
theorem storedWordsKept : Obligations.StoredWordsKept := by
  intro s t c e
  have kept : Kept (allowOf c) s t := exec_kept e
  exact ⟨fun changed => allowOf_regs (Bool.eq_true_of_not_eq_false fun no => changed (kept.regs no)),
    fun changed => allowOf_flash (Bool.eq_true_of_not_eq_false fun no => changed (kept.flash no))⟩

/-! ### Accesses of one register -/

/-- A location of the window is reached, is an error, or is not open to a link that is not secure. -/
theorem reachStatus_cases (s : State) (a : Nat) : reachStatus s a = 0 ∨ reachStatus s a = 1 ∨ reachStatus s a = 2 := by
  unfold reachStatus
  split
  · split <;> simp
  · split
    · simp
    · split <;> simp

/-- A word below the aliases names its own control-space location (R529). -/
theorem winTarget_register {a : Nat} (h : a < 0x100000) : winTarget a = some (a, none) := if_pos h

/-- An aligned access of one implemented register ends as the reach of its location says (R521, R522). -/
theorem accessEnd_register (s : State) {a : Nat} {d : RegDef} (low : a < 0x100000) (aligned : a % 4 = 0)
    (implemented : regDef a = some d) : accessEnd s a 4 = (reachStatus s a, a, false) := by
  have inPage : ¬ 4096 < a % 4096 + 4 := by omega
  have words : accessWords a (4 / 4) = [a] := rfl
  have offset : winOffset a = a := by simp [winOffset, winTarget_register low]
  have isReg : winImplemented a = true := by simp [winImplemented, winTarget_register low, implemented]
  by_cases h : reachStatus s a = 0
  · simp [accessEnd, aligned, inPage, words, offset, isReg, h]
  · simp [accessEnd, aligned, inPage, words, offset, h]

/-- REG_RD of one implemented register is the read of that register: its value, its side effect and its answer. -/
theorem exec_regRd_register {s : State} (tag : Nat) {a : Nat} {d : RegDef} (on : s.running = true) (up : 2 ≤ s.link.state)
    (low : a < 0x100000) (aligned : a % 4 = 0) (implemented : regDef a = some d) :
    exec (.regRd tag a 4) s = .next (readAt s tag a) := by
  have down : ¬ s.link.state < 2 := Nat.not_lt.2 up
  have reads : winReads (accessWords a (4 / 4)) s = (le 4 (readWord s a).1, (readWord s a).2) := by
    simp [accessWords, winReads, winRead, winTarget_register low]
  show execRegRd tag a 4 s = _
  rw [execRegRd, accessEnd_register s low aligned implemented, readAt, reads]
  rcases reachStatus_cases s a with h | h | h <;> simp [on, up, down, h, accessFails]

/-- REG_WR of one implemented register without RWL fields, where it is reached, is the write of that register (R523). -/
theorem exec_regWr_register {s : State} {a : Nat} {d : RegDef} (w : Word32) (reach : Reaches s a) (low : a < 0x100000)
    (aligned : a % 4 = 0) (implemented : regDef a = some d) (unlocked : d.rwl = 0) :
    exec (.regWr a [w]) s = .next (writeReg s d a w.toNat) := by
  obtain ⟨on, up, ok⟩ := reach
  have down : ¬ s.link.state < 2 := Nat.not_lt.2 up
  have noHit : lockedHit s (a, w) = none := by simp [lockedHit, winTarget_register low, implemented, unlocked]
  have written : regWrite s [(a, w)] = writeReg s d a w.toNat := by
    simp [regWrite, noHit, foldState, winWrite, winTarget_register low, implemented]
  show execRegWr a [w] s = _
  rw [execRegWr, List.length_singleton, accessEnd_register s low aligned implemented, ok]
  simp [on, down, accessWords, written]

/-- A row of the opcode table that acts as the write of a register does is the REG_WR of that register, where it is reached. -/
theorem exec_regWr_row {s : State} {a : Nat} {d : RegDef} {w : Word32} {c : Instr} {f : State → State} (reach : Reaches s a)
    (low : a < 0x100000) (aligned : a % 4 = 0) (implemented : regDef a = some d) (unlocked : d.rwl = 0)
    (row : exec c s = .next (regEnter s a f)) (acts : writeReg s d a w.toNat = f s) :
    exec (.regWr a [w]) s = exec c s := by
  rw [exec_regWr_register w reach low aligned implemented unlocked, row, regEnter_reaches reach, acts]

/-- The row `c` of the opcode table is the command bit `b` of the register `a`, which holds nothing but command bits. -/
structure CommandBit (a b : Nat) (c : Instr) : Prop where
  low : a < 0x100000
  aligned : a % 4 = 0
  word : b < 32
  bits : ∃ m, regDef a = w1pReg m ∧ bitList (2 ^ b &&& m) = [b]
  row : ∀ s, exec c s = .next (regEnter s a fun t => pulse t a b)

/-- REG_WR of 1 to one command bit, where the register is reached, is that command's row (R523). -/
theorem CommandBit.exec_regWr {a b : Nat} {c : Instr} (h : CommandBit a b c) {s : State} (reach : Reaches s a) :
    exec (.regWr a [BitVec.ofNat 32 (2 ^ b)]) s = exec c s := by
  obtain ⟨m, implemented, single⟩ := h.bits
  refine exec_regWr_row reach h.low h.aligned implemented rfl (h.row s) ?_
  have value : (BitVec.ofNat 32 (2 ^ b)).toNat = 2 ^ b := by
    rw [BitVec.toNat_ofNat, Nat.mod_eq_of_lt (Nat.pow_lt_pow_right (by decide) h.word)]
  rw [value]
  simp [writeReg, goodFields, fieldMask, sumNat, hostStore, single]

/-- Settles O17: a read of one register is `readAt` of it, a write of a command bit pulses it, and a write-only register acts. -/
theorem rowsAreAccesses : Obligations.RowsAreAccesses := by
  refine ⟨fun s tag on up => ⟨?_, ?_, ?_, ?_, ?_⟩, fun s e reach mem => ?commandBits, fun s w => ⟨?_, ?_, ?_, ?_⟩⟩
  case commandBits =>
    refine CommandBit.exec_regWr ?_ reach
    fin_cases mem <;> exact ⟨by decide, by decide, by decide, ⟨_, rfl, by decide⟩, fun _ => rfl⟩
  iterate 5 exact exec_regRd_register tag on up (by decide) (by decide) rfl
  iterate 4 exact fun reach => exec_regWr_row reach (by decide) (by decide) rfl rfl rfl (by simp [writeReg])

end Sys2Proof.Machine

/-!
The node-architecture family: the bridge's retries, the core rails and their policy, the regulators, the sensors and the sideband.
-/

namespace Sys2Proof.Machine

/-! ### A level source -/

/-- A level source stands where it was put. -/
@[simp] theorem srcOf_setLevel_level (s : State) (n : Nat) (high : Bool) (unit : UnitRef) :
    (srcOf (setLevel s n high unit) n).level = high := by
  have put : (srcOf (modSrc s n fun x => { x with level := high }) n).level = high := by
    rw [srcOf_modSrc, if_pos rfl]
  unfold setLevel
  dsimp only
  split
  · exact put
  · exact put

/-- A level source changes nothing but the fault collector. -/
theorem setLevel_only_fault (s : State) (n : Nat) (high : Bool) (unit : UnitRef) :
    ∃ x, setLevel s n high unit = { s with fault := x } := by
  unfold setLevel
  dsimp only
  split
  · exact ⟨_, rfl⟩
  · exact ⟨_, rfl⟩

@[simp] theorem setLevel_time (s : State) (n : Nat) (high : Bool) (unit : UnitRef) : (setLevel s n high unit).time = s.time := by
  obtain ⟨x, e⟩ := setLevel_only_fault s n high unit
  rw [e]

@[simp] theorem railOf_setLevel (s : State) (n : Nat) (high : Bool) (unit : UnitRef) (die : Nat) :
    railOf (setLevel s n high unit) die = railOf s die := by simp [railOf]

/-! ### What changes one rail -/

/-- From `s` to `t` the rail of `die` may change, and nothing else. -/
structure RailOnly (die : Nat) (s t : State) : Prop where
  other : railOf t (1 - die) = railOf s (1 - die)
  frame : { t with time := s.time } = s

theorem RailOnly.refl (die : Nat) (s : State) : RailOnly die s s := ⟨rfl, rfl⟩

theorem RailOnly.trans {die : Nat} {s t u : State} (first : RailOnly die s t) (second : RailOnly die t u) : RailOnly die s u := by
  refine ⟨second.other.trans first.other, ?_⟩
  calc { u with time := s.time } = { { u with time := t.time } with time := s.time } := rfl
    _ = { t with time := s.time } := by rw [second.frame]
    _ = s := first.frame

theorem RailOnly.regs {die : Nat} {s t : State} (h : RailOnly die s t) : t.regs = s.regs := by
  simpa using congrArg State.regs h.frame

theorem RailOnly.boot {die : Nat} {s t : State} (h : RailOnly die s t) : t.boot = s.boot := by
  simpa using congrArg State.boot h.frame

theorem RailOnly.pVmin {die : Nat} {s t : State} (h : RailOnly die s t) : pVmin t = pVmin s := by
  simp [Machine.pVmin, fld, rd, h.regs]

theorem RailOnly.pVmax {die : Nat} {s t : State} (h : RailOnly die s t) : pVmax t = pVmax s := by
  simp [Machine.pVmax, fld, rd, h.regs]

/-- A change of a rail changes nothing but the time base. -/
theorem modRail_only_time (s : State) (die : Nat) (f : Rail → Rail) : ∃ x, modRail s die f = { s with time := x } := by
  unfold modRail
  split
  · exact ⟨_, rfl⟩
  · exact ⟨_, rfl⟩

theorem railOf_modRail_other (s : State) (die : Nat) (f : Rail → Rail) :
    railOf (modRail s die f) (1 - die) = railOf s (1 - die) := by
  by_cases west : die = 0
  · simp [railOf, modRail, west]
  · have other : 1 - die = 0 := by omega
    simp [railOf, modRail, west, other]

theorem modRail_railOnly (s : State) (die : Nat) (f : Rail → Rail) : RailOnly die s (modRail s die f) := by
  refine ⟨railOf_modRail_other s die f, ?_⟩
  obtain ⟨x, e⟩ := modRail_only_time s die f
  rw [e]

/-- Noting whether a die is idle leaves its rail, or sets when the die became idle. -/
theorem noteIdle_cases (s : State) (die : Nat) :
    noteIdle s die = s ∨ ∃ since, noteIdle s die = modRail s die fun r => { r with idleSince := since } := by
  unfold noteIdle
  split
  · exact .inl rfl
  · exact .inr ⟨_, rfl⟩

theorem noteIdle_railOnly (s : State) (die : Nat) : RailOnly die s (noteIdle s die) := by
  obtain same | ⟨since, noted⟩ := noteIdle_cases s die
  · rw [same]
    exact .refl die s
  · rw [noted]
    exact modRail_railOnly s die _

@[simp] theorem railOf_noteIdle_mv (s : State) (die : Nat) : (railOf (noteIdle s die) die).mv = (railOf s die).mv := by
  obtain same | ⟨since, noted⟩ := noteIdle_cases s die
  · rw [same]
  · rw [noted, railOf_modRail]

/-! ### A decision of the voltage policy (R32 to R35) -/

/-- Whether heat or the power cap forces the rail down (R35). -/
def railForced (s : State) (die : Nat) : Bool :=
  decide (105 ≤ dieTemp s die) || (s.boot.lock && decide (pPcap s < (railOf s die).power))

/-- The voltage towards which a decision moves the rail. -/
def railTarget (s : State) (die : Nat) : Nat :=
  if railForced s die then (if s.boot.lock then pVmin s else (railOf s die).mv) else wantedMv s die

/-- The ticks that must lie between the last step of the rail and this one (R33). -/
def railWait (s : State) (die : Nat) : Nat :=
  if decide ((railOf s die).mv < railTarget s die) || railForced s die then 1000 else 10000

/-- One step of at most 5 mV from `mv` towards `want` (R33). -/
def stepToward (want mv : Nat) : Nat := if want < mv then max want (mv - 5) else min want (mv + 5)

/-- The rail after one step. -/
def railMoved (s : State) (die : Nat) : State :=
  modRail s die fun r => { r with mv := stepToward (railTarget s die) r.mv, lastStep := now s }

theorem stepToward_near (want mv : Nat) : stepToward want mv ≤ mv + 5 ∧ mv ≤ stepToward want mv + 5 := by
  unfold stepToward
  split <;> omega

/-- A step between two limits that hold both ends of the way stays between them. -/
theorem stepToward_within {lo hi want mv : Nat} (hwant : lo ≤ want ∧ want ≤ hi) (hmv : lo ≤ mv ∧ mv ≤ hi) :
    lo ≤ stepToward want mv ∧ stepToward want mv ≤ hi := by
  unfold stepToward
  split <;> omega

theorem stepToward_down {want mv : Nat} (h : want < mv) : stepToward want mv = max want (mv - 5) := if_pos h

theorem stepToward_up {want mv : Nat} (h : mv < want) : stepToward want mv = min want (mv + 5) := if_neg h.not_gt

/-- A decision, in the terms above. -/
theorem railStep_eq (s : State) (die : Nat) : railStep s die =
    if !(railOf s die).answering || !elapsed s (railOf s die).lastStep (railWait s die) ||
      (decide ((railOf s die).mv < railTarget s die) && (decide (100 ≤ dieTemp s die) || railForced s die)) ||
      !(decide ((railOf s die).mv < railTarget s die) || decide (railTarget s die < (railOf s die).mv)) then s
    else railMoved s die := by
  have moved : railMoved s die = modRail s die fun r =>
      { r with mv := if decide (railTarget s die < (railOf s die).mv) then max (railTarget s die) (r.mv - 5)
                     else min (railTarget s die) (r.mv + 5), lastStep := now s } := by
    by_cases west : die = 0 <;> simp [railMoved, modRail, stepToward, railOf, west]
  rw [moved]
  rfl

/-- A decision keeps the state or moves the rail by one step. -/
theorem railStep_cases (s : State) (die : Nat) : railStep s die = s ∨ railStep s die = railMoved s die := by
  rw [railStep_eq]
  split
  · exact .inl rfl
  · exact .inr rfl

theorem railStep_railOnly (s : State) (die : Nat) : RailOnly die s (railStep s die) := by
  obtain same | moved := railStep_cases s die
  · rw [same]
    exact .refl die s
  · rw [moved]
    exact modRail_railOnly s die _

@[simp] theorem railOf_railStep_power (s : State) (die : Nat) : (railOf (railStep s die) die).power = (railOf s die).power := by
  obtain same | moved := railStep_cases s die
  · rw [same]
  · rw [moved, railMoved, railOf_modRail]

/-- After a decision the rail stands where it stood, or one step nearer to the target. -/
theorem railOf_railStep_mv_cases (s : State) (die : Nat) : (railOf (railStep s die) die).mv = (railOf s die).mv ∨
    (railOf (railStep s die) die).mv = stepToward (railTarget s die) (railOf s die).mv := by
  obtain same | moved := railStep_cases s die
  · exact .inl (by rw [same])
  · exact .inr (by rw [moved, railMoved, railOf_modRail])

/-- A regulator that answers steps down to a lower target once the wait is over. -/
theorem railOf_railStep_down {s : State} {die : Nat} (answers : (railOf s die).answering = true)
    (waited : (railOf s die).lastStep + railWait s die ≤ now s) (below : railTarget s die < (railOf s die).mv) :
    (railOf (railStep s die) die).mv = max (railTarget s die) ((railOf s die).mv - 5) := by
  have moved : railStep s die = railMoved s die := by
    rw [railStep_eq]
    simp [answers, elapsed, waited, below, below.le]
  rw [moved, railMoved, railOf_modRail, stepToward_down below]

/-- A regulator that answers steps up to a higher target once the wait is over, where nothing forces the rail down and the die
stays below 100 °C. -/
theorem railOf_railStep_up {s : State} {die : Nat} (answers : (railOf s die).answering = true)
    (waited : (railOf s die).lastStep + railWait s die ≤ now s) (cool : dieTemp s die < 100) (free : railForced s die = false)
    (above : (railOf s die).mv < railTarget s die) :
    (railOf (railStep s die) die).mv = min (railTarget s die) ((railOf s die).mv + 5) := by
  have moved : railStep s die = railMoved s die := by
    rw [railStep_eq]
    simp [answers, elapsed, waited, above, cool, free]
  rw [moved, railMoved, railOf_modRail, stepToward_up above]

theorem railForced_iff {s : State} {die : Nat} (locked : s.boot.lock = true) :
    railForced s die = true ↔ 105 ≤ dieTemp s die ∨ pPcap s < (railOf s die).power := by simp [railForced, locked]

theorem railForced_false {s : State} {die : Nat} (cool : dieTemp s die < 105) (capped : (railOf s die).power ≤ pPcap s) :
    railForced s die = false := by simp [railForced, cool, capped]

theorem railTarget_forced {s : State} {die : Nat} (locked : s.boot.lock = true) (forced : railForced s die = true) :
    railTarget s die = pVmin s := by simp [railTarget, locked, forced]

theorem railTarget_free {s : State} {die : Nat} (free : railForced s die = false) : railTarget s die = wantedMv s die := by
  simp [railTarget, free]

/-- Once the image is loaded, what the mode asks for lies within VMIN and VMAX (R34). -/
theorem wantedMv_within {s : State} (die : Nat) (locked : s.boot.lock = true) (limits : pVmin s ≤ pVmax s) :
    pVmin s ≤ wantedMv s die ∧ wantedMv s die ≤ pVmax s := by
  have clamped (v : Nat) : pVmin s ≤ max (pVmin s) (min (pVmax s) v) ∧ max (pVmin s) (min (pVmax s) v) ≤ pVmax s := by omega
  have lowest : pVmin s ≤ pVmin s ∧ pVmin s ≤ pVmax s := ⟨le_rfl, limits⟩
  have highest : pVmin s ≤ pVmax s ∧ pVmax s ≤ pVmax s := ⟨limits, le_rfl⟩
  unfold wantedMv
  rw [if_neg (by simp [locked])]
  split
  case h_1 => exact clamped _
  case h_2 =>
    split
    · exact highest
    · split
      · exact lowest
      · exact clamped _
  case h_3 =>
    dsimp only
    split
    · exact clamped _
    · split
      · exact clamped _
      · exact clamped _
  case h_4 => exact lowest

/-- Once the image is loaded, the target lies within VMIN and VMAX. -/
theorem railTarget_within {s : State} (die : Nat) (locked : s.boot.lock = true) (limits : pVmin s ≤ pVmax s) :
    pVmin s ≤ railTarget s die ∧ railTarget s die ≤ pVmax s := by
  cases forced : railForced s die with
  | true =>
    rw [railTarget_forced locked forced]
    exact ⟨le_rfl, limits⟩
  | false =>
    rw [railTarget_free forced]
    exact wantedMv_within die locked limits

theorem railOf_railStep_near (s : State) (die : Nat) :
    (railOf (railStep s die) die).mv ≤ (railOf s die).mv + 5 ∧ (railOf s die).mv ≤ (railOf (railStep s die) die).mv + 5 := by
  obtain same | moved := railOf_railStep_mv_cases s die
  · omega
  · rw [moved]
    exact stepToward_near _ _

theorem railOf_railStep_within {s : State} {die : Nat} (locked : s.boot.lock = true) (limits : pVmin s ≤ pVmax s)
    (inside : pVmin s ≤ (railOf s die).mv ∧ (railOf s die).mv ≤ pVmax s) :
    pVmin s ≤ (railOf (railStep s die) die).mv ∧ (railOf (railStep s die) die).mv ≤ pVmax s := by
  obtain same | moved := railOf_railStep_mv_cases s die
  · rwa [same]
  · rw [moved]
    exact stepToward_within (railTarget_within die locked limits) inside

/-- Heat, or power above the cap, moves the rail towards VMIN (R33, R35). -/
theorem railStep_when_forced {s : State} {die : Nat} (answers : (railOf s die).answering = true) (locked : s.boot.lock = true)
    (forced : 105 ≤ dieTemp s die ∨ pPcap s < (railOf s die).power) (waited : (railOf s die).lastStep + 1000 ≤ now s)
    (above : pVmin s < (railOf s die).mv) :
    (railOf (railStep s die) die).mv = max (pVmin s) ((railOf s die).mv - 5) := by
  have isForced := (railForced_iff locked).2 forced
  have target := railTarget_forced locked isForced
  rw [← target] at above ⊢
  exact railOf_railStep_down answers (by simpa [railWait, isForced] using waited) above

/-- A lower voltage of the mode is approached 10,000 ticks after the last step (R33). -/
theorem railStep_when_lowered {s : State} {die : Nat} (answers : (railOf s die).answering = true)
    (cool : dieTemp s die < 105) (capped : (railOf s die).power ≤ pPcap s) (waited : (railOf s die).lastStep + 10000 ≤ now s)
    (below : wantedMv s die < (railOf s die).mv) :
    (railOf (railStep s die) die).mv = max (wantedMv s die) ((railOf s die).mv - 5) := by
  have free := railForced_false cool capped
  rw [← railTarget_free free] at below ⊢
  exact railOf_railStep_down answers (by simpa [railWait, free, below.not_gt] using waited) below

/-- A higher voltage of the mode is approached 1,000 ticks after the last step, below 100 °C (R33, R35). -/
theorem railStep_when_raised {s : State} {die : Nat} (answers : (railOf s die).answering = true)
    (cool : dieTemp s die < 100) (capped : (railOf s die).power ≤ pPcap s) (waited : (railOf s die).lastStep + 1000 ≤ now s)
    (above : (railOf s die).mv < wantedMv s die) :
    (railOf (railStep s die) die).mv = min (wantedMv s die) ((railOf s die).mv + 5) := by
  have free := railForced_false (by omega) capped
  rw [← railTarget_free free] at above ⊢
  exact railOf_railStep_up answers (by simpa [railWait, above] using waited) cool free above

/-! ### VPOLICY_STEP -/

/-- What the policy decides on: the die's idle time noted, and its power estimate taken. -/
def policyInput (s : State) (die power : Nat) : State := modRail (noteIdle s die) die fun r => { r with power := power }

theorem policyInput_railOnly (s : State) (die power : Nat) : RailOnly die s (policyInput s die power) :=
  (noteIdle_railOnly s die).trans (modRail_railOnly _ die _)

@[simp] theorem railOf_policyInput_mv (s : State) (die power : Nat) :
    (railOf (policyInput s die power) die).mv = (railOf s die).mv := by simp [policyInput, railOf_modRail]

@[simp] theorem railOf_policyInput_power (s : State) (die power : Nat) : (railOf (policyInput s die power) die).power = power := by
  simp [policyInput, railOf_modRail]

theorem policyStep_railOnly (s : State) (die power : Nat) : RailOnly die s (railStep (policyInput s die power) die) :=
  (policyInput_railOnly s die power).trans (railStep_railOnly _ die)

theorem exec_vpolicyStep (s : State) (die : Fin 2) (power : Nat) :
    exec (.vpolicyStep die power) s = .next (if s.running then railStep (policyInput s die power) die else s) := by
  show execVpolicyStep die power s = _
  cases on : s.running <;> simp [execVpolicyStep, policyInput, on]

/-- A policy step moves its rail by at most 5 mV, leaves the other rail alone, and keeps the rail within the limits (R33, R34). -/
theorem exec_vpolicyStep_bounds {s t : State} {die : Fin 2} {power : Nat} (e : exec (.vpolicyStep die power) s = .next t) :
    (railOf t die.val).mv ≤ (railOf s die.val).mv + 5 ∧ (railOf s die.val).mv ≤ (railOf t die.val).mv + 5 ∧
    railOf t (1 - die.val) = railOf s (1 - die.val) ∧
    (s.boot.lock = true → pVmin s ≤ pVmax s → pVmin s ≤ (railOf s die.val).mv → (railOf s die.val).mv ≤ pVmax s →
      pVmin s ≤ (railOf t die.val).mv ∧ (railOf t die.val).mv ≤ pVmax s) := by
  rw [exec_vpolicyStep] at e
  injection e with e
  split at e
  · subst e
    have input := policyInput_railOnly s die power
    have near := railOf_railStep_near (policyInput s die power) die
    rw [railOf_policyInput_mv] at near
    refine ⟨near.1, near.2, (policyStep_railOnly s die power).other, fun locked limits low high => ?_⟩
    have within := railOf_railStep_within (s := policyInput s die power) (die := die)
    rw [railOf_policyInput_mv, input.pVmin, input.pVmax, input.boot] at within
    exact within locked limits ⟨low, high⟩
  · subst e
    exact ⟨by omega, by omega, rfl, fun _ _ low high => ⟨low, high⟩⟩

/-! ### The regulators (R545) -/

/-- The rise or fall of source 10 after a change of one rail changes nothing but the time base and the fault collector. -/
theorem voltageLevel_modRail_frame (s : State) (die : Nat) (f : Rail → Rail) :
    { voltageLevel (modRail s die f) with time := s.time, fault := s.fault } = s := by
  obtain ⟨x, rail⟩ := modRail_only_time s die f
  rw [rail]
  obtain ⟨y, level⟩ := setLevel_only_fault { s with time := x } 10 (!x.railW.answering || !x.railE.answering) {}
  rw [voltageLevel, level]

@[simp] theorem railOf_voltageLevel (s : State) (die : Nat) : railOf (voltageLevel s) die = railOf s die := railOf_setLevel s 10 _ _ die

/-- Source 10 is high where a regulator does not answer. -/
theorem voltageLevel_high {s : State} {die : Nat} (silent : (railOf s die).answering = false) :
    (srcOf (voltageLevel s) 10).level = true := by
  rw [voltageLevel, srcOf_setLevel_level]
  unfold railOf at silent
  split at silent <;> simp [silent]

/-- The rail after one more transaction without an answer. -/
def missAnswer (r : Rail) : Rail := { r with missed := r.missed + 1, answering := r.answering && decide (r.missed + 1 < 3) }

theorem missAnswer_third {r : Rail} (third : 2 ≤ r.missed) : (missAnswer r).answering = false := by
  have late : ¬ r.missed + 1 < 3 := by omega
  simp [missAnswer, late]

theorem exec_avsNoAnswer {s : State} (die : Fin 2) (on : s.running = true) :
    exec (.avsNoAnswer die) s = .next (voltageLevel (modRail s die missAnswer)) := by
  show execAvsNoAnswer die s = _
  simp only [execAvsNoAnswer, on, Bool.not_true, Bool.false_eq_true, if_false]
  rfl

theorem avsNoAnswer_gives {s : State} (on : s.running = true) (die : Fin 2) : Gives (.avsNoAnswer die) s fun t =>
    (railOf t die.val).missed = (railOf s die.val).missed + 1 ∧
      (2 ≤ (railOf s die.val).missed → (railOf t die.val).answering = false ∧ (srcOf t 10).level = true) ∧
      { t with time := s.time, fault := s.fault } = s := by
  have rail : railOf (modRail s die missAnswer) die.val = missAnswer (railOf s die.val) := railOf_modRail s die missAnswer
  refine ⟨_, exec_avsNoAnswer die on, by rw [railOf_voltageLevel, rail, missAnswer], fun third => ?_,
    voltageLevel_modRail_frame s die missAnswer⟩
  have silent : (railOf (modRail s die missAnswer) die.val).answering = false := by rw [rail, missAnswer_third third]
  exact ⟨by rw [railOf_voltageLevel, silent], voltageLevel_high silent⟩

theorem regulatorAnswersAgain_gives {s : State} (on : s.running = true) (die : Fin 2) : Gives (.regulatorAnswersAgain die) s fun t =>
    (railOf t die.val).missed = 0 ∧ (railOf t die.val).answering = true ∧ { t with time := s.time, fault := s.fault } = s := by
  have answered : exec (.regulatorAnswersAgain die) s =
      .next (voltageLevel (modRail s die fun r => { r with missed := 0, answering := true })) := by
    show execRegulatorAnswersAgain die s = _
    simp [execRegulatorAnswersAgain, on]
  refine ⟨_, answered, ?_, ?_, voltageLevel_modRail_frame s die _⟩ <;> rw [railOf_voltageLevel, railOf_modRail]

/-! ### The bridge (R22, R491) -/

/-- A retry of a module in service is counted in the state that an injection armed there leaves, or in the present one. -/
theorem exec_bridgeFlitRetry {s : State} {m : Fin 16} (on : s.running = true)
    (serves : (tabGetD s.time.bridge m.val {}).retired = false) :
    exec (.bridgeFlitRetry m) s = .next (bridgeRetry (((fireInj s 10 m.val).map Prod.snd).getD s) m.val) := by
  show execBridgeFlitRetry m s = _
  cases fired : fireInj s 10 m.val <;> simp [execBridgeFlitRetry, on, serves, fired]

/-- A module is retired where its retries of one window exceed 64. -/
theorem bridgeRetry_counts {s u : State} {m : Nat} {x y : BridgeModule} (before : x = tabGetD s.time.bridge m {})
    (after : y = (if x.fails = 0 ∨ x.since + 1048576 ≤ now s then { x with fails := 1, since := now s } else { x with fails := x.fails + 1 }))
    (counted : u = { s with time := { s.time with bridge := tabSet s.time.bridge m y, bridgeRetries := s.time.bridgeRetries + 1 } }) :
    bridgeRetry s m = if 64 < y.fails then bridgeRetire u [m] else u := by
  subst counted after before
  simp [bridgeRetry, elapsed]

/-! ### The sensors and the sideband (R447, R553, R556) -/

/-- A reading of a die's temperature changes nothing but the state of the index (R377). -/
theorem prefixTemp_only_pfx (s : State) (half temp : Nat) : ∃ x, prefixTemp s half temp = { s with pfx := x } := by
  unfold prefixTemp
  dsimp only
  split
  · exact ⟨_, rfl⟩
  · exact ⟨_, rfl⟩

/-- The state that holds a reading of the logic temperatures. -/
def logicRead (s : State) (temps : List Nat) : State := { s with pack := { s.pack with logicTemps := temps, logicSince := now s } }

/-- Whether a die is at 105 °C or more (R377). -/
def dieHot (s : State) : Bool := decide (105 ≤ dieTemp s 0) || decide (105 ≤ dieTemp s 1)

theorem exec_logicTempRead {s : State} (on : s.running = true) (temps : List Nat) (due : s.pack.logicSince + 1000 ≤ now s) :
    exec (.logicTempRead temps) s = .next (setLevel (prefixTemp (prefixTemp (logicRead s temps) 0 (dieTemp (logicRead s temps) 0)) 1
      (dieTemp (logicRead s temps) 1)) 11 (dieHot (logicRead s temps))) := by
  show execLogicTempRead temps s = _
  rw [execLogicTempRead, if_neg (by simp [on, elapsed, due])]
  rfl

theorem logicTempRead_gives {s : State} (on : s.running = true) (temps : List Nat) (due : s.pack.logicSince + 1000 ≤ now s) :
    Gives (.logicTempRead temps) s fun t => t.pack.logicTemps = temps ∧ t.pack.logicSince = now s ∧
      (srcOf t 11).level = (decide (105 ≤ dieTemp t 0) || decide (105 ≤ dieTemp t 1)) ∧
      { t with pack := s.pack, pfx := s.pfx, fault := s.fault } = s := by
  refine ⟨_, exec_logicTempRead on temps due, ?_⟩
  obtain ⟨x, west⟩ := prefixTemp_only_pfx (logicRead s temps) 0 (dieTemp (logicRead s temps) 0)
  obtain ⟨y, east⟩ := prefixTemp_only_pfx { logicRead s temps with pfx := x } 1 (dieTemp (logicRead s temps) 1)
  rw [west, east]
  obtain ⟨z, level⟩ := setLevel_only_fault { logicRead s temps with pfx := y } 11 (dieHot (logicRead s temps)) {}
  have hot := srcOf_setLevel_level { logicRead s temps with pfx := y } 11 (dieHot (logicRead s temps)) {}
  rw [level] at hot ⊢
  exact ⟨rfl, rfl, hot, rfl⟩

theorem exec_sensorWindowEnd {s : State} (on : s.running = true) (power logic hbm lp : Nat)
    (due : s.pack.windowSince + 10000000 ≤ now s) : exec (.sensorWindowEnd power logic hbm lp) s = .next { s with pack := { s.pack with
      power := power / 10 * 10, logic := logic / 2 * 2, hbm := hbm / 2 * 2, lp := lp / 2 * 2, part := 0x0820, windowSince := now s
      state := b2n s.boot.ready + flag 1 s.fault.fenced + flag 2 (srcOf s 11).level + flag 3 (srcOf s 24).level } } := by
  show execSensorWindowEnd power logic hbm lp s = _
  simp [execSensorWindowEnd, on, elapsed, due]

theorem exec_i3cRead {s : State} (on : s.running = true) (offset len : Nat) :
    exec (.i3cRead offset len) s = .next { s with pack := { s.pack with i3c := slice (i3cBytes s) offset len } } := by
  show execI3cRead offset len s = _
  simp [execI3cRead, on]

/-- Settles O33: each row of the package by its own rule above, and the policy's bounds by the one step of `railStep_cases`. -/
theorem packageSensors : Obligations.PackageSensors := by
  refine ⟨fun s on => ⟨fun m serves => ⟨?_, ?_⟩, avsNoAnswer_gives on, regulatorAnswersAgain_gives on, fun die power => ?policy,
    logicTempRead_gives on, exec_sensorWindowEnd on, exec_i3cRead on⟩,
    fun s u m x y before after counted => ⟨?_, ?_⟩, fun s die r rail answers locked => ?decision,
    fun s t die power e => exec_vpolicyStep_bounds e⟩
  · intro unarmed
    rw [exec_bridgeFlitRetry on serves, unarmed]
    rfl
  · intro mode u fired
    rw [exec_bridgeFlitRetry on serves, fired]
    rfl
  case policy =>
    refine ⟨_, (exec_vpolicyStep s die power).trans (by rw [if_pos on]), ?_, (policyStep_railOnly s die power).frame, rfl⟩
    simp
  · intro within
    rw [bridgeRetry_counts before after counted, if_neg within.not_gt]
  · intro beyond
    rw [bridgeRetry_counts before after counted, if_pos beyond]
  case decision =>
    subst rail
    exact ⟨railStep_when_forced answers locked, railStep_when_lowered answers, railStep_when_raised answers⟩

end Sys2Proof.Machine

/-!
The handshake, timing and latency family: what every step keeps of the memories and of the fuse, the read of the interval counter,
the marks, the time bus and its comparators, and the loss of clocks.
-/

namespace Sys2Proof.Machine

/-! ### What every step keeps -/

/-- A step, by the front command or by a tick, keeps what some permissions leave of the state without its front command. -/
theorem step_kept {s t : State} (e : step s = .next t) : ∃ p, Kept p { s with pending := s.pending.tail } t := by
  cases front : s.pending with
  | nil =>
    have idle : { s with pending := [] } = s := by rw [← front]
    have ticked : step s = .next (tick s) := by simp [step, front]
    rw [ticked] at e
    cases e
    exact ⟨{}, by rw [List.tail_nil, idle]; exact tick_kept (Kept.refl _ s)⟩
  | cons c rest =>
    have ran : step s = exec c { s with pending := rest } := by simp [step, front]
    rw [ran] at e
    exact ⟨allowOf c, exec_kept e⟩

/-- Settles O3: the slots and the flash stay canonical under every permission (`step_kept`). -/
theorem canonicalKept : Obligations.CanonicalKept := by
  intro s t ok e
  obtain ⟨slots, flash⟩ := ok
  obtain ⟨p, kept⟩ := step_kept e
  exact ⟨kept.slots slots, kept.flashWf flash⟩

/-- Only the stops of the interior, pin reset and the power-up may take the counters of the node back (R39, R497). -/
theorem allowOf_power {c : Instr} (h : (allowOf c).power = true) :
    c = .thermtrip ∨ c = .coreWPowerLoss ∨ c = .perstNAssert ∨ ∃ env, c = .perstNDeassert env := by
  cases c with
  | thermtrip => exact .inl rfl
  | coreWPowerLoss => exact .inr (.inl rfl)
  | perstNAssert => exact .inr (.inr (.inl rfl))
  | perstNDeassert env => exact .inr (.inr (.inr ⟨env, rfl⟩))
  | _ => exact absurd h Bool.false_ne_true

/-- Settles O6: a command without the permission of power keeps both numbers from falling (`exec_kept`), and every step keeps the
fuse (`step_kept`). -/
theorem numbersNeverGoBack : Obligations.NumbersNeverGoBack := by
  refine ⟨fun s t c e back => allowOf_power (Bool.eq_true_of_not_eq_false fun no => ?_), fun s t e blown => ?_⟩
  · have kept : Kept (allowOf c) s t := exec_kept e
    have counter := kept.counter no
    have cask := kept.cask no
    omega
  · obtain ⟨p, kept⟩ := step_kept e
    exact kept.fuse blown

/-! ### The read of the interval counter (R40) -/

/-- The two halves of a 64-bit value give it back. -/
theorem bitsOf_halves {n : Nat} (h : n < 2 ^ 64) : bitsOf 31 0 n + 2 ^ 32 * bitsOf 63 32 n = n := by
  simp only [bitsOf]
  omega

/-- COUNT_LO holds no stored bit and shows the low half of the counter. -/
theorem regWord_countLo (s : State) : regWord s 0x5000 = bitsOf 31 0 (now s) := by
  simp [regWord, regDef, timeDef, roReg, fieldMask, sumNat, liveWord, timeLive, lo32, bitsOf]

/-- COUNT_HI holds no stored bit and shows the latch. -/
theorem regWord_countHi (s : State) : regWord s 0x5004 = s.time.countHi := by
  simp [regWord, regDef, timeDef, roReg, fieldMask, sumNat, liveWord, timeLive]

/-- The state in which the high half of the counter is latched. -/
def countLatched (s : State) : State := { s with time := { s.time with countHi := bitsOf 63 32 (now s) } }

theorem readWord_countLo (s : State) : readWord s 0x5000 = (bitsOf 31 0 (now s), countLatched s) := by
  have latch : readLatch s 0x5000 = countLatched s := by simp [readLatch, countLatched, hi32, bitsOf]
  rw [readWord, if_neg (by decide), regWord_countLo, latch]

@[simp] theorem linkSend_time (s : State) (t : LinkTx) : (linkSend s t).time = s.time := (linkSend_dark (Dark.refl s)).time

theorem exec_countLoRead {s : State} (tag : Nat) (reach : Reaches s 0x5000) : exec (.countLoRead tag) s =
    .next (linkSend (countLatched s) (.regCpl tag 0x5000 0 (le 4 (bitsOf 31 0 (now s))))) := by
  show execCountLoRead tag s = _
  rw [execCountLoRead, readAt_reaches reach, readWord_countLo]

/-- Settles O15: the read is `exec_countLoRead`, and the latch that it leaves is the high half that COUNT_HI shows. -/
theorem countRead : Obligations.CountRead := by
  refine fun s tag reach => ⟨exec_countLoRead tag reach, fun t u e same small => ?_⟩
  rw [exec_countLoRead tag reach] at e
  cases e
  have high : regWord u 0x5004 = bitsOf 63 32 (now s) := by rw [regWord_countHi, same, linkSend_time]; rfl
  rw [high, bitsOf_halves small]

/-! ### Folds over a list of units -/

/-- What each step of a fold keeps, the fold keeps. -/
theorem foldState_preserves {α σ : Type} {P : σ → Prop} {f : σ → α → σ} (keeps : ∀ t x, P t → P (f t x)) (l : List α) :
    ∀ {s : σ}, P s → P (foldState f s l) := by
  induction l with
  | nil => exact fun h => h
  | cons x l ih => exact fun h => ih (keeps _ x h)

/-- What a fold does to each unit at its step, and undoes at no other, it has done to every unit of the list. -/
theorem foldState_reaches {α σ : Type} {P : α → σ → Prop} {f : σ → α → σ} (does : ∀ t x, P x (f t x))
    (keeps : ∀ t x y, P x t → P x (f t y)) {l : List α} {x : α} (mem : x ∈ l) : ∀ s, P x (foldState f s l) := by
  induction l with
  | nil => cases mem
  | cons y l ih =>
    intro s
    rcases List.mem_cons.1 mem with rfl | later
    · exact foldState_preserves (fun t z => keeps t x z) l (does s x)
    · exact ih later (f s y)

theorem mem_rangeFrom {lo hi k : Nat} : k ∈ rangeFrom lo hi ↔ lo ≤ k ∧ k < hi := by
  simp only [rangeFrom, List.mem_map, List.mem_range]
  constructor
  · rintro ⟨i, small, rfl⟩
    omega
  · rintro ⟨low, high⟩
    exact ⟨k - lo, by omega, by omega⟩

/-! ### MARK (R44) -/

/-- A Cask record changes nothing but the Cask and the fault collector. -/
theorem caskRec_only_cask_fault (s : State) (r : CaskRec) : ∃ c x, caskRec s r = { s with cask := c, fault := x } := by
  unfold caskRec
  dsimp only
  split
  · split
    · exact ⟨_, s.fault, rfl⟩
    · exact ⟨_, _, rfl⟩
  · split
    · exact ⟨_, _, rfl⟩
    · exact ⟨_, s.fault, rfl⟩

theorem markGo_gives {s : State} (reach : Reaches s 0x5010) : Gives .markGo s fun t => t.time.mark = now s ∧
    { t with time := s.time, cask := s.cask, fault := s.fault } = s := by
  have done : exec .markGo s = .next (markGo s) := by
    show execMarkGo s = _
    rw [execMarkGo, regEnter_reaches reach]
  obtain ⟨c, x, noted⟩ := caskRec_only_cask_fault { s with time := { s.time with mark := now s } } { kind := 0x30, payload := [] }
  refine ⟨_, done, ?_⟩
  rw [markGo, caskNote, noted]
  exact ⟨rfl, rfl⟩

/-! ### The time bus (R42) -/

/-- The state whose counter has taken one tick, before anything follows from it. -/
def counted (s : State) : State := { s with time := { s.time with counter := s.time.counter + 1 } }

/-- What a tick does once the counter has taken it. -/
def afterCount (s : State) : State :=
  let s1 := eachOf execComparatorFire (List.finRange 64) (refreshAll (chansTick (noteIdle (noteIdle s 0) 1)))
  if now s1 % 16 = 0 then expireAll { s1 with time := { s1.time with bus := now s1 } } else s1

theorem tick_running {s : State} (on : s.running = true) : tick s = afterCount (counted s) := by
  simp only [tick, afterCount, counted, on, Bool.not_true, Bool.false_eq_true, if_false]

theorem afterCount_kept {al : Allow} {orig s : State} (kept : Kept al orig s) : Kept al orig (afterCount s) := by
  have fired : Kept al orig (eachOf execComparatorFire (List.finRange 64) (refreshAll (chansTick (noteIdle (noteIdle s 0) 1)))) :=
    eachOf_kept (fun _ _ _ k e => execComparatorFire_kept k e) (refreshAll_kept (chansTick_kept (noteIdle_kept (noteIdle_kept kept))))
  unfold afterCount
  dsimp only
  split
  · exact expireAll_kept fired.put_time
  · exact fired

/-- Each tick of a running node counts (R39). -/
theorem counter_succ_le_tick {s : State} (on : s.running = true) : s.time.counter + 1 ≤ (tick s).time.counter := by
  rw [tick_running on]
  exact (afterCount_kept (Kept.refl {} (counted s))).counter rfl

@[simp] theorem tick_keeps_running (s : State) : (tick s).running = s.running := (tick_kept (Kept.refl {} s)).running rfl

/-- `n` ticks of a running node count at least `n`. -/
theorem counter_le_iter_tick (n : Nat) : ∀ {s : State}, s.running = true → s.time.counter + n ≤ (iter tick n s).time.counter := by
  induction n with
  | zero => exact fun _ => le_rfl
  | succ n ih =>
    intro s on
    have first := counter_succ_le_tick on
    have rest : (tick s).time.counter + n ≤ (iter tick n (tick s)).time.counter := ih (by simp [on])
    rw [iter]
    omega

theorem timeBusBroadcast_gives {s : State} (on : s.running = true) : Gives .timeBusBroadcast s fun t =>
    t = iter tick (16 - s.time.counter % 16) s ∧ s.time.counter - s.time.counter % 16 + 16 ≤ t.time.counter := by
  refine ⟨_, rfl, rfl, ?_⟩
  have ran := counter_le_iter_tick (16 - s.time.counter % 16) on
  omega

/-! ### The comparators (R43) -/

/-- A comparator that has reached its value, when no lower-numbered one of its die is due, is let through to its user. -/
theorem comparatorFire_open {s : State} {n : Fin 64} {user due : Nat} (on : s.running = true) (reached : due ≤ now s)
    (first : ∀ k : Nat, n.val / 32 * 32 ≤ k → k < n.val → comparatorDue s k = false)
    (armed : comparator s n.val = (user, some due)) :
    (!s.running || !comparatorDue s n.val || (rangeFrom (n.val / 32 * 32) n.val).any (comparatorDue s)) = false := by
  have isDue : comparatorDue s n.val = true := by simp [comparatorDue, armed, reached]
  have isFirst : (rangeFrom (n.val / 32 * 32) n.val).any (comparatorDue s) = false := by
    simp only [List.any_eq_false, mem_rangeFrom]
    exact fun k ⟨low, high⟩ => by simp [first k low high]
  simp [on, isDue, isFirst]

section
variable {s : State} {n : Fin 64} {due : Nat} (on : s.running = true) (reached : due ≤ now s)
  (first : ∀ k : Nat, n.val / 32 * 32 ≤ k → k < n.val → comparatorDue s k = false)
include on reached first

theorem exec_comparatorFire_gate {u : Nat} (armed : comparator s n.val = (1, some due))
    (unit : (List.range 14).find? (fun u => pGateEn s u && pGateCmp s u == n.val) = some u) :
    exec (.comparatorFire n) s = .next (gateEnds s u) := by
  show execComparatorFire n s = _
  simp only [execComparatorFire, comparatorFire_open on reached first armed, armed, unit, Bool.false_eq_true, if_false]

theorem exec_comparatorFire_detector (armed : comparator s n.val = (2, some due)) :
    exec (.comparatorFire n) s = .next (detectorFires s) := by
  show execComparatorFire n s = _
  simp only [execComparatorFire, comparatorFire_open on reached first armed, armed, Bool.false_eq_true, if_false]

theorem exec_comparatorFire_window {k : Nat} (armed : comparator s n.val = (3, some due))
    (window : (List.range 16).find? (fun k => pFwinEn s k && pFwinCmp s k == n.val) = some k) :
    exec (.comparatorFire n) s = .next (windowEnd s k) := by
  show execComparatorFire n s = _
  simp only [execComparatorFire, comparatorFire_open on reached first armed, armed, window, Bool.false_eq_true, if_false]

end

/-! ### The reference clock of the link (R41) -/

/-- A fence stands once the node has fenced itself: it stood, or it is set and nothing that the fence does ends it. -/
theorem fenceNode_fenced (s : State) (cause source : Nat) : (fenceNode s cause source).fault.fenced = true := by
  unfold fenceNode
  split
  · next stands =>
    simp only [Bool.and_eq_true] at stands
    exact stands.1
  · refine (?done : Kept {} { s with fault :=
      { s.fault with fenced := true, cause := cause, hard := hardCause cause, fenceInc := incarnationOf s } } _).fenced rfl rfl
    exact discardChained_kept (foldState_kept (fun _ _ => complete_kept)
      (foldState_kept (fun _ _ => turnAway_kept) (clearWaiting_kept (setLevel_kept (caskNote_kept (Kept.refl _ _))))).upd)

/-- The state in which the reference clock of the link is lost and the node has fenced itself (R41). -/
def refLostFenced (s : State) : State :=
  fenceNode (setLevel { s with time := { s.time with refOk := false, backup := true } } 6 true) 3 6

theorem exec_hlRefclkLoss {s : State} (on : s.running = true) (good : s.time.backup = false) : exec .hlRefclkLoss s =
    .next (if 2 ≤ (refLostFenced s).link.state then linkGoesDown (refLostFenced s) else refLostFenced s) := by
  show execHlRefclkLoss s = _
  rw [execHlRefclkLoss, if_neg (by simp [on, good])]
  rfl

theorem hlRefclkLoss_gives {s : State} (on : s.running = true) (good : s.time.backup = false) : Gives .hlRefclkLoss s fun t =>
    t.time.backup = true ∧ t.time.refOk = false ∧ t.fault.fenced = true ∧ (2 ≤ s.link.state → t.link.state = 1) := by
  have aside := fenceNode_aside (cause := 3) (source := 6) (setLevel_aside (n := 6) (high := true) (unit := {})
    (Aside.refl true { s with time := { s.time with refOk := false, backup := true } }))
  have time : (refLostFenced s).time = { s.time with refOk := false, backup := true } := aside.time
  have link : (refLostFenced s).link.state = s.link.state := aside.linkState
  have fenced : (refLostFenced s).fault.fenced = true := fenceNode_fenced _ 3 6
  refine ⟨_, exec_hlRefclkLoss on good, ?_⟩
  rw [link]
  split
  · obtain ⟨training, sameTime, -⟩ := linkGoesDown_link (refLostFenced s)
    rw [sameTime, time]
    exact ⟨rfl, rfl, (linkGoesDown_kept (Kept.refl {} _)).fenced rfl fenced, fun _ => training⟩
  · next down =>
    rw [time]
    exact ⟨rfl, rfl, fenced, fun up => absurd up down⟩

theorem hlRefclkReturn_gives {s : State} (on : s.running = true) (lost : s.time.backup = true) : Gives .hlRefclkReturn s fun t =>
    t.time.backup = false ∧ t.time.refOk = true ∧ (srcOf t 6).level = false ∧ { t with time := s.time, fault := s.fault } = s := by
  have done : exec .hlRefclkReturn s =
      .next (setLevel { s with time := { s.time with refOk := true, backup := false } } 6 false) := by
    show execHlRefclkReturn s = _
    rw [execHlRefclkReturn, if_pos (by simp [on, lost])]
  obtain ⟨x, level⟩ := setLevel_only_fault { s with time := { s.time with refOk := true, backup := false } } 6 false {}
  refine ⟨_, done, by simp, by simp, srcOf_setLevel_level _ 6 false {}, ?_⟩
  rw [level]

/-! ### The clocks of the memories (R550) -/

theorem exec_memRefclkLoss {s : State} {clk : MemClock} (on : s.running = true) (good : s.pack.lostMem.contains clk = false) :
    exec (.memRefclkLoss clk) s = .next { s with pack := { s.pack with lostMem := s.pack.lostMem ++ [clk] } } := by
  show execMemRefclkLoss clk s = _
  rw [execMemRefclkLoss, if_neg (by rw [on, good]; decide)]

theorem exec_memRefclkReturn {s u : State} {clk : MemClock} (on : s.running = true) (lost : s.pack.lostMem.contains clk = true)
    (forgotten : u = { s with pack := { s.pack with lostMem := s.pack.lostMem.filter fun c => c != clk } }) (inTime : Bool) :
    exec (.memRefclkReturn clk inTime) s = .next (if inTime then u else retrainLate u clk) := by
  show execMemRefclkReturn clk inTime s = _
  rw [execMemRefclkReturn, if_neg (by rw [on, lost]; decide), forgotten]

/-! ### The clock of a die's SerDes (R549) -/

/-- One sub-port of a port goes down. -/
def subDown (p : Nat) (s : State) (b : Nat) : State := modSub s p b fun x => { x with up := false }

/-- The four sub-ports of a port go down. -/
def portDown (s : State) (p : Nat) : State := foldState (subDown p) s (List.range 4)

/-- Every sub-port of a die goes down. -/
def serdesDown (s : State) (die : Nat) : State := foldState portDown s (rangeFrom (6 * die) (6 * die + 6))

theorem exec_otherRefclkLoss_serdes {s : State} (on : s.running = true) (die : Fin 2) :
    exec (.otherRefclkLoss (.serdes die)) s = .next (serdesDown s die.val) := by
  show execOtherRefclkLoss (.serdes die) s = _
  rw [execOtherRefclkLoss, if_neg (by simp [on])]
  rfl

theorem subDown_down (p : Nat) (s : State) (b : Nat) : (subOf (subDown p s b) p b).up = false := by simp [subDown]

/-- A sub-port that is down stays down when another goes down. -/
theorem subDown_keeps_down {s : State} {q c : Nat} (p b : Nat) (down : (subOf s q c).up = false) :
    (subOf (subDown p s b) q c).up = false := by
  rw [subDown, modSub_subOf]
  split
  · rfl
  · exact down

theorem portDown_keeps_down {s : State} {q c : Nat} (p : Nat) (down : (subOf s q c).up = false) :
    (subOf (portDown s p) q c).up = false :=
  foldState_preserves (P := fun t => (subOf t q c).up = false) (fun _ b h => subDown_keeps_down p b h) _ down

theorem portDown_down (s : State) (p : Nat) {b : Nat} (small : b < 4) : (subOf (portDown s p) p b).up = false :=
  foldState_reaches (P := fun b t => (subOf t p b).up = false) (fun t b => subDown_down p t b)
    (fun _ _ c h => subDown_keeps_down p c h) (List.mem_range.2 small) s

theorem serdesDown_down (s : State) {die p b : Nat} (low : 6 * die ≤ p) (high : p < 6 * die + 6) (small : b < 4) :
    (subOf (serdesDown s die) p b).up = false :=
  foldState_reaches (P := fun p t => (subOf t p b).up = false) (fun t p => portDown_down t p small)
    (fun _ _ q h => portDown_keeps_down q h) (mem_rangeFrom.2 ⟨low, high⟩) s

/-- The sub-ports go down in the fabric's part of the state. -/
theorem serdesDown_frame (s : State) (die : Nat) : { serdesDown s die with net := s.net } = s := by
  have port (t : State) (p : Nat) (same : { t with net := s.net } = s) : { portDown t p with net := s.net } = s :=
    foldState_preserves (P := fun t : State => { t with net := s.net } = s) (f := subDown p) (fun _ _ h => h) _ same
  exact foldState_preserves (P := fun t : State => { t with net := s.net } = s) port _ rfl

/-! ### The clock of the bridge (R22, R330, R549) -/

/-- A fold of steps that leave the time base alone leaves it alone. -/
theorem foldState_time {α : Type} {f : State → α → State} (keeps : ∀ t x, (f t x).time = t.time) (s : State) (l : List α) :
    (foldState f s l).time = s.time :=
  foldState_preserves (P := fun t => t.time = s.time) (fun t x h => (keeps t x).trans h) l rfl

@[simp] theorem complete_time (s : State) (c : Command) (r : Reply) : (complete s c r).time = s.time :=
  (complete_dark (Dark.refl s)).time

@[simp] theorem fenceNode_time (s : State) (cause source : Nat) : (fenceNode s cause source).time = s.time :=
  (fenceNode_dark (Dark.refl s)).time

@[simp] theorem freeExtent_time (s : State) (l : Loc) : (freeExtent s l).time = s.time := (freeExtent_dark (Dark.refl s)).time

@[simp] theorem vacate_time (s : State) (l : Loc) : (vacate s l).time = s.time := by cases l <;> rfl

@[simp] theorem lpnGive_time (s : State) (lpn : Nat) : (lpnGive s lpn).time = s.time := rfl

@[simp] theorem dropTransfers_time (s : State) (lpn : Nat) : (dropTransfers s lpn).time = s.time := foldState_time vacate_time s _

@[simp] theorem freeFrame_time (s : State) (lpn : Nat) : (freeFrame s lpn).time = s.time := by
  unfold freeFrame
  dsimp only
  repeat' split
  all_goals simp

@[simp] theorem dropOldExts_time (s : State) (lpn : Nat) : (dropOldExts s lpn).time = s.time :=
  foldState_time (fun t (e : Nat × Loc) => freeExtent_time t e.2) s _

@[simp] theorem unpin_time (s : State) (lpn : Nat) : (unpin s lpn).time = s.time := by
  unfold unpin
  dsimp only
  split <;> split <;> simp

@[simp] theorem chainTimers_time (s : State) (quad : Nat) (bwd : Bool) : (chainTimers s quad bwd).time = s.time := by
  unfold chainTimers
  dsimp only
  split
  · rfl
  · split <;> rfl

theorem dropItem_time (s : State) (i : Item) : (dropItem s i).time = s.time := rfl

@[simp] theorem dropVisits_time (s : State) (which : Visit → Bool) : (dropVisits s which).time = s.time := by
  unfold dropVisits
  refine (foldState_time (fun t e => ?_) _ _).trans (foldState_time (fun t i => dropItem_time t (.visit i)) s _)
  split
  · exact chainTimers_time t _ _
  · rfl

@[simp] theorem dropWork_time (s : State) (k : CmdKey) : (dropWork s k).time = s.time := by
  unfold dropWork
  calc _ = _ := foldState_time (fun t (i : Pin) => unpin_time t i.lpn) _ _
    _ = _ := foldState_time (fun t i => dropItem_time t (.add i)) _ _
    _ = s.time := dropVisits_time s _

@[simp] theorem endEastWork_time (s : State) : (endEastWork s).time = s.time :=
  foldState_time (fun t c => by simp) _ _

/-- The check of the bridge retires and returns no module. -/
theorem bridgeCheck_bridge (s : State) (m : Nat) : (bridgeCheck s m).time.bridge = s.time.bridge := by
  unfold bridgeCheck
  split
  · rfl
  · simp

/-- Every module that is retired stands as retired. -/
theorem bridgeRetire_retired (s : State) {ms : List Nat} {m : Nat} (mem : m ∈ ms) :
    (tabGetD (bridgeRetire s ms).time.bridge m {}).retired = true := by
  rw [bridgeRetire, bridgeCheck_bridge]
  refine foldState_reaches (P := fun m (t : Tab BridgeModule) => (tabGetD t m {}).retired = true) (fun t m => ?_)
    (fun t m k retired => ?_) mem _
  · rw [tabGetD_tabModD, if_pos rfl]
  · rw [tabGetD_tabModD]
    split
    · rfl
    · exact retired

theorem otherRefclkLoss_bridge_gives {s : State} (on : s.running = true) : Gives (.otherRefclkLoss .bridge) s fun t =>
    t = bridgeRetire s (List.range 16) ∧ ∀ m : Nat, m < 16 → (tabGetD t.time.bridge m {}).retired = true := by
  have done : exec (.otherRefclkLoss .bridge) s = .next (bridgeRetire s (List.range 16)) := by
    show execOtherRefclkLoss .bridge s = _
    rw [execOtherRefclkLoss, if_neg (by simp [on])]
  exact ⟨_, done, rfl, fun m small => bridgeRetire_retired s (List.mem_range.2 small)⟩

/-! ### The clocks of the cartridges and of the flash (R549) -/

theorem exec_otherRefclkLoss_cellar {s : State} (on : s.running = true) : exec (.otherRefclkLoss .cellar) s =
    .next (foldState (fun s p => if (portOf s p).state = 0 then s
      else raise (portGone s p) { source := 55 + p, unit := { kind := 10, num := p } }) s [0, 1]) := by
  show execOtherRefclkLoss .cellar s = _
  rw [execOtherRefclkLoss, if_neg (by simp [on])]

theorem exec_otherRefclkLoss_xspi {s : State} {op : FlashOp} (on : s.running = true) (busy : s.boot.op = some op) :
    exec (.otherRefclkLoss .xspi) s = .next (setStage { s with boot := { s.boot with op := none } } 3 9) := by
  show execOtherRefclkLoss .xspi s = _
  rw [execOtherRefclkLoss, if_neg (by simp [on])]
  simp [busy]

/-- Settles O32: each row of the clocks by its own rule above. -/
theorem timeAndClocks : Obligations.TimeAndClocks := fun _ on =>
  ⟨markGo_gives, timeBusBroadcast_gives on,
    fun _ _ reached first => ⟨fun _ => exec_comparatorFire_gate on reached first,
      exec_comparatorFire_detector on reached first, fun _ => exec_comparatorFire_window on reached first⟩,
    hlRefclkLoss_gives on, hlRefclkReturn_gives on, fun _ => exec_memRefclkLoss on,
    fun _ _ lost forgotten => ⟨exec_memRefclkReturn on lost forgotten true, exec_memRefclkReturn on lost forgotten false⟩,
    fun die => ⟨_, exec_otherRefclkLoss_serdes on die, fun _ _ => serdesDown_down _, serdesDown_frame _ die.val⟩,
    exec_otherRefclkLoss_cellar on, otherRefclkLoss_bridge_gives on, fun _ => exec_otherRefclkLoss_xspi on⟩

end Sys2Proof.Machine

/-!
The cache family: handles and status codes, and what the commands over sequences, frames, tiers and attention do at their turn.
-/

namespace Sys2Proof.Machine

/-! ### Handles, endpoint ids and status codes (R8, R48, R56, R278) -/

theorem b2n_le_one (b : Bool) : b2n b ≤ 1 := by cases b <;> decide

theorem b2n_beq_one (b : Bool) : (b2n b == 1) = b := by cases b <;> rfl

theorem seqHandleOf_num (h : SeqHandle) (fits : h.fits = true) : seqHandleOf h.num = h := by
  obtain ⟨tenant, sequence, repl, training, cls, noskim⟩ := h
  simp only [SeqHandle.fits, Bool.and_eq_true, decide_eq_true_eq] at fits
  have one := b2n_le_one training
  have one' := b2n_le_one noskim
  simp only [seqHandleOf, SeqHandle.num, bitsOf, bitOf, SeqHandle.mk.injEq]
  refine ⟨by omega, by omega, by omega, ?training, by omega, ?noskim⟩
  case training => exact (congrArg (· == 1) (by omega)).trans (b2n_beq_one training)
  case noskim => exact (congrArg (· == 1) (by omega)).trans (b2n_beq_one noskim)

theorem pageHandleOf_num (h : PageHandle) (fits : h.fits = true) : pageHandleOf h.num = h := by
  obtain ⟨node, lpn, gen, tier⟩ := h
  simp only [PageHandle.fits, Bool.and_eq_true, decide_eq_true_eq] at fits
  simp only [pageHandleOf, PageHandle.num, bitsOf, PageHandle.mk.injEq]
  omega

theorem endpointOf_num (e : Endpoint) (fits : e.fits = true) : endpointOf e.num = some e := by
  cases e with
  | node i =>
    have small : i < 4096 := of_decide_eq_true fits
    simp [endpointOf, Endpoint.num, small]
  | adapter i =>
    have small : i < 16384 := of_decide_eq_true fits
    have above : ¬ 16384 + i < 4096 := by omega
    have within : 16384 + i < 32768 := by omega
    simp [endpointOf, Endpoint.num, above, within]

theorem statusOf_code (st : Status) : statusOf st.code = st := by cases st <;> rfl

/-- Settles O10: each kind by its own round trip above. -/
theorem handlesReadBack : Obligations.HandlesReadBack :=
  ⟨seqHandleOf_num, pageHandleOf_num, endpointOf_num, statusOf_code⟩

/-! ### What completing and passing a chain leave of the memory -/

@[simp] theorem complete_mem (s : State) (c : Command) (r : Reply) : (complete s c r).mem = s.mem :=
  (complete_aside (Aside.refl true s)).mem

@[simp] theorem complete_running (s : State) (c : Command) (r : Reply) : (complete s c r).running = s.running :=
  (complete_aside (Aside.refl true s)).running

@[simp] theorem finish_mem (s : State) (c : Command) (repl : Nat) (r : Reply) : (finish s c repl r).mem = s.mem :=
  (finish_aside (Aside.refl true s)).mem

theorem frameOf_congr {s t : State} (same : t.mem = s.mem) (n : Nat) : frameOf t n = frameOf s n := by
  simp only [frameOf, same]

theorem seqOf_congr {s t : State} (same : t.mem = s.mem) (q : SeqId) : seqOf t q = seqOf s q := by
  simp only [seqOf, same]

@[simp] theorem complete_frameOf (s : State) (c : Command) (r : Reply) (n : Nat) : frameOf (complete s c r) n = frameOf s n :=
  frameOf_congr (complete_mem s c r) n

@[simp] theorem complete_seqOf (s : State) (c : Command) (r : Reply) (q : SeqId) : seqOf (complete s c r) q = seqOf s q :=
  seqOf_congr (complete_mem s c r) q

@[simp] theorem finish_frameOf (s : State) (c : Command) (repl : Nat) (r : Reply) (n : Nat) :
    frameOf (finish s c repl r) n = frameOf s n := frameOf_congr (finish_mem s c repl r) n

@[simp] theorem finish_seqOf (s : State) (c : Command) (repl : Nat) (r : Reply) (q : SeqId) :
    seqOf (finish s c repl r) q = seqOf s q := seqOf_congr (finish_mem s c repl r) q

/-! ### The state of the sequence that a command names (R84) -/

section
variable {s : State} {c : Command} {q : SeqId} {x : Seq} {refusal : Seq → Option Reply} {f : Seq → State}

theorem withActive_absent (gone : seqOf s q = none) : withActive s c q refusal f = complete s c { status := .noState } := by
  simp only [withActive, gone]

theorem withActive_evicting (there : seqOf s q = some x) (leaves : x.state = .evicting) :
    withActive s c q refusal f = complete s c { status := .noState } := by
  simp only [withActive, there, leaves, if_true]

theorem withActive_refused {r : Reply} (there : seqOf s q = some x) (stays : x.state ≠ .evicting) (refused : refusal x = some r) :
    withActive s c q refusal f = complete s c r := by
  simp only [withActive, there, refused, if_neg stays]

theorem withActive_active (there : seqOf s q = some x) (fits : refusal x = none) (active : x.state = .active) :
    withActive s c q refusal f = f x := by
  simp [withActive, there, fits, active]

theorem withActive_busy (there : seqOf s q = some x) (fits : refusal x = none) (busy : x.state = .parking ∨ x.state = .waking) :
    withActive s c q refusal f = complete s c { status := .busyRetry } := by
  rcases busy with busy | busy <;> simp [withActive, there, fits, busy]

theorem withActive_parked (there : seqOf s q = some x) (fits : refusal x = none) (parked : x.state = .parked) :
    withActive s c q refusal f = if c.chainedFrom = none ∧ roleOf s c.desc = .owner
      then startWake (complete s c { status := .busyRetry }) q [] else complete s c { status := .busyRetry } := by
  simp [withActive, there, fits, parked]

end

/-! ### Starting an APPEND (R74, R76, R121) -/

section
variable {s u : State} {c : Command} {l : Live} {tb : TensorBlock} {create : Bool} {ntok fmt pos : Nat}
  {errs : List (List WordErr)} {x : Seq} {q : SeqId}

/-- An admitted APPEND whose turn has come runs the checks of its turn. -/
theorem exec_appendStart (turn : Turn s c) (live : liveOf s (cmdKey c) = some l) (own : l.cmd = c) (waits : l.begun = false)
    (open_ : l.executed = false) : exec (.appendStart (cmdKey c) errs) s = .next (appendStart s c errs) := by
  show execAppendStart (cmdKey c) errs s = _
  rw [execAppendStart, whileRunning_on turn.running, live]
  simp [waits, open_, own, turn.2]

/-- What an APPEND does once its sequence is there and nothing refuses it; `u` is the state with the sequence. -/
def appendGo (s u : State) (c : Command) (tb : TensorBlock) (create : Bool) (ntok pos : Nat) (errs : List (List WordErr))
    (x : Seq) : State :=
  if boundPassed s c then complete s c { status := .busyRetry }
  else match appendParts x tb ntok (if create then c.payload.drop 640 else c.payload) with
    | none => complete s c { status := .notOwner, owner := ownerHint s c.desc }
    | some parts => startParts s u c c.desc.seq.id x parts pos ntok errs

/-- An APPEND to a sequence that is there. -/
theorem appendStart_there (body : c.desc.body = .append tb create ntok fmt pos) (clock : appendWaits s c.desc.seq.id = false)
    (there : seqOf s c.desc.seq.id = some x) : appendStart s c errs =
      withActive s c c.desc.seq.id (appendRefusal s c tb ntok pos) (appendGo s s c tb create ntok pos errs) := by
  simp only [appendStart, body, clock, there]
  rfl

section
variable (body : c.desc.body = .append tb true ntok fmt pos) (clock : appendWaits s c.desc.seq.id = false)
  (gone : seqOf s c.desc.seq.id = none) (v2 : c.desc.v1 = false)
include body clock gone v2

theorem appendStart_unplaced (nowhere : createPlace s c = none) :
    appendStart s c errs = complete s c { status := .notOwner, owner := ownerHint s c.desc } := by
  simp [appendStart, body, clock, gone, v2, nowhere]

variable {a : List Nat × Nat × Nat} (place : createPlace s c = some a)
include place

theorem appendStart_refused_new {r : Reply}
    (refused : appendRefusal s c tb ntok pos (placeSeq (blockSeq c.desc.seq c.payload) a) = some r) :
    appendStart s c errs = complete s c r := by
  simp [appendStart, body, clock, gone, v2, place, refused]

variable (fits : appendRefusal s c tb ntok pos (placeSeq (blockSeq c.desc.seq c.payload) a) = none)
include fits

theorem appendStart_not_created {st : Status}
    (fails : createSeq s c.desc.seq.id (placeSeq (blockSeq c.desc.seq c.payload) a) = .error st) :
    appendStart s c errs = complete s c { status := st } := by
  simp [appendStart, body, clock, gone, v2, place, fits, fails]

theorem appendStart_created (made : createSeq s c.desc.seq.id (placeSeq (blockSeq c.desc.seq c.payload) a) = .ok u)
    (there : seqOf u c.desc.seq.id = some x) : appendStart s c errs = appendGo s u c tb true ntok pos errs x := by
  simp only [appendStart, body, clock, gone, v2, place, fits, made, there]
  rfl

end

theorem appendGo_bound (passed : boundPassed s c = true) :
    appendGo s u c tb create ntok pos errs x = complete s c { status := .busyRetry } := by
  rw [appendGo, if_pos passed]

theorem appendGo_starts {parts : List AppendPart} (within : boundPassed s c = false)
    (local_ : appendParts x tb ntok (if create then c.payload.drop 640 else c.payload) = some parts) :
    appendGo s u c tb create ntok pos errs x = startParts s u c c.desc.seq.id x parts pos ntok errs := by
  simp [appendGo, within, local_]

/-- The tails of an APPEND that lie in a lower tier only (R225). -/
def lowerTails (s : State) (x : Seq) (parts : List AppendPart) (pos : Nat) : List (Nat × Nat × Nat) :=
  (tailFrames s x parts pos).filter fun e => decide (2 ≤ (frameOf s e.2.2).tier) && !(frameOf s e.2.2).staged

/-- The tails of an APPEND that it shares and so copies (R70). -/
def sharedTails (s : State) (x : Seq) (parts : List AppendPart) (pos : Nat) : List (Nat × Nat × Nat) :=
  (tailFrames s x parts pos).filter fun e => decide (1 < (frameOf s e.2.2).refcount)

section
variable {parts : List AppendPart}

theorem startParts_flux (flux : ∃ e ∈ tailFrames u x parts pos, (frameOf u e.2.2).inFlux = true) :
    startParts s u c q x parts pos ntok errs = s := by
  rw [startParts, if_pos (List.any_eq_true.2 flux)]

variable (still : ∀ e ∈ tailFrames u x parts pos, (frameOf u e.2.2).inFlux = false)
include still

theorem startParts_stages (low : lowerTails u x parts pos ≠ []) : startParts s u c q x parts pos ntok errs =
    complete (foldState (fun s e => requestStage s e.2.2 .write (some q) e.1 e.2.1) s (lowerTails u x parts pos)) c
      { status := .busyRetry } := by
  rw [startParts, if_neg (by simpa using still), if_pos (by simpa [lowerTails] using low)]
  rfl

variable (high : lowerTails u x parts pos = [])
include high

theorem startParts_noPage (full : appendAll q pos ntok parts u = none) :
    startParts s u c q x parts pos ntok errs = complete s c { status := .noPage } := by
  rw [startParts, if_neg (by simpa using still), if_neg (by simpa [lowerTails] using high)]
  by_cases alone : sharedTails u x parts pos = []
  all_goals simp [← sharedTails.eq_def, alone, full]

variable {bad : Bool} {v : State} (room : (appendAll q pos ntok parts u).isSome = true)
  (checked : (if sharedTails u x parts pos = [] then (false, u)
    else checkAll u ((sharedTails u x parts pos).map fun e => e.2.2) errs) = (bad, v))
include room checked

theorem startParts_poison (fails : bad = true) :
    startParts s u c q x parts pos ntok errs = complete v c { status := .poison } := by
  rw [startParts, if_neg (by simpa using still), if_neg (by simpa [lowerTails] using high)]
  obtain ⟨r, taken⟩ := Option.isSome_iff_exists.1 room
  simp [← sharedTails.eq_def, checked, fails, taken]

theorem startParts_starts (passes : bad = false) {ls : List Nat} {w : State} (taken : appendAll q pos ntok parts v = some (ls, w))
    (free : ∀ n ∈ ((sharedTails u x parts pos).map fun e => e.2.2) ++ ls, locHeld u (homeOf w n) = false) :
    startParts s u c q x parts pos ntok errs =
      modLive w (cmdKey c) fun l => { l with begun := true, held := false, append := { frames := ls } } := by
  rw [startParts, if_neg (by simpa using still), if_neg (by simpa [lowerTails] using high)]
  obtain ⟨r, some⟩ := Option.isSome_iff_exists.1 room
  have none_held : ((((sharedTails u x parts pos).map fun e => e.2.2) ++ ls).map (homeOf w)).any (locHeld u) = false := by
    rw [List.any_map, List.any_eq_false]
    simpa only [Function.comp_apply, Bool.not_eq_true] using free
  simp only [← sharedTails.eq_def, List.isEmpty_iff, List.map_eq_nil_iff, checked, passes, taken, some, none_held]
  simp
end
end

/-! ### Writes of a frame's image, its flags and its commit (R55, R81, R204, R205) -/

@[simp] theorem slotWrite_frameOf (s : State) (l : Loc) (o : Nat) (bs : List Byte) (n : Nat) :
    frameOf (slotWrite s l o bs) n = frameOf s n := by cases l <;> rfl

@[simp] theorem slotWrite_seqs (s : State) (l : Loc) (o : Nat) (bs : List Byte) :
    (slotWrite s l o bs).mem.seqs = s.mem.seqs := by cases l <;> rfl

@[simp] theorem imgWrite_frameOf (s : State) (lpn o : Nat) (bs : List Byte) (n : Nat) :
    frameOf (imgWrite s lpn o bs) n = frameOf s n := slotWrite_frameOf s _ o bs n

@[simp] theorem imgWrite_seqs (s : State) (lpn o : Nat) (bs : List Byte) : (imgWrite s lpn o bs).mem.seqs = s.mem.seqs :=
  slotWrite_seqs s _ o bs

@[simp] theorem setSideFlag_frameOf (s : State) (lpn bit : Nat) (v : Bool) (n : Nat) :
    frameOf (setSideFlag s lpn bit v) n = frameOf s n := imgWrite_frameOf s lpn _ _ n

@[simp] theorem setSideFlag_seqs (s : State) (lpn bit : Nat) (v : Bool) : (setSideFlag s lpn bit v).mem.seqs = s.mem.seqs :=
  imgWrite_seqs s lpn _ _

@[simp] theorem modFrame_seqs (s : State) (lpn : Nat) (f : Frame → Frame) : (modFrame s lpn f).mem.seqs = s.mem.seqs := rfl

@[simp] theorem setFlux_seqs (s : State) (lpn : Nat) (v : Bool) : (setFlux s lpn v).mem.seqs = s.mem.seqs :=
  setSideFlag_seqs _ lpn 0 v

theorem setFlux_clear_frameOf (s : State) (lpn n : Nat) : frameOf (setFlux s lpn false) n =
    if n = lpn then { frameOf s lpn with inFlux := false } else frameOf s n := by
  simp [setFlux]

@[simp] theorem poisonFrame_frameOf (s : State) (lpn n : Nat) : frameOf (poisonFrame s lpn) n =
    if n = lpn then { frameOf s lpn with poison := true } else frameOf s n := by
  simp [poisonFrame]

@[simp] theorem poisonFrame_seqs (s : State) (lpn : Nat) : (poisonFrame s lpn).mem.seqs = s.mem.seqs := setSideFlag_seqs _ lpn 1 true

@[simp] theorem recordTokens_mem (s : State) (lpn : Nat) : (recordTokens s lpn).mem = s.mem := rfl

theorem commitFrame_frameOf (s : State) (lpn : Nat) (bad : Bool) (n : Nat) : frameOf (commitFrame s lpn bad) n =
    if n = lpn then { frameOf s lpn with inFlux := false, poison := (frameOf s lpn).poison || bad, dirty := (frameOf s lpn).staged }
    else frameOf s n := by
  by_cases this : n = lpn <;> cases bad <;>
    simp [commitFrame, frameOf_congr (recordTokens_mem _ lpn), setFlux_clear_frameOf, this]

@[simp] theorem commitFrame_seqs (s : State) (lpn : Nat) (bad : Bool) : (commitFrame s lpn bad).mem.seqs = s.mem.seqs := by
  cases bad <;> simp [commitFrame]

/-- A check changes neither the frame table nor the sequences. -/
theorem checkFails_mem {s u : State} {checker unit : Nat} {real wrong inj : Bool}
    (e : checkFails s checker unit real = (wrong, inj, u)) : u.mem = s.mem := (checkFails_aside (Aside.refl true s) e).mem

theorem commitChecked_unverified {s : State} (off : pCommitVerify s = false) (lpn : Nat) (badWord differs : Bool) :
    commitChecked s lpn badWord differs = commitFrame s lpn badWord := by simp [commitChecked, off]

theorem commitChecked_verified {s u : State} {lpn : Nat} {differs wrong inj : Bool} (on : pCommitVerify s = true) (badWord : Bool)
    (e : checkFails s 3 (frameChan s lpn) (differs || (frameOf s lpn).crcOff != 0) = (wrong, inj, u)) :
    commitChecked s lpn badWord differs = commitFrame u lpn (badWord || wrong) := by simp [commitChecked, on, e]

/-- A commit with its checks is a commit of the state that the checks leave, whose memory is the same. -/
theorem commitChecked_commits (s : State) (lpn : Nat) (badWord differs : Bool) :
    ∃ (u : State) (bad : Bool), u.mem = s.mem ∧ commitChecked s lpn badWord differs = commitFrame u lpn bad := by
  cases verify : pCommitVerify s with
  | false => exact ⟨s, badWord, rfl, commitChecked_unverified verify lpn badWord differs⟩
  | true =>
    rcases e : checkFails s 3 (frameChan s lpn) (differs || (frameOf s lpn).crcOff != 0) with ⟨wrong, inj, u⟩
    exact ⟨u, badWord || wrong, checkFails_mem e, commitChecked_verified verify badWord e⟩

@[simp] theorem commitChecked_seqs (s : State) (lpn : Nat) (badWord differs : Bool) :
    (commitChecked s lpn badWord differs).mem.seqs = s.mem.seqs := by
  obtain ⟨u, bad, same, e⟩ := commitChecked_commits s lpn badWord differs
  rw [e, commitFrame_seqs, same]

theorem commitChecked_inFlux (s : State) (lpn : Nat) (badWord differs : Bool) (n : Nat) :
    (frameOf (commitChecked s lpn badWord differs) n).inFlux = if n = lpn then false else (frameOf s n).inFlux := by
  obtain ⟨u, bad, same, e⟩ := commitChecked_commits s lpn badWord differs
  rw [e, commitFrame_frameOf, apply_ite Frame.inFlux, frameOf_congr same, frameOf_congr same]

/-! ### The end of an APPEND (R121, R205) -/

/-- Commits the frames of a list that are still IN_FLUX. -/
def commitAll (s : State) (ls : List Nat) : State :=
  foldState (fun s n => if (frameOf s n).inFlux then commitChecked s n false false else s) s ls

@[simp] theorem commitAll_seqs (ls : List Nat) : ∀ s : State, (commitAll s ls).mem.seqs = s.mem.seqs := by
  induction ls with
  | nil => exact fun _ => rfl
  | cons a ls ih =>
    intro s
    refine (ih _).trans ?_
    dsimp only
    split
    · exact commitChecked_seqs s a false false
    · rfl

/-- One commit leaves no frame IN_FLUX that was not, and not its own. -/
theorem commitStep_inFlux (s : State) (a n : Nat) :
    (frameOf (if (frameOf s a).inFlux then commitChecked s a false false else s) n).inFlux =
      if n = a then false else (frameOf s n).inFlux := by
  split
  · exact commitChecked_inFlux s a false false n
  · next still =>
    split
    · next this => rw [this]; exact Bool.eq_false_of_not_eq_true still
    · rfl

theorem commitAll_inFlux (ls : List Nat) : ∀ (s : State) (n : Nat),
    (frameOf (commitAll s ls) n).inFlux = if n ∈ ls then false else (frameOf s n).inFlux := by
  induction ls with
  | nil => intro s n; simp [commitAll, foldState]
  | cons a ls ih =>
    intro s n
    refine (ih _ n).trans ?_
    rw [commitStep_inFlux]
    by_cases first : n = a <;> by_cases later : n ∈ ls <;> simp [first, later]

/-- A sequence with END raised in some tensors. -/
def raiseEnds (x : Seq) (ts : List Nat) (e : Nat) : Seq := ts.foldl (fun x t => setTensor x t { tensorOf x t with endPos := e }) x

theorem tensorOf_setTensor (x : Seq) (t : Nat) (v : Tensor) (n : Nat) :
    tensorOf (setTensor x t v) n = if n = t then v else tensorOf x n := tabGetD_tabSet x.tensors t v n _

theorem raiseEnds_shape (ts : List Nat) (e : Nat) : ∀ x : Seq,
    raiseEnds x ts e = { x with tensors := (raiseEnds x ts e).tensors } := by
  induction ts with
  | nil => exact fun _ => rfl
  | cons t ts ih => exact fun x => ih (setTensor x t { tensorOf x t with endPos := e })

theorem raiseEnds_endPos (ts : List Nat) (e : Nat) : ∀ (x : Seq) (n : Nat),
    (tensorOf (raiseEnds x ts e) n).endPos = if n ∈ ts then e else (tensorOf x n).endPos := by
  induction ts with
  | nil => intro x n; simp [raiseEnds]
  | cons t ts ih =>
    intro x n
    refine (ih _ n).trans ?_
    rw [tensorOf_setTensor]
    by_cases first : n = t <;> by_cases later : n ∈ ts <;> simp [first, later]

section
variable {s : State} {c : Command} {l : Live} {tb : TensorBlock} {create : Bool} {ntok fmt pos : Nat} {x : Seq}

/-- An APPEND that has started commits what it wrote and completes. -/
theorem exec_append_begun (turn : Turn s c) (body : c.desc.body = .append tb create ntok fmt pos)
    (live : liveOf s (cmdKey c) = some l) (begun : l.begun = true) :
    exec (.append c) s = .next (appendEnd s l tb ntok pos) := by
  show execAppend c s = _
  rw [execAppend, whenReady_turn turn]
  simp [body, live, begun]

/-- The end of an APPEND to a sequence that is there. -/
theorem appendEnd_there (there : seqOf s l.cmd.desc.seq.id = some x) :
    appendEnd s l tb ntok pos = finish (setSeq (commitAll s l.append.frames) l.cmd.desc.seq.id
      (raiseEnds x (localTensors x tb) (pos + ntok))) l.cmd x.handle.repl
      { status := if l.append.frames.any fun n => (frameOf (commitAll s l.append.frames) n).poison then .poison else .ok } := by
  have kept : seqOf (commitAll s l.append.frames) l.cmd.desc.seq.id = some x := by
    rw [seqOf, commitAll_seqs]; exact there
  rw [commitAll] at kept
  simp only [appendEnd, kept]
  rfl

theorem append_completes (turn : Turn s c) (body : c.desc.body = .append tb create ntok fmt pos)
    (live : liveOf s (cmdKey c) = some l) (own : l.cmd = c) (begun : l.begun = true) (there : seqOf s c.desc.seq.id = some x) :
    Gives (.append c) s fun t => (∀ n ∈ l.append.frames, (frameOf t n).inFlux = false) ∧
      ∃ y : Seq, seqOf t c.desc.seq.id = some y ∧ y = { x with tensors := y.tensors } ∧
        ∀ p ∈ tbPairs tb, ∀ n : Nat, tensorIdx x p.1 p.2 = some n → (tensorOf y n).endPos = pos + ntok := by
  subst own
  refine ⟨_, exec_append_begun turn body live begun, ?_⟩
  rw [appendEnd_there there]
  refine ⟨fun n mem => ?still, raiseEnds x (localTensors x tb) (pos + ntok), ?there, raiseEnds_shape _ _ x,
    fun p named n idx => ?ends⟩
  case still => rw [finish_frameOf, setSeq_frameOf, commitAll_inFlux, if_pos mem]
  case there => rw [finish_seqOf, seqOf_setSeq, if_pos rfl]
  case ends =>
    have listed : n ∈ localTensors x tb := List.mem_filterMap.2 ⟨p, named, idx⟩
    rw [raiseEnds_endPos, if_pos listed]

/-- An APPEND from a source that has not started within its bound is refused (R76). -/
theorem exec_appendBoundExpiry (on : s.running = true) (body : c.desc.body = .append tb create ntok fmt pos)
    (live : liveOf s (cmdKey c) = some l) (own : l.cmd = c) (waits : l.begun = false) (free : l.held = false)
    (open_ : l.executed = false) (source : c.chainedFrom = none) (late : l.since + 500 ≤ now s) :
    exec (.appendBoundExpiry (cmdKey c)) s = .next (complete s c { status := .busyRetry }) := by
  show execAppendBoundExpiry (cmdKey c) s = _
  rw [execAppendBoundExpiry, whileRunning_on on]
  simp [live, own, body, waits, free, open_, source, elapsed, late]

end

/-! ### FORK (R71, R122, R123) -/

section
variable {s u : State} {c : Command} {parent : SeqHandle} {pos : Nat} {x : Seq}

theorem exec_fork_refused (turn : Turn s c) (body : c.desc.body = .fork parent pos) (there : seqOf s parent.id = some x)
    (stays : x.state ≠ .evicting) {r : Reply} (refused : forkRefusal s c parent pos x = some r) :
    exec (.fork c) s = .next (complete s c r) := by
  show execFork c s = _
  rw [execFork, whenReady_turn turn]
  simp only [body]
  rw [withActive_refused there stays refused]

variable (turn : Turn s c) (body : c.desc.body = .fork parent pos) (there : seqOf s parent.id = some x)
  (fits : forkRefusal s c parent pos x = none) (active : x.state = .active)
include turn body there fits active

theorem exec_fork_not_created {st : Status}
    (fails : createSeq s c.desc.seq.id (forkChild x c.desc.seq (forkPoint x pos)) = .error st) :
    exec (.fork c) s = .next (complete s c { status := st }) := by
  show execFork c s = _
  rw [execFork, whenReady_turn turn]
  simp only [body]
  rw [withActive_active there fits active]
  simp only [fails]

variable (made : createSeq s c.desc.seq.id (forkChild x c.desc.seq (forkPoint x pos)) = .ok u)
include made

theorem exec_fork_created : exec (.fork c) s = .next
    (if blocksFree u (childLeaves x (forkPages s x (forkPoint x pos))) then
      finish (sharePages u c.desc.seq.id (forkPages s x (forkPoint x pos))) c c.desc.seq.repl { status := .ok }
    else complete s c { status := .noPage }) := by
  show execFork c s = _
  rw [execFork, whenReady_turn turn]
  simp only [body]
  rw [withActive_active there fits active]
  simp only [made]

end

/-- Settles O41: the start of an APPEND by its rules above, its end by `append_completes`, and FORK. -/
theorem appendAndFork : Obligations.AppendAndFork := by
  intro s c turn
  refine ⟨fun tb create ntok fmt pos l errs q run body live own waits open_ clock named run_eq => ?start,
    fun tb create ntok fmt pos l body live own => ⟨fun x there begun => append_completes turn body live own begun there,
      fun waits free open_ source late => exec_appendBoundExpiry turn.running body live own waits free open_ source late⟩,
    fun parent pos x ps body there stays pages => ⟨fun r => exec_fork_refused turn body there stays, fun fits active => ?fork⟩⟩
  case fork =>
    subst pages
    refine ⟨fun st => exec_fork_not_created turn body there fits active, fun u made => ⟨fun free => ?_, fun full => ?_⟩⟩
    · rw [exec_fork_created turn body there fits active made, if_pos free]
    · rw [exec_fork_created turn body there fits active made, if_neg (by simp [full])]
  case start =>
    rw [exec_appendStart turn live own waits open_] at run_eq
    subst named run_eq
    refine ⟨fun x r there stays refused => ?refused, fun x there active fits passed => ?bound, fun gone creates v2 => ?creates,
      fun u x parts within found local_ => ?starts⟩
    case refused => rw [appendStart_there body clock there, withActive_refused there stays refused]
    case bound => rw [appendStart_there body clock there, withActive_active there fits active, appendGo_bound passed]
    case creates =>
      subst creates
      refine ⟨fun nowhere => by rw [appendStart_unplaced body clock gone v2 nowhere], fun a x place shape => ?_⟩
      subst shape
      exact ⟨fun r refused => by rw [appendStart_refused_new body clock gone v2 place refused],
        fun st fits fails => by rw [appendStart_not_created body clock gone v2 place fits fails]⟩
    case starts =>
      have go : appendStart s c errs = startParts s u c c.desc.seq.id x parts pos ntok errs := by
        rcases found with ⟨there, active, fits, rfl⟩ | ⟨gone, rfl, v2, a, place, fits, made, there⟩
        · rw [appendStart_there body clock there, withActive_active there fits active, appendGo_starts within local_]
        · rw [appendStart_created body clock gone v2 place fits made there, appendGo_starts within local_]
      rw [go]
      refine ⟨fun flux => by rw [startParts_flux flux], fun still lower cow low shared => ?_⟩
      subst low shared
      refine ⟨fun low => by rw [startParts_stages still low]; rfl, fun high full => by rw [startParts_noPage still high full],
        fun high room bad v checked => ⟨fun fails => ?_, fun passes ls w taken free => ?_⟩⟩
      · rw [startParts_poison still high room checked.symm fails]
      · rw [startParts_starts still high room checked.symm passes taken free]

/-! ### Folds that keep something -/

theorem foldState_keeps {α β σ : Type} (g : σ → β) {f : σ → α → σ} (keeps : ∀ t a, g (f t a) = g t) (l : List α) :
    ∀ s : σ, g (foldState f s l) = g s := by
  induction l with
  | nil => exact fun _ => rfl
  | cons a l ih => exact fun s => (ih _).trans (keeps s a)

theorem iter_keeps {β σ : Type} (g : σ → β) {f : σ → σ} (keeps : ∀ t, g (f t) = g t) (n : Nat) :
    ∀ s : σ, g (iter f n s) = g s := by
  induction n with
  | zero => exact fun _ => rfl
  | succ n ih => exact fun s => (ih _).trans (keeps s)

theorem foldState_relates {α σ : Type} {R : σ → σ → Prop} {f : σ → α → σ} (refl : ∀ s, R s s)
    (trans : ∀ {a b c}, R a b → R b c → R a c) (step : ∀ t a, R t (f t a)) (l : List α) : ∀ s : σ, R s (foldState f s l) := by
  induction l with
  | nil => exact refl
  | cons a l ih => exact fun s => trans (step s a) (ih _)

/-! ### What transfers, I/O and objects leave of the memory -/

/-- The memory apart from what the codec's transfers, the cartridges, their I/O and the guest objects keep of their own. -/
def MemSt.bare (m : MemSt) : MemSt :=
  { m with ports := [], carts := [], guests := [], nvme := [], nextIo := 0, codec := [], nextJob := 0 }

theorem seqOf_bare (s : State) (q : SeqId) : seqOf s q = assoc s.mem.bare.seqs q := rfl

theorem linkSend_mem (s : State) (t : LinkTx) : (linkSend s t).mem = s.mem := (linkSend_aside (Aside.refl true s)).mem

theorem sendMsg_mem (s : State) (a : AssocKey) (cls : MsgClass) (egress : Nat) (arrival : Option (Nat × Nat)) (bytes : List Byte) :
    (sendMsg s a cls egress arrival bytes).mem = s.mem := (sendMsg_aside (Aside.refl true s)).mem

theorem memRead1_mem (s : State) (why : MemWhy) (p : Nat × Nat) : (memRead1 s why p).mem = s.mem := linkSend_mem _ _

@[simp] theorem assignLane_bare (cluster : Nat) (encode : Bool) (s : State) : (assignLane cluster encode s).mem.bare = s.mem.bare := by
  dsimp only [assignLane]
  split
  · split
    · rfl
    · rw [foldState_keeps State.mem (fun t p => memRead1_mem t _ p)]
      rfl
  · rfl

@[simp] theorem assignLanes_bare (s : State) : (assignLanes s).mem.bare = s.mem.bare :=
  foldState_keeps (fun t : State => t.mem.bare) (fun _ q =>
    (iter_keeps (fun t : State => t.mem.bare) (assignLane_bare q true) 16 _).trans
      (iter_keeps (fun t : State => t.mem.bare) (assignLane_bare q false) 32 _)) _ s

@[simp] theorem codecQueue_bare (s : State) (j : CodecJob) (quad : Nat) : (codecQueue s j quad).2.mem.bare = s.mem.bare := by
  dsimp only [codecQueue]
  rw [assignLanes_bare]
  rfl

@[simp] theorem codecSubmit_bare (s : State) (encode : Bool) (lpn quad : Nat) (visit : Option Nat) (key : Option CmdKey) :
    (codecSubmit s encode lpn quad visit key).2.mem.bare = s.mem.bare := codecQueue_bare s _ quad

@[simp] theorem codecEnd_bare (s : State) (id : Nat) : (codecEnd s id).mem.bare = s.mem.bare := by
  rw [codecEnd, assignLanes_bare]
  rfl

@[simp] theorem dropObjTransfers_bare (s : State) (q : SeqId) : (dropObjTransfers s q).mem.bare = s.mem.bare := by
  dsimp only [dropObjTransfers]
  exact foldState_keeps (fun t : State => t.mem.bare) (fun t (j : CodecJob) => codecEnd_bare t j.id) _ s

@[simp] theorem startIo_bare (s : State) (p : Nat) (why : IoWhy) : (startIo s p why).mem.bare = s.mem.bare := rfl

@[simp] theorem deallocate_bare (s : State) (p : Nat) : (deallocate s p).mem.bare = s.mem.bare := by
  unfold deallocate
  split <;> rfl

@[simp] theorem dropIo_bare (s : State) (p : IoWhy → Bool) : (dropIo s p).mem.bare = s.mem.bare := rfl

@[simp] theorem noteStale_bare (s : State) (cart : Nat) : (noteStale s cart).mem.bare = s.mem.bare := rfl

@[simp] theorem modPort_bare (s : State) (p : Nat) (f : CellarPort → CellarPort) : (modPort s p f).mem.bare = s.mem.bare := rfl

@[simp] theorem dropGuest_bare (s : State) (origin : Nat) (q : SeqId) : (dropGuest s origin q).mem.bare = s.mem.bare := rfl

@[simp] theorem nodeCommand_bare (s : State) (node : Nat) (q : SeqId) (body : Body) (payload : List Byte) :
    (nodeCommand s node q body payload).mem.bare = s.mem.bare := 
  (congrArg MemSt.bare (sendMsg_mem _ _ _ _ _ _)).trans rfl

@[simp] theorem sendGuest_bare (s : State) (node : Nat) (q : SeqId) (bytes : List Byte) :
    (sendGuest s node q bytes).2.mem.bare = s.mem.bare :=
  foldState_keeps (fun t : State => t.mem.bare) (fun t _ => nodeCommand_bare t node q _ _) _ s

@[simp] theorem discardGuest_bare (s : State) (origin : Nat) (q : SeqId) : (discardGuest s origin q).mem.bare = s.mem.bare := by
  dsimp only [discardGuest]
  split
  · rfl
  · split <;> simp

@[simp] theorem dropObject_bare (s : State) (r : ParkRef) : (dropObject s r).mem.bare = s.mem.bare := by
  dsimp only [dropObject]
  split
  · split <;> simp
  · rfl

@[simp] theorem dropHalf_bare (s : State) (q : SeqId) : (dropHalf s q).mem.bare = s.mem.bare :=
  foldState_keeps (fun t : State => t.mem.bare) (fun _ _ => by dsimp only; split <;> simp) _ _

@[simp] theorem releaseObjects_bare (s : State) (q : SeqId) (partnered : Bool) (r : Option ParkRef) :
    (releaseObjects s q partnered r).mem.bare = s.mem.bare := by
  cases r with
  | none => rfl
  | some r =>
    dsimp only [releaseObjects]
    split <;> simp

/-- Stopping a PARK and a WAKE of a sequence takes away these jobs, and nothing else but what transfers and I/O keep. -/
theorem stopJobs_bare (s : State) (q : SeqId) : (stopJobs s q).mem.bare = { s.mem.bare with
    parks := s.mem.parks.filter (fun j => j.seq != q), wakes := s.mem.wakes.filter (fun j => j.seq != q),
    protects := s.mem.protects.filter fun j => j.seq != q } := by
  rw [stopJobs, dropObjTransfers_bare, dropIo_bare, dropHalf_bare]
  rfl

/-! ### What releasing frames and blocks leaves of the sequences and of the PARKs and WAKEs in progress -/

/-- The sequences, and the PARKs and WAKEs in progress. -/
def MemSt.work (m : MemSt) : List (SeqId × Seq) × List ParkJob × List WakeJob := (m.seqs, m.parks, m.wakes)

theorem work_of_bare {m n : MemSt} (same : m.bare = n.bare) : m.work = n.work := by
  have seen : m.bare.work = n.bare.work := congrArg MemSt.work same
  exact seen

theorem seqOf_of_work {s t : State} (same : t.mem.work = s.mem.work) (q : SeqId) : seqOf t q = seqOf s q :=
  congrArg (fun w : List (SeqId × Seq) × List ParkJob × List WakeJob => assoc w.1 q) same

@[simp] theorem setFrame_work (s : State) (lpn : Nat) (f : Frame) : (setFrame s lpn f).mem.work = s.mem.work := rfl

@[simp] theorem modFrame_work (s : State) (lpn : Nat) (f : Frame → Frame) : (modFrame s lpn f).mem.work = s.mem.work := rfl

@[simp] theorem modFree_work (s : State) (n : Nat) (f : FreeList → FreeList) : (modFree s n f).mem.work = s.mem.work := rfl

@[simp] theorem lpnGive_work (s : State) (lpn : Nat) : (lpnGive s lpn).mem.work = s.mem.work := rfl

@[simp] theorem freeBlocks_work (s : State) (b : Nat) : (freeBlocks s b).mem.work = s.mem.work := rfl

@[simp] theorem vacate_work (s : State) (l : Loc) : (vacate s l).mem.work = s.mem.work := by cases l <;> rfl

@[simp] theorem freeExtent_work (s : State) (l : Loc) : (freeExtent s l).mem.work = s.mem.work := by cases l <;> rfl

@[simp] theorem dropTransfers_work (s : State) (lpn : Nat) : (dropTransfers s lpn).mem.work = s.mem.work :=
  foldState_keeps (fun t : State => t.mem.work) vacate_work _ s

@[simp] theorem freeFrame_work (s : State) (lpn : Nat) : (freeFrame s lpn).mem.work = s.mem.work := by
  dsimp only [freeFrame]
  repeat' split
  all_goals simp

@[simp] theorem decRef_work (s : State) (lpn : Nat) : (decRef s lpn).mem.work = s.mem.work := by
  dsimp only [decRef]
  repeat' split
  all_goals simp

/-! ### Accesses in memory mode (R192 to R194, R550) -/

theorem whenMemory_runs {s : State} {ls : List Loc} {w : HoldWork} {words : Nat} {f : Unit → State}
    (clock : ∀ l ∈ ls, locWaits s l = false) (free : ∀ l ∈ ls, locHeld s l = false) : whenMemory s ls w words f = f () := by
  rw [whenMemory, if_neg (by simpa using clock), if_neg (by simpa using free)]

theorem whenMemory_held {s : State} {l : Loc} {w : HoldWork} {words : Nat} {f : Unit → State} (clock : locWaits s l = false)
    (held : locHeld s l = true) : whenMemory s [l] w words f = holdAt s l w words := by
  simp [whenMemory, clock, held, foldState]

/-! ### TRIM (R86, R124, R208, R225) -/

section
variable {s v u : State} {c : Command} {tb : TensorBlock} {start limit : Nat} {errs : List (List WordErr)} {x : Seq}

/-- The pages that a TRIM cuts: tensor, page and page number. -/
def trimCuts (ps : List TrimPart) : List (Nat × Nat × Nat) := ps.filterMap fun p => p.cut.map fun e => (p.tensor, e.1, e.2.1.lpn)

/-- The pages that a TRIM cuts and that lie in a lower tier only (R225). -/
def lowerCuts (s : State) (ps : List TrimPart) : List (Nat × Nat × Nat) :=
  (trimCuts ps).filter fun e => decide (2 ≤ (frameOf s e.2.2).tier) && !(frameOf s e.2.2).staged

/-- The frames that a TRIM cuts in a copy (R70). -/
def sharedCuts (s : State) (ps : List TrimPart) : List Nat :=
  ((trimCuts ps).filter fun e => decide (1 < (frameOf s e.2.2).refcount)).map fun e => e.2.2

/-- What a TRIM of an ACTIVE sequence does with its parts. -/
def trimParts (s : State) (c : Command) (errs : List (List WordErr)) (x : Seq) (ps : List TrimPart) : State :=
  if (trimCuts ps).any fun e => (frameOf s e.2.2).inFlux then s
  else if !(lowerCuts s ps).isEmpty then
    complete (foldState (fun s e => requestStage s e.2.2 .write (some c.desc.seq.id) e.1 e.2.1) s (lowerCuts s ps)) c
      { status := .busyRetry }
  else whenMemory s ((trimCuts ps).map fun e => homeOf s e.2.2) (.command (cmdKey c)) 576 fun _ =>
    if (trimAll c.desc.seq.id ps s).isNone then complete s c { status := .noPage }
    else if (checkAll s (sharedCuts s ps) errs).1 then complete (checkAll s (sharedCuts s ps) errs).2 c { status := .poison }
    else match trimAll c.desc.seq.id ps (checkAll s (sharedCuts s ps) errs).2 with
      | none => complete (checkAll s (sharedCuts s ps) errs).2 c { status := .noPage }
      | some u => finish u c x.handle.repl { status := .ok }

theorem exec_trim_refused (turn : Turn s c) (body : c.desc.body = .trim tb start limit) (there : seqOf s c.desc.seq.id = some x)
    (stays : x.state ≠ .evicting) {r : Reply} (refused : trimRefusal s c tb start limit x = some r) :
    exec (.trim c errs) s = .next (complete s c r) := by
  show execTrim c errs s = _
  rw [execTrim, whenReady_turn turn]
  simp only [body]
  rw [withActive_refused there stays refused]

theorem exec_trim_parts (turn : Turn s c) (body : c.desc.body = .trim tb start limit) (there : seqOf s c.desc.seq.id = some x)
    (fits : trimRefusal s c tb start limit x = none) (active : x.state = .active) {ps : List TrimPart}
    (parts : (localTensors x tb).mapM (fun t => trimPart s x t start limit) = some ps) :
    exec (.trim c errs) s = .next (trimParts s c errs x ps) := by
  show execTrim c errs s = _
  rw [execTrim, whenReady_turn turn]
  simp only [body]
  rw [withActive_active there fits active]
  simp only [parts]
  rfl

variable {ps : List TrimPart}

theorem trimParts_flux (flux : ∃ e ∈ trimCuts ps, (frameOf s e.2.2).inFlux = true) : trimParts s c errs x ps = s := by
  rw [trimParts, if_pos (List.any_eq_true.2 flux)]

variable (still : ∀ e ∈ trimCuts ps, (frameOf s e.2.2).inFlux = false)
include still

theorem trimParts_stages (low : lowerCuts s ps ≠ []) : trimParts s c errs x ps =
    complete (foldState (fun s e => requestStage s e.2.2 .write (some c.desc.seq.id) e.1 e.2.1) s (lowerCuts s ps)) c
      { status := .busyRetry } := by
  rw [trimParts, if_neg (by simpa using still), if_pos (by simpa using low)]

variable (high : lowerCuts s ps = [])
  (ready : ∀ e ∈ trimCuts ps, locWaits s (homeOf s e.2.2) = false ∧ locHeld s (homeOf s e.2.2) = false)
include high ready

theorem trimParts_noPage (full : trimAll c.desc.seq.id ps s = none) :
    trimParts s c errs x ps = complete s c { status := .noPage } := by
  rw [trimParts, if_neg (by simpa using still), if_neg (by simpa using high),
    whenMemory_runs (List.forall_mem_map.2 fun e mem => (ready e mem).1) (List.forall_mem_map.2 fun e mem => (ready e mem).2)]
  simp [full]

variable (room : (trimAll c.desc.seq.id ps s).isSome = true) {bad : Bool} (checked : checkAll s (sharedCuts s ps) errs = (bad, v))
include room checked

theorem trimParts_poison (fails : bad = true) : trimParts s c errs x ps = complete v c { status := .poison } := by
  rw [trimParts, if_neg (by simpa using still), if_neg (by simpa using high),
    whenMemory_runs (List.forall_mem_map.2 fun e mem => (ready e mem).1) (List.forall_mem_map.2 fun e mem => (ready e mem).2)]
  simp [Option.isNone_eq_false_iff.2 room, checked, fails]

theorem trimParts_done (passes : bad = false) (done : trimAll c.desc.seq.id ps v = some u) :
    trimParts s c errs x ps = finish u c x.handle.repl { status := .ok } := by
  rw [trimParts, if_neg (by simpa using still), if_neg (by simpa using high),
    whenMemory_runs (List.forall_mem_map.2 fun e mem => (ready e mem).1) (List.forall_mem_map.2 fun e mem => (ready e mem).2)]
  simp [Option.isNone_eq_false_iff.2 room, checked, passes, done]

end

/-! ### EVICT (R72, R84, R442) -/

theorem assoc_assocDel {α β : Type} [DecidableEq α] (t : List (α × β)) (k j : α) :
    assoc (assocDel t k) j = if j = k then none else assoc t j := by
  induction t with
  | nil => simp [assocDel, assoc]
  | cons e t ih =>
    obtain ⟨i, v⟩ := e
    simp only [assocDel] at ih
    by_cases this : i = k <;> by_cases first : i = j <;> simp_all [assocDel, assoc]

/-- `b` has the PARKs and WAKEs of `a` and its sequences, but that the tensor table of `q` may have changed. -/
structure TensorsOf (q : SeqId) (a b : State) : Prop where
  parks : b.mem.parks = a.mem.parks
  wakes : b.mem.wakes = a.mem.wakes
  others : ∀ r : SeqId, r ≠ q → seqOf b r = seqOf a r
  own : ∀ x : Seq, seqOf a q = some x → ∃ ts : Tab Tensor, seqOf b q = some { x with tensors := ts }

theorem TensorsOf.of_work {q : SeqId} {a b : State} (same : b.mem.work = a.mem.work) : TensorsOf q a b where
  parks := congrArg (fun w : List (SeqId × Seq) × List ParkJob × List WakeJob => w.2.1) same
  wakes := congrArg (fun w : List (SeqId × Seq) × List ParkJob × List WakeJob => w.2.2) same
  others r _ := seqOf_of_work same r
  own x there := ⟨x.tensors, (seqOf_of_work same q).trans there⟩

theorem TensorsOf.trans {q : SeqId} {a b c : State} (first : TensorsOf q a b) (then_ : TensorsOf q b c) : TensorsOf q a c where
  parks := then_.parks.trans first.parks
  wakes := then_.wakes.trans first.wakes
  others r other := (then_.others r other).trans (first.others r other)
  own x there := by
    obtain ⟨ts, mid⟩ := first.own x there
    obtain ⟨us, last⟩ := then_.own _ mid
    exact ⟨us, last⟩

theorem setSeq_tensors {s : State} {q : SeqId} {x : Seq} (there : seqOf s q = some x) (ts : Tab Tensor) :
    TensorsOf q s (setSeq s q { x with tensors := ts }) where
  parks := rfl
  wakes := rfl
  others r other := by rw [seqOf_setSeq, if_neg other]
  own y there' := by
    rw [there] at there'
    cases there'
    exact ⟨ts, by rw [seqOf_setSeq, if_pos rfl]⟩

theorem dropReserve_tensors (s : State) (q : SeqId) (t : Nat) : TensorsOf q s (dropReserve s q t) := by
  dsimp only [dropReserve]
  split
  · exact .of_work rfl
  · next x there =>
    split
    · exact .of_work rfl
    · exact (setSeq_tensors there _).trans (.of_work (freeFrame_work _ _))

theorem TensorsOf.foldState {α : Type} {q : SeqId} {f : State → α → State} (step : ∀ t a, TensorsOf q t (f t a)) (l : List α)
    (s : State) : TensorsOf q s (foldState f s l) :=
  foldState_relates (R := TensorsOf q) (fun _ => .of_work rfl) TensorsOf.trans step l s

/-- A sequence whose pages, reserves, gradients, leaves and directory are released. -/
def emptied (x : Seq) : Seq :=
  { x with tensors := x.tensors.map (fun e => (e.1, { e.2 with reserve := none, want := false })), leafPtr := [], gradSum := [],
           gradBlock := none, hints := [], tight := false, dirBlock := 0, dirBlocks := 0 }

/-- Releasing the content of a sequence takes its frames, reserves and blocks away, and then empties it. -/
theorem releaseContent_eq {s : State} {q : SeqId} {x : Seq} (there : seqOf s q = some x) :
    ∃ t : State, TensorsOf q s t ∧ releaseContent s q = modSeq t q emptied := by
  simp only [releaseContent, there]
  refine ⟨_, ?_, rfl⟩
  have pages : TensorsOf q s (foldState (fun s e => decRef s e.2.2.lpn) s (allPages s x)) :=
    .foldState (fun t e => .of_work (decRef_work t _)) _ s
  refine pages.trans ((TensorsOf.foldState (fun t n => dropReserve_tensors t q n) (List.range (tensorCount x)) _).trans ?_)
  refine .of_work (Eq.trans (foldState_keeps (fun t : State => t.mem.work) ?leaf x.leafPtr _) ?rest)
  case leaf => exact fun _ _ => rfl
  case rest =>
    rw [foldState_keeps (fun t : State => t.mem.work) freeBlocks_work, foldState_keeps (fun t : State => t.mem.work) decRef_work]

theorem releaseContent_others (s : State) (q : SeqId) {r : SeqId} (other : r ≠ q) : seqOf (releaseContent s q) r = seqOf s r := by
  cases there : seqOf s q with
  | none => simp only [releaseContent, there]
  | some x =>
    obtain ⟨t, rel, e⟩ := releaseContent_eq there
    rw [e, seqOf_modSeq, if_neg other, rel.others r other]

theorem removeSeq_seqOf (s : State) (q r : SeqId) : seqOf (removeSeq s q) r = if r = q then none else seqOf s r := by
  have taken : seqOf (removeSeq s q) r = if r = q then none else seqOf (releaseContent s q) r := assoc_assocDel _ q r
  rw [taken]
  split
  · rfl
  · next other => exact releaseContent_others s q other

@[simp] theorem completeKeys_mem (s : State) (ks : List CmdKey) (st : Status) : (completeKeys s ks st).mem = s.mem :=
  foldState_keeps State.mem (fun t k => by split <;> simp) ks s

@[simp] theorem finishKeys_mem (s : State) (ks : List CmdKey) (st : Status) : (finishKeys s ks st).mem = s.mem :=
  foldState_keeps State.mem (fun t k => by split <;> simp) ks s

@[simp] theorem tenantAbsent_mem (s : State) (n : Nat) : (tenantAbsent s n).mem = s.mem := by
  dsimp only [tenantAbsent]
  split
  · exact (caskNote_aside (Aside.refl true s)).mem
  · rfl

theorem stopJobs_seqOf (s : State) (q r : SeqId) : seqOf (stopJobs s q) r = seqOf s r := by
  rw [seqOf_bare, stopJobs_bare]
  rfl

theorem evictSeq_seqOf (s : State) (q r : SeqId) : seqOf (evictSeq s q) r = if r = q then none else seqOf s r := by
  cases there : seqOf s q with
  | none =>
    simp only [evictSeq, there]
    split
    · next this => rw [this, there]
    · rfl
  | some x =>
    have stopped (partnered : Bool) : seqOf (releaseObjects (stopJobs s q) q partnered x.parkRef) r = seqOf s r :=
      (seqOf_of_work (work_of_bare (releaseObjects_bare _ q partnered x.parkRef)) r).trans (stopJobs_seqOf s q r)
    simp only [evictSeq, there]
    rw [seqOf_congr (tenantAbsent_mem _ _), seqOf_congr (completeKeys_mem _ _ _), removeSeq_seqOf, stopped]

section
variable {s : State} {c : Command} {x : Seq}

theorem exec_evict_absent (turn : Turn s c) (body : c.desc.body = .evict) (gone : seqOf s c.desc.seq.id = none) :
    exec (.evict c) s = .next (complete s c { status := if c.desc.v1 then .noState else .ok }) := by
  show execEvict c s = _
  rw [execEvict, whenReady_turn turn]
  simp only [body, gone]

theorem exec_evict_there (turn : Turn s c) (body : c.desc.body = .evict) (there : seqOf s c.desc.seq.id = some x) :
    exec (.evict c) s = .next (finish (evictSeq s c.desc.seq.id) c x.handle.repl { status := .ok }) := by
  show execEvict c s = _
  rw [execEvict, whenReady_turn turn]
  simp only [body, there]

/-- An EVICT leaves no sequence of its handle and every other one. -/
theorem evict_gives (turn : Turn s c) (body : c.desc.body = .evict) : Gives (.evict c) s fun t =>
    seqOf t c.desc.seq.id = none ∧ ∀ q : SeqId, q ≠ c.desc.seq.id → (seqOf t q).isSome = (seqOf s q).isSome := by
  cases there : seqOf s c.desc.seq.id with
  | none =>
    refine ⟨_, exec_evict_absent turn body there, ?_, fun q _ => ?_⟩
    · rw [complete_seqOf, there]
    · rw [complete_seqOf]
  | some x =>
    refine ⟨_, exec_evict_there turn body there, ?_, fun q other => ?_⟩
    · rw [finish_seqOf, evictSeq_seqOf, if_pos rfl]
    · rw [finish_seqOf, evictSeq_seqOf, if_neg other]

end

/-! ### HINT (R126, R237) -/

section
variable {s : State} {c : Command} {tb : TensorBlock} {kind start limit : Nat} {x : Seq}

theorem exec_hint_absent (turn : Turn s c) (body : c.desc.body = .hint tb kind start limit) (gone : seqOf s c.desc.seq.id = none) :
    exec (.hint c) s = .next (complete s c { status := .ok }) := by
  show execHint c s = _
  rw [execHint, whenReady_turn turn]
  simp only [body, gone]

theorem exec_hint_there (turn : Turn s c) (body : c.desc.body = .hint tb kind start limit) (there : seqOf s c.desc.seq.id = some x) :
    exec (.hint c) s = .next (complete
      (if x.state = .active then applyHint s c.desc.seq.id x tb kind start limit else s) c { status := .ok }) := by
  show execHint c s = _
  rw [execHint, whenReady_turn turn]
  simp only [body, there]

theorem exec_hint_active (turn : Turn s c) (body : c.desc.body = .hint tb kind start limit) (there : seqOf s c.desc.seq.id = some x)
    (active : x.state = .active) :
    exec (.hint c) s = .next (complete (applyHint s c.desc.seq.id x tb kind start limit) c { status := .ok }) := by
  rw [exec_hint_there turn body there, if_pos active]

/-- KIND 0 takes the hints away that the range meets. -/
theorem applyHint_removes (q : SeqId) : applyHint s q x tb 0 start limit =
    setSeq s q { x with hints := x.hints.filter fun h => !hintMeets h tb start limit } := rfl

/-- KIND 1 and 2 add a hint, and the newest 16 stay. -/
theorem applyHint_adds (q : SeqId) (adds : kind = 1 ∨ kind = 2) : applyHint s q x tb kind start limit =
    setSeq s q { x with hints := (if 16 ≤ x.hints.length then x.hints.drop (x.hints.length - 15) else x.hints) ++
      [⟨tb.layerFirst, tb.layerLast, tb.headFirst, tb.headCount, kind, start, limit⟩] } := by
  rw [applyHint, if_neg (by omega), if_pos adds]

/-- KIND 3 asks for the frames of the range to be staged. -/
theorem applyHint_prefetches (q : SeqId) : applyHint s q x tb 3 start limit =
    foldState (fun s e => requestStage s e.2.2 .hint (some q) e.1 e.2.1) s (rangePages s x (localTensors x tb) start limit) := rfl

end

/-! ### SKIM_REFRESH (R127, R164) -/

section
variable {s : State} {c : Command} {tb : TensorBlock} {start limit : Nat} {x : Seq}

theorem exec_skimRefresh_unfit (turn : Turn s c) (body : c.desc.body = .skimRefresh tb start limit)
    (there : seqOf s c.desc.seq.id = some x) (stays : x.state ≠ .evicting) (misfit : fitsSeq x c = false) :
    exec (.skimRefresh c) s = .next (complete s c { status := .refusedFit }) := by
  show execSkimRefresh c s = _
  rw [execSkimRefresh, whenReady_turn turn]
  simp only [body]
  rw [withActive_refused there stays (r := { status := .refusedFit }) (by simp [unfit, misfit])]

theorem exec_skimRefresh_starts (turn : Turn s c) (body : c.desc.body = .skimRefresh tb start limit)
    (there : seqOf s c.desc.seq.id = some x) (fit : fitsSeq x c = true) (active : x.state = .active)
    (new : s.exec.refreshes.find? (fun j => j.key == cmdKey c) = none) {es : List (Nat × Nat × Nat)} {u : State} {j : RefreshJob}
    (range : es = rangePages s x (localTensors x tb) start limit)
    (cleared : u = foldState (fun s e =>
      requestStage (setSideFlag s e.2.2 3 false) e.2.2 .hint (some c.desc.seq.id) e.1 e.2.1) s es)
    (job : j = ⟨cmdKey c, (es.map fun e => e.2.2).eraseDups, s.exec.plans.map fun p => p.key⟩) :
    exec (.skimRefresh c) s =
      .next (refreshStep { u with exec := { u.exec with refreshes := u.exec.refreshes ++ [j] } } j) := by
  subst job cleared range
  show execSkimRefresh c s = _
  rw [execSkimRefresh, whenReady_turn turn]
  simp only [body]
  rw [withActive_active there (by simp [unfit, fit]) active]
  simp only [new]

end

/-- Settles O42: TRIM by its parts, EVICT by `evict_gives`, HINT by its kinds, and the start of a SKIM_REFRESH. -/
theorem sequenceCommands : Obligations.SequenceCommands := by
  intro s c turn
  refine ⟨fun tb start limit errs x body there stays => ⟨fun r => exec_trim_refused turn body there stays,
      fun fits active ps cuts lower parts cut low => ?trim⟩,
    fun body => ⟨exec_evict_absent turn body, evict_gives turn body⟩,
    fun tb kind start limit body => ⟨exec_hint_absent turn body, fun x there => ?hint⟩,
    fun tb start limit x body there stays => ⟨exec_skimRefresh_unfit turn body there stays,
      fun es u j fit active new => exec_skimRefresh_starts turn body there fit active new⟩⟩
  case trim =>
    have run := exec_trim_parts (errs := errs) turn body there fits active parts
    subst cut low
    rw [run]
    refine ⟨fun flux => by rw [trimParts_flux flux], fun still => ⟨fun low => by rw [trimParts_stages still low]; rfl,
      fun high ready => ⟨fun full => by rw [trimParts_noPage still high ready full],
        fun room bad v checked => ⟨fun fails => by rw [trimParts_poison still high ready room checked fails],
          fun u passes done => by rw [trimParts_done still high ready room checked passes done]⟩⟩⟩⟩
  case hint =>
    refine ⟨fun other => ?_, fun active none => ?_, fun active adds => ?_, fun active fetch => ?_⟩
    · rw [exec_hint_there turn body there, if_neg other]
    · subst none
      rw [exec_hint_active turn body there active, applyHint_removes]
    · rw [exec_hint_active turn body there active, applyHint_adds _ adds]
    · subst fetch
      rw [exec_hint_active turn body there active, applyHint_prefetches]

/-! ### Reads of frames by handle (R60, R203, R206, R233, R307) -/

/-- An access to the place of one frame's bytes, in a channel that computes. -/
theorem whenMemory_frame_held {s : State} {lpn : Nat} {w : HoldWork} {words : Nat} {f : Unit → State}
    (clock : frameWaits s lpn = false) (held : frameHeld s lpn = true) :
    whenMemory s [homeOf s lpn] w words f = holdAt s (homeOf s lpn) w words := whenMemory_held clock held

/-- An access to the place of one frame's bytes, in a channel in memory mode. -/
theorem whenMemory_frame_runs {s : State} {lpn : Nat} {w : HoldWork} {words : Nat} {f : Unit → State}
    (clock : frameWaits s lpn = false) (free : frameHeld s lpn = false) : whenMemory s [homeOf s lpn] w words f = f () :=
  whenMemory_runs (List.forall_mem_singleton.2 clock) (List.forall_mem_singleton.2 free)

section
variable {s v w : State} {c : Command} {lpn offset length : Nat} {errs : List WordErr} {crcBad bad wrong inj : Bool}
  (words : checkWords s 1 lpn errs = (bad, v))
include words

theorem readHbm_poison (fails : bad = true) : readHbm s c lpn offset length errs crcBad = complete v c { status := .poison } := by
  simp [readHbm, words, fails]

/-- A read of a part of an image checks its words alone. -/
theorem readHbm_part (passes : bad = false) (part : offset ≠ 0 ∨ length ≠ imageBytes) :
    readHbm s c lpn offset length errs crcBad = complete v c { status := .ok, data := imgBytes v lpn offset length } := by
  have cut : (offset == 0 && length == imageBytes) = false := by
    simpa only [Bool.and_eq_false_iff, beq_eq_false_iff_ne] using part
  simp [readHbm, words, passes, cut]

/-- A read of a whole image checks the CRC too. -/
theorem readHbm_whole (passes : bad = false) (first : offset = 0) (all : length = imageBytes)
    (crc : checkFails v 3 (frameChan s lpn) (crcBad || crcWrong v lpn) = (wrong, inj, w)) :
    readHbm s c lpn offset length errs crcBad = if wrong then complete (poisonFrame w lpn) c { status := .poison }
      else complete w c { status := .ok, data := imgBytes w lpn offset length } := by
  subst first all
  simp only [readHbm, words, passes, crc]
  cases wrong <;> rfl

end

section
variable {s : State} {c : Command} {h : PageHandle} {offset length deadline : Nat} {errs : List WordErr} {crcBad : Bool}
  (turn : Turn s c) (body : c.desc.body = .frameRead h offset length deadline)
include turn body

theorem exec_frameRead_delivers {w : ReadWait} (reading : s.exec.reads.find? (fun r => r.key == cmdKey c) = some w)
    (ready : w.ready = true) : exec (.frameRead c errs crcBad) s =
      .next (complete (endRead s w) c (if w.bad || (frameOf s w.lpn).poison then { status := .poison }
        else { status := .ok, data := memReadN 0 w.image offset length })) := by
  show execFrameRead c errs crcBad s = _
  rw [execFrameRead, whenReady_turn turn]
  rw [apply_ite (complete (endRead s w) c)]
  simp [body, reading, ready]

variable (new : s.exec.reads.find? (fun r => r.key == cmdKey c) = none)
include new

theorem exec_frameRead_refused {r : Reply} (refused : judgeHandle s c = some r) :
    exec (.frameRead c errs crcBad) s = .next (complete s c r) := by
  show execFrameRead c errs crcBad s = _
  rw [execFrameRead, whenReady_turn turn]
  simp only [body, new, refused]

variable (fits : judgeHandle s c = none) (still : (frameOf s h.lpn).inFlux = false) (clock : frameWaits s h.lpn = false)
include fits still clock

theorem exec_frameRead_pinned (full : 65535 ≤ (frameOf s h.lpn).pins) :
    exec (.frameRead c errs crcBad) s = .next (complete s c { status := .busyRetry }) := by
  show execFrameRead c errs crcBad s = _
  rw [execFrameRead, whenReady_turn turn]
  simp [body, new, fits, still, clock, full]

variable (room : (frameOf s h.lpn).pins < 65535)
include room

theorem exec_frameRead_poison (bad : (frameOf s h.lpn).poison = true) :
    exec (.frameRead c errs crcBad) s = .next (complete s c { status := .poison }) := by
  show execFrameRead c errs crcBad s = _
  rw [execFrameRead, whenReady_turn turn]
  simp [body, new, fits, still, clock, room.not_ge, bad]

variable (good : (frameOf s h.lpn).poison = false)
include good

/-- A read of a frame with a slot is an access in memory mode. -/
theorem exec_frameRead_slot (slot : slotOf (frameOf s h.lpn) ≠ .none) : exec (.frameRead c errs crcBad) s =
    .next (whenMemory s [homeOf s h.lpn] (.command (cmdKey c)) (ceilDiv length 32) fun _ =>
      readHbm s c h.lpn offset length errs crcBad) := by
  show execFrameRead c errs crcBad s = _
  rw [execFrameRead, whenReady_turn turn]
  simp [body, new, fits, still, clock, room.not_ge, good, slot]

theorem exec_frameRead_held (slot : slotOf (frameOf s h.lpn) ≠ .none) (held : frameHeld s h.lpn = true) :
    exec (.frameRead c errs crcBad) s = .next (holdAt s (homeOf s h.lpn) (.command (cmdKey c)) (ceilDiv length 32)) := by
  rw [exec_frameRead_slot turn body new fits still clock room good slot, whenMemory_frame_held clock held]

theorem exec_frameRead_reads (slot : slotOf (frameOf s h.lpn) ≠ .none) (free : frameHeld s h.lpn = false) :
    exec (.frameRead c errs crcBad) s = .next (readHbm s c h.lpn offset length errs crcBad) := by
  rw [exec_frameRead_slot turn body new fits still clock room good slot, whenMemory_frame_runs clock free]

/-- A read of a frame in a lower tier only pins it and is decoded without staging (R233). -/
theorem exec_frameRead_decodes (low : slotOf (frameOf s h.lpn) = .none) {u : State}
    (pinned : u = modFrame s h.lpn (fun f => { f with pins := f.pins + 1 })) : exec (.frameRead c errs crcBad) s =
      .next (codecSubmit { u with exec := { u.exec with
        reads := u.exec.reads ++ [{ key := cmdKey c, lpn := h.lpn, deadline := deadline }] } } false h.lpn (readCluster s c.die)
        none (some (cmdKey c))).2 := by
  subst pinned
  show execFrameRead c errs crcBad s = _
  rw [execFrameRead, whenReady_turn turn]
  simp [body, new, fits, still, clock, room.not_ge, good, low]

end

/-- A read whose data has not passed its checks in time is late (R233). -/
theorem exec_frameReadDeadline {s : State} {k : CmdKey} {w : ReadWait} {l : Live} (on : s.running = true)
    (reading : s.exec.reads.find? (fun r => r.key == k) = some w) (live : liveOf s k = some l) (waits : w.ready = false)
    (bounded : w.deadline ≠ 0) (late : l.since + w.deadline ≤ now s) :
    exec (.frameReadDeadline k) s = .next (complete (endRead s w) l.cmd { status := .tierLate }) := by
  show execFrameReadDeadline k s = _
  rw [execFrameReadDeadline, whileRunning_on on]
  simp [reading, live, waits, bounded, elapsed, late]

/-! ### Writes of frames by handle (R225, R308) -/

section
variable {s : State} {c : Command} {layer head offset length pos : Nat} {h : PageHandle} {x : Seq}
  (turn : Turn s c) (body : c.desc.body = .frameWrite layer head h offset length pos)
  (there : seqOf s c.desc.seq.id = some x)
include turn body there

theorem exec_frameWrite_refused (stays : x.state ≠ .evicting) {r : Reply}
    (refused : frameWriteRefusal s c layer head offset pos x = some r) :
    exec (.frameWrite c) s = .next (complete s c r) := by
  show execFrameWrite c s = _
  rw [execFrameWrite, whenReady_turn turn]
  simp only [body]
  rw [withActive_refused there stays refused]

variable (fits : frameWriteRefusal s c layer head offset pos x = none) (active : x.state = .active) {k slot : Nat} {g : PageHandle}
  (hit : walk s x layer head pos = .hit k slot g) (still : (frameOf s g.lpn).inFlux = false)
include fits active hit still

theorem exec_frameWrite_stages (low : 2 ≤ (frameOf s g.lpn).tier) (unstaged : (frameOf s g.lpn).staged = false) :
    exec (.frameWrite c) s = .next (complete (requestStage s g.lpn .write (some c.desc.seq.id) ((tensorIdx x layer head).getD 0) k)
      c { status := .busyRetry }) := by
  show execFrameWrite c s = _
  rw [execFrameWrite, whenReady_turn turn]
  simp only [body]
  rw [withActive_active there fits active]
  simp [hit, still, low, unstaged]

variable (copy : (frameOf s g.lpn).tier < 2 ∨ (frameOf s g.lpn).staged = true)
include copy

/-- A write of a frame with a slot is an access in memory mode. -/
theorem exec_frameWrite_slot : exec (.frameWrite c) s = .next
    (whenMemory s [homeOf s g.lpn] (.command (cmdKey c)) (ceilDiv c.payload.length 32) fun _ =>
      finish (writeFrame s g.lpn offset c.payload) c x.handle.repl { status := .ok }) := by
  have slotted : (decide (2 ≤ (frameOf s g.lpn).tier) && !(frameOf s g.lpn).staged) = false := by
    rcases copy with high | staged
    · simp [high.not_ge]
    · simp [staged]
  show execFrameWrite c s = _
  rw [execFrameWrite, whenReady_turn turn]
  simp only [body]
  rw [withActive_active there fits active]
  simp [hit, still, slotted]

end

/-! ### The commit of a frame (R204, R205) -/

theorem exec_frameCommit {s : State} {lpn : Nat} {bad differs : Bool} (on : s.running = true) (flux : (frameOf s lpn).inFlux = true)
    (clock : frameWaits s lpn = false) : exec (.frameCommit lpn bad differs) s = .next (commitChecked s lpn bad differs) := by
  show execFrameCommit lpn bad differs s = _
  rw [execFrameCommit, whileRunning_on on]
  simp [flux, clock]

/-- Settles O43: the reads and the writes by handle and the commit, each by its rules above. -/
theorem frameCommands : Obligations.FrameCommands := by
  refine ⟨fun s c h offset length deadline errs crcBad turn body => ⟨fun new =>
      ⟨fun r => exec_frameRead_refused turn body new, fun fits still clock => ⟨exec_frameRead_pinned turn body new fits still clock,
        exec_frameRead_poison turn body new fits still clock, fun room good => ⟨
          exec_frameRead_held turn body new fits still clock room good, fun slot free bad v words => ?reads,
          fun low u => exec_frameRead_decodes turn body new fits still clock room good low⟩⟩⟩,
      fun w => exec_frameRead_delivers turn body⟩,
    fun s k w l => exec_frameReadDeadline,
    fun s c layer head h offset length pos x turn body there stays => ⟨fun r => exec_frameWrite_refused turn body there stays,
      fun fits active k slot g hit still => ⟨exec_frameWrite_stages turn body there fits active hit still,
        fun copy clock => ?writes⟩⟩,
    fun s lpn bad differs on flux clock => ?commits, fun s t lpn bad committed => ?committed⟩
  case reads =>
    rw [exec_frameRead_reads turn body new fits still clock room good slot free]
    exact ⟨fun fails => by rw [readHbm_poison words fails], fun passes part => by rw [readHbm_part words passes part],
      fun passes first all wrong inj w crc => by rw [readHbm_whole words passes first all crc]⟩
  case writes =>
    rw [exec_frameWrite_slot turn body there fits active hit still copy]
    exact ⟨fun held => by rw [whenMemory_frame_held clock held], fun free => by rw [whenMemory_frame_runs clock free]⟩
  case commits =>
    rw [exec_frameCommit on flux clock]
    exact ⟨fun off => by rw [commitChecked_unverified off], fun verify wrong inj u e => by rw [commitChecked_verified verify bad e]⟩
  case committed =>
    subst committed
    refine ⟨?_, ?_, ?_, ?_, fun n other => ?_, commitFrame_seqs s lpn bad⟩
    · rw [commitFrame_frameOf, if_pos rfl]
    · rw [commitFrame_frameOf, if_pos rfl]
    · rw [commitFrame_frameOf, if_pos rfl]
    · rw [commitFrame_frameOf, if_pos rfl]
    · rw [commitFrame_frameOf, if_neg other]

/-! ### Attention commands at their turn (R68, R84, R94, R107, R137, R181) -/

/-- `i` is the row of the attention command `c`. -/
def AttnRow (c : Command) (i : Instr) : Prop :=
  (i = .attnFwd c ∧ ∃ a : AttnDesc, c.desc.body = .attnFwd a) ∨
    (i = .attnBwd c ∧ ∃ (a : AttnDesc) (d step : Nat), c.desc.body = .attnBwd a d step)

/-- The frames of a backward command whose pages lack gradient frames. -/
def gradNeed (s : State) (c : Command) (x : Seq) : List (Nat × Nat × Nat) :=
  ((attnPlan s c x).pins.filter fun n => (gradEntry s c.desc.seq.id n.tensor n.page).isNone).map fun n => (n.tensor, n.page, n.lpn)

section
variable {s u : State} {c : Command} {x : Seq} {i : Instr}

/-- An attention command that is not planned yet starts at its turn. -/
theorem AttnRow.exec_starts (row : AttnRow c i) (turn : Turn s c) (new : planFor s (cmdKey c) = none) :
    exec i s = .next (attnStart s c) := by
  rcases row with ⟨rfl, a, body⟩ | ⟨rfl, a, d, step, body⟩
  · show execAttnFwd c s = _
    rw [execAttnFwd, whenReady_turn turn]
    simp [body, new]
  · show execAttnBwd c s = _
    rw [execAttnBwd, whenReady_turn turn]
    simp [body, new]

theorem pins_not_full (room : ∀ n ∈ (attnPlan s c x).pins, (frameOf s n.lpn).pins < 65535) :
    ((attnPlan s c x).pins.any fun n => decide (65535 ≤ (frameOf s n.lpn).pins)) = false := by
  simpa using room

theorem attnStart_absent (gone : seqOf s c.desc.seq.id = none) : attnStart s c = complete s c { status := .noState } :=
  withActive_absent gone

theorem attnStart_evicting (there : seqOf s c.desc.seq.id = some x) (leaves : x.state = .evicting) :
    attnStart s c = complete s c { status := .noState } := withActive_evicting there leaves

variable (there : seqOf s c.desc.seq.id = some x)
include there

theorem attnStart_refused (stays : x.state ≠ .evicting) {r : Reply} (refused : attnRefusal s c x = some r) :
    attnStart s c = complete s c r := withActive_refused there stays refused

variable (fits : attnRefusal s c x = none)
include fits

theorem attnStart_busy (busy : x.state = .parking ∨ x.state = .waking) :
    attnStart s c = complete s c { status := .busyRetry } := withActive_busy there fits busy

theorem attnStart_parked (parked : x.state = .parked) : attnStart s c =
    if c.chainedFrom = none ∧ roleOf s c.desc = .owner then startWake (complete s c { status := .busyRetry }) c.desc.seq.id []
    else complete s c { status := .busyRetry } := withActive_parked there fits parked

variable (active : x.state = .active)
include active

theorem attnStart_pinned (full : ∃ n ∈ (attnPlan s c x).pins, 65535 ≤ (frameOf s n.lpn).pins) :
    attnStart s c = complete s c { status := .busyRetry } := by
  rw [attnStart, withActive_active there fits active]
  simp [full]

variable (room : ∀ n ∈ (attnPlan s c x).pins, (frameOf s n.lpn).pins < 65535)
include room

theorem attnStart_fwd {a : AttnDesc} (body : c.desc.body = .attnFwd a) : attnStart s c = installPlan s (attnPlan s c x) := by
  rw [attnStart, withActive_active there fits active]
  simp [pins_not_full room, body]

variable {a : AttnDesc} {d step : Nat} (body : c.desc.body = .attnBwd a d step)
include body

theorem attnStart_bwd_noPage (full : gradAllocAll c.desc.seq.id x step (gradNeed s c x) s = none) :
    attnStart s c = complete s c { status := .noPage } := by
  rw [gradNeed] at full
  rw [attnStart, withActive_active there fits active]
  simp [pins_not_full room, body, full]

theorem attnStart_bwd (taken : gradAllocAll c.desc.seq.id x step (gradNeed s c x) s = some u) :
    attnStart s c = installPlan u (attnPlan s c x) := by
  rw [gradNeed] at taken
  rw [attnStart, withActive_active there fits active]
  simp [pins_not_full room, body, taken]

end

/-- A plan has one group and its pins for each KV head that the command names (R137). -/
theorem attnPlan_heads (s : State) (c : Command) (x : Seq) :
    (attnPlan s c x).groups.length = (attnOf c.desc.body).headCount ∧
      (attnPlan s c x).pins = (List.range (attnOf c.desc.body).headCount).flatMap fun h =>
        (planHead s x c h ((attnTensors x (attnOf c.desc.body)).getD h 0)).2 :=
  ⟨by simp [attnPlan], by simp [attnPlan, List.flatMap_map]⟩

/-- The turn of the plan stage (R141, R358): the first command in turn that has a step makes its steps. -/
theorem exec_planVisits {s u v : State} {die : Fin 2} {k : CmdKey} (on : s.running = true)
    (first : u = if (admOf s die.val).held = true ∧ planFull s die.val = false then admitStep s die.val else s)
    (next : u.exec.planTurn.find? (fun k => (planFor u k).any fun p => p.die == die.val && (planOne u k).isSome) = some k)
    (steps : v = planMany die.val k 8192 u) : exec (.planVisits die) s =
      .next (noteFull (planCheck { v with exec := { v.exec with
        planTurn := v.exec.planTurn.filter (· != k) ++ (if v.exec.planTurn.contains k then [k] else []) } } k) die.val) := by
  have due : (if (admOf s die.val).held && !planFull s die.val then admitStep s die.val else s) = u := by simpa using first.symm
  show execPlanVisits die s = _
  rw [execPlanVisits, whileRunning_on on]
  simp only [due, planTurnOf, next, steps]

/-- Settles O47: an attention command at its turn by the rules of `attnStart` above, what its plan holds, and the plan stage's turn. -/
theorem attentionCommands : Obligations.AttentionCommands := by
  refine ⟨fun s c i turn new row => ?_,
    fun s c x a named => by subst named; exact ⟨(attnPlan_heads s c x).1, rfl, (attnPlan_heads s c x).2⟩,
    fun s u v die k => exec_planVisits⟩
  rw [AttnRow.exec_starts row turn new]
  refine ⟨fun gone => by rw [attnStart_absent gone], fun x there => ⟨fun leaves => by rw [attnStart_evicting there leaves],
    fun stays r refused => by rw [attnStart_refused there stays refused], fun stays fits =>
      ⟨fun busy => ?busy, fun parked t done => ?parked,
      fun active p plan => ⟨fun full => ?full, fun room => ⟨fun a body => ?fwd, fun a d step need body lacks => ?bwd⟩⟩⟩⟩⟩
  case busy => rw [attnStart_busy there fits busy]
  case parked =>
    subst done
    rw [attnStart_parked there fits parked]
  case full =>
    subst plan
    rw [attnStart_pinned there fits active full]
  case fwd =>
    subst plan
    rw [attnStart_fwd there fits active room body]
  case bwd =>
    subst plan lacks
    exact ⟨fun full => by rw [attnStart_bwd_noPage there fits active room body full],
      fun u taken => by rw [attnStart_bwd there fits active room body taken]⟩

/-! ### A PARK in progress (R85, R261) -/

/-- What a PARK in progress keeps of its start. -/
def ParkJob.origin (j : ParkJob) : SeqId × Nat × Option Nat := (j.seq, j.since, j.partner)

/-- `b` has the frames and slots of `a`, the PARKs that were in progress, and the sequence `q`, but that its PARK_REF and the size
of its object may have been set. -/
structure Parking (q : SeqId) (a b : State) : Prop where
  frames : b.mem.frames = a.mem.frames
  slots : b.mem.slots = a.mem.slots
  parks : b.mem.parks.map ParkJob.origin = a.mem.parks.map ParkJob.origin
  own : ∀ x : Seq, seqOf a q = some x → ∃ y : Seq, seqOf b q = some y ∧ y = { x with parkRef := y.parkRef, objSize := y.objSize }

theorem Parking.of_bare {q : SeqId} {a b : State} (same : b.mem.bare = a.mem.bare) : Parking q a b where
  frames := by
    change b.mem.bare.frames = a.mem.bare.frames
    rw [same]
  slots := by
    change b.mem.bare.slots = a.mem.bare.slots
    rw [same]
  parks := by
    change b.mem.bare.parks.map _ = a.mem.bare.parks.map _
    rw [same]
  own x there := ⟨x, (seqOf_of_work (work_of_bare same) q).trans there, rfl⟩

theorem Parking.refl (q : SeqId) (s : State) : Parking q s s := .of_bare rfl

theorem Parking.trans {q : SeqId} {a b c : State} (first : Parking q a b) (then_ : Parking q b c) : Parking q a c where
  frames := then_.frames.trans first.frames
  slots := then_.slots.trans first.slots
  parks := then_.parks.trans first.parks
  own x there := by
    obtain ⟨y, mid, same⟩ := first.own x there
    obtain ⟨z, last, same'⟩ := then_.own y mid
    exact ⟨z, last, by rw [same', same]⟩

theorem modPark_parking {q : SeqId} {f : ParkJob → ParkJob} (s : State) (r : SeqId)
    (keeps : ∀ j, (f j).origin = j.origin := by intro _; rfl) : Parking q s (modPark s r f) where
  frames := rfl
  slots := rfl
  parks := by
    rw [modPark, List.map_map]
    refine List.map_congr_left fun j _ => ?_
    rw [Function.comp_apply]
    split
    · exact keeps j
    · rfl
  own x there := ⟨x, there, rfl⟩

theorem modSeq_parking {q : SeqId} {f : Seq → Seq} (s : State)
    (keeps : ∀ x, f x = { x with parkRef := (f x).parkRef, objSize := (f x).objSize } := by intro _; rfl) :
    Parking q s (modSeq s q f) where
  frames := by unfold modSeq; split <;> rfl
  slots := by unfold modSeq; split <;> rfl
  parks := by unfold modSeq; split <;> rfl
  own x there := ⟨f x, by rw [seqOf_modSeq, if_pos rfl, there, Option.map_some], keeps x⟩

theorem writeObject_bare (s : State) (p partner : Nat) (o : Parked) (why : IoWhy) :
    (writeObject s p partner o why).2.mem.bare = s.mem.bare := rfl

theorem parkWriteAt_parking (s : State) (q : SeqId) (partner : Nat) (o : Parked) (p : Nat) :
    Parking q s (parkWriteAt s q partner o p) := by
  refine (Parking.of_bare (writeObject_bare s p partner o (.parkWrite q))).trans
    ((modPark_parking _ q).trans (modSeq_parking _))

theorem parkLocal_parking (s : State) (q : SeqId) : Parking q s (parkLocal s q) := by
  dsimp only [parkLocal]
  split
  · split
    · exact .refl q s
    · exact parkWriteAt_parking s q _ _ _
  · exact .refl q s

/-- A PARK with a partner sends it the object. -/
theorem parkRemote_sends {s : State} {q : SeqId} {j : ParkJob} {x : Seq} {n : Nat}
    (job : (s.mem.parks.find? fun j => j.seq == q) = some j) (there : seqOf s q = some x) (partner : j.partner = some n) :
    ∃ (reqs : List Nat) (u : State), u.mem.bare = s.mem.bare ∧ parkRemote s q = modPark u q fun i => { i with reqs := reqs } := by
  rcases sent : sendGuest s n q (objectBytes (objectOf q 0 x j.frames)) with ⟨reqs, u⟩
  refine ⟨reqs, u, ?_, by simp only [parkRemote, job, there, partner, sent]⟩
  rw [← sendGuest_bare s n q (objectBytes (objectOf q 0 x j.frames)), sent]

theorem parkRemote_parking (s : State) (q : SeqId) : Parking q s (parkRemote s q) := by
  cases job : s.mem.parks.find? fun j => j.seq == q with
  | none => simp only [parkRemote, job]; exact .refl q s
  | some j => cases there : seqOf s q with
    | none => simp only [parkRemote, job, there]; exact .refl q s
    | some x => cases partner : j.partner with
      | none => simp only [parkRemote, job, there, partner]; exact .refl q s
      | some n =>
        obtain ⟨reqs, u, same, e⟩ := parkRemote_sends job there partner
        rw [e]
        exact (Parking.of_bare same).trans (modPark_parking u q)

/-- The encoded frames of a PARK in the order of its pages. -/
def parkedFrames (s : State) (x : Seq) (j : ParkJob) : List ObjFrame :=
  (allPages s x).filterMap fun e => j.frames.find? fun f => f.tensor == e.1 && f.page == e.2.1

/-- Once every frame of a PARK is encoded, both copies are written. -/
theorem parkBuilt_writes {s : State} {q : SeqId} {j : ParkJob} {x : Seq} (job : (s.mem.parks.find? fun j => j.seq == q) = some j)
    (there : seqOf s q = some x) (built : (j.sent || !j.todo.isEmpty) = false) : parkBuilt s q =
      parkRemote (parkLocal (modSeq (modPark s q fun i => { i with frames := parkedFrames s x j, sent := true }) q fun y =>
        { y with objSize := objectSize (objectOf q 0 x (parkedFrames s x j)) }) q) q := by
  simp only [parkBuilt, job, there, built]
  rfl

theorem parkBuilt_parking (s : State) (q : SeqId) : Parking q s (parkBuilt s q) := by
  cases job : s.mem.parks.find? fun j => j.seq == q with
  | none => simp only [parkBuilt, job]; exact .refl q s
  | some j => cases there : seqOf s q with
    | none => simp only [parkBuilt, job, there]; exact .refl q s
    | some x => cases built : j.sent || !j.todo.isEmpty with
      | true => simp only [parkBuilt, job, there, built]; exact .refl q s
      | false =>
        rw [parkBuilt_writes job there built]
        refine Parking.trans ?_ (parkRemote_parking _ q)
        refine Parking.trans ?_ (parkLocal_parking _ q)
        exact (modPark_parking s q).trans (modSeq_parking _)

theorem parkSubmit_parking (q : SeqId) (s : State) (e : Nat × Nat × PageHandle) : Parking q s (parkSubmit q s e) :=
  .of_bare (codecQueue_bare s _ _)

/-- A PARK that starts leaves its sequence PARKING, is in progress with its start and partner, and changes no frame (R85, R261). -/
theorem startPark_parks {s : State} {q : SeqId} {x : Seq} (there : seqOf s q = some x) (keys : List CmdKey) (preempt : Bool) :
    (∃ y : Seq, seqOf (startPark s q keys preempt) q = some y ∧
      y = { x with state := .parking, parkRef := y.parkRef, objSize := y.objSize }) ∧
    (∃ j ∈ (startPark s q keys preempt).mem.parks, j.seq = q ∧ j.since = now s ∧ j.partner = partnerOf s) ∧
    (startPark s q keys preempt).mem.frames = s.mem.frames ∧ (startPark s q keys preempt).mem.slots = s.mem.slots := by
  have runs : ∃ u : State, startPark s q keys preempt = u ∧ Parking q (setSeq { s with mem := { s.mem with parks := s.mem.parks ++
      [{ seq := q, keys := keys, since := now s, port := 0, object := 0, partner := partnerOf s, preempt := preempt,
         todo := (allPages s x).map fun e => (e.1, e.2.1) }] } } q { x with state := .parking, parkRef := none }) u := by
    refine ⟨_, rfl, ?_⟩
    simp only [startPark, there]
    exact (foldState_relates (R := Parking q) (Parking.refl q) Parking.trans (parkSubmit_parking q) _ _).trans
      (parkBuilt_parking _ q)
  obtain ⟨u, e, frames, slots, parks, own⟩ := runs
  rw [e]
  refine ⟨?_, ?_, frames, slots⟩
  · obtain ⟨y, last, same⟩ := own _ (by rw [seqOf_setSeq, if_pos rfl])
    exact ⟨y, last, same⟩
  · have listed : ((q, now s, partnerOf s) : SeqId × Nat × Option Nat) ∈ u.mem.parks.map ParkJob.origin := by
      rw [parks]
      simp [setSeq, ParkJob.origin]
    obtain ⟨j, mem, origin⟩ := List.mem_map.1 listed
    simp only [ParkJob.origin, Prod.mk.injEq] at origin
    exact ⟨j, mem, origin⟩

/-! ### PARK (R84, R85, R261, R262, R334) -/

section
variable {s : State} {q : SeqId} {c : Command} {x : Seq} (turn : Turn s c) (named : c.desc.seq.id = q) (body : c.desc.body = .park)
include turn named body

theorem exec_park_absent (gone : seqOf s q = none) : exec (.park c) s = .next (complete s c { status := .noState }) := by
  subst named
  show execPark c s = _
  rw [execPark, whenReady_turn turn]
  simp only [body, gone]

variable (there : seqOf s q = some x)
include there

theorem exec_park_evicting (state : x.state = .evicting) : exec (.park c) s = .next (complete s c { status := .noState }) := by
  subst named
  show execPark c s = _
  rw [execPark, whenReady_turn turn]
  simp [body, there, state]

theorem exec_park_parked (state : x.state = .parked) : exec (.park c) s = .next (complete s c { status := .ok }) := by
  subst named
  show execPark c s = _
  rw [execPark, whenReady_turn turn]
  simp [body, there, state]

theorem exec_park_waking (state : x.state = .waking) : exec (.park c) s = .next (complete s c { status := .busyRetry }) := by
  subst named
  show execPark c s = _
  rw [execPark, whenReady_turn turn]
  simp [body, there, state]

/-- A PARK of a sequence that is PARKING joins the one in progress. -/
theorem exec_park_parking (state : x.state = .parking) : exec (.park c) s = .next
    (resumePark { s with mem := { s.mem with parks := s.mem.parks.map (joinPark q (cmdKey c)) } } q) := by
  subst named
  show execPark c s = _
  rw [execPark, whenReady_turn turn]
  simp [body, there, state]

theorem exec_park_replica (active : x.state = .active) (chained : c.chainedFrom.isSome = true) :
    exec (.park c) s = .next (parkReplica s c x) := by
  subst named
  show execPark c s = _
  rw [execPark, whenReady_turn turn]
  simp [body, there, active, chained]

/-- A PARK of an ACTIVE sequence at its owner starts while a port can be written. -/
theorem exec_park_active (active : x.state = .active) (source : c.chainedFrom = none) : exec (.park c) s =
    .next (if canWrite s 0 || canWrite s 1 then startPark s q [cmdKey c] false else complete s c { status := .lifeEnd }) := by
  subst named
  show execPark c s = _
  rw [execPark, whenReady_turn turn]
  simp [body, there, active, source]

theorem park_starts (active : x.state = .active) (source : c.chainedFrom = none)
    (port : canWrite s 0 = true ∨ canWrite s 1 = true) : Gives (.park c) s fun t => t = startPark s q [cmdKey c] false ∧
      (∃ y : Seq, seqOf t q = some y ∧ y = { x with state := .parking, parkRef := y.parkRef, objSize := y.objSize }) ∧
      (∃ j ∈ t.mem.parks, j.seq = q ∧ j.since = now s ∧ j.partner = partnerOf s) ∧
      t.mem.frames = s.mem.frames ∧ t.mem.slots = s.mem.slots := by
  refine ⟨_, exec_park_active turn named body there active source, ?_⟩
  rw [if_pos (by simpa using port)]
  exact ⟨rfl, startPark_parks there _ _⟩

end

@[simp] theorem joinPark_seq (q : SeqId) (k : CmdKey) (j : ParkJob) : (joinPark q k j).seq = j.seq := by
  unfold joinPark; split <;> rfl

@[simp] theorem joinPark_halted (q : SeqId) (k : CmdKey) (j : ParkJob) : (joinPark q k j).halted = j.halted := by
  unfold joinPark; split <;> rfl

/-- A PARK that no soft reset has stopped goes on as it is. -/
theorem resumePark_running {s : State} {q : SeqId} (runs : ∀ j ∈ s.mem.parks, j.seq = q → j.halted = false) : resumePark s q = s := by
  have none_halted : s.mem.parks.find? (fun j => j.seq == q && j.halted) = none :=
    List.find?_eq_none.2 fun j mem => by
      by_cases own : j.seq = q
      · simp [runs j mem own]
      · simp [own]
  simp only [resumePark, none_halted]

@[simp] theorem parkAnswers_mem (s : State) (j : ParkJob) : (parkAnswers s j).mem = s.mem := by
  unfold parkAnswers; split <;> rfl

@[simp] theorem modSeq_parks (s : State) (q : SeqId) (f : Seq → Seq) : (modSeq s q f).mem.parks = s.mem.parks := by
  unfold modSeq; split <;> rfl

/-- Stopping the PARK of a sequence and releasing its objects takes the PARK away and leaves the sequences. -/
theorem stopped_parks (s : State) (q : SeqId) (partnered : Bool) (r : Option ParkRef) :
    (releaseObjects (stopJobs s q) q partnered r).mem.parks = s.mem.parks.filter fun j => j.seq != q := by
  change (releaseObjects (stopJobs s q) q partnered r).mem.bare.parks = _
  rw [releaseObjects_bare, stopJobs_bare]

theorem stopped_seqOf (s : State) (q : SeqId) (partnered : Bool) (r : Option ParkRef) :
    seqOf (releaseObjects (stopJobs s q) q partnered r) q = seqOf s q := by
  rw [seqOf_bare, releaseObjects_bare, ← seqOf_bare, stopJobs_seqOf]

section
variable {s : State} {q : SeqId} {x : Seq} {j : ParkJob} (on : s.running = true) (there : seqOf s q = some x)
  (job : s.mem.parks.find? (fun j => j.seq == q) = some j)
include on there job

/-- With both copies complete the sequence is PARKED, and the PARK has ended (R85, R256). -/
theorem parkCopiesDone_gives (complete_ : parkComplete s j = true) : Gives (.parkCopiesDone q) s fun t =>
    (∃ y : Seq, seqOf t q = some y ∧ y.state = .parked ∧ y.leafPtr = [] ∧ y.parkRef = x.parkRef ∧
      ∀ e ∈ y.tensors, e.2.reserve = none) ∧ ∀ j ∈ t.mem.parks, j.seq ≠ q := by
  obtain ⟨u, tensors, e⟩ := releaseContent_eq ((seqOf_congr (parkAnswers_mem s j) q).trans there)
  obtain ⟨ts, kept⟩ := tensors.own x ((seqOf_congr (parkAnswers_mem s j) q).trans there)
  have run : exec (.parkCopiesDone q) s = execParkCopiesDone q s := rfl
  rw [execParkCopiesDone, whileRunning_on on] at run
  simp only [job, complete_, if_true] at run
  refine ⟨_, run, ⟨{ emptied { x with tensors := ts } with state := .parked }, ?seq, rfl, rfl, rfl, fun e mem => ?reserves⟩,
    fun i mem => ?parks⟩
  case seq =>
    rw [seqOf_congr (finishKeys_mem _ _ _)]
    change seqOf (modSeq (releaseContent (parkAnswers s j) q) q fun x => { x with state := .parked }) q = _
    rw [seqOf_modSeq, if_pos rfl, e, seqOf_modSeq, if_pos rfl, kept]
    rfl
  case reserves =>
    obtain ⟨i, _, rfl⟩ := List.mem_map.1 mem
    rfl
  case parks =>
    rw [finishKeys_mem] at mem
    simpa using (List.mem_filter.1 mem).2

/-- Without both copies in COPY_TIMEOUT the sequence is ACTIVE again with no PARK_REF (R262). -/
theorem parkCopyTimeout_gives (partial_ : parkComplete s j = false) (runs : j.halted = false)
    (late : j.since + pCopyTimeout s ≤ now s) : Gives (.parkCopyTimeout q) s fun t =>
      seqOf t q = some { x with state := .active, parkRef := none, objSize := 0 } ∧ ∀ j ∈ t.mem.parks, j.seq ≠ q := by
  have run : exec (.parkCopyTimeout q) s = execParkCopyTimeout q s := rfl
  rw [execParkCopyTimeout, whileRunning_on on] at run
  have due : (elapsed s j.since (pCopyTimeout s) && !parkComplete s j && !j.halted) = true := by simp [elapsed, late, partial_, runs]
  simp only [job, there, due, if_true] at run
  refine ⟨_, run, ?_, fun i mem => ?_⟩
  · rw [seqOf_congr (completeKeys_mem _ _ _), seqOf_modSeq, if_pos rfl, stopped_seqOf, seqOf_congr (parkAnswers_mem s j), there]
    rfl
  · rw [completeKeys_mem, modSeq_parks, stopped_parks] at mem
    simpa using (List.mem_filter.1 mem).2

end

/-! ### WAKE (R84, R85, R263, R334, R342) -/

section
variable {s : State} {q : SeqId} {c : Command} {x : Seq} (turn : Turn s c) (named : c.desc.seq.id = q) (body : c.desc.body = .wake)
include turn named body

theorem exec_wake_absent (gone : seqOf s q = none) : exec (.wake c) s = .next (complete s c { status := .noState }) := by
  subst named
  show execWake c s = _
  rw [execWake, whenReady_turn turn]
  simp only [body, gone]

variable (there : seqOf s q = some x)
include there

theorem exec_wake_evicting (state : x.state = .evicting) : exec (.wake c) s = .next (complete s c { status := .noState }) := by
  subst named
  show execWake c s = _
  rw [execWake, whenReady_turn turn]
  simp [body, there, state]

theorem exec_wake_active (state : x.state = .active) : exec (.wake c) s = .next (complete s c { status := .ok }) := by
  subst named
  show execWake c s = _
  rw [execWake, whenReady_turn turn]
  simp [body, there, state]

theorem exec_wake_parking (state : x.state = .parking) : exec (.wake c) s = .next (complete s c { status := .busyRetry }) := by
  subst named
  show execWake c s = _
  rw [execWake, whenReady_turn turn]
  simp [body, there, state]

/-- A WAKE of a sequence that is WAKING joins the one in progress. -/
theorem exec_wake_waking (state : x.state = .waking) : exec (.wake c) s = .next
    (resumeWake { s with mem := { s.mem with wakes := s.mem.wakes.map (joinWake q (cmdKey c)) } } q) := by
  subst named
  show execWake c s = _
  rw [execWake, whenReady_turn turn]
  simp [body, there, state]

theorem exec_wake_owner (parked : x.state = .parked) (source : c.chainedFrom = none) :
    exec (.wake c) s = .next (startWake s q [cmdKey c]) := by
  subst named
  show execWake c s = _
  rw [execWake, whenReady_turn turn]
  simp [body, there, parked, source]

/-- A WAKE at a replica waits for its predecessor's copy (R334). -/
theorem exec_wake_replica (parked : x.state = .parked) (chained : c.chainedFrom.isSome = true) : exec (.wake c) s =
    .next (setSeq { s with mem := { s.mem with wakes := s.mem.wakes ++ [{ seq := q, keys := [cmdKey c], copied := true }] } } q
      { x with state := .waking }) := by
  subst named
  have same : seqOf { s with mem := { s.mem with wakes := s.mem.wakes ++
      [{ seq := c.desc.seq.id, keys := [cmdKey c], copied := true }] } } c.desc.seq.id = some x := there
  show execWake c s = _
  rw [execWake, whenReady_turn turn]
  simp [body, there, parked, chained, modSeq, same]

end

@[simp] theorem joinWake_seq (q : SeqId) (k : CmdKey) (j : WakeJob) : (joinWake q k j).seq = j.seq := by
  unfold joinWake; split <;> rfl

@[simp] theorem joinWake_halted (q : SeqId) (k : CmdKey) (j : WakeJob) : (joinWake q k j).halted = j.halted := by
  unfold joinWake; split <;> rfl

/-- A WAKE that no soft reset has stopped goes on as it is. -/
theorem resumeWake_running {s : State} {q : SeqId} (runs : ∀ j ∈ s.mem.wakes, j.seq = q → j.halted = false) : resumeWake s q = s := by
  have none_halted : s.mem.wakes.find? (fun j => j.seq == q && j.halted) = none :=
    List.find?_eq_none.2 fun j mem => by
      by_cases own : j.seq = q
      · simp [runs j mem own]
      · simp [own]
  simp only [resumeWake, none_halted]

@[simp] theorem wakeReplicas_mem (s : State) (q : SeqId) (repl : Nat) (pred : Option Nat) : (wakeReplicas s q repl pred).mem = s.mem := by
  unfold wakeReplicas; split <;> rfl

/-- At the end of a WAKE the sequence is ACTIVE with its first prefetch depth and no PARK_REF (R229, R263). -/
theorem wakeDone_active {s : State} {q : SeqId} {x : Seq} (there : seqOf s q = some x) (j : WakeJob) :
    seqOf (wakeDone s q j x) q = some { x with state := .active, parkRef := none, depth := pKInit s, objSize := 0 } ∧
      ∀ i ∈ (wakeDone s q j x).mem.wakes, i.seq ≠ q := by
  have mem_eq : (wakeDone s q j x).mem.bare = { (modSeq s q fun y =>
      { y with state := .active, parkRef := none, depth := pKInit s, objSize := 0 }).mem.bare with
        wakes := (modSeq s q fun y => { y with state := .active, parkRef := none, depth := pKInit s, objSize := 0 }).mem.wakes.filter
          fun i => i.seq != q } := by
    rw [wakeDone, finishKeys_mem, wakeReplicas_mem, releaseObjects_bare]
    rfl
  refine ⟨?_, fun i mem => ?_⟩
  · rw [seqOf_bare, mem_eq]
    change seqOf (modSeq s q _) q = _
    rw [seqOf_modSeq, if_pos rfl, there]
    rfl
  · change i ∈ (wakeDone s q j x).mem.bare.wakes at mem
    rw [mem_eq] at mem
    simpa using (List.mem_filter.1 mem).2

section
variable {s : State} {q : SeqId} {x : Seq} {j : WakeJob} (on : s.running = true) (there : seqOf s q = some x)
  (job : s.mem.wakes.find? (fun j => j.seq == q && !j.copied && !j.halted) = some j)
include on there job

theorem exec_wakeComplete_done (asked : j.reqs = []) (framed : j.allocated = true) (read : j.left = []) (tried : j.guestTry = []) :
    exec (.wakeComplete q) s = .next (wakeDone s q j x) := by
  show execWakeComplete q s = _
  rw [execWakeComplete, whileRunning_on on]
  simp [job, there, asked, framed, read, tried]

theorem exec_wakeComplete_tries (asked : j.reqs = []) (frameless : j.allocated = false) :
    exec (.wakeComplete q) s = .next (wakeTry s q) := by
  show execWakeComplete q s = _
  rw [execWakeComplete, whileRunning_on on]
  simp [job, there, asked, frameless]

variable {n : Nat} {r : ParkRef} {b : List Byte} (asked : j.reqs ≠ []) (ref : x.parkRef = some r) (partner : n = r.partner)
include asked ref partner

/-- The guest object has come with the first complete answer (R342). -/
theorem exec_wakeComplete_came (answer : firstAnswer s n j.reqs j.also = .bytes b) : exec (.wakeComplete q) s =
    .next (wakeGuestCame (dropHolders s n j.reqs j.also) q j (parseObject b).2) := by
  subst partner
  show execWakeComplete q s = _
  rw [execWakeComplete, whileRunning_on on]
  simp [job, there, asked, ref, answer]

theorem exec_wakeComplete_lost (answer : firstAnswer s n j.reqs j.also = .failed) : exec (.wakeComplete q) s =
    .next (wakeGuestLost (dropHolders s n j.reqs j.also) q j) := by
  subst partner
  show execWakeComplete q s = _
  rw [execWakeComplete, whileRunning_on on]
  simp [job, there, asked, ref, answer]

end

theorem gotListed_bytes {s : State} {n : Nat} {reqs : List Nat} {b : List Byte} (got : gotGuest s n reqs = .bytes b) :
    gotListed s n reqs = .bytes b := by simp only [gotListed, got]

theorem gotListed_failed {s : State} {n : Nat} {reqs : List Nat} (got : gotGuest s n reqs = .failed) :
    gotListed s n reqs = .failed := by simp only [gotListed, got]

/-- The partner's bytes are the answer, whoever else was asked. -/
theorem firstAnswer_partner {s : State} {n : Nat} {reqs : List Nat} {b : List Byte} (also : Option (Nat × List Nat))
    (got : gotGuest s n reqs = .bytes b) : firstAnswer s n reqs also = .bytes b := by
  cases also with
  | none => simp only [firstAnswer, gotListed_bytes got]
  | some e => simp only [firstAnswer, gotListed_bytes got]

/-- Where the partner failed, the next holder's bytes are the answer (R342). -/
theorem firstAnswer_holder {s : State} {n m : Nat} {reqs more : List Nat} {b : List Byte} (lost : gotGuest s n reqs = .failed)
    (got : gotGuest s m more = .bytes b) : firstAnswer s n reqs (some (m, more)) = .bytes b := by
  simp only [firstAnswer, gotListed_failed lost, gotListed_bytes got]

/-- Settles O44: PARK and WAKE by the state of the sequence, and their ends by `parkCopiesDone_gives`, `parkCopyTimeout_gives` and
`wakeDone_active`. -/
theorem parkAndWake : Obligations.ParkAndWake := by
  intro s q on
  refine ⟨fun c turn named body => ⟨exec_park_absent turn named body, fun x there => ⟨exec_park_evicting turn named body there,
      exec_park_parked turn named body there, exec_park_waking turn named body there, fun parking t joined => ?joinPark,
      exec_park_replica turn named body there, fun active source closed closed' => ?lifeEnd, park_starts turn named body there⟩⟩,
    fun c turn named body => ⟨exec_wake_absent turn named body, fun x there => ⟨exec_wake_evicting turn named body there,
      exec_wake_active turn named body there, exec_wake_parking turn named body there, fun waking t joined => ?joinWake,
      exec_wake_owner turn named body there, exec_wake_replica turn named body there⟩⟩,
    fun x j there job => ⟨parkCopiesDone_gives on there job, parkCopyTimeout_gives on there job⟩,
    fun x j there job => ⟨fun asked framed read tried => ⟨_, exec_wakeComplete_done on there job asked framed read tried,
        wakeDone_active there j⟩, exec_wakeComplete_tries on there job, fun n r b asked ref partner => ⟨fun got => ?_,
          fun m more lost also got => ?_, fun lost alone => ?_⟩⟩⟩
  case joinPark =>
    subst joined
    refine ⟨exec_park_parking turn named body there parking, fun runs => resumePark_running fun j mem own => ?_⟩
    obtain ⟨i, listed, rfl⟩ := List.mem_map.1 mem
    rw [joinPark_halted]
    exact runs i listed (by rwa [joinPark_seq] at own)
  case lifeEnd => rw [exec_park_active turn named body there active source, if_neg (by simp [closed, closed'])]
  case joinWake =>
    subst joined
    refine ⟨exec_wake_waking turn named body there waking, fun runs => resumeWake_running fun j mem own => ?_⟩
    obtain ⟨i, listed, rfl⟩ := List.mem_map.1 mem
    rw [joinWake_halted]
    exact runs i listed (by rwa [joinWake_seq] at own)
  · exact exec_wakeComplete_came on there job asked ref partner (firstAnswer_partner _ got)
  · exact exec_wakeComplete_came on there job asked ref partner (by rw [also, firstAnswer_holder lost got])
  · rw [exec_wakeComplete_lost on there job asked ref partner (by rw [alone]; exact gotListed_failed lost), alone]
    rfl

/-! ### The collector's events stay while the node records, answers and fences -/

/-- `b` has the fault events of `a`. -/
def EventsStay (a b : State) : Prop := a.fault.events ⊆ b.fault.events

theorem EventsStay.refl (s : State) : EventsStay s s := List.Subset.refl _

theorem EventsStay.trans {a b c : State} (ab : EventsStay a b) (bc : EventsStay b c) : EventsStay a c := List.Subset.trans ab bc

theorem EventsStay.of_fault {a b : State} (same : b.fault = a.fault) : EventsStay a b := by
  rw [EventsStay, same]
  exact List.Subset.refl _

theorem foldState_eventsStay {α : Type} {f : State → α → State} (step : ∀ t a, EventsStay t (f t a)) (l : List α) (s : State) :
    EventsStay s (foldState f s l) := foldState_relates EventsStay.refl EventsStay.trans step l s

theorem iter_eventsStay {f : State → State} (step : ∀ t, EventsStay t (f t)) (n : Nat) : ∀ s : State, EventsStay s (iter f n s) := by
  induction n with
  | zero => exact EventsStay.refl
  | succ n ih => exact fun s => (step s).trans (ih _)

theorem raise_event (s : State) (ev : FaultEv) : ev ∈ (raise s ev).fault.events := by
  simp [raise, modSrc]

theorem raise_eventsStay (s : State) (ev : FaultEv) : EventsStay s (raise s ev) := List.subset_append_left _ _

theorem setLevel_eventsStay (s : State) (n : Nat) (high : Bool) (unit : UnitRef) : EventsStay s (setLevel s n high unit) := by
  dsimp only [setLevel]
  split
  · exact List.subset_append_left _ _
  · exact List.Subset.refl _

theorem caskRec_eventsStay (s : State) (r : CaskRec) : EventsStay s (caskRec s r) := by
  dsimp only [caskRec]
  split
  · split
    · exact List.Subset.refl _
    · exact raise_eventsStay _ _
  · split
    · exact raise_eventsStay _ _
    · exact List.Subset.refl _

theorem linkSend_fault (s : State) (t : LinkTx) : (linkSend s t).fault = s.fault := by
  simp only [linkSend, linkPump]
  repeat' split
  all_goals rfl

theorem makeRoom_fault {s t : State} {die : Nat} (made : makeRoom s die = some t) : t.fault = s.fault := by
  dsimp only [makeRoom] at made
  split at made
  · rw [Option.some.inj made]
  · obtain ⟨v, -, rfl⟩ := Option.map_eq_some_iff.1 made
    show (writeBack s v).fault = s.fault
    dsimp only [writeBack]
    split
    · rfl
    · exact linkSend_fault _ _

theorem newCtx_fault {s t : State} {a : AssocKey} (made : newCtx s a = some t) : t.fault = s.fault := by
  rw [newCtx] at made
  split at made
  · obtain ⟨u, room, rfl⟩ := Option.map_eq_some_iff.1 made
    show u.fault = s.fault
    exact makeRoom_fault room
  · cases made

theorem sendUnder_fault (s : State) (gen : Option Nat) (a : AssocKey) (cls : MsgClass) (egress : Nat) (arrival : Option (Nat × Nat))
    (bytes : List Byte) : (sendUnder s gen a cls egress arrival bytes).fault = s.fault := by
  dsimp only [sendUnder]
  split
  · next t found =>
    show t.fault = s.fault
    split at found
    · split at found
      · cases found
      · rw [Option.some.inj found]
    · exact newCtx_fault found
  · rfl

theorem sendControl_fault (s : State) (e : Endpoint) (bytes : List Byte) : (sendControl s e bytes).fault = s.fault := by
  rw [sendControl]
  split
  · exact linkSend_fault _ _
  · exact sendUnder_fault _ _ _ _ _ _ _

theorem answerOne_fault (s : State) (c : Command) (r : Reply) : (answerOne s c r).fault = s.fault := by
  dsimp only [answerOne, sendReply, replyUnder]
  split
  · exact linkSend_fault _ _
  · exact sendUnder_fault _ _ _ _ _ _ _

theorem settle_fault (s : State) (c : Command) (st : Status) : (settle s c st).fault = s.fault := by
  dsimp only [settle]
  split
  · rfl
  · rfl

theorem noteInternal_eventsStay (s : State) (opcode src reqId kind unit detail : Nat) :
    EventsStay s (noteInternal s opcode src reqId kind unit detail) := (caskRec_eventsStay s _).trans (raise_eventsStay _ _)

theorem completeOne_eventsStay (s : State) (c : Command) (r : Reply) : EventsStay s (completeOne s c r) := by
  dsimp only [completeOne]
  split
  · exact EventsStay.refl s
  · have settled : EventsStay s (settle (if r.status = .internal then
        noteInternal (dropLive s (cmdKey c)) c.desc.opcode c.src.num c.desc.reqId 0 0 0 else dropLive s (cmdKey c)) c r.status) := by
      rw [EventsStay, settle_fault]
      split
      · exact noteInternal_eventsStay (dropLive s (cmdKey c)) _ _ _ _ _ _
      · exact List.Subset.refl _
    split
    · exact settled.trans (.of_fault (sendControl_fault _ _ _))
    · exact settled.trans (.of_fault (answerOne_fault _ _ _))

theorem releaseQwaits_eventsStay (s : State) : EventsStay s (releaseQwaits s) := by
  refine iter_eventsStay (fun t => ?_) _ s
  rw [releaseQwait]
  split
  · exact EventsStay.refl t
  · next q b _ => exact completeOne_eventsStay (modQueue t q fun x => { x with blocked := none }) b.cmd _

theorem complete_eventsStay (s : State) (c : Command) (r : Reply) : EventsStay s (complete s c r) :=
  (completeOne_eventsStay s c r).trans (releaseQwaits_eventsStay _)

theorem turnAway_eventsStay (st : Status) (s : State) (c : Command) : EventsStay s (turnAway st s c) := by
  rw [turnAway]
  split
  · exact EventsStay.refl s
  · exact (EventsStay.of_fault (answerOne_fault s c _)).trans (releaseQwaits_eventsStay _)

theorem discardChained_eventsStay (s : State) : EventsStay s (discardChained s) :=
  foldState_eventsStay (f := fun t c => dropOutcome (dropLive t (cmdKey c)) (cmdKey c)) (fun _ _ => List.Subset.refl _) _ s

theorem fenceNode_eventsStay (s : State) (cause source : Nat) : EventsStay s (fenceNode s cause source) := by
  dsimp only [fenceNode]
  split
  · exact EventsStay.refl s
  · refine EventsStay.trans ?_ (discardChained_eventsStay _)
    refine EventsStay.trans ?_ (foldState_eventsStay (fun t c => complete_eventsStay t c _) _ _)
    refine EventsStay.trans (b := foldState (turnAway .fenced) _ _) ?_ (List.Subset.refl _)
    refine EventsStay.trans ?_ (foldState_eventsStay (turnAway_eventsStay .fenced) _ _)
    refine EventsStay.trans (b := caskNote _ _ _) ?_ (setLevel_eventsStay _ _ _ _)
    exact caskRec_eventsStay { s with
      fault := { s.fault with fenced := true, cause := cause, hard := hardCause cause, fenceInc := incarnationOf s } } _

/-! ### A lane that fails is out of service (R252) -/

theorem memRead1_fault (s : State) (why : MemWhy) (p : Nat × Nat) : (memRead1 s why p).fault = s.fault := linkSend_fault _ _

theorem assignLane_fault (cluster : Nat) (encode : Bool) (s : State) : (assignLane cluster encode s).fault = s.fault := by
  dsimp only [assignLane]
  split
  · split
    · rfl
    · rw [foldState_keeps State.fault (fun t p => memRead1_fault t _ p)]
  · rfl

theorem assignLanes_fault (s : State) : (assignLanes s).fault = s.fault :=
  foldState_keeps State.fault (fun _ q => (iter_keeps State.fault (assignLane_fault q true) 16 _).trans
    (iter_keeps State.fault (assignLane_fault q false) 32 _)) _ s

theorem dropTransfersOf_fault (s : State) (encode : Bool) : (dropTransfersOf s encode).fault = s.fault := by
  dsimp only [dropTransfersOf]
  exact foldState_keeps State.fault (fun t l => by cases l <;> rfl) _ s

theorem dropTransfersOf_clusters (s : State) (encode : Bool) : (dropTransfersOf s encode).mem.clusters = s.mem.clusters := by
  dsimp only [dropTransfersOf]
  exact foldState_keeps (fun t : State => t.mem.clusters) (fun t l => by cases l <;> rfl) _ s

theorem bare_clusters (m : MemSt) : m.bare.clusters = m.clusters := rfl

theorem assignLanes_clusters (s : State) : (assignLanes s).mem.clusters = s.mem.clusters := by
  rw [← bare_clusters, assignLanes_bare, bare_clusters]

theorem laneOut_eventsStay (s : State) (cluster lane : Nat) : EventsStay s (laneOut s cluster lane) := by
  unfold laneOut
  extract_lets encode s1 s3 mine moved again
  have noted : EventsStay s s3 := caskRec_eventsStay s1 _
  split
  · exact noted.trans ((EventsStay.of_fault (dropTransfersOf_fault _ _)).trans (fenceNode_eventsStay _ _ _))
  · exact noted.trans (.of_fault (assignLanes_fault _))

/-- A lane that is listed as out of service in its cluster is none of the lanes in service. -/
theorem not_mem_lanesLive {c : Cluster} {lane : Nat} (out : if 32 ≤ lane then lane ∈ c.encOut else lane ∈ c.decOut) :
    lane ∉ lanesLive c (decide (32 ≤ lane)) := by
  rw [lanesLive]
  split
  · exact List.not_mem_nil
  · by_cases enc : 32 ≤ lane
    · simp only [enc, if_true] at out
      simp [enc, out]
    · simp only [enc, if_false] at out
      simp [enc, out]

/-- A cluster once one of its lanes is out of service. -/
def Cluster.without (lane : Nat) (c : Cluster) : Cluster :=
  match decide (32 ≤ lane) with
  | true => { c with encOut := lane :: c.encOut.filter (· != lane) }
  | false => { c with decOut := lane :: c.decOut.filter (· != lane) }

theorem laneOut_clusters (s : State) (cluster lane : Nat) :
    (laneOut s cluster lane).mem.clusters = (modCluster s cluster (Cluster.without lane)).mem.clusters := by
  unfold laneOut
  extract_lets encode s1 s3 mine moved again
  have noted : s3.mem = s1.mem := (caskAction_aside (Aside.refl true s1)).mem
  split
  · rw [(fenceNode_aside (Aside.refl true _)).mem, dropTransfersOf_clusters, noted]
    rfl
  · rw [assignLanes_clusters]
    show s3.mem.clusters = _
    rw [noted]
    rfl

theorem laneOut_not_live (s : State) (cluster lane : Nat) :
    lane ∉ lanesLive (clusterOf (laneOut s cluster lane) cluster) (decide (32 ≤ lane)) := by
  have out : clusterOf (laneOut s cluster lane) cluster = Cluster.without lane (clusterOf s cluster) := by
    rw [clusterOf, laneOut_clusters, ← clusterOf, clusterOf_modCluster, if_pos rfl]
  rw [out]
  refine not_mem_lanesLive ?_
  by_cases enc : 32 ≤ lane
  · simp [enc, Cluster.without]
  · simp [enc, Cluster.without]

theorem exec_codecLaneFail {s : State} {cluster : Fin 4} {lane : Nat} (on : s.running = true)
    (live : lane ∈ lanesLive (clusterOf s cluster.val) (decide (32 ≤ lane))) :
    exec (.codecLaneFail cluster lane) s = .next (laneFail s cluster.val lane false) := by
  show execCodecLaneFail cluster lane s = _
  rw [execCodecLaneFail, whileRunning_on on, if_pos (List.contains_iff_mem.2 live)]

theorem laneFail_event (s : State) (cluster lane : Nat) (injected : Bool) :
    ∃ e ∈ (laneFail s cluster lane injected).fault.events, e.source = 33 + cluster ∧
      e.unit = { kind := 4, num := cluster * 48 + lane } :=
  ⟨_, laneOut_eventsStay _ _ _ (raise_event _ _), rfl, rfl⟩

/-! ### Reserves and zero-fill (R59, R74, R75) -/

theorem exec_reserveRefill_tight {s : State} {q : SeqId} {n : Nat} {x : Seq} (on : s.running = true) (listed : (q, n) ∈ s.mem.refills)
    (there : seqOf s q = some x) (wants : wantsReserve x n = true) (lacks : (tensorOf x n).reserve = none)
    (short : takeReserve s q n = none) : Gives (.reserveRefill q n) s fun t => seqOf t q = some { x with tight := true } ∧
      t.mem.preempting = true := by
  refine ⟨{ modSeq s q (fun x => { x with tight := true }) with
    mem := { (modSeq s q fun x => { x with tight := true }).mem with preempting := true } }, ?_, ?tight, rfl⟩
  · show execReserveRefill q n s = _
    rw [execReserveRefill, whileRunning_on on]
    simp only [List.contains_iff_mem.2 listed, Bool.not_true, Bool.false_eq_true, if_false, there, wants, lacks, Option.isNone_none,
      Bool.and_self, if_true, short]
  case tight =>
    show seqOf (modSeq s q fun x => { x with tight := true }) q = _
    rw [seqOf_modSeq, if_pos rfl, there]
    rfl

/-- The reserve that a refill obtains stands in the tensor's entry. -/
theorem takeReserve_seqOf {s u : State} {q : SeqId} {n : Nat} (took : takeReserve s q n = some u) :
    ∃ y, seqOf u q = some y ∧ (tensorOf y n).reserve.isSome = true := by
  rw [takeReserve] at took
  split at took
  · cases took
  · obtain ⟨⟨lpn, t⟩, -, rfl⟩ := Option.map_eq_some_iff.1 took
    exact ⟨_, by rw [seqOf_setSeq, if_pos rfl], by rw [tensorOf_setTensor, if_pos rfl]; rfl⟩

/-- The refill of a tensor is no longer outstanding. -/
def refilled (s : State) (q : SeqId) (n : Nat) : State :=
  modSeq { s with mem := { s.mem with refills := s.mem.refills.filter fun r => r != (q, n) } } q
    fun x => setTensor x n { tensorOf x n with want := false }

theorem refilled_seqOf {s : State} {q : SeqId} {y : Seq} (there : seqOf s q = some y) (n : Nat) :
    seqOf (refilled s q n) q = some (setTensor y n { tensorOf y n with want := false }) := by
  change seqOf (modSeq _ q _) q = _
  rw [seqOf_modSeq, if_pos rfl]
  exact congrArg (Option.map _) there

theorem modSeq_refills (s : State) (q : SeqId) (f : Seq → Seq) : (modSeq s q f).mem.refills = s.mem.refills := by
  rw [modSeq]
  split
  · rfl
  · rfl

theorem refilled_refills (s : State) (q : SeqId) (n : Nat) :
    (refilled s q n).mem.refills = s.mem.refills.filter fun r => r != (q, n) := modSeq_refills _ q _

theorem exec_reserveRefill {s u : State} {q : SeqId} {n : Nat} {x : Seq} (on : s.running = true) (listed : (q, n) ∈ s.mem.refills)
    (there : seqOf s q = some x) (wants : wantsReserve x n = true) (lacks : (tensorOf x n).reserve = none)
    (took : takeReserve s q n = some u) : exec (.reserveRefill q n) s = .next (if (refilled u q n).mem.refills.any fun r => r.1 == q
      then refilled u q n else modSeq (refilled u q n) q fun x => { x with tight := false }) := by
  show execReserveRefill q n s = _
  rw [execReserveRefill, whileRunning_on on, refilled_refills]
  simp only [List.contains_iff_mem.2 listed, Bool.not_true, Bool.false_eq_true, if_false, there, wants, lacks, Option.isNone_none,
    Bool.and_self, if_true, took]
  rfl

theorem reserveRefill_gives {s u : State} {q : SeqId} {n : Nat} {x : Seq} (on : s.running = true) (listed : (q, n) ∈ s.mem.refills)
    (there : seqOf s q = some x) (wants : wantsReserve x n = true) (lacks : (tensorOf x n).reserve = none)
    (took : takeReserve s q n = some u) : Gives (.reserveRefill q n) s fun t => (q, n) ∉ t.mem.refills ∧
      ∃ y : Seq, seqOf t q = some y ∧ (tensorOf y n).reserve.isSome = true ∧ (tensorOf y n).want = false := by
  refine ⟨_, exec_reserveRefill on listed there wants lacks took, ?_⟩
  obtain ⟨y, held, reserve⟩ := takeReserve_seqOf took
  have done := refilled_seqOf held n
  have entry : tensorOf (setTensor y n { tensorOf y n with want := false }) n = { tensorOf y n with want := false } := by
    rw [tensorOf_setTensor, if_pos rfl]
  have gone : (q, n) ∉ (refilled u q n).mem.refills := by simp [refilled_refills]
  split
  · exact ⟨gone, _, done, by rw [entry]; exact reserve, by rw [entry]⟩
  · refine ⟨by rwa [modSeq_refills], { setTensor y n { tensorOf y n with want := false } with tight := false }, ?_, ?_, ?_⟩
    · rw [seqOf_modSeq, if_pos rfl, done]
      rfl
    · exact (congrArg (fun e => e.reserve.isSome) entry).trans reserve
    · exact congrArg Tensor.want entry

theorem exec_zeroFill {s u : State} {st : Fin 12} {pc lpn n : Nat} {rest : List (Nat × Nat)} (on : s.running = true)
    (paired : u = pairVacant s (pcNum st.val pc)) (waits : (freeOf u (pcNum st.val pc)).toZero = (lpn, n) :: rest)
    (clock : locWaits u (.hbm st.val pc n) = false) (free : locHeld u (.hbm st.val pc n) = false) :
    exec (.zeroFill st pc) s = .next (retryWakes (modFree (zeroSlot u st.val pc n) (pcNum st.val pc) fun l =>
      { l with toZero := rest, back := l.back ++ [(lpn, n)] })) := by
  subst paired
  show execZeroFill st pc s = _
  rw [execZeroFill, whileRunning_on on]
  simp only [waits]
  rw [whenMemory_runs (by simpa using clock) (by simpa using free)]

/-! ### Preemption (R77, R238) -/

theorem exec_preemptVictim_over {s : State} (on : s.running = true) (ended : preemptRuns s = false) :
    exec .preemptVictim s = .next { s with mem := { s.mem with preempting := false } } := by
  show execPreemptVictim s = _
  rw [execPreemptVictim, whileRunning_on on, if_pos (by simp [ended])]

theorem exec_preemptVictim_releases {s u : State} (on : s.running = true) (runs : preemptRuns s = true)
    (released : u = foldState releaseStaged s (cleanCopies s)) (enough : preemptChooses u = false) :
    exec .preemptVictim s = .next (retryWakes u) := by
  subst released
  show execPreemptVictim s = _
  rw [execPreemptVictim, whileRunning_on on]
  simp only [runs, Bool.not_true, Bool.false_eq_true, if_false, enough, Bool.not_false, if_true]

theorem exec_preemptVictim_no_victim {s u v : State} (on : s.running = true) (runs : preemptRuns s = true)
    (released : u = foldState releaseStaged s (cleanCopies s)) (chooses : preemptChooses u = true)
    (marked : v = { u with mem := { u.mem with preempting := true } }) (nobody : victim v = none) :
    exec .preemptVictim s = .next (retryWakes v) := by
  subst released marked
  show execPreemptVictim s = _
  rw [execPreemptVictim, whileRunning_on on]
  simp only [runs, Bool.not_true, Bool.false_eq_true, if_false, chooses, nobody]

theorem exec_preemptVictim_parks {s u v : State} {q : SeqId} {x : Seq} (on : s.running = true) (runs : preemptRuns s = true)
    (released : u = foldState releaseStaged s (cleanCopies s)) (chooses : preemptChooses u = true)
    (marked : v = { u with mem := { u.mem with preempting := true } }) (chosen : victim v = some (q, x))
    (full : (allocExtent v 36).isSome = false) (port : canWrite v 0 = true ∨ canWrite v 1 = true) (idle : halfDone v q = false) :
    exec .preemptVictim s = .next (retryWakes (startPark v q [] true)) := by
  subst released marked
  show execPreemptVictim s = _
  rw [execPreemptVictim, whileRunning_on on]
  simp only [runs, Bool.not_true, Bool.false_eq_true, if_false, chooses, chosen, full, idle, Bool.not_false, Bool.and_true,
    Bool.or_eq_true, if_pos port]

/-! ### Staging (R224, R228) -/

theorem exec_stagingStart_full {s u : State} {j : StageJob} {st pc n : Nat} (on : s.running = true)
    (waits : s.mem.stages.find? (fun x => x.lpn == j.lpn && x.slot == .none) = some j) (turn : prefetchBefore s j = false)
    (took : takeBare s (stageOrder s j) = some (.hbm st pc n, u)) (why : j.why ≠ .promote) (full : pStageMax s ≤ poolUsed s st) :
    exec (.stagingStart j.lpn) s = .next (makeStageRoom s j st) := by
  show execStagingStart j.lpn s = _
  rw [execStagingStart, whileRunning_on on]
  simp [waits, turn, took, why, full]

theorem exec_stagingStart_takes {s u : State} {j : StageJob} {st pc n : Nat} (on : s.running = true)
    (waits : s.mem.stages.find? (fun x => x.lpn == j.lpn && x.slot == .none) = some j) (turn : prefetchBefore s j = false)
    (took : takeBare s (stageOrder s j) = some (.hbm st pc n, u))
    (room : j.why = .promote ∨ poolUsed s st < pStageMax s) {r : Nat × State}
    (submitted : r = codecSubmit u false j.lpn (quadOfStack st) none none) :
    exec (.stagingStart j.lpn) s = .next { r.2 with mem := { r.2.mem with stages := r.2.mem.stages.map fun x =>
      if x.lpn = j.lpn then { x with slot := .hbm st pc n, job := some r.1 } else x } } := by
  have fits : (j.why != .promote && decide (pStageMax s ≤ poolUsed s st)) = false := by
    rcases room with promo | less
    · simp [promo]
    · simp [less]
  show execStagingStart j.lpn s = _
  rw [execStagingStart, whileRunning_on on]
  simp only [waits, turn, took, fits, Bool.false_eq_true, if_false, submitted]

theorem exec_stagingComplete {s u done : State} {j : StageJob} {bad fail inj : Bool} {st pc n : Nat} (on : s.running = true)
    (ready : s.mem.stages.find? (fun x => x.lpn == j.lpn && x.decoded) = some j) (slot : j.slot = .hbm st pc n)
    (clock : locWaits s j.slot = false) (free : locHeld s j.slot = false)
    (check : checkFails s 3 (pcNum st pc) (bad || j.decodeErr || imageWrong j.image) = (fail, inj, u))
    (failed : fail = true → done = failStage u j.lpn j.slot)
    (passed : fail = false → ∀ v : State, v = modFrame (slotFill u j.slot j.image) j.lpn (fun f => { f with
        alt := j.slot, staged := true, dirty := false, visited := false, lastVisit := now s, stagedFor := j.seq,
        promo := j.why == .promote }) →
        done = { v with mem := { v.mem with stages := v.mem.stages.filter fun x => x.lpn != j.lpn } }) :
    exec (.stagingComplete j.lpn bad) s = .next (refreshAll (foldState resumeVisit done
      (done.exec.visits.filter fun v => v.lpn == j.lpn && v.path == .stageWait))) := by
  show execStagingComplete j.lpn bad s = _
  rw [execStagingComplete, whileRunning_on on]
  simp only [ready]
  rw [whenMemory_runs (by simpa using clock) (by simpa using free)]
  rw [slot] at *
  simp only [check]
  cases fail with
  | true => rw [failed rfl, if_pos rfl]
  | false =>
    rw [passed rfl _ rfl, if_neg Bool.false_ne_true]

/-! ### What a codec lane delivers (R219, R245, R247, R250, R491) -/

section Encode

variable {s : State} {j : CodecJob} {errs : List WordErr} (on : s.running = true)
  (runs : s.mem.codec.find? (fun x => x.id == j.id && x.encode && x.lane.isSome) = some j) (still : (frameOf s j.lpn).inFlux = false)
  (clock : locWaits s (encodeSource s j) = false) (free : locHeld s (encodeSource s j) = false)

include on runs still clock free

theorem exec_codecEncode_fails {u : State} (allowed : (j.obj.map fun o => transferAllowed s o.1).getD true = true)
    (fired : laneInjection s j = some u) : exec (.codecEncode j.id errs) s = .next (laneFail u j.cluster (j.lane.getD 0) true) := by
  show execCodecEncode j.id s errs = _
  rw [execCodecEncode, whileRunning_on on]
  simp only [runs, still, allowed, Bool.not_true, Bool.or_self, Bool.false_eq_true, if_false]
  rw [whenMemory_runs (by simpa using clock) (by simpa using free)]
  simp only [fired]

theorem exec_codecEncode_down {u : State} {bad : Bool} {stream : List Byte} (down : j.obj = none) (quiet : laneInjection s j = none)
    (read : encodeSlot s j (encodeSource s j) errs = (bad, stream, u)) :
    exec (.codecEncode j.id errs) s = .next (downEncoded (codecEnd u j.id) j.id bad stream) := by
  show execCodecEncode j.id s errs = _
  rw [execCodecEncode, whileRunning_on on]
  simp only [runs, still, down, Option.map_none, Option.getD_none, Bool.not_true, Bool.or_self, Bool.false_eq_true, if_false]
  rw [whenMemory_runs (by simpa using clock) (by simpa using free)]
  simp only [quiet, read]

theorem exec_codecEncode_park {u : State} {bad : Bool} {stream : List Byte} {q : SeqId} {f : ObjFrame} (park : j.obj = some (q, f))
    (allowed : transferAllowed s q = true) (quiet : laneInjection s j = none)
    (read : encodeSlot s j (encodeSource s j) errs = (bad, stream, u)) :
    exec (.codecEncode j.id errs) s = .next (parkEncoded (codecEnd u j.id) q f (encodeSource s j) bad stream) := by
  show execCodecEncode j.id s errs = _
  rw [execCodecEncode, whileRunning_on on]
  simp only [runs, still, park, Option.map_some, Option.getD_some, allowed, Bool.not_true, Bool.or_self, Bool.false_eq_true, if_false]
  rw [whenMemory_runs (by simpa using clock) (by simpa using free)]
  simp only [quiet, read]

end Encode

theorem reads_arrived {s : State} {id : Nat} (read : ∀ m ∈ s.link.memRds, m.why ≠ .job id) :
    (s.link.memRds.any fun m => m.why == .job id) = false := by simpa using read

section Decode

variable {s : State} {j : CodecJob} {readAs : Option (List Byte)} {linkErrs : Nat} (on : s.running = true)
  (runs : s.mem.codec.find? (fun x => x.id == j.id && !x.encode && x.lane.isSome) = some j)
  (read : ∀ m ∈ s.link.memRds, m.why ≠ .job j.id) (clock : locWaits s j.src = false)

include on runs read clock

theorem exec_codecDecode_fails {u : State} (fired : laneInjection s j = some u) :
    exec (.codecDecode j.id readAs linkErrs) s = .next (laneFail u j.cluster (j.lane.getD 0) true) := by
  show execCodecDecode j.id readAs s linkErrs = _
  rw [execCodecDecode, whileRunning_on on]
  simp only [runs, reads_arrived read, clock, Bool.or_self, Bool.false_eq_true, if_false, fired]

variable {lpBad : Bool} {u v : State} {img : Option Mem} (quiet : laneInjection s j = none)
  (came : lpRead s j.src linkErrs = (lpBad, u))
  (decoded : img = if j.readErr || lpBad then none else decodeJob u j (readAs.getD (jobStream u j)))
  (counted : v = codecEnd (modQuad (modCluster u j.cluster fun c =>
    { c with decErr := c.decErr + b2n (!(j.readErr || lpBad) && img.isNone) }) j.cluster fun q => { q with dec := q.dec + 1 }) j.id)

include quiet came decoded counted

theorem exec_codecDecode_delivers (frame : j.obj = none) :
    exec (.codecDecode j.id readAs linkErrs) s = .next (deliverDecoded v j img) := by
  show execCodecDecode j.id readAs s linkErrs = _
  rw [execCodecDecode, whileRunning_on on]
  simp only [runs, reads_arrived read, clock, Bool.or_self, Bool.false_eq_true, if_false, quiet, came, ← decoded, counted, frame]

theorem exec_codecDecode_wakes {q : SeqId} {f : ObjFrame} (object : j.obj = some (q, f)) (src : j.src = .none) :
    exec (.codecDecode j.id readAs linkErrs) s = .next (wakeDecoded v q f j.guest
      (img.filter fun m => !imageWrong m)) := by
  show execCodecDecode j.id readAs s linkErrs = _
  rw [execCodecDecode, whileRunning_on on]
  simp only [runs, reads_arrived read, clock, Bool.or_self, Bool.false_eq_true, if_false, quiet, came, ← decoded, counted,
    object, if_pos src]

theorem exec_codecDecode_parks {q : SeqId} {f : ObjFrame} (object : j.obj = some (q, f)) (src : j.src ≠ .none) :
    exec (.codecDecode j.id readAs linkErrs) s = .next (parkDecoded v q f (jobStream s j)
      (img.filter fun m => !imageWrong m).isSome) := by
  show execCodecDecode j.id readAs s linkErrs = _
  rw [execCodecDecode, whileRunning_on on]
  simp only [runs, reads_arrived read, clock, Bool.or_self, Bool.false_eq_true, if_false, quiet, came, ← decoded, counted,
    object, if_neg src]

end Decode

/-! ### Write-downs (R226, R227, R232) -/

/-- The frames and the write-downs. -/
def MemSt.downed (m : MemSt) : Tab Frame × List DownJob := (m.frames, m.downs)

theorem freeExtent_downed (s : State) (l : Loc) : (freeExtent s l).mem.downed = s.mem.downed := by cases l <;> rfl

theorem retireExtent_downed (s : State) (lpn : Nat) (l : Loc) : (retireExtent s lpn l).mem.downed = s.mem.downed := by
  rw [retireExtent]
  split
  · exact freeExtent_downed s l
  · rfl

theorem pageSet_downed (s : State) (q : SeqId) (t k : Nat) (h : PageHandle) : (pageSet s q t k h).mem.downed = s.mem.downed := by
  dsimp only [pageSet]
  split
  · rfl
  · split
    · rfl
    · split
      · rfl
      · next b u took =>
        simp only [allocBlocks] at took
        split at took
        · cases took
        · obtain ⟨-, rfl⟩ := Prod.mk.inj (Option.some.inj took)
          rfl

theorem retierLeaves_downed (s : State) (lpn : Nat) : (retierLeaves s lpn).mem.downed = s.mem.downed :=
  foldState_keeps (fun t : State => t.mem.downed) (fun _ _ => foldState_keeps (fun t : State => t.mem.downed)
    (fun t _ => by dsimp only; split <;> simp only [pageSet_downed]) _ _) _ s

theorem retierLeaves_frameOf (s : State) (lpn n : Nat) : frameOf (retierLeaves s lpn) n = frameOf s n :=
  congrArg (fun d : Tab Frame × List DownJob => tabGetD d.1 n {}) (retierLeaves_downed s lpn)

theorem retierLeaves_downs (s : State) (lpn : Nat) : (retierLeaves s lpn).mem.downs = s.mem.downs :=
  congrArg Prod.snd (retierLeaves_downed s lpn)

theorem slotWrite_downs (s : State) (l : Loc) (o : Nat) (bs : List Byte) : (slotWrite s l o bs).mem.downs = s.mem.downs := by
  cases l <;> rfl

theorem poisonFrame_downs (s : State) (lpn : Nat) : (poisonFrame s lpn).mem.downs = s.mem.downs := slotWrite_downs _ _ _ _

/-- A frame whose write-down failed its check is back in HBM, and its write-down is over. -/
def backHome (s : State) (lpn : Nat) : State :=
  let s1 := { s with mem := { s.mem with downs := s.mem.downs.filter fun x => x.lpn != lpn } }
  if (frameOf s lpn).tier ≤ 1 then s1 else
    setFrame (retireExtent s1 lpn (frameOf s lpn).loc) lpn
      { frameOf s lpn with tier := 1, loc := (frameOf s lpn).alt, alt := .none, staged := false, dirty := false, promo := false }

theorem backHome_tier (s : State) (lpn : Nat) : (frameOf (backHome s lpn) lpn).tier ≤ 1 := by
  dsimp only [backHome]
  split
  · next home => exact home
  · rw [frameOf_setFrame, if_pos rfl]

theorem backHome_downs (s : State) (lpn : Nat) : (backHome s lpn).mem.downs = s.mem.downs.filter fun x => x.lpn != lpn := by
  dsimp only [backHome]
  split
  · rfl
  · exact congrArg Prod.snd (retireExtent_downed _ lpn _)

section WriteDown

variable {s u : State} {d : DownJob} {bad inj : Bool} {st pc n : Nat} (on : s.running = true)
  (ready : s.mem.downs.find? (fun x => x.lpn == d.lpn && x.encoded) = some d) (source : d.source = .hbm st pc n)

include on ready source

theorem exec_writeDownComplete_fails (check : checkFails s 3 (pcNum st pc) (bad || d.bad) = (true, inj, u)) :
    exec (.writeDownComplete d.lpn bad) s = .next (poisonFrame (retierLeaves (backHome u d.lpn) d.lpn) d.lpn) := by
  show execWriteDownComplete d.lpn bad s = _
  rw [execWriteDownComplete, whileRunning_on on]
  simp only [ready, source, check, if_true, backHome]

theorem exec_writeDownComplete_waits (check : checkFails s 3 (pcNum st pc) (bad || d.bad) = (false, inj, u))
    (full : allocExtent u (ceilDiv d.stream.length 512) = none) : exec (.writeDownComplete d.lpn bad) s = .next u := by
  show execWriteDownComplete d.lpn bad s = _
  rw [execWriteDownComplete, whileRunning_on on]
  simp only [ready, source, check, Bool.false_eq_true, if_false, full]

theorem exec_writeDownComplete_installs {l : Loc} (check : checkFails s 3 (pcNum st pc) (bad || d.bad) = (false, inj, u))
    (room : allocExtent u (ceilDiv d.stream.length 512) = some l) {v : State} (installed : v = installDown u d l) :
    exec (.writeDownComplete d.lpn bad) s =
      .next { v with mem := { v.mem with encOut := v.mem.encOut + ceilDiv d.stream.length 512 } } := by
  subst installed
  show execWriteDownComplete d.lpn bad s = _
  rw [execWriteDownComplete, whileRunning_on on]
  simp only [ready, source, check, Bool.false_eq_true, if_false, room]

theorem writeDownComplete_poisons (check : checkFails s 3 (pcNum st pc) (bad || d.bad) = (true, inj, u)) :
    Gives (.writeDownComplete d.lpn bad) s fun t => (frameOf t d.lpn).poison = true ∧ (frameOf t d.lpn).tier ≤ 1 ∧
      ∀ x ∈ t.mem.downs, x.lpn ≠ d.lpn := by
  refine ⟨_, exec_writeDownComplete_fails on ready source check, ?_, ?_, fun x listed => ?_⟩
  · rw [poisonFrame_frameOf, if_pos rfl]
  · rw [poisonFrame_frameOf, if_pos rfl, retierLeaves_frameOf]
    exact backHome_tier u d.lpn
  · rw [poisonFrame_downs, retierLeaves_downs, backHome_downs] at listed
    simpa using (List.mem_filter.1 listed).2

end WriteDown

/-! ### Hot and cold (R227, R235, R236) -/

theorem exec_promotion_moves {s : State} {lpn : Nat} {f : Frame} (on : s.running = true) (frame : f = frameOf s lpn)
    (may : mayPromote s lpn = true) (first : comesFirst s (mayPromote s) (promoteKey s) lpn = true) (staged : f.staged = true) :
    exec (.promotion lpn) s = .next (retierLeaves (setFrame (retireExtent s lpn f.loc) lpn { f with
      tier := 1, loc := f.alt, alt := .none, staged := false, dirty := false, stagedFor := none, promo := false }) lpn) := by
  subst frame
  show execPromotion lpn s = _
  rw [execPromotion, whileRunning_on on]
  simp only [may, first, staged, Bool.not_true, Bool.or_self, Bool.false_eq_true, if_false, if_true]

theorem exec_promotion_stages {s : State} {lpn : Nat} (on : s.running = true)
    (may : mayPromote s lpn = true) (first : comesFirst s (mayPromote s) (promoteKey s) lpn = true)
    (absent : (frameOf s lpn).staged = false) : exec (.promotion lpn) s = .next (requestStage s lpn .promote none 0 0) := by
  show execPromotion lpn s = _
  rw [execPromotion, whileRunning_on on]
  simp only [may, first, absent, Bool.not_true, Bool.or_self, Bool.false_eq_true, if_false]

theorem exec_demotion {s : State} {lpn : Nat} (on : s.running = true)
    (cold : coolable s (locStack (frameOf s lpn).loc) lpn = true) (still : frameWaits s lpn = false)
    (first : comesFirst s (coolable s (locStack (frameOf s lpn).loc)) (fun l => (frameOf s l).sample) lpn = true)
    (room : (allocExtent s 36).isSome = true) :
    exec (.demotion lpn) s = .next (startDown s lpn .demote (frameOf s lpn).loc) := by
  show execDemotion lpn s = _
  rw [execDemotion, whileRunning_on on]
  simp only [cold, still, first, room, Bool.not_false, Bool.and_self, if_true]

theorem tabGet_map {α β : Type} (g : α → β) (t : Tab α) (k : Nat) : tabGet (t.map fun e => (e.1, g e.2)) k = (tabGet t k).map g := by
  induction t with
  | nil => rfl
  | cons e t ih =>
    rw [List.map_cons, tabGet, tabGet, ih]
    split
    · rfl
    · rfl

/-- A frame whose SAMPLE is halved. -/
def halved (f : Frame) : Frame := { f with sample := f.sample / 2 }

/-- An entry that is not listed has SAMPLE 0, which halves to itself. -/
theorem tabGetD_halved (t : Tab Frame) (lpn : Nat) :
    tabGetD (t.map fun e => (e.1, halved e.2)) lpn {} = halved (tabGetD t lpn {}) := by
  rw [tabGetD, tabGetD, tabGet_map]
  cases tabGet t lpn with
  | none => rfl
  | some f => rfl

theorem ageSweep_gives {s : State} (on : s.running = true) (sampling : samples s = true) (due : s.mem.ageSince + pAge s ≤ now s) :
    Gives .ageSweep s fun t => t.mem.ageSince = now s ∧
      (∀ lpn : Nat, frameOf t lpn = { frameOf s lpn with sample := (frameOf s lpn).sample / 2 }) ∧ { t with mem := s.mem } = s := by
  refine ⟨{ s with mem := { s.mem with ageSince := now s, frames := s.mem.frames.map fun e => (e.1, halved e.2) } }, ?_, rfl,
    tabGetD_halved s.mem.frames, rfl⟩
  show execAgeSweep s = _
  rw [execAgeSweep, whileRunning_on on, if_pos (by simp [sampling, elapsed, due])]
  rfl

/-- Settles O50, clause by clause, by what each of these steps does. -/
theorem tiersAndCodec : Obligations.TiersAndCodec := by
  intro s on
  refine ⟨fun q n x listed there wants lacks => ⟨exec_reserveRefill_tight on listed there wants lacks,
      fun u => reserveRefill_gives on listed there wants lacks⟩,
    fun st pc lpn n rest u => exec_zeroFill on,
    exec_preemptVictim_over on,
    fun runs u released => ⟨exec_preemptVictim_releases on runs released, fun chooses v marked =>
      ⟨exec_preemptVictim_no_victim on runs released chooses marked,
        fun q x => exec_preemptVictim_parks on runs released chooses marked⟩⟩,
    fun j waits turn st pc n u took => ⟨exec_stagingStart_full on waits turn took,
      fun room r => exec_stagingStart_takes on waits turn took room⟩,
    fun j bad fail inj st pc n u done => exec_stagingComplete on,
    fun j errs runs still clock free allowed => ⟨fun u => exec_codecEncode_fails on runs still clock free ?goes,
      fun quiet bad stream u read => ⟨fun down => exec_codecEncode_down on runs still clock free down quiet read,
        fun q f park => exec_codecEncode_park on runs still clock free park (allowed q f park) quiet read⟩⟩,
    fun j readAs linkErrs runs read clock => ⟨fun u => exec_codecDecode_fails on runs read clock,
      fun quiet lpBad u v img came decoded counted => ?decode⟩,
    fun cluster lane live => ⟨_, exec_codecLaneFail on live, laneOut_not_live _ _ _, laneFail_event _ _ _ _⟩,
    fun d bad fail inj st pc n u ready source check =>
      ⟨fun failed => ?poison, fun passed => ?waits, fun passed l room v => ?installs⟩,
    fun lpn f frame => ⟨fun may first => ⟨exec_promotion_moves on frame may first,
      fun absent => exec_promotion_stages on may first (frame ▸ absent)⟩, ?demotion⟩,
    ageSweep_gives on⟩
  case goes =>
    cases o : j.obj with
    | none => rfl
    | some p => exact allowed p.1 p.2 o
  case decode =>
    exact ⟨exec_codecDecode_delivers on runs read clock quiet came decoded counted, fun q f object =>
      ⟨exec_codecDecode_wakes on runs read clock quiet came decoded counted object,
        exec_codecDecode_parks on runs read clock quiet came decoded counted object⟩⟩
  case poison =>
    subst failed
    exact writeDownComplete_poisons on ready source check
  case waits =>
    subst passed
    exact exec_writeDownComplete_waits on ready source check
  case installs =>
    subst passed
    exact exec_writeDownComplete_installs on ready source check room
  case demotion =>
    subst frame
    exact exec_demotion on

end Sys2Proof.Machine

/-!
The attention commands family: descriptors and their bytes, gradients, and merges.
-/

namespace Sys2Proof.Machine

/-! ### Fields of a byte string that was laid out field by field (R3) -/

/-- The field that a byte string begins with. -/
theorem fieldLe_head {n x : Nat} (fits : x < 256 ^ n) (rest : List Byte) : fieldLe (le n x ++ rest) 0 n = x := by
  simpa [Nat.mod_eq_of_lt fits] using fieldLe_append [] rest n x

/-- A field that stands behind other bytes. -/
theorem fieldLe_behind {a : List Byte} {i : Nat} (after : a.length ≤ i) (rest : List Byte) (k : Nat) :
    fieldLe (a ++ rest) i k = fieldLe rest (i - a.length) k := by
  have same : ∀ j, (a ++ rest).getD (i + j) 0 = rest.getD (i - a.length + j) 0 := fun j => by
    rw [List.getD_append_right _ _ _ _ (by omega), Nat.sub_add_comm after]
  simp only [fieldLe, slice, same]

/-- A field that stands behind another field. -/
theorem fieldLe_skip {n i : Nat} (after : n ≤ i) (x : Nat) (rest : List Byte) (k : Nat) :
    fieldLe (le n x ++ rest) i k = fieldLe rest (i - n) k := by
  simpa [after] using fieldLe_behind (a := le n x) (by simpa using after) rest k

theorem bitsOf_whole {hi x : Nat} (fits : x < 2 ^ (hi + 1)) : bitsOf hi 0 x = x := by
  simp [bitsOf, Nat.mod_eq_of_lt fits]

theorem lowBits_whole {n x : Nat} (fits : x < 2 ^ n) : lowBits n x = x := Nat.mod_eq_of_lt fits

/-- A number in the low bits of a field that it does not fill. -/
theorem lowBits_field {m n x : Nat} (fits : x < 2 ^ m) (within : 2 ^ m ≤ 256 ^ n) (rest : List Byte) :
    lowBits m (fieldLe (le n x ++ rest) 0 n) = x := by
  rw [fieldLe_head (fits.trans_le within), lowBits_whole fits]

theorem seqHandle_num_lt {h : SeqHandle} (fits : h.fits = true) : h.num < 18446744073709551616 := by
  have training := b2n_le_one h.training
  have noskim := b2n_le_one h.noskim
  simp only [SeqHandle.fits, Bool.and_eq_true, decide_eq_true_eq] at fits
  simp only [SeqHandle.num]
  omega

theorem pageHandle_num_lt {h : PageHandle} (fits : h.fits = true) : h.num < 18446744073709551616 := by
  simp only [PageHandle.fits, Bool.and_eq_true, decide_eq_true_eq] at fits
  simp only [PageHandle.num]
  omega

theorem seqHandleOf_field {h : SeqHandle} (fits : h.fits = true) (rest : List Byte) :
    seqHandleOf (fieldLe (le 8 h.num ++ rest) 0 8) = h := by
  rw [fieldLe_head (seqHandle_num_lt fits), seqHandleOf_num h fits]

theorem pageHandleOf_field {h : PageHandle} (fits : h.fits = true) (rest : List Byte) :
    pageHandleOf (fieldLe (le 8 h.num ++ rest) 0 8) = h := by
  rw [fieldLe_head (pageHandle_num_lt fits), pageHandleOf_num h fits]

/-! ### CFLAGS and the OPT byte (R88, R93, R109, R111) -/

theorem flag_le (b : Nat) (v : Bool) : flag b v ≤ 2 ^ b := by cases v <;> simp [flag]

theorem bitOf_flag_0 : ∀ v : Bool, bitOf 0 (flag 0 v) = v := by decide

theorem bitOf_flags_01 : ∀ v w : Bool, bitOf 0 (flag 0 v + flag 1 w) = v ∧ bitOf 1 (flag 0 v + flag 1 w) = w := by decide

theorem bitOf_flags_03 : ∀ v w : Bool, bitOf 0 (flag 0 v + flag 3 w) = v ∧ bitOf 3 (flag 0 v + flag 3 w) = w := by decide

theorem bitOf_flags_345 : ∀ u v w : Bool, bitOf 3 (flag 3 u + flag 4 v + flag 5 w) = u ∧
    bitOf 4 (flag 3 u + flag 4 v + flag 5 w) = v ∧ bitOf 5 (flag 3 u + flag 4 v + flag 5 w) = w := by decide

/-- The OPT byte of the attention commands: CAUSAL, BIAS, OUT_BF16 and VIA_MERGE. -/
theorem attnOpt_bits : ∀ bias < 4, ∀ u v w : Bool, bitOf 0 (flag 0 u + 2 * bias + flag 3 v + flag 4 w) = u ∧
    bitsOf 2 1 (flag 0 u + 2 * bias + flag 3 v + flag 4 w) = bias ∧
    bitOf 3 (flag 0 u + 2 * bias + flag 3 v + flag 4 w) = v ∧
    bitOf 4 (flag 0 u + 2 * bias + flag 3 v + flag 4 w) = w := by decide

theorem attnOpt_lt : ∀ bias < 4, ∀ u v w : Bool, flag 0 u + 2 * bias + flag 3 v + flag 4 w < 256 := by decide

theorem attn_bias_lt {a : AttnDesc} (fits : a.fits = true) : a.bias < 4 := by
  simp only [AttnDesc.fits, Bool.and_eq_true, decide_eq_true_eq] at fits
  omega

theorem attn_mergeNode_lt {a : AttnDesc} (fits : a.fits = true) : a.mergeNode < 4096 := by
  simp only [AttnDesc.fits, Bool.and_eq_true, decide_eq_true_eq] at fits
  omega

theorem encodeOpt_lt {body : Body} (fits : body.fits = true) : encodeOpt body < 256 := by
  cases body with
  | append _ create _ _ _ => exact (flag_le 0 create).trans_lt (by decide)
  | attnFwd a => exact attnOpt_lt _ (attn_bias_lt fits) _ _ _
  | attnBwd a dofmt step =>
    simp only [Body.fits, Bool.and_eq_true] at fits
    exact attnOpt_lt _ (attn_bias_lt fits.1.1.1) _ _ _
  | gradDrain release bf16 _ _ _ _ _ _ => exact (Nat.add_le_add (flag_le 0 release) (flag_le 3 bf16)).trans_lt (by decide)
  | merge m =>
    exact (Nat.add_le_add (Nat.add_le_add (flag_le 3 m.outBf16) (flag_le 4 m.viaMerge)) (flag_le 5 m.sum)).trans_lt (by decide)
  | prefixSearch stop cascade _ _ _ _ => exact (Nat.add_le_add (flag_le 0 stop) (flag_le 1 cascade)).trans_lt (by decide)
  | prefixDelete bySeq _ => exact (flag_le 0 bySeq).trans_lt (by decide)
  | guestPut create commit _ _ => exact (Nat.add_le_add (flag_le 0 create) (flag_le 1 commit)).trans_lt (by decide)
  | ledgerRead grant _ _ _ | ledgerWrite grant _ _ _ =>
    simp only [Body.fits, Bool.and_eq_true, decide_eq_true_eq] at fits
    simp only [encodeOpt]
    omega
  | ledgerRecall _ _ downgrade _ => exact (flag_le 0 downgrade).trans_lt (by decide)
  | _ => exact (by decide : 0 < 256)

/-! ### A command's own bytes, 0x1C to 0x3F of its descriptor (R89) -/

/-- `w` stands in `b` from 0x1C on. -/
def Holds1C (b w : List Byte) : Prop := ∀ i k : Nat, 28 ≤ i → fieldLe b i k = fieldLe w (i - 28) k

/-- `b` carries a body: its opcode, its OPT byte and its own bytes, with `payload` behind them. -/
structure Carries (b payload : List Byte) (body : Body) : Prop where
  opcode : fieldLe b 0 1 = body.opcode
  opt : fieldLe b 3 1 = encodeOpt body
  own : Holds1C b (encodeBody body ++ payload)

section
variable {b w : List Byte} {a : AttnDesc} {b23 w3a : Nat} (own : Holds1C b (encodeAttn a b23 w3a ++ w))
include own

theorem parseAttn_encodeAttn (opt : fieldLe b 3 1 = flag 0 a.causal + 2 * a.bias + flag 3 a.outBf16 + flag 4 a.viaMerge)
    (fits : a.fits = true) : parseAttn b a.mergeNode = a := by
  have bits := attnOpt_bits _ (attn_bias_lt fits) a.causal a.outBf16 a.viaMerge
  simp only [AttnDesc.fits, Bool.and_eq_true, decide_eq_true_eq, w16, w32] at fits
  simp [parseAttn, opt, bits, own _ _, encodeAttn, fieldLe_head, fieldLe_skip, fits]

/-- The byte at 0x23 is DOFMT in ATTN_BWD. -/
theorem encodeAttn_byte23 (fits : b23 < 256) : fieldLe b 0x23 1 = b23 := by
  simp [own _ _, encodeAttn, fieldLe_head, fieldLe_skip, fits]

/-- The word at 0x3A is MERGE_NODE in ATTN_FWD and GRAD_STEP in ATTN_BWD. -/
theorem encodeAttn_word3A (fits : w3a < 65536) : fieldLe b 0x3A 2 = w3a := by
  simp [own _ _, encodeAttn, fieldLe_head, fieldLe_skip, fits]

end

/-- A command's own fields are read back. ATTN_FWD and ATTN_BWD share a layout; each other command's fields stand where its
own branch of `parseBody` reads them. -/
theorem Carries.parseBody {b payload : List Byte} {body : Body} (carries : Carries b payload body) (fits : body.fits = true) :
    parseBody b = body := by
  obtain ⟨opcode, opt, own⟩ := carries
  cases body
  case attnFwd a =>
    have node : a.mergeNode < 4096 := attn_mergeNode_lt fits
    simp only [Machine.parseBody, opcode, Body.opcode, encodeAttn_word3A own (by omega), lowBits_whole (n := 12) node,
      parseAttn_encodeAttn own opt fits]
  case attnBwd a dofmt step =>
    simp only [Body.fits, Bool.and_eq_true, decide_eq_true_eq, w16, beq_iff_eq] at fits
    obtain ⟨⟨⟨attn, byte⟩, word⟩, node⟩ := fits
    simp only [Machine.parseBody, opcode, Body.opcode, encodeAttn_byte23 own byte, encodeAttn_word3A own word]
    rw [← node, parseAttn_encodeAttn own opt attn]
  all_goals
    simp only [Body.fits, TensorBlock.fits, MergeDesc.fits, Bool.and_eq_true, decide_eq_true_eq, w16, w32, w64] at fits
    simp [Machine.parseBody, opcode, Body.opcode, opt, encodeOpt, own _ _, encodeBody, parseTb, encodeTb, fieldLe_head,
      fieldLe_skip, lowBits_field, bitsOf_whole, bitOf_flag_0, bitOf_flags_01, bitOf_flags_03, bitOf_flags_345,
      seqHandleOf_field, pageHandleOf_field, fits]

/-! ### The descriptor (R88) -/

theorem encodeBody_length (body : Body) : (encodeBody body).length = 36 := by
  cases body <;> simp [encodeBody, encodeTb, encodeAttn]

theorem encodeDesc_length (d : Desc) : (encodeDesc d).length = 64 := by simp [encodeDesc, encodeBody_length]

theorem body_opcode_lt (body : Body) : body.opcode < 256 := by cases body <;> simp [Body.opcode]

theorem encodeDesc_carries (d : Desc) (payload : List Byte) (op : d.opcode = d.body.opcode) (fits : d.body.fits = true) :
    Carries (encodeDesc d ++ payload) payload d.body where
  opcode := by
    have byte := body_opcode_lt d.body
    simp [encodeDesc, fieldLe_head, op, byte]
  opt := by
    have byte := encodeOpt_lt fits
    simp [encodeDesc, fieldLe_head, fieldLe_skip, byte]
  own := fun i k past => by
    rw [encodeDesc, List.append_assoc]
    exact fieldLe_behind past _ k

/-- Only the reserved opcodes have no body. -/
theorem body_ne_reserved {body : Body} (op : body.opcode ≠ 0) : body ≠ .reserved := fun none => op (by rw [none]; rfl)

/-- ALLOW_PARTIAL and REPLICA_OK are read only for the opcodes they apply to, and are set for no other. -/
theorem cflags_read {d : Desc} (fit : d.cflagsFit = true) :
    (d.allowPartial && (d.opcode == 0x10 || d.opcode == 0x11 || d.opcode == 0x13)) = d.allowPartial ∧
      (d.replicaOk && d.opcode == 0x10) = d.replicaOk := by
  simp only [Desc.cflagsFit, Bool.and_eq_true] at fit
  constructor
  · cases allowed : d.allowPartial <;> simp_all
  · cases allowed : d.replicaOk <;> simp_all

/-- REQ_ID and QUEUE share the word at 0x08. -/
theorem reqQueue_read {reqId queue : Nat} (req : reqId < 281474976710656) (que : queue < 1024) :
    lowBits 48 (reqId + 281474976710656 * queue) = reqId ∧ bitsOf 57 48 (reqId + 281474976710656 * queue) = queue := by
  simp only [lowBits, bitsOf]
  omega

theorem parseDesc_encodeDesc {d : Desc} (mixed : Bool) (payload : List Byte) (fits : d.fits = true) :
    parseDesc mixed (encodeDesc d ++ payload) = d := by
  simp only [Desc.fits, Bool.and_eq_true, decide_eq_true_eq, beq_iff_eq, bne_iff_ne, Bool.not_eq_true', w32] at fits
  obtain ⟨⟨⟨⟨⟨⟨⟨⟨⟨⟨⟨op, known⟩, formed⟩, v2⟩, cflags⟩, epoch⟩, req⟩, queue⟩, seq⟩, zero⟩, len⟩, body⟩ := fits
  have own := (encodeDesc_carries d payload op body).parseBody body
  have opByte : d.opcode < 256 := op ▸ body_opcode_lt d.body
  have named := bne_iff_ne.mpr (body_ne_reserved (op ▸ known))
  have both : flag 0 d.allowPartial + flag 1 d.replicaOk < 256 :=
    (Nat.add_le_add (flag_le 0 _) (flag_le 1 _)).trans_lt (by decide)
  have word : d.reqId + 281474976710656 * d.queue < 18446744073709551616 := by omega
  calc parseDesc mixed (encodeDesc d ++ payload)
    _ = { d with v1 := false, formed := true } := by
      simp only [parseDesc, own]
      simp [encodeDesc, fieldLe_head, fieldLe_skip, opByte, both, word, epoch, len, seqHandle_num_lt seq, seqHandleOf_num _ seq,
        reqQueue_read req queue, bitOf_flags_01, cflags_read cflags, named, ← zero]
    _ = d := by rw [← formed, ← v2]

/-- Settles O11: each field of the header and of the body stands where it is read from. -/
theorem descriptorsReadBack : Obligations.DescriptorsReadBack :=
  fun d payload mixed fits => ⟨encodeDesc_length d, parseDesc_encodeDesc mixed payload fits⟩

/-! ### Gradient adds (R182, R203, R205) -/

/-- The values of a gradient frame after a contribution is added to it, word for word. -/
def addedWords (v : State) (c : Contribution) : List Byte :=
  (List.range 4096).flatMap fun i =>
    le 4 (add32 (BitVec.ofNat 32 (fieldLe (imgBytes v c.lpn 0 16384) (4 * i) 4)) (c.values.getD i zero32)).toNat

section
variable {s u v : State} {c : Contribution} {st pc : Nat} {errs : List WordErr} {bad : Bool}
  (on : s.running = true) (there : s.exec.contribs.find? (fun x => x.id == c.id) = some c)
  (place : placeOf s c.lpn = some (st, pc)) (runs : runsNow s (pcNum st pc) (.add c.id) = true)
  (still : (frameOf s c.lpn).inFlux = false) (clock : frameWaits s c.lpn = false)
include on there place runs still clock

theorem exec_gradientAdd_fails : exec (.gradientAdd c.id true errs) s =
    .next (planCheck (refill (failItem s (pcNum st pc)) (pcNum st pc)) c.key) := by
  show execGradientAdd c.id true s errs = _
  rw [execGradientAdd, whileRunning_on on]
  simp [there, place, runs, still, clock]

variable
  (taken : u = popBurst { s with exec := { s.exec with contribs := s.exec.contribs.filter fun x => x.id != c.id } } (pcNum st pc))
  (checked : checkWords u 2 c.lpn errs = (bad, v))
include taken checked

theorem exec_gradientAdd_adds (grad : (frameOf v c.lpn).grad = true) (sound : (frameOf v c.lpn).poison = false) :
    exec (.gradientAdd c.id false errs) s = .next (planCheck (commitChecked (imgWrite
      (setFlux (modStack v st fun k => { k with adds := k.adds + 1 }) c.lpn true) c.lpn 0 (addedWords v c)) c.lpn bad false)
        c.key) := by
  subst taken
  show execGradientAdd c.id false s errs = _
  rw [execGradientAdd, whileRunning_on on]
  simp [there, place, runs, still, clock, checked, grad, sound, addedWords]

theorem exec_gradientAdd_drops (unfit : (frameOf v c.lpn).grad = false ∨ (frameOf v c.lpn).poison = true) :
    exec (.gradientAdd c.id false errs) s = .next (planCheck v c.key) := by
  subst taken
  show execGradientAdd c.id false s errs = _
  rw [execGradientAdd, whileRunning_on on]
  rcases unfit with unfit | unfit <;> simp [there, place, runs, still, clock, checked, unfit]

end

/-! ### GRAD_DRAIN (R109, R185) -/

@[simp] theorem vacate_grads (s : State) (l : Loc) : (vacate s l).mem.grads = s.mem.grads := by cases l <;> rfl

@[simp] theorem freeExtent_grads (s : State) (l : Loc) : (freeExtent s l).mem.grads = s.mem.grads := by cases l <;> rfl

@[simp] theorem dropTransfers_grads (s : State) (lpn : Nat) : (dropTransfers s lpn).mem.grads = s.mem.grads :=
  foldState_keeps (fun t : State => t.mem.grads) vacate_grads _ s

@[simp] theorem freeFrame_grads (s : State) (lpn : Nat) : (freeFrame s lpn).mem.grads = s.mem.grads := by
  dsimp only [freeFrame]
  repeat' split
  all_goals simp [lpnGive, modFree, setFrame]

@[simp] theorem decRef_grads (s : State) (lpn : Nat) : (decRef s lpn).mem.grads = s.mem.grads := by
  dsimp only [decRef]
  repeat' split
  all_goals simp [modFrame, setFrame]

@[simp] theorem modSeq_grads (s : State) (q : SeqId) (f : Seq → Seq) : (modSeq s q f).mem.grads = s.mem.grads := by
  unfold modSeq
  split <;> rfl

/-- The frames of the gradients that a GRAD_DRAIN meets. -/
def drainFrames (s : State) (q : SeqId) (x : Seq) (layer hf hc ks ke : Nat) : List Nat :=
  (gradIn s q x (drainTensors x layer hf hc) ks ke).flatMap fun e => e.frames

/-- What a GRAD_DRAIN read answers once none of its frames is IN_FLUX and no backward command of its sequence runs. -/
def drainRead (s : State) (c : Command) (x : Seq) (bf16 : Bool) (layer hf hc step ks ke : Nat) : State :=
  let frames := drainFrames s c.desc.seq.id x layer hf hc ks ke
  let head := drainHeader step layer hf hc bf16 (contribSum x (drainTensors x layer hf hc) step) ks ke
  if frames.any fun n => (frameOf s n).poison then complete s c { status := .poison, data := head }
  else whenMemory s (frames.map (homeOf s)) (.command (cmdKey c)) 512 fun _ =>
    let rows := drainRows s c.desc.seq.id x ((rangeFrom hf (hf + hc)).map fun h => tensorIdx x layer h) step ks ke bf16
    complete (addSat s rows.2) c { status := .ok, data := head ++ rows.1 }

/-- Gradient entries let go of their frames and leave the table. -/
def freeGrads (s : State) (es : List GradEntry) : State :=
  let s1 := foldState decRef s (es.flatMap fun e => e.frames)
  { s1 with mem := { s1.mem with grads := s1.mem.grads.filter fun g => !es.contains g } }

theorem mem_freeGrads {s : State} {es : List GradEntry} {g : GradEntry} :
    g ∈ (freeGrads s es).mem.grads ↔ g ∈ s.mem.grads ∧ g ∉ es := by
  simp [freeGrads, foldState_keeps (fun t : State => t.mem.grads) decRef_grads]

/-- The contribution counts of the entries' heads reset. -/
def resetSums (es : List GradEntry) (y : Seq) : Seq := es.foldl (fun y e => { y with gradSum := tabDel y.gradSum e.tensor }) y

section
variable {s : State} {c : Command} {x : Seq} {bf16 : Bool} {layer hf hc step ks ke : Nat}

section
variable (sound : ∀ n ∈ drainFrames s c.desc.seq.id x layer hf hc ks ke, (frameOf s n).poison = false ∧
  locWaits s (homeOf s n) = false ∧ locHeld s (homeOf s n) = false)
include sound

theorem drainRead_rows {rows : List Byte} {sat : Nat} (read : drainRows s c.desc.seq.id x
    ((rangeFrom hf (hf + hc)).map fun h => tensorIdx x layer h) step ks ke bf16 = (rows, sat)) :
    drainRead s c x bf16 layer hf hc step ks ke = complete (addSat s sat) c
      { status := .ok
        data := drainHeader step layer hf hc bf16 (contribSum x (drainTensors x layer hf hc) step) ks ke ++ rows } := by
  have clean : ((drainFrames s c.desc.seq.id x layer hf hc ks ke).any fun n => (frameOf s n).poison) = false := by
    simpa using fun n among => (sound n among).1
  have places : ∀ l ∈ (drainFrames s c.desc.seq.id x layer hf hc ks ke).map (homeOf s), locWaits s l = false ∧ locHeld s l = false :=
    List.forall_mem_map.mpr fun n among => (sound n among).2
  rw [drainRead, if_neg (ne_true_of_eq_false clean), read]
  exact whenMemory_runs (fun l among => (places l among).1) (fun l among => (places l among).2)

end

theorem drainRead_poison (poisoned : ∃ n ∈ drainFrames s c.desc.seq.id x layer hf hc ks ke, (frameOf s n).poison = true) :
    drainRead s c x bf16 layer hf hc step ks ke = complete s c
      { status := .poison
        data := drainHeader step layer hf hc bf16 (contribSum x (drainTensors x layer hf hc) step) ks ke } :=
  if_pos (by simpa using poisoned)

variable (turn : Turn s c) (there : seqOf s c.desc.seq.id = some x)
include turn there

section
variable (body : c.desc.body = .gradDrain false bf16 layer hf hc step ks ke)
include body

theorem exec_gradDrainRead_refused {r : Reply} (stays : x.state ≠ .evicting) (refused : drainRefusal s c x = some r) :
    exec (.gradDrainRead c) s = .next (complete s c r) := by
  show execGradDrainRead c s = _
  rw [execGradDrainRead, whenReady_turn turn]
  simp only [body, withActive_refused there stays refused]

theorem exec_gradDrainRead_reads (fits : drainRefusal s c x = none) (active : x.state = .active)
    (quiet : ∀ l ∈ s.exec.live, isBwdBody l.cmd.desc.body = true → l.cmd.desc.seq.id = c.desc.seq.id → l.executed = true)
    (still : ∀ n ∈ drainFrames s c.desc.seq.id x layer hf hc ks ke, (frameOf s n).inFlux = false) :
    exec (.gradDrainRead c) s = .next (drainRead s c x bf16 layer hf hc step ks ke) := by
  have free : (s.exec.live.any fun l =>
      isBwdBody l.cmd.desc.body && l.cmd.desc.seq.id == c.desc.seq.id && !l.executed) = false := by
    simpa using quiet
  have committed : ((drainFrames s c.desc.seq.id x layer hf hc ks ke).any fun n => (frameOf s n).inFlux) = false := by
    simpa using still
  show execGradDrainRead c s = _
  rw [execGradDrainRead, whenReady_turn turn]
  simp only [body, withActive_active there fits active]
  rw [free, Bool.false_or]
  exact congrArg Host.Outcome.next (if_neg (ne_true_of_eq_false committed))

end

section
variable (body : c.desc.body = .gradDrain true bf16 layer hf hc step ks ke)
include body

theorem exec_gradDrainRelease_refused {r : Reply} (stays : x.state ≠ .evicting) (refused : drainRefusal s c x = some r) :
    exec (.gradDrainRelease c) s = .next (complete s c r) := by
  show execGradDrainRelease c s = _
  rw [execGradDrainRelease, whenReady_turn turn]
  simp only [body, withActive_refused there stays refused]

theorem exec_gradDrainRelease_frees (fits : drainRefusal s c x = none) (active : x.state = .active) {es : List GradEntry}
    (named : es = (gradIn s c.desc.seq.id x (drainTensors x layer hf hc) ks ke).filter fun g => g.step == step) :
    exec (.gradDrainRelease c) s = .next (complete (modSeq (freeGrads s es) c.desc.seq.id (resetSums es)) c
      { status := .ok
        data := drainHeader step layer hf hc false (contribSum (resetSums es x) (drainTensors x layer hf hc) step) ks ke }) := by
  subst named
  show execGradDrainRelease c s = _
  rw [execGradDrainRelease, whenReady_turn turn]
  simp only [body, withActive_active there fits active]
  rfl

end
end

/-! ### MERGE (R111 to R117) -/

/-- Whether early records are those of a key. -/
def earlyOf (tenant tag : Nat) (e : EarlyRecords) : Bool := e.tenant == tenant && e.tag == tag

/-- Early records reach the group of their key. -/
def addEarly (die tenant tag : Nat) (s : State) (e : EarlyRecords) : State :=
  match mergeGroup s die tenant tag with
  | none => s
  | some g => addReply s die g e.body

/-- A MERGE that has its room opens its group, takes the early records of its key out of the buffer, and counts the stale ones. -/
def openGroup (s : State) (c : Command) (m : MergeDesc) (die since : Nat) : State :=
  modLive (modMerge s die fun d => { d with
    groups := d.groups ++ [{ cmd := c, desc := m, tenant := c.desc.seq.tenant, since := since, bytes := mergeBytes m }],
    early := d.early.filter (fun e => !earlyOf c.desc.seq.tenant m.tag e),
    discards := d.discards +
      ((mergeOf s die).early.filter fun e => earlyOf c.desc.seq.tenant m.tag e && elapsed s e.since 20000).length,
    closed := d.closed.filter (· != (c.desc.seq.tenant, m.tag)) }) (cmdKey c) fun l => { l with begun := true }

section
variable {s : State} {c : Command} {m : MergeDesc} {die : Nat} (turn : Turn s c) (body : c.desc.body = .merge m)
  (home : die = mergeDie c.desc.seq.tenant m.tag)
include turn body home

theorem exec_merge_open {g : MergeGroup} (there : mergeGroup s die c.desc.seq.tenant m.tag = some g)
    (other : cmdKey g.cmd ≠ cmdKey c) : exec (.merge c) s = .next (complete s c { status := .refusedFit }) := by
  subst home
  show execMerge c s = _
  rw [execMerge, whenReady_turn turn]
  simp [body, there, other]

variable (new : mergeGroup s die c.desc.seq.tenant m.tag = none)
include new

theorem exec_merge_tooLarge (large : 8388608 < mergeBytes m) :
    exec (.merge c) s = .next (complete s c { status := .refusedFit }) := by
  subst home
  show execMerge c s = _
  rw [execMerge, whenReady_turn turn]
  simp [body, new, large]

theorem exec_merge_full (fits : mergeBytes m ≤ 8388608)
    (full : 8388608 < sumNat ((mergeOf s die).groups.map fun g => g.bytes) + mergeBytes m) :
    exec (.merge c) s = .next (complete s c { status := .busyRetry }) := by
  subst home
  show execMerge c s = _
  rw [execMerge, whenReady_turn turn]
  simp [body, new, full, Nat.not_lt.mpr fits]

theorem exec_merge_opens (room : sumNat ((mergeOf s die).groups.map fun g => g.bytes) + mergeBytes m ≤ 8388608) {l : Live}
    (live : liveOf s (cmdKey c) = some l) : exec (.merge c) s =
      .next (mergeCheck (foldState (addEarly die c.desc.seq.tenant m.tag) (openGroup s c m die l.since)
        ((mergeOf s die).early.filter fun e => earlyOf c.desc.seq.tenant m.tag e && !elapsed s e.since 20000))
        die c.desc.seq.tenant m.tag) := by
  subst home
  show execMerge c s = _
  rw [execMerge, whenReady_turn turn]
  simp only [body, new, live]
  rw [if_neg (by omega), if_neg (by omega)]
  rfl

end

section
variable {s u : State} {m : Inbound} {tag n die : Nat} (on : s.running = true) (kind : msgKind m.bytes = 3) (plain : m.sys = false)
  (taken : u = takeInbox s m) (keyed : tag = fieldLe m.bytes 16 4) (home : die = mergeDie m.tenant tag)
include on kind plain taken keyed home

theorem exec_mergeInput_reaches {g : MergeGroup} (there : mergeGroup u die m.tenant tag = some g) :
    exec (.mergeInput m) s = .next (mergeCheck (addReply u die g m.bytes) die m.tenant tag) := by
  subst taken keyed home
  show execMergeInput m s = _
  simp [execMergeInput, on, kind, plain, there]

variable (counted : n = fieldLe m.bytes 8 4) (unknown : mergeGroup u die m.tenant tag = none)
include counted unknown

theorem exec_mergeInput_discards
    (away : (m.tenant, tag) ∈ (mergeOf u die).closed ∨ 4096 < sumNat ((mergeOf u die).early.map fun e => e.count) + n) :
    exec (.mergeInput m) s = .next (discardInputs u die 1) := by
  subst taken keyed home counted
  show execMergeInput m s = _
  simp [execMergeInput, on, kind, plain, unknown, away]

theorem exec_mergeInput_holds (open_ : (m.tenant, tag) ∉ (mergeOf u die).closed)
    (room : sumNat ((mergeOf u die).early.map fun e => e.count) + n ≤ 4096) : exec (.mergeInput m) s =
      .next (modMerge u die fun d => { d with early := d.early ++ [⟨m.tenant, tag, now u, n, m.bytes⟩] }) := by
  subst taken keyed home counted
  show execMergeInput m s = _
  simp [execMergeInput, on, kind, plain, unknown, open_, Nat.not_lt.mpr room]

end

theorem exec_mergeTimeout_closes {s : State} {die : Fin 2} {tenant tag : Nat} {g : MergeGroup} (on : s.running = true)
    (there : mergeGroup s die.val tenant tag = some g) (due : g.since + g.desc.timeout ≤ now s) :
    exec (.mergeTimeout die tenant tag) s = .next (closeGroup s die.val g) := by
  show execMergeTimeout die tenant tag s = _
  simp [execMergeTimeout, whileRunning_on on, there, elapsed, due]

theorem earlyBufferExpiry_gives {s : State} {die : Fin 2} (on : s.running = true) : Gives (.earlyBufferExpiry die) s fun t =>
    (∀ e ∈ (mergeOf t die.val).early, e ∈ (mergeOf s die.val).early ∧ now s < e.since + 20000) ∧
    (mergeOf t die.val).discards + (mergeOf t die.val).early.length =
      (mergeOf s die.val).discards + (mergeOf s die.val).early.length := by
  refine ⟨_, congrArg Host.Outcome.next (whileRunning_on on), fun e held => ?_, ?_⟩
  · simpa [mergeOf_modMerge, elapsed] using held
  · have split := List.length_eq_length_filter_add (l := (mergeOf s die.val).early) fun e => elapsed s e.since 20000
    simp only [mergeOf_modMerge]
    omega

/-- Settles O49, clause by clause, by what each of these steps does. -/
theorem gradientsAndMerges : Obligations.GradientsAndMerges := by
  refine ⟨fun s c st pc errs on there place runs still clock => ⟨exec_gradientAdd_fails on there place runs still clock,
      fun u v bad taken checked => ⟨exec_gradientAdd_adds on there place runs still clock taken checked,
        exec_gradientAdd_drops on there place runs still clock taken checked⟩⟩,
    fun s c x bf16 layer hf hc step ks ke ts turn there stays named =>
      ⟨fun body => ⟨fun r => exec_gradDrainRead_refused turn there body stays, ?reads⟩,
        fun body => ⟨fun r => exec_gradDrainRelease_refused turn there body stays, ?releases⟩⟩,
    fun s c m die turn body home => ⟨fun g => exec_merge_open turn body home, fun new => ⟨exec_merge_tooLarge turn body home new,
      exec_merge_full turn body home new, ?opens⟩⟩,
    fun s u m tag n die on kind plain taken keyed counted home => ⟨fun g => exec_mergeInput_reaches on kind plain taken keyed home,
      fun unknown => ⟨exec_mergeInput_discards on kind plain taken keyed home counted unknown,
        exec_mergeInput_holds on kind plain taken keyed home counted unknown⟩⟩,
    fun s die on => ⟨fun tenant tag g => exec_mergeTimeout_closes on, earlyBufferExpiry_gives on⟩⟩
  case reads =>
    intro fits active quiet fs framed still head headed
    subst named framed headed
    have go := exec_gradDrainRead_reads turn there body fits active quiet still
    exact ⟨fun poisoned => by rw [go, drainRead_poison poisoned],
      fun sound rows sat read => by rw [go, drainRead_rows sound read]⟩
  case releases =>
    intro fits active
    subst named
    refine ⟨_, exec_gradDrainRelease_frees turn there body fits active rfl, fun g left => ?_, fun g held other => ?_, _, _, rfl⟩
    · rw [complete_mem, modSeq_grads, mem_freeGrads] at left
      obtain ⟨held, kept⟩ := left
      exact ⟨held, fun taken => kept (by simpa using taken)⟩
    · rw [complete_mem, modSeq_grads, mem_freeGrads]
      exact ⟨held, fun taken => other (by simpa using taken)⟩
  case opens =>
    intro room l live own owned
    subst owned
    exact exec_merge_opens turn body home new room live

end Sys2Proof.Machine

/-!
The attention execution family: how a visit is carried out, and how it leaves the plan stage.
-/

namespace Sys2Proof.Machine

/-! ### What leaves the visits of the plan stage alone: messages and completions -/

theorem foldState_visits {α : Type} {f : State → α → State} (keeps : ∀ t a, (f t a).exec.visits = t.exec.visits)
    (s : State) (l : List α) : (foldState f s l).exec.visits = s.exec.visits :=
  foldState_keeps (fun t : State => t.exec.visits) keeps l s

@[simp] theorem sendMsg_visits (s : State) (a : AssocKey) (cls : MsgClass) (egress : Nat) (arrival : Option (Nat × Nat))
    (bytes : List Byte) : (sendMsg s a cls egress arrival bytes).exec.visits = s.exec.visits :=
  congrArg ExecSt.visits (sendMsg_answ (Answ.refl s)).exec

@[simp] theorem sendControl_visits (s : State) (e : Endpoint) (bytes : List Byte) :
    (sendControl s e bytes).exec.visits = s.exec.visits := congrArg ExecSt.visits (sendControl_answ (Answ.refl s)).exec

@[simp] theorem noteInternal_visits (s : State) (opcode src reqId kind unit detail : Nat) :
    (noteInternal s opcode src reqId kind unit detail).exec.visits = s.exec.visits :=
  congrArg ExecSt.visits (noteInternal_answ (Answ.refl s)).exec

@[simp] theorem deliver_visits (s : State) (m : Inbound) : (deliver s m).exec.visits = s.exec.visits := by
  dsimp only [deliver]
  repeat' split
  all_goals rfl

@[simp] theorem answerOne_visits (s : State) (c : Command) (r : Reply) : (answerOne s c r).exec.visits = s.exec.visits :=
  congrArg ExecSt.visits (sendReply_answ (Answ.refl (modQueue s c.desc.queue fun q => { q with count := q.count + 1 }))).exec

@[simp] theorem completeOne_visits (s : State) (c : Command) (r : Reply) : (completeOne s c r).exec.visits = s.exec.visits := by
  dsimp only [completeOne]
  split
  · rfl
  · split <;> simp only [sendControl_visits, answerOne_visits, settle_exec] <;> split <;> simp [dropLive]

@[simp] theorem releaseQwait_visits (s : State) : (releaseQwait s).exec.visits = s.exec.visits := by
  unfold releaseQwait
  split <;> simp

@[simp] theorem complete_visits (s : State) (c : Command) (r : Reply) : (complete s c r).exec.visits = s.exec.visits :=
  (iter_keeps (fun t : State => t.exec.visits) releaseQwait_visits _ _).trans (completeOne_visits s c r)

/-! ### What leaves the visits alone: frames, pins and refreshes -/

@[simp] theorem vacate_exec (s : State) (l : Loc) : (vacate s l).exec = s.exec := by cases l <;> rfl

@[simp] theorem freeExtent_exec (s : State) (l : Loc) : (freeExtent s l).exec = s.exec := by cases l <;> rfl

@[simp] theorem lpnGive_exec (s : State) (lpn : Nat) : (lpnGive s lpn).exec = s.exec := rfl

@[simp] theorem dropTransfers_exec (s : State) (lpn : Nat) : (dropTransfers s lpn).exec = s.exec :=
  foldState_keeps State.exec vacate_exec _ s

@[simp] theorem freeFrame_exec (s : State) (lpn : Nat) : (freeFrame s lpn).exec = s.exec := by
  dsimp only [freeFrame]
  repeat' split
  all_goals simp

@[simp] theorem dropOldExts_exec (s : State) (lpn : Nat) : (dropOldExts s lpn).exec = s.exec :=
  foldState_keeps State.exec (fun t (e : Nat × Loc) => freeExtent_exec t e.2) _ s

@[simp] theorem unpin_exec (s : State) (lpn : Nat) : (unpin s lpn).exec = s.exec := by
  dsimp only [unpin]
  repeat' split
  all_goals simp

@[simp] theorem slotWrite_exec (s : State) (l : Loc) (o : Nat) (bs : List Byte) : (slotWrite s l o bs).exec = s.exec := by
  cases l <;> rfl

@[simp] theorem refreshFrame_exec (s : State) (x : Seq) (lpn : Nat) : (refreshFrame s x lpn).exec = s.exec := by
  simp [refreshFrame, setSideFlag, writeSkim, imgWrite]

@[simp] theorem holdAt_exec (s : State) (l : Loc) (w : HoldWork) (words : Nat) : (holdAt s l w words).exec = s.exec := by
  cases l <;> rfl

@[simp] theorem refreshStep_visits (s : State) (j : RefreshJob) : (refreshStep s j).exec.visits = s.exec.visits := by
  dsimp only [refreshStep]
  split
  · rfl
  · split
    · rw [complete_visits]
    · next x _ =>
      have waits : ∀ (t : State) (n : Nat),
          (if frameHeld t n then holdAt t (homeOf t n) (.frame n) 576 else t).exec.visits = t.exec.visits := by
        intro t n
        split <;> simp
      have writes : ∀ (t : State) (n : Nat), (refreshFrame t x n).exec.visits = t.exec.visits := by simp
      split
      · rw [complete_visits]
        exact (foldState_visits writes _ _).trans (foldState_visits waits s _)
      · exact (foldState_visits writes _ _).trans (foldState_visits waits s _)

@[simp] theorem refreshAll_visits (s : State) : (refreshAll s).exec.visits = s.exec.visits :=
  foldState_visits refreshStep_visits s _

/-! ### What leaves the visits alone: folds at the chains, and the end of a command -/

@[simp] theorem modPlan_visits (s : State) (k : CmdKey) (f : Plan → Plan) : (modPlan s k f).exec.visits = s.exec.visits := rfl

@[simp] theorem modGroup_visits (s : State) (k : CmdKey) (i : Nat) (f : Group → Group) :
    (modGroup s k i f).exec.visits = s.exec.visits := rfl

@[simp] theorem modSeq_exec (s : State) (q : SeqId) (f : Seq → Seq) : (modSeq s q f).exec = s.exec := by
  unfold modSeq
  split <;> rfl

@[simp] theorem nameHome_visits (s : State) (key : CmdKey) (gi quad : Nat) :
    (nameHome s key gi quad).exec.visits = s.exec.visits := by
  unfold nameHome
  split
  · rfl
  · split
    · rfl
    · rfl

@[simp] theorem rootChain_exec (s : State) (p : Plan) (g : Group) : (rootChain s p g).2.exec = s.exec := by
  dsimp only [rootChain]
  split <;> rfl

@[simp] theorem foldHome_visits (s : State) (p : Plan) (gi quad block : Nat) (parts : List (Nat × List Partial)) :
    (foldHome s p gi quad block parts).exec.visits = s.exec.visits := by
  simp [foldHome]

@[simp] theorem flushTiles_visits (s : State) (key : CmdKey) (gi : Nat) :
    (flushTiles s key gi).exec.visits = s.exec.visits := by
  unfold flushTiles
  split
  · rfl
  · refine foldState_visits (fun t e => ?_) s _
    dsimp only
    repeat' split
    all_goals simp

@[simp] theorem foldRoot_visits (s : State) (key : CmdKey) (gi : Nat) : (foldRoot s key gi).exec.visits = s.exec.visits := by
  unfold foldRoot
  split
  · rfl
  · next p _ =>
    refine (foldState_visits (fun t e => ?_) _ _).trans (congrArg ExecSt.visits (rootChain_exec s p _))
    split <;> rfl

@[simp] theorem foldRoots_visits (s : State) (key : CmdKey) : (foldRoots s key).exec.visits = s.exec.visits := by
  unfold foldRoots
  split
  · rfl
  · refine foldState_visits (fun t gi => ?_) s _
    split <;> simp

@[simp] theorem adjustDepth_exec (s : State) (p : Plan) : (adjustDepth s p).exec = s.exec := modSeq_exec s p.seq _

@[simp] theorem countBwd_exec (s : State) (p : Plan) (step : Nat) : (countBwd s p step).exec = s.exec :=
  foldState_keeps State.exec (fun t _ => modSeq_exec t p.seq _) _ s

@[simp] theorem sendRecords_visits (s : State) (c : Command) (node tenant egress : Nat) (bytes : List Byte) :
    (sendRecords s c node tenant egress bytes).exec.visits = s.exec.visits := by
  unfold sendRecords
  split <;> simp

@[simp] theorem countRecords_exec (s : State) (die tenant n : Nat) : (countRecords s die tenant n).exec = s.exec := rfl

@[simp] theorem finishPlan_visits (s : State) (p : Plan) : (finishPlan s p).exec.visits = s.exec.visits := by
  dsimp only [finishPlan]
  repeat' split
  all_goals
    simp only [complete_visits, sendRecords_visits, countRecords_exec, countBwd_exec, adjustDepth_exec]
    exact foldState_visits (fun t (i : Pin) => congrArg ExecSt.visits (unpin_exec t i.lpn)) _ _

@[simp] theorem planCheck_visits (s : State) (key : CmdKey) : (planCheck s key).exec.visits = s.exec.visits := by
  dsimp only [planCheck]
  repeat' split
  all_goals simp

/-! ### The visits that end (R68, R156) -/

@[simp] theorem chainTimers_exec (s : State) (quad : Nat) (bwd : Bool) : (chainTimers s quad bwd).exec = s.exec := by
  dsimp only [chainTimers]
  repeat' split
  all_goals rfl

@[simp] theorem pinDone_visits (s : State) (key : CmdKey) (t k : Nat) : (pinDone s key t k).exec.visits = s.exec.visits := by
  dsimp only [pinDone]
  repeat' split
  all_goals simp

theorem visitEnd_visits (s : State) (v : Visit) :
    (visitEnd s v).exec.visits = s.exec.visits.filter fun x => x.id != v.id := by
  dsimp only [visitEnd]
  split <;> simp

theorem visitOf_visitEnd (s : State) (v : Visit) : visitOf (visitEnd s v) v.id = none := by
  simp [visitOf, visitEnd_visits]

theorem dropItem_visits (s : State) (i : Item) : (dropItem s i).exec.visits = s.exec.visits := rfl

@[simp] theorem unpinTensor_visits (s : State) (key : CmdKey) (t : Nat) : (unpinTensor s key t).exec.visits = s.exec.visits := by
  unfold unpinTensor
  split
  · rfl
  · exact foldState_visits (fun t (i : Pin) => congrArg ExecSt.visits (unpin_exec t i.lpn)) _ _

@[simp] theorem dropGradients_visits (s : State) (p : Plan) (t : Nat) (page : Option Nat) :
    (dropGradients s p t page).exec.visits = s.exec.visits :=
  foldState_visits (fun t (c : Contribution) => dropItem_visits t (.add c.id)) s _

/-- The visits whose numbers are none of the dropped ones stay. -/
theorem dropVisits_visits (s : State) (which : Visit → Bool) : (dropVisits s which).exec.visits =
    s.exec.visits.filter fun v => !((s.exec.visits.filter which).map Visit.id).contains v.id := by
  have items : ∀ ids : List Nat, (foldState (fun s i => dropItem s (.visit i)) s ids).exec.visits = s.exec.visits :=
    foldState_visits (fun t i => dropItem_visits t (.visit i)) s
  have timers : ∀ (t : State) (e : Visit × Bool),
      (if e.1.path == .tile || e.1.path == .fallback then chainTimers t e.1.quad e.2 else t).exec.visits = t.exec.visits := by
    intro t e
    split <;> simp
  unfold dropVisits
  refine (foldState_visits timers _ _).trans ?_
  simp only [items, List.map_map, Function.comp_def]

theorem mem_dropVisits {s : State} {which : Visit → Bool} {x : Visit} (left : x ∈ (dropVisits s which).exec.visits) :
    x ∈ s.exec.visits ∧ which x = false := by
  rw [dropVisits_visits] at left
  obtain ⟨held, other⟩ := List.mem_filter.1 left
  have spared : ∀ y ∈ s.exec.visits, which y = true → y.id ≠ x.id := by simpa using other
  exact ⟨held, Bool.eq_false_iff.2 fun meant => spared x held meant rfl⟩

/-- A hole leaves the visits of other pages, heads and commands. -/
theorem mem_makeHole {s : State} {p : Plan} {gi k : Nat} {reason : Status} {x : Visit}
    (left : x ∈ (makeHole s p gi k reason).exec.visits) :
    x ∈ s.exec.visits ∧ ¬(x.key = p.key ∧ x.group = gi ∧ x.page = k) := by
  have kept : x ∈ (dropVisits (dropGradients s p (groupOf p gi).tensor (some k)) fun v =>
      v.key == p.key && v.group == gi && v.page == k).exec.visits := by
    dsimp only [makeHole] at left
    split at left <;> simpa using left
  simpa using mem_dropVisits kept

theorem mem_settlePoison {s : State} {k : CmdKey} {gi page : Nat} {p : Plan} (planned : planFor s k = some p) {x : Visit}
    (left : x ∈ (settlePoison s k gi page).exec.visits) :
    x ∈ s.exec.visits ∧ ¬(x.key = k ∧ x.group = gi ∧ x.page = page) := by
  have keyed : p.key = k := by simpa using List.find?_some planned
  simp only [settlePoison, planned] at left
  split at left
  · rw [← keyed]
    exact mem_makeHole left
  · have kept : x ∈ (dropVisits (dropGradients s p (groupOf p gi).tensor none) fun v =>
        v.key == k && v.group == gi).exec.visits := by simpa using left
    obtain ⟨held, other⟩ := mem_dropVisits kept
    simp only [dropGradients_visits] at held
    exact ⟨held, fun ⟨own, head, _⟩ => by simp [own, head] at other⟩

theorem mem_visitPoison {s : State} {v : Visit} {p : Plan} (planned : planFor s v.key = some p) {x : Visit}
    (left : x ∈ (visitPoison s v).exec.visits) :
    x ∈ s.exec.visits ∧ ¬(x.key = v.key ∧ x.group = v.group ∧ x.page = v.page) :=
  mem_settlePoison planned (by simpa [visitPoison] using left)

/-! ### Mash visits (R139, R142, R156, R189) -/

/-- No injection on the mash units of channel `n` fires (R491). -/
theorem noInjection {s : State} {n : Nat} (whole : s.fault.inj.unit / 32 ≠ n ∨ fireInj s 6 s.fault.inj.unit = none) :
    (if s.fault.inj.unit / 32 = n then fireInj s 6 s.fault.inj.unit else none) = none := by
  simpa [or_iff_not_imp_left] using whole

section
variable {s u : State} {v : Visit} {p : Plan} (on : s.running = true) (there : visitOf s v.id = some v)
include on there

section
variable (planned : planFor s v.key = some p)
include planned

section
variable {st pc : Nat} {errs : List WordErr} (path : v.path = .mash) (place : placeOf s v.lpn = some (st, pc))
  (runs : runsNow s (pcNum st pc) (.visit v.id) = true) (still : (frameOf s v.lpn).inFlux = false)
  (clock : frameWaits s v.lpn = false)
include path place runs still clock

theorem exec_mashVisit_unitFails {mode : Nat} (own : s.fault.inj.unit / 32 = pcNum st pc)
    (fires : fireInj s 6 s.fault.inj.unit = some (mode, u)) : exec (.mashVisit v.id errs) s =
      .next (unitFails u st pc (s.fault.inj.unit % 32) false true true) := by
  show execMashVisit v.id errs s = _
  rw [execMashVisit, whileRunning_on on]
  simp [there, planned, path, place, runs, still, clock, own, fires]

variable {bad : Bool} (whole : s.fault.inj.unit / 32 ≠ pcNum st pc ∨ fireInj s 6 s.fault.inj.unit = none)
  (checked : checkWords s 2 v.lpn errs = (bad, u))
include whole checked

theorem exec_mashVisit_poison (fails : bad = true ∨ (frameOf (popBurst u (pcNum st pc)) v.lpn).poison = true) :
    exec (.mashVisit v.id errs) s = .next (visitPoison (popBurst u (pcNum st pc)) v) := by
  show execMashVisit v.id errs s = _
  rw [execMashVisit, whileRunning_on on]
  simp [there, planned, path, place, runs, still, clock, noInjection whole, checked, fails]

theorem exec_mashVisit_folds (passes : bad = false) (sound : (frameOf (popBurst u (pcNum st pc)) v.lpn).poison = false)
    {w y : State} {rs : List (Partial × Nat)} (popped : w = popBurst u (pcNum st pc))
    (rows : rs = visitRows w p v (mashPartial p.shape))
    (counted : y = modQuad (addSat w (sumNat (rs.map Prod.snd))) (quadOfStack st) fun q => { q with mashVis := q.mashVis + 1 }) :
    exec (.mashVisit v.id errs) s = .next (visitEnd (foldHome (bump (modStack y st fun k => { k with visits := k.visits + 1 })
      p.seq.tenant 1 1) p v.group (quadOfStack st) v.block [(v.page, rs.map Prod.fst)]) v) := by
  subst popped rows counted
  show execMashVisit v.id errs s = _
  rw [execMashVisit, whileRunning_on on]
  simp [there, planned, path, place, runs, still, clock, noInjection whole, checked, passes, sound]

end

/-! ### Tile visits (R146, R156, R194, R203) -/

section
variable {ts : List Nat} {errs : List WordErr} (path : v.path = .tile)
  (chain : chainTiles s (serveQuad s v.quad) p.bwd (chainPick s v) = some ts) (still : (frameOf s v.lpn).inFlux = false)
  (clock : frameWaits s v.lpn = false)
include path chain still clock

theorem exec_tileVisit_held (held : frameHeld s v.lpn = true) :
    exec (.tileVisit v.id errs) s = .next (holdAt s (homeOf s v.lpn) (.visit v.id) 576) := by
  show execTileVisit v.id errs s = _
  rw [execTileVisit, whileRunning_on on]
  simp [there, planned, path, chain, still, whenMemory_frame_held clock held]

variable (free : frameHeld s v.lpn = false)
include free

theorem exec_tileVisit_tileFails (fires : tileInjection s ts = some u) : exec (.tileVisit v.id errs) s =
    .next (tileFails u s.fault.inj.unit (s.fault.inj.unit % 16) true true) := by
  show execTileVisit v.id errs s = _
  rw [execTileVisit, whileRunning_on on]
  simp [there, planned, path, chain, still, whenMemory_frame_runs clock free, fires]

variable {bad : Bool} (whole : tileInjection s ts = none) (checked : checkWords s 1 v.lpn errs = (bad, u))
include whole checked

theorem exec_tileVisit_poison (fails : bad = true ∨ (frameOf u v.lpn).poison = true) :
    exec (.tileVisit v.id errs) s = .next (visitPoison u v) := by
  show execTileVisit v.id errs s = _
  rw [execTileVisit, whileRunning_on on]
  simp [there, planned, path, chain, still, whenMemory_frame_runs clock free, whole, checked, fails]

theorem exec_tileVisit_folds (passes : bad = false) (sound : (frameOf u v.lpn).poison = false) :
    exec (.tileVisit v.id errs) s =
      .next (visitEnd (tileWork (bump (countTiles u (serveQuad s v.quad) ts) p.seq.tenant 1 1) p v) v) := by
  show execTileVisit v.id errs s = _
  rw [execTileVisit, whileRunning_on on]
  simp [there, planned, path, chain, still, whenMemory_frame_runs clock free, whole, checked, passes, sound]

end

/-! ### Fallback visits (R231, R232) -/

section
variable (path : v.path = .fallback)
include path

section
variable {bad : Bool} (decoded : v.decoded = true) (still : (frameOf s v.lpn).inFlux = false)
include decoded still

theorem exec_fallbackVisit_poison (fails : bad = true ∨ (frameOf s v.lpn).poison = true) :
    exec (.fallbackVisit v.id bad) s = .next (visitPoison (modFrame s v.lpn fun f => { f with poison := true }) v) := by
  show execFallbackVisit v.id bad s = _
  rw [execFallbackVisit, whileRunning_on on]
  simp [there, planned, path, decoded, still, fails]

theorem exec_fallbackVisit_folds (passes : bad = false) (sound : (frameOf s v.lpn).poison = false) {ts : List Nat}
    (chain : chainTiles s (serveQuad s v.quad) p.bwd (chainPick s v) = some ts) : exec (.fallbackVisit v.id bad) s =
      .next (visitEnd (tileWork (modGroup (bump (countTiles s (serveQuad s v.quad) ts) p.seq.tenant 1 1) v.key v.group
        (markLate v.block)) p v) v) := by
  show execFallbackVisit v.id bad s = _
  rw [execFallbackVisit, whileRunning_on on]
  simp [there, planned, path, decoded, still, passes, sound, chain]

end

section
variable {w : State} (early : v.late = false) (due : v.planned + pFallback s ≤ now s)
  (flagged : u = modVisit s v.id fun v => { v with late := true })
include early due flagged

theorem exec_fallbackDeadline_hole (holed : w = makeHole u p v.group v.page .tierLate)
    (partly : p.cmd.desc.allowPartial = true) : exec (.fallbackDeadline v.id) s =
      .next (planCheck (flushTiles { w with mem := { w.mem with lateHoles := w.mem.lateHoles + 1 } } v.key v.group) v.key) := by
  subst flagged holed
  show execFallbackDeadline v.id s = _
  rw [execFallbackDeadline, whileRunning_on on]
  simp [there, planned, path, early, elapsed, due, partly]

theorem exec_fallbackDeadline_waits (entire : p.cmd.desc.allowPartial = false) :
    exec (.fallbackDeadline v.id) s = .next (modGroup u v.key v.group (markLate v.block)) := by
  subst flagged
  show execFallbackDeadline v.id s = _
  rw [execFallbackDeadline, whileRunning_on on]
  simp [there, planned, path, early, elapsed, due, entire]

end
end
end

/-! ### Visits that wait (R139, R213, R230) -/

theorem exec_mashWaitExpiry_reroutes (path : v.path = .mash) (queued : v.inBurst = false) (limited : pMashWait s ≠ 0)
    (due : v.planned + pMashWait s ≤ now s) : exec (.mashWaitExpiry v.id) s =
      .next (modVisit (dropItem s (.visit v.id)) v.id fun v => { v with path := .tile }) := by
  show execMashWaitExpiry v.id s = _
  rw [execMashWaitExpiry, whileRunning_on on]
  simp [there, path, queued, limited, elapsed, due]

theorem exec_stageWaitExpiry_fallback (path : v.path = .stageWait) (due : v.planned + pStageWait s ≤ now s) :
    exec (.stageWaitExpiry v.id) s = .next (takeFallback s v) := by
  show execStageWaitExpiry v.id s = _
  rw [execStageWaitExpiry, whileRunning_on on]
  simp [there, path, elapsed, due]

end

/-- Settles O48: the ways of a mash, a tile and a fallback visit and of one that waits, clause by clause, and what visits the end
of one and the poison of a page leave. -/
theorem visitsEnd : Obligations.VisitsEnd := by
  refine ⟨fun s v p on there planned => ⟨?mash, ?tile, ?fallback, exec_mashWaitExpiry_reroutes on there,
      exec_stageWaitExpiry_fallback on there, ?late⟩,
    fun s v => ⟨visitOf_visitEnd s v, fun p planned x => mem_visitPoison planned⟩⟩
  case mash =>
    intro st pc n unit errs path place channel runs still clock armed
    subst channel armed
    refine ⟨fun mode u => exec_mashVisit_unitFails on there planned path place runs still clock,
      fun whole bad u w checked popped => ⟨fun fails => ?_, fun passes sound rs y => ?_⟩⟩
    · subst popped
      exact exec_mashVisit_poison on there planned path place runs still clock whole checked fails
    · subst popped
      exact exec_mashVisit_folds on there planned path place runs still clock whole checked passes sound rfl
  case tile =>
    intro q ts errs path served chain still clock
    subst served
    exact ⟨exec_tileVisit_held on there planned path chain still clock, fun free =>
      ⟨fun u => exec_tileVisit_tileFails on there planned path chain still clock free, fun whole bad u checked =>
        ⟨exec_tileVisit_poison on there planned path chain still clock free whole checked,
          exec_tileVisit_folds on there planned path chain still clock free whole checked⟩⟩⟩
  case fallback =>
    intro bad path decoded still
    refine ⟨exec_fallbackVisit_poison on there planned path decoded still, fun passes sound q ts served chain => ?_⟩
    subst served
    exact exec_fallbackVisit_folds on there planned path decoded still passes sound chain
  case late =>
    intro path early due u w flagged holed
    exact ⟨exec_fallbackDeadline_hole on there planned path early due flagged holed,
      exec_fallbackDeadline_waits on there planned path early due flagged⟩

end Sys2Proof.Machine

/-!
The skim and backward family: what a failed tile does to its quadrant (R488, R489), and how backward chains form and go back
(R174, R176).
-/

namespace Sys2Proof.Machine

/-! ### A failed tile (R488, R489) -/

@[simp] theorem caskAction_mem (s : State) (what : Nat) (u : UnitRef) (left : Nat) : (caskAction s what u left).mem = s.mem :=
  (caskAction_aside (Aside.refl true s)).mem

@[simp] theorem fenceNode_mem (s : State) (cause source : Nat) : (fenceNode s cause source).mem = s.mem :=
  (fenceNode_aside (Aside.refl true s)).mem

/-- A tile once the spare stands in its place. -/
def Tile.replaced (x : Tile) : Tile := { x with spared := true, state := 0 }

/-- A quadrant once its spare stands in the place of its tile `n`. -/
def Quad.sparing (n phys : Nat) (x : Quad) : Quad :=
  { x with spareFree := false, spareActive := true, spareTarget := n, spareFailedPhys := phys }

/-- A tile once it is isolated. -/
def Tile.isolated (x : Tile) : Tile := { x with state := 2, spared := false }

/-- A quadrant once its tile `n` is isolated: its spare is spent, and it has no backward chain that holds the tile. -/
def Quad.without (n : Nat) (x : Quad) : Quad :=
  { x with spareFail := x.spareFail || x.spareFree, spareFree := false, spareActive := x.spareActive && x.spareTarget != n,
           bwd := x.bwd.filter fun k => !(bwdTiles (n / 16) k).contains n }

theorem Quad.not_mem_bwd_without {n : Nat} {x : Quad} : ∀ k ∈ (x.without n).bwd, n ∉ bwdTiles (n / 16) k := by
  intro k left
  simpa using (List.mem_filter.1 left).2

section
variable {s t : State} {n phys : Nat} {ok : Bool}

/-- A tile and its quadrant are read back as they were put. -/
theorem tile_quad_of_mem {f : Tile → Tile} {g : Quad → Quad} (put : t.mem = (modQuad (modTile s n f) (n / 16) g).mem) :
    tileOf t n = f (tileOf s n) ∧ quadOf t (n / 16) = g (quadOf s (n / 16)) := by
  constructor
  · rw [tileOf, put, ← tileOf, modQuad_tileOf, tileOf_modTile, if_pos rfl]
  · rw [quadOf, put, ← quadOf, quadOf_modQuad, if_pos rfl, modTile_quadOf]

/-- Neither the ACTION record nor the fence of a die without a forward chain touches the tile and its quadrant again. -/
theorem tileOut_isolates (live : (tileOf s n).state ≠ 2) :
    tileOf (tileOut s n) n = (tileOf s n).isolated ∧ quadOf (tileOut s n) (n / 16) = (quadOf s (n / 16)).without n := by
  refine tile_quad_of_mem ?_
  rw [tileOut, if_neg live]
  dsimp only
  split
  · rw [fenceNode_mem, caskAction_mem]
    rfl
  · rw [caskAction_mem]
    rfl

theorem tileReplace_spare (live : (tileOf s n).state ≠ 2) (free : (quadOf s (n / 16)).spareFree = true) :
    tileOf (tileReplace s n phys true) n = (tileOf s n).replaced ∧
      quadOf (tileReplace s n phys true) (n / 16) = (quadOf s (n / 16)).sparing n phys := by
  refine tile_quad_of_mem ?_
  rw [tileReplace, if_neg live, if_pos (by simp [free]), caskAction_mem]
  rfl

theorem tileReplace_noSpare (live : (tileOf s n).state ≠ 2) (lacks : ok = false ∨ (quadOf s (n / 16)).spareFree = false) :
    tileReplace s n phys ok = tileOut s n := by
  rw [tileReplace, if_neg live, if_neg]
  rcases lacks with failed | spent
  · simp [failed]
  · simp [spent]

/-- The count of the check and the event leave whether the tile is in service, and its quadrant's spare, as they were. -/
theorem tileFails_replaces (s : State) (n phys : Nat) (ok injected : Bool) :
    ∃ u, tileFails s n phys ok injected = tileReplace u n phys ok ∧
    (tileOf u n).state = (tileOf s n).state ∧ quadOf u (n / 16) = quadOf s (n / 16) :=
  ⟨_, rfl, by simp, by simp⟩

end

theorem exec_tileFail {s : State} (on : s.running = true) (n : Fin 64) (phys : Nat) (ok : Bool) :
    exec (.tileFail n phys ok) s = .next (tileFails s n.val phys ok false) := by
  show execTileFail n phys ok s = _
  rw [execTileFail, if_pos on]

section
variable {s : State} {n : Fin 64} {phys : Nat} (on : s.running = true) (live : (tileOf s n.val).state ≠ 2)
include on live

theorem exec_tileFail_spare (free : (quadOf s (n.val / 16)).spareFree = true) : Gives (.tileFail n phys true) s fun t =>
    (tileOf t n.val).state = 0 ∧ (tileOf t n.val).spared = true ∧ (quadOf t (n.val / 16)).spareFree = false ∧
      (quadOf t (n.val / 16)).spareTarget = n.val := by
  refine ⟨_, exec_tileFail on n phys true, ?_⟩
  obtain ⟨u, replaces, state, quad⟩ := tileFails_replaces s n.val phys true false
  obtain ⟨tile, spares⟩ := tileReplace_spare (phys := phys) (state ▸ live) (quad ▸ free)
  rw [replaces, tile, spares]
  exact ⟨rfl, rfl, rfl, rfl⟩

theorem exec_tileFail_isolates {ok : Bool} (lacks : ok = false ∨ (quadOf s (n.val / 16)).spareFree = false) :
    Gives (.tileFail n phys ok) s fun t => (tileOf t n.val).state = 2 ∧ (quadOf t (n.val / 16)).spareFree = false ∧
      ∀ k ∈ (quadOf t (n.val / 16)).bwd, n.val ∉ bwdTiles (n.val / 16) k := by
  refine ⟨_, exec_tileFail on n phys ok, ?_⟩
  obtain ⟨u, replaces, state, quad⟩ := tileFails_replaces s n.val phys ok false
  have out : (tileOf u n.val).state ≠ 2 := state ▸ live
  obtain ⟨tile, left⟩ := tileOut_isolates out
  rw [replaces, tileReplace_noSpare out (quad ▸ lacks), tile, left]
  exact ⟨rfl, rfl, Quad.not_mem_bwd_without⟩

end

/-! ### Backward chains (R174, R176) -/

section
variable {s : State} {q : Fin 4} (on : s.running = true)
include on

theorem exec_bwdChainForm_forms {k : Nat} (waiting : waitingTiles s q.val true ≠ [])
    (first : (List.range (pBwdMax s)).find? (fun k => !(quadOf s q.val).bwd.contains k && tilesLive s (bwdTiles q.val k) &&
      !((quadOf s q.val).returned.any fun r =>
        r.1 == k && !((waitingTiles s q.val false).isEmpty && elapsed s r.2 10000))) = some k) :
    exec (.bwdChainForm q) s = .next (modQuad s q.val fun x =>
      { x with bwd := x.bwd ++ [k], bwdIdle := none, returned := x.returned.filter fun r => r.1 != k }) := by
  show execBwdChainForm q s = _
  rw [execBwdChainForm, whileRunning_on on]
  dsimp only
  rw [first]
  simp [waiting]

theorem exec_bwdChainIdle_returns {since : Nat} (idle : (quadOf s q.val).bwdIdle = some since)
    (unasked : waitingTiles s q.val true = []) (due : since + 10000 ≤ now s) :
    exec (.bwdChainIdle q) s = .next (modQuad s q.val fun x => { x with bwd := [], bwdIdle := none }) := by
  show execBwdChainIdle q s = _
  rw [execBwdChainIdle, whileRunning_on on]
  simp [idle, unasked, elapsed, due]

theorem exec_fwdChainReturn_dissolves {k : Nat} (lent : fwdFree s q.val = []) (waiting : waitingTiles s q.val false ≠ [])
    (highest : (quadOf s q.val).bwd.max? = some k) :
    exec (.fwdChainReturn q) s = .next (modQuad s q.val fun x =>
      { x with bwd := x.bwd.filter (· != k), returned := (k, now s) :: x.returned }) := by
  show execFwdChainReturn q s = _
  rw [execFwdChainReturn, whileRunning_on on]
  simp [lent, waiting, highest]

end

/-- Settles O53: a tile's failure with and without a spare, and the three moves of a quadrant's backward chains. -/
theorem tilesAndChains : Obligations.TilesAndChains := by
  intro s on
  refine ⟨fun n phys live => ⟨?spare, ?isolated⟩, fun q k => ?form, fun q since => ?idle, fun q k => ?dissolve⟩
  case spare => exact exec_tileFail_spare on live
  case isolated => exact fun ok => exec_tileFail_isolates on live
  case form => exact exec_bwdChainForm_forms on
  case idle => exact exec_bwdChainIdle_returns on
  case dissolve => exact exec_fwdChainReturn_dissolves on

end Sys2Proof.Machine

/-!
The mash units family: how a channel enters and leaves processor mode, tokens, quotas and refreshes, row clones and failed units
(R187 to R219); and the catch-up copy of a cell (R206, R332, R339, R340).
-/

namespace Sys2Proof.Machine

/-! ### Bursts and refreshes (R187, R192, R193) -/

/-- A channel once its burst has ended at tick `tick`: what it had not run is queued again. -/
def Chan.leaving (tick : Nat) (c : Chan) : Chan :=
  { c with mode := 3, modeEnd := tick + 4, queue := c.burst ++ c.queue, burst := [], burstPs := 0, closing := false }

def Chan.withToken (token : Bool) (c : Chan) : Chan := { c with token := token }

theorem returnToken_chanOf (s : State) (st pc k : Nat) :
    chanOf (returnToken s st pc) k = if k = pcNum st pc then (chanOf s k).withToken false else chanOf s k := by
  rw [returnToken, modStack_chanOf, modChan_chanOf]
  split
  · next same =>
    rw [same]
    rfl
  · rfl

/-- The end of a burst leaves of a channel all but what names the burst, and the token. -/
theorem closeBurst_chanOf (s : State) (st pc : Nat) : ∃ token,
    chanOf (closeBurst s st pc) (pcNum st pc) = ((chanOf s (pcNum st pc)).leaving (now s)).withToken token := by
  unfold closeBurst
  extract_lets n left back work s1 s2 others passed
  have closed : chanOf s2 n = (chanOf s n).leaving (now s) := (modChan_chanOf s1 n _ n).trans (if_pos rfl)
  split
  · exact ⟨false, by rw [returnToken_chanOf, if_pos rfl, closed]⟩
  · exact ⟨(chanOf s n).token, closed⟩

section
variable {s : State} {st : Fin 12} {pc : Nat} (on : s.running = true)
include on

theorem burstEntry_gives (ready : mayEnter s st.val pc = true) : Gives (.burstEntry st pc) s fun t =>
    (chanOf t (pcNum st.val pc)).mode = 1 ∧ (chanOf t (pcNum st.val pc)).modeEnd = now s + 4 ∧
      (chanOf t (pcNum st.val pc)).queue = (chanOf s (pcNum st.val pc)).queue ∧
      (stackOf t st.val).bursts = (stackOf s st.val).bursts + 1 ∧ ∀ k : Nat, k ≠ pcNum st.val pc → chanOf t k = chanOf s k := by
  refine ⟨modChan (modStack s st.val fun k => { k with bursts := k.bursts + 1 }) (pcNum st.val pc)
    fun c => { c with mode := 1, modeEnd := now s + 4, burstPs := 0, closing := false }, ?_, ?_⟩
  · show execBurstEntry st pc s = _
    rw [execBurstEntry, whileRunning_on on, if_pos ready]
  · simp +contextual

theorem burstClose_gives (computes : (chanOf s (pcNum st.val pc)).mode = 2) (idle : (chanOf s (pcNum st.val pc)).burst = [])
    (low : 4 ≤ pc) (high : pc < 32) : Gives (.burstClose st pc) s fun t =>
    (chanOf t (pcNum st.val pc)).mode = 3 ∧ (chanOf t (pcNum st.val pc)).modeEnd = now s + 4 ∧
      (chanOf t (pcNum st.val pc)).burst = [] ∧ (chanOf t (pcNum st.val pc)).queue = (chanOf s (pcNum st.val pc)).queue ∧
      (chanOf t (pcNum st.val pc)).hold = (chanOf s (pcNum st.val pc)).hold := by
  refine ⟨closeBurst s st.val pc, ?_, ?_⟩
  · show execBurstClose st pc s = _
    rw [execBurstClose, whileRunning_on on]
    exact congrArg _ (if_pos ⟨computes, idle, low, high⟩)
  · obtain ⟨token, closed⟩ := closeBurst_chanOf s st.val pc
    rw [closed]
    exact ⟨rfl, rfl, rfl, by simp [Chan.withToken, Chan.leaving, idle], rfl⟩

theorem exec_refreshDue_postpones (high : pc < 32) (away : (chanOf s (pcNum st.val pc)).mode ≠ 0) :
    exec (.refreshDue st pc) s = .next (modChan s (pcNum st.val pc) fun c =>
      if c.postponed < refreshAllowance then { c with postponed := c.postponed + 1 } else { c with closing := true }) := by
  show execRefreshDue st pc s = _
  rw [execRefreshDue, whileRunning_on on]
  exact congrArg _ (if_pos ⟨high, away⟩)

theorem exec_refreshDue_issues (home : (chanOf s (pcNum st.val pc)).mode = 0) : exec (.refreshDue st pc) s = .next s := by
  show execRefreshDue st pc s = _
  rw [execRefreshDue, whileRunning_on on]
  exact congrArg _ (if_neg fun away => away.2 home)

end

/-! ### Tokens (R197) -/

section
variable {s u : State} {st : Fin 12} (on : s.running = true) (reclaimed : u = reclaimTokens s st.val)
include on reclaimed

theorem exec_tokenGrant_none (full : (stackOf u st.val).quota ≤ (stackOf u st.val).granted.length) :
    exec (.tokenGrant st) s = .next u := by
  subst reclaimed
  show execTokenGrant st s = _
  rw [execTokenGrant, whileRunning_on on]
  exact congrArg _ (if_pos full)

theorem tokenGrant_gives {pc : Nat} (free : (stackOf u st.val).granted.length < (stackOf u st.val).quota)
    (next : ((List.range 28).map fun i => 4 + ((stackOf u st.val).lastGrant - 4 + 1 + i) % 28).find? (wantsToken u st.val) =
      some pc) :
    Gives (.tokenGrant st) s fun t => (chanOf t (pcNum st.val pc)).token = true ∧
      (stackOf t st.val).granted = (stackOf u st.val).granted ++ [pc] ∧ (stackOf t st.val).lastGrant = pc := by
  subst reclaimed
  refine ⟨modStack (modChan (reclaimTokens s st.val) (pcNum st.val pc) fun c => { c with token := true }) st.val
    fun k => { k with granted := k.granted ++ [pc], lastGrant := pc }, ?_, by simp⟩
  show execTokenGrant st s = _
  rw [execTokenGrant, whileRunning_on on]
  dsimp only
  rw [if_neg free.not_ge, next]

end

/-! ### Temperatures and the quota (R198, R199, R219) -/

@[simp] theorem setLevel_mem (s : State) (n : Nat) (high : Bool) (unit : UnitRef) : (setLevel s n high unit).mem = s.mem :=
  (setLevel_aside (Aside.refl true s)).mem

@[simp] theorem hbmThermal_mem (s : State) : (hbmThermal s).mem = s.mem := by
  rw [hbmThermal]
  split
  · exact setLevel_mem s 24 true _
  · exact setLevel_mem s 24 false _

@[simp] theorem hbmThermal_stackOf (s : State) (k : Nat) : stackOf (hbmThermal s) k = stackOf s k := by
  rw [stackOf, hbmThermal_mem, stackOf]

/-- The thermal source is high while some stack has no quota. -/
theorem hbmThermal_level (s : State) : (srcOf (hbmThermal s) 24).level = true ↔ ∃ st < 12, (stackOf s st).quota = 0 := by
  rw [hbmThermal]
  split
  · next st first =>
    rw [srcOf_setLevel_level]
    exact iff_of_true rfl ⟨st, List.mem_range.1 (List.mem_of_find?_eq_some first), by simpa using List.find?_some first⟩
  · next none =>
    rw [srcOf_setLevel_level]
    refine iff_of_false Bool.false_ne_true fun ⟨st, small, spent⟩ => ?_
    simpa [spent] using List.find?_eq_none.1 none st (List.mem_range.2 small)

@[simp] theorem closeOver_stackOf (s : State) (st k : Nat) : stackOf (closeOver s st) k = stackOf s k :=
  foldState_keeps (fun t : State => stackOf t k) (fun _ _ => modChan_stackOf _ _ _ k) _ s

@[simp] theorem closeOver_regs (s : State) (st : Nat) : (closeOver s st).regs = s.regs :=
  foldState_keeps State.regs (fun _ _ => modChan_regs _ _ _) _ s

@[simp] theorem readStack_regs (s : State) (st temp : Nat) : (readStack s st temp).regs = s.regs := by simp [readStack]

theorem readStack_other (s : State) {st k : Nat} (other : k ≠ st) (temp : Nat) :
    stackOf (readStack s st temp) k = stackOf s k := by
  simp [readStack, other]

/-- What a stack shows of its reading: the temperature, a quota that no longer passes what it allows, and the refresh interval. -/
theorem readStack_reads (s : State) (st temp : Nat) : (stackOf (readStack s st temp) st).temp = temp ∧
    (stackOf (readStack s st temp) st).quota = min (tempQuota s temp) (stackOf s st).quota ∧
    (stackOf (readStack s st temp) st).hot = decide (85 < temp) := by
  simp only [readStack, closeOver_stackOf, modStack_stackOf, if_true, true_and, and_true]
  split
  · next lower => exact (min_eq_left lower.le).symm
  · next within => exact (min_eq_right (not_lt.1 within)).symm

theorem tempQuota_congr {s t : State} (same : t.regs = s.regs) (temp : Nat) : tempQuota t temp = tempQuota s temp := by
  rw [tempQuota, tempQuota, pMashQuota, pMashQuota, fld, fld, rd, rd, same]

/-- Readings raise no quota of `s`, and leave the registers that bound it. -/
def NoRaise (s t : State) : Prop := t.regs = s.regs ∧ ∀ k, (stackOf t k).quota ≤ (stackOf s k).quota

/-- The stack `st` stands at its reading. -/
def ReadAt (s : State) (temps : List Nat) (st : Nat) (t : State) : Prop :=
  (stackOf t st).temp = temps.getD st 0 ∧ (stackOf t st).quota ≤ tempQuota s (temps.getD st 0) ∧
    (stackOf t st).hot = decide (85 < temps.getD st 0)

section
variable {s t : State} (temps : List Nat)

theorem NoRaise.after_read (kept : NoRaise s t) (st temp : Nat) : NoRaise s (readStack t st temp) := by
  refine ⟨(readStack_regs t st temp).trans kept.1, fun k => ?_⟩
  by_cases same : k = st
  · subst same
    rw [(readStack_reads t k temp).2.1]
    exact (min_le_right _ _).trans (kept.2 k)
  · rw [readStack_other t same]
    exact kept.2 k

theorem NoRaise.readAt (kept : NoRaise s t) (st : Nat) : ReadAt s temps st (readStack t st (temps.getD st 0)) := by
  obtain ⟨temp, quota, hot⟩ := readStack_reads t st (temps.getD st 0)
  refine ⟨temp, ?_, hot⟩
  rw [quota, tempQuota_congr kept.1]
  exact min_le_left _ _

/-- The readings of all stacks of a list: none has gained, and each stands at its own. -/
theorem readStacks_read (l : List Nat) : ∀ {t : State}, NoRaise s t →
    NoRaise s (foldState (fun u st => readStack u st (temps.getD st 0)) t l) ∧
      ∀ st, (st ∈ l ∨ ReadAt s temps st t) → ReadAt s temps st (foldState (fun u st => readStack u st (temps.getD st 0)) t l) := by
  induction l with
  | nil => exact fun kept => ⟨kept, fun st read => read.resolve_left (List.not_mem_nil)⟩
  | cons x l ih =>
    intro t kept
    obtain ⟨noRaise, reads⟩ := ih (kept.after_read x (temps.getD x 0))
    refine ⟨noRaise, fun st read => reads st ?_⟩
    by_cases same : st = x
    · subst same
      exact .inr (kept.readAt temps st)
    · refine read.imp (fun mem => (List.mem_cons.1 mem).resolve_left same) fun before => ?_
      rw [ReadAt, readStack_other t same]
      exact before

end

theorem hbmTempRead_gives {s : State} (on : s.running = true) (temps : List Nat) (due : s.mem.tempSince + 10000 ≤ now s) :
    Gives (.hbmTempRead temps) s fun t =>
      (∀ st < 12, (stackOf t st).temp = temps.getD st 0 ∧ (stackOf t st).quota ≤ tempQuota s (temps.getD st 0) ∧
        (stackOf t st).quota ≤ (stackOf s st).quota ∧ (stackOf t st).hot = decide (85 < temps.getD st 0)) ∧
      ((srcOf t 24).level = true ↔ ∃ st < 12, (stackOf t st).quota = 0) := by
  have start : NoRaise s { s with mem := { s.mem with tempSince := now s } } := ⟨rfl, fun _ => le_rfl⟩
  obtain ⟨noRaise, reads⟩ := readStacks_read temps (List.range 12) start
  refine ⟨hbmThermal (foldState (fun s st => readStack s st (temps.getD st 0))
    { s with mem := { s.mem with tempSince := now s } } (List.range 12)), ?_, ?_, ?_⟩
  · show execHbmTempRead temps s = _
    rw [execHbmTempRead, if_neg (by simp [on, elapsed, due])]
  · intro st small
    obtain ⟨temp, quota, hot⟩ := reads st (.inl (List.mem_range.2 small))
    rw [hbmThermal_stackOf]
    exact ⟨temp, quota, noRaise.2 st, hot⟩
  · simp only [hbmThermal_level, hbmThermal_stackOf]

theorem quotaRaise_gives {s : State} {st : Fin 12} {since : Nat} (on : s.running = true)
    (cool : (stackOf s st.val).coolSince = some since) (due : since + 100000 ≤ now s) : Gives (.quotaRaise st) s fun t =>
    (stackOf t st.val).quota = (nextQuota s (stackOf s st.val).quota).1 ∧ ∀ k : Nat, k ≠ st.val → stackOf t k = stackOf s k := by
  have raised : exec (.quotaRaise st) s = .next (hbmThermal (modStack s st.val fun x =>
      { x with quota := (nextQuota s (stackOf s st.val).quota).1,
               coolSince := if decide ((stackOf s st.val).temp ≤ (nextQuota s (nextQuota s (stackOf s st.val).quota).1).2) &&
                 decide ((nextQuota s (stackOf s st.val).quota).1 < (nextQuota s (nextQuota s (stackOf s st.val).quota).1).1)
                 then some (now s) else none })) := by
    show execQuotaRaise st s = _
    rw [execQuotaRaise, whileRunning_on on]
    dsimp only
    rw [cool]
    exact congrArg _ (if_pos (decide_eq_true due))
  exact ⟨_, raised, by simp, fun k other => by simp [other]⟩

/-- An LPDDR5X device at its reading. -/
def LpDev.reading (hot : Bool) (refresh : Nat) (d : LpDev) : LpDev := { d with hot := hot, refresh := refresh }

/-- One LPDDR5X device takes its reading. -/
def lpReading (hot : List Bool) (temps : List Nat) (s : State) (c : Nat) : State :=
  { s with mem := { s.mem with lp := tabModD s.mem.lp c {} (LpDev.reading (hot.getD c false) (temps.getD c 0)) } }

theorem lpDev_lpReading (hot : List Bool) (temps : List Nat) (s : State) (c k : Nat) : lpDev (lpReading hot temps s c) k =
    if k = c then (lpDev s c).reading (hot.getD c false) (temps.getD c 0) else lpDev s k :=
  tabGetD_tabModD _ _ _ _ _

/-- The device `c` stands at its reading. -/
def LpReadAt (hot : List Bool) (temps : List Nat) (c : Nat) (t : State) : Prop :=
  (lpDev t c).hot = hot.getD c false ∧ (lpDev t c).refresh = temps.getD c 0

theorem lpReading_reads (hot : List Bool) (temps : List Nat) (s : State) (c : Nat) :
    LpReadAt hot temps c (lpReading hot temps s c) := by
  rw [LpReadAt, lpDev_lpReading, if_pos rfl]
  exact ⟨rfl, rfl⟩

theorem LpReadAt.after_reading {hot : List Bool} {temps : List Nat} {s : State} {c : Nat} (d : Nat) (before : LpReadAt hot temps c s) :
    LpReadAt hot temps c (lpReading hot temps s d) := by
  by_cases same : c = d
  · exact same ▸ lpReading_reads hot temps s c
  · rw [LpReadAt, lpDev_lpReading, if_neg same]
    exact before

theorem lpMr4Read_gives {s : State} (on : s.running = true) (hot : List Bool) (temps : List Nat)
    (due : s.mem.mr4Since + 10000 ≤ now s) : Gives (.lpMr4Read hot temps) s fun t =>
    (∀ c < 8, (lpDev t c).hot = hot.getD c false ∧ (lpDev t c).refresh = temps.getD c 0) ∧ (srcOf t 28).level = hot.contains true := by
  refine ⟨setLevel { foldState (lpReading hot temps) s (List.range 8) with
    mem := { (foldState (lpReading hot temps) s (List.range 8)).mem with mr4Since := now s } } 28 (hot.contains true)
    { kind := 9, num := (hot.findIdx? (· == true)).getD 0 }, ?_, ?_, srcOf_setLevel_level _ _ _ _⟩
  · show execLpMr4Read hot temps s = _
    rw [execLpMr4Read, whileRunning_on on, if_neg (by simp [elapsed, due])]
    rfl
  · intro c small
    rw [lpDev, setLevel_mem]
    exact foldState_reaches (lpReading_reads hot temps) (fun _ _ d before => before.after_reading d) (List.mem_range.2 small) s

/-! ### Row clone (R194, R208) -/

/-- A request in a hold queue holds no further place. -/
theorem locHeld_holdAt (s : State) (l k : Loc) (w : HoldWork) (words : Nat) : locHeld (holdAt s l w words) k = locHeld s k := by
  cases l with
  | hbm st pc n =>
    cases k with
    | hbm a b m =>
      simp only [holdAt, locHeld, modChan_chanOf]
      split
      · next same =>
        rw [same]
        split <;> rfl
      · rfl
    | _ => rfl
  | _ => rfl

section
variable {s : State} {st : Fin 12} {a i b j : Nat} {errs : List WordErr} (on : s.running = true)
  (srcLow : 4 ≤ a) (srcHigh : a < 32) (srcSlot : i < slotsPerPc) (dstLow : 4 ≤ b) (dstHigh : b < 32) (dstSlot : j < slotsPerPc)
  (still : ∀ l : Nat, frameAt s (.hbm st.val a i) = some l → (frameOf s l).inFlux = false)
include on srcLow srcHigh srcSlot dstLow dstHigh dstSlot still

theorem exec_clone : exec (.clone st a i b j errs) s = .next (whenMemory s [.hbm st.val a i, .hbm st.val b j]
    (.clone st.val a i b j errs) 0 fun _ => cloneSlot s (.hbm st.val a i) (.hbm st.val b j) errs) := by
  have settled : ((frameAt s (.hbm st.val a i)).map fun l => (frameOf s l).inFlux).getD false = false := by
    cases at_ : frameAt s (.hbm st.val a i) with
    | none => rfl
    | some l => exact still l at_
  show execClone st a i b j errs s = _
  rw [execClone, whileRunning_on on]
  simp [srcLow, srcHigh, srcSlot, dstLow, dstHigh, dstSlot, settled]

variable (srcClock : locWaits s (.hbm st.val a i) = false) (dstClock : locWaits s (.hbm st.val b j) = false)
  (dstFree : locHeld s (.hbm st.val b j) = false)
include srcClock dstClock dstFree

theorem exec_clone_copies (srcFree : locHeld s (.hbm st.val a i) = false) :
    exec (.clone st a i b j errs) s = .next (cloneSlot s (.hbm st.val a i) (.hbm st.val b j) errs) := by
  rw [exec_clone on srcLow srcHigh srcSlot dstLow dstHigh dstSlot still, whenMemory_runs]
  · simp [srcClock, dstClock]
  · simp [srcFree, dstFree]

theorem exec_clone_held (srcHeld : locHeld s (.hbm st.val a i) = true) : exec (.clone st a i b j errs) s =
    .next (holdAt s (.hbm st.val a i) (.clone st.val a i b j errs) 0) := by
  rw [exec_clone on srcLow srcHigh srcSlot dstLow dstHigh dstSlot still, whenMemory, if_neg (by simp [srcClock, dstClock]),
    if_pos (by simp [srcHeld])]
  simp [foldState, srcHeld, dstFree, locHeld_holdAt]

end

/-- The copy of a slot that no frame names and that has been written. -/
theorem cloneSlot_frameless {s : State} {src : Loc} (unnamed : frameAt s src = none) (written : slotVirgin s src = false) (dst : Loc)
    (errs : List WordErr) : cloneSlot s src dst errs = slotFill s dst (slotImage s src) := by
  simp [cloneSlot, unnamed, written]

/-! ### Failed units (R212) -/

/-- A channel's part in sparing: whether it is disabled, whether its spare serves, and whether its spare has failed. -/
def Chan.sparing (c : Chan) : Bool × Bool × Bool := (c.disabled, c.spareActive, c.spareFail)

/-- A channel without an item. -/
def Chan.without (i : Item) (c : Chan) : Chan := { c with queue := c.queue.filter (· != i), burst := c.burst.filter (· != i) }

theorem dropItem_sparing (s : State) (i : Item) (k : Nat) : (chanOf (dropItem s i) k).sparing = (chanOf s k).sparing := by
  change (tabGetD (s.mem.chans.map fun e : Nat × Chan => (e.1, e.2.without i)) k {}).sparing = _
  rw [tabGetD, tabGet_map, chanOf, tabGetD]
  cases tabGet s.mem.chans k with
  | none => rfl
  | some c => rfl

theorem slotWrite_chans (s : State) (l : Loc) (o : Nat) (bs : List Byte) : (slotWrite s l o bs).mem.chans = s.mem.chans := by
  cases l <;> rfl

@[simp] theorem poisonFrame_chanOf (s : State) (lpn k : Nat) : chanOf (poisonFrame s lpn) k = chanOf s k := by
  rw [chanOf, poisonFrame, setSideFlag, imgWrite, slotWrite_chans]
  rfl

theorem failItem_sparing (s : State) (n k : Nat) : (chanOf (failItem s n) k).sparing = (chanOf s k).sparing := by
  rw [failItem]
  split
  · split
    · rfl
    · exact (congrArg Chan.sparing (poisonFrame_chanOf _ _ k)).trans (dropItem_sparing _ _ k)
  · rfl

/-- The channel of a unit that fails, once the add that ran is given up and its burst is closed. -/
def unitStopped (s : State) (st pc : Nat) : State :=
  let s1 := failItem s (pcNum st pc)
  if (chanOf s1 (pcNum st pc)).mode = 2 ∨ (chanOf s1 (pcNum st pc)).mode = 1 then closeBurst s1 st pc else s1

theorem unitStopped_sparing (s : State) (st pc : Nat) :
    (chanOf (unitStopped s st pc) (pcNum st pc)).sparing = (chanOf s (pcNum st pc)).sparing := by
  rw [← failItem_sparing s (pcNum st pc)]
  unfold unitStopped
  extract_lets s1
  split
  · obtain ⟨token, closed⟩ := closeBurst_chanOf s1 st pc
    rw [closed]
    rfl
  · rfl

theorem chanOf_congr {s t : State} (same : t.mem = s.mem) (k : Nat) : chanOf t k = chanOf s k := by rw [chanOf, same, chanOf]

/-- A channel that is taken out of use. -/
def Chan.out (c : Chan) : Chan := { c with disabled := true }

/-- A channel whose spare stands for a unit. -/
def Chan.spared (unit : Nat) (c : Chan) : Chan :=
  { c with spareActive := true, spareTarget := unit, failedUnits := unit :: c.failedUnits }

theorem disableChannel_chanOf (s : State) (st pc : Nat) :
    chanOf (disableChannel s st pc) (pcNum st pc) = (chanOf s (pcNum st pc)).out :=
  (chanOf_congr (caskAction_mem _ _ _ _) _).trans ((modChan_chanOf s _ Chan.out _).trans (if_pos rfl))

section
variable {s : State} {st pc unit : Nat} (serves : (chanOf s (pcNum st pc)).disabled = false)
include serves

theorem unitReplace_spare (unused : (chanOf s (pcNum st pc)).spareActive = false)
    (sound : (chanOf s (pcNum st pc)).spareFail = false) :
    (chanOf (unitReplace s st pc unit false true) (pcNum st pc)).spareActive = true ∧
      (chanOf (unitReplace s st pc unit false true) (pcNum st pc)).spareTarget = unit ∧
      (chanOf (unitReplace s st pc unit false true) (pcNum st pc)).disabled = false := by
  obtain ⟨disabled, active, fail⟩ : (chanOf (unitStopped s st pc) (pcNum st pc)).disabled = false ∧
      (chanOf (unitStopped s st pc) (pcNum st pc)).spareActive = false ∧
      (chanOf (unitStopped s st pc) (pcNum st pc)).spareFail = false := by
    simpa [Chan.sparing, serves, unused, sound] using unitStopped_sparing s st pc
  have replaced : chanOf (unitReplace s st pc unit false true) (pcNum st pc) =
      (chanOf (unitStopped s st pc) (pcNum st pc)).spared unit := by
    rw [unitReplace, if_neg (by simp [serves])]
    dsimp only
    rw [← unitStopped, if_pos (by simp [active, fail])]
    exact (chanOf_congr (caskAction_mem _ _ _ _) _).trans ((modChan_chanOf _ _ (Chan.spared unit) _).trans (if_pos rfl))
  rw [replaced]
  exact ⟨rfl, rfl, disabled⟩

/-- A channel without a spare that passes is disabled, and its spare has failed unless it served already or the reducer failed. -/
theorem unitReplace_disables {reducer spareOk : Bool} (lacks : reducer = true ∨ spareOk = false) :
    (chanOf (unitReplace s st pc unit reducer spareOk) (pcNum st pc)).disabled = true ∧
      (chanOf (unitReplace s st pc unit reducer spareOk) (pcNum st pc)).spareFail =
        ((chanOf s (pcNum st pc)).spareFail || (!reducer && !(chanOf s (pcNum st pc)).spareActive && !spareOk)) := by
  obtain ⟨-, active, fail⟩ : _ ∧ (chanOf (unitStopped s st pc) (pcNum st pc)).spareActive = (chanOf s (pcNum st pc)).spareActive ∧
      (chanOf (unitStopped s st pc) (pcNum st pc)).spareFail = (chanOf s (pcNum st pc)).spareFail := by
    simpa [Chan.sparing] using unitStopped_sparing s st pc
  rw [unitReplace, if_neg (by simp [serves])]
  dsimp only
  rw [← unitStopped, if_neg (by rcases lacks with rfl | rfl <;> simp), disableChannel_chanOf, modChan_chanOf, if_pos rfl]
  refine ⟨rfl, ?_⟩
  rw [active, fail]
  rfl

end

/-- The event of a failed unit leaves the channels, so the unit is replaced in their state before it. -/
theorem unitFails_replaces (s : State) (st pc unit : Nat) (reducer spareOk injected : Bool) : ∃ u,
    unitFails s st pc unit reducer spareOk injected = unitReplace u st pc unit reducer spareOk ∧ u.mem = s.mem :=
  ⟨_, rfl, raise_mem s _⟩

section
variable {s : State} {st : Fin 12} {pc unit : Nat} (on : s.running = true) (low : 4 ≤ pc) (high : pc < 32) (small : unit < 32)
include on low high small

theorem exec_mashUnitFail (reducer spareOk : Bool) : exec (.mashUnitFail st pc unit reducer spareOk) s =
    .next (unitFails s st.val pc unit reducer spareOk false) := by
  show execMashUnitFail st pc unit reducer spareOk s = _
  rw [execMashUnitFail, if_pos (by simp [on, low, high, small])]

variable (serves : (chanOf s (pcNum st.val pc)).disabled = false)
include serves

theorem mashUnitFail_spares (unused : (chanOf s (pcNum st.val pc)).spareActive = false)
    (sound : (chanOf s (pcNum st.val pc)).spareFail = false) : Gives (.mashUnitFail st pc unit false true) s fun t =>
    (chanOf t (pcNum st.val pc)).spareActive = true ∧ (chanOf t (pcNum st.val pc)).spareTarget = unit ∧
      (chanOf t (pcNum st.val pc)).disabled = false := by
  obtain ⟨u, replaces, same⟩ := unitFails_replaces s st.val pc unit false true false
  have chan : chanOf u (pcNum st.val pc) = chanOf s (pcNum st.val pc) := chanOf_congr same _
  refine ⟨_, exec_mashUnitFail on low high small false true, ?_⟩
  rw [replaces]
  exact unitReplace_spare (chan ▸ serves) (chan ▸ unused) (chan ▸ sound)

theorem mashUnitFail_disables {reducer spareOk : Bool} (lacks : reducer = true ∨ spareOk = false) :
    Gives (.mashUnitFail st pc unit reducer spareOk) s fun t => (chanOf t (pcNum st.val pc)).disabled = true ∧
      (chanOf t (pcNum st.val pc)).spareFail = ((chanOf s (pcNum st.val pc)).spareFail ||
        (!reducer && !(chanOf s (pcNum st.val pc)).spareActive && !spareOk)) := by
  obtain ⟨u, replaces, same⟩ := unitFails_replaces s st.val pc unit reducer spareOk false
  have chan : chanOf u (pcNum st.val pc) = chanOf s (pcNum st.val pc) := chanOf_congr same _
  refine ⟨_, exec_mashUnitFail on low high small reducer spareOk, ?_⟩
  rw [replaces, ← chan]
  exact unitReplace_disables (chan ▸ serves) lacks

end

/-! ### Frames that leave a disabled channel (R212, R213, R223) -/

/-- A frame no longer waits to be moved. -/
def leaveMoves (s : State) (lpn : Nat) : State := { s with mem := { s.mem with moves := s.mem.moves.filter (· != lpn) } }

theorem not_mem_leaveMoves (s : State) (lpn : Nat) : lpn ∉ (leaveMoves s lpn).mem.moves := fun mem => by
  simpa using (List.mem_filter.1 mem).2

@[simp] theorem leaveMoves_frameOf (s : State) (lpn n : Nat) : frameOf (leaveMoves s lpn) n = frameOf s n := rfl

@[simp] theorem slotFill_frameOf (s : State) (l : Loc) (img : Mem) (n : Nat) : frameOf (slotFill s l img) n = frameOf s n := by
  cases l <;> rfl

/-- The queued visits and adds of a frame. -/
def itemsOf (s : State) (lpn : Nat) : List Item :=
  (s.exec.visits.filter fun v => v.lpn == lpn && v.path == .mash && !v.inBurst).map (fun v => Item.visit v.id)
    ++ (s.exec.contribs.filter fun c => c.lpn == lpn && !c.inBurst).map fun c => Item.add c.id

/-- A frame's bytes in their new place. -/
def movedTo (w : State) (lpn st pc n : Nat) (l : Loc) : State :=
  modFree (modFrame (slotFill w l (slotImage w (.hbm st pc n))) lpn fun f =>
      if f.staged then { f with alt := l } else { f with loc := l })
    (pcNum st pc) fun x => { x with vacant := x.vacant ++ [n] }

/-- The stack and channel of a new place. -/
def newPlace (st pc : Nat) : Loc → Nat × Nat
  | .hbm a b _ => (a, b)
  | _ => (st, pc)

/-- A frame's queued visits and adds follow it. -/
def itemsFollow (s : State) (lpn : Nat) (at_ : Nat × Nat) : State :=
  let s1 := modChan (foldState dropItem s (itemsOf s lpn)) (pcNum at_.1 at_.2) fun c => { c with queue := c.queue ++ itemsOf s lpn }
  { s1 with exec := { s1.exec with visits := s1.exec.visits.map fun v =>
    if v.lpn == lpn && v.path != .fallback then { v with quad := quadOfStack at_.1 } else v } }

@[simp] theorem itemsFollow_frameOf (s : State) (lpn : Nat) (at_ : Nat × Nat) (n : Nat) :
    frameOf (itemsFollow s lpn at_) n = frameOf s n :=
  foldState_keeps (f := dropItem) (fun t : State => frameOf t n) (fun _ _ => rfl) (itemsOf s lpn) s

theorem movedTo_frameOf (w : State) (lpn st pc n : Nat) (l : Loc) (k : Nat) : frameOf (movedTo w lpn st pc n l) k =
    if k = lpn then (if (frameOf w lpn).staged then { frameOf w lpn with alt := l } else { frameOf w lpn with loc := l })
    else frameOf w k := by
  simp [movedTo]

section
variable {s u v : State} {lpn st pc n : Nat} {errs : List WordErr} {crcBad bad crc inj : Bool} (on : s.running = true)
  (listed : lpn ∈ s.mem.moves) (still : (frameOf s lpn).inFlux = false) (clock : locWaits s (.hbm st pc n) = false)
  (free : locHeld s (.hbm st pc n) = false) (slot : slotOf (frameOf s lpn) = .hbm st pc n)
  (words : checkWords s 1 lpn errs = (bad, u))
include on listed still clock free slot words

variable (check : checkFails u 3 (pcNum st pc) (crcBad || crcWrong u lpn) = (crc, inj, v))
include check

theorem exec_frameMove : exec (.frameMove lpn errs crcBad) s = .next
    (if bad then leaveMoves u lpn
      else if crc then leaveMoves (poisonFrame v lpn) lpn
      else match takeBare v ((sideOrder v lpn).filter fun e => e != (st, pc)) with
        | none => v
        | some (l, w) => leaveMoves (itemsFollow (movedTo w lpn st pc n l) lpn (newPlace st pc l)) lpn) := by
  have home : homeOf s lpn = .hbm st pc n := by simp [homeOf, slot]
  show execFrameMove lpn errs s crcBad = _
  rw [execFrameMove, whileRunning_on on]
  dsimp only
  rw [if_neg (by simp [listed, still]), home, whenMemory_runs (by simpa using clock) (by simpa using free), slot, words]
  cases bad with
  | true => rfl
  | false =>
    simp only [Bool.false_eq_true, if_false, check]
    cases crc with
    | true => rfl
    | false =>
      rcases takeBare v ((sideOrder v lpn).filter fun e => e != (st, pc)) with _ | ⟨l, w⟩
      · rfl
      · cases l <;> rfl

theorem exec_frameMove_word (fails : bad = true) : exec (.frameMove lpn errs crcBad) s = .next (leaveMoves u lpn) := by
  rw [exec_frameMove on listed still clock free slot words check, if_pos fails]

variable (passes : bad = false)
include passes

theorem frameMove_poisons (fails : crc = true) : Gives (.frameMove lpn errs crcBad) s fun t => (frameOf t lpn).poison = true ∧
    (frameOf t lpn).loc = (frameOf v lpn).loc ∧ lpn ∉ t.mem.moves := by
  refine ⟨leaveMoves (poisonFrame v lpn) lpn, ?_, by simp, by simp, not_mem_leaveMoves _ _⟩
  rw [exec_frameMove on listed still clock free slot words check, if_neg (by simp [passes]), if_pos fails]

theorem frameMove_moves (sound : crc = false) {l : Loc} {w : State}
    (place : takeBare v ((sideOrder v lpn).filter fun e => e != (st, pc)) = some (l, w)) :
    Gives (.frameMove lpn errs crcBad) s fun t =>
    frameOf t lpn = (if (frameOf w lpn).staged then { frameOf w lpn with alt := l } else { frameOf w lpn with loc := l }) ∧
      lpn ∉ t.mem.moves ∧ ∀ k : Nat, k ≠ lpn → frameOf t k = frameOf w k := by
  refine ⟨leaveMoves (itemsFollow (movedTo w lpn st pc n l) lpn (newPlace st pc l)) lpn, ?_, ?_, not_mem_leaveMoves _ _, ?_⟩
  · rw [exec_frameMove on listed still clock free slot words check, if_neg (by simp [passes]), if_neg (by simp [sound]), place]
  · rw [leaveMoves_frameOf, itemsFollow_frameOf, movedTo_frameOf, if_pos rfl]
  · intro k other
    rw [leaveMoves_frameOf, itemsFollow_frameOf, movedTo_frameOf, if_neg other]

end

/-- Settles O52: bursts, refreshes and tokens; the quotas and the thermal sources after a reading; row clones; and what becomes of
a channel, and of its frames, when a unit fails. -/
theorem stacksAndChannels : Obligations.StacksAndChannels := by
  intro s on
  refine ⟨?channels, ?tokens, fun temps => hbmTempRead_gives on temps, fun st since => quotaRaise_gives on,
    fun hot temps => lpMr4Read_gives on hot temps, ?clones, ?units, ?moves⟩
  case channels =>
    rintro st pc _ rfl
    exact ⟨burstEntry_gives on, burstClose_gives on, exec_refreshDue_postpones on, fun _ => exec_refreshDue_issues on⟩
  case tokens =>
    intro st u reclaimed
    exact ⟨exec_tokenGrant_none on reclaimed, fun pc => tokenGrant_gives on reclaimed⟩
  case clones =>
    rintro st a i b j errs _ _ rfl rfl srcLow srcHigh srcSlot dstLow dstHigh dstSlot still srcClock dstClock
    refine ⟨fun srcFree dstFree => ?_, fun srcHeld dstFree =>
      exec_clone_held on srcLow srcHigh srcSlot dstLow dstHigh dstSlot still srcClock dstClock dstFree srcHeld⟩
    have copies := exec_clone_copies (errs := errs) on srcLow srcHigh srcSlot dstLow dstHigh dstSlot still srcClock dstClock
      dstFree srcFree
    exact ⟨copies, fun unnamed written => copies.trans (congrArg _ (cloneSlot_frameless unnamed written _ errs))⟩
  case units =>
    rintro st pc unit _ low high small rfl serves
    refine ⟨mashUnitFail_spares on low high small serves, ?_, fun spareOk => ?_⟩
    · obtain ⟨t, e, disabled, fail⟩ := mashUnitFail_disables (reducer := false) on low high small serves (.inr rfl)
      refine ⟨t, e, ?_⟩
      cases active : (chanOf s (pcNum st.val pc)).spareActive with
      | false => exact .inl ⟨disabled, by simp [fail, active]⟩
      | true => exact .inr ⟨disabled, rfl⟩
    · obtain ⟨t, e, disabled, -⟩ := mashUnitFail_disables (spareOk := spareOk) on low high small serves (.inl rfl)
      exact ⟨t, e, disabled⟩
  case moves =>
    intro lpn st pc n errs crcBad bad crc inj u v listed still clock free slot words check
    exact ⟨exec_frameMove_word on listed still clock free slot words check,
      frameMove_poisons on listed still clock free slot words check,
      fun passes sound l w => frameMove_moves on listed still clock free slot words check passes sound⟩

/-! ### The catch-up copy at its sender (R332, R339, R340) -/

theorem exec_copyNext {s : State} {q : SeqId} {cell : Nat} {c : CopyOut} {errs : List WordErr} (on : s.running = true)
    (unfenced : s.fault.fenced = false) (rate : s.comp.copyFree ≤ now s)
    (due : s.comp.copies.find? (fun c => c.cell == cell && (c.current == some q || (c.current.isNone && c.todo.contains q))) =
      some c) :
    exec (.copyNext q cell errs) s = .next (copyNext s c q errs) := by
  show execCopyNext q cell s errs = _
  rw [execCopyNext]
  dsimp only
  rw [due]
  simp [on, unfenced, rate]

section
variable {s u : State} {n part epoch : Nat} {q : SeqId} {c : CopyOut} {st : Status} {hs : List PageHandle} (on : s.running = true)
  (taken : u = takeKind s (.node n) 0x18)
  (waits : u.comp.copies.find? (fun c => some n == some c.joiner && c.current == some q && c.waitPart == some part) = some c)
include on taken waits

theorem exec_copyAck : exec (.copyAck (.node n) part epoch q st hs) s = .next
    (if u.fault.fenced || epoch != epochOf u then u
      else if st = .staleMap then copyAgain u c q
      else if part = 1 then framesAcked u c q st hs
      else if st ≠ .ok then copyAgain u c q
      else if part = 0 then putCopy u { c with waitPart := none }
      else copyEnded u c q) := by
  subst taken
  show execCopyAck (.node n) part epoch q st hs s = _
  rw [execCopyAck, if_neg (by simp [on])]
  dsimp only [takeNode, asNode]
  rw [waits]

theorem exec_copyAck_other (other : u.fault.fenced = true ∨ epoch ≠ epochOf u) :
    exec (.copyAck (.node n) part epoch q st hs) s = .next u := by
  rw [exec_copyAck on taken waits, if_pos (by simpa using other)]

variable (unfenced : u.fault.fenced = false) (installed : epoch = epochOf u)
include unfenced installed

theorem exec_copyAck_again (failed : st = .staleMap ∨ (part ≠ 1 ∧ st ≠ .ok)) :
    exec (.copyAck (.node n) part epoch q st hs) s = .next (copyAgain u c q) := by
  rw [exec_copyAck on taken waits, if_neg (by simp [unfenced, installed])]
  rcases failed with stale | ⟨other, failed⟩
  · rw [if_pos stale]
  · rw [if_neg other, if_pos failed, ite_self]

theorem exec_copyAck_frames (frames : part = 1) (fresh : st ≠ .staleMap) :
    exec (.copyAck (.node n) part epoch q st hs) s = .next (framesAcked u c q st hs) := by
  rw [exec_copyAck on taken waits, if_neg (by simp [unfenced, installed]), if_neg fresh, if_pos frames]

theorem exec_copyAck_begun (begin_ : part = 0) (done : st = .ok) :
    exec (.copyAck (.node n) part epoch q st hs) s = .next (putCopy u { c with waitPart := none }) := by
  rw [exec_copyAck on taken waits, if_neg (by simp [unfenced, installed])]
  simp [begin_, done]

theorem exec_copyAck_ended (end_ : 1 < part) (done : st = .ok) :
    exec (.copyAck (.node n) part epoch q st hs) s = .next (copyEnded u c q) := by
  rw [exec_copyAck on taken waits, if_neg (by simp [unfenced, installed])]
  simp [done, end_.ne', (Nat.zero_lt_of_lt end_).ne']

end

/-! ### The catch-up copy at its joiner (R206, R339, R340) -/

/-- What a BEGIN under the installed epoch from the node that the map names does: the sequence is created or extended and takes the
END values, and the copy is noted; `ack` answers. -/
def copyJoined (u : State) (m : Inbound) (n : Nat) (x : Seq) (heads : List Nat) (ack : State → Status → State) : State :=
  match joinSeq u x.handle.id x (fieldLe m.bytes 0x28 1 == 3) with
  | none => ack u .noPage
  | some v =>
    let w := setEnds (clearHeads v x.handle.id heads) x.handle.id heads x.layers (m.bytes.drop 0x420)
    ack { w with comp := { w.comp with copyIns := (w.comp.copyIns.filter fun i => i.seq != x.handle.id) ++
      [{ seq := x.handle.id, source := n, heads := x.localHeads }] } } .ok

section Begin
variable {s u : State} {m : Inbound} {n : Nat} {x : Seq} {heads : List Nat} {ack : State → Status → State} (on : s.running = true)
  (taken : u = takeDelivery s m) (src : m.src = .node n) (sys : m.sys = true) (unfenced : u.fault.fenced = false)
  (shape : x = parseSeq (slice m.bytes 0x20 1024))
  (acks : ack = fun w st => sendControl w m.src (copyAckMsg 0 (fieldLe m.bytes 0x0C 4) x.handle.num st []))
  (named : heads = beginHeads u x.handle.id n (fieldLe m.bytes 0x18 4) x)
include on taken src sys unfenced shape acks named

theorem exec_copyBegin : exec (.copyBegin m) s = .next
    (if fieldLe m.bytes 0x0C 4 ≠ epochOf u then ack u .staleMap
      else if !takesCopy u x.handle.id n || (heads.isEmpty && fieldLe m.bytes 0x18 4 != 0) then ack u .notOwner
      else copyJoined u m n x heads ack) := by
  have sender : asNode m.src = some n := by rw [src]; rfl
  show execCopyBegin m s = _
  rw [execCopyBegin, if_neg (by simp [on])]
  dsimp only
  rw [sender, ← taken, ← shape]
  dsimp only
  rw [if_neg (by simp [sys]), if_neg (by simp [unfenced]), ← named, acks]
  rfl

theorem exec_copyBegin_stale (stale : fieldLe m.bytes 0x0C 4 ≠ epochOf u) : exec (.copyBegin m) s = .next (ack u .staleMap) := by
  rw [exec_copyBegin on taken src sys unfenced shape acks named, if_pos stale]

variable (installed : fieldLe m.bytes 0x0C 4 = epochOf u)
include installed

theorem exec_copyBegin_notOwner
    (wrong : takesCopy u x.handle.id n = false ∨ (heads = [] ∧ fieldLe m.bytes 0x18 4 ≠ 0)) :
    exec (.copyBegin m) s = .next (ack u .notOwner) := by
  rw [exec_copyBegin on taken src sys unfenced shape acks named, if_neg (not_not.2 installed), if_pos (by simpa using wrong)]

variable (takes : takesCopy u x.handle.id n = true) (listed : heads = [] → fieldLe m.bytes 0x18 4 = 0)
include takes listed

theorem exec_copyBegin_joins : exec (.copyBegin m) s = .next (copyJoined u m n x heads ack) := by
  rw [exec_copyBegin on taken src sys unfenced shape acks named, if_neg (not_not.2 installed),
    if_neg (by simpa [takes] using listed)]

theorem exec_copyBegin_noPage (full : joinSeq u x.handle.id x (fieldLe m.bytes 0x28 1 == 3) = none) :
    exec (.copyBegin m) s = .next (ack u .noPage) := by
  rw [exec_copyBegin_joins on taken src sys unfenced shape acks named installed takes listed, copyJoined, full]

theorem exec_copyBegin_takes {v w : State} (joined : joinSeq u x.handle.id x (fieldLe m.bytes 0x28 1 == 3) = some v)
    (filled : w = setEnds (clearHeads v x.handle.id heads) x.handle.id heads x.layers (m.bytes.drop 0x420)) :
    exec (.copyBegin m) s = .next (ack { w with comp := { w.comp with
      copyIns := (w.comp.copyIns.filter fun i => i.seq != x.handle.id) ++
        [{ seq := x.handle.id, source := n, heads := x.localHeads }] } } .ok) := by
  rw [exec_copyBegin_joins on taken src sys unfenced shape acks named installed takes listed, copyJoined, joined, filled]

end Begin

/-! What leaves the copies that come in as they are: messages, completions and reports. -/

@[simp] theorem sendControl_comp (s : State) (e : Endpoint) (bytes : List Byte) : (sendControl s e bytes).comp = s.comp :=
  (sendControl_answ (Answ.refl s)).comp

@[simp] theorem sendChain_comp (s : State) (c : Command) (node epoch : Nat) : (sendChain s c node epoch).comp = s.comp :=
  (sendChain_answ (Answ.refl s)).comp

@[simp] theorem noteInternal_comp (s : State) (opcode src reqId kind unit detail : Nat) :
    (noteInternal s opcode src reqId kind unit detail).comp = s.comp := (noteInternal_answ (Answ.refl s)).comp

@[simp] theorem answerOne_comp (s : State) (c : Command) (r : Reply) : (answerOne s c r).comp = s.comp :=
  (sendReply_answ (Answ.refl (modQueue s c.desc.queue fun q => { q with count := q.count + 1 }))).comp

@[simp] theorem settle_comp (s : State) (c : Command) (st : Status) : (settle s c st).comp = s.comp := by
  rw [settle]
  split
  · rfl
  · exact dropOutcome_comp s _

@[simp] theorem completeOne_copyIns (s : State) (c : Command) (r : Reply) : (completeOne s c r).comp.copyIns = s.comp.copyIns := by
  have noted : (if r.status = .internal then noteInternal (dropLive s (cmdKey c)) c.desc.opcode c.src.num c.desc.reqId 0 0 0
      else dropLive s (cmdKey c)).comp = s.comp := by
    split <;> simp
  rw [completeOne]
  split
  · rfl
  · dsimp only
    split <;> simp only [sendControl_comp, answerOne_comp, settle_comp, noted]

@[simp] theorem releaseQwait_copyIns (s : State) : (releaseQwait s).comp.copyIns = s.comp.copyIns := by
  rw [releaseQwait]
  split
  · rfl
  · exact completeOne_copyIns _ _ _

@[simp] theorem complete_copyIns (s : State) (c : Command) (r : Reply) : (complete s c r).comp.copyIns = s.comp.copyIns :=
  (iter_keeps (fun t : State => t.comp.copyIns) releaseQwait_copyIns _ _).trans (completeOne_copyIns s c r)

@[simp] theorem finish_copyIns (s : State) (c : Command) (repl : Nat) (r : Reply) :
    (finish s c repl r).comp.copyIns = s.comp.copyIns := by
  unfold finish
  extract_lets legs s1 s2
  split
  · exact complete_copyIns s c r
  · refine foldState_keeps (fun t : State => t.comp.copyIns) (fun t l => ?_) _ _
    split
    · rw [sendChain_comp]
    · rfl

@[simp] theorem finishKeys_copyIns (s : State) (ks : List CmdKey) (st : Status) :
    (finishKeys s ks st).comp.copyIns = s.comp.copyIns := by
  refine foldState_keeps (fun t : State => t.comp.copyIns) (fun t k => ?_) ks s
  split
  · exact finish_copyIns _ _ _ _
  · rfl

@[simp] theorem modSeq_comp (s : State) (q : SeqId) (f : Seq → Seq) : (modSeq s q f).comp = s.comp := by
  rw [modSeq]
  split
  · rfl
  · rfl

@[simp] theorem wakeReplicas_copyIns (s : State) (q : SeqId) (repl : Nat) (pred : Option Nat) :
    (wakeReplicas s q repl pred).comp.copyIns = s.comp.copyIns := by
  rw [wakeReplicas]
  split
  · rfl
  · rfl

@[simp] theorem wakeCopied_copyIns (s : State) (q : SeqId) (n : Nat) (j : WakeJob) :
    (wakeCopied s q n j).comp.copyIns = s.comp.copyIns := by simp [wakeCopied]

@[simp] theorem joinReserves_comp (s : State) (q : SeqId) : (joinReserves s q).comp = s.comp := by
  rw [joinReserves]
  split
  · rfl
  · split
    · rfl
    · refine foldState_keeps State.comp (fun t k => ?_) _ s
      dsimp only
      split
      · exact modSeq_comp t q _
      · rfl

@[simp] theorem reportAll_comp (s : State) (what : Nat) (st : Status) (subject epoch arg0 arg1 : Nat) :
    (reportAll s what st subject epoch arg0 arg1).comp = s.comp := by
  rw [reportAll]
  split
  · rfl
  · exact foldState_keeps State.comp (fun t e => sendControl_comp t e _) _ s

@[simp] theorem reportJoined_comp (s : State) (q : SeqId) (n : Nat) : (reportJoined s q n).comp = s.comp := by
  rw [reportJoined]
  split
  · rfl
  · dsimp only
    split
    · rfl
    · exact reportAll_comp s _ _ _ _ _ _

/-- The joiner's copy of a sequence is over. -/
def copyInClosed (s : State) (q : SeqId) : State :=
  { s with comp := { s.comp with copyIns := s.comp.copyIns.filter fun i => i.seq != q } }

theorem mem_copyInClosed {s : State} {q : SeqId} {i : CopyIn} (left : i ∈ (copyInClosed s q).comp.copyIns) : i.seq ≠ q := by
  simpa using (List.mem_filter.1 left).2

/-- One entry of COPY FRAMES: the worst status so far, this node's handles in the order of the entries, and the state. -/
def copyInStep (q : SeqId) (acc : Status × List PageHandle × State) (e : CopyEntry) : Status × List PageHandle × State :=
  match acc.2.2.comp.copyIns.find? fun i => i.seq == q with
  | none => acc
  | some i => (acc.1.worse (copyInOne acc.2.2 i e).1, acc.2.1 ++ [((copyInOne acc.2.2 i e).2.1).getD {}], (copyInOne acc.2.2 i e).2.2)

section Frames
variable {s u : State} {n epoch num : Nat} {q : SeqId} {i : CopyIn} (on : s.running = true) (taken : u = takeKind s (.node n) 0x17)
  (unfenced : u.fault.fenced = false)
  (there : u.comp.copyIns.find? (fun i => i.seq == q && some n == some i.source) = some i)
include on taken unfenced there

theorem copyEnd_gives (installed : epoch = epochOf u) :
    Gives (.copyEnd (.node n) epoch q) s fun t => ∀ i ∈ t.comp.copyIns, i.seq ≠ q := by
  subst taken
  refine ⟨_, rfl, fun k left => ?_⟩
  refine mem_copyInClosed (s := takeKind s (.node n) 0x17) ?_
  rw [if_neg (by simp [on])] at left
  dsimp only [takeNode, asNode] at left
  rw [there] at left
  dsimp only at left
  rw [if_neg (by simp [unfenced]), if_neg (not_not.2 installed)] at left
  split at left
  · simpa [copyInClosed] using left
  · split at left <;> simpa [copyInClosed, draw] using left

variable (handle : num = ((seqOf u q).map fun x => x.handle.num).getD (1048576 * q.num))
include handle

theorem exec_copyFrames_stale (es : List CopyEntry) (stale : epoch ≠ epochOf u) : exec (.copyFrames (.node n) epoch q es) s =
    .next (sendControl u (.node n) (copyAckMsg 1 epoch num .staleMap [])) := by
  subst taken handle
  show execCopyFrames (.node n) epoch q es s = _
  rw [execCopyFrames, if_neg (by simp [on])]
  dsimp only [takeNode, asNode]
  rw [there]
  dsimp only
  rw [if_neg (by simp [unfenced]), if_pos stale]

theorem exec_copyFrames_installs (es : List CopyEntry) (installed : epoch = epochOf u) {r : Status × List PageHandle × State}
    (each : r = es.foldl (copyInStep q) (Status.ok, [], u)) : exec (.copyFrames (.node n) epoch q es) s =
    .next (sendControl r.2.2 (.node n) (copyAckMsg 1 epoch num r.1 r.2.1)) := by
  subst taken handle each
  show execCopyFrames (.node n) epoch q es s = _
  rw [execCopyFrames, if_neg (by simp [on])]
  dsimp only [takeNode, asNode]
  rw [there]
  dsimp only
  rw [if_neg (by simp [unfenced]), if_neg (not_not.2 installed)]
  rfl

theorem exec_copyEnd_stale (stale : epoch ≠ epochOf u) : exec (.copyEnd (.node n) epoch q) s =
    .next (sendControl u (.node n) (copyAckMsg 2 epoch num .staleMap [])) := by
  subst taken handle
  show execCopyEnd (.node n) epoch q s = _
  rw [execCopyEnd, if_neg (by simp [on])]
  dsimp only [takeNode, asNode]
  rw [there]
  dsimp only
  rw [if_neg (by simp [unfenced]), if_pos stale]

end Frames

/-- Settles O58: the parts of a copy and what each acknowledgement of them does at the sender; and at the joiner the BEGIN, the
frames and the END. -/
theorem catchUpCopy : Obligations.CatchUpCopy := by
  intro s on
  refine ⟨fun q cell c errs => exec_copyNext on, ?acks, ?begins, ?frames⟩
  case acks =>
    intro n part epoch q c st hs u taken waits
    exact ⟨exec_copyAck_other on taken waits, fun unfenced installed =>
      ⟨exec_copyAck_again on taken waits unfenced installed, exec_copyAck_frames on taken waits unfenced installed,
        exec_copyAck_begun on taken waits unfenced installed, exec_copyAck_ended on taken waits unfenced installed⟩⟩
  case begins =>
    intro m n u x heads ack taken src sys unfenced shape acks named
    exact ⟨exec_copyBegin_stale on taken src sys unfenced shape acks named, fun installed =>
      ⟨exec_copyBegin_notOwner on taken src sys unfenced shape acks named installed, fun takes listed =>
        ⟨exec_copyBegin_noPage on taken src sys unfenced shape acks named installed takes listed,
          fun v w => exec_copyBegin_takes on taken src sys unfenced shape acks named installed takes listed⟩⟩⟩
  case frames =>
    intro n epoch num q i u taken unfenced there handle
    exact ⟨fun es => ⟨exec_copyFrames_stale on taken unfenced there handle es,
        fun installed r => exec_copyFrames_installs on taken unfenced there handle es installed⟩,
      exec_copyEnd_stale on taken unfenced there handle, copyEnd_gives on taken unfenced there⟩

end Sys2Proof.Machine

/-!
The memory tiers family: host regions and the extents that they hold (R217, R220, R227, R241).
-/

namespace Sys2Proof.Machine

/-! ### HREG_ADD and HREG_REMOVE (R220, R241) -/

section
variable {s : State} {r base units : Nat} (reach : Reaches s 0x60090) (region : r = fld s 0x60080 9 0)
include reach region

theorem exec_hregRemove {x : HostRegion} (listed : tabGet s.mem.regions r = some x) : exec .hregRemove s = .next { s with
    mem := { s.mem with regions := tabSet s.mem.regions r { x with draining := true }, hregStatus := tabSet s.mem.hregStatus r 2 } } := by
  subst region
  show execHregRemove s = _
  rw [execHregRemove, regEnter_reaches reach, hregRemove]
  simp only [listed]

variable (start : base = rd s 0x60084 + 4294967296 * rd s 0x60088) (size : units = fld s 0x6008C 9 0)
include start size

theorem exec_hregAdd_registers (aligned : base % 2097152 = 0) (positive : 0 < units) (most : units ≤ 512) (secure : s.link.state = 3)
    (free : tabGet s.mem.regions r = none)
    (apart : ∀ e ∈ s.mem.regions, e.2.base + e.2.units ≤ base / 2097152 ∨ base / 2097152 + units ≤ e.2.base) :
    exec .hregAdd s = .next { s with mem := { s.mem with
      regions := tabSet s.mem.regions r { base := base / 2097152, units := units }, hregStatus := tabSet s.mem.hregStatus r 1 } } := by
  have clear : (s.mem.regions.any fun e =>
      decide (base / 2097152 < e.2.base + e.2.units) && decide (e.2.base < base / 2097152 + units)) = false :=
    List.any_eq_false.2 fun e listed => by
      have := apart e listed
      simp only [Bool.and_eq_true, decide_eq_true_eq]
      omega
  subst region start size
  show execHregAdd s = _
  rw [execHregAdd, regEnter_reaches reach, hregAdd]
  dsimp only
  rw [clear, free, if_neg (by simp [aligned, positive.ne', most, secure])]

theorem exec_hregAdd_refuses (unfit : base % 2097152 ≠ 0 ∨ units = 0 ∨ 512 < units ∨ s.link.state ≠ 3 ∨
      (tabGet s.mem.regions r).isSome = true ∨
      ∃ e ∈ s.mem.regions, base / 2097152 < e.2.base + e.2.units ∧ e.2.base < base / 2097152 + units) :
    exec .hregAdd s = .next { s with mem := { s.mem with hregStatus := tabSet s.mem.hregStatus r 3 } } := by
  subst region start size
  show execHregAdd s = _
  rw [execHregAdd, regEnter_reaches reach, hregAdd]
  dsimp only
  rw [if_pos]
  simp only [List.any_eq_true, Bool.and_eq_true, decide_eq_true_eq]
  rcases unfit with unaligned | zero | many | plain | taken | overlaps
  · exact .inl unaligned
  · exact .inr (.inl zero)
  · exact .inr (.inr (.inl many))
  · exact .inr (.inr (.inr (.inr (.inr plain))))
  · exact .inr (.inr (.inr (.inr (.inl taken))))
  · exact .inr (.inr (.inr (.inl overlaps)))

end

/-! ### A draining region that holds no extent (R220) -/

theorem regionDrained_gives {s : State} {n : Nat} {x : HostRegion} (on : s.running = true)
    (listed : tabGet s.mem.regions n = some x) (drains : x.draining = true)
    (empty : usedGranules s (extKey (.host n 0 0)) 2097152 = []) :
    Gives (.regionDrained n) s fun t => tabGet t.mem.regions n = none ∧ tabGet t.mem.hregStatus n = some 0 ∧
      (∀ k : Nat, k ≠ n → tabGet t.mem.regions k = tabGet s.mem.regions k) ∧ { t with mem := s.mem } = s := by
  refine ⟨{ s with mem := { s.mem with
    regions := tabDel s.mem.regions n, hregStatus := tabSet s.mem.hregStatus n 0 } }, ?_, ?_, ?_, fun k other => ?_, rfl⟩
  · show execRegionDrained n s = _
    rw [execRegionDrained, whileRunning_on on]
    simp only [listed, drains, empty, List.isEmpty_nil, Bool.and_self, if_true]
  · rw [tabGet_tabDel, if_pos rfl]
  · rw [tabGet_tabSet, if_pos rfl]
  · rw [tabGet_tabDel, if_neg other]

/-! ### An extent moves (R217, R220, R227) -/

theorem putExtent_frameOf (s : State) (l : Loc) (e : Extent) (n : Nat) : frameOf (putExtent s l e) n = frameOf s n := by
  rw [putExtent]
  dsimp only
  split
  · rfl
  · exact foldState_keeps (fun t : State => frameOf t n) (fun t p => frameOf_congr (linkSend_mem t _) n) _ _

theorem retireExtent_frameOf (s : State) (lpn : Nat) (l : Loc) (n : Nat) : frameOf (retireExtent s lpn l) n = frameOf s n :=
  congrArg (fun d : Tab Frame × List DownJob => tabGetD d.1 n {}) (retireExtent_downed s lpn l)

/-- The tier of an extent's place. -/
def placeTier : Loc → Nat
  | .lp _ _ _ => 2
  | _ => 3

/-- A frame whose extent has moved to `l`; the former extent goes once the frame's pins are gone (R239). -/
def extentMoved (s : State) (lpn : Nat) (l : Loc) : State :=
  retierLeaves (setFrame
    (retireExtent (putExtent s l (tabGetD s.mem.exts (extKey (frameOf s lpn).loc) { lpn := lpn, gen := (frameOf s lpn).gen })) lpn
      (frameOf s lpn).loc)
    lpn { frameOf s lpn with loc := l, tier := placeTier l }) lpn

theorem extentMoved_frameOf (s : State) (lpn : Nat) (l : Loc) (n : Nat) : frameOf (extentMoved s lpn l) n =
    if n = lpn then { frameOf s lpn with loc := l, tier := placeTier l } else frameOf s n := by
  rw [extentMoved, retierLeaves_frameOf, frameOf_setFrame, retireExtent_frameOf, putExtent_frameOf]

section
variable {s : State} {lpn k g len : Nat} {x : HostRegion} {l : Loc} (on : s.running = true)
  (home : (frameOf s lpn).loc = .host k g len) (unstaged : inStaging s lpn = false) (unread : ∀ j ∈ s.mem.codec, j.lpn ≠ lpn)
  (listed : tabGet s.mem.regions k = some x)
  (place : (if x.draining then (allocHost s len).or (allocLp s len) else allocLp s len) = some l)
include on home unstaged unread listed place

theorem exec_extentMove : exec (.extentMove lpn) s = .next (extentMoved s lpn l) := by
  have idle : (s.mem.codec.any fun j => j.lpn == lpn) = false := List.any_eq_false.2 fun j job => by simpa using unread j job
  show execExtentMove lpn s = _
  rw [execExtentMove, whileRunning_on on, extentMoved]
  simp only [home, unstaged, idle, Bool.or_self, Bool.false_eq_true, if_false, listed, Option.map_some, Option.getD_some, place]
  cases l <;> rfl

theorem extentMove_gives : Gives (.extentMove lpn) s fun t => (frameOf t lpn).loc = l ∧
    (frameOf t lpn).gen = (frameOf s lpn).gen ∧ ∀ n : Nat, n ≠ lpn → frameOf t n = frameOf s n := by
  refine ⟨_, exec_extentMove on home unstaged unread listed place, ?_, ?_, fun n other => ?_⟩
  · rw [extentMoved_frameOf, if_pos rfl]
  · rw [extentMoved_frameOf, if_pos rfl]
  · rw [extentMoved_frameOf, if_neg other]

end

/-- Settles O51: each host command by its effect at its register, then the drained region and the extent that moves. -/
theorem hostRegions : Obligations.HostRegions := by
  intro s r base units on region start size
  refine ⟨fun reach => ⟨?registers, ?refuses, ?drains⟩, fun n x => regionDrained_gives on,
    fun lpn k g len x l => extentMove_gives on⟩
  case registers => exact exec_hregAdd_registers reach region start size
  case refuses => exact exec_hregAdd_refuses reach region start size
  case drains => exact fun x => exec_hregRemove reach region

end Sys2Proof.Machine

/-!
The cellar family: guest objects and their re-protection, the composer's steps over them, and the cartridges with their I/O.
-/

namespace Sys2Proof.Machine

/-! ### Guest objects in the memory (R261, R263) -/

/-- A release takes the object out of the list of guests; of an absent one it takes nothing out. -/
theorem discardGuest_guests (s : State) (origin : Nat) (q : SeqId) :
    (discardGuest s origin q).mem.guests = s.mem.guests.filter fun g => !(g.origin == origin && g.seq == q) := by
  cases there : guestOf s origin q with
  | none =>
    simp only [discardGuest, there]
    refine (List.filter_eq_self.2 fun g mem => ?_).symm
    simpa [imp_iff_not_or] using List.find?_eq_none.1 there g mem
  | some g =>
    simp only [discardGuest, there]
    split
    · unfold deallocate
      split <;> rfl
    · rfl

theorem guestOf_congr {s t : State} (same : t.mem = s.mem) (origin : Nat) (q : SeqId) :
    guestOf t origin q = guestOf s origin q := by
  rw [guestOf, same, guestOf]

theorem guestOf_discardGuest (s : State) (origin o : Nat) (q r : SeqId) :
    guestOf (discardGuest s origin q) o r = if (o, r) = (origin, q) then none else guestOf s o r := by
  rw [guestOf, discardGuest_guests, List.find?_filter]
  split
  · next same =>
    cases same
    exact List.find?_eq_none.2 fun g _ => by simp [imp_iff_not_or]
  · next other =>
    refine congrArg (fun p => s.mem.guests.find? p) (funext fun g => ?_)
    by_cases own : g.origin = o ∧ g.seq = r
    · obtain ⟨rfl, rfl⟩ := own
      simpa [imp_iff_not_or] using other
    · have foreign : (g.origin == o && g.seq == r) = false := by simpa using own
      simp [foreign]

theorem discardGuest_seqs (s : State) (origin : Nat) (q : SeqId) : (discardGuest s origin q).mem.seqs = s.mem.seqs := by
  change (discardGuest s origin q).mem.bare.seqs = _
  rw [discardGuest_bare]
  rfl

theorem discardGuest_protects (s : State) (origin : Nat) (q : SeqId) : (discardGuest s origin q).mem.protects = s.mem.protects := by
  change (discardGuest s origin q).mem.bare.protects = _
  rw [discardGuest_bare]
  rfl

/-! ### GUEST_PUT, GUEST_GET and GUEST_RELEASE of a node (R261, R309) -/

theorem not_closed_of_writes {s : State} (writes : canWrite s 0 = true ∨ canWrite s 1 = true) :
    (!canWrite s 0 && !canWrite s 1) = false := by
  rcases writes with first | second
  · rw [first]
    rfl
  · rw [second, Bool.not_true, Bool.and_false]

theorem why_idle {s : State} {why : IoWhy} (idle : ∀ n ∈ s.mem.nvme, n.why ≠ why) :
    (s.mem.nvme.any fun n => n.why == why) = false :=
  List.any_eq_false.2 fun n mem => by simpa using idle n mem

section
variable {s : State} {c : Command} {origin : Nat} {q : SeqId} (turn : Turn s c) (source : fromNode c = some origin)
  (named : q = c.desc.seq.id)
include turn source named

section
variable {commit : Bool} {offset objLen : Nat} (idle : guestBusy s origin q = false)
include idle

section
variable (body : c.desc.body = .guestPut false commit offset objLen)
include body

theorem exec_guestPut_absent (gone : guestOf s origin q = none) :
    exec (.guestPut c) s = .next (complete s c { status := .refusedFit }) := by
  subst named
  show execGuestPut c s = _
  rw [execGuestPut, whenReady_turn turn]
  simp [body, source, idle, gone]

theorem exec_guestPut_adds {g : Guest} (there : guestOf s origin q = some g) :
    exec (.guestPut c) s = .next (guestAdd s c g offset commit) := by
  subst named
  show execGuestPut c s = _
  rw [execGuestPut, whenReady_turn turn]
  simp [body, source, idle, there]

end

section
variable (body : c.desc.body = .guestPut true commit offset objLen) {u : State} (freed : u = discardGuest s origin q)
include body freed

theorem exec_guestPut_closed (closed : canWrite u 0 = false) (closed' : canWrite u 1 = false) :
    exec (.guestPut c) s = .next (complete u c { status := .lifeEnd }) := by
  subst named freed
  show execGuestPut c s = _
  rw [execGuestPut, whenReady_turn turn]
  simp [body, source, idle, closed, closed']

variable (writes : canWrite u 0 = true ∨ canWrite u 1 = true)
include writes

theorem exec_guestPut_full (full : choosePort u objLen = none) :
    exec (.guestPut c) s = .next (complete u c { status := .refusedFit }) := by
  subst named freed
  show execGuestPut c s = _
  rw [execGuestPut, whenReady_turn turn]
  simp [body, source, idle, full, not_closed_of_writes writes]

theorem exec_guestPut_creates {p : Nat} (chosen : choosePort u objLen = some p) : exec (.guestPut c) s =
    .next (guestAdd u c { origin := origin, seq := q, cart := portCart u p, len := objLen } offset commit) := by
  subst named freed
  show execGuestPut c s = _
  rw [execGuestPut, whenReady_turn turn]
  simp [body, source, idle, chosen, not_closed_of_writes writes]

end

end

section
variable {offset length : Nat} (body : c.desc.body = .guestGet offset length)
  (unread : ∀ n ∈ s.mem.nvme, n.why ≠ .guestRead (cmdKey c))
include body unread

theorem exec_guestGet_noState (unreadable : ∀ g : Guest, guestOf s origin q = some g → g.committed = true → guestPort s g = none) :
    exec (.guestGet c) s = .next (complete s c { status := .noState }) := by
  subst named
  show execGuestGet c s = _
  rw [execGuestGet, whenReady_turn turn]
  simp only [body, source, why_idle unread]
  cases there : guestOf s origin c.desc.seq.id with
  | none => rfl
  | some g =>
    have nowhere : (if g.committed then guestPort s g else none) = none := by
      split
      · next done => exact unreadable g there done
      · rfl
    simp [nowhere]

variable {g : Guest} {p : Nat} (there : guestOf s origin q = some g) (done : g.committed = true) (port : guestPort s g = some p)
include there done port

theorem exec_guestGet_reads (within : offset + length ≤ g.len) :
    exec (.guestGet c) s = .next (startIo s p (.guestRead (cmdKey c))) := by
  subst named
  show execGuestGet c s = _
  rw [execGuestGet, whenReady_turn turn]
  simp [body, source, why_idle unread, there, done, port, within.not_gt]

theorem exec_guestGet_beyond (beyond : g.len < offset + length) :
    exec (.guestGet c) s = .next (complete s c { status := .refusedFit }) := by
  subst named
  show execGuestGet c s = _
  rw [execGuestGet, whenReady_turn turn]
  simp [body, source, why_idle unread, there, done, port, beyond]

end

theorem guestRelease_gives (body : c.desc.body = .guestRelease) : Gives (.guestRelease c) s fun t =>
    t = tenantAbsent (complete (discardGuest s origin q) c { status := .ok }) c.desc.seq.tenant ∧
    guestOf t origin q = none ∧ (∀ (o : Nat) (r : SeqId), (o, r) ≠ (origin, q) → guestOf t o r = guestOf s o r) ∧
    t.mem.seqs = s.mem.seqs := by
  subst named
  have memory : (tenantAbsent (complete (discardGuest s origin c.desc.seq.id) c { status := .ok }) c.desc.seq.tenant).mem =
      (discardGuest s origin c.desc.seq.id).mem := by rw [tenantAbsent_mem, complete_mem]
  refine ⟨_, ?runs, rfl, ?gone, fun o r other => ?others, ?seqs⟩
  case runs =>
    show execGuestRelease c s = _
    rw [execGuestRelease, whenReady_turn turn]
    simp only [body, source]
  case gone => rw [guestOf_congr memory, guestOf_discardGuest, if_pos rfl]
  case others => rw [guestOf_congr memory, guestOf_discardGuest, if_neg other]
  case seqs => rw [memory, discardGuest_seqs]

end

section
variable {s : State} {c : Command} (turn : Turn s c) (foreign : fromNode c = none)
include turn foreign

theorem exec_guestPut_foreign {create commit : Bool} {offset len : Nat} (body : c.desc.body = .guestPut create commit offset len) :
    exec (.guestPut c) s = .next (complete s c { status := .refusedFit }) := by
  show execGuestPut c s = _
  rw [execGuestPut, whenReady_turn turn]
  simp only [body, foreign]

theorem exec_guestGet_foreign {offset length : Nat} (body : c.desc.body = .guestGet offset length) :
    exec (.guestGet c) s = .next (complete s c { status := .refusedFit }) := by
  show execGuestGet c s = _
  rw [execGuestGet, whenReady_turn turn]
  simp only [body, foreign]

theorem exec_guestRelease_foreign (body : c.desc.body = .guestRelease) :
    exec (.guestRelease c) s = .next (complete s c { status := .refusedFit }) := by
  show execGuestRelease c s = _
  rw [execGuestRelease, whenReady_turn turn]
  simp only [body, foreign]

end

/-! ### Bytes that join a guest object (R256, R265, R309) -/

section
variable {s : State} {c : Command} {g : Guest} {offset len : Nat} {commit : Bool} (total : len = g.bytes.length + c.payload.length)
include total

theorem guestAdd_refuses (unfit : offset ≠ g.bytes.length ∨ g.len < len ∨ (commit = true ∧ len ≠ g.len)) :
    guestAdd s c g offset commit = complete s c { status := .refusedFit } := by
  subst total
  exact if_pos unfit

variable (continues : offset = g.bytes.length) (within : len ≤ g.len) (whole : commit = false ∨ len = g.len)
include continues within whole

theorem guestAdd_fits : ¬ (offset ≠ g.bytes.length ∨ g.len < g.bytes.length + c.payload.length ∨
    (commit = true ∧ g.bytes.length + c.payload.length ≠ g.len)) := by
  subst total
  rintro (gap | long | ⟨commits, short⟩)
  · exact gap continues
  · exact within.not_gt long
  · rcases whole with open_ | full
    · rw [open_] at commits
      cases commits
    · exact short full

theorem guestAdd_closed (closed : ∀ p : Nat, guestPort s g = some p → canWrite s p = false) :
    guestAdd s c g offset commit = complete s c { status := .lifeEnd } := by
  have nowhere : (guestPort s g).filter (canWrite s) = none := by
    cases port : guestPort s g with
    | none => rfl
    | some p => simp [closed p port]
  rw [guestAdd, if_neg (guestAdd_fits total continues within whole), nowhere]

theorem guestAdd_writes {p : Nat} (port : guestPort s g = some p) (writes : canWrite s p = true) : guestAdd s c g offset commit =
    startIo (putGuest s { g with bytes := g.bytes ++ c.payload }) p (.guestWrite (cmdKey c) commit) := by
  rw [guestAdd, if_neg (guestAdd_fits total continues within whole), port, Option.filter_some, if_pos writes]

end

/-! ### Re-protection (R264) -/

theorem exec_reProtect {s : State} (on : s.running = true) (q : SeqId) : exec (.reProtect q) s =
    .next (foldState (protectStep q) s (s.mem.protects.filter fun j => j.seq == q)) := by
  show execReProtect q s = _
  rw [execReProtect, whileRunning_on on]

theorem protectStep_ends {s : State} {q : SeqId} (unparked : ∀ x : Seq, seqOf s q = some x → x.state ≠ .parked) (j : ReProtect) :
    protectStep q s j = endProtect s q j.lostLocal := by
  cases there : seqOf s q with
  | none => simp only [protectStep, there]
  | some x =>
    have state := unparked x there
    simp only [protectStep, there]
    split
    · next parked _ => exact absurd parked state
    · next parked _ => exact absurd parked state
    · rfl

section
variable {s : State} {q : SeqId} {j : ReProtect} {x : Seq} {r : ParkRef}

section
variable (there : seqOf s q = some x) (parked : x.state = .parked) (ref : x.parkRef = some r)
include there parked ref

theorem protectStep_local (lost : j.lostLocal = true) : protectStep q s j = protectLocal s j x r := by
  simp only [protectStep, there, parked, ref, lost, if_true]

theorem protectStep_guest (lost : j.lostLocal = false) : protectStep q s j = protectGuest s j x r := by
  simp [protectStep, there, parked, ref, lost]

end

variable (own : j.seq = q)
include own

/-- The object still reads here (R264). -/
theorem protectLocal_reads {o : Parked} (unplaced : j.object = 0) (reads : localObject s (some r) = some o) :
    protectLocal s j x r = protectPlace s q x r.partner o.frames := by
  subst own
  simp [protectLocal, unplaced, reads]

/-- The object has come from the partner (R264). -/
theorem protectLocal_came {b : List Byte} (unplaced : j.object = 0) (gone : localObject s (some r) = none) (asked : j.reqs ≠ [])
    (got : gotGuest s r.partner j.reqs = .bytes b) :
    protectLocal s j x r = protectPlace (dropHolders s r.partner j.reqs j.also) q x r.partner (parseObject b).2 := by
  subst own
  simp [protectLocal, unplaced, gone, asked, firstAnswer_partner j.also got]

variable {n : Nat} (partner : partnerOf s = some n)
include partner

theorem protectGuest_sends {o : Parked} {sent : List Nat × State} (unsent : j.reqs = []) (reads : localObject s (some r) = some o)
    (sends : sent = sendGuest s n q (objectBytes (objectOf q r.object x o.frames))) :
    protectGuest s j x r = modProtect sent.2 q false fun i => { i with reqs := sent.1, partner := n } := by
  subst own sends
  simp [protectGuest, partner, unsent, reads]

/-- Once every piece is acknowledged, the PARK_REF names the partner and the re-protection ends (R264). -/
theorem protectGuest_ends (asked : j.reqs ≠ []) (receiver : j.partner = n) (acks : allPut s n j.reqs = true) :
    ∃ u : State, u.mem.bare = s.mem.bare ∧ protectGuest s j x r = discardGuest (endProtect (modSeq u q fun y =>
      { y with parkRef := some { r with partner := n } }) q false) (nodeId u) q := by
  subst own
  have answered : (j.reqs.any fun k => (answerOf s n k).isNone) = false := List.any_eq_false.2 fun k mem => by
    have ack := List.all_eq_true.1 acks k mem
    cases answer : answerOf s n k with
    | none => simp [answer] at ack
    | some _ => simp
  have going : (!j.reqs.isEmpty && j.partner == n) = true := by simp [asked, receiver]
  refine ⟨_, ?_, by simp only [protectGuest, partner, going, answered, acks, if_true, if_false, Bool.false_eq_true]; rfl⟩
  split <;> rfl

/-- The partner that holds the whole object is the partner of the PARK_REF, and the re-protection is over (R264). -/
theorem protectGuest_acknowledged (there : seqOf s q = some x) (asked : j.reqs ≠ []) (receiver : j.partner = n)
    (acks : allPut s n j.reqs = true) : seqOf (protectGuest s j x r) q = some { x with parkRef := some { r with partner := n } } ∧
      ∀ i ∈ (protectGuest s j x r).mem.protects, i.seq ≠ q ∨ i.lostLocal = true := by
  obtain ⟨u, same, e⟩ := protectGuest_ends own partner asked receiver acks (x := x) (r := r)
  rw [e, discardGuest_protects]
  refine ⟨?_, fun i mem => ?_⟩
  · have before : seqOf u q = some x := (seqOf_of_work (work_of_bare same) q).trans there
    rw [seqOf_of_work (work_of_bare (discardGuest_bare _ _ _))]
    change seqOf (modSeq u q _) q = _
    rw [seqOf_modSeq, if_pos rfl, before]
    rfl
  · have kept := (List.mem_filter.1 mem).2
    by_cases named : i.seq = q
    · simpa [named] using kept
    · exact .inl named

end

/-- Settles O45: each guest command by the object and the port that it finds, then the bytes of a piece and the re-protections. -/
theorem guestObjects : Obligations.GuestObjects := by
  refine ⟨fun s c origin q turn source named => ⟨fun commit offset objLen idle =>
        ⟨fun body => ?piece, fun body u freed => ?create⟩,
      fun offset length body unread => ⟨fun g p there done port => ?get, ?unreadable⟩, guestRelease_gives turn source named⟩,
    fun s c turn foreign => ⟨fun _ _ _ _ => exec_guestPut_foreign turn foreign, fun _ _ => exec_guestGet_foreign turn foreign,
      exec_guestRelease_foreign turn foreign⟩,
    fun s c g offset len commit total => ⟨guestAdd_refuses total, fun continues within whole =>
      ⟨guestAdd_closed total continues within whole, fun p => guestAdd_writes total continues within whole⟩⟩,
    fun s q on => exec_reProtect on q,
    fun s q j => ⟨fun unparked => protectStep_ends unparked j, fun x r there parked ref own =>
      ⟨fun lost => ?local_, fun lost => ?guest⟩⟩⟩
  case piece => exact ⟨exec_guestPut_absent turn source named idle body, fun g => exec_guestPut_adds turn source named idle body⟩
  case create =>
    exact ⟨exec_guestPut_closed turn source named idle body freed, fun writes =>
      ⟨exec_guestPut_full turn source named idle body freed writes,
        fun p => exec_guestPut_creates turn source named idle body freed writes⟩⟩
  case get =>
    exact ⟨exec_guestGet_reads turn source named body unread there done port,
      exec_guestGet_beyond turn source named body unread there done port⟩
  case unreadable => exact exec_guestGet_noState turn source named body unread
  case local_ =>
    exact ⟨protectStep_local there parked ref lost, fun o => protectLocal_reads own, fun b => protectLocal_came own⟩
  case guest =>
    exact ⟨protectStep_guest there parked ref lost,
      fun n o sent partner => protectGuest_sends own partner,
      fun n partner => protectGuest_acknowledged own partner there⟩

/-! ### The composer's steps over guest objects (R264, R345, R346) -/

@[simp] theorem takeKind_mem (s : State) (src : Endpoint) (kind : Nat) : (takeKind s src kind).mem = s.mem := by
  rw [takeKind]
  split <;> rfl

@[simp] theorem putStep_mem (s : State) (r : StepRec) : (putStep s r).mem = s.mem := by rw [putStep]

@[simp] theorem stepAnswer_mem (s : State) (dest : Option Nat) (id : Nat) (st : Status) :
    (stepAnswer s dest id st).mem = s.mem := by
  cases dest with
  | none => exact (reportAll_aside (Aside.refl true s)).mem
  | some n => exact (sendControl_aside (Aside.refl true s)).mem

/-- A guest is left by the release of a list of guests where it is none of them. -/
theorem mem_discardGuests (l : List Guest) (g : Guest) : ∀ s : State,
    g ∈ (foldState (fun s (h : Guest) => discardGuest s h.origin h.seq) s l).mem.guests ↔
      g ∈ s.mem.guests ∧ ∀ h ∈ l, ¬(g.origin = h.origin ∧ g.seq = h.seq) := by
  induction l with
  | nil => simp [foldState]
  | cons h l ih =>
    intro s
    rw [foldState, ih, discardGuest_guests, List.mem_filter, List.forall_mem_cons, and_assoc]
    simp [imp_iff_not_or]

section
variable {s : State} {dest : Option Nat} {epoch id action : Nat} {seq : Option SeqId} {run : Unit → State}
  (unfenced : s.fault.fenced = false)
include unfenced

theorem stepGate_stale (other : epoch ≠ epochOf s) : stepGate s dest epoch id action seq run = stepAnswer s dest id .staleMap := by
  simp [stepGate, unfenced, other]

theorem stepGate_new (installed : epoch = epochOf s) (new : ∀ r ∈ s.comp.steps, r.epoch ≠ epoch ∨ r.stepId ≠ id) :
    stepGate s dest epoch id action seq run = run () := by
  have unseen : s.comp.steps.find? (fun r => r.epoch == epoch && r.stepId == id && r.seq == seq && r.action == action) = none :=
    List.find?_eq_none.2 fun r mem => by rcases new r mem with other | other <;> simp [other]
  have untaken : (s.comp.steps.any fun r => r.epoch == epoch && r.stepId == id && r.action != action) = false :=
    List.any_eq_false.2 fun r mem => by rcases new r mem with other | other <;> simp [other]
  rw [stepGate, if_neg (by simp [unfenced]), if_neg (not_not.2 installed)]
  simp only [unseen, untaken, Bool.false_eq_true, if_false]

theorem stepGate_again {r : StepRec} {st : Status} (seen : s.comp.steps.find? (fun r =>
      r.epoch == epochOf s && r.stepId == id && r.seq == seq && r.action == action) = some r) (answered : r.status = some st) :
    stepGate s dest (epochOf s) id action seq run = stepAnswer s dest id st := by
  simp [stepGate, unfenced, seen, answered]

end

section
variable {s u : State} {src : Endpoint} {epoch id arg : Nat} (on : s.running = true) (taken : u = takeKind s src 0x19)
  (unfenced : u.fault.fenced = false)
include on taken unfenced

section
variable (composer : isComposer u src = true)
include composer

theorem exec_transferGuests_stale (other : epoch ≠ epochOf u) :
    exec (.transferGuests src epoch id arg) s = .next (stepAnswer u none id .staleMap) := by
  subst taken
  show execTransferGuests src epoch id arg s = _
  simp only [execTransferGuests, on, composer, stepGate_stale unfenced other, Bool.not_true, Bool.false_eq_true, if_false]

theorem exec_releaseGuests_stale (other : epoch ≠ epochOf u) :
    exec (.releaseGuests src epoch id arg) s = .next (stepAnswer u none id .staleMap) := by
  subst taken
  show execReleaseGuests src epoch id arg s = _
  simp only [execReleaseGuests, on, composer, stepGate_stale unfenced other, Bool.not_true, Bool.false_eq_true, if_false]

/-- A RELEASE_GUESTS that has been answered is answered as it was (R345). -/
theorem exec_releaseGuests_again {r : StepRec} {st : Status} (seen : u.comp.steps.find? (fun r =>
      r.epoch == epochOf u && r.stepId == id && r.seq == none && r.action == 3) = some r) (answered : r.status = some st) :
    exec (.releaseGuests src (epochOf u) id arg) s = .next (stepAnswer u none id st) := by
  subst taken
  show execReleaseGuests src _ id arg s = _
  simp only [execReleaseGuests, on, composer, stepGate_again unfenced seen answered, Bool.not_true, Bool.false_eq_true, if_false]

end

variable (installed : epoch = epochOf u) (new : ∀ r ∈ u.comp.steps, r.epoch ≠ epoch ∨ r.stepId ≠ id)
include installed new

section
variable (composer : isComposer u src = true)
include composer

section
variable {r : List SeqId × Status × State}
  (moved : r = (u.mem.guests.filter fun g => g.origin == arg && g.committed).foldl (fun acc g =>
    (acc.1 ++ (transferOne epoch id acc.2.2 g).1.toList, acc.2.1.worse (transferOne epoch id acc.2.2 g).2.1,
      (transferOne epoch id acc.2.2 g).2.2)) ([], Status.ok, u))
include moved

/-- Where no ADOPT is awaited, TRANSFER_GUESTS completes at once (R346). -/
theorem exec_transferGuests_done (alone : r.1 = []) : exec (.transferGuests src epoch id arg) s = .next (stepAnswer (putStep r.2.2
    { epoch := epoch, stepId := id, seq := none, action := 1, arg := arg, waiting := r.1, acc := r.2.1, status := some r.2.1 })
    none id r.2.1) := by
  subst taken
  show execTransferGuests src epoch id arg s = _
  simp only [execTransferGuests, on, composer, stepGate_new unfenced installed new, Bool.not_true, Bool.false_eq_true, if_false]
  rw [← moved, alone]
  rfl

theorem exec_transferGuests_waits (awaited : r.1 ≠ []) : exec (.transferGuests src epoch id arg) s = .next (putStep r.2.2
    { epoch := epoch, stepId := id, seq := none, action := 1, arg := arg, waiting := r.1, acc := r.2.1 }) := by
  subst taken
  show execTransferGuests src epoch id arg s = _
  simp only [execTransferGuests, on, composer, stepGate_new unfenced installed new, Bool.not_true, Bool.false_eq_true, if_false]
  rw [← moved, if_neg (by simpa using awaited)]

end

/-- A RELEASE_GUESTS leaves of the guests those of other nodes (R264). -/
theorem releaseGuests_gives : Gives (.releaseGuests src epoch id arg) s fun t =>
    (∀ g ∈ t.mem.guests, g.origin ≠ arg) ∧ ∀ g ∈ s.mem.guests, g.origin ≠ arg → g ∈ t.mem.guests := by
  subst taken
  have run : exec (.releaseGuests src epoch id arg) s = execReleaseGuests src epoch id arg s := rfl
  simp only [execReleaseGuests, on, composer, stepGate_new unfenced installed new, Bool.not_true, Bool.false_eq_true, if_false] at run
  refine ⟨_, run, ?_⟩
  dsimp only
  rw [stepAnswer_mem, putStep_mem, foldState_keeps State.mem fun _ _ => tenantAbsent_mem _ _]
  simp only [mem_discardGuests, takeKind_mem, List.mem_filter, beq_iff_eq]
  refine ⟨fun g listed other => ?_, fun g listed other => ⟨listed, fun h chosen same => ?_⟩⟩
  · exact listed.2 g ⟨listed.1, other⟩ ⟨rfl, rfl⟩
  · exact other (same.1.trans chosen.2)

end

section
variable {n : Nat} {q : SeqId} {object : List Byte} {r : Option Status × State} (sender : src = .node n)
  (adopts : r = adoptObject u n q object)
include sender adopts

theorem exec_adopt_decided {st : Status} (decided : r.1 = some st) : exec (.adopt src epoch id q object) s =
    .next (stepAnswer (putStep r.2 { epoch := epoch, stepId := id, seq := some q, action := 2, arg := n, status := some st })
      (some n) id st) := by
  subst taken sender
  show execAdopt (.node n) epoch id q object s = _
  simp only [execAdopt, on, asNode, stepGate_new unfenced installed new, Bool.not_true, Bool.false_eq_true, if_false]
  simp only [← adopts, decided]

theorem exec_adopt_writes (undecided : r.1 = none) : exec (.adopt src epoch id q object) s =
    .next (putStep r.2 { epoch := epoch, stepId := id, seq := some q, action := 2, arg := n, status := none }) := by
  subst taken sender
  show execAdopt (.node n) epoch id q object s = _
  simp only [execAdopt, on, asNode, stepGate_new unfenced installed new, Bool.not_true, Bool.false_eq_true, if_false]
  simp only [← adopts, undecided]

end

end

/-- The report of an ADOPT takes its object from what the TRANSFER_GUESTS waits for (R346). -/
theorem exec_stepDoneReport {s v : State} {n id : Nat} {status : Status} {r : StepRec} {q : SeqId} (on : s.running = true)
    (taken : v = takeKind s (.node n) 0x14)
    (open_ : v.comp.steps.find? (fun r => r.stepId == id && r.action == 1 && r.status.isNone && r.epoch == epochOf v) = some r)
    (own : r.waiting.find? (fun q => (guestOf v n q).isSome) = some q) :
    exec (.stepDoneReport (.node n) id status) s = .next (stepWaited v r q status) := by
  subst taken
  show execStepDoneReport (.node n) id status s = _
  simp only [execStepDoneReport, on, takeNode, asNode, open_, own, Bool.not_true, Bool.false_eq_true, if_false]

section
variable {v : State} {r r1 : StepRec} {q : SeqId} {status : Status}
  (counted : r1 = { r with waiting := r.waiting.filter (· != q), acc := r.acc.worse status })
include counted

/-- The last ADOPT completes the step (R346). -/
theorem stepWaited_last (last : r1.waiting = []) :
    stepWaited v r q status = stepAnswer (putStep v { r1 with status := some r1.acc }) none r.stepId r1.acc := by
  subst counted
  exact if_pos (List.isEmpty_iff.2 last)

theorem stepWaited_more (more : r1.waiting ≠ []) : stepWaited v r q status = putStep v r1 := by
  subst counted
  exact if_neg fun empty => more (List.isEmpty_iff.1 empty)

end

/-- Settles O60: what `stepGate` lets through, then the steps by what they find, and the reports of the ADOPTs. -/
theorem guestSteps : Obligations.GuestSteps := by
  intro s src epoch id arg u on taken unfenced
  refine ⟨fun other composer => ⟨exec_transferGuests_stale on taken unfenced composer other,
      exec_releaseGuests_stale on taken unfenced composer other⟩,
    fun installed new => ⟨fun composer r moved => ?transfers, fun n q object r sender adopts => ?adopts,
      releaseGuests_gives on taken unfenced installed new⟩,
    fun r st composer => exec_releaseGuests_again on taken unfenced composer,
    fun n status r r1 q v taken' open_ own counted => ⟨fun last => ?last, fun more => ?more⟩⟩
  case transfers =>
    exact ⟨exec_transferGuests_done on taken unfenced installed new composer moved,
      exec_transferGuests_waits on taken unfenced installed new composer moved⟩
  case adopts =>
    exact ⟨fun st => exec_adopt_decided on taken unfenced installed new sender adopts,
      exec_adopt_writes on taken unfenced installed new sender adopts⟩
  case last =>
    have named : r.stepId = id := by
      have found := List.find?_some open_
      simp only [Bool.and_eq_true, beq_iff_eq] at found
      exact found.1.1.1
    rw [exec_stepDoneReport on taken' open_ own, stepWaited_last counted last, named]
  case more => rw [exec_stepDoneReport on taken' open_ own, stepWaited_more counted more]

/-! ### What operations leave of the cartridge ports and of their I/O (R255, R267) -/

theorem portOf_congr {s t : State} (same : t.mem.ports = s.mem.ports) (p : Nat) : portOf t p = portOf s p := by
  rw [portOf, same, portOf]

/-- The cartridge ports and the I/O. -/
def MemSt.cellar (m : MemSt) : Tab CellarPort × List Nvme := (m.ports, m.nvme)

theorem cellar_of_mem {s t : State} (same : t.mem = s.mem) : t.mem.cellar = s.mem.cellar := congrArg MemSt.cellar same

/-- A port apart from its directory and from an enrolment in progress. -/
def CellarPort.standing (c : CellarPort) : CellarPort := { c with enrolling := false, objects := [], nextObject := 0 }

/-- `b` has the ports of `a` but for their directories and enrolments, and of I/O only that of `a` and what has been issued at ports
that take writes. -/
structure PortsStand (a b : State) : Prop where
  standing : ∀ p : Nat, (portOf b p).standing = (portOf a p).standing
  issued : ∀ n ∈ b.mem.nvme, n ∈ a.mem.nvme ∨ canWrite a n.port = true

theorem PortsStand.state {a b : State} (stand : PortsStand a b) (p : Nat) : (portOf b p).state = (portOf a p).state := by
  have same := congrArg CellarPort.state (stand.standing p)
  exact same

theorem PortsStand.canWrite {a b : State} (stand : PortsStand a b) (p : Nat) : canWrite b p = canWrite a p := by
  rw [Machine.canWrite, stand.state, Machine.canWrite]

theorem PortsStand.of_cellar {a b : State} (same : b.mem.cellar = a.mem.cellar) : PortsStand a b where
  standing p := congrArg CellarPort.standing (portOf_congr (congrArg Prod.fst same) p)
  issued n mem := .inl (by
    have inflight : b.mem.nvme = a.mem.nvme := congrArg Prod.snd same
    rwa [inflight] at mem)

theorem PortsStand.refl (a : State) : PortsStand a a := .of_cellar rfl

theorem PortsStand.trans {a b c : State} (first : PortsStand a b) (then_ : PortsStand b c) : PortsStand a c where
  standing p := (then_.standing p).trans (first.standing p)
  issued n mem := by
    rcases then_.issued n mem with earlier | writes
    · exact first.issued n earlier
    · exact .inr ((first.canWrite n.port).symm.trans writes)

theorem foldState_stands {α : Type} {f : State → α → State} (step : ∀ t a, PortsStand t (f t a)) (l : List α) (s : State) :
    PortsStand s (foldState f s l) := foldState_relates PortsStand.refl PortsStand.trans step l s

theorem startIo_stands {s : State} {p : Nat} (writes : canWrite s p = true) (why : IoWhy) : PortsStand s (startIo s p why) where
  standing _ := rfl
  issued n mem := by
    rcases List.mem_append.1 mem with earlier | new
    · exact .inl earlier
    · exact .inr (by rw [List.mem_singleton.1 new]; exact writes)

theorem deallocate_stands (s : State) (p : Nat) : PortsStand s (deallocate s p) := by
  rw [deallocate]
  split
  · next writes => exact startIo_stands writes .deallocate
  · exact .refl s

theorem modPort_stands {f : CellarPort → CellarPort} (s : State) (p : Nat)
    (keeps : ∀ c, (f c).standing = c.standing := by intro _; rfl) : PortsStand s (modPort s p f) where
  standing k := by
    rw [portOf_modPort]
    split
    · next same => rw [keeps, same]
    · rfl
  issued _ mem := .inl mem

theorem dropIo_stands (s : State) (p : IoWhy → Bool) : PortsStand s (dropIo s p) where
  standing _ := rfl
  issued _ mem := .inl (List.mem_filter.1 mem).1

theorem modSeq_cellar (s : State) (q : SeqId) (f : Seq → Seq) : (modSeq s q f).mem.cellar = s.mem.cellar := by
  rw [modSeq]
  split <;> rfl

theorem dropHalf_stands (s : State) (q : SeqId) : PortsStand s (dropHalf s q) := by
  rw [dropHalf]
  refine (dropIo_stands s _).trans (foldState_stands (fun t p => ?_) _ _)
  split
  · exact (modPort_stands t p).trans (deallocate_stands _ p)
  · exact .refl t

theorem choosePort_canWrite {s : State} {size p : Nat} (chosen : choosePort s size = some p) : canWrite s p = true := by
  unfold choosePort at chosen
  extract_lets ready fresh cands ordered at chosen
  have listed : p ∈ ordered := List.mem_of_find?_eq_some chosen
  have candidate : p ∈ cands := by
    simp only [ordered] at listed
    split at listed
    · exact List.mem_reverse.1 listed
    · exact listed
  have able : p ∈ ready := by
    simp only [cands] at candidate
    split at candidate
    · exact candidate
    · exact (List.mem_filter.1 candidate).1
  exact (List.mem_filter.1 able).2

theorem writeObject_stands {s : State} {p : Nat} (writes : canWrite s p = true) (partner : Nat) (o : Parked) (why : IoWhy) :
    PortsStand s (writeObject s p partner o why).2 := by
  have port := modPort_stands (f := fun c => { c with
    objects := c.objects ++ [refTo (writeObject s p partner o why).1 { o with number := (portOf s p).nextObject }],
    nextObject := (portOf s p).nextObject + 1 }) s p
  exact port.trans (startIo_stands ((port.canWrite p).trans writes) why)

theorem parkLocal_stands (s : State) (q : SeqId) : PortsStand s (parkLocal s q) := by
  dsimp only [parkLocal]
  split
  · split
    · exact .refl s
    · next chosen =>
      exact (writeObject_stands (choosePort_canWrite chosen) _ _ _).trans (.of_cellar (modSeq_cellar _ _ _))
  · exact .refl s

theorem moveParks_stands (s : State) (p : Nat) (all : Bool) : PortsStand s (moveParks s p all) :=
  foldState_stands (fun t _ => (dropHalf_stands t _).trans (parkLocal_stands _ _)) _ s

/-! ### What a failed I/O leaves of them (R255) -/

theorem assignLane_cellar (cluster : Nat) (encode : Bool) (s : State) :
    (assignLane cluster encode s).mem.cellar = s.mem.cellar := by
  dsimp only [assignLane]
  split
  · split
    · rfl
    · rw [foldState_keeps State.mem fun t p => memRead1_mem t _ p]
      rfl
  · rfl

theorem codecQueue_cellar (s : State) (j : CodecJob) (quad : Nat) : (codecQueue s j quad).2.mem.cellar = s.mem.cellar := by
  dsimp only [codecQueue]
  exact foldState_keeps (fun t : State => t.mem.cellar) (fun _ q =>
    (iter_keeps (fun t : State => t.mem.cellar) (assignLane_cellar q true) 16 _).trans
      (iter_keeps (fun t : State => t.mem.cellar) (assignLane_cellar q false) 32 _)) _ _

theorem nodeCommand_cellar (s : State) (node : Nat) (q : SeqId) (body : Body) (payload : List Byte) :
    (nodeCommand s node q body payload).mem.cellar = s.mem.cellar :=
  (congrArg MemSt.cellar (sendMsg_mem _ _ _ _ _ _)).trans rfl

theorem askGuest_cellar (s : State) (node : Nat) (q : SeqId) (size : Nat) : (askGuest s node q size).2.mem.cellar = s.mem.cellar :=
  foldState_keeps (fun t : State => t.mem.cellar) (fun t _ => nodeCommand_cellar t node q _ _) _ s

theorem askHolders_cellar (s : State) (node : Nat) (q : SeqId) (size : Nat) :
    (askHolders s node q size).2.2.mem.cellar = s.mem.cellar := by
  dsimp only [askHolders]
  split
  · exact askGuest_cellar s node q size
  · exact (askGuest_cellar _ _ q size).trans (askGuest_cellar s node q size)

theorem poisonFrame_cellar (s : State) (lpn : Nat) : (poisonFrame s lpn).mem.cellar = s.mem.cellar := by
  have written (t : State) (l : Loc) (o : Nat) (bs : List Byte) : (slotWrite t l o bs).mem.cellar = t.mem.cellar := by cases l <;> rfl
  exact written _ _ _ _

theorem wakePoison_cellar (s : State) (q : SeqId) (p : Nat × Nat) : (wakePoison s q p).mem.cellar = s.mem.cellar := by
  dsimp only [wakePoison]
  split
  · rfl
  · exact poisonFrame_cellar _ _

theorem wakeSubmit_cellar (s : State) (q : SeqId) (guest : Bool) (f : ObjFrame) :
    (wakeSubmit s q guest f).mem.cellar = s.mem.cellar := by
  dsimp only [wakeSubmit]
  split
  · rfl
  · exact codecQueue_cellar s _ _

theorem wakeGuestPage_cellar (fs : List ObjFrame) (q : SeqId) (s : State) (p : Nat × Nat) :
    (wakeGuestPage fs q s p).mem.cellar = s.mem.cellar := by
  rw [wakeGuestPage]
  split
  · exact wakeSubmit_cellar s q true _
  · exact wakePoison_cellar s q p

theorem wakeAsk_cellar (s : State) (q : SeqId) : (wakeAsk s q).mem.cellar = s.mem.cellar := by
  dsimp only [wakeAsk]
  split
  · split
    · rfl
    · split
      · rfl
      · exact askHolders_cellar s _ q _
  · rfl

theorem wakeFromGuest_cellar (s : State) (q : SeqId) (p : Nat × Nat) : (wakeFromGuest s q p).mem.cellar = s.mem.cellar := by
  dsimp only [wakeFromGuest]
  split
  · rfl
  · split
    · exact wakeGuestPage_cellar _ q _ p
    · exact wakeAsk_cellar _ q

theorem stepWaited_mem (s : State) (r : StepRec) (q : SeqId) (st : Status) : (stepWaited s r q st).mem = s.mem := by
  dsimp only [stepWaited]
  split <;> simp

theorem adoptAnswered_mem (s : State) (q : SeqId) (st : Status) : (adoptAnswered s q st).mem = s.mem :=
  (foldState_keeps State.mem (fun t r => stepWaited_mem t r q st) _ _).trans
    (foldState_keeps State.mem (fun _ _ => by simp) _ s)

theorem protectRestart_stands (s : State) (q : SeqId) : PortsStand s (protectRestart s q) := by
  have dropped := dropHalf_stands s q
  unfold protectRestart
  generalize dropHalf s q = t at dropped
  exact dropped.trans (.of_cellar rfl)

theorem adoptFailed_stands (s : State) (q : SeqId) : PortsStand s (adoptAnswered (dropHalf s q) q .internal) :=
  (dropHalf_stands s q).trans (.of_cellar (cellar_of_mem (adoptAnswered_mem _ _ _)))

theorem ioFailed_stands (s : State) (n : Nvme) : PortsStand s (ioFailed s n) := by
  rw [ioFailed]
  cases n.why with
  | parkWrite | parkFlush | deallocate => exact .refl s
  | wakeRead => exact .of_cellar (wakeFromGuest_cellar s _ _)
  | guestWrite | guestFlush | guestRead => exact .of_cellar (cellar_of_mem (completeKeys_mem s _ _))
  | protectWrite | protectFlush => exact protectRestart_stands s _
  | adoptWrite | adoptFlush => exact adoptFailed_stands s _
  | format | recordWrite | recordFlush => exact modPort_stands s _

/-! ### CARTRIDGE_REMOVAL (R267) -/

@[simp] theorem lifeLevel_mem (s : State) : (lifeLevel s).mem = s.mem := setLevel_mem s _ _ _

theorem portEmpty_stands (s : State) (p : Nat) : PortsStand (modPort s p fun _ => {}) (portEmpty s p) := by
  rw [portEmpty]
  refine PortsStand.trans ?_ (.of_cellar (cellar_of_mem (lifeLevel_mem _)))
  refine PortsStand.trans ?_ (moveParks_stands _ p true)
  exact .of_cellar rfl

/-- The state with the port of a removed cartridge empty and its I/O gone. -/
def portTaken (s : State) (p : Nat) : State :=
  modPort { s with mem := { s.mem with nvme := s.mem.nvme.filter fun n => n.port != p } } p fun _ => {}

theorem portGone_stands (s : State) (p : Nat) : PortsStand (portTaken s p) (portGone s p) :=
  (portEmpty_stands _ p).trans (foldState_stands ioFailed_stands _ _)

theorem cartridgeRemoval_gives {s : State} {p : Fin 2} (on : s.running = true) (taken : (portOf s p.val).state ≠ 0) :
    Gives (.cartridgeRemoval p) s fun t => (portOf t p.val).state = 0 ∧ (∀ n ∈ t.mem.nvme, n.port ≠ p.val) ∧
      ∃ e ∈ t.fault.events, e.source = 55 + p.val := by
  have empty : (portOf (portTaken s p.val) p.val).state = 0 := by
    rw [portTaken, portOf_modPort, if_pos rfl]
  have stand := portGone_stands s p.val
  refine ⟨raise (portGone s p.val) { source := 55 + p.val, unit := { kind := 10, num := p.val } }, ?runs,
    (stand.state p.val).trans empty, fun n mem here => ?idle, _, List.mem_append_right _ (List.mem_singleton_self _), rfl⟩
  case runs =>
    show execCartridgeRemoval p s = _
    rw [execCartridgeRemoval, whileRunning_on on, if_neg (by simpa using taken)]
  case idle =>
    rcases stand.issued n mem with earlier | writes
    · have away := (List.mem_filter.1 earlier).2
      simp [here] at away
    · rw [here, canWrite, empty] at writes
      cases writes

/-! ### CARTRIDGE_INSERT (R254, R266) -/

theorem cartridgeReason_le (s : State) (i : CartridgeInfo) : cartridgeReason s i ≤ 8 := by
  unfold cartridgeReason
  repeat' split
  all_goals omega

/-- The port into which a cartridge has been put, by the first condition that it breaks. -/
def insertedPort (s : State) (i : CartridgeInfo) : CellarPort :=
  let reason := cartridgeReason s i
  let known := cartOf s i.record.cartridgeId
  let life := if reason = 0 then known.life else 0
  { state := if reason = 0 then (if 1000 ≤ known.life then 6 else 4) else if reason = 8 then 3 else 2
    reason := if reason = 8 then 0 else reason
    width := i.width, gen5 := i.gen5, sizeGib := i.sizeGib, serial := i.serial, model := i.model, identity := i.record
    dataUnits := i.dataUnits, life := life, warn80 := decide (800 ≤ life), warn95 := decide (950 ≤ life)
    objects := if reason = 0 then known.objects else [], nextObject := if reason = 0 then known.nextObject else 1 }

theorem deallocate_ports (s : State) (p : Nat) : (deallocate s p).mem.ports = s.mem.ports := by
  rw [deallocate]
  split <;> rfl

theorem followCart_ports (s : State) (p : Nat) : (followCart s p).mem.ports = s.mem.ports := rfl

theorem insertCartridge_portOf (s : State) (p : Nat) (i : CartridgeInfo) (k : Nat) :
    portOf (insertCartridge s p i) k = if k = p then insertedPort s i else portOf s k := by
  unfold insertCartridge
  extract_lets reason known ready life s1 _ s2 s3
  have served : portOf s1 k = if k = p then insertedPort s i else portOf s k := by
    rw [portOf_modPort]
    refine if_congr Iff.rfl ?_ rfl
    by_cases sound : cartridgeReason s i = 0 <;> simp [insertedPort, life, ready, reason, known, sound]
  have kept : s3.mem.ports = s1.mem.ports := by
    simp only [s3, lifeLevel_mem, s2]
    split
    · rw [followCart_ports, iter_keeps (fun t : State => t.mem.ports) fun t => deallocate_ports t p]
    · rfl
  have raised : portOf s3 k = portOf s1 k := portOf_congr kept k
  split
  · rw [raise_portOf, raised, served]
  · rw [raised, served]

theorem insertCartridge_raises {s : State} {i : CartridgeInfo} (broken : cartridgeReason s i ≠ 0)
    (magic : cartridgeReason s i ≠ 8) (p : Nat) : ∃ e ∈ (insertCartridge s p i).fault.events, e.source = 55 + p ∧ e.detail = cartridgeReason s i := by
  have refused : 1 ≤ cartridgeReason s i ∧ cartridgeReason s i ≤ 7 := by
    have := cartridgeReason_le s i
    omega
  rw [insertCartridge]
  dsimp only
  rw [if_pos refused]
  exact ⟨_, List.mem_append_right _ (List.mem_singleton_self _), rfl, rfl⟩

theorem cartridgeInsert_gives {s : State} {p : Fin 2} {i : CartridgeInfo} (on : s.running = true)
    (empty : (portOf s p.val).state = 0) : Gives (.cartridgeInsert p i) s fun t =>
      (portOf t p.val).identity = i.record ∧ (portOf t p.val).sizeGib = i.sizeGib ∧
      portOf t (1 - p.val) = portOf s (1 - p.val) ∧
      (cartridgeReason s i = 0 →
        (portOf t p.val).state = (if 1000 ≤ (cartOf s i.record.cartridgeId).life then 6 else 4) ∧ (portOf t p.val).reason = 0 ∧
        (portOf t p.val).life = (cartOf s i.record.cartridgeId).life ∧
        (portOf t p.val).objects = (cartOf s i.record.cartridgeId).objects) ∧
      (cartridgeReason s i = 8 → (portOf t p.val).state = 3 ∧ (portOf t p.val).reason = 0) ∧
      (cartridgeReason s i ≠ 0 → cartridgeReason s i ≠ 8 →
        (portOf t p.val).state = 2 ∧ (portOf t p.val).reason = cartridgeReason s i ∧
        ∃ e ∈ t.fault.events, e.source = 55 + p.val ∧ e.detail = cartridgeReason s i) := by
  have own : portOf (insertCartridge s p.val i) p.val = insertedPort s i := by rw [insertCartridge_portOf, if_pos rfl]
  have away : 1 - p.val ≠ p.val := by omega
  refine ⟨insertCartridge s p.val i, ?runs, ?_⟩
  case runs =>
    show execCartridgeInsert p i s = _
    rw [execCartridgeInsert, if_pos (by simp [on, empty])]
  dsimp only
  rw [own]
  refine ⟨rfl, rfl, by rw [insertCartridge_portOf, if_neg away], fun sound => ?sound, fun unmarked => ?unmarked,
    fun broken magic => ?refused⟩
  case sound => simp [insertedPort, sound]
  case unmarked => simp [insertedPort, unmarked]
  case refused =>
    exact ⟨by simp [insertedPort, broken, magic], by simp [insertedPort, magic], insertCartridge_raises broken magic _⟩

/-! ### CP_ENROL and CP_EJECT (R258, R267) -/

section
variable {s : State} {p : Fin 2} (reach : Reaches s (0x60218 + 32 * p.val))
include reach

theorem exec_cpEnrol_formats (open_ : (portOf s p.val).state = 3 ∨
      ((portOf s p.val).state = 2 ∧ ((portOf s p.val).reason = 6 ∨ (portOf s p.val).reason = 7)))
    (idle : (portOf s p.val).enrolling = false) :
    exec (.cpEnrol p) s = .next (startIo (modPort s p.val fun c => { c with enrolling := true }) p.val .format) := by
  show execCpEnrol p s = _
  rw [execCpEnrol, regEnter_reaches reach, cpEnrol]
  exact congrArg _ (if_pos (by simpa [idle] using open_))

theorem exec_cpEnrol_closed (enrolled : (portOf s p.val).state ≠ 3)
    (refused : (portOf s p.val).state = 2 → (portOf s p.val).reason ≠ 6 ∧ (portOf s p.val).reason ≠ 7) :
    exec (.cpEnrol p) s = .next s := by
  show execCpEnrol p s = _
  rw [execCpEnrol, regEnter_reaches reach, cpEnrol]
  refine congrArg _ (if_neg ?_)
  simp only [Bool.and_eq_true, Bool.or_eq_true, beq_iff_eq]
  rintro ⟨unenrolled | ⟨state, six | seven⟩, -⟩
  · exact enrolled unenrolled
  · exact (refused state).1 six
  · exact (refused state).2 seven

theorem exec_cpEject (taken : (portOf s p.val).state ≠ 0) : exec (.cpEject p) s =
    .next (drainEject (moveParks (modPort s p.val fun c => { c with state := 5 }) p.val false) p.val) := by
  show execCpEject p s = _
  rw [execCpEject, regEnter_reaches reach, cpEject, if_neg (by simpa using taken)]

end

/-! ### SMART_POLL (R265) -/

@[simp] theorem lifeRecord_mem (s : State) (p event : Nat) : (lifeRecord s p event).mem = s.mem :=
  (caskNote_aside (Aside.refl true s)).mem

/-- A port whose cartridge has answered a SMART poll. -/
def CellarPort.polled (c : CellarPort) (log : SmartLog) : CellarPort :=
  let life := max c.life (lifeOf c log)
  { c with
    life := life, warn80 := decide (800 ≤ life), warn95 := decide (950 ≤ life), dataUnits := log.dataUnitsWritten
    state := if c.state = 6 ∨ 1000 ≤ life ∨ log.readOnly = true then 6 else 4 }

/-- A port whose cartridge's LIFE has ended is in LIFE_END; the PARKs that go to the other port change its directory only. -/
theorem lifeEnded_standing (s : State) (p : Nat) (due : State → List SeqId) :
    let closed := lifeRecord (modPort s p fun c => { c with state := 6 }) p 4
    (portOf (moveParks (protectDue closed true (due closed)) p false) p).standing = { portOf s p with state := 6 }.standing := by
  intro closed
  have port : portOf closed p = { portOf s p with state := 6 } := by
    rw [portOf_congr (congrArg MemSt.ports (lifeRecord_mem _ _ _)), portOf_modPort, if_pos rfl]
  rw [← port]
  exact (moveParks_stands (protectDue closed true (due closed)) p false).standing p

theorem smartPoll_stands {s : State} {p : Fin 2} {log : SmartLog} (on : s.running = true)
    (ready : (portOf s p.val).state = 4 ∨ (portOf s p.val).state = 6) :
    Gives (.smartPoll p log) s fun t => (portOf t p.val).standing = ((portOf s p.val).polled log).standing := by
  have serves : ¬ ((portOf s p.val).state != 4 && (portOf s p.val).state != 6) = true := by
    rcases ready with state | state <;> simp [state]
  refine ⟨_, congrArg Host.Outcome.next (whileRunning_on on), ?_⟩
  extract_lets q c life ended s1 s2 s3 s4
  rw [if_neg serves]
  have recorded : s3.mem = s1.mem := by
    have first : s2.mem = s1.mem := by
      simp only [s2]
      split <;> simp
    simp only [s3]
    split <;> simp [first]
  have warned : portOf s3 q = { c with
      life := life, warn80 := decide (800 ≤ life), warn95 := decide (950 ≤ life), dataUnits := log.dataUnitsWritten } := by
    rw [portOf_congr (congrArg MemSt.ports recorded), portOf_modPort, if_pos rfl]
  clear_value s3
  dsimp only
  split
  case isTrue ending =>
    simp only [ended, Bool.and_eq_true, Bool.or_eq_true, decide_eq_true_eq, beq_iff_eq] at ending
    refine (lifeEnded_standing s3 q (parkedOn · q)).trans ?_
    rw [warned, CellarPort.polled, if_pos (.inr ending.1)]
  case isFalse going =>
    simp only [ended, Bool.and_eq_true, Bool.or_eq_true, decide_eq_true_eq, beq_iff_eq] at going
    have state : c.state = if c.state = 6 ∨ 1000 ≤ life ∨ log.readOnly = true then 6 else 4 := by
      rcases ready with ready | ended
      · have lives : ¬ (c.state = 6 ∨ 1000 ≤ life ∨ log.readOnly = true) := by
          rintro (full | late)
          · exact absurd (full.symm.trans ready) (by decide)
          · exact going ⟨late, ready⟩
        rw [if_neg lives]
        exact ready
      · rw [if_pos (.inl ended)]
        exact ended
    rw [warned, CellarPort.polled]
    rw [← state]

theorem smartPoll_gives {s : State} {p : Fin 2} {log : SmartLog} (on : s.running = true)
    (ready : (portOf s p.val).state = 4 ∨ (portOf s p.val).state = 6) : Gives (.smartPoll p log) s fun t =>
      (portOf t p.val).life = max (portOf s p.val).life (lifeOf (portOf s p.val) log) ∧
      (portOf t p.val).warn80 = decide (800 ≤ (portOf t p.val).life) ∧
      (portOf t p.val).warn95 = decide (950 ≤ (portOf t p.val).life) ∧
      (portOf t p.val).state = if (portOf s p.val).state = 6 ∨ 1000 ≤ (portOf t p.val).life ∨ log.readOnly = true then 6 else 4 := by
  obtain ⟨t, run, stand⟩ := smartPoll_stands on ready (log := log)
  have life : (portOf t p.val).life = max (portOf s p.val).life (lifeOf (portOf s p.val) log) := congrArg CellarPort.life stand
  refine ⟨t, run, life, ?_, ?_, ?_⟩
  all_goals rw [life]
  · exact congrArg CellarPort.warn80 stand
  · exact congrArg CellarPort.warn95 stand
  · exact congrArg CellarPort.state stand

/-! ### NVME_COMPLETION (R255, R258) -/

theorem drainEject_serves {s : State} {p : Nat} (serves : (portOf s p).state ≠ 5) : drainEject s p = s :=
  if_neg (by simp [serves])

/-- The identity record that this node writes for the cartridge in a port (R257, R258). -/
def enrolRecord (s : State) (p : Nat) : IdRecord :=
  { cartridgeId := Config.random s.fresh % 18446744073709551616, serial := (portOf s p).serial, model := (portOf s p).model,
    nodeKeyHash := nodeKeyHash s, enrolBoot := s.cask.boot, enrolCount := now s, ratedTb := rd s (0x60214 + 32 * p),
    duwBase := (portOf s p).dataUnits, lbas := 262144 * (portOf s p).sizeGib }

theorem enrolFormatted_portOf (s : State) (p : Nat) : portOf (enrolFormatted s p) p =
    { portOf s p with identity := enrolRecord s p, objects := [], nextObject := 1 } := by
  unfold enrolFormatted
  extract_lets c old record _ s1
  have written := portOf_modPort s1 p (fun c => { c with identity := record, objects := [], nextObject := 1 }) p
  exact written.trans (if_pos rfl)

theorem enrolDone_portOf (s : State) (p : Nat) : portOf (enrolDone s p) p =
    { portOf s p with state := if 1000 ≤ (portOf s p).life then 6 else 4, reason := 0, enrolling := false } := by
  rw [enrolDone, portOf_congr (congrArg MemSt.ports (lifeRecord_mem _ _ _)), portOf_modPort, if_pos rfl]

theorem enrolFormatted_writes (s : State) (p : Nat) :
    ∃ x ∈ (enrolFormatted s p).mem.nvme, x.port = p ∧ x.why = .recordWrite := by
  unfold enrolFormatted
  extract_lets c old record _ s1
  exact ⟨_, List.mem_append_right _ (List.mem_singleton_self _), rfl, rfl⟩

theorem enrolFormatted_seqs (s : State) (p : Nat) : (enrolFormatted s p).mem.seqs = s.mem.seqs := rfl

theorem enrolFormatted_frames (s : State) (p : Nat) : (enrolFormatted s p).mem.frames = s.mem.frames := rfl

/-- The state without an I/O that has ended. -/
def ioTaken (s : State) (n : Nvme) : State := { s with mem := { s.mem with nvme := s.mem.nvme.filter fun i => i.id != n.id } }

section
variable {s : State} {n : Nvme} (on : s.running = true) (listed : s.mem.nvme.find? (fun i => i.id == n.id) = some n)
  (flies : inFlight s n = true)
include on listed flies

theorem exec_nvmeCompletion_retries (first : n.retried = false) : exec (.nvmeCompletion n.id false) s = .next { s with mem :=
    { s.mem with nvme := s.mem.nvme.map fun i => if i.id = n.id then { i with retried := true } else i } } := by
  show execNvmeCompletion n.id false s = _
  rw [execNvmeCompletion, whileRunning_on on]
  simp [listed, flies, first]

theorem exec_nvmeCompletion_fails (second : n.retried = true) : exec (.nvmeCompletion n.id false) s =
    .next (drainEject (ioFailed (raise { s with mem := { s.mem with nvme := s.mem.nvme.filter fun i => i.id != n.id } }
      { source := 55 + n.port, unit := { kind := 10, num := n.port } }) n) n.port) := by
  show execNvmeCompletion n.id false s = _
  rw [execNvmeCompletion, whileRunning_on on]
  simp [listed, flies, second]

theorem exec_nvmeCompletion_done : exec (.nvmeCompletion n.id true) s = .next (drainEject (ioDone { s with mem :=
    { s.mem with nvme := s.mem.nvme.filter fun i => i.id != n.id } } n) n.port) := by
  show execNvmeCompletion n.id true s = _
  rw [execNvmeCompletion, whileRunning_on on]
  simp [listed, flies]

/-- At a port that does not wait to be emptied, an I/O that completes has the effect of its purpose and no more. -/
theorem exec_nvmeCompletion_serves {t : State} (done : ioDone (ioTaken s n) n = t) (serves : (portOf t n.port).state ≠ 5) :
    exec (.nvmeCompletion n.id true) s = .next t := by
  have run := exec_nvmeCompletion_done on listed flies
  change _ = Host.Outcome.next (drainEject (ioDone (ioTaken s n) n) n.port) at run
  rwa [done, drainEject_serves serves] at run

/-- The end of a format leaves the port with an empty directory and this node's identity record, whose write is issued (R258). -/
theorem formatted_gives (why : n.why = .format) (serves : (portOf s n.port).state ≠ 5) :
    Gives (.nvmeCompletion n.id true) s fun t =>
    (portOf t n.port).objects = [] ∧ (portOf t n.port).identity.ratedTb = rd s (0x60214 + 32 * n.port) ∧
    (portOf t n.port).identity.nodeKeyHash = nodeKeyHash s ∧ (∃ x ∈ t.mem.nvme, x.port = n.port ∧ x.why = .recordWrite) ∧
    t.mem.seqs = s.mem.seqs ∧ t.mem.frames = s.mem.frames := by
  have port := enrolFormatted_portOf (ioTaken s n) n.port
  have formats : ioDone (ioTaken s n) n = enrolFormatted (ioTaken s n) n.port := by rw [ioDone, why]
  refine ⟨enrolFormatted (ioTaken s n) n.port, exec_nvmeCompletion_serves on listed flies formats
    (by rw [port]; exact serves), ?_⟩
  dsimp only
  rw [port, enrolFormatted_seqs, enrolFormatted_frames]
  exact ⟨rfl, rfl, rfl, enrolFormatted_writes _ _, rfl, rfl⟩

/-- The flush of the identity record makes the port READY, or LIFE_END at the end of the cartridge's life (R258). -/
theorem recordFlushed_gives (why : n.why = .recordFlush) : Gives (.nvmeCompletion n.id true) s fun t =>
    (portOf t n.port).state = (if 1000 ≤ (portOf s n.port).life then 6 else 4) ∧ (portOf t n.port).reason = 0 ∧
    (portOf t n.port).enrolling = false ∧ (portOf t n.port).identity = (portOf s n.port).identity := by
  have port := enrolDone_portOf (ioTaken s n) n.port
  have enrols : ioDone (ioTaken s n) n = enrolDone (ioTaken s n) n.port := by rw [ioDone, why]
  have serves : (portOf (enrolDone (ioTaken s n) n.port) n.port).state ≠ 5 := by
    rw [port]
    dsimp only
    split <;> decide
  refine ⟨enrolDone (ioTaken s n) n.port, exec_nvmeCompletion_serves on listed flies enrols serves, ?_⟩
  dsimp only
  rw [port]
  exact ⟨rfl, rfl, rfl, rfl⟩

end

/-- Settles O46: the ports by `insertCartridge_portOf`, `portGone_stands` and `smartPoll_stands`, then the completions of I/O. -/
theorem cartridgesAndIo : Obligations.CartridgesAndIo := by
  intro s on
  exact ⟨fun p i => cartridgeInsert_gives on, fun p => cartridgeRemoval_gives on,
    fun p reach => ⟨exec_cpEnrol_formats reach, exec_cpEnrol_closed reach, exec_cpEject reach⟩,
    fun p log => smartPoll_gives on,
    fun n listed flies => ⟨exec_nvmeCompletion_retries on listed flies, exec_nvmeCompletion_fails on listed flies,
      exec_nvmeCompletion_done on listed flies, fun why _ => formatted_gives on listed flies why,
      fun why _ => recordFlushed_gives on listed flies why⟩⟩

end Sys2Proof.Machine

/-!
The fabric-transport family: the step, that every command answers, endpoint ids, completions, the command queues and admission,
the Nasol transport, and the ports with their pauses.
-/

namespace Sys2Proof.Machine

/-! ### The step, and that every command answers (R39, R304) -/

theorem tick_stopped {s : State} (off : s.running = false) : tick s = s := by rw [tick, off]; rfl

/-- Settles O1: a step is defined so, and the tick of a running node counts (`counter_succ_le_tick`). -/
theorem stepRunsFront : Obligations.StepRunsFront :=
  ⟨fun _ _ _ => rfl, fun s empty => ⟨by rw [step, empty], counter_succ_le_tick, tick_stopped⟩⟩

/-- No arm of `exec` stops the node or refuses its command. -/
theorem exec_next (c : Instr) (s : State) : ∃ t, exec c s = .next t := by
  cases c <;> exact ⟨_, rfl⟩

/-- Settles O8: every arm answers a next state (`exec_next`), and no permission lets a command touch the queue (`exec_kept`). -/
theorem everyCommandAnswers : Obligations.EveryCommandAnswers := fun c s =>
  (exec_next c s).imp fun _ e => ⟨e, (exec_kept e).pending⟩

/-! ### Endpoint ids (R278) -/

/-- An id whose upper four bits are zero. -/
theorem endpointOf_node {n : Nat} (low : n < 4096) : endpointOf n = some (.node (bitsOf 11 0 n)) := by
  rw [endpointOf, if_pos low, bitsOf_whole low]

/-- Settles O9: each case is a range of numbers, which `endpointOf` tells apart. -/
theorem endpointIds : Obligations.EndpointIds := by
  intro n small
  refine ⟨fun kind reserved => ?node, fun kind => ?adapter, fun kind reserved => ?reservedBits, fun kind => ?reservedKind⟩
  all_goals simp only [bitsOf] at *
  case node => exact endpointOf_node (by omega)
  case adapter =>
    have low : ¬ n < 4096 := by omega
    have mid : 16384 ≤ n ∧ n < 32768 := by omega
    have number : n - 16384 = n % 16384 := by omega
    simp [endpointOf, low, mid, number]
  case reservedBits =>
    have low : ¬ n < 4096 := by omega
    have mid : ¬ 16384 ≤ n := by omega
    simp [endpointOf, low, mid]
  case reservedKind =>
    have low : ¬ n < 4096 := by omega
    have mid : ¬ n < 32768 := by omega
    simp [endpointOf, low, mid]

/-! ### Completions (R8, R131, R300, R305, R337) -/

/-- A state that agrees with another on all that answering leaves aside is that state, but for the parts that answering may
change. -/
theorem Aside.frame {a b : State} (aside : Aside false a b) :
    { b with exec := a.exec, outcomes := a.outcomes, queues := a.queues, net := a.net, link := a.link, cask := a.cask,
             fault := a.fault, comp := a.comp } = a := by
  cases a
  rw [State.mk.injEq]
  exact ⟨aside.pending, aside.running, aside.fresh, aside.regs, aside.accessErr, aside.lastErr, aside.lockedWr, aside.badvalWr,
    aside.time, rfl, rfl, aside.snap, aside.mail rfl, aside.mem, rfl, rfl, rfl, rfl, aside.sched rfl, rfl, aside.pfx, rfl,
    aside.ledger rfl, aside.trust, aside.boot, aside.pack⟩

/-- Settles O13: completing leaves aside all that is not named (`complete_aside`). -/
theorem completionFrame : Obligations.CompletionFrame := fun s _ _ => (complete_aside (Aside.refl false s)).frame

/-- The state in which a command has left the admitted ones, an INTERNAL status is noted and the outcome is logged (R8, R131,
R300). -/
def ended (s : State) (c : Command) (st : Status) : State :=
  settle (if st = .internal then noteInternal (dropLive s (cmdKey c)) c.desc.opcode c.src.num c.desc.reqId 0 0 0
    else dropLive s (cmdKey c)) c st

/-- Noting an INTERNAL status, or not, leaves what answering leaves, and the time. -/
theorem noted_answ (s : State) (st : Status) (opcode src reqId : Nat) :
    Answ s (if st = .internal then noteInternal s opcode src reqId 0 0 0 else s) ∧
    now (if st = .internal then noteInternal s opcode src reqId 0 0 0 else s) = now s := by
  split
  · exact ⟨noteInternal_answ (.refl s), congrArg TimeSt.counter (noteInternal_aside (Aside.refl true s)).time⟩
  · exact ⟨.refl s, rfl⟩

theorem liveOf_congr {s t : State} (same : t.exec = s.exec) (k : CmdKey) : liveOf t k = liveOf s k := by simp only [liveOf, same]

theorem findOutcome_congr {s t : State} (same : t.outcomes = s.outcomes) (k : CmdKey) : findOutcome t k = findOutcome s k := by
  simp only [findOutcome, same]

theorem queueOf_congr {s t : State} (same : t.queues = s.queues) (q : Nat) : queueOf t q = queueOf s q := by
  simp only [queueOf, same]

theorem liveOf_dropLive (s : State) (k : CmdKey) : liveOf (dropLive s k) k = none := by simp [liveOf, dropLive]

theorem ended_liveOf (s : State) (c : Command) (st : Status) : liveOf (ended s c st) (cmdKey c) = none := by
  have left : (ended s c st).exec = (dropLive s (cmdKey c)).exec := (settle_exec _ c st).trans (noted_answ _ st _ _ _).1.exec
  exact (liveOf_congr left _).trans (liveOf_dropLive s _)

theorem ended_queueOf (s : State) (c : Command) (st : Status) (q : Nat) : queueOf (ended s c st) q = queueOf s q :=
  queueOf_congr ((settle_queues _ c st).trans (noted_answ (dropLive s (cmdKey c)) st _ _ _).1.queues) q

theorem ended_recorded (s : State) (c : Command) {st : Status} (kept : recorded st = true) :
    (findOutcome (ended s c st) (cmdKey c)).map (fun o => (o.status, o.since)) = some (some st, now s) := by
  rw [ended, settle_recorded kept, (noted_answ _ st _ _ _).2]
  rfl

theorem ended_unrecorded (s : State) (c : Command) {st : Status} (unkept : recorded st = false) :
    findOutcome (ended s c st) (cmdKey c) = none := settle_unrecorded unkept

theorem answerOne_answ (s : State) (c : Command) (r : Reply) :
    Answ (modQueue s c.desc.queue fun q => { q with count := q.count + 1 }) (answerOne s c r) := sendReply_answ (.refl _)

section
variable (s : State) {c : Command} {r : Reply}

/-- A command that came from its source is answered there. -/
theorem completeOne_own (own : c.chainedFrom = none) : completeOne s c r = answerOne (ended s c r.status) c r := by
  simp [completeOne, own, ended]

variable (goes : (c.chainedFrom.isSome && (r.status == .noPage || r.status == .busyRetry)) = false)
include goes

/-- A chained command that is not held is acknowledged to its predecessor. -/
theorem completeOne_chained {p : Nat} (chained : c.chainedFrom = some p) : completeOne s c r =
    sendControl (ended s c r.status) (.node p) (chainAckMsg c.src.num (epochOf (ended s c r.status)) c.desc.reqId
      (ackStatus (ended s c r.status) c p r.status)) := by
  simp only [completeOne, goes, Bool.false_eq_true, if_false, ended]
  simp only [chained]

/-- The answer leaves the admitted commands and the log as the ended command left them. -/
theorem completeOne_ended : (completeOne s c r).exec = (ended s c r.status).exec ∧
    (completeOne s c r).outcomes = (ended s c r.status).outcomes := by
  cases source : c.chainedFrom with
  | none =>
    rw [completeOne_own s source]
    exact ⟨(answerOne_answ _ c r).exec, (answerOne_answ _ c r).outcomes⟩
  | some p =>
    rw [completeOne_chained s goes source]
    exact ⟨(sendControl_answ (.refl _)).exec, (sendControl_answ (.refl _)).outcomes⟩

/-- Only a command that came from its source is counted, on its own queue (R305). -/
theorem completeOne_queueOf (q : Nat) : queueOf (completeOne s c r) q = if c.chainedFrom = none ∧ q = c.desc.queue then
    { queueOf s q with count := (queueOf s q).count + 1 } else queueOf s q := by
  cases source : c.chainedFrom with
  | none =>
    rw [completeOne_own s source, queueOf_congr (answerOne_answ _ c r).queues, modQueue_queueOf, ended_queueOf, ended_queueOf]
    by_cases own : q = c.desc.queue <;> simp [own]
  | some p =>
    rw [completeOne_chained s goes source, queueOf_congr (sendControl_answ (.refl _)).queues, ended_queueOf]
    simp

end

/-- Settles O12: the answer leaves the ended command's outcome alone (`completeOne_ended`) and counts on its own queue only
(`completeOne_queueOf`). -/
theorem completionAnswers : Obligations.CompletionAnswers := by
  refine fun s c r => ⟨fun held => by simp only [completeOne, held, if_true], fun goes => ?_⟩
  obtain ⟨live, log⟩ := completeOne_ended s goes
  exact ⟨(liveOf_congr live _).trans (ended_liveOf s c _), fun kept => by rw [findOutcome_congr log, ended_recorded s c kept],
    fun unkept => by rw [findOutcome_congr log, ended_unrecorded s c unkept], completeOne_queueOf s goes⟩

/-! ### QBIND writes (R304, R311, R315) -/

theorem applyBind_idle {s : State} {n : Nat} {w : Word32} (next : (queueOf s n).bindNext = some w)
    (idle : (queueOf s n).waiting = [] ∧ (queueOf s n).blocked = none) :
    applyBind s n = modQueue s n fun q => { q with bind := w, bindNext := none, count := 0 } := by
  simp [applyBind, next, idle.1, idle.2]

theorem applyBind_busy {s : State} {n : Nat} (busy : ¬ ((queueOf s n).waiting = [] ∧ (queueOf s n).blocked = none)) :
    applyBind s n = s := by
  unfold applyBind
  dsimp only
  split
  · rfl
  · exact if_neg (by simpa using busy)

theorem exec_qbindWrite {s : State} {q : Fin 1024} (w : Word32) (reach : Reaches s (0x21000 + 16 * q.val)) :
    exec (.qbindWrite q w) s = .next (writeBind s q.val w) := congrArg Host.Outcome.next (regEnter_reaches reach)

theorem qbindWrite_idle {s : State} {q : Fin 1024} (w : Word32) (reach : Reaches s (0x21000 + 16 * q.val))
    (idle : (queueOf s q.val).waiting = [] ∧ (queueOf s q.val).blocked = none) : Gives (.qbindWrite q w) s fun t =>
      (queueOf t q.val).bind = w &&& 0x3FFFFFFF ∧ (queueOf t q.val).count = 0 ∧ (queueOf t q.val).bindNext = none ∧
      (∀ k : Nat, k ≠ q.val → queueOf t k = queueOf s k) ∧ { t with queues := s.queues } = s := by
  refine ⟨_, exec_qbindWrite w reach, ?_⟩
  rw [writeBind, applyBind_idle (w := w &&& 0x3FFFFFFF) (by simp) (by simpa using idle)]
  exact ⟨by simp, by simp, by simp, fun k other => by simp [other], rfl⟩

theorem qbindWrite_busy {s : State} {q : Fin 1024} (w : Word32) (reach : Reaches s (0x21000 + 16 * q.val))
    (busy : ¬ ((queueOf s q.val).waiting = [] ∧ (queueOf s q.val).blocked = none)) : Gives (.qbindWrite q w) s fun t =>
      queueOf t q.val = { queueOf s q.val with bindNext := some (w &&& 0x3FFFFFFF) } ∧
      (∀ k : Nat, k ≠ q.val → queueOf t k = queueOf s k) ∧ { t with queues := s.queues } = s := by
  refine ⟨_, exec_qbindWrite w reach, ?_⟩
  rw [writeBind, applyBind_busy (by simpa using busy)]
  exact ⟨by simp, fun k other => by simp [other], rfl⟩

/-! ### COMMAND_ARRIVAL (R11, R284, R302, R304, R420) -/

theorem exec_commandArrival {s : State} {m : Inbound} (on : s.running = true) (kind : msgKind m.bytes = 1) :
    exec (.commandArrival m) s = .next (arrive (takeDelivery s m) (withFormat s (commandOf (pMixed s) m))) := by
  show execCommandArrival m s = _
  simp [execCommandArrival, on, kind]

section
variable {u : State} {c : Command}

theorem arrive_retired (retired : genRetired u (replyKey c) c.keygen = true) : arrive u c = answerRetired u c := by
  simp [arrive, retired]

variable (current : genRetired u (replyKey c) c.keygen = false)
include current

theorem arrive_fenced (fenced : u.fault.fenced = true) : arrive u c = turnAway .fenced u c := by simp [arrive, current, fenced]

variable (open_ : u.fault.fenced = false)
include open_

theorem arrive_inProgress {o : Outcome} (logged : loggedOutcome u (cmdKey c) = some o) (runs : o.status = none) :
    arrive u c = u := by
  simp [arrive, current, open_, logged, runs]

theorem arrive_done {o : Outcome} (logged : loggedOutcome u (cmdKey c) = some o) (done : o.status ≠ none) :
    arrive u c = answerDup u c := by
  simp [arrive, current, open_, logged, done]

variable (new : loggedOutcome u (cmdKey c) = none)
include new

theorem arrive_judged {r : Reply} (stops : judge u c = some r) : arrive u c = refuse u c r := by
  simp [arrive, current, open_, new, stops]

variable (passes : judge u c = none)
include passes

theorem arrive_notTaken (closed : queueTakes u c = false) : arrive u c = refuse u c { status := .refusedFit } := by
  simp [arrive, current, open_, new, passes, closed]

variable (taken : queueTakes u c = true)
include taken

theorem arrive_fastRead (fast : isFastRead u c = true) : arrive u c = admitOne u c := by
  simp [arrive, current, open_, new, passes, taken, fast]

variable (slow : isFastRead u c = false)
include slow

theorem arrive_waits (room : (queueOf u c.desc.queue).waiting.length < 256) :
    arrive u c = drainQueues (modQueue u c.desc.queue fun q => { q with waiting := q.waiting ++ [c] }) := by
  simp [arrive, current, open_, new, passes, taken, slow, Nat.not_le.2 room]

theorem arrive_full (full : 256 ≤ (queueOf u c.desc.queue).waiting.length) : arrive u c =
    if descFits u c = true then answer u c { status := .busyRetry } else refuse u c { status := .refusedFit } := by
  simp [arrive, current, open_, new, passes, taken, slow, full]

end

/-! ### QWAIT (R310) -/

theorem openOutcome_now {s t : State} {k : CmdKey} (opened : openOutcome s k = some t) : now t = now s := by
  dsimp only [openOutcome] at opened
  split at opened
  · cases opened; rfl
  · cases opened

section
variable {s u v : State} {c : Command} {w count timeout : Nat} (on : s.running = true) (body : c.desc.body = .qwait w count timeout)
  (head : (queueOf s c.desc.queue).waiting.head? = some c) (free : (queueOf s c.desc.queue).blocked = none)
  (first : waitPlaces s c.desc.queue = []) (open_ : s.fault.fenced = false)
  (leaves : u = modQueue s c.desc.queue fun q => { q with waiting := q.waiting.tail })
  (new : loggedOutcome u (cmdKey c) = none) (entered : openOutcome u (cmdKey c) = some v)
include on body head free first open_ leaves new entered

theorem exec_qwait_judged {r : Reply} (stops : judgeEpoch v c.desc = some r) :
    exec (.qwait c) s = .next (drainQueues (applyBind (refuse v c r) c.desc.queue)) := by
  show execQwait c s = _
  subst leaves
  simp [execQwait, body, on, head, free, first, open_, new, entered, stops]

theorem exec_qwait_unfit (passes : judgeEpoch v c.desc = none) (unfit : descFits v c = false ∨ qwaitFits v c w = false) :
    exec (.qwait c) s = .next (drainQueues (applyBind (refuse v c { status := .refusedFit }) c.desc.queue)) := by
  show execQwait c s = _
  subst leaves
  rcases unfit with unfit | unfit <;>
    simp [execQwait, body, on, head, free, first, open_, new, entered, passes, unfit]

theorem exec_qwait_reached (passes : judgeEpoch v c.desc = none) (desc : descFits v c = true) (fits : qwaitFits v c w = true)
    (reached : count ≤ (queueOf v w).count) :
    exec (.qwait c) s = .next (drainQueues (applyBind (complete v c { status := .ok }) c.desc.queue)) := by
  show execQwait c s = _
  subst leaves
  simp [execQwait, body, on, head, free, first, open_, new, entered, passes, desc, fits, reached]

theorem exec_qwait_blocks (passes : judgeEpoch v c.desc = none) (desc : descFits v c = true) (fits : qwaitFits v c w = true)
    (below : (queueOf v w).count < count) :
    exec (.qwait c) s = .next (modQueue v c.desc.queue fun q => { q with blocked := some ⟨c, w, count, timeout, now s⟩ }) := by
  have clock : now v = now s := (openOutcome_now entered).trans (by rw [leaves]; rfl)
  show execQwait c s = _
  subst leaves
  simp [execQwait, body, on, head, free, first, open_, new, entered, passes, desc, fits, Nat.not_le.2 below, clock]

end

/-! ### ADMIT (R356, R357, R369) -/

/-- An entry of a table whose entries have been changed by key. -/
theorem tabGet_mapKey {α β : Type} (g : Nat → α → β) (t : Tab α) (k : Nat) :
    tabGet (t.map fun e => (e.1, g e.1 e.2)) k = (tabGet t k).map (g k) := by
  induction t with
  | nil => rfl
  | cons e t ih =>
    simp only [List.map_cons, tabGet, ih]
    split
    · next same => rw [same]; rfl
    · rfl

/-- The round robin's decision changes nothing of a listed queue but its deficit. -/
theorem withAdmDrr_queue (d : AdmDie) (r : Drr) {n : Nat} {x : AdmQueue} (listed : tabGet d.queues n = some x) :
    tabGetD (withAdmDrr d r).queues n {} = { x with deficit := tabGetD r.deficit n 0 } := by
  have mapped := tabGet_mapKey (fun k (y : AdmQueue) => { y with deficit := tabGetD r.deficit k 0 }) d.queues n
  rw [listed] at mapped
  exact congrArg (·.getD {}) mapped

section
variable {s u v : State} {die q : Nat} {r : Drr} {i : AdmItem} {rest : List AdmItem}

/-- An admission queue once its head has been released. -/
def AdmQueue.released (x : AdmQueue) (i : AdmItem) (rest : List AdmItem) (delay : Nat) : AdmQueue :=
  { x with items := rest, bound := if rest.isEmpty then none else x.bound, sample := if i.sampled then delay else x.sample }

theorem releaseHead_admOf : admOf (releaseHead u die q r i rest) die = withAdmDrr { admOf u die with
    queues := tabSet (admOf u die).queues q ((tabGetD (admOf u die).queues q {}).released i rest (now u - i.arrived)),
    admitted := (admOf u die).admitted + 1, busyAt := now u } (drrTake r q i.cost rest.isEmpty) := by
  have hist (t : State) (delay : Nat) : admOf (histAdd t false true die q delay) die = admOf t die := rfl
  unfold releaseHead
  dsimp only
  split
  · next sampled => rw [hist, admOf_modAdm, AdmQueue.released, if_pos sampled]
  · next plain => rw [admOf_modAdm, AdmQueue.released, if_neg plain]

theorem releaseHead_queue : tabGetD (admOf (releaseHead u die q r i rest) die).queues q {} =
    { (tabGetD (admOf u die).queues q {}).released i rest (now u - i.arrived) with
      deficit := tabGetD (drrTake r q i.cost rest.isEmpty).deficit q 0 } := by
  rw [releaseHead_admOf, withAdmDrr_queue]
  rw [tabGet_tabSet, if_pos rfl]

theorem admitStep_releases (drained : u = drainQueues s) (room : planFull u die = false)
    (next : drrNext (admAsk u die (admOf u die)) (admDrr (admOf u die)) = (some q, r))
    (head : (tabGetD (admOf u die).queues q {}).items = i :: rest) (released : v = releaseHead u die q r i rest) :
    admitStep s die = drainQueues (admitCommand (if i.cmd.sys then v else bump v i.cmd.tenant 0 1) i.cmd) := by
  subst drained released
  simp only [admitStep, room, next, head]
  rfl

theorem exec_admission {s : State} (on : s.running = true) (die : Fin 2) :
    exec (.admission die) s = .next (noteFull (admitStep s die.val) die.val) := congrArg Host.Outcome.next (whileRunning_on on)

end

/-! ### The outcome log and the histograms (R302, R371) -/

theorem exec_outcomeExpiry {s : State} {k : CmdKey} {o : Outcome} (on : s.running = true) (found : findOutcome s k = some o)
    (done : o.status ≠ none) (passed : o.since + o.retain ≤ now s) :
    exec (.outcomeExpiry k) s = .next { s with outcomes := s.outcomes.filter fun o => o.key != k } := by
  show execOutcomeExpiry k s = _
  simp only [execOutcomeExpiry, found]
  rw [if_pos (by simp [on, Option.isSome_iff_ne_none, done, elapsed, passed])]
  rfl

theorem exec_histClear {s : State} (reach : Reaches s 0x40068) :
    exec .histClear s = .next { s with sched := { s.sched with hist := [] } } := congrArg Host.Outcome.next (regEnter_reaches reach)

/-- Settles O37: each clause is the rule of its command above. -/
theorem queuesAndAdmission : Obligations.QueuesAndAdmission := by
  intro s on
  refine ⟨fun q w reach => ⟨qbindWrite_idle w reach, qbindWrite_busy w reach⟩, fun m c u kind read taken => ?arrival,
    fun c w count timeout u v body head free first open_ leaves new entered => ?qwait,
    fun die u q r i rest drained room next head v released => ?admission, fun k o => exec_outcomeExpiry on, exec_histClear⟩
  case arrival =>
    subst read taken
    refine ⟨exec_commandArrival on kind, arrive_retired, fun current => ⟨arrive_fenced current, fun open_ => ⟨?logged, ?new⟩⟩⟩
    case logged =>
      exact fun o logged => ⟨arrive_inProgress current open_ logged, arrive_done current open_ logged⟩
    case new =>
      refine fun new => ⟨fun r => arrive_judged current open_ new, arrive_notTaken current open_ new, fun passes takes =>
        ⟨arrive_fastRead current open_ new passes takes, arrive_waits current open_ new passes takes,
          fun slow full fits => ?_, fun slow full unfit => ?_⟩⟩
      · rw [arrive_full current open_ new passes takes slow full, if_pos fits]
      · rw [arrive_full current open_ new passes takes slow full, if_neg (by simp [unfit])]
  case qwait =>
    refine ⟨?judged, ?unfit, fun passes desc fits => ⟨?reached, ?blocks⟩⟩
    case judged => exact fun r => exec_qwait_judged on body head free first open_ leaves new entered
    case unfit => exact exec_qwait_unfit on body head free first open_ leaves new entered
    case reached => exact exec_qwait_reached on body head free first open_ leaves new entered passes desc fits
    case blocks => exact exec_qwait_blocks on body head free first open_ leaves new entered passes desc fits
  case admission =>
    rw [exec_admission on, admitStep_releases drained room next head released]
    subst released
    rw [releaseHead_queue, releaseHead_admOf]
    exact ⟨rfl, rfl, rfl, rfl⟩

/-! ### Contexts and ports under the transport's operations (R294) -/

theorem key_of_ctxOf {s : State} {a : AssocKey} {c : PeerCtx} (there : ctxOf s a = some c) : c.key = a := by
  simpa using List.find?_some there

theorem ctxOf_congr {s t : State} (same : t.net = s.net) (a : AssocKey) : ctxOf t a = ctxOf s a := by simp only [ctxOf, same]

/-- A context, read after the context of some association was changed. -/
theorem ctxOf_modCtx (s : State) (b : AssocKey) {f : PeerCtx → PeerCtx} (keeps : ∀ c, (f c).key = c.key) (a : AssocKey) :
    ctxOf (modCtx s b f) a = (ctxOf s a).map fun c => if c.key = b then f c else c := by
  have key (c : PeerCtx) : ((if c.key = b then f c else c).key == a) = (c.key == a) := by split <;> simp [keeps]
  simp only [ctxOf, modCtx, List.find?_map, Function.comp_def, key]

theorem ctxOf_modCtx_own {s : State} {a : AssocKey} {c : PeerCtx} (there : ctxOf s a = some c) {f : PeerCtx → PeerCtx}
    (keeps : ∀ c, (f c).key = c.key) : ctxOf (modCtx s a f) a = some (f c) := by
  rw [ctxOf_modCtx s a keeps, there, Option.map_some, if_pos (key_of_ctxOf there)]

@[simp] theorem egJoin_ctxOf (s : State) (r : Nat × Nat) (cls : Nat) (p : Packet) (head : Bool) (a : AssocKey) :
    ctxOf (egJoin s r cls p head) a = ctxOf s a := by
  unfold egJoin
  dsimp only
  split <;> rfl

theorem fabPort_congr {s t : State} (same : t.net = s.net) (p : Nat) : fabPort t p = fabPort s p := by
  simp only [fabPort, same]

@[simp] theorem modSub_fabPort (s : State) (p b : Nat) (f : SubPort → SubPort) (q : Nat) : fabPort (modSub s p b f) q =
    if q = p then { fabPort s p with subs := tabModD (fabPort s p).subs b {} f } else fabPort s q := modFab_fabPort s p _ q

theorem modSub_rx (s : State) (p b : Nat) (f : SubPort → SubPort) (q : Nat) :
    (fabPort (modSub s p b f) q).rx = (fabPort s q).rx := by
  rw [modSub_fabPort]
  split
  · next own => rw [own]
  · rfl

@[simp] theorem egJoin_rx (s : State) (r : Nat × Nat) (cls : Nat) (p : Packet) (head : Bool) (q : Nat) :
    (fabPort (egJoin s r cls p head) q).rx = (fabPort s q).rx := by
  unfold egJoin
  dsimp only
  rw [modSub_rx]
  split <;> rfl

/-- A packet in flight, sent again from a sub-port (R289, R293). -/
def TxPacket.again (s : State) (via : Option (Nat × Nat)) (f : TxPacket) : TxPacket :=
  { f with try_ := f.try_ + 1, ackReq := true, since := now s, rto := min (2 * f.rto) (pRtoMax s), via := via }

/-- The state in which the packet of a TSN in flight has been replaced. -/
def inFlightSet (s : State) (a : AssocKey) (tsn : Nat) (f : TxPacket) : State :=
  modCtx s a fun c => { c with flight := c.flight.map (fun x => if x.tsn = tsn then f else x), backed := false }

/-- A resend replaces the packet in flight by one of the same TSN, which may join an egress queue (R288, R289). -/
theorem resend_cases (s : State) (a : AssocKey) (tsn : Nat) : resend s a tsn = s ∨ ∃ f : TxPacket, f.tsn = tsn ∧
    (resend s a tsn = inFlightSet s a tsn f ∨ ∃ r cls p, resend s a tsn = egJoin (inFlightSet s a tsn f) r cls p true) := by
  unfold resend
  split
  · exact .inl rfl
  · split
    · exact .inl rfl
    · next f found =>
      have own : f.tsn = tsn := by simpa using List.find?_some found
      dsimp only
      split
      · exact .inr ⟨f.again s f.via, own, .inl rfl⟩
      · next x _ => exact .inr ⟨f.again s (some x), own, .inr ⟨_, _, _, rfl⟩⟩

@[simp] theorem resend_rx (s : State) (a : AssocKey) (tsn q : Nat) : (fabPort (resend s a tsn) q).rx = (fabPort s q).rx := by
  rcases resend_cases s a tsn with same | ⟨f, -, same | ⟨r, cls, p, same⟩⟩
  · rw [same]
  · rw [same]; rfl
  · rw [same, egJoin_rx]; rfl

theorem applyAck_rx (s : State) (a : AssocKey) (p : Packet) (q : Nat) : (fabPort (applyAck s a p) q).rx = (fabPort s q).rx := by
  unfold applyAck
  split
  · rfl
  · split
    · rfl
    · exact foldState_keeps (fun t => (fabPort t q).rx) (fun t (f : TxPacket) => resend_rx t a f.tsn q) _ _

/-- The context of an association holds the peer's credit, and no packet in flight is one that `p` acknowledges (R293). -/
def Acked (a : AssocKey) (p : Packet) (t : State) : Prop :=
  ∃ c : PeerCtx, ctxOf t a = some c ∧ c.txCredit = p.credit % 4294967296 ∧ ∀ x ∈ c.flight, acks p x.tsn = false

theorem Acked.inFlightSet {a : AssocKey} {p : Packet} {t : State} (acked : Acked a p t) {tsn : Nat} {f : TxPacket}
    (own : f.tsn = tsn) : Acked a p (inFlightSet t a tsn f) := by
  obtain ⟨c, there, credit, clear⟩ := acked
  refine ⟨_, ctxOf_modCtx_own there fun _ => rfl, credit, fun x mem => ?_⟩
  obtain ⟨y, inFlight, rfl⟩ := List.mem_map.1 mem
  split
  · next again => rw [own, ← again]; exact clear y inFlight
  · exact clear y inFlight

theorem Acked.resend {a : AssocKey} {p : Packet} {t : State} (acked : Acked a p t) (tsn : Nat) : Acked a p (resend t a tsn) := by
  rcases resend_cases t a tsn with same | ⟨f, own, same | ⟨r, cls, q, same⟩⟩
  · rwa [same]
  · rw [same]; exact acked.inFlightSet own
  · rw [same, Acked, egJoin_ctxOf]; exact acked.inFlightSet own

theorem applyAck_acked {s : State} {a : AssocKey} {p : Packet} {c : PeerCtx} (there : ctxOf s a = some c) (valid : p.ackv = true)
    (roll : p.ackRoll = c.txRoll % 16) : Acked a p (applyAck s a p) := by
  rw [applyAck, there]
  dsimp only
  rw [if_neg (by simp [valid, roll])]
  refine foldState_preserves (P := Acked a p) (fun t (f : TxPacket) acked => acked.resend f.tsn) _
    ⟨_, ctxOf_modCtx_own there fun _ => rfl, rfl, fun x left => ?_⟩
  simpa using (List.mem_filter.1 left).2

/-! ### Receiving a packet (R276, R287, R290, R291, R296) -/

theorem packetOf_place {s : State} {f : RxFrame} {p : Packet} (named : packetOf s f = some p) :
    p.port = f.port ∧ p.sub = f.sub := by
  obtain ⟨_, -, rfl⟩ := Option.map_eq_some_iff.1 named
  exact ⟨rfl, rfl⟩

section
variable {s : State} {f : RxFrame} (on : s.running = true) (up : isUp s f.port f.sub = true)
include on up

theorem exec_packet_unread (unread : packetOf s f = none) :
    exec (.dataPacket f) s = .next (modFab s f.port fun x => { x with dropOther := x.dropOther + 1 }) ∧
    exec (.ackPacket f) s = .next (modFab s f.port fun x => { x with dropOther := x.dropOther + 1 }) := by
  constructor
  · show execDataPacket f s = _
    simp [execDataPacket, whileRunning_on on, receiveFrame, up, unread]
  · show execAckPacket f s = _
    simp [execAckPacket, whileRunning_on on, receiveFrame, up, unread]

theorem exec_packet {p : Packet} (named : packetOf s f = some p) :
    exec (if p.type = 1 then .ackPacket f else .dataPacket f) s = .next (receive s p) := by
  split
  · next ack =>
    show execAckPacket f s = _
    simp [execAckPacket, whileRunning_on on, receiveFrame, up, named, ack]
  · next data =>
    show execDataPacket f s = _
    simp [execDataPacket, whileRunning_on on, receiveFrame, up, named, data]

end

section
variable {s : State} {p : Packet} (on : s.running = true) (up : isUp s p.port p.sub = true)
include on up

theorem receive_unfit (unfit : p.frameOk = false ∨ headerOk s p = false) : receive s p = dropOther s p := by
  rcases unfit with bad | bad <;> simp [receive, on, up, bad]

variable (frame : p.frameOk = true) (header : headerOk s p = true)
include frame header

theorem receive_unbacked (absent : ctxOf s (assocOf p) = none) (full : backingFree s (assocOf p) = false) :
    receive s p = dropOther s p := by simp [receive, on, up, frame, header, absent, full]

theorem receive_created (absent : ctxOf s (assocOf p) = none) (free : backingFree s (assocOf p) = true) {u : State}
    (made : newCtx s (assocOf p) = some u) : receive s p = receiveCached u p := by
  simp [receive, on, up, frame, header, absent, free, made]

theorem receive_noRoom (absent : ctxOf s (assocOf p) = none) (free : backingFree s (assocOf p) = true)
    (full : newCtx s (assocOf p) = none) : receive s p = missJoin s p := by
  simp [receive, on, up, frame, header, absent, free, full]

variable {c : PeerCtx} (there : ctxOf s (assocOf p) = some c)
include there

theorem receive_lost (lost : c.lost = true) : receive s p = dropOther s p := by
  simp [receive, on, up, frame, header, there, lost]

theorem receive_away (kept : c.lost = false) (away : c.cached = false) : receive s p = missJoin s p := by
  simp [receive, on, up, frame, header, there, kept, away]

theorem receive_cached (kept : c.lost = false) (cached : c.cached = true) : receive s p = receiveCached s p := by
  simp [receive, on, up, frame, header, there, kept, cached]

end

theorem checkFails_unarmed {s : State} (unarmed : s.fault.inj.status ≠ 1) (checker unit : Nat) (real : Bool) :
    checkFails s checker unit real = (real, false, s) := by simp [checkFails, fireInj, unarmed]

/-- The current roll and the next one are inside the window of step 4 of R291. -/
theorem inWindow {p : Packet} {c : PeerCtx} (roll : p.roll = c.rxRoll % 16 ∨ p.roll = (c.rxRoll + 1) % 16) :
    (p.roll != c.rxRoll % 16 && p.roll != (c.rxRoll + 1) % 16) = false := by
  rcases roll with same | same <;> simp [same]

section
variable {s : State} {p : Packet} {c : PeerCtx} (there : ctxOf s (assocOf p) = some c)
include there

theorem receiveCached_outside (cur : p.roll ≠ c.rxRoll % 16) (next : p.roll ≠ (c.rxRoll + 1) % 16) :
    receiveCached s p = dropWindow s p := by simp [receiveCached, there, cur, next]

variable (roll : p.roll = c.rxRoll % 16 ∨ p.roll = (c.rxRoll + 1) % 16) (unarmed : s.fault.inj.status ≠ 1)
include roll unarmed

theorem receiveCached_unauthentic
    (bad : p.tagOk = false ∨ genKnown s (assocOf p) p.keygen = false ∨ peerAllowed s (assocOf p) = false) : receiveCached s p =
      raise (modFab s p.port fun x => { x with dropAuth := x.dropAuth + 1 })
        { source := 14, unit := { kind := 6, num := p.port } } := by
  have real : (!(p.tagOk && genKnown s (assocOf p) p.keygen && peerAllowed s (assocOf p))) = true := by
    rcases bad with bad | bad | bad <;> simp [bad]
  simp only [receiveCached, there, inWindow roll, real, checkFails_unarmed unarmed, ite_self]
  rfl

variable (tag : p.tagOk = true) (gen : genKnown s (assocOf p) p.keygen = true) (peer : peerAllowed s (assocOf p) = true)
include tag gen peer

theorem receiveCached_data (data : p.type = 0) : receiveCached s p =
    receiveData (applyAck (adoptRoll (heard s (assocOf p)) (assocOf p) p) (assocOf p) p) (assocOf p) p := by
  simp only [receiveCached, there, inWindow roll, tag, gen, peer, checkFails_unarmed unarmed, data]
  rfl

end

theorem heard_net (s : State) (a : AssocKey) : (heard s a).net = s.net := by
  unfold heard
  split <;> rfl

/-- The state in which an ACK packet has been counted and noted as the newest (R291 step 6). -/
def ackCounted (s : State) (a : AssocKey) (p : Packet) : State :=
  modFab (modCtx (adoptRoll (heard s a) a p) a fun c => { c with ackSeqRx := some p.tsn, backed := false, used := now s }) p.port
    fun x => { x with rx := x.rx + 1, rxBytes := x.rxBytes + frameLen s p.port 0 }

theorem adoptRoll_current {s : State} {a : AssocKey} {p : Packet} {c : PeerCtx} (there : ctxOf s a = some c)
    (current : p.roll = c.rxRoll % 16) : ctxOf (adoptRoll (heard s a) a p) a = some c := by
  have heardThere : ctxOf (heard s a) a = some c := (ctxOf_congr (heard_net s a) a).trans there
  rw [adoptRoll, ctxOf_modCtx_own heardThere fun c => by split <;> rfl, if_pos current]

theorem ackCounted_ctxOf {s : State} {a : AssocKey} {p : Packet} {c : PeerCtx} (there : ctxOf s a = some c)
    (current : p.roll = c.rxRoll % 16) :
    ctxOf (ackCounted s a p) a = some { c with ackSeqRx := some p.tsn, backed := false, used := now s } :=
  ctxOf_modCtx_own (adoptRoll_current there current) fun _ => rfl

theorem ackCounted_rx (s : State) (a : AssocKey) (p : Packet) :
    (fabPort (ackCounted s a p) p.port).rx = (fabPort s p.port).rx + 1 := by
  have before : fabPort (adoptRoll (heard s a) a p) p.port = fabPort s p.port :=
    (modCtx_fabPort (heard s a) a _ p.port).trans (fabPort_congr (heard_net s a) p.port)
  rw [ackCounted, modFab_fabPort, if_pos rfl, modCtx_fabPort, before]

theorem receiveCached_ack {s : State} {p : Packet} {c : PeerCtx} (there : ctxOf s (assocOf p) = some c) (tag : p.tagOk = true)
    (gen : genKnown s (assocOf p) p.keygen = true) (peer : peerAllowed s (assocOf p) = true) (ack : p.type = 1)
    (current : p.roll = c.rxRoll % 16) (newest : ∀ n : Nat, c.ackSeqRx = some n → n < p.tsn) :
    receiveCached s p = applyAck (ackCounted s (assocOf p) p) (assocOf p) p := by
  have read := adoptRoll_current there current
  have data : ¬ p.type = 0 := by omega
  unfold receiveCached
  simp only [there, inWindow (.inl current), data, tag, gen, peer, if_false, Bool.and_self, Bool.not_true, Bool.false_eq_true, read,
    Option.bind_some]
  cases last : c.ackSeqRx with
  | none => rfl
  | some n =>
    simp only [decide_eq_false (Nat.not_le.2 (newest n last))]
    rfl

/-! ### What sending leaves of a direction (R290) -/

/-- What a roll resets: the packets in flight, the next TSN and the roll count (R290). -/
def PeerCtx.sending (c : PeerCtx) : List TxPacket × Nat × Nat := (c.flight, c.txNext, c.txRoll)

/-- The association has a context, and its sending direction stands at `x`. -/
def SendsAt (a : AssocKey) (x : List TxPacket × Nat × Nat) (t : State) : Prop := (ctxOf t a).map PeerCtx.sending = some x

section
variable {a : AssocKey} {x : List TxPacket × Nat × Nat} {s : State}

theorem SendsAt.ctx {flight : List TxPacket} {next roll : Nat} (at_ : SendsAt a (flight, next, roll) s) :
    ∃ c : PeerCtx, ctxOf s a = some c ∧ c.flight = flight ∧ c.txNext = next ∧ c.txRoll = roll := by
  obtain ⟨c, there, same⟩ := Option.map_eq_some_iff.1 at_
  simp only [PeerCtx.sending, Prod.mk.injEq] at same
  exact ⟨c, there, same⟩

theorem SendsAt.congr {t : State} (at_ : SendsAt a x s) (same : t.net = s.net) : SendsAt a x t := by
  rwa [SendsAt, ctxOf_congr same]

theorem SendsAt.modCtx (at_ : SendsAt a x s) (b : AssocKey) {f : PeerCtx → PeerCtx} (key : ∀ c, (f c).key = c.key)
    (sending : ∀ c, (f c).sending = c.sending) : SendsAt a x (modCtx s b f) := by
  obtain ⟨c, there, rfl⟩ := Option.map_eq_some_iff.1 at_
  rw [SendsAt, ctxOf_modCtx s b key, there, Option.map_some, Option.map_some]
  split <;> simp [sending]

theorem linkSend_net (s : State) (t : LinkTx) : (linkSend s t).net = s.net := by
  simp only [linkSend, linkPump]
  repeat' split
  all_goals rfl

theorem writeBack_net (s : State) (c : PeerCtx) : (writeBack s c).net = s.net := by
  unfold writeBack
  split
  · rfl
  · exact linkSend_net s _

theorem SendsAt.makeRoom {t : State} {die : Nat} (at_ : SendsAt a x s) (made : makeRoom s die = some t) : SendsAt a x t := by
  dsimp only [Machine.makeRoom] at made
  split at made
  · rwa [← Option.some.inj made]
  · obtain ⟨v, -, rfl⟩ := Option.map_eq_some_iff.1 made
    exact (at_.congr (writeBack_net s v)).modCtx _ (fun _ => rfl) fun _ => rfl

theorem SendsAt.newCtx {t : State} {b : AssocKey} (at_ : SendsAt a x s) (made : newCtx s b = some t) : SendsAt a x t := by
  rw [Machine.newCtx] at made
  split at made
  · obtain ⟨u, room, rfl⟩ := Option.map_eq_some_iff.1 made
    obtain ⟨c, there, same⟩ := Option.map_eq_some_iff.1 (at_.makeRoom room)
    refine Option.map_eq_some_iff.2 ⟨c, ?_, same⟩
    simp only [ctxOf, List.find?_append] at there ⊢
    rw [there, Option.some_or]
  · cases made

theorem SendsAt.sendUnder (at_ : SendsAt a x s) (gen : Option Nat) (b : AssocKey) (cls : MsgClass) (egress : Nat)
    (arrival : Option (Nat × Nat)) (bytes : List Byte) : SendsAt a x (sendUnder s gen b cls egress arrival bytes) := by
  dsimp only [Machine.sendUnder]
  split
  · next t found =>
    have sendsAt : SendsAt a x t := by
      split at found
      · split at found
        · cases found
        · rwa [← Option.some.inj found]
      · exact at_.newCtx found
    exact SendsAt.modCtx (s := { t with net := { t.net with nextMsg := t.net.nextMsg + 1 } }) sendsAt b (fun _ => rfl) fun _ => rfl
  · exact at_

theorem SendsAt.sendControl (at_ : SendsAt a x s) (e : Endpoint) (bytes : List Byte) : SendsAt a x (sendControl s e bytes) := by
  rw [Machine.sendControl]
  split
  · exact at_.congr (linkSend_net s _)
  · exact at_.sendUnder _ _ _ _ _ _

theorem SendsAt.suspect (at_ : SendsAt a x s) (n why : Nat) : SendsAt a x (suspect s n why) := by
  unfold Machine.suspect
  split
  · exact at_
  · split
    · exact at_
    · dsimp only [reportAll]
      split
      · exact at_
      · exact foldState_preserves (P := SendsAt a x) (fun t e sendsAt => sendsAt.sendControl e _) _ at_

end

/-- A context whose sending direction has rolled (R290). -/
def PeerCtx.rolled (credit : Nat) (c : PeerCtx) : PeerCtx :=
  { c with txRoll := (c.txRoll + 1) % 4294967296, txNext := 0, txUnits := 0, txCredit := credit, flight := [],
           txQueue := c.txQueue.filter (fun m => m.sent == 0), ackSeqTx := 0, backed := false }

theorem rollDirection_sendsAt {s : State} {a : AssocKey} {c : PeerCtx} (there : ctxOf s a = some c) :
    SendsAt a ([], 0, (c.txRoll + 1) % 4294967296) (rollDirection s a) := by
  have new : ctxOf (modCtx s a (PeerCtx.rolled (pCreditInit s))) a = some (c.rolled (pCreditInit s)) :=
    ctxOf_modCtx_own there fun _ => rfl
  rw [rollDirection, there]
  exact congrArg (Option.map PeerCtx.sending) new

/-! ### Retransmission and acknowledgements (R287, R289, R290, R293) -/

section
variable {s : State} {a : AssocKey} {c : PeerCtx} (on : s.running = true) (there : ctxOf s a = some c)
include on there

section
variable {f : TxPacket} (inFlight : c.flight.find? (fun x => x.tsn == f.tsn) = some f) (passed : f.since + f.rto ≤ now s)
include inFlight passed

theorem exec_retransmitTimeout_resends (again : f.try_ < pRetryMax s) :
    exec (.retransmitTimeout a f.tsn) s = .next (resend s a f.tsn) := by
  show execRetransmitTimeout a f.tsn s = _
  simp [execRetransmitTimeout, there, inFlight, on, elapsed, passed, again]

/-- After the last try the direction rolls, and a watched node is suspected (R290, R341). -/
theorem exec_retransmitTimeout_rolls (last : pRetryMax s ≤ f.try_) :
    exec (.retransmitTimeout a f.tsn) s = .next (rollDirection s a) ∨
    ∃ n, exec (.retransmitTimeout a f.tsn) s = .next (suspect (rollDirection s a) n 1) := by
  show execRetransmitTimeout a f.tsn s = _ ∨ ∃ n, execRetransmitTimeout a f.tsn s = _
  simp only [execRetransmitTimeout, there, inFlight]
  rw [if_neg (by simp [on, elapsed, passed]), if_neg (Nat.not_lt.2 last)]
  split
  · exact .inr ⟨_, rfl⟩
  · exact .inl rfl

theorem retransmitTimeout_rolls (last : pRetryMax s ≤ f.try_) : Gives (.retransmitTimeout a f.tsn) s fun t =>
    ∃ c' : PeerCtx, ctxOf t a = some c' ∧ c'.flight = [] ∧ c'.txNext = 0 ∧ c'.txRoll = (c.txRoll + 1) % 4294967296 := by
  rcases exec_retransmitTimeout_rolls on there inFlight passed last with e | ⟨n, e⟩
  · exact ⟨_, e, (rollDirection_sendsAt there).ctx⟩
  · exact ⟨_, e, ((rollDirection_sendsAt there).suspect n 1).ctx⟩

end

theorem exec_ackCoalesceExpiry {t : Nat} (owed : c.ackOwed = some t) (passed : t + pAckCoalesce s ≤ now s) :
    exec (.ackCoalesceExpiry a) s = .next (sendAck s a false) := by
  show execAckCoalesceExpiry a s = _
  simp [execAckCoalesceExpiry, there, owed, on, elapsed, passed]

/-! ### Sending a message, and the fetch of its context (R285, R290, R296) -/

section
variable {m : TxMsg} {rest : List TxMsg} (kept : c.lost = false) (queued : c.txQueue = m :: rest)
include kept queued

theorem exec_messageSend_fetches (away : c.cached = false) : exec (.messageSend a) s = .next (startFetch s a) := by
  show execMessageSend a s = _
  simp [execMessageSend, there, on, kept, away, queued]

theorem exec_messageSend_cuts (cached : c.cached = true)
    (below : m.sent ≠ 0 ∨ c.txNext + packetCount s (m.bytes.length - m.sent) ≤ 2 ^ 48 - 4096) : exec (.messageSend a) s =
      .next (iter (cutOne a) (packetCount s (m.bytes.length - m.sent)) s) := by
  have stays : (m.sent == 0 && decide (2 ^ 48 - 4096 < c.txNext + packetCount s (m.bytes.length - m.sent))) = false := by
    rcases below with partly | below
    · simp [partly]
    · rw [decide_eq_false (Nat.not_lt.2 below), Bool.and_false]
  show execMessageSend a s = _
  simp only [execMessageSend, there, on, kept, cached, queued, stays]
  rfl

theorem exec_messageSend_rolls (cached : c.cached = true) (whole : m.sent = 0)
    (above : 2 ^ 48 - 4096 < c.txNext + packetCount s m.bytes.length) (idle : c.flight = []) : exec (.messageSend a) s =
      .next (iter (cutOne a) (packetCount s m.bytes.length) (rollDirection s a)) := by
  show execMessageSend a s = _
  simp only [execMessageSend, there, on, kept, cached, queued, whole, Nat.sub_zero, above, idle]
  rfl

end

theorem exec_contextFetchDone (fetching : c.fetching = true) (read : ∀ m ∈ s.link.memRds, m.why ≠ .context a) :
    exec (.contextFetchDone a) s = .next (missRun
      (modCtx s a fun c => { c with fetching := false, cached := true, backed := true, used := now s }) a) := by
  have done : (s.link.memRds.any fun m => m.why == .context a) = false := by
    simpa using read
  show execContextFetchDone a s = _
  simp [execContextFetchDone, there, on, fetching, done]

end

/-! ### The context region (R295, R313) -/

section
variable {s : State} (reach : Reaches s 0x2003C) (fresh : s.net.pctx ≠ 1) (kept : s.net.pctx ≠ 3)
include reach fresh kept

theorem exec_pctxSet_registers (positive : 1 ≤ fld s 0x20038 8 0) (most : fld s 0x20038 8 0 ≤ 256)
    (aligned : (rd s 0x20030 + 4294967296 * rd s 0x20034) % 2097152 = 0) (sysOnly : ∀ c ∈ s.net.ctxs, c.key.sys = true) :
    exec .pctxSet s = .next { s with net := { s.net with
      pctx := 1, pctxBase := rd s 0x20030 + 4294967296 * rd s 0x20034, pctxSize := 4096 * fld s 0x20038 8 0 } } := by
  have fits : 1 ≤ fld s 0x20038 8 0 ∧ fld s 0x20038 8 0 ≤ 256 ∧ (rd s 0x20030 + 4294967296 * rd s 0x20034) % 2097152 = 0 ∧
    (s.net.ctxs.all fun c => c.key.sys) = true := ⟨positive, most, aligned, List.all_eq_true.2 sysOnly⟩
  show execPctxSet s = _
  rw [execPctxSet, regEnter_reaches reach, pctxSet, if_neg (by simp [fresh, kept]), if_pos fits]

theorem exec_pctxSet_refuses (unfit : fld s 0x20038 8 0 = 0 ∨ 256 < fld s 0x20038 8 0 ∨
      (rd s 0x20030 + 4294967296 * rd s 0x20034) % 2097152 ≠ 0 ∨ ∃ c ∈ s.net.ctxs, c.key.sys = false) :
    exec .pctxSet s = .next { s with net := { s.net with pctx := 2 } } := by
  have misfit : ¬ (1 ≤ fld s 0x20038 8 0 ∧ fld s 0x20038 8 0 ≤ 256 ∧
      (rd s 0x20030 + 4294967296 * rd s 0x20034) % 2097152 = 0 ∧ (s.net.ctxs.all fun c => c.key.sys) = true) := by
    rintro ⟨positive, most, aligned, sysOnly⟩
    rcases unfit with zero | large | unaligned | ⟨c, mem, tenant⟩
    · omega
    · omega
    · exact unaligned aligned
    · exact Bool.false_ne_true (tenant.symm.trans (List.all_eq_true.1 sysOnly c mem))
  show execPctxSet s = _
  rw [execPctxSet, regEnter_reaches reach, pctxSet, if_neg (by simp [fresh, kept]), if_neg misfit]

end

/-! ### Egress (R361, R362, R369) -/

section
variable {s u : State} {p : Fin 12} {b : Fin 4} (on : s.running = true) (up : isUp s p.val b.val = true)
include on up

theorem exec_egressSelect_ack {i : EgItem} {rest : List EgItem} (acks : (subOf s p.val b.val).acks = i :: rest) :
    exec (.egressSelect p b) s =
      .next (sendFrame (modSub s p.val b.val fun y => { y with acks := rest, busyAt := now s }) (p.val, b.val) i) := by
  show execEgressSelect p b s = _
  simp [execEgressSelect, on, up, acks]

variable {c : Nat} {r : Drr} {i : EgItem} {rest : List EgItem} (noAck : (subOf s p.val b.val).acks = [])
  (next : drrNext (egAsk s p.val (subOf s p.val b.val)) (subDrr (subOf s p.val b.val)) = (some c, r))
  (head : tabGetD (subOf s p.val b.val).queues c [] = i :: rest)
  (taken : u = modSub s p.val b.val fun y => withDrr { y with queues := tabSet y.queues c rest, busyAt := now s }
    (drrTake r c i.len rest.isEmpty))
include noAck next head taken

theorem exec_egressSelect_class : exec (.egressSelect p b) s = .next (sendFrame (if i.sampled = true then traceSample
    (histAdd u true true 0 (32 * p.val + 8 * b.val + c) (now s - i.ready)) (32 * p.val + 8 * b.val + c) rest.length
    (now s - i.ready) else u) (p.val, b.val) i) := by
  show execEgressSelect p b s = _
  simp only [execEgressSelect, on, up, noAck, next, head, taken]
  rfl

end

/-- Settles O54: a frame is received as its packet says, and each other clause is the rule of its command above. -/
theorem transport : Obligations.Transport := by
  intro s on
  refine ⟨fun f up => ⟨exec_packet_unread on up, fun p run named type => ?packet⟩, fun a c there => ⟨?timeout, ?ackOwed, ?send, ?fetched⟩,
    fun reach fresh kept => ⟨?registers, exec_pctxSet_refuses reach fresh kept⟩, fun p b up => ⟨?acks, ?classes⟩⟩
  case timeout =>
    exact fun f inFlight passed =>
      ⟨exec_retransmitTimeout_resends on there inFlight passed, retransmitTimeout_rolls on there inFlight passed⟩
  case ackOwed => exact fun t => exec_ackCoalesceExpiry on there
  case send =>
    exact fun m rest kept queued => ⟨exec_messageSend_fetches on there kept queued, exec_messageSend_cuts on there kept queued,
      exec_messageSend_rolls on there kept queued⟩
  case fetched => exact exec_contextFetchDone on there
  case registers =>
    rintro ⟨positive, most, aligned, sysOnly⟩
    exact exec_pctxSet_registers reach fresh kept positive most aligned sysOnly
  case acks => exact fun i rest => exec_egressSelect_ack on up
  case classes =>
    intro c r i rest u noAck next head taken
    rw [exec_egressSelect_class on up noAck next head taken]
    exact ⟨fun plain => by rw [plain]; rfl, fun sampled => by rw [if_pos sampled]⟩
  case packet =>
    obtain ⟨port, sub⟩ := packetOf_place named
    have upP : isUp s p.port p.sub = true := by rw [port, sub]; exact up
    have received : exec run s = .next (receive s p) := by rw [type]; exact exec_packet on up named
    rw [received]
    refine ⟨fun unfit => ?unfit, fun frame header => ⟨fun absent full => ?unbacked, fun absent free => ⟨fun u made => ?created,
      fun full => ?noRoom⟩, fun c there => ⟨fun lost => ?lost, fun kept away => ?away, fun kept cached => ?cached⟩⟩⟩
    case unfit => rw [receive_unfit on upP unfit]
    case unbacked => rw [receive_unbacked on upP frame header absent full]
    case created => rw [receive_created on upP frame header absent free made]
    case noRoom => rw [receive_noRoom on upP frame header absent free full]
    case lost => rw [receive_lost on upP frame header there lost]
    case away => rw [receive_away on upP frame header there kept away]
    case cached =>
      rw [receive_cached on upP frame header there kept cached]
      refine ⟨fun cur next => ?outside, fun roll unarmed => ⟨fun bad => ?unauthentic, fun tag gen peer => ⟨fun data => ?data,
        fun ack current newest => ?ack⟩⟩⟩
      case outside => rw [receiveCached_outside there cur next]
      case unauthentic => rw [receiveCached_unauthentic there roll unarmed bad]
      case data => rw [receiveCached_data there roll unarmed tag gen peer data]
      case ack =>
        have acked : exec (.ackPacket f) s = .next (applyAck (ackCounted s (assocOf p) p) (assocOf p) p) := by
          rw [← receiveCached_ack there tag gen peer ack current newest, ← receive_cached on upP frame header there kept cached,
            ← received, type, if_pos ack]
        exact ⟨_, acked, by rw [applyAck_rx, ackCounted_rx],
          fun valid ackRoll => applyAck_acked (ackCounted_ctxOf there current) valid ackRoll⟩

/-! ### Sub-ports and lanes (R271, R272) -/

/-- Whether a lane that is down or a failed cipher keeps a sub-port down (R272). -/
def subHeld (s : State) (p b : Nat) : Bool :=
  (fabPort s p).downLanes.any (subLanes (pPortMode s p) b).contains || s.fault.ciphers.any fun n => n < 24 && n / 2 == p

theorem subHeld_iff {s : State} {p b : Nat} : subHeld s p b = true ↔
    (∃ l ∈ (fabPort s p).downLanes, l ∈ subLanes (pPortMode s p) b) ∨ ∃ n ∈ s.fault.ciphers, n < 24 ∧ n / 2 = p := by
  simp [subHeld]

theorem exec_subportUpDown {s : State} {p : Fin 12} {b : Fin 4} (on : s.running = true)
    (within : b.val < subCount (pPortMode s p.val)) (up : Bool) : exec (.subportUpDown p b up) s =
      .next (if (up && subHeld s p.val b.val) = true then s else modSub s p.val b.val fun x => { x with up := up }) := by
  show execSubportUpDown p b up s = _
  simp only [execSubportUpDown, on, Nat.not_le.2 within, subHeld]
  simp

theorem subportUpDown_stays {s : State} {p : Fin 12} {b : Fin 4} (on : s.running = true)
    (within : b.val < subCount (pPortMode s p.val)) (held : subHeld s p.val b.val = true) :
    exec (.subportUpDown p b true) s = .next s := by rw [exec_subportUpDown on within, held]; rfl

theorem subportUpDown_rises {s : State} {p : Fin 12} {b : Fin 4} (on : s.running = true)
    (within : b.val < subCount (pPortMode s p.val)) (free : ¬ subHeld s p.val b.val = true) :
    exec (.subportUpDown p b true) s = .next (modSub s p.val b.val fun x => { x with up := true }) := by
  rw [exec_subportUpDown on within, Bool.eq_false_iff.2 free]; rfl

/-- What a port keeps of a lane that fails: the first one moves to its spare, every further one is down (R272). -/
def Port.lost (lane : Nat) (x : Port) : Port :=
  if x.spareUsed then { x with downLanes := if x.downLanes.contains lane then x.downLanes else x.downLanes ++ [lane] }
  else { x with spareUsed := true, spareLane := lane, lanesOut := x.lanesOut ++ [lane] }

@[simp] theorem Port.lost_subs (lane : Nat) (x : Port) : (x.lost lane).subs = x.subs := by
  unfold Port.lost; split <;> rfl

theorem Port.lost_first {lane : Nat} {x : Port} (free : x.spareUsed = false) :
    (x.lost lane).spareUsed = true ∧ (x.lost lane).spareLane = lane := by simp [Port.lost, free]

theorem Port.mem_lost {lane : Nat} {x : Port} (used : x.spareUsed = true) : lane ∈ (x.lost lane).downLanes := by
  by_cases down : lane ∈ x.downLanes <;> simp [Port.lost, used, down]

@[simp] theorem caskRec_net (s : State) (r : CaskRec) : (caskRec s r).net = s.net := by
  obtain ⟨_, _, only⟩ := caskRec_only_cask_fault s r
  rw [only]

@[simp] theorem caskAction_net (s : State) (what : Nat) (u : UnitRef) (left : Nat) : (caskAction s what u left).net = s.net :=
  caskRec_net s _

@[simp] theorem caskAction_fabPort (s : State) (what : Nat) (u : UnitRef) (left p : Nat) :
    fabPort (caskAction s what u left) p = fabPort s p := fabPort_congr (caskAction_net s what u left) p

@[simp] theorem raise_fabPort (s : State) (ev : FaultEv) (p : Nat) : fabPort (raise s ev) p = fabPort s p := rfl

/-- A failed lane touches its own port: its sub-port goes down, and the lane is lost (R272). -/
theorem laneFails_fabPort {s : State} {p n : Nat} (count : n = subCount (pPortMode s p)) (splits : n ≠ 0) (lane q : Nat) :
    fabPort (laneFails s p lane) q =
      if q = p then (fabPort (subDown p s (lane / (8 / n))) p).lost lane else fabPort s q := by
  subst count
  rw [laneFails, laneReplace]
  dsimp only
  rw [if_neg splits]
  by_cases own : q = p
  · subst own
    cases used : (fabPort s q).spareUsed
    · simp [Port.lost, subDown, used]
    · by_cases down : lane ∈ (fabPort s q).downLanes <;> simp [Port.lost, subDown, used, down]
  · cases used : (fabPort s p).spareUsed
    · simp [own]
    · by_cases down : lane ∈ (fabPort s p).downLanes <;> simp [own, down]

theorem laneSpareMove_gives {s : State} (on : s.running = true) (p : Fin 12) (lane : Fin 8) {n : Nat}
    (count : n = subCount (pPortMode s p.val)) (splits : n ≠ 0) : Gives (.laneSpareMove p lane) s fun t =>
      (subOf t p.val (lane.val / (8 / n))).up = false ∧
      ((fabPort s p.val).spareUsed = false → (fabPort t p.val).spareUsed = true ∧ (fabPort t p.val).spareLane = lane.val) ∧
      ((fabPort s p.val).spareUsed = true → lane.val ∈ (fabPort t p.val).downLanes) ∧
      (∀ q : Nat, q ≠ p.val → fabPort t q = fabPort s q) := by
  refine ⟨laneFails s p.val lane.val, congrArg Host.Outcome.next (if_pos on), ?_, fun free => ?_, fun used => ?_,
    fun q other => ?_⟩
  · rw [subOf, laneFails_fabPort count splits, if_pos rfl, Port.lost_subs]
    exact subDown_down p.val s _
  · rw [laneFails_fabPort count splits, if_pos rfl]
    exact Port.lost_first (by simpa [subDown] using free)
  · rw [laneFails_fabPort count splits, if_pos rfl]
    exact Port.mem_lost (by simpa [subDown] using used)
  · rw [laneFails_fabPort count splits, if_neg other]

/-! ### PFC and PAUSE frames (R276, R277) -/

/-- One entry of a PFC frame at tick `t`: its PCP is paused for its quanta, or resumed by quanta 0. -/
def SubPort.pausedBy (t : Nat) (x : SubPort) (e : Nat × Nat) : SubPort :=
  if e.2 = 0 then { x with paused := tabDel x.paused e.1, pausedAt := tabDel x.pausedAt e.1 }
  else { x with paused := tabSet x.paused e.1 e.2, pausedAt := tabSet x.pausedAt e.1 t }

theorem SubPort.pausedBy_get (t : Nat) (x : SubPort) (e : Nat × Nat) (k : Nat) : tabGet (x.pausedBy t e).paused k =
    if k = e.1 then (if e.2 = 0 then none else some e.2) else tabGet x.paused k := by
  unfold SubPort.pausedBy
  split <;> simp only [tabGet_tabDel, tabGet_tabSet]

/-- A PCP that no entry names is as it was. -/
theorem pauses_other (t : Nat) {k : Nat} : ∀ {es : List (Nat × Nat)} (x : SubPort), k ∉ es.map Prod.fst →
    tabGet (foldState (SubPort.pausedBy t) x es).paused k = tabGet x.paused k
  | [], _, _ => rfl
  | e :: es, x, out => by
    simp only [List.map_cons, List.mem_cons, not_or] at out
    rw [foldState, pauses_other t _ out.2, SubPort.pausedBy_get, if_neg out.1]

/-- A PCP that one entry names is as that entry says. -/
theorem pauses_named (t : Nat) : ∀ {es : List (Nat × Nat)} (x : SubPort), (es.map Prod.fst).Nodup → ∀ e ∈ es,
    tabGet (foldState (SubPort.pausedBy t) x es).paused e.1 = if e.2 = 0 then none else some e.2
  | e :: es, x, once, d, mem => by
    rw [List.map_cons, List.nodup_cons] at once
    rw [foldState]
    rcases List.mem_cons.1 mem with rfl | later
    · rw [pauses_other t _ once.1, SubPort.pausedBy_get, if_pos rfl]
    · exact pauses_named t _ once.2 d later

/-- The state in which a PFC frame has been taken (R277). -/
def pfcTaken (s : State) (p b : Nat) (frame : List (Nat × Nat)) : State :=
  modSub (modFab s p fun x => { x with pauseRx := x.pauseRx + 1 }) p b fun x =>
    foldState (SubPort.pausedBy (now s)) x (frame.filter fun e => (pfcPcps s).contains e.1)

theorem exec_pfcFrame {s : State} {p : Fin 12} {b : Fin 4} (on : s.running = true) (up : isUp s p.val b.val = true)
    (frame : List (Nat × Nat)) : exec (.pfcFrame p b frame) s = .next (pfcTaken s p.val b.val frame) := by
  show execPfcFrame p b frame s = _
  rw [execPfcFrame, if_neg (by simp [on, up])]
  rfl

theorem pfcTaken_subOf (s : State) (p b : Nat) (frame : List (Nat × Nat)) : subOf (pfcTaken s p b frame) p b =
    foldState (SubPort.pausedBy (now s)) (subOf s p b) (frame.filter fun e => (pfcPcps s).contains e.1) := by
  have counted : subOf (modFab s p fun x => { x with pauseRx := x.pauseRx + 1 }) p b = subOf s p b := by simp [subOf]
  rw [pfcTaken, modSub_subOf, if_pos ⟨rfl, rfl⟩, counted]

theorem pfcFrame_gives {s : State} {p : Fin 12} {b : Fin 4} (on : s.running = true) (up : isUp s p.val b.val = true)
    {frame : List (Nat × Nat)} (once : (frame.map Prod.fst).Nodup) : Gives (.pfcFrame p b frame) s fun t =>
      (fabPort t p.val).pauseRx = (fabPort s p.val).pauseRx + 1 ∧
      (∀ e ∈ frame, e.1 ∈ pfcPcps s → tabGet (subOf t p.val b.val).paused e.1 = (if e.2 = 0 then none else some e.2)) ∧
      ∀ k : Nat, k ∉ pfcPcps s ∨ k ∉ frame.map Prod.fst →
        tabGet (subOf t p.val b.val).paused k = tabGet (subOf s p.val b.val).paused k := by
  have once' : ((frame.filter fun e => (pfcPcps s).contains e.1).map Prod.fst).Nodup :=
    once.sublist (List.filter_sublist.map Prod.fst)
  refine ⟨_, exec_pfcFrame on up frame, by simp [pfcTaken], fun e mem enabled => ?_, fun k out => ?_⟩
  · rw [pfcTaken_subOf]
    exact pauses_named _ _ once' e (List.mem_filter.2 ⟨mem, List.contains_iff_mem.2 enabled⟩)
  · rw [pfcTaken_subOf, pauses_other]
    intro named
    obtain ⟨e, mem, rfl⟩ := List.mem_map.1 named
    obtain ⟨mem, enabled⟩ := List.mem_filter.1 mem
    rcases out with disabled | unnamed
    · exact disabled (List.contains_iff_mem.1 enabled)
    · exact unnamed (List.mem_map_of_mem mem)

theorem pfcPauseExpiry_gives {s : State} {p : Fin 12} {b : Fin 4} {pcp : Fin 8} {q : Nat} (on : s.running = true)
    (paused : tabGet (subOf s p.val b.val).paused pcp.val = some q)
    (passed : tabGetD (subOf s p.val b.val).pausedAt pcp.val 0 + quantaTicks (pPortMode s p.val) q ≤ now s) :
    Gives (.pfcPauseExpiry p b pcp) s fun t => tabGet (subOf t p.val b.val).paused pcp.val = none := by
  refine ⟨modSub s p.val b.val fun x =>
    { x with paused := tabDel x.paused pcp.val, pausedAt := tabDel x.pausedAt pcp.val }, ?_, by simp [tabGet_tabDel]⟩
  show execPfcPauseExpiry p b pcp s = _
  simp only [execPfcPauseExpiry, paused]
  rw [if_pos (by simp [on, elapsed, passed])]

theorem exec_pauseFrame {s : State} {p : Fin 12} (on : s.running = true) (used : pPortMode s p.val ≠ 0) :
    exec (.pauseFrame p) s = .next (modFab s p.val fun x => { x with pauseRx := x.pauseRx + 1 }) := by
  show execPauseFrame p s = _
  rw [execPauseFrame, if_pos (by simp [on, used])]

/-! ### XOFF (R277) -/

section
variable {s : State} {die : Fin 2}

theorem exec_bufferXoff_off (on : s.running = true) (pfc : pfcPcps s ≠ []) (quiet : tabGet s.net.xoff die.val = none)
    (low : bufferFree s die.val < 8388608) : exec (.bufferXoff die) s =
      .next (pfcSend { s with net := { s.net with xoff := tabSet s.net.xoff die.val (now s) } } die.val 65535) := by
  show execBufferXoff die s = _
  simp [execBufferXoff, on, pfc, quiet, low]

theorem exec_bufferXoff_on {t : Nat} (on : s.running = true) (pfc : pfcPcps s ≠ []) (since : tabGet s.net.xoff die.val = some t)
    (free : 16777216 ≤ bufferFree s die.val) : exec (.bufferXoff die) s =
      .next (pfcSend { s with net := { s.net with xoff := tabDel s.net.xoff die.val } } die.val 0) := by
  show execBufferXoff die s = _
  simp [execBufferXoff, on, pfc, since, free]

theorem exec_xoffRepeat {t : Nat} (on : s.running = true) (since : tabGet s.net.xoff die.val = some t)
    (low : bufferFree s die.val < 8388608) (due : t + xoffInterval s die.val ≤ now s) : exec (.xoffRepeat die) s =
      .next (pfcSend { s with net := { s.net with xoff := tabSet s.net.xoff die.val (now s) } } die.val 65535) := by
  show execXoffRepeat die s = _
  simp only [execXoffRepeat, since]
  rw [if_pos (by simp [on, low, elapsed, due])]

end

/-- Settles O55: each clause is the rule of its command above. -/
theorem portsAndPauses : Obligations.PortsAndPauses := by
  intro s on
  refine ⟨fun p b within => ⟨?down, ?up, fun why => ?held⟩, fun p lane n => laneSpareMove_gives on p lane,
    fun p b frame up => pfcFrame_gives on up, fun p b pcp q => pfcPauseExpiry_gives on, fun p => exec_pauseFrame on, ?xoff⟩
  case down => exact exec_subportUpDown on within false
  case up =>
    refine fun lanes ciphers => subportUpDown_rises on within fun held => ?_
    rcases subHeld_iff.1 held with ⟨l, down, mine⟩ | ⟨n, failed, low, own⟩
    · exact lanes l down mine
    · exact ciphers n failed low own
  case held => exact subportUpDown_stays on within (subHeld_iff.2 why)
  case xoff =>
    exact fun die pfc =>
      ⟨exec_bufferXoff_off on pfc, fun t => exec_bufferXoff_on on pfc, fun t => exec_xoffRepeat on⟩

end Sys2Proof.Machine

/-!
The composition and recovery family, first part: what the reset state holds, what ends a fence, a node that does not run, and a command
that has been executed here.
-/

namespace Sys2Proof.Machine

/-! ### The reset state (R304, R315, R330, R470, R527) -/

/-- In the reset state a queue other than 0 stands in no table. -/
theorem queueOf_reset {n : Nat} (other : n ≠ 0) : queueOf State.reset n = {} := by
  simp [queueOf, State.reset, tabGetD, tabGet, other.symm]

/-- Settles O2: every clause reads a field of `State.reset`; a queue other than 0 is the default one (`queueOf_reset`). -/
theorem resetHolds : Obligations.ResetHolds :=
  ⟨rfl, rfl, rfl, rfl, rfl, rfl, rfl, rfl, rfl, rfl, rfl, rfl, rfl, rfl, rfl, rfl, rfl, rfl, rfl, by decide, by decide,
    fun n other => by rw [queueOf_reset other]; rfl, rfl, rfl⟩

/-! ### What can end a fence (R330, R344, R471, R517) -/

/-- The commands with the permission to end a fence. -/
theorem allowOf_fence {c : Instr} (h : (allowOf c).fence = true) :
    (∃ m, c = .map m) ∨ c = .mapChunk ∨ c = .rstSoft ∨ (∃ a d, c = .regWr a d) ∨ (∃ a b d e, c = .barrierArrive a b d e) ∨
    (∃ a w b d e, c = .broadcast a w b d e) ∨ c = .perstNAssert ∨ (∃ env, c = .perstNDeassert env) := by
  cases c with
  | map _ | mapChunk | rstSoft | regWr _ _ | barrierArrive _ _ _ _ | broadcast _ _ _ _ _ | perstNAssert | perstNDeassert _ => simp
  | _ => exact absurd h Bool.false_ne_true

/-- Settles O4: a command without the permission keeps a fence that stands (`exec_kept`), and few commands have it. -/
theorem fenceStands : Obligations.FenceStands := by
  intro s t c e stood ended
  refine allowOf_fence (Bool.eq_true_of_not_eq_false fun no => ?_)
  have stands : t.fault.fenced = true := (exec_kept e).fenced no stood
  exact absurd ended (by simp [stands])

/-! ### A node whose interior does not run (R527, R547, R548, R555) -/

theorem iter_fixed {f : State → State} {s : State} (fixed : f s = s) : ∀ n, iter f n s = s
  | 0 => rfl
  | n + 1 => by rw [iter, fixed, iter_fixed fixed n]

/-- While the interior does not run, every command but the pins of power and reset leaves the node as it is: no gate lets it
through (R527, R547, R548, R555). -/
theorem exec_stopped {s : State} {c : Instr} (off : s.running = false) (notAssert : c ≠ .perstNAssert)
    (notDeassert : ∀ env, c ≠ .perstNDeassert env) (notTrip : c ≠ .thermtrip) (notWest : c ≠ .coreWPowerLoss) :
    exec c s = .next s := by
  cases c with
  | perstNAssert => exact absurd rfl notAssert
  | perstNDeassert env => exact absurd rfl (notDeassert env)
  | thermtrip => exact absurd rfl notTrip
  | coreWPowerLoss => exact absurd rfl notWest
  | timeBusBroadcast => exact congrArg _ (iter_fixed (tick_stopped off) _)
  | append _ | fork _ | trim _ _ | park _ | wake _ | evict _ | hint _ | attnFwd _ | attnBwd _ | gradDrainRead _
  | gradDrainRelease _ | merge _ | skimRefresh _ | frameRead _ _ _ | frameWrite _ | guestPut _ | guestGet _ | guestRelease _ =>
    exact congrArg _ (whenReady_stopped off)
  | recallAnswer _ _ _ | recallTimeout _ | admission _ | planVisits _ | mashVisit _ _ | tileVisit _ _ | fallbackVisit _ _
  | mashWaitExpiry _ | stageWaitExpiry _ | fallbackDeadline _ | frameReadDeadline _ | appendBoundExpiry _ | appendStart _ _
  | frameCommit _ _ _ | reserveRefill _ _ | zeroFill _ _ | preemptVictim | promotion _ | demotion _ | stagingStart _
  | stagingComplete _ _ | writeDownComplete _ _ | extentMove _ | ageSweep | regionDrained _ | codecEncode _ _
  | codecDecode _ _ _ | codecLaneFail _ _ | burstEntry _ _ | burstClose _ _ | tokenGrant _ | refreshDue _ _
  | gradientAdd _ _ _ | clone _ _ _ _ _ _ | quotaRaise _ | frameMove _ _ _ | lpMr4Read _ _ | bwdChainForm _ | bwdChainIdle _
  | fwdChainReturn _ | mergeTimeout _ _ _ | earlyBufferExpiry _ | dataPacket _ | ackPacket _ | nvmeCompletion _ _
  | parkCopiesDone _ | parkCopyTimeout _ | wakeComplete _ | reProtect _ | cartridgeRemoval _ | smartPoll _ _ | prefixSweep
  | prefixRateRaise _ | matchInPulse _ | cascadeTimeout | memCpl _ _ _ | memRdTimeout _ => exact congrArg _ (whileRunning_stopped off)
  | hregAdd | hregRemove | cpEnrol _ | cpEject _ | cascResync | hlRetrain | markGo | qbindWrite _ _ | pctxSet | histClear
  | pendArm _ | pendDisarm _ | ldgDeclareDead | lregCreate | lregDelete | attReport | attEndorse | extendGo | kemInstall
  | kemLink | tenantRemove | rstSoft | stgErase | stgWrite | stgStage | stgConfirm | stgCancel | ownFuse | stickyClr _ _
  | injArm | injDisarm | caskRead | snapGo | snapRelease | h2kWord _ | h2kLast _ => exact congrArg _ (regEnter_stopped off)
  | countLoRead _ | qccLoRead _ _ | lregVerLoRead _ | caskHeadLoRead _ | caskOldLoRead _ | tctrLoRead _ _
  | quadCounterRead _ _ _ | k2hWord _ => exact congrArg _ (readAt_stopped off)
  | mapChunk | mailboxRenew | ping => exact congrArg _ (onMail_stopped off)
  | ledgerRead _ _ | ledgerWrite _ | ledgerRelease _ | ledgerPublish _ => exact congrArg _ (if_pos (by rw [isLive_stopped off]; rfl))
  | prefixSearch _ _ | prefixInsert _ _ | prefixDelete _ _ => exact congrArg _ (if_pos (by rw [prefixTurn_stopped off]; rfl))
  | faultEvent check => cases check <;> simp only [exec, execFaultEvent, off, Bool.false_and, Bool.not_false, if_true, Bool.false_eq_true, if_false] <;> split <;> rfl
  | qwait _ | outcomeExpiry _ | retransmitTimeout _ _ | ackCoalesceExpiry _ | messageSend _ | leaseExpiry | haloDrainDone
  | haloDrainTimeout | signatureDone _ | keyDrainExpiry _ | eventLineDrop _ | logPeriodEnd _ | pfcPauseExpiry _ _ _
  | xoffRepeat _ | flashOperationDone _ | chainTimeout _ | chainRetry _ | copyNext _ _ _ =>
    simp only [exec, execQwait, execOutcomeExpiry, execRetransmitTimeout, execAckCoalesceExpiry, execMessageSend, execLeaseExpiry,
    execHaloDrainDone, execHaloDrainTimeout, execSignatureDone, execKeyDrainExpiry, execEventLineDrop, execLogPeriodEnd,
    execPfcPauseExpiry, execXoffRepeat, execFlashOperationDone, execChainTimeout, execChainRetry, execCopyNext, off, Bool.not_false, Bool.true_or, Bool.false_and, Bool.false_eq_true, if_true, if_false]
    repeat' split
    all_goals rfl
  | _ => simp [exec, execCommandArrival, execHbmTempRead, execMashUnitFail, execTileFail, execMergeInput, execEgressSelect, execPfcFrame,
    execPauseFrame, execBufferXoff, execContextFetchDone, execSubportUpDown, execLaneSpareMove, execMap, execGraceEnd,
    execRenew, execChain, execChainAck, execCopyBegin, execCopyFrames, execCopyEnd, execCopyAck, execHeartbeat,
    execDetectorFiring, execTransferGuests, execAdopt, execReleaseGuests, execStepDoneReport, execBarrierArrive,
    execBarrierRelease, execBroadcast, execHaloMark, execAttestReq, execCartridgeInsert, execFlitReceived, execNakReceived,
    execLinkDown, execLinkTraining, execRegRd, execRegWr, execMsg, execGateEntryEnd, execGateTakeover, execDrainFence,
    execFaultWindowEnd, execCaskRecordWrite, execBridgeFlitRetry, execComparatorFire, execVpolicyStep, execLogicTempRead,
    execAvsNoAnswer, execHlRefclkLoss, execHlRefclkReturn, execMemRefclkLoss, execMemRefclkReturn, execOtherRefclkLoss,
    execCoreEPowerLoss, execHaloIn, execI3cRead, execRegulatorAnswersAgain, execSensorWindowEnd, off]
/-- Settles O7: no gate lets a command through (`exec_stopped`). -/
theorem stoppedNodeStands : Obligations.StoppedNodeStands := fun _ _ off notAssert notDeassert notTrip notWest =>
  exec_stopped off notAssert notDeassert notTrip notWest

/-! ### A command that has been executed here (R334, R335, R339) -/

/-- A forwarded command that waits for the acknowledgements of `legs`. -/
def chainWaits (s : State) (c : Command) (st : Status) (legs : List ChainLeg) : State :=
  let s1 := modLive s (cmdKey c) fun l => { l with executed := true }
  { s1 with comp := { s1.comp with waits := s1.comp.waits ++ [{ key := cmdKey c, cmd := c, status := st, legs := legs }] } }

theorem finish_alone (s : State) (c : Command) (repl : Nat) (r : Reply)
    (alone : isForwarded c.desc.body = false ∨ chainLegs s c repl = []) : finish s c repl r = complete s c r := by
  rcases alone with here | last
  · simp [finish, here]
  · simp [finish, last]

theorem finish_forwards {s : State} {c : Command} {repl : Nat} (r : Reply) (forwarded : isForwarded c.desc.body = true)
    (more : chainLegs s c repl ≠ []) : finish s c repl r =
      foldState (fun s l => if l.sentAt.isSome then sendChain s c l.node l.epoch else s)
        (chainWaits s c r.status (chainLegs s c repl)) (chainLegs s c repl) := by
  simp [finish, forwarded, more, chainWaits]

/-- Passing a chain on leaves what answering leaves. -/
theorem sendLegs_answ (s : State) (c : Command) (legs : List ChainLeg) :
    Answ s (foldState (fun s l => if l.sentAt.isSome then sendChain s c l.node l.epoch else s) s legs) := by
  refine foldState_answ (fun t l answ => ?_) (.refl s)
  split
  · exact sendChain_answ answ
  · exact answ

theorem chainWaits_executed (s : State) (c : Command) (st : Status) (legs : List ChainLeg) :
    ∀ l ∈ (chainWaits s c st legs).exec.live, cmdKey l.cmd = cmdKey c → l.executed = true := by
  intro l mem same
  obtain ⟨x, -, rfl⟩ := List.mem_map.1 mem
  by_cases own : cmdKey x.cmd = cmdKey c
  · simp [own]
  · rw [if_neg own] at same
    exact absurd same own

/-- Settles O14: with no leg the command completes (`finish_alone`), with one it waits (`finish_forwards`), and the messages of
its legs leave the wait, the queues, the log and the admitted commands alone (`sendLegs_answ`). -/
theorem executedCommandPassesChain : Obligations.ExecutedCommandPassesChain := by
  refine fun s c repl r => ⟨finish_alone s c repl r, fun forwarded more => ?_⟩
  have sent := sendLegs_answ (chainWaits s c r.status (chainLegs s c repl)) c (chainLegs s c repl)
  rw [finish_forwards r forwarded more, sent.comp, sent.queues, sent.outcomes, sent.exec]
  exact ⟨rfl, rfl, rfl, chainWaits_executed s c _ _⟩

end Sys2Proof.Machine

/-!
The host's accesses of the register window: the reads that latch a high word or take a word from the mailbox FIFO, and how an access
ends.
-/

namespace Sys2Proof.Machine

/-! ### Registers without stored bits (R526, R532) -/

theorem lo32_eq (n : Nat) : lo32 n = bitsOf 31 0 n := by simp [lo32, bitsOf]

theorem hi32_eq (n : Nat) : hi32 n = bitsOf 63 32 n := by simp [hi32, bitsOf]

/-- A register of RO and RS fields shows what the state gives it. -/
theorem regWord_ro {s : State} {a : Nat} (ro : regDef a = roReg) : regWord s a = liveWord s a := by
  rw [regWord, ro]
  simp [roReg, fieldMask, sumNat]

/-- The answer `v` to a read of the register `a`, sent from the state `t`. -/
def readAnswer (t : State) (tag a v : Nat) : Out := .next (linkSend t (.regCpl tag a 0 (le 4 v)))

/-- A read of a register of RO and RS fields answers what it shows, from the state in which its high word is latched. -/
theorem readAt_latches {s t : State} (tag : Nat) {a v : Nat} (reach : Reaches s a) (notFifo : a ≠ 0x4010) (ro : regDef a = roReg)
    (latch : readLatch s a = t) (live : liveWord s a = v) : .next (readAt s tag a) = readAnswer t tag a v := by
  rw [readAt_reaches reach, readWord, if_neg notFifo, regWord_ro ro, latch, live, readAnswer]

/-! ### The completion count of a queue (R315) -/

theorem regDef_port {a : Nat} (low : 0x20000 ≤ a) (high : a < 0x30000) : regDef a = portDef (a - 0x20000) := by
  simp (disch := omega) only [regDef, if_neg, if_pos]

theorem portDef_queue {o : Nat} (low : 0x1000 ≤ o) (high : o < 0x5000) (ro : o % 16 ≠ 0) : portDef o = roReg := by
  have inQueues : inRange 0x1000 0x5000 o = true := by simp [inRange, low, high]
  unfold portDef
  simp (disch := omega) only [if_neg, inQueues, if_true]

theorem liveWord_port (s : State) {a : Nat} (low : 0x20000 ≤ a) (high : a < 0x30000) : liveWord s a = portLive s (a - 0x20000) := by
  simp (disch := omega) only [liveWord, if_neg, if_pos]

theorem portLive_qccLo (s : State) {q : Nat} (small : q < 1024) : portLive s (0x1004 + 16 * q) = lo32 (queueOf s q).count := by
  have number : (0x1004 + 16 * q - 0x1000) / 16 = q := by omega
  have place : (0x1004 + 16 * q) % 16 = 4 := by omega
  unfold portLive
  simp (disch := omega) only [if_neg, number, place]

theorem readLatch_qccLo (s : State) {q : Nat} (small : q < 1024) :
    readLatch s (0x21004 + 16 * q) = modQueue s q fun x => { x with countHi := hi32 x.count } := by
  have inQueues : (inRange 0x21000 0x25000 (0x21004 + 16 * q) && (0x21004 + 16 * q) % 16 == 4) = true := by
    simp [inRange]; omega
  have number : (0x21004 + 16 * q - 0x21000) / 16 = q := by omega
  have notTenant : (inRange 0x3110 0x3150 (0x21004 + 16 * q) && (0x21004 + 16 * q) % 8 == 0) = false := by simp [inRange]; omega
  have notQuad : (inRange 0x10000 0x20000 (0x21004 + 16 * q) && inRange 0x10 0x38 ((0x21004 + 16 * q) % 0x4000) &&
      (0x21004 + 16 * q) % 8 == 0) = false := by simp [inRange]; omega
  unfold readLatch
  simp (disch := omega) only [if_neg, notTenant, notQuad, inQueues, number, Bool.false_eq_true, if_false, if_true]

/-! ### The reads that latch a high word (R304, R426, R504, R518, R526, R536) -/

section
variable {s : State} (tag : Nat)

theorem exec_caskHeadLoRead (reach : Reaches s 0x2804) : exec (.caskHeadLoRead tag) s =
    readAnswer { s with cask := { s.cask with headHi := bitsOf 63 32 (caskNewest s.cask) } } tag 0x2804
      (bitsOf 31 0 (caskNewest s.cask)) :=
  readAt_latches tag reach (by decide) rfl (by simp [readLatch, hi32_eq]) (by simp [liveWord, faultLive, lo32_eq])

theorem exec_caskOldLoRead (reach : Reaches s 0x280C) : exec (.caskOldLoRead tag) s =
    readAnswer { s with cask := { s.cask with oldHi := bitsOf 63 32 (caskOldest s.cask) } } tag 0x280C
      (bitsOf 31 0 (caskOldest s.cask)) :=
  readAt_latches tag reach (by decide) rfl (by simp [readLatch, hi32_eq]) (by simp [liveWord, faultLive, lo32_eq])

theorem exec_tctrLoRead (i : Fin 8) (reach : Reaches s (0x3110 + 8 * i.val)) : exec (.tctrLoRead tag i) s =
    readAnswer { s with snap := { s.snap with tctrHi := tabSet s.snap.tctrHi i.val (bitsOf 63 32 (shownCounter s i.val)) } } tag
      (0x3110 + 8 * i.val) (bitsOf 31 0 (shownCounter s i.val)) :=
  readAt_latches tag reach (by omega) (by fin_cases i <;> rfl) (by fin_cases i <;> simp [readLatch, inRange, hi32_eq])
    (by fin_cases i <;> simp [liveWord, snapLive, lo32_eq])

theorem exec_quadCounterRead (q : Fin 4) (k : QuadCounter) (reach : Reaches s (0x10010 + 0x4000 * q.val + 8 * quadCounterNo k)) :
    exec (.quadCounterRead tag q k) s =
      readAnswer (modQuad s q.val fun x =>
          { x with latch := tabSet x.latch (quadCounterNo k) (bitsOf 63 32 (quadCount x (quadCounterNo k))) }) tag
        (0x10010 + 0x4000 * q.val + 8 * quadCounterNo k) (bitsOf 31 0 (quadCount (quadOf s q.val) (quadCounterNo k))) :=
  readAt_latches tag reach (by omega) (by fin_cases q <;> cases k <;> rfl)
    (by fin_cases q <;> cases k <;> simp [readLatch, inRange, hi32_eq, quadCounterNo])
    (by fin_cases q <;> cases k <;> simp [liveWord, quadLive, lo32_eq, quadCounterNo])

theorem exec_qccLoRead (q : Fin 1024) (reach : Reaches s (0x21004 + 16 * q.val)) : exec (.qccLoRead tag q) s =
    readAnswer (modQueue s q.val fun x => { x with countHi := bitsOf 63 32 x.count }) tag (0x21004 + 16 * q.val)
      (bitsOf 31 0 (queueOf s q.val).count) := by
  have place : 0x21004 + 16 * q.val - 0x20000 = 0x1004 + 16 * q.val := by omega
  refine readAt_latches tag reach (by omega) ?ro ?latch ?live
  case ro => rw [regDef_port (by omega) (by omega), place, portDef_queue (by omega) (by omega) (by omega)]
  case latch => simp only [readLatch_qccLo s q.isLt, hi32_eq]
  case live => rw [liveWord_port s (by omega) (by omega), place, portLive_qccLo s q.isLt, lo32_eq]

theorem exec_lregVerLoRead {g : LedRegion} (reach : Reaches s 0x30130) (selected : regionOf s (fld s 0x30120 15 0) = some g) :
    exec (.lregVerLoRead tag) s =
      readAnswer { s with ledger := { s.ledger with verHi := bitsOf 63 32 g.version } } tag 0x30130 (bitsOf 31 0 g.version) :=
  readAt_latches tag reach (by decide) rfl (by simp [readLatch, inRange, hi32_eq, selected])
    (by simp [liveWord, hostlinkLive, lo32_eq, selected])

/-- A read of K2H_WORD is the read of the head of the FIFO (R516). -/
theorem exec_k2hWord (reach : Reaches s 0x4010) : exec (.k2hWord tag) s = readAnswer (k2hPop s).2 tag 0x4010 (k2hPop s).1 :=
  congrArg Host.Outcome.next (by rw [readAt_reaches reach, readWord, if_pos rfl])

end

/-- The coarse view is the largest power of two that does not exceed the value (R446). -/
theorem coarse_bounds {v : Nat} (some_ : v ≠ 0) : (∃ k : Nat, coarse v = 2 ^ k) ∧ coarse v ≤ v ∧ v < 2 * coarse v := by
  have power : coarse v = 2 ^ v.log2 := if_neg some_
  have above : v < 2 ^ (v.log2 + 1) := Nat.lt_log2_self
  rw [power]
  exact ⟨⟨_, rfl⟩, Nat.log2_self_le some_, by omega⟩

/-- Settles O16: each read is its row's lemma above, and the coarse view is `coarse_bounds`. -/
theorem latchingReads : Obligations.LatchingReads := by
  refine ⟨fun s tag => ⟨exec_caskHeadLoRead tag, exec_caskOldLoRead tag, exec_tctrLoRead tag, exec_quadCounterRead tag,
    exec_qccLoRead tag, fun g reach => exec_lregVerLoRead tag reach, fun w last rest reach head => ?some_,
    fun reach empty => ?none_⟩, rfl, fun v => coarse_bounds, fun s i coarse_ => if_pos coarse_⟩
  all_goals rw [exec_k2hWord tag reach]
  case some_ => simp only [k2hPop, head, readAnswer]
  case none_ => simp only [k2hPop, empty, readAnswer]

/-! ### How an access ends (R402, R521, R522, R523) -/

theorem pumpIf_only_link (s u : State) (b : Bool) (l : LinkSt) (same : u = { s with link := l }) :
    ∃ l, (if b then linkPump u else s) = { s with link := l } := by
  subst same
  cases b
  · exact ⟨s.link, rfl⟩
  · exact ⟨_, rfl⟩

/-- Sending over the link changes the link alone. -/
theorem linkSend_only_link (s : State) (t : LinkTx) : ∃ l, linkSend s t = { s with link := l } := pumpIf_only_link s _ _ _ rfl

/-- An access that fails is counted once, its word noted, and nothing else but the fault collector changes (R522). -/
theorem accessFails_only (s : State) (w : Nat) (bus : Bool) :
    ∃ x, accessFails s w bus = { s with accessErr := s.accessErr + 1, lastErr := w, fault := x } := by
  cases bus
  · exact ⟨s.fault, rfl⟩
  · exact ⟨_, rfl⟩

section
variable {s : State} (on : s.running = true) (up : 2 ≤ s.link.state)
include on up

theorem exec_regRd_ok (tag addr len : Nat) (ok : (accessEnd s addr len).1 = 0) : exec (.regRd tag addr len) s =
    .next (linkSend (winReads (accessWords addr (len / 4)) s).2 (.regCpl tag addr 0 (winReads (accessWords addr (len / 4)) s).1)) := by
  obtain ⟨⟨w, bus⟩, access⟩ : ∃ x, accessEnd s addr len = (0, x) := ⟨_, Prod.ext ok rfl⟩
  show execRegRd tag addr len s = _
  simp [execRegRd, on, Nat.not_lt.2 up, access]

theorem regRd_fails (tag addr len : Nat) (fails : (accessEnd s addr len).1 ≠ 0) : Gives (.regRd tag addr len) s fun t =>
    { t with link := s.link, accessErr := s.accessErr, lastErr := s.lastErr, fault := s.fault } = s ∧
    t.accessErr = s.accessErr + if (accessEnd s addr len).1 = 1 then 1 else 0 := by
  rcases access : accessEnd s addr len with ⟨st, w, bus⟩
  rw [access] at fails
  have ran : exec (.regRd tag addr len) s = .next (linkSend (if st = 1 then accessFails s w bus else s) (.regCpl tag addr st [])) := by
    show execRegRd tag addr len s = _
    by_cases one : st = 1
    · simp [execRegRd, on, Nat.not_lt.2 up, access, one]
    · simp [execRegRd, on, Nat.not_lt.2 up, access, one]
  refine ⟨_, ran, ?_⟩
  obtain ⟨l, sent⟩ := linkSend_only_link (if st = 1 then accessFails s w bus else s) (.regCpl tag addr st [])
  obtain ⟨x, counted⟩ := accessFails_only s w bus
  rw [sent, counted]
  by_cases one : st = 1 <;> simp [one]

theorem exec_regWr_ok (addr : Nat) (data : List Word32) (ok : (accessEnd s addr (4 * data.length)).1 = 0) :
    exec (.regWr addr data) s = .next (regWrite s ((accessWords addr data.length).zip data)) := by
  obtain ⟨⟨w, bus⟩, access⟩ : ∃ x, accessEnd s addr (4 * data.length) = (0, x) := ⟨_, Prod.ext ok rfl⟩
  show execRegWr addr data s = _
  simp [execRegWr, on, Nat.not_lt.2 up, access]

theorem regWr_fails (addr : Nat) (data : List Word32) (fails : (accessEnd s addr (4 * data.length)).1 ≠ 0) :
    Gives (.regWr addr data) s fun t => { t with accessErr := s.accessErr, lastErr := s.lastErr, fault := s.fault } = s ∧
      t.accessErr = s.accessErr + if (accessEnd s addr (4 * data.length)).1 = 1 then 1 else 0 := by
  rcases access : accessEnd s addr (4 * data.length) with ⟨st, w, bus⟩
  rw [access] at fails
  have ran : exec (.regWr addr data) s = .next (if st = 1 then accessFails s w bus else s) := by
    show execRegWr addr data s = _
    by_cases one : st = 1
    · simp [execRegWr, on, Nat.not_lt.2 up, access, one]
    · simp [execRegWr, on, Nat.not_lt.2 up, access, one, fails]
  refine ⟨_, ran, ?_⟩
  obtain ⟨x, counted⟩ := accessFails_only s w bus
  rw [counted]
  by_cases one : st = 1 <;> simp [one]

end

/-- A word masked by all of its bits. -/
theorem land_word {n : Nat} (small : n < 2 ^ 32) : Nat.land n (2 ^ 32 - 1) = n :=
  (Nat.and_two_pow_sub_one_eq_mod n 32).trans (Nat.mod_eq_of_lt small)

/-- The registers that are one RW word without a place of its own and without a range (R523, R532). -/
structure PlainWord (a : Nat) : Prop where
  low : a < 0x100000
  aligned : a % 4 = 0
  word : ∃ noAlias, regDef a = some { rw := [(31, 0)], noAlias := noAlias }
  inRange : ∀ v, fieldOk a 0 v = true
  ordinary : pendReg a = false
  stored : ∀ s m w, storeReg s a m w = wrReg s a ((rd s a - Nat.land (rd s a) m) + Nat.land w m)

/-- A host write of such a register stores its word and nothing else. -/
theorem PlainWord.exec_regWr {a : Nat} (h : PlainWord a) {s : State} (reach : Reaches s a) (w : Word32) (old : rd s a < 2 ^ 32) :
    exec (.regWr a [w]) s = .next { s with regs := tabSet s.regs a w.toNat } := by
  have mask : fieldMask [(31, 0)] = 2 ^ 32 - 1 := by decide
  obtain ⟨noAlias, implemented⟩ := h.word
  rw [exec_regWr_register w reach h.low h.aligned implemented rfl]
  have fields : goodFields a w.toNat [(31, 0)] = ([(31, 0)], false) := by simp [goodFields, h.inRange]
  have single : bitList (Nat.land w.toNat 0) = [] := by rw [show Nat.land w.toNat 0 = 0 from Nat.and_zero _]; decide
  simp only [writeReg, fields, Bool.false_eq_true, if_false, single]
  simp only [hostStore, mask, h.ordinary, h.stored, land_word old, land_word w.isLt, wrReg]
  simp

/-- Settles O18: an access that R522 lets through acts (`exec_regRd_ok`, `exec_regWr_ok`), another is counted or refused
(`regRd_fails`, `regWr_fails`), and a plain RW word is stored (`PlainWord.exec_regWr`). -/
theorem hostAccesses : Obligations.HostAccesses := by
  refine fun s on up => ⟨exec_regRd_ok on up, regRd_fails on up, exec_regWr_ok on up, regWr_fails on up, ?plain⟩
  case plain =>
    intro a w mem ok old
    refine PlainWord.exec_regWr ?_ ⟨on, up, ok⟩ w old
    fin_cases mem <;> exact ⟨by decide, by decide, ⟨_, rfl⟩, fun _ => rfl, rfl, fun _ _ _ => rfl⟩

end Sys2Proof.Machine

/-!
The Ledger family: what its commands leave alone, the four commands, recalls, dead holders and regions.
-/

namespace Sys2Proof.Machine

/-! ### What the rows of the Ledger leave alone (R406, R411, R414, R415, R417, R418, R423) -/

/-- `t` has the registers, the time base, the memory, the prefix units, the keys, the firmware store, the package, the Halo and the
state of the link of `s`. -/
structure LedgerAside (s t : State) : Prop where
  regs : t.regs = s.regs
  time : t.time = s.time
  mem : t.mem = s.mem
  pfx : t.pfx = s.pfx
  trust : t.trust = s.trust
  boot : t.boot = s.boot
  pack : t.pack = s.pack
  snap : t.snap = s.snap
  running : t.running = s.running
  linkState : t.link.state = s.link.state

theorem Aside.ledgerAside {wide : Bool} {s t : State} (aside : Aside wide s t) : LedgerAside s t :=
  ⟨aside.regs, aside.time, aside.mem, aside.pfx, aside.trust, aside.boot, aside.pack, aside.snap, aside.running, aside.linkState⟩

/-- A host access whose effect leaves these parts alone leaves them alone however it ends. -/
theorem regEnter_ledgerAside {s : State} (a : Nat) {f : State → State} (acts : LedgerAside s (f s)) :
    LedgerAside s (regEnter s a f) := by
  have same : LedgerAside s s := ⟨rfl, rfl, rfl, rfl, rfl, rfl, rfl, rfl, rfl, rfl⟩
  unfold regEnter
  split
  · split
    · exact acts
    · exact ⟨rfl, rfl, rfl, rfl, rfl, rfl, rfl, rfl, rfl, rfl⟩
    · exact same
  · exact same

/-- The region, its waits, recalls and buffered lines are gone. -/
def regionGone (s : State) (r : Nat) : State :=
  { s with ledger := { s.ledger with
    regions := tabDel s.ledger.regions r, refused := s.ledger.refused.filter (· != r),
    waits := s.ledger.waits.filter fun w => w.region != r, recalls := s.ledger.recalls.filter fun x => x.region != r,
    lineBuf := s.ledger.lineBuf.filter fun x => x.1 != r } }

theorem deleteRegion_eq (s : State) (r : Nat) : deleteRegion s r =
    foldState (fun s w => complete s w.cmd { status := .noState }) (regionGone s r)
      (s.ledger.waits.filter fun w => w.region == r) := rfl

/-- The answers to the waiting commands leave what answering leaves. -/
theorem deleteRegion_answers (s : State) (r : Nat) : Aside false (regionGone s r) (deleteRegion s r) := by
  rw [deleteRegion_eq]
  exact foldState_aside (fun _ _ aside => complete_aside aside) (Aside.refl false _)

theorem deleteRegion_ledgerAside (s : State) (r : Nat) : LedgerAside s (deleteRegion s r) := by
  obtain ⟨h1, h2, h3, h4, h5, h6, h7, h8, h9, h10⟩ := (deleteRegion_answers s r).ledgerAside
  exact ⟨h1, h2, h3, h4, h5, h6, h7, h8, h9, h10⟩

/-- The rows of the Ledger. -/
def LedgerRow (i : Instr) : Prop :=
  (∃ c bad, i = .ledgerRead c bad) ∨ (∃ c, i = .ledgerWrite c) ∨ (∃ c, i = .ledgerRelease c) ∨ (∃ c, i = .ledgerPublish c) ∨
    (∃ src id data, i = .recallAnswer src id data) ∨ (∃ id, i = .recallTimeout id) ∨ i = .ldgDeclareDead ∨ i = .lregDelete

theorem LedgerRow.aside {s t : State} {i : Instr} (row : LedgerRow i) (e : exec i s = .next t) : LedgerAside s t := by
  have same := Aside.refl true s
  rcases row with ⟨c, bad, rfl⟩ | ⟨c, rfl⟩ | ⟨c, rfl⟩ | ⟨c, rfl⟩ | ⟨src, id, data, rfl⟩ | ⟨id, rfl⟩ | rfl | rfl
  · exact (execLedgerRead_aside same e).ledgerAside
  · exact (execLedgerWrite_aside same e).ledgerAside
  · exact (execLedgerRelease_aside same e).ledgerAside
  · exact (execLedgerPublish_aside same e).ledgerAside
  · exact (execRecallAnswer_aside same e).ledgerAside
  · exact (execRecallTimeout_aside same e).ledgerAside
  · cases e
    exact regEnter_ledgerAside _ (ldgDeclareDead_aside same).ledgerAside
  · cases e
    exact regEnter_ledgerAside _ (deleteRegion_ledgerAside s _)

/-- No row of the Ledger may end a fence (`allowOf`). -/
theorem LedgerRow.keeps_fence {i : Instr} (row : LedgerRow i) : (allowOf i).fence = false := by
  rcases row with ⟨c, bad, rfl⟩ | ⟨c, rfl⟩ | ⟨c, rfl⟩ | ⟨c, rfl⟩ | ⟨src, id, data, rfl⟩ | ⟨id, rfl⟩ | rfl | rfl <;> rfl

/-- Settles O36: each row leaves these parts aside (`LedgerRow.aside`), and has no permission to end a fence (`exec_kept`). -/
theorem ledgerFrame : Obligations.LedgerFrame := by
  intro s t i row e
  obtain ⟨regs, time, mem, pfx, trust, boot, pack, snap, running, linkState⟩ := LedgerRow.aside row e
  exact ⟨regs, time, mem, pfx, trust, boot, pack, snap, running, linkState, (exec_kept e).fenced (LedgerRow.keeps_fence row)⟩

/-! ### The checks of a Ledger command (R408) -/

theorem ledgerRefusal_none {s : State} {c : Command} {r first count : Nat} {kindOk : LedRegion → Bool} {g : LedRegion}
    (there : regionOf s r = some g) (mine : g.tenant = c.tenant ∨ (c.viaLink = true ∧ c.mgmt = true))
    (fits : first + count ≤ g.size) (kind : kindOk g = true) : ledgerRefusal s c r first count kindOk = none := by
  have open_ : ¬ (c.tenant ≠ g.tenant ∧ ¬ (c.viaLink = true ∧ c.mgmt = true)) := by
    rintro ⟨other, notHost⟩
    exact mine.elim (fun same => other same.symm) notHost
  simp only [ledgerRefusal, there]
  rw [if_neg]
  rintro (h | h | h)
  · exact open_ h
  · omega
  · exact h kind

section
variable {s : State} {c : Command} {r first count : Nat} (live : isLive s c = true)
include live

section
variable {st : Status}

theorem exec_ledgerRead_refused {grant : Nat} (bad : List Nat) (body : c.desc.body = .ledgerRead grant r count first)
    (refused : ledgerRefusal s c r first count (fun g => grant == 0 || !g.published) = some st) :
    exec (.ledgerRead c bad) s = .next (complete s c { status := st }) := by
  show execLedgerRead c bad s = _
  simp [execLedgerRead, live, body, refused]

theorem exec_ledgerWrite_refused {keep : Nat} (body : c.desc.body = .ledgerWrite keep r count first)
    (refused : ledgerRefusal s c r first count (fun g => !g.published) = some st) :
    exec (.ledgerWrite c) s = .next (complete s c { status := st }) := by
  show execLedgerWrite c s = _
  simp [execLedgerWrite, live, body, refused]

theorem exec_ledgerRelease_refused (body : c.desc.body = .ledgerRelease r count first)
    (refused : ledgerRefusal s c r first count (fun g => !g.published) = some st) :
    exec (.ledgerRelease c) s = .next (complete s c { status := st }) := by
  show execLedgerRelease c s = _
  simp [execLedgerRelease, live, body, refused]

theorem exec_ledgerPublish_refused {expect : Nat} (body : c.desc.body = .ledgerPublish r expect)
    (refused : ledgerRefusal s c r 0 0 (fun g => g.published && c.payload.length == g.size * 64) = some st) :
    exec (.ledgerPublish c) s = .next (complete s c { status := st }) := by
  show execLedgerPublish c s = _
  simp [execLedgerPublish, live, body, refused]

end

/-! ### The four commands -/

section
variable {g : LedRegion} (there : regionOf s r = some g) (mine : g.tenant = c.tenant ∨ (c.viaLink = true ∧ c.mgmt = true))
include there mine

section Read
variable {grant : Nat} {bad : List Nat} {s0 : State} (body : c.desc.body = .ledgerRead grant r count first)
  (fits : first + count ≤ g.size) (kind : grant = 0 ∨ g.published = false)
  (poisoned : s0 = poisonLines s r (bad.filter fun i => decide (first ≤ i) && decide (i < first + count)))
include fits kind

omit live in
theorem ledgerRead_admitted : ledgerRefusal s c r first count (fun g => grant == 0 || !g.published) = none :=
  ledgerRefusal_none there mine fits (by rcases kind with h | h <;> simp [h])

include body

include poisoned in
theorem exec_ledgerRead_plain (plain : grant = 0) : exec (.ledgerRead c bad) s = .next (completeRead s0 c r first count false) := by
  have admitted := ledgerRead_admitted there mine fits kind
  subst plain poisoned
  show execLedgerRead c bad s = _
  simp only [execLedgerRead, live, body, admitted]
  simp

include poisoned in
theorem exec_ledgerRead_waits (asks : grant ≠ 0) (room : ∀ k < count, waitersOn s r (first + k) < 64) :
    exec (.ledgerRead c bad) s = .next (serveLedger { modLive s0 (cmdKey c) (fun l => { l with executed := true }) with
      ledger := { s0.ledger with waits := s0.ledger.waits ++ [⟨c, r, first, count, grant⟩] } }) := by
  have admitted := ledgerRead_admitted there mine fits kind
  have notFull : ((List.range count).any fun k => decide (64 ≤ waitersOn s r (first + k))) = false := by
    simpa using room
  subst poisoned
  show execLedgerRead c bad s = _
  simp only [execLedgerRead, live, body, admitted, asks, notFull]
  rfl

theorem exec_ledgerRead_busy (asks : grant ≠ 0) (full : ∃ k < count, 64 ≤ waitersOn s r (first + k)) :
    exec (.ledgerRead c bad) s = .next (complete s c { status := .busyRetry }) := by
  have admitted := ledgerRead_admitted there mine fits kind
  have isFull : ((List.range count).any fun k => decide (64 ≤ waitersOn s r (first + k))) = true := by
    simpa using full
  show execLedgerRead c bad s = _
  simp only [execLedgerRead, live, body, admitted, asks, isFull]
  rfl

end Read

omit live mine in
/-- A read of one line without a grant (R411). -/
theorem completeRead_one {l : LedLine} (line : l = lineOf g first) (kind : g.published = false) :
    completeRead s c r first 1 false =
      complete (modLine (touchLine s r first) r first fun l => { l with lost := false }) c
        { status := if l.poison then .poison else if l.lost then .lostUpdate else .ok
          data := lineHeader l.version l.lost (l.holder.any fun h => h.1 != c.src) 0 l.poison false ++
            (if l.poison then le 64 0 else lineBytes l)
          value := g.version } := by
  subst line
  cases holder : (lineOf g first).holder <;> simp [completeRead, there, returnLine, kind, holder]

section Write
variable {keep : Nat} (body : c.desc.body = .ledgerWrite keep r count first) (fits : first + count ≤ g.size)
  (kind : g.published = false)
include body fits kind

theorem exec_ledgerWrite_new (new : ∀ k < count, (lineOf g (first + k)).lastCommit ≠ some (cmdKey c)) :
    exec (.ledgerWrite c) s = .next (serveLedger (complete (writeLines s c r keep first count).1 c
      { status := if (writeLines s c r keep first count).2.2 then .lostUpdate else .ok
        data := (writeLines s c r keep first count).2.1 })) := by
  have admitted := ledgerRefusal_none (kindOk := fun g => !g.published) there mine fits (by simp [kind])
  have fresh : ((List.range count).any fun k => (lineOf g (first + k)).lastCommit == some (cmdKey c)) = false := by
    simpa using new
  show execLedgerWrite c s = _
  simp only [execLedgerWrite, live, body, admitted, there, fresh]
  rfl

theorem exec_ledgerWrite_dup (done : ∃ k < count, (lineOf g (first + k)).lastCommit = some (cmdKey c)) :
    exec (.ledgerWrite c) s = .next (ledgerDup s c) := by
  have admitted := ledgerRefusal_none (kindOk := fun g => !g.published) there mine fits (by simp [kind])
  have repeated : ((List.range count).any fun k => (lineOf g (first + k)).lastCommit == some (cmdKey c)) = true := by
    simpa using done
  show execLedgerWrite c s = _
  simp only [execLedgerWrite, live, body, admitted, there, repeated]
  rfl

end Write

theorem exec_ledgerRelease_ends (body : c.desc.body = .ledgerRelease r count first) (fits : first + count ≤ g.size)
    (kind : g.published = false) : exec (.ledgerRelease c) s = .next (serveLedger (complete
      (foldState (fun s k => dropGrant s r (first + k) c.src) s (List.range count)) c { status := .ok })) := by
  have admitted := ledgerRefusal_none (kindOk := fun g => !g.published) there mine fits (by simp [kind])
  show execLedgerRelease c s = _
  simp only [execLedgerRelease, live, body, admitted]
  rfl

section Publish
variable {expect : Nat} (body : c.desc.body = .ledgerPublish r expect) (kind : g.published = true)
  (whole : c.payload.length = g.size * 64)
include kind whole

omit live in
theorem ledgerPublish_admitted :
    ledgerRefusal s c r 0 0 (fun g => g.published && c.payload.length == g.size * 64) = none :=
  ledgerRefusal_none there mine (Nat.zero_le _) (by simp [kind, whole])

include body

theorem exec_ledgerPublish_writes (new : g.lastPub ≠ some (cmdKey c)) (same : expect = g.version) :
    exec (.ledgerPublish c) s = .next (complete (modRegion s r fun g =>
      { g with copies := tabSet g.copies (1 - g.current) c.payload, current := 1 - g.current, version := g.version + 1,
               pubPoison := [], lastPub := some (cmdKey c) }) c { status := .ok, value := g.version + 1 }) := by
  have admitted := ledgerPublish_admitted there mine kind whole
  show execLedgerPublish c s = _
  simp only [execLedgerPublish, live, body, admitted, there, new, same]
  rfl

theorem exec_ledgerPublish_conflict (new : g.lastPub ≠ some (cmdKey c)) (other : expect ≠ g.version) :
    exec (.ledgerPublish c) s = .next (complete { s with ledger := { s.ledger with conflicts := s.ledger.conflicts + 1 } } c
      { status := .conflict, value := g.version }) := by
  have admitted := ledgerPublish_admitted there mine kind whole
  show execLedgerPublish c s = _
  simp only [execLedgerPublish, live, body, admitted, there, new, other]
  rfl

theorem exec_ledgerPublish_dup (done : g.lastPub = some (cmdKey c)) : exec (.ledgerPublish c) s = .next (ledgerDup s c) := by
  have admitted := ledgerPublish_admitted there mine kind whole
  show execLedgerPublish c s = _
  simp only [execLedgerPublish, live, body, admitted, there, done]
  rfl

end Publish

end

end

/-! ### One line of a LEDGER_WRITE (R417) -/

/-- The contents and the versions of line `i` and of its region stand: only grants have changed. -/
structure LineStands (i : Nat) (g g' : LedRegion) : Prop where
  version : g'.version = g.version
  content : (lineOf g' i).content = (lineOf g i).content
  lineVersion : (lineOf g' i).version = (lineOf g i).version
  poison : (lineOf g' i).poison = (lineOf g i).poison

theorem LineStands.refl (i : Nat) (g : LedRegion) : LineStands i g g := ⟨rfl, rfl, rfl, rfl⟩

theorem LineStands.trans {i : Nat} {g h k : LedRegion} (first : LineStands i g h) (second : LineStands i h k) : LineStands i g k :=
  ⟨second.version.trans first.version, second.content.trans first.content, second.lineVersion.trans first.lineVersion,
    second.poison.trans first.poison⟩

/-- A region with one line changed. -/
def withLine (g : LedRegion) (i : Nat) (f : LedLine → LedLine) : LedRegion := { g with lines := tabModD g.lines i {} f }

theorem lineOf_withLine (g : LedRegion) (i : Nat) (f : LedLine → LedLine) (j : Nat) :
    lineOf (withLine g i f) j = if j = i then f (lineOf g i) else lineOf g j := tabGetD_tabModD _ _ _ _ _

theorem regionOf_modLine (s : State) (r i : Nat) (f : LedLine → LedLine) (k : Nat) :
    regionOf (modLine s r i f) k = if k = r then (regionOf s r).map (withLine · i f) else regionOf s k :=
  regionOf_modRegion s r _ k

/-- A change of the grants of a line. -/
def GrantsOnly (f : LedLine → LedLine) : Prop :=
  ∀ l, (f l).content = l.content ∧ (f l).version = l.version ∧ (f l).poison = l.poison

theorem withLine_stands {f : LedLine → LedLine} (grants : GrantsOnly f) (g : LedRegion) (i j : Nat) : LineStands j g (withLine g i f) := by
  obtain ⟨content, version, poison⟩ := grants (lineOf g i)
  by_cases same : j = i
  · subst same
    exact ⟨rfl, by rw [lineOf_withLine, if_pos rfl, content], by rw [lineOf_withLine, if_pos rfl, version],
      by rw [lineOf_withLine, if_pos rfl, poison]⟩
  · exact ⟨rfl, by rw [lineOf_withLine, if_neg same], by rw [lineOf_withLine, if_neg same], by rw [lineOf_withLine, if_neg same]⟩

theorem modLine_stands {s : State} {r : Nat} {g : LedRegion} (there : regionOf s r = some g) {f : LedLine → LedLine}
    (grants : GrantsOnly f) (k i j : Nat) : ∃ g', regionOf (modLine s k i f) r = some g' ∧ LineStands j g g' := by
  rw [regionOf_modLine]
  by_cases same : r = k
  · subst same
    exact ⟨withLine g i f, by rw [if_pos rfl, there]; rfl, withLine_stands grants g i j⟩
  · exact ⟨g, by rw [if_neg same, there], .refl j g⟩

/-- The end of a recall changes grants only (R414). -/
theorem endRecall_stands {s : State} {r : Nat} {g : LedRegion} (there : regionOf s r = some g) (x : Recall) (j : Nat) :
    ∃ g', regionOf (endRecall s x) r = some g' ∧ LineStands j g g' :=
  modLine_stands (s := { s with ledger := { s.ledger with recalls := s.ledger.recalls.filter fun y => y.reqId != x.reqId } })
    there (fun l => by split <;> exact ⟨rfl, rfl, rfl⟩) _ _ _

theorem finishRecall_stands {s : State} {r : Nat} {g : LedRegion} (there : regionOf s r = some g) (i : Nat) (src : Endpoint) (j : Nat) :
    ∃ g', regionOf (finishRecall s r i src) r = some g' ∧ LineStands j g g' := by
  unfold finishRecall
  split
  · exact endRecall_stands there _ j
  · exact ⟨g, there, .refl j g⟩

/-- A line with committed content (R414). -/
def committedLine (bytes : List Byte) (by_ : Option CmdKey) (l : LedLine) : LedLine :=
  { l with content := bytes, version := l.version + 1, poison := false, lastCommit := by_ }

/-- A commit writes the line and adds one to both versions (R414). -/
theorem commitLine_commits {s : State} {r : Nat} {g : LedRegion} (there : regionOf s r = some g) (i : Nat) (bytes : List Byte)
    (by_ : Option CmdKey) : ∃ g', regionOf (commitLine s r i bytes by_) r = some g' ∧ g'.version = g.version + 1 ∧
      (lineOf g' i).content = bytes ∧ (lineOf g' i).version = (lineOf g i).version + 1 ∧ (lineOf g' i).poison = false := by
  have line : lineOf (withLine g i (committedLine bytes by_)) i = committedLine bytes by_ (lineOf g i) := by
    rw [lineOf_withLine, if_pos rfl]
  refine ⟨{ withLine g i (committedLine bytes by_) with version := g.version + 1 }, ?_, rfl, congrArg LedLine.content line,
    congrArg LedLine.version line, congrArg LedLine.poison line⟩
  simp only [commitLine, regionOf_modRegion, regionOf_modLine, if_true, there]
  rfl

section
variable {s : State} {c : Command} {r : Nat} {g : LedRegion} (there : regionOf s r = some g) {i keep version : Nat} {bytes : List Byte}
include there

theorem writeLine_held (held : (lineOf g i).holder = some (c.src, version)) :
    (writeLine s c r i keep version bytes).2.2 = false ∧ ∃ g' : LedRegion, regionOf (writeLine s c r i keep version bytes).1 r = some g' ∧
      g'.version = g.version + 1 ∧ (lineOf g' i).content = bytes ∧ (lineOf g' i).version = (lineOf g i).version + 1 ∧
      (lineOf g' i).poison = false := by
  obtain ⟨g1, at1, version1, content1, lineVersion1, poison1⟩ := commitLine_commits there i bytes (some (cmdKey c))
  have grants : GrantsOnly fun l => if keep = 2 then { l with holder := some (c.src, l.version) }
      else { l with holder := none, sharers := if keep = 1 then [c.src] else [] } := fun l => by
    dsimp only
    split <;> exact ⟨rfl, rfl, rfl⟩
  obtain ⟨g2, at2, stands2⟩ := modLine_stands at1 grants r i i
  obtain ⟨g3, at3, stands3⟩ := finishRecall_stands at2 i c.src i
  have stands := stands2.trans stands3
  simp only [writeLine, there, held, if_true]
  exact ⟨trivial, g3, at3, stands.version.trans version1, stands.content.trans content1, stands.lineVersion.trans lineVersion1,
    stands.poison.trans poison1⟩

theorem writeLine_discarded (other : (lineOf g i).holder ≠ some (c.src, version)) :
    (writeLine s c r i keep version bytes).2.2 = true ∧ (writeLine s c r i keep version bytes).1 = s := by
  simp [writeLine, there, other]

end

/-- Settles O34: each clause is the rule of its command above. -/
theorem ledgerCommands : Obligations.LedgerCommands := by
  refine fun s c r first count live => ⟨fun g there mine => ⟨?read, fun l line kind => completeRead_one there line kind, ?write, ?line,
    exec_ledgerRelease_ends live there mine, ?publish⟩, fun st bad => ⟨fun _ => exec_ledgerRead_refused live bad,
    fun _ => exec_ledgerWrite_refused live, exec_ledgerRelease_refused live, fun _ => exec_ledgerPublish_refused live⟩⟩
  case read =>
    exact fun grant bad s0 body fits kind poisoned => ⟨exec_ledgerRead_plain live there mine body fits kind poisoned,
      exec_ledgerRead_waits live there mine body fits kind poisoned, exec_ledgerRead_busy live there mine body fits kind⟩
  case write =>
    exact fun keep body fits kind => ⟨exec_ledgerWrite_new live there mine body fits kind,
      exec_ledgerWrite_dup live there mine body fits kind⟩
  case line =>
    rintro i keep version bytes w rfl
    exact ⟨writeLine_held there, writeLine_discarded there⟩
  case publish =>
    exact fun expect body kind whole => ⟨exec_ledgerPublish_writes live there mine body kind whole,
      exec_ledgerPublish_conflict live there mine body kind whole, exec_ledgerPublish_dup live there mine body kind whole⟩

/-! ### Recalls and dead holders (R414, R415, R416, R419, R422) -/

section
variable {s : State} (on : s.running = true)
include on

theorem exec_recallAnswer_repeated {src : Endpoint} {id : Nat} (data : List Byte)
    (none_ : ∀ x ∈ s.ledger.recalls, x.reqId = id → x.holder ≠ src) : exec (.recallAnswer src id data) s =
      .next { s with ledger := { s.ledger with repeats := s.ledger.repeats + 1 } } := by
  have unmatched : s.ledger.recalls.find? (fun x => x.reqId == id && x.holder == src) = none := by
    simpa using none_
  show execRecallAnswer src id data s = _
  simp only [execRecallAnswer, whileRunning_on on, unmatched]

section
variable {x : Recall} (data : List Byte)
  (matched : s.ledger.recalls.find? (fun y => y.reqId == x.reqId && y.holder == x.holder) = some x)
include matched

theorem exec_recallAnswer_fenced (fenced : s.fault.fenced = true) : exec (.recallAnswer x.holder x.reqId data) s = .next s := by
  show execRecallAnswer x.holder x.reqId data s = _
  simp only [execRecallAnswer, whileRunning_on on, matched, fenced, if_true]

theorem exec_recallAnswer_ends (open_ : s.fault.fenced = false) : exec (.recallAnswer x.holder x.reqId data) s =
    .next (serveLedger (endRecall
      (if (regionOf s x.region).any (fun g => (lineOf g x.line).holder == some (x.holder, x.version)) && data.length == 64 then
        commitLine s x.region x.line data none else s) x)) := by
  show execRecallAnswer x.holder x.reqId data s = _
  simp only [execRecallAnswer, whileRunning_on on, matched, open_, Bool.false_eq_true, if_false]
  cases regionOf s x.region <;> rfl

end

theorem exec_recallTimeout {x : Recall} (waits : s.ledger.recalls.find? (fun y => y.reqId == x.reqId) = some x)
    (due : x.since + 2000 ≤ now s) :
    exec (.recallTimeout x.reqId) s = .next (if s.fault.fenced then s else holderDead s x.holder) := by
  show execRecallTimeout x.reqId s = _
  simp only [execRecallTimeout, whileRunning_on on, waits, elapsed, due, decide_true, Bool.true_and]
  cases s.fault.fenced <;> rfl

end

theorem exec_ldgDeclareDead {s : State} {e : Endpoint} (reach : Reaches s 0x3011C) (named : endpointOf (fld s 0x30118 15 0) = some e) :
    exec .ldgDeclareDead s = .next (if s.fault.fenced then s else holderDead s e) := by
  show execLdgDeclareDead s = _
  rw [execLdgDeclareDead, regEnter_reaches reach]
  simp only [ldgDeclareDead, named]

/-! ### Regions (R407, R423, R426) -/

/-- A bit of a register is 0 or 1. -/
theorem fld_bit (s : State) (a b : Nat) : fld s a b b < 2 := by
  have width : b + 1 - b = 1 := by omega
  rw [fld, bitsOf, width]
  exact Nat.mod_lt _ (by decide)

/-- A PUBLISHED region takes two lines for each of its own (R407). -/
theorem regionLines_eq (g : LedRegion) {b : Nat} (bit : b < 2) (pub : g.published = (b == 1)) : regionLines g = (1 + b) * g.size := by
  interval_cases b <;> simp [regionLines, pub]

/-- The region that LREG_CREATE makes of the registers, at its base (R407, R426). -/
def createdRegion (s : State) (n base : Nat) : LedRegion :=
  { published := fld s 0x30124 13 13 == 1, tenant := fld s 0x30124 25 14, size := n, base := base }

theorem createdRegion_lines (s : State) (n base : Nat) :
    regionLines (createdRegion s n base) = (1 + fld s 0x30124 13 13) * n := regionLines_eq _ (fld_bit s 0x30124 13) rfl

theorem lregCreate_gives {s : State} {r n base : Nat} (reach : Reaches s 0x30128) (named : r = fld s 0x30120 15 0)
    (size : n = fld s 0x30124 12 0) (absent : regionOf s r = none) (some_ : 0 < n) (small : n ≤ 4096)
    (lowest : base = fitLines ((1 + fld s 0x30124 13 13) * n) (usedLines s) 0)
    (fits : base + (1 + fld s 0x30124 13 13) * n ≤ fld s 0x30100 24 0) : Gives .lregCreate s fun t =>
      regionOf t r = some (createdRegion s n base) ∧ (∀ k : Nat, k ≠ r → regionOf t k = regionOf s k) ∧
      { t with ledger := s.ledger } = s := by
  have lines := createdRegion_lines s n 0
  have free : ¬ ((regionOf s r).isSome = true ∨ n = 0 ∨ 4096 < n ∨
      fld s 0x30100 24 0 < base + regionLines (createdRegion s n 0)) := by
    rw [lines, absent]
    simp only [Option.isSome_none, Bool.false_eq_true, false_or]
    omega
  refine ⟨{ s with ledger := { s.ledger with regions := tabSet s.ledger.regions r (createdRegion s n base),
                                             refused := s.ledger.refused.filter (· != r) } }, ?_, ?_, fun k other => ?_, rfl⟩
  · show execLregCreate s = _
    rw [execLregCreate, regEnter_reaches reach]
    rw [← lines] at lowest
    simp only [createdRegion] at lowest free
    simp only [lregCreate, ← named, ← size]
    rw [← lowest, if_neg free]
    rfl
  · simp only [regionOf, tabGet_tabSet, if_true]
  · simp only [regionOf, tabGet_tabSet, if_neg other]

theorem regionOf_deleteRegion (s : State) (r k : Nat) : regionOf (deleteRegion s r) k = if k = r then none else regionOf s k := by
  have same : (deleteRegion s r).ledger = (regionGone s r).ledger := (deleteRegion_answers s r).ledger rfl
  simp only [regionOf, same, regionGone, tabGet_tabDel]

theorem lregDelete_gives {s : State} {r : Nat} (reach : Reaches s 0x30128) (named : r = fld s 0x30120 15 0) :
    Gives .lregDelete s fun t => regionOf t r = none ∧ (∀ k : Nat, k ≠ r → regionOf t k = regionOf s k) := by
  refine ⟨deleteRegion s r, ?_, by rw [regionOf_deleteRegion, if_pos rfl], fun k other => by rw [regionOf_deleteRegion, if_neg other]⟩
  show execLregDelete s = _
  rw [execLregDelete, regEnter_reaches reach, named]

/-- Settles O35: each clause is the rule of its command above. -/
theorem ledgerRecalls : Obligations.LedgerRecalls := fun _ on =>
  ⟨fun _ _ data => exec_recallAnswer_repeated on data,
    fun _ data matched => ⟨exec_recallAnswer_fenced on data matched, exec_recallAnswer_ends on data matched⟩,
    fun _ => exec_recallTimeout on, fun _ => exec_ldgDeclareDead, fun _ _ _ => lregCreate_gives, fun _ => lregDelete_gives⟩

end Sys2Proof.Machine

/-!
What leaves the installed map and its lease alone (R325 to R330): the operations that answer commands, release memory, end jobs, and
follow a map.
-/

namespace Sys2Proof.Machine

/-! ### What leaves the installed map, the lease and the time alone (R325 to R330) -/

/-- The installed map, the last epoch installed, when the lease began, and the time. -/
def State.lease (s : State) : Option FMap × Nat × Option Nat × TimeSt := (s.comp.map, s.comp.lastEpoch, s.comp.leaseSince, s.time)

theorem lease_congr {s t : State} (comp : t.comp = s.comp) (time : t.time = s.time) : t.lease = s.lease := by
  simp only [State.lease, comp, time]

theorem foldState_lease {α : Type} {f : State → α → State} (keeps : ∀ t a, (f t a).lease = t.lease) (s : State) (l : List α) :
    (foldState f s l).lease = s.lease := foldState_keeps State.lease keeps l s

theorem iter_lease {f : State → State} (keeps : ∀ t, (f t).lease = t.lease) : ∀ (n : Nat) (s : State), (iter f n s).lease = s.lease
  | 0, _ => rfl
  | n + 1, s => (iter_lease keeps n (f s)).trans (keeps s)

@[simp] theorem sendControl_lease (s : State) (e : Endpoint) (bytes : List Byte) : (sendControl s e bytes).lease = s.lease :=
  lease_congr (sendControl_answ (.refl s)).comp (sendControl_aside (.refl true s)).time

@[simp] theorem sendMsg_lease (s : State) (a : AssocKey) (cls : MsgClass) (egress : Nat) (arrival : Option (Nat × Nat))
    (bytes : List Byte) : (sendMsg s a cls egress arrival bytes).lease = s.lease :=
  lease_congr (sendMsg_answ (.refl s)).comp (sendMsg_aside (.refl true s)).time

@[simp] theorem sendChain_lease (s : State) (c : Command) (node epoch : Nat) : (sendChain s c node epoch).lease = s.lease :=
  lease_congr (sendChain_answ (.refl s)).comp (sendChain_aside (.refl true s)).time

@[simp] theorem linkSend_lease (s : State) (t : LinkTx) : (linkSend s t).lease = s.lease :=
  lease_congr (linkSend_answ (.refl s)).comp (linkSend_aside (.refl true s)).time

@[simp] theorem caskNote_lease (s : State) (kind : Nat) (payload : List Byte) : (caskNote s kind payload).lease = s.lease :=
  lease_congr (caskNote_answ (.refl s)).comp (caskNote_aside (.refl true s)).time

@[simp] theorem setLevel_lease (s : State) (n : Nat) (high : Bool) (unit : UnitRef) : (setLevel s n high unit).lease = s.lease := by
  obtain ⟨x, e⟩ := setLevel_only_fault s n high unit
  rw [e]
  rfl

@[simp] theorem answerOne_lease (s : State) (c : Command) (r : Reply) : (answerOne s c r).lease = s.lease :=
  lease_congr (answerOne_answ s c r).comp (answerOne_aside (.refl true s)).time

@[simp] theorem noteInternal_lease (s : State) (opcode src reqId kind unit detail : Nat) :
    (noteInternal s opcode src reqId kind unit detail).lease = s.lease :=
  lease_congr (noteInternal_answ (.refl s)).comp (noteInternal_aside (.refl true s)).time

@[simp] theorem settle_lease (s : State) (c : Command) (st : Status) : (settle s c st).lease = s.lease := by
  unfold settle
  split <;> rfl

theorem ended_lease (s : State) (c : Command) (st : Status) : (ended s c st).lease = s.lease := by
  unfold ended
  split
  · exact (settle_lease _ c st).trans (noteInternal_lease _ _ _ _ _ _ _)
  · exact settle_lease _ c st

@[simp] theorem completeOne_lease (s : State) (c : Command) (r : Reply) : (completeOne s c r).lease = s.lease := by
  by_cases held : (c.chainedFrom.isSome && (r.status == .noPage || r.status == .busyRetry)) = true
  · simp only [completeOne, held, if_true]
    rfl
  · have goes := Bool.eq_false_of_not_eq_true held
    cases source : c.chainedFrom with
    | none => rw [completeOne_own s source, answerOne_lease, ended_lease]
    | some p => rw [completeOne_chained s goes source, sendControl_lease, ended_lease]

@[simp] theorem releaseQwaits_lease (s : State) : (releaseQwaits s).lease = s.lease := by
  refine iter_lease (fun t => ?_) _ s
  unfold releaseQwait
  split
  · rfl
  · exact completeOne_lease _ _ _

@[simp] theorem complete_lease (s : State) (c : Command) (r : Reply) : (complete s c r).lease = s.lease := by
  rw [complete, releaseQwaits_lease, completeOne_lease]

theorem turnAway_lease (s : State) (st : Status) (c : Command) : (turnAway st s c).lease = s.lease := by
  unfold turnAway
  split
  · rfl
  · rw [answer, releaseQwaits_lease, answerOne_lease]

theorem discardChained_lease (s : State) : (discardChained s).lease = s.lease :=
  foldState_lease (f := fun s c => dropOutcome (dropLive s (cmdKey c)) (cmdKey c)) (fun _ _ => rfl) s _

@[simp] theorem fenceNode_lease (s : State) (cause source : Nat) : (fenceNode s cause source).lease = s.lease := by
  unfold fenceNode
  split
  · rfl
  · rw [discardChained_lease, foldState_lease (fun t c => complete_lease t c _)]
    refine (foldState_lease (fun t c => turnAway_lease t _ c) _ _).trans ?_
    show (setLevel _ 59 true {}).lease = _
    rw [setLevel_lease, caskNote_lease]
    rfl

@[simp] theorem endFence_lease (s : State) : (endFence s).lease = s.lease := setLevel_lease _ 59 false {}

/-! Updates of one part, and the release of frames, slots and sequences. -/

@[simp] theorem lease_withMem (s : State) (m : MemSt) : ({ s with mem := m } : State).lease = s.lease := rfl

@[simp] theorem setFrame_lease (s : State) (lpn : Nat) (f : Frame) : (setFrame s lpn f).lease = s.lease := rfl

@[simp] theorem modFree_lease (s : State) (n : Nat) (f : FreeList → FreeList) : (modFree s n f).lease = s.lease := rfl

@[simp] theorem lpnGive_lease (s : State) (lpn : Nat) : (lpnGive s lpn).lease = s.lease := rfl

@[simp] theorem freeBlocks_lease (s : State) (b : Nat) : (freeBlocks s b).lease = s.lease := rfl

@[simp] theorem setSeq_lease (s : State) (q : SeqId) (x : Seq) : (setSeq s q x).lease = s.lease := rfl

@[simp] theorem modPort_lease (s : State) (p : Nat) (f : CellarPort → CellarPort) : (modPort s p f).lease = s.lease := rfl

@[simp] theorem modPark_lease (s : State) (q : SeqId) (f : ParkJob → ParkJob) : (modPark s q f).lease = s.lease := rfl

@[simp] theorem modSeq_lease (s : State) (q : SeqId) (f : Seq → Seq) : (modSeq s q f).lease = s.lease := by
  unfold modSeq
  split <;> rfl

@[simp] theorem freeExtent_lease (s : State) (l : Loc) : (freeExtent s l).lease = s.lease := by cases l <;> rfl

@[simp] theorem vacate_lease (s : State) (l : Loc) : (vacate s l).lease = s.lease := by cases l <;> rfl

@[simp] theorem dropTransfers_lease (s : State) (lpn : Nat) : (dropTransfers s lpn).lease = s.lease :=
  foldState_lease vacate_lease s _

@[simp] theorem freeFrame_lease (s : State) (lpn : Nat) : (freeFrame s lpn).lease = s.lease := by
  unfold freeFrame
  dsimp only
  repeat' split
  all_goals simp

@[simp] theorem dropOldExts_lease (s : State) (lpn : Nat) : (dropOldExts s lpn).lease = s.lease :=
  foldState_lease (fun t (e : Nat × Loc) => freeExtent_lease t e.2) s _

@[simp] theorem unpin_lease (s : State) (lpn : Nat) : (unpin s lpn).lease = s.lease := by
  unfold unpin
  dsimp only
  split <;> split <;> simp

@[simp] theorem decRef_lease (s : State) (lpn : Nat) : (decRef s lpn).lease = s.lease := by
  unfold decRef
  dsimp only
  split
  · split
    · simp
    · rfl
  · rfl

@[simp] theorem dropReserve_lease (s : State) (q : SeqId) (t : Nat) : (dropReserve s q t).lease = s.lease := by
  unfold dropReserve
  split
  · rfl
  · split
    · rfl
    · simp

theorem leafFreed_lease (s : State) (b : Nat) :
    (freeBlocks { s with mem := { s.mem with leafs := tabDel s.mem.leafs b } } b).lease = s.lease := rfl

@[simp] theorem releaseContent_lease (s : State) (q : SeqId) : (releaseContent s q).lease = s.lease := by
  unfold releaseContent
  split
  · rfl
  · simp only [modSeq_lease, lease_withMem, freeBlocks_lease]
    rw [foldState_lease (fun t (e : Nat × Nat) => leafFreed_lease t e.2), foldState_lease freeBlocks_lease,
      foldState_lease decRef_lease, foldState_lease (fun t n => dropReserve_lease t q n),
      foldState_lease (fun t (e : Nat × Nat × PageHandle) => decRef_lease t e.2.2.lpn)]

@[simp] theorem removeSeq_lease (s : State) (q : SeqId) : (removeSeq s q).lease = s.lease := releaseContent_lease s q

@[simp] theorem tenantAbsent_lease (s : State) (n : Nat) : (tenantAbsent s n).lease = s.lease := by
  unfold tenantAbsent
  dsimp only
  split
  · exact caskNote_lease s _ _
  · rfl

@[simp] theorem reshape_lease (s : State) (q : SeqId) (heads : List Nat) : (reshape s q heads).lease = s.lease := by
  unfold reshape
  split <;> rfl

@[simp] theorem dropUnassigned_lease (s : State) (q : SeqId) : (dropUnassigned s q).lease = s.lease := by
  unfold dropUnassigned
  split
  · rfl
  · dsimp only
    split
    · rfl
    · split
      · simp
      · rw [reshape_lease, foldState_lease decRef_lease, foldState_lease leafFreed_lease,
          foldState_lease (fun t n => dropReserve_lease t q n),
          foldState_lease (fun t (e : Nat × Nat × PageHandle) => decRef_lease t e.2.2.lpn)]

@[simp] theorem endGrace_lease (s : State) : (endGrace s).lease = s.lease := foldState_lease dropUnassigned_lease s _

/-! The Ledger, and the work of the Cellar. -/

theorem sendRecall_lease (s : State) (r i : Nat) (holder : Endpoint) (downgrade : Bool) (version : Nat) :
    (sendRecall s r i holder downgrade version).lease = s.lease := by
  unfold sendRecall
  split
  · rfl
  · dsimp only
    split
    · exact linkSend_lease _ _
    · exact sendMsg_lease _ _ _ _ _ _

theorem recallFor_lease (s : State) (r i : Nat) (src : Endpoint) (grant : Nat) : (recallFor s r i src grant).lease = s.lease := by
  have holder (t : State) (h : Endpoint) (b : Bool) (v : Nat) : (if h = src then t else sendRecall t r i h b v).lease = t.lease := by
    split
    · rfl
    · exact sendRecall_lease t r i h b v
  unfold recallFor
  split
  · rfl
  · dsimp only
    split
    · rw [foldState_lease fun t h => holder t h false _]
      split
      · exact holder s _ _ _
      · rfl
    · split
      · exact holder s _ _ _
      · rfl

theorem reserveFrom_lease (before : List LedWait) (w : LedWait) : ∀ (fuel : Nat) (s : State) (k : Nat),
    (reserveFrom before w fuel s k).1.lease = s.lease
  | 0, _, _ => rfl
  | fuel + 1, s, k => by
    unfold reserveFrom
    dsimp only
    split
    · rfl
    · split
      · rfl
      · split
        · rfl
        · split
          · exact reserveFrom_lease before w fuel s (k + 1)
          · exact recallFor_lease s _ _ _ _

theorem returnLine_lease (s : State) (r i : Nat) (src : Endpoint) (granted : Nat) : (returnLine s r i src granted).1.lease = s.lease := by
  unfold returnLine
  split
  · rfl
  · dsimp only
    split <;> rfl

theorem foldl_lease {α β : Type} (g : β → State) {f : β → α → β} (keeps : ∀ b x, (g (f b x)).lease = (g b).lease)
    (l : List α) :
    ∀ b : β, (g (l.foldl f b)).lease = (g b).lease := by
  induction l with
  | nil => exact fun _ => rfl
  | cons x l ih => exact fun b => (ih (f b x)).trans (keeps b x)

theorem completeRead_lease (s : State) (c : Command) (r first count : Nat) (grants : Bool) :
    (completeRead s c r first count grants).lease = s.lease := by
  unfold completeRead
  refine (complete_lease _ _ _).trans ((foldl_lease Prod.fst (fun b k => ?_) _ _).trans rfl)
  exact returnLine_lease b.1 _ _ _ _

theorem giveGrant_lease (s : State) (r i : Nat) (src : Endpoint) (grant : Nat) : (giveGrant s r i src grant).lease = s.lease := rfl

theorem serveWaits_lease : ∀ (ws before : List LedWait) (s : State), (serveWaits before ws s).1.lease = s.lease
  | [], _, _ => rfl
  | w :: ws, before, s => by
    unfold serveWaits
    dsimp only
    split
    · rw [serveWaits_lease ws, completeRead_lease, foldState_lease (fun t j => giveGrant_lease t _ _ _ _), reserveFrom_lease]
    · exact (serveWaits_lease ws _ _).trans (reserveFrom_lease _ _ _ _ _)

theorem serveLedger_lease (s : State) : (serveLedger s).lease = s.lease := serveWaits_lease _ _ s

@[simp] theorem holderDead_lease (s : State) (e : Endpoint) : (holderDead s e).lease = s.lease := serveLedger_lease _

@[simp] theorem declareDead_lease (s : State) (e : Endpoint) : (declareDead s e).lease = s.lease := by
  unfold declareDead
  split
  · rfl
  · exact holderDead_lease s e

theorem nodeCommand_lease (s : State) (node : Nat) (q : SeqId) (body : Body) (payload : List Byte) :
    (nodeCommand s node q body payload).lease = s.lease := by
  dsimp only [nodeCommand]
  rw [sendMsg_lease]
  rfl

theorem sendGuest_lease (s : State) (node : Nat) (q : SeqId) (bytes : List Byte) : (sendGuest s node q bytes).2.lease = s.lease := by
  exact foldState_keeps State.lease (fun t _ => nodeCommand_lease t node q _ _) _ s

@[simp] theorem parkRemote_lease (s : State) (q : SeqId) : (parkRemote s q).lease = s.lease := by
  unfold parkRemote
  split
  · split
    · rfl
    · next j x _ _ _ n _ =>
      rcases sent : sendGuest s n q (objectBytes (objectOf q 0 x j.frames)) with ⟨reqs, u⟩
      rw [modPark_lease, ← sendGuest_lease s n q (objectBytes (objectOf q 0 x j.frames)), sent]
  · rfl

@[simp] theorem deallocate_lease (s : State) (p : Nat) : (deallocate s p).lease = s.lease := by
  unfold deallocate
  split <;> rfl

theorem memRead1_lease (s : State) (why : MemWhy) (p : Nat × Nat) : (memRead1 s why p).lease = s.lease :=
  (linkSend_lease _ _).trans rfl

theorem assignLane_lease (cluster : Nat) (encode : Bool) (s : State) : (assignLane cluster encode s).lease = s.lease := by
  unfold assignLane
  dsimp only
  split
  · split
    · rfl
    · exact (foldState_lease (fun t p => memRead1_lease t _ p) _ _).trans rfl
  · rfl

theorem assignLanes_lease (s : State) : (assignLanes s).lease = s.lease :=
  foldState_lease (fun t q => (iter_lease (assignLane_lease q true) _ _).trans (iter_lease (assignLane_lease q false) _ t)) s _

theorem codecEnd_lease (s : State) (id : Nat) : (codecEnd s id).lease = s.lease := (assignLanes_lease _).trans rfl

theorem dropObjTransfers_lease (s : State) (q : SeqId) : (dropObjTransfers s q).lease = s.lease := by
  dsimp only [dropObjTransfers]
  exact foldState_lease (fun t (j : CodecJob) => codecEnd_lease t j.id) s _

theorem dropIo_lease (s : State) (p : IoWhy → Bool) : (dropIo s p).lease = s.lease := rfl

theorem dropHalf_lease (s : State) (q : SeqId) : (dropHalf s q).lease = s.lease := by
  dsimp only [dropHalf]
  refine (foldState_lease (fun t p => ?_) _ _).trans (dropIo_lease s _)
  split
  · rw [deallocate_lease, modPort_lease]
  · rfl

theorem stopJobs_lease (s : State) (q : SeqId) : (stopJobs s q).lease = s.lease := by
  dsimp only [stopJobs]
  rw [dropObjTransfers_lease, dropIo_lease, dropHalf_lease, lease_withMem]

theorem completeKeys_lease (s : State) (ks : List CmdKey) (st : Status) : (completeKeys s ks st).lease = s.lease := by
  refine foldState_lease (fun t k => ?_) s ks
  split
  · exact complete_lease _ _ _
  · rfl

@[simp] theorem endJobs_lease (s : State) (q : SeqId) : (endJobs s q).lease = s.lease :=
  (completeKeys_lease _ _ _).trans (stopJobs_lease s q)

/-! What follows the switch of a map. -/

theorem renewContexts_lease (s : State) (old : Option FMap) (ownNew : Bool) : (renewContexts s old ownNew).lease = s.lease := by
  unfold renewContexts
  dsimp only
  split <;> rfl

theorem markStubs_lease (s : State) : (markStubs s).lease = s.lease := by
  refine foldState_lease (fun t e => foldState_lease (fun t p => ?_) t _) s _
  dsimp only
  split <;> rfl

theorem stopCopies_lease (s : State) (which : CopyOut → Bool) : (stopCopies s which).lease = s.lease := foldState_lease unpin_lease s _

theorem aimCopies_lease (s : State) : (aimCopies s).lease = s.lease := by
  unfold aimCopies
  split
  · rfl
  · exact stopCopies_lease s _

theorem ite_lease {p : Prop} [Decidable p] {s t u : State} (yes : t.lease = s.lease) (no : u.lease = s.lease) :
    (if p then t else u).lease = s.lease := by
  split
  · exact yes
  · exact no

theorem dropJoins_lease (s : State) : (dropJoins s).lease = s.lease := by
  refine foldState_lease (fun t c => ?_) s _
  refine ite_lease rfl ?_
  dsimp only
  split
  · rfl
  · split
    · rw [tenantAbsent_lease, removeSeq_lease]
      rfl
    · rfl

theorem parkPartner_lease (s : State) (m : FMap) (j : ParkJob) : (parkPartner s m j).lease = s.lease := by
  unfold parkPartner
  dsimp only
  split
  · rfl
  · refine ite_lease rfl (ite_lease ?_ ?_)
    · rw [parkRemote_lease, modSeq_lease, modPark_lease]
    · rw [modSeq_lease, modPark_lease]

theorem protectLost_lease (s : State) (m : FMap) : (protectLost s m).lease = s.lease :=
  foldState_lease (fun t j => parkPartner_lease t m j) _ _

theorem gatesAtEpoch_lease (s : State) : (gatesAtEpoch s).lease = s.lease := by
  refine foldState_lease (fun t u => ?_) s _
  split <;> rfl

theorem reportAll_lease (s : State) (what : Nat) (st : Status) (subject epoch arg0 arg1 : Nat) :
    (reportAll s what st subject epoch arg0 arg1).lease = s.lease := by
  unfold reportAll
  split
  · rfl
  · exact foldState_lease (fun t e => sendControl_lease t e _) s _

theorem reportOpen_lease (s : State) (open_ : List Barrier) : (reportOpen s open_).lease = s.lease :=
  foldState_lease (fun t _ => reportAll_lease t _ _ _ _ _ _) s _

theorem settleWait_lease (s : State) (w : ChainWait) : (settleWait s w).lease = s.lease := by
  unfold settleWait
  split
  · exact complete_lease _ _ _
  · rfl

theorem aimWait_lease (s : State) (w : ChainWait) : (aimWait s w).lease = s.lease :=
  (settleWait_lease _ _).trans (foldState_lease (fun t _ => sendChain_lease t _ _ _) _ _)

end Sys2Proof.Machine

/-!
The composition family: maps and leases, chains, and the global tree.
-/

namespace Sys2Proof.Machine

/-! ### Maps, leases and the detector (R325 to R330, R341) -/

/-- What the switch of a map leads to before the lease: the new map and its epoch at the time of the switch. -/
theorem switchMap_leads (s : State) (m : FMap) : ∃ u : State, u.comp.map = some m ∧ u.comp.lastEpoch = m.epoch ∧
    switchMap s m = if ((nodeEntry m m.node).map fun e => e.state == 1).getD false then
        { u with comp := { u.comp with leaseSince := if u.fault.fenced then none else some (now s) } }
      else fenceNode { u with comp := { u.comp with leaseSince := none } } 4 255 := by
  unfold switchMap
  extract_lets old entry active inc s0 readmit again s1 oldEpoch comp s2 s3 ownNew s4 s5 s6 dead s7 s8 s9 s10
  have e3 : s3.lease = s2.lease := ite_lease (endFence_lease s2) rfl
  have e5 : s5.lease = s2.lease := ((markStubs_lease s4).trans (renewContexts_lease s3 old ownNew)).trans e3
  have e6 : s6.lease = s2.lease := ite_lease ((endGrace_lease s5).trans e5) e5
  have e7 : s7.lease = s2.lease := (foldState_lease declareDead_lease s6 dead).trans e6
  have e8 : s8.lease = s2.lease := ((dropJoins_lease _).trans (aimCopies_lease s7)).trans e7
  have e9 : s9.lease = s2.lease := ((gatesAtEpoch_lease _).trans (protectLost_lease s8 m)).trans e8
  have e10 : s10.lease = s2.lease := ((reportOpen_lease _ _).trans (foldState_lease aimWait_lease s9 _)).trans e9
  exact ⟨s10, congrArg (·.1) e10, congrArg (·.2.1) e10, rfl⟩

theorem switchMap_map (s : State) (m : FMap) : (switchMap s m).comp.map = some m ∧ (switchMap s m).comp.lastEpoch = m.epoch := by
  obtain ⟨u, map, epoch, e⟩ := switchMap_leads s m
  rw [e]
  split
  · exact ⟨map, epoch⟩
  · have keeps := fenceNode_lease { u with comp := { u.comp with leaseSince := none } } 4 255
    exact ⟨(congrArg (·.1) keeps).trans map, (congrArg (·.2.1) keeps).trans epoch⟩

theorem getD_map_false {α : Type} (o : Option α) (p : α → Bool) : (o.map p).getD false = o.any p := by cases o <;> rfl

theorem switchMap_active {s : State} {m : FMap} (active : (nodeEntry m m.node).any (fun e => e.state == 1) = true)
    (free : (switchMap s m).fault.fenced = false) : (switchMap s m).comp.leaseSince = some (now s) := by
  obtain ⟨u, -, -, e⟩ := switchMap_leads s m
  rw [← getD_map_false] at active
  rw [e, if_pos active] at free ⊢
  exact if_neg (by rw [free]; exact Bool.false_ne_true)

theorem switchMap_inactive {s : State} {m : FMap} (inactive : (nodeEntry m m.node).any (fun e => e.state == 1) = false) :
    (switchMap s m).fault.fenced = true ∧ (switchMap s m).comp.leaseSince = none := by
  obtain ⟨u, -, -, e⟩ := switchMap_leads s m
  rw [← getD_map_false] at inactive
  rw [e, if_neg (by rw [inactive]; exact Bool.false_ne_true)]
  exact ⟨fenceNode_fenced _ _ _, congrArg (·.2.2.1) (fenceNode_lease _ 4 255)⟩

/-- A map that passes every check of R325 is installed. -/
theorem installMap_switches {s : State} {bytes : List Byte} {f : FMap} (cause : s.fault.fenced = false ∨ s.fault.cause ≠ 7)
    (parsed : parseMap bytes = some f) (new : ∀ x : FMap, s.comp.map = some x → x.epoch ≠ f.epoch) (judged : judgeMap s f = 0) :
    (installMap s bytes).1 = switchMap s f := by
  have free : ¬(s.fault.fenced && s.fault.cause == 7) = true := by
    rcases cause with e | e <;> simp [e]
  have other : ¬(s.comp.map.any fun x => x.epoch == f.epoch) = true := by
    cases held : s.comp.map with
    | none => exact Bool.false_ne_true
    | some x => simpa using new x held
  simp only [installMap, if_neg free, parsed, if_neg other, judged, ne_eq, not_true_eq_false, if_false]

theorem takeDelivery_only_net (s : State) (m : Inbound) : ∃ n, takeDelivery s m = { s with net := n } := by
  unfold takeDelivery
  split
  · exact ⟨s.net, rfl⟩
  · exact ⟨_, rfl⟩

theorem takeKind_only_net (s : State) (src : Endpoint) (kind : Nat) : ∃ n, takeKind s src kind = { s with net := n } := by
  unfold takeKind
  split
  · exact ⟨s.net, rfl⟩
  · exact ⟨_, rfl⟩

theorem takeDelivery_now (s : State) (m : Inbound) : now (takeDelivery s m) = now s := by
  obtain ⟨n, e⟩ := takeDelivery_only_net s m
  rw [e]
  rfl

theorem foldEndJobs_fenced {s : State} (l : List SeqId) (fenced : s.fault.fenced = true) :
    (foldState endJobs s l).fault.fenced = true :=
  (foldState_kept (p := {}) (l := l) (fun _ _ kept => endJobs_kept kept) (.refl _ s)).fenced rfl fenced

section
variable {s : State} (runs : s.running = true)
include runs

theorem exec_map {m : Inbound} (sys : m.sys = true) (composer : isComposer (takeDelivery s m) m.src = true) :
    exec (.map m) s = .next (sendControl (installMap (takeDelivery s m) (m.bytes.drop 8)).1 m.src
      (mapAckMsg (fieldLe (m.bytes.drop 8) 8 4) (epochOf (installMap (takeDelivery s m) (m.bytes.drop 8)).1)
        (installMap (takeDelivery s m) (m.bytes.drop 8)).2)) := by
  show execMap m s = _
  simp [execMap, runs, sys, composer]

theorem graceEnd_forgets {old : FMap} (held : s.comp.prevMap = some old) (late : s.comp.graceSince + pGrace s ≤ now s) :
    Gives .graceEnd s fun t => t.comp.prevMap = none ∧ t.comp.oldEpoch = none ∧ t.comp.map = s.comp.map := by
  refine ⟨endGrace s, ?_, rfl, rfl, congrArg (·.1) (endGrace_lease s)⟩
  show execGraceEnd s = _
  simp [execGraceEnd, runs, held, elapsed, late]

theorem exec_renew_restarts {src : Endpoint} {f : FMap} {t : Nat} (composer : isComposer (takeKind s src 0x12) src = true)
    (held : s.comp.map = some f) (lease : s.comp.leaseSince = some t) : exec (.renew src f.epoch) s =
      .next { takeKind s src 0x12 with comp := { s.comp with leaseSince := some (now s) } } := by
  show execRenew src f.epoch s = _
  obtain ⟨n, e⟩ := takeKind_only_net s src 0x12
  simp only [execRenew, runs, composer]
  rw [e]
  simp [renewLease, held, lease, now]

theorem exec_leaseExpiry {t : Nat} (lease : s.comp.leaseSince = some t) (late : t + pLease s ≤ now s) : ∃ l : List SeqId,
    exec .leaseExpiry s = .next (foldState endJobs (fenceNode { s with comp := { s.comp with leaseSince := none } } 5 255) l) := by
  show ∃ l, execLeaseExpiry s = _
  simp only [execLeaseExpiry, lease, runs, elapsed, late, decide_true, Bool.and_true, if_true]
  exact ⟨_, rfl⟩

theorem leaseExpiry_fences {t : Nat} (lease : s.comp.leaseSince = some t) (late : t + pLease s ≤ now s) :
    Gives .leaseExpiry s fun t => t.fault.fenced = true ∧ t.comp.leaseSince = none := by
  obtain ⟨l, e⟩ := exec_leaseExpiry runs lease late
  refine ⟨_, e, foldEndJobs_fenced l (fenceNode_fenced _ _ _), ?_⟩
  exact congrArg (·.2.2.1) ((foldState_lease endJobs_lease _ l).trans (fenceNode_lease _ 5 255))

theorem heartbeat_hears (n epoch : Nat) : Gives (.heartbeat (.node n) epoch) s fun t =>
    (∀ w ∈ t.comp.watch, w.node = n → w.heard = true) ∧ t.comp.watch.length = s.comp.watch.length := by
  obtain ⟨x, e⟩ := takeKind_only_net s (.node n) 0x13
  refine ⟨heard (takeKind s (.node n) 0x13) (sysKey (.node n)), ?_, ?_, ?_⟩
  · show execHeartbeat (.node n) epoch s = _
    simp [execHeartbeat, runs, takeNode]
  · intro w listed named
    obtain ⟨v, -, rfl⟩ := List.mem_map.1 listed
    by_cases same : v.node = n
    · simp [same]
    · simp [same] at named
  · rw [e]
    simp [heard, sysKey]

theorem exec_detectorFiring (enabled : pDetEn s = true) (due : s.comp.detNext ≤ now s) : exec .detectorFiring s =
    .next (foldState detectOne { s with comp := { s.comp with detNext := s.comp.detNext + pHbPeriod s } } s.comp.watch) := by
  show execDetectorFiring s = _
  simp [execDetectorFiring, runs, enabled, Nat.not_lt.2 due, detectorFires]

theorem map_switches {m : Inbound} {f : FMap} (sys : m.sys = true) (composer : isComposer (takeDelivery s m) m.src = true)
    (cause : (takeDelivery s m).fault.fenced = false ∨ (takeDelivery s m).fault.cause ≠ 7)
    (parsed : parseMap (m.bytes.drop 8) = some f)
    (new : ∀ x : FMap, (takeDelivery s m).comp.map = some x → x.epoch ≠ f.epoch) (judged : judgeMap (takeDelivery s m) f = 0) :
    Gives (.map m) s fun t => t.comp.map = some f ∧ t.comp.lastEpoch = f.epoch ∧
      ((nodeEntry f f.node).any (fun e => e.state == 1) = true → t.fault.fenced = false → t.comp.leaseSince = some (now s)) ∧
      ((nodeEntry f f.node).any (fun e => e.state == 1) = false → t.fault.fenced = true ∧ t.comp.leaseSince = none) := by
  refine ⟨_, exec_map runs sys composer, ?_⟩
  have comp (t : State) (e : Endpoint) (b : List Byte) : (sendControl t e b).comp = t.comp := (sendControl_answ (.refl t)).comp
  dsimp only
  rw [comp, sendControl_fault, installMap_switches cause parsed new judged]
  refine ⟨(switchMap_map _ f).1, (switchMap_map _ f).2, fun active free => ?_, switchMap_inactive⟩
  rw [switchMap_active active free, takeDelivery_now]

end

/-- Settles O56: a map that passes R325 is switched to (`map_switches`), and the rows of the lease and the detector act as R327 to
R330 and R341 say. -/
theorem mapsAndLeases : Obligations.MapsAndLeases := by
  intro s runs
  refine ⟨?_, ?_, fun old held late => graceEnd_forgets runs held late, fun src f t => exec_renew_restarts runs,
    fun t => leaseExpiry_fences runs, heartbeat_hears runs, exec_detectorFiring runs⟩
  · rintro m u rfl sys composer
    exact exec_map runs sys composer
  · rintro m u f rfl sys composer cause parsed new judged
    exact map_switches runs sys composer cause parsed new judged

/-! ### Chains (R335 to R337, R354) -/

section
variable {s : State} (runs : s.running = true)
include runs

/-- A CHAIN of a node that the interior takes while no fence stands: the cases of R335 to R337. -/
theorem exec_chain {m : Inbound} {p : Nat} {c : Command} (src : m.src = .node p) (parsed : chainedCommand m p = some c)
    (sys : m.sys = true) (free : (takeDelivery s m).fault.fenced = false) : exec (.chain m) s =
    .next (if ackStatus (takeDelivery s m) c p .ok != .ok then
        sendControl (takeDelivery s m) m.src (chainAckMsg c.src.num (epochOf (takeDelivery s m)) c.desc.reqId .staleMap)
      else if (tenantOf (takeDelivery s m) c.desc.seq.id.tenant).state != 1 then
        sendControl (takeDelivery s m) m.src (chainAckMsg c.src.num (epochOf (takeDelivery s m)) c.desc.reqId .keyRetired)
      else if !holdsGen (takeDelivery s m) c.desc.seq.id.tenant c.keygen ||
          (takeDelivery s m).comp.heldChains.any fun h => h.cmd.desc.seq.id == c.desc.seq.id then
        { takeDelivery s m with comp := { (takeDelivery s m).comp with
            heldChains := (takeDelivery s m).comp.heldChains ++ [{ cmd := c, since := now (takeDelivery s m) }] } }
      else chainEnter (takeDelivery s m) c) := by
  show execChain m s = _
  simp only [execChain, runs, src, asNode, parsed, sys, free, Bool.not_true, Bool.false_eq_true, if_false]

theorem exec_chainRetry {h : HeldChain} (held : s.comp.heldChains.find? (fun x => cmdKey x.cmd == cmdKey h.cmd) = some h)
    (free : s.fault.fenced = false) (first : s.comp.heldChains.find? (fun x => x.cmd.desc.seq.id == h.cmd.desc.seq.id) = some h)
    (key : holdsGen s h.cmd.desc.seq.id.tenant h.cmd.keygen = true) {u : State} (freed : u = { s with comp := { s.comp with
      heldChains := s.comp.heldChains.filter fun x => cmdKey x.cmd != cmdKey h.cmd } }) :
    exec (.chainRetry (cmdKey h.cmd)) s = .next (if (liveOf u (cmdKey h.cmd)).isSome then
      modLive u (cmdKey h.cmd) fun l => { l with since := now s } else chainEnter u h.cmd) := by
  subst freed
  show execChainRetry (cmdKey h.cmd) s = _
  simp [execChainRetry, held, runs, free, first, key, now]

theorem exec_chainAck {n epoch : Nat} {st : Status} {w : ChainWait}
    (waits : (takeKind s (.node n) 0x16).comp.waits.find? (fun x => x.key == w.key) = some w) :
    exec (.chainAck (.node n) w.key.src w.key.reqId epoch st) s = .next (settleWait (putWait (takeKind s (.node n) 0x16)
      { w with legs := w.legs.map fun l => if l.node = n ∧ l.status = none ∧ epoch ≠ 0 then
        (if st = .staleMap then { l with retry := true }
         else { l with status := some (if st = .dup then .ok else st), retry := false }) else l })
      { w with legs := w.legs.map fun l => if l.node = n ∧ l.status = none ∧ epoch ≠ 0 then
        (if st = .staleMap then { l with retry := true }
         else { l with status := some (if st = .dup then .ok else st), retry := false }) else l }) := by
  show execChainAck _ _ _ _ _ s = _
  have noted (l : ChainLeg) (a b : ChainLeg) :
      (if l.node ≠ n ∨ l.status.isSome = true ∨ epoch = 0 then l else if st = .staleMap then a else b) =
      if l.node = n ∧ l.status = none ∧ epoch ≠ 0 then (if st = .staleMap then a else b) else l := by
    by_cases due : l.node = n ∧ l.status = none ∧ epoch ≠ 0
    · rw [if_pos due, if_neg (by simp [due])]
    · rw [if_neg due, if_pos (by by_contra no; simp at no; exact due (by simp [no]))]
  simp only [execChainAck, runs, Bool.not_true, Bool.false_eq_true, if_false, takeNode, asNode, waits, noted]

/-- The CHAIN of a leg that waits too long is sent again; the command is reported as stuck where it was not. -/
theorem exec_chainTimeout {w : ChainWait} {l : ChainLeg} (waits : s.comp.waits.find? (fun x => x.key == w.key) = some w)
    (late : w.legs.find? (fun x => x.status.isNone && !x.retry &&
      x.sentAt.any fun t => decide (t + pChainTimeout s ≤ now s)) = some l) :
    exec (.chainTimeout w.key) s = .next (sendChain (putWait (if w.stuck then s
        else raise (reportAll s 7 .ok l.node (epochOf s)
          ((s.comp.map.map fun m => layoutNo m w.cmd.desc.seq.id).getD 0 + 65536 * l.cell) 0) { source := 58 })
      { w with stuck := true, legs := w.legs.map fun x => if x.node = l.node then { x with sentAt := some (now s) } else x })
      w.cmd l.node l.epoch) := by
  have same : (fun x : ChainLeg => x.status.isNone && !x.retry && (match x.sentAt with
        | some t => elapsed s t (pChainTimeout s)
        | none => false)) =
      fun x => x.status.isNone && !x.retry && x.sentAt.any fun t => decide (t + pChainTimeout s ≤ now s) := by
    funext x
    cases x.sentAt <;> rfl
  have found := (congrArg (fun p => w.legs.find? p) same).trans late
  show execChainTimeout w.key s = _
  simp only [execChainTimeout, waits]
  split
  · next none => exact absurd (none.symm.trans found) (Option.some_ne_none l).symm
  · next l' some =>
    obtain rfl : l' = l := Option.some.inj (some.symm.trans found)
    simp only [runs, Bool.not_true, Bool.false_eq_true, if_false]

end

theorem sendChain_fault (s : State) (c : Command) (node epoch : Nat) : (sendChain s c node epoch).fault = s.fault :=
  sendUnder_fault _ _ _ _ _ _ _

/-- Settles O57: each row of the chain commands takes the branch that R335 to R337 name. -/
theorem chains : Obligations.Chains := by
  intro s runs
  refine ⟨?_, ?_, ?_, ?_⟩
  · rintro m u p c rfl src parsed sys free
    rw [exec_chain runs src parsed sys free]
    refine ⟨fun stale => ?_, fun ack absent => ?_, fun ack present => ⟨fun holds none => ?_, fun held => ?_⟩⟩
    · rw [if_pos (by simpa using stale)]
    · rw [if_neg (by simp [ack]), if_pos (by simpa using absent)]
    · rw [if_neg (by simp [ack]), if_neg (by simp [present]), if_neg (by simpa [holds] using none)]
      rfl
    · rw [if_neg (by simp [ack]), if_neg (by simp [present]), if_pos (by simpa using held)]
  · intro h held free first key u freed
    exact exec_chainRetry runs held free first key freed
  · rintro n epoch st w w1 u rfl waits rfl
    exact exec_chainAck runs waits
  · rintro w l w1 waits late rfl
    refine ⟨fun stuck => ?_, fun fresh => ?_⟩
    · rw [exec_chainTimeout runs waits late, if_pos stuck]
    · refine ⟨_, exec_chainTimeout runs waits late, ?_, _, rfl⟩
      rw [if_neg (by simp [fresh]), sendChain_fault, putWait_fault]
      exact ⟨_, raise_event _ _, rfl⟩

/-! ### The global tree (R329, R344, R472) -/

theorem treeOf_installed {u : State} {m : FMap} (map : u.comp.map = some m) (member : (treeNodes m).contains m.node = true) :
    treeOf u m.epoch = some m := by
  simp only [treeOf, map, member, and_self, if_true]

section
variable {s : State} {m : FMap} (runs : s.running = true) (member : (treeNodes m).contains m.node = true)
include runs member

section
variable {n : Nat} (map : (takeKind s (.node n) 0x1A).comp.map = some m)
include map

theorem exec_barrierArrive_child {opId arg : Nat} {b : Barrier} (none : (takeKind s (.node n) 0x1A).comp.resetPending = none)
    (open_ : b = ((takeKind s (.node n) 0x1A).comp.barriers.find? fun x => x.opId == opId).getD
      { treeEpoch := m.epoch, opId := opId, arg := arg, what := 1 }) (child : (treeChildren m).contains n = true) :
    exec (.barrierArrive (.node n) m.epoch opId arg) s =
      .next (barrierTry (takeKind s (.node n) 0x1A) m { b with children := n :: b.children.filter (· != n) }) := by
  subst open_
  show execBarrierArrive _ _ _ _ s = _
  simp only [execBarrierArrive, runs, Bool.not_true, Bool.false_eq_true, if_false, treeOf_installed map member, asNode, none, child,
    if_true]

theorem exec_barrierArrive_parent {opId arg : Nat} {b : Barrier} (none : (takeKind s (.node n) 0x1A).comp.resetPending = none)
    (open_ : b = ((takeKind s (.node n) 0x1A).comp.barriers.find? fun x => x.opId == opId).getD
      { treeEpoch := m.epoch, opId := opId, arg := arg, what := 1 }) (other : (treeChildren m).contains n = false)
    (parent : treeParent m = some n) : exec (.barrierArrive (.node n) m.epoch opId arg) s =
      .next (barrierTry (toChildren (takeKind s (.node n) 0x1A) m (globalMsg 1 1 m.epoch opId arg)) m b) := by
  subst open_
  show execBarrierArrive _ _ _ _ s = _
  simp only [execBarrierArrive, runs, Bool.not_true, Bool.false_eq_true, if_false, treeOf_installed map member, asNode, none, other,
    parent, if_true]

theorem exec_barrierArrive_reset {opId arg : Nat} {r : Barrier} (reset : (takeKind s (.node n) 0x1A).comp.resetPending = some r)
    (same : r.opId = opId) (child : (treeChildren m).contains n = true) :
    exec (.barrierArrive (.node n) m.epoch opId arg) s =
      .next (resetTry (takeKind s (.node n) 0x1A) m { r with children := n :: r.children }) := by
  show execBarrierArrive _ _ _ _ s = _
  simp only [execBarrierArrive, runs, Bool.not_true, Bool.false_eq_true, if_false, treeOf_installed map member, asNode, reset, same,
    child, and_self, if_true]

theorem exec_barrierRelease {opId : Nat} {b : Barrier}
    (open_ : (takeKind s (.node n) 0x1A).comp.barriers.find? (fun x => x.opId == opId) = some b) (parent : treeParent m = some n) :
    exec (.barrierRelease (.node n) m.epoch opId) s = .next (toChildren { takeKind s (.node n) 0x1A with comp :=
      { (takeKind s (.node n) 0x1A).comp with barriers := (takeKind s (.node n) 0x1A).comp.barriers.filter fun x => x.opId != opId } }
      m (globalMsg 2 b.what m.epoch opId b.arg)) := by
  show execBarrierRelease _ _ _ s = _
  simp only [execBarrierRelease, runs, Bool.not_true, Bool.false_eq_true, if_false, treeOf_installed map member, open_, asNode, parent,
    Option.isSome_some, and_self, if_true]

theorem exec_broadcast_node {what opId arg : Nat} (parent : treeParent m = some n) :
    exec (.broadcast (.node n) what m.epoch opId arg) s =
      .next (if what = 2 then
          if (toChildren (takeKind s (.node n) 0x1A) m (globalMsg 3 what m.epoch opId arg)).comp.resetPending.isSome then
            toChildren (takeKind s (.node n) 0x1A) m (globalMsg 3 what m.epoch opId arg)
          else resetTry (toChildren (takeKind s (.node n) 0x1A) m (globalMsg 3 what m.epoch opId arg)) m
            { treeEpoch := m.epoch, opId := opId, arg := arg, what := 2 }
        else if what = 1 then renewLease (toChildren (takeKind s (.node n) 0x1A) m (globalMsg 3 what m.epoch opId arg)) arg
        else toChildren (takeKind s (.node n) 0x1A) m (globalMsg 3 what m.epoch opId arg)) := by
  show execBroadcast _ _ _ _ _ s = _
  simp only [execBroadcast, runs, Bool.not_true, Bool.false_eq_true, if_false, treeOf_installed map member, asNode, parent,
    beq_self_eq_true, Option.isNone_some]

end

section
variable {e : Nat} (map : (takeKind s (.adapter e) 0x1A).comp.map = some m)
  (composer : isComposer (takeKind s (.adapter e) 0x1A) (.adapter e) = true) (root : treeParent m = none)
include map composer root

theorem exec_barrierArrive_composer {opId arg : Nat} {b : Barrier}
    (open_ : b = ((takeKind s (.adapter e) 0x1A).comp.barriers.find? fun x => x.opId == opId).getD
      { treeEpoch := m.epoch, opId := opId, arg := arg, what := 1 }) :
    exec (.barrierArrive (.adapter e) m.epoch opId arg) s =
      .next (barrierTry (toChildren (takeKind s (.adapter e) 0x1A) m (globalMsg 1 1 m.epoch opId arg)) m
        { b with starter := some (.adapter e) }) := by
  subst open_
  show execBarrierArrive _ _ _ _ s = _
  simp only [execBarrierArrive, runs, Bool.not_true, Bool.false_eq_true, if_false, treeOf_installed map member, asNode, composer, root,
    Option.isNone_none, Bool.and_self, if_true]

theorem exec_broadcast_composer {what opId arg : Nat} : exec (.broadcast (.adapter e) what m.epoch opId arg) s =
      .next (if what = 2 then
          if (toChildren (takeKind s (.adapter e) 0x1A) m (globalMsg 3 what m.epoch opId arg)).comp.resetPending.isSome then
            toChildren (takeKind s (.adapter e) 0x1A) m (globalMsg 3 what m.epoch opId arg)
          else resetTry (toChildren (takeKind s (.adapter e) 0x1A) m (globalMsg 3 what m.epoch opId arg)) m
            { treeEpoch := m.epoch, opId := opId, arg := arg, what := 2, starter := some (.adapter e) }
        else sendControl (if what = 1 then
            renewLease (toChildren (takeKind s (.adapter e) 0x1A) m (globalMsg 3 what m.epoch opId arg)) arg
          else toChildren (takeKind s (.adapter e) 0x1A) m (globalMsg 3 what m.epoch opId arg)) (.adapter e)
          (globalMsg 2 what m.epoch opId arg)) := by
  show execBroadcast _ _ _ _ _ s = _
  simp only [execBroadcast, runs, Bool.not_true, Bool.false_eq_true, if_false, treeOf_installed map member, asNode, composer, root,
    Option.isNone_none, Bool.and_self, if_true]

end

end

/-- Settles O59: an operation of the installed epoch takes the branch that R344 and R472 name for its source. -/
theorem treeOperations : Obligations.TreeOperations := by
  rintro s u m n opId arg runs rfl map member
  refine ⟨fun none b open_ => ⟨exec_barrierArrive_child runs member map none open_,
      exec_barrierArrive_parent runs member map none open_⟩, fun r reset => exec_barrierArrive_reset runs member map reset,
    fun b => exec_barrierRelease runs member map, fun parent => ⟨exec_broadcast_node runs member map parent, fun none => ?_⟩, ?_⟩
  · rw [exec_broadcast_node runs member map parent, if_pos rfl, if_neg (by simp [none])]
  · rintro e v rfl map composer root
    refine ⟨fun none b => exec_barrierArrive_composer runs member map composer root,
      exec_broadcast_composer runs member map composer root, fun none => ?_⟩
    rw [exec_broadcast_composer runs member map composer root, if_pos rfl, if_neg (by simp [none])]

end Sys2Proof.Machine

/-!
The scheduling, mailbox and Cask read families: gate lists, messages of the mailbox, chunks of a map, and a read of the Cask.
-/

namespace Sys2Proof.Machine

/-! ### Gate lists (R364 to R367) -/

/-- A second entry under a key takes the place of the first. -/
theorem tabSet_tabSet {β : Type} (t : Tab β) (k : Nat) (v w : β) : tabSet (tabSet t k v) k w = tabSet t k w := by
  induction t with
  | nil => simp [tabSet]
  | cons e t ih =>
    obtain ⟨i, x⟩ := e
    rcases Nat.lt_trichotomy k i with less | same | more
    · simp [tabSet, less]
    · simp [tabSet, same]
    · simp [tabSet, Nat.not_lt.2 (Nat.le_of_lt more), Nat.ne_of_gt more, ih]

theorem gateOf_modGate_same (s : State) (n : Nat) (f : GateUnit → GateUnit) : gateOf (modGate s n f) n = f (gateOf s n) := by
  rw [gateOf_modGate, if_pos rfl]

/-- Two changes of a gate, one after the other. -/
theorem modGate_modGate (s : State) (n : Nat) (f g : GateUnit → GateUnit) :
    modGate (modGate s n f) n g = modGate s n fun x => g (f x) := by
  have own := gateOf_modGate_same s n f
  simp only [gateOf, modGate] at own
  simp only [modGate, tabModD] at own ⊢
  rw [own, tabSet_tabSet]

/-- A change of a gate sets what it makes of the gate's state. -/
theorem modGate_set (s : State) (n : Nat) (f : GateUnit → GateUnit) : modGate s n f = modGate s n fun _ => f (gateOf s n) := rfl

/-- Settles O38: the arming of a list, its disarming, a takeover and the end of an entry each change their own gate (R364 to R367). -/
theorem gateLists : Obligations.GateLists := by
  intro s u runs only g list taken
  refine ⟨fun reach rt idle => ⟨fun later => ?_, fun counter passed => ?_⟩, fun reach => ?_, fun armed counter passed => ?_,
    fun enabled listed ends none => ?_⟩
  · have stays : ¬(!pendAtEpoch s u.val && decide (pendAt s u.val ≤ now s)) = true := by
      rcases later with epoch | early
      · simp [epoch]
      · simp [Nat.not_le.2 early]
    show execPendArm u s = _
    rw [execPendArm, regEnter_reaches reach, pendArm, if_neg (by simp [rt, show (gateOf s u.val).armed = false from idle])]
    exact congrArg _ (if_neg stays)
  · show execPendArm u s = _
    rw [execPendArm, regEnter_reaches reach, pendArm, if_neg (by simp [rt, show (gateOf s u.val).armed = false from idle])]
    refine congrArg _ ((if_pos ?_).trans ((modGate_modGate s u.val _ _).trans ?_))
    · show (!pendAtEpoch s u.val && decide (pendAt s u.val ≤ now s)) = true
      simp [counter, passed]
    · exact modGate_set s u.val _
  · show execPendDisarm u s = _
    rw [execPendDisarm, regEnter_reaches reach]
    rfl
  · have due : takeoverDue s u.val = true := by
      have armed' : (gateOf s u.val).armed = true := armed
      simp [takeoverDue, armed', counter, passed]
    show execGateTakeover u s = _
    rw [execGateTakeover, runs, due]
    rfl
  · have runsOn : ¬(!pGateEn s u.val || (gateOf s u.val).list.isEmpty || decide (now s < (gateOf s u.val).entryEnd)) = true := by
      have listed' : (gateOf s u.val).list ≠ [] := listed
      simp [enabled, listed', Nat.not_lt.2 (show (gateOf s u.val).entryEnd ≤ now s from ends)]
    show execGateEntryEnd u s = _
    simp only [execGateEntryEnd, runs, Bool.not_true, Bool.false_or, if_neg runsOn, gateEnds, none, Bool.false_eq_true, if_false]
    rfl

/-! ### The mailbox (R329, R516, R517) -/

theorem mailWrite_skips {s : State} (skips : s.mail.skip = true) (w : Word32) (last : Bool) :
    mailWrite s w last = { s with mail := { s.mail with skip := !last } } := by rw [mailWrite, if_pos skips]

theorem mailWrite_enters {s : State} (open_ : s.mail.skip = false) (room : s.mail.fifo.length < 64) (w : Word32) (last : Bool) :
    mailWrite s w last = mailDrain { s with mail := { s.mail with fifo := s.mail.fifo ++ [(w, last)] } } := by
  rw [mailWrite, if_neg (by simp [open_]), if_neg (Nat.not_le.2 room)]

/-- A word at a full chain: its message is dropped to its end mark, and ERROR 3 answers. -/
theorem mailWrite_overruns {s : State} (open_ : s.mail.skip = false) (full : 64 ≤ s.mail.fifo.length) (w : Word32) (last : Bool) :
    mailWrite s w last = mailError { s with mail := { s.mail with
        overrun := s.mail.overrun + 1, skip := !last, fifo := s.mail.fifo.take (s.mail.fifo.length - (openTail s.mail.fifo).length) } } 3
      (mailTag ((openTail s.mail.fifo).map Prod.fst ++ [w])) := by
  rw [mailWrite, if_neg (by simp [open_]), if_pos full]

/-- The part of a map that the mailbox holds, and the total it was announced with. -/
def State.mapHeld (s : State) : List Byte × Nat := (s.mail.mapBuf, s.mail.mapTotal)

theorem mailTake_mapHeld (s : State) : (mailTake s).mapHeld = s.mapHeld := by
  unfold mailTake
  split
  · rfl
  · split
    · rfl
    · unfold mailJudge
      split <;> rfl

theorem mailNext_mapHeld (s : State) : (mailNext s).mapHeld = s.mapHeld :=
  (iter_keeps State.mapHeld mailTake_mapHeld _ _).trans rfl

/-- Settles O28: a word enters the chain or is discarded (`mailWrite`), and RENEW and PING act on the message at the head (R516). -/
theorem mailboxMessages : Obligations.MailboxMessages := by
  intro s runs
  refine ⟨fun w open_ room => ⟨fun reach => ?_, fun reach => ?_⟩, fun w open_ full reach => ?_,
    fun w skips word last => ⟨?_, ?_⟩, fun whole kind => ?_, fun whole kind => ?_⟩
  · exact congrArg _ ((regEnter_reaches reach).trans (mailWrite_enters open_ room w false))
  · exact congrArg _ ((regEnter_reaches reach).trans (mailWrite_enters open_ room w true))
  · refine ⟨mailWrite s w false, congrArg _ (regEnter_reaches reach), ?_⟩
    rw [mailWrite_overruns open_ full]
    exact ⟨rfl, rfl, by simp [mailError, k2hPush], rfl⟩
  · exact congrArg _ ((regEnter_reaches word).trans ((mailWrite_skips skips w false).trans (by rw [Bool.not_false, ← skips])))
  · exact congrArg _ ((regEnter_reaches last).trans (mailWrite_skips skips w true))
  · exact congrArg _ (onMail_kind runs whole kind)
  · exact congrArg _ (onMail_kind runs whole kind)

/-- Settles O29: the chunk at the head of the mailbox goes through the checks of R517 (`mapChunk`). -/
theorem mapChunks : Obligations.MapChunks := by
  rintro s u ws off total held buf runs whole kind rfl rfl rfl rfl rfl rfl
  have buffer : (mailNext s).mail.mapBuf = s.mail.mapBuf := congrArg Prod.fst (mailNext_mapHeld s)
  have announced : (mailNext s).mail.mapTotal = s.mail.mapTotal := congrArg Prod.snd (mailNext_mapHeld s)
  have acts : exec .mapChunk s = .next (mapChunk (mailNext s) s.mail.cur) := congrArg _ (onMail_kind runs whole kind)
  rw [acts]
  refine ⟨fun wrong => ?_, fun next same short => ?_, fun next same full r installed => ?_⟩
  · rw [← buffer, ← announced] at wrong
    rw [mapChunk]
    exact congrArg _ (if_pos wrong)
  all_goals
    have fits : ¬((s.mail.cur.getD 1 0).toNat ≠ (if (s.mail.cur.getD 1 0).toNat = 0 then [] else (mailNext s).mail.mapBuf).length ∨
        ((s.mail.cur.getD 1 0).toNat ≠ 0 ∧ (s.mail.cur.getD 2 0).toNat ≠ (mailNext s).mail.mapTotal)) := by
      rw [buffer, announced, ← next]
      rintro (no | ⟨later, other⟩)
      · exact no rfl
      · exact same.elim later other
  · rw [← buffer] at short ⊢
    rw [mapChunk]
    exact congrArg _ ((if_neg fits).trans (if_neg short))
  · rw [← buffer] at full installed ⊢
    rw [mapChunk, installed]
    exact congrArg _ ((if_neg fits).trans (if_pos full))

/-! ### A read of the Cask (R501) -/

/-- Settles O26: the record under the number of CASK_SEL, if a segment holds one, and its CRC decide what `caskRead` shows (R501). -/
theorem caskReads : Obligations.CaskReads := by
  intro s reach
  refine ⟨caskRead s, congrArg _ (regEnter_reaches reach), ?_⟩
  dsimp only
  cases found : (s.cask.segs.flatMap fun e => e.2.recs).find? fun r =>
    r.seq == rd s 0x2820 + 4294967296 * fld s 0x2824 15 0 with
  | none => simp [caskRead, found]
  | some r => cases crc : r.badCrc <;> simp [caskRead, found, crc]

end Sys2Proof.Machine

/-!
The trust family: attestation requests, measurement slots and keys, and the removal of a tenant.
-/

namespace Sys2Proof.Machine

/-! ### What sends over the fabric or the link (R285, R294 to R297) -/

theorem makeRoom_only {s t : State} {die : Nat} (made : makeRoom s die = some t) : ∃ n l, t = { s with net := n, link := l } := by
  unfold makeRoom at made
  dsimp only at made
  split at made
  · exact ⟨s.net, s.link, (Option.some.inj made).symm⟩
  · obtain ⟨v, -, rfl⟩ := Option.map_eq_some_iff.1 made
    unfold writeBack
    split
    · exact ⟨_, s.link, rfl⟩
    · obtain ⟨l, e⟩ := linkSend_only_link s _
      dsimp only
      rw [e]
      exact ⟨_, l, rfl⟩

theorem newCtx_only {s t : State} {a : AssocKey} (made : newCtx s a = some t) : ∃ n l, t = { s with net := n, link := l } := by
  unfold newCtx at made
  split at made
  · obtain ⟨u, room, rfl⟩ := Option.map_eq_some_iff.1 made
    obtain ⟨n, l, rfl⟩ := makeRoom_only room
    exact ⟨_, l, rfl⟩
  · cases made

theorem sendUnder_only (s : State) (gen : Option Nat) (a : AssocKey) (cls : MsgClass) (egress : Nat) (arrival : Option (Nat × Nat))
    (bytes : List Byte) : ∃ n l, sendUnder s gen a cls egress arrival bytes = { s with net := n, link := l } := by
  dsimp only [sendUnder]
  split
  · next t found =>
    split at found
    · split at found
      · cases found
      · obtain rfl := Option.some.inj found
        exact ⟨_, s.link, rfl⟩
    · obtain ⟨n, l, rfl⟩ := newCtx_only found
      exact ⟨_, l, rfl⟩
  · exact ⟨_, s.link, rfl⟩

theorem sendControl_only (s : State) (e : Endpoint) (bytes : List Byte) :
    ∃ n l, sendControl s e bytes = { s with net := n, link := l } := by
  unfold sendControl
  split
  · obtain ⟨l, sent⟩ := linkSend_only_link s _
    exact ⟨s.net, l, sent⟩
  · exact sendUnder_only _ _ _ _ _ _ _

/-! ### Attestation (R428, R431 to R434) -/

/-- The engine fixes the content of the report at its head, and changes nothing else. -/
theorem startSign_queue (s : State) : ∃ q : List AttReq, startSign s = { s with trust := { s.trust with queue := q } } ∧
    q.length = s.trust.queue.length ∧ (q.filter fun r => !r.endorse).length = (reportQueue s).length := by
  unfold startSign reportQueue
  split
  · next r rest queued =>
    split
    · refine ⟨_, rfl, ?_, ?_⟩
      · rw [queued]
        rfl
      · simp only [queued, List.filter_cons]
        split <;> rfl
    · exact ⟨s.trust.queue, rfl, rfl, rfl⟩
  · exact ⟨s.trust.queue, rfl, rfl, rfl⟩

/-- A report request joins the queue while fewer than 16 are queued (R434). -/
theorem queueReport_room {s : State} {r : AttReq} (report : r.endorse = false) (room : (reportQueue s).length < 16) :
    ∃ q : List AttReq, queueReport s r = some { s with trust := { s.trust with queue := q } } ∧
      (q.filter fun r => !r.endorse).length = (reportQueue s).length + 1 := by
  obtain ⟨q, e, -, reports⟩ := startSign_queue { s with trust := { s.trust with queue := s.trust.queue ++ [r] } }
  refine ⟨q, ?_, reports.trans ?_⟩
  · rw [queueReport, if_neg (Nat.not_le.2 room), e]
  · simp [reportQueue, report]

theorem queueReport_full {s : State} {r : AttReq} (full : 16 ≤ (reportQueue s).length) : queueReport s r = none := if_pos full

theorem attReport_joins {s : State} (reach : Reaches s 0x60E0) (room : (reportQueue s).length < 16) : Gives .attReport s fun t =>
    t.trust.attState = 1 ∧ (reportQueue t).length = (reportQueue s).length + 1 ∧ { t with trust := s.trust } = s := by
  obtain ⟨q, e, reports⟩ := queueReport_room (s := s) (r := { nonce := regBytes s 0x6080 8, userData := regBytes s 0x60A0 16 }) rfl room
  refine ⟨attReport s, congrArg _ (regEnter_reaches reach), ?_⟩
  rw [attReport, e]
  exact ⟨rfl, reports, rfl⟩

theorem exec_attReport_full {s : State} (reach : Reaches s 0x60E0) (full : 16 ≤ (reportQueue s).length) :
    exec .attReport s = .next { s with trust := { s.trust with attState := 3 } } := by
  refine congrArg _ ((regEnter_reaches reach).trans ?_)
  rw [attReport, queueReport_full full]

/-- A peer that may ask for a report has it queued (R433). -/
theorem attestReq_joins {s : State} (runs : s.running = true) {src : Endpoint} (may : mayMark s src = true)
    (room : (reportQueue s).length < 16) (reqTag : Nat) (nonce userData : List Byte) :
    Gives (.attestReq src reqTag 1 nonce userData) s fun t =>
      (reportQueue t).length = (reportQueue s).length + 1 ∧ { t with trust := s.trust, net := s.net } = s := by
  obtain ⟨n, taken⟩ := takeKind_only_net s src 0x1E
  have may' : mayMark (takeKind s src 0x1E) src = true := by rw [taken]; exact may
  have held : reportQueue (takeKind s src 0x1E) = reportQueue s := by rw [taken]; rfl
  obtain ⟨q, e, reports⟩ := queueReport_room (s := takeKind s src 0x1E)
    (r := { nonce := nonce, userData := userData, peer := some (src, reqTag) }) rfl (by rw [held]; exact room)
  refine ⟨_, (show execAttestReq _ _ _ _ _ s = _ by
    simp only [execAttestReq, runs, may', e, Bool.not_true, Bool.false_eq_true, if_false, if_true]; rfl), ?_, ?_⟩
  · exact reports.trans (by rw [held])
  · rw [taken]

theorem attestAnswer_trust (s : State) (e : Endpoint) (tag : Nat) (st : Status) (body : List Byte) :
    (attestAnswer s e tag st body).trust = s.trust := by
  obtain ⟨n, l, sent⟩ := sendControl_only s e (attestRspMsg tag st body)
  rw [attestAnswer, sent]

theorem attestAnswer_frame {s v : State} (own : { v with trust := s.trust, net := s.net, link := s.link } = s) (e : Endpoint) (tag : Nat)
    (st : Status) (body : List Byte) :
    { attestAnswer v e tag st body with trust := s.trust, net := s.net, link := s.link } = s := by
  obtain ⟨n, l, sent⟩ := sendControl_only v e (attestRspMsg tag st body)
  rw [attestAnswer, sent]
  exact own

/-- The report at the head is counted and its NONCE remembered; then the engine turns to the next one. -/
theorem exec_signatureDone {s : State} (runs : s.running = true) (signature : List Byte) {r : AttReq} {rest : List AttReq}
    (head : takeFirst (fun x => !x.endorse) s.trust.queue = some (r, rest)) : ∃ u : State,
      u.trust.reports = s.trust.reports + 1 ∧ u.trust.nonces = (padTo 32 r.nonce :: s.trust.nonces).take 16 ∧
      u.trust.queue = rest ∧ { u with trust := s.trust, net := s.net, link := s.link } = s ∧
      exec (.signatureDone signature) s = .next (startSign u) := by
  show ∃ u : State, _ ∧ _ ∧ _ ∧ _ ∧ execSignatureDone signature s = _
  have on : ¬(!s.running) = true := by simp [runs]
  simp only [execSignatureDone, head, if_neg on]
  split
  · refine ⟨_, congrArg TrustSt.reports (attestAnswer_trust _ _ _ _ _), congrArg TrustSt.nonces (attestAnswer_trust _ _ _ _ _),
      congrArg TrustSt.queue (attestAnswer_trust _ _ _ _ _), ?_, rfl⟩
    exact attestAnswer_frame rfl _ _ _ _
  · refine ⟨_, rfl, rfl, rfl, ?_, rfl⟩
    rfl

/-- The report at the head leaves the queue with its signature (R428, R434). -/
theorem signatureDone_ends {s : State} (runs : s.running = true) (signature : List Byte) {r : AttReq} {rest : List AttReq}
    (head : takeFirst (fun x => !x.endorse) s.trust.queue = some (r, rest)) : Gives (.signatureDone signature) s fun t =>
      t.trust.reports = s.trust.reports + 1 ∧ t.trust.nonces = (padTo 32 r.nonce :: s.trust.nonces).take 16 ∧
      t.trust.queue.length = rest.length ∧ { t with trust := s.trust, net := s.net, link := s.link } = s := by
  obtain ⟨u, reports, nonces, queue, frame, out⟩ := exec_signatureDone runs signature head
  obtain ⟨q, e, length, -⟩ := startSign_queue u
  refine ⟨_, out, ?_⟩
  rw [e]
  exact ⟨reports, nonces, length.trans (by rw [queue]), frame⟩

/-- Settles O19: reports join a queue of at most 16, the endorsement is shown or waits, and a signature ends the report at the head
(R428, R431 to R434). -/
theorem attestationRequests : Obligations.AttestationRequests := by
  intro s runs
  refine ⟨attReport_joins, exec_attReport_full, fun reach signed => ?_, fun reach waits => ?_,
    fun src reqTag nonce userData may room => attestReq_joins runs may room reqTag nonce userData,
    fun signature r rest => signatureDone_ends runs signature⟩
  · exact congrArg _ ((regEnter_reaches (f := attEndorse) reach).trans (if_pos signed))
  · exact congrArg _ ((regEnter_reaches (f := attEndorse) reach).trans (if_neg (by simp [waits])))

/-! ### Slots, link keys and key packages (R430, R435 to R441) -/

theorem managed_secure {s : State} {f : State → State} (secure : s.link.state = 3) : managed s f = f s := if_pos secure

theorem tenantOf_set (s : State) (n : Nat) (x : Tenant) (k : Nat) :
    tenantOf { s with trust := { s.trust with tenants := tabSet s.trust.tenants n x } } k = if k = n then x else tenantOf s k :=
  tabGetD_tabSet _ _ _ _ _

/-- An extended slot holds the hash of what stood in it with the measurement; the other slots stay (R430). -/
theorem extendSlot_slots (s : State) (n : Nat) (m : List Byte) (rom : Bool) (k : Nat) :
    slotWord (extendSlot s n m rom) k = if k = n then padTo 32 (shake256 (slotWord s n ++ m) 32) else slotWord s k := by
  obtain ⟨c, x, e⟩ := caskRec_only_cask_fault
    { s with trust := { s.trust with slots := tabSet s.trust.slots n (shake256 (slotWord s n ++ m) 32) } }
    { kind := 0x05, rom := rom, payload := le 1 n ++ le 3 0 ++ padTo 32 m }
  have slot : slotWord (extendSlot s n m rom) k = padTo 32 (tabGetD (tabSet s.trust.slots n (shake256 (slotWord s n ++ m) 32)) k []) := by
    rw [extendSlot]
    exact congrArg (slotWord · k) e
  rw [slot, tabGetD_tabSet]
  split <;> rfl

theorem extendSlot_frame (s : State) (n : Nat) (m : List Byte) (rom : Bool) :
    { extendSlot s n m rom with trust := s.trust, cask := s.cask, fault := s.fault } = s := by
  obtain ⟨c, x, e⟩ := caskRec_only_cask_fault
    { s with trust := { s.trust with slots := tabSet s.trust.slots n (shake256 (slotWord s n ++ m) 32) } }
    { kind := 0x05, rom := rom, payload := le 1 n ++ le 3 0 ++ padTo 32 m }
  rw [extendSlot]
  dsimp only
  rw [e]

/-- What a package that passes every check makes of its tenant (R438, R440, R441). -/
theorem kemInstall_passes {s : State} (secure : s.link.state = 3) (passes : (packageReason s (regBytes s 0x7000 428)).1 = 0) :
    ∃ x : Tenant, x.state = 1 ∧ x.keygen = some (parsePackage (regBytes s 0x7000 428)).keygen ∧
      x.prev = (if (parsePackage (regBytes s 0x7000 428)).first then none
        else (tenantOf s (packageKey (parsePackage (regBytes s 0x7000 428)))).keygen.map fun g => (g, now s)) ∧
      kemInstall s = { s with trust := { s.trust with
        tenants := tabSet s.trust.tenants (packageKey (parsePackage (regBytes s 0x7000 428))) x, kemState := 2, kemReason := 0 } } := by
  rw [kemInstall, managed_secure secure]
  dsimp only
  refine ⟨_, ?_, ?_, ?_, if_neg (not_not.2 passes)⟩
  all_goals rfl

theorem kemInstall_fails {s : State} (secure : s.link.state = 3) (fails : (packageReason s (regBytes s 0x7000 428)).1 ≠ 0) :
    kemInstall s = { s with trust := { s.trust with
      kemState := 3, kemReason := (packageReason s (regBytes s 0x7000 428)).1 } } := by
  rw [kemInstall, managed_secure secure]
  exact if_pos fails

/-- The check of a generation for a tenant that is not being removed (R439). -/
theorem keygenFits_iff {t : Tenant} {p : Package} (here : t.state ≠ 2) : keygenFits t p = true ↔
    if p.first then ∀ g, t.retired = some g → p.keygen = (g + 1) % 256 else ∃ g, t.keygen = some g ∧ p.keygen = (g + 1) % 256 := by
  rw [keygenFits, if_neg here]
  cases p.first
  · cases t.keygen <;> simp
  · cases t.retired <;> simp

/-- KEM_CMD.LINK makes the link SECURE under the keys of the exchange, and begins both directions anew (R435). -/
theorem kemLink_secures {s : State} (reach : Reaches s 0x6300) : Gives .kemLink s fun t =>
    t.link.state = 3 ∧ t.link.txSeq = 0 ∧ t.link.rxSeq = 0 ∧ t.link.kept = [] ∧ t.trust.kemState = 2 ∧
    t.link.kLink = some (shake256 (Config.decaps (kemSeed s) (regBytes s 0x7000 392)
      ++ [0x52, 0x41, 0x4E, 0x55, 0x50, 0x2D, 0x4C, 0x49, 0x4E, 0x4B] ++ regBytes s 0x6080 8) 64) ∧
    { t with link := s.link, trust := s.trust } = s :=
  ⟨kemLink s, congrArg _ (regEnter_reaches reach), rfl, rfl, rfl, rfl, rfl, rfl, rfl⟩

theorem extendGo_extends {s : State} (reach : Reaches s 0x6224) (secure : s.link.state = 3) : Gives .extendGo s fun t =>
    slotWord t (6 + fld s 0x6200 0 0) = padTo 32 (shake256 (slotWord s (6 + fld s 0x6200 0 0) ++ regBytes s 0x6204 8) 32) ∧
    (∀ k : Nat, k ≠ 6 + fld s 0x6200 0 0 → slotWord t k = slotWord s k) ∧
    { t with trust := s.trust, cask := s.cask, fault := s.fault } = s := by
  refine ⟨extendSlot s (6 + fld s 0x6200 0 0) (regBytes s 0x6204 8) false,
    congrArg _ ((regEnter_reaches reach).trans (managed_secure secure)), ?_, fun k other => ?_, extendSlot_frame _ _ _ _⟩
  · rw [extendSlot_slots, if_pos rfl]
  · rw [extendSlot_slots, if_neg other]

theorem kemInstall_installs {s : State} (reach : Reaches s 0x6300) (secure : s.link.state = 3) : Gives .kemInstall s fun t =>
    let p := parsePackage (regBytes s 0x7000 428)
    let r := (packageReason s (regBytes s 0x7000 428)).1
    let old := tenantOf s (packageKey p)
    (r = 0 → t.trust.kemState = 2 ∧ (tenantOf t (packageKey p)).state = 1 ∧ (tenantOf t (packageKey p)).keygen = some p.keygen ∧
      (tenantOf t (packageKey p)).prev = (if p.first then none else old.keygen.map fun g => (g, now s)) ∧
      ∀ n : Nat, n ≠ packageKey p → tenantOf t n = tenantOf s n) ∧
    (r ≠ 0 → t.trust.kemState = 3 ∧ t.trust.kemReason = r ∧ t.trust.tenants = s.trust.tenants) ∧
    { t with trust := s.trust } = s := by
  refine ⟨kemInstall s, congrArg _ (regEnter_reaches reach), ?_⟩
  by_cases passes : (packageReason s (regBytes s 0x7000 428)).1 = 0
  · obtain ⟨x, active, keygen, prev, e⟩ := kemInstall_passes secure passes
    refine ⟨fun _ => ?_, fun fails => absurd passes fails, by rw [e]⟩
    have tenants (n : Nat) : tenantOf (kemInstall s) n =
        if n = packageKey (parsePackage (regBytes s 0x7000 428)) then x else tenantOf s n := by
      rw [e]
      exact tabGetD_tabSet _ _ _ _ _
    rw [tenants, if_pos rfl]
    exact ⟨by rw [e], active, keygen, prev, fun n other => by rw [tenants, if_neg other]⟩
  · rw [kemInstall_fails secure passes]
    exact ⟨fun none => absurd none passes, fun _ => ⟨rfl, rfl, rfl⟩, rfl⟩

/-- Settles O20: slot extension, the link keys and key packages over a SECURE link (R430, R435 to R441), and check 4
(`keygenFits_iff`). -/
theorem keysAndSlots : Obligations.KeysAndSlots := by
  refine ⟨fun s runs => ⟨extendGo_extends, fun reach plain => ?_, kemLink_secures, kemInstall_installs⟩, fun t p here => ?_⟩
  · exact congrArg _ ((regEnter_reaches (f := extendGo) reach).trans (if_neg (by simp [plain])))
  · have fits := keygenFits_iff (p := p) here
    refine ⟨fun first new => ?_, fun g first retired => ?_, fun g later current => ?_, fun later absent => ?_⟩
    · exact fits.2 (by simp [first, new])
    · exact fits.trans (by simp [first, retired])
    · exact fits.trans (by simp [later, current])
    · refine Bool.eq_false_of_not_eq_true fun yes => ?_
      have found := fits.1 yes
      rw [if_neg (by simp [later])] at found
      obtain ⟨g, held, -⟩ := found
      simp [absent] at held

/-! ### The removal of a tenant (R442 to R445) -/

theorem tenantAbsent_prev (s : State) (n : Nat) : (tenantOf (tenantAbsent s n) n).prev = (tenantOf s n).prev := by
  unfold tenantAbsent
  dsimp only
  split
  · rw [tenantOf_set, if_pos rfl]
  · rfl

/-- The erasure of a retired generation leaves no previous one (R443). -/
theorem eraseKeys_prev (s : State) (n : Nat) : (tenantOf (eraseKeys s n) n).prev = none := by
  unfold eraseKeys
  split <;> rw [tenantAbsent_prev, tenantOf_modTenant, if_pos rfl]

theorem exec_tenantRemove {s : State} (reach : Reaches s 0x6408) (secure : s.link.state = 3) : exec .tenantRemove s =
    .next (if (tenantOf s (fld s 0x6400 11 0)).state = 1 then removeTenant s (fld s 0x6400 11 0)
      else { s with trust := { s.trust with ignored := tabModD s.trust.ignored (fld s 0x6400 11 0) 0 (· + 1) } }) := by
  refine congrArg _ ((regEnter_reaches reach).trans ?_)
  rw [tenantRemove, managed_secure secure]

theorem exec_drainFence {s : State} (runs : s.running = true) {e : Fin 32} {n : Nat} (drains : (tenantOf s n).prev ≠ none)
    (new : e.val ∉ (tenantOf s n).drained) : exec (.drainFence e n) s =
      .next (if (tenantOf s n).drained.length + 1 = 32 then
          eraseKeys (modTenant s n fun x => { x with drained := (tenantOf s n).drained ++ [e.val] }) n
        else modTenant s n fun x => { x with drained := (tenantOf s n).drained ++ [e.val] }) := by
  show execDrainFence e n s = _
  simp [execDrainFence, runs, drains, new]

/-- Settles O21: the removal of an ACTIVE tenant, and the erasure at the last drain fence or after KEY_DRAIN (R442, R443, R445). -/
theorem tenantsRemoved : Obligations.TenantsRemoved := by
  intro s runs
  refine ⟨fun reach secure active => ?_, fun reach secure other => ?_, fun e n drains new more => ?_,
    fun e n drains new last => ?_, fun n g since prev due => ?_⟩
  · rw [exec_tenantRemove reach secure, if_pos active]
  · rw [exec_tenantRemove reach secure, if_neg other]
  · rw [exec_drainFence runs drains new, if_neg (by omega)]
  · refine ⟨_, exec_drainFence runs drains new, ?_⟩
    rw [if_pos (by omega)]
    exact eraseKeys_prev _ n
  · refine ⟨eraseKeys s n, ?_, eraseKeys_prev s n⟩
    show execKeyDrainExpiry n s = _
    simp only [execKeyDrainExpiry, prev, runs, elapsed, due, decide_true, Bool.and_self, if_true]

end Sys2Proof.Machine

/-!
The fault and observation families: the fault collector, injections and Cask writes, and snapshots.
-/

namespace Sys2Proof.Machine

/-! ### The fault collector (R476 to R482) -/

/-- Changes of distinct sources, each its own: what a source holds after them. -/
theorem srcOf_foldState_modSrc {f : Nat → FaultSrc → FaultSrc} {l : List Nat} (nodup : l.Nodup) (s : State) (n : Nat) :
    srcOf (foldState (fun s k => modSrc s k (f k)) s l) n = if n ∈ l then f n (srcOf s n) else srcOf s n := by
  induction l generalizing s with
  | nil => rfl
  | cons k l ih =>
    obtain ⟨absent, nodup⟩ := List.nodup_cons.1 nodup
    refine (ih nodup (modSrc s k (f k))).trans ?_
    rw [srcOf_modSrc]
    by_cases same : n = k
    · subst same
      rw [if_neg absent, if_pos rfl, if_pos List.mem_cons_self]
    · rw [if_neg same]
      simp only [List.mem_cons, same, false_or]

theorem foldState_modSrc_frame (f : Nat → FaultSrc → FaultSrc) (l : List Nat) (s : State) :
    { foldState (fun s k => modSrc s k (f k)) s l with fault := s.fault } = s := by
  induction l generalizing s with
  | nil => rfl
  | cons k l ih => exact congrArg (fun t : State => { t with fault := s.fault }) (ih (modSrc s k (f k)))

/-- What the end of a window leaves of a source of it. -/
def windowLeft (s : State) (n : Nat) (x : FaultSrc) : FaultSrc :=
  { x with win := 0, escalated := x.escalated && decide (pThreshold s n ≤ x.win) }

/-- The changes of the sources do not change what a window leaves. -/
theorem foldState_windowLeft (s : State) (l : List Nat) : ∀ {t : State}, windowLeft t = windowLeft s →
    foldState (fun t n => modSrc t n (windowLeft t n)) t l = foldState (fun t n => modSrc t n (windowLeft s n)) t l := by
  induction l with
  | nil => exact fun _ => rfl
  | cons k l ih =>
    intro t same
    refine (ih (t := modSrc t k (windowLeft t k)) same).trans ?_
    rw [same]
    rfl

/-- The sources of a window. -/
def windowSources (s : State) (k : Nat) : List Nat := (List.range 63).filter fun n => pWinEn s n && pWindow s n == k

/-- The end of a window changes its sources, and sets its next end. -/
theorem windowEnd_leaves (s : State) (k : Nat) : ∃ (t : State) (w : Tab Nat),
    t = foldState (fun t n => modSrc t n (windowLeft s n)) s (windowSources s k) ∧
    windowEnd s k = { t with fault := { t.fault with winEnd := w } } := by
  rw [← foldState_windowLeft s _ rfl]
  exact ⟨_, _, rfl, rfl⟩

theorem exec_faultEvent_none {s : State} (runs : s.running = true) : exec (.faultEvent none) s = .next (match s.fault.events with
    | [] => s
    | ev :: rest => handleEvent (if pWinEn s ev.source && windowDue s (pWindow s ev.source)
        then windowEnd { s with fault := { s.fault with events := rest } } (pWindow s ev.source)
        else { s with fault := { s.fault with events := rest } }) ev) := by
  show execFaultEvent s none = _
  have on : ¬(!s.running) = true := by simp [runs]
  unfold execFaultEvent
  dsimp only
  cases s.fault.events with
  | nil => rfl
  | cons ev rest => exact congrArg _ (if_neg on)

theorem selfCheck_events (s : State) (c : SelfCheck) :
    (selfCheck s c).fault.events = s.fault.events ++ [{ source := c.source, unit := selfUnit c, detail := c.detail }] := by
  unfold selfCheck
  dsimp only
  repeat' split
  all_goals rfl

theorem tabGetD_map {β : Type} (f : Nat → β → β) {d : β} (same : ∀ k, f k d = d) (t : Tab β) (n : Nat) :
    tabGetD (t.map fun e => (e.1, f e.1 e.2)) n d = f n (tabGetD t n d) := by
  induction t with
  | nil => exact (same n).symm
  | cons e t ih =>
    obtain ⟨k, x⟩ := e
    simp only [tabGetD, tabGet, List.map_cons] at ih ⊢
    by_cases own : k = n
    · rw [if_pos own, if_pos own, own]
      rfl
    · rw [if_neg own, if_neg own]
      exact ih

/-- A source that the word names loses its sticky bit, and keeps the rest. -/
theorem srcOf_stickyClr (s : State) (high : Bool) (bits n : Nat) : srcOf (stickyClr s high bits) n =
    if (high == decide (32 ≤ n)) && bitOf (n % 32) bits then { srcOf s n with sticky := false } else srcOf s n := by
  have half (k : Nat) : (if high then decide (32 ≤ k) else decide (k < 32)) = (high == decide (32 ≤ k)) := by
    cases high
    · rcases Nat.lt_or_ge k 32 with below | above
      · simp [below, Nat.not_le.2 below]
      · simp [above, Nat.not_lt.2 above]
    · simp
  have cleared := tabGetD_map (fun k x => if (high == decide (32 ≤ k)) && bitOf (k % 32) bits then { x with sticky := false } else x)
    (d := ({} : FaultSrc)) (fun k => by split <;> rfl) s.fault.srcs n
  have same : (stickyClr s high bits).fault.srcs = s.fault.srcs.map fun e =>
      (e.1, if (high == decide (32 ≤ e.1)) && bitOf (e.1 % 32) bits then { e.2 with sticky := false } else e.2) := by
    refine List.map_congr_left fun e _ => ?_
    simp only [half]
    split <;> rfl
  rw [srcOf, same]
  exact cleared

theorem faultWindowEnd_ends {s : State} (runs : s.running = true) {k : Fin 16} (due : windowDue s k.val = true) :
    Gives (.faultWindowEnd k) s fun t =>
      (∀ n : Nat, n < 63 → pWinEn s n = true → pWindow s n = k.val → srcOf t n =
        { srcOf s n with win := 0, escalated := (srcOf s n).escalated && decide (pThreshold s n ≤ (srcOf s n).win) }) ∧
      (∀ n : Nat, n < 63 → ¬(pWinEn s n = true ∧ pWindow s n = k.val) → srcOf t n = srcOf s n) ∧
      { t with fault := s.fault } = s := by
  refine ⟨windowEnd s k.val, ?_, ?_⟩
  · show execFaultWindowEnd k s = _
    simp only [execFaultWindowEnd, runs, due, Bool.and_self, if_true]
  · obtain ⟨u, w, sources, e⟩ := windowEnd_leaves s k.val
    have left (n : Nat) : srcOf (windowEnd s k.val) n =
        if n ∈ windowSources s k.val then windowLeft s n (srcOf s n) else srcOf s n := by
      refine Eq.trans ?_ (srcOf_foldState_modSrc (f := windowLeft s) (l := windowSources s k.val) (List.nodup_range.filter _) s n)
      rw [e, ← sources]
      rfl
    refine ⟨fun n below enabled own => ?_, fun n below other => ?_, ?_⟩
    · rw [left, if_pos (by simp [windowSources, below, enabled, own])]
      rfl
    · rw [left, if_neg (by simpa [windowSources, below] using other)]
    · rw [e]
      exact sources ▸ foldState_modSrc_frame (windowLeft s) _ s

theorem exec_logPeriodEnd {s : State} (runs : s.running = true) {n : Fin 64} {t : Nat} (start : (srcOf s n.val).logStart = some t)
    (late : t + 100000000 ≤ now s) : exec (.logPeriodEnd n) s = .next (modSrc (if (srcOf s n.val).logMissed = 0 then s else
        caskNote s 0x13 (faultPayload s { source := n.val } (effSeverity s n.val) false (srcOf s n.val).logMissed 0)) n.val
      fun x => { x with logStart := none, logCount := 0, logMissed := 0 }) := by
  show execLogPeriodEnd n s = _
  simp only [execLogPeriodEnd, start, runs, elapsed, late, decide_true, Bool.and_self, if_true]

theorem caskNote_only (s : State) (kind : Nat) (payload : List Byte) :
    ∃ c x, caskNote s kind payload = { s with cask := c, fault := x } :=
  caskRec_only_cask_fault s _

/-- Settles O24: the collector handles its events in order, ends windows, lines and log periods, and clears sticky bits (R476 to R482). -/
theorem faultCollector : Obligations.FaultCollector := by
  intro s runs
  refine ⟨fun c => ⟨fun own => ⟨?_, selfCheck_events s c⟩, fun other => ?_⟩, fun ev rest waits => ?_, fun none => ?_,
    fun k => faultWindowEnd_ends runs, fun n t since late => ?_, fun n t start late none => ?_, fun n t start late some => ?_,
    fun high bits reach => ?_⟩
  · show execFaultEvent s (some c) = execFaultEvent (selfCheck s c) none
    simp only [execFaultEvent, runs, own, Bool.and_self, if_true]
  · show execFaultEvent s (some c) = execFaultEvent s none
    simp only [execFaultEvent, other, Bool.and_false, Bool.false_eq_true, if_false]
  · rw [exec_faultEvent_none runs, waits]
  · rw [exec_faultEvent_none runs, none]
  · show execEventLineDrop n s = _
    simp only [execEventLineDrop, since, runs, elapsed, late, decide_true, Bool.and_self, if_true]
  · rw [exec_logPeriodEnd runs start late, if_pos none]
  · refine ⟨_, exec_logPeriodEnd runs start late, ?_⟩
    dsimp only
    rw [if_neg some, srcOf_modSrc, if_pos rfl]
    obtain ⟨c, x, e⟩ := caskNote_only s 0x13
      (faultPayload s { source := n.val } (effSeverity s n.val) false (srcOf s n.val).logMissed 0)
    exact ⟨rfl, rfl, rfl, by rw [e]; rfl⟩
  · refine ⟨stickyClr s high bits.toNat, congrArg _ (regEnter_reaches reach), fun n below => ?_, rfl⟩
    rw [srcOf_stickyClr]
    split <;> simp [*]

/-! ### Injections, and the write of a Cask record (R491, R492, R497) -/

/-- An armed injection fires once at a check of its checker and unit. -/
theorem fireInj_fires {s : State} {checker unit : Nat} (armed : s.fault.inj.status = 1) (own : s.fault.inj.checker = checker)
    (same : s.fault.inj.unit = unit) : ∃ m u, fireInj s checker unit = some (m, u) ∧ u.cask = s.cask ∧ u.fault.inj.status = 2 ∧
      u.fault.inj.count = s.fault.inj.count + 1 ∧ { u with cask := s.cask, fault := s.fault } = s :=
  ⟨_, _, if_pos ⟨armed, own, same⟩, rfl, rfl, rfl, rfl⟩

/-- Settles O25: what ARM and DISARM make of the injection, and the write of the record at the head of the queue (R491, R492, R497). -/
theorem injectionsAndRecords : Obligations.InjectionsAndRecords := by
  intro s
  refine ⟨fun reach idle enabled secure unit => ?_, fun reach idle refused => ?_, fun reach armed => ⟨?_, ?_⟩,
    fun j rest runs head none => ⟨fun unarmed => ?_, fun armed checker unit => ?_⟩⟩
  · refine congrArg _ ((regEnter_reaches (f := injArm) reach).trans ?_)
    rw [injArm, if_neg idle]
    exact if_pos (by simp [enabled, secure, unit])
  · refine congrArg _ ((regEnter_reaches (f := injArm) reach).trans ?_)
    rw [injArm, if_neg idle]
    refine if_neg ?_
    rcases refused with e | e | e
    · simp [e]
    · simp [e]
    · simp [Nat.not_lt.2 e]
  · exact congrArg _ ((regEnter_reaches (f := injArm) reach).trans (if_pos armed))
  · exact congrArg _ ((regEnter_reaches (f := injDisarm) reach).trans (if_pos armed))
  · have idle : fireInj s 12 0 = Option.none := if_neg unarmed
    show execCaskRecordWrite s = _
    simp [execCaskRecordWrite, runs, head, idle, caskWriteHead, caskAdmit, caskStore, none]
  · obtain ⟨m, u, fires, cask, status, count, frame⟩ := fireInj_fires armed checker unit
    have on : ¬(!s.running || s.cask.queue.isEmpty) = true := by simp [runs, head]
    have writes : caskAdmit (caskWriteHead u true) = { u with cask := caskStore { s.cask with queue := rest } j true } := by
      simp [caskWriteHead, caskAdmit, caskStore, cask, head, none]
    refine ⟨_, (show execCaskRecordWrite s = _ by simp only [execCaskRecordWrite, if_neg on, fires, writes]; rfl), ?_⟩
    exact ⟨rfl, status, count, frame⟩

/-! ### Halos and fabric snapshots (R506 to R508, R512, R513) -/

/-- A state that differs from `s` in its trace alone. -/
def OnlyTrace (s t : State) : Prop := ∃ x y, t = { s with snap := { s.snap with trace := x, traceHead := y } }

theorem OnlyTrace.write {s t : State} (only : OnlyTrace s t) (entry : List Byte) : OnlyTrace s (traceWrite t entry) := by
  obtain ⟨x, y, rfl⟩ := only
  exact ⟨_, _, rfl⟩

theorem capture_only_trace (s : State) : OnlyTrace s (capture s) :=
  foldState_preserves (P := OnlyTrace s) (fun _ _ only => only.write _) _ (OnlyTrace.write ⟨_, _, rfl⟩ _)

/-- `t` is `s` with a Halo of source `src` taken: its number, its source, and whether its words are held (R506 to R508). -/
def HaloTaken (s : State) (src : Nat) (t : State) : Prop :=
  t.snap.haloNo = (s.snap.haloNo + 1) % 65536 ∧ t.snap.lastSrc = 2 ^ src ∧
    t.snap.state = (if fld s 0x3000 4 4 = 1 then 3 else 2) ∧ { t with snap := s.snap } = s

theorem latchHalo_takes (s : State) (src snapId : Nat) : HaloTaken s src (latchHalo s src snapId) := by
  unfold latchHalo
  extract_lets snap0 s1 data hold snap1 s2
  split
  · obtain ⟨x, y, e⟩ := capture_only_trace s2
    rw [e]
    exact ⟨rfl, rfl, rfl, rfl⟩
  · exact ⟨rfl, rfl, rfl, rfl⟩

theorem halo_latches {s : State} (free : haloFree s = true) (alone : fld s 0x3000 3 3 = 0 ∨ s.comp.map = none) (src : Nat) :
    halo s src = latchHalo s src 0 := by
  have alone : ¬(fld s 0x3000 3 3 = 1 ∧ s.comp.map.isSome = true) := by
    rcases alone with e | e <;> simp [e]
  rw [halo, if_pos free]
  exact if_neg alone

/-- A trigger that makes no Halo joins the last one in its stage, or is missed (R506, R508). -/
theorem halo_late {s : State} (busy : haloFree s = false) (src : Nat) : halo s src = (haloLate s src 0).2 := by
  rw [halo, if_neg (by simp [busy])]

/-- Settles O27: triggers, the hold, markers and the end of a drain (R506 to R508, R512, R513). -/
theorem snapshots : Obligations.Snapshots := by
  intro s runs
  refine ⟨?_, fun busy reach => ⟨fun later => ?_, fun same => ?_⟩, fun held reach => ?_, ?_, fun d complete => ?_, fun d late => ?_⟩
  · rintro taken rfl free alone
    refine ⟨fun reach => ⟨halo s 1, congrArg _ (regEnter_reaches reach), ?_⟩, fun ticks long enabled => ⟨halo s 0, ?_, ?_⟩⟩
    · rw [halo_latches free alone]
      exact latchHalo_takes s 1 0
    · show execHaloIn ticks s = _
      simp [execHaloIn, runs, long, enabled]
    · rw [halo_latches free alone]
      exact latchHalo_takes s 0 0
  · refine congrArg _ ((regEnter_reaches reach).trans ?_)
    rw [halo_late busy, haloLate, if_neg (by simp [later])]
    rfl
  · refine ⟨halo s 1, congrArg _ (regEnter_reaches reach), ?_⟩
    have late : halo s 1 = joinHalo (draw s).2 1 0 ∨ halo s 1 = missHalo (draw s).2 := by
      rw [halo_late busy, haloLate, if_pos same]
      dsimp only
      split
      · exact Or.inl rfl
      · exact Or.inr rfl
    rcases late with e | e
    · rw [e]
      exact ⟨Or.inl rfl, rfl⟩
    · rw [e]
      exact ⟨Or.inr rfl, rfl⟩
  · exact congrArg _ ((regEnter_reaches (f := snapRelease) reach).trans (if_pos held))
  · rintro src snapId epoch s0 rfl may
    obtain ⟨n, taken⟩ := takeKind_only_net s src 0x1C
    have marks : exec (.haloMark src snapId epoch) s = .next (haloMark (takeKind s src 0x1C) src snapId epoch) := by
      show execHaloMark src snapId epoch s = _
      simp only [execHaloMark, runs, may, Bool.not_true, Bool.false_eq_true, if_false, if_true]
    have fabric (epoch : Nat) : ((takeKind s src 0x1C).comp.map.isNone || epoch != epochOf (takeKind s src 0x1C)) =
        (s.comp.map.isNone || epoch != epochOf s) := by
      rw [taken]
      rfl
    rw [marks, haloMark]
    refine ⟨fun installed same new free => ?_, fun installed other => ?_⟩
    · have free' : haloFree (takeKind s src 0x1C) = true := by
        rw [taken]
        exact free
      have new' : (takeKind s src 0x1C).snap.ids.contains snapId = false := by
        rw [taken]
        exact new
      dsimp only
      rw [fabric, if_neg (by simp [installed, same]), if_neg (by simp only [new', Bool.false_eq_true, not_false_iff]), if_pos free']
    · dsimp only
      rw [fabric, if_pos (by simp [other])]
  · show execHaloDrainDone s = _
    simp only [execHaloDrainDone, complete, runs, if_true]
  · show execHaloDrainTimeout s = _
    simp only [execHaloDrainTimeout, late, runs, if_true]

end Sys2Proof.Machine

/-!
The recovery family, second part: pin reset, power-up, the soft reset, and the loss of a core supply.
-/

namespace Sys2Proof.Machine

/-! ### Reset and power (R447, R452, R470, R471, R499, R527, R547, R548, R555) -/

theorem caskWriteHead_only_cask (s : State) (bad : Bool) : ∃ c, caskWriteHead s bad = { s with cask := c } := by
  unfold caskWriteHead
  split
  · exact ⟨s.cask, rfl⟩
  · exact ⟨_, rfl⟩

/-- The record that is being written is finished, and none other starts: the Cask alone changes. -/
theorem finishRecord_only_cask (s : State) : ∃ c : CaskSt, c.queue = [] ∧ c.waiting = [] ∧ finishRecord s = { s with cask := c } := by
  unfold finishRecord
  dsimp only
  split
  · obtain ⟨c, e⟩ := caskWriteHead_only_cask s false
    rw [e]
    exact ⟨{ c with queue := [], waiting := [] }, rfl, rfl, rfl⟩
  · exact ⟨{ s.cask with queue := [], waiting := [] }, rfl, rfl, rfl⟩

/-- What pin reset takes and what it leaves (R470, R547). -/
theorem perstNAssert_resets (s : State) : Gives .perstNAssert s fun t =>
    t.running = false ∧ t.regs = [] ∧ t.fault = {} ∧ t.time = {} ∧ t.net = {} ∧ t.exec = {} ∧ t.comp = {} ∧ t.ledger = {} ∧
    t.pfx = {} ∧ t.link = {} ∧ t.outcomes = [] ∧ t.mem.seqs = [] ∧ t.mem.frames = [] ∧ t.mem.slots = [] ∧ t.trust.tenants = [] ∧
    t.boot.flash = s.boot.flash ∧ t.trust.fuseOwned = s.trust.fuseOwned ∧ t.trust.fuseHash = s.trust.fuseHash ∧
    t.mem.guests = s.mem.guests.filter (fun g => g.committed) := by
  obtain ⟨c, -, -, e⟩ := finishRecord_only_cask s
  refine ⟨underReset (finishRecord s), rfl, ?_⟩
  rw [e]
  exact ⟨rfl, rfl, rfl, rfl, rfl, rfl, rfl, rfl, rfl, rfl, rfl, rfl, rfl, rfl, rfl, rfl, rfl, rfl, rfl⟩

theorem bootStart_power (s : State) : (bootStart s).running = s.running ∧ (bootStart s).pack = s.pack := by
  have aside (t : State) (r : CaskRec) : Aside true t (caskRec t r) := caskRec_aside (.refl true t)
  exact ⟨(aside _ _).running, (aside _ _).pack⟩

/-- The boot runs the interior, out of pin reset (R452). -/
theorem powerUp_runs (env : BootEnv) (s : State) : (powerUp env s).running = true ∧ (powerUp env s).pack.pinReset = false := by
  unfold powerUp
  extract_lets p0 t0 s0 s1 s2
  have kept : Kept { fence := true, flash := true, regs := true } (bootStart s0) (bootStep env 10 bootReady (bootUnits env s2)) := by
    have k1 : Kept { fence := true, flash := true, regs := true } (bootStart s0) s1 := bootStep_kept (fun _ => bootFuses_kept) (.refl _ _)
    have k2 : Kept { fence := true, flash := true, regs := true } (bootStart s0) s2 :=
      bootStep_kept (fun _ => bootConfig_kept rfl rfl)
        (bootStep_kept (fun _ => bootImages_kept rfl) (bootStep_kept (fun _ => bootBank_kept rfl) k1))
    exact bootStep_kept (fun _ => bootReady_kept) (bootUnits_kept k2)
  exact ⟨(kept.running rfl).trans (bootStart_power s0).1, (kept.pinReset rfl).trans (congrArg PackSt.pinReset (bootStart_power s0).2)⟩

theorem refence_fenced (s : State) : (refence s).fault.fenced = true := by
  unfold refence
  dsimp only
  repeat' split
  all_goals exact fenceNode_fenced _ _ _

/-- The soft reset keeps the stored registers and the interval counter, and fences (R471). -/
theorem softReset_keeps {s : State} (ready : s.boot.ready = true) :
    (softReset s).regs = s.regs ∧ now s ≤ now (softReset s) ∧ (softReset s).fault.fenced = true := by
  have kept := softReset_kept (al := { fence := true }) rfl (.refl _ s)
  refine ⟨kept.regs rfl, kept.counter rfl, ?_⟩
  rw [softReset, if_neg (by simp [ready])]
  exact refence_fenced _

/-- Settles O23: pin reset, power-up, the soft reset, and the loss of a core supply (R470, R471, R499, R527, R547, R548, R555). -/
theorem resetsAndPower : Obligations.ResetsAndPower := by
  refine ⟨perstNAssert_resets, fun env s held live => ⟨?_, powerUp_runs env s⟩, fun s reach ready =>
    ⟨congrArg _ (regEnter_reaches reach), softReset_keeps ready⟩, ?_, fun s runs => ?_⟩
  · exact congrArg _ (if_pos (by simp [held, live]))
  · rintro s u rfl
    obtain ⟨c, queue, waiting, e⟩ := finishRecord_only_cask s
    refine ⟨rfl, rfl, ?_⟩
    rw [e]
    exact ⟨queue, waiting, rfl⟩
  · show execCoreEPowerLoss s = _
    rw [execCoreEPowerLoss, if_pos runs]

end Sys2Proof.Machine

/-!
The Ranup Link family: training, flits and their replay, messages over the link, and reads of host memory.
-/

namespace Sys2Proof.Machine

/-! ### Training (R397, R399) -/

/-- An event of training on a node with its reference clock (R397): the step, and flit lock lets the fault source fall. -/
theorem exec_linkTraining {s : State} (runs : s.running = true) (clock : s.time.backup = false) (trains : s.link.state = 1)
    (e : LinkEvent) : exec (.linkTraining e) s = .next (if (trainStep s.link e).state = 2 then
        setLevel { s with link := trainStep s.link e } 15 false else { s with link := trainStep s.link e }) := by
  show execLinkTraining e s = _
  rw [execLinkTraining, if_neg (by simp [runs, clock, trains])]

theorem trainStep_boundExceeded (l : LinkSt) : trainStep l .boundExceeded = trainFails l := by
  unfold trainStep
  split <;> simp_all

theorem trainStep_flitLock {l : LinkSt} (step : l.step = 4) : (trainStep l .flitLock).state = 2 ∧ (trainStep l .flitLock).txSeq = 0 ∧
    (trainStep l .flitLock).rxSeq = 0 ∧ (trainStep l .flitLock).kept = [] := by
  simp [trainStep, step, linkControl, linkEmit]

theorem flitLock_up {s : State} (runs : s.running = true) (clock : s.time.backup = false) (trains : s.link.state = 1)
    (step : s.link.step = 4) : Gives (.linkTraining .flitLock) s fun t => t.link.state = 2 ∧ t.link.txSeq = 0 ∧ t.link.rxSeq = 0 ∧
      t.link.kept = [] ∧ (srcOf t 15).level = false ∧ { t with link := s.link, fault := s.fault } = s := by
  obtain ⟨state, tx, rx, kept⟩ := trainStep_flitLock step
  refine ⟨_, exec_linkTraining runs clock trains .flitLock, ?_⟩
  rw [if_pos state]
  have level := srcOf_setLevel_level { s with link := trainStep s.link .flitLock } 15 false {}
  obtain ⟨x, e⟩ := setLevel_only_fault { s with link := trainStep s.link .flitLock } 15 false {}
  rw [e] at level ⊢
  exact ⟨state, tx, rx, kept, level, rfl⟩

/-- RETRAIN of an up link takes it down and trains it with full ceilings. -/
theorem hlRetrain_trains {s : State} (runs : s.running = true) (reach : Reaches s 0x3000C) : Gives .hlRetrain s fun t =>
    t.link.state = 1 ∧ t.link.step = 1 ∧ t.link.fails = 0 ∧ t.link.genCeil = fld s 0x30000 1 0 ∧
    t.link.widthCeil = fld s 0x30000 3 2 := by
  obtain ⟨-, up, -⟩ := id reach
  obtain ⟨state, -, regs⟩ := linkGoesDown_link s
  refine ⟨hlRetrain s, congrArg _ (regEnter_reaches reach), ?_⟩
  have trains : hlRetrain s = { linkGoesDown s with
      link := { startTraining (fullCeilings (linkGoesDown s) (linkGoesDown s).link) with fails := 0 } } := by
    simp [hlRetrain, runs, up, state]
  rw [trains]
  have field (a hi lo : Nat) : fld (linkGoesDown s) a hi lo = fld s a hi lo := by simp only [fld, rd, regs]
  exact ⟨rfl, rfl, rfl, field _ _ _, field _ _ _⟩

/-- Settles O31: the steps of training, a bound that is exceeded, and RETRAIN (R397, R399). -/
theorem linkTrains : Obligations.LinkTrains := by
  intro s runs clock
  refine ⟨fun trains => ⟨fun n step lanes => ?_, fun w rev step width fits => ?_, fun g step low high => ?_,
    flitLock_up runs clock trains, fun few => ?_, fun last => ?_⟩, hlRetrain_trains runs⟩
  · have next : trainStep s.link (.bitLock n) = { s.link with step := 2 } := by simp [trainStep, step, lanes]
    rw [exec_linkTraining runs clock trains, next, if_neg (by simp [trains])]
  · have next : trainStep s.link (.widthAgreed w rev) = { s.link with step := 3, width := w, reversed := rev } := by
      simp only [List.mem_cons, List.not_mem_nil, or_false] at width
      simp [trainStep, step, width, fits]
    rw [exec_linkTraining runs clock trains, next, if_neg (by simp [trains])]
  · have next : trainStep s.link (.equalised g) = { s.link with step := 4, gen := g } := by simp [trainStep, step, low, high]
    rw [exec_linkTraining runs clock trains, next, if_neg (by simp [trains])]
  · have next : trainStep s.link .boundExceeded = { s.link with step := 1, fails := s.link.fails + 1 } := by
      rw [trainStep_boundExceeded, trainFails]
      exact if_pos (by omega)
    rw [exec_linkTraining runs clock trains, next, if_neg (by simp [trains])]
  · have next : trainStep s.link .boundExceeded =
        if 1 < s.link.genCeil then { s.link with step := 1, fails := 0, genCeil := s.link.genCeil - 1 }
        else { s.link with step := 1, fails := 0, widthCeil := min 2 (s.link.widthCeil + 1) } := by
      rw [trainStep_boundExceeded, trainFails]
      exact if_neg (by omega)
    rw [exec_linkTraining runs clock trains, next, if_neg (by split <;> simp [trains])]

/-! ### The flits that the node forms (R394, R396) -/

/-- The fields of a flit's two header bytes. -/
theorem flitHeader_fields {a k : Nat} (nak ackv : Bool) (seq : a < 4096) (kind : k < 4) :
    bitsOf 15 14 (a + flag 12 nak + flag 13 ackv + 16384 * k) = k ∧ bitOf 12 (a + flag 12 nak + flag 13 ackv + 16384 * k) = nak ∧
    bitOf 13 (a + flag 12 nak + flag 13 ackv + 16384 * k) = ackv ∧ bitsOf 11 0 (a + flag 12 nak + flag 13 ackv + 16384 * k) = a ∧
    a + flag 12 nak + flag 13 ackv + 16384 * k < 65536 := by
  unfold bitsOf bitOf flag
  cases nak <;> cases ackv <;> simp <;> omega

theorem take_padTo {k n : Nat} (le : k ≤ n) (bs : List Byte) : (padTo n bs).take k = padTo k bs := by
  simp only [padTo, List.take_append, List.take_take, List.take_replicate, List.length_take]
  congr 2 <;> omega

theorem flitHeader_length (l : LinkSt) (kind : Nat) (nak : Bool) : (flitHeader l kind nak).length = 2 := le_length 2 _

theorem flitBody_length (l : LinkSt) (kind : Nat) (head payload : List Byte) : (flitBody l kind head payload).length = 500 := by
  unfold flitBody
  split
  · split <;> exact padTo_length _ _
  · exact padTo_length _ _

/-- The parts of a flit: two header bytes, payload and tag, the CRC over both, and six bytes of FEC. -/
theorem flitBytes_parts (l : LinkSt) (kind : Nat) (nak : Bool) (payload : List Byte) : ∃ b fec : List Byte,
    b.length = 502 ∧ fec.length = 6 ∧ flitBytes l kind nak payload = b ++ le 4 (crc32c b).toNat ++ fec := by
  refine ⟨flitHeader l kind nak ++ flitBody l kind (flitHeader l kind nak) payload, _, ?_, padTo_length 6 _, rfl⟩
  rw [List.length_append, flitHeader_length, flitBody_length]

/-- A flit begins with its header, and then its payload and tag. -/
theorem flitBytes_begins (l : LinkSt) (kind : Nat) (nak : Bool) (payload : List Byte) : ∃ t : List Byte,
    flitBytes l kind nak payload = flitHeader l kind nak ++ (flitBody l kind (flitHeader l kind nak) payload ++ t) := by
  unfold flitBytes
  dsimp only
  rw [List.append_assoc, List.append_assoc]
  exact ⟨_, rfl⟩

theorem flitBytes_length (l : LinkSt) (kind : Nat) (nak : Bool) (payload : List Byte) :
    (flitBytes l kind nak payload).length = 512 := by
  obtain ⟨b, fec, long, six, e⟩ := flitBytes_parts l kind nak payload
  rw [e, List.length_append, List.length_append, le_length, long, six]

theorem flitCrcOk_formed {f : Flit} {l : LinkSt} {kind : Nat} {nak : Bool} {payload : List Byte}
    (formed : f.bytes = flitBytes l kind nak payload) : flitCrcOk f = true := by
  obtain ⟨b, fec, long, -, e⟩ := flitBytes_parts l kind nak payload
  have small : (crc32c b).toNat < 256 ^ 4 := Nat.lt_of_lt_of_eq (crc32c b).isLt (by decide)
  have crc := fieldLe_append b fec 4 (crc32c b).toNat
  rw [long, Nat.mod_eq_of_lt small] at crc
  have head : (b ++ le 4 (crc32c b).toNat ++ fec).take 502 = b := by
    rw [List.append_assoc, ← long, List.take_left]
  rw [flitCrcOk, formed, e, head, crc]
  exact beq_self_eq_true _

/-- The header of a flit that the node formed. -/
theorem fieldLe_header {f : Flit} {l : LinkSt} {kind : Nat} {nak : Bool} {payload : List Byte} (known : kind < 4)
    (formed : f.bytes = flitBytes l kind nak payload) :
    fieldLe f.bytes 0 2 = (l.rxSeq + 4095) % 4096 + flag 12 nak + flag 13 (l.rxAny || nak) + 16384 * kind := by
  obtain ⟨t, e⟩ := flitBytes_begins l kind nak payload
  obtain ⟨-, -, -, -, small⟩ := flitHeader_fields nak (l.rxAny || nak) (Nat.mod_lt (l.rxSeq + 4095) (by decide : 0 < 4096)) known
  rw [formed, e]
  exact (fieldLe_append [] (flitBody l kind (flitHeader l kind nak) payload ++ t) 2 _).trans
    (Nat.mod_eq_of_lt (Nat.lt_of_lt_of_eq small (by decide)))

/-- Over a PLAIN link the payload is the stream's bytes as they are (R396). -/
theorem flitPayload_plain {f : Flit} {l : LinkSt} {kind : Nat} {nak : Bool} {payload : List Byte}
    (formed : f.bytes = flitBytes l kind nak payload) (plain : l.state ≠ 3) : flitPayload l f = padTo 484 payload := by
  obtain ⟨t, e⟩ := flitBytes_begins l kind nak payload
  have body : flitBody l kind (flitHeader l kind nak) payload = padTo 484 payload ++ (padTo 500 payload).drop 484 := by
    rw [← take_padTo (by decide : 484 ≤ 500), List.take_append_drop]
    unfold flitBody
    split
    · exact if_neg plain
    · rfl
  have cut := slice_append (flitHeader l kind nak) (padTo 484 payload) ((padTo 500 payload).drop 484 ++ t)
  rw [padTo_length, flitHeader_length] at cut
  rw [flitPayload, if_neg plain, formed, e, body, List.append_assoc, ← List.append_assoc]
  exact cut

/-! ### Flits that arrive (R395, R396, R402, R404) -/

/-- A flit without a NAK that passed its checks, over an up link. -/
theorem flitAccept_good {s : State} (up : 2 ≤ s.link.state) {f : Flit} {l : LinkSt}
    (acked : l = if flitAckv f then linkAck s.link (flitAckSeq f) else s.link)
    (good : flitNak f = false) : flitAccept s f = if flitKind f = 0 then flitData { s with link := l } f
      else if flitKind f = 1 then linkPump { s with link := linkCredit l (flitPayload l f) } else linkPump { s with link := l } := by
  have state : l.state = s.link.state := by
    rw [acked]
    split <;> rfl
  unfold flitAccept
  extract_lets l1 s1
  have taken : s1 = { s with link := l } := (if_neg (by simp [good])).trans (by rw [acked])
  rw [taken, if_neg (show ¬l.state < 2 by rw [state]; exact Nat.not_lt.2 up)]

/-- A NAK with flits left that no acknowledgement covers (R395). -/
theorem linkNak_again {s : State} {a : Nat} {f : LinkFlit} {rest : List LinkFlit} (kept : (linkAck s.link a).kept = f :: rest) :
    linkNak s a = if 4 ≤ f.tries then linkGoesDown { s with link := linkAck s.link a }
      else { s with link := { linkAck s.link a with
        kept := (linkAck s.link a).kept.map (fun x => { x with tries := x.tries + 1 }),
        wire := (linkAck s.link a).wire ++ (linkAck s.link a).kept.map fun x => x.bytes } } := by
  rw [linkNak]
  dsimp only
  split
  · next none => exact absurd (none.symm.trans kept) (List.cons_ne_nil _ _).symm
  · next g more some =>
    obtain ⟨rfl, -⟩ := List.cons.inj (some.symm.trans kept)
    rfl

section
variable {s : State} (runs : s.running = true) (up : 2 ≤ s.link.state)
include runs up

theorem exec_flitReceived {f : Flit} (real : fireInj s 9 0 = none) : exec (.flitReceived f) s =
    .next (if !flitCrcOk f then flitCrcFails s false
      else if s.link.state = 3 ∧ f.tagOk = false then flitTagFails s else flitAccept s f) := by
  show execFlitReceived f s = _
  rw [execFlitReceived, if_neg (by simp [runs]), if_neg (Nat.not_lt.2 up), real]

theorem exec_nakReceived (a : Nat) : exec (.nakReceived a) s = .next (linkPump (linkNak s a)) := by
  show execNakReceived a s = _
  rw [execNakReceived, if_pos (by simp [runs, up])]

theorem exec_msg (tenant keygen : Nat) (sys mgmt : Bool) (bytes : List Byte) : exec (.msg tenant keygen sys mgmt bytes) s =
    .next (if s.link.state != 3 then { s with link := { s.link with plainDrop := s.link.plainDrop + 1 } }
      else if linkGenOk s { peer := hlEndpoint s, tenant := tenant, sys := sys } keygen then deliver s
        { src := hlEndpoint s, tenant := tenant, keygen := keygen, sys := sys, mgmt := mgmt, viaLink := true, bytes := bytes }
      else s) := by
  show execMsg tenant keygen sys mgmt bytes s = _
  rw [execMsg, if_neg (by simp [runs, Nat.not_lt.2 up])]

end

/-- A part of an answer to a read of host memory, or the whole of it. -/
theorem exec_memCpl {s : State} (runs : s.running = true) {m : MemRd} (waits : s.link.memRds.find? (fun x => x.tag == m.tag) = some m)
    (ok : Bool) (data : List Byte) : exec (.memCpl m.tag ok data) s = .next (if !ok then memRdFails s m
      else if data.length < m.len then { s with link := { s.link with memRds := s.link.memRds.map fun x =>
        if x.tag = m.tag then { x with addr := m.addr + data.length, len := m.len - data.length } else x } }
      else assignLanes { s with link := { s.link with memRds := s.link.memRds.filter fun x => x.tag != m.tag } }) := by
  show execMemCpl m.tag ok data s = _
  rw [execMemCpl, whileRunning_on runs, waits]

/-- Settles O30: what a flit, a NAK, the loss of the link, a message and an answer to a read bring about (R394 to R399, R402 to R405). -/
theorem linkTraffic : Obligations.LinkTraffic := by
  intro s runs up
  refine ⟨fun f real bad few => ?_, fun f real bad last => ?_, fun f real crc => ⟨fun secure tag => ?_, ?_⟩, ?_, fun cause => ?_,
    fun tenant keygen sys mgmt bytes => ⟨fun plain => ?_, fun secure known => ?_⟩,
    fun m data waits => ⟨fun whole => ?_, fun part => ?_, ?_, fun late => ?_⟩, ?_⟩
  · rw [exec_flitReceived runs up real, bad, Bool.not_false, if_pos rfl, flitCrcFails]
    exact congrArg _ (if_neg (by simp; omega))
  · rw [exec_flitReceived runs up real, bad, Bool.not_false, if_pos rfl, flitCrcFails]
    exact congrArg _ (if_pos (by simp; omega))
  · rw [exec_flitReceived runs up real, crc, if_neg (by simp), if_pos ⟨secure, tag⟩]
  · intro passes l acked
    have accepts : exec (.flitReceived f) s = .next (flitAccept s f) := by
      rw [exec_flitReceived runs up real, crc, if_neg (by simp), if_neg]
      rintro ⟨secure, fails⟩
      exact passes.elim (· secure) (by simp [fails])
    refine ⟨fun _ => accepts, fun good => ⟨fun data next => ⟨fun reserved => ?_, fun x taken => ?_⟩, fun data other => ?_,
      fun control => ?_⟩⟩
    · rw [accepts, flitAccept_good up acked good, if_pos data, flitData, if_neg (by simp [next]), reserved]
    · rw [accepts, flitAccept_good up acked good, if_pos data, flitData, if_neg (by simp [next]), taken]
      rfl
    · rw [accepts, flitAccept_good up acked good, if_pos data, flitData, if_pos other]
    · rw [accepts, flitAccept_good up acked good, if_neg (by simp [control]), if_pos control]
  · rintro a l rfl
    refine ⟨fun none => ?_, fun f rest kept => ⟨fun few => ?_, fun last => ?_⟩⟩
    · rw [exec_nakReceived runs up, linkNak, none]
    · rw [exec_nakReceived runs up, linkNak_again kept, if_neg (Nat.not_le.2 few)]
    · rw [exec_nakReceived runs up, linkNak_again kept, if_pos last]
  · show execLinkDown cause s = _
    rw [execLinkDown, if_pos (by simp [runs, up])]
  · rw [exec_msg runs up, if_pos (by simp [plain])]
  · rw [exec_msg runs up, if_neg (by simp [secure]), if_pos known]
  · rw [exec_memCpl runs waits, if_neg (by simp), if_neg (Nat.not_lt.2 whole)]
  · rw [exec_memCpl runs waits, if_neg (by simp), if_pos part]
  · rw [exec_memCpl runs waits, Bool.not_false, if_pos rfl]
  · show execMemRdTimeout m.tag s = _
    rw [execMemRdTimeout, whileRunning_on runs, waits]
    exact congrArg _ (if_pos (by simp [elapsed, late]))
  · intro l kind nak payload f known formed
    obtain ⟨kindOf, nakOf, ackv, seq, -⟩ := flitHeader_fields nak (l.rxAny || nak)
      (Nat.mod_lt (l.rxSeq + 4095) (by decide : 0 < 4096)) known
    rw [← fieldLe_header known formed] at kindOf nakOf ackv seq
    exact ⟨by rw [formed, flitBytes_length], flitCrcOk_formed formed, kindOf, nakOf, ackv, seq, flitPayload_plain formed⟩

end Sys2Proof.Machine

/-!
The prefix index family: the prefix commands, the sweep, the rate of a half and the cascade.
-/

namespace Sys2Proof.Machine

/-! ### Entries (R374, R375, R380 to R385) -/

theorem tabGet_isSome {β : Type} {t : Tab β} {x : Nat × β} (listed : x ∈ t) : (tabGet t x.1).isSome = true := by
  induction t with
  | nil => cases listed
  | cons e t ih =>
    obtain ⟨k, v⟩ := e
    rw [tabGet]
    rcases List.mem_cons.1 listed with rfl | later
    · simp
    · split
      · rfl
      · exact ih later

/-- A key that the table does not list leaves it as it is. -/
theorem tabDel_absent {β : Type} {t : Tab β} {n : Nat} (absent : tabGet t n = none) : tabDel t n = t := by
  refine List.filter_eq_self.2 fun x listed => ?_
  have held := tabGet_isSome listed
  refine decide_eq_true fun same => ?_
  rw [same, absent] at held
  exact absurd held Bool.false_ne_true

theorem mem_foldl_tabDel {β : Type} {x : Nat × β} (l : List Nat) : ∀ {t : Tab β},
    x ∈ l.foldl tabDel t ↔ x ∈ t ∧ x.1 ∉ l := by
  induction l with
  | nil => simp
  | cons n l ih =>
    intro t
    rw [List.foldl_cons, ih, tabDel, List.mem_filter, List.mem_cons, not_or, decide_eq_true_iff, and_assoc]

/-- A steward's update of an entry that leaves takes it out of the table. -/
theorem prefixRemove_entries (s : State) (n : Nat) : (prefixRemove s n).pfx.entries = tabDel s.pfx.entries n := by
  unfold prefixRemove
  split
  · next absent => exact (tabDel_absent absent).symm
  · rfl

theorem foldState_entries {f : State → Nat → State} (deletes : ∀ t n, (f t n).pfx.entries = tabDel t.pfx.entries n) (l : List Nat) :
    ∀ s : State, (foldState f s l).pfx.entries = l.foldl tabDel s.pfx.entries := by
  induction l with
  | nil => exact fun _ => rfl
  | cons n l ih => exact fun s => (ih (f s n)).trans (by rw [deletes, List.foldl_cons])

theorem dropStale_entries (s : State) : (dropStale s).pfx.entries = s.pfx.stale.foldl tabDel s.pfx.entries :=
  foldState_entries (fun t n => prefixRemove_entries { t with pfx := { t.pfx with updates := t.pfx.updates + 1 } } n) _ s

theorem dropStale_only_pfx (s : State) : ∃ x, dropStale s = { s with pfx := x } := by
  refine foldState_preserves (P := fun t : State => ∃ x, t = { s with pfx := x }) (fun t n only => ?_) _ ⟨s.pfx, rfl⟩
  obtain ⟨x, rfl⟩ := only
  unfold prefixRemove
  split
  · exact ⟨_, rfl⟩
  · exact ⟨_, rfl⟩

theorem dropStale_fld (s : State) (a hi lo : Nat) : fld (dropStale s) a hi lo = fld s a hi lo := by
  obtain ⟨x, e⟩ := dropStale_only_pfx s
  rw [e]
  rfl

theorem dropStale_now (s : State) : now (dropStale s) = now s := by
  obtain ⟨x, e⟩ := dropStale_only_pfx s
  rw [e]
  rfl

/-! ### The sweep, the rate and the cascade (R377, R384, R389, R390) -/

/-- The entries whose sequence is absent or being evicted. -/
def lostEntries (s : State) : List Nat := (s.pfx.entries.filter fun e =>
  match seqOf s (tabGetD s.pfx.recs e.2.record ⟨⟨0, 0⟩, 0⟩).seq with
  | none => true
  | some x => x.state == .evicting).map Prod.fst

/-- One entry that the sweep finds lost. -/
def sweepEntry (s : State) (n : Nat) : State :=
  if (tabGet s.pfx.entries n).isSome then prefixRemove { s with pfx := { s.pfx with updates := s.pfx.updates + 1 } } n else s

theorem sweepEntry_entries (s : State) (n : Nat) : (sweepEntry s n).pfx.entries = tabDel s.pfx.entries n := by
  unfold sweepEntry
  split
  · exact prefixRemove_entries _ n
  · next absent => exact (tabDel_absent (by simpa using absent)).symm

/-- The completion of the BY_SEQ deletes that waited. -/
def endBySeq (s : State) (done : List (SeqId × CmdKey)) : State :=
  foldState (fun s e => match liveOf s e.2 with
    | some l => complete s l.cmd { status := .ok }
    | none => s) s done

theorem endBySeq_pfx (done : List (SeqId × CmdKey)) (s : State) : (endBySeq s done).pfx = s.pfx := by
  refine foldState_keeps (fun t : State => t.pfx) (fun t e => ?_) done s
  split
  · exact (complete_aside (.refl true t)).pfx
  · rfl

theorem exec_prefixSweep {s : State} (runs : s.running = true) : exec .prefixSweep s =
    .next (endBySeq { foldState sweepEntry (dropStale s) (lostEntries s) with
      pfx := { (foldState sweepEntry (dropStale s) (lostEntries s)).pfx with bySeq := [] } }
      (foldState sweepEntry (dropStale s) (lostEntries s)).pfx.bySeq) :=
  congrArg _ (whileRunning_on runs)

theorem prefixSweep_leaves {s : State} (runs : s.running = true) : Gives .prefixSweep s fun t => t.pfx.bySeq = [] ∧
    (∀ x ∈ t.pfx.entries, x ∈ s.pfx.entries ∧
      ∃ q : Seq, seqOf s (tabGetD s.pfx.recs x.2.record ⟨⟨0, 0⟩, 0⟩).seq = some q ∧ q.state ≠ .evicting) := by
  refine ⟨_, exec_prefixSweep runs, ?_⟩
  dsimp only
  rw [endBySeq_pfx]
  refine ⟨rfl, fun x listed => ?_⟩
  have entries : x ∈ (lostEntries s).foldl tabDel (s.pfx.stale.foldl tabDel s.pfx.entries) := by
    rw [← dropStale_entries, ← foldState_entries sweepEntry_entries]
    exact listed
  obtain ⟨earlier, kept⟩ := (mem_foldl_tabDel _).1 entries
  obtain ⟨there, -⟩ := (mem_foldl_tabDel _).1 earlier
  refine ⟨there, ?_⟩
  have stays := fun lost => kept (List.mem_map.2 ⟨x, List.mem_filter.2 ⟨there, lost⟩, rfl⟩)
  cases held : seqOf s (tabGetD s.pfx.recs x.2.record ⟨⟨0, 0⟩, 0⟩).seq with
  | none => exact absurd (by simp [held]) stays
  | some q => exact ⟨q, rfl, fun evicting => stays (by simp [held, evicting])⟩

/-- Settles O40: the sweep, the rise of a half's rate, and the pulses, timeout and resync of the cascade (R377, R384, R389, R390). -/
theorem prefixUpkeep : Obligations.PrefixUpkeep := by
  intro s runs
  refine ⟨prefixSweep_leaves runs, fun t late => ⟨fun cool => ?_, fun cool => ?_⟩,
    fun ticks mode above => ⟨fun other => ?_, ?_⟩, fun k waits late => ?_, fun reach => ?_⟩
  · show execPrefixRateRaise 0 s = _
    simp [execPrefixRateRaise, whileRunning_on runs, cool, elapsed, late]
  · show execPrefixRateRaise 1 s = _
    simp [execPrefixRateRaise, whileRunning_on runs, cool, elapsed, late]
  · show execMatchInPulse ticks s = _
    rw [execMatchInPulse, whileRunning_on runs, if_neg (by simp [mode, above]), if_neg other]
  · show execMatchInPulse 4 s = _
    rw [execMatchInPulse, whileRunning_on runs, if_neg (by simp [mode, above]), if_pos rfl]
  · show execCascadeTimeout s = _
    rw [execCascadeTimeout, whileRunning_on runs, waits]
    exact congrArg _ (if_pos (decide_eq_true (by omega)))
  · exact congrArg _ (regEnter_reaches (f := cascResync) reach)

/-! ### The prefix commands (R378 to R385, R389, R390) -/

/-- The numbers of the entries of a sequence. -/
def entriesOf (s : State) (q : SeqId) : List Nat :=
  (s.pfx.entries.filter fun e => (tabGetD s.pfx.recs e.2.record ⟨⟨0, 0⟩, 0⟩).seq == q).map Prod.fst

/-- A BY_SEQ delete leaves the entries of its sequence to the sweep (R383). -/
def leaveToSweep (s : State) (c : Command) : State :=
  modLive { s with pfx := { s.pfx with bySeq := s.pfx.bySeq ++ [(c.desc.seq.id, cmdKey c)],
                                       stale := s.pfx.stale ++ entriesOf s c.desc.seq.id } }
    (cmdKey c) fun l => { l with executed := true }

section
variable {s : State} {c : Command} (bad : List Nat) (turn : prefixTurn s c = true) (alone : s.pfx.cascade = none)
include turn alone

theorem exec_prefixSearch {stop casc : Bool} {count mc ms cs : Nat} (body : c.desc.body = .prefixSearch stop casc count mc ms cs) :
    exec (.prefixSearch c bad) s = .next (if c.sys then complete (dropStale s) c { status := .refusedFit }
      else if casc then cascadeStart (dropStale s) c count cs bad
      else complete (searchKeys c.tenant mc ms stop bad (keyBlocks c.payload 16 count) (dropStale s) false).1 c
        { status := .ok, data := (searchKeys c.tenant mc ms stop bad (keyBlocks c.payload 16 count) (dropStale s) false).2.flatten }) := by
  show execPrefixSearch c bad s = _
  rw [execPrefixSearch, if_neg (by simp [turn, alone])]
  simp only [body, prefixRefused]

theorem exec_prefixInsert {count : Nat} (body : c.desc.body = .prefixInsert count) :
    exec (.prefixInsert c bad) s = .next (if c.sys then complete (dropStale s) c { status := .refusedFit }
      else match insertRefusal (dropStale s) c count with
        | some st => complete (dropStale s) c { status := st }
        | none => complete (insertKeys c bad count (dropStale s)).1 c
            { status := if (insertKeys c bad count (dropStale s)).2 then .internal else .ok }) := by
  show execPrefixInsert c bad s = _
  rw [execPrefixInsert, if_neg (by simp [turn, alone])]
  simp only [body, prefixRefused]
  rfl

theorem exec_prefixDelete {bySeq : Bool} {count : Nat} (body : c.desc.body = .prefixDelete bySeq count) :
    exec (.prefixDelete c bad) s = .next (if c.sys then complete (dropStale s) c { status := .refusedFit }
      else if bySeq then
        if c.desc.seq.tenant ≠ c.tenant then complete (dropStale s) c { status := .refusedFit }
        else leaveToSweep (dropStale s) c
      else complete (deleteKeys c.tenant bad (keyBlocks c.payload 16 count) (dropStale s)).1 c
        { status := if (deleteKeys c.tenant bad (keyBlocks c.payload 16 count) (dropStale s)).2 then .internal else .ok }) := by
  show execPrefixDelete c bad s = _
  rw [execPrefixDelete, if_neg (by simp [turn, alone])]
  simp only [body, prefixRefused]
  rfl

end

theorem leaveToSweep_marks (s : State) (c : Command) {n : Nat} {e : PrefEntry} (listed : (n, e) ∈ s.pfx.entries)
    (own : (tabGetD s.pfx.recs e.record ⟨⟨0, 0⟩, 0⟩).seq = c.desc.seq.id) : n ∈ (leaveToSweep s c).pfx.stale :=
  List.mem_append_right _ (List.mem_map.2 ⟨(n, e), List.mem_filter.2 ⟨listed, by simp [own]⟩, rfl⟩)

/-! One key of a command. -/

section
variable (s : State) (tenant chain scope mc ms : Nat) (up : Bool) (bad : List Nat)

/-- `s` with one more search counted. -/
def countSearch (s : State) : State := { s with pfx := { s.pfx with searches := s.pfx.searches + 1 } }

/-- `s` with one more update counted. -/
def countUpdate (s : State) : State := { s with pfx := { s.pfx with updates := s.pfx.updates + 1 } }

theorem searchKey_miss (none : prefixMatches s.pfx tenant chain scope mc ms = []) :
    searchKey s tenant chain scope mc ms up bad = (countSearch s, searchResult 0 false up 0 0, true, false) := by
  unfold searchKey
  extract_lets pfx s0 matching
  have empty : matching = [] := none
  rw [empty]
  rfl

variable {n : Nat} {more : List Nat} {inj : Bool} {v : State} (hit : prefixMatches s.pfx tenant chain scope mc ms = n :: more)
include hit

/-- A key with a match whose first entry fails its parity (R381, R385). -/
theorem searchKey_parity (fails : checkFails (countSearch s) 11 (n / 524288) (bad.contains n) = (true, inj, v)) :
    searchKey s tenant chain scope mc ms up bad = (prefixParity v n inj, searchResult 4 (!more.isEmpty) up 0 0, true, false) := by
  unfold searchKey
  extract_lets pfx s0 matching
  have first : matching = n :: more := hit
  have fails : checkFails s0 11 (n / 524288) (bad.contains n) = (true, inj, v) := fails
  rw [first]
  dsimp -zeta only
  rw [fails]
  rfl

/-- A key with a match whose first entry passes: a HIT where its sequence is there and not being evicted, else STALE (R381). -/
theorem searchKey_passes {e : PrefEntry} {r : PrefRec}
    (passes : checkFails (countSearch s) 11 (n / 524288) (bad.contains n) = (false, inj, v))
    (entry : tabGet v.pfx.entries n = some e) (record : tabGet v.pfx.recs e.record = some r) :
    searchKey s tenant chain scope mc ms up bad = match seqOf v r.seq with
      | some x => if x.state == .evicting then
          ({ v with pfx := { v.pfx with staleCount := v.pfx.staleCount + 1, stale := v.pfx.stale ++ [n] } },
            searchResult 2 (!more.isEmpty) up 0 0, true, false)
        else ({ v with pfx := { v.pfx with hits := v.pfx.hits + 1 } }, searchResult 1 (!more.isEmpty) up r.pos x.handle.num, false, true)
      | none => ({ v with pfx := { v.pfx with staleCount := v.pfx.staleCount + 1, stale := v.pfx.stale ++ [n] } },
            searchResult 2 (!more.isEmpty) up 0 0, true, false) := by
  unfold searchKey
  extract_lets pfx s0 matching
  have first : matching = n :: more := hit
  have passes : checkFails s0 11 (n / 524288) (bad.contains n) = (false, inj, v) := passes
  rw [first]
  dsimp -zeta only
  rw [passes]
  simp only [Bool.false_eq_true, if_false, tabGetD, entry, Option.getD_some, record]
  rfl

end

/-! One key of an insert or a delete. -/

section
variable (s : State) (q : SeqId) (chain scope pos : Nat) {n r : Nat}

/-- A new key takes the lowest free entry of its half, and the lowest free record (R382). -/
theorem prefixEnter_new (new : prefixExact s.pfx q.tenant chain scope = none)
    (entry : lowestFree s.pfx.entries (halfBase chain) (halfBase chain + 524288) = some n)
    (record : lowestFree s.pfx.recs 0 1048576 = some r) : prefixEnter s q chain scope pos = { countUpdate s with
      pfx := { (countUpdate s).pfx with recs := tabSet s.pfx.recs r ⟨q, pos⟩,
                                        entries := tabSet s.pfx.entries n ⟨q.tenant, scope, chain, r⟩ } } := by
  unfold prefixEnter
  extract_lets pfx s0
  have new : prefixExact s0.pfx q.tenant chain scope = none := new
  have entry : lowestFree s0.pfx.entries (halfBase chain) (halfBase chain + 524288) = some n := entry
  have record : lowestFree s0.pfx.recs 0 1048576 = some r := record
  rw [new]
  dsimp -zeta only
  rw [entry, record]
  rfl

/-- A key that the index holds takes a new record in the place of the old one (R382). -/
theorem prefixEnter_again {e : PrefEntry} (held : prefixExact s.pfx q.tenant chain scope = some n)
    (entry : tabGet s.pfx.entries n = some e) (record : lowestFree (tabDel s.pfx.recs e.record) 0 1048576 = some r) :
    prefixEnter s q chain scope pos = { countUpdate s with pfx := { (countUpdate s).pfx with
      recs := tabSet (tabDel s.pfx.recs e.record) r ⟨q, pos⟩, entries := tabSet s.pfx.entries n { e with record := r } } } := by
  unfold prefixEnter
  extract_lets pfx s0
  have held : prefixExact s0.pfx q.tenant chain scope = some n := held
  have entry : tabGetD s0.pfx.entries n ⟨0, 0, 0, 0⟩ = e := congrArg (Option.getD · _) entry
  have record : lowestFree (tabDel s0.pfx.recs e.record) 0 1048576 = some r := record
  rw [held]
  dsimp -zeta only
  rw [entry]
  dsimp only
  rw [record]
  rfl

/-- The delete of a key that the index holds (R383, R385). -/
theorem deleteKeys_held {tenant : Nat} (bad : List Nat) (held : prefixExact s.pfx tenant chain scope = some n) :
    deleteKeys tenant bad [(chain, scope)] s = prefixOne (countUpdate s) (some n) bad fun s => prefixRemove s n := by
  simp only [deleteKeys, List.foldl_cons, List.foldl_nil, held, Bool.false_or, Prod.mk.eta]
  rfl

theorem deleteKeys_absent {tenant : Nat} (bad : List Nat) (absent : prefixExact s.pfx tenant chain scope = none) :
    deleteKeys tenant bad [(chain, scope)] s = (countUpdate s, false) := by
  simp only [deleteKeys, List.foldl_cons, List.foldl_nil, absent, prefixOne, Bool.false_or]
  rfl

end

/-- The keys after one that stops a search are SKIPPED (R381). -/
theorem searchKeys_skipped (tenant mc ms : Nat) (stop : Bool) (bad : List Nat) (s : State) : ∀ ks : List (Nat × Nat),
    searchKeys tenant mc ms stop bad ks s true = (s, ks.map fun _ => searchResult 3 false false 0 0)
  | [] => rfl
  | (chain, scope) :: ks => by rw [searchKeys, if_pos rfl, searchKeys_skipped tenant mc ms stop bad s ks, List.map_cons]

theorem prefixOne_fails {s v : State} {n : Nat} {bad : List Nat} {inj : Bool} (f : State → State)
    (fails : checkFails s 11 (n / 524288) (bad.contains n) = (true, inj, v)) :
    prefixOne s (some n) bad f = (prefixParity v n inj, true) := by simp only [prefixOne, fails, if_true]

theorem prefixOne_passes {s v : State} {n : Nat} {bad : List Nat} {inj : Bool} (f : State → State)
    (passes : checkFails s 11 (n / 524288) (bad.contains n) = (false, inj, v)) :
    prefixOne s (some n) bad f = (f v, false) := by simp only [prefixOne, passes, Bool.false_eq_true, if_false]

/-- Settles O39: the refusals and effects of the prefix commands, and what one key of each brings about (R378 to R385, R389, R390). -/
theorem prefixCommands : Obligations.PrefixCommands := by
  refine ⟨?_, ?_, ?_⟩
  · rintro s u c bad turn alone rfl
    refine ⟨fun stop count mc ms cs body tenant => ?_, fun stop count mc ms cs body tenant => ?_, fun count body tenant => ?_,
      fun count body tenant => ?_, fun k body tenant => ⟨fun own => ?_, fun other => ?_⟩,
      fun sys => ⟨fun stop casc count mc ms cs body => ?_, fun count body => ?_, fun bySeq count body => ?_⟩⟩
    · rw [exec_prefixSearch bad turn alone body, if_neg (by simp [tenant]), if_neg Bool.false_ne_true]
    · rw [exec_prefixSearch bad turn alone body, if_neg (by simp [tenant]), if_pos rfl, cascadeStart]
      have open_ (mode : fld s 0x50000 0 0 = 1) (clear : (dropStale s).pfx.cascErr = false) :
          ¬(fld (dropStale s) 0x50000 0 0 = 0 ∨ (dropStale s).pfx.cascErr = true) := by
        rw [dropStale_fld]
        simp [mode, clear]
      refine ⟨fun refused => ?_, fun mode clear counted wrong => ?_, fun mode clear follows => ?_⟩
      · rw [if_pos (by rwa [dropStale_fld])]
      · rw [if_neg (open_ mode clear), if_pos (by simp [counted, wrong])]
      · rw [if_neg (open_ mode clear), if_neg, dropStale_now]
        rcases follows with start | next
        · simp [start]
        · simp [next]
    · rw [exec_prefixInsert bad turn alone body, if_neg (by simp [tenant])]
      refine ⟨fun st refused => by rw [refused], fun fits => by rw [fits]⟩
    · rw [exec_prefixDelete bad turn alone body, if_neg (by simp [tenant]), if_neg Bool.false_ne_true]
    · refine ⟨leaveToSweep (dropStale s) c, ?_, rfl, fun n e listed => leaveToSweep_marks _ c listed, rfl⟩
      rw [exec_prefixDelete bad turn alone body, if_neg (by simp [tenant]), if_pos rfl, if_neg (not_not.2 own)]
    · rw [exec_prefixDelete bad turn alone body, if_neg (by simp [tenant]), if_pos rfl, if_pos other]
    · rw [exec_prefixSearch bad turn alone body, if_pos sys]
    · rw [exec_prefixInsert bad turn alone body, if_pos sys]
    · rw [exec_prefixDelete bad turn alone body, if_pos sys]
  · rintro s v tenant chain scope mc ms up bad rfl
    refine ⟨searchKey_miss s tenant chain scope mc ms up bad, fun n more inj v1 hit =>
      ⟨searchKey_parity s tenant chain scope mc ms up bad hit,
        fun e r passes entry record => ⟨fun x held stays => ?_, fun lost => ?_⟩⟩,
      fun stop ks => searchKeys_skipped tenant mc ms stop bad s ks⟩
    · rw [searchKey_passes s tenant chain scope mc ms up bad hit passes entry record, held]
      exact if_neg (by simpa using stays)
    · rw [searchKey_passes s tenant chain scope mc ms up bad hit passes entry record]
      rcases lost with absent | ⟨x, held, evicting⟩
      · rw [absent]
      · rw [held]
        exact if_pos (by simp [evicting])
  · rintro s v q chain scope pos r rfl
    refine ⟨fun n => prefixEnter_new s q chain scope pos, fun n e => prefixEnter_again s q chain scope pos,
      fun tenant n inj v1 bad held => ⟨fun passes => ?_, fun fails => ?_⟩, fun tenant bad absent => ?_⟩
    · rw [deleteKeys_held s chain scope bad held]
      exact prefixOne_passes _ passes
    · rw [deleteKeys_held s chain scope bad held]
      exact prefixOne_fails _ fails
    · exact deleteKeys_absent s chain scope bad absent

end Sys2Proof.Machine
